-- ==== Sys2Proof/Word.lean ====
section
/-!
DEFINITION. The word types of the NQZ-4812 (spec/00_scope.md R4, spec/02_bundles.md R54).
-/
namespace Sys2Proof
set_option Elab.async false

/-- One byte. -/
abbrev Byte := BitVec 8
/-- A syllable, a header or an extension word (R27, R34, R40). -/
abbrev Word32 := BitVec 32
/-- The contents of an s register, a k register or a system register (R54, R173). -/
abbrev Word := BitVec 64
/-- A virtual address, the contents of an a register and of the program counter (R32, R54). -/
abbrev VAddr := BitVec 72
/-- The contents of a v register: 64 lanes of 32 bits, lane 0 lowest (R54, R87). -/
abbrev VWord := BitVec 2048

/-- A sparse table: keys strictly rising, no entry equal to the value that an unlisted key reads as
(`Host.Cell` lists are the tables of bytes). The operations are in Machine/Ops.lean. -/
abbrev SMap (V : Type) := List (Nat × V)

end Sys2Proof
end

