-- ==== Sys2Proof/Syntax.lean ====
section
/-!
DEFINITION. The instructions of the NQZ-4812: one constructor for each row of spec/opcode_table.json.
The first 194 are the syllables of the eight slots (spec/02_bundles.md R41 to R48). The others are the
steps of the device that have no encoding (spec/95_what_each_step_holds.md); each carries the data
that the step has from outside, and acts on the state alone otherwise.
-/
namespace Sys2Proof
set_option Elab.async false

abbrev SReg := BitVec 6
abbrev AReg := BitVec 5
abbrev PReg := BitVec 4
abbrev VReg := BitVec 6
abbrev KReg := BitVec 3
abbrev ZReg := BitVec 2
abbrev TReg := BitVec 8

/-- The slots of a bundle (R27, R34). -/
inductive Slot where
  | b | s | a | v | m | x | c | q
deriving DecidableEq, Repr

/-- The guard of a syllable: predicate p[GP], inverted when GN is 1 (R35). -/
structure Guard where
  n : BitVec 1
  p : PReg
deriving DecidableEq, Repr

/-- The VX extension of slot V (R40): the bits [31:8] that an instruction defines, saturate, rounding, format. -/
structure VX where
  sub : BitVec 24
  sat : BitVec 1
  rm  : BitVec 3
  fmt : BitVec 4
deriving DecidableEq, Repr

/-- The MX extension of a pass (R40, R263): FS, N and the format word. -/
structure MX where
  fs   : BitVec 1
  n    : BitVec 2
  word : BitVec 16
deriving DecidableEq, Repr

/-- The MRD extension (R270). -/
structure MrdX where
  e    : TReg
  epi  : BitVec 1
  relu : BitVec 1
  sat  : BitVec 1
  int  : BitVec 1
deriving DecidableEq, Repr

/-- The XE extension of slot X (R295). -/
structure XE where
  srow : BitVec 8
  drow : BitVec 8
  nm1  : BitVec 8
  aux  : BitVec 8
deriving DecidableEq, Repr

/-- The TALLOC extension (R220). -/
structure TallocX where
  level  : BitVec 1
  fmt    : BitVec 4
  rbm1   : BitVec 12
  rowsm1 : BitVec 8
deriving DecidableEq, Repr

/-- An Amiux datagram as it reaches the receive pipeline (R339, R340): where it came from, the checks of
the outer layers, the header fields, the ciphertext and the tag. -/
structure Packet where
  port    : Nat
  srcIp   : BitVec 128
  srcMac  : BitVec 48
  srcPort : BitVec 16
  vlan    : BitVec 16
  udpPort : BitVec 16
  udpLen  : Nat
  ver     : Byte
  typ     : Byte
  part    : Byte
  flags   : Byte
  func    : BitVec 32
  rid     : BitVec 64
  nonce   : BitVec 96
  len     : BitVec 32
  ct      : List Byte
  tag     : BitVec 128
deriving DecidableEq, Repr

/-- The board image, with what a bring-up meets besides (R463, R465, R466). Of the image: every byte but the signature, the vendor root
key and the signature over those bytes, and what the bytes say: the header, the firmware, the identity certificate, the
security version, DEBUG, the fabric key and the factory unit map. Besides: the least security version that the board controller accepts,
the units that fail training or self-test, and whether a failure of R466 that ends bring-up occurs. -/
structure BoardImage where
  bytes    : List Byte
  rootKey  : Nat × Nat
  sig      : Nat × Nat
  header   : List Byte
  firmware : List Byte
  cert     : List Byte
  svn      : Nat
  minSvn   : Nat
  debug    : Bool
  fabric   : BitVec 256
  pens     : BitVec 192
  clusters : BitVec 48
  hbm      : BitVec 12
  eth      : BitVec 64
  badPens  : BitVec 192
  badClusters : BitVec 48
  badHbm   : BitVec 12
  badEth   : BitVec 64
  d2dFail  : Bool
  ioFail   : Bool
  hostFail : Bool
deriving DecidableEq, Repr

/-- How a self-test run ends (R434). -/
inductive TestEnd where
  | pass | fail
deriving DecidableEq, Repr

/-- The instructions: syllables by slot, then the steps of the device. -/
inductive Instr where
  -- slot B (R41)
  | br (g : Guard) (x y : SReg)
  | bri (g : Guard) (off : BitVec 21)
  | call (g : Guard) (off : BitVec 21)
  | ret (g : Guard) (x : SReg)
  | loop (g : Guard) (lc : BitVec 2) (x : SReg) (fin : BitVec 13)
  | loopi (g : Guard) (lc : BitVec 2) (fin : BitVec 13) (n : Word32)
  | lbrk (g : Guard) (lc : BitVec 2) (fin : BitVec 13)
  | susp (g : Guard) (desc : Word32)
  | suspFence (g : Guard) (x y : SReg) (desc : Word32)
  | suspLend (g : Guard) (x y : SReg) (desc : Word32)
  | suspBar (g : Guard) (x y : SReg) (desc : Word32)
  | yield (g : Guard)
  | spawn (g : Guard) (x y : SReg) (stage : BitVec 4)
  | retire (g : Guard)
  | reqdone (g : Guard) (x : SReg)
  | cres (g : Guard) (x : SReg)
  | cresSkip (g : Guard) (x : SReg)
  | waitc (g : Guard) (nl ns nc nt nq : BitVec 4)
  | waitf (g : Guard) (x y : SReg) (p : PReg) (ext : Bool)
  | waitfLend (g : Guard) (x y : SReg) (p : PReg)
  | finc (g : Guard) (x y : SReg) (amount : Option Word32)
  | fincSet (g : Guard) (x y : SReg) (amount : Option Word32)
  | fence (g : Guard) (before after : BitVec 6)
  | gbar (g : Guard) (x : SReg) (bar : BitVec 4)
  | evpost (g : Guard) (x y : SReg) (code : Option Byte)
  | trap (g : Guard) (x : SReg)
  | trapSys (g : Guard) (x : SReg)
  | ckpt (g : Guard)
  | srd (g : Guard) (x : SReg) (sys : BitVec 12)
  | swr (g : Guard) (x : SReg) (sys : BitVec 12)
  -- slot S (R42)
  | add (g : Guard) (d a b : SReg) (f : BitVec 3)
  | addi (g : Guard) (d a : SReg) (imm : BitVec 9) (ext : Option Word32)
  | sub (g : Guard) (d a b : SReg) (f : BitVec 3)
  | mul (g : Guard) (d a b : SReg) (f : BitVec 3)
  | mulh (g : Guard) (d a b : SReg)
  | mulhu (g : Guard) (d a b : SReg)
  | div (g : Guard) (d a b : SReg) (f : BitVec 3)
  | divu (g : Guard) (d a b : SReg) (f : BitVec 3)
  | rem (g : Guard) (d a b : SReg) (f : BitVec 3)
  | remu (g : Guard) (d a b : SReg) (f : BitVec 3)
  | and (g : Guard) (d a b : SReg)
  | andi (g : Guard) (d a : SReg) (imm : BitVec 9) (ext : Option Word32)
  | or (g : Guard) (d a b : SReg)
  | ori (g : Guard) (d a : SReg) (imm : BitVec 9) (ext : Option Word32)
  | xor (g : Guard) (d a b : SReg)
  | xori (g : Guard) (d a : SReg) (imm : BitVec 9) (ext : Option Word32)
  | andn (g : Guard) (d a b : SReg)
  | sll (g : Guard) (d a b : SReg) (f : BitVec 3)
  | slli (g : Guard) (d a : SReg) (w : BitVec 1) (c : BitVec 6)
  | srl (g : Guard) (d a b : SReg) (f : BitVec 3)
  | srli (g : Guard) (d a : SReg) (w : BitVec 1) (c : BitVec 6)
  | sra (g : Guard) (d a b : SReg) (f : BitVec 3)
  | srai (g : Guard) (d a : SReg) (w : BitVec 1) (c : BitVec 6)
  | rot (g : Guard) (d a b : SReg) (f : BitVec 3)
  | min (g : Guard) (d a b : SReg)
  | max (g : Guard) (d a b : SReg)
  | minu (g : Guard) (d a b : SReg)
  | maxu (g : Guard) (d a b : SReg)
  | clz (g : Guard) (d a : SReg) (f : BitVec 3)
  | ctz (g : Guard) (d a : SReg) (f : BitVec 3)
  | popc (g : Guard) (d a : SReg) (f : BitVec 3)
  | sext (g : Guard) (d a : SReg) (f : BitVec 3)
  | zext (g : Guard) (d a : SReg) (f : BitVec 3)
  | li (g : Guard) (d : SReg) (imm : BitVec 15) (ext : Option Word32)
  | lih (g : Guard) (d : SReg) (ext : Word32)
  | sel (g : Guard) (d a b : SReg) (q : BitVec 3)
  | cmp (g : Guard) (pd : PReg) (a b : SReg) (cond : BitVec 5)
  | cmpi (g : Guard) (pd : PReg) (a : SReg) (cond : BitVec 5) (imm : BitVec 6) (ext : Option Word32)
  | pand (g : Guard) (pd pa pb : PReg)
  | por (g : Guard) (pd pa pb : PReg)
  | pxor (g : Guard) (pd pa pb : PReg)
  | pandn (g : Guard) (pd pa pb : PReg)
  | fadd (g : Guard) (d a b : SReg) (rm : BitVec 3)
  | fsub (g : Guard) (d a b : SReg) (rm : BitVec 3)
  | fmul (g : Guard) (d a b : SReg) (rm : BitVec 3)
  | ffma (g : Guard) (d a b : SReg) (rm : BitVec 3)
  | fdiv (g : Guard) (d a b : SReg) (rm : BitVec 3)
  | fsqrt (g : Guard) (d a : SReg) (rm : BitVec 3)
  | fmin (g : Guard) (d a b : SReg)
  | fmax (g : Guard) (d a b : SReg)
  | fcmp (g : Guard) (pd : PReg) (a b : SReg) (cond : BitVec 5)
  | fcvt (g : Guard) (d a : SReg) (sat : BitVec 1) (code : BitVec 5) (rm : BitVec 3)
  -- slot A (R43)
  | aadd (g : Guard) (d a : AReg) (b : SReg)
  | aaddi (g : Guard) (d a : AReg) (imm : BitVec 11) (ext : Option Word32)
  | asub (g : Guard) (d a : AReg) (b : SReg)
  | amov (g : Guard) (d a : AReg) (b : SReg)
  | asplitLo (g : Guard) (a : AReg) (b : SReg)
  | asplitHi (g : Guard) (a : AReg) (b : SReg)
  | ld (g : Guard) (x : SReg) (a : AReg) (sz : BitVec 2) (sx : BitVec 1) (ord : BitVec 2) (off : BitVec 5) (ext : Option Word32)
  | st (g : Guard) (x : SReg) (a : AReg) (sz : BitVec 2) (ord : BitVec 2) (off : BitVec 5) (ext : Option Word32)
  | lda (g : Guard) (d a : AReg) (ord : BitVec 2) (off : BitVec 9)
  | sta (g : Guard) (d a : AReg) (ord : BitVec 2) (off : BitVec 9)
  | pref (g : Guard) (a : AReg) (sz : BitVec 2) (off : BitVec 5) (ext : Option Word32)
  | amoAdd (g : Guard) (d : SReg) (a : AReg) (b : SReg) (sz : BitVec 1) (ord : BitVec 2)
  | amoAnd (g : Guard) (d : SReg) (a : AReg) (b : SReg) (sz : BitVec 1) (ord : BitVec 2)
  | amoOr (g : Guard) (d : SReg) (a : AReg) (b : SReg) (sz : BitVec 1) (ord : BitVec 2)
  | amoXor (g : Guard) (d : SReg) (a : AReg) (b : SReg) (sz : BitVec 1) (ord : BitVec 2)
  | amoMin (g : Guard) (d : SReg) (a : AReg) (b : SReg) (sz : BitVec 1) (ord : BitVec 2)
  | amoMax (g : Guard) (d : SReg) (a : AReg) (b : SReg) (sz : BitVec 1) (ord : BitVec 2)
  | amoMinu (g : Guard) (d : SReg) (a : AReg) (b : SReg) (sz : BitVec 1) (ord : BitVec 2)
  | amoMaxu (g : Guard) (d : SReg) (a : AReg) (b : SReg) (sz : BitVec 1) (ord : BitVec 2)
  | amoSwap (g : Guard) (d : SReg) (a : AReg) (b : SReg) (sz : BitVec 1) (ord : BitVec 2)
  | cas (g : Guard) (d : SReg) (a : AReg) (b : SReg) (sz : BitVec 1) (ord : BitVec 2)
  | red (g : Guard) (op : BitVec 4) (a : AReg) (b : SReg) (sz : BitVec 1) (ord : BitVec 2)
  | talloc (g : Guard) (t : TReg) (x : SReg) (tx : TallocX)
  | tfree (g : Guard) (t : TReg)
  | tqry (g : Guard) (t : TReg) (x : SReg)
  -- slot V (R44)
  | vadd (g : Guard) (d a b : VReg) (k : KReg) (vx : Option VX)
  | vsub (g : Guard) (d a b : VReg) (k : KReg) (vx : Option VX)
  | vmul (g : Guard) (d a b : VReg) (k : KReg) (vx : Option VX)
  | vfma (g : Guard) (d a b : VReg) (k : KReg) (vx : Option VX)
  | vfms (g : Guard) (d a b : VReg) (k : KReg) (vx : Option VX)
  | vabs (g : Guard) (d a : VReg) (k : KReg) (vx : Option VX)
  | vmin (g : Guard) (d a b : VReg) (k : KReg) (vx : Option VX)
  | vmax (g : Guard) (d a b : VReg) (k : KReg) (vx : Option VX)
  | vdiv (g : Guard) (d a b : VReg) (k : KReg) (vx : Option VX)
  | vrcp (g : Guard) (d a : VReg) (k : KReg) (vx : Option VX)
  | vrsq (g : Guard) (d a : VReg) (k : KReg) (vx : Option VX)
  | vsqrt (g : Guard) (d a : VReg) (k : KReg) (vx : Option VX)
  | vexp (g : Guard) (d a : VReg) (k : KReg) (vx : Option VX)
  | vexp2 (g : Guard) (d a : VReg) (k : KReg) (vx : Option VX)
  | vlog2 (g : Guard) (d a : VReg) (k : KReg) (vx : Option VX)
  | vtanh (g : Guard) (d a : VReg) (k : KReg) (vx : Option VX)
  | vsigm (g : Guard) (d a : VReg) (k : KReg) (vx : Option VX)
  | vand (g : Guard) (d a b : VReg) (k : KReg) (vx : Option VX)
  | vor (g : Guard) (d a b : VReg) (k : KReg) (vx : Option VX)
  | vxor (g : Guard) (d a b : VReg) (k : KReg) (vx : Option VX)
  | vshl (g : Guard) (d a b : VReg) (k : KReg) (vx : Option VX)
  | vshr (g : Guard) (d a b : VReg) (k : KReg) (vx : Option VX)
  | vsra (g : Guard) (d a b : VReg) (k : KReg) (vx : Option VX)
  | vcmp (g : Guard) (kd : KReg) (a b : VReg) (cond : BitVec 5) (vx : Option VX)
  | vsel (g : Guard) (d a b : VReg) (k : KReg) (vx : Option VX)
  | vcvt (g : Guard) (d a : VReg) (k : KReg) (vx : Option VX)
  | vred (g : Guard) (d a : VReg) (k : KReg) (vx : Option VX)
  | vscan (g : Guard) (d a : VReg) (k : KReg) (vx : Option VX)
  | vbcast (g : Guard) (d : VReg) (b : SReg) (k : KReg) (vx : Option VX)
  | vins (g : Guard) (d : VReg) (a b : SReg) (vx : Option VX)
  | vext (g : Guard) (d : SReg) (a : VReg) (b : SReg) (vx : Option VX)
  | vperm (g : Guard) (d a b : VReg) (k : KReg) (vx : Option VX)
  | viota (g : Guard) (d : VReg) (b : SReg) (k : KReg) (vx : Option VX)
  | vmov (g : Guard) (d a : VReg) (k : KReg) (vx : Option VX)
  | vld (g : Guard) (v : VReg) (t : TReg) (x : SReg) (vx : Option VX)
  | vst (g : Guard) (v : VReg) (t : TReg) (x : SReg) (vx : Option VX)
  | vldx (g : Guard) (v : VReg) (t : TReg) (x : VReg) (vx : Option VX)
  | vstx (g : Guard) (v : VReg) (t : TReg) (x : VReg) (vx : Option VX)
  | vdot (g : Guard) (d a b : VReg) (k : KReg) (vx : Option VX)
  | vso (g : Guard) (d a b : VReg) (k : KReg) (vx : Option VX)
  | vcmul (g : Guard) (d a b : VReg) (k : KReg) (vx : Option VX)
  | vcmac (g : Guard) (d a b : VReg) (k : KReg) (vx : Option VX)
  | vconj (g : Guard) (d a : VReg) (k : KReg) (vx : Option VX)
  | kand (g : Guard) (kd ka kb : KReg)
  | kor (g : Guard) (kd ka kb : KReg) (x : SReg)
  | kxor (g : Guard) (kd ka kb : KReg) (x : SReg)
  | knot (g : Guard) (kd ka : KReg)
  | kpop (g : Guard) (ka kb : KReg) (x : SReg)
  -- slot M (R45)
  | mmul (g : Guard) (z : ZReg) (ta tb : TReg) (acc : BitVec 1) (mx : MX)
  | mmulw (g : Guard) (z : ZReg) (ta tb : TReg) (acc : BitVec 1) (mx : MX)
  | mmulwT (g : Guard) (z : ZReg) (ta : TReg) (b : SReg) (acc : BitVec 1) (mx : MX)
  | mspec (g : Guard) (z : ZReg) (ta tb : TReg) (acc : BitVec 1) (mx : MX)
  | mzero (g : Guard) (z : ZReg) (dom : BitVec 1)
  | mrd (g : Guard) (z : ZReg) (t : TReg) (y : SReg) (mx : Option MrdX)
  | mrdv (g : Guard) (z : ZReg) (v : VReg) (y : SReg)
  | mfmt (g : Guard) (i : BitVec 4) (y : SReg) (w : Option (BitVec 16))
  | mstat (g : Guard) (d : SReg)
  -- slot X (R46)
  | xexp (g : Guard) (d a : TReg) (uc : BitVec 2) (xe : Option XE)
  | xcmp (g : Guard) (d a : TReg) (uc : BitVec 2) (xe : Option XE)
  | xtrn (g : Guard) (d a : TReg) (uc : BitVec 2) (xe : Option XE)
  | xcvt (g : Guard) (d a : TReg) (sat : BitVec 1) (xe : Option XE)
  | xdft (g : Guard) (d a : TReg) (bc : BitVec 3) (xe : Option XE)
  | xidft (g : Guard) (d a : TReg) (bc : BitVec 3) (xe : Option XE)
  | xidftAcc (g : Guard) (d : TReg) (z : ZReg) (bc : BitVec 3) (xe : Option XE)
  | xtag (g : Guard) (t : TReg) (dom : BitVec 1) (xe : Option XE)
  | xtagAcc (g : Guard) (z : ZReg) (dom : BitVec 1) (xe : Option XE)
  | xmov (g : Guard) (d a : TReg) (xe : Option XE)
  | xfill (g : Guard) (d : TReg) (x : SReg) (xe : Option XE)
  -- slot C (R47)
  | cpy (g : Guard) (x y w : SReg) (sat fen : BitVec 1) (crc : Option Word32)
  | gath (g : Guard) (x y w : SReg) (sat fen : BitVec 1) (crc : Option Word32)
  | scat (g : Guard) (x y w : SReg) (sat fen : BitVec 1) (crc : Option Word32)
  | cpyn (g : Guard) (x y w : SReg) (fen : BitVec 1)
  | nrecv (g : Guard) (x y w : SReg) (fen : BitVec 1)
  | ring (g : Guard) (x y w : SReg)
  | cseg (g : Guard) (x y w : SReg) (nowait : BitVec 1)
  -- slot Q (R48)
  | sqnew (g : Guard) (x y : SReg)
  | sqres (g : Guard) (x y w : SReg) (ext : Option Word32)
  | sqput (g : Guard) (x y w : SReg) (ext : Option Word32)
  | sqcmt (g : Guard) (x y w : SReg) (ext : Option Word32)
  | sqlen (g : Guard) (x y : SReg) (rl : BitVec 1)
  | sqwait (g : Guard) (x y w : SReg) (ext : Option Word32)
  | sqfork (g : Guard) (x y w : SReg) (ext : Option Word32)
  | sqrel (g : Guard) (y : SReg)
  | sqget (g : Guard) (x y w : SReg) (ext : Option Word32)
  | sqatt (g : Guard) (x4 : BitVec 4) (y w : SReg)
  | sqmrg (g : Guard) (x y w : SReg)
  | sqinfo (g : Guard) (x y : SReg) (f : BitVec 3)
  -- steps of a core
  | resultLand (c : Nat)
  | loopEndStep (c : Nat)
  | waitcRelease (c : Nat)
  | waitfRelease (c : Nat)
  | fenceSatisfied (c : Nat)
  | suspFrameWrite (c : Nat)
  | retireComplete (c : Nat)
  | releaseApply (op : Nat)
  | scalarAccessComplete (op : Nat)
  | tileAccessComplete (op : Nat)
  | passLanding (c : Nat)
  | waitedPassComplete (op : Nat)
  | mrdLanding (c : Nat) (op : Nat)
  | xStepLanding (c : Nat)
  | cCommandComplete (op : Nat)
  | qCommandComplete (op : Nat)
  -- steps of the Fold
  | pinGrant (pen group : Nat)
  | foldArrival (op : Nat)
  | foldDeadline (group : Nat)
  | foldGroupStart (pen : Nat)
  | foldSplit (group : Nat)
  | foldPassRetry (group : Nat)
  -- stopping and resuming
  | freeze (c : Nat)
  | freezeComplete (c : Nat)
  | carriedAccessComplete (op : Nat)
  | continuationResume (c : Nat)
  | lateFault (c : Nat)
  | handlerCreation
  | checkpointInterval (c : Nat)
  | forcedCheckpoint (c : Nat)
  | rollback (c source : Nat)
  | containedError (c source op : Nat)
  | fatalError (bank source unit : Nat)
  | ptsTick (c : Nat)
  -- packets
  | requestPacketReceive (p : Packet)
  | peerMessageReceive (p : Packet)
  | ringStepReceive (p : Packet)
  | ringBreakReceive (p : Packet)
  | segmentPageMessage (p : Packet)
  | ringTimeout (op : Nat)
  | unexpectedMessageExpiry (mc : Nat)
  -- the Shepherd
  | shepherdSelect
  | newBinding
  | bindingLaunchAfterFreeze
  | rebinding
  | sliceEnd (bind : Nat)
  | npExpiry (bind : Nat)
  | bindingEnd (bind : Nat)
  -- segments and sequences
  | carderPageArrival (seg page : Nat) (data : List Byte)
  | segWaitExpiry (op : Nat)
  | segmentDrain (seg : Nat)
  | blockGrantAnswer (op : Nat)
  | blockPoison (part blk : Nat)
  | sequencePoisoning (part : Nat)
  -- windows and registers
  | twaysPendingApply (cl : Nat)
  | clcfgWrite (fn cl : Nat) (v : Word)
  | mctxWriteIdle (fn mc : Nat)
  | mctxWriteHalted (fn mc : Nat)
  | mctxWriteFree (fn mc : Nat)
  | ticketsWrite (fn mc : Nat) (v : Nat)
  | paramverWrite (fn mc : Nat) (v : VAddr)
  | fenceAlloc (fn n part : Nat)
  | fenceFree (fn n : Nat)
  | contctlResume (fn mc slot : Nat)
  | contctlSkip (fn mc slot : Nat)
  | contctlAbort (fn mc slot : Nat)
  | queueEnable (fn q : Nat)
  | queueDisable (fn q : Nat)
  | notify (fn q : Nat) (tail : Word32) (relaxed : Bool)
  | pollingSlotVisit (slot : Nat)
  | ringCtimeExpiry (fn ring : Nat)
  | cdropRead (fn : Nat)
  | shootdown (fn : Nat) (wake : Bool)
  | shootdownDone (fn : Nat)
  | sliceWrite (v : Word32)
  | segwaitWrite (v : Word32)
  | cxlenWrite (v : Word32)
  | biasFlipToHost (page : Nat)
  | biasFlipToDevice (page : Nat)
  | biasFlipDone
  -- mailbox commands (R461, R469)
  | grant (cl part size count : Nat)
  | returnBlocks (cl part : Nat) (blocks : List Nat)
  | status (tag : Byte) (part : Nat)
  | test (tag : Byte) (part ukind level uindex : Nat) (result : TestEnd)
  | seginst (tag : Byte) (part src peer : Nat) (flashOff haddr : Nat)
  | segrel (tag : Byte) (part seg : Nat)
  | segmap (tag : Byte) (part seg first n laddr : Nat)
  | mapq (tag : Byte) (part func queue np npqmax : Nat)
  | unmapq (tag : Byte) (part func queue : Nat)
  | blkpool (tag : Byte) (part base bytes : Nat)
  | unitmap (tag : Byte)
  | memckpt (tag : Byte) (fn flags ports route0 haddr hbytes : Nat) (key : BitVec 256)
  | ckptstat (tag : Byte)
  | ckptend (tag : Byte) (fn : Nat)
  | mailboxReply
  | checkpointStreamFailure (stream : Nat)
  | checkpointCopyEnd
  | functionLevelReset (fn : Nat)
  | cxlMemAccess (addr : Nat) (write : Option (List Byte)) (len : Nat)
  | registerWrite (fn bar off len : Nat) (v : Word)
  -- SPDM (R468)
  | getVersion (fn : Nat)
  | getCapabilities (fn : Nat)
  | negotiateAlgorithms (fn : Nat) (p521 sha512 : Bool)
  | getDigests (fn : Nat)
  | getCertificate (fn slot off len : Nat)
  | challenge (fn slot : Nat) (nonce : BitVec 256)
  /-- the index, with a nonce when a signature is asked for -/
  | getMeasurements (fn : Nat) (index : Nat × Option (BitVec 256))
  -- power and board
  | powerGood (img : BoardImage)
  | bringupComplete
  | throttleStepUp (island : Nat)
  | throttleStepDown (island : Nat)
  | thermalTrip (island : Nat)
  | i3cReset (img : BoardImage)
  | emptyBundle (sk : BitVec 4)
  | manifestRead (seg : Nat) (bytes : List Byte)
  | powerRemoval
  | ethernetLinkChange (port : Nat) (up : Bool)
  | boundaryScan
deriving DecidableEq, Repr

end Sys2Proof
end

