-- ==== Sys2Proof/Config.lean ====
section
/-!
DEFINITION. The free values of the model: constants with no body, so that nothing in Lean can say which
value they give. A step applies one of them to the counter `State.free` (a fresh value each time) or to the
operands that the value depends on (notes/assumptions/3.md).
-/
namespace Sys2Proof
set_option Elab.async false

/-- One thing that can happen next (DESIGN CHOICE, log 4): an event, one cycle of a core, the end of a cycle of a cluster, one nanosecond of
reference time. -/
inductive Move where
  | clock
  | core (c : Nat)
  | cluster (cl : Nat)
  | ev (i : Instr)
  /-- a host read of `n` bytes of a BAR (R8, R437, R438); a PCI Express configuration read (R464); a host request that uses an unsupported
  part of a standard (R435) -/
  | hostRead (fn bar off n : Nat)
  | configRead (fn off : Nat)
  | unsupported (fn : Nat)
  /-- a PCI Express configuration write of 4 bytes (R464, R459) -/
  | configWrite (fn off v : Nat)
  /-- a function-level reset that is under way completes (R458) -/
  | resetDone (fn : Nat)
  /-- a read of the board controller over I3C (R476): STATUS and BOOTERR, or a machine-check bank -/
  | i3cRead (bank : Option Nat)
  /-- a frame reaches an Ethernet port (spec/12_movement_class.md, Amiux) -/
  | frame (port : Nat) (bytes : List Byte)
  /-- a memory checkpoint goes on by one step of a stream (R474) -/
  | ckptStep (stream : Nat)
  /-- an SPDM request of another code than the seven that are supported (R468) -/
  | spdmRequest (fn code : Nat)
deriving DecidableEq, Repr, Inhabited

/-- What happens next when the inbox names nothing (DESIGN CHOICE, log 4). -/
opaque Config.nextMove : Nat → Move
/-- What a configuration read of a function returns (R464), by what has been written there last: the spec lists no configuration space
(DESIGN CHOICE, log 125). -/
opaque Config.configSpace : Nat → Nat → Option Nat → Nat
/-- A configuration write of a value at an offset starts a function-level reset (R459) (DESIGN CHOICE, log 125). -/
opaque Config.startsReset : Nat → Nat → Bool
/-- The code of a memory checkpoint's STATE (R469), which the spec does not number: 0 idle, 1 running, 2 done, 3 failed, 4 held
(DESIGN CHOICE, log 3). -/
opaque Config.ckptCode : Nat → Byte
/-- Choices that the spec leaves to the device: which of several allowed outcomes occurs (DESIGN CHOICE, log 3). -/
opaque Config.pick : Nat → Nat
/-- Which of several invalid handles TRAPINFO.DATA names, where the spec names none of them (R226, DESIGN CHOICE, log 3): an index of the list (DESIGN CHOICE, log 39). -/
opaque Config.pickHandle : List Nat → Nat
/-- Bits of a value that the spec leaves open (DESIGN CHOICE, log 3). -/
opaque Config.freeBits : Nat → Nat
/-- Whether an access made before a shootdown uses a cached old entry (R204), by syllable, page and moment (DESIGN CHOICE, log 3). -/
opaque Config.useOld : Nat → Nat → Nat → Bool
/-- Whether a waited pass reads a 64-byte unit of an operand as it stood at its issue (R258), by operation, row and unit (DESIGN
CHOICE, log 3). -/
opaque Config.unitOld : Nat → Nat → Nat → Bool
/-- The result of a transcendental rounding that the interval narrowing of Machine/Transcend.lean has not
decided within its fuel, by function and operand (DEDUCED, log 16). -/
opaque Config.undecided : Nat → Nat → Nat
/-- A signature of the device's identity key over a message (R468); the key comes from the physical
unclonable function of the part (R26) (DESIGN CHOICE, log 17). -/
opaque Config.identitySign : List Byte → List Byte
/-- The SHA-512 of the management core's ROM (R468) (DESIGN CHOICE, log 17). -/
opaque Config.romHash : BitVec 512
/-- The SHA-512 of the vendor root key, which the ROM holds (R465) (DESIGN CHOICE, log 17). -/
opaque Config.rootHash : List Byte
/-- What a parity-, residue- or ECC-check syndrome reads as (R431) (DESIGN CHOICE, log 3). -/
opaque Config.syndrome : Nat → BitVec 16

end Sys2Proof
end

