-- ==== Sys2Proof/Machine/Num.lean ====
section
/-!
DEFINITION. Number formats and rounding (spec/03_numbers.md R86 to R107): decoding of an element into an
exact value, exact arithmetic on those values, and the one rounding function.
-/
namespace Sys2Proof.Machine
set_option Elab.async false
open Sys2Proof

/-! ## Bits -/

/-- The field `x[lo + len - 1 : lo]`. -/
def bitsOf (x lo len : Nat) : Nat := (x >>> lo) % 2 ^ len

/-- `x` as a two's-complement number of `w` bits (R94). -/
def toSigned (w x : Nat) : Int :=
  let y := x % 2 ^ w
  if y < 2 ^ (w - 1) then (y : Int) else (y : Int) - (2 ^ w : Nat)

/-- An integer modulo `2 ^ w` (R10 Truncate). -/
def truncInt (w : Nat) (x : Int) : Nat := (x % ((2 ^ w : Nat) : Int)).toNat

/-- Smallest and largest value of a signed format of `w` bits (R94). -/
def minInt (w : Nat) : Int := -((2 ^ (w - 1) : Nat) : Int)
def maxInt (w : Nat) : Int := ((2 ^ (w - 1) : Nat) : Int) - 1

/-- The nearest value of a range (R180, R106). -/
def clampInt (lo hi x : Int) : Int := if x < lo then lo else if hi < x then hi else x

/-- Little-endian bytes of a number (R4). -/
def toBytes : Nat → Nat → List Byte
  | 0, _ => []
  | n + 1, x => BitVec.ofNat 8 x :: toBytes n (x / 256)

/-- The number that little-endian bytes hold (R4). -/
def ofBytes : List Byte → Nat
  | [] => 0
  | b :: r => b.toNat + 256 * ofBytes r

/-- Number of one bits among the low `n`. -/
def popCount : Nat → Nat → Nat
  | 0, _ => 0
  | n + 1, x => x % 2 + popCount n (x / 2)

/-- Least index below `n` at which `f` holds. -/
def firstIdx (f : Nat → Bool) : Nat → Nat → Option Nat
  | 0, _ => none
  | n + 1, i => if f i then some i else firstIdx f n (i + 1)

/-! ## Flags (R101) -/

abbrev Flags := BitVec 6
def fNX : Flags := 1
def fUF : Flags := 2
def fOF : Flags := 4
def fDZ : Flags := 8
def fNV : Flags := 16
def fSV : Flags := 32

/-- Rounding modes (R101). -/
inductive Rm where
  | rne | rz | rdn | rup
deriving DecidableEq, Repr

/-- The mode of a 2-bit RMODE field (R101). -/
def Rm.ofMode (m : BitVec 2) : Rm :=
  if m = 0 then .rne else if m = 1 then .rz else if m = 2 then .rdn else .rup

/-- The mode of a 3-bit rounding field with RMODE `m`: 0 takes RMODE (R40, R191). -/
def Rm.ofField (m : BitVec 2) (f : BitVec 3) : Rm :=
  if f = 0 then Rm.ofMode m else if f = 1 then .rne else if f = 2 then .rz else if f = 3 then .rdn else .rup

/-! ## Formats (R88 to R90) -/

/-- A floating-point format: fraction bits, exponent bits, and whether it is E4M3, which has no infinity. -/
structure FFmt where
  f    : Nat
  eb   : Nat
  e4m3 : Bool := false
deriving DecidableEq, Repr

def FFmt.fp32 : FFmt := ⟨23, 8, false⟩
def FFmt.fp16 : FFmt := ⟨10, 5, false⟩
def FFmt.bf16 : FFmt := ⟨7, 8, false⟩
def FFmt.fe4m3 : FFmt := ⟨3, 4, true⟩
def FFmt.fe5m2 : FFmt := ⟨2, 5, false⟩

/-- Storage width in bits. -/
def FFmt.width (F : FFmt) : Nat := 1 + F.eb + F.f
def FFmt.bias (F : FFmt) : Nat := 2 ^ (F.eb - 1) - 1
/-- Exponent of the smallest normal value. -/
def FFmt.emin (F : FFmt) : Int := 1 - (F.bias : Int)
/-- Bits of +infinity (IEEE formats). -/
def FFmt.infBits (F : FFmt) : Nat := (2 ^ F.eb - 1) * 2 ^ F.f
/-- Bits of the largest finite value. -/
def FFmt.maxBits (F : FFmt) : Nat := if F.e4m3 then 0x7E else F.infBits - 1
/-- The canonical NaN (R92). -/
def FFmt.nan (F : FFmt) : Nat := if F.e4m3 then 0x7F else F.infBits + 2 ^ (F.f - 1)
def FFmt.signBit (F : FFmt) : Nat := 2 ^ (F.eb + F.f)

/-- An element's value: a NaN, an infinity, a zero, or `(-1)^neg * m * 2^e` with `m > 0`. -/
inductive FVal where
  | nan (signalling : Bool)
  | inf (neg : Bool)
  | zero (neg : Bool)
  | fin (neg : Bool) (m : Nat) (e : Int)
deriving DecidableEq, Repr

/-- The value of a code (R88 to R90). -/
def FFmt.decode (F : FFmt) (x : Nat) : FVal :=
  let neg := bitsOf x (F.eb + F.f) 1 == 1
  let E := bitsOf x F.f F.eb
  let m := bitsOf x 0 F.f
  if F.e4m3 && bitsOf x 0 7 == 0x7F then .nan false
  else if !F.e4m3 && E == 2 ^ F.eb - 1 then
    (if m = 0 then .inf neg else .nan (m < 2 ^ (F.f - 1)))
  else if E = 0 then (if m = 0 then .zero neg else .fin neg m (F.emin - F.f))
  else .fin neg (2 ^ F.f + m) ((E : Int) - F.bias - F.f)

/-- An exact result before rounding: `num / den * 2^e` with `num, den > 0` when finite and nonzero. `nan nv` raises
NV when `nv` holds; `inf neg dz` raises DZ when `dz` holds. -/
inductive Ex where
  | nan (nv : Bool)
  | inf (neg dz : Bool)
  | zero (neg : Bool)
  | fin (neg : Bool) (num den : Nat) (e : Int)
deriving DecidableEq, Repr

def FVal.toEx : FVal → Ex
  | .nan s => .nan s
  | .inf n => .inf n false
  | .zero n => .zero n
  | .fin n m e => .fin n m 1 e

def FVal.isNaN : FVal → Bool
  | .nan _ => true
  | _ => false
def FVal.isSNaN : FVal → Bool
  | .nan s => s
  | _ => false
def FVal.neg? : FVal → Bool
  | .nan _ => false
  | .inf n => n
  | .zero n => n
  | .fin n _ _ => n
/-- Negation of a value. -/
def FVal.negate : FVal → FVal
  | .nan s => .nan s
  | .inf n => .inf (!n)
  | .zero n => .zero (!n)
  | .fin n m e => .fin (!n) m e
def FVal.abs : FVal → FVal
  | .nan s => .nan s
  | .inf _ => .inf false
  | .zero _ => .zero false
  | .fin _ m e => .fin false m e

/-- `x * 2^k` as a fraction of naturals, for an integer `k`. -/
def scale2 (num den : Nat) (k : Int) : Nat × Nat :=
  if k ≥ 0 then (num * 2 ^ k.toNat, den) else (num, den * 2 ^ (-k).toNat)

/-- Rounds `num / den` to an integer by a mode, for a magnitude of the given sign. Also: whether inexact. -/
def roundNat (rm : Rm) (neg : Bool) (num den : Nat) : Nat × Bool :=
  let q := num / den
  let r := num % den
  if r = 0 then (q, false)
  else
    let up := match rm with
      | .rne => decide (den < 2 * r) || (decide (2 * r = den) && q % 2 == 1)
      | .rz => false
      | .rdn => neg
      | .rup => !neg
    (if up then q + 1 else q, true)

/-- floor(log2 (num / den)) for positive `num` and `den`. -/
def log2Q (num den : Nat) : Int :=
  let k : Int := (Nat.log2 num : Int) - (Nat.log2 den : Int)
  let (a, b) := scale2 num den (-k)
  if a < b then k - 1 else k

/-- The one rounding to a floating-point format (R102, R105). `sat` is the saturate option (DEDUCED, log 22). -/
def FFmt.round (F : FFmt) (rm : Rm) (sat : Bool) (x : Ex) : Nat × Flags :=
  match x with
  | .nan nv => (F.nan, if nv then fNV else 0)
  | .inf neg dz =>
    if F.e4m3 then (F.nan, fNV ||| (if dz then fDZ else 0))
    else ((if neg then F.signBit else 0) + F.infBits, if dz then fDZ else 0)
  | .zero neg => (if neg then F.signBit else 0, 0)
  | .fin neg num den e =>
    let s := if neg then F.signBit else 0
    let k := log2Q num den + e
    let kk := if k < F.emin then F.emin else k
    let q := kk - F.f
    let (a, b) := scale2 num den (e - q)
    let (n, nx) := roundNat rm neg a b
    let enc := ((kk + F.bias - 1).toNat) * 2 ^ F.f + n
    if enc > F.maxBits then
      let fl := fOF ||| fNX
      if sat then (s + F.maxBits, fl ||| fSV)
      else if F.e4m3 then (s + F.maxBits, fl)
      else
        let toInf := match rm with
          | .rne => true
          | .rz => false
          | .rdn => neg
          | .rup => !neg
        (s + (if toInf then F.infBits else F.maxBits), fl)
    else
      let tiny :=
        if k < F.emin then
          let (a2, b2) := scale2 num den (e - (k - F.f))
          let (n2, _) := roundNat rm neg a2 b2
          decide (k - F.f + (Nat.log2 n2 : Int) < F.emin)
        else false
      (s + enc, (if nx then fNX else 0) ||| (if nx && tiny then fUF else 0))

/-! ## Exact arithmetic -/

/-- A signed dyadic number as an integer and an exponent. -/
def dyInt (neg : Bool) (m : Nat) : Int := if neg then -(m : Int) else (m : Int)

/-- `i * 2^e`, exactly; a zero gets the sign `zneg`. -/
def Ex.ofInt (i : Int) (e : Int) (zneg : Bool) : Ex :=
  if i = 0 then .zero zneg else .fin (decide (i < 0)) i.natAbs 1 e

/-- Exact sum. The sign of an exact zero is that of R191. -/
def addV (rm : Rm) (x y : FVal) : Ex :=
  match x, y with
  | .nan s, .nan t => .nan (s || t)
  | .nan s, _ => .nan s
  | _, .nan t => .nan t
  | .inf a, .inf b => if a = b then .inf a false else .nan true
  | .inf a, _ => .inf a false
  | _, .inf b => .inf b false
  | .zero a, .zero b => .zero (if a = b then a else rm == .rdn)
  | .zero _, .fin n m e => .fin n m 1 e
  | .fin n m e, .zero _ => .fin n m 1 e
  | .fin n m e, .fin n' m' e' =>
    let lo := if e ≤ e' then e else e'
    Ex.ofInt (dyInt n (m * 2 ^ (e - lo).toNat) + dyInt n' (m' * 2 ^ (e' - lo).toNat)) lo (rm == .rdn)

/-- Exact product; `nan true` for infinity times zero. -/
def mulV (x y : FVal) : FVal × Bool :=
  match x, y with
  | .nan s, .nan t => (.nan false, s || t)
  | .nan s, _ => (.nan false, s)
  | _, .nan t => (.nan false, t)
  | .inf _, .zero _ => (.nan false, true)
  | .zero _, .inf _ => (.nan false, true)
  | .inf a, y => (.inf (a != y.neg?), false)
  | x, .inf b => (.inf (x.neg? != b), false)
  | .zero a, y => (.zero (a != y.neg?), false)
  | x, .zero b => (.zero (x.neg? != b), false)
  | .fin n m e, .fin n' m' e' => (.fin (n != n') (m * m') (e + e'), false)

def mulEx (x y : FVal) : Ex :=
  let (p, nv) := mulV x y
  match p with
  | .nan _ => .nan nv
  | p => p.toEx

/-- `x * y + c`, fused (R191): infinity times zero raises NV whatever the addend. -/
def fmaEx (rm : Rm) (x y c : FVal) : Ex :=
  let (p, nv) := mulV x y
  match p with
  | .nan _ => .nan (nv || c.isSNaN)
  | p => addV rm p c

/-- Exact quotient with the special cases of R107 (DEDUCED, log 109). -/
def divEx (x y : FVal) : Ex :=
  match x, y with
  | .nan s, .nan t => .nan (s || t)
  | .nan s, _ => .nan s
  | _, .nan t => .nan t
  | .inf _, .inf _ => .nan true
  | .zero _, .zero _ => .nan true
  | .inf a, y => .inf (a != y.neg?) false
  | x, .inf b => .zero (x.neg? != b)
  | .fin n _ _, .zero b => .inf (n != b) true
  | .zero a, .fin n _ _ => .zero (a != n)
  | .fin n m e, .fin n' m' e' => .fin (n != n') m m' (e - e')

/-- One Newton descent step for the integer square root; `fuel` bounds the steps. -/
def isqrtGo (n : Nat) : Nat → Nat → Nat
  | 0, x => x
  | k + 1, x =>
    let y := (x + n / x) / 2
    if y < x then isqrtGo n k y else x

/-- floor(sqrt n). -/
def isqrt (n : Nat) : Nat :=
  if n = 0 then 0 else isqrtGo n (Nat.log2 n + 8) (2 ^ (Nat.log2 n / 2 + 1))

/-- Exact square root to 80 or more bits with a sticky half: enough for one rounding to any format (R107). -/
def sqrtEx (x : FVal) : Ex :=
  match x with
  | .nan s => .nan s
  | .inf false => .inf false false
  | .inf true => .nan true
  | .zero n => .zero n
  | .fin true _ _ => .nan true
  | .fin false m e =>
    let m1 := if e % 2 = 0 then m else 2 * m
    let e1 := if e % 2 = 0 then e else e - 1
    let r := isqrt (m1 * 2 ^ 160)
    if r * r = m1 * 2 ^ 160 then .fin false r 1 (e1 / 2 - 80)
    else .fin false (2 * r + 1) 2 (e1 / 2 - 80)

/-- 1 / sqrt x (R107 VRSQ). -/
def rsqrtEx (x : FVal) : Ex :=
  match x with
  | .nan s => .nan s
  | .inf false => .zero false
  | .inf true => .nan true
  | .zero n => .inf n true
  | .fin true _ _ => .nan true
  | .fin false m e =>
    -- sqrt (2^200 / m1) * 2^(-100 - e1/2), m1 * 2^e1 = x with e1 even
    let m1 := if e % 2 = 0 then m else 2 * m
    let e1 := if e % 2 = 0 then e else e - 1
    let r := isqrt (2 ^ 240 / m1)
    if r * r * m1 = 2 ^ 240 then .fin false r 1 (-120 - e1 / 2)
    else .fin false (2 * r + 1) 2 (-120 - e1 / 2)

/-! ## Comparisons and selection -/

/-- The order of two values that are no NaN: -1, 0 or 1; the zeros are equal. -/
def cmpV (x y : FVal) : Int :=
  match addV .rne x y.negate with
  | .zero _ => 0
  | .fin n _ _ _ => if n then -1 else 1
  | .inf n _ => if n then -1 else 1
  | .nan _ => 0  -- equal infinities

/-- `x` is the smaller, with -0 below +0 (R192). -/
def leMin (x y : FVal) : Bool :=
  let c := cmpV x y
  if c = 0 then x.neg? || !y.neg? else decide (c < 0)

/-- FMIN and FMAX by bits (R192). -/
def FFmt.minMax (F : FFmt) (mx : Bool) (a b : Nat) : Nat × Flags :=
  let x := F.decode a
  let y := F.decode b
  let nv := if x.isSNaN || y.isSNaN then fNV else 0
  if x.isNaN && y.isNaN then (F.nan, nv)
  else if x.isNaN then (b % 2 ^ F.width, nv)
  else if y.isNaN then (a % 2 ^ F.width, nv)
  else ((if (leMin x y) != mx then a else b) % 2 ^ F.width, nv)

/-- The floating-point condition codes of R187, and whether NV is raised (R188). -/
def fcondV (cond : Nat) (x y : FVal) : Bool × Bool :=
  let un := x.isNaN || y.isNaN
  let sn := x.isSNaN || y.isSNaN
  let c := cmpV x y
  match cond with
  | 0 => (!un && c == 0, sn)
  | 1 => (un || c != 0, sn)
  | 2 => (!un && decide (c < 0), un)
  | 3 => (!un && decide (c ≥ 0), un)
  | 4 => (!un && decide (c ≤ 0), un)
  | 5 => (!un && decide (c > 0), un)
  | 12 => (un, sn)
  | _ => (!un, sn)

/-- The integer condition codes of R187 on `w`-bit operands. -/
def icond (w cond a b : Nat) : Bool :=
  let sa := toSigned w a
  let sb := toSigned w b
  match cond with
  | 0 => a == b
  | 1 => a != b
  | 2 => decide (sa < sb)
  | 3 => decide (sa ≥ sb)
  | 4 => decide (sa ≤ sb)
  | 5 => decide (sa > sb)
  | 6 => decide (a < b)
  | 7 => decide (a ≥ b)
  | 8 => decide (a ≤ b)
  | 9 => decide (a > b)
  | 10 => (a &&& b) != 0
  | _ => (a &&& b) == 0

/-! ## Conversions (R105, R106) -/

/-- Floating point to an integer range (R106). -/
def toIntF (rm : Rm) (lo hi : Int) (x : FVal) : Int × Flags :=
  match x with
  | .nan _ => (0, fNV)
  | .inf n => (if n then lo else hi, fNV)
  | .zero _ => (0, 0)
  | .fin n m e =>
    let (a, b) := scale2 m 1 e
    let (r, nx) := roundNat rm n a b
    let v := dyInt n r
    if v < lo then (lo, fNV) else if hi < v then (hi, fNV) else (v, if nx then fNX else 0)

/-- An integer as an exact value (R106). -/
def FVal.ofInt (i : Int) : FVal := if i = 0 then .zero false else .fin (decide (i < 0)) i.natAbs 0

/-- Rounding to an integral value of the same format (R193 code 13). -/
def FFmt.integral (F : FFmt) (rm : Rm) (x : FVal) : Nat × Flags :=
  match x with
  | .fin n m e =>
    let (a, b) := scale2 m 1 e
    let (r, nx) := roundNat rm n a b
    let (y, _) := F.round rm false (if r = 0 then .zero n else .fin n r 1 0)
    (y, if nx then fNX else 0)
  | x => F.round rm false x.toEx

/-! ## Elements by format code (R86) -/

/-- Storage unit in bytes (R86). -/
def unitBytes (c : Nat) : Nat :=
  match c with
  | 0 => 4 | 1 => 2 | 2 => 2 | 3 => 1 | 4 => 1 | 5 => 1 | 6 => 1 | 7 => 2 | 8 => 4 | 9 => 1 | 10 => 4 | 11 => 8
  | _ => 1

/-- The floating-point format of a code, if it is one. -/
def ffmtOf (c : Nat) : Option FFmt :=
  match c with
  | 0 => some .fp32 | 1 => some .fp16 | 2 => some .bf16 | 3 => some .fe4m3 | 4 => some .fe5m2
  | _ => none

/-- Smallest and largest value of an integer code (R94). -/
def intRange (c : Nat) : Int × Int :=
  match c with
  | 5 => (-128, 127) | 6 => (0, 255) | 7 => (-32768, 32767) | _ => (-2147483648, 2147483647)

/-- The integer that an element of an integer code holds (R94). -/
def intElem (c x : Nat) : Int :=
  match c with
  | 6 => ((x % 256 : Nat) : Int)
  | c => toSigned (8 * unitBytes c) x

/-- The exact value of a real element of code `c` (R88 to R94). -/
def elemVal (c x : Nat) : FVal :=
  match ffmtOf c with
  | some F => F.decode x
  | none => FVal.ofInt (intElem c x)

/-- Conversion between two real formats of codes at most 8 (R105, R106). -/
def convElem (src dst : Nat) (rm : Rm) (sat : Bool) (x : Nat) : Nat × Flags :=
  match ffmtOf dst with
  | some D => D.round rm sat (elemVal src x).toEx
  | none =>
    let (lo, hi) := intRange dst
    let w := 8 * unitBytes dst
    match ffmtOf src with
    | some S =>
      let (v, fl) := toIntF rm lo hi (S.decode x)
      (truncInt w v, fl)
    | none =>
      let v := intElem src x
      if sat then
        let c := clampInt lo hi v
        (truncInt w c, if c = v then 0 else fSV)
      else (truncInt w v, 0)

/-- The trit digits of a T3 byte (R95); `none` when the byte is ill-formed. -/
def tritOf (b i : Nat) : Option Int :=
  if b ≥ 243 then none
  else
    let d := b / 3 ^ i % 3
    some (if d = 2 then -1 else (d : Int))

end Sys2Proof.Machine
end

