-- ==== Sys2Proof/Machine/Crypto.lean ====
section
/-!
DEFINITION. The codes that the spec names by their public definitions: CRC-32C (spec/12_movement_class.md R337), AES-256-GCM
(R339) and SHA-512 (R323).
-/
namespace Sys2Proof.Machine
set_option Elab.async false
open Sys2Proof

/-- A number of `n` bytes in network order (R339). -/
def toBe (n x : Nat) : List Byte := (toBytes n x).reverse
def ofBe (bs : List Byte) : Nat := ofBytes bs.reverse

/-! ## CRC-32C (R337) -/

def crcBits : Nat → Nat → Nat
  | 0, c => c
  | k + 1, c => crcBits k (if c % 2 = 1 then c / 2 ^^^ 0x82F63B78 else c / 2)

/-- The running value after further bytes; it starts at 0xFFFFFFFF and the check is its complement. -/
def crcUpdate (c : Nat) (bs : List Byte) : Nat := bs.foldl (fun c b => crcBits 8 (c ^^^ b.toNat)) c
def crcStart : Nat := 0xFFFFFFFF
def crcFinal (c : Nat) : Nat := c ^^^ 0xFFFFFFFF

/-! ## AES-256 -/

/-- Multiplication in the field of AES; `k` bits of `b` are left. -/
def gfMul : Nat → Nat → Nat → Nat
  | 0, _, _ => 0
  | k + 1, a, b =>
    let a2 := if a < 128 then 2 * a else (2 * a) ^^^ 0x11B
    (if b % 2 = 1 then a else 0) ^^^ gfMul k a2 (b / 2)

/-- `x` to the power 254: the inverse, and 0 for 0. -/
def gfInv (x : Nat) : Nat :=
  let m := gfMul 8
  let x2 := m x x
  let x4 := m x2 x2
  let x8 := m x4 x4
  let x16 := m x8 x8
  let x32 := m x16 x16
  let x64 := m x32 x32
  m (m (m x2 x4) (m x8 x16)) (m (m x32 x64) (m x64 x64))

def rotl8 (x k : Nat) : Nat := x * 2 ^ k % 256 + x / 2 ^ (8 - k)
def sbox (x : Nat) : Nat :=
  let y := gfInv x
  y ^^^ rotl8 y 1 ^^^ rotl8 y 2 ^^^ rotl8 y 3 ^^^ rotl8 y 4 ^^^ 0x63

def xorL (a b : List Nat) : List Nat := List.zipWith (· ^^^ ·) a b

/-- The key schedule: words already made, latest first, until `k` more have been added; `i` numbers the next word. -/
def keyWords : Nat → Nat → Nat → List (List Nat) → List (List Nat)
  | 0, _, _, ws => ws
  | k + 1, i, rc, ws =>
    let t := ws.headD []
    let t := if i % 8 = 0 then
        xorL ((t.drop 1 ++ t.take 1).map sbox) [rc, 0, 0, 0]
      else if i % 8 = 4 then t.map sbox else t
    keyWords k (i + 1) (if i % 8 = 0 then gfMul 8 rc 2 else rc) (xorL (ws.getD 7 []) t :: ws)

/-- The fifteen round keys of a key of 32 bytes. -/
def roundKeys (key : List Nat) : List (List Nat) :=
  let w0 := (List.range 8).map (fun i => (key.drop (4 * i)).take 4)
  let ws := (keyWords 52 8 1 w0.reverse).reverse
  (List.range 15).map (fun r => ((ws.drop (4 * r)).take 4).flatten)

def shiftRows (x : List Nat) : List Nat := (List.range 16).map (fun i => x.getD ((i + 4 * (i % 4)) % 16) 0)
def mixCol (c : List Nat) : List Nat :=
  (List.range 4).map (fun i =>
    gfMul 8 (c.getD i 0) 2 ^^^ gfMul 8 (c.getD ((i + 1) % 4) 0) 3 ^^^ c.getD ((i + 2) % 4) 0 ^^^ c.getD ((i + 3) % 4) 0)
def mixColumns (x : List Nat) : List Nat := (List.range 4).flatMap (fun c => mixCol ((x.drop (4 * c)).take 4))

/-- One block of 16 bytes under the round keys. -/
def aesRounds : List (List Nat) → List Nat → List Nat
  | [], x => x
  | [k], x => xorL (shiftRows (x.map sbox)) k
  | k :: r, x => aesRounds r (xorL (mixColumns (shiftRows (x.map sbox))) k)
def aesBlock (ks : List (List Nat)) (x : List Nat) : List Nat := aesRounds (ks.drop 1) (xorL x (ks.headD []))

/-! ## GCM -/

/-- Multiplication in the field of GCM; bit 127 of a number is the first bit of its block. -/
def ghMul : Nat → Nat → Nat → Nat
  | 0, _, _ => 0
  | k + 1, x, v =>
    (if x.testBit k then v else 0) ^^^ ghMul k x (if v % 2 = 1 then v / 2 ^^^ (0xE1 * 2 ^ 120) else v / 2)

def blocks16 : Nat → List Byte → List (List Byte)
  | 0, _ => []
  | k + 1, bs => if bs.isEmpty then [] else bs.take 16 :: blocks16 k (bs.drop 16)

/-- GHASH over bytes, padded with zeros to whole blocks. -/
def ghash (h y : Nat) (bs : List Byte) : Nat :=
  (blocks16 (bs.length / 16 + 1) bs).foldl (fun y b => ghMul 128 (y ^^^ ofBe (b ++ List.replicate (16 - b.length) 0)) h) y

def aesNat (ks : List (List Nat)) (x : Nat) : Nat :=
  ofBe ((aesBlock ks ((toBe 16 x).map (·.toNat))).map (BitVec.ofNat 8))

/-- The key stream from a counter block on, applied to bytes. -/
def ctrBytes (ks : List (List Nat)) (j0 : Nat) (bs : List Byte) : List Byte :=
  ((blocks16 (bs.length / 16 + 1) bs).zipIdx.flatMap (fun e =>
    List.zipWith (fun a b => a ^^^ b) e.1 (toBe 16 (aesNat ks (j0 / 2 ^ 32 * 2 ^ 32 + (j0 + 1 + e.2) % 2 ^ 32)))))

/-- A key is the string of its bytes in the order of their addresses (DEDUCED, log 35): byte 0 is the lowest. -/
def gcmKeys (key : BitVec 256) : List (List Nat) := roundKeys ((toBytes 32 key.toNat).map (·.toNat))

/-- The tag over additional data and ciphertext. -/
def gcmTag (ks : List (List Nat)) (j0 : Nat) (aad ct : List Byte) : Nat :=
  let h := aesNat ks 0
  let y := ghash h (ghash h 0 aad) ct
  ghMul 128 (y ^^^ (8 * aad.length * 2 ^ 64 + 8 * ct.length)) h ^^^ aesNat ks j0

/-- Encryption: ciphertext and tag. -/
def gcmSeal (key : BitVec 256) (nonce : Nat) (aad pt : List Byte) : List Byte × Nat :=
  let ks := gcmKeys key
  let j0 := nonce * 2 ^ 32 + 1
  let ct := ctrBytes ks j0 pt
  (ct, gcmTag ks j0 aad ct)

/-- Decryption: the plaintext when the tag is right. -/
def gcmOpen (key : BitVec 256) (nonce : Nat) (aad ct : List Byte) (tag : Nat) : Option (List Byte) :=
  let ks := gcmKeys key
  let j0 := nonce * 2 ^ 32 + 1
  if gcmTag ks j0 aad ct = tag then some (ctrBytes ks j0 ct) else none

/-! ## SHA-512 -/

/-- The largest `r` below `r + 2 ^ k` whose power `e` is at most `n`, found bit by bit. -/
def rootBits (e n : Nat) : Nat → Nat → Nat
  | 0, r => r
  | k + 1, r => rootBits e n k (if (r + 2 ^ k) ^ e ≤ n then r + 2 ^ k else r)

/-- The primes among the `k` numbers below `n`. -/
def primesFrom (n : Nat) : List Nat := (List.range n).filter (fun p => decide (2 ≤ p) && (List.range p).all (fun d => decide (d < 2) || p % d != 0))

/-- The first 64 bits of the fractional parts of cube roots and square roots of primes. -/
def shaK : List Nat := (primesFrom 410).map (fun p => rootBits 3 (p * 2 ^ 192) 68 0 % 2 ^ 64)
def shaH : List Nat := ((primesFrom 20).take 8).map (fun p => rootBits 2 (p * 2 ^ 128) 68 0 % 2 ^ 64)

def rotr64 (x k : Nat) : Nat := x / 2 ^ k + x * 2 ^ (64 - k) % 2 ^ 64

/-- The message schedule: words so far, latest first. -/
def shaSched : Nat → List Nat → List Nat
  | 0, ws => ws
  | k + 1, ws =>
    let w (i : Nat) : Nat := ws.getD (i - 1) 0
    let s0 := rotr64 (w 15) 1 ^^^ rotr64 (w 15) 8 ^^^ w 15 / 2 ^ 7
    let s1 := rotr64 (w 2) 19 ^^^ rotr64 (w 2) 61 ^^^ w 2 / 2 ^ 6
    shaSched k ((w 16 + s0 + w 7 + s1) % 2 ^ 64 :: ws)

def shaRound (h : List Nat) (kw : Nat) : List Nat :=
  match h with
  | [a, b, c, d, e, f, g, x] =>
    let t1 := x + (rotr64 e 14 ^^^ rotr64 e 18 ^^^ rotr64 e 41) + ((e &&& f) ^^^ ((2 ^ 64 - 1 - e) &&& g)) + kw
    let t2 := (rotr64 a 28 ^^^ rotr64 a 34 ^^^ rotr64 a 39) + ((a &&& b) ^^^ (a &&& c) ^^^ (b &&& c))
    [(t1 + t2) % 2 ^ 64, a, b, c, (d + t1) % 2 ^ 64, e, f, g]
  | l => l

def shaBlock (ks h : List Nat) (b : List Byte) : List Nat :=
  let ws := (shaSched 64 ((List.range 16).map (fun i => ofBe ((b.drop (8 * i)).take 8))).reverse).reverse
  List.zipWith (fun x y => (x + y) % 2 ^ 64) h ((List.zipWith (· + ·) ks ws).foldl shaRound h)

def shaBlocks (ks : List Nat) : Nat → List Nat → List Byte → List Nat
  | 0, h, _ => h
  | k + 1, h, bs => if bs.isEmpty then h else shaBlocks ks k (shaBlock ks h (bs.take 128)) (bs.drop 128)

/-- SHA-512 of bytes, as 64 bytes. -/
def sha512 (bs : List Byte) : List Byte :=
  let z := (239 - bs.length % 128) % 128
  let m := bs ++ [0x80#8] ++ List.replicate z 0 ++ toBe 16 (8 * bs.length)
  (shaBlocks shaK (m.length / 128) shaH m).flatMap (toBe 8)

/-- A hash as the spec's fields hold it: its bytes as a little-endian number. -/
def sha512Num (bs : List Byte) : BitVec 512 := BitVec.ofNat 512 (ofBytes (sha512 bs))

end Sys2Proof.Machine
end

