-- ==== Sys2Proof/Machine/State.lean ====
section
/-!
DEFINITION. The state of the NQZ-4812 as plain data: the registers of every continuation on a core, the
memories, the Shepherd's records, the engines' outstanding operations, the host interface and the power
state (INVENTORY.md, heading State, lists every field with its rule). Tables indexed by a number are sparse
lists (`SMap`); the operations on them are in Machine/Ops.lean. State.reset is the device right after reset.
-/
namespace Sys2Proof.Machine
set_option Elab.async false
open Sys2Proof

/-! ## Stops -/

/-- Why a step can stop the machine. Closed. -/
inductive Fault where
  /-- Raised by `step` when the device has no power and nothing is left to happen to it: no event of the inbox
  brings power back (R26: no part of the device stays powered while board power is off). Safe: nothing is claimed of
  what an unpowered device does. -/
  | noPower
deriving DecidableEq, Repr

/-- Why an instruction has no meaning in this model. Closed. -/
inductive Refusal where
  /-- Raised by an arm of `exec` whose instruction has no meaning yet. Safe: no step is taken. -/
  | notModelled (mnemonic : String)
deriving DecidableEq, Repr

/-! ## The registers of a continuation (R54) -/

/-- A tile handle descriptor (R216). -/
structure TDesc where
  valid    : Bool := false
  clus     : Bool := false
  spectral : Bool := false
  fmt      : BitVec 4 := 0
  rowsm1   : BitVec 8 := 0
  rbm1     : BitVec 12 := 0
  base     : BitVec 11 := 0
  tti      : BitVec 12 := 0
deriving DecidableEq, Repr

/-- The flags of an accumulator (R54, R260). -/
structure ZFlag where
  valid    : Bool := false
  spectral : Bool := false
  sat      : Bool := false
deriving DecidableEq, Repr

/-- What the sequencer holds for a hardware loop besides its count (R150). -/
structure LoopReg where
  active : Bool := false
  /-- the syllable that has started it (R416) -/
  instr  : Option Instr := Option.none
  lstart : VAddr := 0
  lend   : VAddr := 0
deriving DecidableEq, Repr

/-- A write of one register, as a result lands (R59). `sys` is a system register other than a loop count (R173). -/
inductive RegWrite where
  | s (r : SReg) (v : Word)
  | a (r : AReg) (v : VAddr)
  | v (r : VReg) (v : VWord)
  | k (r : KReg) (v : Word)
  | t (r : TReg) (v : TDesc)
  | p (r : PReg) (v : Bool)
  | lc (r : BitVec 2) (v : Word32)
  | ft (r : BitVec 4) (v : BitVec 16)
  | sys (r : BitVec 12) (v : Word)
  /-- the DOMAIN tag of a handle (R299, R314), and of an accumulator (R314) -/
  | dom (r : TReg) (v : Bool)
  | zdom (z : ZReg) (v : Bool)
  /-- MZERO of an accumulator (R269) -/
  | mzero (z : ZReg) (v : Bool)
  /-- no register, for a syllable that lands flags alone -/
  | none
deriving DecidableEq, Repr

/-- A result in flight (R59, R413): cycles to its landing, the issuing slot, the issue order, the FFLAGS
bits that it raises and the register that it writes. -/
structure Landing where
  remain : Nat
  slot   : Nat
  seq    : Nat
  flags  : BitVec 6 := 0
  w      : RegWrite
deriving DecidableEq, Repr

/-- A SUSP descriptor (R155): RESUME, AMASK, SMASK, VMASK, STATP. -/
structure SuspDesc where
  resume : Nat
  amask : Nat
  smask : Nat
  vmask : Nat
  statp : Nat
deriving DecidableEq, Repr

/-- Where a control transfer goes (R33, R481). -/
inductive XKind where
  | branch (target : VAddr)
  /-- SUSP: the CODE offset of the descriptor, WKIND, WID and WTARGET, and the descriptor as it was read at the issue; a resumed one
  reads it again (R481). -/
  | susp (desc : Word32) (wkind : Nat) (wid : Nat) (wtarget : Word32) (d : Option SuspDesc)
  | retire
  | yield
deriving DecidableEq, Repr

/-- A control transfer whose guard was true and that has not taken effect: its bundle and whether its delay
cycle has passed (R33, R481). -/
structure Xfer where
  kind  : XKind
  base  : VAddr
  done  : Bool := false
  /-- a CALL whose link is not written yet: the delay bundle could not be read (R149) -/
  link  : Bool := false
deriving DecidableEq, Repr

/-- A pending fence (R168): its masks and the accesses that it waits for. -/
structure PFence where
  before : BitVec 6
  after  : BitVec 6
  ops    : List Nat
  /-- its syllable (R416) -/
  instr  : Option Instr := Option.none
deriving DecidableEq, Repr

/-- Units of a freed tile that operations still outstanding name (R221). -/
structure Zombie where
  clus  : Bool
  base  : Nat
  units : Nat
  tti   : Nat
  ops   : List Nat
deriving DecidableEq, Repr

/-- What a bundle that stands at issue is waiting for (R14). `waitf` holds the registers of the counter and of the target, the loan and,
once the wait has ended, its counter and target and whether ERR ended it (R164, R166); `gbar` holds the barrier, the arrival's operation, whether the
barrier released it and whether its target was refused (R169). -/
inductive Stall where
  | none
  | other
  | waitc (nl ns nc nt nq : BitVec 4)
  | waitf (x y : SReg) (lent : Option Nat) (done : Option (Nat × Word32 × Bool))
  | gbar (bar op : Nat) (released mismatch : Bool)
  | fold (op : Nat)
  /-- a fetch that waits: on a migrating page (R205), or on the entry of an absent segment page since an RTC (R327) -/
  | mig (page : Nat)
  | segw (since entry : Nat)
  /-- a SUSP whose descriptor lies on a migrating page (R155, R205) -/
  | smig (page : Nat)
deriving DecidableEq, Repr

/-- A deterministic pass in flight (R258, R265). -/
structure Pass where
  id     : Nat
  instr  : Instr
  addr   : VAddr
  /-- the handles that it names (R221) -/
  hs     : List TReg
  z      : Nat
  /-- cycles since issue -/
  age    : Nat := 0
  lat    : Nat
  /-- rate divisor of the share (R255) -/
  m      : Nat
  rows   : Nat
  cols   : Nat
  depth  : Nat
  word   : BitVec 16
  acc    : Bool
  spec   : Bool
  /-- bytes of the stationary operand, by row (R258) -/
  stat   : SMap Byte
  /-- descriptor of the moving operand and the bytes of the rows that have been read -/
  mov    : TDesc
  movD   : SMap Byte := []
  /-- the accumulator after the landing, once it is fixed (a resumed pass, R412) -/
  img    : Option (SMap Word32 × ZFlag) := none
deriving DecidableEq, Repr

/-- An MRD to PRIV in flight (R270): the bytes of each row and where they go. -/
structure Readout where
  id     : Nat
  remain : Nat
  t      : TReg
  dst    : TDesc
  spectral : Bool
  rows   : Nat
  rbytes : Nat
  data   : SMap Byte
  /-- the adapter handle that it names (R221) -/
  epi    : Option TReg := none
  /-- its syllable (R416), and its place in the order of issue (R60) -/
  instr  : Option Instr := none
  seq    : Nat := 0
deriving DecidableEq, Repr

/-- What an X stream does (R303 to R311): `u` and `b` are the unit and the block size, `G` and `g` the group size in
bytes and the groups of a row, `m` the window's elements. -/
inductive XKindOp where
  | move
  | fill
  | cvt (sat : Bool)
  | cmp (u G g : Nat)
  | exp (u G g : Nat)
  | dft (b : Nat)
  | idft (b : Nat)
  | trn (u m : Nat)
deriving DecidableEq, Repr

/-- The bytes of a step on their way to the landing (R297): cycles left, the step, rows with offsets and bytes, a cause, its reason and
TRAPINFO.DATA found in the step (R302, R428), and whether it is the last step. -/
structure XPend where
  remain : Nat
  k      : Nat
  writes : List (Nat × Nat × List Byte)
  fault  : Option (Nat × Nat × Nat) := none
  lastk  : Bool := false
deriving DecidableEq, Repr

/-- An X stream (R297): the syllable, what it read at issue, its age and the steps on their way. -/
structure XStream where
  id    : Nat
  /-- its place in the order of issue (R60) -/
  seq   : Nat := 0
  /-- the handles that it names (R221) -/
  hs    : List TReg
  instr : Instr
  addr  : VAddr
  op    : XKindOp
  src   : TDesc := {}
  dst   : TDesc := {}
  dreg  : TReg := 0
  /-- an accumulator source (R311) -/
  zsrc  : Option Nat := none
  srow  : Nat := 0
  drow  : Nat := 0
  nrow  : Nat := 0
  aux   : Nat := 0
  /-- s[x] of XFILL -/
  sx    : Word := 0
  steps : Nat
  st    : Nat
  d     : Nat
  /-- cycles since issue, and the age from which on it reads: a step that a freeze found at work has read and landed (R301) -/
  age   : Nat := 0
  read  : Nat := 0
  /-- the step that stands in the place of step 0 (R302) -/
  base  : Nat := 0
  /-- guarded off: it occupies the unit and writes nothing (R298) -/
  off   : Bool := false
  buf   : List Byte := []
  pend  : List XPend := []
  /-- a step has raised a cause: later steps write nothing -/
  bad   : Bool := false
  /-- the cause, reason and TRAPINFO.DATA that a beat of the step at work has met (R428) -/
  hit   : Option (Nat × Nat × Nat) := none
deriving DecidableEq, Repr

/-- Bytes on their way into PRIV in the present cycle (R232, R233): the issuing slot, the address, the bytes. -/
structure PrivWrite where
  slot : Nat
  addr : Nat
  bytes : List Byte
deriving DecidableEq, Repr

/-- The visible state of a continuation on its core (R54, R422). -/
structure Arch where
  s    : SMap Word := []
  a    : SMap VAddr := []
  p    : BitVec 16 := 0
  v    : SMap VWord := []
  k    : SMap Word := []
  z    : SMap Word32 := []
  zf   : SMap ZFlag := []
  t    : SMap TDesc := []
  lc   : SMap Word32 := []
  ft   : SMap (BitVec 16) := []
  ldo  : BitVec 8 := 0
  sto  : BitVec 8 := 0
  cpo  : BitVec 8 := 0
  tlo  : BitVec 8 := 0
  sqo  : BitVec 8 := 0
  /-- address of the bundle that issues next (R32) -/
  pc   : VAddr := 0
  /-- the bundle at `pc` has issued before a freeze and is passed over (R481) -/
  past : Bool := false
  /-- a LOOP with count 0 issued last: the bundle after this one is next (R150) -/
  passTo : Option VAddr := none
  /-- the loop that the bundle at `last` has started: its own end takes no step of it (R151) -/
  started : Option Nat := none
  /-- address of the bundle that issued last -/
  last : VAddr := 0
  /-- empty cycles still to issue before `pc` (R33) -/
  sk   : Nat := 0
  xfer : Option Xfer := none
  /-- the next bundle is a delay bundle (R148) -/
  delay : Bool := false
  /-- the bundle at `last`, or the delay bundle that is next, belongs to a YIELD without effect: its end takes no step of a loop (R151) -/
  noStep : Bool := false
  loops : SMap LoopReg := []
  /-- results in flight, and those that landed at the end of the last cycle (R60) -/
  fly  : List Landing := []
  landed : List Landing := []
  /-- the descriptors that the landings in `landed` replaced, by handle (R55) -/
  olds : List (Nat × TDesc) := []
  seq  : Nat := 0
  rmode  : BitVec 2 := 0
  fflags : BitVec 6 := 0
  hold   : BitVec 12 := 0
  scopeGlobal : Bool := false
  leaseLen : BitVec 16 := 256
  ckpti    : Word32 := 8192
  trapinfo : Word := 0
  fences : List PFence := []
  passes : List Pass := []
  /-- cycles for which the array share is still occupied (R256) -/
  occ    : Nat := 0
  reads  : List Readout := []
  /-- cycles for which the M port of PRIV is still occupied (R270) -/
  mport  : Nat := 0
  /-- X streams whose reads or landings are still to come -/
  xs     : List XStream := []
  /-- writes into PRIV that land at the end of this cycle -/
  pw     : List PrivWrite := []
  stall  : Stall := .none
  /-- the wait of the fetch of the bundle at issue (R205, R327) -/
  fwait  : Stall := .none
  priv   : SMap Byte := []
  /-- 64-byte units of PRIV, and of the accumulators as bytes `z * 131072 + row * 1024 + 4 * column`, that hold an uncorrectable
  word (R428) -/
  badPriv : List Nat := []
  badAcc  : List Nat := []
  zombies : List Zombie := []
  /-- a `.tile` handle still to be allocated at entry (R84) -/
  entryTile : Option Nat := none
  /-- the syllable of the bundle at `pc` that `cres.skip` guards off (R161) -/
  skipSlot : Option Nat := none
deriving DecidableEq, Repr

/-! ## Cores -/

/-- A line of the L1 data cache (R207, R355): its tag, bytes, write timestamp and lease end. -/
structure L1Line where
  line  : Nat
  data  : List Byte
  wts   : Nat
  lease : Nat
deriving DecidableEq, Repr

/-- The old contents of a byte written since the last checkpoint (R422): memory by physical address, or a byte of the
tile-handle region of a cluster. -/
structure Undo where
  clus : Option Nat
  addr : Nat
  old  : Byte
deriving DecidableEq, Repr

/-- A fault that an operation has detected after its issue (R417). -/
structure Late where
  op     : Nat
  issued : Nat
  slot   : Nat
  cause  : Nat
  reason : Nat
  data   : Word32 := 0
  va     : VAddr := 0
  /-- the progress record of work that is no counted operation (R416, R417) -/
  image  : List Byte := []
  /-- the machine-check bank of a cause of 112 or more (R419) -/
  bank   : Option Nat := none
deriving DecidableEq, Repr

/-- A cause with its reason, TRAPINFO.DATA, and the full virtual address of a translation cause (R226). -/
structure Trap where
  cause  : Nat
  reason : Nat
  data   : Word32 := 0
  va     : Option VAddr := none
  /-- the machine-check bank of a cause of 112 or more (R419) -/
  bank   : Option Nat := none
deriving DecidableEq, Repr

/-- A stop of a core that waits for the end of the cycle in which its Fold members still count (R291): a trap with its slot and its late
fault, a YIELD, a decided freeze. The model's own type. -/
inductive Stop where
  | trap (slot : Nat) (t : Trap) (late : Option Late)
  | yield
  | freeze
deriving DecidableEq, Repr

/-- A freeze that has been decided for a core (R408): why, and the trap it takes, if any. -/
inductive FreezeReq where
  | none
  | preempt
  | halt
  | yield
deriving DecidableEq, Repr

/-- A tile-table entry (R219). -/
structure TtEntry where
  live  : Bool := false
  mc    : Nat := 0
  bind  : Nat := 0
  fslot : Nat := 0
  base  : Nat := 0
  units : Nat := 0
  rows  : Nat := 0
  rs    : Nat := 0
deriving DecidableEq, Repr

/-- A core: what it runs, its state, its last checkpoint and its L1 cache. -/
structure Core where
  /-- the core holds a RUNNING continuation -/
  running : Bool := false
  mc    : Nat := 0
  bind  : Nat := 0
  fslot : Nat := 0
  stage : Nat := 0
  lcore : Nat := 0
  /-- core cycles of the island that this core has run (R173 CYC) -/
  cyc   : Nat := 0
  now   : Arch := {}
  saved : Arch := {}
  undo  : List Undo := []
  /-- the first operation number issued after the last checkpoint (R424) -/
  savedOp : Nat := 0
  /-- cycles since the last checkpoint, and the 64-byte units of PRIV in the undo log (R421, R422) -/
  sinceCk : Nat := 0
  undoPriv : List Nat := []
  /-- tile-table entries that its continuation has changed since the last checkpoint, as they were, the last change first (R223) -/
  tiles : List (Nat × TtEntry) := []
  /-- its TALLOCs since then, the last first, and those that a re-execution makes again: what was asked, the status, the
  descriptor (R223) -/
  made   : List (TDesc × Nat × TDesc) := []
  remake : List (TDesc × Nat × TDesc) := []
  /-- a commit-point bundle has issued: a checkpoint is due (R174, R421) -/
  commit : Bool := false
  /-- a tentative line of this core is awaited (R423) -/
  forced : Bool := false
  /-- a re-execution after a rollback is under way, until this cycle (R424) -/
  retry  : Option Nat := Option.none
  /-- SOURCE of the check failure behind the re-execution (R427) -/
  retrySrc : Nat := 0
  freeze : FreezeReq := .none
  /-- a stop that is taken at the end of the cycle that it names (R291). The model's own field. -/
  stop   : Option (Nat × Stop) := Option.none
  late   : List Late := []
  /-- running cycles since the Shepherd last charged them (R138) -/
  delivered : Nat := 0
  l1    : List L1Line := []
  /-- the bundle at issue: the address after it and its SK (R27) -/
  bnext : VAddr := 0
  /-- a loop start with count 0 issued: the address of its end bundle (R150) -/
  loop0 : Option VAddr := Option.none
  bsk   : Nat := 0
deriving DecidableEq, Repr

/-! ## Outstanding operations (R61) -/

/-- What a continuation's operation is: a counted syllable, or an effect held back as a release (R361). -/
inductive OpKind where
  | scalar | tile | waited | readout | copy | seq
  | finc | evpost | reqdone | spawn | arrive
deriving DecidableEq, Repr

/-- Where an MMULW stands (R268, R275 to R284): in a share, without an entry after a resume (R276), on its way to the Fold, in a
group that has not started, in a pass. -/
inductive WPhase where
  | share | queued | coming | grouped | started
deriving DecidableEq, Repr

/-- What an MMULW holds besides its operands: its phase, the cluster cycle of its issue, HOLD and FOLDSCOPE at issue,
and whether its entry is forced (R276). -/
structure Waited where
  phase  : WPhase
  issued : Nat
  hold   : Nat
  global : Bool
  forced : Bool := false
  /-- the key of its stationary once it is known (R278), the cycle of its arrival with a tensor stationary (R277), and the rows and the
  row bytes of that tile that lie in the tensor (R113) -/
  key    : List Nat := []
  arrive : Option Nat := none
  edge   : Nat × Nat := (256, 4096)
  /-- in a share: the cycle in which its turn has come (R259), whether it has begun, and the cache lines that it pins -/
  ready  : Option Nat := none
  began  : Bool := false
  lines  : List Nat := []
  /-- the bytes of its handles as they stood at issue (R258) -/
  oldA   : SMap Byte := []
  oldB   : SMap Byte := []
deriving DecidableEq, Repr

/-- An operation that has issued and is not complete. -/
structure Op where
  id    : Nat
  kind  : OpKind
  instr : Instr
  core  : Nat
  mc    : Nat
  bind  : Nat
  fslot : Nat
  stage : Nat := 0
  slot  : Nat
  /-- issue bundle (R416 BUNDLE) -/
  addr  : VAddr := 0
  /-- operand values read at issue -/
  x : List Nat := []
  /-- handles named, with their descriptors at issue (R221, R419) -/
  hs : List (TReg × TDesc) := []
  index : Nat := 0
  crc   : Nat := 0
  count : Nat := 0
  aux   : Nat := 0
  /-- engine-specific progress -/
  st : List Nat := []
  dat : List Byte := []
  /-- its place in the order of issue of its slot (R60) -/
  seq : Nat := 0
  /-- RTC and program timestamp at issue (R355) -/
  rtc : Nat := 0
  pts : Nat := 0
  /-- largest timestamp that its writes took (R363) -/
  ts  : Nat := 0
  /-- paths that it accesses (R352) -/
  paths : BitVec 6 := 0
  rel : Bool := false
  acq : Bool := false
  /-- operations that a release waits for (R361) -/
  after : List Nat := []
  /-- the core froze and the operation goes on without it (R410) -/
  carried : Bool := false
  /-- the operation waits (a migrating page, a segment page, blocks, a credit) since this RTC -/
  wait : Option Nat := none
  faulted : Bool := false
  waited : Option Waited := none
  /-- sequence blocks that it holds and has not used (R389) -/
  got : List Nat := []
deriving DecidableEq, Repr

/-! ## The Shepherd's records -/

/-- A partition record (R118) with its sequence state (R377). -/
structure Part where
  active  : Bool := false
  prioCap : BitVec 3 := 0
  holdCap : BitVec 12 := 0
  mctxQ   : BitVec 16 := 0
  fenceQ  : BitVec 16 := 0
  seqQ    : Word32 := 0
  blockQ  : Word32 := 0
  privBase  : VAddr := 0
  privBound : VAddr := 0
  hostBase  : VAddr := 0
  hostBound : VAddr := 0
  key     : BitVec 256 := 0
  mctxU   : BitVec 16 := 0
  fenceU  : BitVec 16 := 0
  seqU    : Word32 := 0
  blockU  : Word32 := 0
  grants  : BitVec 4096 := 0
  htBase  : BitVec 64 := 0
  htN     : Word32 := 0
  btBase  : BitVec 64 := 0
  btN     : Word32 := 0
deriving DecidableEq, Repr

/-- What the device keeps of a request that came from a host queue (R442, R443): the queue, QSEQ, the reply area, FLAGS and
SFENCE. -/
structure HostReq where
  queue  : Nat
  qseq   : Nat
  reply  : Nat
  rmax   : Nat
  sf     : Bool
  sfence : Nat
  nocomp : Bool
deriving DecidableEq, Repr

/-- A message of TYPE 2 or 3 that is kept without a match (R346): its RID, its buffer, the payload bytes and the RTC of its
arrival; and the NRECV or RING that it has been matched with, in which case it is unexpected no more. -/
structure Unexp where
  typ : Nat
  rid : Nat
  buf : Nat
  len : Nat
  at' : Nat
  to' : Option Nat := none
deriving DecidableEq, Repr

/-- States of a micro-context (R121, R123). -/
inductive McState where
  | free | idle | ready | bound | halted
deriving DecidableEq, Repr

/-- A micro-context control block (R121). -/
structure Mc where
  state   : McState := .free
  part    : Byte := 0
  prio    : BitVec 3 := 0
  np      : Bool := false
  global  : Bool := false
  func    : Word32 := 0
  tickets : BitVec 16 := 0
  hold    : BitVec 12 := 0
  npmax   : BitVec 16 := 0
  tileq   : BitVec 16 := 0
  pass    : BitVec 64 := 0
  stride  : Word32 := 0
  stages  : Byte := 0
  cores   : Byte := 0
  conts   : BitVec 16 := 0
  ptroot  : VAddr := 0
  tensors : VAddr := 0
  codebase : VAddr := 0
  startv  : VAddr := 0
  paramver : VAddr := 0
  rxpool  : VAddr := 0
  rqbase  : VAddr := 0
  framepool : VAddr := 0
  key     : BitVec 256 := 0
  rqhead  : Word32 := 0
  rqtail  : Word32 := 0
  rqlog   : Byte := 0
  frames  : BitVec 16 := 0
  handler : Word32 := 0
  evring  : BitVec 16 := 0
  borrow  : Word32 := 0
  boundat : BitVec 64 := 0
  streqs  : BitVec 64 := 0
  stcyc   : BitVec 64 := 0
  stdisc  : Word32 := 0
  stpreempt : Word32 := 0
  sttrap  : Word32 := 0
  /-- the Shepherd's binding timestamp (R363) -/
  bts     : Nat := 0
  /-- ring ids with the newest revolution posted (R347), and the broken pairs of ring id and revolution (R348) -/
  ringNew : SMap Nat := []
  broken  : List (Nat × Nat) := []
  /-- the pairs for which the micro-context has sent its TYPE 4 message (R348) -/
  told    : List (Nat × Nat) := []
  /-- unexpected messages, oldest first (R346) -/
  unexp   : List Unexp := []
  /-- receive buffers that wait to return to the pool until it can be written (R483) -/
  owed    : List Nat := []
  /-- the only pens that a self-test may use (R433) -/
  testOnly : List Nat := []
  /-- requests of host queues, by request index -/
  hreqs   : SMap (Option HostReq) := []
deriving DecidableEq, Repr

/-- States of a continuation (R125). -/
inductive ContState where
  | free | runnable | running | waiting | trapped
deriving DecidableEq, Repr

/-- What the Shepherd keeps of a continuation besides its record in memory: timestamp (R356), its place in the order of
becoming RUNNABLE (R145), its loan (R143), the acquire that its resume completes (R363) and its trap. -/
structure Cont where
  state  : ContState := .free
  stage  : Nat := 0
  bind   : Nat := 0
  frozen : Bool := false
  pts    : Nat := 0
  /-- the largest timestamp that its writes have taken (R363) -/
  wts    : Nat := 0
  order  : Nat := 0
  wkind  : Nat := 0
  wid    : Nat := 0
  wtarget : Word32 := 0
  /-- the wait ended by ERR (R155) -/
  werr   : Bool := false
  /-- `wtarget` of a `susp.bar` whose arrival was refused (R155) -/
  refused : Bool := false
  /-- its slot is taken by a SPAWN whose release has not applied (R159) -/
  spawning : Bool := false
  lent   : Option Nat := none
  /-- first bundle after launch: the core it starts on, for a start-vector launch -/
  skip   : Bool := false
  trapinfo : Word := 0
  /-- TRAPINFO that a handler shows until its first suspension (R173) -/
  handlerInfo : Word := 0
  /-- late faults of carried accesses, and the registers of the operations (R410, R417) -/
  late   : List Late := []
  /-- the core that it was last on (R125 HOME) -/
  home : Nat := 0xFFFF
  /-- the continuation froze and becomes RUNNABLE when its carried accesses are done (R410) -/
  settling : Bool := false
  /-- the operation numbers that its progress records stand for, in record order -/
  recIds : List Nat := []
  /-- a GBAR that its barrier released in the cycle of the freeze (R169) -/
  passed : Option Nat := none
  /-- RUNNING cycles modulo 16 (R356) -/
  tick   : Nat := 0
  /-- `.tile` records from this one on are allocated before the next bundle (R84) -/
  entryTile : Option Nat := none
  /-- it was running when its binding was pre-empted (R133) -/
  preempted : Bool := false
  /-- the logical core that a start-vector launch gives it (R133) -/
  lcore  : Option Nat := none
  /-- STATP of the SUSP that it resumes from (R155) -/
  statp  : Option Nat := none
  /-- progress records beyond the sixteen of the frame: operation, record, query (DESIGN CHOICE, log 26) -/
  more   : List (Nat × List Byte × List Byte) := []
  /-- what the frame has no field for (log 13, log 14, log 27): whether the next bundle is a delay bundle and whether a YIELD without effect
  takes a loop step away, the end bundle of a loop with count 0 with the empty cycles still to come, the loop just started, a link to be
  written, the results that the in-flight queue cannot hold -/
  delay  : Bool := false
  noStep : Bool := false
  passTo : Option (VAddr × Nat) := none
  started : Option Nat := none
  link   : Bool := false
  odd    : List Landing := []
  /-- its withdrawn operations as they stood, for what a record does not hold: the operands of tile accesses and the timestamps of writes
  (R363, R416) -/
  ops    : List Op := []
  /-- the fence counters of its withdrawn C commands, by operation (R164), and the adapter handles of its readouts (R221) -/
  fens   : List (Nat × Nat) := []
  epis   : List (Nat × TReg) := []
  /-- its units with an uncorrectable word (R428): of PRIV by handle and place in the tile, of the accumulators -/
  badPriv : List (Nat × Nat) := []
  badAcc  : List Nat := []
  /-- cycles left at a freeze in which the array share, the X unit and the M port of PRIV stay occupied (R35, R59; DESIGN CHOICE, log 38) -/
  held   : Nat × Nat × Nat := (0, 0, 0)
deriving DecidableEq, Repr

/-- A fence counter (R163) with its timestamp (R363). -/
structure Fence where
  value  : Word32 := 0
  sv     : Bool := false
  signal : BitVec 14 := 0
  alloc  : Bool := false
  owner  : BitVec 6 := 0
  err    : Bool := false
  errcnt : Word32 := 0
  fts    : Nat := 0
deriving DecidableEq, Repr

/-- A barrier of a binding (R169, R363). -/
structure Barrier where
  count  : Nat := 0
  target : Nat := 0
  bts    : Nat := 0
deriving DecidableEq, Repr

/-- A request entry as a binding serves it (R124, R133). -/
structure Request where
  index : Word32
  buf   : VAddr
  len   : Word32
  src   : BitVec 16
  rid   : BitVec 64
  host  : Option HostReq := none
deriving DecidableEq, Repr

/-- A binding (R133): its micro-context, its placement (cluster of each stage and the pens it holds), what it serves and
the state of its slice. -/
structure Binding where
  live   : Bool := false
  mc     : Nat := 0
  num    : Nat := 0
  clusters : List Nat := []
  pens   : List (List Nat) := []
  /-- the binding holds its group; a pre-empted one does not -/
  held   : Bool := false
  /-- it is being launched and waits for freezes (R479) -/
  launching : Bool := false
  req    : Option Request := none
  reqdone : Bool := false
  /-- CPYN reply packets sent (R343) and reply bytes written (R450) -/
  replies : Nat := 0
  rbytes : Nat := 0
  traps  : Nat := 0
  trapInfo : Word := 0
  params : VAddr := 0
  boundat : Nat := 0
  sliceAt : Nat := 0
  npOver : Bool := false
  /-- it is being pre-empted: its group is free once its cores have frozen (R141) -/
  pre    : Bool := false
  /-- delivered cycles that the Shepherd has still to charge (R138) -/
  owed   : Nat := 0
  /-- only this unit may hold it (self-test, R433): pens -/
  only   : List Nat := []
  bars   : SMap Barrier := []
  /-- the shape of its group and STARTV when it was made: a rebinding takes the same shape and records (R133) -/
  stages : Nat := 0
  cores  : Nat := 0
  startv : Nat := 0
  /-- the largest timestamp that the writes of its ended continuations have taken (R363) -/
  wts    : Nat := 0
deriving DecidableEq, Repr

/-- A placement reserved for a micro-context (R141): clusters and pens by stage. -/
structure Reserve where
  mc : Nat
  rebind : Option Nat
  clusters : List Nat
  pens : List (List Nat)
deriving DecidableEq, Repr

/-- A handler to create (R418): the trapped continuation's micro-context and slot, and its TRAPINFO. -/
structure HandlerReq where
  mc : Nat
  fslot : Nat
  info : Word
  resume : Nat
  /-- the full address of a translation cause (R226) -/
  va : Option VAddr := none
deriving DecidableEq, Repr

/-! ## Pens, clusters -/

/-- Pen modes (R255). -/
inductive PenMode where
  | sole | pair | quad | fold
deriving DecidableEq, Repr

/-- A member of a Fold group (R278): its operation, its rows and its deadline, and whether a fault of its own keeps its
rows out (R288). -/
structure FMember where
  op       : Nat
  rows     : Nat
  deadline : Nat
  faulted  : Bool := false
  /-- what of its stationary lies in its tensor (R113) -/
  edge     : Nat × Nat := (256, 4096)
deriving DecidableEq, Repr

/-- A Fold group (R278 to R292). Cycles are those of the cluster's island. -/
structure FGroup where
  id      : Nat
  key     : List Nat
  /-- in arrival order -/
  members : List FMember
  solo    : Bool := false
  forced  : Bool := false
  /-- the cycle in which it became due -/
  due     : Option Nat := none
  /-- the cycle in which its pass started -/
  started : Option Nat := none
  retried : Bool := false
  /-- the cycle in which it became the next group of its array (R259, R283) -/
  ready   : Option Nat := none
  /-- its stationary is pinned (R283): the lines of the cache ways, empty for a handle -/
  pinned  : Bool := false
  lines   : List Nat := []
  word    : BitVec 16 := 0
  cols    : Nat := 0
  depth   : Nat := 0
  /-- rows at the start of the pass -/
  height  : Nat := 0
deriving DecidableEq, Repr

/-- A pen: its mode, its Fold and the Fold's statistics (R293). -/
structure Pen where
  mode   : PenMode := .sole
  groups : List FGroup := []
  stats  : SMap (BitVec 64) := []
deriving DecidableEq, Repr

/-- A cluster: its cycle count, configuration, tile table, tile-handle region and block cache. -/
structure Cluster where
  cyc   : Nat := 0
  tways : BitVec 4 := 8
  pend  : Option (BitVec 4) := none
  tt    : SMap TtEntry := []
  /-- byte address `slice * 2^19 + offset` -/
  clus  : SMap Byte := []
  /-- 64-byte units of it that hold an uncorrectable word (R428) -/
  bad   : List Nat := []
  /-- units of freed tiles that operations still name (R221) -/
  zombies : List Zombie := []
  /-- free blocks held for partitions: partition, block, size (R381) -/
  blocks : List (Nat × Nat × Nat) := []
  /-- the core whose turn it is to start a C command (R333) -/
  turn   : Nat := 0
  /-- and with the sequence unit (R403) -/
  seqTurn : Nat := 0
  /-- blocks on their way back to the allocator (R382) -/
  rets   : List (Nat × Nat × Nat) := []
deriving DecidableEq, Repr

/-! ## The device -/

/-- A cached leaf (R204): the cluster that caches it, or the core in whose own buffer it stands, the micro-context, the page, the entry
and its home; or, with `op` set, the entry that the accesses of one operation use. -/
structure TlbEntry where
  op   : Nat := 0
  cl   : Nat
  core : Option Nat := none
  mc   : Nat
  vpn  : Nat
  leaf : Nat
  home : Nat
deriving DecidableEq, Repr

/-- The timestamps of a home line (R355). -/
structure LineTs where
  wts : Nat := 0
  rts : Nat := 0
deriving DecidableEq, Repr

/-- A registered entry of a segment page (R326, R480): the physical address of the entry, the page, the partition, and
whether it is a tile-table entry. -/
structure SegReg where
  addr : Nat
  page : Nat
  part : Nat
  tile : Bool
deriving DecidableEq, Repr

/-- An entry of the segment table (R324): STATE (0 FREE, 1 FILLING, 2 READY, 3 FAILED, 4 DRAINING), the hash, the
generation, the reference count, the manifest once it has been read, and the frames and present pages. -/
structure Seg where
  state : Nat := 0
  hash  : BitVec 512 := 0
  gen   : BitVec 16 := 0
  refs  : Nat := 0
  src   : Nat := 0
  /-- partition that installed it -/
  part  : Nat := 0
  manifest : Bool := false
  pages : Nat := 0
  size  : Nat := 0
  place : Nat := 0
  order : List Nat := []
  phash : List Nat := []
  /-- frame number + 1 by page -/
  frames : SMap Nat := []
  present : List Nat := []
  /-- pages that stalled accesses and CSEG have named, in order -/
  asked : List Nat := []
  /-- pages that the Carder has requested and that have not arrived -/
  flight : List Nat := []
  /-- pages read once more after a failed check -/
  again : List Nat := []
  regs  : List SegReg := []
deriving DecidableEq, Repr

/-- A ring descriptor (R446), whether the next record carries LOST, and the records since its last message (R448). -/
structure RingD where
  base   : BitVec 64 := 0
  log    : Byte := 0
  en     : Bool := false
  compl  : Bool := false
  pv     : Bool := false
  vec    : Byte := 0
  ccount : Byte := 1
  ctime  : BitVec 16 := 0
  pasid  : BitVec 20 := 0
  head   : Word32 := 0
  tail   : Word32 := 0
  lost   : Bool := false
  since  : Nat := 0
  first  : Nat := 0
deriving DecidableEq, Repr

/-- The function error record FERR (R437). -/
structure Ferr where
  valid : Bool := false
  ovfl  : Bool := false
  code  : Byte := 0
  datum : Word32 := 0
deriving DecidableEq, Repr

/-- A queue of a function (R440, R441, R445): its descriptor while it is enabled, the doorbell, and its place among the
pending queues. -/
structure HQueue where
  en     : Bool := false
  ring   : Nat := 0
  log    : Nat := 0
  strict : Bool := false
  pv     : Bool := false
  cring  : Nat := 0
  pasid  : BitVec 20 := 0
  head   : Word32 := 0
  bell   : Word32 := 0
  pend   : Option Nat := none
  /-- the fence and the target that its next packet waits on (R443) -/
  waits  : Option (Nat × Word32) := none
  /-- ERR at the update that ended that wait (R443) -/
  passed : Option Bool := none
  /-- the packet at HEAD, once it has been fetched; and the micro-context and page on which an access for it sleeps (R205) -/
  held   : List Byte := []
  sleep  : Option (Nat × Nat) := none
deriving DecidableEq, Repr

/-- A polling slot that a queue is mapped to (R444): when, whether NP, NPQMAX, and how many of its last visits had packets. -/
structure PSlot where
  fn     : Nat
  queue  : Nat
  np     : Bool
  npqmax : Nat
  since  : Nat
  busy   : Nat := 0
deriving DecidableEq, Repr

/-- The registers of a function (R437). -/
structure Func where
  hostPv  : Bool := false
  hostPasid : BitVec 20 := 0
  qtbase  : BitVec 64 := 0
  qtn     : Word32 := 0
  encrEn  : Bool := false
  encr    : BitVec 10 := 0
  evEn    : Bool := false
  evRing  : BitVec 10 := 0
  ferr    : Ferr := {}
  ferrVec : Byte := 0
  cdrop   : Word32 := 0
  sdva    : VAddr := 0
  sdpages : Word32 := 0
  sdmctx  : BitVec 16 := 0
  sdbusy  : Bool := false
  sdwake  : Bool := false
  sddone  : Bool := false
  /-- what the shootdown at work was started for: SDVA, SDPAGES, SDMCTX and WAKE at GO (log 98) -/
  sdrun   : Option (VAddr × Word32 × BitVec 16 × Bool) := none
  memwin  : BitVec 64 := 0
  rings   : SMap RingD := []
  /-- MSI-X table bytes (256 entries of 16) and pending bits -/
  msixt   : SMap Byte := []
  msixp   : BitVec 256 := 0
  queues  : SMap HQueue := []
  /-- a function-level reset is under way (R459) -/
  resetting : Bool := false
deriving DecidableEq, Repr

/-- An Amiux datagram that the device sends (R339, R343): the Ethernet port, the addresses, the UDP ports, the header, the
ciphertext and the tag. -/
structure Sent where
  port    : Nat
  dstIp   : Nat
  dstMac  : Nat
  vlan    : Nat
  srcPort : Nat
  dstPort : Nat
  header  : List Byte
  ct      : List Byte
  tag     : Nat
deriving DecidableEq, Repr

/-- A machine-check bank (R431). -/
structure Bank where
  valid  : Bool := false
  ovfl   : Bool := false
  sev    : Nat := 0
  addr   : Option (BitVec 64) := none
  misc   : Option (BitVec 64) := none
  kind   : Byte := 0
  unit   : BitVec 16 := 0
  source : Byte := 0
  mctx   : Option (BitVec 14) := none
  cont   : Word32 := 0
  corr   : Word32 := 0
deriving DecidableEq, Repr

/-- The power state of the device (R26, R463, R476). -/
inductive Phase where
  | off | boot | ready | fatal
deriving DecidableEq, Repr

/-- A set of present units (R469). -/
structure Units where
  pens     : BitVec 192 := 0
  clusters : BitVec 48 := 0
  hbm      : BitVec 12 := 0
  eth      : BitVec 64 := 0
deriving DecidableEq, Repr

/-- States of a memory checkpoint (R474, R475). -/
inductive CkptState where
  | idle | running | done | failed | held
deriving DecidableEq, Repr

/-- A memory checkpoint (R474): its arguments, the streams that are left (0 to 7 the ports, 8 the host link), the pages sent in
all, by Ethernet and to the host, the datagram counter and its start; the first page that no stream has taken, the pages that a stream
has left unfinished, and those at work: stream, page, datagrams sent. -/
structure Ckpt where
  state  : CkptState := .idle
  hold   : Bool := false
  route0 : Nat := 0
  haddr  : Nat := 0
  hbytes : Nat := 0
  key    : BitVec 256 := 0
  streams : List Nat := []
  /-- the route entry of each port among the streams (R342) -/
  routes : List (Nat × List Byte) := []
  pages  : Nat := 0
  eth    : Nat := 0
  host   : Nat := 0
  ctr    : Nat := 0
  start  : Nat := 0
  next   : Nat := 0
  redo   : List Nat := []
  busy   : List (Nat × Nat × Nat) := []
  /-- ELAPSED in microseconds once the copy has ended -/
  took   : Nat := 0
deriving DecidableEq, Repr

/-- The memory that the allocator grants a partition's blocks from (R461 BLKPOOL), and the blocks granted: number, address,
size. -/
structure Pool where
  base   : Nat
  bytes  : Nat
  blocks : List (Nat × Nat × Nat) := []
deriving DecidableEq, Repr

/-- A self-test whose binding is to run (R144, R433): the service micro-context, if there is one, the TAG and STATUS of its reply, its
start, and whether its binding has ended. -/
structure SelfTest where
  mc : Option Nat
  tag : Byte
  status : Nat
  since : Nat
  ended : Bool := false
deriving DecidableEq, Repr

/-- What leaves the device, for whoever stands outside. -/
inductive Output where
  | packet (p : Sent)
  | msi (fn vec : Nat)
  | mailbox (tag : Byte) (status : Nat)
  | spdm (fn : Nat) (bytes : List Byte)
  | cxl (bytes : List Byte)
  /-- an access to host memory: the function whose requester identity it carries (R436), its PASID, whether it writes, its relaxed-ordering
  attribute (R449), the address and the bytes (R202, R203, R437, R440) -/
  | link (fn : Nat) (pasid : Option Nat) (write relaxed : Bool) (addr n : Nat)
  /-- an access of a device agent to a page in host bias, over CXL.cache (R456) -/
  | cache (write : Bool) (addr n : Nat)
  /-- the test access port is open for a boundary scan (R477) -/
  | scan
  /-- the value of a register read, and the answer to a read of poisoned memory (R471) -/
  | reg (fn : Nat) (v : Nat)
  | poisoned (fn : Nat)
  /-- the answers to a PCI Express configuration read (R464), and to a request that uses an unsupported part of a standard: Unsupported
  Request (R435) -/
  | config (fn off v : Nat)
  | configDone (fn off : Nat)
  | unsupported (fn : Nat)
  /-- what the board controller reads over I3C (R476) -/
  | i3c (bytes : List Byte)
deriving DecidableEq, Repr

/-- What became of the syllable that executed last: issued, stalled or trapped (R482). The model's own field. -/
inductive Verdict where
  | issued | stalled | trapped
deriving DecidableEq, Repr

/-- The state of the device. -/
structure State where
  /-- what happens next, oldest first: events from outside, and the order of the device's own agents (DESIGN CHOICE, log 4) -/
  inbox : List Move := []
  outbox : List Output := []
  /-- counter of free values (DESIGN CHOICE, log 3) -/
  free  : Nat := 0
  /-- the core whose syllable executes -/
  cur   : Nat := 0
  /-- the issue checks of the bundle have been made (R482) -/
  checked : Bool := false
  verdict : Verdict := .issued
  /-- an event that has to wait happens again after the others (DESIGN CHOICE, log 4). The model's own field. -/
  again   : Bool := false
  /-- the core whose cycle is ending: its landings are due (R59). The model's own field. -/
  ending : Option Nat := none
  /-- the cluster whose cycle is ending: the passes of its Folds land (R284). The model's own field. -/
  endingCl : Option Nat := none
  rtc   : BitVec 64 := 0
  /-- memory by device physical address (R199) -/
  mem   : List Host.Cell := []
  /-- host memory by host address (R202) -/
  host  : List Host.Cell := []
  /-- host pages that answer with an error completion, and its reason (R203, R420 HOST_FAULT) -/
  hostErr : List (Nat × Nat) := []
  cores : SMap Core := []
  clusters : SMap Cluster := []
  pens  : SMap Pen := []
  mcs   : SMap Mc := []
  parts : SMap Part := []
  /-- continuations by micro-context * 4096 + frame slot -/
  conts : SMap Cont := []
  binds : SMap Binding := []
  reserves : List Reserve := []
  /-- moments of R140 at which the Shepherd has still to select -/
  selDue : Nat := 0
  /-- loans of tickets: lender, signaller, amount (R143) -/
  loans : List (Nat × Nat × Nat) := []
  handlers : List HandlerReq := []
  fences : SMap Fence := []
  ops   : List Op := []
  nextOp : Nat := 1
  nextBind : Nat := 1
  nextOrder : Nat := 1
  lines : SMap LineTs := []
  tlb   : List TlbEntry := []
  /-- the micro-context whose record or frame the Shepherd has failed to reach in what it is doing (R203). The model's own field. -/
  shepDown : Option Nat := none
  /-- pages of micro-contexts on which an access of the Shepherd or of a Sheepdog core sleeps until a shootdown wakes it (R205), and
  its stalls on absent segment pages: micro-context, entry, RTC (R327) -/
  naps  : List (Nat × Nat) := []
  segNaps : List (Nat × Nat × Nat) := []
  funcs : SMap Func := []
  /-- poisoned 64-byte units by address / 64 (R428), and those that are bad in an L2 slice -/
  poison : List Nat := []
  poisonL2 : List Nat := []
  segs  : SMap Seg := []
  nextGroup : Nat := 1
  /-- SEGWAIT in microseconds (R327, R460) -/
  segwait : Word32 := 100000
  /-- SLICE in microseconds (R141, R460) -/
  slice   : Word32 := 250
  cxlen   : Bool := false
  /-- BIASCTL: GO, DONE, DIR and the page; the pages in host bias (R456, R460) -/
  biasGo  : Bool := false
  biasDone : Bool := false
  biasDir : Bool := false
  biasPage : BitVec 24 := 0
  /-- DIR and the page as they have been written while a flip is under way (R8) -/
  biasNext : Option (Bool × BitVec 24) := none
  hostBias : List Nat := []
  /-- the allocator mailbox (R460, R461): request and reply bytes, BUSY, DONE, and a reply that the management core has made -/
  mbreq   : SMap Byte := []
  mbrsp   : SMap Byte := []
  mbBusy  : Bool := false
  mbDone  : Bool := false
  mbReply : Option (List Byte) := none
  selfTest : Option SelfTest := none
  pools   : SMap (Option Pool) := []
  /-- polling slots (R444) and the order in which pending bits were set -/
  slots   : SMap (Option PSlot) := []
  /-- of each Sheepdog core, the place in its order of the slot that it visits next, and the number, plus one, of the period in which its
  round began (R444) -/
  rounds  : SMap (Nat × Nat) := []
  nextPend : Nat := 1
  banks   : SMap Bank := []
  /-- power, the board image, the factory map and the fenced units (R463 to R470) -/
  phase   : Phase := .boot
  image   : Option BoardImage := none
  booterr : Bool := false
  factory : Units := {}
  units   : Units := {}
  mapver  : Word32 := 0
  /-- UNITMAP as it stood at READY (R468) -/
  mapAtReady : List Byte := []
  /-- Ethernet ports whose link is up (R471) -/
  links   : BitVec 8 := 0
  /-- authenticated messages of TYPE 5 and 6 that the Carder has received: type and payload (R340) -/
  carderIn : List (Nat × List Byte) := []
  /-- the frequency step k of each island (R472), and the RTC from which the next raise may follow -/
  islands : SMap Nat := []
  raiseAt : SMap Nat := []
  /-- the RTC from which on the step of an island may fall (R472) -/
  calmAt  : SMap Nat := []
  /-- what configuration writes have left, by function * 4096 + offset (R464) -/
  config  : SMap (Option Nat) := []
  /-- frames that each Ethernet port has discarded (spec/12_movement_class.md, Amiux) -/
  portDrops : SMap Nat := []
  ckpt    : Ckpt := {}
  /-- SPDM: the version and the algorithms have been agreed (R468) -/
  spdmVer : Bool := false
  spdmAlg : Bool := false
deriving DecidableEq, Repr

/-- The device right after reset: bring-up step 1 (R463), every register at the value of INVENTORY.md (DESIGN CHOICE, log 1) (DESIGN CHOICE, log 5). -/
def State.reset : State := {}

end Sys2Proof.Machine
end

