-- ==== Sys2Proof/Machine/Base.lean ====
section
/-!
DEFINITION. Sparse tables, bytes of memory, access to the parts of the state, logical timestamps (R355), address
translation (R197 to R206), function errors and the event and completion rings (R170, R446 to R449).
-/
namespace Sys2Proof.Machine
set_option Elab.async false
open Sys2Proof

/-! ## Sparse tables -/

variable {V : Type}

/-- The value at key `k`; `d` where nothing is listed. -/
def SMap.get (d : V) : SMap V → Nat → V
  | [], _ => d
  | (i, v) :: r, k => if i = k then v else SMap.get d r k

/-- Inserts an entry before the first larger key. -/
def SMap.ins (k : Nat) (v : V) : SMap V → SMap V
  | [] => [(k, v)]
  | (i, w) :: r => if k < i then (k, v) :: (i, w) :: r else (i, w) :: SMap.ins k v r

/-- Drops the entry at `k`. -/
def SMap.drop (k : Nat) (m : SMap V) : SMap V := m.filter (fun e => e.1 != k)

/-- Writes `v` at `k` in the canonical form: no entry for the default `d`. -/
def SMap.set [DecidableEq V] (d : V) (m : SMap V) (k : Nat) (v : V) : SMap V :=
  if v = d then SMap.drop k m else SMap.ins k v (SMap.drop k m)

/-- Makes the keys `lo` to `lo + n - 1` read as the default. -/
def SMap.clear (m : SMap V) (lo n : Nat) : SMap V := m.filter (fun e => e.1 < lo || lo + n ≤ e.1)

/-- The canonical form: keys strictly rising, no entry equal to the default. -/
def SMap.wf [DecidableEq V] (d : V) : SMap V → Bool
  | [] => true
  | (k, v) :: r => decide (v ≠ d) && r.all (fun e => decide (k < e.1)) && SMap.wf d r

/-! ## Bytes -/

/-- The canonical form of a memory. -/
abbrev Memory.wf (m : List Host.Cell) : Bool := SMap.wf (0 : Byte) m

/-- One byte; an unlisted address reads 0 (R463 step 4; for host memory DESIGN CHOICE, log 2). -/
abbrev rdByte (m : SMap Byte) (a : Nat) : Byte := SMap.get 0 m a
abbrev wrByte (m : SMap Byte) (a : Nat) (b : Byte) : SMap Byte := SMap.set 0 m a b

/-- `n` bytes from address `a` on, read one by one. -/
def rdCells (m : SMap Byte) (a : Nat) : Nat → List Byte
  | 0 => []
  | n + 1 => rdByte m a :: rdCells m (a + 1) n

/-- `n` bytes from address `a` on. -/
def rdBytes (m : SMap Byte) (a n : Nat) : List Byte :=
  rdCells (m.filter (fun e => decide (a ≤ e.1) && decide (e.1 < a + n))) a n

/-- The entries of bytes stored from address `a` on, in the canonical form. -/
def cellsOf (a : Nat) : List Byte → SMap Byte
  | [] => []
  | b :: r => if b = 0 then cellsOf (a + 1) r else (a, b) :: cellsOf (a + 1) r

/-- Writes bytes from address `a` on. -/
def wrBytes (m : SMap Byte) (a : Nat) (l : List Byte) : SMap Byte :=
  m.filter (fun e => decide (e.1 < a)) ++ cellsOf a l ++ m.filter (fun e => decide (a + l.length ≤ e.1))

/-- A little-endian number of `n` bytes (R4). -/
def rdNum (m : SMap Byte) (a n : Nat) : Nat := ofBytes (rdBytes m a n)
def wrNum (m : SMap Byte) (a n v : Nat) : SMap Byte := wrBytes m a (toBytes n v)

/-! ## Parts of the state -/

def State.coreAt (s : State) (c : Nat) : Core := SMap.get {} s.cores c
def State.setCoreAt (s : State) (c : Nat) (x : Core) : State := { s with cores := SMap.set {} s.cores c x }
/-- The core whose syllable executes. -/
def State.core (s : State) : Core := s.coreAt s.cur
def State.setCore (s : State) (x : Core) : State := s.setCoreAt s.cur x
/-- The registers of the continuation whose syllable executes. -/
def State.arch (s : State) : Arch := s.core.now
def State.setArch (s : State) (x : Arch) : State := s.setCore { s.core with now := x }
def State.onArch (s : State) (f : Arch → Arch) : State := s.setArch (f s.arch)
def State.onCoreAt (s : State) (c : Nat) (f : Core → Core) : State := s.setCoreAt c (f (s.coreAt c))
def State.onArchAt (s : State) (c : Nat) (f : Arch → Arch) : State :=
  s.onCoreAt c (fun x => { x with now := f x.now })

def State.clusterAt (s : State) (q : Nat) : Cluster := SMap.get {} s.clusters q
def State.setCluster (s : State) (q : Nat) (x : Cluster) : State := { s with clusters := SMap.set {} s.clusters q x }
def State.penAt (s : State) (p : Nat) : Pen := SMap.get {} s.pens p
def State.setPen (s : State) (p : Nat) (x : Pen) : State := { s with pens := SMap.set {} s.pens p x }
def State.mcAt (s : State) (m : Nat) : Mc := SMap.get {} s.mcs m
def State.setMc (s : State) (m : Nat) (x : Mc) : State := { s with mcs := SMap.set {} s.mcs m x }
def State.onMc (s : State) (m : Nat) (f : Mc → Mc) : State := s.setMc m (f (s.mcAt m))
def State.partAt (s : State) (p : Nat) : Part := SMap.get {} s.parts p
def State.setPart (s : State) (p : Nat) (x : Part) : State := { s with parts := SMap.set {} s.parts p x }
def State.onPart (s : State) (p : Nat) (f : Part → Part) : State := s.setPart p (f (s.partAt p))
/-- Key of a continuation: micro-context and frame slot. -/
def contKey (mc fslot : Nat) : Nat := mc * 4096 + fslot
def State.contAt (s : State) (k : Nat) : Cont := SMap.get {} s.conts k
def State.setCont (s : State) (k : Nat) (x : Cont) : State := { s with conts := SMap.set {} s.conts k x }
def State.onCont (s : State) (k : Nat) (f : Cont → Cont) : State := s.setCont k (f (s.contAt k))
def State.bindAt (s : State) (b : Nat) : Binding := SMap.get {} s.binds b
def State.setBind (s : State) (b : Nat) (x : Binding) : State := { s with binds := SMap.set {} s.binds b x }
def State.onBind (s : State) (b : Nat) (f : Binding → Binding) : State := s.setBind b (f (s.bindAt b))
def State.fenceAt (s : State) (n : Nat) : Fence := SMap.get {} s.fences n
def State.setFence (s : State) (n : Nat) (x : Fence) : State := { s with fences := SMap.set {} s.fences n x }
def State.funcAt (s : State) (n : Nat) : Func := SMap.get {} s.funcs n
def State.setFunc (s : State) (n : Nat) (x : Func) : State := { s with funcs := SMap.set {} s.funcs n x }
def State.onFunc (s : State) (n : Nat) (f : Func → Func) : State := s.setFunc n (f (s.funcAt n))

/-- A fresh free value (DESIGN CHOICE, log 3): the state with the counter advanced beside it. -/
def State.fresh (s : State) : Nat × State := (s.free, { s with free := s.free + 1 })

/-- An operation by its number. -/
def State.opAt (s : State) (id : Nat) : Option Op := s.ops.find? (fun o => o.id = id)
def State.setOp (s : State) (o : Op) : State :=
  { s with ops := s.ops.map (fun x => if x.id = o.id then o else x) }
/-- Takes an operation away, with the entries that its accesses use (R204). -/
def State.dropOp (s : State) (id : Nat) : State := {
  s with ops := s.ops.filter (fun o => o.id != id), tlb := s.tlb.filter (fun e => e.op = 0 || e.op != id) }
/-- The micro-context, partition and continuation of the core at work. -/
def State.curMc (s : State) : Mc := s.mcAt s.core.mc
def State.curPart (s : State) : Part := s.partAt s.curMc.part.toNat
def State.curKey (s : State) : Nat := contKey s.core.mc s.core.fslot
/-- Cluster, pen and die of a flat core index (R12). -/
def clusterOfCore (c : Nat) : Nat := c / 16
def penOfCore (c : Nat) : Nat := c / 4
def dieOfCore (c : Nat) : Nat := c / 192

/-! ## Effective values (R120) -/

def State.partOfMc (s : State) (m : Nat) : Part := s.partAt (s.mcAt m).part.toNat
def State.effPrio (s : State) (m : Nat) : Nat := min (s.mcAt m).prio.toNat (s.partOfMc m).prioCap.toNat
def State.effHold (s : State) (m : Nat) : BitVec 12 :=
  if (s.mcAt m).hold ≤ (s.partOfMc m).holdCap then (s.mcAt m).hold else (s.partOfMc m).holdCap

/-! ## The device physical address map (R199) -/

def hbmTop : Nat := 0xC000000000
def stackTop : Nat := 0xC180000000
/-- KIND of a device physical address: 0 HBM, 1 STACK, none outside the map. -/
def spaceOf (pa : Nat) : Option Nat := if pa < hbmTop then some 0 else if pa < stackTop then some 1 else none
/-- Die of the owning controller (R199). -/
def ownerDie (pa : Nat) : Nat :=
  if pa < hbmTop then (pa / 65536 % 12) / 3 else (pa - hbmTop) / 65536 % 4
/-- Home slice of a line: die, cluster of the die, slice (R199). -/
def homeSlice (pa : Nat) : Nat × Nat × Nat :=
  let l := pa / 64 % 2 ^ 34
  (ownerDie pa, l / 16 % 12, l % 16)

/-! ## Logical time (R355) -/

def State.lineTs (s : State) (line : Nat) : LineTs := SMap.get {} s.lines line
def State.setLineTs (s : State) (line : Nat) (x : LineTs) : State := { s with lines := SMap.set {} s.lines line x }

/-- A write arrives at the home slice of a line with timestamp `p`: the timestamp that it takes (R355). -/
def State.stampWrite (s : State) (line p : Nat) : Nat × State :=
  let ts := max p ((s.lineTs line).rts + 1)
  (ts, s.setLineTs line ⟨ts, ts⟩)

/-- Stamps every line that `n` bytes from `pa` on touch; the largest timestamp taken. -/
def State.stampLines (s : State) (p : Nat) : Nat → Nat → Nat × State
  | _, 0 => (p, s)
  | line, k + 1 =>
    let (t, s) := s.stampWrite line p
    let (t', s) := s.stampLines p (line + 1) k
    (max t t', s)

def linesOf (pa n : Nat) : Nat := if n = 0 then 0 else (pa + n - 1) / 64 - pa / 64 + 1

/-- A continuation's PTS is at least `t` (R355). -/
def State.raisePts (s : State) (k t : Nat) : State := s.onCont k (fun c => { c with pts := max c.pts t })

/-- A write that covers a whole poisoned unit ends its poison (R428). -/
def unpoison (l : List Nat) (pa n : Nat) : List Nat :=
  l.filter (fun u => !(decide (pa ≤ 64 * u) && decide (64 * u + 64 ≤ pa + n)))

/-- The page of a device physical address belongs to an HBM4E stack that is not present: it reads as poison, and writes to it are
discarded (R199, R471). -/
def State.stackFenced (s : State) (pa : Nat) : Bool := decide (pa < hbmTop) && !s.units.hbm.getLsbD (pa / 65536 % 12)

/-- A unit of a list among `n` bytes from `pa` on. -/
def unitHit (l : List Nat) (pa n : Nat) : Bool := l.any (fun u => decide (64 * u < pa + n) && decide (pa < 64 * u + 64))

/-- A poisoned unit among `n` bytes from `pa` on. -/
def State.poisoned (s : State) (pa n : Nat) : Bool := s.stackFenced pa || unitHit s.poison pa n || unitHit s.poisonL2 pa n

/-- The reason of DATA_POISON for a read of them (R427): 1 for the memory, 2 for a line in an L2 slice. -/
def State.poisonWhy (s : State) (pa n : Nat) : Nat := if s.stackFenced pa || unitHit s.poison pa n then 1 else 2

/-- An access of a device agent to a page in host bias goes to the host over CXL.cache (R456). -/
def State.viaCache (s : State) (pa n : Nat) (write : Bool) : State :=
  if s.hostBias.contains (pa / 65536) then { s with outbox := s.outbox ++ [.cache write pa n] } else s

/-- A write of bytes to device memory that arrives with timestamp `p` (R353, R355): the largest timestamp taken. -/
def State.putMem (s : State) (p pa : Nat) (bs : List Byte) : Nat × State :=
  let n := bs.length
  let (t, s) := s.stampLines p (pa / 64) (linesOf pa n)
  (t, if s.stackFenced pa then s else {
    s with mem := wrBytes s.mem pa bs, poison := unpoison s.poison pa n, poisonL2 := unpoison s.poisonL2 pa n })

/-- The same by an agent of the device, which reaches pages in host bias over CXL.cache (R456). -/
def State.wrMem (s : State) (p pa : Nat) (bs : List Byte) : Nat × State := (s.viaCache pa bs.length true).putMem p pa bs

/-- The undo entries of the bytes at `pa`, before a scalar store of a core (R422). -/
def undoOf (m : SMap Byte) (cl : Option Nat) (pa : Nat) : Nat → List Undo
  | 0 => []
  | n + 1 => ⟨cl, pa, rdByte m pa⟩ :: undoOf m cl (pa + 1) n

/-- The core, other than `c`, that has a tentative byte in the lines of `n` bytes from `pa` on (R422, R423). -/
def State.tentative (s : State) (c : Nat) (cl : Option Nat) (pa n : Nat) : Option Nat :=
  (s.cores.find? (fun e => e.1 != c && e.2.undo.any (fun u =>
    u.clus == cl && decide (pa / 64 * 64 ≤ u.addr) && decide (u.addr < (pa + n + 63) / 64 * 64)))).map (·.1)

/-- A checkpoint of a core at its boundary (R421, R422). -/
def State.checkpoint (s : State) (c : Nat) : State :=
  s.onCoreAt c (fun x => { x with saved := x.now, undo := [], savedOp := s.nextOp, sinceCk := 0, undoPriv := [],
                                  commit := false, forced := false, tiles := [], made := [], remake := [] })

/-- The cores that have tentative bytes in the lines of `n` bytes from `pa` on (R422). -/
def State.holders (s : State) (cl : Option Nat) (pa n : Nat) : List Nat :=
  (s.cores.filter (fun e => e.2.undo.any (fun u =>
    u.clus == cl && decide (pa / 64 * 64 ≤ u.addr) && decide (u.addr < (pa + n + 63) / 64 * 64)))).map (·.1)

/-- An access of an agent that is core `c` or, from 4096 on, no core, to lines that others have left tentative (R371, R423): their
writers take their checkpoints, between cycles of theirs and so at a bundle boundary (DEDUCED, log 52). -/
def State.commitBut (s : State) (c : Nat) (cl : Option Nat) (pa n : Nat) : State :=
  ((s.holders cl pa n).filter (· != c)).foldl (fun s d => s.checkpoint d) s

/-- The same for an agent that is no core's scalar path. -/
def State.commitLines (s : State) (cl : Option Nat) (pa n : Nat) : State := s.commitBut 4096 cl pa n

/-- The same for several stretches of memory, each an address and a length. -/
def State.commitAll (s : State) : List (Nat × Nat) → State
  | [] => s
  | (pa, n) :: r => (s.commitLines none pa n).commitAll r

/-- An access over the host link with the requester identity of function `fn` and a PASID (R436). The relaxed-ordering attribute of
writes is clear (R370, R449); that of reads the spec leaves open (DESIGN CHOICE, log 141). -/
def State.hostAs (s : State) (fn : Nat) (pasid : Option Nat) (write : Bool) (addr n : Nat) : State :=
  { s with outbox := s.outbox ++ [.link fn pasid write false addr n] }

/-- An access over the host link for micro-context `m` (R202, R437). -/
def State.hostLink (s : State) (m : Nat) (write : Bool) (addr n : Nat) : State :=
  let fn := (s.mcAt m).part.toNat
  s.hostAs fn (if (s.funcAt fn).hostPv then some (s.funcAt fn).hostPasid.toNat else none) write addr n

/-- Asks the writer of a tentative line for a checkpoint (R423, R371). -/
def State.force (s : State) (c : Nat) : State := s.onCoreAt c (fun x => { x with forced := true })

/-! ## Translation (R197 to R206) -/

/-- Kinds of access (R200). -/
inductive Acc where
  | read | write | atomic | execute
deriving DecidableEq, Repr

/-- How a translation ends: a physical address with its KIND, a fault, a migrating page (R205), an absent page of a
shared segment, with the physical address of its entry (R327). -/
inductive Xl where
  | ok (host : Bool) (pa : Nat)
  | fault (cause reason : Nat)
  | mig
  | seg (seg entry : Nat)
deriving DecidableEq, Repr

/-- Partition-relative address to DPA (R200 PrivMap). Every check against an absent partition fails (R118). -/
def Part.privMap (p : Part) (rel : Nat) : Option Nat :=
  if !p.active || decide (p.privBase.toNat + rel + 65536 > p.privBound.toNat) then none else some (p.privBase.toNat + rel)

/-- A partition-relative range of at most 64 KiB touches memory of a fenced stack (R471). -/
def State.relFenced (s : State) (p : Part) (rel n : Nat) : Bool :=
  s.stackFenced (p.privBase.toNat + rel) || s.stackFenced (p.privBase.toNat + rel + n - 1)

/-- The 14-bit table index of level `lvl` (R198). -/
def xlIndex (va lvl : Nat) : Nat := bitsOf va (58 - 14 * (lvl - 1)) 14

/-- The leaf entry of a walk and the physical address that holds it. `bad` gives the reason of DATA_POISON for the read of an entry
(R428, R471). -/
def walkGo (mem : SMap Byte) (bad : Nat → Option Nat) (p : Part) (va : Nat) : Nat → Nat → Nat → Except Xl (Nat × Nat)
  | 0, _, _ => .error (.fault 32 4)
  | k + 1, lvl, t =>
    match p.privMap t with
    | none => .error (.fault 34 1)
    | some base =>
      let at' := base + 8 * xlIndex va lvl
      let e := rdNum mem at' 8
      match bad at' with
      | some r => .error (.fault 42 r)
      | none =>
      if e % 2 = 0 then
        (if lvl = 4 && bitsOf e 8 1 == 1 then .error (.seg (bitsOf e 52 12) at')
         else .error (.fault 32 lvl))
      else if lvl = 4 then
        (if bitsOf e 11 5 != 0 || bitsOf e 9 1 != 0 || (bitsOf e 8 1 == 0 && bitsOf e 52 12 != 0)
         then .error (.fault 37 4) else .ok (e, at'))
      else if bitsOf e 1 15 != 0 || bitsOf e 52 12 != 0 || bitsOf e 16 1 == 1 then .error (.fault 37 lvl)
      else walkGo mem bad p va k (lvl + 1) (bitsOf e 16 36 * 65536)

/-- The reason of DATA_POISON for the read of a table entry. -/
def State.entryBad (s : State) (at' : Nat) : Option Nat := if s.poisoned at' 8 then some (s.poisonWhy at' 8) else none

/-- The physical addresses of the entries that a walk reads. -/
def walkReads (mem : SMap Byte) (p : Part) (va : Nat) : Nat → Nat → Nat → List Nat
  | 0, _, _ => []
  | k + 1, lvl, t =>
    match p.privMap t with
    | none => []
    | some base =>
      let at' := base + 8 * xlIndex va lvl
      at' :: (if rdNum mem at' 8 % 2 = 0 || lvl = 4 then [] else walkReads mem p va k (lvl + 1) (bitsOf (rdNum mem at' 8) 16 36 * 65536))

/-- The checks of R200 on a leaf, and the address (DESIGN CHOICE, log 44). -/
def leafCheck (p : Part) (va : Nat) (kind : Acc) (e : Nat) : Xl :=
  let sh := bitsOf e 8 1 == 1
  let k := bitsOf e 6 2
  let frame := bitsOf e 16 36 * 65536
  let off := va % 65536
  if bitsOf e 10 1 == 1 then .mig
  else if k = 3 || sh != decide (va / 2 ^ 64 ≥ 0x80) then .fault 37 4
  else if kind = .read && bitsOf e 1 1 == 0 then .fault 33 1
  else if kind = .execute && bitsOf e 3 1 == 0 then .fault 33 3
  else if (kind = .write || kind = .atomic) && sh then .fault 33 4
  else if (kind = .write || kind = .atomic) && bitsOf e 2 1 == 0 then .fault 33 2
  else if kind = .atomic && k = 2 then .fault 33 5
  else if sh then
    (if p.active && p.grants.getLsbD (bitsOf e 52 12) then .ok false (frame + off) else .fault 38 1)
  else if k = 2 then
    (if !p.active || decide (frame < p.hostBase.toNat) || decide (frame + 65536 > p.hostBound.toNat) then .fault 34 2
     else .ok true (frame + off))
  else
    match p.privMap frame with
    | none => .fault 34 1
    | some pa => if spaceOf (pa + off) = some k then .ok false (pa + off) else .fault 37 4

/-- Who translates: the cluster whose cache it uses, the core whose own buffer it uses as well (R204), and the continuation with the
program timestamp with which its accesses to entries arrive (R355). -/
structure Who where
  cl   : Nat
  core : Option Nat := none
  cont : Option Nat := none
  pts  : Nat := 0
deriving DecidableEq, Repr

/-- The Shepherd, and the network paths with the Sheepdog cores: translations of theirs are cached apart from the clusters'. -/
def Who.shep : Who := { cl := 4096 }
def Who.net : Who := { cl := 4097 }
/-- The instruction path of core `c`. -/
def State.fetcher (s : State) (c : Nat) : Who :=
  let x := s.coreAt c
  let k := contKey x.mc x.fslot
  { cl := clusterOfCore c, core := some c, cont := some k, pts := (s.contAt k).pts }
/-- An operation: a scalar access arrives with its continuation's timestamp, an engine with that of its issue (R355). -/
def State.agent (s : State) (o : Op) : Who :=
  let k := contKey o.mc o.fslot
  if o.kind == .scalar then { cl := clusterOfCore o.core, core := some o.core, cont := some k, pts := (s.contAt k).pts }
  else { cl := clusterOfCore o.core, cont := some k, pts := o.pts }

/-- The entry of a page in a core's own buffer, and in its cluster's cache (R204) (DESIGN CHOICE, log 66). -/
def State.inCore (s : State) (w : Who) (mc vpn : Nat) : Option TlbEntry :=
  if w.core.isNone then none else s.tlb.find? (fun e => e.op = 0 && e.core == w.core && e.mc = mc && e.vpn = vpn)
def State.inCluster (s : State) (w : Who) (mc vpn : Nat) : Option TlbEntry :=
  s.tlb.find? (fun e => e.op = 0 && e.core == none && e.cl = w.cl && e.mc = mc && e.vpn = vpn)
def State.cached (s : State) (w : Who) (mc vpn : Nat) : Option TlbEntry :=
  match s.inCore w mc vpn with
  | some e => some e
  | none => s.inCluster w mc vpn

/-- The entry of a page that the accesses of operation `key` use since the first of them (R204). -/
def State.pinned (s : State) (key mc vpn : Nat) : Option TlbEntry :=
  if key = 0 then none else s.tlb.find? (fun e => e.op = key && e.mc = mc && e.vpn = vpn)

/-- The cached old entry that an access uses in place of the new one, if it is not the `same` (R204): the one of its operation, or a
free choice. -/
def State.staleUse (s : State) (w : Who) (mc key vpn : Nat) (same : TlbEntry → Bool) : Option TlbEntry :=
  match s.pinned key mc vpn with
  | some e => if same e then none else some e
  | none => match s.cached w mc vpn with
    | some e => if same e then none else if Config.useOld key vpn (s.rtc.toNat + (s.clusterAt w.cl).cyc) then some e else none
    | none => none

/-- A cached leaf is the one that a walk finds, but for its A and D. -/
def TlbEntry.leafIs (o : TlbEntry) : Except Xl (Nat × Nat) → Bool
  | .ok (e, at') => o.home == at' && o.leaf / 64 == e / 64 && o.leaf % 16 == e % 16
  | .error _ => false

/-- Translate (R200) for micro-context `mc`. `key` names the operation, 0 for none: every access of one syllable to a page uses the
same one of a cached old entry and the new one (R204). The second component is the leaf that was used and where it stands, for the
update of A and D. -/
def State.xlate (s : State) (w : Who) (mc key va : Nat) (kind : Acc) : Xl × Option (Nat × Nat) :=
  if va / 2 ^ 64 % 256 = 0xFF then (.fault 35 1, none)
  else
    let p := s.partOfMc mc
    let walk := walkGo s.mem s.entryBad p va 4 1 (s.mcAt mc).ptroot.toNat
    match s.staleUse w mc key (va / 65536) (fun o => o.leafIs walk) with
    | some o => (leafCheck p va kind o.leaf, some (o.leaf, o.home))
    | none =>
      match walk with
      | .ok (e, at') => (leafCheck p va kind e, some (e, at'))
      | .error x => (x, none)

/-- The entries of a kind beyond the first `n` go (R204: a full buffer or cache; which entry leaves is a DESIGN CHOICE, log 66). -/
def keepFirst (f : TlbEntry → Bool) : Nat → List TlbEntry → List TlbEntry
  | _, [] => []
  | 0, e :: r => if f e then keepFirst f 0 r else e :: keepFirst f 0 r
  | n + 1, e :: r => e :: keepFirst f (if f e then n else n + 1) r

/-- A translation fills the translation cache of the cluster, the buffer of the core and the operation's own entries (R204); a stall on an
absent segment page is over (R327). -/
def State.fillTlb (s : State) (w : Who) (mc key vpn leaf home : Nat) : State :=
  let own : List TlbEntry := if key = 0 || (s.pinned key mc vpn).isSome then [] else [⟨key, w.cl, none, mc, vpn, leaf, home⟩]
  let core : List TlbEntry := if w.core.isNone || (s.inCore w mc vpn).isSome then [] else [⟨0, w.cl, w.core, mc, vpn, leaf, home⟩]
  let cl : List TlbEntry := if (s.inCluster w mc vpn).isSome then [] else [⟨0, w.cl, none, mc, vpn, leaf, home⟩]
  let l := core ++ cl ++ s.tlb
  let l := if core.isEmpty then l else keepFirst (fun e => e.op == 0 && e.core == w.core) 64 l
  let l := if cl.isEmpty then l else keepFirst (fun e => e.op == 0 && e.core == none && e.cl == w.cl) 8192 l
  { s with tlb := own ++ l, segNaps := s.segNaps.filter (fun e => !(e.1 == mc && e.2.1 == vpn)) }

/-- A write of operation `key` has taken timestamp `t` (R355): the PTS of its continuation is at least `t`, and so is the timestamp with
which a release that waits for it applies (R361, R363). -/
def State.took (s : State) (key k t : Nat) : State :=
  { s with ops := s.ops.map (fun (r : Op) => if r.after.contains key then { r with ts := max r.ts t } else r) }.onCont k
    (fun c => { c with pts := max c.pts t, wts := max c.wts t })

/-- SetAccessedDirty (R201), an atomic at the home slice of the entry that was used (R355), and the filling of the caches (R204), after a
translation without a fault. -/
def State.setAD (s : State) (w : Who) (mc key va : Nat) (kind : Acc) : Option (Nat × Nat) → State
  | none => s
  | some (e, at') =>
    let d := (kind = .write || kind = .atomic) && bitsOf e 8 1 == 0
    let b := (rdByte s.mem at').toNat
    let b' := b ||| 16 ||| (if d then 32 else 0)
    let (t, s) := s.stampWrite (at' / 64) w.pts
    let s := match w.cont with
      | some k => s.took key k t
      | none => s
    { s with mem := if s.stackFenced at' then s.mem else wrByte s.mem at' (BitVec.ofNat 8 b') }.fillTlb w mc key (va / 65536) e at'

/-- The table lines that a walk reads are committed before it (R371, R423). -/
def State.walkCommit (s : State) (mc va : Nat) : State :=
  s.commitAll ((walkReads s.mem (s.partOfMc mc) va 4 1 (s.mcAt mc).ptroot.toNat).map (fun a => (a, 8)))

/-- A translation with its effects (R200, R201). -/
def State.xlateDo (s : State) (w : Who) (mc key va : Nat) (kind : Acc) : Xl × State :=
  let s := s.walkCommit mc va
  match s.xlate w mc key va kind with
  | (.ok h pa, l) => (.ok h pa, s.setAD w mc key va kind l)
  | (x, _) => (x, s)

/-- The translation of a PREF, which changes no table entry (R210; DEDUCED, log 15). -/
def State.xlatePref (s : State) (w : Who) (mc key va : Nat) : Xl × State :=
  let s := s.walkCommit mc va
  match s.xlate w mc key va .read with
  | (.ok h pa, some (e, at')) => (.ok h pa, s.fillTlb w mc key (va / 65536) e at')
  | (x, _) => (x, s)

/-! ## Function errors, MSI-X, rings (R437, R446 to R449) -/

/-- Sends vector `v` of a function, or sets its pending bit when masked. -/
def State.sendMsi (s : State) (fn v : Nat) : State :=
  let f := s.funcAt fn
  -- MSI-X table entry: address 8 bytes, data 4 bytes, control 4 bytes with the mask in bit 0
  if (rdByte f.msixt (16 * v + 12)).toNat % 2 = 1 then
    s.setFunc fn { f with msixp := f.msixp ||| (1#256 <<< v) }
  else { s with outbox := s.outbox ++ [.msi fn v] }

/-- Records a function error (R437 FERR). -/
def State.setFerr (s : State) (fn code datum : Nat) : State :=
  let f := s.funcAt fn
  if f.ferr.valid then s.setFunc fn { f with ferr := { f.ferr with ovfl := true } }
  else
    (s.setFunc fn { f with ferr := ⟨true, f.ferr.ovfl, BitVec.ofNat 8 code, BitVec.ofNat 32 datum⟩ }).sendMsi fn f.ferrVec.toNat

/-- CDROP counts a dropped record (R437, R446). -/
def Func.dropRecord (f : Func) : Func :=
  { f with cdrop := if f.cdrop = 0xFFFFFFFF#32 then f.cdrop else f.cdrop + 1 }

/-- Sends the message of a ring whose records reached CCOUNT (R448). -/
def State.ringSignal (s : State) (fn r : Nat) : State :=
  let f := s.funcAt fn
  let d := SMap.get {} f.rings r
  if d.since ≥ d.ccount.toNat then
    (s.setFunc fn { f with rings := SMap.set {} f.rings r { d with since := 0 } }).sendMsi fn d.vec.toNat
  else s

/-- Host memory of `n` bytes answers with an error completion. -/
def State.hostBad (s : State) (a n : Nat) : Bool :=
  n != 0 && s.hostErr.any (fun e => decide (e.1 * 65536 < a + n) && decide (a < e.1 * 65536 + 65536))

/-- The PASID of a ring or a queue (R440, R446). -/
def RingD.pas (d : RingD) : Option Nat := if d.pv then some d.pasid.toNat else none
def HQueue.pas (q : HQueue) : Option Nat := if q.pv then some q.pasid.toNat else none
/-- HOSTPASID of a function (R437). -/
def Func.pas (f : Func) : Option Nat := if f.hostPv then some f.hostPasid.toNat else none

/-- A read of host memory by the device for function `fn` (R436): the bytes, none where the host link rejects it. -/
def State.hostGet (s : State) (fn : Nat) (pasid : Option Nat) (a n : Nat) : Option (List Byte) × State :=
  if n = 0 then (some [], s)
  else
    let t := s.hostAs fn pasid false a n
    (if s.hostBad a n then none else some (rdBytes s.host a n), t)

/-- A write of the device to host memory for function `fn`, page by page: what the host link rejects is dropped and counts in CDROP
(R449). The bytes that have been written. -/
def State.hostPut (s : State) (fn : Nat) (pasid : Option Nat) (a : Nat) : Nat → List Byte → Nat × State
  | 0, _ => (0, s)
  | k + 1, bs =>
    let h := min bs.length (65536 - a % 65536)
    if h = 0 then (0, s)
    else
      let t := s.hostAs fn pasid true a h
      let bad := s.hostBad a h
      let t := if bad then t.setFunc fn (t.funcAt fn).dropRecord else { t with host := wrBytes t.host a (bs.take h) }
      let (n, t) := t.hostPut fn pasid (a + h) k (bs.drop h)
      ((if bad then 0 else h) + n, t)

/-- Writes a 32-byte record to a ring (R446): `lostAt` is the byte of the record that holds LOST. -/
def State.postRecord (s : State) (fn r : Nat) (compl : Bool) (lostAt : Nat) (rec : List Byte) : State :=
  let f := s.funcAt fn
  let d := SMap.get {} f.rings r
  if r ≥ 1024 then s
  else if !d.en || d.compl != compl then (s.setFunc fn f.dropRecord).setFerr fn 7 r
  else if (d.tail - d.head).toNat = 2 ^ d.log.toNat then
    s.setFunc fn { f with rings := SMap.set {} f.rings r { d with lost := true } }
  else if s.hostBad (d.base.toNat + 32 * (d.tail.toNat % 2 ^ d.log.toNat)) 32 then
    -- R449: a record that the host link rejects is dropped
    (s.hostAs fn d.pas true (d.base.toNat + 32 * (d.tail.toNat % 2 ^ d.log.toNat)) 32).setFunc fn f.dropRecord
  else
    let b := if d.lost then rec.set lostAt 1 else rec
    let a := d.base.toNat + 32 * (d.tail.toNat % 2 ^ d.log.toNat)
    let d' := { d with tail := d.tail + 1, lost := false, since := d.since + 1,
                       first := if d.since = 0 then s.rtc.toNat else d.first }
    let s := { s.hostAs fn d.pas true a 32 with host := wrBytes s.host a b }
    (s.setFunc fn { f with rings := SMap.set {} f.rings r d' }).ringSignal fn r

/-- An event record (R170). -/
def eventBytes (time kind code mc part slot d0 d1 : Nat) : List Byte :=
  toBytes 8 time ++ toBytes 1 kind ++ toBytes 1 code ++ toBytes 2 mc ++ toBytes 1 part ++ toBytes 1 0
    ++ toBytes 2 slot ++ toBytes 8 d0 ++ toBytes 8 d1

/-- Posts an event to the EVRING of a micro-context (R170, R419). -/
def State.postEvent (s : State) (mc kind code slot d0 d1 : Nat) : State :=
  let m := s.mcAt mc
  s.postRecord m.part.toNat m.evring.toNat false 13
    (eventBytes s.rtc.toNat kind code mc m.part.toNat slot d0 d1)

/-! ## Accesses of the Shepherd to a micro-context's memory (R203) -/

/-- Raises what R203 says of a failing access of the Shepherd: the micro-context is HALTED and one event is posted. -/
def State.shepFail (s : State) (mc cause reason va : Nat) : State :=
  let s := s.onMc mc (fun m => { m with state := .halted })
  s.postEvent mc 2 cause 0xFFFF (cause + reason * 65536) (va % 2 ^ 64)

/-- Asks the Carder for the segment page that the entry at physical address `at'` was registered for (R325). -/
def State.askPage (s : State) (sg at' : Nat) : State :=
  let g := SMap.get {} s.segs sg
  match g.regs.find? (fun r => r.addr = at') with
  | some r =>
    if g.asked.contains r.page || g.present.contains r.page then s
    else { s with segs := SMap.set {} s.segs sg { g with asked := g.asked ++ [r.page] } }
  | none => s

/-- An access that finds MIG = 1 sleeps on its page until a shootdown wakes it (R205). -/
def State.nap (s : State) (mc vpn : Nat) : State := if s.naps.contains (mc, vpn) then s else { s with naps := (mc, vpn) :: s.naps }
def State.napping (s : State) (mc va : Nat) : Bool := s.naps.contains (mc, va / 65536)

/-- An access of the Shepherd or of a Sheepdog core that meets an absent segment page (R327): the Carder is asked, and the answer is
whether its stall has passed the segment wait limit. -/
def State.segNap (s : State) (mc vpn sg at' : Nat) : Bool × State :=
  let s := s.askPage sg at'
  match s.segNaps.find? (fun e => e.1 == mc && e.2.1 == vpn) with
  | some e =>
    if e.2.2 + 1000 * s.segwait.toNat ≤ s.rtc.toNat then
      (true, { s with segNaps := s.segNaps.filter (fun x => !(x.1 == mc && x.2.1 == vpn)) })
    else (false, s)
  | none => (false, { s with segNaps := (mc, vpn, s.rtc.toNat) :: s.segNaps })

/-- Where an access of the Shepherd to `n` bytes of one page goes, with its effects on the tables (R201) and on tentative lines
(R371); a failing one raises `shepFail`, once for all that the Shepherd is doing (R203; DEDUCED, log 113). One that meets MIG = 1 sleeps
(R205), and one to an absent segment page waits for it (R327). -/
def State.shepGo (s : State) (mc va n : Nat) (kind : Acc) : Option Nat × State :=
  let fail (s : State) (c r : Nat) : State := if s.shepDown = some mc then s else { s.shepFail mc c r va with shepDown := some mc }
  if s.napping mc va then (none, { s with shepDown := some mc })
  else
    match s.xlateDo Who.shep mc 0 va kind with
    | (.ok false pa, t) =>
      if kind == .read && t.poisoned pa n then (none, fail t 42 (t.poisonWhy pa n))
      else
        let t := t.commitLines none pa n
        (some pa, if kind == .read then t.viaCache pa n false else t)
    | (.ok true _, _) => (none, fail s 33 6)
    | (.fault c r, _) => (none, fail s c r)
    | (.mig, t) => (none, { t.nap mc (va / 65536) with shepDown := some mc })
    | (.seg sg e, t) =>
      let (late, t) := t.segNap mc (va / 65536) sg e
      if late then (none, fail t 39 1) else (none, { t with shepDown := some mc })

/-- The Shepherd begins to do something else: a later failure is one of its own. -/
def State.shepUp (s : State) : State := { s with shepDown := none }

/-- Bytes of a page as the Shepherd finds them, after `shepGo`. -/
def State.shepRead (s : State) (mc va n : Nat) : Option (List Byte) :=
  match (s.xlate Who.shep mc 0 va .read).1 with
  | .ok false pa => some (rdBytes s.mem pa n)
  | _ => none

/-- The failure of an access of the Shepherd (R203). -/
def State.shepBad (s : State) (mc va : Nat) (kind : Acc) : Option State :=
  match s.shepUp.shepGo mc va 1 kind with
  | (some _, _) => none
  | (none, t) => some t.shepUp

/-- Writes bytes of one page for the Shepherd; one that fails performs nothing. -/
def State.shepWrite (s : State) (mc va : Nat) (bs : List Byte) : State :=
  match s.shepGo mc va bs.length .write with
  | (some pa, t) => (t.wrMem 0 pa bs).2
  | (none, t) => t

end Sys2Proof.Machine
end

