-- ==== Sys2Proof/Machine/Operands.lean ====
section
/-!
DEFINITION. Operand forms: reading and writing the register files of a continuation (R36, R37, R54), immediates and
extension words (R38, R40), elements of vector registers (R87).
-/
namespace Sys2Proof.Machine
set_option Elab.async false
open Sys2Proof

/-! ## Register files (R37, R54) -/

/-- s0 reads 0. -/
def Arch.rdS (a : Arch) (r : SReg) : Word := if r = 0 then 0 else SMap.get 0 a.s r.toNat
/-- a0 reads 0; a31 holds the frame base. -/
def Arch.rdA (a : Arch) (r : AReg) : VAddr := if r = 0 then 0 else SMap.get 0 a.a r.toNat
/-- p0 reads true. -/
def Arch.rdP (a : Arch) (r : PReg) : Bool := r == 0 || a.p.getLsbD r.toNat
def Arch.rdV (a : Arch) (r : VReg) : VWord := SMap.get 0 a.v r.toNat
/-- k0 reads all ones. -/
def Arch.rdK (a : Arch) (r : KReg) : Word := if r = 0 then BitVec.allOnes 64 else SMap.get 0 a.k r.toNat
def Arch.rdT (a : Arch) (r : TReg) : TDesc := SMap.get {} a.t r.toNat
def Arch.rdLc (a : Arch) (r : BitVec 2) : Word32 := SMap.get 0 a.lc r.toNat
def Arch.rdFt (a : Arch) (r : BitVec 4) : BitVec 16 := SMap.get 0 a.ft r.toNat
def Arch.zflag (a : Arch) (z : Nat) : ZFlag := SMap.get {} a.zf z
def Arch.setZflag (a : Arch) (z : Nat) (f : ZFlag) : Arch := { a with zf := SMap.set {} a.zf z f }
def Arch.loopAt (a : Arch) (n : Nat) : LoopReg := SMap.get {} a.loops n
def Arch.setLoop (a : Arch) (n : Nat) (l : LoopReg) : Arch := { a with loops := SMap.set {} a.loops n l }

/-- Sets or clears one bit. -/
def setBit {w : Nat} (x : BitVec w) (i : Nat) (b : Bool) : BitVec w :=
  if b then x ||| (1#w <<< i) else x &&& ~~~(1#w <<< i)

/-- A system register as it is written: RMODE, FFLAGS, HOLD, FOLDSCOPE, LEASE and CKPTI, the value already held to its
range (R173); a write of any other is ignored. -/
def Arch.wrSys (a : Arch) (n : BitVec 12) (v : Word) : Arch :=
  if n = 0x005 then { a with hold := v.truncate 12 }
  else if n = 0x006 then { a with scopeGlobal := v.getLsbD 0 }
  else if n = 0x007 then { a with leaseLen := v.truncate 16 }
  else if n = 0x008 then { a with ckpti := v.truncate 32 }
  else if n = 0x009 then { a with rmode := v.truncate 2 }
  else if n = 0x00A then { a with fflags := v.truncate 6 }
  else a

/-- A write of one register; writes to s0, a0, p0 and k0 are discarded (R37) (DEDUCED, log 71). -/
def Arch.wr (a : Arch) (w : RegWrite) : Arch :=
  match w with
  | .s r v => if r = 0 then a else { a with s := SMap.set 0 a.s r.toNat v }
  | .a r v => if r = 0 then a else { a with a := SMap.set 0 a.a r.toNat v }
  | .v r v => { a with v := SMap.set 0 a.v r.toNat v }
  | .k r v => if r = 0 then a else { a with k := SMap.set 0 a.k r.toNat v }
  | .t r v => { a with t := SMap.set {} a.t r.toNat v }
  | .p r v => if r = 0 then a else { a with p := setBit a.p r.toNat v }
  | .lc r v => { a with lc := SMap.set 0 a.lc r.toNat v }
  | .ft r v => { a with ft := SMap.set 0 a.ft r.toNat v }
  | .sys r v => a.wrSys r v
  | .dom r v => if (a.rdT r).valid then { a with t := SMap.set {} a.t r.toNat { a.rdT r with spectral := v } } else a
  | .zdom z v => a.setZflag z.toNat { a.zflag z.toNat with spectral := v }
  | .mzero z v => { a with z := a.z.filter (fun e => e.1 / 32768 != z.toNat), badAcc := a.badAcc.filter (fun u => u / 2048 != z.toNat) }.setZflag z.toNat ⟨true, v, false⟩
  | .none => a

/-! ## Immediates -/

/-- A short immediate, or the sign-extended extension word in its place (R40). -/
def immOr {n : Nat} (w : Nat) (imm : BitVec n) (ext : Option Word32) : BitVec w :=
  match ext with
  | some e => e.signExtend w
  | none => imm.signExtend w

/-- A short memory offset scaled by the access size, or the AX extension (R38, R209). -/
def offOr (off : BitVec 5) (sz : BitVec 2) (ext : Option Word32) : VAddr :=
  match ext with
  | some e => e.signExtend 72
  | none => off.signExtend 72 <<< sz.toNat

/-! ## Vector lanes (R87) -/

/-- Element `i` of `w` bits of a register value. -/
def vElem (w : Nat) (x : VWord) (i : Nat) : Nat := bitsOf x.toNat (w * i) w

/-- The register value whose element `i` of `w` bits is `f i`, for `n` elements. -/
def vPack (w : Nat) (f : Nat → Nat) : Nat → Nat
  | 0 => 0
  | n + 1 => vPack w f n + (f n % 2 ^ w) * 2 ^ (w * n)

def vOf (w : Nat) (f : Nat → Nat) : VWord := BitVec.ofNat 2048 (vPack w f (2048 / w))

/-! ## Tile descriptors (R216, R217) -/

def TDesc.rows (d : TDesc) : Nat := d.rowsm1.toNat + 1
def TDesc.rb (d : TDesc) : Nat := d.rbm1.toNat + 1
/-- Row stride. -/
def TDesc.rs (d : TDesc) : Nat := (d.rb + 63) / 64 * 64
/-- Allocation units (R217). -/
def TDesc.units (d : TDesc) : Nat :=
  if d.clus then ((d.rows + 15) / 16 * d.rs + 255) / 256 else (d.rows * d.rs + 4095) / 4096
/-- The descriptor as 64 bits (R216). -/
def TDesc.bits (d : TDesc) : Nat :=
  (if d.valid then 1 else 0) + (if d.clus then 2 else 0) + (if d.spectral then 4 else 0) + d.fmt.toNat * 16
    + d.rowsm1.toNat * 2 ^ 8 + d.rbm1.toNat * 2 ^ 16 + d.base.toNat * 2 ^ 32 + d.tti.toNat * 2 ^ 48
def TDesc.ofBits (x : Nat) : TDesc :=
  { valid := bitsOf x 0 1 == 1, clus := bitsOf x 1 1 == 1, spectral := bitsOf x 2 1 == 1,
    fmt := BitVec.ofNat 4 (bitsOf x 4 4), rowsm1 := BitVec.ofNat 8 (bitsOf x 8 8),
    rbm1 := BitVec.ofNat 12 (bitsOf x 16 12), base := BitVec.ofNat 11 (bitsOf x 32 11),
    tti := BitVec.ofNat 12 (bitsOf x 48 12) }
/-- PRIV byte offset of byte `b` of row `r` (R217). -/
def TDesc.privAddr (d : TDesc) (r b : Nat) : Nat := 4096 * d.base.toNat + r * d.rs + b
/-- Address of byte `b` of row `r` in the cluster's tile-handle region, `slice * 2^19 + offset` (R217). -/
def TDesc.clusAddr (d : TDesc) (r b : Nat) : Nat :=
  ((d.tti.toNat + r) % 16) * 2 ^ 19 + 256 * d.base.toNat + (r / 16) * d.rs + b

/-! ## Tile bytes -/

/-- `n` bytes of row `r` of a tile of core `c`, from byte `b` on. -/
def State.tileRd (s : State) (c : Nat) (d : TDesc) (r b n : Nat) : List Byte :=
  if d.clus then rdBytes (s.clusterAt (clusterOfCore c)).clus (d.clusAddr r b) n
  else rdBytes (s.coreAt c).now.priv (d.privAddr r b) n

/-- Writes bytes of a tile. -/
def State.tileWr (s : State) (c : Nat) (d : TDesc) (r b : Nat) (bs : List Byte) : State :=
  if d.clus then
    let q := clusterOfCore c
    let x := s.clusterAt q
    s.setCluster q { x with clus := wrBytes x.clus (d.clusAddr r b) bs, bad := unpoison x.bad (d.clusAddr r b) bs.length }
  else s.onArchAt c (fun a => { a with priv := wrBytes a.priv (d.privAddr r b) bs, badPriv := unpoison a.badPriv (d.privAddr r b) bs.length })

/-! ## Units with an uncorrectable word (R428) -/

/-- The byte offset of the first unit of a list that `n` bytes from `a` on touch. -/
def badUnit (l : List Nat) (a n : Nat) : Option Nat :=
  if n = 0 then none else (l.find? (fun u => decide (64 * u < a + n) && decide (a < 64 * u + 64))).map (64 * ·)

/-- Bytes of an accumulator as `badAcc` numbers them: elements `col` on of a row. -/
def accAddr (z row col : Nat) : Nat := z * 131072 + row * 1024 + 4 * col
/-- An accumulator holds an uncorrectable word: the byte offset of its unit. -/
def Arch.accBad (a : Arch) (z : Nat) : Option Nat := badUnit a.badAcc (accAddr z 0 0) 131072
/-- The accumulator has been written whole. -/
def Arch.accWhole (a : Arch) (z : Nat) : Arch := { a with badAcc := a.badAcc.filter (fun u => u / 2048 != z) }

end Sys2Proof.Machine
end

