-- ==== Sys2Proof/Machine/PassMath.lean ====
section
/-!
DEFINITION. The arithmetic of a matrix pass (spec/03_numbers.md R98, R99, R112 to R117; spec/09_matrix_class.md R253, R254;
R312): format words, rows of operands, the exact block sums and their accumulation.
-/
namespace Sys2Proof.Machine
set_option Elab.async false
open Sys2Proof

/-! ## Format words (R98, R99) -/

def wordAF (w : BitVec 16) : Nat := bitsOf w.toNat 0 4
def wordBF (w : BitVec 16) : Nat := bitsOf w.toNat 4 4
def wordASC (w : BitVec 16) : Bool := w.getLsbD 8
def wordBSC (w : BitVec 16) : Bool := w.getLsbD 9

def is8f (c : Nat) : Bool := c == 3 || c == 4
def is8i (c : Nat) : Bool := c == 5 || c == 6

/-- The well-formed words of MMUL and MMULW, or of MSPEC (R99). -/
def wordOk (spec : Bool) (w : BitVec 16) : Bool :=
  let a := wordAF w
  let b := wordBF w
  let sa := wordASC w
  let sb := wordBSC w
  bitsOf w.toNat 10 6 == 0 &&
  (if spec then a == 10 && b == 10 && !sa && !sb
   else (is8f a && is8f b) || (a == 5 && b == 5 && (sa || sb)) || (is8i a && is8i b && !sa && !sb)
     || (a == 5 && b == 9 && !sa && !sb) || (a == 2 && b == 2 && !sa && !sb) || (a == 1 && b == 1 && !sa && !sb))

/-- The word accumulates in INT32 (R99). -/
def wordInt (w : BitVec 16) : Bool :=
  is8i (wordAF w) && (is8i (wordBF w) || wordBF w == 9) && !wordASC w && !wordBSC w

/-- KOf(RB) of a row of code `c`, block-scaled or not (R254). -/
def kOf (c : Nat) (sc : Bool) (rb : Nat) : Nat :=
  if sc then 32 * (rb / 33)
  else if c = 9 then min (5 * rb) 256
  else rb / unitBytes c

def kMax (w : BitVec 16) : Nat :=
  if wordBF w = 10 then 32 else if wordBF w = 9 then 256 else if wordBF w ≤ 2 then 64 else 128
def nMax (w : BitVec 16) : Nat := if wordBF w = 10 then 128 else 256

/-! ## Rows

Operand bytes are a sparse table: byte `b` of row `r` at `r * 4096 + b`. -/

def rowKey (r b : Nat) : Nat := r * 4096 + b

/-- The bytes of a row list as table entries. -/
def putRow (m : SMap Byte) (r : Nat) (bs : List Byte) : SMap Byte := wrBytes m (rowKey r 0) bs

/-- Element `k` of row `r` as bits. -/
def rowElem (m : SMap Byte) (c r k : Nat) : Nat := rdNum m (rowKey r (k * unitBytes c)) (unitBytes c)

/-- Trit `k` of row `r`; an ill-formed byte counts as 0, since no pass lands with one. -/
def rowTrit (m : SMap Byte) (r k : Nat) : Int := (tritOf (rdByte m (rowKey r (k / 5))).toNat (k % 5)).getD 0

/-- An ill-formed T3 byte among the bytes of `n` rows that hold elements below `K` (R95, R266) (DEDUCED, log 82). -/
def badTrit (m : SMap Byte) (n K : Nat) : Bool :=
  m.any (fun e => decide (e.1 / 4096 < n) && decide (5 * (e.1 % 4096) < K) && decide (e.2.toNat ≥ 243))

/-! ## Exact block sums (R112 to R115) -/

/-- A block sum under way: exact terms scaled by 2^300, and the specials that it has met. -/
structure BSum where
  nan  : Bool := false
  pinf : Bool := false
  ninf : Bool := false
  sum  : Int := 0
  /-- every term so far was -0 -/
  negz : Bool := true
deriving DecidableEq, Repr

def BSum.add (b : BSum) (v : FVal) : BSum :=
  match v with
  | .nan _ => { b with nan := true, negz := false }
  | .inf n => if n then { b with ninf := true, negz := false } else { b with pinf := true, negz := false }
  | .zero n => { b with negz := b.negz && n }
  | .fin n m e => { b with sum := b.sum + dyInt n (m * 2 ^ (e + 300).toNat), negz := false }

/-- The block sum times `2^k` (R112). -/
def BSum.value (b : BSum) (k : Int) : FVal :=
  if b.nan || (b.pinf && b.ninf) then .nan false
  else if b.pinf then .inf false
  else if b.ninf then .inf true
  else if b.sum = 0 then .zero b.negz
  else .fin (decide (b.sum < 0)) b.sum.natAbs (k - 300)

/-- AccRound (R112, R114, R115): the accumulator's bits and whether it saturated. -/
def accRound (c : Nat) (s : FVal) : Nat × Bool :=
  let cv := FFmt.fp32.decode c
  let x := addV .rne cv s
  match x with
  | .nan _ => (FFmt.fp32.nan, false)
  | x =>
    let (y, fl) := FFmt.fp32.round .rne false x
    let finite (v : FVal) : Bool := match v with | .inf _ => false | .nan _ => false | _ => true
    if finite cv && finite s && (fl &&& fOF) != 0 then
      ((if y ≥ FFmt.fp32.signBit then FFmt.fp32.signBit else 0) + FFmt.fp32.maxBits, true)
    else (y, false)

/-- The value of an operand element, an MXINT8 element as `q * 2^-6` (R93, R99). -/
def opVal (c : Nat) (sc : Bool) (x : Nat) : FVal :=
  match elemVal c x with
  | .fin n m e => .fin n m (if sc && c == 5 then e - 6 else e)
  | v => v

/-- One output element in FP32 accumulation, from block `blk` on (R112): `ka` and `kb` are the elements that a row of A
and of B holds, of which the first `lim` of B lie in its tensor; a product with an edge operand is +0 (R113). -/
def fpBlocks (w : BitVec 16) (A B : SMap Byte) (i j ka kb lim : Nat) : Nat → Nat → Nat → Bool → Nat × Bool
  | 0, _, c, sat => (c, sat)
  | n + 1, blk, c, sat =>
    let ca := wordAF w
    let cb := wordBF w
    let s := (List.range 32).foldl (fun (b : BSum) t =>
      let k := 32 * blk + t
      if k < ka && k < lim then
        b.add (mulV (opVal ca (wordASC w) (rowElem A ca i k)) (opVal cb (wordBSC w) (rowElem B cb j k))).1
      else b.add (.zero false)) {}
    let sa := if wordASC w then (rdByte A (rowKey i (ka + blk))).toNat else 127
    let sb := if wordBSC w then (rdByte B (rowKey j (kb + blk))).toNat else 127
    -- where every element of an operand is an edge operand (R113) its scale is not read
    let sa := if 32 * blk < ka then sa else 127
    let sb := if 32 * blk < lim then sb else 127
    let v := if sa = 255 || sb = 255 then .nan false else s.value ((sa : Int) + sb - 254)
    let (c', x) := accRound c v
    fpBlocks w A B i j ka kb lim n (blk + 1) c' (sat || x)

/-- One output element in INT32 accumulation (R116): the wrapped value and whether it differs from the exact sum. -/
def intElemSum (w : BitVec 16) (A B : SMap Byte) (i j ka lim : Nat) (c : Nat) : Nat × Bool :=
  let n := min ka lim
  let s : Int := (List.range n).foldl (fun (t : Int) k =>
    let a := intElem (wordAF w) (rowElem A (wordAF w) i k)
    let b := if wordBF w = 9 then rowTrit B j k else intElem (wordBF w) (rowElem B (wordBF w) j k)
    t + a * b) (toSigned 32 c)
  let y := truncInt 32 s
  (y, decide (toSigned 32 y ≠ s))

/-- The real or imaginary part of an MSPEC output element (R117, R312): slot 0 is packed. -/
def specBlocks (A B : SMap Byte) (i j ka kb : Nat) (im : Bool) : Nat → Nat → Nat → Bool → Nat × Bool
  | 0, _, c, sat => (c, sat)
  | n + 1, blk, c, sat =>
    let part (m : SMap Byte) (r k : Nat) (hi : Bool) : FVal :=
      FFmt.bf16.decode (rdNum m (rowKey r (4 * k + (if hi then 2 else 0))) 2)
    let s := (List.range 32).foldl (fun (b : BSum) t =>
      let k := 32 * blk + t
      if k < ka && k < kb then
        let ar := part A i k false
        let ai := part A i k true
        let br := part B j k false
        let bi := part B j k true
        if k = 0 then b.add (mulV (if im then ai else ar) (if im then bi else br)).1
        else if im then (b.add (mulV ar bi).1).add (mulV ai br).1
        else (b.add (mulV ar br).1).add ((mulV ai bi).1).negate
      else b.add (.zero false)) {}
    let (c', x) := accRound c (s.value 0)
    specBlocks A B i j ka kb im n (blk + 1) c' (sat || x)

/-! ## A whole pass -/

/-- What a pass computes with: the word, whether it is MSPEC, R, N, K of B and of A, the operand tables, and the rows and the row bytes of
B that lie in its tensor (R113). -/
structure PassIn where
  word : BitVec 16
  spec : Bool
  r    : Nat
  n    : Nat
  k    : Nat
  ka   : Nat
  A    : SMap Byte
  B    : SMap Byte
  edge : Nat × Nat := (256, 4096)
deriving DecidableEq, Repr

/-- The elements of row `j` of B that are no edge operands (R113): those whose bytes lie in the tensor. -/
def PassIn.lim (p : PassIn) (j : Nat) : Nat :=
  if p.edge.1 ≤ j then 0
  else min p.k (if wordBF p.word = 9 then 5 * p.edge.2 else p.edge.2 / unitBytes (wordBF p.word))

/-- Columns of an accumulator that one output takes: its key is `row * 256 + col`. -/
def PassIn.elem (p : PassIn) (old : SMap Word32) (acc : Bool) (i j : Nat) : List (Nat × Word32 × Bool) :=
  let c (col : Nat) : Nat := if acc then (SMap.get 0 old (i * 256 + col)).toNat else 0
  let nb := (p.k + 31) / 32
  let out (col : Nat) (x : Nat × Bool) : Nat × Word32 × Bool := (i * 256 + col, BitVec.ofNat 32 x.1, x.2)
  if p.spec then
    [out (2 * j) (specBlocks p.A p.B i j p.ka p.k false nb 0 (c (2 * j)) false),
     out (2 * j + 1) (specBlocks p.A p.B i j p.ka p.k true nb 0 (c (2 * j + 1)) false)]
  else if wordInt p.word then [out j (intElemSum p.word p.A p.B i j p.ka (p.lim j) (c j))]
  else [out j (fpBlocks p.word p.A p.B i j p.ka p.k (p.lim j) nb 0 (c j) false)]

/-- The accumulator after the pass and whether it saturated or wrapped (R261). -/
def PassIn.run (p : PassIn) (old : SMap Word32) (acc : Bool) : SMap Word32 × Bool :=
  (List.range p.r).foldl (fun (st : SMap Word32 × Bool) i =>
    (List.range p.n).foldl (fun (st : SMap Word32 × Bool) j =>
      (p.elem old acc i j).foldl (fun (st : SMap Word32 × Bool) x => (SMap.set 0 st.1 x.1 x.2.1, st.2 || x.2.2)) st) st)
    (if acc then old else [], false)

/-! ## Accumulators of a core (R260) -/

/-- Accumulator `n` with keys `row * 256 + col`. -/
def Arch.zGet (a : Arch) (n : Nat) : SMap Word32 :=
  (a.z.filter (fun e => e.1 / 32768 == n)).map (fun e => (e.1 % 32768, e.2))

def Arch.zSet (a : Arch) (n : Nat) (m : SMap Word32) : Arch :=
  { a with z := a.z.filter (fun e => e.1 / 32768 < n) ++ m.map (fun e => (n * 32768 + e.1, e.2))
                ++ a.z.filter (fun e => n < e.1 / 32768) }

/-- The landing of a pass in accumulator `n` (R261). -/
def Arch.landPass (a : Arch) (n : Nat) (acc spec : Bool) (p : PassIn) : Arch :=
  let (m, sat) := p.run (a.zGet n) acc
  ((if acc then a else a.accWhole n).zSet n m).setZflag n ⟨true, spec, sat || (acc && (a.zflag n).sat)⟩

/-- An accumulator as the bytes of its image in a frame (R126): sparse, 4 bytes an element. -/
def zBytes (m : SMap Word32) : SMap Byte :=
  m.flatMap (fun e => ((toBytes 4 e.2.toNat).zipIdx.map (fun x => (4 * e.1 + x.2, x.1))).filter (fun x => x.2 != 0))

/-- The accumulator that an image holds. -/
def zOfBytes (m : SMap Byte) : SMap Word32 :=
  (m.map (fun e => e.1 / 4)).eraseDups.filterMap (fun k =>
    let v : Word32 := BitVec.ofNat 32 (rdNum m (4 * k) 4)
    if v = 0 then none else some (k, v))

end Sys2Proof.Machine
end

