-- ==== Sys2Proof/WellFormed.lean ====
section
/-!
DEFINITION. The well-formed instructions: what a syllable's own fields must satisfy beyond the reserved bits that its
constructor does not carry. A syllable that fails raises ILL_SYLLABLE with reason 2 (R38, and the form tables of the
class chapters), or with reason 5 when it names a31 as a destination (R37).
-/
namespace Sys2Proof
set_option Elab.async false

/-! ## Field checks -/

/-- A short field that the optional extension replaces is zero when the extension is present (R40). -/
def shortOk {n : Nat} (f : BitVec n) (ext : Option Word32) : Bool := ext.isNone || f == 0

/-- Rounding fields: 5 to 7 are reserved (R40, R191). -/
def rmOk (rm : BitVec 3) : Bool := rm ≤ 4

/-- Memory orders (R39): loads take none or acq. -/
def ordLoad (o : BitVec 2) : Bool := o == 0 || o == 1
/-- Stores take none or rel. -/
def ordStore (o : BitVec 2) : Bool := o == 0 || o == 2

/-- Conditions of CMP and CMPI (R187). -/
def condInt (c : BitVec 5) : Bool := c ≤ 11
/-- Conditions of FCMP, and of VCMP on floating-point formats (R187, R236). -/
def condFp (c : BitVec 5) : Bool := c ≤ 5 || c == 12 || c == 13

/-- Shift forms SLLI, SRLI and SRAI (R184). -/
def shiftOk (w : BitVec 1) (c : BitVec 6) : Bool := w == 0 || c ≤ 31

/-! ## VX extensions (R40, R229) -/

/-- FP32, FP16, BF16. -/
def vFp (f : BitVec 4) : Bool := f ≤ 2
/-- INT8, UINT8, INT16, INT32. -/
def vInt (f : BitVec 4) : Bool := 5 ≤ f && f ≤ 8
/-- Codes 0 to 8, 10 and 11. -/
def vBits (f : BitVec 4) : Bool := f ≤ 8 || f == 10 || f == 11
/-- The formats of VDOT. -/
def vDotF (f : BitVec 4) : Bool := (1 ≤ f && f ≤ 7)
/-- The formats of the complex instructions; code 0 is read as CF32. -/
def vCpx (f : BitVec 4) : Bool := f == 0 || f == 10 || f == 11

/-- Where an instruction takes a rounding field or the saturate bit (table "Vector format support"). A field that the
instruction does not use for the format is zero (R38, R229). -/
inductive Takes where
  | no | fp | int | all
deriving DecidableEq, Repr

def Takes.ok (t : Takes) (f : BitVec 4) : Bool :=
  match t with
  | .no => false
  | .fp => vFp f || f == 3 || f == 4
  | .int => vInt f
  | .all => true

/-- The check of R229 on a VX extension: the formats, where rounding and saturation stand, and the bits of [31:8]. -/
def vxOk (fmts : BitVec 4 → Bool) (rnd sat : Takes) (sub : BitVec 24 → Bool) (vx : Option VX) : Bool :=
  match vx with
  | none => true
  | some e => fmts e.fmt && rmOk e.rm && (e.rm == 0 || rnd.ok e.fmt) && (e.sat == 0 || sat.ok e.fmt) && sub e.sub

def subZero (x : BitVec 24) : Bool := x == 0
/-- Arithmetic: VADD, VSUB, VMUL (DEDUCED, log 68). -/
def vxArith : Option VX → Bool := vxOk (fun f => vFp f || vInt f) .fp .all subZero
def vxAbs : Option VX → Bool := vxOk (fun f => vFp f || vInt f) .no .int subZero
def vxMinMax : Option VX → Bool := vxOk (fun f => vFp f || vInt f) .no .no subZero
def vxFp : Option VX → Bool := vxOk vFp .all .all subZero
def vxBits : Option VX → Bool := vxOk vBits .no .no subZero
def vxShift : Option VX → Bool := vxOk vInt .no .no subZero
/-- VRED and VSCAN: the operation stands in VX[9:8] (R242). -/
def vxRed : Option VX → Bool := vxOk (fun f => vFp f || vInt f) .fp .int (fun x => x ≤ 3)
def vxDot : Option VX → Bool := vxOk vDotF .all .int subZero
def vxCpx : Option VX → Bool := vxOk vCpx .all .all subZero
def vxConj : Option VX → Bool := vxOk vCpx .no .no subZero
/-- VSO: the form stands in VX[9:8] (R244). -/
def vxSo : Option VX → Bool := vxOk vFp .all .all (fun x => x ≤ 2)
/-- Tile accesses: VX holds the mask register alone (R247). -/
def vxTile : Option VX → Bool := vxOk (fun f => f == 0) .no .no (fun x => x ≤ 7)

/-- Elements of a format in a v register (R227). -/
def vCount (f : BitVec 4) : Nat :=
  if f = 11 then 32 else if f = 0 ∨ f = 8 ∨ f = 10 then 64 else if f = 1 ∨ f = 2 ∨ f = 7 then 128 else 256

/-- VCVT (R241): the source code stands in VX[11:8] and the part in VX[13:12]. -/
def vxCvt (vx : Option VX) : Bool :=
  match vx with
  | none => true
  | some e =>
    let src : BitVec 4 := e.sub.truncate 4
    let p := e.sub.toNat / 16 % 4
    let ns := vCount src
    let nd := vCount e.fmt
    rmOk e.rm && e.sub.toNat < 64
      && ((src ≤ 8 && e.fmt ≤ 8) || (src == 10 && e.fmt == 11) || (src == 11 && e.fmt == 10))
      && (if ns < nd then p < nd / ns else p < ns / nd)

/-- VCMP (R236): `.any` stands in VX[8], and codes 12 and 13 are for floating-point formats. -/
def vcmpOk (cond : BitVec 5) (vx : Option VX) : Bool :=
  vxOk (fun f => vFp f || vInt f) .no .no (fun x => x ≤ 1) vx
    && (match vx with
        | none => condFp cond
        | some e => if vFp e.fmt then condFp cond else cond ≤ 5)

/-! ## M, X, C, Q -/

/-- The MX extension (R263). -/
def mxOk (e : MX) : Bool := if e.fs = 0 then e.n == 0 else e.word == 0

/-- A condition on the XE extension. -/
def xeOk (c : XE → Bool) (e : Option XE) : Bool :=
  match e with
  | none => true
  | some e => c e
/-- AUX of XEXP and XCMP (R295). -/
def xAux (uc : BitVec 2) (e : XE) : Bool := e.aux.toNat ≤ 1 + 8 * 2 ^ uc.toNat

/-! ## Instructions -/

/-- The fields have assigned values (reason 2 otherwise). The steps of the device have no fields of this kind. -/
def Instr.formOk : Instr → Bool
  | .spawn _ _ y _ => !y.getLsbD 0
  | .finc _ _ y n => n.isNone || y == 0
  | .fincSet _ _ y n => n.isNone || y == 0
  | .add _ _ _ _ f => f ≤ 3
  | .sub _ _ _ _ f => f ≤ 3
  | .addi _ _ _ i e => shortOk i e
  | .mul _ _ _ _ f => f ≤ 1
  | .div _ _ _ _ f => f ≤ 1
  | .divu _ _ _ _ f => f ≤ 1
  | .rem _ _ _ _ f => f ≤ 1
  | .remu _ _ _ _ f => f ≤ 1
  | .andi _ _ _ i e => shortOk i e
  | .ori _ _ _ i e => shortOk i e
  | .xori _ _ _ i e => shortOk i e
  | .sll _ _ _ _ f => f ≤ 1
  | .slli _ _ _ w c => shiftOk w c
  | .srl _ _ _ _ f => f ≤ 1
  | .srli _ _ _ w c => shiftOk w c
  | .sra _ _ _ _ f => f ≤ 1
  | .srai _ _ _ w c => shiftOk w c
  | .rot _ _ _ _ f => f ≤ 3
  | .clz _ _ _ f => f ≤ 1
  | .ctz _ _ _ f => f ≤ 1
  | .popc _ _ _ f => f ≤ 1
  | .sext _ _ _ f => f ≤ 2
  | .zext _ _ _ f => f ≤ 2
  | .li _ _ i e => shortOk i e
  | .cmp _ _ _ _ c => condInt c
  | .cmpi _ _ _ c i e => condInt c && shortOk i e
  | .fadd _ _ _ _ m => rmOk m
  | .fsub _ _ _ _ m => rmOk m
  | .fmul _ _ _ _ m => rmOk m
  | .ffma _ _ _ _ m => rmOk m
  | .fdiv _ _ _ _ m => rmOk m
  | .fsqrt _ _ _ m => rmOk m
  | .fcmp _ _ _ _ c => condFp c
  | .fcvt _ _ _ t c m => rmOk m && c ≤ 13 && (t == 0 || c == 5 || c == 7 || c == 9 || c == 11)
  | .aaddi _ _ _ i e => shortOk i e
  | .ld _ _ _ sz sx o f e => ordLoad o && (sx == 0 || sz != 3) && shortOk f e
  | .st _ _ _ _ o f e => ordStore o && shortOk f e
  | .lda _ _ _ o _ => ordLoad o
  | .sta _ _ _ o _ => ordStore o
  | .pref _ _ _ f e => shortOk f e
  | .red _ op _ _ sz o => op ≤ 8 && (op != 8 || sz == 0) && ordStore o
  | .talloc _ _ _ x => x.fmt ≤ 11
  | .vadd _ _ _ _ _ vx => vxArith vx
  | .vsub _ _ _ _ _ vx => vxArith vx
  | .vmul _ _ _ _ _ vx => vxArith vx
  | .vfma _ _ _ _ _ vx => vxFp vx
  | .vfms _ _ _ _ _ vx => vxFp vx
  | .vabs _ _ _ _ vx => vxAbs vx
  | .vmin _ _ _ _ _ vx => vxMinMax vx
  | .vmax _ _ _ _ _ vx => vxMinMax vx
  | .vdiv _ _ _ _ _ vx => vxFp vx
  | .vrcp _ _ _ _ vx => vxFp vx
  | .vrsq _ _ _ _ vx => vxFp vx
  | .vsqrt _ _ _ _ vx => vxFp vx
  | .vexp _ _ _ _ vx => vxFp vx
  | .vexp2 _ _ _ _ vx => vxFp vx
  | .vlog2 _ _ _ _ vx => vxFp vx
  | .vtanh _ _ _ _ vx => vxFp vx
  | .vsigm _ _ _ _ vx => vxFp vx
  | .vand _ _ _ _ _ vx => vxBits vx
  | .vor _ _ _ _ _ vx => vxBits vx
  | .vxor _ _ _ _ _ vx => vxBits vx
  | .vshl _ _ _ _ _ vx => vxShift vx
  | .vshr _ _ _ _ _ vx => vxShift vx
  | .vsra _ _ _ _ _ vx => vxShift vx
  | .vcmp _ _ _ _ c vx => vcmpOk c vx
  | .vsel _ _ _ _ _ vx => vxBits vx
  | .vcvt _ _ _ _ vx => vxCvt vx
  | .vred _ _ _ _ vx => vxRed vx
  | .vscan _ _ _ _ vx => vxRed vx
  | .vbcast _ _ _ _ vx => vxBits vx
  | .vins _ _ _ _ vx => vxBits vx
  | .vext _ _ _ _ vx => vxBits vx
  | .vperm _ _ _ _ _ vx => vxBits vx
  | .viota _ _ _ _ vx => vxShift vx
  | .vmov _ _ _ _ vx => vxBits vx
  | .vld _ _ _ _ vx => vxTile vx
  | .vst _ _ _ _ vx => vxTile vx
  | .vldx _ _ _ _ vx => vxTile vx
  | .vstx _ _ _ _ vx => vxTile vx
  | .vdot _ _ _ _ _ vx => vx.isSome && vxDot vx
  | .vso _ _ _ b _ vx => vxSo vx && !b.getLsbD 0
  | .vcmul _ _ _ _ _ vx => vxCpx vx
  | .vcmac _ _ _ _ _ vx => vxCpx vx
  | .vconj _ _ _ _ vx => vxConj vx
  | .mmul _ _ _ _ _ mx => mxOk mx
  | .mmulw _ _ _ _ _ mx => mxOk mx
  | .mmulwT _ _ _ _ _ mx => mxOk mx
  | .mspec _ _ _ _ _ mx => mxOk mx
  | .mfmt _ _ y w => w.isNone || y == 0
  | .xexp _ _ _ uc e => xeOk (xAux uc) e
  | .xcmp _ _ _ uc e => xeOk (xAux uc) e
  | .xtrn _ _ _ _ e => xeOk (fun e => e.nm1 ≤ 63) e
  | .xcvt _ _ _ _ e => xeOk (fun e => e.aux == 0) e
  | .xdft _ _ _ bc _ => bc ≤ 4
  | .xidft _ _ _ bc _ => bc ≤ 4
  | .xidftAcc _ _ _ bc _ => bc ≤ 4
  | .xtag _ _ _ e => xeOk (fun e => e == ⟨0, 0, 0, 0⟩) e
  | .xtagAcc _ _ _ e => xeOk (fun e => e == ⟨0, 0, 0, 0⟩) e
  | .xmov _ _ _ e => xeOk (fun e => e.aux == 0) e
  | .xfill _ _ _ e => xeOk (fun e => e.srow == 0 && e.aux == 0) e
  | .sqres _ _ _ w e => shortOk w e
  | .sqput _ _ _ w e => shortOk w e
  | .sqcmt _ _ _ w e => shortOk w e
  | .sqwait _ _ _ w e => shortOk w e
  | .sqfork _ _ _ w e => shortOk w e
  | .sqget _ _ _ w e => shortOk w e
  | .sqinfo _ _ _ f => f != 7
  | _ => true

/-- The syllable names a31 as a destination (R37). -/
def Instr.destA31 : Instr → Bool
  | .aadd _ d _ _ => d == 31
  | .aaddi _ d _ _ _ => d == 31
  | .asub _ d _ _ => d == 31
  | .amov _ d _ _ => d == 31
  | .lda _ d _ _ _ => d == 31
  | _ => false

/-- A well-formed instruction. -/
def Instr.wellFormed (i : Instr) : Bool := i.formOk && !i.destA31

end Sys2Proof
end

