-- ==== Sys2Proof/Decode.lean ====
section
/-!
DEFINITION. The decoder of syllables and bundle headers (spec/02_bundles.md R27 to R52), total on any words and rejecting
with the cause's reason, and the encoder written from the same tables.
-/
namespace Sys2Proof
set_option Elab.async false

/-! ## Fields -/

/-- `n` bits of a word from bit `lo` on. -/
def fld (w : Word32) (lo n : Nat) : BitVec n := BitVec.ofNat n (w.toNat / 2 ^ lo)
/-- Those bits are zero. -/
def fz (w : Word32) (lo n : Nat) : Bool := w.toNat / 2 ^ lo % 2 ^ n == 0
/-- An instruction whose reserved bits are zero. -/
def keep (ok : Bool) (i : Instr) : Option Instr := if ok then some i else none

def guardOf (w : Word32) : Guard := ⟨fld w 25 1, fld w 21 4⟩

/-! ## Extension words (R40) -/

/-- Whether an opcode takes an extension word. -/
inductive ExtKind where
  | unassigned | none | optional | required
deriving DecidableEq, Repr

/-- The extension column of the opcode maps (R41 to R48). -/
def extKind (sl : Slot) (op : Nat) : ExtKind :=
  match sl with
  | .b => if op = 0 || op > 0x17 then .unassigned
          else if op = 6 || op = 8 then .required
          else if op = 0x0F || op = 0x10 || op = 0x13 then .optional else .none
  | .s => if op = 0 || op > 0x34 then .unassigned
          else if op = 0x23 then .required
          else if op = 2 || op = 0x0C || op = 0x0E || op = 0x10 || op = 0x22 || op = 0x26 then .optional else .none
  | .a => if op = 0 || op > 0x18 then .unassigned
          else if op = 0x16 then .required
          else if op = 2 || op = 6 || op = 7 || op = 0x0A then .optional else .none
  | .v => if op = 0 || op > 0x30 then .unassigned else if op ≥ 0x2C then .none else .optional
  | .m => if op = 0 || op > 8 then .unassigned
          else if op ≤ 3 then .required else if op = 5 || op = 7 then .optional else .none
  | .x => if op = 0 || op > 9 then .unassigned else .optional
  | .c => if op = 0 || op > 7 then .unassigned else if op ≤ 3 then .optional else .none
  | .q => if op = 0 || op > 12 then .unassigned
          else if op = 2 || op = 3 || op = 4 || op = 6 || op = 7 || op = 9 then .optional else .none

def vxOf (e : Option Word32) : Option VX := e.map (fun e => ⟨fld e 8 24, fld e 7 1, fld e 4 3, fld e 0 4⟩)
def xeOf (e : Option Word32) : Option XE := e.map (fun e => ⟨fld e 24 8, fld e 16 8, fld e 8 8, fld e 0 8⟩)
def mxOf (e : Word32) : MX := ⟨fld e 31 1, fld e 29 2, fld e 0 16⟩
def mrdxOf (e : Word32) : MrdX := ⟨fld e 24 8, fld e 23 1, fld e 22 1, fld e 21 1, fld e 20 1⟩
def tallocxOf (e : Word32) : TallocX := ⟨fld e 31 1, fld e 27 4, fld e 12 12, fld e 0 8⟩
/-- The bits `lo` to `lo + n - 1` of an optional extension are zero. -/
def efz (e : Option Word32) (lo n : Nat) : Bool :=
  match e with
  | none => true
  | some e => fz e lo n

/-! ## Syllables by slot. `none`: a reserved or unused bit is set, or a form is not assigned (reason 2). -/

def decB (op : Nat) (w : Word32) (e : Option Word32) : Option Instr :=
  let g := guardOf w
  let x : SReg := fld w 10 6
  let y : SReg := fld w 4 6
  let a0 := fz w 16 5
  let x0 := fz w 10 6
  let y0 := fz w 4 6
  let g0 := fz w 0 4
  let k := w.toNat % 16
  let ew := e.getD 0
  match op with
  | 0x01 => keep (a0 && g0) (.br g x y)
  | 0x02 => some (.bri g (fld w 0 21))
  | 0x03 => some (.call g (fld w 0 21))
  | 0x04 => keep (a0 && y0 && g0) (.ret g x)
  | 0x05 => some (.loop g (fld w 19 2) (fld w 13 6) (fld w 0 13))
  | 0x06 => keep (fz w 13 6) (.loopi g (fld w 19 2) (fld w 0 13) ew)
  | 0x07 => keep (fz w 13 6) (.lbrk g (fld w 19 2) (fld w 0 13))
  | 0x08 =>
    match k with
    | 0 => keep (a0 && x0 && y0) (.susp g ew)
    | 1 => keep a0 (.suspFence g x y ew)
    | 2 => keep a0 (.suspLend g x y ew)
    | 3 => keep a0 (.suspBar g x y ew)
    | _ => none
  | 0x09 => keep (fz w 0 21) (.yield g)
  | 0x0A => keep a0 (.spawn g x y (fld w 0 4))
  | 0x0B => keep (fz w 0 21) (.retire g)
  | 0x0C => keep (a0 && y0 && g0) (.reqdone g x)
  | 0x0D =>
    match k with
    | 0 => keep (a0 && y0) (.cres g x)
    | 1 => keep (a0 && y0) (.cresSkip g x)
    | _ => none
  | 0x0E => keep (fz w 20 1) (.waitc g (fld w 16 4) (fld w 12 4) (fld w 8 4) (fld w 4 4) (fld w 0 4))
  | 0x0F =>
    match e with
    | none => keep a0 (.waitf g x y (fld w 0 4) false)
    | some 0#32 => keep a0 (.waitf g x y (fld w 0 4) true)
    | some 1#32 => keep a0 (.waitfLend g x y (fld w 0 4))
    | some _ => none
  | 0x10 =>
    match k with
    | 0 => keep a0 (.finc g x y e)
    | 1 => keep a0 (.fincSet g x y e)
    | _ => none
  | 0x11 => keep (a0 && fz w 14 2 && fz w 6 2) (.fence g (fld w 8 6) (fld w 0 6))
  | 0x12 => keep (a0 && y0) (.gbar g x (fld w 0 4))
  | 0x13 => keep (a0 && g0 && efz e 8 24) (.evpost g x y (e.map (fun e => fld e 0 8)))
  | 0x14 =>
    match k with
    | 0 => keep (a0 && y0) (.trap g x)
    | 1 => keep (a0 && y0) (.trapSys g x)
    | _ => none
  | 0x15 => keep (fz w 0 21) (.ckpt g)
  | 0x16 => keep (fz w 0 3) (.srd g (fld w 15 6) (fld w 3 12))
  | 0x17 => keep (fz w 0 3) (.swr g (fld w 15 6) (fld w 3 12))
  | _ => none

def decS (op : Nat) (w : Word32) (e : Option Word32) : Option Instr :=
  let g := guardOf w
  let d : SReg := fld w 15 6
  let a : SReg := fld w 9 6
  let b : SReg := fld w 3 6
  let f : BitVec 3 := fld w 0 3
  let f0 := fz w 0 3
  let b0 := fz w 3 6
  let im : BitVec 9 := fld w 0 9
  let pd : PReg := fld w 17 4
  let pa : PReg := fld w 13 4
  let pb : PReg := fld w 9 4
  match op with
  | 0x01 => some (.add g d a b f)
  | 0x02 => some (.addi g d a im e)
  | 0x03 => some (.sub g d a b f)
  | 0x04 => some (.mul g d a b f)
  | 0x05 => keep f0 (.mulh g d a b)
  | 0x06 => keep f0 (.mulhu g d a b)
  | 0x07 => some (.div g d a b f)
  | 0x08 => some (.divu g d a b f)
  | 0x09 => some (.rem g d a b f)
  | 0x0A => some (.remu g d a b f)
  | 0x0B => keep f0 (.and g d a b)
  | 0x0C => some (.andi g d a im e)
  | 0x0D => keep f0 (.or g d a b)
  | 0x0E => some (.ori g d a im e)
  | 0x0F => keep f0 (.xor g d a b)
  | 0x10 => some (.xori g d a im e)
  | 0x11 => keep f0 (.andn g d a b)
  | 0x12 => some (.sll g d a b f)
  | 0x13 => keep (fz w 7 2) (.slli g d a (fld w 6 1) (fld w 0 6))
  | 0x14 => some (.srl g d a b f)
  | 0x15 => keep (fz w 7 2) (.srli g d a (fld w 6 1) (fld w 0 6))
  | 0x16 => some (.sra g d a b f)
  | 0x17 => keep (fz w 7 2) (.srai g d a (fld w 6 1) (fld w 0 6))
  | 0x18 => some (.rot g d a b f)
  | 0x19 => keep f0 (.min g d a b)
  | 0x1A => keep f0 (.max g d a b)
  | 0x1B => keep f0 (.minu g d a b)
  | 0x1C => keep f0 (.maxu g d a b)
  | 0x1D => keep b0 (.clz g d a f)
  | 0x1E => keep b0 (.ctz g d a f)
  | 0x1F => keep b0 (.popc g d a f)
  | 0x20 => keep b0 (.sext g d a f)
  | 0x21 => keep b0 (.zext g d a f)
  | 0x22 => some (.li g d (fld w 0 15) e)
  | 0x23 => keep (fz w 0 15) (.lih g d (e.getD 0))
  | 0x24 => some (.sel g d a b f)
  | 0x25 => some (.cmp g pd (fld w 11 6) (fld w 5 6) (fld w 0 5))
  | 0x26 => some (.cmpi g pd (fld w 11 6) (fld w 6 5) (fld w 0 6) e)
  | 0x27 => keep (fz w 0 9) (.pand g pd pa pb)
  | 0x28 => keep (fz w 0 9) (.por g pd pa pb)
  | 0x29 => keep (fz w 0 9) (.pxor g pd pa pb)
  | 0x2A => keep (fz w 0 9) (.pandn g pd pa pb)
  | 0x2B => some (.fadd g d a b f)
  | 0x2C => some (.fsub g d a b f)
  | 0x2D => some (.fmul g d a b f)
  | 0x2E => some (.ffma g d a b f)
  | 0x2F => some (.fdiv g d a b f)
  | 0x30 => keep b0 (.fsqrt g d a f)
  | 0x31 => keep f0 (.fmin g d a b)
  | 0x32 => keep f0 (.fmax g d a b)
  | 0x33 => some (.fcmp g pd (fld w 11 6) (fld w 5 6) (fld w 0 5))
  | 0x34 => some (.fcvt g d a (fld w 8 1) (fld w 3 5) f)
  | _ => none

def decA (op : Nat) (w : Word32) (e : Option Word32) : Option Instr :=
  let g := guardOf w
  let ad : AReg := fld w 16 5
  let aa : AReg := fld w 11 5
  let sb : SReg := fld w 5 6
  let r0 := fz w 0 5
  let x : SReg := fld w 15 6
  let a : AReg := fld w 10 5
  let b : SReg := fld w 4 6
  let sz : BitVec 1 := fld w 3 1
  let od : BitVec 2 := fld w 1 2
  let z0 := fz w 0 1
  match op with
  | 0x01 => keep r0 (.aadd g ad aa sb)
  | 0x02 => some (.aaddi g ad aa (fld w 0 11) e)
  | 0x03 => keep r0 (.asub g ad aa sb)
  | 0x04 => keep r0 (.amov g ad aa sb)
  | 0x05 => match w.toNat / 2 ^ 16 % 32 with
    | 0 => keep r0 (.asplitLo g aa sb)
    | 1 => keep r0 (.asplitHi g aa sb)
    | _ => none
  | 0x06 => some (.ld g x a (fld w 8 2) (fld w 7 1) (fld w 5 2) (fld w 0 5) e)
  | 0x07 => keep (fz w 7 1) (.st g x a (fld w 8 2) (fld w 5 2) (fld w 0 5) e)
  | 0x08 => some (.lda g ad aa (fld w 9 2) (fld w 0 9))
  | 0x09 => some (.sta g ad aa (fld w 9 2) (fld w 0 9))
  | 0x0A => keep (fz w 15 6 && fz w 5 3) (.pref g a (fld w 8 2) (fld w 0 5) e)
  | 0x0B => keep z0 (.amoAdd g x a b sz od)
  | 0x0C => keep z0 (.amoAnd g x a b sz od)
  | 0x0D => keep z0 (.amoOr g x a b sz od)
  | 0x0E => keep z0 (.amoXor g x a b sz od)
  | 0x0F => keep z0 (.amoMin g x a b sz od)
  | 0x10 => keep z0 (.amoMax g x a b sz od)
  | 0x11 => keep z0 (.amoMinu g x a b sz od)
  | 0x12 => keep z0 (.amoMaxu g x a b sz od)
  | 0x13 => keep z0 (.amoSwap g x a b sz od)
  | 0x14 => keep z0 (.cas g x a b sz od)
  | 0x15 => keep (z0 && fz w 15 2) (.red g (fld w 17 4) a b sz od)
  | 0x16 => keep (fz w 0 7 && efz e 24 3 && efz e 8 4) (.talloc g (fld w 13 8) (fld w 7 6) (tallocxOf (e.getD 0)))
  | 0x17 => keep (fz w 0 13) (.tfree g (fld w 13 8))
  | 0x18 => keep (fz w 0 7) (.tqry g (fld w 13 8) (fld w 7 6))
  | _ => none

/-- The decoder of slot V (DEDUCED, log 73). -/
def decV (op : Nat) (w : Word32) (e : Option Word32) : Option Instr :=
  let g := guardOf w
  let d : VReg := fld w 15 6
  let a : VReg := fld w 9 6
  let b : VReg := fld w 3 6
  let k : KReg := fld w 0 3
  let a0 := fz w 9 6
  let b0 := fz w 3 6
  let k0 := fz w 0 3
  let vx := vxOf e
  let t : TReg := fld w 7 8
  let x : BitVec 6 := fld w 1 6
  let z0 := fz w 0 1
  let kd : KReg := fld w 18 3
  let ka : KReg := fld w 15 3
  let kb : KReg := fld w 12 3
  let s : SReg := fld w 6 6
  let r0 := fz w 0 6
  match op with
  | 0x01 => some (.vadd g d a b k vx)
  | 0x02 => some (.vsub g d a b k vx)
  | 0x03 => some (.vmul g d a b k vx)
  | 0x04 => some (.vfma g d a b k vx)
  | 0x05 => some (.vfms g d a b k vx)
  | 0x06 => keep b0 (.vabs g d a k vx)
  | 0x07 => some (.vmin g d a b k vx)
  | 0x08 => some (.vmax g d a b k vx)
  | 0x09 => some (.vdiv g d a b k vx)
  | 0x0A => keep b0 (.vrcp g d a k vx)
  | 0x0B => keep b0 (.vrsq g d a k vx)
  | 0x0C => keep b0 (.vsqrt g d a k vx)
  | 0x0D => keep b0 (.vexp g d a k vx)
  | 0x0E => keep b0 (.vexp2 g d a k vx)
  | 0x0F => keep b0 (.vlog2 g d a k vx)
  | 0x10 => keep b0 (.vtanh g d a k vx)
  | 0x11 => keep b0 (.vsigm g d a k vx)
  | 0x12 => some (.vand g d a b k vx)
  | 0x13 => some (.vor g d a b k vx)
  | 0x14 => some (.vxor g d a b k vx)
  | 0x15 => some (.vshl g d a b k vx)
  | 0x16 => some (.vshr g d a b k vx)
  | 0x17 => some (.vsra g d a b k vx)
  | 0x18 => keep z0 (.vcmp g kd (fld w 12 6) s (fld w 1 5) vx)
  | 0x19 => some (.vsel g d a b k vx)
  | 0x1A => keep b0 (.vcvt g d a k vx)
  | 0x1B => keep b0 (.vred g d a k vx)
  | 0x1C => keep b0 (.vscan g d a k vx)
  | 0x1D => keep a0 (.vbcast g d b k vx)
  | 0x1E => keep k0 (.vins g d a b vx)
  | 0x1F => keep k0 (.vext g d a b vx)
  | 0x20 => some (.vperm g d a b k vx)
  | 0x21 => keep a0 (.viota g d b k vx)
  | 0x22 => keep b0 (.vmov g d a k vx)
  | 0x23 => keep z0 (.vld g d t x vx)
  | 0x24 => keep z0 (.vst g d t x vx)
  | 0x25 => keep z0 (.vldx g d t x vx)
  | 0x26 => keep z0 (.vstx g d t x vx)
  | 0x27 => some (.vdot g d a b k vx)
  | 0x28 => some (.vso g d a b k vx)
  | 0x29 => some (.vcmul g d a b k vx)
  | 0x2A => some (.vcmac g d a b k vx)
  | 0x2B => keep b0 (.vconj g d a k vx)
  | 0x2C => keep (r0 && fz w 6 6) (.kand g kd ka kb)
  | 0x2D => keep r0 (.kor g kd ka kb s)
  | 0x2E => keep r0 (.kxor g kd ka kb s)
  | 0x2F => keep (r0 && fz w 12 3 && fz w 6 6) (.knot g kd ka)
  | 0x30 => keep (r0 && fz w 18 3) (.kpop g ka kb s)
  | _ => none

def decM (op : Nat) (w : Word32) (e : Option Word32) : Option Instr :=
  let g := guardOf w
  let z : ZReg := fld w 19 2
  let ta : TReg := fld w 11 8
  let tb : TReg := fld w 3 8
  let acc : BitVec 1 := fld w 1 1
  let z0 := fz w 0 1
  let kind0 := fz w 2 1
  let mx := mxOf (e.getD 0)
  let mxr := efz e 16 13
  let y : SReg := fld w 5 6
  let r0 := fz w 0 5
  match op with
  | 0x01 => keep (z0 && kind0 && mxr) (.mmul g z ta tb acc mx)
  | 0x02 => if kind0 then keep (z0 && mxr) (.mmulw g z ta tb acc mx)
            else keep (z0 && mxr && fz w 9 2) (.mmulwT g z ta (fld w 3 6) acc mx)
  | 0x03 => keep (z0 && kind0 && mxr) (.mspec g z ta tb acc mx)
  | 0x04 => keep (r0 && fz w 11 8 && fz w 6 5) (.mzero g z (fld w 5 1))
  | 0x05 => keep (r0 && efz e 0 20) (.mrd g z ta y (e.map mrdxOf))
  | 0x06 => keep (r0 && fz w 17 2) (.mrdv g z (fld w 11 6) y)
  | 0x07 => keep (r0 && fz w 15 6 && efz e 16 16) (.mfmt g (fld w 11 4) y (e.map (fun e => fld e 0 16)))
  | 0x08 => keep (fz w 0 11 && fz w 17 4) (.mstat g (fld w 11 6))
  | _ => none

def decX (op : Nat) (w : Word32) (e : Option Word32) : Option Instr :=
  let g := guardOf w
  let d : TReg := fld w 13 8
  let a : TReg := fld w 5 8
  let xe := xeOf e
  match op with
  | 0x01 => keep (fz w 2 3) (.xexp g d a (fld w 0 2) xe)
  | 0x02 => keep (fz w 2 3) (.xcmp g d a (fld w 0 2) xe)
  | 0x03 => keep (fz w 2 3) (.xtrn g d a (fld w 0 2) xe)
  | 0x04 => keep (fz w 1 4) (.xcvt g d a (fld w 0 1) xe)
  | 0x05 => keep (fz w 3 2) (.xdft g d a (fld w 0 3) xe)
  | 0x06 => if fz w 3 1 then keep (fz w 4 1) (.xidft g d a (fld w 0 3) xe)
            else keep (fz w 4 1 && fz w 7 6) (.xidftAcc g d (fld w 5 2) (fld w 0 3) xe)
  | 0x07 => if fz w 1 1 then keep (fz w 2 11) (.xtag g d (fld w 0 1) xe)
            else keep (fz w 2 11 && fz w 15 6) (.xtagAcc g (fld w 13 2) (fld w 0 1) xe)
  | 0x08 => keep (fz w 0 5) (.xmov g d a xe)
  | 0x09 => keep (fz w 0 5 && fz w 11 2) (.xfill g d (fld w 5 6) xe)
  | _ => none

def decC (op : Nat) (w : Word32) (e : Option Word32) : Option Instr :=
  let g := guardOf w
  let x : SReg := fld w 15 6
  let y : SReg := fld w 9 6
  let v : SReg := fld w 3 6
  let fen : BitVec 1 := fld w 0 1
  let sat : BitVec 1 := fld w 1 1
  match op with
  | 0x01 => keep (fz w 2 1) (.cpy g x y v sat fen e)
  | 0x02 => keep (fz w 2 1) (.gath g x y v sat fen e)
  | 0x03 => keep (fz w 2 1) (.scat g x y v sat fen e)
  | 0x04 => keep (fz w 1 2) (.cpyn g x y v fen)
  | 0x05 => keep (fz w 1 2) (.nrecv g x y v fen)
  | 0x06 => keep (fz w 0 3) (.ring g x y v)
  | 0x07 => keep (fz w 1 2) (.cseg g x y v fen)
  | _ => none

/-- The decoder of slot Q (DEDUCED, log 110). -/
def decQ (op : Nat) (w : Word32) (e : Option Word32) : Option Instr :=
  let g := guardOf w
  let x : SReg := fld w 15 6
  let y : SReg := fld w 9 6
  let v : SReg := fld w 3 6
  let v0 := fz w 3 6
  let f0 := fz w 0 3
  match op with
  | 0x01 => keep (v0 && f0) (.sqnew g x y)
  | 0x02 => keep f0 (.sqres g x y v e)
  | 0x03 => keep f0 (.sqput g x y v e)
  | 0x04 => keep f0 (.sqcmt g x y v e)
  | 0x05 => keep (v0 && fz w 1 2) (.sqlen g x y (fld w 0 1))
  | 0x06 => keep f0 (.sqwait g x y v e)
  | 0x07 => keep f0 (.sqfork g x y v e)
  | 0x08 => keep (fz w 15 6 && v0 && f0) (.sqrel g y)
  | 0x09 => keep f0 (.sqget g x y v e)
  | 0x0A => keep (f0 && fz w 15 2) (.sqatt g (fld w 17 4) y v)
  | 0x0B => keep f0 (.sqmrg g x y v)
  | 0x0C => keep v0 (.sqinfo g x y (fld w 0 3))
  | _ => none

/-! ## A syllable (R38, R40, R49) -/

/-- The instruction that a syllable's fields name, whatever extension its opcode takes. -/
def decFields (sl : Slot) (op : Nat) (w : Word32) (e : Option Word32) : Option Instr :=
  match sl with
  | .b => decB op w e
  | .s => decS op w e
  | .a => decA op w e
  | .v => decV op w e
  | .m => decM op w e
  | .x => decX op w e
  | .c => decC op w e
  | .q => decQ op w e

/-- The extension word that the checks of reason 2 see: none where the opcode takes none, a word of zeros where a required
one is absent. -/
def extSeen (k : ExtKind) (e : Option Word32) : Option Word32 :=
  match k with
  | .required => some (e.getD 0)
  | .optional => e
  | _ => none

/-- The instruction of a syllable, or the reason of ILL_SYLLABLE, the lowest that holds (R52). -/
def decodeSyl (sl : Slot) (w : Word32) (e : Option Word32) : Except Nat Instr :=
  let op := w.toNat / 2 ^ 26
  let k := extKind sl op
  if k = .unassigned then .error 1
  else
    match decFields sl op w (extSeen k e) with
    | none => .error 2
    | some i =>
      if !i.formOk then .error 2
      else if k = .none && e.isSome then .error 3
      else if k = .required && e.isNone then .error 4
      else if i.destA31 then .error 5
      else .ok i

/-! ## Headers (R27, R30, R31) -/

/-- The slots in ascending order. -/
def slotList : List Slot := [.b, .s, .a, .v, .m, .x, .c, .q]

def Slot.num : Slot → Nat
  | .b => 0 | .s => 1 | .a => 2 | .v => 3 | .m => 4 | .x => 5 | .c => 6 | .q => 7

/-- One bits among the low `n` bits. -/
def ones (n x : Nat) : Nat := (List.range n).foldl (fun t i => t + x / 2 ^ i % 2) 0

/-- Words of a bundle (R28). -/
def headerWords (h : Nat) : Nat := 1 + ones 8 (h % 256) + ones 8 (h / 256 % 256)

/-- The reason of ILL_BUNDLE for a header at word `at'` of its line (R31, R50), the lowest that holds. -/
def headerBad (h at' : Nat) : Option Nat :=
  let pm := h % 256
  let em := h / 256 % 256
  if h / 2 ^ 20 != 0 then some 1
  else if (List.range 8).any (fun i => em / 2 ^ i % 2 == 1 && pm / 2 ^ i % 2 == 0) then some 2
  else if at' + headerWords h > 16 then some 3
  else none

/-! ## The encoder -/

def syl (op : Nat) (g : Guard) (x : Nat) : Word32 :=
  BitVec.ofNat 32 (op * 2 ^ 26 + g.n.toNat * 2 ^ 25 + g.p.toNat * 2 ^ 21 + x)

/-- Formats of R38. -/
def encBG (x y : SReg) (g : Nat) : Nat := x.toNat * 2 ^ 10 + y.toNat * 2 ^ 4 + g
def encBL (lc : BitVec 2) (x : SReg) (fin : BitVec 13) : Nat := lc.toNat * 2 ^ 19 + x.toNat * 2 ^ 13 + fin.toNat
def encBY (x : SReg) (sys : BitVec 12) : Nat := x.toNat * 2 ^ 15 + sys.toNat * 2 ^ 3
def encSR (d a b : BitVec 6) (f : Nat) : Nat := d.toNat * 2 ^ 15 + a.toNat * 2 ^ 9 + b.toNat * 2 ^ 3 + f
def encSI (d a : SReg) (i : Nat) : Nat := d.toNat * 2 ^ 15 + a.toNat * 2 ^ 9 + i
def encSC (pd : PReg) (a b : SReg) (c : BitVec 5) : Nat :=
  pd.toNat * 2 ^ 17 + a.toNat * 2 ^ 11 + b.toNat * 2 ^ 5 + c.toNat
def encSP (pd pa pb : PReg) : Nat := pd.toNat * 2 ^ 17 + pa.toNat * 2 ^ 13 + pb.toNat * 2 ^ 9
def encAR (d a : AReg) (b : SReg) : Nat := d.toNat * 2 ^ 16 + a.toNat * 2 ^ 11 + b.toNat * 2 ^ 5
def encAM (x : SReg) (a : AReg) (sz : BitVec 2) (sx : Nat) (o : BitVec 2) (f : BitVec 5) : Nat :=
  x.toNat * 2 ^ 15 + a.toNat * 2 ^ 10 + sz.toNat * 2 ^ 8 + sx * 2 ^ 7 + o.toNat * 2 ^ 5 + f.toNat
def encAQ (d a : AReg) (o : BitVec 2) (f : BitVec 9) : Nat :=
  d.toNat * 2 ^ 16 + a.toNat * 2 ^ 11 + o.toNat * 2 ^ 9 + f.toNat
def encAA (d : SReg) (a : AReg) (b : SReg) (sz : BitVec 1) (o : BitVec 2) : Nat :=
  d.toNat * 2 ^ 15 + a.toNat * 2 ^ 10 + b.toNat * 2 ^ 4 + sz.toNat * 2 ^ 3 + o.toNat * 2
def encVT (v : VReg) (t : TReg) (x : BitVec 6) : Nat := v.toNat * 2 ^ 15 + t.toNat * 2 ^ 7 + x.toNat * 2
def encKK (d a b : KReg) (x : SReg) : Nat := d.toNat * 2 ^ 18 + a.toNat * 2 ^ 15 + b.toNat * 2 ^ 12 + x.toNat * 2 ^ 6
def encMA (z : ZReg) (ta : TReg) (b kind : Nat) (acc : BitVec 1) : Nat :=
  z.toNat * 2 ^ 19 + ta.toNat * 2 ^ 11 + b * 2 ^ 3 + kind * 2 ^ 2 + acc.toNat * 2
def encMZ (z x y : Nat) : Nat := z * 2 ^ 19 + x * 2 ^ 11 + y * 2 ^ 5
def encXT (d a f : Nat) : Nat := d * 2 ^ 13 + a * 2 ^ 5 + f

/-- Extension words (R40, R220, R270, R295). -/
def encVX (e : Option VX) : List Word32 :=
  (e.map (fun e => BitVec.ofNat 32 (e.sub.toNat * 2 ^ 8 + e.sat.toNat * 2 ^ 7 + e.rm.toNat * 2 ^ 4 + e.fmt.toNat))).toList
def encXE (e : Option XE) : List Word32 :=
  (e.map (fun e => BitVec.ofNat 32
    (e.srow.toNat * 2 ^ 24 + e.drow.toNat * 2 ^ 16 + e.nm1.toNat * 2 ^ 8 + e.aux.toNat))).toList
def encMX (e : MX) : List Word32 := [BitVec.ofNat 32 (e.fs.toNat * 2 ^ 31 + e.n.toNat * 2 ^ 29 + e.word.toNat)]
def encMrdX (e : Option MrdX) : List Word32 :=
  (e.map (fun e => BitVec.ofNat 32 (e.e.toNat * 2 ^ 24 + e.epi.toNat * 2 ^ 23 + e.relu.toNat * 2 ^ 22
    + e.sat.toNat * 2 ^ 21 + e.int.toNat * 2 ^ 20))).toList
def encTallocX (e : TallocX) : List Word32 :=
  [BitVec.ofNat 32 (e.level.toNat * 2 ^ 31 + e.fmt.toNat * 2 ^ 27 + e.rbm1.toNat * 2 ^ 12 + e.rowsm1.toNat)]

/-- The words of an instruction: a syllable and its extension word, or the header of an empty bundle. A step of the device
has none. -/
def encode : Instr → List Word32
  | .br g x y => [syl 0x01 g (encBG x y 0)]
  | .bri g o => [syl 0x02 g o.toNat]
  | .call g o => [syl 0x03 g o.toNat]
  | .ret g x => [syl 0x04 g (encBG x 0 0)]
  | .loop g lc x e => [syl 0x05 g (encBL lc x e)]
  | .loopi g lc e n => [syl 0x06 g (encBL lc 0 e), n]
  | .lbrk g lc e => [syl 0x07 g (encBL lc 0 e)]
  | .susp g e => [syl 0x08 g 0, e]
  | .suspFence g x y e => [syl 0x08 g (encBG x y 1), e]
  | .suspLend g x y e => [syl 0x08 g (encBG x y 2), e]
  | .suspBar g x y e => [syl 0x08 g (encBG x y 3), e]
  | .yield g => [syl 0x09 g 0]
  | .spawn g x y k => [syl 0x0A g (encBG x y k.toNat)]
  | .retire g => [syl 0x0B g 0]
  | .reqdone g x => [syl 0x0C g (encBG x 0 0)]
  | .cres g x => [syl 0x0D g (encBG x 0 0)]
  | .cresSkip g x => [syl 0x0D g (encBG x 0 1)]
  | .waitc g a b c d e =>
    [syl 0x0E g (a.toNat * 2 ^ 16 + b.toNat * 2 ^ 12 + c.toNat * 2 ^ 8 + d.toNat * 2 ^ 4 + e.toNat)]
  | .waitf g x y p e => syl 0x0F g (encBG x y p.toNat) :: (if e then [0] else [])
  | .waitfLend g x y p => [syl 0x0F g (encBG x y p.toNat), 1]
  | .finc g x y n => syl 0x10 g (encBG x y 0) :: n.toList
  | .fincSet g x y n => syl 0x10 g (encBG x y 1) :: n.toList
  | .fence g b a => [syl 0x11 g (b.toNat * 2 ^ 8 + a.toNat)]
  | .gbar g x b => [syl 0x12 g (encBG x 0 b.toNat)]
  | .evpost g x y c => syl 0x13 g (encBG x y 0) :: (c.map (fun c => BitVec.ofNat 32 c.toNat)).toList
  | .trap g x => [syl 0x14 g (encBG x 0 0)]
  | .trapSys g x => [syl 0x14 g (encBG x 0 1)]
  | .ckpt g => [syl 0x15 g 0]
  | .srd g x n => [syl 0x16 g (encBY x n)]
  | .swr g x n => [syl 0x17 g (encBY x n)]
  | .add g d a b f => [syl 0x01 g (encSR d a b f.toNat)]
  | .addi g d a i e => syl 0x02 g (encSI d a i.toNat) :: e.toList
  | .sub g d a b f => [syl 0x03 g (encSR d a b f.toNat)]
  | .mul g d a b f => [syl 0x04 g (encSR d a b f.toNat)]
  | .mulh g d a b => [syl 0x05 g (encSR d a b 0)]
  | .mulhu g d a b => [syl 0x06 g (encSR d a b 0)]
  | .div g d a b f => [syl 0x07 g (encSR d a b f.toNat)]
  | .divu g d a b f => [syl 0x08 g (encSR d a b f.toNat)]
  | .rem g d a b f => [syl 0x09 g (encSR d a b f.toNat)]
  | .remu g d a b f => [syl 0x0A g (encSR d a b f.toNat)]
  | .and g d a b => [syl 0x0B g (encSR d a b 0)]
  | .andi g d a i e => syl 0x0C g (encSI d a i.toNat) :: e.toList
  | .or g d a b => [syl 0x0D g (encSR d a b 0)]
  | .ori g d a i e => syl 0x0E g (encSI d a i.toNat) :: e.toList
  | .xor g d a b => [syl 0x0F g (encSR d a b 0)]
  | .xori g d a i e => syl 0x10 g (encSI d a i.toNat) :: e.toList
  | .andn g d a b => [syl 0x11 g (encSR d a b 0)]
  | .sll g d a b f => [syl 0x12 g (encSR d a b f.toNat)]
  | .slli g d a w c => [syl 0x13 g (encSI d a (w.toNat * 2 ^ 6 + c.toNat))]
  | .srl g d a b f => [syl 0x14 g (encSR d a b f.toNat)]
  | .srli g d a w c => [syl 0x15 g (encSI d a (w.toNat * 2 ^ 6 + c.toNat))]
  | .sra g d a b f => [syl 0x16 g (encSR d a b f.toNat)]
  | .srai g d a w c => [syl 0x17 g (encSI d a (w.toNat * 2 ^ 6 + c.toNat))]
  | .rot g d a b f => [syl 0x18 g (encSR d a b f.toNat)]
  | .min g d a b => [syl 0x19 g (encSR d a b 0)]
  | .max g d a b => [syl 0x1A g (encSR d a b 0)]
  | .minu g d a b => [syl 0x1B g (encSR d a b 0)]
  | .maxu g d a b => [syl 0x1C g (encSR d a b 0)]
  | .clz g d a f => [syl 0x1D g (encSR d a 0 f.toNat)]
  | .ctz g d a f => [syl 0x1E g (encSR d a 0 f.toNat)]
  | .popc g d a f => [syl 0x1F g (encSR d a 0 f.toNat)]
  | .sext g d a f => [syl 0x20 g (encSR d a 0 f.toNat)]
  | .zext g d a f => [syl 0x21 g (encSR d a 0 f.toNat)]
  | .li g d i e => syl 0x22 g (d.toNat * 2 ^ 15 + i.toNat) :: e.toList
  | .lih g d e => [syl 0x23 g (d.toNat * 2 ^ 15), e]
  | .sel g d a b q => [syl 0x24 g (encSR d a b q.toNat)]
  | .cmp g pd a b c => [syl 0x25 g (encSC pd a b c)]
  | .cmpi g pd a c i e =>
    syl 0x26 g (pd.toNat * 2 ^ 17 + a.toNat * 2 ^ 11 + c.toNat * 2 ^ 6 + i.toNat) :: e.toList
  | .pand g pd pa pb => [syl 0x27 g (encSP pd pa pb)]
  | .por g pd pa pb => [syl 0x28 g (encSP pd pa pb)]
  | .pxor g pd pa pb => [syl 0x29 g (encSP pd pa pb)]
  | .pandn g pd pa pb => [syl 0x2A g (encSP pd pa pb)]
  | .fadd g d a b m => [syl 0x2B g (encSR d a b m.toNat)]
  | .fsub g d a b m => [syl 0x2C g (encSR d a b m.toNat)]
  | .fmul g d a b m => [syl 0x2D g (encSR d a b m.toNat)]
  | .ffma g d a b m => [syl 0x2E g (encSR d a b m.toNat)]
  | .fdiv g d a b m => [syl 0x2F g (encSR d a b m.toNat)]
  | .fsqrt g d a m => [syl 0x30 g (encSR d a 0 m.toNat)]
  | .fmin g d a b => [syl 0x31 g (encSR d a b 0)]
  | .fmax g d a b => [syl 0x32 g (encSR d a b 0)]
  | .fcmp g pd a b c => [syl 0x33 g (encSC pd a b c)]
  | .fcvt g d a t c m => [syl 0x34 g (d.toNat * 2 ^ 15 + a.toNat * 2 ^ 9 + t.toNat * 2 ^ 8 + c.toNat * 2 ^ 3 + m.toNat)]
  | .aadd g d a b => [syl 0x01 g (encAR d a b)]
  | .aaddi g d a i e => syl 0x02 g (d.toNat * 2 ^ 16 + a.toNat * 2 ^ 11 + i.toNat) :: e.toList
  | .asub g d a b => [syl 0x03 g (encAR d a b)]
  | .amov g d a b => [syl 0x04 g (encAR d a b)]
  | .asplitLo g a b => [syl 0x05 g (encAR 0 a b)]
  | .asplitHi g a b => [syl 0x05 g (encAR 1 a b)]
  | .ld g x a sz sx o f e => syl 0x06 g (encAM x a sz sx.toNat o f) :: e.toList
  | .st g x a sz o f e => syl 0x07 g (encAM x a sz 0 o f) :: e.toList
  | .lda g d a o f => [syl 0x08 g (encAQ d a o f)]
  | .sta g d a o f => [syl 0x09 g (encAQ d a o f)]
  | .pref g a sz f e => syl 0x0A g (encAM 0 a sz 0 0 f) :: e.toList
  | .amoAdd g d a b sz o => [syl 0x0B g (encAA d a b sz o)]
  | .amoAnd g d a b sz o => [syl 0x0C g (encAA d a b sz o)]
  | .amoOr g d a b sz o => [syl 0x0D g (encAA d a b sz o)]
  | .amoXor g d a b sz o => [syl 0x0E g (encAA d a b sz o)]
  | .amoMin g d a b sz o => [syl 0x0F g (encAA d a b sz o)]
  | .amoMax g d a b sz o => [syl 0x10 g (encAA d a b sz o)]
  | .amoMinu g d a b sz o => [syl 0x11 g (encAA d a b sz o)]
  | .amoMaxu g d a b sz o => [syl 0x12 g (encAA d a b sz o)]
  | .amoSwap g d a b sz o => [syl 0x13 g (encAA d a b sz o)]
  | .cas g d a b sz o => [syl 0x14 g (encAA d a b sz o)]
  | .red g op a b sz o =>
    [syl 0x15 g (op.toNat * 2 ^ 17 + a.toNat * 2 ^ 10 + b.toNat * 2 ^ 4 + sz.toNat * 2 ^ 3 + o.toNat * 2)]
  | .talloc g t x e => syl 0x16 g (t.toNat * 2 ^ 13 + x.toNat * 2 ^ 7) :: encTallocX e
  | .tfree g t => [syl 0x17 g (t.toNat * 2 ^ 13)]
  | .tqry g t x => [syl 0x18 g (t.toNat * 2 ^ 13 + x.toNat * 2 ^ 7)]
  | .vadd g d a b k e => syl 0x01 g (encSR d a b k.toNat) :: encVX e
  | .vsub g d a b k e => syl 0x02 g (encSR d a b k.toNat) :: encVX e
  | .vmul g d a b k e => syl 0x03 g (encSR d a b k.toNat) :: encVX e
  | .vfma g d a b k e => syl 0x04 g (encSR d a b k.toNat) :: encVX e
  | .vfms g d a b k e => syl 0x05 g (encSR d a b k.toNat) :: encVX e
  | .vabs g d a k e => syl 0x06 g (encSR d a 0 k.toNat) :: encVX e
  | .vmin g d a b k e => syl 0x07 g (encSR d a b k.toNat) :: encVX e
  | .vmax g d a b k e => syl 0x08 g (encSR d a b k.toNat) :: encVX e
  | .vdiv g d a b k e => syl 0x09 g (encSR d a b k.toNat) :: encVX e
  | .vrcp g d a k e => syl 0x0A g (encSR d a 0 k.toNat) :: encVX e
  | .vrsq g d a k e => syl 0x0B g (encSR d a 0 k.toNat) :: encVX e
  | .vsqrt g d a k e => syl 0x0C g (encSR d a 0 k.toNat) :: encVX e
  | .vexp g d a k e => syl 0x0D g (encSR d a 0 k.toNat) :: encVX e
  | .vexp2 g d a k e => syl 0x0E g (encSR d a 0 k.toNat) :: encVX e
  | .vlog2 g d a k e => syl 0x0F g (encSR d a 0 k.toNat) :: encVX e
  | .vtanh g d a k e => syl 0x10 g (encSR d a 0 k.toNat) :: encVX e
  | .vsigm g d a k e => syl 0x11 g (encSR d a 0 k.toNat) :: encVX e
  | .vand g d a b k e => syl 0x12 g (encSR d a b k.toNat) :: encVX e
  | .vor g d a b k e => syl 0x13 g (encSR d a b k.toNat) :: encVX e
  | .vxor g d a b k e => syl 0x14 g (encSR d a b k.toNat) :: encVX e
  | .vshl g d a b k e => syl 0x15 g (encSR d a b k.toNat) :: encVX e
  | .vshr g d a b k e => syl 0x16 g (encSR d a b k.toNat) :: encVX e
  | .vsra g d a b k e => syl 0x17 g (encSR d a b k.toNat) :: encVX e
  | .vcmp g kd a b c e =>
    syl 0x18 g (kd.toNat * 2 ^ 18 + a.toNat * 2 ^ 12 + b.toNat * 2 ^ 6 + c.toNat * 2) :: encVX e
  | .vsel g d a b k e => syl 0x19 g (encSR d a b k.toNat) :: encVX e
  | .vcvt g d a k e => syl 0x1A g (encSR d a 0 k.toNat) :: encVX e
  | .vred g d a k e => syl 0x1B g (encSR d a 0 k.toNat) :: encVX e
  | .vscan g d a k e => syl 0x1C g (encSR d a 0 k.toNat) :: encVX e
  | .vbcast g d b k e => syl 0x1D g (encSR d 0 b k.toNat) :: encVX e
  | .vins g d a b e => syl 0x1E g (encSR d a b 0) :: encVX e
  | .vext g d a b e => syl 0x1F g (encSR d a b 0) :: encVX e
  | .vperm g d a b k e => syl 0x20 g (encSR d a b k.toNat) :: encVX e
  | .viota g d b k e => syl 0x21 g (encSR d 0 b k.toNat) :: encVX e
  | .vmov g d a k e => syl 0x22 g (encSR d a 0 k.toNat) :: encVX e
  | .vld g v t x e => syl 0x23 g (encVT v t x) :: encVX e
  | .vst g v t x e => syl 0x24 g (encVT v t x) :: encVX e
  | .vldx g v t x e => syl 0x25 g (encVT v t x) :: encVX e
  | .vstx g v t x e => syl 0x26 g (encVT v t x) :: encVX e
  | .vdot g d a b k e => syl 0x27 g (encSR d a b k.toNat) :: encVX e
  | .vso g d a b k e => syl 0x28 g (encSR d a b k.toNat) :: encVX e
  | .vcmul g d a b k e => syl 0x29 g (encSR d a b k.toNat) :: encVX e
  | .vcmac g d a b k e => syl 0x2A g (encSR d a b k.toNat) :: encVX e
  | .vconj g d a k e => syl 0x2B g (encSR d a 0 k.toNat) :: encVX e
  | .kand g d a b => [syl 0x2C g (encKK d a b 0)]
  | .kor g d a b x => [syl 0x2D g (encKK d a b x)]
  | .kxor g d a b x => [syl 0x2E g (encKK d a b x)]
  | .knot g d a => [syl 0x2F g (encKK d a 0 0)]
  | .kpop g a b x => [syl 0x30 g (encKK 0 a b x)]
  | .mmul g z ta tb c mx => syl 0x01 g (encMA z ta tb.toNat 0 c) :: encMX mx
  | .mmulw g z ta tb c mx => syl 0x02 g (encMA z ta tb.toNat 0 c) :: encMX mx
  | .mmulwT g z ta b c mx => syl 0x02 g (encMA z ta b.toNat 1 c) :: encMX mx
  | .mspec g z ta tb c mx => syl 0x03 g (encMA z ta tb.toNat 0 c) :: encMX mx
  | .mzero g z d => [syl 0x04 g (encMZ z.toNat 0 d.toNat)]
  | .mrd g z t y e => syl 0x05 g (encMZ z.toNat t.toNat y.toNat) :: encMrdX e
  | .mrdv g z v y => [syl 0x06 g (encMZ z.toNat v.toNat y.toNat)]
  | .mfmt g i y w => syl 0x07 g (encMZ 0 i.toNat y.toNat) :: (w.map (fun w => BitVec.ofNat 32 w.toNat)).toList
  | .mstat g d => [syl 0x08 g (encMZ 0 d.toNat 0)]
  | .xexp g d a u e => syl 0x01 g (encXT d.toNat a.toNat u.toNat) :: encXE e
  | .xcmp g d a u e => syl 0x02 g (encXT d.toNat a.toNat u.toNat) :: encXE e
  | .xtrn g d a u e => syl 0x03 g (encXT d.toNat a.toNat u.toNat) :: encXE e
  | .xcvt g d a t e => syl 0x04 g (encXT d.toNat a.toNat t.toNat) :: encXE e
  | .xdft g d a b e => syl 0x05 g (encXT d.toNat a.toNat b.toNat) :: encXE e
  | .xidft g d a b e => syl 0x06 g (encXT d.toNat a.toNat b.toNat) :: encXE e
  | .xidftAcc g d z b e => syl 0x06 g (encXT d.toNat z.toNat (8 + b.toNat)) :: encXE e
  | .xtag g t m e => syl 0x07 g (encXT t.toNat 0 m.toNat) :: encXE e
  | .xtagAcc g z m e => syl 0x07 g (encXT z.toNat 0 (2 + m.toNat)) :: encXE e
  | .xmov g d a e => syl 0x08 g (encXT d.toNat a.toNat 0) :: encXE e
  | .xfill g d x e => syl 0x09 g (encXT d.toNat x.toNat 0) :: encXE e
  | .cpy g x y w t f e => syl 0x01 g (encSR x y w (2 * t.toNat + f.toNat)) :: e.toList
  | .gath g x y w t f e => syl 0x02 g (encSR x y w (2 * t.toNat + f.toNat)) :: e.toList
  | .scat g x y w t f e => syl 0x03 g (encSR x y w (2 * t.toNat + f.toNat)) :: e.toList
  | .cpyn g x y w f => [syl 0x04 g (encSR x y w f.toNat)]
  | .nrecv g x y w f => [syl 0x05 g (encSR x y w f.toNat)]
  | .ring g x y w => [syl 0x06 g (encSR x y w 0)]
  | .cseg g x y w f => [syl 0x07 g (encSR x y w f.toNat)]
  | .sqnew g x y => [syl 0x01 g (encSR x y 0 0)]
  | .sqres g x y w e => syl 0x02 g (encSR x y w 0) :: e.toList
  | .sqput g x y w e => syl 0x03 g (encSR x y w 0) :: e.toList
  | .sqcmt g x y w e => syl 0x04 g (encSR x y w 0) :: e.toList
  | .sqlen g x y r => [syl 0x05 g (encSR x y 0 r.toNat)]
  | .sqwait g x y w e => syl 0x06 g (encSR x y w 0) :: e.toList
  | .sqfork g x y w e => syl 0x07 g (encSR x y w 0) :: e.toList
  | .sqrel g y => [syl 0x08 g (encSR 0 y 0 0)]
  | .sqget g x y w e => syl 0x09 g (encSR x y w 0) :: e.toList
  | .sqatt g x y w => [syl 0x0A g (x.toNat * 2 ^ 17 + y.toNat * 2 ^ 9 + w.toNat * 2 ^ 3)]
  | .sqmrg g x y w => [syl 0x0B g (encSR x y w 0)]
  | .sqinfo g x y f => [syl 0x0C g (encSR x y 0 f.toNat)]
  | .emptyBundle sk => [BitVec.ofNat 32 (sk.toNat * 2 ^ 16)]
  | _ => []

/-- The slot whose opcode map names the instruction (R41 to R48); a step of the device has none. -/
def Instr.slot : Instr → Option Slot
  | .br .. | .bri .. | .call .. | .ret .. | .loop .. | .loopi .. | .lbrk .. | .susp .. | .suspFence .. | .suspLend ..
  | .suspBar .. | .yield .. | .spawn .. | .retire .. | .reqdone .. | .cres .. | .cresSkip .. | .waitc .. | .waitf ..
  | .waitfLend .. | .finc .. | .fincSet .. | .fence .. | .gbar .. | .evpost .. | .trap .. | .trapSys .. | .ckpt ..
  | .srd .. | .swr .. => some .b
  | .add .. | .addi .. | .sub .. | .mul .. | .mulh .. | .mulhu .. | .div .. | .divu .. | .rem .. | .remu .. | .and ..
  | .andi .. | .or .. | .ori .. | .xor .. | .xori .. | .andn .. | .sll .. | .slli .. | .srl .. | .srli .. | .sra ..
  | .srai .. | .rot .. | .min .. | .max .. | .minu .. | .maxu .. | .clz .. | .ctz .. | .popc .. | .sext .. | .zext ..
  | .li .. | .lih .. | .sel .. | .cmp .. | .cmpi .. | .pand .. | .por .. | .pxor .. | .pandn .. | .fadd .. | .fsub ..
  | .fmul .. | .ffma .. | .fdiv .. | .fsqrt .. | .fmin .. | .fmax .. | .fcmp .. | .fcvt .. => some .s
  | .aadd .. | .aaddi .. | .asub .. | .amov .. | .asplitLo .. | .asplitHi .. | .ld .. | .st .. | .lda .. | .sta ..
  | .pref .. | .amoAdd .. | .amoAnd .. | .amoOr .. | .amoXor .. | .amoMin .. | .amoMax .. | .amoMinu .. | .amoMaxu ..
  | .amoSwap .. | .cas .. | .red .. | .talloc .. | .tfree .. | .tqry .. => some .a
  | .vadd .. | .vsub .. | .vmul .. | .vfma .. | .vfms .. | .vabs .. | .vmin .. | .vmax .. | .vdiv .. | .vrcp ..
  | .vrsq .. | .vsqrt .. | .vexp .. | .vexp2 .. | .vlog2 .. | .vtanh .. | .vsigm .. | .vand .. | .vor .. | .vxor ..
  | .vshl .. | .vshr .. | .vsra .. | .vcmp .. | .vsel .. | .vcvt .. | .vred .. | .vscan .. | .vbcast .. | .vins ..
  | .vext .. | .vperm .. | .viota .. | .vmov .. | .vld .. | .vst .. | .vldx .. | .vstx .. | .vdot .. | .vso ..
  | .vcmul .. | .vcmac .. | .vconj .. | .kand .. | .kor .. | .kxor .. | .knot .. | .kpop .. => some .v
  | .mmul .. | .mmulw .. | .mmulwT .. | .mspec .. | .mzero .. | .mrd .. | .mrdv .. | .mfmt .. | .mstat .. => some .m
  | .xexp .. | .xcmp .. | .xtrn .. | .xcvt .. | .xdft .. | .xidft .. | .xidftAcc .. | .xtag .. | .xtagAcc ..
  | .xmov .. | .xfill .. => some .x
  | .cpy .. | .gath .. | .scat .. | .cpyn .. | .nrecv .. | .ring .. | .cseg .. => some .c
  | .sqnew .. | .sqres .. | .sqput .. | .sqcmt .. | .sqlen .. | .sqwait .. | .sqfork .. | .sqrel .. | .sqget ..
  | .sqatt .. | .sqmrg .. | .sqinfo .. => some .q
  | _ => none

/-! ## The opcode table's words

spec/opcode_table.json gives a row's syllable without its slot, and the same word is an instruction of every slot
(R34), so the slots are tried in ascending order. -/

/-- The instruction of slot `sl` that a syllable word is, with a required extension of zeros. -/
def tableIn (sl : Slot) (w e : Word32) : Option Instr :=
  let need := extKind sl (w.toNat / 2 ^ 26) == .required
  match decodeSyl sl w (if need || e != 0 then some e else none) with
  | .ok i => some i
  | .error _ => none

def tableSlot (w e : Word32) : List Slot → Option (Slot × Instr)
  | [] => none
  | sl :: r => match tableIn sl w e with
    | some i => some (sl, i)
    | none => tableSlot w e r

/-- The instruction of a word of the table, whose slot the table does not give (DEDUCED, log 11). -/
def decodeTableWord (_nbits w : Nat) : Option Instr :=
  (tableSlot (BitVec.ofNat 32 w) (BitVec.ofNat 32 (w / 2 ^ 32)) slotList).map (·.2)

end Sys2Proof
end

