-- ==== Sys2Proof/Machine/Banks.lean ====
section
/-!
DEFINITION. Machine-check banks (spec/15_traps.md R427, R430 to R432).
-/
namespace Sys2Proof.Machine
set_option Elab.async false
open Sys2Proof

/-! ## The registers of a bank (R431) -/

def Bank.status (b : Bank) : Nat :=
  (if b.valid then 2 ^ 63 else 0) + (if b.ovfl then 2 ^ 62 else 0) + b.sev % 4 * 2 ^ 60 + (if b.addr.isSome then 2 ^ 59 else 0)
    + (if b.misc.isSome then 2 ^ 58 else 0) + b.kind.toNat * 2 ^ 48 + b.unit.toNat * 2 ^ 32 + b.source.toNat * 2 ^ 16
    + (if b.mctx.isSome then 2 ^ 15 else 0) + (b.mctx.getD 0).toNat
def Bank.addrReg (b : Bank) : Nat := (b.addr.getD 0).toNat
def Bank.miscReg (b : Bank) : Nat := (b.misc.getD 0).toNat
def Bank.countReg (b : Bank) : Nat := b.cont.toNat * 2 ^ 32 + b.corr.toNat

/-! ## Where an error goes (R427, R430) -/

/-- The bank of a source (R427): compute die `die` for sources 1 to 16, the I/O die for the others. -/
def bankOf (source die : Nat) : Nat :=
  let k (n : Nat) : Nat := 8 * die + n
  match source with
  | 1 => k 0
  | 2 => k 0
  | 3 => k 0
  | 4 => k 0
  | 5 => k 5
  | 6 => k 5
  | 7 => k 1
  | 8 => k 1
  | 9 => k 2
  | 10 => k 2
  | 11 => k 3
  | 12 => k 3
  | 13 => k 4
  | 14 => k 4
  | 15 => k 6
  | 16 => k 7
  | 17 => 32 + 6
  | 18 => 32
  | 19 => 32 + 1
  | _ => 32 + 5

/-- The check failures that roll a core back (R424). -/
def rollsBack (source : Nat) : Bool := source == 1 || source == 2 || source == 3 || source == 7 || source == 9
/-- The sources with error-correcting codes. -/
def eccSource (source : Nat) : Bool := source == 8 || source == 10 || source == 11 || source == 15 || source == 16

/-- KIND of an error; where a source has a residue and a parity check, which of them failed is a free choice `n` (DESIGN CHOICE, log 3). -/
def errorKind (source sev n : Nat) : Nat :=
  if source = 2 || source = 4 || source = 5 || source = 13 then 2
  else if source = 6 || source = 12 then 1
  else if eccSource source then (if sev = 1 then 3 else 4)
  else if source = 17 || source = 18 then 5
  else 1 + n % 2

/-- UNIT: the flat index within the scope of the bank's blocks, for an error at core `c`: the core, its pen,
its cluster, the memory of its die; for an L2 slice the flat index `c` of the slice, and on the I/O die the place itself. Which of its die's
three controllers a corrected HBM error names, when it comes with a core alone, the spec does not say: `c` modulo 3 (DESIGN CHOICE, log 151). -/
def errorUnit (source c : Nat) : Nat :=
  if source ≤ 5 || 17 < source || source = 11 || source = 12 then c
  else if source = 7 || source = 8 || source = 9 || source = 10 then penOfCore c
  else if source = 15 then dieOfCore c
  else if source = 16 then 3 * dieOfCore c + c % 3
  else clusterOfCore c

/-- What an error writes into its bank besides the counters. -/
structure McErr where
  bank   : Nat
  sev    : Nat
  kind   : Nat
  unit   : Nat
  source : Nat
  addr   : Option (BitVec 64) := none
  mctx   : Option (BitVec 14) := none
deriving DecidableEq, Repr

def satInc32 (w : Word32) : Word32 := if w = 0xFFFFFFFF#32 then w else w + 1

/-- MC_RECORD (R432): the error is counted; its record is written when VALID is 0 or its SEV is higher. -/
def State.mcRecord (s : State) (e : McErr) : State :=
  let (n, s) := s.fresh
  let b := SMap.get {} s.banks e.bank
  let misc : BitVec 64 := BitVec.ofNat 64 (bitsOf s.rtc.toNat 10 32 * 2 ^ 32 + (Config.syndrome n).toNat)
  let c := if e.sev = 1 then { b with corr := satInc32 b.corr } else { b with cont := satInc32 b.cont }
  let rec' : Bank := {
    c with valid := true, ovfl := b.valid || b.ovfl, sev := e.sev, addr := e.addr, misc := some misc,
           kind := BitVec.ofNat 8 e.kind, unit := BitVec.ofNat 16 e.unit, source := BitVec.ofNat 8 e.source, mctx := e.mctx }
  { s with banks := SMap.set {} s.banks e.bank (if !b.valid || b.sev < e.sev then rec' else { c with ovfl := true }) }

/-- The bank of an error that `c` says the place of: a core, or of sources 18 and 20, which several groups of the I/O die hold, a link or
a processor (R427, R430): NET, HOST, STOR; FW, CARDER (DESIGN CHOICE, log 136). -/
def bankAt (source c : Nat) : Nat :=
  if source = 18 then 32 + [0, 2, 3].getD (c % 3) 0 else if source = 20 then 32 + [5, 4].getD (c % 2) 5 else bankOf source (dieOfCore c)

/-- The micro-context of a record (R431 MV): none for memory, links and the I/O die, nor for a core that holds no continuation. -/
def State.errorMc (s : State) (c source mc : Nat) : Option (BitVec 14) :=
  let atCore := decide (source ≤ 5) || (decide (7 ≤ source) && decide (source ≤ 11))
  if 14 < source || (atCore && !(s.coreAt c).running) then none else some (BitVec.ofNat 14 mc)

/-- The record of an error at core `c`, or at the place that `c` says on the I/O die, with ADDR when there is one. -/
def State.coreErrorAt (s : State) (c source sev mc : Nat) (addr : Option (BitVec 64)) : State :=
  let (n, s) := s.fresh
  s.mcRecord { bank := bankAt source c, sev := sev, kind := errorKind source sev (Config.pick n),
               unit := errorUnit source c, source := source, addr := addr, mctx := s.errorMc c source mc }
def State.coreError (s : State) (c source sev mc : Nat) : State := s.coreErrorAt c source sev mc none

/-- A re-execution ends before the landing cycle of the failure without another one, in a trap, a freeze or the end of the
continuation: the error is recorded as corrected (R24; DEDUCED, log 107). -/
def State.retryOver (s : State) (c : Nat) : State :=
  let x := s.coreAt c
  if x.retry.isSome then (s.coreError c x.retrySrc 1 x.mc).onCoreAt c (fun y => { y with retry := none, retrySrc := 0 }) else s

/-- A re-execution passes the landing cycle of the failure: the error is corrected (R424) (DEDUCED, log 107). -/
def State.retryPassed (s : State) (c : Nat) : State :=
  let x := s.coreAt c
  match x.retry with
  | some t =>
    if t ≤ x.cyc then (s.coreError c x.retrySrc 1 x.mc).onCoreAt c (fun y => { y with retry := none, retrySrc := 0 }) else s
  | none => s

end Sys2Proof.Machine
end

