-- ==== Sys2Proof/Machine/Flags.lean ====
section
/-!
DEFINITION. Guards (R35), the landing of results and of FFLAGS (R59, R60, R104), outstanding-operation counters
(R61), and the views of the system registers (R173).
-/
namespace Sys2Proof.Machine
set_option Elab.async false
open Sys2Proof

/-- The guard of a syllable of slot `slot`, read at issue (R35). A syllable that `cres.skip` passes over counts as
guarded off (R161). -/
def Arch.guardOn (a : Arch) (slot : Nat) (g : Guard) : Bool :=
  (a.rdP g.p != (g.n == 1)) && a.skipSlot != some slot

/-! ## Landing (R59, R60) -/

/-- A result of latency `lat` issued now by a syllable of slot `slot`. -/
def Arch.fly1 (a : Arch) (lat slot : Nat) (flags : Flags) (w : RegWrite) : Arch :=
  { a with fly := a.fly ++ [⟨lat, slot, a.seq, flags, w⟩], seq := a.seq + 1 }

/-- Whether `x` lands before `y` when both land in one cycle: by slot, then by issue (R60). -/
def Landing.before (x y : Landing) : Bool := x.slot < y.slot || (x.slot == y.slot && x.seq ≤ y.seq)

def insLanding (x : Landing) : List Landing → List Landing
  | [] => [x]
  | y :: r => if x.before y then x :: y :: r else y :: insLanding x r

def sortLandings : List Landing → List Landing
  | [] => []
  | x :: r => insLanding x (sortLandings r)

def Arch.wrAll (a : Arch) : List Landing → Arch
  | [] => a
  | x :: r => (a.wr x.w).wrAll r

def flagsOf : List Landing → Flags
  | [] => 0
  | x :: r => x.flags ||| flagsOf r

/-- The register that a write lands in, by its file and number. -/
def RegWrite.target : RegWrite → Option (Nat × Nat)
  | .s r _ => some (0, r.toNat)
  | .a r _ => some (1, r.toNat)
  | .v r _ => some (2, r.toNat)
  | .k r _ => some (3, r.toNat)
  | .t r _ => some (4, r.toNat)
  | .dom r _ => some (4, r.toNat)
  | .p r _ => some (5, r.toNat)
  | .lc r _ => some (6, r.toNat)
  | .ft r _ => some (7, r.toNat)
  | .sys r _ => some (8, r.toNat)
  | .zdom z _ => some (9, z.toNat)
  | .mzero z _ => some (9, z.toNat)
  | .none => Option.none

/-- A landing as a write of its whole register (R55): a DOMAIN tag is written with the rest of the descriptor as it stands before the
landings of the cycle. -/
def Arch.whole (a : Arch) (l : Landing) : Landing :=
  match l.w with
  | .dom r v => { l with w := if (a.rdT r).valid then .t r { a.rdT r with spectral := v } else .none }
  | _ => l

/-- The descriptors that landings replace, by handle. -/
def Arch.oldsOf (a : Arch) (l : List Landing) : List (Nat × TDesc) :=
  l.filterMap (fun x => match x.w with
    | .t r _ => some (r.toNat, a.rdT r)
    | _ => Option.none)

/-- One value remains of those that land in one register (R60): the last in the order of `Landing.before`. A write of a whole register
overwrites the ones before it; an accumulator's tag takes the place of an MZERO. -/
def remaining : List Landing → List Landing
  | [] => []
  | x :: r =>
    let loses := match x.w with
      | .mzero .. => r.any (fun y => y.w.target == x.w.target)
      | _ => false
    if loses then { x with w := .none } :: remaining r else x :: remaining r

/-- The end of a cycle: results due land, the value of the highest slot remaining, and their flags are ORed into
FFLAGS after any SWR of the cycle (R55, R60, R104). -/
def Arch.land (a : Arch) : Arch :=
  let due := remaining ((sortLandings (a.fly.filter (fun x => x.remain ≤ 1))).map a.whole)
  let rest := (a.fly.filter (fun x => 1 < x.remain)).map (fun x => { x with remain := x.remain - 1 })
  let b := { a with fly := rest, landed := due, olds := a.oldsOf due }.wrAll due
  { b with fflags := b.fflags ||| flagsOf due }

/-- A counted result of slot `slot`, issued at place `seq`, loses to a result that has landed in its register at the end of the last
cycle (R60): it lands with them. -/
def Arch.loses (a : Arch) (slot seq : Nat) (w : RegWrite) : Bool :=
  a.landed.any (fun l => l.w.target == w.target && w.target.isSome && (decide (slot < l.slot) || (l.slot == slot && decide (seq ≤ l.seq))))

/-- The descriptor of a handle before the landings of the last cycle (R55). -/
def Arch.oldT (a : Arch) (r : TReg) : TDesc := ((a.olds.find? (fun e => e.1 == r.toNat)).map (·.2)).getD (a.rdT r)

/-- A counted result as a write of its whole register: its DOMAIN tag goes with the descriptor before the landings of the cycle that it
lands with (R55). -/
def Arch.wholeLate (a : Arch) : RegWrite → RegWrite
  | .dom r v => if (a.oldT r).valid then .t r { a.oldT r with spectral := v } else .none
  | w => w

/-- The landing of a counted result: it joins the landings of the last cycle, so that a later one of the same cycle is held against it
(R60). -/
def Arch.wrCounted (a : Arch) (slot seq : Nat) (w : RegWrite) : Arch :=
  if a.loses slot seq w then a
  else
    let x := a.wholeLate w
    { a with landed := a.landed ++ [(⟨0, slot, seq, 0, w⟩ : Landing)], olds := a.olds ++ a.oldsOf [(⟨0, slot, seq, 0, x⟩ : Landing)] }.wr x

/-! ## Counters (R61) -/

inductive Ctr where
  | ldo | sto | cpo | tlo | sqo
deriving DecidableEq, Repr

def Arch.ctr (a : Arch) : Ctr → BitVec 8
  | .ldo => a.ldo | .sto => a.sto | .cpo => a.cpo | .tlo => a.tlo | .sqo => a.sqo

def Arch.setCtr (a : Arch) (c : Ctr) (x : BitVec 8) : Arch :=
  match c with
  | .ldo => { a with ldo := x } | .sto => { a with sto := x } | .cpo => { a with cpo := x }
  | .tlo => { a with tlo := x } | .sqo => { a with sqo := x }

def Arch.inc (a : Arch) (c : Ctr) : Arch := a.setCtr c (a.ctr c + 1)
def Arch.dec (a : Arch) (c : Ctr) : Arch := a.setCtr c (if a.ctr c = 0 then 0 else a.ctr c - 1)

def Arch.countersZero (a : Arch) : Bool := a.ldo == 0 && a.sto == 0 && a.cpo == 0 && a.tlo == 0 && a.sqo == 0

/-! ## System registers (R173) -/

/-- CTX. -/
def State.sysCtx (s : State) : Nat :=
  let c := s.core
  (s.bindAt c.bind).num % 2 ^ 32 * 2 ^ 32 + (s.mcAt c.mc).part.toNat % 64 * 2 ^ 26 + c.mc * 2 ^ 12 + c.fslot

/-- COORD (R12). -/
def State.sysCoord (s : State) : Nat := s.cur / 192 * 256 + s.cur % 192 / 16 * 16 + s.cur % 16

/-- STAGE. -/
def State.sysStage (s : State) : Nat :=
  ((s.mcAt s.core.mc).stages.toNat - 1) % 16 * 16 + s.core.stage % 16

/-- GROUP. -/
def State.sysGroup (s : State) : Nat :=
  (s.mcAt s.core.mc).cores.toNat % 32 * 256 + s.core.lcore / 4 % 4 * 16 + s.core.lcore % 16

def PenMode.code : PenMode → Nat
  | .sole => 0 | .pair => 1 | .quad => 2 | .fold => 3

/-- PENMODE. -/
def State.sysPenmode (s : State) : Nat := s.cur % 4 * 4 + (s.penAt (penOfCore s.cur)).mode.code

/-- COUNTERS. -/
def Arch.sysCounters (a : Arch) : Nat :=
  a.ldo.toNat + a.sto.toNat * 2 ^ 8 + a.cpo.toNat * 2 ^ 16 + a.tlo.toNat * 2 ^ 24 + a.sqo.toNat * 2 ^ 32

/-- A system register as SRD reads it at issue; `none` for an unassigned number (R173). -/
def State.rdSys (s : State) (n : BitVec 12) : Option Word :=
  let a := s.arch
  match n.toNat with
  | 0x000 => some (BitVec.ofNat 64 s.sysCtx)
  | 0x001 => some (BitVec.ofNat 64 s.sysCoord)
  | 0x002 => some (BitVec.ofNat 64 s.sysStage)
  | 0x003 => some (BitVec.ofNat 64 s.sysGroup)
  | 0x004 => some (BitVec.ofNat 64 s.sysPenmode)
  | 0x005 => some (a.hold.zeroExtend 64)
  | 0x006 => some (if a.scopeGlobal then 1 else 0)
  | 0x007 => some (BitVec.ofNat 64 ((s.contAt s.curKey).pts % 2 ^ 48 * 2 ^ 16 + a.leaseLen.toNat))
  | 0x008 => some (a.ckpti.zeroExtend 64)
  | 0x009 => some (a.rmode.zeroExtend 64)
  | 0x00A => some (a.fflags.zeroExtend 64)
  | 0x00B => some (BitVec.ofNat 64 s.core.cyc)
  | 0x00C => some s.rtc
  | 0x00D => some a.trapinfo
  | 0x00E => some (BitVec.ofNat 64 a.sysCounters)
  | 0x010 => some ((a.rdLc 0).zeroExtend 64)
  | 0x011 => some ((a.rdLc 1).zeroExtend 64)
  | 0x012 => some ((a.rdLc 2).zeroExtend 64)
  | 0x013 => some ((a.rdLc 3).zeroExtend 64)
  | _ => none

def clampNat (lo hi x : Nat) : Nat := if x < lo then lo else if hi < x then hi else x

/-- The write that an SWR of `v` lands, fields held to their ranges (R173). A read-only register takes none. The range of
HOLD, LEN and CKPTI is applied to the bits of the written word that make up the field; ones written to the reserved bits
above it are ignored (R5; DEDUCED, log 8). -/
def State.swrWrite (s : State) (n : BitVec 12) (v : Word) : RegWrite :=
  let x := v.toNat
  match n.toNat with
  | 0x005 => .sys n (BitVec.ofNat 64 (clampNat 0 (s.effHold s.core.mc).toNat (x % 4096)))
  | 0x006 => .sys n (if v.getLsbD 0 && (s.mcAt s.core.mc).global then 1 else
      if v.getLsbD 0 then (if s.arch.scopeGlobal then 1 else 0) else 0)
  | 0x007 => .sys n (BitVec.ofNat 64 (clampNat 16 4096 (x % 2 ^ 16)))
  | 0x008 => .sys n (BitVec.ofNat 64 (clampNat 1024 1048576 (x % 2 ^ 32)))
  | 0x009 => .sys n v
  | 0x00A => .sys n v
  | 0x010 => .lc 0 (v.truncate 32)
  | 0x011 => .lc 1 (v.truncate 32)
  | 0x012 => .lc 2 (v.truncate 32)
  | 0x013 => .lc 3 (v.truncate 32)
  | _ => .none

end Sys2Proof.Machine
end

