-- ==== Sys2Proof/Machine/Frame.lean ====
section
/-!
DEFINITION. Continuation records and frames in memory (R125, R126): reading and writing them for the Shepherd, the start
vector area (R82), and the states of a continuation (R129).
-/
namespace Sys2Proof.Machine
set_option Elab.async false
open Sys2Proof

/-- Virtual address of a frame slot (R125). -/
def State.frameVa (s : State) (mc fslot : Nat) : Nat := (s.mcAt mc).framepool.toNat + fslot * 2 ^ 21

/-- Reaches the pages of `n` bytes from `va` on, for the Shepherd; what `shepDown` says then is whether an access has failed. -/
def State.shepReach (s : State) (mc : Nat) (kind : Acc) (va : Nat) : Nat → Nat → State
  | 0, _ => s
  | k + 1, n =>
    let m := 65536 - va % 65536
    let s := (s.shepGo mc va (min n m) kind).2
    if n ≤ m then s else s.shepReach mc kind (va + m) k (n - m)

/-- A page of a frame slot that an access of the Shepherd sleeps on or finds migrating (R205). -/
def State.pageAsleep (s : State) (mc fslot i : Nat) : Bool :=
  let va := s.frameVa mc fslot + 65536 * i
  s.napping mc va || (s.xlate Who.shep mc 0 va .write).1 == .mig
/-- The Shepherd's writes to a frame wait (R203, R205). -/
def State.frameAsleep (s : State) (mc fslot : Nat) : Bool := (List.range 32).any (s.pageAsleep mc fslot)
/-- They sleep from then on, until a shootdown wakes them (R205). -/
def State.frameNap (s : State) (mc fslot : Nat) : State :=
  ((List.range 32).filter (s.pageAsleep mc fslot)).foldl (fun s i => s.nap mc ((s.frameVa mc fslot + 65536 * i) / 65536)) s

/-- Writes bytes that may cross pages of an area, for the Shepherd; `fuel` bounds the pages. -/
def State.areaWrite (s : State) (mc va : Nat) : Nat → List Byte → State
  | 0, _ => s
  | k + 1, bs =>
    let n := 65536 - va % 65536
    let s := s.shepWrite mc va (bs.take n)
    if bs.length ≤ n then s else s.areaWrite mc (va + n) k (bs.drop n)

/-- Reads bytes that may cross pages; unreadable pages read as zeros after `shepBad` has been checked. -/
def State.areaRead (s : State) (mc va : Nat) : Nat → Nat → List Byte
  | 0, _ => []
  | k + 1, n =>
    let m := 65536 - va % 65536
    let h := if n ≤ m then n else m
    let bs := (s.shepRead mc va h).getD (List.replicate h 0)
    if n ≤ m then bs else bs ++ s.areaRead mc (va + m) k (n - m)

/-- Writes bytes at a slot offset of a frame. -/
def State.frameWrite (s : State) (mc fslot off : Nat) (bs : List Byte) : State :=
  s.areaWrite mc (s.frameVa mc fslot + off) 33 bs

def State.frameRead (s : State) (mc fslot off n : Nat) : List Byte :=
  s.areaRead mc (s.frameVa mc fslot + off) 33 n

def State.frameNum (s : State) (mc fslot off n : Nat) : Nat := ofBytes (s.frameRead mc fslot off n)

/-- Makes `n` bytes of a page read 0, and writes the nonzero bytes of a sparse table there: an area of the frame whose
byte `i` is byte `lo + i` of the table. -/
def State.frameImage (s : State) (mc fslot off lo : Nat) (m : SMap Byte) : Nat → Nat → State
  | 0, _ => s
  | k + 1, n =>
    let va := s.frameVa mc fslot + off
    let room := 65536 - va % 65536
    let h := if n ≤ room then n else room
    let s := match s.shepGo mc va h .write with
      | (some pa, s) =>
        let cleared := SMap.clear s.mem pa h
        let part := m.filter (fun e => decide (lo ≤ e.1) && decide (e.1 < lo + h))
        let mem := part.foldl (fun x e => wrByte x (pa + (e.1 - lo)) e.2) cleared
        let s := ((s.stampLines 0 (pa / 64) (linesOf pa h)).2).viaCache pa h true
        if s.stackFenced pa then s
        else { s with mem := mem, poison := unpoison s.poison pa h, poisonL2 := unpoison s.poisonL2 pa h }
      | (none, s) => s
    if n ≤ room then s else s.frameImage mc fslot (off + room) (lo + room) m k (n - room)

/-- The bytes of an area of the frame as a sparse table, byte `i` at `lo + i`. -/
def State.frameLoad (s : State) (mc fslot off lo : Nat) : Nat → Nat → SMap Byte
  | 0, _ => []
  | k + 1, n =>
    let va := s.frameVa mc fslot + off
    let room := 65536 - va % 65536
    let h := if n ≤ room then n else room
    let here := match (s.xlate Who.shep mc 0 va .read).1 with
      | .ok false pa => (s.mem.filter (fun e => decide (pa ≤ e.1) && decide (e.1 < pa + h))).map (fun e => (lo + (e.1 - pa), e.2))
      | _ => []
    if n ≤ room then here else here ++ s.frameLoad mc fslot (off + room) (lo + room) k (n - room)

/-! ## The record (R125) -/

def ContState.code : ContState → Nat
  | .free => 0 | .runnable => 1 | .running => 2 | .waiting => 3 | .trapped => 4

/-- Sets STATE of a continuation, in its record and with the Shepherd. -/
def State.setContState (s : State) (k : Nat) (st : ContState) : State :=
  ((s.onCont k (fun c => { c with state := st })).frameWrite (k / 4096) (k % 4096) 4 [BitVec.ofNat 8 st.code]).shepUp

/-! ## The state of a micro-context (R123, R135, R139) -/

/-- A live binding of a micro-context that is frozen: it holds no group and has a RUNNABLE continuation (R123). -/
def State.frozenWork (s : State) (b : Nat) : Bool :=
  let x := s.bindAt b
  x.live && !x.held && s.conts.any (fun e => e.1 / 4096 == x.mc && e.2.bind == b && e.2.state == .runnable)

/-- The numbers of a micro-context's live bindings, the oldest binding number first (R135). -/
def State.bindsOf (s : State) (mc : Nat) : List Nat := (s.binds.filter (fun e => e.2.live && e.2.mc == mc)).map (·.1)

/-- Unbound work (R123). -/
def State.unbound (s : State) (mc : Nat) : Bool :=
  let m := s.mcAt mc
  m.rqhead != m.rqtail || (s.bindsOf mc).any s.frozenWork

/-- Pass `a` lies before pass `b` (R139). -/
def passBefore (a b : BitVec 64) : Bool := (a - b).msb

/-- The least pass of a list by the difference of R139. -/
def leastPass : List (BitVec 64) → Option (BitVec 64)
  | [] => none
  | p :: r => match leastPass r with
    | none => some p
    | some q => some (if passBefore q p then q else p)

/-- A micro-context becomes READY from IDLE or HALTED (R139). -/
def State.passUp (s : State) (mc : Nat) : State :=
  let m := s.mcAt mc
  match leastPass ((s.mcs.filter (fun e => e.1 != mc && (e.2.state == .ready || e.2.state == .bound))).map (·.2.pass)) with
  | some p => if passBefore m.pass p then s.setMc mc { m with pass := p } else s
  | none => s

/-- The state that a micro-context takes when its state is decided (R123). -/
def State.decideTo (s : State) (mc : Nat) : McState :=
  if s.unbound mc then .ready else if (s.bindsOf mc).isEmpty then .idle else .bound

/-- STATE is decided for a micro-context that is neither FREE nor HALTED, or that the host takes out of HALTED. -/
def State.decideMc (s : State) (mc : Nat) (host : Bool) : State :=
  let old := (s.mcAt mc).state
  if old == .free || (old == .halted && !host) then s
  else
    let new := s.decideTo mc
    let s := if new == .ready && (old == .idle || old == .halted) then s.passUp mc else s
    s.onMc mc (fun m => { m with state := new })

/-- A moment at which the Shepherd selects (R140), if `b` holds. -/
def State.selectAt (s : State) (b : Bool) : State := { s with selDue := if b then s.selDue + 1 else s.selDue }

/-! ## Continuations -/

/-- A continuation becomes RUNNABLE, at the end of the order of R145; one of a frozen binding makes its micro-context READY (R123,
R140). -/
def State.makeRunnable (s : State) (k : Nat) : State :=
  let s := s.setContState k .runnable
  let s := { (s.onCont k (fun c => { c with order := s.nextOrder })) with nextOrder := s.nextOrder + 1 }
  (s.selectAt (s.frozenWork (s.contAt k).bind)).decideMc (k / 4096) false

/-- The lowest free frame slot of a micro-context (R125): one whose continuation waits is not free, however long (R147). -/
def State.freeSlot (s : State) (mc : Nat) : Option Nat :=
  firstIdx (fun i => let c := s.contAt (contKey mc i); c.state == .free && !c.spawning) (s.mcAt mc).frames.toNat 0

/-- Number of free frame slots (R133). -/
def State.freeSlots (s : State) (mc : Nat) : Nat :=
  (s.mcAt mc).frames.toNat
    - (s.conts.filter (fun e => e.1 / 4096 == mc && (e.2.state != .free || e.2.spawning))).length

/-- The record of a new continuation (R125). -/
def recordNew (resume stage mc frame carry0 carry1 : Nat) : List Byte :=
  toBytes 4 resume ++ toBytes 1 0 ++ toBytes 1 (stage % 16) ++ toBytes 2 mc ++ toBytes 2 0xFFFF ++ toBytes 1 0
    ++ toBytes 1 0 ++ toBytes 1 0 ++ toBytes 1 0 ++ toBytes 2 0 ++ toBytes 4 0 ++ toBytes 4 0
    ++ toBytes 8 frame ++ toBytes 8 0 ++ toBytes 8 0 ++ toBytes 8 carry0 ++ toBytes 8 carry1

/-! ## The start-vector area (R82) -/

/-- Offset of the format table: after the STARTV records. -/
def Mc.startvRecs (m : Mc) : Nat := 8 * m.stages.toNat * m.cores.toNat

/-- Bytes of the start-vector area. -/
def State.startvRead (s : State) (mc off n : Nat) : List Byte := s.areaRead mc ((s.mcAt mc).startv.toNat + off) 3 n
def State.startvNum (s : State) (mc off n : Nat) : Nat := ofBytes (s.startvRead mc off n)

/-- The STARTV record of stage `st` and core `c` among the `n` records at `va`: pen mode and entry (R79). -/
def State.startvAt (s : State) (mc va n st c : Nat) : Option (Nat × Nat) :=
  let num (o k : Nat) : Nat := ofBytes (s.areaRead mc (va + o) 3 k)
  match firstIdx (fun i => num (8 * i) 2 == st % 256 + 256 * (c % 256)) n 0 with
  | some i => some (num (8 * i + 2) 1, num (8 * i + 4) 4)
  | none => none
def State.startvEntry (s : State) (mc st c : Nat) : Option (Nat × Nat) :=
  let m := s.mcAt mc
  s.startvAt mc m.startv.toNat (m.stages.toNat * m.cores.toNat) st c

/-- The format table of an image (R82). -/
def State.imageFt (s : State) (mc : Nat) : List Byte := s.startvRead mc (s.mcAt mc).startvRecs 32

/-- The number of TILES records, and record `i` as it stands: handle and wanted descriptor (R79). -/
def State.tileCount (s : State) (mc : Nat) : Nat := s.startvNum mc ((s.mcAt mc).startvRecs + 32) 4
def State.tileRaw (s : State) (mc i : Nat) : TReg × TDesc :=
  let x := s.startvNum mc ((s.mcAt mc).startvRecs + 40 + 8 * i) 8
  (BitVec.ofNat 8 (bitsOf x 0 8),
    { clus := bitsOf x 8 8 == 1, fmt := BitVec.ofNat 4 (bitsOf x 16 8),
      rowsm1 := BitVec.ofNat 8 (bitsOf x 32 16 - 1), rbm1 := BitVec.ofNat 12 (bitsOf x 48 16 - 1) })

/-- Handles are allocated in ascending number (R84). -/
def insTile (x : TReg × TDesc) : List (TReg × TDesc) → List (TReg × TDesc)
  | [] => [x]
  | y :: r => if x.1.toNat ≤ y.1.toNat then x :: y :: r else y :: insTile x r
def sortTiles : List (TReg × TDesc) → List (TReg × TDesc)
  | [] => []
  | x :: r => insTile x (sortTiles r)
/-- The `i`-th handle of an entry and its wanted descriptor. -/
def State.tileRec (s : State) (mc i : Nat) : TReg × TDesc :=
  (sortTiles ((List.range (s.tileCount mc)).map (s.tileRaw mc))).getD i (0, {})

/-- The bytes of the start-vector area: the records, the format table, the count and the TILES records (R82). -/
def State.startvBytes (s : State) (mc : Nat) : Nat := (s.mcAt mc).startvRecs + 40 + 8 * s.tileCount mc

/-- The Shepherd reads the start-vector area (R82), its last part when the count has been read; what `shepDown` says then is whether an
access has failed or waits (R203, R205). -/
def State.startvReach (s : State) (mc : Nat) : State :=
  let s := s.shepReach mc .read (s.mcAt mc).startv.toNat 3 ((s.mcAt mc).startvRecs + 40)
  if s.shepDown.isSome then s else s.shepReach mc .read (s.mcAt mc).startv.toNat 3 (s.startvBytes mc)

/-- A frame header (R126): the register fields, the fields of the binding, PEND, SKREM and TARGET. -/
def headerOf (p rmode fflags bind : Nat) (lc k ft : List Byte) (zf tvalid tpriv params reqbuf rqidx pend skrem target : Nat) :
    List Byte :=
  toBytes 2 p ++ toBytes 1 rmode ++ toBytes 1 fflags ++ toBytes 4 bind ++ lc ++ k ++ ft ++ toBytes 4 zf ++ toBytes 4 0
    ++ toBytes 32 tvalid ++ toBytes 32 tpriv ++ toBytes 16 params ++ toBytes 16 reqbuf ++ toBytes 4 rqidx
    ++ toBytes 1 pend ++ toBytes 1 skrem ++ toBytes 2 0 ++ toBytes 4 target ++ toBytes 20 0

/-- PARAMS, REQBUF and RQIDX of a binding's continuations (R133). -/
def State.bindVals (s : State) (b : Nat) : Nat × Nat × Nat :=
  let x := s.bindAt b
  match x.req with
  | some r => (x.params.toNat, r.buf.toNat, r.index.toNat)
  | none => (x.params.toNat, 0, 0xFFFFFFFF)

/-- The header of a new continuation (R126, R133, R159) with REQBUF `rb`: p0 true, the other predicates and the loop counts zero,
k0 all ones. -/
def State.bindHeader (s : State) (b rb : Nat) : List Byte :=
  let x := s.bindAt b
  let (pa, _, ix) := s.bindVals b
  headerOf 1 0 0 x.num (toBytes 16 0) (toBytes 8 (2 ^ 64 - 1) ++ toBytes 56 0) (s.imageFt x.mc) 0 0 0 pa rb ix 0 0 0

/-- Creates a continuation in frame slot `fs` with STATE FREE until it is started: record and header (R125, R126). REQBUF `rb` is the
request's BUF at a launch, and that of the spawner or of the trapped continuation for a SPAWN or a handler (R133, R159, R418; DEDUCED, log 132). -/
def State.newCont (s : State) (mc b fs stage resume carry0 carry1 rb : Nat) : State :=
  let va := s.frameVa mc fs
  let s := s.frameWrite mc fs 0 (recordNew resume stage mc ((va + 64) % 2 ^ 64) carry0 carry1)
  let s := s.frameWrite mc fs 64 (s.bindHeader b rb)
  let s := s.setCont (contKey mc fs) { stage := stage, bind := b, entryTile := some 0 }
  s.onMc mc (fun m => { m with conts := m.conts + 1 })

/-- The accesses of the Shepherd for a SPAWN or a handler: the start-vector area, and the record and the header that it will write (R82,
R159, R418). -/
def State.contReach (s : State) (mc fs : Nat) : State :=
  let s := s.shepUp.startvReach mc
  if s.shepDown.isSome then s else s.shepReach mc .write (s.frameVa mc fs) 33 384

end Sys2Proof.Machine
end

