-- ==== Sys2Proof/Machine/Outstanding.lean ====
section
/-!
DEFINITION. Outstanding operations (R61, R206, R410, R417): their counters, completion, late faults and results; loans
of tickets (R143). -/
namespace Sys2Proof.Machine
set_option Elab.async false
open Sys2Proof

abbrev Out := Host.Outcome State Fault Refusal

/-- The first trap of a list of checks, in the order given (R482) (DEDUCED, log 18). -/
def firstTrap : List (Option Trap) → Option Trap
  | [] => none
  | some t :: _ => some t
  | none :: r => firstTrap r

/-- A check: the trap when `b` holds. -/
def trapIf (b : Bool) (cause reason : Nat) (data : Word32 := 0) : Option Trap :=
  if b then some { cause := cause, reason := reason, data := data } else none

/-- The counter of an operation, by the class of its syllable (R61). -/
def Op.ctr (o : Op) : Option Ctr :=
  match o.kind with
  | .scalar => some (match o.instr with
    | .st .. => .sto | .sta .. => .sto | .red .. => .sto | _ => .ldo)
  | .tile => some (match o.instr with
    | .vst .. => .sto | .vstx .. => .sto | _ => .ldo)
  | .waited => some .tlo
  | .readout => some .tlo
  | .copy => some .cpo
  | .seq => some .sqo
  | _ => none

/-- The operation's continuation is still on the core that issued it. -/
def State.onItsCore (s : State) (o : Op) : Bool :=
  let c := s.coreAt o.core
  c.running && c.mc == o.mc && c.fslot == o.fslot && !o.carried

/-- The checkpoint that an effect of an operation waits for before it leaves its core has been taken (R174, R371, R421). -/
def State.committed (s : State) (o : Op) : Bool := !s.onItsCore o || decide (o.id < (s.coreAt o.core).savedOp)

/-- An effect of an operation on the registers of its core. One that was issued before the core's last checkpoint is not
discarded by a rollback, so its effect stands in the checkpoint too (R422, R424; DESIGN CHOICE, log 25). -/
def State.onOpArch (s : State) (o : Op) (f : Arch → Arch) : State :=
  s.onCoreAt o.core (fun x => { x with now := f x.now, saved := if o.id < x.savedOp then f x.saved else x.saved })

/-- A write of operation `o` has taken timestamp `t` (R355): the PTS of its continuation is at least `t`, and so is the timestamp with
which a release that waits for it applies (R361, R363). -/
def State.wrote (s : State) (o : Op) (t : Nat) : State := s.took o.id (contKey o.mc o.fslot) t

/-- Completion of an operation (R61): it is no longer outstanding and its counter falls, on the core or, after a freeze,
for the frozen continuation, whose counters its frame does not hold (R128, R410). -/
def State.finishOp (s : State) (o : Op) : State :=
  let s := s.dropOp o.id
  match o.ctr with
  | some c => if s.onItsCore o then s.onOpArch o (·.dec c) else s
  | none => s

/-- A late fault of an operation (R206, R417): it is taken at the next bundle boundary of the core; after a freeze it
traps the continuation when all carried accesses are done (DEDUCED, log 83). -/
def State.lateOp (s : State) (o : Op) (t : Trap) : State :=
  let l : Late := ⟨o.id, o.rtc, o.slot, t.cause, t.reason, t.data, (t.va.getD 0), [], t.bank⟩
  let s := s.setOp { o with faulted := true }
  if s.onItsCore o then s.onCoreAt o.core (fun x => { x with late := x.late ++ [l] })
  else s.onCont (contKey o.mc o.fslot) (fun x => { x with late := x.late ++ [l] })

/-- A trap of a translation fault, with the address of R226. -/
def xlTrap (cause reason va : Nat) : Trap :=
  { cause := cause, reason := reason, data := BitVec.ofNat 32 va, va := some (BitVec.ofNat 72 va) }

/-- An access that waits: on a migrating page (`[1, page]`, R205), which only a shootdown wakes, or an absent segment page
(`[2, segment, entry, address]`, R327), whose entry it reads again. The stall counts from its start. -/
def State.waitOn (s : State) (o : Op) (why : List Nat) : State :=
  let s := if why.headD 0 = 2 then s.askPage (why.getD 1 0) (why.getD 2 0) else s
  s.setOp { o with wait := some (if o.st = why then o.wait.getD s.rtc.toNat else s.rtc.toNat), st := why }

/-- The access is asleep on a migrating page (R205). -/
def Op.asleep (o : Op) : Bool := o.wait.isSome && o.st.headD 0 == 1

/-! ## Results of counted operations (R61, R410) -/

/-- Slot offset and bytes of a register in its frame area (R126). -/
def frameReg : RegWrite → Option (Nat × List Byte)
  | .s r v => if r = 0 then none else some (320 + 8 * r.toNat, toBytes 8 v.toNat)
  | .a r v => if r = 0 then none else some (832 + 16 * r.toNat, toBytes 16 v.toNat)
  | .v r v => some (1344 + 256 * r.toNat, toBytes 256 v.toNat)
  | _ => none

/-- A counted result lands in its register, or in the frame of a continuation that froze (R410). s1 and s2 live in CARRY0
and CARRY1 of the record besides their area (R127, R128). -/
def State.writeDest (s : State) (o : Op) (w : RegWrite) : State :=
  if s.onItsCore o then s.onOpArch o (·.wrCounted o.slot o.seq w)
  else
    let s := match frameReg w with
      | some (off, bs) => s.frameWrite o.mc o.fslot off bs
      | none => s
    let s := match w with
      | .s r v => if r = 1 then s.frameWrite o.mc o.fslot 48 (toBytes 8 v.toNat)
                  else if r = 2 then s.frameWrite o.mc o.fslot 56 (toBytes 8 v.toNat) else s
      | _ => s
    s.shepUp

/-- The result of a carried operation waits while the frame that it goes to migrates (R203, R205). -/
def State.destNap (s : State) (o : Op) : State := if s.onItsCore o then s else s.frameNap o.mc o.fslot
def State.destAsleep (s : State) (o : Op) : Bool := !s.onItsCore o && s.frameAsleep o.mc o.fslot

/-- The DOMAIN tag that an operation leaves in a handle (R313): in the register, or in the descriptor of the frame of a continuation that
froze. -/
def State.writeTag (s : State) (o : Op) (t : TReg) (v : Bool) : State :=
  if s.onItsCore o then s.onOpArch o (·.wrCounted o.slot o.seq (.dom t v))
  else
    let at' := 17728 + 16 * t.toNat
    let d := TDesc.ofBits (s.frameNum o.mc o.fslot at' 16)
    if d.valid then (s.frameWrite o.mc o.fslot at' (toBytes 16 { d with spectral := v }.bits)).shepUp else s

/-! ## Loans (R143) -/

/-- Ends a loan of tickets to micro-context `to'` (R143): BORROW falls by the amount lent. -/
def recomputeStride (m : Mc) : Mc :=
  let t := min (m.tickets.toNat + m.borrow.toNat) (2 ^ 20)
  { m with stride := BitVec.ofNat 32 (2 ^ 20 / t) }

/-- The amount that lender `mc` has lent to signaller `sg`: one loan per pair (R143), kept as an entry of `loans`. -/
def State.endLoan (s : State) (mc sg : Nat) : State :=
  -- the last lending wait of the pair ends the loan
  let waits := (s.conts.any (fun e => e.1 / 4096 == mc && e.2.lent == some sg))
    || (s.cores.any (fun e => e.2.running && e.2.mc == mc && (match e.2.now.stall with
        | .waitf _ _ (some g) _ => g == sg | _ => false)))
  if waits then s
  else
    match s.loans.find? (fun l => l.1 == mc && l.2.1 == sg) with
    | none => s
    | some l =>
      let s := { s with loans := s.loans.filter (fun x => !(x.1 == mc && x.2.1 == sg)) }
      s.onMc sg (fun m => recomputeStride { m with borrow := m.borrow - BitVec.ofNat 32 l.2.2 })

/-- The signaller that a lending wait on counter `n` of micro-context `mc` lends to, if any (R143): none whose control block is FREE
(DESIGN CHOICE, log 130). -/
def State.lendTo (s : State) (mc n : Nat) : Option Nat :=
  let f := s.fenceAt n
  let sg := f.signal.toNat
  if f.sv && (s.mcAt sg).part = (s.mcAt mc).part && (s.mcAt sg).state != .free then some sg else none

/-- Begins a loan of the lender's TICKETS as they stand (R143), once per pair. -/
def State.beginLoan (s : State) (mc sg : Nat) : State :=
  if s.loans.any (fun l => l.1 == mc && l.2.1 == sg) then s
  else
    let amt := (s.mcAt mc).tickets.toNat
    let s := { s with loans := (mc, sg, amt) :: s.loans }
    s.onMc sg (fun m => recomputeStride { m with borrow := m.borrow + BitVec.ofNat 32 amt })

end Sys2Proof.Machine
end

