-- ==== Sys2Proof/Machine/Fences.lean ====
section
/-!
DEFINITION. The fence store (R163 to R166), the end of a tile (R221), and what an engine's command needs of them.
-/
namespace Sys2Proof.Machine
set_option Elab.async false
open Sys2Proof

/-! ## Fence counters (R163 to R166) -/

/-- A fence condition holds (R166): ERR is set, or VALUE is at or past the target. -/
def Fence.holds (f : Fence) (t : Word32) : Bool := f.err || (f.value - t).msb == false

/-- Wakes the WAITING continuations of `susp.fence` and `susp.lend` on counter `n` whose condition holds (R155, R166); a
released wait raises PTS to FTS (R363). `force` releases all of them as if ERR were set (R164). -/
def State.wakeFence (s : State) (n : Nat) (force : Bool) : List (Nat × Cont) → State
  | [] => s
  | (k, c) :: r =>
    let f := s.fenceAt n
    let s := if c.state = .waiting && (c.wkind = 1 || c.wkind = 2) && c.wid = n && (force || f.holds c.wtarget) then
        let s := (s.onCont k (fun x => { x with werr := force || f.err, pts := max x.pts f.fts, lent := none })).makeRunnable k
        match c.lent with
        | some sg => s.endLoan (k / 4096) sg
        | none => s
      else s
    s.wakeFence n force r

/-- The counter and the target of a WAITF as its registers hold them (R166, R482). -/
def Arch.waitPair (a : Arch) (x y : SReg) : Nat × Word32 := ((a.rdS x).toNat, (a.rdS y).truncate 32)

/-- The end of a stalled or fresh WAITF of core `c` on counter `n` with target `t` (R166, R363): PTS rises to FTS and its loan ends. -/
def State.waitfEnd (s : State) (c n : Nat) (t : Word32) (err : Bool) : State :=
  let x := s.coreAt c
  let s' := s.raisePts (contKey x.mc x.fslot) (s.fenceAt n).fts
  match x.now.stall with
  | .waitf rx ry (some sg) _ => (s'.onArchAt c (fun a => { a with stall := .waitf rx ry none (some (n, t, err)) })).endLoan x.mc sg
  | .waitf rx ry none _ => s'.onArchAt c (fun a => { a with stall := .waitf rx ry none (some (n, t, err)) })
  | _ => s'

/-- Ends the stalled WAITFs on counter `n` whose condition holds (R166); `force` ends all of them as if ERR were set (R164). -/
def State.wakeWaitf (s : State) (n : Nat) (force : Bool) : List (Nat × Core) → State
  | [] => s
  | (c, x) :: r =>
    let f := s.fenceAt n
    let s := match x.now.stall with
      | .waitf rx ry _ none =>
        let (m, t) := x.now.waitPair rx ry
        if x.running && m = n && (force || f.holds t) then s.waitfEnd c n t (force || f.err) else s
      | _ => s
    s.wakeWaitf n force r

/-- Ends the waits of host packets on counter `n` whose condition holds (R443). -/
def State.wakePackets (s : State) (n : Nat) : State :=
  let f := s.fenceAt n
  let go (x : HQueue) : HQueue :=
    match x.waits with
    | some (m, t) => if m = n && f.holds t then { x with waits := none, passed := some f.err } else x
    | none => x
  { s with funcs := s.funcs.map (fun (e : Nat × Func) => (e.1, { e.2 with queues := e.2.queues.map (fun y => (y.1, go y.2)) })) }

/-- The fence store applies an update (R165, R363): `t` is the largest timestamp that it releases. Every wait whose condition holds
after it ends with it (R166, R443). -/
def State.fenceUpdate (s : State) (n t : Nat) (f : Fence → Fence) : State :=
  let x := s.fenceAt n
  let s := s.setFence n { f x with fts := max x.fts t + 1 }
  let s := s.wakeFence n false s.conts
  let s := s.wakeWaitf n false s.cores
  s.wakePackets n

/-- An operation that was to count fence `n` failed (R332, R447): ERR is set, ERRCNT rises and KIND 4 is posted. -/
def State.fenceError (s : State) (mc n t : Nat) : State :=
  let s := s.fenceUpdate n t (fun f => { f with err := true, errcnt := if f.errcnt = 0xFFFFFFFF#32 then f.errcnt else f.errcnt + 1 })
  s.postEvent mc 4 0 0xFFFF n (s.fenceAt n).errcnt.toNat

/-! ## The end of a tile (R221) -/

/-- Outstanding work of core `c`'s continuation that names handle `t` (R221). -/
def State.naming (s : State) (c : Nat) (t : TReg) : List Nat :=
  let x := s.coreAt c
  (s.ops.filter (fun o => o.mc = x.mc && o.fslot = x.fslot && o.hs.any (fun h => h.1 == t))).map (·.id)
    ++ (x.now.passes.filter (fun p => p.hs.contains t)).map (·.id)
    ++ (x.now.reads.filter (fun r => r.t == t || r.epi == some t)).map (·.id)
    ++ (x.now.xs.filter (fun y => y.hs.contains t)).map (·.id)

/-- The tile of handle `t` of core `c` as it is freed: its units wait for the operations that name it. -/
def State.freed (s : State) (c : Nat) (t : TReg) : Zombie :=
  let d := (s.coreAt c).now.rdT t
  ⟨d.clus, d.base.toNat, d.units, d.tti.toNat, s.naming c t⟩

/-- Frees a tile of the cluster's region. -/
def State.freeClus (s : State) (q : Nat) (z : Zombie) : State :=
  let k := s.clusterAt q
  s.setCluster q { k with zombies := z :: k.zombies }

/-- A change of tile-table entry `i` of its cluster by core `c`, which a rollback takes back (R223). -/
def State.noteTile (s : State) (c i : Nat) : State :=
  let e := SMap.get {} (s.clusterAt (clusterOfCore c)).tt i
  s.onCoreAt c (fun x => { x with tiles := (i, e) :: x.tiles })

/-- Frees the tile of handle `t` of core `c` (R221). -/
def State.tfree (s : State) (c : Nat) (t : TReg) : State :=
  let d := (s.coreAt c).now.rdT t
  let z := s.freed c t
  if !d.valid then s
  else if d.clus then (s.noteTile c z.tti).freeClus (clusterOfCore c) z
  else s.onArchAt c (fun a => { a with zombies := z :: a.zombies })

/-- The same as an effect of operation `o`, with which the handle becomes invalid (R348). -/
def State.opFree (s : State) (o : Op) (t : TReg) : State :=
  let d := (s.coreAt o.core).now.rdT t
  let z := s.freed o.core t
  if !d.valid then s
  else
    let s := s.onOpArch o (·.wr (.t t {}))
    if d.clus then s.freeClus (clusterOfCore o.core) z
    else s.onOpArch o (fun a => { a with zombies := z :: a.zombies })

end Sys2Proof.Machine
end

