-- ==== Sys2Proof/Machine/Tensor.lean ====
section
/-!
DEFINITION. Tensor descriptors, tile tables and the addresses of elements (spec/12_movement_class.md R318 to R322), for the
engines that read them.
-/
namespace Sys2Proof.Machine
set_option Elab.async false
open Sys2Proof

/-! ## Reads of virtual memory by an engine -/

/-- A read or a write that an engine makes, as it ends: its bytes, or what holds it up. -/
inductive Got (α : Type) where
  | ok (x : α)
  | fault (t : Trap)
  | wait (why : List Nat)
deriving DecidableEq, Repr

/-- What a translation that gave no address leads to (R205, R206, R327). -/
def Xl.stop {α : Type} (x : Xl) (va : Nat) : Got α :=
  match x with
  | .fault c r => .fault (xlTrap c r va)
  | .mig => .wait [1, va / 65536]
  | .seg sg e => .wait [2, sg, e, va]
  | .ok _ _ => .wait [0]

/-- `n` bytes from virtual address `va` on, each page translated as a read; a host frame is out of reach (R203). The fuel bounds
the pages. -/
def State.vread (s : State) (w : Who) (mc key va : Nat) : Nat → Nat → Got (List Byte) × State
  | 0, _ => (.ok [], s)
  | k + 1, n =>
    if n = 0 then (.ok [], s)
    else
      let va := va % 2 ^ 72
      let h := min n (65536 - va % 65536)
      match s.xlateDo w mc key va .read with
      | (.ok host pa, s) =>
        if host then (.fault (xlTrap 33 6 va), s)
        else if s.poisoned pa h then (.fault (xlTrap 42 (s.poisonWhy pa h) va), s)
        else
          let s := (s.commitLines none pa h).viaCache pa h false
          match s.vread w mc key (va + h) k (n - h) with
          | (.ok r, s') => (.ok (rdBytes s.mem pa h ++ r), s')
          | x => x
      | (x, s) => (x.stop va, s)

/-! ## Descriptors (R318) -/

structure Tensor where
  base   : Nat
  fmt    : Nat
  rank   : Nat
  tiled  : Bool
  crc    : Bool
  trows  : Nat
  trb    : Nat
  trs    : Nat
  tcols  : Nat
  ext    : List Nat
  stride : List Nat
  ttptr  : Nat
  tiles  : Nat
deriving DecidableEq, Repr

/-- Storage unit of a tensor's format: 1 byte for T3. -/
def Tensor.u (t : Tensor) : Nat := unitBytes t.fmt
def listProd : List Nat → Nat
  | [] => 1
  | x :: r => x * listProd r
def ceilDiv (a b : Nat) : Nat := (a + b - 1) / b

/-- A descriptor as a command reads it; `none` when it is not valid (R318). -/
def tensorOf (bs : List Byte) : Option Tensor :=
  let at' (o n : Nat) : Nat := ofBytes ((bs.drop o).take n)
  let t : Tensor := {
    base := at' 0 9, fmt := at' 16 1, rank := at' 17 1, tiled := at' 18 1 == 1, crc := at' 19 1 == 1,
    trows := at' 20 2, trb := at' 22 2, trs := at' 24 4, tcols := at' 28 4,
    ext := (List.range 8).map (fun d => at' (32 + 4 * d) 4), stride := (List.range 8).map (fun d => at' (64 + 4 * d) 4),
    ttptr := at' 96 9, tiles := at' 112 4 }
  let rc := listProd (t.ext.drop 1)
  let common := at' 116 1 == 1 && at' 117 11 == 0 && at' 9 7 == 0 && at' 105 7 == 0 && decide (1 ≤ t.rank) && decide (t.rank ≤ 8)
    && decide (t.fmt ≤ 11) && decide (at' 18 1 ≤ 1) && decide (at' 19 1 ≤ 1)
    && (t.ext.take t.rank).all (fun e => decide (1 ≤ e)) && (t.ext.drop t.rank).all (fun e => e == 1)
  let tile := t.base == 0 && decide (1 ≤ t.trows) && decide (t.trows ≤ 256) && decide (1 ≤ t.trb) && decide (t.trb ≤ 4096)
    && t.trs % 64 == 0 && decide (t.trb ≤ t.trs) && decide (t.trs ≤ 65536) && decide (t.trows * t.trs ≤ 65536)
    && decide (t.tcols ≥ ceilDiv (t.ext.headD 0 * t.u) t.trb) && decide (t.tiles ≥ t.tcols * ceilDiv rc t.trows)
    && t.stride.all (· == 0)
  if common && (!t.tiled || tile) then some t else none

/-- The descriptor of tensor `n` of a micro-context, read by an engine for `w`. An invalid descriptor is `ok none`. -/
def State.tensor (s : State) (w : Who) (mc key n : Nat) : Got (Option Tensor) × State :=
  match s.vread w mc key ((s.mcAt mc).tensors.toNat + 128 * n) 3 128 with
  | (.ok bs, s) => (.ok (tensorOf bs), s)
  | (.fault t, s) => (.fault t, s)
  | (.wait w, s) => (.wait w, s)

/-! ## Tile tables (R319, R320) -/

/-- The checks of R320 on an entry that stands at physical address `at'`, and the address of the tile's first byte. -/
def tileEntryCheck (p : Part) (at' : Nat) (kind : Acc) (span e : Nat) : Xl :=
  let sh := bitsOf e 3 1 == 1
  let k := bitsOf e 4 2
  let off := 64 * bitsOf e 6 10
  let frame := bitsOf e 16 36 * 65536
  if e % 2 = 0 then (if sh then .seg (bitsOf e 52 12) at' else .fault 32 4)
  else if k ≥ 2 || off + span > 65536 || (!sh && bitsOf e 52 12 != 0) then .fault 37 4
  else if kind = .read && bitsOf e 1 1 == 0 then .fault 33 1
  else if kind != .read && sh then .fault 33 4
  else if kind != .read && bitsOf e 2 1 == 0 then .fault 33 2
  else if sh then (if p.active && p.grants.getLsbD (bitsOf e 52 12) then .ok false (frame + off) else .fault 38 1)
  else
    match p.privMap frame with
    | none => .fault 34 1
    | some pa => if spaceOf (pa + off) = some k then .ok false (pa + off) else .fault 37 4

/-- Key under which a tile-table entry is cached (R204, R320). -/
def tileVpn (va : Nat) : Nat := 2 ^ 80 + va / 8

/-- A cached entry is one of a tile table (R320); the page that holds it or that it maps (R453); its SH. -/
def TlbEntry.isTile (e : TlbEntry) : Bool := decide (2 ^ 80 ≤ e.vpn)
def TlbEntry.page (e : TlbEntry) : Nat := if e.isTile then (e.vpn - 2 ^ 80) / 8192 else e.vpn
def TlbEntry.shared (e : TlbEntry) : Bool := bitsOf e.leaf (if e.isTile then 3 else 8) 1 == 1

/-- The first byte of tile `i` of a tiled tensor, and its entry: the read of the entry, its checks, and the choice between
a cached old entry and the new one (R204). -/
def State.tileAddr (s : State) (w : Who) (mc key : Nat) (t : Tensor) (i : Nat) (kind : Acc) : Got (Nat × Nat) × State :=
  let va := (t.ttptr + 8 * i) % 2 ^ 72
  match s.xlateDo w mc key va .read with
  | (.ok true _, s) => (.fault (xlTrap 33 6 va), s)
  | (.ok false pa, s) =>
    if s.poisoned pa 8 then (.fault (xlTrap 42 (s.poisonWhy pa 8) va), s)
    else
    let s := (s.commitLines none pa 8).viaCache pa 8 false
    let now := rdNum s.mem pa 8
    let use := match s.staleUse w mc key (tileVpn va) (fun o => o.leaf == now) with
      | some o => o.leaf
      | none => now
    match tileEntryCheck (s.partOfMc mc) pa kind (t.trows * t.trs) use with
    | .ok _ a => (.ok (a, use), s.fillTlb w mc key (tileVpn va) use pa)
    | x => (x.stop va, s)
  | (x, s) => (x.stop va, s)

/-! ## Coordinates (R321, R322) -/

/-- Mixed radix coordinates of a flat index over the extents; the quotient left over is added to the last one (DEDUCED, log 42). An extent
of 0, which a handle with RB below its unit has, counts as 1 (DESIGN CHOICE, log 138). -/
def coordsOf : List Nat → Nat → List Nat
  | [], _ => []
  | [e], x => [x % max e 1 + x / max e 1]
  | e :: r, x => x % (max e 1) :: coordsOf r (x / (max e 1))

/-- The flat row of the coordinates from dimension 1 on (R319). -/
def rowOf : List Nat → List Nat → Nat
  | c :: cs, e :: es => c + e * rowOf cs es
  | _, _ => 0

def dot : List Nat → List Nat → Nat
  | a :: as, b :: bs => a * b + dot as bs
  | _, _ => 0

/-- A coordinate lies at or beyond its extent. -/
def isEdge : List Nat → List Nat → Bool
  | c :: cs, e :: es => decide (e ≤ c) || isEdge cs es
  | _, _ => false

/-- Where the `u` bytes of an element start: a virtual address (LAYOUT 0) or a byte of a tile (LAYOUT 1). -/
inductive Place where
  | linear (va : Nat)
  | tile (i off : Nat)
deriving DecidableEq, Repr

def Tensor.place (t : Tensor) (c : List Nat) : Place :=
  if t.tiled then
    let row := rowOf (c.drop 1) (t.ext.drop 1)
    let b := c.headD 0 * t.u
    .tile (row / t.trows * t.tcols + b / t.trb) (row % t.trows * t.trs + b % t.trb)
  else .linear ((t.base + t.u * dot c t.stride) % 2 ^ 72)

end Sys2Proof.Machine
end

