-- ==== Sys2Proof/Machine/Record.lean ====
section
/-!
DEFINITION. Progress records (spec/15_traps.md R416): their bytes, from work in flight and from operations to re-issue.
-/
namespace Sys2Proof.Machine
set_option Elab.async false
open Sys2Proof

/-- The syllable word and the extension of an instruction. -/
def sylWords (i : Instr) : Nat × Nat × Bool :=
  match encode i with
  | [w] => (w.toNat, 0, false)
  | w :: e :: _ => (w.toNat, e.toNat, true)
  | [] => (0, 0, false)

/-- A pass as it is recorded: the word read, with FS = 0 (R416). -/
def fixWord (w : BitVec 16) : Instr → Instr
  | .mmul g z a b c _ => .mmul g z a b c ⟨0, 0, w⟩
  | .mmulw g z a b c _ => .mmulw g z a b c ⟨0, 0, w⟩
  | .mmulwT g z a b c _ => .mmulwT g z a b c ⟨0, 0, w⟩
  | .mspec g z a b c _ => .mspec g z a b c ⟨0, 0, w⟩
  | i => i

/-- A record of 64 bytes: KIND, SLOT, FAULTED, INDEX, the instruction, and bytes 16 on. -/
def recBytes (kind slot : Nat) (faulted : Bool) (index : Nat) (i : Option Instr) (body : List Byte) : List Byte :=
  let (w, e, x) := match i with
    | some i => sylWords i
    | none => (0, 0, false)
  toBytes 1 kind ++ toBytes 1 slot ++ toBytes 1 ((if faulted then 1 else 0) + (if x then 2 else 0)) ++ toBytes 1 0
    ++ toBytes 4 index ++ toBytes 4 w ++ toBytes 4 e ++ body ++ List.replicate (48 - body.length) 0

/-- CODE offset of a bundle (R149). -/
def State.codeOffset (s : State) (mc : Nat) (va : VAddr) : Nat :=
  (va.toNat + 2 ^ 72 - (s.mcAt mc).codebase.toNat) % 2 ^ 32

/-! ## Code addresses (R28, R29, R149) -/

/-- A 32-bit word of code at a virtual address, through the instruction path, without effects. -/
def State.peekCode (s : State) (mc key va : Nat) : Option Nat :=
  match (s.xlate (s.fetcher s.cur) mc key va .execute).1 with
  | .ok host pa => some (rdNum (if host then s.host else s.mem) pa 4)
  | _ => none

def lineEnd : Nat := 0xFFF00000

/-- Words of a bundle with header `h` (R27, R28). -/
def bundleWords (h : Nat) : Nat := 1 + popCount 8 (bitsOf h 0 8) + popCount 8 (bitsOf h 8 8)

/-- The address of the bundle found at `va` in fetch order: line-end markers are skipped (R29). -/
def State.skipMarkers (s : State) (mc va : Nat) : Nat → Nat
  | 0 => va
  | k + 1 => if s.peekCode mc 0 va = some lineEnd then s.skipMarkers mc ((va / 64 + 1) * 64 % 2 ^ 72) k else va

/-- What bounds the line-end markers that one fetch passes over: the lines of the whole address space (R29). -/
def fetchFuel : Nat := 2 ^ 66

/-- The bundle that follows, in fetch order, the bundle at `va`, when that bundle can be read. -/
def State.bundleAfter? (s : State) (mc va : Nat) : Option Nat :=
  let a := s.skipMarkers mc va fetchFuel
  (s.peekCode mc 0 a).map (fun h => s.skipMarkers mc ((a + 4 * bundleWords h) % 2 ^ 72) fetchFuel)

/-- The bundle that follows, in fetch order, the bundle at `va`. -/
def State.bundleAfter (s : State) (mc va : Nat) : Nat :=
  (s.bundleAfter? mc va).getD (s.skipMarkers mc va fetchFuel)

/-- Byte offset from CODEBASE (R149 CODEOFF). -/
def State.codeOff (s : State) (mc va : Nat) : Nat := (va + 2 ^ 72 - (s.mcAt mc).codebase.toNat) % 2 ^ 72

/-! ## Records of work -/

/-- A re-issue record (KIND 6). -/
def State.recReissue (s : State) (mc slot : Nat) (faulted : Bool) (index : Nat) (i : Instr) (addr : VAddr)
    (crc : Nat) (ops : List Nat) (aux : Nat) : List Byte :=
  recBytes 6 slot faulted index (some i) (toBytes 4 (s.codeOffset mc addr) ++ toBytes 4 crc
    ++ toBytes 8 (ops.getD 0 0) ++ toBytes 8 (ops.getD 1 0) ++ toBytes 8 (ops.getD 2 0) ++ toBytes 8 (ops.getD 3 0)
    ++ toBytes 8 aux)

/-- The record of an X stream (KIND 5). -/
def State.recX (s : State) (mc : Nat) (faulted : Bool) (index : Nat) (x : XStream) : List Byte :=
  recBytes 5 5 faulted index (some x.instr) (toBytes 4 (s.codeOffset mc x.addr) ++ toBytes 4 x.age ++ toBytes 8 x.sx.toNat)

/-- OP0 to OP3 and AUX of an operation (table "Re-issue operands"). `x` of a scalar access holds the effective address, the
data and s[d] of a CAS; of an MMULW the word, s[b], HOLD and FOLDSCOPE; of C and Q commands s[x], s[y], s[w] and, for SQATT,
the operand block. -/
def Op.operands (o : Op) : List Nat × Nat :=
  let x (i : Nat) : Nat := o.x.getD i 0
  match o.kind with
  | .scalar =>
    match o.instr with
    | .sta .. => ([x 0 % 2 ^ 64, x 0 / 2 ^ 64, x 1 % 2 ^ 64, x 1 / 2 ^ 64], 0)
    | _ => ([x 0 % 2 ^ 64, x 0 / 2 ^ 64, x 1, x 2], 0)
  | .waited => ([x 1, 0, 0, 0], x 2 % 4096 + 65536 * (x 3 % 2))
  | .copy =>
    match o.instr with
    | .ring .. => ([x 0, x 1, x 2, 0], o.rtc)
    | _ => ([x 0, x 1, x 2, 0], o.count)
  | .seq =>
    match o.instr with
    -- x: s[x], s[x+1], s[y], s[w], s[x+2], s[x+3]
    | .sqatt .. => ([x 2, x 3, x 4, x 5], x 0 / 2 ^ 63 % 2 * 2 ^ 63 + x 0 % 2 ^ 18 * 2 ^ 16 + x 1 % 2 ^ 16)
    | _ => ([x 0, x 1, x 2, 0], 0)
  | _ => ([], 0)

/-- The query that the save area of a record keeps (R405). -/
def Op.save (o : Op) : List Byte :=
  match o.instr with
  | .sqatt .. => o.dat
  | _ => []

/-- The re-issue record of an operation. -/
def State.recOp (s : State) (o : Op) (faulted : Bool) : List Byte :=
  let (ops, aux) := o.operands
  s.recReissue o.mc o.slot faulted o.index (fixWord (BitVec.ofNat 16 (o.x.getD 0 0)) o.instr) o.addr o.crc ops aux

/-- A fault of work that is no counted operation (R266, R302), taken at the next bundle boundary. -/
def State.lateWork (s : State) (c : Nat) (id issued slot : Nat) (t : Trap) (image : List Byte) : State :=
  s.onCoreAt c (fun x => { x with late := x.late ++ [⟨id, issued, slot, t.cause, t.reason, t.data, t.va.getD 0, image, t.bank⟩] })

/-- The mask register that VX names (R247). -/
def vxMask : Option VX → KReg
  | some x => x.sub.truncate 3
  | none => 0

/-- The registers that a syllable of slot V or M reads and that its record has no place for: of S, of K and of V (R416). -/
def operandRegs : Instr → List SReg × List KReg × List VReg
  | .vld _ v _ x vx => ([x], [vxMask vx], [v])
  | .vldx _ v _ x vx => ([], [vxMask vx], [v, x])
  | .mrdv _ _ _ y => ([y], [], [])
  | .mrd _ _ _ y _ => ([y], [], [])
  | _ => ([], [], [])
/-- Their values, and the registers with those values back. -/
def Arch.operandVals (a : Arch) (i : Instr) : List Nat :=
  let (s, k, v) := operandRegs i
  s.map (fun r => (a.rdS r).toNat) ++ k.map (fun r => (a.rdK r).toNat) ++ v.map (fun r => (a.rdV r).toNat)
def Arch.withOperands (a : Arch) (i : Instr) (x : List Nat) : Arch :=
  let (s, k, v) := operandRegs i
  let ws : List RegWrite := s.zipIdx.map (fun e => .s e.1 (BitVec.ofNat 64 (x.getD e.2 0)))
    ++ k.zipIdx.map (fun e => .k e.1 (BitVec.ofNat 64 (x.getD (s.length + e.2) 0)))
    ++ v.zipIdx.map (fun e => .v e.1 (BitVec.ofNat 2048 (x.getD (s.length + k.length + e.2) 0)))
  ws.foldl Arch.wr a

/-- A late fault of the syllable at issue, whose result is withheld (R428). The Shepherd keeps its operands for the re-issue (R416; DESIGN
CHOICE, log 13). -/
def State.readFault (s : State) (slot : Nat) (i : Instr) (t : Trap) : State :=
  let id := s.nextOp
  let c := s.core
  let o : Op := { id := id, kind := .tile, instr := i, core := s.cur, mc := c.mc, bind := c.bind, fslot := c.fslot, slot := slot,
                  addr := c.now.pc, x := c.now.operandVals i }
  let s' := s.onCont (contKey c.mc c.fslot) (fun y => { y with ops := y.ops ++ [o] })
  { s' with nextOp := id + 1 }.lateWork s.cur id id slot t (s.recReissue c.mc slot true 0 i c.now.pc 0 [] 0)

end Sys2Proof.Machine
end

