-- ==== Sys2Proof/Machine/Transcend.lean ====
section
/-!
DEFINITION. The correctly rounded transcendental functions of R107 and R108. The exact value is irrational
except in the special cases, so an interval around an approximation decides the one rounding; the interval is
narrowed until its two ends round alike.
-/
namespace Sys2Proof.Machine
set_option Elab.async false
open Sys2Proof

/-- Sum of `z^(2i+1)/(2i+1)` in fixed point with `P` fraction bits, from term `i`. -/
def atanhGo (P : Nat) (z2 : Nat) : Nat → Nat → Nat → Nat
  | 0, _, _ => 0
  | k + 1, i, t => t / (2 * i + 1) + atanhGo P z2 k (i + 1) (t * z2 / 2 ^ P)

/-- atanh(num / den) in fixed point, for num / den at most 1/3. -/
def atanhFix (P num den : Nat) : Nat :=
  let z := num * 2 ^ P / den
  atanhGo P (z * z / 2 ^ P) (P / 3 + 4) 0 z

/-- ln 2 in fixed point (error below 2^10 units of the last place). -/
def ln2Fix (P : Nat) : Nat := 2 * atanhFix P 1 3

/-- Sum of `r^n / n!` from term `n`, for a fixed-point `r` in [0, 1). -/
def expGo (P r : Nat) : Nat → Nat → Nat → Nat
  | 0, _, _ => 0
  | k + 1, n, t => t + expGo P r k (n + 1) (t * r / 2 ^ P / (n + 1))

/-- e^r in fixed point for `r` in [0, 1), fixed point. -/
def expFix (P r : Nat) : Nat := expGo P r (P / 3 + 12) 0 (2 ^ P)

/-- An interval `[lo, hi] / 2^P * 2^k` of positive numbers. -/
structure Ival where
  lo : Nat
  hi : Nat
  P  : Nat
  k  : Int
deriving DecidableEq, Repr

/-- e^x for a dyadic `x`, `|x| < 2^11`, with `P` working bits. The error is taken as 2^16 units of the last
place, above the sum of the truncations of the series, of ln 2 times k (|k| < 2^12) and of the products. -/
def expIval (P : Nat) (neg : Bool) (m : Nat) (e : Int) : Ival :=
  let (a, b) := scale2 (m * 2 ^ P) 1 e
  let x : Int := dyInt neg (a / b)
  let l : Int := ln2Fix P
  let k := x / l
  let r := (x % l).toNat
  let v := expFix P r
  ⟨v - 2 ^ 16, v + 2 ^ 16, P, k⟩

/-- 2^x for a dyadic `x`, `|x| < 2^11`. -/
def exp2Ival (P : Nat) (neg : Bool) (m : Nat) (e : Int) : Ival :=
  let (a, b) := scale2 (m * 2 ^ P) 1 e
  let x : Int := dyInt neg (a / b)
  let one : Int := (2 ^ P : Nat)
  let k := x / one
  let f := (x % one).toNat
  let v := expFix P (f * ln2Fix P / 2 ^ P)
  ⟨v - 2 ^ 16, v + 2 ^ 16, P, k⟩

/-- |log2 (m * 2^e)| for a number that is no power of two, and the sign of the logarithm. -/
def log2Ival (P : Nat) (m : Nat) (e : Int) : Bool × Ival :=
  let lg := Nat.log2 m
  let k : Int := (lg : Int) + e
  -- m / 2^lg = 1 + f, ln (1+f) = 2 atanh (f / (2 + f))
  let d := 2 ^ lg
  let y : Nat := 2 * atanhFix P (m - d) (m + d)
  let frac : Nat := y * 2 ^ P / ln2Fix P
  let v : Int := k * ((2 ^ P : Nat) : Int) + frac
  (decide (k < 0), ⟨v.natAbs - 2 ^ 16, v.natAbs + 2 ^ 16, P, 0⟩)

/-- Rounds an interval of irrational numbers; the ends are taken with a sticky half, so that an end that is a
representable number never looks exact. `none` when the ends round differently. -/
def roundIval (F : FFmt) (rm : Rm) (sat neg : Bool) (iv : Ival) : Option (Nat × Flags) :=
  let e : Int := iv.k - iv.P - 1
  let a := F.round rm sat (.fin neg (2 * iv.lo + 1) 1 e)
  let b := F.round rm sat (.fin neg (2 * iv.hi + 1) 1 e)
  if a = b then some a else none

/-- Tries growing precisions. `f P` gives the interval at `P` working bits. -/
def narrow (F : FFmt) (rm : Rm) (sat neg : Bool) (f : Nat → Ival) (fn key : Nat) : Nat → Nat → Nat × Flags
  | 0, _ => (Config.undecided fn key % 2 ^ F.width, fNX)
  | k + 1, P =>
    match roundIval F rm sat neg (f P) with
    | some r => r
    | none => narrow F rm sat neg f fn key k (2 * P)

/-- A value beyond every format: positive, huge or tiny. -/
def hugeEx : Ex := .fin false 3 2 5000
def tinyEx : Ex := .fin false 3 2 (-5000)

/-- The magnitude of a finite value is 2^10 or more. -/
def isBig (m : Nat) (e : Int) : Bool := decide ((Nat.log2 m : Int) + e ≥ 10)

/-- e^x rounded once (R107 VEXP). -/
def expRound (F : FFmt) (rm : Rm) (sat : Bool) (x : FVal) : Nat × Flags :=
  match x with
  | .nan s => F.round rm sat (.nan s)
  | .inf n => F.round rm sat (if n then .zero false else .inf false false)
  | .zero _ => F.round rm sat (.fin false 1 1 0)
  | .fin n m e =>
    if isBig m e then F.round rm sat (if n then tinyEx else hugeEx)
    else narrow F rm sat false (fun P => expIval P n m e) 0 (2 * m + (if n then 1 else 0)) 4 128

/-- 2^x rounded once (R107 VEXP2). -/
def exp2Round (F : FFmt) (rm : Rm) (sat : Bool) (x : FVal) : Nat × Flags :=
  match x with
  | .nan s => F.round rm sat (.nan s)
  | .inf n => F.round rm sat (if n then .zero false else .inf false false)
  | .zero _ => F.round rm sat (.fin false 1 1 0)
  | .fin n m e =>
    let (a, b) := scale2 m 1 e
    if isBig m e then F.round rm sat (if n then tinyEx else hugeEx)
    else if a % b = 0 then F.round rm sat (.fin false 1 1 (dyInt n (a / b)))
    else narrow F rm sat false (fun P => exp2Ival P n m e) 1 (2 * m + (if n then 1 else 0)) 4 128

/-- log2 x rounded once (R107 VLOG2). -/
def log2Round (F : FFmt) (rm : Rm) (sat : Bool) (x : FVal) : Nat × Flags :=
  match x with
  | .nan s => F.round rm sat (.nan s)
  | .inf true => F.round rm sat (.nan true)
  | .inf false => F.round rm sat (.inf false false)
  | .zero _ => F.round rm sat (.inf true true)
  | .fin true _ _ => F.round rm sat (.nan true)
  | .fin false m e =>
    let k : Int := (Nat.log2 m : Int) + e
    if m = 2 ^ Nat.log2 m then F.round rm sat (FVal.ofInt k).toEx
    else narrow F rm sat (log2Ival 128 m e).1 (fun P => (log2Ival P m e).2) 2 m 4 128

/-- VSIGM (R108). -/
def sigmRound (F : FFmt) (rm : Rm) (sat : Bool) (x : FVal) : Nat × Flags :=
  if x.isNaN then F.round rm sat x.toEx
  else
    let (e, f1) := expRound .fp32 rm false (x.abs.negate)
    let ev := FFmt.fp32.decode e
    let (d, f2) := FFmt.fp32.round rm false (addV rm (.fin false 1 0) ev)
    let dv := FFmt.fp32.decode d
    let ge0 := match x with
      | .zero _ => true
      | x => !x.neg?
    let (y, f3) := F.round rm sat (divEx (if ge0 then .fin false 1 0 else ev) dv)
    (y, f1 ||| f2 ||| f3)

/-- -2 * |x|, exactly. -/
def neg2abs (x : FVal) : FVal :=
  match x with
  | .nan s => .nan s
  | .inf _ => .inf true
  | .zero _ => .zero true
  | .fin _ m e => .fin true m (e + 1)

/-- VTANH (R108). -/
def tanhRound (F : FFmt) (rm : Rm) (sat : Bool) (x : FVal) : Nat × Flags :=
  if x.isNaN then F.round rm sat x.toEx
  else
    let (e, f1) := expRound .fp32 rm false (neg2abs x)
    let ev := FFmt.fp32.decode e
    let (n, f2) := FFmt.fp32.round rm false (addV rm (.fin false 1 0) ev.negate)
    let (d, f3) := FFmt.fp32.round rm false (addV rm (.fin false 1 0) ev)
    let (y, f4) := F.round rm sat (divEx (FFmt.fp32.decode n) (FFmt.fp32.decode d))
    let y := y % F.signBit + (if x.neg? then F.signBit else 0)
    (y, f1 ||| f2 ||| f3 ||| f4)

end Sys2Proof.Machine
end

