-- ==== Sys2Proof/Machine/XMath.lean ====
section
/-!
DEFINITION. The arithmetic of the transform class (spec/11_transform_class.md R303 to R311): conversion of rows, ZB64
groups (R97), transposition and the discrete Fourier transform, on bytes.
-/
namespace Sys2Proof.Machine
set_option Elab.async false
open Sys2Proof

/-! ## Bytes as elements -/

/-- Bytes `lo` to `lo + n - 1` of a list; zeros beyond its end. -/
def cutBytes (bs : List Byte) (lo n : Nat) : List Byte :=
  let x := (bs.drop lo).take n
  x ++ List.replicate (n - x.length) 0
/-- Element `e` of `u` bytes. -/
def elemAt (bs : List Byte) (u e : Nat) : Nat := ofBytes (cutBytes bs (e * u) u)

/-- Conversion between the pairs of VCVT (R241, R305): codes up to 8, and CB16 with CF32 part by part. -/
def convAny (src dst : Nat) (rm : Rm) (sat : Bool) (x : Nat) : Nat × Flags :=
  if src = 10 && dst = 11 then
    let (r, f) := convElem 2 0 rm sat (x % 2 ^ 16)
    let (i, h) := convElem 2 0 rm sat (x / 2 ^ 16 % 2 ^ 16)
    (r + i * 2 ^ 32, f ||| h)
  else if src = 11 && dst = 10 then
    let (r, f) := convElem 0 2 rm sat (x % 2 ^ 32)
    let (i, h) := convElem 0 2 rm sat (x / 2 ^ 32 % 2 ^ 32)
    (r + i * 2 ^ 16, f ||| h)
  else convElem src dst rm sat x

/-- The pairs that XCVT and VCVT convert: any of codes 0 to 8 to any other of them, and CB16 with CF32 (R241, R305). -/
def cvtPair (src dst : Nat) : Bool :=
  (src != dst && src ≤ 8 && dst ≤ 8) || (src == 10 && dst == 11) || (src == 11 && dst == 10)

/-- XCVT of one row (R305). -/
def cvtRow (src dst rbs rbd : Nat) (sat : Bool) (bs : List Byte) : List Byte :=
  let us := unitBytes src
  let ud := unitBytes dst
  (List.range (min (rbs / us) (rbd / ud))).flatMap (fun e => toBytes ud (convAny src dst .rne sat (elemAt bs us e)).1)

/-! ## ZB64 groups (R97, R307, R308) -/

/-- The bitmap of 64 units of `u` bytes. -/
def zbMap (u : Nat) (bs : List Byte) : Nat :=
  (List.range 64).foldl (fun t i => t + (if elemAt bs u i = 0 then 0 else 2 ^ i)) 0

/-- The group of 64 units in `G` bytes; `none` when it does not fit. -/
def zbPack (u G : Nat) (bs : List Byte) : Option (List Byte) :=
  let m := zbMap u bs
  let body := (List.range 64).flatMap (fun i => if m.testBit i then cutBytes bs (i * u) u else [])
  let x := toBytes 8 m ++ body
  if x.length > G then none else some (x ++ List.replicate (G - x.length) 0)

/-- The 64 units of a group, or the reason why it is malformed: the lowest that holds (DEDUCED, log 86). -/
def zbUnpack (u G : Nat) (bs : List Byte) : Except Nat (List Byte) :=
  let m := ofBytes (bs.take 8)
  let n := popCount 64 m
  if 8 + u * n > G then .error 1
  else if (List.range n).any (fun i => ofBytes (cutBytes bs (8 + i * u) u) == 0) then .error 2
  else if ofBytes (cutBytes bs (8 + n * u) (G - 8 - n * u)) != 0 then .error 3
  else .ok ((List.range 64).flatMap (fun i =>
    if m.testBit i then cutBytes bs (8 + u * popCount i m) u else List.replicate u 0))

/-! ## Cosines

`cos (2 pi j / b)` for `j < b / 4` are linearly independent over the rationals for `b` a power of two, so a sum of them
with integer coefficients is rational exactly when every coefficient but that of `j = 0` is zero. -/

/-- Sum of the alternating series of arctan(1/d), from term `i`. -/
def atanInvGo (d : Nat) : Nat → Nat → Nat → Int
  | 0, _, _ => 0
  | k + 1, i, t =>
    let v : Int := (t / (2 * i + 1) : Nat)
    (if i % 2 = 0 then v else -v) + atanInvGo d k (i + 1) (t / (d * d))

/-- pi in fixed point with `P` fraction bits (Machin). -/
def piFix (P : Nat) : Int :=
  16 * atanInvGo 5 (P / 4 + 4) 0 (2 ^ P / 5) - 4 * atanInvGo 239 (P / 4 + 4) 0 (2 ^ P / 239)

/-- Sum of the cosine series from term `2 i` on. -/
def cosGo (P : Nat) (x2 : Nat) : Nat → Nat → Nat → Int
  | 0, _, _ => 0
  | k + 1, i, t =>
    (if i % 2 = 0 then (t : Int) else -(t : Int)) + cosGo P x2 k (i + 1) (t * x2 / 2 ^ P / ((2 * i + 1) * (2 * i + 2)))

/-- cos (2 pi j / b) in fixed point for `j < b / 4`, within 2^16 units of the last place. -/
def cosFix (P b j : Nat) : Int :=
  if j = 0 then ((2 ^ P : Nat) : Int)
  else
    let x := (2 * piFix P * (j : Int) / (b : Int)).toNat
    cosGo P (x * x / 2 ^ P) (P / 4 + 8) 0 (2 ^ P)

/-- Phase `p` of `b`: the basis index of its cosine and its sign, or nothing for a zero. -/
def phase (b p : Nat) : Option (Nat × Bool) :=
  let q := p % b
  let q := if q > b / 2 then b - q else q
  if 4 * q = b then none else if 4 * q > b then some (b / 2 - q, true) else some (q, false)

/-- The coefficients of a sum of `x * cos (2 pi p / b)` over the basis. -/
def coefs (b : Nat) (terms : List (Nat × Int)) : List Int :=
  (List.range (b / 4)).map (fun i => terms.foldl (fun t y =>
    match phase b y.1 with
    | some (j, neg) => if j = i then (if neg then t - y.2 else t + y.2) else t
    | none => t) 0)

/-- The interval of the sum at `P` bits: its centre and its radius. -/
def cosSum (P b : Nat) (c : List Int) : Int × Nat :=
  c.zipIdx.foldl (fun t y => (t.1 + y.1 * cosFix P b y.2, t.2 + y.1.natAbs * 2 ^ 16)) (0, 0)

def cosNarrow (F : FFmt) (b : Nat) (c : List Int) (e : Int) (key : Nat) : Nat → Nat → Nat
  | 0, _ => Config.undecided 9 key % 2 ^ F.width
  | k + 1, P =>
    let (x, r) := cosSum P b c
    if x.natAbs ≤ r then cosNarrow F b c e key k (2 * P)
    else
      match roundIval F .rne false (decide (x < 0)) ⟨x.natAbs - r, x.natAbs + r, P, e⟩ with
      | some y => y.1
      | none => cosNarrow F b c e key k (2 * P)

/-- A sum of cosines times 2^e rounded once to nearest (R310); an exact zero is +0. -/
def roundCos (F : FFmt) (b : Nat) (terms : List (Nat × Int)) (e : Int) : Nat :=
  let c := coefs b terms
  match c with
  | [] => 0
  | c0 :: rest =>
    if rest.all (· == 0) then (F.round .rne false (Ex.ofInt c0 e false)).1
    else cosNarrow F b c e (c.foldl (fun t x => 3 * t + x.natAbs) b) 8 256

/-! ## The transform (R310, R311) -/

/-- A finite value times 2^149. -/
def fixInt (v : FVal) : Option Int :=
  match v with
  | .zero _ => some 0
  | .fin n m e => some (dyInt n (m * 2 ^ (e + 149).toNat))
  | _ => none

def allSome {α : Type} : List (Option α) → Option (List α)
  | [] => some []
  | none :: _ => none
  | some x :: r => (allSome r).map (x :: ·)

/-- Bytes of a complex element of code 10 or 11 from the bits of its parts. -/
def cpxBytes (c re im : Nat) : List Byte := let u := unitBytes c / 2; toBytes u re ++ toBytes u im
/-- The format of the parts. -/
def partFmt (c : Nat) : FFmt := if c = 10 then .bf16 else .fp32

/-- The spectrum of a real block: its `b / 2` slots (R309, R310). -/
def dftBlock (dst b : Nat) (x : Option (List Int)) : List Byte :=
  let F := partFmt dst
  match x with
  | none => (List.range (b / 2)).flatMap (fun _ => cpxBytes dst F.nan F.nan)
  | some x =>
    let terms (k sh : Nat) (neg : Bool) : List (Nat × Int) :=
      x.zipIdx.map (fun y => (y.2 * k + sh, if neg then -y.1 else y.1))
    (List.range (b / 2)).flatMap (fun k =>
      if k = 0 then cpxBytes dst (roundCos F b (terms 0 0 false) (-149)) (roundCos F b (terms (b / 2) 0 false) (-149))
      else cpxBytes dst (roundCos F b (terms k 0 false) (-149)) (roundCos F b (terms k (3 * b / 4) true) (-149)))

/-- The block of a spectrum: its `b` values. `none` among the inputs makes the block NaN. -/
def idftBlock (F : FFmt) (b : Nat) (x : Option (List (Int × Int))) : List Byte :=
  let u := F.width / 8
  match x with
  | none => (List.range b).flatMap (fun _ => toBytes u F.nan)
  | some x =>
    (List.range b).flatMap (fun n => toBytes u (roundCos F b (x.zipIdx.flatMap (fun y =>
      if y.2 = 0 then [(0, y.1.1), (n * (b / 2), y.1.2)]
      else [(n * y.2, 2 * y.1.1), (n * y.2 + 3 * b / 4, -2 * y.1.2)])) (-149 - (Nat.log2 b : Int))))

/-- XDFT of one row: what is written from byte 0 of the destination row on. -/
def dftRow (src dst b q0 rbs rbd : Nat) (bs : List Byte) : List Byte :=
  let us := unitBytes src
  let F := (ffmtOf src).getD .fp32
  let nb := min (rbs / us / b - q0) (rbd / unitBytes dst / (b / 2))
  (List.range nb).flatMap (fun q =>
    dftBlock dst b (allSome ((List.range b).map (fun n => fixInt (F.decode (elemAt bs us ((q0 + q) * b + n)))))))

/-- XIDFT of one row; `slots` is the number of slots that the source row holds. -/
def idftRow (src dst b s0 slots rbd : Nat) (bs : List Byte) : List Byte :=
  let P := partFmt src
  let F := (ffmtOf dst).getD .fp32
  let u := unitBytes src / 2
  let nb := min ((slots - s0) / (b / 2)) (rbd / unitBytes dst / b)
  let pairOf (i : Nat) : Option (Int × Int) :=
    match fixInt (P.decode (elemAt bs u (2 * i))), fixInt (P.decode (elemAt bs u (2 * i + 1))) with
    | some r, some m => some (r, m)
    | _, _ => none
  (List.range nb).flatMap (fun q =>
    idftBlock F b (allSome ((List.range (b / 2)).map (fun s => pairOf (s0 + q * (b / 2) + s)))))

end Sys2Proof.Machine
end

