-- ==== Sys2Proof/Machine/Engine.lean ====
section
/-!
DEFINITION. What the engines of a core do in each cycle: deterministic passes (R258, R265, R266), readouts (R270), X streams
(R297 to R302), and what a waited pass does at its completion (R268, R286 to R289). A cycle reads before anything lands in
it (R232).
-/
namespace Sys2Proof.Machine
set_option Elab.async false
open Sys2Proof

/-! ## Tiles -/

/-- Bytes of a row, zeros outside the tile. -/
def State.tileSlice (s : State) (c : Nat) (d : TDesc) (row lo n : Nat) : List Byte :=
  let h := if row < d.rows then min n (d.rb - lo) else 0
  s.tileRd c d row lo h ++ List.replicate (n - h) 0

/-- All bytes of a tile by row. -/
def State.tileTable (s : State) (c : Nat) (d : TDesc) : SMap Byte :=
  if d.clus then (List.range d.rows).foldl (fun m r => putRow m r (s.tileRd c d r 0 d.rb)) []
  else
    let b := 4096 * d.base.toNat
    ((s.coreAt c).now.priv.filter (fun e => decide (b ≤ e.1) && decide ((e.1 - b) / d.rs < d.rows) && decide ((e.1 - b) % d.rs < d.rb))).map
      (fun e => (rowKey ((e.1 - b) / d.rs) ((e.1 - b) % d.rs), e.2))

/-- The tile-table entry of a CLUS handle names the binding (R219). -/
def State.clusOk (s : State) (c mc bind : Nat) (d : TDesc) : Bool :=
  !d.clus || (let e := SMap.get {} (s.clusterAt (clusterOfCore c)).tt d.tti.toNat
    e.live && e.mc == mc && e.bind == bind && e.base == d.base.toNat)

/-- An uncorrectable word among bytes of a row (R428): the cause of the syllable that reads them. -/
def State.tileBad (s : State) (c : Nat) (d : TDesc) (row lo n : Nat) : Option Trap :=
  let h := if row < d.rows then min n (d.rb - lo) else 0
  if d.clus then (badUnit (s.clusterAt (clusterOfCore c)).bad (d.clusAddr row lo) h).map (fun a =>
    { cause := 42, reason := 2, data := BitVec.ofNat 32 a })
  else (badUnit (s.coreAt c).now.badPriv (d.privAddr row lo) h).map (fun a => { cause := 42, reason := 3, data := BitVec.ofNat 32 a })

/-- The same among all bytes of a tile. -/
def State.allBad (s : State) (c : Nat) (d : TDesc) : Option Trap := (List.range d.rows).findSome? (fun r => s.tileBad c d r 0 d.rb)

/-- An uncorrectable word of an accumulator, as a cause (R428). -/
def accTrap (a : Option Nat) : Option Trap := a.map (fun a => { cause := 42, reason := 4, data := BitVec.ofNat 32 a })

/-- Undo entries of bytes of a CLUS tile that a core writes on the TILE path (R422). -/
def State.undoClus (s : State) (c addr n : Nat) : State :=
  let q := clusterOfCore c
  s.onCoreAt c (fun x => { x with undo := undoOf (s.clusterAt q).clus (some q) addr n ++ x.undo })

/-- Writes bytes of a row, none outside the tile. A write to PRIV goes with slot `slot` into the writes of the cycle (R233), or
at once when `now'` holds; a write to CLUS is tentative until the core's next checkpoint when `tent` holds. -/
def State.tilePut (s : State) (c slot : Nat) (tent now' : Bool) (d : TDesc) (row lo : Nat) (bs : List Byte) : State :=
  let bs := if row < d.rows then bs.take (d.rb - lo) else []
  if bs.isEmpty then s
  else if d.clus then (if tent then s.undoClus c (d.clusAddr row lo) bs.length else s).tileWr c d row lo bs
  else if now' then s.tileWr c d row lo bs
  else s.onArchAt c (fun a => { a with pw := a.pw ++ [⟨slot, d.privAddr row lo, bs⟩] })

/-! ## Counted tile accesses (R250, R270) -/

/-- The lanes of a vector value that a mask names, the others from `old`. -/
def maskLanes (k : Nat) (new old : List Byte) : List Byte :=
  (List.range 64).flatMap (fun i => cutBytes (if k.testBit i then new else old) (4 * i) 4)

/-- Bytes of a v register, lane 0 first. -/
def vBytes (v : VWord) : List Byte := toBytes 256 v.toNat
def vOfBytes (bs : List Byte) : VWord := BitVec.ofNat 2048 (ofBytes bs)

/-- Row and word offset of lane `i` of an index register (R249). -/
def laneIndex (x : List Byte) (i : Nat) : Nat × Nat :=
  let w := ofBytes (cutBytes x (4 * i) 4)
  (bitsOf w 10 8, 4 * bitsOf w 0 10)

/-- The window that VLD reads (R248), and the words that VLDX gathers (R249): of a word that straddles RB, the bytes inside the tile
(DESIGN CHOICE, log 131). -/
def State.tileWindow (s : State) (c : Nat) (d : TDesc) (row off : Nat) : List Byte := s.tileSlice c d row off 256
def State.tileGather (s : State) (c : Nat) (d : TDesc) (x : List Byte) : List Byte :=
  (List.range 64).flatMap (fun i => s.tileSlice c d (laneIndex x i).1 (laneIndex x i).2 4)

/-- The writes of VST and of VSTX, active lanes only, a higher lane after a lower one (R248, R249); of a word that straddles RB, the bytes
inside the tile (DESIGN CHOICE, log 131). -/
def State.tileStore (s : State) (c : Nat) (tent : Bool) (d : TDesc) (row off k : Nat) (bs : List Byte) : State :=
  if k = 2 ^ 64 - 1 then s.tilePut c 3 tent false d row off bs
  else ((List.range 64).filter (fun i => k.testBit i)).foldl (fun s i =>
    s.tilePut c 3 tent false d row (off + 4 * i) (cutBytes bs (4 * i) 4)) s
def State.tileScatter (s : State) (c : Nat) (tent : Bool) (d : TDesc) (x : List Byte) (k : Nat) (bs : List Byte) : State :=
  ((List.range 64).filter (fun i => k.testBit i)).foldl (fun s i =>
    s.tilePut c 3 tent false d (laneIndex x i).1 (laneIndex x i).2 (cutBytes bs (4 * i) 4)) s

/-- An uncorrectable word in a lane that a load reads (R428). -/
def State.lanesBad (s : State) (c : Nat) (d : TDesc) (k : Nat) (at' : Nat → Nat × Nat) : Option Trap :=
  ((List.range 64).filter (fun i => k.testBit i)).findSome? (fun i => s.tileBad c d (at' i).1 (at' i).2 4)
/-- The same for VLD, whose lanes are the words of a window, and for VLDX. -/
def State.windowBad (s : State) (c : Nat) (d : TDesc) (row off k : Nat) : Option Trap :=
  s.lanesBad c d k (fun i => (row, off + 4 * i))
def State.gatherBad (s : State) (c : Nat) (d : TDesc) (x : List Byte) (k : Nat) : Option Trap := s.lanesBad c d k (laneIndex x)

/-- The handle of a counted tile access, with its descriptor. -/
def Op.tile (o : Op) : TDesc := (o.hs.headD (0, {})).2

/-- The writes of a counted store to a CLUS tile, in order: row, byte and bytes, none across a 64-byte unit of the row (R248 to R250, R270).
`x` holds the row, the offset and the mask; `dat` the value to store, then the index register; for an MRD the rows, of which `st` gives
the number, the bytes of each and the DOMAIN tag. -/
def Op.tileWrites (o : Op) : List (Nat × Nat × List Byte) :=
  let x (i : Nat) : Nat := o.x.getD i 0
  let lanes := (List.range 64).filter (fun i => (x 2).testBit i)
  match o.instr with
  | .vst .. => lanes.map (fun i => (x 0, x 1 + 4 * i, cutBytes o.dat (4 * i) 4))
  | .vstx .. => lanes.map (fun i =>
    ((laneIndex (o.dat.drop 256) i).1, (laneIndex (o.dat.drop 256) i).2, cutBytes o.dat (4 * i) 4))
  | .mrd .. =>
    let n := o.st.getD 1 0
    (List.range (o.st.getD 0 0)).flatMap (fun i => (List.range ((n + 63) / 64)).map (fun j =>
      (i, 64 * j, cutBytes o.dat (i * n + 64 * j) (min 64 (n - 64 * j)))))
  | _ => []

/-- The writes of such an operation that go together: those from `index` on that lie in one 64-byte unit (R250) (DESIGN CHOICE, log 119). -/
def Op.unitWrites (o : Op) : List (Nat × Nat × List Byte) :=
  match o.tileWrites.drop o.index with
  | [] => []
  | w :: r =>
    let u (y : Nat × Nat × List Byte) : Nat := o.tile.clusAddr y.1 y.2.1 / 64
    w :: r.takeWhile (fun y => u y == u w)

/-- One unit of a counted store, and its end with the last one. -/
def State.tileUnit (s : State) (o : Op) (slot : Nat) (fin : State → State) : State :=
  let tent := s.onItsCore o && decide ((s.coreAt o.core).savedOp ≤ o.id)
  let ws := o.unitWrites
  let s := ws.foldl (fun s w => s.tilePut o.core slot tent true o.tile w.1 w.2.1 w.2.2) s
  if o.tileWrites.length ≤ o.index + ws.length then fin s else s.setOp { o with index := o.index + ws.length }

/-- A step of a V syllable's access to a CLUS tile, or of an MRD to one (R219, R250, R270): a load as a whole, a store by its 64-byte
units. `dat` of a load holds the destination's old value, then the index register. -/
def State.tileRun (s : State) (o : Op) : State :=
  let d := o.tile
  let row := o.x.getD 0 0
  let off := o.x.getD 1 0
  let k := o.x.getD 2 0
  let a := o.dat.take 256
  let b := o.dat.drop 256
  if !s.clusOk o.core o.mc o.bind d then s.lateOp o { cause := 40, reason := 2, data := BitVec.ofNat 32 (o.hs.headD (0, {})).1.toNat }
  else
    match o.instr with
    | .vld _ v _ _ _ =>
      (match s.windowBad o.core d row off k with
       | some t => s.lateOp o t
       | none => (s.writeDest o (.v v (vOfBytes (maskLanes k (s.tileWindow o.core d row off) a)))).finishOp o)
    | .vldx _ v _ _ _ =>
      (match s.gatherBad o.core d b k with
       | some t => s.lateOp o t
       | none => (s.writeDest o (.v v (vOfBytes (maskLanes k (s.tileGather o.core d b) a)))).finishOp o)
    | .vst .. => s.tileUnit o 3 (·.finishOp o)
    | .vstx .. => s.tileUnit o 3 (·.finishOp o)
    | .mrd _ _ t _ _ => s.tileUnit o 4 (fun s => (s.writeTag o t (o.st.getD 2 0 == 1)).finishOp o)
    | _ => s

/-- All that is left of such an access. -/
def State.tileWhole (s : State) (id : Nat) : Nat → State
  | 0 => s
  | k + 1 =>
    match s.opAt id with
    | some o => if o.faulted then s else (s.tileRun o).tileWhole id k
    | none => s

/-- Counted accesses to the CLUS tile `tti` that the continuation issued before number `id` (R358). -/
def State.tileOps (s : State) (mc fs id tti : Nat) : List Op :=
  s.ops.filter (fun o => o.mc == mc && o.fslot == fs && decide (o.id < id)
    && (o.kind == .tile || o.kind == .readout) && !o.faulted && o.hs.any (fun h => h.2.clus && h.2.tti.toNat == tti))
/-- Before an access of fixed latency with number `id` to `n` bytes of a row, which cannot wait: the counted accesses of the
continuation to the tile that came before it are performed (R358), and every other core that has tentative bytes there takes
its checkpoint (R423; DESIGN CHOICE, log 24). -/
def State.settleClus (s : State) (c id : Nat) (d : TDesc) (row lo n : Nat) : State :=
  if d.clus then
    let x := s.coreAt c
    let s := (s.tileOps x.mc x.fslot id d.tti.toNat).foldl (fun s o => s.tileWhole o.id (o.tileWrites.length + 1)) s
    s.commitBut c (some (clusterOfCore c)) (d.clusAddr row lo) n
  else s

/-- The end of a cycle in PRIV: the write of the highest slot remains (R233). -/
def Arch.landPriv (a : Arch) : Arch :=
  let of (k : Nat) : List PrivWrite := a.pw.filter (fun w => w.slot == k)
  let ws := of 3 ++ of 4 ++ of 5
  { a with priv := ws.foldl (fun m w => wrBytes m w.addr w.bytes) a.priv, pw := [],
           badPriv := ws.foldl (fun l w => unpoison l w.addr w.bytes.length) a.badPriv }

/-! ## Deterministic passes -/

def Pass.input (p : Pass) : PassIn :=
  { word := p.word, spec := p.spec, r := p.rows, n := p.cols, k := p.depth,
    ka := if p.spec then kOf 10 false p.mov.rb else kOf (wordAF p.word) (wordASC p.word) p.mov.rb,
    A := p.movD, B := p.stat }

/-- The row of the moving operand that a pass reads in the present cycle (R258). -/
def Pass.rowNow (p : Pass) : Option Nat :=
  if p.img.isNone && decide (64 * p.m ≤ p.age) && (p.age - 64 * p.m) % p.m == 0
      && decide ((p.age - 64 * p.m) / p.m < p.rows)
  then some ((p.age - 64 * p.m) / p.m) else none

/-- A pass whose landing is withheld (R428): a late fault, the pass is recorded to re-issue. -/
def State.passFault (s : State) (c : Nat) (p : Pass) (t : Trap) : State :=
  (s.onArchAt c (fun a => { a with passes := a.passes.filter (·.id != p.id) })).lateWork c p.id p.id 4 t
    (s.recReissue (s.coreAt c).mc 4 true 0 (fixWord p.word p.instr) p.addr 0 [] 0)

def State.passReads (s : State) (c : Nat) : State :=
  let ps := (s.coreAt c).now.passes
  ps.foldl (fun s p =>
    match p.rowNow with
    | none => s
    | some i =>
      let s := s.settleClus c p.id p.mov i 0 p.mov.rb
      match s.tileBad c p.mov i 0 p.mov.rb with
      | some t => s.passFault c p t
      | none =>
        let bs := s.tileRd c p.mov i 0 p.mov.rb
        s.onArchAt c (fun a => { a with passes := a.passes.map (fun x =>
          if x.id = p.id then { x with movD := putRow x.movD i bs } else x) })) s

/-- The pass has found an ill-formed T3 byte at the end of its load (R266). -/
def Pass.badNow (p : Pass) : Bool :=
  p.img.isNone && p.age + 1 == 64 * p.m && wordBF p.word == 9 && !p.spec && badTrit p.stat p.cols p.depth

/-- One pass at the end of a cycle. -/
def Arch.passEnd (a : Arch) (p : Pass) : Arch :=
  if p.age + 1 < p.lat then { a with passes := a.passes ++ [{ p with age := p.age + 1 }] }
  else
    match p.img with
    | some (m, f) => (a.zSet p.z m).setZflag p.z f
    | none => a.landPass p.z p.acc p.spec p.input

/-- The passes of a core at the end of a cycle, in issue order (R262). TRAPINFO.DATA of BAD_TRIT is the CODE offset of the issue bundle
(R266, R420; DEDUCED, log 139). -/
def State.passLands (s : State) (c : Nat) : State :=
  let x := s.coreAt c
  let s := s.onArchAt c (fun a => { a with passes := [], occ := a.occ - 1 })
  x.now.passes.foldl (fun s p =>
    if p.badNow then
      let s := s.onArchAt c (fun a => { a.setZflag p.z { a.zflag p.z with valid := false } with occ := 0 })
      s.lateWork c p.id p.id 4 { cause := 49, reason := 0, data := BitVec.ofNat 32 (s.codeOffset x.mc p.addr) } (s.recReissue x.mc 4 true 0 (fixWord p.word p.instr) p.addr 0 [] 0)
    else
      match (if p.img.isNone && p.acc && decide (p.lat ≤ p.age + 1) then accTrap ((s.coreAt c).now.accBad p.z) else none) with
      | some t => s.passFault c p t
      | none => s.onArchAt c (·.passEnd p)) s

/-! ## Readouts (R270) -/

/-- An exact dyadic result as a value. -/
def Ex.toV : Ex → FVal
  | .nan s => .nan s
  | .inf n _ => .inf n
  | .zero n => .zero n
  | .fin n m _ e => if m = 0 then .zero n else .fin n m e

/-- What an MRD reads its elements with: the destination's format, SAT, INT, RELU and the adapter's scale and offset. -/
structure MrdOpt where
  fmt  : Nat
  sat  : Bool
  int  : Bool
  relu : Bool
deriving DecidableEq, Repr

/-- ReLU on the bits of a converted element. -/
def reluBits (c x : Nat) : Nat :=
  match ffmtOf c with
  | some F => match F.decode x with
    | .nan _ => x
    | v => if v.neg? then 0 else x
  | none => if intElem c x < 0 then 0 else x

/-- One element of an MRD: its bits, and whether the conversion sets SAT. -/
def mrdElem (o : MrdOpt) (epi : Option (Nat × Nat)) (x : Nat) : Nat × Bool :=
  let v : FVal := if o.int then FVal.ofInt (toSigned 32 x) else FFmt.fp32.decode x
  let (y, fl) := match epi with
    | some (sc, off) =>
      let e := fmaEx .rne v (FFmt.fp32.decode sc) (FFmt.fp32.decode off)
      (match ffmtOf o.fmt with
       | some F => F.round .rne o.sat e
       | none =>
         let (lo, hi) := intRange o.fmt
         let (i, fl) := toIntF .rne lo hi e.toV
         (truncInt (8 * unitBytes o.fmt) i, fl))
    | none => convElem (if o.int then 8 else 0) o.fmt .rne o.sat x
  let y := if o.relu then reluBits o.fmt y else y
  (y, (fl &&& (fOF ||| fSV)) != 0 || ((ffmtOf o.fmt).isNone && (fl &&& fNV) != 0))

/-- An element of accumulator `z`. -/
def Arch.zElem (a : Arch) (z row col : Nat) : Nat := (SMap.get 0 a.z (z * 32768 + row * 256 + col)).toNat

/-- CF32 with the NaN of each part canonical (R92). -/
def cpxCanon (v : Nat) : Nat :=
  let part (x : Nat) : Nat := if (FFmt.fp32.decode x).isNaN then FFmt.fp32.nan else x
  part (v % 2 ^ 32) + part (v / 2 ^ 32) * 2 ^ 32

/-- The rows that an MRD writes from byte 0 on, and whether SAT is set. -/
def State.mrdImage (s : State) (c z : Nat) (d : TDesc) (e : Option TDesc) (x : Option MrdX) (row0 col0 : Nat) :
    List (List Byte) × Bool :=
  let a := (s.coreAt c).now
  let spec := (a.zflag z).spectral
  let fmt := d.fmt.toNat
  let u := unitBytes fmt
  let rm := min d.rows (128 - row0)
  let em := min (d.rb / u) ((if spec then 128 else 256) - col0)
  let o : MrdOpt := ⟨fmt, (x.map (·.sat)).getD 0 == 1, (x.map (·.int)).getD 0 == 1, (x.map (·.relu)).getD 0 == 1⟩
  let el (r j : Nat) : Nat × Bool :=
    if spec then
      let v := a.zElem z (row0 + r) (2 * (col0 + j)) + a.zElem z (row0 + r) (2 * (col0 + j) + 1) * 2 ^ 32
      if fmt = 11 then (cpxCanon v, false)
      else
        let (y, fl) := convAny 11 fmt .rne o.sat v
        (y, (fl &&& (fOF ||| fSV)) != 0)
    else
      let epi := e.map (fun t => (ofBytes (s.tileSlice c t 0 (4 * (col0 + j)) 4), ofBytes (s.tileSlice c t 1 (4 * (col0 + j)) 4)))
      mrdElem o epi (a.zElem z (row0 + r) (col0 + j))
  let rows := (List.range rm).map (fun r => (List.range em).map (fun j => el r j))
  (rows.map (fun r => r.flatMap (fun x => toBytes u x.1)), rows.any (fun r => r.any (·.2)))

/-- The readouts of a core at the end of a cycle: the bytes that land join the writes of the cycle with slot 4 (R270). -/
def State.readLands (s : State) (c : Nat) : State :=
  let x := s.coreAt c
  let s := s.onArchAt c (fun a => { a with reads := [], mport := a.mport - 1 })
  x.now.reads.foldl (fun s r =>
    if 1 < r.remain then s.onArchAt c (fun a => { a with reads := a.reads ++ [{ r with remain := r.remain - 1 }] })
    else
      let s := (List.range r.rows).foldl (fun s i =>
        s.tilePut c 4 true false r.dst i 0 (rdBytes r.data (rowKey i 0) r.rbytes)) s
      s.onArchAt c (fun a => { a with fly := a.fly ++ [⟨1, 4, r.seq, 0, .dom r.t r.spectral⟩] })) s

/-! ## X streams -/

/-- Beat size at a tile (R297). -/
def TDesc.beat (d : TDesc) : Nat := if d.clus then 64 else 256
def XStream.ws (x : XStream) : Nat := if x.zsrc.isSome then 1024 else x.src.beat

/-- Bytes of row `row` of the source, from `lo` on. -/
def State.xSource (s : State) (c : Nat) (x : XStream) (row lo n : Nat) : List Byte :=
  match x.zsrc with
  | none => s.tileSlice c x.src row lo n
  | some z =>
    if row < 128 then
      cutBytes ((List.range 256).flatMap (fun col => toBytes 4 ((s.coreAt c).now.zElem z row col))) lo n
    else List.replicate n 0

/-- Row, offset and length of the source bytes of step `k`. -/
def XStream.range (x : XStream) (k : Nat) : Nat × Nat × Nat :=
  match x.op with
  | .fill => (0, 0, 0)
  | .cmp u _ g => (x.srow + k / g, 64 * u * (k % g), 64 * u)
  | .exp _ G g => (x.srow + k / g, G * (k % g), G)
  | _ => (x.srow + k, 0, if x.zsrc.isSome then 1024 else x.src.rb)

/-- What step `k` writes, from the bytes that it read, or its cause (R303 to R311) (DEDUCED, log 21). -/
def XStream.result (x : XStream) (k : Nat) (bs : List Byte) : List (Nat × Nat × List Byte) × Option (Nat × Nat) :=
  match x.op with
  | .move => ([(x.drow + k, 0, bs.take (min x.src.rb x.dst.rb))], none)
  | .fill => ([(x.drow + k, 0, (List.range x.dst.rb).map (fun i => BitVec.ofNat 8 (x.sx.toNat / 2 ^ (8 * (i % 4)))))], none)
  | .cvt sat => ([(x.drow + k, 0, cvtRow x.src.fmt.toNat x.dst.fmt.toNat x.src.rb x.dst.rb sat bs)], none)
  | .cmp u G g =>
    match zbPack u G bs with
    | some y => ([(x.drow + k / g, G * (k % g), y)], none)
    | none => ([], some (58, 1))
  | .exp u G g =>
    match zbUnpack u G bs with
    | .ok y => ([(x.drow + k / g, 64 * u * (k % g), y)], none)
    | .error r => ([], some (59, r))
  | .dft b => ([(x.drow + k, 0, dftRow x.src.fmt.toNat x.dst.fmt.toNat b x.aux x.src.rb x.dst.rb bs)], none)
  | .idft b =>
    let f := if x.zsrc.isSome then 11 else x.src.fmt.toNat
    let slots := if x.zsrc.isSome then 128 else x.src.rb / unitBytes f
    ([(x.drow + k, 0, idftRow f x.dst.fmt.toNat b x.aux slots x.dst.rb bs)], none)
  | .trn u m =>
    ((List.range m).map (fun j => (x.drow + j, 0, (List.range x.nrow).flatMap (fun i => cutBytes bs (i * (m * u) + j * u) u))), none)

/-- Cycles in which a stream reads. -/
def XStream.reads (x : XStream) : Nat := (x.steps - x.base) * x.st

/-- Cycles for which the streams of a core still occupy its X unit (R298). -/
def Arch.xBusyFor (a : Arch) : Nat := (a.xs.filter (fun x => !x.bad)).foldl (fun n x => max n (x.reads - x.age)) 0

/-- An uncorrectable word in what a beat reads, as cause, reason and TRAPINFO.DATA (R428). -/
def State.xBad (s : State) (c : Nat) (x : XStream) (row lo n : Nat) : Option (Nat × Nat × Nat) :=
  let t := match x.zsrc with
    | none => s.tileBad c x.src row lo n
    | some z => if row < 128 then accTrap (badUnit (s.coreAt c).now.badAcc (accAddr z row 0 + lo) n) else none
  t.map (fun t => (t.cause, t.reason, t.data.toNat))

/-- The read of one beat in the present cycle, and the end of a step. -/
def State.xRead (s : State) (c : Nat) (x : XStream) : State × XStream :=
  if x.off || x.reads ≤ x.age || decide (x.age < x.read) then (s, x)
  else
    let k := x.base + x.age / x.st
    let j := x.age % x.st
    let (row, lo, n) := match x.op with
      | .trn u m =>
        let per := ceilDiv (m * u) x.ws
        if per = 0 || x.nrow * per ≤ j then (0, 0, 0)
        else (x.srow + j / per, x.aux * u + j % per * x.ws, min x.ws (m * u - j % per * x.ws))
      | _ =>
        let (row, lo, len) := x.range k
        (row, lo + j * x.ws, min x.ws (len - j * x.ws))
    let s := if x.zsrc.isNone && n > 0 then s.settleClus c x.id x.src row lo n else s
    let x := { x with buf := x.buf ++ (if n = 0 then [] else s.xSource c x row lo n), hit := x.hit.or (s.xBad c x row lo n) }
    if j + 1 < x.st then (s, x)
    else if x.bad then (s, { x with buf := [], hit := none })
    else
      let (ws, fault) := x.result k x.buf
      let fault := x.hit.or (fault.map (fun f => (f.1, f.2, k)))
      (s, { x with buf := [], hit := none, bad := fault.isSome,
                   pend := x.pend ++ [⟨x.d + 1, k, ws, fault, k + 1 == x.steps⟩] })

def State.xReads (s : State) (c : Nat) : State :=
  let xs := (s.coreAt c).now.xs
  let r := xs.foldl (fun (t : State × List XStream) x => let (s, y) := t.1.xRead c x; (s, t.2 ++ [y])) (s, [])
  r.1.onArchAt c (fun a => { a with xs := r.2 })

/-- The tag that the stream leaves in its destination (R299). -/
def XStream.tag (x : XStream) : Option Bool :=
  match x.op with
  | .fill => none
  | .dft _ => some true
  | .idft _ => some false
  | .trn .. => some false
  | _ => some x.src.spectral

/-- The landing of a step; `now'` when a freeze settles it (R301). -/
def State.xPendLand (s : State) (c : Nat) (now' : Bool) (x : XStream) (p : XPend) : State :=
  match p.fault with
  | some (cause, r, n) =>
    let mc := (s.coreAt c).mc
    s.lateWork c x.id x.id 5 { cause := cause, reason := r, data := BitVec.ofNat 32 n } (s.recX mc true p.k x)
  | none =>
    let s := p.writes.foldl (fun s w =>
      (s.settleClus c x.id x.dst w.1 w.2.1 w.2.2.length).tilePut c 5 true now' x.dst w.1 w.2.1 w.2.2) s
    match x.tag with
    | some d =>
      if !p.lastk then s
      else s.onArchAt c (fun a => if now' then a.wr (.dom x.dreg d) else { a with fly := a.fly ++ [⟨1, 5, x.seq, 0, .dom x.dreg d⟩] })
    | none => s

/-- The X streams of a core at the end of a cycle. -/
def State.xLands (s : State) (c : Nat) : State :=
  let xs := (s.coreAt c).now.xs
  let s := s.onArchAt c (fun a => { a with xs := [] })
  xs.foldl (fun s x =>
    let due := x.pend.filter (fun p => p.remain ≤ 1)
    let rest := (x.pend.filter (fun p => 1 < p.remain)).map (fun p => { p with remain := p.remain - 1 })
    let s := due.foldl (fun s p => s.xPendLand c false x p) s
    let y := { x with age := x.age + 1, pend := rest }
    if due.any (fun p => p.fault.isSome) then s
    else if y.reads ≤ y.age && rest.isEmpty then s
    else s.onArchAt c (fun a => { a with xs := a.xs ++ [y] })) s

/-! ## A cycle -/

/-- What the engines of a core read in the present cycle. -/
def State.enginesRead (s : State) (c : Nat) : State := (s.passReads c).xReads c

/-- What lands at the end of the cycle in tiles, handles and accumulators. -/
def State.enginesLand (s : State) (c : Nat) : State :=
  (((s.readLands c).xLands c).passLands c).onArchAt c Arch.landPriv

end Sys2Proof.Machine
end

