-- ==== Sys2Proof/Machine/Reach.lean ====
section
/-!
DEFINITION. The accesses of the copy engines and sequence units (spec/12_movement_class.md R319 to R322, R334; spec/13_memory_model.md
R352 to R360): where an element lies, the pieces of memory or of tiles that an access touches, and its reads and writes.
-/
namespace Sys2Proof.Machine
set_option Elab.async false
open Sys2Proof

/-! ## Pieces -/

inductive Space where
  | mem | host | priv | clus
deriving DecidableEq, Repr

/-- Bytes that an access touches in one space: physical or host addresses, byte offsets of a core's PRIV, addresses of the
cluster's tile-handle region. -/
structure Piece where
  sp   : Space
  addr : Nat
  n    : Nat
deriving DecidableEq, Repr

def Piece.meets (a b : Piece) : Bool := a.sp == b.sp && decide (a.addr < b.addr + b.n) && decide (b.addr < a.addr + a.n)

/-- Where the bytes of an access start: a row of a tile, a virtual address, or a byte of a tile of a tiled tensor. -/
inductive Loc where
  | tile (r : TReg) (d : TDesc) (row lo : Nat)
  | virt (va : Nat)
  | ttile (t : Tensor) (i off : Nat)
deriving DecidableEq, Repr

/-- The pieces of `n` bytes of a row, as far as they lie in the tile. -/
def tilePieces (d : TDesc) (row lo n : Nat) : List Piece :=
  let h := if row < d.rows then min n (d.rb - lo) else 0
  if h = 0 then []
  else if d.clus then [⟨.clus, d.clusAddr row lo, h⟩] else [⟨.priv, d.privAddr row lo, h⟩]

/-- The pieces of `n` bytes of virtual memory on the COPY path, which reaches host frames (R203). -/
def State.virtPieces (s : State) (o : Op) (kind : Acc) : Nat → Nat → Nat → Got (List Piece) × State
  | 0, _, _ => (.ok [], s)
  | k + 1, va, n =>
    if n = 0 then (.ok [], s)
    else
      let va := va % 2 ^ 72
      let h := min n (65536 - va % 65536)
      match s.xlateDo (s.agent o) o.mc o.id va kind with
      | (.ok host pa, s) =>
        match (if host then s.hostErr.find? (fun e => e.1 = pa / 65536) else none) with
        | some e => (.fault { cause := 43, reason := e.2 }, s)
        | none =>
          if kind == .read && !host && s.poisoned pa h then (.fault (xlTrap 42 (s.poisonWhy pa h) va), s)
          else
            match s.virtPieces o kind k (va + h) (n - h) with
            | (.ok r, s) => (.ok (⟨if host then .host else .mem, pa, h⟩ :: r), s)
            | x => x
      | (x, s) => (x.stop va, s)

/-- An uncorrectable word in pieces of tiles, for the engine that reads them (R428). -/
def State.piecesBad (s : State) (c : Nat) (ps : List Piece) : Option Trap :=
  ps.findSome? (fun p => match p.sp with
    | .priv => (badUnit (s.coreAt c).now.badPriv p.addr p.n).map (fun a => { cause := 42, reason := 3, data := BitVec.ofNat 32 a })
    | .clus => (badUnit (s.clusterAt (clusterOfCore c)).bad p.addr p.n).map (fun a =>
        { cause := 42, reason := 2, data := BitVec.ofNat 32 a })
    | _ => none)

/-- The pieces of an access of `n` bytes. -/
def State.pieces (s : State) (o : Op) (kind : Acc) (l : Loc) (n : Nat) : Got (List Piece) × State :=
  match l with
  | .tile r d row lo =>
    if !s.clusOk o.core o.mc o.bind d then (.fault { cause := 40, reason := 2, data := r.zeroExtend 32 }, s)
    else
      match (if kind == .read then s.piecesBad o.core (tilePieces d row lo n) else none) with
      | some t => (.fault t, s)
      | none => (.ok (tilePieces d row lo n), s)
  | .virt va => s.virtPieces o kind 3 va n
  | .ttile t i off =>
    match s.tileAddr (s.agent o) o.mc o.id t i kind with
    | (.ok (pa, _), s) =>
      if kind == .read && s.poisoned (pa + off) n then (.fault (xlTrap 42 (s.poisonWhy (pa + off) n) ((t.ttptr + 8 * i) % 2 ^ 72)), s)
      else (.ok [⟨.mem, pa + off, n⟩], s)
    | (.fault t, s) => (.fault t, s)
    | (.wait w, s) => (.wait w, s)

/-- The writers of tentative bytes in the lines of pieces take their checkpoints (R423). -/
def State.commitPieces (s : State) (q : Nat) : List Piece → State
  | [] => s
  | p :: r =>
    match p.sp with
    | .mem => (s.commitLines none p.addr p.n).commitPieces q r
    | .clus => (s.commitLines (some q) p.addr p.n).commitPieces q r
    | _ => s.commitPieces q r

/-- Reads of pieces in pages of host bias go over CXL.cache (R456). -/
def State.cachePieces (s : State) (ps : List Piece) : State :=
  (ps.filter (fun p => p.sp == .mem)).foldl (fun s p => s.viaCache p.addr p.n false) s

/-- The bytes of pieces. -/
def State.readPiece (s : State) (c : Nat) (p : Piece) : List Byte :=
  match p.sp with
  | .mem => rdBytes s.mem p.addr p.n
  | .host => rdBytes s.host p.addr p.n
  | .priv => rdBytes (s.coreAt c).now.priv p.addr p.n
  | .clus => rdBytes (s.clusterAt (clusterOfCore c)).clus p.addr p.n
def State.readPieces (s : State) (c : Nat) (l : List Piece) : List Byte := l.flatMap (s.readPiece c)

/-- A write of an engine for operation `o`: memory takes the timestamp of R355, PRIV also stands in the checkpoint (DESIGN CHOICE, log 25). -/
def State.writePiece (s : State) (o : Op) (p : Piece) (bs : List Byte) : Nat × State :=
  match p.sp with
  | .mem => s.wrMem o.pts p.addr bs
  | .host => (0, { s with host := wrBytes s.host p.addr bs })
  | .priv => (0, s.onOpArch o (fun a => { a with priv := wrBytes a.priv p.addr bs, badPriv := unpoison a.badPriv p.addr bs.length }))
  | .clus =>
    let q := clusterOfCore o.core
    let x := s.clusterAt q
    (0, s.setCluster q { x with clus := wrBytes x.clus p.addr bs, bad := unpoison x.bad p.addr bs.length })

/-- Writes bytes over pieces, in order; the largest timestamp taken. -/
def State.writePieces (s : State) (o : Op) : List Piece → List Byte → Nat × State
  | [], _ => (0, s)
  | p :: r, bs =>
    let (t, s) := s.writePiece o p (bs.take p.n)
    let (t', s) := s.writePieces o r (bs.drop p.n)
    (max t t', s)

/-- Writes of operation `o`, with what R355 and R361 make of its continuation's PTS and of the releases that wait for it: the operation
with the largest timestamp. -/
def State.opWrite (s : State) (o : Op) (l : List Piece) (bs : List Byte) : Op × State :=
  let (t, s) := s.writePieces o l bs
  ({ o with ts := max o.ts t }, s.wrote o t)

/-! ## Accesses on the NET path (R203, R483) -/

/-- The pieces of virtual memory that no host frame may hold; the pipeline's translations are cached apart from the clusters'. -/
def State.netPieces (s : State) (mc key : Nat) (kind : Acc) : Nat → Nat → Nat → Got (List Piece) × State
  | 0, _, _ => (.ok [], s)
  | k + 1, va, n =>
    if n = 0 then (.ok [], s)
    else
      let va := va % 2 ^ 72
      let h := min n (65536 - va % 65536)
      match s.xlateDo Who.net mc key va kind with
      | (.ok true _, s) => (.fault (xlTrap 33 6 va), s)
      | (.ok false pa, s) =>
        match s.netPieces mc key kind k (va + h) (n - h) with
        | (.ok r, s) => (.ok (⟨.mem, pa, h⟩ :: r), s)
        | x => x
      | (x, s) => (x.stop va, s)

/-- A read of the NET path for micro-context `mc`; `key` is the operation at work, 0 for none. -/
def State.netRead (s : State) (mc key va n : Nat) : Got (List Byte) × State := s.vread Who.net mc key va 4 n

/-- A write of the NET path with timestamp `p`: the largest timestamp taken. -/
def State.netWrite (s : State) (mc key p va : Nat) (bs : List Byte) : Got Nat × State :=
  match s.netPieces mc key .write 4 va bs.length with
  | (.ok ps, s) =>
    let r := ps.foldl (fun (t : Nat × List Byte × State) e =>
      let (a, b) := t.2.2.wrMem p e.addr (t.2.1.take e.n)
      (max t.1 a, t.2.1.drop e.n, b)) (0, bs, s.commitPieces 0 ps)
    (.ok r.1, r.2.2)
  | (.fault t, s) => (.fault t, s)
  | (.wait w, s) => (.wait w, s)

/-! ## Rows of tiles (R343 to R347) -/

/-- The byte ranges of rows `row` on: row, offset and length of `n` bytes that start at byte `lo` of the row and run through
whole rows. -/
def rowRuns (rb : Nat) : Nat → Nat → Nat → Nat → List (Nat × Nat × Nat)
  | 0, _, _, _ => []
  | k + 1, row, lo, n =>
    if n = 0 then []
    else
      let h := min n (rb - lo)
      (row, lo, h) :: rowRuns rb k (row + 1) 0 (n - h)

/-- The pieces and the bytes of such a run; bytes beyond the last row read as zero. -/
def runPieces (d : TDesc) (row lo n : Nat) : List Piece :=
  (rowRuns d.rb (n + 1) row lo n).flatMap (fun e => tilePieces d e.1 e.2.1 e.2.2)
def State.runBytes (s : State) (c : Nat) (d : TDesc) (row lo n : Nat) : List Byte :=
  (rowRuns d.rb (n + 1) row lo n).flatMap (fun e => s.tileSlice c d e.1 e.2.1 e.2.2)

/-! ## Endpoints (R321) -/

inductive Endp where
  | handle (r : TReg) (d : TDesc)
  | tens (t : Tensor)
deriving DecidableEq, Repr

def Endp.fmt : Endp → Nat
  | .handle _ d => d.fmt.toNat
  | .tens t => t.fmt
def Endp.u (e : Endp) : Nat := unitBytes e.fmt
/-- The extents of an endpoint's dimensions. -/
def Endp.ext : Endp → List Nat
  | .handle _ d => [d.rb / unitBytes d.fmt.toNat, d.rows]
  | .tens t => t.ext.take t.rank

/-- The element at coordinates; `none` for an edge element (R322). -/
def Endp.at' (e : Endp) (c : List Nat) : Option Loc :=
  if isEdge c e.ext then none
  else
    match e with
    | .handle r d => some (.tile r d (c.getD 1 0) (c.headD 0 * e.u))
    | .tens t => match t.place c with
      | .linear va => some (.virt va)
      | .tile i off => some (.ttile t i off)

/-- Adds box coordinates to an origin, dimension by dimension. -/
def addCoords : List Nat → List Nat → List Nat
  | x :: r, y :: t => (x + y) :: addCoords r t
  | l, [] => l
  | [], _ => []

/-- Fields of an endpoint word. -/
def endOrigin (w : Nat) : Nat := bitsOf w 16 44
def endNum (w : Nat) : Nat := bitsOf w 0 12
def endHandle (w : Nat) : Bool := bitsOf w 62 2 == 1
/-- A reserved bit, or a KIND that names nothing. -/
def endBad (w : Nat) : Bool :=
  bitsOf w 62 2 ≥ 2 || bitsOf w 60 2 != 0 || bitsOf w 12 4 != 0 || (endHandle w && bitsOf w 8 4 != 0)
def endReg (w : Nat) : TReg := BitVec.ofNat 8 w

/-- The descriptor that a handle named by `o` had at issue. -/
def Op.handle (o : Op) (r : TReg) : TDesc := ((o.hs.find? (fun h => h.1 == r)).map (·.2)).getD {}

/-! ## Commands that have started (R336, R338) -/

/-- The endpoint of operand word `i`: a handle as it stood at issue, or the descriptor that was read at the start, kept in
`dat` at 128 * i. -/
def Op.endp (o : Op) (i : Nat) : Endp :=
  let w := o.x.getD i 0
  if endHandle w then .handle (endReg w) (o.handle (endReg w))
  else
    match tensorOf (cutBytes o.dat (128 * i) 128) with
    | some t => .tens t
    | none => .handle 0 {}
def Op.boxExt (o : Op) : List Nat :=
  match tensorOf (cutBytes o.dat 256 128) with
  | some t => t.ext.take t.rank
  | none => [1]

/-- Source and destination of an element; `none` for an edge element, and for the zeros of an index out of range. -/
abbrev Move1 := Option Loc × Option Loc

/-- Element `k` of a box in canonical order (R336). -/
def Op.cpyElem (o : Op) (k : Nat) : Move1 :=
  let b := coordsOf o.boxExt k
  let d := o.endp 0
  let e := o.endp 1
  (e.at' (addCoords (coordsOf e.ext (endOrigin (o.x.getD 1 0))) b),
    d.at' (addCoords (coordsOf d.ext (endOrigin (o.x.getD 0 0))) b))

/-- The index register of GATH and SCAT, with its descriptor, and NR. -/
def Op.idxReg (o : Op) : TReg := BitVec.ofNat 8 (o.x.getD 2 0)
def Op.nrows (o : Op) : Nat := bitsOf (o.x.getD 2 0) 16 12 + 1
/-- Where index `i` stands (R338): row and byte; `none` beyond the tile's rows. -/
def Op.idxAt (o : Op) (i : Nat) : Option (Nat × Nat) :=
  let d := o.handle o.idxReg
  let per := d.rb / 4
  if per = 0 || d.rows ≤ i / per then none else some (i / per, 4 * (i % per))

/-- The command holds the aligned 64-byte unit of its index tile that holds index `i`: after the descriptors in `dat`, its number and
its bytes (R233, R334). -/
def Op.idxHeld (o : Op) (i : Nat) : Bool := (o.idxAt i).any (fun e => ofBytes (cutBytes o.dat 384 8) == 1 + 64 * e.1 + e.2 / 64)

/-- Index `i`, from the unit that has been read or as the tile holds it now; `none` out of range. -/
def State.gatherIdx (s : State) (o : Op) (i : Nat) : Option Int :=
  (o.idxAt i).map (fun e => toSigned 32 (ofBytes (
    if o.idxHeld i then cutBytes o.dat (392 + e.2 % 64) 4 else s.tileSlice o.core (o.handle o.idxReg) e.1 e.2 4)))

/-- The command reads the unit that holds index `i`. -/
def State.holdIdx (s : State) (o : Op) (i : Nat) : Op :=
  match o.idxAt i with
  | some (r, lo) =>
    { o with dat := cutBytes o.dat 0 384 ++ toBytes 8 (1 + 64 * r + lo / 64) ++ s.tileSlice o.core (o.handle o.idxReg) r (lo / 64 * 64) 64 }
  | none => o

/-- The elements of row `i` of a GATH or SCAT whose index is `r`. -/
def Op.rowMoves (o : Op) (gath : Bool) (i : Nat) (r : Option Int) : List Move1 :=
  let h := o.endp (if gath then 0 else 1)
  let t := o.endp (if gath then 1 else 0)
  let h0 := (coordsOf h.ext (endOrigin (o.x.getD (if gath then 0 else 1) 0))).getD 1 0
  let E := min (t.ext.headD 0) (h.ext.headD 0)
  let rc := listProd (t.ext.drop 1)
  let row : Option Nat := match r with
    | some v => if 0 ≤ v && v < (rc : Int) then some v.toNat else none
    | none => none
  let hl (e : Nat) : Option Loc := h.at' [e, h0 + i]
  let tl (ρ e : Nat) : Option Loc := t.at' (e :: coordsOf (t.ext.drop 1) ρ)
  match row with
  | some ρ => (List.range E).map (fun e => if gath then (tl ρ e, hl e) else (hl e, tl ρ e))
  | none => if gath then (List.range E).map (fun e => (none, hl e)) else []

/-- Elements or rows of the whole command. -/
def Op.total (o : Op) : Nat :=
  match o.instr with
  | .cpy .. => listProd o.boxExt
  | .gath .. => o.nrows
  | .scat .. => o.nrows
  | _ => 1

/-- What step `k` of a CPY, GATH or SCAT moves. -/
def State.copyMoves (s : State) (o : Op) (k : Nat) : List Move1 :=
  match o.instr with
  | .cpy .. => [o.cpyElem k]
  | .gath .. => o.rowMoves true k (s.gatherIdx o k)
  | .scat .. => o.rowMoves false k (s.gatherIdx o k)
  | _ => []

/-- The pieces of the elements of a step, sources and destinations. -/
def State.movePieces (s : State) (o : Op) (us ud : Nat) : List Move1 → Got (List (List Piece × List Piece)) × State
  | [] => (.ok [], s)
  | (a, b) :: r =>
    let get (s : State) (k : Acc) (l : Option Loc) (n : Nat) : Got (List Piece) × State :=
      match l with
      | some l => s.pieces o k l n
      | none => (.ok [], s)
    match get s .read a us with
    | (.ok x, s) =>
      match get s .write b ud with
      | (.ok y, s) =>
        match s.movePieces o us ud r with
        | (.ok l, s) => (.ok ((x, y) :: l), s)
        | z => z
      | (.fault t, s) => (.fault t, s)
      | (.wait w, s) => (.wait w, s)
    | (.fault t, s) => (.fault t, s)
    | (.wait w, s) => (.wait w, s)

/-! ## Order on a path (R358) -/

/-- All bytes of a tile. -/
def tileAll (d : TDesc) : List Piece := (List.range d.rows).flatMap (fun r => tilePieces d r 0 d.rb)

/-- Row and byte of the origin of a handle endpoint (R321, R343). -/
def Op.originAt (o : Op) (i : Nat) : Nat × Nat :=
  let e := o.endp i
  let c := coordsOf e.ext (endOrigin (o.x.getD i 0))
  (c.getD 1 0, c.headD 0 * e.u)
def Op.tileOf (o : Op) (i : Nat) : TDesc := o.handle (endReg (o.x.getD i 0))

/-- Bytes from the origin of an NRECV's destination to the tile's end (R344). -/
def Op.capacity (o : Op) : Nat :=
  let d := o.tileOf 0
  let (row, lo) := o.originAt 0
  d.rows * d.rb - (row * d.rb + lo)

/-- Rows of a Q command's tile word: the tile and the first row. -/
def Op.wordTile (o : Op) (i : Nat) : TDesc := o.handle (endReg (o.x.getD i 0))
def wordRow (w : Nat) : Nat := bitsOf w 8 8

/-- Slots of a range word, or of an extension in its place (R383, R384). -/
def rangeOf (w : Nat) (ext : Option Word32) : Nat × Nat :=
  match ext with
  | some e => (e.toNat, 1)
  | none => (bitsOf w 0 32, bitsOf w 32 12 + 1)

/-- The bytes that a counted tile access touches (R248, R249, R270). -/
def Op.tilePcs (o : Op) : List Piece :=
  let d := o.tile
  let lanes : List Piece := (List.range 64).flatMap (fun i =>
    tilePieces d (laneIndex (o.dat.drop 256) i).1 (laneIndex (o.dat.drop 256) i).2 4)
  match o.instr with
  | .vldx .. => lanes
  | .vstx .. => lanes
  | .mrd .. => tileAll d
  | _ => tilePieces d (o.x.getD 0 0) (o.x.getD 1 0) 256

/-- The bytes that an operation has still to access, in tiles and, for a C command, in memory. -/
def State.restPieces (s : State) (o : Op) : List Piece :=
  let moves : List Piece := (List.range (o.total - o.index)).flatMap (fun j =>
    match (s.movePieces o (o.endp 1).u (o.endp 0).u (s.copyMoves o (o.index + j))).1 with
    | .ok l => l.flatMap (fun e => e.1 ++ e.2)
    | _ => [])
  let rows (w r n : Nat) : List Piece :=
    (List.range n).flatMap (fun j => tilePieces (o.handle (endReg w)) (wordRow w + r + j) 0 (o.handle (endReg w)).rb)
  let w (i : Nat) : Nat := o.x.getD i 0
  if o.kind == .copy && o.aux == 0 then o.hs.flatMap (fun h => tileAll h.2)
  else
  match o.instr with
  | .cpy .. => moves
  | .gath .. => moves ++ tileAll (o.handle o.idxReg)
  | .scat .. => moves ++ tileAll (o.handle o.idxReg)
  | .cpyn .. => runPieces (o.tileOf 1) (o.originAt 1).1 (o.originAt 1).2 (bitsOf (w 2) 16 16)
  | .nrecv .. => runPieces (o.tileOf 0) (o.originAt 0).1 (o.originAt 0).2 o.capacity
  | .ring .. => tileAll (o.tileOf 0) ++ tileAll (o.tileOf 1)
  | .sqput _ _ _ _ e => rows (w 0) o.index ((rangeOf (w 2) e).2 - o.index)
  | .sqget _ _ _ _ e => rows (w 0) o.index ((rangeOf (w 2) e).2 - o.index)
  | .sqatt .. => rows (w 1) 0 1 ++ (if (w 0).testBit 63 then [] else rows (w 0) 0 1)
  | .sqmrg .. => [w 0, w 1, w 2].flatMap (fun v => rows v 0 (bitsOf (w 0) 16 8 + 1))
  | _ => if o.kind == .tile || o.kind == .readout then o.tilePcs else []

/-- Some element that the operation has still to access lies on a migrating page, so that its bytes are not known yet (R205). -/
def State.restAsleep (s : State) (o : Op) : Bool :=
  o.kind == .copy && o.aux != 0 && (List.range (o.total - o.index)).any (fun j =>
    match (s.movePieces o (o.endp 1).u (o.endp 0).u (s.copyMoves o (o.index + j))).1 with
    | .wait w => w.headD 0 == 1
    | _ => false)

/-- What a pass has still to read, and what an X stream has still to read or to land, in its tiles. -/
def Pass.restPieces (p : Pass) : List Piece :=
  let first := if p.age < 64 * p.m then 0 else (p.age - 64 * p.m + p.m - 1) / p.m
  if p.img.isSome then []
  else ((List.range p.rows).filter (fun i => decide (first ≤ i))).flatMap (fun i => tilePieces p.mov i 0 p.mov.rb)
def XStream.restPieces (x : XStream) : List Piece :=
  if x.off then []
  else
    let ks := (List.range x.steps).filter (fun k => decide (x.base + x.age / max x.st 1 ≤ k))
    let reads := if x.reads ≤ x.age || x.zsrc.isSome then [] else
      (match x.op with
       | .fill => []
       | .trn .. => tileAll x.src
       | .cmp .. => ks.flatMap (fun k => tilePieces x.src (x.range k).1 0 x.src.rb)
       | .exp .. => ks.flatMap (fun k => tilePieces x.src (x.range k).1 0 x.src.rb)
       | _ => ks.flatMap (fun k => tilePieces x.src (x.srow + k) 0 x.src.rb))
    let lands := x.pend.flatMap (fun p => p.writes.flatMap (fun w => tilePieces x.dst w.1 w.2.1 w.2.2.length))
    let more := if x.bad || x.reads ≤ x.age then [] else
      (match x.op with
       | .trn .. => tileAll x.dst
       | .cmp _ _ g => ks.flatMap (fun k => tilePieces x.dst (x.drow + k / max g 1) 0 x.dst.rb)
       | .exp _ _ g => ks.flatMap (fun k => tilePieces x.dst (x.drow + k / max g 1) 0 x.dst.rb)
       | _ => ks.flatMap (fun k => tilePieces x.dst (x.drow + k) 0 x.dst.rb))
    reads ++ lands ++ more

/-- Earlier fixed-latency work of the continuation has still to access one of the bytes. -/
def State.tileWork (s : State) (c id : Nat) (ps : List Piece) : Bool :=
  let a := (s.coreAt c).now
  let hit (l : List Piece) : Bool := l.any (fun a => ps.any (fun b => a.meets b))
  a.passes.any (fun p => decide (p.id < id) && hit p.restPieces) || a.xs.any (fun x => decide (x.id < id) && hit x.restPieces)

/-- A counted tile access waits for what was issued before it and accesses the same bytes (R250, R358): fixed-latency work here, and
operations by `pathBlocked`. -/
def State.tileBlocked (s : State) (o : Op) : Bool := o.tile.clus && s.onItsCore o && s.tileWork o.core o.id o.tilePcs

/-- Earlier work of the continuation has still to access one of the bytes: the access waits for it (R358). Of fixed-latency work only the
accesses to CLUS count; those of a core's fixed ports to PRIV are ordered by their cycles (DEDUCED, log 53). An earlier command with an element on a
migrating page keeps every later access to memory waiting (DESIGN CHOICE, log 53). -/
def State.pathBlocked (s : State) (o : Op) (ps : List Piece) : Bool :=
  s.ops.any (fun p => p.mc == o.mc && p.fslot == o.fslot && decide (p.id < o.id) && !p.faulted
    && (p.kind == .copy || p.kind == .seq || p.kind == .tile || p.kind == .readout)
    && ((s.restPieces p).any (fun a => ps.any (fun b => a.meets b)) || (ps.any (fun b => b.sp == .mem) && s.restAsleep p)))
  || (s.onItsCore o && s.tileWork o.core o.id (ps.filter (fun b => b.sp == .clus)))

end Sys2Proof.Machine
end

