-- ==== Sys2Proof/Machine/Waited.lean ====
section
/-!
DEFINITION. Waited passes (spec/09_matrix_class.md R254 to R258, R267, R268; spec/10_fold.md R278, R286, R288, R289): the stationary of
an MMULW, its turn in a share, its landing; and the cache lines that stationaries pin (R259).
-/
namespace Sys2Proof.Machine
set_option Elab.async false
open Sys2Proof

/-! ## Shares (R255, R256) -/

/-- The rate divisor of a member's share; `none` without access. -/
def PenMode.divisor (m : PenMode) (member : Nat) : Option Nat :=
  match m with
  | .sole => if member = 0 then some 1 else none
  | .pair => if member < 2 then some 2 else none
  | .quad => some 4
  | .fold => some 1

def State.penModeOf (s : State) (c : Nat) : PenMode := (s.penAt (penOfCore c)).mode
def State.divisor (s : State) (c : Nat) : Option Nat := (s.penModeOf c).divisor (c % 4)

/-- Cycles for which a pass of `r` rows occupies its share (R256). -/
def passOcc (m r : Nat) : Nat := m * (64 + r)

/-! ## Operands -/

/-- The format word of an MMULW. -/
def Op.word (o : Op) : BitVec 16 := BitVec.ofNat 16 (o.x.getD 0 0)

/-- Destination accumulator, and whether the pass accumulates. -/
def Op.zdest (o : Op) : Nat × Bool :=
  match o.instr with
  | .mmulw _ z _ _ acc _ => (z.toNat, acc == 1)
  | .mmulwT _ z _ _ acc _ => (z.toNat, acc == 1)
  | _ => (0, false)

def Op.aDesc (o : Op) : TDesc := (o.hs.headD (0, {})).2

/-- TILE_INVALID reason 2 of the handle at place `i` of an operation, with the handle's number (R219, R226). -/
def Op.goneTrap (o : Op) (i : Nat) : Trap :=
  { cause := 40, reason := 2, data := (o.hs.getD i (0, {})).1.zeroExtend 32 }

/-- Cause 55 with reason 3 (R267). -/
def badStat : Trap := { cause := 55, reason := 3 }

/-- K beyond the array for a stationary row of `rb` bytes (R254). -/
def depthBad (w : BitVec 16) (rb : Nat) : Bool :=
  decide (kOf (wordBF w) (wordBSC w) rb > kMax w) || (wordBF w == 9 && decide (rb > 52))

/-- The rows and the row bytes of tile `i` of a tiled tensor that lie in the tensor (R113, R319). -/
def Tensor.inside (t : Tensor) (i : Nat) : Nat × Nat :=
  (min t.trows (listProd (t.ext.drop 1) - i / t.tcols * t.trows), min t.trb (t.ext.headD 0 * t.u - i % t.tcols * t.trb))

/-- The merge key of an MMULW (R278) with what of the stationary lies in its tensor: for a tensor stationary the reads of R267 come
first. The spec says both that MATRIX_SHAPE reason 3 is precise at issue (R254) and that the descriptor, on which it depends here, is
read after the issue (R267): it is a late fault (DESIGN CHOICE, log 120). -/
def State.statKey (s : State) (o : Op) : Got (List Nat × (Nat × Nat)) × State :=
  let w := o.word
  match o.instr with
  | .mmulwT .. =>
    let sb := o.x.getD 1 0
    let cl := s.agent o
    match s.tensor cl o.mc o.id (bitsOf sb 0 12) with
    | (.ok (some t), s) =>
      let i := bitsOf sb 16 24
      if !t.tiled || t.fmt != wordBF w || t.tiles ≤ i then (.fault badStat, s)
      else
        match s.vread cl o.mc o.id (t.ttptr + 8 * i) 2 8 with
        | (.ok bs, s) =>
          if !(ofBytes bs).testBit 3 then (.fault badStat, s)
          else
            match s.tileAddr cl o.mc o.id t i .read with
            | (.ok (pa, e), s) =>
              let sg := bitsOf e 52 12
              if depthBad w t.trb then (.fault { cause := 52, reason := 3 }, s)
              else (.ok ([1, sg, (SMap.get {} s.segs sg).gen.toNat, pa, t.trows, t.trb, t.trs, w.toNat], t.inside i), s)
            | (.fault t, s) => (.fault t, s)
            | (.wait y, s) => (.wait y, s)
        | (.fault t, s) => (.fault t, s)
        | (.wait y, s) => (.wait y, s)
    | (.ok none, s) => (.fault badStat, s)
    | (.fault t, s) => (.fault t, s)
    | (.wait y, s) => (.wait y, s)
  | _ =>
    let d := (o.hs.getD 1 (0, {})).2
    if s.clusOk o.core o.mc o.bind d then (.ok ([0, d.tti.toNat, o.bind, d.rows, d.rb, d.base.toNat, w.toNat], (256, 4096)), s)
    else (.fault (o.goneTrap 1), s)

/-- Rows and row bytes of the stationary of a key. -/
def keyRows (k : List Nat) : Nat := if k.headD 0 = 1 then k.getD 4 1 else k.getD 3 1
def keyRb (k : List Nat) : Nat := if k.headD 0 = 1 then k.getD 5 1 else k.getD 4 1

/-- The stationary of a key of kind 0. -/
def keyTile (k : List Nat) : TDesc := {
  valid := true, clus := true, rowsm1 := BitVec.ofNat 8 (k.getD 3 1 - 1), rbm1 := BitVec.ofNat 12 (k.getD 4 1 - 1),
  base := BitVec.ofNat 11 (k.getD 5 0), tti := BitVec.ofNat 12 (k.getD 1 0) }

/-- The bytes of the stationary of a key, fetched on cluster `q`; the cause of an uncorrectable unit among them. A tile of a tensor has no
virtual address of its own: TRAPINFO.DATA holds its device physical address (DESIGN CHOICE, log 121). -/
def State.statTable (s : State) (q : Nat) (k : List Nat) : SMap Byte × Option Trap :=
  if k.headD 0 = 1 then
    let pa := k.getD 3 0
    let rows := k.getD 4 1
    let rb := k.getD 5 1
    let rs := k.getD 6 64
    ((List.range rows).foldl (fun m r => putRow m r (rdBytes s.mem (pa + r * rs) rb)) [],
      ((List.range rows).find? (fun r => s.poisoned (pa + r * rs) rb)).map (fun r => xlTrap 42 (s.poisonWhy (pa + r * rs) rb) pa))
  else (s.tileTable (16 * q) (keyTile k), s.allBad (16 * q) (keyTile k))

/-- Of an operand that is written while a waited pass is outstanding, each 64-byte unit is read as it stood at the issue or as it stands
now (R258; DESIGN CHOICE, log 3). -/
def mixUnits (n : Nat) (old new : SMap Byte) : SMap Byte :=
  let o (k : Nat) : Bool := Config.unitOld n (k / 4096) (k % 4096 / 64)
  (old.filter (fun e => o e.1)).foldl (fun m e => SMap.set 0 m e.1 e.2) (new.filter (fun e => !o e.1))

/-- What of a stationary's bytes lies in its tensor: rows and row bytes (R113). -/
def insideOf (e : Nat × Nat) (stat : SMap Byte) : SMap Byte :=
  stat.filter (fun x => decide (x.1 / 4096 < e.1) && decide (x.1 % 4096 < e.2))

/-- The stationary as operation `o` reads it, from its bytes now: nothing outside its tensor (R113). -/
def Op.stationary (o : Op) (k : List Nat) (stat : SMap Byte) : SMap Byte :=
  match o.waited with
  | some w =>
    if k.headD 0 = 1 then insideOf w.edge stat
    else mixUnits (2 * o.id + 1) w.oldB stat
  | none => stat

/-- The moving operand as operation `o` reads it. -/
def State.moving (s : State) (o : Op) : SMap Byte :=
  mixUnits (2 * o.id) ((o.waited.map (·.oldA)).getD []) (s.tileTable o.core o.aDesc)

/-- The stationary has an ill-formed T3 byte outside edge positions (R95, R266). -/
def statBad (w : BitVec 16) (k : List Nat) (stat : SMap Byte) : Bool :=
  wordBF w == 9 && badTrit stat (keyRows k) (kOf 9 false (keyRb k))

/-! ## Landing (R261, R268, R286, R288) -/

/-- What keeps a waited pass or a member from landing: its handle, its rows, its accumulator (R262, R288). -/
def State.waitedTrap (s : State) (o : Op) : Option Trap :=
  let (z, acc) := o.zdest
  let f := (s.coreAt o.core).now.zflag z
  firstTrap [
    if s.clusOk o.core o.mc o.bind o.aDesc then none else some (o.goneTrap 0),
    s.allBad o.core o.aDesc,
    if acc && !f.valid then some { cause := 50, reason := 0 } else none,
    if acc && f.spectral then some { cause := 51, reason := 2 } else none,
    if acc then accTrap ((s.coreAt o.core).now.accBad z) else none]

/-- The landing of one waited pass or member in its own accumulator, with its own rows. -/
def State.waitedPut (s : State) (o : Op) (k : List Nat) (stat : SMap Byte) : State :=
  let w := o.word
  let (z, acc) := o.zdest
  let d := o.aDesc
  let p : PassIn := { word := w, spec := false, r := d.rows, n := keyRows k, k := kOf (wordBF w) (wordBSC w) (keyRb k),
                      ka := kOf (wordAF w) (wordASC w) d.rb, A := s.moving o, B := o.stationary k stat,
                      edge := if k.headD 0 = 1 then (o.waited.map (·.edge)).getD (256, 4096) else (256, 4096) }
  (s.onOpArch o (fun a => a.landPass z acc false p)).finishOp o

/-- The reads of a stationary in memory: its lines are committed for them (R371, R423), and those in pages of host bias go over CXL.cache
(R456). -/
def State.statReads (s : State) (k : List Nat) : State :=
  if k.headD 0 = 1 then
    let ps : List Piece := (List.range (k.getD 4 1)).map (fun r => ⟨.mem, k.getD 3 0 + r * k.getD 6 64, k.getD 5 1⟩)
    (s.commitPieces 0 ps).cachePieces ps
  else s

/-- The rows of the handles of a waited pass are settled before they are read (R358, R423). -/
def State.waitedRows (s : State) (o : Op) (k : List Nat) : State :=
  let rows (s : State) (d : TDesc) : State := (List.range d.rows).foldl (fun s r => s.settleClus o.core o.id d r 0 d.rb) s
  let s := rows s o.aDesc
  if k.headD 0 = 1 then s else rows s (keyTile k)

def State.waitedLand (s : State) (o : Op) (k : List Nat) (stat : SMap Byte) : State :=
  match s.waitedTrap o with
  | some t => s.lateOp o t
  | none => s.waitedPut o k stat

/-- BAD_TRIT of a waited pass: its accumulator is invalid (R100, R289), and TRAPINFO.DATA is the CODE offset of the issue bundle (R266,
R420; DEDUCED, log 139). -/
def State.waitedBad (s : State) (o : Op) : State :=
  let z := o.zdest.1
  (s.onOpArch o (fun a => a.setZflag z { a.zflag z with valid := false })).lateOp o
    { cause := 49, reason := 0, data := BitVec.ofNat 32 (s.codeOffset o.mc o.addr) }

/-- The pens of a cluster. -/
def pensOf (q : Nat) : List Nat := [4 * q, 4 * q + 1, 4 * q + 2, 4 * q + 3]

/-! ## Dispatch (R282) -/

/-- All groups of a cluster that have not started, with their pens. -/
def State.waiting (s : State) (q : Nat) : List (Nat × FGroup) :=
  (pensOf q).flatMap (fun p => ((s.penAt p).groups.filter (fun g => g.started.isNone)).map (fun g => (p, g)))

/-- `h` holds a later-issued member with the core and accumulator of a member of `g`. -/
def State.laterIn (s : State) (g h : FGroup) : Bool :=
  g.id != h.id && g.members.any (fun m => h.members.any (fun n =>
    match s.opAt m.op, s.opAt n.op with
    | some o, some p => o.core == p.core && o.zdest.1 == p.zdest.1 && decide (o.id < p.id)
    | _, _ => false))

def State.basePrio (s : State) (g : FGroup) : Nat :=
  g.members.foldl (fun t m => match s.opAt m.op with
    | some o => max t (s.effPrio o.mc)
    | none => t) 0

/-- Priorities raised through due groups, `k` times. -/
def State.raisePrio (s : State) (gs : List FGroup) (pr : SMap Nat) : Nat → SMap Nat
  | 0 => pr
  | k + 1 =>
    let pr' := gs.map (fun g => (g.id, gs.foldl (fun t h =>
      if h.due.isSome && s.laterIn g h then max t (SMap.get 0 pr h.id) else t) (SMap.get 0 pr g.id)))
    s.raisePrio gs pr' k

/-- The groups of a cluster with their priorities (R282). -/
def State.foldPrio (s : State) (q : Nat) : SMap Nat :=
  let gs := (s.waiting q).map (·.2)
  s.raisePrio gs (gs.map (fun g => (g.id, s.basePrio g))) gs.length

/-- `g` stands before `h` in the dispatch order. -/
def dispatchBefore (pr : SMap Nat) (g h : FGroup) : Bool :=
  let a := SMap.get 0 pr g.id
  let b := SMap.get 0 pr h.id
  let d (x : FGroup) : Nat := x.due.getD 0
  decide (b < a) || (a == b && (decide (d g < d h) || (d g == d h && decide (g.id ≤ h.id))))

/-- A waiting group holds an earlier-issued member with the core and accumulator of a member of `g` (R282). -/
def State.blockedBy (s : State) (g : FGroup) (hs : List FGroup) : Bool := hs.any (fun h => s.laterIn h g)

/-- Due groups of a cluster wait for one another in a circle: none of them is free of an earlier one that is due (R285; DESIGN CHOICE,
log 72). -/
def State.foldStuck (s : State) (q : Nat) : Bool :=
  let ds := ((s.waiting q).map (·.2)).filter (fun g => g.due.isSome)
  ds.all (fun g => s.blockedBy g ds)

/-- The next group of a pen's array: the first in dispatch order, but one that may not start before another due group of the array
stands behind that one (R282, R285; DESIGN CHOICE, log 72). -/
def State.foldNext (s : State) (pen : Nat) : Option FGroup :=
  let pr := s.foldPrio (pen / 4)
  let ds := (s.penAt pen).groups.filter (fun g => g.due.isSome && g.started.isNone)
  let free := ds.filter (fun g => !s.blockedBy g ds)
  (if free.isEmpty then ds else free).foldl (fun b g =>
    match b with
    | none => some g
    | some h => some (if dispatchBefore pr g h then g else h)) none

/-! ## Pins (R259, R283) -/

/-- The lines of the stationary of a key: those of a tile in a tensor. -/
def keyLines (k : List Nat) : List Nat :=
  if k.headD 0 = 1 then (List.range ((k.getD 4 1 * k.getD 6 64 + 63) / 64)).map (fun i => k.getD 3 0 / 64 + i) else []

/-- The cluster that caches a line, by its home slice (R199), and the place of the line there: slice and set. -/
def lineHome (line : Nat) : Nat := 12 * ownerDie (64 * line) + line / 16 % 12
def lineSet (line : Nat) : Nat := (lineHome line * 16 + line % 16) * 512 + line / 192 % 512

/-- The lines that are pinned: those of pinned groups, and of the passes that have begun in a share. -/
def State.pinnedLines (s : State) : List Nat :=
  s.pens.flatMap (fun e => e.2.groups.flatMap (fun g => if g.pinned then g.lines else []))
    ++ s.ops.flatMap (fun o => match o.waited with
      | some w => if w.began && !o.faulted then w.lines else []
      | none => [])

/-- Every set that the lines need has fewer than P pinned ways; a line that several passes pin takes one way. -/
def State.pinRoom (s : State) (lines : List Nat) : Bool :=
  let held := s.pinnedLines.eraseDups.map lineSet
  lines.all (fun l => decide ((held.filter (· == lineSet l)).length < min 4 (15 - (s.clusterAt (lineHome l)).tways.toNat)))

/-- A request of the cluster for pins that became ready before cycle `t` has still to be granted (R259): that of the next group of an
array, or of a pass in its share. -/
def State.pinAhead (s : State) (q t : Nat) : Bool :=
  (pensOf q).any (fun p => (s.foldNext p).any (fun g => !g.pinned && g.ready.any (fun r => decide (r < t))))
    || s.ops.any (fun o => clusterOfCore o.core == q && !o.faulted && !o.asleep
      && (match o.waited with
          | some w => !w.began && w.ready.any (fun r => decide (r < t))
          | none => false))

/-! ## The turn of a waited pass in its share (R256, R268) -/

/-- The pass that stands first in its share begins: its stationary is found and pinned, and the share is occupied. It waits for the
landing of an earlier pass in its own accumulator (DEDUCED, log 69). -/
def State.waitedBegin (s : State) (o : Op) (w : Waited) : State :=
  let a := (s.coreAt o.core).now
  if a.occ > 0 || a.passes.any (fun p => p.z == o.zdest.1) then s
  else
    match s.statKey o with
    | (.fault t, s) => s.lateOp o t
    | (.wait y, s) => s.waitOn o y
    | (.ok (k, e), s) =>
      let q := clusterOfCore o.core
      let t := w.ready.getD (s.clusterAt q).cyc
      let w := { w with key := k, edge := e, ready := some t }
      if (keyLines k).isEmpty || (s.pinRoom (keyLines k) && !s.pinAhead q t) then
        (s.setOp { o with wait := none, st := [], waited := some { w with began := true, lines := keyLines k } }).onCoreAt o.core (fun x =>
          { x with now := { x.now with occ := passOcc ((s.divisor o.core).getD 1) o.aDesc.rows } })
      else s.setOp { o with wait := none, st := [], waited := some w }

/-- The bytes of the handles of a waited pass. -/
def Op.waitedPcs (o : Op) (k : List Nat) : List Piece := tileAll o.aDesc ++ (if k.headD 0 = 1 then [] else tileAll (keyTile k))

/-- The completion of a pass that has begun: its operands are read now. -/
def State.waitedDone (s : State) (o : Op) (w : Waited) : State :=
  let s := (s.statReads w.key).waitedRows o w.key
  let (stat, bad) := s.statTable (clusterOfCore o.core) w.key
  match bad with
  | some t => s.lateOp o t
  | none => if statBad o.word w.key (o.stationary w.key stat) then s.waitedBad o else s.waitedLand o w.key stat

/-- It comes after what earlier operations of the continuation write into the operands (R358). -/
def State.waitedEnd (s : State) (o : Op) (w : Waited) : State :=
  if s.pathBlocked o (o.waitedPcs w.key) then s else s.waitedDone o w

/-- The next thing that a waited pass of a share does. -/
def State.waitedRun (s : State) (o : Op) : State :=
  match o.waited with
  | some w =>
    if !w.began then s.waitedBegin o w
    else if (s.coreAt o.core).now.occ > 0 || !(s.coreAt o.core).now.passes.isEmpty then s
    else s.waitedEnd o w
  | none => s

end Sys2Proof.Machine
end

