-- ==== Sys2Proof/Machine/Fold.lean ====
section
/-!
DEFINITION. The Fold (spec/10_fold.md R275 to R293): entries, arrival, due groups, dispatch, the split, withdrawal and
re-hosting. Cycles are those of the cluster's island.
-/
namespace Sys2Proof.Machine
set_option Elab.async false
open Sys2Proof

/-! ## Statistics (R293) -/

def satInc (x : BitVec 64) (n : Nat) : BitVec 64 :=
  if x.toNat + n ≥ 2 ^ 64 then BitVec.allOnes 64 else x + BitVec.ofNat 64 n

/-- Adds to the counter at byte offset `off` of a pen. -/
def State.foldCount (s : State) (pen off n : Nat) : State :=
  let p := s.penAt pen
  s.setPen pen { p with stats := SMap.set 0 p.stats off (satInc (SMap.get 0 p.stats off) n) }

/-! ## Entries (R275, R276) -/

/-- An MMULW that holds an entry of the Fold; one that faults holds it until the fault is taken (R277). -/
def Op.foldEntry (o : Op) : Bool :=
  match o.waited with
  | some w => w.phase == .coming || w.phase == .grouped
  | none => false

/-- The operations that hold entries of pen `pen`'s Fold, oldest first. -/
def State.foldEntries (s : State) (pen : Nat) : List Op :=
  s.ops.filter (fun o => o.foldEntry && penOfCore o.core == pen)

def Op.setPhase (o : Op) (p : WPhase) : Op := { o with waited := o.waited.map (fun w => { w with phase := p }) }

def State.onGroups (s : State) (pen : Nat) (f : FGroup → FGroup) : State :=
  let p := s.penAt pen
  s.setPen pen { p with groups := p.groups.map f }

def FGroup.has (g : FGroup) (op : Nat) : Bool := g.members.any (fun m => m.op == op)

/-- Forces the entry of an operation (R276). -/
def State.foldForce (s : State) (o : Op) : State :=
  match o.waited with
  | some w =>
    if w.phase == .coming then s.setOp { o with waited := some { w with forced := true } }
    else (pensOf (clusterOfCore o.core)).foldl (fun s p => s.onGroups p (fun g => if g.has o.id then { g with forced := true } else g)) s
  | none => s

/-- The entry that is forced while core `c` finds none free; `none` when one is free (R276). -/
def State.foldFull (s : State) (c : Nat) : Option Op :=
  let es := s.foldEntries (penOfCore c)
  let mine := es.filter (fun o => o.core == c)
  if es.length ≥ 16 then es.head? else if mine.length ≥ 4 then mine.head? else none

/-- The stall of an MMULW that finds no free entry: the state with the forced entry and the stalled cycle counted (R276, R293). -/
def State.foldStall (s : State) (c : Nat) : Option State :=
  (s.foldFull c).map (fun o => (s.foldForce o).foldCount (penOfCore c) 88 1)

/-- MMULWs that a resume re-issues beyond the free entries take one when it is free, in the order of their issue; until then the entry that
a stalled MMULW would force is forced (R276, R291; DEDUCED, log 108). -/
def State.foldQueued (s : State) (q t : Nat) : State :=
  (s.ops.filter (fun o => clusterOfCore o.core == q && !o.faulted && o.waited.any (fun w => w.phase == .queued))).foldl (fun s o =>
    match s.foldFull o.core with
    | some f => s.foldForce f
    | none => s.setOp { o with waited := o.waited.map (fun w => { w with phase := .coming, issued := t }) }) s

/-! ## Arrival (R277 to R280) -/

def FGroup.rows (g : FGroup) : Nat := g.members.foldl (fun t m => t + m.rows) 0

/-- Two members may share a group (R279). -/
def State.compatible (s : State) (o p : Op) : Bool :=
  let gl (x : Op) : Bool := (x.waited.map (·.global)).getD false
  (gl o && gl p) || (s.mcAt o.mc).part == (s.mcAt p.mc).part

/-- The group takes the member (R280). -/
def State.joins (s : State) (o : Op) (key : List Nat) (rows : Nat) (g : FGroup) : Bool :=
  g.due.isNone && !g.solo && g.key == key && decide (g.rows + rows ≤ 128)
    && g.members.all (fun m => match s.opAt m.op with
        | some p => s.compatible o p && !(p.core == o.core && p.zdest.1 == o.zdest.1)
        | none => true)

def leastBy {α : Type} (f : α → Nat) : List α → Option α
  | [] => none
  | x :: r => match leastBy f r with
    | none => some x
    | some y => some (if f x ≤ f y then x else y)

/-- The arrival of a member, whose key is known, in cycle `t` (R277, R280). -/
def State.foldArrive (s : State) (o : Op) (t : Nat) : State :=
  match o.waited with
  | none => s
  | some w =>
    let key := w.key
    let rows := o.aDesc.rows
    let solo := decide (32 < rows)
    let mem : FMember := { op := o.id, rows := rows, deadline := t + w.hold, edge := w.edge }
    let q := clusterOfCore o.core
    let s := s.setOp (o.setPhase .grouped)
    let cands := (pensOf q).flatMap (fun p =>
      if (s.penAt p).mode == .fold then ((s.penAt p).groups.filter (s.joins o key rows)).map (fun g => (p, g.id)) else [])
    match (if solo then none else leastBy (fun x => x.2) cands) with
    | some (p, id) =>
      s.onGroups p (fun g => if g.id = id then { g with members := g.members ++ [mem], forced := g.forced || w.forced } else g)
    | none =>
      let p := penOfCore o.core
      let g : FGroup := {
        id := s.nextGroup, key := key, members := [mem], solo := solo, forced := w.forced, word := o.word,
        cols := keyRows key, depth := kOf (wordBF o.word) (wordBSC o.word) (keyRb key),
        pinned := key.headD 0 != 1,
        lines := keyLines key }
      let x := s.penAt p
      { s.setPen p { x with groups := x.groups ++ [g] } with nextGroup := s.nextGroup + 1 }

/-- Kind 0: the stationary is a handle. -/
def Op.kind0 (o : Op) : Bool := match o.instr with | .mmulw .. => true | _ => false

/-- The key of an operation's stationary and what of it lies in its tensor. -/
def Op.withKey (o : Op) (k : List Nat × (Nat × Nat)) (at' : Option Nat) : Op :=
  { o with wait := none, st := [], waited := o.waited.map (fun w => { w with key := k.1, edge := k.2, arrive := at' }) }

/-- The arrival of an operation in cycle `t`, not before two cycles after its issue: with a handle stationary then, with a tensor stationary
once it has been translated (R277). -/
def State.foldTry (s : State) (o : Op) (t : Nat) : State :=
  match o.waited with
  | some w =>
    if w.phase == .coming && w.issued + 2 ≤ t && !o.faulted then
      if o.kind0 then
        match s.statKey o with
        | (.ok k, s) => s.foldArrive (o.withKey k (some t)) t
        | (.fault f, s) => s.lateOp o f
        | (.wait y, s) => s.waitOn o y
      else if w.arrive.any (fun a => decide (a ≤ t)) then s.foldArrive o t
      else s
    else s
  | none => s

/-- FOLD_ARRIVAL of an operation with a tensor stationary in cycle `t`: the translation completes, and the member arrives in the next
cycle (R277). -/
def State.foldTranslate (s : State) (o : Op) (t : Nat) : State :=
  match o.waited with
  | some w =>
    if w.phase == .coming && !o.kind0 && w.arrive.isNone && !o.faulted && !o.asleep then
      match s.statKey o with
      | (.ok k, s) => s.setOp (o.withKey k (some (t + 1)))
      | (.fault f, s) => s.lateOp o f
      | (.wait y, s) => s.waitOn o y
    else s
  | none => s

def insOp (o : Op) : List Op → List Op
  | [] => [o]
  | p :: r => if o.core < p.core || (o.core == p.core && o.id ≤ p.id) then o :: p :: r else p :: insOp o r
def sortOps : List Op → List Op
  | [] => []
  | o :: r => insOp o (sortOps r)

/-- The arrivals of a cycle, in ascending core index (R277). -/
def State.foldArrivals (s : State) (q t : Nat) : State :=
  (sortOps (s.ops.filter (fun o => o.waited.isSome && clusterOfCore o.core == q))).foldl (fun s o => s.foldTry o t) s

/-! ## Due groups (R281) -/

/-- The counter of the condition by which a group is due in cycle `t` (R281, R293). -/
def FGroup.dueBy (g : FGroup) (t : Nat) : Option Nat :=
  if g.rows = 128 then some 40
  else if g.solo then some 96
  else if g.forced then some 56
  else if g.members.any (fun m => m.deadline ≤ t) then some 48
  else none

/-- The groups of a pen's array that become due in cycle `t`. -/
def State.foldDue (s : State) (pen t : Nat) : State :=
  (s.penAt pen).groups.foldl (fun s g =>
    if g.due.isSome then s
    else
      match g.dueBy t with
      | some off => (s.onGroups pen (fun x => if x.id = g.id then { x with due := some t } else x)).foldCount pen off 1
      | none => s) s

/-! ## Pins of groups, and the arrays -/

/-- The next group of each array, from the cycle in which it is next, waits for its pins (R259, R283). -/
def State.foldReady (s : State) (q t : Nat) : State :=
  (pensOf q).foldl (fun s p =>
    match s.foldNext p with
    | some g => if g.ready.isSome then s else s.onGroups p (fun x => if x.id = g.id then { x with ready := some t } else x)
    | none => s) s

/-- The array of a pen runs a pass in cycle `t` (R284). -/
def State.arrayBusy (s : State) (pen t : Nat) : Bool :=
  (s.penAt pen).groups.any (fun g => match g.started with
    | some s0 => decide (t < s0 + 64 + g.height)
    | none => false)

/-- PIN_GRANT of a group: when it is the next group of its array, the sets have room and no request that became ready before it is
ungranted (R259, R283). -/
def State.foldPin (s : State) (pen gid : Nat) : State :=
  match s.foldNext pen with
  | some g =>
    if g.id = gid && !g.pinned && s.pinRoom g.lines && !s.pinAhead (pen / 4) (g.ready.getD (s.clusterAt (pen / 4)).cyc) then
      s.onGroups pen (fun x => if x.id = gid then { x with pinned := true } else x) else s
  | none => s

/-! ## The start of a pass (R282, R284) -/

def State.foldStart (s : State) (pen t : Nat) : State :=
  match s.foldNext pen with
  | none => s
  | some g =>
    if s.arrayBusy pen t || !g.pinned
        || (s.blockedBy g ((s.waiting (pen / 4)).map (·.2)) && !s.foldStuck (pen / 4)) then s
    else
      let h := g.rows
      let s := s.onGroups pen (fun x => if x.id = g.id then { x with started := some t, height := h } else x)
      let s := g.members.foldl (fun s m => match s.opAt m.op with
        | some o => s.setOp (o.setPhase .started)
        | none => s) s
      let parts := (g.members.filterMap (fun m => (s.opAt m.op).map (fun o => (s.mcAt o.mc).part.toNat))).eraseDups
      (s.foldCount pen 0 1).foldCount pen 24 (if parts.length > 1 then 1 else 0)

def State.foldStarts (s : State) (q t : Nat) : State := (pensOf q).foldl (fun s p => s.foldStart p t) s

/-! ## The end of a pass (R284, R286, R288, R289) -/

/-- The cycle at whose end the group lands. -/
def FGroup.landAt (g : FGroup) : Option Nat :=
  g.started.map (fun s0 => s0 + 64 + g.height + (if wordInt g.word then 61 else 65) - 1)

def State.dropGroup (s : State) (pen gid : Nat) : State :=
  let p := s.penAt pen
  s.setPen pen { p with groups := p.groups.filter (fun g => g.id != gid) }

/-- The operations of a group's members. -/
def State.memberOps (s : State) (g : FGroup) : List Op := g.members.filterMap (fun m => s.opAt m.op)

/-- A fault of the stationary reaches every member (R289). -/
def State.foldFail (s : State) (pen : Nat) (g : FGroup) (f : State → Op → State) : State :=
  ((s.memberOps g).foldl f (s.dropGroup pen g.id)).foldCount pen 72 1

/-- A list in ascending order of a number. -/
def insBy {α : Type} (f : α → Nat) (x : α) : List α → List α
  | [] => [x]
  | y :: r => if f x ≤ f y then x :: y :: r else y :: insBy f x r
def sortBy {α : Type} (f : α → Nat) : List α → List α
  | [] => []
  | x :: r => insBy f x (sortBy f r)

/-- The landing of the members of groups in one cycle (R286), each with its pen: a member whose own operand faults is left out (R288); of
two members that land in one accumulator the later-issued remains (R60, R262). A pass that had failed once is recorded as
corrected (R290). -/
def State.foldLand (s : State) (gs : List (Nat × FGroup)) : State :=
  let s := gs.foldl (fun s e =>
    let (n, s) := s.fresh
    let s := if e.2.retried then s.mcRecord { bank := bankOf 7 (e.1 / 48), sev := 1, kind := errorKind 7 1 (Config.pick n), unit := e.1, source := 7 }
      else s
    ((s.memberOps e.2).foldl (fun s o => s.waitedRows o e.2.key) s)) s
  let ms := sortBy (fun m => m.1.id) (gs.flatMap (fun e => (s.memberOps e.2).map (fun o => (o, e))))
  let ts := ms.map (fun m => (m, s.waitedTrap m.1, (s.statTable (m.2.1 / 4) m.2.2.key).1))
  let overtaken (o : Op) : Bool := ts.any (fun m => m.2.1.isNone && m.1.1.core == o.core && m.1.1.zdest.1 == o.zdest.1 && decide (o.id < m.1.1.id))
  let s := gs.foldl (fun s e => s.dropGroup e.1 e.2.id) s
  ts.foldl (fun s m =>
    let ((o, p, g), t, stat) := m
    match t with
    | some t => s.lateOp o t
    | none =>
      let s := if overtaken o then s.finishOp o else s.waitedPut o g.key stat
      (s.foldCount p 8 1).foldCount p 16 (if g.members.length > 1 then 1 else 0)) s

/-- FOLD_SPLIT: the landing of every member of a group in one cycle. -/
def State.foldSplit (s : State) (pen : Nat) (g : FGroup) : State := s.foldLand [(pen, g)]

/-- The stationary of a group has an ill-formed T3 byte outside the edge positions of a member; one that a freeze let land (R291) counts
with what of the tile lies in its tensor. -/
def State.groupBad (s : State) (g : FGroup) (stat : SMap Byte) : Bool :=
  g.members.any (fun m => statBad g.word g.key (match s.opAt m.op with
    | some o => o.stationary g.key stat
    | none => insideOf m.edge stat))

/-- A group at the end of cycle `t`, when its stationary has been loaded: it fails, or its rows stream (R288, R289, R293). -/
def State.foldLoaded (s : State) (pen t : Nat) (g : FGroup) : State :=
  if g.started.map (· + 63) != some t then s
  else
    let s := s.statReads g.key
    let (stat, bad) := s.statTable (pen / 4) g.key
    match bad with
    | some f => s.foldFail pen g (fun s o => s.lateOp o f)
    | none =>
      if s.groupBad g stat then s.foldFail pen g State.waitedBad
      else if g.retried then s
      else s.foldCount pen 32 g.height

/-- The Fold at the start of cycle `t` of a cluster: arrivals, due groups, starts. -/
def State.foldBegin (s : State) (q t : Nat) : State :=
  let s := (s.foldQueued q t).foldArrivals q t
  (((pensOf q).foldl (fun s p => s.foldDue p t) s).foldStarts q t).foldReady q t

/-- The Fold at the end of cycle `t`: what the cycle forced is due and may start in it, after the groups that were due at its start, which
R281 and R282 do not order against it (DESIGN CHOICE, log 142); stationaries are loaded, passes land. -/
def State.foldFinish (s : State) (q t : Nat) : State :=
  let s := ((pensOf q).foldl (fun s p => s.foldDue p t) s).foldStarts q t
  let s := (pensOf q).foldl (fun s p => (s.penAt p).groups.foldl (fun s g => s.foldLoaded p t g) s) s
  let s := { s with endingCl := some q }.foldLand ((pensOf q).flatMap (fun p =>
    ((s.penAt p).groups.filter (fun (g : FGroup) => g.landAt = some t)).map (fun g => (p, g))))
  { s with endingCl := none }

/-! ## Withdrawal and re-hosting (R291, R292) -/

/-- Withdraws an operation that has not started: it leaves its group and is no longer outstanding. -/
def State.foldWithdraw (s : State) (o : Op) : State :=
  let s := (pensOf (clusterOfCore o.core)).foldl (fun s p =>
    let x := s.penAt p
    s.setPen p { x with groups := (x.groups.map (fun g =>
      if g.has o.id then { g with members := g.members.filter (fun m => m.op != o.id) } else g)).filter (fun g => !g.members.isEmpty) }) s
  if o.foldEntry && !o.faulted then s.foldCount (penOfCore o.core) 64 1 else s

/-- The groups of a pen's array that have not started move to the pens of their oldest members, which is the order of arrival (R277). -/
def State.foldRehost (s : State) (pen : Nat) : State :=
  let x := s.penAt pen
  (x.groups.filter (fun g => g.started.isNone)).foldl (fun s g =>
    match (s.memberOps g).head? with
    | some o =>
      let p := penOfCore o.core
      if p = pen then s
      else
        let s := s.dropGroup pen g.id
        let y := s.penAt p
        (s.setPen p { y with groups := y.groups ++ [g] }).foldCount pen 80 1
    | none => s) s

/-- FOLD_PASS_RETRY (R290): the pass runs once more after its occupancy, within which its failure is found, once its rows stream (DEDUCED,
log 58). `none`: the second run has failed too. -/
def State.foldRetry (s : State) (pen : Nat) (g : FGroup) : Option State :=
  match g.started with
  | none => some s
  | some s0 =>
    if !s.arrayBusy pen (s.clusterAt (pen / 4)).cyc || (s.clusterAt (pen / 4)).cyc < s0 + 64 then some s
    else if g.retried then none
    else some (s.onGroups pen (fun x => if x.id = g.id then { x with started := some (s0 + 64 + g.height), retried := true } else x))

end Sys2Proof.Machine
end

