-- ==== Sys2Proof/Machine/Attn.lean ====
section
/-!
DEFINITION. The arithmetic of decode attention (spec/14_sequence_class.md R399 to R402): partials, their merge, and one chunk of
SQATT. Numbers are FP32 bits.
-/
namespace Sys2Proof.Machine
set_option Elab.async false
open Sys2Proof

def f32 (x : Nat) : FVal := FFmt.fp32.decode x
def rne32 (x : Ex) : Nat := (FFmt.fp32.round .rne false x).1
def one32 : Nat := 0x3F800000
def ninf32 : Nat := 0xFF800000

/-- Max of R401: the canonical NaN with a NaN operand, +0 of two zeros of unlike sign. -/
def maxF (a b : Nat) : Nat :=
  if (f32 a).isNaN || (f32 b).isNaN then FFmt.fp32.nan
  else if cmpV (f32 a) (f32 b) = 0 then (if (f32 a).neg? then b else a)
  else if cmpV (f32 a) (f32 b) < 0 then b else a

/-- Equality of FP32 values: a NaN equals nothing. -/
def eqF (a b : Nat) : Bool := !(f32 a).isNaN && !(f32 b).isNaN && cmpV (f32 a) (f32 b) == 0

/-- An exact dyadic result as a value. -/
def exVal : Ex → FVal
  | .nan s => .nan s
  | .inf n _ => .inf n
  | .zero n => .zero n
  | .fin n m _ e => if m = 0 then .zero n else .fin n m e

/-- 1 when `a` equals `m`, else the rounded exponential of the exact difference. -/
def weight (a m : Nat) : Nat :=
  if eqF a m then one32 else (expRound .fp32 .rne false (exVal (addV .rne (f32 a) (f32 m).negate))).1

/-- The exact sum of products of values, rounded once; the exponents of FP32 products fit the scale of `BSum`. -/
def dotRound (l : List (FVal × FVal)) : Nat :=
  rne32 ((l.foldl (fun (b : BSum) x => b.add (mulV x.1 x.2).1) {}).value 0).toEx

/-- A partial: m, l and the elements of o (R399). -/
structure Partial where
  m : Nat
  l : Nat
  o : List Nat
deriving DecidableEq, Repr

/-- Merge (R402). -/
def Partial.merge (a b : Partial) : Partial :=
  let m := maxF a.m b.m
  let x := f32 (weight a.m m)
  let y := f32 (weight b.m m)
  { m := m, l := dotRound [(x, f32 a.l), (y, f32 b.l)],
    o := List.zipWith (fun p q => dotRound [(x, f32 p), (y, f32 q)]) a.o b.o }

/-- The partial of no position. -/
def Partial.start : Partial := ⟨ninf32, 0, List.replicate 256 0⟩

/-- One chunk (R401): the query, the scale, and for each position its key and its value. `D` elements of `o` take part. -/
def Partial.chunk (p : Partial) (q : List FVal) (scale : Nat) (kv : List (List FVal × List FVal)) (D : Nat) : Partial :=
  let sc := kv.map (fun e =>
    let d := ((q.zip e.1).foldl (fun (b : BSum) x => b.add (mulV x.1 x.2).1) {}).value 0
    rne32 (mulEx d (f32 scale)))
  let mn := sc.foldl maxF p.m
  let alpha := f32 (weight p.m mn)
  let es := sc.map (fun s => f32 (weight s mn))
  let l := dotRound ((alpha, f32 p.l) :: es.map (fun e => (.fin false 1 0, e)))
  let o := p.o.zipIdx.map (fun x =>
    if x.2 < D then dotRound ((alpha, f32 x.1) :: (es.zip kv).map (fun e => (e.1, e.2.2.getD x.2 (.zero false)))) else x.1)
  ⟨mn, l, o⟩

/-- The bytes of elements 0 to 257 of a partial row, and back. -/
def Partial.bytes (p : Partial) : List Byte := p.o.flatMap (toBytes 4) ++ toBytes 4 p.m ++ toBytes 4 p.l
def Partial.ofBytes (bs : List Byte) : Partial :=
  let el (i : Nat) : Nat := Sys2Proof.Machine.ofBytes ((bs.drop (4 * i)).take 4)
  ⟨el 256, el 257, (List.range 256).map el⟩

end Sys2Proof.Machine
end

