-- ==== Sys2Proof/Machine/Net.lean ====
section
/-!
DEFINITION. What the Amiux pipeline and the C commands share (spec/12_movement_class.md R339 to R347, R483): the header, the
receive pool, routes and the sending of datagrams.
-/
namespace Sys2Proof.Machine
set_option Elab.async false
open Sys2Proof

/-! ## Headers (R339) -/

def amiuxPort : Nat := 47360

/-- The 32 bytes of a header; `nonce` holds NONCE as its 12 bytes in network order. -/
def amiuxHeader (typ part func rid : Nat) (nonce : List Byte) (len : Nat) : List Byte :=
  toBytes 1 1 ++ toBytes 1 typ ++ toBytes 1 part ++ toBytes 1 0 ++ toBe 4 func ++ toBe 8 rid ++ nonce ++ toBe 4 len

/-- Encrypts and sends a datagram (R339, R343). -/
def State.emit (s : State) (key : BitVec 256) (port ip mac vlan sp dp : Nat) (nonce hdr pt : List Byte) : State :=
  let (ct, tag) := gcmSeal key (ofBe nonce) hdr pt
  { s with outbox := s.outbox ++ [.packet ⟨port, ip, mac, vlan, sp, dp, hdr, ct, tag⟩] }

/-- A port has link: its link is up, and it has a lane left (R348, R471). -/
def State.linkUp (s : State) (port : Nat) : Bool := s.links.getLsbD port && bitsOf s.units.eth.toNat (8 * port) 8 != 0

/-! ## The receive pool (R341) -/

structure RxPool where
  bufbase  : Nat
  bufsize  : Nat
  nbuf     : Nat
  ports    : Nat
  ringto   : Nat
  devid    : Nat
  nroutes  : Nat
  routes   : Nat
  peerseq  : Nat
  head     : Nat
  cnt      : Nat
  freeq    : Nat
deriving DecidableEq, Repr

def rxPoolOf (bs : List Byte) : RxPool :=
  let f (o n : Nat) : Nat := ofBytes (cutBytes bs o n)
  { bufbase := f 0 9, bufsize := f 16 4, nbuf := f 20 4, ports := f 24 1, ringto := f 25 1, devid := f 26 2, nroutes := f 28 4,
    routes := f 32 9, peerseq := f 48 8, head := f 56 4, cnt := f 60 4, freeq := f 64 9 }

def State.rxPool (s : State) (mc key : Nat) : Got RxPool × State :=
  match s.netRead mc key (s.mcAt mc).rxpool.toNat 128 with
  | (.ok bs, s) => (.ok (rxPoolOf bs), s)
  | (.fault t, s) => (.fault t, s)
  | (.wait w, s) => (.wait w, s)

/-- Takes a buffer from the free ring: its address; `ok none` when the pool is empty. -/
def State.takeBuf (s : State) (mc : Nat) (p : RxPool) : Got (Option Nat) × State :=
  if p.cnt = 0 then (.ok none, s)
  else
    match s.netRead mc 0 (p.freeq + 4 * p.head) 4 with
    | (.ok bs, s) =>
      match s.netWrite mc 0 0 ((s.mcAt mc).rxpool.toNat + 56) (toBytes 4 ((p.head + 1) % max p.nbuf 1) ++ toBytes 4 (p.cnt - 1)) with
      | (.ok _, s) => (.ok (some (p.bufbase + ofBytes bs * p.bufsize)), s)
      | (.fault t, s) => (.fault t, s)
      | (.wait w, s) => (.wait w, s)
    | (.fault t, s) => (.fault t, s)
    | (.wait w, s) => (.wait w, s)

/-- Returns the buffer at `buf` to the free ring (R341, R483), for the operation `key` or for none. -/
def State.returnBuf (s : State) (mc key buf : Nat) : Got Unit × State :=
  match s.rxPool mc key with
  | (.ok p, s) =>
    match s.netWrite mc key 0 (p.freeq + 4 * ((p.head + p.cnt) % max p.nbuf 1)) (toBytes 4 ((buf - p.bufbase) / max p.bufsize 1)) with
    | (.ok _, s) =>
      match s.netWrite mc key 0 ((s.mcAt mc).rxpool.toNat + 60) (toBytes 4 (p.cnt + 1)) with
      | (.ok _, s) => (.ok (), s)
      | (.fault t, s) => (.fault t, s)
      | (.wait w, s) => (.wait w, s)
    | (.fault t, s) => (.fault t, s)
    | (.wait w, s) => (.wait w, s)
  | (.fault t, s) => (.fault t, s)
  | (.wait w, s) => (.wait w, s)

/-- The device returns the buffer at `buf`, now or when the pool descriptor and the free ring can be written (R483). -/
def State.giveBuf (s : State) (mc buf : Nat) : State :=
  match s.returnBuf mc 0 buf with
  | (.ok _, s) => s
  | (_, s) => s.onMc mc (fun m => { m with owed := m.owed ++ [buf] })

/-- Buffers that could not return before return when they can (R483). -/
def State.giveOwed (s : State) : State :=
  (s.mcs.filter (fun e => !e.2.owed.isEmpty)).foldl (fun s e =>
    e.2.owed.foldl (fun s b => s.giveBuf e.1 b) (s.onMc e.1 (fun m => { m with owed := [] }))) s

/-- The metadata of a receive buffer (R341): the addresses stand as the bytes that they have in the packet, the numbers as R4 has
them (DEDUCED, log 35). -/
def bufMeta (ip mac srcPort nonce port typ vlan rid len : Nat) : List Byte :=
  toBe 16 ip ++ toBe 6 mac ++ toBytes 2 srcPort ++ toBytes 12 nonce ++ toBytes 1 port ++ toBytes 1 typ ++ toBytes 2 vlan
    ++ toBytes 8 rid ++ toBytes 4 len ++ List.replicate 12 0

/-! ## Routes (R342) -/

/-- Sends a message of TYPE 2, 3 or 4 to a route, encrypted with `aes`, from port link to PEERSEQ (R343, R347): `ok false` without
link. -/
def State.sendRoute (s : State) (aes : BitVec 256) (mc key typ route rid : Nat) (pt : List Byte) : Got Bool × State :=
  match s.rxPool mc key with
  | (.fault t, s) => (.fault t, s)
  | (.wait w, s) => (.wait w, s)
  | (.ok p, s) =>
    if p.nroutes ≤ route then (.fault { cause := 65, reason := 1 }, s)
    else
      match s.netRead mc key (p.routes + 64 * route) 64 with
      | (.fault t, s) => (.fault t, s)
      | (.wait w, s) => (.wait w, s)
      | (.ok r, s) =>
        let f (o n : Nat) : Nat := ofBytes (cutBytes r o n)
        if f 27 1 % 2 = 0 then (.fault { cause := 65, reason := 1 }, s)
        else
          let port := f 26 1
          if !s.linkUp port then (.ok false, s)
          else
            let nonce := toBe 1 1 ++ toBe 2 p.devid ++ toBe 1 0 ++ toBe 8 p.peerseq
            match s.netWrite mc key 0 ((s.mcAt mc).rxpool.toNat + 48) (toBytes 8 (p.peerseq + 1)) with
            | (.fault t, s) => (.fault t, s)
            | (.wait w, s) => (.wait w, s)
            | (.ok _, s) =>
              (.ok true, s.emit aes port (ofBe (cutBytes r 0 16)) (ofBe (cutBytes r 16 6)) (f 22 2) (f 24 2)
                amiuxPort nonce (amiuxHeader typ (f 32 1) (f 28 4) rid nonce pt.length) pt)

end Sys2Proof.Machine
end

