-- ==== Sys2Proof/Machine/Copy.lean ====
section
/-!
DEFINITION. What the copy engines and the network units do for a C command that has issued (spec/12_movement_class.md R331 to
R349).
-/
namespace Sys2Proof.Machine
set_option Elab.async false
open Sys2Proof

/-! ## The words of a command (R329) -/

/-- The register of the status word. -/
def copyW : Instr → SReg
  | .cpy _ _ _ w _ _ _ => w
  | .gath _ _ _ w _ _ _ => w
  | .scat _ _ _ w _ _ _ => w
  | .cpyn _ _ _ w _ => w
  | .nrecv _ _ _ w _ => w
  | .ring _ _ _ w => w
  | .cseg _ _ _ w _ => w
  | _ => 0
def copyFen : Instr → Bool
  | .cpy _ _ _ _ _ f _ => f == 1
  | .gath _ _ _ _ _ f _ => f == 1
  | .scat _ _ _ _ _ f _ => f == 1
  | .cpyn _ _ _ _ f => f == 1
  | .nrecv _ _ _ _ f => f == 1
  | _ => false
def copySat : Instr → Bool
  | .cpy _ _ _ _ f _ _ => f == 1
  | .gath _ _ _ _ f _ _ => f == 1
  | .scat _ _ _ _ f _ _ => f == 1
  | _ => false
def copyCrc : Instr → Option Word32
  | .cpy _ _ _ _ _ _ c => c
  | .gath _ _ _ _ _ _ c => c
  | .scat _ _ _ _ _ _ c => c
  | _ => none
/-- FENCE of a control word. -/
def ctrlFence (w : Nat) : Nat := bitsOf w 32 16
/-- The instruction of a C command without its fence (R164). -/
def clearFen : Instr → Instr
  | .cpy g x y w sat _ c => .cpy g x y w sat 0 c
  | .gath g x y w sat _ c => .gath g x y w sat 0 c
  | .scat g x y w sat _ c => .scat g x y w sat 0 c
  | .cpyn g x y w _ => .cpyn g x y w 0
  | .nrecv g x y w _ => .nrecv g x y w 0
  | i => i
/-- The key of a CPYN: that of its micro-context at its issue (R122). -/
def Op.aes (o : Op) : BitVec 256 := BitVec.ofNat 256 (ofBytes o.dat)
/-- The fence counter that a C command is to count. -/
def Op.fence (o : Op) : Option Nat := if o.kind == .copy && copyFen o.instr then some (ctrlFence (o.x.getD 2 0)) else none

/-! ## Completion (R331, R332) -/

/-- A command completes with a status and a count: the fence of a command with FEN, then the status word. -/
def State.copyEnd (s : State) (o : Op) (status count : Nat) : State :=
  let n := ctrlFence (o.x.getD 2 0)
  let s := if !copyFen o.instr then s
    else if status = 0 then s.fenceUpdate n o.ts (fun f => { f with value := f.value + 1 })
    else s.fenceError o.mc n o.ts
  (s.writeDest o (.s (copyW o.instr) (BitVec.ofNat 64 (status + count % 2 ^ 32 * 2 ^ 32)))).finishOp o

/-! ## CPY, GATH, SCAT (R336 to R338) -/

/-- The raw descriptor that an endpoint word names; zeros for a handle. -/
def State.descOf (s : State) (o : Op) (n : Nat) : Got (List Byte) × State :=
  s.vread (s.agent o) o.mc o.id ((s.mcAt o.mc).tensors.toNat + 128 * n) 3 128
def State.endDesc (s : State) (o : Op) (w : Nat) : Got (List Byte) × State :=
  if endHandle w then (.ok (List.replicate 128 0), s) else s.descOf o (endNum w)

/-- The descriptors that a command reads at its start: destination, source and box. -/
def State.readDescs (s : State) (o : Op) : Got (List Byte) × State :=
  let x (i : Nat) : Nat := o.x.getD i 0
  match s.endDesc o (x 0) with
  | (.ok a, s) =>
    match s.endDesc o (x 1) with
    | (.ok b, s) =>
      match (match o.instr with | .cpy .. => s.descOf o (endNum (x 2)) | _ => (.ok [], s)) with
      | (.ok c, s) => (.ok (a ++ b ++ c), s)
      | z => z
    | z => z
  | z => z

/-- The late faults of descriptors that have been read (R318, R336, R337). -/
def Op.descTrap (o : Op) : Option Trap :=
  let bad (i : Nat) : Bool := !endHandle (o.x.getD i 0) && (tensorOf (cutBytes o.dat (128 * i) 128)).isNone
  let isCpy := match o.instr with | .cpy .. => true | _ => false
  let boxBad := isCpy && (tensorOf (cutBytes o.dat 256 128)).isNone
  let beyond (e : Endp) : Bool := isCpy && (o.boxExt.drop e.ext.length).any (· != 1)
  let d := o.endp 0
  let e := o.endp 1
  let crc := match e with | .tens t => t.crc | _ => false
  if bad 0 || bad 1 || boxBad then some { cause := 64, reason := 2 }
  else if (d.fmt != e.fmt && !cvtPair e.fmt d.fmt) || beyond d || beyond e then some { cause := 64, reason := 3 }
  else if crc && (copyCrc o.instr).isNone then some { cause := 64, reason := 4 }
  else none

/-- Convert of R336. -/
def moveElem (src dst : Nat) (sat : Bool) (bs : List Byte) : List Byte :=
  if src = dst then bs else toBytes (unitBytes dst) (convAny src dst .rne sat (ofBytes bs)).1

/-- The accesses to host frames among pieces (R202, R203). -/
def State.linkPieces (s : State) (o : Op) (write : Bool) (ps : List Piece) : State :=
  (ps.filter (fun p => p.sp == .host)).foldl (fun s p => s.hostLink o.mc write p.addr p.n) s

/-- The moves of a step, in order: an element is read, counts in the CRC, and is written. -/
def State.moveAll (s : State) (o : Op) (src dst : Nat) : List (Move1 × List Piece × List Piece) → Op × State
  | [] => (o, s)
  | ((a, b), x, y) :: r =>
    let s := ((s.linkPieces o false x).linkPieces o true y).cachePieces x
    let raw := s.readPieces o.core x
    let u := unitBytes src
    let bs := raw ++ List.replicate (u - raw.length) 0
    let o := if a.isSome then { o with crc := crcUpdate o.crc bs } else o
    let (o, s) := if b.isSome then s.opWrite o y (moveElem src dst (copySat o.instr) bs) else (o, s)
    s.moveAll o src dst r

/-- The access of GATH and SCAT to the unit that holds index `k`, when they do not hold it. -/
def State.idxPieces (s : State) (o : Op) (k : Nat) : Got (List Piece) × State :=
  match o.instr with
  | .cpy .. => (.ok [], s)
  | _ =>
    match o.idxAt k with
    | some (row, lo) =>
      if o.idxHeld k then (.ok [], s)
      else s.pieces o .read (.tile o.idxReg (o.handle o.idxReg) row (lo / 64 * 64)) 64
    | none => (.ok [], s)

/-- The first and the last aligned 64-byte unit of an element: what it is part of, and the unit's number there. -/
def Loc.units (l : Loc) (u : Nat) : (Nat × Nat) × (Nat × Nat) :=
  match l with
  | .virt va => ((0, va / 64), (0, (va + u - 1) / 64))
  | .tile _ d row lo => ((1, row * d.rs / 64 + lo / 64), (1, row * d.rs / 64 + (lo + u - 1) / 64))
  | .ttile _ i off => ((2 + i, off / 64), (2 + i, (off + u - 1) / 64))

/-- Whether an element goes on in the unit that the one before it on its side ended in. -/
def sameUnit (last : Option (Nat × Nat)) (l : Option Loc) (u : Nat) : Bool :=
  match l with
  | some l => last == some (l.units u).1
  | none => false

/-- How many elements of a CPY from element `k` on, besides it, are moved in one step: an aligned 64-byte unit is read whole and
written whole (R233, R334, R360), so a step ends where neither side goes on in a unit. `a` and `b` are the units in which the
source and the destination stand. -/
def Op.runLen (o : Op) (us ud : Nat) (k : Nat) : Nat → Option (Nat × Nat) → Option (Nat × Nat) → Nat
  | 0, _, _ => 0
  | n + 1, a, b =>
    let m := o.cpyElem k
    if m.1.isNone && m.2.isNone || sameUnit a m.1 us || sameUnit b m.2 ud then
      1 + o.runLen us ud (k + 1) n ((m.1.map (fun l => (l.units us).2)).or a) ((m.2.map (fun l => (l.units ud).2)).or b)
    else 0

/-- Elements or rows of the next step of a command. -/
def Op.stepLen (o : Op) : Nat :=
  match o.instr with
  | .cpy .. =>
    let (us, ud) := ((o.endp 1).u, (o.endp 0).u)
    let m := o.cpyElem o.index
    1 + o.runLen us ud (o.index + 1) (o.total - o.index - 1) (m.1.map (fun l => (l.units us).2)) (m.2.map (fun l => (l.units ud).2))
  | _ => 1

/-- What an element or a row moves, with the pieces that it accesses. -/
abbrev MoveRow := List (Move1 × List Piece × List Piece)

/-- The accesses of `n` elements or rows from `k` on: those before one that faults or waits, and what that one meets. -/
def State.stepPieces (s : State) (o : Op) (us ud : Nat) : Nat → Nat → (List MoveRow × Got Unit) × State
  | _, 0 => (([], .ok ()), s)
  | k, n + 1 =>
    let ms := s.copyMoves o k
    match s.movePieces o us ud ms with
    | (.ok l, s) =>
      let r := s.stepPieces o us ud (k + 1) n
      ((List.zip ms l :: r.1.1, r.1.2), r.2)
    | (.fault t, s) => (([], .fault t), s)
    | (.wait w, s) => (([], .wait w), s)

/-- The elements or rows of a step are moved. -/
def State.moveRows (s : State) (o : Op) (src dst : Nat) : List MoveRow → Op × State
  | [] => (o, s)
  | ms :: r =>
    let (o, s) := s.moveAll o src dst ms
    let n := if ms.any (fun m => m.1.2.isSome) then 1 else 0
    s.moveRows { o with index := o.index + 1, count := o.count + n, wait := none, st := [] } src dst r

/-- The moves of a step whose index unit, if it has one, has been read. -/
def State.moveStep (s : State) (o : Op) : State :=
  let e := o.endp 1
  let d := o.endp 0
  match s.stepPieces o e.u d.u o.index o.stepLen with
  | ((_, .wait w), s) => s.waitOn o w
  | ((l, g), s) =>
    let all := l.flatMap (fun ms => ms.flatMap (fun p => p.2.1 ++ p.2.2))
    if s.pathBlocked o all then s
    else
      let (o, s) := (s.commitPieces (clusterOfCore o.core) all).moveRows o e.fmt d.fmt l
      match g with
      | .fault t => (s.setOp o).lateOp o t
      | _ =>
        if o.index < o.total then s.setOp o
        else
          let fail := match copyCrc o.instr with
            | some c => crcFinal o.crc != c.toNat
            | none => false
          s.copyEnd o (if fail then 1 else 0) o.count

/-- A step: elements of a CPY to the end of a 64-byte unit, or a row (DESIGN CHOICE, log 119), after its indices (R334). -/
def State.copyStep (s : State) (o : Op) : State :=
  match s.idxPieces o o.index with
  | (.fault t, s) => s.lateOp o t
  | (.wait w, s) => s.waitOn o w
  | (.ok [], s) => s.moveStep o
  | (.ok ix, s) =>
    if s.pathBlocked o ix then s
    else
      let s := s.commitPieces (clusterOfCore o.core) ix
      let o := s.holdIdx o o.index
      (s.setOp o).moveStep o

/-- The start of a CPY, GATH or SCAT; while a descriptor waits it has started already. -/
def State.copyStart (s : State) (o : Op) : State :=
  match s.readDescs o with
  | (.fault t, s) => s.lateOp o t
  | (.wait w, s) => s.waitOn { o with aux := 3 } w
  | (.ok bs, s) =>
    let o := { o with dat := bs, aux := 1, wait := none, st := [] }
    match o.descTrap with
    | some t => s.lateOp o t
    | none => s.setOp o

/-! ## CPYN (R343, R450) -/

/-- TILE_INVALID reason 2 of the handle of an endpoint word (R219). -/
def State.tileGone (s : State) (o : Op) (i : Nat) : Option Trap :=
  let r := endReg (o.x.getD i 0)
  if s.clusOk o.core o.mc o.bind (o.handle r) then none else some { cause := 40, reason := 2, data := r.zeroExtend 32 }

/-- The port that a CPYN or the send of a RING leaves by; `none` when it cannot be read now. -/
def State.sendPort (s : State) (o : Op) : Option (Option Nat) :=
  let byRoute (n : Nat) : Option (Option Nat) :=
    match (s.rxPool o.mc o.id).1 with
    | .ok p => (match (s.netRead o.mc o.id (p.routes + 64 * n + 26) 1).1 with
      | .ok b => some (some (ofBytes b))
      | _ => none)
    | _ => none
  match o.instr with
  | .cpyn .. =>
    let x := o.x.getD 0 0
    if x.testBit 63 then byRoute (bitsOf x 0 12)
    else match (s.bindAt o.bind).req with
      | some r => if r.host.isSome then some none
        else (match (s.netRead o.mc o.id (r.buf.toNat + 36) 1).1 with
          | .ok b => some (some (ofBytes b))
          | _ => none)
      | none => some none
  | .ring .. => if o.index = 0 then byRoute (bitsOf (o.x.getD 2 0) 0 12) else some none
  | _ => some none

/-- An earlier packet of the continuation to the same port has still to leave (R343). -/
def State.sendBlocked (s : State) (o : Op) : Bool :=
  s.ops.any (fun p => p.kind == .copy && p.mc == o.mc && p.fslot == o.fslot && decide (p.id < o.id) && !p.faulted
    && (match s.sendPort p, s.sendPort o with
        | some none, _ => false
        | some (some a), some (some b) => a == b
        | _, _ => true))

/-- A reply to a request of a host queue (R449, R450), with the PASID of its queue: RBYTES grows by the bytes written. -/
def State.replyHost (s : State) (o : Op) (h : HostReq) (pt : List Byte) : State :=
  let b := s.bindAt o.bind
  let fn := (s.mcAt o.mc).part.toNat
  let (n, s) := s.hostPut fn (SMap.get {} (s.funcAt fn).queues h.queue).pas (h.reply + b.rbytes) (pt.length + 1) (pt.take (h.rmax - b.rbytes))
  (s.onBind o.bind (fun b => { b with rbytes := b.rbytes + n })).copyEnd o 0 n

/-- A reply to a request that came by Ethernet (R343). -/
def State.replyNet (s : State) (o : Op) (r : Request) (pt : List Byte) : State :=
  let i := (s.bindAt o.bind).replies
  match s.netRead o.mc o.id r.buf.toNat 64 with
  | (.fault t, s) => s.lateOp o t
  | (.wait w, s) => s.waitOn o w
  | (.ok m, s) =>
    let f (a n : Nat) : Nat := ofBytes (cutBytes m a n)
    if i ≥ 128 then s.copyEnd o 4 0
    else if !s.linkUp (f 36 1) then s.copyEnd o 5 0
    else
      let c := s.mcAt o.mc
      let nonce := toBytes 1 (0x80 + i) ++ toBe 11 (f 24 11)
      let hdr := amiuxHeader 1 c.part.toNat c.func.toNat r.rid.toNat nonce pt.length
      let s := s.emit o.aes (f 36 1) (ofBe (cutBytes m 0 16)) (ofBe (cutBytes m 16 6)) (f 38 2) amiuxPort (f 22 2) nonce hdr pt
      (s.onBind o.bind (fun b => { b with replies := b.replies + 1 })).copyEnd o 0 pt.length

def State.cpynRun (s : State) (o : Op) : State :=
  let x := o.x.getD 0 0
  let len := bitsOf (o.x.getD 2 0) 16 16
  let d := o.tileOf 1
  let (row, lo) := o.originAt 1
  let ps := runPieces d row lo len
  match s.tileGone o 1 with
  | some t => s.lateOp o t
  | none =>
    if s.pathBlocked o ps || s.sendBlocked o then s
    else
      match s.piecesBad o.core ps with
      | some t => s.lateOp o t
      | none =>
        let s := s.commitPieces (clusterOfCore o.core) ps
        let pt := s.runBytes o.core d row lo len
        if x.testBit 63 then
          match s.sendRoute o.aes o.mc o.id 2 (bitsOf x 0 12) (bitsOf x 16 32) pt with
          | (.fault t, s) => s.lateOp o t
          | (.wait w, s) => s.waitOn o w
          | (.ok true, s) => s.copyEnd o 0 len
          | (.ok false, s) => s.copyEnd o 5 0
        else
          match (s.bindAt o.bind).req with
          | none => s.lateOp o { cause := 65, reason := 2 }
          | some r =>
            match r.host with
            | some h => s.replyHost o h pt
            | none => s.replyNet o r pt

/-! ## Matching (R344 to R346) -/

/-- TYPE and RID that an NRECV or a RING waits for. -/
def Op.wants (o : Op) : Option (Nat × Nat) :=
  match o.instr with
  | .nrecv .. => some (2, bitsOf (o.x.getD 1 0) 16 32)
  | .ring .. => let w := o.x.getD 2 0
    some (3, bitsOf w 40 16 * 2 ^ 32 + bitsOf w 24 16 * 2 ^ 16 + bitsOf w 16 8)
  | _ => none

/-- A posted receive that has no message yet. -/
def State.posted (s : State) (o : Op) : Bool :=
  o.kind == .copy && o.aux == 1 && !o.faulted && !o.carried
    && (match o.instr with | .nrecv .. => true | .ring .. => o.index == 1 | _ => false)
    && !(s.mcAt o.mc).unexp.any (fun u => u.to' == some o.id)

/-- Matches operation `o` with the first message that fits. -/
def matchMsg (id typ rid : Nat) : List Unexp → List Unexp
  | [] => []
  | u :: r => if u.to'.isNone && u.typ == typ && u.rid == rid then { u with to' := some id } :: r else u :: matchMsg id typ rid r

/-- The oldest posted receive of a micro-context for a TYPE and a RID. -/
def State.oldestPosted (s : State) (mc typ rid : Nat) : Option Op :=
  s.ops.find? (fun p => p.mc == mc && s.posted p && p.wants == some (typ, rid))

/-- A posted receive looks at the unexpected messages. -/
def State.tryMatch (s : State) (o : Op) : State :=
  match o.wants with
  | some (t, r) =>
    if (s.oldestPosted o.mc t r).map (·.id) == some o.id then
      s.onMc o.mc (fun m => { m with unexp := matchMsg o.id t r m.unexp })
    else s
  | none => s

/-- The message that an operation has been matched with. -/
def State.msgOf (s : State) (o : Op) : Option Unexp := (s.mcAt o.mc).unexp.find? (fun u => u.to' == some o.id)

/-- A matched message is used up; its buffer has returned to the pool. -/
def State.useMsg (s : State) (o : Op) : State :=
  s.onMc o.mc (fun m => { m with unexp := m.unexp.filter (fun v => v.to' != some o.id) })

/-- An operation that is withdrawn gives its message back, and so does one that takes a late fault after its match (R345; DESIGN CHOICE,
log 140). -/
def State.unmatch (s : State) (o : Op) : State :=
  s.onMc o.mc (fun m => { m with unexp := m.unexp.map (fun u => if u.to' == some o.id then { u with to' := none } else u) })

/-- An NRECV writes the message that it has been matched with (R345). -/
def State.nrecvRun (s : State) (o : Op) : State :=
  let s := s.tryMatch o
  match s.msgOf o with
  | none => s
  | some u =>
    let cap := o.capacity
    let n := min u.len cap
    let (row, lo) := o.originAt 0
    let ps := runPieces (o.tileOf 0) row lo n
    match s.tileGone o 0 with
    | some t => (s.unmatch o).lateOp o t
    | none =>
      if s.pathBlocked o ps then s
      else
        match s.netRead o.mc o.id (u.buf + 64) n with
        | (.fault t, s) => (s.unmatch o).lateOp o t
        | (.wait w, s) => s.waitOn o w
        | (.ok bs, s) =>
          match s.returnBuf o.mc o.id u.buf with
          | (.fault t, s) => (s.unmatch o).lateOp o t
          | (.wait w, s) => s.waitOn o w
          | (.ok _, s) =>
            let (o, s) := (s.commitPieces (clusterOfCore o.core) ps).opWrite o ps bs
            (s.useMsg o).copyEnd o (if u.len ≤ cap then 0 else 3) n

/-! ## RING (R347, R348) -/

def ringId (w : Nat) : Nat := bitsOf w 40 16
def ringRev (w : Nat) : Nat := bitsOf w 24 16

/-- Revolution `a` lies before `b` in signed 16-bit difference. -/
def revBefore (a b : Nat) : Bool := decide (toSigned 16 (a + 2 ^ 16 - b) < 0)

/-- A ring revolution is broken in a micro-context. -/
def Mc.isBroken (m : Mc) (w : Nat) : Bool := m.broken.contains (ringId w, ringRev w)

/-- The unexpected ring steps of a broken revolution are discarded (R346). -/
def State.dropBroken (s : State) (mc id rev : Nat) : State :=
  let bad (u : Unexp) : Bool := u.typ == 3 && u.to'.isNone && u.rid / 2 ^ 32 % 65536 == id && u.rid / 2 ^ 16 % 65536 == rev
  let l := (s.mcAt mc).unexp.filter bad
  let s := s.onMc mc (fun m => { m with unexp := m.unexp.filter (fun u => !bad u) })
  l.foldl (fun s u => s.giveBuf mc u.buf) s

/-- RING_BROKEN (R348): the first for its ring id and revolution sends a TYPE 4 message; the destination handle ends. -/
def State.ringBreak (s : State) (o : Op) : State :=
  let w := o.x.getD 2 0
  let rid := ringId w * 2 ^ 32 + ringRev w * 2 ^ 16
  let key := (ringId w, ringRev w)
  let done (s : State) : State :=
    let s := s.unmatch o
    let s := s.onMc o.mc (fun m => {
      m with broken := if m.isBroken w then m.broken else m.broken ++ [key],
             told := if m.told.contains key then m.told else m.told ++ [key] })
    (s.copyEnd o 2 0).opFree o (endReg (o.x.getD 0 0))
  if (s.mcAt o.mc).told.contains key then done s
  else
    match s.sendRoute (s.mcAt o.mc).key o.mc o.id 4 (bitsOf w 0 12) (rid + bitsOf w 16 8) [] with
    | (.fault t, s) => s.lateOp o t
    | (.wait v, s) => s.waitOn o v
    | (.ok _, s) => done s

/-- RINGTO has passed since the issue without a match (R348); `none` when the pool cannot be read now. -/
def State.ringLate (s : State) (o : Op) : Got Bool × State :=
  match s.rxPool o.mc o.id with
  | (.ok p, s) => (.ok (decide (o.rtc + 100000 * p.ringto ≤ s.rtc.toNat)), s)
  | (.fault t, s) => (.fault t, s)
  | (.wait w, s) => (.wait w, s)

/-- The rows of a combination: the received bytes first, the local partial second. -/
def ringRows (rb : Nat) (recv : List Byte) (loc : List Byte) (n : Nat) : List (List Byte) :=
  (List.range n).map (fun i =>
    ((Partial.ofBytes ((recv.drop (i * rb)).take rb)).merge (Partial.ofBytes ((loc.drop (i * rb)).take rb))).bytes)

/-- A kept ring step of the wrong length does not match and is discarded (R347). -/
def State.ringDrop (s : State) (o : Op) : State :=
  let d := o.tileOf 1
  let bad (u : Unexp) : Bool := u.to'.isNone && some (u.typ, u.rid) == o.wants && u.len != d.rows * d.rb
  let l := (s.mcAt o.mc).unexp.filter bad
  let s := s.onMc o.mc (fun m => { m with unexp := m.unexp.filter (fun u => !bad u) })
  l.foldl (fun s u => s.giveBuf o.mc u.buf) s

/-- A receive is posted: it first looks at the messages that are kept (R345, R347). -/
def State.post (s : State) (o : Op) : State :=
  let s := s.setOp o
  match o.instr with
  | .ring .. => if o.index = 1 then (s.ringDrop o).tryMatch o else s
  | _ => s.tryMatch o

def State.ringSend (s : State) (o : Op) : State :=
  let w := o.x.getD 2 0
  let d := o.tileOf 1
  let ps := tileAll d
  let newest := SMap.get 0 (s.mcAt o.mc).ringNew (ringId w)
  let s := s.onMc o.mc (fun m => if newest = 0 || revBefore (newest - 1) (ringRev w)
    then { m with ringNew := SMap.set 0 m.ringNew (ringId w) (ringRev w + 1) } else m)
  match s.tileGone o 1 with
  | some t => s.lateOp o t
  | none =>
    if s.pathBlocked o ps || s.sendBlocked o then s
    else
      match s.piecesBad o.core ps with
      | some t => s.lateOp o t
      | none =>
        let s := s.commitPieces (clusterOfCore o.core) ps
        let rid := ((o.wants).getD (0, 0)).2
        match s.sendRoute (s.mcAt o.mc).key o.mc o.id 3 (bitsOf w 0 12) rid (s.runBytes o.core d 0 0 (d.rows * d.rb)) with
        | (.fault t, s) => s.lateOp o t
        | (.wait v, s) => s.waitOn o v
        | (.ok true, s) => s.post { o with index := 1, wait := none, st := [] }
        | (.ok false, s) => s.ringBreak o

/-- The combination of a RING that has been matched. -/
def State.ringCombine (s : State) (o : Op) (u : Unexp) : State :=
  let d := o.tileOf 0
  let ps := tileAll (o.tileOf 1) ++ tileAll d
  match s.tileGone o 0, s.tileGone o 1 with
  | some t, _ => (s.unmatch o).lateOp o t
  | _, some t => (s.unmatch o).lateOp o t
  | none, none =>
    if s.pathBlocked o ps then s
    else
      match s.netRead o.mc o.id (u.buf + 64) u.len with
      | (.fault t, s) => (s.unmatch o).lateOp o t
      | (.wait w, s) => s.waitOn o w
      | (.ok bs, s) =>
        match s.piecesBad o.core (tileAll (o.tileOf 1)) with
        | some t => (s.unmatch o).lateOp o t
        | none =>
          let s := s.commitPieces (clusterOfCore o.core) ps
          match s.returnBuf o.mc o.id u.buf with
          | (.fault t, s) => (s.unmatch o).lateOp o t
          | (.wait w, s) => s.waitOn o w
          | (.ok _, s) =>
            let rows := ringRows d.rb bs (s.runBytes o.core (o.tileOf 1) 0 0 (d.rows * d.rb)) d.rows
            let (o, s) := rows.zipIdx.foldl (fun (t : Op × State) r => t.2.opWrite t.1 (tilePieces d r.2 0 1032) r.1) (o, s)
            (s.useMsg o).copyEnd o 0 d.rows

/-- A step of RING (R347) (DESIGN CHOICE, log 54). -/
def State.ringRun (s : State) (o : Op) : State :=
  match s.msgOf o with
  | some u => s.ringCombine o u
  | none =>
    if (s.mcAt o.mc).isBroken (o.x.getD 2 0) then s.ringBreak o
    else
      match s.ringLate o with
      | (.fault t, s) => s.lateOp o t
      | (.wait w, s) => s.waitOn o w
      | (.ok true, s) => s.ringBreak o
      | (.ok false, s) => if o.index = 0 then s.ringSend o else (s.ringDrop o).tryMatch o

/-! ## CSEG (R349) -/

/-- What a CSEG finds: pages present, a FAILED segment with an absent page, absent pages, and a fault. -/
structure SegScan where
  s : State
  present : Nat := 0
  absent : Bool := false
  failed : Bool := false
  mig : Option Nat := none
  bad : Option Trap := none

def State.segScan (s : State) (o : Op) (ap page : Nat) : Nat → SegScan → SegScan
  | 0, r => r
  | k + 1, r =>
    let va := ap * 2 ^ 64 + (page * 65536) % 2 ^ 64
    match r.s.xlateDo (r.s.agent o) o.mc o.id va .read with
    | (.ok _ _, t) => s.segScan o ap (page + 1) k { r with s := t, present := r.present + 1 }
    | (.fault c n, t) => { r with s := t, bad := some (xlTrap c n va) }
    | (.mig, t) => s.segScan o ap (page + 1) k { r with s := t, mig := some (r.mig.getD (va / 65536)) }
    | (.seg sg e, t) =>
      let f := (SMap.get {} t.segs sg).state == 3
      s.segScan o ap (page + 1) k { r with s := t.askPage sg e, absent := true, failed := r.failed || f }

/-- CSEG (R349): with NOWAIT it ends at once (DEDUCED, log 43). -/
def State.csegRun (s : State) (o : Op) : State :=
  let x (i : Nat) : Nat := o.x.getD i 0
  let nowait := match o.instr with | .cseg _ _ _ _ n => n == 1 | _ => false
  let pages := if x 2 = 0 then 0 else (x 1 + x 2 - 1) / 65536 - x 1 / 65536 + 1
  let r := s.segScan o (x 0) (x 1 / 65536) pages ⟨s, 0, false, false, none, none⟩
  match r.bad with
  | some t => r.s.lateOp o t
  | none =>
    if nowait then r.s.copyEnd o 0 r.present
    else
      match r.mig with
      | some p => r.s.waitOn o [1, p]
      | none =>
        if !r.absent then r.s.copyEnd o 0 r.present
        else if r.failed then r.s.copyEnd o 7 r.present
        else if o.rtc + 1000 * s.segwait.toNat ≤ s.rtc.toNat then r.s.copyEnd o 6 r.present
        else r.s.setOp { o with wait := none, st := [] }

/-! ## The commands of a cluster (R333) -/

/-- A C command that waits to start. -/
def Op.toStart (p : Op) : Bool := p.kind == .copy && p.aux == 0 && !p.faulted

/-- How far core `c` lies behind the core of its cluster whose turn it is (R333). -/
def State.turnOf (s : State) (c : Nat) : Nat := (c % 16 + 16 - (s.clusterAt (clusterOfCore c)).turn % 16) % 16

/-- A command that has not started may start: earlier ones of its core have, no core of the cluster with a command to start has its turn
before it, and fewer than 8 of the cluster are at work (DEDUCED, log 63). -/
def State.mayStart (s : State) (o : Op) : Bool :=
  !s.ops.any (fun p => p.toStart && p.core == o.core && decide (p.id < o.id))
    && !s.ops.any (fun p => p.toStart && clusterOfCore p.core == clusterOfCore o.core && s.onItsCore p && s.committed p
      && !p.asleep && decide (s.turnOf p.core < s.turnOf o.core))
    && decide ((s.ops.filter (fun p => p.kind == .copy && clusterOfCore p.core == clusterOfCore o.core && p.aux != 0
      && !p.faulted)).length < 8)

/-- The turn passes to the next core (R333). -/
def State.tookTurn (s : State) (c : Nat) : State :=
  let q := clusterOfCore c
  s.setCluster q { s.clusterAt q with turn := (c % 16 + 1) % 16 }

/-- One piece of work of a command; its effects wait for the checkpoint that it is a commit point for (R174). -/
def State.copyRun (s : State) (o : Op) : State :=
  let moves := match o.instr with
    | .cpy .. => true
    | .gath .. => true
    | .scat .. => true
    | _ => false
  if !s.committed o then s
  else if o.aux = 0 then
    (if !s.mayStart o then s else if moves then (s.tookTurn o.core).copyStart o else (s.tookTurn o.core).post { o with aux := 1 })
  else if o.aux = 3 then s.copyStart o
  else
    match o.instr with
    | .cpyn .. => s.cpynRun o
    | .nrecv .. => s.nrecvRun o
    | .ring .. => s.ringRun o
    | .cseg .. => s.csegRun o
    | _ => s.copyStep o

/-- The counted tile accesses of the continuation before operation `o` are performed: an operation that a freeze lets complete need not
wait for them (R335, R358, R405). -/
def State.tilesFirst (s : State) (o : Op) : State :=
  (s.ops.filter (fun p => p.mc == o.mc && p.fslot == o.fslot && decide (p.id < o.id) && (p.kind == .tile || p.kind == .readout) && !p.faulted)).foldl
    (fun s p => s.tileWhole p.id (p.tileWrites.length + 1)) s

/-- A C command at a freeze (R335): a matched NRECV or RING completes; the others are withdrawn. -/
def State.copySettle (s : State) (o : Op) : State :=
  if (s.msgOf o).isNone || o.faulted then s
  else
    let s := s.tilesFirst o
    let s' := match o.instr with
      | .nrecv .. => s.nrecvRun o
      | .ring .. => s.ringRun o
      | _ => s
    s'.unmatch o

end Sys2Proof.Machine
end

