-- ==== Sys2Proof/Machine/SeqTable.lean ====
section
/-!
DEFINITION. What the sequence units do for a Q command that has issued (spec/14_sequence_class.md R372 to R402): handle tables,
block tables, page lists, the block cache of a cluster, and the steps of each command.
-/
namespace Sys2Proof.Machine
set_option Elab.async false
open Sys2Proof

/-! ## Handles and entries (R374 to R380) -/

/-- INDEX of a handle. -/
def hIdx (h : Nat) : Nat := bitsOf h 0 24
def handleOf (part gen cap idx : Nat) : Nat := part * 2 ^ 58 + gen * 2 ^ 42 + 7 * 2 ^ 39 + cap * 2 ^ 33 + idx

/-- A handle-table entry (R378). -/
structure SeqE where
  gen : Nat
  part : Nat
  state : Nat
  slog : Nat
  psl : Nat
  cap : Nat
  rl : Nat
  cl : Nat
  list : Nat
  pslot : Nat
  cown : Nat
  npage : Nat
  creator : Nat
deriving DecidableEq, Repr

def seqOf (bs : List Byte) : SeqE :=
  let f (o n : Nat) : Nat := ofBytes (cutBytes bs o n)
  { gen := f 0 2, part := f 2 1 % 64, state := f 3 1, slog := f 4 1, psl := f 5 1, cap := f 6 1, rl := f 8 4, cl := f 12 4,
    list := f 16 4, pslot := f 20 4, cown := f 24 4, npage := f 28 4, creator := f 32 2 % 2 ^ 14 }
def SeqE.bytes (e : SeqE) : List Byte :=
  toBytes 2 e.gen ++ toBytes 1 e.part ++ toBytes 1 e.state ++ toBytes 1 e.slog ++ toBytes 1 e.psl ++ toBytes 1 e.cap ++ toBytes 1 0
    ++ toBytes 4 e.rl ++ toBytes 4 e.cl ++ toBytes 4 e.list ++ toBytes 4 e.pslot ++ toBytes 4 e.cown ++ toBytes 4 e.npage
    ++ toBytes 2 e.creator ++ List.replicate 30 0

/-- A block-table entry (R380), its number, and the device physical address of its bytes. -/
structure Blk where
  num : Nat
  pa : Nat
  size : Nat
  state : Nat
  refs : Nat
deriving DecidableEq, Repr

def boundTrap : Trap := { cause := 34, reason := 1 }

/-- An address of a partition's private memory (R377). -/
def Part.seqAddr (p : Part) (rel : Nat) : Except Trap Nat :=
  match p.privMap rel with
  | some a => .ok a
  | none => .error boundTrap

def Part.entryAddr (p : Part) (i : Nat) : Except Trap Nat := p.seqAddr (p.htBase.toNat + 64 * i)
def State.entryAt (s : State) (p : Part) (i : Nat) : Except Trap SeqE := do
  let a ← p.entryAddr i
  return seqOf (rdBytes s.mem a 64)
/-- A write on the SEQ path: for a command, whose continuation's PTS rises with it and every release that waits for it (R355, R361); or
for the management core. Tentative bytes in its lines are committed first (R371, R423). -/
def State.seqPut (s : State) (w : Option Op) (a : Nat) (bs : List Byte) : State :=
  let s := s.commitLines none a bs.length
  match w with
  | some o => let (t, s) := s.wrMem o.pts a bs; s.wrote o t
  | none => (s.wrMem 0 a bs).2
/-- Writes an entry. -/
def State.putEntry (s : State) (p : Part) (i : Nat) (w : Option Op) (e : SeqE) : State :=
  match p.entryAddr i with
  | .ok a => s.seqPut w a e.bytes
  | .error _ => s

def State.blkAt (s : State) (p : Part) (b : Nat) : Except Trap Blk := do
  let a ← p.seqAddr (p.btBase.toNat + 16 * b)
  let pa ← p.seqAddr (rdNum s.mem a 8)
  return ⟨b, pa, rdNum s.mem (a + 8) 1, rdNum s.mem (a + 9) 1, rdNum s.mem (a + 10) 2⟩
/-- Writes STATE and REFS of a block. -/
def State.putBlk (s : State) (p : Part) (b : Nat) (w : Option Op) (state refs : Nat) : State :=
  match p.seqAddr (p.btBase.toNat + 16 * b) with
  | .ok a => s.seqPut w (a + 9) (toBytes 1 state ++ toBytes 2 refs)
  | .error _ => s

/-- log2 of the bytes of the list block of a sequence (R379), and of its pages. -/
def SeqE.listSize (e : SeqE) : Nat :=
  let n := 512 + 4 * 2 ^ (e.cap - e.psl)
  ((List.range 7).find? (fun k => decide (n ≤ 2 ^ (10 + k)))).getD 6 + 10
def SeqE.pageSize (e : SeqE) : Nat := e.slog + e.psl
def SeqE.pageOf (e : SeqE) (slot : Nat) : Nat := slot / 2 ^ e.psl

/-- The list block; a poisoned one stops a command that reads it for slot `slot` (R397). -/
def State.listBlk (s : State) (p : Part) (e : SeqE) (slot : Nat) : Except Trap Blk := do
  let b ← s.blkAt p e.list
  if b.state = 3 then .error { cause := 84, reason := 1, data := BitVec.ofNat 32 slot } else return b
/-- The block of page `j`, if its entry is VALID. -/
def State.pageBlk (s : State) (p : Part) (l : Blk) (j : Nat) : Except Trap (Option Blk) := do
  let x := rdNum s.mem (l.pa + 512 + 4 * j) 4
  if bitsOf x 31 1 = 1 then
    let b ← s.blkAt p (bitsOf x 0 28)
    return some b
  else return none
def State.putPage (s : State) (l : Blk) (j : Nat) (w : Option Op) (b : Nat) : State :=
  s.seqPut w (l.pa + 512 + 4 * j) (toBytes 4 (2 ^ 31 + b))

/-- The fill bitmap (R379): slot `i` of the window is marked. -/
def State.marked (s : State) (l : Blk) (i : Nat) : Bool := (rdByte s.mem (l.pa + i % 4096 / 8)).toNat.testBit (i % 8)
def State.setMark (s : State) (l : Blk) (i : Nat) (w : Option Op) (v : Bool) : State :=
  let a := l.pa + i % 4096 / 8
  s.seqPut w a [setBit (rdByte s.mem a) (i % 8) v]

/-! ## Commands and their operands (R383, R384) -/

/-- The handle of a command, and its right: 1 read, 2 append, 3 fork, 0 none. -/
def Op.seqHandle (o : Op) : Nat := match o.instr with | .sqatt .. => o.x.getD 2 0 | _ => o.x.getD 1 0
def seqRight : Instr → Nat
  | .sqget .. => 1 | .sqatt .. => 1 | .sqwait .. => 1 | .sqlen .. => 1
  | .sqres .. => 2 | .sqput .. => 2 | .sqcmt .. => 2 | .sqrel .. => 2
  | .sqfork .. => 3
  | _ => 0
/-- A value sequence that SQATT names besides (R400). -/
def Op.valHandle (o : Op) : Option Nat :=
  match o.instr with
  | .sqatt _ _ _ w => if w = 0 then none else some (o.x.getD 3 0)
  | _ => none
/-- FIRST and n of a range word; the count, target or fork point. -/
def Op.range (o : Op) : Nat × Nat :=
  match o.instr with
  | .sqput _ _ _ _ e => rangeOf (o.x.getD 2 0) e
  | .sqget _ _ _ _ e => rangeOf (o.x.getD 2 0) e
  | .sqcmt _ _ _ _ e => rangeOf (o.x.getD 2 0) e
  | _ => (0, 0)
def Op.kval (o : Op) : Nat :=
  let w (e : Option Word32) : Nat := match e with | some v => v.toNat | none => bitsOf (o.x.getD 2 0) 0 32
  match o.instr with
  | .sqres _ _ _ _ e => w e
  | .sqwait _ _ _ _ e => w e
  | .sqfork _ _ _ _ e => w e
  | _ => 0
/-- The register of a result word (R385). -/
def seqX : Instr → SReg
  | .sqnew _ x _ => x
  | .sqres _ x _ _ _ => x
  | .sqcmt _ x _ _ _ => x
  | .sqlen _ x _ _ => x
  | .sqwait _ x _ _ _ => x
  | .sqfork _ x _ _ _ => x
  | .sqinfo _ x _ _ => x
  | _ => 0

def State.seqPart (s : State) (o : Op) : Part := s.partOfMc o.mc
def State.seqPartNo (s : State) (o : Op) : Nat := (s.mcAt o.mc).part.toNat

/-- The handle check (R375); against an absent partition it fails (R118; DEDUCED, log 123). -/
def State.handleCheck (s : State) (o : Op) (h : Nat) : Except Trap SeqE :=
  let p := s.seqPart o
  let bad (r : Nat) : Except Trap SeqE := .error { cause := 80, reason := r, data := BitVec.ofNat 32 (hIdx h) }
  if !p.active || p.htN.toNat ≤ hIdx h then bad 1
  else do
    let e ← s.entryAt p (hIdx h)
    if e.part ≠ s.seqPartNo o || bitsOf h 58 6 ≠ s.seqPartNo o then bad 2
    else if e.state = 0 || e.gen ≠ bitsOf h 42 16 || bitsOf h 42 16 = 0 then bad 3
    else if e.cap ≠ bitsOf h 33 6 then bad 4
    else return e

/-- The rights check (R376). -/
def rightsCheck (r h : Nat) : Option Trap :=
  if r = 0 || bitsOf h (42 - r) 1 = 1 then none
  else some { cause := 81, reason := r, data := BitVec.ofNat 32 (hIdx h) }

/-- A command ends; `v` is its result word, if it has one. -/
def State.seqEnd (s : State) (o : Op) (v : Option Nat) : State :=
  match v with
  | some x => (s.writeDest o (.s (seqX o.instr) (BitVec.ofNat 64 x))).finishOp o
  | none => s.finishOp o
/-- STATUS and value of R385. -/
def seqResult (status v : Nat) : Nat := status * 2 ^ 56 + v % 2 ^ 32

/-! ## The block cache (R381, R382) -/

/-- A block is poisoned (R397). -/
def State.blkBad (s : State) (part b : Nat) : Bool :=
  match s.blkAt (s.partAt part) b with
  | .ok k => k.state == 3
  | .error _ => false

/-- Puts a block into a cluster's cache; without room, or poisoned, it goes on its way back to the allocator (R382). -/
def State.cacheBlk (s : State) (q part b size : Nat) : State :=
  let k := s.clusterAt q
  if k.blocks.length < 64 && !s.blkBad part b then s.setCluster q { k with blocks := k.blocks ++ [(part, b, size)] }
  else s.setCluster q { k with rets := k.rets ++ [(part, b, size)] }

/-- Takes a cached block of a partition and size. -/
def State.takeCached (s : State) (q part size : Nat) : Option (Nat × State) :=
  let k := s.clusterAt q
  match k.blocks.find? (fun b => b.1 == part && b.2.2 == size) with
  | some b => some (b.2.1, s.setCluster q { k with blocks := k.blocks.erase b })
  | none => none

/-- An operation gives back the blocks that it holds and no longer needs; `count` is the log2 of their size. -/
def State.dropGot (s : State) (o : Op) : State :=
  o.got.foldl (fun s b => s.cacheBlk (clusterOfCore o.core) (s.seqPartNo o) b o.count) s

/-- The end of a command that asks for blocks, with a result word; and its late fault. -/
def State.blkEnd (s : State) (o : Op) (v : Nat) : State := (s.dropGot o).seqEnd o (some v)
def State.blkFault (s : State) (o : Op) (t : Trap) : State := (s.dropGot o).lateOp { o with got := [] } t

/-- Takes cached blocks as far as there are any. -/
def State.takeMany (s : State) (o : Op) (size : Nat) : Nat → Op × State
  | 0 => (o, s)
  | k + 1 =>
    match s.takeCached (clusterOfCore o.core) (s.seqPartNo o) size with
    | some (b, s) => s.takeMany { o with got := o.got ++ [b] } size k
    | none => (o, s)

/-- An operation holds `n` blocks of a size, none of them poisoned (R382), or waits for its unit to ask (`[3, size]`). -/
def State.obtain (s : State) (o : Op) (size n : Nat) : Option Op × State :=
  let (bad, good) := o.got.partition (s.blkBad (s.seqPartNo o))
  let s := s.dropGot { o with got := bad }
  let (o, s) := s.takeMany { o with got := good, count := size } size (n - good.length)
  if n ≤ o.got.length then
    let o := { o with wait := none, st := [] }
    (some o, s.setOp o)
  else (none, s.setOp { o with wait := some (o.wait.getD s.rtc.toNat), st := [3, size] })

/-- A command whose GRANT has been refused, `[5, status]`, completes with that status (R381); the value beside the status of SQRES is
free. -/
def State.seqRefused (s : State) (o : Op) : State :=
  let st := o.st.getD 1 0
  match o.instr with
  | .sqres .. => let (v, s) := s.fresh; s.blkEnd o (seqResult st (Config.freeBits v))
  | _ => s.blkEnd o st

/-- REFS after one more reference; past 65,535 the spec gives no value (DESIGN CHOICE, log 3). -/
def State.refsUp (s : State) (r : Nat) : Nat × State :=
  if r < 65535 then (r + 1, s)
  else
    let (n, s) := s.fresh
    (Config.freeBits n % 65536, s)

/-- Drops one reference of a block (R382). -/
def State.dropRef (s : State) (q part : Nat) (w : Option Op) (b : Nat) : State :=
  let p := s.partAt part
  match s.blkAt p b with
  | .error _ => s
  | .ok k =>
    if k.refs > 1 then s.putBlk p b w k.state (k.refs - 1)
    else (s.putBlk p b w (if k.state = 3 then 3 else 1) 0).cacheBlk q part b k.size

/-! ## Waiting for other commands -/

/-- The sequence that a command names. -/
def Op.seqKey (o : Op) : Nat := hIdx o.seqHandle
/-- Another command of the partition that has passed its handle check on sequence `i` and is not complete. -/
def State.seqOthers (s : State) (o : Op) (i : Nat) : List Op :=
  s.ops.filter (fun p => p.kind == .seq && p.id != o.id && p.aux != 0 && !p.faulted && s.seqPartNo p == s.seqPartNo o
    && (match p.instr with | .sqnew .. => false | .sqmrg .. => false | _ => true)
    && (p.seqKey == i || p.valHandle.map hIdx == some i))
/-- An SQPUT that has started and has still to write a slot of [lo, hi) (R389, R391). -/
def State.putPending (s : State) (o : Op) (i lo hi : Nat) : Bool :=
  (s.seqOthers o i).any (fun p => match p.instr with
    | .sqput .. => decide (p.range.1 + p.index < hi) && decide (lo < p.range.1 + p.range.2)
    | _ => false)

/-! ## SQNEW, SQFORK (R388, R395) -/

/-- The lowest FREE entry; an entry that lies outside the partition ends the search with its cause (R377). -/
def State.freeEntry (s : State) (p : Part) : Except Trap (Option Nat) :=
  match firstIdx (fun i => match s.entryAt p i with | .ok e => e.state == 0 | .error _ => true) p.htN.toNat 0 with
  | some i => (s.entryAt p i).map (fun _ => some i)
  | none => .ok none

/-- A new sequence, once its list block is held: its entry, with the pages that it shares. -/
def State.seqMake (s : State) (o : Op) (i : Nat) (e : SeqE) (pages : List Nat) : State :=
  let p := s.seqPart o
  let part := s.seqPartNo o
  let b := o.got.headD 0
  match s.entryAt p i, s.blkAt p b with
  | .ok old, .ok l =>
    let gen := if (old.gen + 1) % 65536 = 0 then 1 else (old.gen + 1) % 65536
    let w := some o
    let s := s.seqPut w l.pa (List.replicate (2 ^ e.listSize) 0)
    let s := s.putBlk p b w 2 1
    let s := pages.zipIdx.foldl (fun s x =>
      let s := s.putPage l x.2 w x.1
      match s.blkAt p x.1 with
      | .ok k => let (r, s) := s.refsUp k.refs
                 s.putBlk p x.1 w k.state r
      | .error _ => s) s
    let s := s.putEntry p i w { e with gen := gen, part := part, state := 1, list := b, pslot := 0xFFFFFFFF, cown := 0,
                                       npage := pages.length, creator := o.mc }
    let s := s.onPart part (fun x => { x with seqU := x.seqU + 1 })
    s.blkEnd { o with got := o.got.drop 1 } (handleOf part gen e.cap i)
  | _, _ => s.blkFault o boundTrap

/-- A new sequence with geometry `e`: the quota, which no absent partition has left (R118), a free entry and a list block (R388). -/
def State.seqCreate (s : State) (o : Op) (e : SeqE) (pages : List Nat) : State :=
  let p := s.seqPart o
  if !p.active || p.seqQ ≤ p.seqU then s.blkEnd o 3
  else
    match s.freeEntry p with
    | .error t => s.blkFault o t
    | .ok none => s.blkEnd o 4
    | .ok (some i) =>
      match s.obtain o e.listSize 1 with
      | (none, s) => s
      | (some o, s) => s.seqMake o i e pages

def emptySeq : SeqE := seqOf []
def State.sqnewRun (s : State) (o : Op) : State :=
  let w := o.x.getD 1 0
  s.seqCreate o { emptySeq with slog := bitsOf w 12 4, psl := bitsOf w 8 4, cap := bitsOf w 0 5 } []

/-- The blocks of the first `n` pages. -/
def State.firstPages (s : State) (p : Part) (l : Blk) : Nat → Except Trap (List Nat)
  | 0 => .ok []
  | n + 1 => do
    let r ← s.firstPages p l n
    match ← s.pageBlk p l n with
    | some b => return r ++ [b.num]
    | none => return r

def State.sqforkRun (s : State) (o : Op) : State :=
  let p := s.seqPart o
  let k := o.kval
  match s.handleCheck o o.seqHandle with
  | .error t => s.blkFault o t
  | .ok e =>
    if e.cl < k then s.blkFault o { cause := 82, reason := 4, data := BitVec.ofNat 32 k }
    else if e.state = 2 && e.pslot < k then s.blkFault o { cause := 84, reason := 2, data := BitVec.ofNat 32 k }
    else
      match (do let l ← s.listBlk p e 0; s.firstPages p l (ceilDiv k (2 ^ e.psl))) with
      | .error t => s.blkFault o t
      | .ok pages => s.seqCreate o { e with rl := k, cl := k } pages

/-! ## SQRES (R389) -/

/-- Pages of [rl, rl + n) that need a new block: the page, and the block that it copies from, if it does. -/
def State.resNeeds (s : State) (p : Part) (l : Blk) : List Nat → Except Trap (List (Nat × Option Blk))
  | [] => .ok []
  | j :: r => do
    let rest ← s.resNeeds p l r
    match ← s.pageBlk p l j with
    | none => return (j, none) :: rest
    | some b => if b.refs > 1 then return (j, some b) :: rest else return rest

/-- One page gets its new block. -/
def State.resPage (s : State) (o : Op) (e : SeqE) (l : Blk) (x : (Nat × Option Blk) × Nat) : State :=
  let p := s.seqPart o
  let ((j, old), b) := x
  match s.blkAt p b with
  | .error _ => s
  | .ok nb =>
    let s := match old with
      | some k =>
        let n := (e.rl - j * 2 ^ e.psl) * 2 ^ e.slog
        (s.seqPut (some o) nb.pa (rdBytes s.mem k.pa n)).putBlk p k.num (some o) k.state (k.refs - 1)
      | none => s
    (s.putBlk p b (some o) 2 1).putPage l j (some o) b

def State.sqresRun (s : State) (o : Op) : State :=
  let p := s.seqPart o
  let n := o.kval
  match s.handleCheck o o.seqHandle with
  | .error t => s.blkFault o t
  | .ok e =>
    let done (s : State) (st : Nat) : State := s.blkEnd o (seqResult st e.rl)
    if n = 0 then done s 0
    else if 2 ^ e.cap < e.rl + n then done s 1
    else if e.cl + 4096 < e.rl + n then done s 2
    else if e.state = 2 then done s 6
    else
      let j0 := e.pageOf e.rl
      let js := (List.range (e.pageOf (e.rl + n - 1) - j0 + 1)).map (· + j0)
      match (do let l ← s.listBlk p e e.rl; let ns ← s.resNeeds p l js; return (l, ns)) with
      | .error t => s.blkFault o t
      | .ok (l, ns) =>
        match ns.find? (fun x => match x.2 with | some b => b.state == 3 && decide (x.1 * 2 ^ e.psl < e.rl) | none => false) with
        | some x => s.blkFault o { cause := 84, reason := 1, data := BitVec.ofNat 32 (x.1 * 2 ^ e.psl) }
        | none =>
          match s.obtain o e.pageSize ns.length with
          | (none, s) => s
          | (some o, s) =>
            if o.got.any (fun b => (s.blkAt p b).toOption.isNone) then s.blkFault o boundTrap
            else if ns.any (fun x => x.2.isSome && s.putPending o o.seqKey (x.1 * 2 ^ e.psl) ((x.1 + 1) * 2 ^ e.psl)) then s
            else
              let s := (List.zip ns o.got).foldl (fun s x => s.resPage o e l x) s
              let news := (ns.filter (·.2.isNone)).length
              let e' := { e with rl := e.rl + n, npage := e.npage + news,
                                 cown := min 0xFFFFFFFF (e.cown + (ns.length - news)) }
              (s.putEntry p o.seqKey (some o) e').blkEnd { o with got := o.got.drop ns.length } (seqResult 0 e.rl)

/-! ## SQPUT, SQGET (R390, R398) -/

/-- The cause of a slot that SQPUT and SQCMT may not write or mark. -/
def State.putTrap (s : State) (e : SeqE) (l : Blk) (i : Nat) : Option Trap :=
  let d := BitVec.ofNat 32 i
  if e.rl ≤ i then some { cause := 82, reason := 3, data := d }
  else if i < e.cl then some { cause := 82, reason := 1, data := d }
  else if s.marked l i then some { cause := 83, reason := 1, data := d }
  else none

/-- The cause of a slot that may not be read. -/
def getTrap (e : SeqE) (i : Nat) : Option Trap :=
  let d := BitVec.ofNat 32 i
  if e.rl ≤ i then some { cause := 82, reason := 3, data := d }
  else if e.cl ≤ i then some { cause := 82, reason := 2, data := d }
  else if e.state = 2 && e.pslot ≤ i then some { cause := 84, reason := 1, data := d }
  else none

/-- The address of a slot; `read` says that a poisoned block stops it. -/
def State.slotAddr (s : State) (p : Part) (e : SeqE) (l : Blk) (read : Bool) (i : Nat) : Except Trap Nat := do
  match ← s.pageBlk p l (e.pageOf i) with
  | none => .error boundTrap
  | some b =>
    if read && b.state == 3 then .error { cause := 84, reason := 1, data := BitVec.ofNat 32 i }
    else return b.pa + i % 2 ^ e.psl * 2 ^ e.slog

/-- The first trap of a list of slots (DEDUCED, log 45). -/
def State.slotsTrap (s : State) (p : Part) (e : SeqE) (l : Blk) (put : Bool) : List Nat → Option Trap
  | [] => none
  | i :: r =>
    match (if put then s.putTrap e l i else getTrap e i) with
    | some t => some t
    | none =>
      match s.slotAddr p e l (!put) i with
      | .error t => some t
      | .ok _ => s.slotsTrap p e l put r

/-- Whether the command is SQPUT. -/
def Op.isPut (o : Op) : Bool := match o.instr with | .sqput .. => true | _ => false

/-- The start of an SQPUT or SQGET: the checks of all slots that are left. -/
def State.moveStart (s : State) (o : Op) (e : SeqE) : State :=
  let p := s.seqPart o
  let (f, n) := o.range
  let slots := (List.range (n - o.index)).map (fun j => f + o.index + j)
  match s.listBlk p e (f + o.index) with
  | .error t => s.lateOp o t
  | .ok l =>
    match s.slotsTrap p e l o.isPut slots with
    | some t => s.lateOp o t
    | none => s.setOp { o with aux := 1 }

/-- An earlier command of the continuation has still to access slot `i` of its sequence (R358). -/
def State.slotBlocked (s : State) (o : Op) (i : Nat) : Bool :=
  (s.seqOthers o o.seqKey).any (fun p => p.mc == o.mc && p.fslot == o.fslot && decide (p.id < o.id)
    && (match p.instr with
        | .sqput .. => decide (p.range.1 + p.index ≤ i) && decide (i < p.range.1 + p.range.2)
        | .sqget .. => decide (p.range.1 + p.index ≤ i) && decide (i < p.range.1 + p.range.2)
        | _ => false))

/-- One slot. -/
def State.moveSlot (s : State) (o : Op) : State :=
  let p := s.seqPart o
  let (f, n) := o.range
  let i := f + o.index
  let w := o.x.getD 0 0
  let d := o.wordTile 0
  let row := wordRow w + o.index
  if s.slotBlocked o i then s
  else
  match (do let e ← s.entryAt p o.seqKey
            let l ← s.listBlk p e i
            if !o.isPut && e.state == 2 && decide (e.pslot ≤ i) then
              .error { cause := 84, reason := 1, data := BitVec.ofNat 32 i }
            else
              let a ← s.slotAddr p e l (!o.isPut) i
              return (e, a)) with
  | .error t => s.lateOp o t
  | .ok (e, a) =>
    let ps := tilePieces d row 0 (2 ^ e.slog)
    match s.tileGone o 0 with
    | some t => s.lateOp o t
    | none =>
      if s.pathBlocked o ps then s
      else
        match (if o.isPut then s.piecesBad o.core ps else none) with
        | some t => s.lateOp o t
        | none =>
          let s := s.commitPieces (clusterOfCore o.core) ps
          let (o, s) := if o.isPut then s.opWrite o [⟨.mem, a, 2 ^ e.slog⟩] (s.tileSlice o.core d row 0 (2 ^ e.slog))
            else s.opWrite o ps (rdBytes s.mem a (2 ^ e.slog))
          let o := { o with index := o.index + 1 }
          if o.index < n then s.setOp o else s.seqEnd o none

/-! ## SQCMT, SQREL, SQWAIT, SQLEN, SQINFO (R391 to R396) -/

/-- CL advances over marked slots, whose marks are cleared (R391). -/
def State.advanceCl (s : State) (l : Blk) (w : Option Op) (rl : Nat) : Nat → Nat → State × Nat
  | 0, cl => (s, cl)
  | k + 1, cl => if cl < rl && s.marked l cl then (s.setMark l cl w false).advanceCl l w rl k (cl + 1) else (s, cl)

/-- SQWAIT looks at its sequence (R394); when k is at most CL and beyond PSLOT of a POISONED sequence, both answers fit the rule, and it is
OK (DESIGN CHOICE, log 144). -/
def State.sqwaitRun (s : State) (o : Op) : State :=
  let k := o.kval
  match s.handleCheck o o.seqHandle with
  | .error _ => s.seqEnd o (some (seqResult 5 0))
  | .ok e =>
    if 2 ^ e.cap < k then
      let (v, s) := s.fresh
      s.seqEnd o (some (seqResult 1 (Config.freeBits v)))
    else if k ≤ e.cl then s.seqEnd o (some (seqResult 0 e.cl))
    else if e.state = 2 && e.pslot < k then s.seqEnd o (some (seqResult 6 e.cl))
    else s

/-- CL or STATE of sequence `i` of a partition has changed: every SQWAIT on it that has started is checked in the same step (R394). -/
def State.seqWaits (s : State) (part i : Nat) : State :=
  (s.ops.filter (fun p => p.kind == .seq && p.aux != 0 && !p.faulted && s.seqPartNo p == part && p.seqKey == i
    && (match p.instr with | .sqwait .. => true | _ => false))).foldl (fun s p => s.sqwaitRun p) s

def State.sqcmtRun (s : State) (o : Op) : State :=
  let p := s.seqPart o
  let (f, n) := o.range
  let slots := (List.range n).map (· + f)
  match (do let e ← s.handleCheck o o.seqHandle; let l ← s.listBlk p e f; return (e, l)) with
  | .error t => s.lateOp o t
  | .ok (e, l) =>
    match slots.findSome? (s.putTrap e l) with
    | some t => s.lateOp o t
    | none =>
      if s.putPending o o.seqKey f (f + n) then s
      else
        let s := slots.foldl (fun s i => s.setMark l i (some o) true) s
        let (s, cl) := s.advanceCl l (some o) e.rl 4097 e.cl
        let s := s.putEntry p o.seqKey (some o) { e with cl := cl }
        (s.seqEnd o (some (seqResult 0 cl))).seqWaits (s.seqPartNo o) o.seqKey

/-- SQREL: the commands in `after` have passed their handle checks before it (R396) (DEDUCED, log 47). -/
def State.sqrelRun (s : State) (o : Op) : State :=
  let p := s.seqPart o
  if o.after.any (fun i => match s.opAt i with | some q => !q.faulted | none => false) then s
  else
    match (do let e ← s.handleCheck o o.seqHandle
              let l ← s.blkAt p e.list
              let pages ← s.firstPages p l (2 ^ (e.cap - e.psl))
              return (e, pages)) with
    | .error t => s.lateOp o t
    | .ok (e, pages) =>
      let q := clusterOfCore o.core
      let part := s.seqPartNo o
      let s := (pages ++ [e.list]).foldl (fun s b => s.dropRef q part (some o) b) s
      let s := s.putEntry p o.seqKey (some o) { e with state := 0 }
      ((s.onPart part (fun x => { x with seqU := x.seqU - 1 })).seqEnd o none).seqWaits part o.seqKey

def State.sqlenRun (s : State) (o : Op) : State :=
  let rl := match o.instr with | .sqlen _ _ _ r => r == 1 | _ => false
  match s.handleCheck o o.seqHandle with
  | .error t => s.lateOp o t
  | .ok e => s.seqEnd o (some (seqResult 0 (if rl then e.rl else e.cl)))

def State.sqinfoRun (s : State) (o : Op) : State :=
  let p := s.seqPart o
  let f := match o.instr with | .sqinfo _ _ _ f => f.toNat | _ => 0
  match (do let e ← s.handleCheck o o.seqHandle
            let bits ← if f = 6 then (do let l ← s.listBlk p e e.cl; return rdNum s.mem l.pa 512) else .ok 0
            return (e, bits)) with
  | .error t => s.lateOp o t
  | .ok (e, bits) =>
    let v := match f with
      | 0 => e.cl
      | 1 => e.rl
      | 2 => e.state * 2 ^ 16 + e.slog * 2 ^ 12 + e.psl * 2 ^ 8 + e.cap
      | 3 => e.pslot
      | 4 => e.cown
      | 5 => e.npage
      | _ => popCount 4096 bits
    s.seqEnd o (some (seqResult 0 v))

/-! ## SQATT (R400, R401, R405) -/

/-- The operand block. -/
structure AttArg where
  qv : Bool
  qf : Nat
  lo : Nat
  hi : Nat
  hoff : Nat
  kvf : Nat
  D : Nat
  scale : Nat
deriving DecidableEq, Repr

/-- The operand block of an SQATT; the bits of s[x + 3] that the table does not list, [63:60] and [47:44], are ignored (DESIGN CHOICE,
log 145). -/
def Op.attArg (o : Op) : AttArg :=
  let x (i : Nat) : Nat := o.x.getD i 0
  let qv := (x 0).testBit 63
  { qv := qv, qf := if qv then bitsOf (x 0) 16 2 else (o.wordTile 0).fmt.toNat, lo := bitsOf (x 4) 0 32, hi := bitsOf (x 4) 32 32,
    hoff := bitsOf (x 5) 48 12, kvf := bitsOf (x 5) 40 4, D := bitsOf (x 5) 32 8 + 1, scale := bitsOf (x 5) 0 32 }

/-- KVF as a format code. -/
def kvCode (k : Nat) : Nat := if k = 1 then 1 else if k = 2 then 2 else 3

/-- The SQATTs of a cluster that the decode-attention engine has taken before operation `o`: it runs one at a time, in the order of their
arrival (R403). -/
def State.attQueue (s : State) (o : Op) : List Op :=
  s.ops.filter (fun p => p.kind == .seq && p.id != o.id && p.aux != 0 && !p.faulted && clusterOfCore p.core == clusterOfCore o.core
    && (match p.instr with | .sqatt .. => true | _ => false))
/-- An SQATT that the engine has taken earlier is still at work. -/
def State.attWaits (s : State) (o : Op) : Bool :=
  o.after.any (fun i => match s.opAt i with | some p => !p.faulted | none => false)

/-- The start of an SQATT: its operand block (R400) (DEDUCED, log 85). -/
def State.attStart (s : State) (o : Op) (e v : SeqE) : State :=
  let a := o.attArg
  let u := unitBytes (kvCode a.kvf)
  let split := o.valHandle.isNone
  let room (e : SeqE) : Nat := 2 ^ e.slog / u / (if split then 2 else 1)
  let range (e : SeqE) : Option Trap := if e.cl < a.hi then
    some { cause := 82, reason := 2, data := BitVec.ofNat 32 (max a.lo e.cl) } else none
  if room e < a.hoff + a.D || room v < a.hoff + a.D then s.lateOp o { cause := 85, reason := 2 }
  else
    match range e, range v with
    | some t, _ => s.lateOp o t
    | none, some t => s.lateOp o t
    | none, none => s.setOp { o with aux := 1, after := (s.attQueue o).map (·.id) }

/-- The values of `D` elements of slot `i` from byte `b` on. -/
def State.slotVals (s : State) (p : Part) (e : SeqE) (l : Blk) (code b D i : Nat) : Except Trap (List FVal) := do
  if e.state == 2 && decide (e.pslot ≤ i) then .error { cause := 84, reason := 1, data := BitVec.ofNat 32 i }
  else
    let a ← s.slotAddr p e l true i
    let u := unitBytes code
    return (List.range D).map (fun d => fval code (rdNum s.mem (a + b + d * u) u))
where
  fval (c x : Nat) : FVal := match ffmtOf c with | some F => F.decode x | none => .zero false

def State.chunkVals (s : State) (o : Op) : List Nat → Except Trap (List (List FVal × List FVal))
  | [] => .ok []
  | i :: r => do
    let p := s.seqPart o
    let a := o.attArg
    let c := kvCode a.kvf
    let u := unitBytes c
    let e ← s.entryAt p o.seqKey
    let l ← s.listBlk p e i
    let k ← s.slotVals p e l c (a.hoff * u) a.D i
    let v ← match o.valHandle with
      | none => s.slotVals p e l c ((a.hoff + 2 ^ e.slog / (2 * u)) * u) a.D i
      | some h => do
        let e2 ← s.entryAt p (hIdx h)
        let l2 ← s.listBlk p e2 i
        s.slotVals p e2 l2 c (a.hoff * u) a.D i
    let rest ← s.chunkVals o r
    return (k, v) :: rest

/-- The query (R400): the row of a tile, or the v registers as they were read at issue. -/
def State.attQuery (s : State) (o : Op) : List FVal :=
  let a := o.attArg
  let u := unitBytes a.qf
  let bs := if a.qv then o.dat else s.tileSlice o.core (o.wordTile 0) (wordRow (o.x.getD 0 0)) 0 (a.D * u)
  (List.range a.D).map (fun d => match ffmtOf a.qf with
    | some F => F.decode (ofBytes (cutBytes bs (d * u) u))
    | none => .zero false)

/-- The partial row. -/
def Op.attRow (o : Op) : List Piece := tilePieces (o.wordTile 1) (wordRow (o.x.getD 1 0)) 0 1032

/-- Writes the running partial to its row. -/
def State.attWrite (s : State) (o : Op) (p : Partial) : Op × State := s.opWrite o o.attRow p.bytes

/-- The running partial, held in `got` as m, l and o; after a resume it stands in the row (DESIGN CHOICE, log 51). -/
def State.attPartial (s : State) (o : Op) : Partial :=
  match o.got with
  | m :: l :: r => ⟨m, l, r⟩
  | _ => if o.index = 0 then Partial.start else Partial.ofBytes (s.readPieces o.core o.attRow)

/-- A fault or a freeze leaves the running partial in the row (R405). -/
def State.attSave (s : State) (o : Op) : State :=
  if o.got.isEmpty || (s.tileGone o 1).isSome then s else let (o, s) := s.attWrite o (s.attPartial o); s.setOp { o with got := [] }

/-- The next chunk, or the end. -/
def State.attChunk (s : State) (o : Op) : State :=
  let a := o.attArg
  let qs := if a.qv then [] else tilePieces (o.wordTile 0) (wordRow (o.x.getD 0 0)) 0 (a.D * unitBytes a.qf)
  let ps := qs ++ o.attRow
  match s.tileGone o 1, (if a.qv then none else s.tileGone o 0) with
  | some t, _ => s.lateOp o t
  | none, some t => s.lateOp o t
  | none, none =>
    let reads := if o.got.isEmpty && o.index != 0 then ps else qs
    if s.attWaits o || s.pathBlocked o ps then s
    else
      match s.piecesBad o.core reads with
      | some t => (s.attSave o).lateOp { o with got := [] } t
      | none =>
        let s := s.commitPieces (clusterOfCore o.core) ps
        let pt := s.attPartial o
        let c := a.lo + 64 * o.index
        if a.hi ≤ c then
          let (o, s) := s.attWrite o pt
          s.seqEnd o none
        else
          match s.chunkVals o ((List.range (min 64 (a.hi - c))).map (· + c)) with
          | .error t => (s.attSave o).lateOp { o with got := [] } t
          | .ok kv =>
            let q := pt.chunk (s.attQuery o) a.scale kv a.D
            let o := { o with index := o.index + 1, got := q.m :: q.l :: q.o }
            if a.hi ≤ c + 64 then
              let (o, s) := s.attWrite o q
              s.seqEnd o none
            else s.setOp o

/-! ## SQMRG (R402) -/

def State.sqmrgRun (s : State) (o : Op) : State :=
  let n := bitsOf (o.x.getD 0 0) 16 8 + 1
  let row (i j : Nat) : List Piece := tilePieces (o.wordTile i) (wordRow (o.x.getD i 0) + j) 0 1032
  let ps := (List.range n).flatMap (fun j => row 0 j ++ row 1 j ++ row 2 j)
  let reads := (List.range n).flatMap (fun j => row 1 j ++ row 2 j)
  match [0, 1, 2].findSome? (s.tileGone o) with
  | some t => s.lateOp o t
  | none =>
    if s.pathBlocked o ps then s
    else
      match s.piecesBad o.core reads with
      | some t => s.lateOp o t
      | none =>
        let s := s.commitPieces (clusterOfCore o.core) ps
        let (o, s) := (List.range n).foldl (fun (t : Op × State) j =>
          let rd (i : Nat) : Partial := Partial.ofBytes (t.2.readPieces o.core (row i j))
          t.2.opWrite t.1 (row 0 j) ((rd 1).merge (rd 2)).bytes) (o, s)
        s.seqEnd o none

/-! ## The commands of a cluster (R403) -/

def isSqatt : Instr → Bool
  | .sqatt .. => true
  | _ => false

/-- A Q command whose check or step accesses the handle entry only once, and has still to (R358). -/
def Op.oneStep (o : Op) : Bool :=
  match o.instr with
  | .sqres .. => true
  | .sqcmt .. => true
  | .sqfork .. => true
  | .sqrel .. => true
  | .sqlen .. => true
  | .sqinfo .. => true
  | _ => false

/-- An earlier command of the continuation has still to make its step on a handle entry that this one accesses (R358; DEDUCED,
log 123). -/
def State.entryBlocked (s : State) (o : Op) : Bool :=
  match o.instr with
  | .sqnew .. => false
  | .sqmrg .. => false
  | _ => (o.seqKey :: (o.valHandle.map hIdx).toList).any (fun i => (s.seqOthers o i).any (fun p =>
      p.mc == o.mc && p.fslot == o.fslot && decide (p.id < o.id) && p.oneStep))

/-- A Q command that waits to start. -/
def Op.seqToStart (p : Op) : Bool := p.kind == .seq && p.aux == 0 && !p.faulted

/-- How far core `c` lies behind the core of its cluster whose turn it is with the sequence unit (R403). -/
def State.seqTurnOf (s : State) (c : Nat) : Nat := (c % 16 + 16 - (s.clusterAt (clusterOfCore c)).seqTurn % 16) % 16

/-- A command may start: earlier ones of its core have, it is its core's turn, and fewer than 8 of its cluster are at work. -/
def State.seqMayStart (s : State) (o : Op) : Bool :=
  let here (p : Op) : Bool := p.kind == .seq && clusterOfCore p.core == clusterOfCore o.core && !p.faulted
  let first (p : Op) : Bool := !s.ops.any (fun r => r.seqToStart && r.core == p.core && decide (r.id < p.id))
  let ready (p : Op) : Bool := p.seqToStart && s.onItsCore p && s.committed p && first p && !s.entryBlocked p
  ready o && !s.ops.any (fun p => here p && decide (s.seqTurnOf p.core < s.seqTurnOf o.core) && ready p)
    && decide ((s.ops.filter (fun p => here p && p.aux != 0)).length < 8)

/-- The turn passes to the next core. -/
def State.seqTookTurn (s : State) (c : Nat) : State :=
  let q := clusterOfCore c
  s.setCluster q { s.clusterAt q with seqTurn := (c % 16 + 1) % 16 }

/-- The start of a command: its handle check, then its rights, then the checks that are made before anything moves. -/
def State.seqStart (s : State) (o : Op) : State :=
  match o.instr with
  | .sqnew .. => s.setOp { o with aux := 1 }
  | .sqmrg .. => s.setOp { o with aux := 1 }
  | _ =>
    let vh := o.valHandle.getD o.seqHandle
    match s.handleCheck o o.seqHandle, s.handleCheck o vh with
    | .error t, _ => s.lateOp o t
    | .ok _, .error t => s.lateOp o t
    | .ok e, .ok v =>
      match rightsCheck (seqRight o.instr) o.seqHandle, rightsCheck (seqRight o.instr) vh with
      | some t, _ => s.lateOp o t
      | none, some t => s.lateOp o t
      | none, none =>
        match o.instr with
        | .sqput .. => s.moveStart o e
        | .sqget .. => s.moveStart o e
        | .sqatt .. => s.attStart o e v
        | .sqwait .. => (s.setOp { o with aux := 1 }).sqwaitRun { o with aux := 1 }
        | .sqrel .. =>
          let before := (s.seqOthers o o.seqKey).filter (fun p => match p.instr with | .sqwait .. => false | _ => true)
          s.setOp { o with aux := 1, after := before.map (·.id) }
        | _ => s.setOp { o with aux := 1 }

/-- One piece of work of a command that has started. -/
def State.seqWork (s : State) (o : Op) : State :=
  match o.instr with
  | .sqnew .. => s.sqnewRun o
  | .sqres .. => s.sqresRun o
  | .sqput .. => s.moveSlot o
  | .sqget .. => s.moveSlot o
  | .sqcmt .. => s.sqcmtRun o
  | .sqlen .. => s.sqlenRun o
  | .sqwait .. => s.sqwaitRun o
  | .sqfork .. => s.sqforkRun o
  | .sqrel .. => s.sqrelRun o
  | .sqatt .. => s.attChunk o
  | .sqmrg .. => s.sqmrgRun o
  | .sqinfo .. => s.sqinfoRun o
  | _ => s

/-- A partition's handle table, block table and granted blocks, by device physical address: base and bytes. -/
def State.seqMem (s : State) (part : Nat) : List (Nat × Nat) :=
  let p := s.partAt part
  let base := p.privBase.toNat
  let blocks := match SMap.get none s.pools part with
    | some pool => pool.blocks.map (fun x => (base + x.2.1, 2 ^ x.2.2))
    | none => []
  (base + p.htBase.toNat, 64 * p.htN.toNat) :: (base + p.btBase.toNat, 16 * p.btN.toNat) :: blocks

/-- The writers of tentative bytes among a partition's sequences take their checkpoints before its sequences are accessed (R371, R423). -/
def State.seqClear (s : State) (part : Nat) : State :=
  let m := s.seqMem part
  s.commitAll (s.cores.flatMap (fun e => (e.2.undo.filter (fun u => u.clus.isNone
    && m.any (fun r => decide (r.1 / 64 * 64 ≤ u.addr) && decide (u.addr < (r.1 + r.2 + 63) / 64 * 64)))).map (fun u => (u.addr, 1))))

/-- One piece of work of a command; its effects wait for the checkpoint that it is a commit point for (R174), and a command that has
asked for blocks waits for the answer (R381). -/
def State.seqRun (s : State) (o : Op) : State :=
  if !s.committed o then s
  else
    let s := s.seqClear (s.seqPartNo o)
    if o.aux = 0 then (if s.seqMayStart o then (s.seqTookTurn o.core).seqStart o else s)
    else if o.st.headD 0 = 5 then s.seqRefused o
    else if o.st.headD 0 = 3 || o.st.headD 0 = 4 then s
    else s.seqWork o

/-! ## Poisoned blocks (R397) -/

/-- An uncorrectable error in a block that has been granted: its STATE is 3, and a cached one goes back to the allocator. -/
def State.poisonBlk (s : State) (part blk : Nat) : State :=
  match s.blkAt (s.partAt part) blk with
  | .error _ => s
  | .ok b =>
    if b.state = 0 || b.state = 3 || (s.partAt part).btN.toNat ≤ blk then s
    else
      let s := s.putBlk (s.partAt part) blk none 3 b.refs
      (s.clusters.filter (fun e => e.2.blocks.any (fun x => x.1 == part && x.2.1 == blk))).foldl (fun s e =>
        let k := s.clusterAt e.1
        let (x, y) := k.blocks.partition (fun x => x.1 == part && x.2.1 == blk)
        s.setCluster e.1 { k with blocks := y, rets := k.rets ++ x }) s

/-- An uncorrectable error in a 64-byte unit of memory reaches the blocks that hold it (R397, R406). -/
def State.poisonBlocks (s : State) (unit : Nat) : State :=
  (s.pools.filterMap (fun e => e.2.map (fun p => (e.1, p)))).foldl (fun s e =>
    let base := (s.partAt e.1).privBase.toNat
    (e.2.blocks.filter (fun b => decide (base + b.2.1 ≤ 64 * unit) && decide (64 * unit < base + b.2.1 + 2 ^ b.2.2))).foldl
      (fun s b => s.poisonBlk e.1 b.1) s) s

/-! ## A freeze (R405) -/


/-- A command that runs to its end beside the freeze: SQLEN, SQINFO, SQMRG. -/
def Op.runsOn (o : Op) : Bool :=
  match o.instr with
  | .sqlen .. => true
  | .sqinfo .. => true
  | .sqmrg .. => true
  | _ => false

/-- A Q command at a freeze: SQLEN, SQINFO and SQMRG complete; SQATT writes its partial; blocks that a command holds go to the
cache (DEDUCED, log 59). -/
def State.seqSettle (s : State) (o : Op) : State :=
  if o.faulted then s
  else if o.runsOn then
    let s := s.tilesFirst o
    let s' := if o.aux = 0 then s.seqStart o else s
    match s'.opAt o.id with
    | some p => if p.faulted || p.aux = 0 then s' else s'.seqWork p
    | none => s'
  else if isSqatt o.instr then s.attSave o
  else
    let held := if o.st.headD 0 = 4 then o.got ++ o.st.drop 3 else o.got
    (s.dropGot { o with got := held }).setOp { o with got := [], st := [] }

end Sys2Proof.Machine
end

