-- ==== Sys2Proof/Machine/Freeze.lean ====
section
/-!
DEFINITION. The freeze of a continuation (spec/15_traps.md R408 to R416, R481): settling what is in flight, progress records
and the frame; and the frame that a SUSP writes (R127, R155).
-/
namespace Sys2Proof.Machine
set_option Elab.async false
open Sys2Proof

/-! ## Writing a frame (R125 to R127) -/

def boolNat (b : Bool) : Nat := if b then 1 else 0

/-- A byte of ZFLAGS (R126). -/
def ZFlag.bits (f : ZFlag) : Nat := boolNat f.valid + 2 * boolNat f.spectral + 4 * boolNat f.sat
def ZFlag.ofBits (x : Nat) : ZFlag := ⟨x.testBit 0, x.testBit 1, x.testBit 2⟩

/-- The valid handles in ascending order. -/
def Arch.handles (a : Arch) : List (Nat × TDesc) := a.t.filter (fun e => e.2.valid)
def bitMask (l : List Nat) : Nat := l.foldl (fun t i => t + 2 ^ i) 0

/-- What the frame records of a stopped bundle: PEND, SKREM and TARGET (R481). -/
structure Pend where
  pend : Nat := 0
  skrem : Nat := 0
  target : Nat := 0
deriving DecidableEq, Repr

/-- The header that a stopping continuation leaves (R126) (DESIGN CHOICE, log 13). -/
def State.archHeader (s : State) (b : Nat) (a : Arch) (zf : Nat) (w : Pend) : List Byte :=
  let (pa, _, ix) := s.bindVals b
  headerOf (a.p ||| 1).toNat a.rmode.toNat a.fflags.toNat (s.bindAt b).num
    ((List.range 4).flatMap (fun i => toBytes 4 (a.rdLc (BitVec.ofNat 2 i)).toNat))
    ((List.range 8).flatMap (fun i => toBytes 8 (a.rdK (BitVec.ofNat 3 i)).toNat))
    ((List.range 16).flatMap (fun i => toBytes 2 (a.rdFt (BitVec.ofNat 4 i)).toNat))
    zf (bitMask (a.handles.map (·.1))) (bitMask ((a.handles.filter (fun e => !e.2.clus)).map (·.1))) pa (a.rdA 30).toNat ix
    w.pend w.skrem w.target

/-- Writes the registers that `live` names, the descriptors of the valid handles and the PRIV image, packed in ascending
handle order (R127) (DEDUCED, log 60). -/
def State.writeAreas (s : State) (mc fs : Nat) (a : Arch) (live : RegWrite → Bool) : State :=
  let regs : List RegWrite :=
    (List.range 64).map (fun i => .s (BitVec.ofNat 6 i) (a.rdS (BitVec.ofNat 6 i)))
      ++ (List.range 32).map (fun i => .a (BitVec.ofNat 5 i) (a.rdA (BitVec.ofNat 5 i)))
      ++ (List.range 64).map (fun i => .v (BitVec.ofNat 6 i) (a.rdV (BitVec.ofNat 6 i)))
  let put (s : State) (w : RegWrite) : State :=
    match w with
    | .s r v => s.frameWrite mc fs (320 + 8 * r.toNat) (toBytes 8 v.toNat)
    | .a r v => s.frameWrite mc fs (832 + 16 * r.toNat) (toBytes 16 v.toNat)
    | .v r v => s.frameImage mc fs (1344 + 256 * r.toNat) 0 (wrBytes [] 0 (if v = 0 then [] else toBytes 256 v.toNat)) 2 256
    | _ => s
  let s := (regs.filter live).foldl put s
  let s := s.frameWrite mc fs 48 (toBytes 8 (a.rdS 1).toNat ++ toBytes 8 (a.rdS 2).toNat)
  let s := a.handles.foldl (fun s e => s.frameWrite mc fs (17728 + 16 * e.1) (toBytes 16 e.2.bits)) s
  ((a.handles.filter (fun e => !e.2.clus)).foldl (fun (t : State × Nat) e =>
    (t.1.frameImage mc fs (65536 + 4096 * t.2) (4096 * e.2.base.toNat) a.priv 10 (4096 * e.2.units), t.2 + e.2.units)) (s, 0)).1

/-- A core that holds no continuation (R129): its cycle count and its L1 stay; the cycles that it has delivered are owed to
the binding (R138); a check failure that was being retried is recorded (R24). -/
def State.releaseCore (s : State) (c : Nat) : State :=
  let s := s.retryOver c
  let x := s.coreAt c
  (s.onBind x.bind (fun b => { b with owed := b.owed + x.delivered })).setCoreAt c { cyc := x.cyc, l1 := x.l1 }

/-! ## The frame of a SUSP (R127, R155) -/

/-- Writes the frame of a SUSP with its RESUME and masks, and the wait. -/
def State.suspFrame (s : State) (c : Nat) (resume amask smask vmask wkind wid wtarget : Nat) : State :=
  let x := s.coreAt c
  let a := x.now
  let live (w : RegWrite) : Bool :=
    match w with
    | .s r _ => smask.testBit r.toNat && decide (3 ≤ r.toNat)
    | .a r _ => amask.testBit r.toNat && r != 0 && r != 30 && r != 31
    | .v r _ => vmask.testBit r.toNat
    | _ => false
  let s := s.frameWrite x.mc x.fslot 64 (s.archHeader x.bind a 0 {})
  let s := s.writeAreas x.mc x.fslot a live
  let s := s.frameWrite x.mc x.fslot 0 (toBytes 4 resume)
  let s := s.frameWrite x.mc x.fslot 8 (toBytes 2 c ++ toBytes 1 wkind ++ toBytes 3 0 ++ toBytes 2 wid ++ toBytes 4 wtarget
    ++ toBytes 4 amask)
  s.frameWrite x.mc x.fslot 32 (toBytes 8 smask ++ toBytes 8 vmask)

/-! ## The in-flight queue (R413) -/

/-- KIND, REG and VALUE of an entry; `none` for a write that no entry holds. -/
def ifqOf : RegWrite → Option (Nat × Nat × List Byte)
  | .s r v => some (0, r.toNat, toBytes 256 v.toNat)
  | .a r v => some (1, r.toNat, toBytes 256 v.toNat)
  | .v r v => some (2, r.toNat, toBytes 256 v.toNat)
  | .k r v => some (3, r.toNat, toBytes 256 v.toNat)
  | .t r v => some (4, r.toNat, toBytes 256 v.bits)
  | _ => none

/-- Results in flight that no entry holds: an accumulator's MZERO, and flags alone (DESIGN CHOICE, log 27). -/
def Arch.odd (a : Arch) : List Landing := a.fly.filter (fun x => (ifqOf x.w).isNone)

/-! ## Settling (R409) -/

/-- A progress record, the operation that it stands for, and the query of its save area (R405, R416). -/
structure ProgRec where
  id    : Nat
  bytes : List Byte
  save  : List Byte := []
deriving DecidableEq, Repr

/-- A record without FAULTED. -/
def unfault (b : List Byte) : List Byte := b.set 2 (BitVec.ofNat 8 ((b.getD 2 0).toNat / 2 * 2))

/-- Reads the rows that a pass has still to read (R272). -/
def State.passFinish (s : State) (c : Nat) (p : Pass) : State × Pass :=
  let first := if p.age ≤ 64 * p.m then 0 else ceilDiv (p.age - 64 * p.m) p.m
  ((List.range p.rows).filter (fun i => decide (first ≤ i))).foldl (fun (t : State × Pass) i =>
    let s := t.1.settleClus c p.id p.mov i 0 p.mov.rb
    (s, { t.2 with movD := putRow t.2.movD i (s.tileRd c p.mov i 0 p.mov.rb) })) (s, p)

/-- What settling the passes gives: the state, the accumulators as the landings leave them, the pending images in issue
order, the records of passes that the freeze finds at fault, and the MZEROs in flight that no landing has passed yet. -/
structure PassSettle where
  s : State
  a : Arch
  imgs : List (Pass × SMap Word32 × ZFlag)
  recs : List ProgRec
  odd : List Landing

/-- The MZEROs that land before a pass with `rem` cycles left (R60, R269) are in the accumulators that it finds. -/
def PassSettle.zeroed (t : PassSettle) (rem : Nat) : PassSettle :=
  let first := t.odd.filter (fun l => decide (l.remain < rem))
  { t with a := t.a.wrAll (sortLandings first), odd := t.odd.filter (fun l => !decide (l.remain < rem)) }

def State.passSettle (s : State) (c : Nat) : PassSettle :=
  let x := s.coreAt c
  x.now.passes.foldl (fun (t : PassSettle) p =>
    let t := t.zeroed (p.lat - p.age)
    match p.img with
    | some (m, f) => { t with a := (t.a.zSet p.z m).setZflag p.z f, imgs := t.imgs ++ [(p, m, f)] }
    | none =>
      if p.age < 64 * p.m && wordBF p.word == 9 && !p.spec && badTrit p.stat p.cols p.depth then
        let inv (a : Arch) : Arch := a.setZflag p.z { a.zflag p.z with valid := false }
        { t with s := t.s.onArchAt c inv, a := inv t.a,
                 recs := t.recs ++ [⟨p.id, s.recReissue x.mc 4 false 0 (fixWord p.word p.instr) p.addr 0 [] 0, []⟩] }
      else
        let (s', q) := t.s.passFinish c p
        -- R428: a pass that meets an uncorrectable word does so again when it has been re-issued
        if (s'.allBad c p.mov).isSome || (p.acc && (t.a.accBad p.z).isSome) then
          { t with s := s', recs := t.recs ++ [⟨p.id, s.recReissue x.mc 4 false 0 (fixWord p.word p.instr) p.addr 0 [] 0, []⟩] }
        else
        let a := t.a.landPass p.z p.acc p.spec q.input
        { t with s := s', a := a, imgs := t.imgs ++ [(p, a.zGet p.z, a.zflag p.z)] })
    ⟨s, x.now, [], [], x.now.odd⟩

/-- The records and images of the pending passes (R412, R416 KIND 3). -/
def State.passRecs (s : State) (c : Nat) (imgs : List (Pass × SMap Word32 × ZFlag)) : State × List ProgRec :=
  let x := s.coreAt c
  imgs.zipIdx.foldl (fun (t : State × List ProgRec) e =>
    let ((p, m, f), i) := e
    let occ := if i + 1 = imgs.length then x.now.occ else 0
    let body := toBytes 1 p.z ++ toBytes 1 i ++ toBytes 1 f.bits ++ toBytes 1 0 ++ toBytes 4 (p.lat - p.age) ++ toBytes 4 occ
    (t.1.frameImage x.mc x.fslot (1114112 + 131072 * i) 0 (zBytes m) 4 131072,
      t.2 ++ [⟨p.id, recBytes 3 4 false 0 (some (fixWord p.word p.instr)) body, []⟩])) (s, [])

/-- The record and the image of a pending readout (R412, R416 KIND 4) (DESIGN CHOICE, log 57). -/
def State.readRecs (s : State) (c : Nat) : State × List ProgRec :=
  let x := s.coreAt c
  x.now.reads.foldl (fun (t : State × List ProgRec) r =>
    let img := (List.range r.rows).foldl (fun m i => wrBytes m (i * r.dst.rs) (rdBytes r.data (rowKey i 0) r.rbytes)) []
    let body := toBytes 1 r.t.toNat ++ toBytes 1 (boolNat r.spectral) ++ toBytes 2 r.rows ++ toBytes 4 r.remain
      ++ toBytes 2 r.rbytes
    (t.1.frameImage x.mc x.fslot 1376256 0 img 10 (r.rows * r.dst.rs), t.2 ++ [⟨r.id, recBytes 4 4 false 0 r.instr body, []⟩])) (s, [])

/-- Reads the beats of a step that has begun (R301). -/
def State.xFinish (s : State) (c : Nat) : Nat → XStream → State × XStream
  | 0, x => (s, x)
  | k + 1, x =>
    if x.age % x.st = 0 || x.reads ≤ x.age then (s, x)
    else
      let (s, y) := s.xRead c x
      s.xFinish c k { y with age := y.age + 1 }

/-- Lands the steps on their way; the step that raises a cause, if one does. -/
def State.xSettleLand (s : State) (c : Nat) (x : XStream) : List XPend → State × Option Nat
  | [] => (s, none)
  | p :: r => if p.fault.isSome then (s, some p.k) else (s.xPendLand c true x p).xSettleLand c x r

/-- The X streams at a freeze (R301): what has begun lands; the rest is one record. -/
def State.xSettle (s : State) (c : Nat) : State × List ProgRec :=
  let x := s.coreAt c
  x.now.xs.foldl (fun (t : State × List ProgRec) y =>
    let (s, z) := t.1.xFinish c y.st y
    let (s, bad) := s.xSettleLand c z z.pend
    let next := y.base + ceilDiv (min y.age y.reads) (max y.st 1)
    let idx := match bad with
      | some k => k
      | none => next
    if y.off || y.steps ≤ idx || (y.st = 0 && bad.isNone) then (s, t.2)
    else (s, t.2 ++ [⟨y.id, s.recX x.mc false idx y, []⟩])) (s, [])

/-- The group that holds an operation, with its pen. -/
def State.groupOf (s : State) (o : Op) : Option (Nat × FGroup) :=
  ((pensOf (clusterOfCore o.core)).flatMap (fun p => ((s.penAt p).groups.filter (·.has o.id)).map (fun g => (p, g)))).head?

/-- When the pass of an MMULW lands, for the order of the landings at a freeze (R291). -/
def State.landOf (s : State) (o : Op) : Nat := ((s.groupOf o).bind (fun e => e.2.landAt)).getD 0

/-- A later-issued member of the core lands in the same accumulator in the same cycle, so that its value remains (R60, R262). -/
def State.overtaken (s : State) (o : Op) : Bool :=
  s.ops.any (fun p => decide (o.id < p.id) && p.core == o.core && p.mc == o.mc && p.fslot == o.fslot && p.zdest.1 == o.zdest.1
    && (p.waited.map (·.phase)) == some .started && s.landOf p == s.landOf o && (s.waitedTrap p).isNone)

/-- A member whose pass has started lands (R291). One that a fault keeps from landing is re-issued, and meets it again. -/
def State.foldFire (s : State) (o : Op) : State :=
  match s.groupOf o with
  | none => s
  | some (p, g) =>
    let s := (s.statReads g.key).waitedRows o g.key
    let (stat, bad) := s.statTable (p / 4) g.key
    let s' := match bad, s.waitedTrap o with
      | none, none =>
        if statBad g.word g.key (o.stationary g.key stat) then
          s.onOpArch o (fun a => a.setZflag o.zdest.1 { a.zflag o.zdest.1 with valid := false })
        else ((if s.overtaken o then s.finishOp o else s.waitedPut o g.key stat).foldCount p 8 1).foldCount p 16 (if g.members.length > 1 then 1 else 0)
      | _, _ => s
    s'.onGroups p (fun h => if h.id = g.id then { h with members := h.members.map (fun m =>
      if m.op == o.id then { m with op := 0 } else m) } else h)

/-- An MMULW at a freeze (R272, R291): it completes when its pass has begun, or it is withdrawn and has a record (DEDUCED, log 58). -/
def State.waitedSettle (s : State) (o : Op) : State × List ProgRec :=
  let s' := match o.waited with
    | some w =>
      (match w.phase with
       | .started => s.foldFire o
       | .share => if w.began && !o.faulted then (s.tilesFirst o).waitedDone o w else s
       | _ => s.foldWithdraw o)
    | none => s
  if (s'.opAt o.id).isNone then (s', [])
  else (s'.dropOp o.id, [⟨o.id, s.recOp o false, []⟩])

/-- What settling the operations has come to: the state, the records, the work that will not end before the resume, and
whether a scalar access has been withdrawn, so that the later ones are too (R354). -/
structure OpSettle where
  s : State
  recs : List ProgRec
  gone : List Nat
  blocked : Bool := false
  /-- the operations that are withdrawn, as they stand (R363, R416) -/
  ops : List Op := []

/-- A C or Q command after what it does at the freeze (R335, R405): complete, at fault as a carried access is, or withdrawn. -/
def OpSettle.after (t : OpSettle) (o : Op) (s : State) : OpSettle :=
  match s.opAt o.id with
  | none => { t with s := s }
  | some p =>
    if p.faulted then
      let ls := (s.coreAt o.core).late.filter (·.op == o.id)
      let s := s.onCoreAt o.core (fun x => { x with late := x.late.filter (·.op != o.id) })
      let s := s.onCont (contKey o.mc o.fslot) (fun y => { y with late := y.late ++ ls })
      { t with s := s.setOp { p with carried := true } }
    else { t with s := s.dropOp o.id, recs := t.recs ++ [⟨o.id, s.recOp p false, p.save⟩], gone := o.id :: t.gone,
                   ops := t.ops ++ [p] }

/-- One operation at a freeze (R409). -/
def OpSettle.one (t : OpSettle) (o : Op) : OpSettle :=
  let carry : OpSettle := { t with s := t.s.setOp { o with carried := true } }
  let drop : OpSettle := { t with s := t.s.dropOp o.id, recs := t.recs ++ [⟨o.id, t.s.recOp o false, o.save⟩],
                                  gone := o.id :: t.gone, ops := t.ops ++ [o] }
  match o.kind with
  | .scalar =>
    if t.blocked || o.faulted || o.wait.isSome || o.after.any t.gone.contains then { drop with blocked := true } else carry
  | .tile => if o.faulted then drop else carry
  | .readout => if o.faulted then drop else carry
  | .waited => t
  | .copy => if o.faulted then drop else t.after o (t.s.copySettle o)
  | .seq => if o.faulted then drop else t.after o (t.s.seqSettle o)
  | _ => t

/-- The operations of a continuation. -/
def State.opsOf (s : State) (mc fs : Nat) : List Op := s.ops.filter (fun o => o.mc == mc && o.fslot == fs)

/-- The stall that a freeze ends (R166, R169): a loan is withdrawn; a barrier arrival is withdrawn unless the barrier has
released it, which `serveFreeze` lets complete first, so that only a trap of its own bundle finds it here. -/
def State.stallSettle (s : State) (c : Nat) : State :=
  let x := s.coreAt c
  let s := s.onArchAt c (fun a => { a with stall := .none })
  match x.now.stall with
  | .waitf _ _ (some sg) _ => s.endLoan x.mc sg
  | .gbar b op released mis =>
    if released then s.onCont (contKey x.mc x.fslot) (fun y => { y with passed := some b })
    else if mis then s
    else if (s.opAt op).isSome then s.dropOp op
    else s.onBind x.bind (fun y =>
      let r := SMap.get {} y.bars b
      { y with bars := SMap.set {} y.bars b ⟨r.count - 1, if r.count ≤ 1 then 0 else r.target, r.bts⟩ })
  | _ => s

/-- The records of active loops and pending fences (R416 KIND 1, 2). The one record of several fences holds the syllable of the last of them
(R168; DESIGN CHOICE, log 147). -/
def State.loopRecs (s : State) (c : Nat) : List ProgRec :=
  let x := s.coreAt c
  let off (a : VAddr) : Nat := s.codeOffset x.mc a
  let ls := (x.now.loops.filter (fun e => e.2.active)).map (fun e =>
    (⟨0, recBytes 1 0 false 0 e.2.instr (toBytes 1 e.1 ++ toBytes 3 0 ++ toBytes 4 (off e.2.lstart) ++ toBytes 4 (off e.2.lend)), []⟩ : ProgRec))
  let fs := x.now.fences
  if fs.isEmpty then ls
  else
    let before := fs.foldl (fun m f => m ||| f.before) 0
    let after := fs.foldl (fun m f => m ||| f.after) 0
    ls ++ [⟨0, recBytes 2 0 false 0 ((fs.getLast?).bind (·.instr)) (toBytes 1 before.toNat ++ toBytes 1 after.toNat), []⟩]

/-! ## The entries of the in-flight queue (R413) -/

/-- Ascending landing cycle, then slot, then issue order. -/
def Landing.ifqBefore (x y : Landing) : Bool := x.remain < y.remain || (x.remain == y.remain && x.before y)
def insIfq (x : Landing) : List Landing → List Landing
  | [] => [x]
  | y :: r => if x.ifqBefore y then x :: y :: r else y :: insIfq x r
def sortIfq : List Landing → List Landing
  | [] => []
  | x :: r => insIfq x (sortIfq r)

/-- The entries of the results in flight, each with its 272 bytes. -/
def ifqBytes (l : List Landing) : List (List Byte) :=
  let l := sortIfq (l.filter (fun x => (ifqOf x.w).isSome))
  l.map (fun x =>
    let (k, r, v) := (ifqOf x.w).getD (0, 0, [])
    let seq := (l.filter (fun y => y.slot == x.slot && decide (y.seq < x.seq))).length
    toBytes 2 x.remain ++ toBytes 1 k ++ toBytes 1 r ++ toBytes 1 x.slot ++ toBytes 1 x.flags.toNat ++ toBytes 2 seq ++ toBytes 8 0 ++ v)

/-! ## The place of the freeze (R408, R481) -/

/-- RESUME as an address, and the pending state. The bundle that would have issued is the one after the line-end markers, and after
the end bundle of a loop with count 0 (R29, R150; DESIGN CHOICE, log 14). -/
def State.pendOf (s : State) (mc : Nat) (a : Arch) : VAddr × Pend :=
  let off (t : VAddr) : Nat := s.codeOffset mc t
  let sk := if a.sk > 0 then 1 else 0
  let plain : VAddr × Pend :=
    match a.passTo with
    | some e =>
      if a.sk > 0 then (a.last, { pend := 1, skrem := a.sk - 1 })
      else
        (match s.bundleAfter? mc e.toNat with
         | some n => (BitVec.ofNat 72 n, {})
         | none => (a.last, { pend := 1, skrem := 0 }))
    | none =>
      if a.sk > 0 || a.past then (if a.past then a.pc else a.last, { pend := 1, skrem := a.sk })
      else (BitVec.ofNat 72 (s.skipMarkers mc a.pc.toNat fetchFuel), {})
  match a.xfer with
  | none => plain
  | some x =>
    let d := if x.done then 8 else 0
    let rem := if x.done then 0 else sk
    match x.kind with
    | .branch t => (x.base, { pend := 3, skrem := sk, target := off t })
    | .susp desc _ _ _ _ => (x.base, { pend := 5 + d, skrem := rem, target := desc.toNat })
    | .retire => (x.base, { pend := 7 + d, skrem := rem })
    | .yield => plain

/-- The end bundle of a loop with count 0 that the resume has still to find, with the empty cycles before it (R150). -/
def State.overOf (s : State) (mc : Nat) (a : Arch) : Option (VAddr × Nat) :=
  match a.passTo with
  | some e => if a.sk = 0 && (s.bundleAfter? mc e.toNat).isSome then none else some (e, a.sk)
  | none => none

/-- The wait that a pending SUSP leaves in the record. -/
def Arch.pendWait (a : Arch) : Nat × Nat × Nat :=
  match a.xfer with
  | some ⟨.susp _ k i t _, _, _, _⟩ => (k, i, t.toNat)
  | _ => (0, 0, 0)

/-- The units of PRIV that hold an uncorrectable word, by handle and place in its tile (R428). -/
def Arch.badTiles (a : Arch) : List (Nat × Nat) :=
  a.t.flatMap (fun e => if e.2.valid && !e.2.clus then
      (a.badPriv.filter (fun u => decide (64 * e.2.base.toNat ≤ u) && decide (u < 64 * (e.2.base.toNat + e.2.units)))).map (fun u =>
        (e.1, u - 64 * e.2.base.toNat))
    else [])

/-- A YIELD with a true guard has issued and has not suspended. -/
def Arch.yielding (a : Arch) : Bool :=
  match a.xfer with
  | some ⟨.yield, _, _, _⟩ => true
  | _ => false

/-- The frozen continuation keeps with the Shepherd what its frame has no field for (DESIGN CHOICE, log 13) (DESIGN CHOICE, log 14)
(DESIGN CHOICE, log 27); `fens` are the fences of its withdrawn C commands (R164). -/
def State.keepOf (s : State) (mc : Nat) (a : Arch) (fens : List (Nat × Nat)) (y : Cont) : Cont :=
  { y with
    delay := a.delay, noStep := a.noStep || a.yielding, passTo := s.overOf mc a, started := a.started, odd := a.odd, fens := fens, badPriv := a.badTiles, badAcc := a.badAcc,
    epis := a.reads.filterMap (fun r => r.epi.map (fun e => (r.id, e))),
    link := match a.xfer with
      | some x => x.link
      | none => false }

/-- A resumed continuation has all of it back. -/
def Cont.kept (y : Cont) : Cont :=
  { y with delay := false, noStep := false, passTo := none, started := none, odd := [], fens := [], link := false, epis := [], badPriv := [], badAcc := [], ops := [] }

/-! ## The freeze -/

def insRec (r : ProgRec) : List ProgRec → List ProgRec
  | [] => [r]
  | x :: l => if r.id ≤ x.id then r :: x :: l else x :: insRec r l
def sortRecs : List ProgRec → List ProgRec
  | [] => []
  | r :: l => insRec r (sortRecs l)

/-- Writes progress records from number `j` on with their saved queries. -/
def State.putRecs (s : State) (mc fs j : Nat) : List ProgRec → State
  | [] => s
  | r :: l =>
    if j < 16 then
      let s := s.frameWrite mc fs (39232 + 64 * j) r.bytes
      let s := if r.save.isEmpty then s else s.frameWrite mc fs (40256 + 512 * j) r.save
      s.putRecs mc fs (j + 1) l
    else s.onCont (contKey mc fs) (fun x => { x with more := x.more ++ (r :: l).map (fun r => (r.id, r.bytes, r.save)) })

/-- The freeze of core `c` at the boundary at which it stands (R408 to R416). `late` is the late fault that it takes, if one
is the reason; the other late faults are recorded as withdrawn (R417). The core is released (DEDUCED, log 62). -/
def State.freezeCoreWith (s : State) (c : Nat) (late : Option Late) : State :=
  let x := s.coreAt c
  let (mc, fs) := (x.mc, x.fslot)
  let k := contKey mc fs
  let s := s.shepUp.stallSettle c
  let fens := (s.opsOf mc fs).filterMap (fun o => o.fence.map (fun n => (o.id, n)))
  -- late faults of work that is no operation have their records ready
  let lateRecs := x.late.filterMap (fun l =>
    if l.image.isEmpty then none
    else some (⟨l.op, if late = some l then l.image else unfault l.image, []⟩ : ProgRec))
  -- waited passes, X streams, deterministic passes, readouts
  let ws := (s.opsOf mc fs).filter (fun o => o.kind == .waited)
  let (s, wrecs) := (sortBy s.landOf ws).foldl (fun (t : State × List ProgRec) o =>
    let (s, r) := t.1.waitedSettle o
    (s, t.2 ++ r)) (s, [])
  -- R272: a pass of a share that had begun has run to its end
  let s := if ws.any (fun o => o.waited.any (fun w => w.phase == .share && w.began && !o.faulted)) then s.onArchAt c (fun a => { a with occ := 0 })
    else s
  let occ := (s.coreAt c).now.occ
  let (s, xrecs) := s.xSettle c
  let s := s.onArchAt c Arch.landPriv
  let ps := s.passSettle c
  let (s, precs) := ps.s.passRecs c ps.imgs
  let (s, rrecs) := s.readRecs c
  let s := s.onArchAt c (fun a => { a with passes := [], xs := [] })
  -- operations
  let busy := ps.imgs.map (fun e => e.1.id) ++ x.now.reads.map (·.id) ++ (lateRecs ++ wrecs ++ xrecs ++ ps.recs).map (·.id)
  let t := (s.opsOf mc fs).foldl OpSettle.one ⟨s, [], busy, false, []⟩
  let s := t.s
  let re := (sortRecs (lateRecs ++ wrecs ++ ps.recs ++ xrecs ++ t.recs)).map (fun r =>
    match late with
    | some l => if r.id = l.op && l.image.isEmpty then { r with bytes := r.bytes.set 2 (r.bytes.getD 2 0 ||| 1) } else r
    | none => r)
  let recs := s.loopRecs c ++ precs ++ rrecs ++ re
  -- the frame
  let a := (s.coreAt c).now
  let s := s.onCont k (fun y => { y with more := [] })
  let (resume, w) := s.pendOf mc a
  let (wk, wi, wt) := a.pendWait
  let zf := (List.range 4).foldl (fun n z => n + (a.zflag z).bits * 256 ^ z) 0
  let s := s.frameWrite mc fs 64 (s.archHeader x.bind a zf w)
  let s := s.writeAreas mc fs a (fun _ => true)
  let s := (List.range 4).foldl (fun s z =>
    if (a.zflag z).valid then s.frameImage mc fs (589824 + 131072 * z) 0 (zBytes (a.zGet z)) 4 131072 else s) s
  let held := (occ, x.now.xBusyFor, x.now.mport)
  let es := ifqBytes a.fly
  let s := (es.zipIdx.foldl (fun s e => s.frameWrite mc fs (21824 + 272 * e.2) e.1) s).putRecs mc fs 0 recs
  let s := s.frameWrite mc fs 0 (toBytes 4 (s.codeOffset mc resume))
  let s := s.frameWrite mc fs 8 (toBytes 2 c ++ toBytes 1 wk ++ toBytes 1 es.length ++ toBytes 1 (min recs.length 16)
    ++ toBytes 1 1 ++ toBytes 2 wi ++ toBytes 4 wt)
  let s := s.onCont k (fun y => { y with
    frozen := true, home := c, recIds := recs.map (·.id), wkind := wk, wid := wi, wtarget := BitVec.ofNat 32 wt, statp := none,
    entryTile := a.entryTile, skip := a.skipSlot.isSome, handlerInfo := 0,
    held := held, ops := y.ops ++ t.ops })
  let s := s.onCont k (s.keepOf mc a (fens.filter (fun e => recs.any (·.id == e.1))))
  s.shepUp.releaseCore c

/-- A freeze for a reason that is no late fault (DEDUCED, log 56). -/
def State.freezeCore (s : State) (c : Nat) : State := s.freezeCoreWith c none

/-! ## Carried accesses (R410, R417) -/

/-- Work of a continuation goes on without its core. -/
def State.carriedLive (s : State) (mc fs : Nat) : Bool :=
  s.ops.any (fun o => o.mc == mc && o.fslot == fs && o.carried && !o.faulted)

/-- A frozen continuation becomes RUNNABLE, at once or when its carried accesses are done (R410). -/
def State.runnableWhenDone (s : State) (k : Nat) : State :=
  if s.carriedLive (k / 4096) (k % 4096) then s.onCont k (fun x => { x with settling := true })
  else (s.onCont k (fun x => { x with settling := false })).makeRunnable k

end Sys2Proof.Machine
end

