-- ==== Sys2Proof/Machine/Ops.lean ====
section
/-!
DEFINITION. Taking a trap (R417 to R419), the issue of a syllable (R35, R51, R482), the issue of a counted operation
(R61, R62), and the updates that the fence store and the barriers make (R163 to R169).
-/
namespace Sys2Proof.Machine
set_option Elab.async false
open Sys2Proof

/-! ## Traps -/

/-- Causes delivered as system causes (R419, R420). R407 counts those of slot Q, 112 and 113 among them, as program causes (DESIGN CHOICE, log
154). -/
def sysCause (c : Nat) : Bool := c == 32 || c == 37 || c == 39 || c == 42 || c == 104 || c == 112 || c == 113

/-- TRAPINFO (R173). -/
def trapInfoOf (fslot sylslot : Nat) (t : Trap) : Word :=
  BitVec.ofNat 64 (t.data.toNat * 2 ^ 32 + fslot % 4096 * 2 ^ 20 + t.reason % 16 * 2 ^ 16 + sylslot % 8 * 2 ^ 8
    + t.cause % 128)

/-- Posts the event of a system cause (R419): DATA0 is TRAPINFO, or the full virtual address for a translation cause
(R226; DEDUCED, log 9); DATA1 is RESUME. For a machine check it is KIND 6 with the bank and its STATUS, and CODE is 0 (R170). -/
def State.trapEvent (s : State) (mc fslot : Nat) (info : Word) (resume : Nat) (t : Trap) : State :=
  match t.bank with
  | some b => s.postEvent mc 6 0 fslot b (SMap.get {} s.banks b).status
  | none =>
    let d0 := match t.va with
      | some v => v.toNat % 2 ^ 64
      | none => info.toNat
    s.postEvent mc 2 t.cause fslot d0 resume

/-- Statistics of a trap: STTRAP of the micro-context (R121) and TRAPS of the binding's completion record (R447). -/
def State.countTrap (s : State) (mc b cause : Nat) : State :=
  (s.onMc mc (fun m => { m with sttrap := if m.sttrap = 0xFFFFFFFF#32 then m.sttrap else m.sttrap + 1 })).onBind b
    (fun x => { x with traps := 128 + cause % 128 })

/-- Delivery of the cause of a TRAPPED continuation (R418, R419): a program cause asks the Shepherd for a handler, a system
cause, or any cause without a handler entry, posts an event. -/
def State.deliver (s : State) (k resume : Nat) (info : Word) (t : Trap) : State :=
  let mc := k / 4096
  if sysCause t.cause || (s.mcAt mc).handler = 0xFFFFFFFF#32 then s.trapEvent mc (k % 4096) info resume t
  else { s with handlers := s.handlers ++ [⟨mc, k % 4096, info, resume, t.va⟩] }

/-- The continuation of a core has a member of the Fold whose group has not started: a freeze of the core in this cycle lets the cycle end
first, since a group that starts in it fires (R291). -/
def State.foldPending (s : State) (c : Nat) : Bool :=
  s.ops.any (fun o => o.foldEntry && !o.faulted && o.core == c && s.onItsCore o)

/-- A stop of core `c` at the end of the cycle that it would run next. -/
def State.stopAt (s : State) (c : Nat) (st : Stop) : State := s.onCoreAt c (fun x => { x with stop := x.stop.or (some (x.cyc, st)) })

/-- TAKING A TRAP (R418): TRAPINFO is written, the continuation freezes and becomes TRAPPED, its core is released, and the
cause is delivered. `sylslot` is the slot of the syllable, 7 for none; `late` is the late fault that the trap takes, if it is
one. -/
def State.trapNow (s : State) (c sylslot : Nat) (t : Trap) (late : Option Late) : State :=
  let x := s.coreAt c
  let k := contKey x.mc x.fslot
  let info := trapInfoOf x.fslot sylslot t
  let s := s.countTrap x.mc x.bind t.cause
  let resume := s.codeOffset x.mc (s.pendOf x.mc x.now).1
  let s := s.freezeCoreWith c late
  let s := (s.onCont k (fun y => { y with trapinfo := info })).setContState k .trapped
  { s with verdict := .trapped }.deliver k resume info t

/-- A trap of core `c`. While the frame migrates it waits: the bundle raises its cause again, and the late fault stays (R203, R205). With
members in the Fold it is taken at the end of the cycle (R291). -/
def State.takeTrapOf (s : State) (c sylslot : Nat) (t : Trap) (late : Option Late) : State :=
  let x := s.coreAt c
  if s.frameAsleep x.mc x.fslot then { s.frameNap x.mc x.fslot with verdict := .trapped }
  else if s.foldPending c then { s.stopAt c (.trap sylslot t late) with verdict := .trapped }
  else s.trapNow c sylslot t late

/-- A trap that is no late fault. -/
def State.takeTrap (s : State) (c sylslot : Nat) (t : Trap) : State := s.takeTrapOf c sylslot t none

/-- A late fault as a trap (R226, R417). -/
def Late.trap (l : Late) : Trap :=
  { cause := l.cause, reason := l.reason, data := l.data,
    va := if (32 ≤ l.cause && l.cause ≤ 39) || l.cause = 42 then some l.va else none, bank := l.bank }

/-- The late fault that is taken first (R417): the earliest issued, then the lowest slot. -/
def firstLate : List Late → Option Late
  | [] => none
  | l :: r => match firstLate r with
    | none => some l
    | some m => some (if m.op < l.op || (m.op == l.op && decide (m.slot < l.slot)) then m else l)

/-- The end of the carried accesses of a frozen continuation (R410, R417): one that is to run again becomes RUNNABLE, or an access
that has faulted traps it; a TRAPPED one that nothing has resumed stays. The faulted operations get their records. -/
def State.carriedDone (s : State) (k : Nat) : State :=
  let mc := k / 4096
  let fs := k % 4096
  let x := s.contAt k
  if s.carriedLive mc fs || !(x.settling || x.state == .trapped) then s
  else if s.frameAsleep mc fs then s.frameNap mc fs
  else
    let chosen := if x.settling then firstLate x.late else none
    let ops := (s.opsOf mc fs).filter (fun o => o.carried && o.faulted)
    let recs := ops.map (fun o => (⟨o.id, s.recOp o ((chosen.map (·.op)) == some o.id), o.save⟩ : ProgRec))
    let n := x.recIds.length
    let fens := ops.filterMap (fun o => o.fence.map (fun f => (o.id, f)))
    let s := (ops.foldl (fun s o => s.dropOp o.id) s).onCont k (fun y => { y with ops := y.ops ++ ops })
    let s := if recs.isEmpty then s
      else (s.shepUp.putRecs mc fs n recs).frameWrite mc fs 12 (toBytes 1 (min (n + recs.length) 16))
    let s := s.onCont k (fun y => { y with
      recIds := y.recIds ++ recs.map (·.id), fens := y.fens ++ fens, late := [], settling := false })
    match chosen with
    | none => if x.settling then s.makeRunnable k else s
    | some l =>
      let t := l.trap
      let info := trapInfoOf fs l.slot t
      let s := s.countTrap mc x.bind t.cause
      let resume := s.frameNum mc fs 0 4
      ((s.onCont k (fun y => { y with trapinfo := info })).setContState k .trapped).deliver k resume info t

/-! ## Issue -/

/-- The issue of a syllable of slot `slot` (R35, R51, R482). Guarded off: nothing happens. Otherwise the first cause that
holds is taken, else a condition that does not hold stalls the bundle, else the syllable has its effect. The checks
are those of the bundle and are passed over once `checked` says that they were made. -/
def issue (slot : Nat) (g : Guard) (chk : State → Option Trap) (hold : State → Option State) (eff : State → State)
    (s : State) : Out :=
  if !s.arch.guardOn slot g then .next { s with verdict := .issued }
  else
    match (if s.checked then none else chk s) with
    | some t => .next (s.takeTrap s.cur slot t)
    | none =>
      match (if s.checked then none else hold s) with
      | some s' => .next { s' with verdict := .stalled }
      | none => .next { eff s with verdict := .issued }

/-- A syllable without causes or stalls of its own. -/
def issueF (slot : Nat) (g : Guard) (eff : State → State) (s : State) : Out :=
  issue slot g (fun _ => none) (fun _ => none) eff s

/-- The effect of a fixed-latency syllable with one register result (R59). -/
def State.result (s : State) (lat slot : Nat) (flags : Flags) (w : RegWrite) : State :=
  s.onArch (fun a => a.fly1 lat slot flags w)

/-- TILE_INVALID reason 1 of a syllable that names the handles `rs` (R223). DATA holds the number of the invalid one (R226); of
several, the spec does not say which. -/
def Arch.tileInvalid (a : Arch) (rs : List TReg) : Option Trap :=
  match rs.filter (fun r => !(a.rdT r).valid) with
  | [] => none
  | r :: l => some {
      cause := 40, reason := 1,
      data := ((r :: l).getD (Config.pickHandle ((r :: l).map (·.toNat)) % (l.length + 1)) r).zeroExtend 32 }

/-- COUNTER_FULL (R62). -/
def State.ctrFull (s : State) (c : Ctr) : Option Trap := trapIf (s.arch.ctr c == 255) 96 0

/-- A commit point: a checkpoint is due at the next boundary (R174, R421). -/
def State.commitPoint (s : State) : State := s.setCore { s.core with commit := true }

/-- Numbers of the operations of the continuation at work that are outstanding, and of its fixed-latency work on the TILE
path (R168, R361). -/
def State.liveOps (s : State) : List Nat :=
  let c := s.core
  (s.ops.filter (fun o => o.mc = c.mc && o.fslot = c.fslot)).map (·.id)
    ++ c.now.passes.map (·.id) ++ c.now.reads.map (·.id) ++ c.now.xs.map (·.id)

/-- What a CPYN takes of its micro-context at its issue: KEY (R122). -/
def State.keyFor (s : State) (i : Instr) : List Byte :=
  match i with
  | .cpyn .. => toBytes 32 (s.mcAt s.core.mc).key.toNat
  | _ => []

/-- A new operation of the continuation at work, with what every operation records. -/
def State.newOp (s : State) (kind : OpKind) (slot : Nat) (i : Instr) : Op :=
  let c := s.core
  { id := s.nextOp, kind := kind, instr := i, core := s.cur, mc := c.mc, bind := c.bind, fslot := c.fslot,
    stage := c.stage, slot := slot, addr := c.now.pc, seq := c.now.seq, rtc := s.rtc.toNat, pts := (s.contAt s.curKey).pts }

def State.pushOp (s : State) (o : Op) : State := { s with ops := s.ops ++ [o], nextOp := s.nextOp + 1 }

/-- Issue of a counted operation (R61): its counter rises and it is outstanding. -/
def State.startOp (s : State) (c : Ctr) (o : Op) : State := (s.onArch (·.inc c)).pushOp o

/-! ## Fence counters (R163 to R166) -/

/-- FENCE_ACCESS (R163): the causes of a slot B syllable that names counter `n`. -/
def State.fenceCheck (s : State) (n : Word) : Option Trap :=
  let f := s.fenceAt n.toNat
  firstTrap [trapIf (decide (n.toNat > 65535)) 101 1, trapIf (!f.alloc) 101 2,
    trapIf (decide (f.owner.toNat ≠ s.curMc.part.toNat) || !s.curPart.active) 101 3]

/-! ## Barriers (R169) -/

/-- The GBAR whose arrival is operation `op` has been released. -/
def Arch.gbarPassed (a : Arch) (op : Nat) : Arch :=
  match a.stall with
  | .gbar bar i _ _ => if i = op then { a with stall := .gbar bar op true false } else a
  | _ => a

/-- Releases the stalled GBARs of barrier `b` of binding `bd` that have arrived (R169), raising each PTS to BTS (R363); a rollback does not
take the release back (R424). -/
def State.barRelease (s : State) (bd b bts : Nat) : List (Nat × Core) → State
  | [] => s
  | (c, x) :: r =>
    let s := match x.now.stall with
      | .gbar bar op _ mis =>
        if x.running && x.bind = bd && bar = b && (s.opAt op).isNone && !mis then
          (s.onCoreAt c (fun y => { y with now := y.now.gbarPassed op, saved := y.saved.gbarPassed op })).raisePts (contKey x.mc x.fslot) bts
        else s
      | _ => s
    s.barRelease bd b bts r

/-- Makes the WAITING continuations of a `susp.bar` on the barrier RUNNABLE (R169). -/
def State.barWake (s : State) (bd b bts : Nat) : List (Nat × Cont) → State
  | [] => s
  | (k, c) :: r =>
    let s := if c.state = .waiting && c.wkind = 3 && c.bind = bd && c.wid = b && !c.refused then
        (s.raisePts k bts).makeRunnable k else s
    s.barWake bd b bts r

/-- An arrival at a barrier (R169, R363): the barrier after it, and whether it was made and released the round. -/
def Barrier.arrive (b : Barrier) (target pts : Nat) : Option (Barrier × Bool) :=
  if b.count > 0 && b.target != target then none
  else
    let n := b.count + 1
    let bts := max b.bts pts
    if n ≥ target then some (⟨0, 0, bts⟩, true) else some (⟨n, target, bts⟩, false)

end Sys2Proof.Machine
end

