-- ==== Sys2Proof/Machine/Address.lean ====
section
/-!
DEFINITION. Slot A, the address and memory class (spec/07_address_class.md R196 to R226): address arithmetic, scalar
accesses and their completion, tile handles.
-/
namespace Sys2Proof.Machine
set_option Elab.async false
open Sys2Proof

/-! ## Address arithmetic (R196) -/

/-- An instruction with an a result of latency 1. -/
def aOp (g : Guard) (d : AReg) (f : Arch → VAddr) (s : State) : Out :=
  issueF 2 g (fun s => s.result 1 2 0 (.a d (f s.arch))) s

def execAadd (g : Guard) (d a : AReg) (b : SReg) (s : State) : Out :=
  aOp g d (fun r => r.rdA a + (r.rdS b).signExtend 72) s
def execAaddi (g : Guard) (d a : AReg) (imm : BitVec 11) (ext : Option Word32) (s : State) : Out :=
  aOp g d (fun r => r.rdA a + immOr 72 imm ext) s
def execAsub (g : Guard) (d a : AReg) (b : SReg) (s : State) : Out :=
  aOp g d (fun r => r.rdA a - (r.rdS b).signExtend 72) s
def execAmov (g : Guard) (d a : AReg) (b : SReg) (s : State) : Out :=
  aOp g d (fun r => (r.rdA a).extractLsb' 64 8 ++ r.rdS b) s
def execAsplitLo (g : Guard) (a : AReg) (b : SReg) (s : State) : Out :=
  issueF 2 g (fun s => s.result 1 2 0 (.s b ((s.arch.rdA a).truncate 64))) s
def execAsplitHi (g : Guard) (a : AReg) (b : SReg) (s : State) : Out :=
  issueF 2 g (fun s => s.result 1 2 0 (.s b (((s.arch.rdA a).extractLsb' 64 8).zeroExtend 64))) s

/-! ## Scalar accesses (R208 to R215) -/

/-- The memory orders of R38: acquire, release. -/
def ordAcq (o : BitVec 2) : Bool := o.getLsbD 0
def ordRel (o : BitVec 2) : Bool := o.getLsbD 1

/-- Issue of a scalar access: operands `x`, effective address first. A release carries the accesses outstanding (R361). -/
def scalarIssue (c : Ctr) (g : Guard) (i : Instr) (ord : BitVec 2) (commit : Bool) (x : Arch → List Nat) (s : State) : Out :=
  issue 2 g (fun s => s.ctrFull c) (fun _ => none) (fun s =>
    let o := { s.newOp .scalar 2 i with
      x := x s.arch, aux := s.arch.leaseLen.toNat, paths := 1, acq := ordAcq ord, rel := ordRel ord, after := if ordRel ord then s.liveOps else [] }
    let s := s.startOp c o
    if commit then s.commitPoint else s) s

def execLd (g : Guard) (x : SReg) (a : AReg) (sz : BitVec 2) (sx : BitVec 1) (ord : BitVec 2) (off : BitVec 5)
    (ext : Option Word32) (s : State) : Out :=
  scalarIssue .ldo g (.ld g x a sz sx ord off ext) ord false (fun r => [(r.rdA a + offOr off sz ext).toNat]) s
def execSt (g : Guard) (x : SReg) (a : AReg) (sz : BitVec 2) (ord : BitVec 2) (off : BitVec 5) (ext : Option Word32)
    (s : State) : Out :=
  scalarIssue .sto g (.st g x a sz ord off ext) ord false
    (fun r => [(r.rdA a + offOr off sz ext).toNat, (r.rdS x).toNat]) s
def execLda (g : Guard) (d a : AReg) (ord : BitVec 2) (off : BitVec 9) (s : State) : Out :=
  scalarIssue .ldo g (.lda g d a ord off) ord false (fun r => [(r.rdA a + off.signExtend 72 <<< 4).toNat]) s
def execSta (g : Guard) (d a : AReg) (ord : BitVec 2) (off : BitVec 9) (s : State) : Out :=
  scalarIssue .sto g (.sta g d a ord off) ord false
    (fun r => [(r.rdA a + off.signExtend 72 <<< 4).toNat, (r.rdA d).toNat]) s
/-- PREF brings a line into the L1 and never sets A (DEDUCED, log 15). -/
def execPref (g : Guard) (a : AReg) (sz : BitVec 2) (off : BitVec 5) (ext : Option Word32) (s : State) : Out :=
  scalarIssue .ldo g (.pref g a sz off ext) 0 false (fun r => [(r.rdA a + offOr off sz ext).toNat]) s

/-- Issue of an AMO form (R213, R214). -/
def amoIssue (g : Guard) (i : Instr) (a : AReg) (b : SReg) (ord : BitVec 2) (s : State) : Out :=
  scalarIssue .ldo g i ord true (fun r => [(r.rdA a).toNat, (r.rdS b).toNat]) s

def execAmoAdd (g : Guard) (d : SReg) (a : AReg) (b : SReg) (sz : BitVec 1) (ord : BitVec 2) (s : State) : Out :=
  amoIssue g (.amoAdd g d a b sz ord) a b ord s
def execAmoAnd (g : Guard) (d : SReg) (a : AReg) (b : SReg) (sz : BitVec 1) (ord : BitVec 2) (s : State) : Out :=
  amoIssue g (.amoAnd g d a b sz ord) a b ord s
def execAmoOr (g : Guard) (d : SReg) (a : AReg) (b : SReg) (sz : BitVec 1) (ord : BitVec 2) (s : State) : Out :=
  amoIssue g (.amoOr g d a b sz ord) a b ord s
def execAmoXor (g : Guard) (d : SReg) (a : AReg) (b : SReg) (sz : BitVec 1) (ord : BitVec 2) (s : State) : Out :=
  amoIssue g (.amoXor g d a b sz ord) a b ord s
def execAmoMin (g : Guard) (d : SReg) (a : AReg) (b : SReg) (sz : BitVec 1) (ord : BitVec 2) (s : State) : Out :=
  amoIssue g (.amoMin g d a b sz ord) a b ord s
def execAmoMax (g : Guard) (d : SReg) (a : AReg) (b : SReg) (sz : BitVec 1) (ord : BitVec 2) (s : State) : Out :=
  amoIssue g (.amoMax g d a b sz ord) a b ord s
def execAmoMinu (g : Guard) (d : SReg) (a : AReg) (b : SReg) (sz : BitVec 1) (ord : BitVec 2) (s : State) : Out :=
  amoIssue g (.amoMinu g d a b sz ord) a b ord s
def execAmoMaxu (g : Guard) (d : SReg) (a : AReg) (b : SReg) (sz : BitVec 1) (ord : BitVec 2) (s : State) : Out :=
  amoIssue g (.amoMaxu g d a b sz ord) a b ord s
def execAmoSwap (g : Guard) (d : SReg) (a : AReg) (b : SReg) (sz : BitVec 1) (ord : BitVec 2) (s : State) : Out :=
  amoIssue g (.amoSwap g d a b sz ord) a b ord s
def execCas (g : Guard) (d : SReg) (a : AReg) (b : SReg) (sz : BitVec 1) (ord : BitVec 2) (s : State) : Out :=
  scalarIssue .ldo g (.cas g d a b sz ord) ord true
    (fun r => [(r.rdA a).toNat, (r.rdS b).toNat, (r.rdS d).toNat]) s
def execRed (g : Guard) (op : BitVec 4) (a : AReg) (b : SReg) (sz : BitVec 1) (ord : BitVec 2) (s : State) : Out :=
  scalarIssue .sto g (.red g op a b sz ord) ord true (fun r => [(r.rdA a).toNat, (r.rdS b).toNat]) s

/-! ## Completion of a scalar access -/

/-- The operations of the table "Atomic operations" (R213), by RED op code; 9 is swap. -/
def atomicVal (op w m v : Nat) : Nat :=
  match op with
  | 0 => (m + v) % 2 ^ w
  | 1 => m &&& v
  | 2 => m ||| v
  | 3 => m ^^^ v
  | 4 => if toSigned w m ≤ toSigned w v then m else v
  | 5 => if toSigned w m ≤ toSigned w v then v else m
  | 6 => if m ≤ v then m else v
  | 7 => if m ≤ v then v else m
  | 8 => (FFmt.fp32.round .rne false (addV .rne (FFmt.fp32.decode m) (FFmt.fp32.decode v))).1
  | _ => v

/-- What a scalar syllable does to memory. -/
inductive ScAct where
  | load (n : Nat) (sx : Bool) (d : SReg)
  | loadA (d : AReg)
  | store (n : Nat)
  | pref
  | amo (n op : Nat) (d : Option SReg)
  | cas (n : Nat) (d : SReg)
deriving DecidableEq, Repr

def szB (sz : BitVec 1) : Nat := if sz = 1 then 8 else 4

def scAct : Instr → Option ScAct
  | .ld _ x _ sz sx _ _ _ => some (.load (2 ^ sz.toNat) (sx == 1) x)
  | .st _ _ _ sz _ _ _ => some (.store (2 ^ sz.toNat))
  | .lda _ d _ _ _ => some (.loadA d)
  | .sta .. => some (.store 16)
  | .pref .. => some .pref
  | .amoAdd _ d _ _ sz _ => some (.amo (szB sz) 0 (some d))
  | .amoAnd _ d _ _ sz _ => some (.amo (szB sz) 1 (some d))
  | .amoOr _ d _ _ sz _ => some (.amo (szB sz) 2 (some d))
  | .amoXor _ d _ _ sz _ => some (.amo (szB sz) 3 (some d))
  | .amoMin _ d _ _ sz _ => some (.amo (szB sz) 4 (some d))
  | .amoMax _ d _ _ sz _ => some (.amo (szB sz) 5 (some d))
  | .amoMinu _ d _ _ sz _ => some (.amo (szB sz) 6 (some d))
  | .amoMaxu _ d _ _ sz _ => some (.amo (szB sz) 7 (some d))
  | .amoSwap _ d _ _ sz _ => some (.amo (szB sz) 9 (some d))
  | .cas _ d _ _ sz _ => some (.cas (szB sz) d)
  | .red _ op _ _ sz _ => some (.amo (szB sz) op.toNat none)
  | _ => none

/-- Bytes that the access touches. -/
def ScAct.size : ScAct → Nat
  | .load n _ _ => n
  | .loadA _ => 16
  | .store n => n
  | .pref => 0
  | .amo n _ _ => n
  | .cas n _ => n

def ScAct.acc : ScAct → Acc
  | .load .. => .read
  | .loadA _ => .read
  | .pref => .read
  | .store _ => .write
  | .amo .. => .atomic
  | .cas .. => .atomic

/-- The L1 line of a core that holds `line` (R207). -/
def Core.l1Find (c : Core) (line : Nat) : Option L1Line := c.l1.find? (fun l => l.line = line)

/-- Drops what lies beyond the fourth way of a set, the least recently used last (R207). -/
def l1Evict (set : Nat) : Nat → List L1Line → List L1Line
  | _, [] => []
  | k, l :: r => if l.line % 256 = set then
      (if k = 0 then l1Evict set 0 r else l :: l1Evict set (k - 1) r)
    else l :: l1Evict set k r

/-- Puts a line first in the order of use. -/
def Core.l1Put (c : Core) (x : L1Line) : Core :=
  { c with l1 := l1Evict (x.line % 256) 4 (x :: c.l1.filter (fun l => l.line != x.line)) }

/-- A load by the rules of R355: the bytes, the PTS after it and the state. `len` is LEASE.LEN of the core. -/
def State.leaseLoad (s : State) (c k len pa n : Nat) : List Byte × State :=
  let line := pa / 64
  let pts := (s.contAt k).pts
  match (s.coreAt c).l1Find line with
  | some l =>
    if pts ≤ l.lease then
      ((l.data.drop (pa % 64)).take n, (s.onCoreAt c (·.l1Put l)).raisePts k l.wts)
    else miss line pts
  | none => miss line pts
where
  miss (line pts : Nat) : List Byte × State :=
    let t := s.lineTs line
    let rts := max t.rts (max pts t.wts + len)
    let data := rdBytes s.mem (64 * line) 64
    let s := (s.setLineTs line { t with rts := rts }).viaCache (64 * line) 64 false
    ((data.drop (pa % 64)).take n, (s.onCoreAt c (·.l1Put ⟨line, data, t.wts, rts⟩)).raisePts k t.wts)

/-- A load of operation `o` finds its line in the L1 of its core, with a lease that has not run out (R207, R355). -/
def State.l1Hit (s : State) (o : Op) (pa : Nat) : Bool :=
  match (s.coreAt o.core).l1Find (pa / 64) with
  | some l => decide ((s.contAt (contKey o.mc o.fslot)).pts ≤ l.lease)
  | none => false

/-- The L1 copies of a core of the lines in `ls` hold what their home slices hold, with the timestamps there (R207, R355; DEDUCED,
log 116). -/
def State.l1Home (s : State) (c : Nat) (ls : List Nat) : State :=
  s.onCoreAt c (fun x => { x with l1 := x.l1.map (fun l =>
    if ls.contains l.line then
      { l with data := rdBytes s.mem (64 * l.line) 64, wts := (s.lineTs l.line).wts, lease := (s.lineTs l.line).rts }
    else l) })

/-- A store of operation `o` at the home slice: timestamp, undo entry when the store may be rolled back (R422), and for a store that is
no atomic the L1 copy of its core (R207). -/
def State.scalarStore (s : State) (o : Op) (pa : Nat) (bs : List Byte) (tentative : Bool) : State :=
  let k := contKey o.mc o.fslot
  let s := if tentative && s.onItsCore o && decide ((s.coreAt o.core).savedOp ≤ o.id) then
      s.onCoreAt o.core (fun c => { c with undo := undoOf s.mem none pa bs.length ++ c.undo })
    else s
  let (t, s) := s.wrMem (s.contAt k).pts pa bs
  let s := if tentative then s.l1Home o.core [pa / 64] else s
  s.wrote o t

/-- The s value of a load (R210). -/
def loadVal (n : Nat) (sx : Bool) (bs : List Byte) : Word :=
  if sx then BitVec.ofInt 64 (toSigned (8 * n) (ofBytes bs)) else BitVec.ofNat 64 (ofBytes bs)

/-- The access itself, translated (R210, R211, R214). Its lease is of the length that LEASE held at its issue (R356); a CAS that
fails is an atomic at the home slice as one that succeeds is (R355). -/
def State.scalarPerform (s : State) (o : Op) (act : ScAct) (pa : Nat) : State :=
  let k := contKey o.mc o.fslot
  let len := o.aux
  let v := o.x.getD 1 0
  match act with
  | .load n sx d =>
    let (bs, s) := s.leaseLoad o.core k len pa n
    (s.writeDest o (.s d (loadVal n sx bs))).finishOp o
  | .loadA d =>
    let (bs, s) := s.leaseLoad o.core k len pa 16
    (s.writeDest o (.a d (BitVec.ofNat 72 (ofBytes bs)))).finishOp o
  | .store n => (s.scalarStore o pa (toBytes n v) true).finishOp o
  | .pref => ((s.leaseLoad o.core k len pa 1).2).finishOp o
  | .amo n op d =>
    let w := 8 * n
    let m := rdNum s.mem pa n
    let s := s.scalarStore o pa (toBytes n (atomicVal op w m (v % 2 ^ w))) false
    match d with
    | some d => (s.writeDest o (.s d (sxN w m))).finishOp o
    | none => s.finishOp o
  | .cas n d =>
    let w := 8 * n
    let m := rdNum s.mem pa n
    let s := if m = o.x.getD 2 0 % 2 ^ w then s.scalarStore o pa (toBytes n v) false
      else
        let (t, s) := s.stampWrite (pa / 64) (s.contAt k).pts
        s.wrote o t
    (s.writeDest o (.s d (sxN w m))).finishOp o
where
  sxN (w m : Nat) : Word := BitVec.ofInt 64 (toSigned w m)

/-- The access to a host frame (R202, R357): no cache, no timestamp. A store leaves the device, so the stores before it are committed
first (R371). -/
def State.scalarHost (s : State) (o : Op) (act : ScAct) (pa : Nat) : State :=
  if act.acc == .write && !s.committed o then s.force o.core
  else
    let s := s.hostLink o.mc (act.acc == .write) pa act.size
    match s.hostErr.find? (fun e => e.1 = pa / 65536) with
    | some e => s.lateOp o { cause := 43, reason := e.2 }
    | none =>
      match act with
      | .load n sx d => (s.writeDest o (.s d (loadVal n sx (rdBytes s.host pa n)))).finishOp o
      | .loadA d => (s.writeDest o (.a d (BitVec.ofNat 72 (rdNum s.host pa 16)))).finishOp o
      | .store n => { s with host := wrNum s.host pa n (o.x.getD 1 0) }.finishOp o
      | _ => s.finishOp o

/-- An earlier scalar access of the same continuation is still outstanding (R354). -/
def State.scalarEarlier (s : State) (o : Op) : Bool :=
  s.ops.any (fun p => p.kind == .scalar && p.mc == o.mc && p.fslot == o.fslot && decide (p.id < o.id))

/-- An operation of the list is still outstanding, or fixed-latency work of the continuation on its core is (R361). -/
def State.stillLive (s : State) (o : Op) (ids : List Nat) : Bool :=
  let c := s.coreAt o.core
  let here := c.running && c.mc == o.mc && c.fslot == o.fslot
  ids.any (fun i => (s.opAt i).isSome || (s.contAt (contKey o.mc o.fslot)).recIds.contains i || (here && (c.now.passes.any (·.id == i) || c.now.reads.any (·.id == i)
    || c.now.xs.any (·.id == i))))

/-- One completion of a scalar access (SCALAR_ACCESS_COMPLETE). It is not enabled before earlier scalar accesses of the
continuation (R354), the accesses that a release waits for (R361), while it waits on a page (R205, R327), or, for an atomic, before its
checkpoint (R371). A load that hits the L1 completes from it (R207); any other access to a line that another core has written
tentatively waits for that core's checkpoint (R423). -/
def execScalarAccessComplete (id : Nat) (s : State) : Out :=
  .next (match s.opAt id with
    | none => s
    | some o =>
      match o.kind, scAct o.instr with
      | .scalar, some act =>
        if o.faulted || o.asleep || s.scalarEarlier o || (o.rel && s.stillLive o o.after)
            || (act.acc == .atomic && !s.committed o) then s
        else if s.destAsleep o then s.destNap o
        else
          let ea := o.x.getD 0 0
          if act.size > 0 && ea % act.size != 0 then
            s.lateOp o (xlTrap 36 (if act.size = 16 then 2 else 1) ea)
          else
            match (if act == .pref then s.xlatePref (s.agent o) o.mc o.id ea else s.xlateDo (s.agent o) o.mc o.id ea act.acc), act with
            | (.ok false pa, s'), .pref =>
              if s'.l1Hit o pa then s'.scalarPerform o .pref pa
              else
                match s.tentative o.core none pa 1 with
                | some w => s'.force w
                | none => if s.poisoned pa 1 then s'.finishOp o else s'.scalarPerform o .pref pa
            | (_, s'), .pref => s'.finishOp o
            | (.ok true pa, s'), act => s'.scalarHost o act pa
            | (.ok false pa, s'), act =>
              if act.acc == .read && s'.l1Hit o pa then s'.scalarPerform o act pa
              else
                match s.tentative o.core none pa act.size with
                | some w => s'.force w
                | none => if act.acc != .write && s.poisoned pa act.size then s'.lateOp o (xlTrap 42 (s.poisonWhy pa act.size) ea)
                          else s'.scalarPerform o act pa
            | (.fault c r, s'), _ => s'.lateOp o (xlTrap c r ea)
            | (.mig, s'), _ => s'.waitOn o [1, ea / 65536]
            | (.seg sg pg, s'), _ => s'.waitOn o [2, sg, pg, ea]
      | _, _ => s)

/-! ## Tile handles (R216 to R223) -/

/-- Units taken in a core's PRIV: valid handles, handles about to land, freed tiles still named (R220, R221). -/
def Arch.privUsed (a : Arch) : List (Nat × Nat) :=
  let of (d : TDesc) : List (Nat × Nat) := if d.valid && !d.clus then [(d.base.toNat, d.units)] else []
  a.t.flatMap (fun e => of e.2)
    ++ a.fly.flatMap (fun l => match l.w with | .t _ d => of d | _ => [])
    ++ a.zombies.map (fun z => (z.base, z.units))

/-- Units taken in a cluster's tile-handle region. -/
def Cluster.clusUsed (x : Cluster) : List (Nat × Nat) :=
  x.tt.flatMap (fun e => if e.2.live then [(e.2.base, e.2.units)] else [])

def fits (used : List (Nat × Nat)) (total units b : Nat) : Bool :=
  decide (b + units ≤ total) && used.all (fun u => decide (b + units ≤ u.1) || decide (u.1 + u.2 ≤ b))

def leastNat : List Nat → Option Nat
  | [] => none
  | x :: r => match leastNat r with
    | none => some x
    | some y => some (if x ≤ y then x else y)

/-- The lowest unit index that starts a run of free units (R220). -/
def lowestRun (used : List (Nat × Nat)) (total units : Nat) : Option Nat :=
  leastNat ((0 :: used.map (fun u => u.1 + u.2)).filter (fits used total units))

/-- The lowest free tile-table index (R220). -/
def Cluster.freeTti (x : Cluster) : Option Nat :=
  firstIdx (fun i => !(SMap.get {} x.tt i).live) 4096 0

/-- Clears the units of a new CLUS tile in every slice: every byte of a new tile reads as zero (R220). -/
def clearSlices (m : SMap Byte) (off n : Nat) : Nat → SMap Byte
  | 0 => m
  | k + 1 => clearSlices (SMap.clear m (k * 2 ^ 19 + off) n) off n k

/-- Tile-table entries, with their indices, that another core of the cluster may still get back by a rollback (R223). -/
def State.reserved (s : State) (c : Nat) : List (Nat × TtEntry) :=
  (s.cores.filter (fun e => e.1 != c && clusterOfCore e.1 == clusterOfCore c)).flatMap (fun e =>
    e.2.tiles.filter (fun u => u.2.live)
      ++ (e.2.remake.filter (fun m => m.2.1 == 0 && m.1.clus)).map (fun m =>
          (m.2.2.tti.toNat, { live := true, base := m.2.2.base.toNat, units := m.2.2.units })))

/-- The bytes of the units of a new CLUS tile, as a rollback restores them (R422). -/
def Cluster.unitUndo (k : Cluster) (q off n : Nat) : List Undo :=
  (k.clus.filter (fun e => decide (off ≤ e.1 % 2 ^ 19) && decide (e.1 % 2 ^ 19 < off + n))).map (fun e => ⟨some q, e.1, e.2⟩)

/-- The state with the tile of descriptor `d` made for the continuation of core `c`: its bytes zero, whatever word was bad there, its
tile-table entry (R220). -/
def State.makeTile (s : State) (c : Nat) (d : TDesc) : State :=
  let x := s.coreAt c
  let q := clusterOfCore c
  if d.clus then
    let s := (s.noteTile c d.tti.toNat).onCoreAt c (fun y => { y with
      undo := (s.clusterAt q).unitUndo q (256 * d.base.toNat) (256 * d.units) ++ y.undo })
    let k := s.clusterAt q
    s.setCluster q { k with tt := SMap.set {} k.tt d.tti.toNat ⟨true, x.mc, x.bind, x.fslot, d.base.toNat, d.units, d.rows, d.rs⟩,
                            clus := clearSlices k.clus (256 * d.base.toNat) (256 * d.units) 16,
                            bad := k.bad.filter (fun u => !(decide (4 * d.base.toNat ≤ u % 8192) && decide (u % 8192 < 4 * (d.base.toNat + d.units)))) }
  else s.onArchAt c (fun a => { a with
    priv := SMap.clear a.priv (4096 * d.base.toNat) (4096 * d.units)
    badPriv := a.badPriv.filter (fun u => !(decide (64 * d.base.toNat ≤ u) && decide (u < 64 * (d.base.toNat + d.units)))) })

/-- What an allocation for the continuation of core `c` finds (R220): the status, and the descriptor when it is 0 (DEDUCED, log 64). -/
def State.tallocFind (s : State) (c : Nat) (want : TDesc) : Nat × TDesc :=
  let x := s.coreAt c
  let k := s.clusterAt (clusterOfCore c)
  let held := s.reserved c
  if (x.now.t.filter (fun e => e.2.valid)).length ≥ (s.mcAt x.mc).tileq.toNat then (3, {})
  else if want.clus then
    match ({ k with tt := held.foldl (fun m e => SMap.set {} m e.1 e.2) k.tt } : Cluster).freeTti with
    | none => (2, {})
    | some tti =>
      match lowestRun (k.clusUsed ++ held.map (fun e => (e.2.base, e.2.units))) (k.tways.toNat * 128) want.units with
      | none => (1, {})
      | some b => (0, { want with valid := true, base := BitVec.ofNat 11 b, tti := BitVec.ofNat 12 tti })
  else
    match lowestRun x.now.privUsed 128 want.units with
    | none => (1, {})
    | some b => (0, { want with valid := true, base := BitVec.ofNat 11 b })

/-- The outcome of an allocation for the continuation of core `c` (R220): the status, the descriptor when it is 0, and
the state with the tile made. After a rollback it is what it was (R223). -/
def State.talloc (s : State) (c : Nat) (want : TDesc) : Nat × TDesc × State :=
  let (st, d, r) := match (s.coreAt c).remake with
    | (w, st, d) :: r => if w == want then (st, d, r) else ((s.tallocFind c want).1, (s.tallocFind c want).2, [])
    | [] => ((s.tallocFind c want).1, (s.tallocFind c want).2, [])
  let s := s.onCoreAt c (fun x => { x with made := (want, st, d) :: x.made, remake := r })
  (st, d, if st = 0 then s.makeTile c d else s)

/-- The descriptor that a TALLOC extension asks for. -/
def tallocWant (e : TallocX) : TDesc :=
  { clus := e.level == 1, fmt := e.fmt, rowsm1 := e.rowsm1, rbm1 := e.rbm1 }

def execTalloc (g : Guard) (t : TReg) (x : SReg) (tx : TallocX) (s : State) : Out :=
  issue 2 g (fun s => trapIf (s.arch.rdT t).valid 41 1 (t.zeroExtend 32)) (fun _ => none) (fun s =>
    let (st, d, s) := s.talloc s.cur (tallocWant tx)
    let lat := if tx.level == 1 then 24 else 6
    let s := if st = 0 then s.result lat 2 0 (.t t d) else s
    s.result lat 2 0 (.s x (BitVec.ofNat 64 st))) s

/-- TFREE; that of an invalid handle does nothing (R221). -/
def execTfree (g : Guard) (t : TReg) (s : State) : Out :=
  issueF 2 g (fun s => if (s.arch.rdT t).valid then (s.tfree s.cur t).result 1 2 0 (.t t {}) else s) s

def execTqry (g : Guard) (t : TReg) (x : SReg) (s : State) : Out :=
  issueF 2 g (fun s =>
    let d := s.arch.rdT t
    s.result 1 2 0 (.s x (if d.valid then BitVec.ofNat 64 d.bits else 0))) s

/-- The work that keeps a freed tile is done (R221). -/
def State.zombieDone (s : State) (c : Nat) (z : Zombie) : Bool :=
  let a := (s.coreAt c).now
  z.ops.all (fun i => (s.opAt i).isNone && !a.passes.any (·.id == i) && !a.reads.any (·.id == i)
    && !a.xs.any (·.id == i))

/-- Returns the units of freed tiles of a core's PRIV whose work is done (DEDUCED, log 111). -/
def State.reapPriv (s : State) (c : Nat) : State :=
  s.onArchAt c (fun a => { a with zombies := a.zombies.filter (fun z => !s.zombieDone c z) })

/-- The same for the CLUS tiles of a cluster: their tile-table entries end with them. An operation that a freeze has withdrawn is not
complete. -/
def State.reapClus (s : State) (q : Nat) : State :=
  let k := s.clusterAt q
  let alive (z : Zombie) : Bool := z.ops.any (fun i => (s.opAt i).isSome || s.conts.any (fun e => e.2.recIds.contains i)
    || s.cores.any (fun e => clusterOfCore e.1 == q && (e.2.now.passes.any (·.id == i) || e.2.now.reads.any (·.id == i)
      || e.2.now.xs.any (·.id == i))))
  let gone := k.zombies.filter (fun z => !alive z)
  s.setCluster q { k with zombies := k.zombies.filter alive,
                          tt := gone.foldl (fun m z => SMap.drop z.tti m) k.tt }

end Sys2Proof.Machine
end

