-- ==== Sys2Proof/Machine/Ecdsa.lean ====
section
/-!
DEFINITION. The check of an ECDSA signature on P-521 over a SHA-512 (spec/17_bringup.md R465), by its public definition.
-/
namespace Sys2Proof.Machine
set_option Elab.async false
open Sys2Proof

/-- The prime of the field, the coefficient b of the curve (a is -3), its order and its base point. -/
def p521 : Nat := 2 ^ 521 - 1
def p521b : Nat :=
  0x51953EB9618E1C9A1F929A21A0B68540EEA2DA725B99B315F3B8B489918EF109E156193951EC7E937B1652C0BD3BB1BF073573DF883D2C34F1EF451FD46B503F00
def p521n : Nat := 2 ^ 521 - 2 ^ 260 + 0xA51868783BF2F966B7FCC0148F709A5D03BB5C9B8899C47AEBB6FB71E91386409
def p521g : Nat × Nat :=
  (0xC6858E06B70404E9CD9E3ECB662395B4429C648139053FB521F828AF606B4D3DBAA14B5E77EFE75928FE1DC127A2FFA8DE3348B3C1856A429BF97E7E31C2E5BD66,
   0x11839296A789A3BC0045C8A5FB42C7D1BD998F54449579B446817AFBD17273E662C97EE72995EF42640C550B9013FAD0761353C7086A272C24088BE94769FD16650)

/-- `x` to the power `e` modulo `m`, `k` bits of `e`. -/
def powMod (m : Nat) : Nat → Nat → Nat → Nat
  | 0, _, _ => 1
  | k + 1, x, e => (if e % 2 = 1 then x else 1) * powMod m k (x * x % m) (e / 2) % m
/-- The inverse modulo a prime of at most 521 bits. -/
def invMod (m x : Nat) : Nat := powMod m 521 (x % m) (m - 2)

/-- The sum of two points; none is the point at infinity. -/
def ecAdd (a b : Option (Nat × Nat)) : Option (Nat × Nat) :=
  match a, b with
  | none, q => q
  | q, none => q
  | some (x, y), some (u, v) =>
    if x = u && (y + v) % p521 = 0 then none
    else
      let l := if x = u then (3 * x * x + p521 - 3) * invMod p521 (2 * y) % p521
        else (v + p521 - y) * invMod p521 (u + p521 - x) % p521
      let w := (l * l + 2 * p521 - x - u) % p521
      some (w, (l * (x + p521 - w) + p521 - y) % p521)

/-- `n` times a point, `k` bits of `n`. -/
def ecMul : Nat → Nat → Option (Nat × Nat) → Option (Nat × Nat)
  | 0, _, _ => none
  | k + 1, n, q => ecAdd (if n % 2 = 1 then q else none) (ecMul k (n / 2) (ecAdd q q))

def onCurve (q : Nat × Nat) : Bool :=
  decide (q.1 < p521) && decide (q.2 < p521) && (q.2 * q.2) % p521 == (q.1 * q.1 * q.1 + (p521 - 3) * q.1 + p521b) % p521

/-- The bytes of a public key. -/
def keyBytes (q : Nat × Nat) : List Byte := toBe 66 q.1 ++ toBe 66 q.2

/-- A signature `(r, s)` of the message `bs` under the public key `q` verifies. -/
def ecdsaOk (q : Nat × Nat) (bs : List Byte) (sig : Nat × Nat) : Bool :=
  let (r, t) := sig
  let w := invMod p521n t
  let z := ofBe (sha512 bs)
  onCurve q && decide (0 < r ∧ r < p521n) && decide (0 < t ∧ t < p521n)
    && (match ecAdd (ecMul 521 (z * w % p521n) (some p521g)) (ecMul 521 (r * w % p521n) (some q)) with
        | some (x, _) => x % p521n == r
        | none => false)

end Sys2Proof.Machine
end

