-- ==== Sys2Proof/Machine/Mctx.lean ====
section
/-!
DEFINITION. Micro-contexts as the Shepherd sees them (spec/04_execution.md R123, R124, R135, R139): their state, and what makes
work for them; and the division of a cluster's ways (R218).
-/
namespace Sys2Proof.Machine
set_option Elab.async false
open Sys2Proof

/-- A memory checkpoint holds the device still (R474, R475). -/
def State.quiesced (s : State) : Bool := s.ckpt.state == .running || s.ckpt.state == .held
/-- The Shepherd makes no binding (R455, R474). -/
def State.noBinding (s : State) : Bool := s.quiesced || s.cxlen

/-- STDISC counts a discarded packet (R18, R122). -/
def State.countDisc (s : State) (mc : Nat) : State :=
  s.onMc mc (fun m => { m with stdisc := if m.stdisc = 0xFFFFFFFF#32 then m.stdisc else m.stdisc + 1 })

/-- A request entry (R124). -/
def entryBytes (buf len src rid : Nat) : List Byte :=
  toBytes 16 buf ++ toBytes 4 len ++ toBytes 2 src ++ toBytes 2 0 ++ toBytes 8 rid

/-- Appends a request entry (R124); `some` when the entry has been written. -/
def State.append (s : State) (mc buf len src rid : Nat) (h : Option HostReq) : Got Unit × State :=
  let m := s.mcAt mc
  let i := m.rqtail.toNat
  match s.netWrite mc 0 0 (m.rqbase.toNat + 32 * (i % 2 ^ m.rqlog.toNat)) (entryBytes buf len src rid) with
  | (.fault t, s) => (.fault t, s)
  | (.wait w, s) => (.wait w, s)
  | (.ok t, s) =>
    let s := s.onMc mc (fun m => {
      m with rqtail := m.rqtail + 1, bts := max m.bts t, hreqs := SMap.set none m.hreqs i h })
    (.ok (), (s.selectAt true).decideMc mc false)

/-! ## TWAYS (R16, R218) -/

/-- The cluster holds a bound group or a CLUS tile. -/
def State.clusterHeld (s : State) (q : Nat) : Bool :=
  s.binds.any (fun e => e.2.live && e.2.held && e.2.clusters.contains q)
    || (s.clusterAt q).tt.any (fun e => e.2.live) || !(s.clusterAt q).zombies.isEmpty
/-- A pending write of TWAYS takes effect in a cycle in which the cluster holds neither. -/
def State.twaysApply (s : State) (q : Nat) : State :=
  let k := s.clusterAt q
  match k.pend with
  | some w => if s.clusterHeld q then s else s.setCluster q { k with tways := w, pend := none }
  | none => s

end Sys2Proof.Machine
end

