-- ==== Sys2Proof/Machine/Network.lean ====
section
/-!
DEFINITION. The receive pipeline (spec/01_machine.md R18, spec/12_movement_class.md R339 to R341, R345 to R348, R483).
-/
namespace Sys2Proof.Machine
set_option Elab.async false
open Sys2Proof

/-! ## The checks of a packet -/

/-- The micro-context that is not FREE and has a function number. -/
def State.mcByFunc (s : State) (f : BitVec 32) : Option Nat :=
  (s.mcs.find? (fun e => e.2.state != .free && e.2.func == f)).map (·.1)

/-- Step 1 (R18, R340): version, port and lengths. `udpLen` counts the bytes of the UDP payload (DEDUCED, log 50). -/
def packetParses (p : Packet) (typ : Nat) : Bool :=
  p.ver == 1 && p.typ.toNat == typ && p.udpPort.toNat == amiuxPort && decide (p.len.toNat ≤ 8192)
    && p.udpLen == 48 + p.len.toNat && p.ct.length == p.len.toNat && decide (p.port < 8)

/-- NONCE in network order, and the header bytes that are authenticated. -/
def packetNonce (p : Packet) : List Byte := toBe 12 p.nonce.toNat
def packetAad (p : Packet) : List Byte :=
  toBytes 1 p.ver.toNat ++ toBytes 1 p.typ.toNat ++ toBytes 1 p.part.toNat ++ toBytes 1 p.flags.toNat ++ toBe 4 p.func.toNat
    ++ toBe 8 p.rid.toNat ++ packetNonce p ++ toBe 4 p.len.toNat

/-- Step 2: the partition, which must be there (R118: `on`), the port, the buffer size and the first byte of NONCE. -/
def packetAgrees (p : Packet) (m : Mc) (on : Bool) (pool : RxPool) : Bool :=
  on && p.part == m.part && pool.ports.testBit p.port && decide (p.len.toNat + 64 ≤ pool.bufsize)
    && bitsOf p.nonce.toNat 88 8 == (if p.typ = 0 then 0 else 1)

/-- Step 3: a buffer is taken, the payload decrypted and authenticated into it: its address. A packet that fails is discarded
and its buffer returns (DESIGN CHOICE, log 74). -/
def State.receive (s : State) (mc : Nat) (p : Packet) : Option (Nat × RxPool) × State :=
  let m := s.mcAt mc
  match s.rxPool mc 0 with
  | (.ok pool, s) =>
    if !packetAgrees p m (s.partOfMc mc).active pool then (none, s.countDisc mc)
    else
      match s.takeBuf mc pool with
      | (.ok (some buf), s) =>
        (match gcmOpen m.key p.nonce.toNat (packetAad p) p.ct p.tag.toNat with
         | none => (none, (s.giveBuf mc buf).countDisc mc)
         | some pt =>
           let md := bufMeta p.srcIp.toNat p.srcMac.toNat p.srcPort.toNat p.nonce.toNat p.port p.typ.toNat p.vlan.toNat
             p.rid.toNat p.len.toNat
           match s.netWrite mc 0 0 buf (md ++ pt) with
           | (.ok t, s) => (some (buf, pool), s.onMc mc (fun m => { m with bts := max m.bts t }))
           | (_, s) => (none, (s.giveBuf mc buf).countDisc mc))
      | (_, s) => (none, s.countDisc mc)
  | (_, s) => (none, s.countDisc mc)

/-- A packet of one TYPE: its micro-context, when step 1 parses it and finds one. A packet that does not parse is discarded before a
micro-context is looked up, so that no micro-context counts it (DEDUCED, log 36); one that the pipeline does not take is counted. -/
def State.packetMc (s : State) (p : Packet) (typ : Nat) : Option Nat × State :=
  if !packetParses p typ then (none, s)
  else
    match s.mcByFunc p.func with
    | none => (none, s)
    | some mc => if s.quiesced then (none, s.countDisc mc) else (some mc, s)

/-! ## The packets -/

/-- REQUEST_PACKET_RECEIVE (R18, R340). -/
def execRequestPacketReceive (p : Packet) (s : State) : Out :=
  .next (match s.packetMc p 0 with
    | (none, s) => s
    | (some mc, s) =>
      match s.receive mc p with
      | (none, s) => s
      | (some (buf, _), s) =>
        match s.append mc buf p.len.toNat p.port p.rid.toNat none with
        | (.ok _, s) => s
        | (_, s) => (s.giveBuf mc buf).countDisc mc)

/-- Messages that are kept without a match. -/
def Mc.kept (m : Mc) : Nat := (m.unexp.filter (·.to'.isNone)).length

/-- A message of TYPE 2 or 3 meets its posted receive, or is kept (R345, R346). -/
def State.meet (s : State) (mc typ rid buf len nbuf : Nat) : State :=
  match s.oldestPosted mc typ rid with
  | some o => s.onMc mc (fun m => { m with unexp := m.unexp ++ [⟨typ, rid, buf, len, s.rtc.toNat, some o.id⟩] })
  | none =>
    if nbuf / 2 ≤ (s.mcAt mc).kept then (s.giveBuf mc buf).countDisc mc
    else s.onMc mc (fun m => { m with unexp := m.unexp ++ [⟨typ, rid, buf, len, s.rtc.toNat, none⟩] })

/-- PEER_MESSAGE_RECEIVE (R345). -/
def execPeerMessageReceive (p : Packet) (s : State) : Out :=
  .next (match s.packetMc p 2 with
    | (none, s) => s
    | (some mc, s) =>
      match s.receive mc p with
      | (none, s) => s
      | (some (buf, pool), s) => s.meet mc 2 p.rid.toNat buf p.len.toNat pool.nbuf)

/-- What a ring step matches by: ring id, revolution and step (R347). -/
def ringRid (rid : Nat) : Nat := bitsOf rid 32 16 * 2 ^ 32 + bitsOf rid 16 16 * 2 ^ 16 + bitsOf rid 0 8

/-- RING_STEP_RECEIVE (R347): a step of an older revolution, or of another length than its posted RING, is discarded. -/
def execRingStepReceive (p : Packet) (s : State) : Out :=
  .next (match s.packetMc p 3 with
    | (none, s) => s
    | (some mc, s) =>
      match s.receive mc p with
      | (none, s) => s
      | (some (buf, pool), s) =>
        let rid := ringRid p.rid.toNat
        let newest := SMap.get 0 (s.mcAt mc).ringNew (bitsOf rid 32 16)
        let old := newest != 0 && revBefore (bitsOf rid 16 16) (newest - 1)
        let odd := match s.oldestPosted mc 3 rid with
          | some o => (o.tileOf 1).rows * (o.tileOf 1).rb != p.len.toNat
          | none => false
        if old || odd then (s.giveBuf mc buf).countDisc mc else s.meet mc 3 rid buf p.len.toNat pool.nbuf)

/-- RING_BREAK_RECEIVE (R346, R348): the ring id and revolution are broken in the micro-context. -/
def execRingBreakReceive (p : Packet) (s : State) : Out :=
  .next (match s.packetMc p 4 with
    | (none, s) => s
    | (some mc, s) =>
      match s.receive mc p with
      | (none, s) => s
      | (some (buf, _), s) =>
        let key := (bitsOf p.rid.toNat 32 16, bitsOf p.rid.toNat 16 16)
        let s := (s.giveBuf mc buf).onMc mc (fun m => {
          m with broken := if m.broken.contains key then m.broken else m.broken ++ [key] })
        s.dropBroken mc key.1 key.2)

/-- SEGMENT_PAGE_MESSAGE (R340): a packet of TYPE 5 or 6 goes to the Carder, which authenticates it with the fabric key of the board
image. -/
def execSegmentPageMessage (p : Packet) (s : State) : Out :=
  .next (if !(packetParses p 5 || packetParses p 6) || s.quiesced then s
    else
      match s.image with
      | none => s
      | some img =>
        match gcmOpen img.fabric p.nonce.toNat (packetAad p) p.ct p.tag.toNat with
        | none => s
        | some pt => { s with carderIn := s.carderIn ++ [(p.typ.toNat, pt)] })

/-- UNEXPECTED_MESSAGE_EXPIRY (R346): messages that RINGTO has passed since their arrival are discarded. -/
def execUnexpectedMessageExpiry (mc : Nat) (s : State) : Out :=
  .next (match s.rxPool mc 0 with
    | (.ok pool, s) =>
      let old (u : Unexp) : Bool := u.to'.isNone && decide (u.at' + 100000 * pool.ringto ≤ s.rtc.toNat)
      let l := (s.mcAt mc).unexp.filter old
      let s := s.onMc mc (fun m => { m with unexp := m.unexp.filter (fun u => !old u) })
      l.foldl (fun s u => s.giveBuf mc u.buf) s
    | (_, s) => s)

end Sys2Proof.Machine
end

