-- ==== Sys2Proof/Machine/Frames.lean ====
section
/-!
DEFINITION. The frames that reach an Ethernet port (spec/12_movement_class.md, Amiux): what of IEEE 802.3, IEEE 802.1Q, IPv4, IPv6 and UDP
the device supports, and the datagram that a supported frame carries. The layouts are those of the standards (PRESUMED, log 159).
-/
namespace Sys2Proof.Machine
set_option Elab.async false
open Sys2Proof

/-- The number in network order at `o`. -/
def beAt (bs : List Byte) (o n : Nat) : Nat := ofBe (cutBytes bs o n)

/-- The ones' complement sum of the 16-bit words of bytes; an odd last byte is padded with zero. -/
def onesSum : List Byte → Nat
  | [] => 0
  | [a] => a.toNat * 256
  | a :: b :: r =>
    let t := onesSum r + a.toNat * 256 + b.toNat
    if 65535 < t then t - 65535 else t

/-- What IP says of a datagram: the source as 16 bytes, the bytes of the pseudo header that UDP sums, the payload. -/
structure IpPart where
  src     : Nat
  sum     : List Byte
  payload : List Byte
  v6      : Bool
deriving DecidableEq, Repr

/-- IPv4 without options or fragments, carrying UDP. -/
def ip4 (bs : List Byte) : Option IpPart :=
  let len := beAt bs 2 2
  if beAt bs 0 1 != 0x45 || len < 20 || bs.length < len || beAt bs 6 2 % 0x4000 != 0 || beAt bs 9 1 != 17
      || onesSum (bs.take 20) != 65535 then none
  else some { src := 0xFFFF * 2 ^ 32 + beAt bs 12 4, sum := cutBytes bs 12 8 ++ toBe 2 17 ++ toBe 2 (len - 20),
              payload := (bs.take len).drop 20, v6 := false }

/-- IPv6 without extension headers, carrying UDP. -/
def ip6 (bs : List Byte) : Option IpPart :=
  let len := beAt bs 4 2
  if beAt bs 0 1 / 16 != 6 || bs.length < 40 + len || beAt bs 6 1 != 17 then none
  else some { src := beAt bs 8 16, sum := cutBytes bs 8 32 ++ toBe 4 len ++ toBe 4 17, payload := (bs.drop 40).take len, v6 := true }

/-- The checksum of a UDP datagram verifies; one of zero stands for none under IPv4 alone. -/
def udpSumOk (p : IpPart) : Bool :=
  (!p.v6 && beAt p.payload 6 2 == 0) || (beAt p.payload 6 2 != 0 && onesSum (p.sum ++ p.payload) == 65535)

/-- The packet of a UDP datagram whose UDP payload is `u` (R339). -/
def packetOf (port src mac sp dp vlan : Nat) (u : List Byte) : Packet :=
  let n := u.length
  let f (o k : Nat) : Nat := beAt u o k
  { port := port, srcIp := BitVec.ofNat 128 src, srcMac := BitVec.ofNat 48 mac, srcPort := BitVec.ofNat 16 sp, vlan := BitVec.ofNat 16 vlan,
    udpPort := BitVec.ofNat 16 dp, udpLen := n, ver := BitVec.ofNat 8 (f 0 1), typ := BitVec.ofNat 8 (f 1 1), part := BitVec.ofNat 8 (f 2 1),
    flags := BitVec.ofNat 8 (f 3 1), func := BitVec.ofNat 32 (f 4 4), rid := BitVec.ofNat 64 (f 8 8), nonce := BitVec.ofNat 96 (f 16 12),
    len := BitVec.ofNat 32 (f 28 4), ct := (u.drop 32).take (n - 48), tag := BitVec.ofNat 128 (f (n - 16) 16) }

/-- The datagram of a frame that the device supports: up to 9,216 bytes, at most one tag, UDP over IPv4 or IPv6. -/
def frameOf (port : Nat) (bs : List Byte) : Option Packet :=
  let tagged := beAt bs 12 2 == 0x8100
  let o := if tagged then 16 else 12
  let kind := beAt bs o 2
  let rest := bs.drop (o + 2)
  if bs.length < 60 || 9216 < bs.length then none
  else
    match (if kind = 0x0800 then ip4 rest else if kind = 0x86DD then ip6 rest else none) with
    | none => none
    | some ip =>
      let n := beAt ip.payload 4 2
      if n != ip.payload.length || n < 8 || !udpSumOk ip then none
      else some (packetOf port ip.src (beAt bs 6 6) (beAt ip.payload 0 2) (beAt ip.payload 2 2)
        (if tagged then 0x8000 + beAt bs 14 2 % 4096 else 0) (ip.payload.drop 8))

/-- A frame arrives at a port with link: a datagram of TYPE 0 and 2 to 6 goes its way (R340), those of another TYPE are discarded (R18), and a
frame that the device does not support is discarded and counted in the statistics of its port. -/
def State.frameArrives (s : State) (port : Nat) (bs : List Byte) : State :=
  if !s.linkUp port then s
  else
    match frameOf port bs with
    | none => { s with portDrops := SMap.set 0 s.portDrops port (SMap.get 0 s.portDrops port + 1) }
    | some p =>
      match (match p.typ.toNat with
        | 0 => execRequestPacketReceive p s
        | 2 => execPeerMessageReceive p s
        | 3 => execRingStepReceive p s
        | 4 => execRingBreakReceive p s
        | 5 => execSegmentPageMessage p s
        | 6 => execSegmentPageMessage p s
        | _ => .next s) with
      | .next t => t
      | _ => s

end Sys2Proof.Machine
end

