-- ==== Sys2Proof/Machine/Control.lean ====
section
/-!
DEFINITION. Slot B, the control class (spec/05_control_class.md R148 to R175).
-/
namespace Sys2Proof.Machine
set_option Elab.async false
open Sys2Proof

/-! ## Code addresses (R28, R29, R149) -/

/-- How a fetch through the instruction path can end without its bytes. -/
inductive FetchStop where
  | trap (slot : Nat) (t : Trap)
  | wait (st : Stall)
deriving DecidableEq, Repr

/-- When the wait of an access through the instruction path on an absent segment page has begun, if the core waits for that entry (R327). -/
def Arch.segSince (a : Arch) (entry now' : Nat) : Nat :=
  match a.fwait, a.stall with
  | .segw t e, _ => if e = entry then t else now'
  | _, .segw t e => if e = entry then t else now'
  | _, _ => now'

/-- The checks of the line that holds the translated address `pa` of `va` (R32, R203, R428). A line of a host frame is read over the
host link (R202, R437). -/
def State.codeLine (s : State) (c va : Nat) : Bool × Nat → Except FetchStop (Bool × Nat) × State
  | (true, pa) =>
    let s := s.hostLink (s.coreAt c).mc false (pa / 64 * 64) 64
    (match s.hostErr.find? (fun e => e.1 = pa / 65536) with
     | some e => (.error (.trap 7 { cause := 43, reason := e.2 }), s)
     | none => (.ok (true, pa), s))
  | (false, pa) =>
    let line := pa / 64 * 64
    if s.poisoned line 64 then (.error (.trap 7 (xlTrap 42 (s.poisonWhy line 64) va)), s)
    else (.ok (false, pa), (s.commitBut c none line 64).viaCache line 64 false)

/-- Translates an address for the instruction path of core `c`, with the checks of the line that holds it: where its bytes stand
(R32, R203, R205, R327). -/
def State.codeAt (s : State) (c va : Nat) : Except FetchStop (Bool × Nat) × State :=
  let x := s.coreAt c
  match s.xlateDo (s.fetcher c) x.mc 0 va .execute with
  | (.ok h pa, s) => s.codeLine c va (h, pa)
  | (.fault r n, s) => (.error (.trap 7 (xlTrap r n va)), s)
  | (.mig, s) => (.error (.wait (.mig (va / 65536))), s)
  | (.seg sg e, s) =>
    let since := x.now.segSince e s.rtc.toNat
    if decide (since + 1000 * s.segwait.toNat ≤ s.rtc.toNat) then (.error (.trap 7 (xlTrap 39 1 va)), s)
    else (.error (.wait (.segw since e)), s.askPage sg e)

/-- PC + 4 * an offset in words. -/
def relTarget {n : Nat} (pc : VAddr) (off : BitVec n) : VAddr := pc + off.signExtend 72 <<< 2

/-! ## Branches (R149) -/

/-- ILL_TARGET (R32). -/
def targetCheck (t : VAddr) : Option Trap := trapIf (t.toNat % 4 != 0) 2 1

/-- A control transfer to a target, after one delay cycle (R33). -/
def State.transfer (s : State) (k : XKind) : State := s.onArch (fun a => { a with xfer := some ⟨k, a.pc, false, false⟩ })

/-- A branch to a target; that of BR is CODEBASE and a sum modulo 2^72 (R149; DEDUCED, log 23). Its target is checked under a true
guard alone (DESIGN CHOICE, log 128). -/
def branchTo (g : Guard) (target : State → VAddr) (eff : State → State) (s : State) : Out :=
  issue 0 g (fun s => targetCheck (target s)) (fun _ => none) (fun s => eff (s.transfer (.branch (target s)))) s

def execBr (g : Guard) (x y : SReg) (s : State) : Out :=
  branchTo g (fun s => s.curMc.codebase + ((s.arch.rdS x).zeroExtend 72 + (s.arch.rdS y).zeroExtend 72)) id s
def execBri (g : Guard) (off : BitVec 21) (s : State) : Out := branchTo g (fun s => relTarget s.arch.pc off) id s
/-- The link of a CALL (R149): CODEOFF of the bundle after the one that fills the delay cycle. -/
def State.callLink (s : State) : Nat :=
  let m := s.core.mc
  let next := s.skipMarkers m s.core.bnext.toNat fetchFuel
  s.codeOff m (if s.core.bsk > 0 then next else s.bundleAfter m next)
/-- The delay bundle of a CALL cannot be read at its issue: its link is known when it is (DEDUCED, log 114). -/
def State.linkLater (s : State) : Bool := s.core.bsk == 0 && (s.bundleAfter? s.core.mc s.core.bnext.toNat).isNone
def execCall (g : Guard) (off : BitVec 21) (s : State) : Out :=
  branchTo g (fun s => relTarget s.arch.pc off)
    (fun s => (s.result 1 0 0 (.s 63 (BitVec.ofNat 64 s.callLink))).onArch
      (fun a => { a with xfer := a.xfer.map (fun x => { x with link := s.linkLater }) })) s
def execRet (g : Guard) (x : SReg) (s : State) : Out :=
  branchTo g (fun s => s.curMc.codebase + (s.arch.rdS x).zeroExtend 72) id s

/-! ## Hardware loops (R150 to R152) -/

/-- A loop start with count `n` (DEDUCED, log 14). -/
def State.loopStart (s : State) (i : Instr) (lc : BitVec 2) (n : Word32) (fin : BitVec 13) : State :=
  let s := s.result 1 0 0 (.lc lc n)
  let e : VAddr := s.arch.pc + fin.zeroExtend 72 <<< 2
  if n = 0 then
    let s := s.onArch (fun a => a.setLoop lc.toNat { a.loopAt lc.toNat with active := false })
    s.setCore { s.core with loop0 := some e }
  else
    let st : VAddr := BitVec.ofNat 72 (s.skipMarkers s.core.mc s.core.bnext.toNat fetchFuel)
    s.onArch (fun a => { a.setLoop lc.toNat ⟨true, some i, st, e⟩ with started := some lc.toNat })

def execLoop (g : Guard) (lc : BitVec 2) (x : SReg) (fin : BitVec 13) (s : State) : Out :=
  issueF 0 g (fun s => s.loopStart (.loop g lc x fin) lc ((s.arch.rdS x).truncate 32) fin) s
def execLoopi (g : Guard) (lc : BitVec 2) (fin : BitVec 13) (n : Word32) (s : State) : Out :=
  issueF 0 g (fun s => s.loopStart (.loopi g lc fin n) lc n fin) s
def execLbrk (g : Guard) (lc : BitVec 2) (fin : BitVec 13) (s : State) : Out :=
  branchTo g (fun s => s.arch.pc + fin.zeroExtend 72 <<< 2)
    (fun s => s.onArch (fun a => a.setLoop lc.toNat { a.loopAt lc.toNat with active := false })) s

/-- The step of R151 for the loops in `ns` (descending) at the end of bundle `b`: counts fall, and the first loop with turns
left loops back. The loop that `b` itself has just started takes no step. -/
def loopSteps (b : VAddr) : List Nat → Arch → Arch
  | [], a => a
  | n :: r, a =>
    let l := a.loopAt n
    if l.active && l.lend = b && a.started != some n then
      let i := BitVec.ofNat 2 n
      let c := a.rdLc i
      if c.toNat ≤ 1 then
        loopSteps b r { (a.setLoop n { l with active := false }) with
          lc := SMap.set 0 a.lc n 0 }
      else { a with lc := SMap.set 0 a.lc n (c - 1), pc := l.lstart, past := false, passTo := none }
    else loopSteps b r a

/-- LOOP_END_STEP (R151): when the last cycle of bundle `last` ends and no control transfer is pending. The counts of this
cycle's SWR land after it (DEDUCED, log 7). -/
def Arch.loopEnd (a : Arch) : Arch :=
  if a.sk = 0 && a.xfer.isNone then loopSteps a.last [3, 2, 1, 0] a else a

def execLoopEndStep (c : Nat) (s : State) : Out :=
  .next (if s.ending = some c then s.onArchAt c Arch.loopEnd else s)

/-! ## SUSP, YIELD, RETIRE (R155 to R158) -/

/-- The `n` bytes of a descriptor from `va` on through the instruction path; they lie in one page, or end at its end, so one translation
serves them. -/
def State.descPart (s : State) (c va n : Nat) : Except FetchStop (List Byte) × State :=
  match s.codeAt c va with
  | (.ok (h, pa), s) =>
    let last := pa + n - 1
    (match if last / 64 = pa / 64 then (.ok (h, pa), s) else s.codeLine c (va + n - 1) (h, last) with
     | (.ok _, s) => (.ok (rdBytes (if h then s.host else s.mem) pa n), s)
     | (.error e, s) => (.error e, s))
  | (.error e, s) => (.error e, s)

/-- The 32 bytes of a descriptor, which may cross into a second page. -/
def State.descBytes (s : State) (c va : Nat) : Except FetchStop (List Byte) × State :=
  let room := 65536 - va % 65536
  if 32 ≤ room then s.descPart c va 32
  else
    match s.descPart c va room with
    | (.ok x, s) =>
      (match s.descPart c ((va + room) % 2 ^ 72) (32 - room) with
       | (.ok y, s) => (.ok (x ++ y), s)
       | (.error e, s) => (.error e, s))
    | (.error e, s) => (.error e, s)

/-- The descriptor of 32 bytes at `va`, or BAD_SUSP reason 2. -/
def suspDescOf (va : Nat) (bs : List Byte) : Except Trap SuspDesc :=
  let at' (o n : Nat) : Nat := ofBytes ((bs.drop o).take n)
  if va % 8 != 0 || at' 0 4 % 4 != 0 || at' 24 1 ≥ 16 || at' 25 7 != 0 then .error { cause := 97, reason := 2 }
  else .ok ⟨at' 0 4, at' 4 4, at' 8 8, at' 16 8, at' 24 1⟩

/-- How the read of a SUSP descriptor ends: the descriptor, BAD_SUSP reason 2, the fetch fault, or a wait. -/
inductive DescRead where
  | ok (d : SuspDesc)
  | bad
  | fault (t : Trap)
  | wait (st : Stall)
deriving DecidableEq, Repr

/-- Reads and checks a descriptor through the instruction path (R155), with the effects of the fetch (DEDUCED, log 19). -/
def State.suspRead (s : State) (c va : Nat) : DescRead × State :=
  match s.descBytes c va with
  | (.ok bs, s) => (match suspDescOf va bs with | .ok d => .ok d | .error _ => .bad, s)
  | (.error (.trap _ t), s) => (.fault t, s)
  | (.error (.wait (.mig p)), s) => (.wait (.smig p), s)
  | (.error (.wait st), s) => (.wait st, s)

/-- The core sleeps on the migrating page of a descriptor (R205). -/
def Arch.descAsleep (a : Arch) : Bool := match a.stall with | .smig _ => true | _ => false

/-- The causes of a SUSP's descriptor and counters (R155): the fetch fault, the counters, the descriptor. -/
def State.suspCheck (s : State) (va : Nat) : Option Trap :=
  let busy := trapIf (!s.arch.countersZero) 97 1
  if s.arch.descAsleep then busy
  else
    match (s.suspRead s.cur va).1 with
    | .fault t => some t
    | .bad => firstTrap [busy, trapIf true 97 2]
    | _ => busy

/-- Shared issue of the SUSP forms; `extra` are the causes of the form's wait. Only `susp` and `susp.bar` are commit points
(R174). -/
def suspIssue (g : Guard) (kind : Nat) (x y : SReg) (desc : Word32) (extra : State → Option Trap) (s : State) : Out :=
  let va (s : State) : Nat := (relTarget s.arch.pc desc).toNat
  issue 0 g (fun s => firstTrap [s.suspCheck (va s), extra s])
    (fun s =>
      if s.arch.descAsleep then some s
      else
        match s.suspRead s.cur (va s) with
        | (.wait st, t) => some (t.onArch (fun a => { a with stall := st }))
        | _ => none)
    (fun s =>
      let (r, t) := s.suspRead s.cur (va s)
      let d := match r with | .ok d => some d | _ => none
      let t := t.transfer (.susp (BitVec.ofNat 32 (s.codeOff s.core.mc (va s))) kind ((s.arch.rdS x).toNat % 65536)
        ((s.arch.rdS y).truncate 32) d)
      if kind = 1 || kind = 2 then t else t.commitPoint) s

def execSusp (g : Guard) (desc : Word32) (s : State) : Out := suspIssue g 0 0 0 desc (fun _ => none) s
def execSuspFence (g : Guard) (x y : SReg) (desc : Word32) (s : State) : Out :=
  suspIssue g 1 x y desc (fun s => s.fenceCheck (s.arch.rdS x)) s
def execSuspLend (g : Guard) (x y : SReg) (desc : Word32) (s : State) : Out :=
  suspIssue g 2 x y desc (fun s => s.fenceCheck (s.arch.rdS x)) s
/-- The target range of a barrier (R169). -/
def barTargetBad (t : Word) : Bool := t.toNat < 1 || t.toNat > 4096
/-- With a barrier number above 15 and a target out of range both causes hold, and the first of the table of causes is raised (DESIGN CHOICE,
log 143). -/
def execSuspBar (g : Guard) (x y : SReg) (desc : Word32) (s : State) : Out :=
  suspIssue g 3 x y desc (fun s => firstTrap
    [trapIf (barTargetBad (s.arch.rdS y)) 102 1, trapIf (decide ((s.arch.rdS x).toNat > 15)) 102 3]) s

def execYield (g : Guard) (s : State) : Out := issueF 0 g (fun s => s.transfer .yield) s
def execRetire (g : Guard) (s : State) : Out :=
  issue 0 g (fun s => trapIf (!s.arch.countersZero) 97 1) (fun _ => none)
    (fun s => (s.transfer .retire).commitPoint) s

/-! ## SPAWN, REQDONE, CRES (R159 to R161) -/

/-- An effect held back as a release (R361): it waits for everything outstanding, and applies with the largest timestamp that the writes
before it take or have taken (R363). -/
def State.release (s : State) (kind : OpKind) (i : Instr) (x : List Nat) : State :=
  (s.pushOp { s.newOp kind 0 i with x := x, after := s.liveOps, rel := true, ts := (s.contAt s.curKey).wts }).commitPoint

/-- The Shepherd's accesses for a SPAWN wait or fail: the SPAWN stands at issue (R203, R205). A failure is raised once. -/
def State.spawnWaits (s : State) : Option State :=
  match s.freeSlot s.core.mc with
  | none => none
  | some fs =>
    let u := s.contReach s.core.mc fs
    if u.shepDown.isSome then some (if s.curMc.state == .halted then s else u.shepUp) else none

def execSpawn (g : Guard) (x y : SReg) (stage : BitVec 4) (s : State) : Out :=
  issue 0 g (fun s => firstTrap
      [trapIf (decide ((s.arch.rdS x).toNat ≥ 2 ^ 32) || (s.arch.rdS x).toNat % 4 != 0) 98 1,
       trapIf (decide (stage.toNat ≥ s.curMc.stages.toNat)) 98 2, trapIf (s.freeSlot s.core.mc).isNone 98 3])
    (fun s => s.spawnWaits.map (fun u => u.onArch (fun a => { a with stall := .other })))
    (fun s => match s.freeSlot s.core.mc with
      | none => s
      | some fs =>
        let c := s.core
        let s' := (s.contReach c.mc fs).newCont c.mc c.bind fs stage.toNat (s.arch.rdS x).toNat (s.arch.rdS y).toNat
          (s.arch.rdS (y + 1)).toNat (s.arch.rdA 30).toNat
        let s' := s'.shepUp
        let s' := s'.onCont (contKey c.mc fs) (fun k => { k with spawning := true })
        s'.release .spawn (.spawn g x y stage) [fs]) s

def execReqdone (g : Guard) (x : SReg) (s : State) : Out :=
  issue 0 g (fun s => firstTrap [trapIf (s.bindAt s.core.bind).req.isNone 99 1,
      trapIf (s.bindAt s.core.bind).reqdone 99 2]) (fun _ => none)
    (fun s =>
      let v := (s.arch.rdS x).toNat % 65536
      (s.onBind s.core.bind (fun b => { b with reqdone := true })).release .reqdone (.reqdone g x) [v]) s

/-- The arrival of a `susp.bar` continuation `k` at its barrier (R155, R169). -/
def State.barArriveWaiting (s : State) (k : Nat) : State :=
  let c := s.contAt k
  let b := SMap.get {} (s.bindAt c.bind).bars c.wid
  match b.arrive c.wtarget.toNat c.pts with
  | none =>
    -- BAD_BARRIER reason 2 as a late fault of the SUSP
    let t : Trap := { cause := 102, reason := 2 }
    let info := trapInfoOf (k % 4096) 0 t
    let mc := k / 4096
    let s := s.countTrap mc c.bind 102
    let s := (s.onCont k (fun x => { x with refused := true, trapinfo := info })).setContState k .trapped
    if (s.mcAt mc).handler = 0xFFFFFFFF#32 then s.trapEvent mc (k % 4096) info (s.frameNum mc (k % 4096) 0 4) t
    else { s with handlers := s.handlers ++ [⟨mc, k % 4096, info, s.frameNum mc (k % 4096) 0 4, none⟩] }
  | some (b', rel) =>
    let s := (s.onBind c.bind (fun x => { x with bars := SMap.set {} x.bars c.wid b' })).onCont k
      (fun x => { x with refused := false })
    let s := s.setContState k .waiting
    if rel then (s.barRelease c.bind c.wid b'.bts s.cores).barWake c.bind c.wid b'.bts s.conts else s

/-- Resumption of a TRAPPED continuation (R161, R419); `skip` passes over the trapped syllable (DEDUCED, log 77). -/
def State.resumeTrapped (s : State) (k : Nat) (skip : Bool) : State :=
  let c := s.contAt k
  if c.refused then
    (if skip then (s.onCont k (fun x => { x with refused := false })).makeRunnable k else s.barArriveWaiting k)
  else (s.onCont k (fun x => { x with frozen := true, skip := skip })).runnableWhenDone k

def cresIssue (skip : Bool) (g : Guard) (x : SReg) (s : State) : Out :=
  issue 0 g (fun s =>
      let i := (s.arch.rdS x).toNat
      firstTrap [trapIf (decide (i ≥ s.curMc.frames.toNat)) 100 1,
        trapIf ((s.contAt (contKey s.core.mc i)).state != .trapped) 100 2]) (fun _ => none)
    (fun s => (s.resumeTrapped (contKey s.core.mc (s.arch.rdS x).toNat) skip).commitPoint) s

def execCres (g : Guard) (x : SReg) (s : State) : Out := cresIssue false g x s
/-- `cres.skip`: with SYLSLOT 7 no syllable is guarded off (DEDUCED, log 40). -/
def execCresSkip (g : Guard) (x : SReg) (s : State) : Out := cresIssue true g x s

/-! ## Waiting (R162 to R169) -/

/-- The condition of a WAITC field: 15 places none (R63). -/
def waitcOk (a : Arch) (nl ns nc nt nq : BitVec 4) : Bool :=
  let ok (f : BitVec 4) (c : BitVec 8) : Bool := f == 15 || decide (c.toNat ≤ f.toNat)
  ok nl a.ldo && ok ns a.sto && ok nc a.cpo && ok nt a.tlo && ok nq a.sqo

def State.stallAs (s : State) (st : Stall) : State := s.onArch (fun a => { a with stall := st })
def State.unstall (s : State) : State := s.stallAs .none

def execWaitc (g : Guard) (nl ns nc nt nq : BitVec 4) (s : State) : Out :=
  issue 0 g (fun _ => none)
    (fun s => if waitcOk s.arch nl ns nc nt nq then none else some (s.stallAs (.waitc nl ns nc nt nq))) State.unstall s

/-- How the continuation's stalled WAITF on counter `n` with target `t` has ended, if it has: whether ERR ended it. A wait that ended for other
values of its registers counts for nothing (R482). -/
def Arch.waitfDone (a : Arch) (n : Nat) (t : Word32) : Option Bool :=
  match a.stall with
  | .waitf _ _ _ (some (m, u, err)) => if m = n && u = t then some err else none
  | _ => none

/-- A WAITF stalls, lending to `sg` (R143): a loan to another signaller ends (DEDUCED, log 130). -/
def State.waitfStall (s : State) (x y : SReg) (sg : Option Nat) : State :=
  let mc := s.core.mc
  let t := s.stallAs (.waitf x y sg none)
  let t := match s.arch.stall with
    | .waitf _ _ (some old) _ => if sg = some old then t else t.endLoan mc old
    | _ => t
  match sg with
  | some g => t.beginLoan mc g
  | none => t

/-- WAITF (R166), with or without lending: every cycle looks at the counter and the target that the registers hold then (R482). -/
def waitfIssue (lend : Bool) (g : Guard) (x y : SReg) (p : PReg) (s : State) : Out :=
  issue 0 g (fun s =>
      let (n, t) := s.arch.waitPair x y
      if (s.arch.waitfDone n t).isSome then none else s.fenceCheck (s.arch.rdS x))
    (fun s =>
      let (n, t) := s.arch.waitPair x y
      if (s.arch.waitfDone n t).isSome || (s.fenceAt n).holds t then none
      else some (s.waitfStall x y (if lend then s.lendTo s.core.mc n else none)))
    (fun s =>
      let (n, t) := s.arch.waitPair x y
      match s.arch.waitfDone n t with
      | some err => s.unstall.result 1 0 0 (.p p (!err))
      | none =>
        let err := (s.fenceAt n).err
        (s.waitfEnd s.cur n t err).unstall.result 1 0 0 (.p p (!err))) s

def execWaitf (g : Guard) (x y : SReg) (p : PReg) (_ext : Bool) (s : State) : Out := waitfIssue false g x y p s
def execWaitfLend (g : Guard) (x y : SReg) (p : PReg) (s : State) : Out := waitfIssue true g x y p s

/-- The amount of a FINC (R165). -/
def fincAmount (a : Arch) (y : SReg) (amount : Option Word32) : Nat :=
  match amount with
  | some n => n.toNat
  | none => if y = 0 then 1 else (a.rdS y).toNat % 2 ^ 32

def fincIssue (set : Bool) (i : Instr) (g : Guard) (x y : SReg) (amount : Option Word32) (s : State) : Out :=
  issue 0 g (fun s => s.fenceCheck (s.arch.rdS x)) (fun _ => none)
    (fun s => s.release .finc i [(s.arch.rdS x).toNat, fincAmount s.arch y amount, if set then 1 else 0]) s

def execFinc (g : Guard) (x y : SReg) (amount : Option Word32) (s : State) : Out :=
  fincIssue false (.finc g x y amount) g x y amount s
def execFincSet (g : Guard) (x y : SReg) (amount : Option Word32) (s : State) : Out :=
  fincIssue true (.fincSet g x y amount) g x y amount s

/-- The outstanding work of the continuation on the paths of a mask (R168). -/
def State.opsOnPaths (s : State) (m : BitVec 6) : List Nat :=
  let c := s.core
  (s.ops.filter (fun o => o.mc = c.mc && o.fslot = c.fslot && (o.paths &&& m) != 0)).map (·.id)
    ++ (if m.getLsbD 1 then c.now.passes.map (·.id) ++ c.now.reads.map (·.id)
          ++ c.now.xs.map (·.id) else [])

def execFence (g : Guard) (before after : BitVec 6) (s : State) : Out :=
  issueF 0 g (fun s =>
    if before = 0 || after = 0 then s
    else s.onArch (fun a => { a with fences := a.fences ++ [⟨before, after, s.opsOnPaths before, some (.fence g before after)⟩] })) s

/-- FENCE_SATISFIED (R168): pending fences whose accesses have been performed end. -/
def State.fencesDone (s : State) (c : Nat) : State :=
  let live (i : Nat) : Bool := (s.opAt i).isSome || (s.coreAt c).now.passes.any (·.id == i)
    || (s.coreAt c).now.reads.any (·.id == i)
    || (s.coreAt c).now.xs.any (·.id == i)
  s.onArchAt c (fun a => { a with fences := a.fences.filter (fun f => f.ops.any live) })
def execFenceSatisfied (c : Nat) (s : State) : Out := .next (s.fencesDone c)

/-- GBAR: a target that differs traps at the arrival (DEDUCED, log 20); the range of the target is checked in every cycle (R482). -/
def execGbar (g : Guard) (x : SReg) (bar : BitVec 4) (s : State) : Out :=
  let released (s : State) : Bool := match s.arch.stall with | .gbar _ _ r _ => r | _ => false
  issue 0 g (fun s =>
      let t := s.arch.rdS x
      let b := SMap.get {} (s.bindAt s.core.bind).bars bar.toNat
      match s.arch.stall with
      | .gbar _ _ _ mis => firstTrap [trapIf mis 102 2, trapIf (barTargetBad t) 102 1]
      | _ => firstTrap [trapIf (barTargetBad t) 102 1, trapIf (decide (b.count > 0) && b.target != t.toNat) 102 2])
    (fun s =>
      match s.arch.stall with
      | .gbar _ _ r _ => if r then none else some s
      | _ =>
        let id := s.nextOp
        some ((s.release .arrive (.gbar g x bar) [bar.toNat, (s.arch.rdS x).toNat]).stallAs
          (.gbar bar.toNat id false false)))
    (fun s => if released s then s.unstall else s) s

/-- Applies the arrival of a stalled GBAR (R169), which the release takes in when it is the last one: a mismatch makes the bundle trap in its next cycle. -/
def State.barArrive (s : State) (o : Op) : State :=
  let n := o.x.getD 0 0
  let b := SMap.get {} (s.bindAt o.bind).bars n
  match b.arrive (o.x.getD 1 0) (s.contAt (contKey o.mc o.fslot)).pts with
  | none => s.onOpArch o (fun a => { a with stall := .gbar n o.id false true })
  | some (b', rel) =>
    let s := (s.dropOp o.id).onBind o.bind (fun x => { x with bars := SMap.set {} x.bars n b' })
    if rel then (s.barRelease o.bind n b'.bts s.cores).barWake o.bind n b'.bts s.conts else s

/-- WAITC_RELEASE (R63, R162): the stall of a WAITC whose condition holds ends; its bundle issues in the next cycle. -/
def execWaitcRelease (c : Nat) (s : State) : Out :=
  .next (match (s.coreAt c).now.stall with
    | .waitc nl ns nc nt nq =>
      if waitcOk (s.coreAt c).now nl ns nc nt nq then s.onArchAt c (fun a => { a with stall := .none }) else s
    | _ => s)

/-- WAITF_RELEASE (R166): a stalled WAITF whose condition holds at the fence store has ended. -/
def execWaitfRelease (c : Nat) (s : State) : Out :=
  .next (match (s.coreAt c).now.stall with
    | .waitf x y _ none =>
      let (n, t) := (s.coreAt c).now.waitPair x y
      if (s.fenceAt n).holds t then s.waitfEnd c n t (s.fenceAt n).err else s
    | _ => s)

/-! ## Events, traps, checkpoints, system registers (R170 to R173) -/

def execEvpost (g : Guard) (x y : SReg) (code : Option Byte) (s : State) : Out :=
  issueF 0 g (fun s => s.release .evpost (.evpost g x y code)
    [(s.arch.rdS x).toNat, (s.arch.rdS y).toNat, (code.getD 0).toNat]) s

/-- TRAP and TRAP.SYS (R171): the effect is the trap itself. -/
def trapIssue (cause : Nat) (g : Guard) (x : SReg) (s : State) : Out :=
  if !s.arch.guardOn 0 g then .next { s with verdict := .issued }
  else .next (s.takeTrap s.cur 0 { cause := cause, reason := 0, data := (s.arch.rdS x).truncate 32 })

def execTrap (g : Guard) (x : SReg) (s : State) : Out := trapIssue 103 g x s
def execTrapSys (g : Guard) (x : SReg) (s : State) : Out := trapIssue 104 g x s

def execCkpt (g : Guard) (s : State) : Out := issueF 0 g State.commitPoint s

def execSrd (g : Guard) (x : SReg) (sys : BitVec 12) (s : State) : Out :=
  issue 0 g (fun s => trapIf (s.rdSys sys).isNone 105 1) (fun _ => none)
    (fun s => s.result 1 0 0 (.s x ((s.rdSys sys).getD 0))) s
def execSwr (g : Guard) (x : SReg) (sys : BitVec 12) (s : State) : Out :=
  issue 0 g (fun s => trapIf (s.rdSys sys).isNone 105 1) (fun _ => none)
    (fun s => s.result 1 0 0 (s.swrWrite sys (s.arch.rdS x))) s

end Sys2Proof.Machine
end

