-- ==== Sys2Proof/Machine/Release.lean ====
section
/-!
DEFINITION. Releases (spec/13_memory_model.md R361), completions (spec/16_host.md R447) and the end of a binding (spec/04_execution.md
R137, R138).
-/
namespace Sys2Proof.Machine
set_option Elab.async false
open Sys2Proof

/-! ## Completions (R447) -/

/-- A completion record. -/
def complBytes (time rid qseq rbytes mc src status traps appst : Nat) : List Byte :=
  toBytes 8 time ++ toBytes 8 rid ++ toBytes 4 qseq ++ toBytes 3 rbytes ++ toBytes 1 0 ++ toBytes 2 mc ++ toBytes 2 src
    ++ toBytes 1 status ++ toBytes 1 traps ++ toBytes 2 appst

/-- The fence that a completion updates (R447): `mc` is 0x3FFF when no micro-context was found. -/
def State.sfence (s : State) (mc n t status : Nat) : State :=
  if status = 0 then s.fenceUpdate n t (fun f => { f with value := f.value + 1 })
  else if mc = 0x3FFF then
    s.fenceUpdate n t (fun f => { f with err := true, errcnt := if f.errcnt = 0xFFFFFFFF#32 then f.errcnt else f.errcnt + 1 })
  else s.fenceError mc n t

/-- Posts the completion of a request of function `fn`: its fence, then its record. -/
def State.complete (s : State) (fn mc : Nat) (h : Option HostReq) (rid rbytes src status traps appst t : Nat) : State :=
  match h with
  | some h =>
    let s := if h.sf then s.sfence mc h.sfence t status else s
    if h.nocomp then s
    else s.postRecord fn (SMap.get {} (s.funcAt fn).queues h.queue).cring true 23
      (complBytes s.rtc.toNat rid h.qseq rbytes mc src status traps appst)
  | none =>
    let f := s.funcAt fn
    if f.encrEn then s.postRecord fn f.encr.toNat true 23 (complBytes s.rtc.toNat rid 0 rbytes mc src status traps appst) else s

/-- The completion of a binding's request. -/
def State.completeBind (s : State) (b status appst t : Nat) : State :=
  let x := s.bindAt b
  match x.req with
  | some r => s.complete (s.mcAt x.mc).part.toNat x.mc r.host r.rid.toNat x.rbytes r.src.toNat status x.traps appst t
  | none => s

/-! ## RELEASE_APPLY -/

/-- The effect of a release whose accesses have been performed (DEDUCED, log 48), with the largest timestamp that the continuation's writes
before it took; a FINC with the PTS at its issue when that is larger (R363; DEDUCED, log 49). -/
def State.applyRelease (s : State) (o : Op) : State :=
  let x (i : Nat) : Nat := o.x.getD i 0
  let k := contKey o.mc o.fslot
  let t := if o.kind == .finc then max o.pts o.ts else o.ts
  match o.kind with
  | .finc =>
    let f := s.fenceAt (x 0)
    if f.alloc && f.owner.toNat == (s.mcAt o.mc).part.toNat then
      s.fenceUpdate (x 0) t (fun f => if x 2 = 1 then { f with value := BitVec.ofNat 32 (x 1), err := false }
        else { f with value := f.value + BitVec.ofNat 32 (x 1) })
    else s
  | .evpost => s.postEvent o.mc 1 (x 2) o.fslot (x 0) (x 1)
  | .reqdone => s.completeBind o.bind 0 (x 0) t
  | .spawn =>
    let j := contKey o.mc (x 0)
    (s.onCont j (fun c => { c with spawning := false, pts := max c.pts (s.contAt k).pts })).makeRunnable j
  | .arrive => s.barArrive o
  | _ => s

def Op.isRelease (o : Op) : Bool :=
  o.kind == .finc || o.kind == .evpost || o.kind == .reqdone || o.kind == .spawn || o.kind == .arrive

/-- RELEASE_APPLY (R361): a release is applied once every access that its continuation issued before it has been performed, and the
checkpoint that it is a commit point for has been taken (R174). -/
def execReleaseApply (id : Nat) (s : State) : Out :=
  .next (match s.opAt id with
    | none => s
    | some o => if !o.isRelease || !s.committed o || s.stillLive o o.after then s else (s.applyRelease o).dropOp id)

/-! ## Charging (R138) -/

/-- The Shepherd charges the delivered cycles of a binding (DEDUCED, log 80). -/
def State.charge (s : State) (b : Nat) : State :=
  let x := s.bindAt b
  let mine := s.cores.filter (fun e => e.2.running && e.2.bind == b && e.2.mc == x.mc)
  let n := (mine.map (·.2.delivered)).foldl (· + ·) x.owed
  let s := mine.foldl (fun s e => s.onCoreAt e.1 (fun c => { c with delivered := 0 })) s
  let s := s.onBind b (fun y => { y with owed := 0 })
  s.onMc x.mc (fun m => {
    m with pass := m.pass + BitVec.ofNat 64 (m.stride.toNat * n), stcyc := BitVec.ofNat 64 (min (2 ^ 64 - 1) (m.stcyc.toNat + n)) })

/-! ## The end of a binding (R137) -/

/-- REFS of the parameter record that a binding holds (R134), plus or minus one; PARAMVER 0 names no record (DEDUCED, log 34). -/
def State.paramRefs (s : State) (mc params : Nat) (up : Bool) : State :=
  if params = 0 then s
  else
    match s.shepGo mc params 8 .atomic with
    | (some pa, t) =>
      let v := rdNum t.mem pa 8
      (t.wrMem 0 pa (toBytes 8 (if up then v + 1 else v + 2 ^ 64 - 1))).2
    | (none, t) => t

/-- No continuation and no operation of a binding is left. One that waits, in a cycle of waits too, keeps the binding and its placement
(R147). -/
def State.bindDone (s : State) (b : Nat) : Bool :=
  let x := s.bindAt b
  x.live && !x.launching && !s.conts.any (fun e => e.1 / 4096 == x.mc && e.2.bind == b && (e.2.state != .free || e.2.spawning))
    && !s.ops.any (fun o => o.mc == x.mc && o.bind == b)

/-- BINDING_END (R137): the completion of a request without a REQDONE, the receive buffer (a self-test has none), REFS, the charge, the group, and the
state of the micro-context. -/
def execBindingEnd (b : Nat) (s : State) : Out :=
  .next (if !s.bindDone b then s
    else
      let x := s.bindAt b
      let s := s.charge b
      let s := if x.req.isSome && !x.reqdone then s.completeBind b 1 0 x.wts else s
      let s := match x.req with
        | some r =>
          (if x.only.isEmpty then s.giveBuf x.mc r.buf.toNat else s).onMc x.mc (fun m => { m with hreqs := SMap.set none m.hreqs r.index.toNat none })
        | none => s
      let s := { s with selfTest := s.selfTest.map (fun (t : SelfTest) =>
        if t.mc == some x.mc && !x.only.isEmpty then { t with ended := true } else t) }
      let s := s.paramRefs x.mc ((x.params.toNat + 2 ^ 72 - 16) % 2 ^ 72) false
      let s := (x.pens.flatMap id).foldl (fun s p => s.foldRehost p) s
      ((s.setBind b {}).selectAt true).decideMc x.mc false)

end Sys2Proof.Machine
end

