-- ==== Sys2Proof/Machine/Vector.lean ====
section
/-!
DEFINITION. Slot V, the vector class (spec/08_vector_class.md R227 to R250).
-/
namespace Sys2Proof.Machine
set_option Elab.async false
open Sys2Proof

/-! ## Elements (R227, R228) -/

/-- The VX fields, or the defaults with format code `c` (R40). -/
def vxOf (c : Nat) (vx : Option VX) : VX := vx.getD ⟨0, 0, 0, BitVec.ofNat 4 c⟩
/-- Width of an element in bits, and elements in a register. -/
def vWidth (c : Nat) : Nat := 8 * unitBytes c
def vLen (c : Nat) : Nat := 2048 / vWidth c
/-- Element `e` is active under mask `k` (R228). -/
def vActive (c : Nat) (k : Word) (e : Nat) : Bool := k.getLsbD (e * unitBytes c / 4)

/-- A register value from its elements, the first lowest. -/
def packList (w : Nat) : List Nat → Nat
  | [] => 0
  | x :: r => x % 2 ^ w + 2 ^ w * packList w r
def vPackList (w : Nat) (l : List Nat) : VWord := BitVec.ofNat 2048 (packList w l)

/-- Elements and their flags as a register value with flags. -/
def vCollect (w : Nat) (l : List (Nat × Flags)) : VWord × Flags :=
  (vPackList w (l.map (·.1)), l.foldl (fun f x => f ||| x.2) 0)

/-- R234: active elements from `f`, the others from `old`. -/
def vMap (c : Nat) (k : Word) (old : VWord) (f : Nat → Nat × Flags) : VWord × Flags :=
  vCollect (vWidth c) ((List.range (vLen c)).map (fun e => if vActive c k e then f e else (vElem (vWidth c) old e, 0)))

/-- What an element-wise instruction computes with: the code, the mode, saturation. -/
structure VCtx where
  c   : Nat
  rm  : Rm
  sat : Bool
deriving DecidableEq, Repr

/-- An integer result: wrapped, or clamped with SV (R234). -/
def VCtx.int (x : VCtx) (v : Int) : Nat × Flags :=
  let w := vWidth x.c
  if x.sat then
    let (lo, hi) := intRange x.c
    let y := clampInt lo hi v
    (truncInt w y, if y = v then 0 else fSV)
  else (truncInt w v, 0)

/-- An instruction with a v result: `f` gives the value and the flags. -/
def vOp (g : Guard) (lat : Nat) (d : VReg) (f : Arch → VWord × Flags) (s : State) : Out :=
  issueF 3 g (fun s => let (v, fl) := f s.arch; s.result lat 3 fl (.v d v)) s

def vCtx (a : Arch) (c : Nat) (vx : Option VX) : VCtx :=
  let e := vxOf c vx
  ⟨e.fmt.toNat, Rm.ofField a.rmode e.rm, e.sat == 1⟩

/-- An element-wise instruction (R234): `f` takes x, y and z. -/
def vElemOp (g : Guard) (lat dflt : Nat) (d a b : VReg) (k : KReg) (vx : Option VX)
    (f : VCtx → Nat → Nat → Nat → Nat × Flags) (s : State) : Out :=
  vOp g lat d (fun r =>
    let x := vCtx r dflt vx
    let w := vWidth x.c
    vMap x.c (r.rdK k) (r.rdV d) (fun e => f x (vElem w (r.rdV a) e) (vElem w (r.rdV b) e) (vElem w (r.rdV d) e))) s

/-- The latency of VADD and VSUB (R231). -/
def addLat (vx : Option VX) : Nat := if (ffmtOf (vxOf 0 vx).fmt.toNat).isSome then 4 else 2

/-- A floating-point or integer operation on two elements. -/
def VCtx.arith (x : VCtx) (fp : FVal → FVal → Ex) (int : Int → Int → Int) (a b : Nat) : Nat × Flags :=
  match ffmtOf x.c with
  | some F => F.round x.rm x.sat (fp (F.decode a) (F.decode b))
  | none => x.int (int (intElem x.c a) (intElem x.c b))

def execVadd (g : Guard) (d a b : VReg) (k : KReg) (vx : Option VX) (s : State) : Out :=
  vElemOp g (addLat vx) 0 d a b k vx (fun c x y _ => c.arith (addV c.rm) (· + ·) x y) s
def execVsub (g : Guard) (d a b : VReg) (k : KReg) (vx : Option VX) (s : State) : Out :=
  vElemOp g (addLat vx) 0 d a b k vx (fun c x y _ => c.arith (fun p q => addV c.rm p q.negate) (· - ·) x y) s
def execVmul (g : Guard) (d a b : VReg) (k : KReg) (vx : Option VX) (s : State) : Out :=
  vElemOp g 4 0 d a b k vx (fun c x y _ => c.arith mulEx (· * ·) x y) s

/-- A floating-point operation rounded to the element format. -/
def VCtx.fp (x : VCtx) (f : FFmt → Ex) : Nat × Flags :=
  match ffmtOf x.c with
  | some F => F.round x.rm x.sat (f F)
  | none => (0, 0)

def execVfma (g : Guard) (d a b : VReg) (k : KReg) (vx : Option VX) (s : State) : Out :=
  vElemOp g 5 0 d a b k vx (fun c x y z => c.fp (fun F => fmaEx c.rm (F.decode x) (F.decode y) (F.decode z))) s
def execVfms (g : Guard) (d a b : VReg) (k : KReg) (vx : Option VX) (s : State) : Out :=
  vElemOp g 5 0 d a b k vx (fun c x y z => c.fp (fun F => fmaEx c.rm (F.decode x).negate (F.decode y) (F.decode z))) s

def execVabs (g : Guard) (d a : VReg) (k : KReg) (vx : Option VX) (s : State) : Out :=
  vElemOp g 2 0 d a a k vx (fun c x _ _ =>
    match ffmtOf c.c with
    | some F => (x % F.signBit, 0)
    | none => c.int (intElem c.c x).natAbs) s

/-- VMIN and VMAX (R192, R234). -/
def vMinMax (mx : Bool) (c : Nat) (x y : Nat) : Nat × Flags :=
  match ffmtOf c with
  | some F => F.minMax mx x y
  | none => (if (decide (intElem c x ≤ intElem c y)) != mx then x else y, 0)

def execVmin (g : Guard) (d a b : VReg) (k : KReg) (vx : Option VX) (s : State) : Out :=
  vElemOp g 2 0 d a b k vx (fun c x y _ => vMinMax false c.c x y) s
def execVmax (g : Guard) (d a b : VReg) (k : KReg) (vx : Option VX) (s : State) : Out :=
  vElemOp g 2 0 d a b k vx (fun c x y _ => vMinMax true c.c x y) s

/-- 1 as a value. -/
def oneV : FVal := .fin false 1 0

def execVdiv (g : Guard) (d a b : VReg) (k : KReg) (vx : Option VX) (s : State) : Out :=
  vElemOp g 16 0 d a b k vx (fun c x y _ => c.fp (fun F => divEx (F.decode x) (F.decode y))) s
def execVrcp (g : Guard) (d a : VReg) (k : KReg) (vx : Option VX) (s : State) : Out :=
  vElemOp g 16 0 d a a k vx (fun c x _ _ => c.fp (fun F => divEx oneV (F.decode x))) s
def execVrsq (g : Guard) (d a : VReg) (k : KReg) (vx : Option VX) (s : State) : Out :=
  vElemOp g 16 0 d a a k vx (fun c x _ _ => c.fp (fun F => rsqrtEx (F.decode x))) s
def execVsqrt (g : Guard) (d a : VReg) (k : KReg) (vx : Option VX) (s : State) : Out :=
  vElemOp g 16 0 d a a k vx (fun c x _ _ => c.fp (fun F => sqrtEx (F.decode x))) s

/-- A function unit's instruction (R107, R108). -/
def vFn (g : Guard) (lat : Nat) (d a : VReg) (k : KReg) (vx : Option VX) (f : FFmt → Rm → Bool → FVal → Nat × Flags) (s : State) : Out :=
  vElemOp g lat 0 d a a k vx (fun c x _ _ =>
    match ffmtOf c.c with
    | some F => f F c.rm c.sat (F.decode x)
    | none => (0, 0)) s

def execVexp (g : Guard) (d a : VReg) (k : KReg) (vx : Option VX) (s : State) : Out := vFn g 12 d a k vx expRound s
def execVexp2 (g : Guard) (d a : VReg) (k : KReg) (vx : Option VX) (s : State) : Out := vFn g 12 d a k vx exp2Round s
def execVlog2 (g : Guard) (d a : VReg) (k : KReg) (vx : Option VX) (s : State) : Out := vFn g 12 d a k vx log2Round s
def execVtanh (g : Guard) (d a : VReg) (k : KReg) (vx : Option VX) (s : State) : Out := vFn g 24 d a k vx tanhRound s
def execVsigm (g : Guard) (d a : VReg) (k : KReg) (vx : Option VX) (s : State) : Out := vFn g 24 d a k vx sigmRound s

/-! ## Bits (R234, R235) -/

def execVand (g : Guard) (d a b : VReg) (k : KReg) (vx : Option VX) (s : State) : Out :=
  vElemOp g 2 8 d a b k vx (fun _ x y _ => (x &&& y, 0)) s
def execVor (g : Guard) (d a b : VReg) (k : KReg) (vx : Option VX) (s : State) : Out :=
  vElemOp g 2 8 d a b k vx (fun _ x y _ => (x ||| y, 0)) s
def execVxor (g : Guard) (d a b : VReg) (k : KReg) (vx : Option VX) (s : State) : Out :=
  vElemOp g 2 8 d a b k vx (fun _ x y _ => (x ^^^ y, 0)) s
def execVshl (g : Guard) (d a b : VReg) (k : KReg) (vx : Option VX) (s : State) : Out :=
  vElemOp g 2 8 d a b k vx (fun c x y _ => (if vWidth c.c ≤ y then 0 else x * 2 ^ y % 2 ^ vWidth c.c, 0)) s
def execVshr (g : Guard) (d a b : VReg) (k : KReg) (vx : Option VX) (s : State) : Out :=
  vElemOp g 2 8 d a b k vx (fun c x y _ => (if vWidth c.c ≤ y then 0 else x / 2 ^ y, 0)) s
def execVsra (g : Guard) (d a b : VReg) (k : KReg) (vx : Option VX) (s : State) : Out :=
  vElemOp g 2 8 d a b k vx (fun c x y _ =>
    (truncInt (vWidth c.c) (toSigned (vWidth c.c) x / (2 ^ min y (vWidth c.c) : Nat)), 0)) s

/-! ## Compare and select (R236, R237) -/

/-- The condition of VCMP on one pair, and NV (R187, R188). UINT8 compares unsigned. -/
def vCond (c cond x y : Nat) : Bool × Bool :=
  match ffmtOf c with
  | some F => fcondV cond (F.decode x) (F.decode y)
  | none => (icond (if c = 6 then 9 else vWidth c) cond x y, false)

/-- VCMP (R236): a bit for each lane. -/
def vCmp (c cond : Nat) (anyOf : Bool) (x y : VWord) : Word × Flags :=
  let m := 4 / unitBytes c
  let lane (i : Nat) : List (Bool × Bool) :=
    (List.range m).map (fun j => vCond c cond (vElem (vWidth c) x (m * i + j)) (vElem (vWidth c) y (m * i + j)))
  let bit (i : Nat) : Bool := if anyOf then (lane i).any (·.1) else (lane i).all (·.1)
  let ls := List.range 64
  (BitVec.ofNat 64 (packList 1 (ls.map (fun i => if bit i then 1 else 0))), if ls.any (fun i => (lane i).any (·.2)) then fNV else 0)

def execVcmp (g : Guard) (kd : KReg) (a b : VReg) (cond : BitVec 5) (vx : Option VX) (s : State) : Out :=
  issueF 3 g (fun s =>
    let e := vxOf 0 vx
    let (v, fl) := vCmp e.fmt.toNat cond.toNat (e.sub == 1) (s.arch.rdV a) (s.arch.rdV b)
    s.result 2 3 fl (.k kd v)) s

def execVsel (g : Guard) (d a b : VReg) (k : KReg) (_vx : Option VX) (s : State) : Out :=
  vOp g 2 d (fun r => (vPackList 32 ((List.range 64).map (fun i =>
    vElem 32 (if (r.rdK k).getLsbD i then r.rdV a else r.rdV b) i)), 0)) s
def execVmov (g : Guard) (d a : VReg) (k : KReg) (vx : Option VX) (s : State) : Out :=
  vElemOp g 2 0 d a a k vx (fun _ x _ _ => (x, 0)) s

/-! ## Conversion (R241) -/

/-- VCVT of the source bits into the destination's old value. -/
def vConvert (src dst part : Nat) (rm : Rm) (sat : Bool) (k : Word) (x old : VWord) : VWord × Flags :=
  let ns := vLen src
  let nd := vLen dst
  let from' (i : Nat) : Nat × Flags := convAny src dst rm sat (vElem (vWidth src) x i)
  vMap dst k old (fun e =>
    if ns < nd then (if part * ns ≤ e && decide (e < part * ns + ns) then from' (e - part * ns) else (vElem (vWidth dst) old e, 0))
    else from' (part * nd + e))

def execVcvt (g : Guard) (d a : VReg) (k : KReg) (vx : Option VX) (s : State) : Out :=
  vOp g 3 d (fun r =>
    let e := vxOf 0 vx
    let x := vCtx r 0 vx
    vConvert (e.sub.toNat % 16) x.c (e.sub.toNat / 16 % 4) x.rm x.sat (r.rdK k) (r.rdV a) (r.rdV d)) s

/-! ## Reduction and scan (R109 to R111, R242) -/

/-- One combination of the tree: 0 add, 1 multiply, 2 minimum, 3 maximum. -/
def VCtx.node (x : VCtx) (op a b : Nat) : Nat × Flags :=
  match op with
  | 0 => x.arith (addV x.rm) (· + ·) a b
  | 1 => x.arith mulEx (· * ·) a b
  | 2 => vMinMax false x.c a b
  | _ => vMinMax true x.c a b

/-- A node: its value unless it is absent, and the flags raised below and in it. -/
abbrev VNode := Option Nat × Flags

def VCtx.join (x : VCtx) (op : Nat) (a b : VNode) : VNode :=
  match a.1, b.1 with
  | some p, some q => let (v, f) := x.node op p q; (some v, a.2 ||| b.2 ||| f)
  | some p, none => (some p, a.2 ||| b.2)
  | none, q => (q, a.2 ||| b.2)

def VCtx.level (x : VCtx) (op : Nat) : List VNode → List VNode
  | a :: b :: r => x.join op a b :: x.level op r
  | l => l

/-- All levels of the tree, the elements first. -/
def VCtx.levels (x : VCtx) (op : Nat) : Nat → List VNode → List (List VNode)
  | 0, l => [l]
  | k + 1, l => l :: x.levels op k (x.level op l)

def vLog (c : Nat) : Nat := Nat.log2 (vLen c)

/-- The elements as nodes, inactive ones absent. -/
def vLeaves (c : Nat) (k : Word) (v : VWord) : List VNode :=
  (List.range (vLen c)).map (fun e => (if vActive c k e then some (vElem (vWidth c) v e) else none, 0))

/-- The value of an absent root (R110). -/
def vEmpty (c op : Nat) : Nat :=
  match ffmtOf c, op with
  | _, 0 => 0
  | some F, 1 => (F.round .rne false oneV.toEx).1
  | none, 1 => 1
  | some F, 2 => F.infBits
  | some F, _ => F.signBit + F.infBits
  | none, 2 => truncInt (vWidth c) (intRange c).2
  | none, _ => truncInt (vWidth c) (intRange c).1

/-- The op code of VRED and VSCAN in VX[9:8] (R242). -/
def vxRedOp (e : VX) : Nat := e.sub.toNat % 4

def execVred (g : Guard) (d a : VReg) (k : KReg) (vx : Option VX) (s : State) : Out :=
  vOp g 10 d (fun r =>
    let x := vCtx r 0 vx
    let op := vxRedOp (vxOf 0 vx)
    let root := ((x.levels op (vLog x.c) (vLeaves x.c (r.rdK k) (r.rdV a))).getLastD []).headD (none, 0)
    (BitVec.ofNat 2048 (root.1.getD (vEmpty x.c op)), root.2)) s

/-- The blocks of elements 0 to `i`: levels and indexes of their nodes, the lowest elements first (R111). -/
def scanBlocks (n : Nat) : Nat → Nat → List (Nat × Nat)
  | 0, at' => if n.testBit 0 then [(0, at')] else []
  | j + 1, at' =>
    if n.testBit (j + 1) then (j + 1, at' / 2 ^ (j + 1)) :: scanBlocks n j (at' + 2 ^ (j + 1)) else scanBlocks n j at'

/-- The combination of elements 0 to `i` (R111). -/
def VCtx.prefixAt (x : VCtx) (op : Nat) (ls : List (List VNode)) (i : Nat) : VNode :=
  ((scanBlocks (i + 1) (vLog x.c) 0).map (fun b => (ls.getD b.1 []).getD b.2 (none, 0))).foldl (x.join op) (none, 0)

/-- VSCAN: the flags are those of the combinations that the active elements are made of (DEDUCED, log 28). -/
def execVscan (g : Guard) (d a : VReg) (k : KReg) (vx : Option VX) (s : State) : Out :=
  vOp g 12 d (fun r =>
    let x := vCtx r 0 vx
    let op := vxRedOp (vxOf 0 vx)
    let ls := x.levels op (vLog x.c) (vLeaves x.c (r.rdK k) (r.rdV a))
    vMap x.c (r.rdK k) (r.rdV d) (fun e => let y := x.prefixAt op ls e; (y.1.getD 0, y.2))) s

/-! ## Broadcast, insert, extract, permute (R238 to R240) -/

def execVbcast (g : Guard) (d : VReg) (b : SReg) (k : KReg) (vx : Option VX) (s : State) : Out :=
  vOp g 2 d (fun r =>
    let c := (vxOf 0 vx).fmt.toNat
    vMap c (r.rdK k) (r.rdV d) (fun _ => ((r.rdS b).toNat % 2 ^ vWidth c, 0))) s
def execViota (g : Guard) (d : VReg) (b : SReg) (k : KReg) (vx : Option VX) (s : State) : Out :=
  vOp g 2 d (fun r =>
    let c := (vxOf 8 vx).fmt.toNat
    vMap c (r.rdK k) (r.rdV d) (fun e => (((r.rdS b).toNat + e) % 2 ^ vWidth c, 0))) s
def execVins (g : Guard) (d : VReg) (a b : SReg) (vx : Option VX) (s : State) : Out :=
  vOp g 2 d (fun r =>
    let c := (vxOf 0 vx).fmt.toNat
    let i := (r.rdS a).toNat
    (vPackList (vWidth c) ((List.range (vLen c)).map (fun e =>
      if e = i then (r.rdS b).toNat % 2 ^ vWidth c else vElem (vWidth c) (r.rdV d) e)), 0)) s

/-- VEXT of element `i` (R239). -/
def vExtract (c : Nat) (x : VWord) (i : Nat) : Word :=
  if vLen c ≤ i then 0
  else
    let e := vElem (vWidth c) x i
    if c = 5 || c = 7 || c = 8 then BitVec.ofInt 64 (toSigned (vWidth c) e) else BitVec.ofNat 64 e

/-- VEXT (R239). Without VX its format is code 0, FP32, as that of every V instruction which is neither arithmetic nor listed for INT32
(DESIGN CHOICE, log 127). -/
def execVext (g : Guard) (d : SReg) (a : VReg) (b : SReg) (vx : Option VX) (s : State) : Out :=
  issueF 3 g (fun s => s.result 2 3 0 (.s d (vExtract (vxOf 0 vx).fmt.toNat (s.arch.rdV a) (s.arch.rdS b).toNat))) s
def execVperm (g : Guard) (d a b : VReg) (k : KReg) (vx : Option VX) (s : State) : Out :=
  vOp g 3 d (fun r =>
    let c := (vxOf 0 vx).fmt.toNat
    let w := vWidth c
    vMap c (r.rdK k) (r.rdV d) (fun e =>
      let j := vElem w (r.rdV b) e % (if c = 11 then 2 ^ 32 else 2 ^ w)
      (if vLen c ≤ j then 0 else vElem w (r.rdV a) j, 0))) s

/-! ## Sums of products (R243, R244, R245) -/

/-- Exact sum of several values; `nv` says that one of them came from an invalid product. -/
def sumEx (rm : Rm) (nv : Bool) (l : List FVal) : Ex :=
  if nv || l.any (·.isSNaN) then .nan true
  else if l.any (·.isNaN) then .nan false
  else
    let infOf (n : Bool) : Bool := l.any (fun v => match v with | .inf m => m == n | _ => false)
    if infOf true && infOf false then .nan true
    else if infOf true then .inf true false
    else if infOf false then .inf false false
    else
      let lo : Int := l.foldl (fun (t : Int) v => match v with | .fin _ _ e => (if e < t then e else t) | _ => t) 0
      let sum : Int := l.foldl (fun (t : Int) v => match v with
        | .fin n m e => t + dyInt n (m * 2 ^ (e - lo).toNat)
        | _ => t) 0
      let zs (n : Bool) : Bool := l.all (fun v => match v with | .zero m => m == n | _ => false)
      Ex.ofInt sum lo (if zs true then true else if zs false then false else rm == .rdn)

/-- Infinities of both signs among the terms of a sum (R115): the sum is invalid, whatever NaN stands beside them (R243, R245; DEDUCED,
log 122). -/
def infClash (l : List FVal) : Bool :=
  l.any (fun v => match v with | .inf n => n | _ => false) && l.any (fun v => match v with | .inf n => !n | _ => false)

/-- Products of pairs as values, and whether one was invalid. -/
def products (l : List (FVal × FVal)) : List FVal × Bool :=
  (l.map (fun x => (mulV x.1 x.2).1), l.any (fun x => (mulV x.1 x.2).2))

/-- One lane of VDOT (R243). -/
def VCtx.dotLane (x : VCtx) (a b d : VWord) (i : Nat) : Nat × Flags :=
  let w := vWidth x.c
  let m := 4 / unitBytes x.c
  let old := vElem 32 d i
  let es := (List.range m).map (fun j => (vElem w a (m * i + j), vElem w b (m * i + j)))
  match ffmtOf x.c with
  | some F =>
    let (ps, nv) := products (es.map (fun e => (F.decode e.1, F.decode e.2)))
    FFmt.fp32.round x.rm false (sumEx x.rm (nv || infClash ps) (FFmt.fp32.decode old :: ps))
  | none =>
    let v : Int := es.foldl (fun (t : Int) e => t + intElem x.c e.1 * intElem x.c e.2) (toSigned 32 old)
    { x with c := 8 }.int v

def execVdot (g : Guard) (d a b : VReg) (k : KReg) (vx : Option VX) (s : State) : Out :=
  vOp g 6 d (fun r => vMap 0 (r.rdK k) (r.rdV d) (fun i => (vCtx r 0 vx).dotLane (r.rdV a) (r.rdV b) (r.rdV d) i)) s

/-- The ReLU of VSO (R244). -/
def vRelu (F : FFmt) (y : Nat) : Nat :=
  match F.decode y with
  | .nan _ => F.nan
  | v => if v.neg? then 0 else y

def execVso (g : Guard) (d a b : VReg) (k : KReg) (vx : Option VX) (s : State) : Out :=
  let form := vxRedOp (vxOf 0 vx)
  let b1 : VReg := b + 1
  let el (r : Arch) (v : VReg) (c : VCtx) (F : FFmt) (e : Nat) : FVal := F.decode (vElem (vWidth c.c) (r.rdV v) e)
  let fp (c : VCtx) (f : FFmt → Nat × Flags) : Nat × Flags := match ffmtOf c.c with | some F => f F | none => (0, 0)
  if form = 2 then
    issueF 3 g (fun s =>
      let r := s.arch
      let c := vCtx r 0 vx
      let (v, f) := vMap c.c (r.rdK k) (r.rdV b) (fun e => fp c (fun F =>
        F.round c.rm c.sat (fmaEx c.rm (el r d c F e) (el r a c F e) (el r b c F e))))
      let (w, h) := vMap c.c (r.rdK k) (r.rdV b1) (fun e => fp c (fun F =>
        F.round c.rm c.sat (addV c.rm (el r b1 c F e) (el r d c F e))))
      (s.result 5 3 f (.v b v)).result 5 3 h (.v b1 w)) s
  else
    vOp g 5 d (fun r =>
      let c := vCtx r 0 vx
      vMap c.c (r.rdK k) (r.rdV d) (fun e => fp c (fun F =>
        let (y, f) := F.round c.rm c.sat (fmaEx c.rm (el r a c F e) (el r b c F e) (el r b1 c F e))
        (if form = 1 then vRelu F y else y, f)))) s

/-- Code 0 is read as CF32 (R229). -/
def cpxCode (c : Nat) : Nat := if c = 10 then 10 else 11
/-- Format of the parts of a complex code, and their width. -/
def cpxPart (c : Nat) : FFmt × Nat := if c = 10 then (.bf16, 16) else (.fp32, 32)

/-- VCMUL, or VCMAC with the addend (R245). -/
def cpxMul (x : VCtx) (mac : Bool) (a b z : Nat) : Nat × Flags :=
  let (F, w) := cpxPart x.c
  let re (v : Nat) : FVal := F.decode (v % 2 ^ w)
  let im (v : Nat) : FVal := F.decode (v / 2 ^ w % 2 ^ w)
  let part (ps : List (FVal × FVal)) (zp : FVal) : Nat × Flags :=
    let (vs, nv) := products ps
    let l := if mac then zp :: vs else vs
    F.round x.rm x.sat (sumEx x.rm (nv || infClash l) l)
  let (r, f) := part [(re a, re b), ((im a).negate, im b)] (re z)
  let (i, h) := part [(re a, im b), (im a, re b)] (im z)
  (r + i * 2 ^ w, f ||| h)

def vCpxOp (g : Guard) (lat : Nat) (d a b : VReg) (k : KReg) (vx : Option VX) (f : VCtx → Nat → Nat → Nat → Nat × Flags)
    (s : State) : Out :=
  vOp g lat d (fun r =>
    let x := { vCtx r 0 vx with c := cpxCode (vxOf 0 vx).fmt.toNat }
    let w := vWidth x.c
    vMap x.c (r.rdK k) (r.rdV d) (fun e => f x (vElem w (r.rdV a) e) (vElem w (r.rdV b) e) (vElem w (r.rdV d) e))) s

def execVcmul (g : Guard) (d a b : VReg) (k : KReg) (vx : Option VX) (s : State) : Out :=
  vCpxOp g 5 d a b k vx (fun x p q z => cpxMul x false p q z) s
def execVcmac (g : Guard) (d a b : VReg) (k : KReg) (vx : Option VX) (s : State) : Out :=
  vCpxOp g 6 d a b k vx (fun x p q z => cpxMul x true p q z) s
def execVconj (g : Guard) (d a : VReg) (k : KReg) (vx : Option VX) (s : State) : Out :=
  vCpxOp g 2 d a a k vx (fun x p _ _ => (p ^^^ 2 ^ (vWidth x.c - 1), 0)) s

/-! ## Masks (R246) -/

def kOp (g : Guard) (f : Arch → RegWrite) (s : State) : Out := issueF 3 g (fun s => s.result 1 3 0 (f s.arch)) s

def execKand (g : Guard) (kd ka kb : KReg) (s : State) : Out := kOp g (fun r => .k kd (r.rdK ka &&& r.rdK kb)) s
def execKor (g : Guard) (kd ka kb : KReg) (x : SReg) (s : State) : Out :=
  kOp g (fun r => .k kd (r.rdK ka ||| r.rdK kb ||| r.rdS x)) s
def execKxor (g : Guard) (kd ka kb : KReg) (x : SReg) (s : State) : Out :=
  kOp g (fun r => .k kd (r.rdK ka ^^^ r.rdK kb ^^^ r.rdS x)) s
def execKnot (g : Guard) (kd ka : KReg) (s : State) : Out := kOp g (fun r => .k kd (~~~(r.rdK ka))) s
def execKpop (g : Guard) (ka kb : KReg) (x : SReg) (s : State) : Out :=
  kOp g (fun r => .s x (BitVec.ofNat 64 (popCount 64 (r.rdK ka &&& r.rdK kb).toNat))) s

/-! ## Tiles (R247 to R250) -/

/-- The mask register of a tile instruction: VX[10:8]. -/
def tileMask (vx : Option VX) : KReg := (vxOf 0 vx).sub.truncate 3

/-- The causes of a tile instruction at issue: TILE_INVALID, and COUNTER_FULL of a counted form (R250). -/
def tileChk (t : TReg) (c : Ctr) (s : State) : Option Trap :=
  let d := s.arch.rdT t
  firstTrap [trapIf (!d.valid) 40 1 (t.zeroExtend 32), if d.clus then s.ctrFull c else none]

/-- A counted tile access (R250). -/
def State.startTile (s : State) (c : Ctr) (i : Instr) (t : TReg) (x : List Nat) (dat : List Byte) : State :=
  s.startOp c { s.newOp .tile 3 i with x := x, dat := dat, hs := [(t, s.arch.rdT t)], paths := 2 }

/-- Row and byte offset of a window (R248). -/
def windowOf (x : Word) : Nat × Nat := (bitsOf x.toNat 0 8, 4 * bitsOf x.toNat 16 10)

def execVld (g : Guard) (v : VReg) (t : TReg) (x : SReg) (vx : Option VX) (s : State) : Out :=
  issue 3 g (tileChk t .ldo) (fun _ => none) (fun s =>
    let r := s.arch
    let d := r.rdT t
    let (row, off) := windowOf (r.rdS x)
    let k := (r.rdK (tileMask vx)).toNat
    let old := vBytes (r.rdV v)
    if d.clus then s.startTile .ldo (.vld g v t x vx) t [row, off, k] old
    else
      match s.windowBad s.cur d row off k with
      | some f => s.readFault 3 (.vld g v t x vx) f
      | none => s.result 6 3 0 (.v v (vOfBytes (maskLanes k (s.tileWindow s.cur d row off) old)))) s
def execVst (g : Guard) (v : VReg) (t : TReg) (x : SReg) (vx : Option VX) (s : State) : Out :=
  issue 3 g (tileChk t .sto) (fun _ => none) (fun s =>
    let r := s.arch
    let d := r.rdT t
    let (row, off) := windowOf (r.rdS x)
    let k := (r.rdK (tileMask vx)).toNat
    if d.clus then s.startTile .sto (.vst g v t x vx) t [row, off, k] (vBytes (r.rdV v))
    else s.tileStore s.cur true d row off k (vBytes (r.rdV v))) s
def execVldx (g : Guard) (v : VReg) (t : TReg) (x : VReg) (vx : Option VX) (s : State) : Out :=
  issue 3 g (tileChk t .ldo) (fun _ => none) (fun s =>
    let r := s.arch
    let d := r.rdT t
    let k := (r.rdK (tileMask vx)).toNat
    let old := vBytes (r.rdV v)
    if d.clus then s.startTile .ldo (.vldx g v t x vx) t [0, 0, k] (old ++ vBytes (r.rdV x))
    else
      match s.gatherBad s.cur d (vBytes (r.rdV x)) k with
      | some f => s.readFault 3 (.vldx g v t x vx) f
      | none => s.result 6 3 0 (.v v (vOfBytes (maskLanes k (s.tileGather s.cur d (vBytes (r.rdV x))) old)))) s
def execVstx (g : Guard) (v : VReg) (t : TReg) (x : VReg) (vx : Option VX) (s : State) : Out :=
  issue 3 g (tileChk t .sto) (fun _ => none) (fun s =>
    let r := s.arch
    let d := r.rdT t
    let k := (r.rdK (tileMask vx)).toNat
    if d.clus then s.startTile .sto (.vstx g v t x vx) t [0, 0, k] (vBytes (r.rdV v) ++ vBytes (r.rdV x))
    else s.tileScatter s.cur true d (vBytes (r.rdV x)) k (vBytes (r.rdV v))) s

/-- The core, other than `c`, with tentative bytes in the tile of a CLUS handle (R422, R423). -/
def State.tentTile (s : State) (c : Nat) (d : TDesc) : Option Nat :=
  (s.cores.find? (fun e => e.1 != c && e.2.undo.any (fun u => u.clus == some (clusterOfCore c)
    && decide (256 * d.base.toNat ≤ u.addr % 2 ^ 19) && decide (u.addr % 2 ^ 19 < 256 * (d.base.toNat + d.units))))).map (·.1)

/-- A counted access to a CLUS tile is performed, in its order to the tile (R250, R270). Another core's tentative bytes there are committed
first (R423). -/
def State.tileComplete (s : State) (o : Op) : State :=
  if o.faulted || s.tileBlocked o || s.pathBlocked o o.tilePcs then s
  else if s.destAsleep o then s.destNap o
  else
    match s.tentTile o.core o.tile with
    | some w => s.force w
    | none =>
      let s := s.tileRun o
      if o.carried then s.carriedDone (contKey o.mc o.fslot) else s

/-- TILE_ACCESS_COMPLETE (R250, R270). -/
def execTileAccessComplete (id : Nat) (s : State) : Out :=
  .next (match s.opAt id with
    | none => s
    | some o => if o.kind == .tile || o.kind == .readout then s.tileComplete o else s)

end Sys2Proof.Machine
end

