-- ==== Sys2Proof/Machine/Matrix.lean ====
section
/-!
DEFINITION. Slot M, the matrix class (spec/09_matrix_class.md R253 to R274, spec/10_fold.md R275): the issue of passes, of
MMULW and of the accumulator instructions, and the events that end counted ones.
-/
namespace Sys2Proof.Machine
set_option Elab.async false
open Sys2Proof

/-- The latency of a pass of `r` rows (R265). -/
def passLat (w : BitVec 16) (m r : Nat) : Nat := m * (64 + r) + (if wordInt w then 61 else 65)

/-- The format word of a pass (R263). -/
def mxWord (a : Arch) (mx : MX) : BitVec 16 := if mx.fs = 0 then mx.word else a.rdFt ((a.rdLc mx.n).truncate 4)

/-! ## Checks (R264, R268) -/

/-- The waited passes of the continuation on core `c` (R256, R262). -/
def State.waitedOps (s : State) (c : Nat) : List Op :=
  let x := s.coreAt c
  s.ops.filter (fun o => o.kind == .waited && o.mc == x.mc && o.fslot == x.fslot && !o.faulted)

/-- A pass into accumulator `z` is in flight, or a waited pass into it is outstanding (R262). -/
def State.zBusy (s : State) (c z : Nat) : Bool :=
  (s.coreAt c).now.passes.any (fun p => p.z == z) || (s.waitedOps c).any (fun o => o.zdest.1 == z)

/-- VALID and DOMAIN of an accumulator as a deterministic pass issued now will find it (R262). -/
def Arch.zAhead (a : Arch) (z : Nat) : Bool × Bool :=
  match (a.passes.filter (fun p => p.z == z)).getLast? with
  | some p => (match p.img with
      | some (_, f) => (f.valid, f.spectral)
      | none => (true, p.spec))
  | none =>
    match (a.fly.filterMap (fun l => match l.w with | .mzero y v => (if y.toNat = z then some v else none) | _ => none)).getLast? with
    | some v => (true, v)
    | none => ((a.zflag z).valid, (a.zflag z).spectral)

/-- A pass as it is checked: MSPEC, MMULW, its accumulator, its handles, whether it accumulates, its word, and s[b] of kind 1. -/
structure PassReq where
  spec   : Bool
  waited : Bool
  z      : ZReg
  ta     : TReg
  tb     : Option TReg
  sb     : Word
  acc    : Bool
  word   : BitVec 16

/-- ARRAY_BUSY of a deterministic pass (R256). -/
def State.arrayCheck (s : State) : Option Trap :=
  firstTrap [trapIf (decide (s.arch.occ > 0)) 53 1, trapIf (!(s.waitedOps s.cur).isEmpty) 53 2]

/-- The checks on the operands' formats and shape (R254, R257, R267). -/
def PassReq.operands (q : PassReq) (a : Arch) : Option Trap :=
  let A := a.rdT q.ta
  let f := q.word
  firstTrap [
    (match q.tb with | some b => trapIf (!(a.rdT b).clus) 55 1 | none => none),
    trapIf (A.fmt.toNat != wordAF f || (match q.tb with | some b => (a.rdT b).fmt.toNat != wordBF f | none => false)) 55 2,
    (match q.tb with | none => trapIf (bitsOf q.sb.toNat 12 4 != 0 || bitsOf q.sb.toNat 40 24 != 0) 55 3 | some _ => none),
    trapIf (decide (A.rows > 128)) 52 1,
    (match q.tb with | some b => trapIf (decide ((a.rdT b).rows > nMax f)) 52 2 | none => none),
    (match q.tb with | some b => trapIf (depthBad f (a.rdT b).rb) 52 3 | none => none),
    trapIf (A.spectral != q.spec || (match q.tb with | some b => (a.rdT b).spectral != q.spec | none => false)) 51 1]

/-- The checks of R264 in their order; those of MMULW under R268. -/
def PassReq.check (q : PassReq) (s : State) : Option Trap :=
  let a := s.arch
  let (v, d) := a.zAhead q.z.toNat
  firstTrap [
    if q.waited then s.ctrFull .tlo else none,
    a.tileInvalid (q.ta :: q.tb.toList),
    trapIf (!q.waited && s.penModeOf s.cur == .fold) 54 1,
    trapIf (s.divisor s.cur).isNone 54 2,
    if q.waited then none else s.arrayCheck,
    trapIf (!wordOk q.spec q.word) 48 0,
    q.operands a,
    trapIf (!q.waited && q.acc && !v) 50 0,
    trapIf (!q.waited && q.acc && d != q.spec) 51 2]

/-- Issue of a matrix syllable with a destination accumulator: BAD_FORMAT also marks it invalid (R51, R100). -/
def issueZ (z : ZReg) (g : Guard) (chk : State → Option Trap) (hold : State → Option State) (eff : State → State) (s : State) : Out :=
  if s.arch.guardOn 4 g && !s.checked && ((chk s).map (·.cause)) == some 48 then
    .next ((s.onArch (fun a => a.setZflag z.toNat { a.zflag z.toNat with valid := false })).takeTrap s.cur 4 { cause := 48, reason := 0 })
  else issue 4 g chk hold eff s

/-! ## MMUL, MSPEC (R258, R264, R265) -/

/-- What earlier accesses have still to do to the rows of a tile, before work with number `id` reads them (R358, R423). -/
def State.settleTile (s : State) (c id : Nat) (d : TDesc) : State :=
  (List.range d.rows).foldl (fun s r => s.settleClus c id d r 0 d.rb) s

/-- The whole stationary is read in the issue cycle (R258). -/
def State.readStationary (s : State) (c id : Nat) (d : TDesc) : State × SMap Byte :=
  let s := s.settleTile c id d
  (s, s.tileTable c d)

def State.startPass (s : State) (i : Instr) (q : PassReq) (tb : TReg) : State :=
  let c := s.cur
  let a := s.arch
  let A := a.rdT q.ta
  let B := a.rdT tb
  let m := (s.divisor c).getD 1
  let id := s.nextOp
  -- a handle whose entry does not name the binding, or an uncorrectable word of the stationary, is a late fault (R219, R428)
  let bad : Option Trap :=
    if !s.clusOk c s.core.mc s.core.bind A then some { cause := 40, reason := 2, data := q.ta.zeroExtend 32 }
    else if !s.clusOk c s.core.mc s.core.bind B then some { cause := 40, reason := 2, data := tb.zeroExtend 32 }
    else s.allBad c B
  let (s, stat) := s.readStationary c id B
  let p : Pass := {
    id := id, instr := i, addr := a.pc, hs := [q.ta, tb], z := q.z.toNat, lat := passLat q.word m A.rows, m := m,
    rows := A.rows, cols := B.rows, depth := kOf (wordBF q.word) (wordBSC q.word) B.rb, word := q.word, acc := q.acc,
    spec := q.spec, stat := stat, mov := A }
  let s := { s with nextOp := id + 1 }
  match bad with
  | some t =>
    (s.onArch (fun a => { a with occ := max a.occ (passOcc m A.rows) })).lateWork c id id 4 t
      (s.recReissue s.core.mc 4 true 0 (fixWord q.word i) a.pc 0 [] 0)
  | none => s.onArch (fun a => { a with passes := a.passes ++ [p], occ := max a.occ (passOcc m A.rows) })

/-- A guarded-off MMUL or MSPEC occupies its share (R256). -/
def State.offPass (s : State) (ta : TReg) : State :=
  match s.penModeOf s.cur, s.divisor s.cur with
  | .fold, _ => s
  | _, some m => s.onArch (fun a => { a with occ := max a.occ (passOcc m (a.rdT ta).rows) })
  | _, none => s

def passIssue (g : Guard) (i : Instr) (spec : Bool) (z : ZReg) (ta tb : TReg) (acc : BitVec 1) (mx : MX) (s : State) : Out :=
  if !s.arch.guardOn 4 g then .next { s.offPass ta with verdict := .issued }
  else
    let q (s : State) : PassReq := ⟨spec, false, z, ta, some tb, 0, acc == 1, mxWord s.arch mx⟩
    issueZ z g (fun s => (q s).check s) (fun _ => none) (fun s => s.startPass i (q s) tb) s

def execMmul (g : Guard) (z : ZReg) (ta tb : TReg) (acc : BitVec 1) (mx : MX) (s : State) : Out :=
  passIssue g (.mmul g z ta tb acc mx) false z ta tb acc mx s
def execMspec (g : Guard) (z : ZReg) (ta tb : TReg) (acc : BitVec 1) (mx : MX) (s : State) : Out :=
  passIssue g (.mspec g z ta tb acc mx) true z ta tb acc mx s

/-! ## MMULW (R267, R268, R275) -/

/-- The handles of an MMULW are settled before their bytes at the issue are kept (R258, R358). -/
def State.settleWaited (s : State) (ta : TReg) (tb : Option TReg) : State :=
  (ta :: tb.toList).foldl (fun s t => s.settleTile s.cur s.nextOp (s.arch.rdT t)) s

/-- The operation of an MMULW with word `w`, s[b], HOLD and FOLDSCOPE. -/
def State.waitedOp (s : State) (i : Instr) (ta : TReg) (tb : Option TReg) (w : BitVec 16) (sb hold : Nat) (glob : Bool) : Op :=
  let a := s.arch
  let fold := s.penModeOf s.cur == .fold
  { s.newOp .waited 4 i with
    x := [w.toNat, sb, hold, boolNat glob], paths := if tb.isNone then 0xA else 2,
    hs := (ta, a.rdT ta) :: (match tb with | some b => [(b, a.rdT b)] | none => []),
    waited := some { phase := if fold then .coming else .share, issued := (s.clusterAt (clusterOfCore s.cur)).cyc,
                     hold := hold, global := glob, oldA := s.tileTable s.cur (a.rdT ta),
                     oldB := (tb.map (fun b => s.tileTable s.cur (a.rdT b))).getD [] } }

def mmulwIssue (g : Guard) (i : Instr) (z : ZReg) (ta : TReg) (tb : Option TReg) (sb : Arch → Word) (acc : BitVec 1) (mx : MX)
    (s : State) : Out :=
  let q (s : State) : PassReq := ⟨false, true, z, ta, tb, sb s.arch, acc == 1, mxWord s.arch mx⟩
  issueZ z g (fun s => (q s).check s)
    (fun s => if s.penModeOf s.cur == .fold then s.foldStall s.cur else none)
    (fun s =>
      let s := s.settleWaited ta tb
      s.startOp .tlo (s.waitedOp i ta tb (mxWord s.arch mx) (sb s.arch).toNat s.arch.hold.toNat s.arch.scopeGlobal)) s

def execMmulw (g : Guard) (z : ZReg) (ta tb : TReg) (acc : BitVec 1) (mx : MX) (s : State) : Out :=
  mmulwIssue g (.mmulw g z ta tb acc mx) z ta (some tb) (fun _ => 0) acc mx s
def execMmulwT (g : Guard) (z : ZReg) (ta : TReg) (b : SReg) (acc : BitVec 1) (mx : MX) (s : State) : Out :=
  mmulwIssue g (.mmulwT g z ta b acc mx) z ta none (fun r => r.rdS b) acc mx s

/-- WAITED_PASS_COMPLETE (R256, R268): a waited pass of a share begins, or, when its occupancy has passed, completes; it runs behind the passes
issued there before it (DEDUCED, log 69). -/
def execWaitedPassComplete (id : Nat) (s : State) : Out :=
  .next (match s.opAt id with
    | none => s
    | some o =>
      match o.waited with
      | some w =>
        if w.phase != .share || o.faulted || o.asleep || !s.onItsCore o
            || (s.ops.any (fun p => p.kind == .waited && p.core == o.core && decide (p.id < o.id))) then s
        else s.waitedRun o
      | none => s)

/-! ## Accumulators (R269) -/

def execMzero (g : Guard) (z : ZReg) (dom : BitVec 1) (s : State) : Out :=
  issue 4 g (fun s => trapIf (s.zBusy s.cur z.toNat) 53 3) (fun _ => none) (fun s => s.result 2 4 0 (.mzero z (dom == 1))) s

/-- The row of an accumulator that MRDV copies. -/
def Arch.zRow (a : Arch) (z row q : Nat) : VWord :=
  vOfBytes ((List.range 64).flatMap (fun i => toBytes 4 (a.zElem z row (64 * q + i))))

def execMrdv (g : Guard) (z : ZReg) (v : VReg) (y : SReg) (s : State) : Out :=
  issue 4 g (fun s => trapIf (!(s.arch.zflag z.toNat).valid) 50 0) (fun _ => none)
    (fun s =>
      let i := (s.arch.rdS y).toNat
      match accTrap (badUnit s.arch.badAcc (accAddr z.toNat (bitsOf i 0 7) (64 * bitsOf i 8 2)) 256) with
      | some t => s.readFault 4 (.mrdv g z v y) t
      | none => s.result 4 4 0 (.v v (s.arch.zRow z.toNat (bitsOf i 0 7) (bitsOf i 8 2)))) s

def execMfmt (g : Guard) (i : BitVec 4) (y : SReg) (w : Option (BitVec 16)) (s : State) : Out :=
  issueF 4 g (fun s => s.result 1 4 0 (.ft i (w.getD ((s.arch.rdS y).truncate 16)))) s

/-- BUSY of MSTAT (R269). While a waited pass of the share is outstanding, which refuses a deterministic pass (R256), the spec bounds the
cycles to its completion and no more: a free value that is not 0 (DESIGN CHOICE, log 69). -/
def State.shareBusy (s : State) (n : Nat) : Nat :=
  if (s.waitedOps s.cur).any (fun o => o.waited.any (fun w => w.phase == .share)) then max 1 (max (min s.arch.occ 4095) (Config.freeBits n % 4096))
  else min s.arch.occ 4095

/-- MSTAT result. -/
def State.mstat (s : State) (n : Nat) : Nat :=
  let a := s.arch
  let bits (f : Nat → Bool) : Nat := (List.range 4).foldl (fun t z => t + boolNat (f z) * 2 ^ z) 0
  let ws := s.waitedOps s.cur
  bits (fun z => (a.zflag z).valid) + 16 * bits (fun z => (a.zflag z).spectral) + 256 * bits (fun z => (a.zflag z).sat)
    + 4096 * bits (fun z => ws.any (fun o => o.zdest.1 == z)) + 65536 * s.shareBusy n
    + 2 ^ 28 * ((s.foldEntries (penOfCore s.cur)).filter (fun o => o.core == s.cur)).length

def execMstat (g : Guard) (d : SReg) (s : State) : Out :=
  issueF 4 g (fun s =>
    let (n, s) := s.fresh
    s.result 1 4 0 (.s d (BitVec.ofNat 64 (s.mstat n)))) s

/-! ## MRD (R270) -/

/-- Rm and Em × u: the rows and the bytes of each row that an MRD writes. -/
def mrdShape (d : TDesc) (spec : Bool) (row0 col0 : Nat) : Nat × Nat :=
  let u := unitBytes d.fmt.toNat
  (min d.rows (128 - row0), min (d.rb / u) ((if spec then 128 else 256) - col0) * u)

/-- The adapter tile of an MRD with EPI. -/
def mrdEpi (x : Option MrdX) : Option TReg :=
  match x with
  | some e => if e.epi = 1 then some e.e else none
  | none => none

def mrdCheck (z : ZReg) (t : TReg) (x : Option MrdX) (s : State) : Option Trap :=
  let a := s.arch
  let d := a.rdT t
  let f := d.fmt.toNat
  let spec := (a.zflag z.toNat).spectral
  firstTrap [
    trapIf (!d.valid) 40 1 (t.zeroExtend 32),
    if d.clus then s.ctrFull .tlo else trapIf (decide (a.mport > 0)) 53 4,
    trapIf (f == 9 || decide (f > 11) || (match mrdEpi x with
      | some e => !(a.rdT e).valid || (a.rdT e).fmt != 0
      | none => false)) 55 4,
    trapIf (!(a.zflag z.toNat).valid) 50 0,
    trapIf (if spec then (f != 10 && f != 11) || (match x with
        | some e => e.epi == 1 || e.relu == 1 || e.int == 1
        | none => false)
      else f == 10 || f == 11) 51 3]

/-- What withholds the result of an MRD: an adapter handle whose entry does not name the binding (R219), or an uncorrectable word of the
elements or of the adapter (R428). -/
def State.mrdBad (s : State) (z : ZReg) (t : TReg) (row0 col0 : Nat) (shape : Nat × Nat) (epi : Option TReg) : Option Trap :=
  let a := s.arch
  let u := unitBytes (a.rdT t).fmt.toNat
  let cols := shape.2 / max u 1
  let w := if (a.zflag z.toNat).spectral then 2 else 1
  firstTrap [
    epi.bind (fun e => if s.clusOk s.cur s.core.mc s.core.bind (a.rdT e) then none
      else some { cause := 40, reason := 2, data := e.zeroExtend 32 }),
    epi.bind (fun e => (s.tileBad s.cur (a.rdT e) 0 (4 * col0) (4 * cols)).or (s.tileBad s.cur (a.rdT e) 1 (4 * col0) (4 * cols))),
    accTrap ((List.range shape.1).findSome? (fun r => badUnit a.badAcc (accAddr z.toNat (row0 + r) (w * col0)) (4 * w * cols)))]

/-- The cycles for which an MRD to PRIV holds the M port (R270). -/
def mrdLat (shape : Nat × Nat) : Nat := 4 + shape.1 * ceilDiv shape.2 256

/-- A guarded-off MRD to PRIV holds the M port as it would (R35, R270; DESIGN CHOICE, log 38). -/
def State.offMrd (s : State) (z : ZReg) (t : TReg) (y : Word) : State :=
  let a := s.arch
  let d := a.rdT t
  if d.clus then s
  else s.onArch (fun r => { r with
    mport := max r.mport (mrdLat (mrdShape d (a.zflag z.toNat).spectral (bitsOf y.toNat 0 7) (bitsOf y.toNat 8 8))) })

/-- The effect of MRD: the accumulator is read now; SAT of the source is set now (DEDUCED, log 29). -/
def State.startMrd (s : State) (i : Instr) (z : ZReg) (t : TReg) (y : Word) (x : Option MrdX) : State :=
  let a := s.arch
  let d := a.rdT t
  let spec := (a.zflag z.toNat).spectral
  let row0 := bitsOf y.toNat 0 7
  let col0 := bitsOf y.toNat 8 8
  let (rm, rbytes) := mrdShape d spec row0 col0
  let epi := mrdEpi x
  let s := match epi with
    | some e => (s.settleClus s.cur s.nextOp (a.rdT e) 0 0 4096).settleClus s.cur s.nextOp (a.rdT e) 1 0 4096
    | none => s
  match s.mrdBad z t row0 col0 (rm, rbytes) epi with
  | some f =>
    if d.clus then
      let o : Op := { s.newOp .readout 4 i with hs := (t, d) :: (match epi with | some e => [(e, a.rdT e)] | none => []), paths := 2 }
      (s.startOp .tlo o).lateOp o f
    else s.readFault 4 i f
  | none =>
  let (rows, sat) := s.mrdImage s.cur z.toNat d (epi.map a.rdT) x row0 col0
  let s := if sat then s.onArch (fun a => a.setZflag z.toNat { a.zflag z.toNat with sat := true }) else s
  if d.clus then
    s.startOp .tlo { s.newOp .readout 4 i with
      hs := (t, d) :: (match epi with | some e => [(e, a.rdT e)] | none => []), st := [rm, rbytes, boolNat spec],
      dat := rows.flatten, paths := 2 }
  else
    let lat := mrdLat (rm, rbytes)
    let data := rows.zipIdx.foldl (fun m r => putRow m r.2 r.1) []
    { s.onArch (fun a => { a with
        reads := a.reads ++ [{ id := s.nextOp, remain := lat, t := t, dst := d, spectral := spec, rows := rm, rbytes := rbytes, data := data,
                               epi := epi, instr := some i, seq := a.seq }],
        seq := a.seq + 1, mport := lat }) with nextOp := s.nextOp + 1 }

def execMrd (g : Guard) (z : ZReg) (t : TReg) (y : SReg) (mx : Option MrdX) (s : State) : Out :=
  if !s.arch.guardOn 4 g then .next { s.offMrd z t (s.arch.rdS y) with verdict := .issued }
  else issue 4 g (mrdCheck z t mx) (fun _ => none) (fun s => s.startMrd (.mrd g z t y mx) z t (s.arch.rdS y) mx) s

/-! ## Landings at the end of a cycle (R59, R261, R270) -/

/-- RESULT_LAND: the results that are due land, once the cycle of the core is ending. -/
def execResultLand (c : Nat) (s : State) : Out := .next (if s.ending = some c then s.onArchAt c Arch.land else s)
def execPassLanding (c : Nat) (s : State) : Out := .next (if s.ending = some c then s.passLands c else s)
/-- MRD_LANDING: to PRIV at the end of a cycle; to CLUS at the completion of the operation. -/
def execMrdLanding (c op : Nat) (s : State) : Out :=
  .next (match s.opAt op with
    | some o => if o.kind == .readout then s.tileComplete o else s
    | none => if s.ending = some c then s.readLands c else s)

/-! ## The Fold's events (R277, R281 to R290) -/

/-- FOLD_ARRIVAL of an operation with a tensor stationary; those with a handle arrive in their cycle. -/
def execFoldArrival (id : Nat) (s : State) : Out :=
  .next (match s.opAt id with
    | some o => if o.kind == .waited then s.foldTranslate o (s.clusterAt (clusterOfCore o.core)).cyc else s
    | none => s)

/-- The pen whose array holds group `g`. -/
def State.penOfGroup (s : State) (g : Nat) : Option Nat := (s.pens.find? (fun e => e.2.groups.any (·.id == g))).map (·.1)

def execPinGrant (pen group : Nat) (s : State) : Out := .next (s.foldPin pen group)
/-- FOLD_DEADLINE: a group becomes due when a member's deadline has come (R281). -/
def execFoldDeadline (group : Nat) (s : State) : Out :=
  .next (match s.penOfGroup group with
    | some p => s.foldDue p (s.clusterAt (p / 4)).cyc
    | none => s)
def execFoldGroupStart (pen : Nat) (s : State) : Out := .next (s.foldStart pen (s.clusterAt (pen / 4)).cyc)
/-- FOLD_SPLIT, at the end of the cycle in which the group lands (R284, R286). -/
def execFoldSplit (group : Nat) (s : State) : Out :=
  .next (match s.penOfGroup group with
    | some p =>
      (match (s.penAt p).groups.find? (·.id == group) with
       | some g => if g.landAt = some (s.clusterAt (p / 4)).cyc && s.endingCl == some (p / 4) then s.foldSplit p g else s
       | none => s)
    | none => s)

end Sys2Proof.Machine
end

