-- ==== Sys2Proof/Machine/Suspend.lean ====
section
/-!
DEFINITION. The completion of SUSP and RETIRE (spec/05_control_class.md R155, R158), the turn of a YIELD (R157), and the
effects that a continuation's releases carry (R361): RELEASE_APPLY is in Machine/Release.lean.
-/
namespace Sys2Proof.Machine
set_option Elab.async false
open Sys2Proof

/-- The continuation of core `c`. -/
def State.keyOf (s : State) (c : Nat) : Nat := contKey (s.coreAt c).mc (s.coreAt c).fslot

/-- Every fixed-latency result of the core has landed, and its pending fences are satisfied (R155, R158). -/
def Arch.quiet (a : Arch) : Bool :=
  a.fly.isEmpty && a.passes.isEmpty && a.reads.isEmpty && a.xs.isEmpty && a.pw.isEmpty

/-- The state of a continuation whose frame its SUSP has written (R155). -/
def State.suspState (s : State) (k wkind wid : Nat) (wtarget : Word32) : State :=
  let mc := k / 4096
  if wkind = 0 then s.makeRunnable k
  else if wkind = 3 then s.barArriveWaiting k
  else
    let f := s.fenceAt wid
    if f.holds wtarget then ((s.onCont k (fun x => { x with werr := f.err })).raisePts k f.fts).makeRunnable k
    else
      let s := s.setContState k .waiting
      match (if wkind = 2 then s.lendTo mc wid else none) with
      | some sg => (s.beginLoan mc sg).onCont k (fun x => { x with lent := some sg })
      | none => s

/-- The descriptor of the SUSP that core `c` completes: the one that was read at its issue, or, after a resume, as it is read now
(R155, R481). -/
def State.suspNow (s : State) (c : Nat) (desc : Word32) (d : Option SuspDesc) : DescRead × State :=
  match d with
  | some d => (.ok d, s)
  | none =>
    if (s.coreAt c).now.descAsleep then (.wait (s.coreAt c).now.stall, s)
    else s.suspRead c ((s.mcAt (s.coreAt c).mc).codebase + desc.zeroExtend 72).toNat

/-- The frame of a SUSP is written, the core is released and the state is set (R155). -/
def State.suspDone (s : State) (c : Nat) (d : SuspDesc) (wkind wid : Nat) (wtarget : Word32) : State :=
  let k := s.keyOf c
  let s := s.shepUp.suspFrame c d.resume d.amask d.smask d.vmask wkind wid wtarget.toNat
  let s := s.onCont k (fun y => { y with
    frozen := false, statp := some d.statp, wkind := wkind, wid := wid, wtarget := wtarget, werr := false,
    recIds := [], more := [], ops := [], skip := false, handlerInfo := 0 })
  (s.shepUp.releaseCore c).suspState k wkind wid wtarget

/-- SUSP_FRAME_WRITE (R155): when the delay cycle has passed, the results have landed and the fences are satisfied, the SUSP
completes. A fault of a descriptor that a resume reads again is the SUSP's. -/
def execSuspFrameWrite (c : Nat) (s : State) : Out :=
  let x := s.coreAt c
  .next (match x.now.xfer with
    | some ⟨.susp desc wkind wid wtarget d, _, true, _⟩ =>
      if !x.running || !x.now.quiet || !x.now.fences.isEmpty then s
      else if s.frameAsleep x.mc x.fslot then s.frameNap x.mc x.fslot
      else
        match s.suspNow c desc d with
        | (.wait st, s) => s.onArchAt c (fun a => { a with stall := st })
        | (.fault t, s) => s.takeTrap c 0 t
        | (.bad, s) => s.takeTrap c 0 { cause := 97, reason := 2 }
        | (.ok d, s) => s.suspDone c d wkind wid wtarget
    | _ => s)

/-- The end of a continuation (R129, R158): its slot is free. -/
def State.contFree (s : State) (k : Nat) : State :=
  let s := s.setContState k .free
  let c := s.contAt k
  let s := s.onBind c.bind (fun b => { b with wts := max b.wts c.wts })
  (s.setCont k {}).onMc (k / 4096) (fun m => { m with conts := m.conts - 1 })

/-- RETIRE_COMPLETE (R158): the handles are freed as TFREE frees them, the core and the frame slot are released. It waits for
the continuation's releases, which name its slot (DEDUCED, log 30). -/
def execRetireComplete (c : Nat) (s : State) : Out :=
  let x := s.coreAt c
  .next (match x.now.xfer with
    | some ⟨.retire, _, true, _⟩ =>
      if !x.running || !x.now.quiet || !(s.opsOf x.mc x.fslot).isEmpty then s
      else
        let k := s.keyOf c
        let s := x.now.handles.foldl (fun s e => s.tfree c (BitVec.ofNat 8 e.1)) s
        ((s.releaseCore c).contFree k).reapClus (clusterOfCore c)
    | _ => s)

/-- Another RUNNABLE continuation of the binding and stage of core `c` (R157). -/
def State.otherRunnable (s : State) (c : Nat) : Bool :=
  let x := s.coreAt c
  s.conts.any (fun e => e.2.state == .runnable && e.2.bind == x.bind && e.2.stage == x.stage && e.1 / 4096 == x.mc)

/-- A YIELD is over; the cycles of its bundle or of its delay bundle that are left take no step of a loop (R151). -/
def Arch.yielded (a : Arch) : Arch := { a with xfer := none, noStep := decide (0 < a.sk) }

/-- The freeze of a YIELD that suspends (R157). -/
def State.yieldFreeze (s : State) (c : Nat) : State :=
  ((s.onArchAt c Arch.yielded).freezeCore c).runnableWhenDone (s.keyOf c)

/-- The end of the delay cycle of a YIELD (R157): at the boundary after it the continuation freezes when another one can run, unless a
late fault is taken there (R408) (DEDUCED, log 84). A frame that migrates is waited for, and with members in the Fold the cycle after the
boundary, in which a group that starts fires (R291; `coreCycleGo`). -/
def State.yieldEnd (s : State) (c : Nat) : State :=
  let x := s.coreAt c
  match x.now.xfer with
  | some ⟨.yield, _, true, _⟩ =>
    if x.stop.isSome then s
    else if !x.running || !x.late.isEmpty || !s.otherRunnable c then s.onArchAt c Arch.yielded
    else if s.frameAsleep x.mc x.fslot then s.frameNap x.mc x.fslot
    else if s.foldPending c then s
    else s.yieldFreeze c
  | _ => s

/-- CHECKPOINT_INTERVAL (R421, R422): CKPTI cycles have passed, a commit point has issued, or the undo log of PRIV is full. A check failure
is pending in no state: the event that reports it rolls back (DEDUCED, log 107). -/
def State.checkpointDue (s : State) (c : Nat) : Bool :=
  let x := s.coreAt c
  x.running && (x.commit || x.now.ckpti.toNat ≤ x.sinceCk || x.undoPriv.length > 1024)
def execCheckpointInterval (c : Nat) (s : State) : Out := .next (if s.checkpointDue c then s.checkpoint c else s)
/-- FORCED_CHECKPOINT (R423): a tentative line of the core is awaited, or the undo store that a slice has for the core is full, at a size
that the spec leaves open (DESIGN CHOICE, log 148). -/
def execForcedCheckpoint (c : Nat) (s : State) : Out :=
  let x := s.coreAt c
  .next (if x.running && (x.forced || !x.undo.isEmpty) then s.checkpoint c else s)

/-- PTS_TICK (R356): PTS rises by 1 at the end of every 16th RUNNING cycle. -/
def State.ptsTick (s : State) (c : Nat) : State :=
  s.onCont (s.keyOf c) (fun x => if x.tick = 15 then { x with tick := 0, pts := x.pts + 1 } else { x with tick := x.tick + 1 })
def execPtsTick (c : Nat) (s : State) : Out := .next (if s.ending = some c then s.ptsTick c else s)

/-- LATE_FAULT (R417): at a bundle boundary the first of the late faults of a core is taken. -/
def execLateFault (c : Nat) (s : State) : Out :=
  let x := s.coreAt c
  .next (match firstLate x.late with
    | some l => if x.running then s.takeTrapOf c l.slot l.trap (some l) else s
    | none => s)

/-- A header with PM = 0 (R30): its cycle and SK further cycles hold no syllable. -/
def execEmptyBundle (sk : BitVec 4) (s : State) : Out :=
  .next { s.setCore { s.core with bsk := sk.toNat } with verdict := .issued }

/-- CARRIED_ACCESS_COMPLETE (R410). -/
def execCarriedAccessComplete (id : Nat) (s : State) : Out :=
  match s.opAt id with
  | some o =>
    if !o.carried then .next s
    else if o.kind == .scalar then
      match execScalarAccessComplete id s with
      | .next s' => .next (s'.carriedDone (contKey o.mc o.fslot))
      | r => r
    else .next s
  | none => .next s

/-! ## A freeze that has been decided (R408) -/

/-- A SUSP or RETIRE with a true guard has issued: it completes before a freeze that is no trap. -/
def Arch.finishing (a : Arch) : Bool :=
  match a.xfer with
  | some ⟨.susp .., _, _, _⟩ => true
  | some ⟨.retire, _, _, _⟩ => true
  | _ => false

/-- A GBAR that its barrier has released is to complete before a freeze (R169). -/
def Arch.gbarReleased (a : Arch) : Bool :=
  match a.stall with
  | .gbar _ _ r _ => r
  | _ => false

/-- A core that a freeze is decided for keeps it waiting: it stands within a cycle of its cluster, or a GBAR of it is released and
completes (R169). -/
def State.freezeWaits (s : State) (c : Nat) : Bool :=
  let x := s.coreAt c
  x.cyc != (s.clusterAt (clusterOfCore c)).cyc || x.now.gbarReleased
/-- The frame of the continuation on core `c` migrates (R203, R205). -/
def State.frameOff (s : State) (c : Nat) : Bool := s.frameAsleep (s.coreAt c).mc (s.coreAt c).fslot

/-- The freeze of one core. -/
def State.freezeOne (s : State) (c : Nat) : State :=
  (s.freezeCore c).onCont (s.keyOf c) (fun y => { y with settling := true, preempted := true })

/-- The freeze of one core at the boundary at which it stands; with members in the Fold at the end of the cycle after it, in which a group
that starts fires (R291). -/
def State.freezeDecided (s : State) (c : Nat) : State := if s.foldPending c then s.stopAt c .freeze else s.freezeOne c

/-- A stop that is due when cycle `t` ends (R291): a trap, a YIELD, a freeze. It waits for a frame that migrates (R205). -/
def State.stopNow (s : State) (c t : Nat) : State :=
  let x := s.coreAt c
  match x.stop with
  | none => s
  | some (f, st) =>
    if t < f then s
    else if s.frameOff c then s.frameNap x.mc x.fslot
    else
      let s := s.onCoreAt c (fun y => { y with stop := none })
      match st with
      | .trap slot t late => s.trapNow c slot t late
      | .yield => s.yieldFreeze c
      | .freeze => s.freezeOne c

/-- The freeze of a pre-emption or of a write of HALTED: every core of the binding of core `c` freezes at one bundle boundary, in one
cycle (R141, R408; DEDUCED, log 56). A late fault at the same boundary is taken first, as a trap, and a SUSP or RETIRE that has issued
completes. -/
def State.serveFreeze (s : State) (c : Nat) : State :=
  let x := s.coreAt c
  let cs := ((s.cores.filter (fun e => e.2.running && e.2.mc == x.mc && e.2.bind == x.bind && e.2.freeze != .none
    && !e.2.now.finishing && e.2.late.isEmpty && e.2.stop.isNone)).map (·.1))
  if !x.running || x.freeze == .none || cs.any s.freezeWaits then s
  else if cs.any s.frameOff then (cs.filter s.frameOff).foldl (fun s d => s.frameNap (s.coreAt d).mc (s.coreAt d).fslot) s
  else cs.foldl (fun s d => s.freezeDecided d) s

/-- FREEZE (R408). -/
def execFreeze (c : Nat) (s : State) : Out := .next (s.serveFreeze c)

/-- The group of a binding whose pre-emption has frozen all its cores is free (R133, R141): the Fold groups that its pens host move
(R292), and the state of its micro-context is decided (R123). -/
def State.groupFree (s : State) (b : Nat) : State :=
  let x := s.bindAt b
  if !x.live || !x.pre || s.cores.any (fun e => e.2.running && e.2.bind == b) then s
  else
    let s := (x.pens.flatMap id).foldl (fun s p => s.foldRehost p) s
    let s := s.onBind b (fun y => { y with held := false, pre := false, pens := [] })
    (s.selectAt (s.frozenWork b)).decideMc x.mc false

/-- The frozen continuations of core `c` whose frames are written and whose carried accesses are done become RUNNABLE, or are
trapped by a late fault of those accesses (R410, R411, R417); the groups of bindings that are frozen are free. -/
def State.freezeEnd (s : State) (c : Nat) : State :=
  let s := (s.conts.filter (fun e => e.2.settling && e.2.home == c)).foldl (fun s e => s.carriedDone e.1) s
  (s.binds.filter (fun e => e.2.pre && e.2.clusters.contains (clusterOfCore c))).foldl (fun s e => s.groupFree e.1) s

/-- FREEZE_COMPLETE (R411). -/
def execFreezeComplete (c : Nat) (s : State) : Out := .next (s.freezeEnd c)

end Sys2Proof.Machine
end

