-- ==== Sys2Proof/Machine/Transform.lean ====
section
/-!
DEFINITION. Slot X, the transform class (spec/11_transform_class.md R294 to R317): issue checks and streams.
-/
namespace Sys2Proof.Machine
set_option Elab.async false
open Sys2Proof

/-! ## Streams (R295, R297) -/

/-- First rows, row count and AUX: those of the extension, or the defaults with `n` rows. -/
def xeRows (xe : Option XE) (n : Nat) : Nat × Nat × Nat × Nat :=
  match xe with
  | some e => (e.srow.toNat, e.drow.toNat, e.nm1.toNat + 1, e.aux.toNat)
  | none => (0, 0, n, 0)

/-- ST of a step that reads `sb` and writes `db` bytes. -/
def stepTime (sb ws db wd : Nat) : Nat := max 1 (max (ceilDiv sb ws) (ceilDiv db wd))

/-- A stream between two tiles, before its parameters. -/
def xBase (a : Arch) (d t : TReg) (xe : Option XE) (n : Nat) : XStream :=
  let (sr, dr, nr, aux) := xeRows xe n
  { id := 0, hs := [d, t], instr := .xmov ⟨0, 0⟩ d t xe, addr := 0, op := .move, src := a.rdT t, dst := a.rdT d, dreg := d,
    srow := sr, drow := dr, nrow := nr, aux := aux, steps := nr, st := 1, d := 3 }

/-- Rows that a stream takes without XE. -/
def minRows (a : Arch) (d t : TReg) : Nat := min (a.rdT t).rows (a.rdT d).rows
/-- ZB64 group size (R307). -/
def zbSize (u aux : Nat) : Nat := if aux = 0 then 8 + 64 * u else 8 * aux
/-- Groups of a row of `rb` bytes. -/
def zbGroups (rb u : Nat) : Nat := ceilDiv (ceilDiv rb u) 64
/-- Block size of XDFT and XIDFT. -/
def blockOf (bc : BitVec 3) : Nat := 8 * 2 ^ bc.toNat

/-- The stream of an X syllable over the handles as they stand; `sx` is s[x] of XFILL. -/
def xStreamOf (a : Arch) (sx : Word) (i : Instr) : Option XStream :=
  match i with
  | .xmov _ d t xe =>
    let x := xBase a d t xe (minRows a d t)
    some { x with st := stepTime x.src.rb x.src.beat x.dst.rb x.dst.beat }
  | .xcvt _ d t sat xe =>
    let x := xBase a d t xe (minRows a d t)
    some { x with op := .cvt (sat == 1), d := 5, st := stepTime x.src.rb x.src.beat x.dst.rb x.dst.beat }
  | .xfill _ d _ xe =>
    let x := xBase a d d xe (a.rdT d).rows
    some { x with op := .fill, hs := [d], sx := sx, st := stepTime 0 1 x.dst.rb x.dst.beat }
  | .xcmp _ d t uc xe =>
    let x := xBase a d t xe (minRows a d t)
    let u := 2 ^ uc.toNat
    let G := zbSize u x.aux
    let g := zbGroups x.src.rb u
    some { x with op := .cmp u G g, steps := x.nrow * g, d := 6, st := stepTime (64 * u) x.src.beat G x.dst.beat }
  | .xexp _ d t uc xe =>
    let x := xBase a d t xe (minRows a d t)
    let u := 2 ^ uc.toNat
    let G := zbSize u x.aux
    let g := zbGroups x.dst.rb u
    some { x with op := .exp u G g, steps := x.nrow * g, d := 6, st := stepTime G x.src.beat (64 * u) x.dst.beat }
  | .xtrn _ d t uc xe =>
    let x := xBase a d t xe (min (a.rdT t).rows 64)
    let u := 2 ^ uc.toNat
    let m := min 64 (x.src.rb / u - x.aux)
    some { x with op := .trn u m, steps := 1, d := 6,
                  st := if m = 0 then 0 else x.nrow * ceilDiv (m * u) x.src.beat + m * ceilDiv (x.nrow * u) x.dst.beat }
  | .xdft _ d t bc xe =>
    let x := xBase a d t xe (minRows a d t)
    some { x with op := .dft (blockOf bc), d := 14 + 2 * bc.toNat, st := stepTime x.src.rb x.src.beat x.dst.rb x.dst.beat }
  | .xidft _ d t bc xe =>
    let x := xBase a d t xe (minRows a d t)
    some { x with op := .idft (blockOf bc), d := 14 + 2 * bc.toNat, st := stepTime x.src.rb x.src.beat x.dst.rb x.dst.beat }
  | .xidftAcc _ d z bc xe =>
    let x := xBase a d d xe (min 128 (a.rdT d).rows)
    some { x with op := .idft (blockOf bc), hs := [d], src := {}, zsrc := some z.toNat, d := 14 + 2 * bc.toNat,
                  st := stepTime 1024 1024 x.dst.rb x.dst.beat }
  | _ => none

/-- A stream as it enters the unit: XTRN of an empty window has no read cycle and ends after 6 cycles (R306). -/
def XStream.enter (x : XStream) : XStream := if x.st = 0 then { x with pend := [⟨6, 0, [], none, true⟩] } else x

/-! ## Issue (R298, R317) -/

/-- An earlier stream still has a read cycle to come (R298). -/
def Arch.xBusy (a : Arch) : Bool := a.xs.any (fun x => decide (x.age < x.reads))

/-- TILE_INVALID reason 1 for handles, then XFORM_BUSY. -/
def xHandles (ts : List TReg) (s : State) : Option Trap :=
  firstTrap [s.arch.tileInvalid ts, trapIf s.arch.xBusy 56 1]

/-- Starts a stream; a CLUS handle that is not the binding's is a late fault (R219). -/
def State.startX (s : State) (x : XStream) (i : Instr) : State :=
  let c := s.core
  let y := { x with id := s.nextOp, seq := c.now.seq, instr := i, addr := c.now.pc }
  let s := { s.onArch (fun a => { a with seq := a.seq + 1 }) with nextOp := s.nextOp + 1 }
  let bad := (y.hs.map (fun t => (t, s.arch.rdT t))).find? (fun e => !s.clusOk s.cur c.mc c.bind e.2)
  match bad with
  | some (t, _) => s.lateWork s.cur y.id y.id 5 { cause := 40, reason := 2, data := t.zeroExtend 32 } (s.recX c.mc true 0 y)
  | none => s.onArch (fun a => { a with xs := a.xs ++ [y.enter] })

/-- Issue of a stream; guarded off it occupies the unit (R298). `chk` gives the causes from XFORM_OPERAND on. -/
def xIssue (g : Guard) (i : Instr) (ts : List TReg) (sx : Arch → Word) (chk : State → Option Trap) (s : State) : Out :=
  match xStreamOf s.arch (sx s.arch) i with
  | none => .next s
  | some x =>
    if !s.arch.guardOn 5 g then
      .next { s.onArch (fun a => { a with xs := a.xs ++ [{ x with off := true }] }) with verdict := .issued }
    else
      issue 5 g (fun s => firstTrap [xHandles ts s, chk s]) (fun _ => none)
        (fun s => match xStreamOf s.arch (sx s.arch) i with | some x => s.startX x i | none => s) s

/-- XFORM_OPERAND reason 1: at least one of two handles is in PRIV (R296). -/
def xLevels (d t : TReg) (s : State) : Option Trap := trapIf ((s.arch.rdT d).clus && (s.arch.rdT t).clus) 57 1
def xFmt (t : TReg) (s : State) : Nat := (s.arch.rdT t).fmt.toNat
def xSpec (t : TReg) (s : State) : Bool := (s.arch.rdT t).spectral

def execXmov (g : Guard) (d a : TReg) (xe : Option XE) (s : State) : Out :=
  xIssue g (.xmov g d a xe) [d, a] (fun _ => 0) (xLevels d a) s
def execXfill (g : Guard) (d : TReg) (x : SReg) (xe : Option XE) (s : State) : Out :=
  xIssue g (.xfill g d x xe) [d] (fun r => r.rdS x) (fun _ => none) s
def execXcvt (g : Guard) (d a : TReg) (sat : BitVec 1) (xe : Option XE) (s : State) : Out :=
  xIssue g (.xcvt g d a sat xe) [d, a] (fun _ => 0) (fun s => firstTrap [xLevels d a s,
    trapIf (!cvtPair (xFmt a s) (xFmt d s)) 57 2,
    trapIf (xSpec a s && decide (xFmt a s ≤ 8)) 51 4]) s
def execXcmp (g : Guard) (d a : TReg) (uc : BitVec 2) (xe : Option XE) (s : State) : Out :=
  xIssue g (.xcmp g d a uc xe) [d, a] (fun _ => 0) (fun s => trapIf ((s.arch.rdT a).clus || !(s.arch.rdT d).clus) 57 1) s
def execXexp (g : Guard) (d a : TReg) (uc : BitVec 2) (xe : Option XE) (s : State) : Out :=
  xIssue g (.xexp g d a uc xe) [d, a] (fun _ => 0) (fun s => trapIf (!(s.arch.rdT a).clus || (s.arch.rdT d).clus) 57 1) s
def execXtrn (g : Guard) (d a : TReg) (uc : BitVec 2) (xe : Option XE) (s : State) : Out :=
  xIssue g (.xtrn g d a uc xe) [d, a] (fun _ => 0) (fun s => firstTrap [xLevels d a s, trapIf (xSpec a s) 51 4]) s

def isReal3 (f : Nat) : Bool := decide (f ≤ 2)
def isCpx (f : Nat) : Bool := f == 10 || f == 11

def execXdft (g : Guard) (d a : TReg) (bc : BitVec 3) (xe : Option XE) (s : State) : Out :=
  xIssue g (.xdft g d a bc xe) [d, a] (fun _ => 0) (fun s => firstTrap [xLevels d a s,
    trapIf (!isReal3 (xFmt a s) || !isCpx (xFmt d s)) 57 2, trapIf (xSpec a s) 51 4]) s
def execXidft (g : Guard) (d a : TReg) (bc : BitVec 3) (xe : Option XE) (s : State) : Out :=
  xIssue g (.xidft g d a bc xe) [d, a] (fun _ => 0) (fun s => firstTrap [xLevels d a s,
    trapIf (!isCpx (xFmt a s) || !isReal3 (xFmt d s)) 57 2, trapIf (!xSpec a s) 51 4]) s
def execXidftAcc (g : Guard) (d : TReg) (z : ZReg) (bc : BitVec 3) (xe : Option XE) (s : State) : Out :=
  xIssue g (.xidftAcc g d z bc xe) [d] (fun _ => 0) (fun s => firstTrap [
    trapIf (!isReal3 (xFmt d s)) 57 2,
    trapIf (!(s.arch.zflag z.toNat).valid) 50 0,
    trapIf ((s.waitedOps s.cur).any (fun o => o.zdest.1 == z.toNat)) 53 3,
    trapIf (!(s.arch.zflag z.toNat).spectral) 51 4]) s

/-! ## XTAG (R314) -/

def execXtag (g : Guard) (t : TReg) (dom : BitVec 1) (_xe : Option XE) (s : State) : Out :=
  issue 5 g (fun s => trapIf (!(s.arch.rdT t).valid) 40 1 (t.zeroExtend 32)) (fun _ => none)
    (fun s => s.result 1 5 0 (.dom t (dom == 1))) s
def execXtagAcc (g : Guard) (z : ZReg) (dom : BitVec 1) (_xe : Option XE) (s : State) : Out :=
  issue 5 g (fun s => firstTrap [trapIf (!(s.arch.zflag z.toNat).valid) 50 0, trapIf (s.zBusy s.cur z.toNat) 53 3]) (fun _ => none)
    (fun s => s.result 1 5 0 (.zdom z (dom == 1))) s

/-- X_STEP_LANDING (R297): the steps that are due land, once the cycle of the core is ending. -/
def execXStepLanding (c : Nat) (s : State) : Out := .next (if s.ending = some c then s.xLands c else s)

end Sys2Proof.Machine
end

