-- ==== Sys2Proof/Machine/Resume.lean ====
section
/-!
DEFINITION. A core takes a continuation (spec/04_execution.md R128, spec/15_traps.md R414, R416, R481, R54, R84): its registers from the
frame, the work that its progress records name, and the handles of an entry.
-/
namespace Sys2Proof.Machine
set_option Elab.async false
open Sys2Proof

/-! ## The frame as it is read -/

/-- The bytes of record, header and the areas before the progress records, and the records. -/
structure FrameIn where
  rec'   : List Byte
  header : List Byte
  sArea  : List Byte
  aArea  : List Byte
  vArea  : List Byte
  tArea  : List Byte
deriving DecidableEq, Repr

def State.frameIn (s : State) (mc fs : Nat) : FrameIn :=
  let f (o n : Nat) : List Byte := s.frameRead mc fs o n
  ⟨f 0 64, f 64 256, f 320 512, f 832 512, f 1344 16384, f 17728 4096⟩

def FrameIn.rnum (x : FrameIn) (o n : Nat) : Nat := ofBytes (cutBytes x.rec' o n)
def FrameIn.hnum (x : FrameIn) (o n : Nat) : Nat := ofBytes (cutBytes x.header o n)
/-- FROZEN. -/
def FrameIn.frozen (x : FrameIn) : Bool := (x.rnum 13 1).testBit 0

/-- The register values of a list, as a sparse table. -/
def regsOf {w : Nat} (n bytes : Nat) (area : List Byte) (live : Nat → Bool) : SMap (BitVec w) :=
  (List.range n).foldl (fun m i => if live i then SMap.set 0 m i (BitVec.ofNat w (ofBytes (cutBytes area (bytes * i) bytes))) else m) []

/-- The handles, the PRIV tiles packed from unit 0 in ascending order, and the units that they take. -/
def FrameIn.handles (x : FrameIn) : SMap TDesc × Nat :=
  let valid := x.hnum 128 32
  let priv := x.hnum 160 32
  (List.range 256).foldl (fun (t : SMap TDesc × Nat) i =>
    if valid.testBit i then
      let d := TDesc.ofBits (ofBytes (cutBytes x.tArea (16 * i) 16))
      if priv.testBit i then (SMap.set {} t.1 i { d with base := BitVec.ofNat 11 t.2 }, t.2 + d.units)
      else (SMap.set {} t.1 i d, t.2)
    else t) ([], 0)

/-- Registers of a continuation that a core takes (R54, R128). -/
def State.loadArch (s : State) (mc fs : Nat) (x : FrameIn) (trapinfo : Word) : Arch :=
  let fz := x.frozen
  let am := x.rnum 20 4
  let sm := x.rnum 32 8
  let vm := x.rnum 40 8
  let live (m i : Nat) : Bool := fz || m.testBit i
  let sr : SMap Word := regsOf 64 8 x.sArea (live sm)
  let sr := SMap.set 0 (SMap.set 0 (SMap.drop 0 sr) 1 (BitVec.ofNat 64 (x.rnum 48 8))) 2 (BitVec.ofNat 64 (x.rnum 56 8))
  let ar : SMap VAddr := regsOf 32 16 x.aArea (live am)
  let ar := SMap.drop 0 (if fz then ar else SMap.set 0 ar 30 (BitVec.ofNat 72 (x.hnum 208 9)))
  let ar := SMap.set 0 ar 31 (BitVec.ofNat 72 (s.frameVa mc fs + 64))
  let (ts, units) := x.handles
  let zf : SMap ZFlag := if fz then (List.range 4).foldl (fun m i => SMap.set {} m i (ZFlag.ofBits (x.hnum (120 + i) 1))) [] else []
  let base : Arch := {}
  let a : Arch := {
    base with
      s := sr, a := ar, p := BitVec.ofNat 16 (x.hnum 0 2), v := regsOf 64 256 x.vArea (live vm),
      k := SMap.drop 0 (regsOf 8 8 (cutBytes x.header 24 64) (fun _ => true)),
      zf := zf, t := ts, lc := regsOf 4 4 (cutBytes x.header 8 16) (fun _ => true),
      ft := regsOf 16 2 (cutBytes x.header 88 32) (fun _ => true),
      pc := (s.mcAt mc).codebase + BitVec.ofNat 72 (x.rnum 0 4),
      rmode := BitVec.ofNat 2 (x.hnum 2 1), fflags := BitVec.ofNat 6 (x.hnum 3 1),
      hold := s.effHold mc, scopeGlobal := (s.mcAt mc).global, trapinfo := trapinfo,
      priv := s.frameLoad mc fs 65536 0 10 (4096 * units) }
  if fz then
    (List.range 4).foldl (fun a z => if (a.zflag z).valid
      then a.zSet z (zOfBytes (s.frameLoad mc fs (589824 + 131072 * z) 0 4 131072)) else a) a
  else a

/-! ## The pending state (R481) -/

/-- The pending state of a frame, with what the Shepherd has kept beside it (DESIGN CHOICE, log 13) (DESIGN CHOICE, log 14)
(DESIGN CHOICE, log 27). The bundle that fills the delay cycle of a transfer that is still to take effect is a delay bundle (R33). -/
def State.loadPend (s : State) (mc : Nat) (x : FrameIn) (y : Cont) (a : Arch) : Arch :=
  let pend := x.hnum 228 1
  let at' (o : Nat) : VAddr := (s.mcAt mc).codebase + BitVec.ofNat 72 o
  let odd := y.odd.zipIdx.map (fun e => { e.1 with seq := e.2 })
  let a := { a with fly := a.fly ++ odd, seq := max a.seq odd.length, delay := y.delay, noStep := y.noStep, started := y.started, badAcc := y.badAcc,
                      badPriv := y.badPriv.map (fun e => 64 * (SMap.get {} a.t e.1).base.toNat + e.2) }
  if !pend.testBit 0 then a
  else
    let target := x.hnum 232 4
    let sk := bitsOf (x.hnum 229 1) 0 4
    let kind : Option XKind := match bitsOf pend 1 2 with
      | 1 => some (.branch (at' target))
      | 2 => some (.susp (BitVec.ofNat 32 target) (x.rnum 10 1) (x.rnum 14 2) (BitVec.ofNat 32 (x.rnum 16 4)) none)
      | 3 => some .retire
      | _ => none
    let a := { a with last := a.pc, past := true, sk := sk,
                      xfer := kind.map (fun k => ⟨k, a.pc, pend.testBit 3, y.link⟩),
                      delay := a.delay || (kind.isSome && !pend.testBit 3 && sk == 0) }
    match y.passTo with
    | some (e, n) => { a with past := false, passTo := some e, sk := n }
    | none => a

/-! ## Results in flight (R413, R414) -/

/-- Entry `e` as a result in flight; the tile of a PRIV handle gets its units in the new core. -/
def loadEntry (a : Arch) (b : List Byte) : Arch :=
  let f (o n : Nat) : Nat := ofBytes (cutBytes b o n)
  let reg := f 3 1
  let put (w : RegWrite) (a : Arch) : Arch :=
    { a with fly := a.fly ++ [⟨f 0 2, f 4 1, f 6 2, BitVec.ofNat 6 (f 5 1), w⟩] }
  match f 2 1 with
  | 0 => put (.s (BitVec.ofNat 6 reg) (BitVec.ofNat 64 (f 16 8))) a
  | 1 => put (.a (BitVec.ofNat 5 reg) (BitVec.ofNat 72 (f 16 16))) a
  | 2 => put (.v (BitVec.ofNat 6 reg) (BitVec.ofNat 2048 (f 16 256))) a
  | 3 => put (.k (BitVec.ofNat 3 reg) (BitVec.ofNat 64 (f 16 8))) a
  | 4 =>
    let d := TDesc.ofBits (f 16 16)
    let d := if d.valid && !d.clus then { d with base := BitVec.ofNat 11 ((lowestRun a.privUsed 128 d.units).getD 0) } else d
    put (.t (BitVec.ofNat 8 reg) d) a
  | _ => a

def State.loadIfq (s : State) (mc fs : Nat) (x : FrameIn) (a : Arch) : Arch :=
  let n := if x.frozen then x.rnum 11 1 else 0
  let a := (List.range n).foldl (fun a e => loadEntry a (s.frameRead mc fs (21824 + 272 * e) 272)) a
  { a with seq := max a.seq n }

/-! ## Progress records (R414, R416) -/

/-- Records of the frame and those beyond its sixteen (DESIGN CHOICE, log 26), each with its query and the operation that it stands for. -/
def State.loadRecs (s : State) (mc fs : Nat) (x : FrameIn) : List (Nat × List Byte × List Byte) :=
  let c := s.contAt (contKey mc fs)
  if !x.frozen then []
  else
    ((List.range (min 16 (x.rnum 12 1))).map (fun j => (c.recIds.getD j 0, s.frameRead mc fs (39232 + 64 * j) 64,
      s.frameRead mc fs (40256 + 512 * j) 512))) ++ c.more

/-- Field of a record. -/
def recNum (b : List Byte) (o n : Nat) : Nat := ofBytes (cutBytes b o n)
def recFaulted (b : List Byte) : Bool := (recNum b 2 1).testBit 0

/-- The instruction of a record; `free` clears its guard, which was true. -/
def recInstr (free : Bool) (b : List Byte) : Option Instr :=
  let w := recNum b 8 4
  let w := if free then w / 2 ^ 26 * 2 ^ 26 + w % 2 ^ 21 else w
  let e : Option Word32 := if (recNum b 2 1).testBit 1 then some (BitVec.ofNat 32 (recNum b 12 4)) else none
  match slotList[recNum b 1 1]? with
  | some sl => (match decodeSyl sl (BitVec.ofNat 32 w) e with | .ok i => some i | .error _ => none)
  | none => none

/-- The number that re-issued work takes: the one that its record stands for, or a new one. -/
def State.takeId (s : State) (id : Nat) : Nat × State :=
  if id = 0 then (s.nextOp, { s with nextOp := s.nextOp + 1 }) else (id, s)

/-- The operand values of a re-issued operation, as its kind holds them (`Op.operands`). -/
def recOperands (i : Instr) (b : List Byte) : List Nat :=
  let o (j : Nat) : Nat := recNum b (24 + 8 * j) 8
  let aux := recNum b 56 8
  match i with
  | .sta .. => [o 0 + o 1 % 256 * 2 ^ 64, o 2 + o 3 % 256 * 2 ^ 64]
  | .sqatt .. => [bitsOf aux 63 1 * 2 ^ 63 + bitsOf aux 16 18, bitsOf aux 0 16, o 0, o 1, o 2, o 3]
  | _ => if recNum b 1 1 = 2 then [o 0 + o 1 % 256 * 2 ^ 64, o 2, o 3] else [o 0, o 1, o 2]

/-- The handles that a re-issued C or Q command names. -/
def recRegs (i : Instr) (x : List Nat) : List TReg :=
  let e (j : Nat) : TReg := endReg (x.getD j 0)
  match i with
  | .cpy .. => ((x.take 2).filter endHandle).map endReg
  | .gath .. => [e 0, e 2]
  | .scat .. => [e 1, e 2]
  | .cpyn .. => [e 1]
  | .nrecv .. => [e 0]
  | .ring .. => [e 0, e 1]
  | .sqput .. => [e 0]
  | .sqget .. => [e 0]
  | .sqatt .. => if (x.getD 0 0).testBit 63 then [e 1] else [e 0, e 1]
  | .sqmrg .. => [e 0, e 1, e 2]
  | _ => []

/-- The paths of a re-issued operation (R352). -/
def recPaths (slot : Nat) (i : Instr) (regs : List TReg) : BitVec 6 :=
  match slot, i with
  | 2, _ => 1
  | _, .cpy .. => if regs.isEmpty then 4 else 6
  | _, .gath .. => 6
  | _, .scat .. => 6
  | _, .cseg .. => 0
  | _, .sqput .. => 0x12
  | _, .sqget .. => 0x12
  | _, .sqatt .. => 0x12
  | _, .sqmrg .. => 2
  | 6, _ => 0x22
  | _, _ => 0x10

/-- A tile access or a readout to CLUS as it was withdrawn. -/
def Op.counted (o : Op) : Bool := (o.kind == .tile || o.kind == .readout) && !o.hs.isEmpty

/-- Re-issue of a syllable (KIND 6): by its slot, with the recorded values, and those that the Shepherd has kept where the record has no
place for them (R416; DESIGN CHOICE, log 13). A CPYN takes the KEY of its micro-context as it stands now (R122; DESIGN CHOICE, log 149). -/
def State.reissue (s : State) (id : Nat) (b save : List Byte) : State :=
  match recInstr false b, recInstr true b with
  | some i, some j =>
    let slot := recNum b 1 1
    let addr := (s.mcAt s.core.mc).codebase + BitVec.ofNat 72 (recNum b 16 4)
    -- a fence that has been freed since the freeze is not updated (R164)
    let i := if copyFen i && !(s.contAt s.curKey).fens.any (·.1 == id) then clearFen i else i
    let old := (s.contAt s.curKey).ops.find? (fun o => o.id == id)
    let (id, s) := s.takeId id
    let aux := recNum b 56 8
    let add (s : State) (o : Op) : State :=
      let s := (s.onArch (fun a => match o.ctr with | some c => a.inc c | none => a))
      { s with ops := s.ops ++ [o] }
    let bad (rs : List TReg) : Option TReg := rs.find? (fun r => !(s.arch.rdT r).valid)
    let ordinary (kind : OpKind) (regs : List TReg) : State :=
      let x := recOperands i b
      let o := { s.newOp kind slot i with
        id := id, addr := addr, x := x, hs := regs.map (fun r => (r, s.arch.rdT r)), index := recNum b 4 4, crc := recNum b 20 4,
        paths := recPaths slot i regs, ts := (old.map (·.ts)).getD 0 }
      let o := match i with
        | .ring .. => { o with rtc := aux }
        | .sqatt .. => { o with dat := if aux.testBit 63 then save else [] }
        | .cpyn .. => { o with count := aux, dat := s.keyFor i }
        | _ => if kind == .copy then { o with count := aux } else o
      let o := if kind == .scalar then
          let ord := match i with
            | .ld _ _ _ _ _ d _ _ => d
            | .st _ _ _ _ d _ _ => d
            | .lda _ _ _ d _ => d
            | .sta _ _ _ d _ => d
            | .red _ _ _ _ _ d => d
            | .amoAdd _ _ _ _ _ d => d
            | .amoAnd _ _ _ _ _ d => d
            | .amoOr _ _ _ _ _ d => d
            | .amoXor _ _ _ _ _ d => d
            | .amoMin _ _ _ _ _ d => d
            | .amoMax _ _ _ _ _ d => d
            | .amoMinu _ _ _ _ _ d => d
            | .amoMaxu _ _ _ _ _ d => d
            | .amoSwap _ _ _ _ _ d => d
            | .cas _ _ _ _ _ d => d
            | _ => 0
          { o with aux := s.arch.leaseLen.toNat, acq := ordAcq ord, rel := ordRel ord, after := if ordRel ord then s.liveOps else [] }
        else o
      let s := add s o
      match bad regs with
      | some r => s.lateOp o { cause := 40, reason := 1, data := r.zeroExtend 32 }
      | none => s
    let pass (ta : TReg) (tb : Option TReg) (mx : MX) : State :=
      let o := { s.waitedOp i ta tb mx.word (recNum b 24 8) (aux % 4096) (aux.testBit 16) with id := id, addr := addr }
      -- beyond the free entries of the Fold it waits for one (R276)
      let full := (s.foldFull s.cur).isSome || s.ops.any (fun p => p.core == s.cur && p.waited.any (fun w => w.phase == .queued))
      let o := if s.penModeOf s.cur == .fold && full then o.setPhase .queued else o
      let s := add s o
      match bad (ta :: tb.toList) with
      | some r => s.lateOp o { cause := 40, reason := 1, data := r.zeroExtend 32 }
      | none => s
    match slot, i with
    | 2, _ => ordinary .scalar []
    | 4, .mmulw _ _ ta tb _ mx => pass ta (some tb) mx
    | 4, .mmulwT _ _ ta _ _ mx => pass ta none mx
    | 6, _ => ordinary .copy (recRegs i (recOperands i b))
    | 7, _ => ordinary .seq (recRegs i (recOperands i b))
    | 0, .finc .. => fincAgain old s id
    | 0, .fincSet .. => fincAgain old s id
    | _, _ =>
      (match old.bind (fun o => if o.counted then some o else none) with
       | some o =>
         let o := { o with id := id, core := s.cur, stage := s.core.stage, carried := false, faulted := false, wait := none }
         let s := add s o
         (match bad (o.hs.map (·.1)) with
          | some r => s.lateOp o { cause := 40, reason := 1, data := r.zeroExtend 32 }
          | none => s)
       | none =>
         -- a read at issue or a pass that had raised a cause: it issues again with its guard true, its operands and its bundle
         let a := s.arch
         let u := { s.onArch (fun a => { a.withOperands i ((old.map (·.x)).getD (a.operandVals i)) with pc := addr }) with
           checked := true, nextOp := id }
         (match reissueExec u slot j with
          | some t =>
            { t.onArch (fun r => { r with s := a.s, k := a.k, v := a.v, pc := a.pc, passes := r.passes.map (instrBack id i), reads := r.reads.map (readBack id i) }) with
              checked := false, nextOp := max s.nextOp t.nextOp,
              ops := t.ops.map (fun o => if o.id = id then { o with instr := i } else o) }
          | none => s))
  | _, _ => s
where
  fincAgain (old : Option Op) (s : State) (id : Nat) : State :=
    match old with
    | some o => { s with ops := s.ops ++ [{ o with id := id, core := s.cur, carried := false, faulted := false, wait := none, after := s.liveOps }] }
    | none => s
  instrBack (id : Nat) (i : Instr) (p : Pass) : Pass := if p.id = id then { p with instr := i } else p
  readBack (id : Nat) (i : Instr) (p : Readout) : Readout := if p.id = id then { p with instr := some i } else p
  reissueExec (s : State) (slot : Nat) (j : Instr) : Option State :=
    let r : Out := match slot, j with
      | 3, .vld g v t x vx => execVld g v t x vx s
      | 3, .vst g v t x vx => execVst g v t x vx s
      | 3, .vldx g v t x vx => execVldx g v t x vx s
      | 3, .vstx g v t x vx => execVstx g v t x vx s
      | 4, .mmul g z ta tb acc mx => execMmul g z ta tb acc mx s
      | 4, .mspec g z ta tb acc mx => execMspec g z ta tb acc mx s
      | 4, .mrd g z t y mx => execMrd g z t y mx s
      | 4, .mrdv g z v y => execMrdv g z v y s
      | _, _ => .next s
    match r with
    | .next t => some t
    | _ => none

/-- The format word of a recorded pass (R416). -/
def passWord : Instr → BitVec 16
  | .mmul _ _ _ _ _ mx => mx.word
  | .mspec _ _ _ _ _ mx => mx.word
  | _ => 0

/-- The handles that a pass names (R221). -/
def passHandles : Instr → List TReg
  | .mmul _ _ ta tb _ _ => [ta, tb]
  | .mspec _ _ ta tb _ _ => [ta, tb]
  | _ => []

/-- A pending pass (KIND 3), whose image lands when REMAIN cycles have passed. -/
def State.loadPass (s : State) (id : Nat) (b : List Byte) : State :=
  let c := s.core
  let (id, s) := s.takeId id
  match recInstr false b with
  | none => s
  | some i =>
    let z := recNum b 16 1
    let img := zOfBytes (s.frameLoad c.mc c.fslot (1114112 + 131072 * recNum b 17 1) 0 4 131072)
    let p : Pass := {
      id := id, instr := i, addr := 0, hs := passHandles i, z := z, lat := recNum b 20 4, m := 1, rows := 0, cols := 0, depth := 0, word := passWord i,
      acc := false, spec := (recNum b 18 1).testBit 1, stat := [], mov := {}, img := some (img, ZFlag.ofBits (recNum b 18 1)) }
    s.onArch (fun a => { a with passes := a.passes ++ [p], occ := max a.occ (recNum b 24 4) })

/-- A pending readout (KIND 4). -/
def State.loadReadout (s : State) (id : Nat) (b : List Byte) : State :=
  let c := s.core
  let epi := ((s.contAt s.curKey).epis.find? (fun e => e.1 == id)).map (·.2)
  let (id, s) := s.takeId id
  let t := BitVec.ofNat 8 (recNum b 16 1)
  let d := s.arch.rdT t
  let rows := recNum b 18 2
  let n := recNum b 24 2
  let img := s.frameLoad c.mc c.fslot 1376256 0 10 (rows * d.rs)
  let data := (List.range rows).foldl (fun m i => putRow m i (rdBytes img (i * d.rs) n)) []
  s.onArch (fun a => { a with seq := a.seq + 1, reads := a.reads ++ [{
    instr := recInstr false b, seq := a.seq, id := id, remain := recNum b 20 4, t := t, dst := d, spectral := (recNum b 17 1).testBit 0, rows := rows, rbytes := n, data := data,
    epi := epi }] })

/-- An X stream (KIND 5) goes on from step INDEX (DEDUCED, log 61), over the descriptors and the source's tag that its handles hold now
(DESIGN CHOICE, log 150). A CLUS handle whose entry does not name the binding is a late fault (R219). -/
def State.loadStream (s : State) (id : Nat) (b : List Byte) : State :=
  let (id, s) := s.takeId id
  match recInstr false b with
  | none => s
  | some i =>
    match xStreamOf s.arch (BitVec.ofNat 64 (recNum b 24 8)) i with
    | none => s
    | some x =>
      let idx := recNum b 4 4
      let age := recNum b 20 4
      let begun := if x.st = 0 then 0 else ceilDiv age x.st
      let addr := (s.mcAt s.core.mc).codebase + BitVec.ofNat 72 (recNum b 16 4)
      let x := { x with id := id, seq := s.arch.seq, instr := i, addr := addr, sx := BitVec.ofNat 64 (recNum b 24 8) }
      let x := if recFaulted b || idx < begun then { x with base := idx, age := 0 } else { x with base := idx - begun, age := age, read := begun * x.st }
      let c := s.core
      let s := s.onArch (fun a => { a with seq := a.seq + 1 })
      match firstTrap [(x.hs.find? (fun t => !(s.arch.rdT t).valid)).map (fun t => { cause := 40, reason := 1, data := t.zeroExtend 32 }),
          (x.hs.find? (fun t => !s.clusOk s.cur c.mc c.bind (s.arch.rdT t))).map (fun t => { cause := 40, reason := 2, data := t.zeroExtend 32 })] with
      | some t => s.lateWork s.cur id id 5 t (s.recX c.mc true idx x)
      | none => s.onArch (fun a => { a with xs := a.xs ++ [x.enter] })

/-- One record. -/
def State.loadRec (s : State) (r : Nat × List Byte × List Byte) : State :=
  let (id, b, save) := r
  let at' (o : Nat) : VAddr := (s.mcAt s.core.mc).codebase + BitVec.ofNat 72 (recNum b o 4)
  match recNum b 0 1 with
  | 1 => s.onArch (fun a => a.setLoop (recNum b 16 1) ⟨true, recInstr false b, at' 20, at' 24⟩)
  | 2 => s
  | 3 => s.loadPass id b
  | 4 => s.loadReadout id b
  | 5 => s.loadStream id b
  | 6 => s.reissue id b save
  | _ => s

/-- A syllable whose faulted record `cres.skip` drops is guarded off: a stream, a pass and an MRD to PRIV hold their engines (R35, R256, R266,
R302). -/
def State.loadOff (s : State) (b : List Byte) : State :=
  match recNum b 0 1, recInstr false b with
  | 5, some i =>
    (match xStreamOf s.arch (BitVec.ofNat 64 (recNum b 24 8)) i with
     | some x => s.onArch (fun a => { a with xs := a.xs ++ [{ x with base := recNum b 4 4, off := true }] })
     | none => s)
  | 6, some (.mmul _ _ ta _ _ _) => s.offPass ta
  | 6, some (.mspec _ _ ta _ _ _) => s.offPass ta
  | 6, some (.mrd _ z t y _) => s.offMrd z t (s.arch.rdS y)
  | _, _ => s

/-- The pending fence of the records, over all accesses of the continuation on its paths (R416 KIND 2). -/
def State.loadFence (s : State) (rs : List (Nat × List Byte × List Byte)) : State :=
  match rs.find? (fun r => recNum r.2.1 0 1 == 2) with
  | none => s
  | some r =>
    let m : BitVec 6 := BitVec.ofNat 6 (recNum r.2.1 16 1)
    let c := s.core
    let ids := (s.ops.filter (fun o => o.mc == c.mc && o.fslot == c.fslot && (o.paths &&& m) != 0)).map (·.id)
      ++ (if m.getLsbD 1 then c.now.passes.map (·.id) ++ c.now.reads.map (·.id) ++ c.now.xs.map (·.id) else [])
    s.onArch (fun a => { a with fences := [⟨m, BitVec.ofNat 6 (recNum r.2.1 17 1), ids, recInstr false r.2.1⟩] })

/-! ## The handles of an entry (R84) -/

/-- Allocates the `.tile` records from record `i` on; the first that cannot be is left for the entry to trap on. -/
def State.entryTiles (s : State) (c i : Nat) : Nat → State
  | 0 => s
  | k + 1 =>
    let (t, want) := s.tileRec (s.coreAt c).mc i
    match s.talloc c want with
    | (0, d, s) => (s.onArchAt c (fun a => a.wr (.t t d))).entryTiles c (i + 1) k
    | (_, _, s) => s.onArchAt c (fun a => { a with entryTile := some i })

/-! ## A core takes a continuation -/

/-- The logical core of core `c` in its stage (R131). -/
def State.logicalCore (s : State) (b st c : Nat) : Nat :=
  let x := s.bindAt b
  (firstIdx (fun j => (x.pens.getD st []).getD j 1000 == penOfCore c) (x.pens.getD st []).length 0).getD 0 * 4 + c % 4

/-- The engines stay occupied across a freeze (R35, R59; DESIGN CHOICE, log 38): the array share, the X unit and the M port of PRIV. -/
def Arch.occupied (a : Arch) (h : Nat × Nat × Nat) : Arch :=
  { a with
    occ := max a.occ h.1, mport := max a.mport h.2.2,
    xs := if h.2.1 = 0 then a.xs else
      a.xs ++ [{ id := 0, hs := [], instr := .xfill ⟨1, 0⟩ 0 0 none, addr := 0, op := .move, steps := h.2.1, st := 1, d := 0, off := true }] }

/-- A TRAPINFO with SYLSLOT 7 names no syllable when its cause is one of the bundle, of its fetch or of a check failure (R161, the map of
TRAPINFO in spec/05_control_class.md): slot Q raises none of these causes at issue. -/
def noSyllable (slot cause : Nat) : Bool :=
  slot == 7 && (cause == 0 || cause == 2 || (decide (32 ≤ cause) && decide (cause ≤ 39)) || cause == 42 || cause == 43 || cause == 106
    || cause == 112 || cause == 113)

/-- The areas of a frame that a resume reads: offsets and bytes (R127, R414). -/
def frameAreas (a : Arch) (frozen : Bool) (units : Nat) (recs : List (Nat × List Byte × List Byte)) : List (Nat × Nat) :=
  (if units = 0 then [] else [(65536, 4096 * units)])
    ++ (if frozen then ((List.range 4).filter (fun z => (a.zflag z).valid)).map (fun z => (589824 + 131072 * z, 131072)) else [])
    ++ recs.flatMap (fun r => match recNum r.2.1 0 1 with
      | 3 => [(1114112 + 131072 * recNum r.2.1 17 1, 131072)]
      | 4 => [(1376256, 131072)]
      | _ => [])

/-- What the Shepherd reads for continuation `k` before a core takes it: its record and frame, and the TILES records of an entry (R84). What
`shepDown` says then is whether an access has failed or waits (R203, R205). -/
def State.startReach (s : State) (k : Nat) : State :=
  let mc := k / 4096
  let fs := k % 4096
  let y := s.contAt k
  let reach (s : State) (e : Nat × Nat) : State := s.shepReach mc .read (s.frameVa mc fs + e.1) 33 e.2
  let s := reach s.shepUp (0, 48448)
  let s := if y.entryTile.isSome && !y.skip && s.shepDown.isNone then s.startvReach mc else s
  if s.shepDown.isSome then s
  else
    let x := s.frameIn mc fs
    (frameAreas (s.loadArch mc fs x 0) x.frozen x.handles.2 (s.loadRecs mc fs x)).foldl reach s

/-- Core `c` takes the continuation of key `k`: it is RUNNING with its registers loaded and its work re-issued, and its first
checkpoint is taken. -/
def State.startOn (s : State) (c k : Nat) : State :=
  let mc := k / 4096
  let fs := k % 4096
  let y := s.contAt k
  let s := s.startReach k
  if s.shepDown.isSome then s.shepUp
  else
    let x := s.frameIn mc fs
    let a := s.loadPend mc x y (s.loadIfq mc fs x (s.loadArch mc fs x y.handlerInfo))
    let a := match y.statp with
      | some p => if x.frozen then a else a.wr (.p (BitVec.ofNat 4 p) (!y.werr))
      | none => a
    let recs := s.loadRecs mc fs x
    let faulted := recs.any (fun r => recFaulted r.2.1)
    let recs' := if y.skip then recs.filter (fun r => !recFaulted r.2.1) else recs
    let sylslot := bitsOf y.trapinfo.toNat 8 3
    let a := if y.skip && !faulted && y.entryTile.isNone && !noSyllable sylslot (bitsOf y.trapinfo.toNat 0 7) then
        { a with skipSlot := some sylslot } else a
    let a := match y.passed with
      | some b => { a with stall := .gbar b 0 true false }
      | none => a
    let old := s.coreAt c
    let cyc := (s.clusterAt (clusterOfCore c)).cyc
    let s := s.setCoreAt c {
      running := true, mc := mc, bind := y.bind, fslot := fs, stage := y.stage, lcore := s.logicalCore y.bind y.stage c,
      cyc := cyc, now := a, l1 := old.l1 }
    let was := s.cur
    let kept := y.ops.length
    let s := { s with cur := c }
    let s := if x.frozen then s.onArch (fun a => a.occupied y.held) else s
    let s := if y.skip then (recs.filter (fun r => recFaulted r.2.1)).foldl (fun s r => s.loadOff r.2.1) s else s
    let s := (recs'.foldl (fun s r => s.loadRec r) s).loadFence recs'
    let s := match y.entryTile with
      | some i => if y.skip then s else s.entryTiles c i (s.tileCount mc - i)
      | none => s
    let s := { s with cur := was }
    let s := (s.onCont k (fun y => {
      y.kept with ops := y.ops.drop kept, recIds := [], more := [], skip := false, statp := none, werr := false, entryTile := none, passed := none,
                  settling := false, lcore := none, preempted := false,
                  held := (0, 0, 0) })).setContState k .running
    s.shepUp.checkpoint c

end Sys2Proof.Machine
end

