-- ==== Sys2Proof/Machine/Shepherd.lean ====
section
/-!
DEFINITION. The Shepherd (spec/04_execution.md R130 to R145, R478, R479): placements, selection, pre-emption, new bindings, rebindings
and slices.
-/
namespace Sys2Proof.Machine
set_option Elab.async false
open Sys2Proof

/-! ## Pens -/

/-- A pen of the present unit map (R469). -/
def State.penPresent (s : State) (p : Nat) : Bool := decide (p < 192) && s.units.pens.getLsbD p && s.units.clusters.getLsbD (p / 4)
/-- The binding that holds a pen (R130). -/
def State.holderOf (s : State) (p : Nat) : Option Nat :=
  (s.binds.find? (fun e => e.2.live && e.2.held && e.2.pens.any (·.contains p))).map (·.1)
/-- A pen that a reservation names. -/
def State.penReserved (s : State) (p : Nat) : Bool := s.reserves.any (fun r => r.pens.any (·.contains p))

/-- What a placement must fit: pens of each stage, the cluster of a stage that is fixed, and the only pens allowed (R433). -/
structure Shape where
  stages : Nat
  pens   : Nat
  fixed  : List Nat := []
  only   : List Nat := []

def Shape.penOk (h : Shape) (p : Nat) : Bool := h.only.isEmpty || h.only.contains p
def Shape.clusterOk (h : Shape) (st q : Nat) : Bool := match h.fixed[st]? with | some f => f == q | none => true

/-! ## A free placement (R131) -/

/-- The stages of a group on one die: each on its lowest cluster with enough free pens. -/
def State.placeOn (s : State) (h : Shape) (die : Nat) : Nat → List (Nat × List Nat) → Option (List (Nat × List Nat))
  | 0, acc => some acc
  | k + 1, acc =>
    let st := h.stages - (k + 1)
    let free (q : Nat) : List Nat := (pensOf q).filter (fun p => s.penPresent p && (s.holderOf p).isNone && !s.penReserved p
      && h.penOk p && !acc.any (fun x => x.2.contains p))
    match ((List.range 12).map (· + 12 * die)).find? (fun q => h.clusterOk st q && decide (h.pens ≤ (free q).length)) with
    | some q => s.placeOn h die k (acc ++ [(q, (free q).take h.pens)])
    | none => none

/-- The first die on which every stage can be placed. The pens are those of the unit map as it stands, whichever it is (R132). -/
def State.placeFree (s : State) (h : Shape) : Option (List (Nat × List Nat)) :=
  (List.range 4).findSome? (fun d => s.placeOn h d h.stages [])

/-- The shape can be placed on the present units, even with every other pen free (R132, R470). -/
def State.placeable (s : State) (h : Shape) : Bool := (({ s with binds := [], reserves := [] } : State).placeFree h).isSome

/-! ## A reserved placement (R141) -/

/-- The sublists of `n` elements, in the order of their lists. -/
def choose : Nat → List Nat → List (List Nat)
  | 0, _ => [[]]
  | _ + 1, [] => []
  | n + 1, x :: r => (choose n r).map (x :: ·) ++ choose (n + 1) r

/-- The compatible placements of a die in the order of R141. -/
def State.placesOn (s : State) (h : Shape) (die : Nat) : Nat → List (Nat × List Nat) → List (List (Nat × List Nat))
  | 0, acc => [acc]
  | k + 1, acc =>
    let st := h.stages - (k + 1)
    let open' (q : Nat) : List Nat := (pensOf q).filter (fun p => s.penPresent p && !s.penReserved p && h.penOk p
      && !acc.any (fun x => x.2.contains p))
    ((List.range 12).map (· + 12 * die)).flatMap (fun q =>
      if h.clusterOk st q then (choose h.pens (open' q)).flatMap (fun ps => s.placesOn h die k (acc ++ [(q, ps)])) else [])

def State.places (s : State) (h : Shape) : List (List (Nat × List Nat)) :=
  (List.range 4).flatMap (fun d => s.placesOn h d h.stages [])

/-- A binding is protected by NP (R142), from its own start on (DESIGN CHOICE, log 118). -/
def State.npHeld (s : State) (b : Nat) : Bool :=
  let x := s.bindAt b
  let m := s.mcAt x.mc
  m.np && !x.npOver && decide (s.rtc.toNat < x.boundat + 10000 * m.npmax.toNat)

/-- A binding may be pre-empted at once for micro-context `y` (R141). -/
def State.atOnce (s : State) (y b : Nat) : Bool :=
  decide (s.effPrio (s.bindAt b).mc < s.effPrio y) && !s.npHeld b

/-- The bindings that hold pens of a placement. -/
def State.holders' (s : State) (pl : List (Nat × List Nat)) : List Nat :=
  ((pl.flatMap (·.2)).filterMap s.holderOf).eraseDups

/-- The least of a list by a rank of two numbers, the first among equals. -/
def bestOf (f : List (Nat × List Nat) → Nat × Nat) : List (List (Nat × List Nat)) → Option (List (Nat × List Nat))
  | [] => none
  | x :: r => match bestOf f r with
    | none => some x
    | some y => some (if (f x).1 < (f y).1 || ((f x).1 == (f y).1 && decide ((f x).2 ≤ (f y).2)) then x else y)

/-- The placement that is reserved for micro-context `y` (R141). -/
def State.bestPlace (s : State) (y : Nat) (h : Shape) : Option (List (Nat × List Nat)) :=
  bestOf (fun pl => (if (s.holders' pl).all (s.atOnce y) then 0 else 1, (s.holders' pl).length)) (s.places h)

/-! ## Pre-emption (R141) -/

/-- A binding that holds a group and is not being frozen. -/
def Binding.frozenable (x : Binding) : Bool := x.live && x.held && !x.pre

/-- Every core of a binding freezes at its next boundary; the binding's group will be free. -/
def State.freezeBinding (s : State) (b : Nat) : State :=
  if !(s.bindAt b).frozenable then s
  else
    let s := (s.cores.filter (fun e => e.2.running && e.2.bind == b)).foldl (fun s e =>
      s.onCoreAt e.1 (fun c => { c with freeze := .preempt })) s
    s.onBind b (fun y => { y with pre := true })

/-- The pre-emption of a binding. -/
def State.preempt (s : State) (b : Nat) : State :=
  let x := s.bindAt b
  if !x.frozenable then s
  else
    let s := s.freezeBinding b
    s.onMc x.mc (fun m => {
      m with stpreempt := if m.stpreempt = 0xFFFFFFFF#32 then m.stpreempt else m.stpreempt + 1 })

/-! ## Selection (R140) -/

/-- The shape of a micro-context's group (R130); a rebinding takes that of its binding (R133). -/
def State.shapeOf (s : State) (mc : Nat) (rebind : Option Nat) : Shape :=
  match rebind with
  | some b =>
    let x := s.bindAt b
    { stages := x.stages, pens := ceilDiv x.cores 4, fixed := x.clusters, only := x.only }
  | none =>
    let m := s.mcAt mc
    { stages := m.stages.toNat, pens := ceilDiv m.cores.toNat 4, fixed := [], only := m.testOnly }

/-- What a selected micro-context would do: the oldest frozen binding that can go on, or a new binding with its frame slots
(R133, R135). -/
def State.nextWork (s : State) (mc : Nat) : Option (Option Nat) :=
  let m := s.mcAt mc
  let frozen := (s.bindsOf mc).filter s.frozenWork
  match frozen.find? (fun b => frozen.all (fun c => decide ((s.bindAt b).num ≤ (s.bindAt c).num))) with
  | some b => some (some b)
  | none =>
    if m.rqhead != m.rqtail && decide (m.stages.toNat * m.cores.toNat ≤ s.freeSlots mc) then some none else none

/-- A micro-context that the Shepherd may select (DEDUCED, log 78) (DEDUCED, log 81): one whose group fits nowhere on the present units is
not (R470). -/
def State.selectable (s : State) (mc : Nat) : Bool :=
  (s.mcAt mc).state == .ready && (s.nextWork mc).any (fun w => s.placeable (s.shapeOf mc w)) && !s.reserves.any (·.mc == mc)

/-- The selection: the least PASS as an offset from that of the lowest-numbered candidate. -/
def leastKey : List (Int × Nat) → Option (Int × Nat)
  | [] => none
  | x :: r => match leastKey r with
    | none => some x
    | some y => some (if x.1 ≤ y.1 then x else y)

def State.selected (s : State) : Option Nat :=
  let l := (s.mcs.map (·.1)).filter s.selectable
  match l with
  | [] => none
  | r :: _ => (leastKey (l.map (fun m => (((s.mcAt m).pass - (s.mcAt r).pass).toInt, m)))).map (·.2)

/-- SHEPHERD_SELECT (R140, R141), at one of its moments: the selected micro-context gets a free placement, or a reserved one whose bindings are pre-empted
at once or at their next slice ends. -/
def execShepherdSelect (s : State) : Out :=
  .next (if s.noBinding || s.selDue = 0 then s
    else
    let s := { s with selDue := s.selDue - 1 }
    match s.selected with
    | none => s
    | some y =>
      let w := (s.nextWork y).getD none
      let h := s.shapeOf y w
      let put (s : State) (pl : List (Nat × List Nat)) : State :=
        { s with reserves := s.reserves ++ [⟨y, w, pl.map (·.1), pl.map (·.2)⟩] }
      match s.placeFree h with
      | some pl => put s pl
      | none =>
        match s.bestPlace y h with
        | none => s
        | some pl => put (((s.holders' pl).filter (s.atOnce y)).foldl (fun s b => s.preempt b) s) pl)

/-! ## New bindings (R133, R479) -/

/-- The core of logical core `j` of a stage. -/
def groupCore (pens : List (List Nat)) (st j : Nat) : Nat := 4 * ((pens.getD st []).getD (j / 4) 0) + j % 4

/-- Sets the pen modes of a group from its STARTV records. -/
def State.setModes (s : State) (b : Nat) : State :=
  let x := s.bindAt b
  x.pens.zipIdx.foldl (fun s e => e.1.zipIdx.foldl (fun s p =>
    let md := ((s.startvAt x.mc x.startv (x.stages * x.cores) e.2 (4 * p.2)).getD (0, 0)).1
    let mode := if md = 1 then PenMode.pair else if md = 2 then .quad else if md = 3 then .fold else .sole
    s.setPen p.1 { s.penAt p.1 with mode := mode }) s) s

/-- No pass of a Fold runs on the array of a pen (R292). -/
def State.penIdle (s : State) (p : Nat) : Bool := (s.penAt p).groups.all (fun (g : FGroup) => g.started.isNone)
/-- The holders of a reservation: none is left, and its arrays have no pass running (R292); or all are being pre-empted. -/
def State.resFree (s : State) (r : Reserve) : Bool :=
  r.pens.all (fun l => l.all (fun p => s.penPresent p && (s.holderOf p).isNone && s.penIdle p))
def State.resFreezing (s : State) (r : Reserve) : Bool :=
  r.pens.all (fun l => l.all (fun p => match s.holderOf p with | none => true | some b => (s.bindAt b).pre))

/-- The frame slots of a new binding, one for each core: stage, core, slot. -/
def State.takeSlots (s : State) (mc b buf : Nat) : List (Nat × Nat) → State
  | [] => s
  | (st, j) :: r =>
    match s.freeSlot mc with
    | none => s
    | some fs =>
      let e := ((s.startvEntry mc st j).getD (0, 0)).2
      let s := s.newCont mc b fs st e 0 0 buf
      let k := contKey mc fs
      (s.onCont k (fun c => { c with spawning := true, pts := (s.mcAt mc).bts, lcore := some j })).takeSlots mc b buf r

/-- A binding for which an access of the Shepherd fails or waits does not start (R203): its frame slots return, and its request entry
stays unbound; `t` is the state in which the access has failed, and a reference to the parameters that has been counted is given back. -/
def State.bindFails (s t : State) (mc : Nat) (counted : Bool) : State :=
  let u := ({ t with conts := s.conts, binds := s.binds, nextBind := s.nextBind }.onMc mc (fun m => { m with conts := (s.mcAt mc).conts })).shepUp
  if counted then u.paramRefs mc (s.mcAt mc).paramver.toNat false else u

/-- Steps 1 to 4 of a new binding. -/
def State.bindNew (s : State) (r : Reserve) : State :=
  let m := s.mcAt r.mc
  let va := m.rqbase.toNat + 32 * (m.rqhead.toNat % 2 ^ m.rqlog.toNat)
  let s' := (s.shepUp.shepReach r.mc .read va 2 32).startvReach r.mc
  if s'.shepDown.isSome then s'.shepUp
  else
    let s := s'
    let e := (s.shepRead r.mc va 32).getD []
    let f (o n : Nat) : Nat := ofBytes (cutBytes e o n)
    let b := s.nextBind
    let req : Request := { index := m.rqhead, buf := BitVec.ofNat 72 (f 0 9), len := BitVec.ofNat 32 (f 16 4),
                           src := BitVec.ofNat 16 (f 20 2), rid := BitVec.ofNat 64 (f 24 8),
                           host := SMap.get none m.hreqs m.rqhead.toNat }
    let x : Binding := {
      live := true, mc := r.mc, num := m.streqs.toNat % 2 ^ 32, clusters := r.clusters, launching := true, req := some req,
      params := m.paramver + 16, only := m.testOnly, stages := m.stages.toNat, cores := m.cores.toNat, startv := m.startv.toNat }
    let t := (({ s with nextBind := b + 1 }).setBind b x).paramRefs r.mc m.paramver.toNat true
    if t.shepDown.isSome then s.bindFails t r.mc false
    else
    let cores := (List.range m.stages.toNat).flatMap (fun st => (List.range m.cores.toNat).map (fun j => (st, j)))
    let t := t.takeSlots r.mc b (f 0 9) cores
    if t.shepDown.isSome then s.bindFails t r.mc true
    else
    let s := t
    -- the reservation names the binding from here on
    let s := { s with reserves := s.reserves.map (fun (q : Reserve) => if q.mc == r.mc then { q with rebind := some b } else q) }
    s.decideMc r.mc false

/-- The group of a binding is taken. -/
def State.hold (s : State) (b : Nat) (r : Reserve) : State :=
  let s := s.onBind b (fun x => { x with held := true, launching := false, pens := r.pens, clusters := r.clusters, npOver := false,
                                         boundat := s.rtc.toNat, sliceAt := s.rtc.toNat })
  let s := s.onMc r.mc (fun m => { m with boundat := s.rtc })
  let s := { s with reserves := s.reserves.filter (fun q => q.mc != r.mc) }
  s.setModes b

/-- The Shepherd's accesses before the continuations `ks` start at once: the STARTV records of their binding, and what each of them reads.
What `shepDown` says then is whether one has failed or waits (R203, R205). -/
def State.groupReach (s : State) (b : Nat) (ks : List Nat) : State :=
  let x := s.bindAt b
  let s := s.shepUp.shepReach x.mc .read x.startv 3 (8 * x.stages * x.cores)
  ks.foldl (fun s k => if s.shepDown.isSome then s else s.startReach k) s

/-- The request at RQHEAD is served by a binding (R133). -/
def State.requestTaken (s : State) (mc : Nat) : State :=
  s.onMc mc (fun m => {
    m with rqhead := m.rqhead + 1, streqs := if m.streqs = BitVec.allOnes 64 then m.streqs else m.streqs + 1 })

/-- Steps 5 and 6: the pen modes, and every core starts at once; then RQHEAD and STREQS rise. -/
def State.launch (s : State) (b : Nat) (r : Reserve) : State :=
  let ks := (s.conts.filter (fun e => e.1 / 4096 == r.mc && e.2.bind == b && e.2.spawning && e.2.lcore.isSome)).map (·.1)
  let s := s.groupReach b ks
  if s.shepDown.isSome then s.shepUp
  else
    let s := (s.hold b r).requestTaken r.mc
    let s := ks.foldl (fun s k =>
      let c := s.contAt k
      let s := s.onCont k (fun c => { c with spawning := false })
      s.startOn (groupCore r.pens c.stage (c.lcore.getD 0)) k) s
    s.decideMc r.mc false

/-- A binding whose records are written and that has not started loses its placement, by a write of HALTED or because a unit of it is fenced:
its continuations are RUNNABLE, its request is taken, and nothing ties it to a cluster (DESIGN CHOICE, log 94). -/
def State.unlaunch (s : State) (b : Nat) : State :=
  let x := s.bindAt b
  if !x.launching then s
  else
    let ks := (s.conts.filter (fun e => e.1 / 4096 == x.mc && e.2.bind == b && e.2.spawning)).map (·.1)
    let s := (s.onBind b (fun y => { y with launching := false, clusters := [] })).requestTaken x.mc
    ks.foldl (fun s k => (s.onCont k (fun c => { c with spawning := false })).makeRunnable k) s

/-- The reservations that name a unit end when it is fenced (R425, R470); the selections that made them are owed again (DEDUCED, log 81). -/
def State.unreserve (s : State) (hit : Reserve → Bool) : State :=
  let rs := s.reserves.filter hit
  let s := { s with reserves := s.reserves.filter (fun r => !hit r) }
  rs.foldl (fun s r => ((match r.rebind with | some b => s.unlaunch b | none => s).selectAt true)) s

/-- NEW_BINDING (R133): the oldest reservation for a request whose placement is free, or is being freed at once, gets its records;
with a free placement it is launched. -/
def execNewBinding (s : State) : Out :=
  .next (match s.reserves.find? (fun r => !s.noBinding && r.rebind.isNone && s.resFreezing r) with
    | none => s
    | some r =>
      if (s.mcAt r.mc).state == .halted || (s.mcAt r.mc).state == .free || (s.nextWork r.mc) != some none then
        { s with reserves := s.reserves.filter (fun q => q.mc != r.mc) }
      else
        let b := s.nextBind
        let free := s.resFree r
        let s := s.bindNew r
        if free && (s.bindAt b).live then s.launch b r else s)

/-- BINDING_LAUNCH_AFTER_FREEZE (R479): a binding whose records are written starts once the freeze has ended. -/
def execBindingLaunchAfterFreeze (s : State) : Out :=
  .next (match s.reserves.find? (fun r => match r.rebind with
      | some b => !s.noBinding && (s.bindAt b).launching && s.resFree r && (s.mcAt r.mc).state != .halted
      | none => false) with
    | none => s
    | some r => s.launch (r.rebind.getD 0) r)

/-! ## Rebindings -/

/-- The RUNNABLE continuations of a binding and stage, in the order in which they became RUNNABLE (R145). -/
def insOrder (x : Nat × Cont) : List (Nat × Cont) → List (Nat × Cont)
  | [] => [x]
  | y :: r => if x.2.order < y.2.order then x :: y :: r else y :: insOrder x r
def State.waitingConts (s : State) (b st : Nat) : List Nat :=
  ((s.conts.filter (fun e => e.1 / 4096 == (s.bindAt b).mc && e.2.bind == b && e.2.stage == st && e.2.state == .runnable)).foldl
    (fun l e => insOrder e l) []).map (·.1)

/-- The continuations that a rebinding starts first: those that ran when the binding was pre-empted, then the others (R133). -/
def State.rebindConts (s : State) (b st : Nat) : List Nat :=
  let l := s.waitingConts b st
  l.filter (fun k => (s.contAt k).preempted) ++ l.filter (fun k => !(s.contAt k).preempted)

/-- A frozen continuation of a binding has still carried accesses outstanding (R410). -/
def State.settles (s : State) (b : Nat) : Bool := s.conts.any (fun e => e.1 / 4096 == (s.bindAt b).mc && e.2.bind == b && e.2.settling)

/-- The continuations that a rebinding of `b` starts, each with its core. -/
def State.rebindCores (s : State) (b : Nat) (r : Reserve) : List (Nat × Nat) :=
  (List.range r.pens.length).flatMap (fun st =>
    ((s.rebindConts b st).take (s.bindAt b).cores).zipIdx.map (fun e => (groupCore r.pens st e.2, e.1)))

/-- REBINDING (R133): a frozen binding takes its placement once all its frozen continuations can run, and they start in one cycle on the cores
of their stages: the first on logical core 0, and so on (DESIGN CHOICE, log 117). -/
def execRebinding (s : State) : Out :=
  .next (match s.reserves.find? (fun r => match r.rebind with
      | some b => !s.noBinding && (s.bindAt b).live && !(s.bindAt b).launching && !(s.bindAt b).held && !s.settles b && s.resFree r
      | none => false) with
    | none => s
    | some r =>
      let b := r.rebind.getD 0
      if (s.mcAt r.mc).state == .halted then { s with reserves := s.reserves.filter (fun q => q.mc != r.mc) }
      else
        let l := s.rebindCores b r
        let s := s.groupReach b (l.map (·.2))
        if s.shepDown.isSome then s.shepUp
        else (l.foldl (fun s e => s.startOn e.1 e.2) (s.hold b r)).decideMc r.mc false)

/-! ## Taking a continuation (R145) -/

/-- The stage of an idle core in the binding that holds its pen. -/
def State.idlePlace (s : State) (c : Nat) : Option (Nat × Nat) :=
  match s.holderOf (penOfCore c) with
  | none => none
  | some b =>
    let x := s.bindAt b
    if x.pre then none
    else
      let n := x.cores
      match firstIdx (fun st => (List.range n).any (fun j => groupCore x.pens st j == c)) x.pens.length 0 with
      | some st => some (b, st)
      | none => none

/-- CONTINUATION_RESUME (R128, R145, R414): an idle core takes the first RUNNABLE continuation of its binding and stage. -/
def execContinuationResume (c : Nat) (s : State) : Out :=
  .next (if (s.coreAt c).running || s.noBinding then s
    else
      match s.idlePlace c with
      | none => s
      | some (b, st) =>
        match s.waitingConts b st with
        | [] => s
        | k :: _ => s.startOn c k)

/-! ## Handlers (R418) -/

/-- HANDLER_CREATION: the handler of the oldest program cause, in the lowest free frame slot; without one the cause is delivered as
a system cause (DEDUCED, log 75). While an access of the Shepherd for it waits, or has halted the micro-context, the handler is still to
be created (R203, R205). -/
def execHandlerCreation (s : State) : Out :=
  .next (match s.handlers with
    | [] => s
    | h :: r =>
      let later (s : State) : State := { s with handlers := r ++ [h] }
      let c := s.contAt (contKey h.mc h.fslot)
      match s.freeSlot h.mc with
      | none =>
        { s with handlers := r }.trapEvent h.mc h.fslot h.info h.resume { cause := h.info.toNat % 128, reason := 0, va := h.va }
      | some fs =>
        if (s.mcAt h.mc).state == .halted then later s
        else
        let s := (s.contReach h.mc fs).shepReach h.mc .read (s.frameVa h.mc h.fslot + 272) 2 16
        if s.shepDown.isSome then later s.shepUp
        else
        let s := { s with handlers := r }
        let s := (s.newCont h.mc c.bind fs c.stage (s.mcAt h.mc).handler.toNat h.fslot h.info.toNat (s.frameNum h.mc h.fslot 272 16)).shepUp
        let k := contKey h.mc fs
        (s.onCont k (fun y => { y with pts := c.pts, handlerInfo := h.info })).makeRunnable k)

/-! ## Slices (R141, R142) -/

/-- The reservation that waits for a binding, and its micro-context. -/
def State.wantedBy (s : State) (b : Nat) : Option Nat :=
  (s.reserves.find? (fun r => r.pens.any (fun l => l.any (fun p => s.holderOf p == some b)))).map (·.mc)

/-- SLICE_END (R138, R141): SLICE has passed since BOUNDAT or the last slice end: the cycles are charged; a binding that a
reservation waits for is pre-empted unless NP protects it; any other begins a new slice. -/
def execSliceEnd (b : Nat) (s : State) : Out :=
  let x := s.bindAt b
  let len := 1000 * s.slice.toNat
  .next (if !x.live || !x.held || x.pre || s.rtc.toNat < x.sliceAt + len then s
    else
      let s := ((s.charge b).onBind b (fun y => { y with sliceAt := s.rtc.toNat })).selectAt true
      if (s.wantedBy b).isSome && !s.npHeld b then s.preempt b else s)

/-- NP_EXPIRY (R142): NPMAX has passed since BOUNDAT: the binding is pre-emptible like any other (DEDUCED, log 79). -/
def execNpExpiry (b : Nat) (s : State) : Out :=
  let x := s.bindAt b
  .next (if !x.live || !x.held || s.rtc.toNat < x.boundat + 10000 * (s.mcAt x.mc).npmax.toNat then s
    else
      let s := s.onBind b (fun y => { y with npOver := true })
      match s.wantedBy b with
      | some y => if s.atOnce y b then s.preempt b else s
      | none => s)

end Sys2Proof.Machine
end

