-- ==== Sys2Proof/Machine/Checks.lean ====
section
/-!
DEFINITION. Check failures (spec/15_traps.md R422, R424 to R432; spec/10_fold.md R290; spec/17_bringup.md R470): rollback, contained and
fatal errors, and the fencing of units.
-/
namespace Sys2Proof.Machine
set_option Elab.async false
open Sys2Proof

/-! ## Rollback (R422, R424) -/

/-- Restores the old contents of tentative bytes, the latest write first. -/
def State.undoAll (s : State) : List Undo → State
  | [] => s
  | u :: r =>
    (match u.clus with
     | none => { s with mem := wrByte s.mem u.addr u.old }
     | some q =>
       let k := s.clusterAt q
       s.setCluster q { k with clus := wrByte k.clus u.addr u.old }).undoAll r

/-- The lender's side of a WAITF that a rollback takes back. -/
def State.unlend (s : State) (c : Nat) (st : Stall) : State :=
  match st with
  | .waitf _ _ (some sg) _ => s.endLoan (s.coreAt c).mc sg
  | _ => s

/-- The tile table of its cluster as it was at the last checkpoint of core `c` (R223): its TALLOCs and TFREEs since are undone. -/
def State.undoTiles (s : State) (c : Nat) : State :=
  let x := s.coreAt c
  let k := s.clusterAt (clusterOfCore c)
  s.setCluster (clusterOfCore c) { k with
    tt := x.tiles.foldl (fun m e => if e.2.live then SMap.set {} m e.1 e.2 else SMap.drop e.1 m) k.tt,
    zombies := k.zombies.filter (fun z => !x.tiles.any (·.1 == z.tti)) }

/-- A WAITF that was stalled at the checkpoint looks again at its counter (R482), and lends anew. -/
def Stall.rolled : Stall → Stall
  | .waitf _ _ _ Option.none => Stall.none
  | x => x

/-- The core takes the state of its last checkpoint: tentative lines are restored, counted operations issued since are discarded (DEDUCED, log 70). -/
def State.rollBack (s : State) (c : Nat) : State :=
  let x := s.coreAt c
  let s := ((s.undoAll x.undo).undoTiles c).l1Home c ((x.undo.filter (fun u => u.clus.isNone)).map (fun u => u.addr / 64))
  let s := ((s.opsOf x.mc x.fslot).filter (fun o => decide (x.savedOp ≤ o.id) && !o.carried)).foldl (fun s o =>
    (if o.kind == .waited then s.foldWithdraw o else s).dropOp o.id) s
  let s := s.onCoreAt c (fun y => { y with
    now := { y.saved with stall := y.saved.stall.rolled }, stop := none, undo := [], undoPriv := [], sinceCk := 0, commit := false, tiles := [], made := [],
    remake := y.made.reverse ++ y.remake,
    late := y.late.filter (fun l => decide (l.op < y.savedOp)) })
  s.unlend c x.now.stall

/-! ## Fenced units (R425, R470) -/

/-- A continuation that no core runs is trapped by MC_UNIT_FENCED. -/
def State.fencedCont (s : State) (k bank : Nat) : State :=
  let x := s.contAt k
  let (mc, fs) := (k / 4096, k % 4096)
  let t : Trap := { cause := 113, reason := 1, bank := some bank }
  let info := trapInfoOf fs 7 t
  let s := s.countTrap mc x.bind 113
  let s := (s.onCont k (fun y => { y with trapinfo := info, lent := none })).setContState k .trapped
  let s := match x.lent with
    | some sg => s.endLoan mc sg
    | none => s
  s.deliver k (s.frameNum mc fs 0 4) info t

/-- A continuation that held CLUS tiles on a fenced cluster becomes TRAPPED: at its next boundary when a core runs it. -/
def State.fencedTile (s : State) (k bank : Nat) : State :=
  let x := s.contAt k
  let l : Late := { op := s.nextOp, issued := s.rtc.toNat, slot := 7, cause := 113, reason := 1, bank := some bank }
  if x.state == .free || x.state == .trapped then s
  else
    match s.cores.find? (fun e => e.2.running && contKey e.2.mc e.2.fslot == k) with
    | some e => ({ s with nextOp := s.nextOp + 1 }).onCoreAt e.1 (fun y => { y with late := y.late ++ [l] })
    | none =>
      if x.settling then ({ s with nextOp := s.nextOp + 1 }).onCont k (fun y => { y with late := y.late ++ [l] })
      else s.fencedCont k bank

/-- The keys of the continuations with CLUS tiles on a cluster. -/
def State.tileOwners (s : State) (q : Nat) : List Nat :=
  (((s.clusterAt q).tt.filter (fun e => e.2.live)).map (fun e => contKey e.2.mc e.2.fslot)).eraseDups

/-- UNIT_FENCE: pen or cluster `i` leaves the unit map. Every binding on it but `own` is frozen; on a cluster `own` is frozen too,
and the continuations with CLUS tiles there become TRAPPED (DEDUCED, log 106). -/
def State.fenceUnit (s : State) (cl : Bool) (i bank : Nat) (own : Option Nat) : State :=
  let u := s.units
  if !(if cl then u.clusters.getLsbD i else u.pens.getLsbD i) then s
  else
    let u' : Units := if cl then { u with clusters := u.clusters &&& ~~~(1#48 <<< i) } else { u with pens := u.pens &&& ~~~(1#192 <<< i) }
    let s := { s with units := u', mapver := s.mapver + 1 }
    let s := s.unreserve (fun r => if cl then r.clusters.contains i else r.pens.any (·.contains i))
    let hit (x : Binding) : Bool := if cl then x.clusters.contains i else x.pens.any (·.contains i)
    let s := (s.binds.filter (fun e => hit e.2 && (cl || own != some e.1))).foldl (fun s e => s.freezeBinding e.1) s
    if cl then (s.tileOwners i).foldl (fun s k => s.fencedTile k bank) s else s

/-! ## ROLLBACK -/

/-- A second failure before the first one's landing cycle has passed (R425): the continuation traps in the state of its checkpoint
and its pen is fenced. -/
def State.containedCore (s : State) (c source : Nat) : State :=
  let x := s.coreAt c
  let b := bankOf source (dieOfCore c)
  let s := (s.rollBack c).coreError c source 2 x.mc
  let s := s.onCoreAt c (fun y => { y with retry := none, retrySrc := 0 })
  let s := s.takeTrap c 7 { cause := 112, reason := 1, bank := some b }
  s.fenceUnit false (penOfCore c) b (some x.bind)

/-- What a parity failure takes away besides its record (R207, R427): a line of the L1, fetched again by the next load of it; an entry of the
core's translation buffer or of its cluster's cache, walked again. Which of them has failed is a free choice (DESIGN CHOICE, log 3). -/
def State.dropFailed (s : State) (c source : Nat) : State :=
  let (n, s) := s.fresh
  if source = 4 then s.onCoreAt c (fun x => { x with l1 := x.l1.eraseIdx (Config.pick n % max x.l1.length 1) })
  else if source = 5 then
    let es := s.tlb.filter (fun e => e.op == 0 && e.cl == clusterOfCore c && (e.core == none || e.core == some c))
    match es[Config.pick n % max es.length 1]? with
    | some e => { s with tlb := s.tlb.filter (· != e) }
    | none => s
  else s

/-- ROLLBACK (R424, R427): a check failure of core `c`. A source that is corrected without a rollback is recorded; the others
roll the core back, which re-executes once; a second failure is contained. -/
def execRollback (c source : Nat) (s : State) : Out :=
  let x := s.coreAt c
  .next (if !rollsBack source then (s.dropFailed c source).coreError c source 1 x.mc
    else if !x.running then s
    else if x.retry.isSome then s.containedCore c source
    else (s.rollBack c).onCoreAt c (fun y => { y with retry := some (x.cyc + x.sinceCk), retrySrc := source }))

/-! ## CONTAINED_ERROR -/

/-- The group that holds a member, with its pen. -/
def State.groupHolding (s : State) (p : FGroup → Bool) : Option (Nat × FGroup) :=
  s.pens.findSome? (fun e => (e.2.groups.find? p).map (fun g => (e.1, g)))

/-- A pass of a Fold group that fails again (R290): no member lands, every member's core takes the cause, the host pen is fenced. -/
def State.foldContained (s : State) (pen : Nat) (g : FGroup) : State :=
  let b := bankOf 7 (pen / 48)
  let os := s.memberOps g
  let (n, s) := s.fresh
  let s := (s.dropGroup pen g.id).mcRecord { bank := b, sev := 2, kind := errorKind 7 2 (Config.pick n), unit := pen, source := 7 }
  let s := os.foldl (fun s o => s.lateOp o { cause := 112, reason := 2, bank := some b }) s
  s.fenceUnit false pen b none

/-- A FINC, which is not counted, takes a late fault: its record has FAULTED set and re-issues it (R417). On its core the Shepherd keeps it beside
the record, and one that its core has left behind traps the continuation as a carried access does (DESIGN CHOICE, log 13). -/
def State.fincFault (s : State) (o : Op) (t : Trap) : State :=
  let k := contKey o.mc o.fslot
  if s.onItsCore o then
    ((s.dropOp o.id).onCont k (fun y => { y with ops := y.ops ++ [o] })).lateWork o.core o.id o.rtc o.slot t (s.recOp o true)
  else
    let st := (s.contAt k).state
    ((s.lateOp { o with carried := true } t).onCont k (fun y => { y with
      settling := y.settling || st == .runnable || st == .waiting })).carriedDone k

/-- A cause that a cluster engine or a home slice raises for an operation: a Q command keeps its partial and gives its blocks back (R389, R405). -/
def State.opLate (s : State) (o : Op) (t : Trap) : State :=
  if o.ctr.isNone then (if o.kind == .finc then s.fincFault o t else s)
  else if o.kind == .seq then
    match o.instr with
    | .sqatt .. => (s.attSave o).lateOp { o with got := [] } t
    | _ => s.blkFault o t
  else s.lateOp o t

/-- The work of a home-slice ALU, a walker or an engine fails twice (R429): the issuing core takes the cause, the operation has no
effect, the cluster of core `c` is fenced. For a walker the spec numbers no reason (DESIGN CHOICE, log 3). -/
def State.opContained (s : State) (c source : Nat) (o : Op) : State :=
  let b := bankOf source (dieOfCore c)
  let (n, s) := s.fresh
  let r := if source = 12 then 3 else if source = 6 then Config.freeBits n % 16 else 4
  let s := s.coreError c source 2 o.mc
  (s.opLate o { cause := 112, reason := r, bank := some b }).fenceUnit true (clusterOfCore c) b (some o.bind)

/-- An uncorrectable word in memory (R427, R428): the unit is poisoned, and so is a block that holds it (R397, R406). -/
def State.memoryError (s : State) (source unit : Nat) : State :=
  ({ s with poison := if s.poison.contains unit then s.poison else unit :: s.poison }.poisonBlocks unit).mcRecord {
    bank := bankOf source (ownerDie (64 * unit)), sev := 2, kind := 4,
    unit := if source = 16 then unit / 1024 % 12 else ownerDie (64 * unit), source := source, addr := some (BitVec.ofNat 64 (64 * unit)) }

/-- The same in the line of an L2 slice that caches memory (R427): its reads raise reason 2. -/
def State.lineError (s : State) (unit : Nat) : State :=
  let q := lineHome unit
  ({ s with poisonL2 := if s.poisonL2.contains unit then s.poisonL2 else unit :: s.poisonL2 }.poisonBlocks unit).mcRecord {
    bank := bankOf 11 (q / 12), sev := 2, kind := 4, unit := 16 * q + unit % 16, source := 11, addr := some (BitVec.ofNat 64 (64 * unit)) }

/-- Adds a unit to a list. -/
def addUnit (l : List Nat) (a : Nat) : List Nat := if l.contains (a / 64) then l else (a / 64) :: l

/-- The same in an accumulator, in PRIV, or in the tile-handle region of an L2 slice. A core that runs no continuation has no operand there. -/
def State.storeError (s : State) (c source op : Nat) : State :=
  let x := s.coreAt c
  let place := if source = 11 then 16 * clusterOfCore c + op / 2 ^ 19 % 16 else c
  let s := s.mcRecord { bank := bankOf source (dieOfCore c), sev := 2, kind := 4, unit := errorUnit source place, source := source,
                        addr := if source = 11 then none else some (BitVec.ofNat 64 ((if source = 8 then 3 else 1) * 2 ^ 62 + op % 2 ^ 62)),
                        mctx := s.errorMc c source x.mc }
  if source = 8 then (if x.running then s.onArchAt c (fun a => { a with badAcc := addUnit a.badAcc op }) else s)
  else if source = 10 then (if x.running then s.onArchAt c (fun a => { a with badPriv := addUnit a.badPriv op }) else s)
  else
    let q := clusterOfCore c
    s.setCluster q { s.clusterAt q with bad := addUnit (s.clusterAt q).bad op }

/-- CONTAINED_ERROR (R425, R428, R429): `source` says what failed; `op` is the operation concerned, the 64-byte unit for memory, or
the byte offset for PRIV, an accumulator or the tile-handle region, from 2^23 on the unit of a memory line in an L2 slice; the unit is poisoned until
a write covers it whole, and a syllable that reads it takes DATA_POISON (R428; DEDUCED, log 105). -/
def execContainedError (c source op : Nat) (s : State) : Out :=
  let x := s.coreAt c
  .next (
    if source = 15 || source = 16 then s.memoryError source op
    else if source = 11 && decide (2 ^ 23 ≤ op) then s.lineError (op - 2 ^ 23)
    else if source = 8 || source = 10 || source = 11 then s.storeError c source op
    else if source = 6 || source = 12 || source = 13 || source = 14 then
      (match s.opAt op with
       | some o => if o.faulted then s else s.opContained c source o
       | none => s)
    else if rollsBack source && x.running && x.retry.isSome then s.containedCore c source
    else if source = 7 then
      (match s.groupHolding (fun g => g.started.isSome && g.retried && g.members.any (·.op == op)) with
       | some (p, g) => s.foldContained p g
       | none => s)
    else s)

/-- FATAL_ERROR (R426): the record of a fatal error, and the fatal state, in which no core issues (R476). -/
def execFatalError (bank source unit : Nat) (s : State) : Out :=
  let (n, t) := s.fresh
  .next { t.mcRecord { bank := bank % 40, sev := 3, kind := errorKind source 3 (Config.pick n), unit := unit, source := source } with
    phase := .fatal }

/-- FOLD_PASS_RETRY (R290): the pass of a group that fails runs once more; a group that has failed before is contained. -/
def execFoldPassRetry (gid : Nat) (s : State) : Out :=
  .next (match s.groupHolding (fun g => g.id == gid && g.started.isSome) with
    | none => s
    | some (p, g) => match s.foldRetry p g with
      | some t => t
      | none => s.foldContained p g)

end Sys2Proof.Machine
end

