-- ==== Sys2Proof/Permutations.lean ====
section
/-!
DEFINITION. Free values that are permutations: the cipher of memory with its keys (spec/01_machine.md R17), and the order of the polling
slots (spec/16_host.md R444).
-/
namespace Sys2Proof
set_option Elab.async false

/-- The key under which a byte of memory is encrypted (R17): none, a partition's, the device's. -/
inductive MemKey where
  | none
  | part (k : BitVec 256)
  | device
deriving DecidableEq, Repr
/-- What 16 bytes of memory become as they are encrypted under a key (R17), by their place: a permutation. AES-256-XTS needs a second key
and the layout of the tweak, which the spec does not give (DESIGN CHOICE, log 124). -/
opaque Config.memCipher : MemKey → Nat → Equiv.Perm (BitVec 128)
/-- The place of a polling slot (R444): that of slot `i` is 128 times its Sheepdog core plus its place in the core's order, which is fixed
when the firmware is built (DESIGN CHOICE, log 156). -/
opaque Config.slotOrder : Equiv.Perm (Fin 512)

end Sys2Proof
end

