-- ==== Sys2Proof/Machine/Segments.lean ====
section
/-!
DEFINITION. Shared segments and the Carder (spec/12_movement_class.md R323 to R328, spec/13_memory_model.md R369, spec/19_programs_models.md
R480).
-/
namespace Sys2Proof.Machine
set_option Elab.async false
open Sys2Proof

def State.segAt (s : State) (n : Nat) : Seg := SMap.get {} s.segs n
def State.setSeg (s : State) (n : Nat) (x : Seg) : State := { s with segs := SMap.set {} s.segs n x }

/-! ## The manifest (R323) -/

/-- The page hashes start here. -/
def phashAt (pages : Nat) : Nat := 64 * ceilDiv (64 + 4 * pages) 64

/-- Each index below `n` exactly once. -/
def isOrder (l : List Nat) (n : Nat) : Bool := l.length == n && l.all (fun i => decide (i < n)) && l.Nodup

/-- The manifest's fields, when they keep the table of R323: pages, size, preferred kind, order, page hashes. -/
def manifestOf (bs : List Byte) : Option (Nat × Nat × Nat × List Nat × List Nat) :=
  let f (o n : Nat) : Nat := ofBytes (cutBytes bs o n)
  let pages := f 4 4
  let size := f 8 8
  if f 0 4 != 0x4D474553 || pages < 1 || pages > 2 ^ 24 || bs.length != phashAt pages + 64 * pages
      || size ≤ 65536 * (pages - 1) || size > 65536 * pages || f 16 1 > 1 || f 17 47 != 0 then none
  else
    let order := (List.range pages).map (fun i => f (64 + 4 * i) 4)
    if !isOrder order pages then none
    else some (pages, size, f 16 1, order, (List.range pages).map (fun i => f (phashAt pages + 64 * i) 64))

/-- The segment becomes FAILED (R325): FERR code 6 in the PF and in each granted function (R461). -/
def State.segFail (s : State) (n : Nat) : State :=
  let s := s.setSeg n { s.segAt n with state := 3 }
  ((List.range 64).filter (fun p => p == 0 || (s.partAt p).grants.getLsbD n)).foldl (fun s p => s.setFerr p 6 n) s

/-- The page that the Carder requests next (R325): pages that have been asked for, the oldest request first, then ORDER. -/
def Seg.nextPage (g : Seg) : Option Nat :=
  (g.asked ++ g.order).find? (fun p => decide (p < g.pages) && !g.present.contains p && !g.flight.contains p)

/-- The next requests of the Carder. -/
def Seg.request (g : Seg) : Nat → Seg
  | 0 => g
  | k + 1 => match g.nextPage with
    | some p => Seg.request { g with flight := g.flight ++ [p] } k
    | none => g

/-- The Carder requests pages: one at least while none is in flight; how many it has in flight is its choice (DESIGN CHOICE, log 99). -/
def State.carderAsk (s : State) (n : Nat) : State :=
  let (k, s) := s.fresh
  let g := s.segAt n
  if g.state != 1 then s
  else s.setSeg n (g.request (max (if g.flight.isEmpty then 1 else 0) (Config.freeBits k % (g.pages + 1))))

/-- MANIFEST_READ (R325): the manifest of a FILLING segment has been read. -/
def execManifestRead (n : Nat) (bytes : List Byte) (s : State) : Out :=
  let g := s.segAt n
  .next (if g.state != 1 || g.manifest || s.quiesced then s
    else if sha512Num bytes != g.hash then s.segFail n
    else match manifestOf bytes with
      | none => s.segFail n
      | some (pages, size, place, order, phash) =>
        (s.setSeg n { g with manifest := true, pages := pages, size := size, place := place, order := order, phash := phash }).carderAsk n)

/-! ## Frames and entries (R325, R326, R480) -/

/-- The frames that segments hold. -/
def State.segFrames (s : State) : List Nat := s.segs.flatMap (fun e => e.2.frames.map (fun f => f.2 - 1))

/-- A frame that a segment may take: no other segment's, on a present stack (R471), outside every partition's private range. -/
def State.frameFree (s : State) (f : Nat) : Bool :=
  !s.segFrames.contains f && !s.stackFenced (65536 * f)
    && !s.parts.any (fun e => e.2.active && decide (e.2.privBase.toNat < 65536 * f + 65536) && decide (65536 * f < e.2.privBound.toNat))

/-- A frame of a kind, which of them is the Carder's choice (DESIGN CHOICE, log 3). -/
def State.newFrame (s : State) (kind : Nat) : Option Nat × State :=
  let (n, s) := s.fresh
  let lo := if kind = 0 then 0 else hbmTop / 65536
  let cnt := (if kind = 0 then hbmTop else stackTop - hbmTop) / 65536
  let at' := Config.freeBits n % cnt
  (((List.range 4096).map (fun i => lo + (at' + i) % cnt)).find? s.frameFree, s)

/-- FRAME, KIND and P of an entry for frame `f` (R198, R320). -/
def frameBits (tile : Bool) (f : Nat) : Nat :=
  1 + f * 65536 + (if hbmTop ≤ 65536 * f then (if tile then 16 else 64) else 0)

/-- A fresh entry of a page (R480): SEG, SH, R, and the frame of a page that is present. -/
def segEntry (seg : Nat) (tile : Bool) (f : Option Nat) : Nat :=
  seg * 2 ^ 52 + 2 + (if tile then 8 else 256) + (match f with | some x => frameBits tile x | none => 0)

/-- The frame of a present page. -/
def Seg.frameOf (g : Seg) (page : Nat) : Option Nat :=
  if g.present.contains page then some (SMap.get 1 g.frames page - 1) else none

/-- SET_PRESENT (R326): an atomic OR at the home slice of every registered entry of the page. -/
def State.setPresent (s : State) (f : Nat) : List SegReg → State
  | [] => s
  | r :: l => ((s.wrMem 0 r.addr (toBytes 8 (rdNum s.mem r.addr 8 ||| frameBits r.tile f))).2).setPresent f l

/-- The bytes of a page as they are hashed: zero after SIZE. -/
def Seg.pageData (g : Seg) (page : Nat) (data : List Byte) : List Byte :=
  let n := min 65536 (g.size - 65536 * page)
  let d := (data ++ List.replicate n 0).take n
  d ++ List.replicate (65536 - n) 0

/-- A page that matches its hash: it is written, then made present; with the last page the segment is READY. -/
def State.pageIn (s : State) (n page : Nat) (d : List Byte) : State :=
  match s.newFrame (s.segAt n).place with
  | (none, s) => s
  | (some f, s) =>
    let g := s.segAt n
    let s := (s.wrMem 0 (65536 * f) d).2
    let pr := page :: g.present
    let s := s.setSeg n { g with frames := SMap.set 0 g.frames page (f + 1), present := pr, asked := g.asked.filter (· != page),
                                 flight := g.flight.filter (· != page), again := g.again.filter (· != page), state := if pr.length = g.pages then 2 else 1 }
    s.setPresent f (g.regs.filter (·.page == page))

/-- CARDER_PAGE_ARRIVAL (R325): a page is compared with its hash; one that fails is read once more, and a second failure makes the
segment FAILED. Any of the pages in flight may be the next to arrive. Tentative entries of the page are committed first (R371). -/
def execCarderPageArrival (n page : Nat) (data : List Byte) (s : State) : Out :=
  let g := s.segAt n
  .next (if g.state != 1 || !g.manifest || decide (g.pages ≤ page) || g.present.contains page || !g.flight.contains page || s.quiesced then s
    else
      let d := g.pageData page data
      if (sha512Num d).toNat = g.phash.getD page 0 then
        ((s.commitAll ((g.regs.filter (·.page == page)).map (fun r => (r.addr, 8)))).pageIn n page d).carderAsk n
      else if g.again.contains page then s.segFail n
      else s.setSeg n { g with again := page :: g.again })

/-! ## Segment stalls (R327, R460) -/

/-- SEG_WAIT_EXPIRY: an access that has stalled on an absent page for SEGWAIT raises SEG_WAIT as a late fault. -/
def execSegWaitExpiry (id : Nat) (s : State) : Out :=
  .next (match s.opAt id with
    | some o =>
      match o.wait with
      | some w =>
        if o.st.headD 0 = 2 && !o.faulted && decide (w + 1000 * s.segwait.toNat ≤ s.rtc.toNat)
        then s.lateOp { o with wait := none } (xlTrap 39 1 (o.st.getD 3 0)) else s
      | none => s
    | none => s)

/-! ## Installing and releasing (R324, R328) -/

/-- GRANT bit of a partition. -/
def State.grant (s : State) (p n : Nat) (on : Bool) : State :=
  s.onPart p (fun x => { x with grants := if on then x.grants ||| (1#4096 <<< n) else x.grants &&& ~~~(1#4096 <<< n) })

/-- An install of hash `h`: the segment number; `none` when no entry is FREE. Its partition is active (R118). -/
def State.segInstall (s : State) (p src : Nat) (h : BitVec 512) : Option Nat × State :=
  match (List.range 4096).find? (fun n => ((s.segAt n).state == 1 || (s.segAt n).state == 2) && (s.segAt n).hash == h) with
  | some n => (some n, (s.setSeg n { s.segAt n with refs := (s.segAt n).refs + 1 }).grant p n true)
  | none =>
    match (List.range 4096).find? (fun n => (s.segAt n).state == 0) with
    | some n =>
      (some n, (s.setSeg n { state := 1, hash := h, gen := (s.segAt n).gen + 1, refs := 1, src := src, part := p }).grant p n true)
    | none => (none, s)

/-- Drops the cached leaves and tile-table entries of segment `n`; `mine` says whose (R328). -/
def State.dropSegTlb (s : State) (n : Nat) (mine : Nat → Bool) : State :=
  { s with tlb := s.tlb.filter (fun e => !(e.shared && bitsOf e.leaf 52 12 == n && mine e.mc)) }

/-- Zeros the registered entries of a partition; tentative ones are committed first (R371). -/
def State.zeroRegs (s : State) : List SegReg → State
  | [] => s
  | r :: l => (((s.commitLines none r.addr 8).wrMem 0 r.addr (toBytes 8 0)).2).zeroRegs l

/-- SEGREL of segment `n` for partition `p`; `none` when it is refused: an absent partition holds nothing (R118). -/
def State.segRelease (s : State) (p n : Nat) : Option State :=
  let g := s.segAt n
  if g.state = 0 || g.state = 4 || !(s.partAt p).active || !(s.partAt p).grants.getLsbD n then none
  else
    let s := s.grant p n false
    let s := s.zeroRegs (g.regs.filter (·.part == p))
    let s := s.setSeg n { g with refs := g.refs - 1, regs := g.regs.filter (·.part != p), state := if g.refs ≤ 1 then 4 else g.state }
    some (s.dropSegTlb n (fun mc => (s.mcAt mc).part.toNat == p))

/-- The lines that stationaries pin in the cache ways of any cluster (R259, R283). -/
def State.allPinned (s : State) : List Nat := s.pinnedLines

/-! ## Keys (R17) -/

/-- The key under which a byte is encrypted. -/
def State.memKey (s : State) (a : Nat) : MemKey :=
  if s.segFrames.contains (a / 65536) then .device
  else match s.parts.find? (fun e => e.2.active && decide (e.2.privBase.toNat ≤ a) && decide (a < e.2.privBound.toNat)) with
    | some e => .part e.2.key
    | none => .none

/-- The cipher of a block of 16 bytes under the key that it has: none outside every private range and every segment. -/
def State.cipher (s : State) (a : Nat) : Equiv.Perm (BitVec 128) :=
  match s.memKey a with
  | .none => 1
  | k => Config.memCipher k (a / 16)

/-- What the block of 16 bytes at `a` reads as after the keys of `s` have become those of `t` (R17): its ciphertext stays, and is decrypted
under the key that it has now. -/
def State.reread (s t : State) (a : Nat) : List Byte :=
  if s.memKey a = t.memKey a then rdBytes t.mem a 16
  else toBytes 16 ((t.cipher a).symm (s.cipher a (BitVec.ofNat 128 (rdNum t.mem a 16)))).toNat

/-- The memory of `t` from `lo` on, as it reads after the keys of `s` have become those of `t`, but for the blocks that `out` names. -/
def State.rekey (s t : State) (lo n : Nat) (out : Nat → Bool) : State :=
  let lo := lo / 16 * 16
  { t with mem := wrBytes t.mem lo ((List.range ((n + 15) / 16)).flatMap (fun i =>
      if out (lo + 16 * i) then rdBytes t.mem (lo + 16 * i) 16 else s.reread t (lo + 16 * i))) }

/-- The private range of a partition, empty while it is absent. -/
def Part.privRange (p : Part) : Nat × Nat := (p.privBase.toNat, if p.active then p.privBound.toNat - p.privBase.toNat else 0)

/-- A partition record is written: what its private pages held is read under the key that it has now, and what its private pages hold
now was written under the key that it had (R17). -/
def State.rekeyPart (s t : State) (p : Nat) : State :=
  let x := s.partAt p
  let y := t.partAt p
  if x.privRange = y.privRange ∧ x.key = y.key then t
  else
    let (a, n) := x.privRange
    let (b, m) := y.privRange
    s.rekey (s.rekey t a n (fun _ => false)) b m (fun c => decide (a / 16 * 16 ≤ c ∧ c < a / 16 * 16 + 16 * ((n + 15) / 16)))

/-- SEGMENT_DRAIN (R328): a DRAINING segment drops its cached translations; once no pin on its lines is left, its frames are freed
and its entry is FREE. -/
def execSegmentDrain (n : Nat) (s : State) : Out :=
  let g := s.segAt n
  .next (if g.state != 4 then s
    else
      let s := s.dropSegTlb n (fun _ => true)
      if s.allPinned.any (fun l => g.frames.any (fun f => l / 1024 == f.2 - 1)) then s
      else g.frames.foldl (fun t f => s.rekey t (65536 * (f.2 - 1)) 65536 (fun _ => false)) (s.setSeg n { gen := g.gen }))

/-! ## Mapping (R480) -/

/-- Writes and registers the entries from physical address `base` on for pages `first` on; tentative bytes there are committed first
(R371). -/
def State.segMap (s : State) (p n base : Nat) (tile : Bool) : Nat → Nat → State
  | _, 0 => s
  | page, k + 1 =>
    let g := s.segAt n
    let s := ((s.commitLines none base 8).wrMem 0 base (toBytes 8 (segEntry n tile (g.frameOf page)))).2
    let s := s.setSeg n { g with regs := ⟨base, page, p, tile⟩ :: g.regs.filter (·.addr != base) }
    s.segMap p n (base + 8) tile (page + 1) k

end Sys2Proof.Machine
end

