-- ==== Sys2Proof/Machine/HostQueue.lean ====
section
/-!
DEFINITION. Host queues and rings (spec/16_host.md R440 to R448, R457): descriptors, notifies, polling slots and host packets.
-/
namespace Sys2Proof.Machine
set_option Elab.async false
open Sys2Proof

/-! ## Queues (R440, R441) -/

def State.queueAt (s : State) (fn q : Nat) : HQueue := SMap.get {} (s.funcAt fn).queues q
def State.setQueue (s : State) (fn q : Nat) (x : HQueue) : State :=
  s.onFunc fn (fun f => { f with queues := SMap.set {} f.queues q x })
def State.onQueue (s : State) (fn q : Nat) (g : HQueue → HQueue) : State := s.setQueue fn q (g (s.queueAt fn q))

/-- The descriptor of a queue, when its checks pass (R440). -/
def queueOf (fn : Nat) (bs : List Byte) : Option HQueue :=
  let f (o n : Nat) : Nat := ofBytes (cutBytes bs o n)
  if f 8 1 < 4 || f 8 1 > 16 || f 0 8 % 64 != 0 || f 9 1 > 3 || f 10 2 > 1023 || f 12 4 ≥ 2 ^ 20 || f 20 44 != 0
      || (fn == 0 && f 9 1 < 2) then none
  else some { en := true, ring := f 0 8, log := f 8 1, strict := f 9 1 % 2 = 1, pv := decide (2 ≤ f 9 1), cring := f 10 2,
              pasid := BitVec.ofNat 20 (f 12 4), head := BitVec.ofNat 32 (f 16 4) }

/-- A queue that fetches nothing any more; a packet that waits is let go with it (DEDUCED, log 89). -/
def HQueue.off (x : HQueue) : HQueue := { x with en := false, waits := none, passed := none, held := [], sleep := none }

/-- QUEUE_ENABLE: the device reads and checks the descriptor; the doorbell and the pending bit stay (DEDUCED, log 89). -/
def execQueueEnable (fn q : Nat) (s : State) : Out :=
  let f := s.funcAt fn
  let x := s.queueAt fn q
  let bad (s : State) : State := (s.setQueue fn q x.off).setFerr fn 3 q
  .next (if f.qtn.toNat ≤ q then bad s
    else
      match s.hostGet fn none (f.qtbase.toNat + 64 * q) 64 with
      | (none, s) => bad s
      | (some bs, s) =>
        match queueOf fn bs with
        | some y => s.setQueue fn q { y with bell := x.bell, pend := x.pend }
        | none => bad s)

/-- QUEUE_DISABLE: no packet is fetched from here on. -/
def execQueueDisable (fn q : Nat) (s : State) : Out := .next (s.onQueue fn q HQueue.off)

/-- Packets to fetch: up to the doorbell's TAIL; none where TAIL does not lie within the ring (DEDUCED, log 90). -/
def HQueue.avail (x : HQueue) : Nat :=
  let n := (x.bell - x.head).toNat
  if !x.en || 2 ^ x.log < n then 0 else n

/-! ## Polling slots (R444, R445) -/

def State.slotAt (s : State) (i : Nat) : Option PSlot := SMap.get none s.slots i
/-- The slot of a queue. -/
def State.slotOf (s : State) (fn q : Nat) : Option Nat :=
  (s.slots.find? (fun e => match e.2 with | some p => p.fn == fn && p.queue == q | none => false)).map (·.1)
/-- A mapping counts as NP. -/
def State.slotNp (s : State) (p : PSlot) : Bool := p.np && decide (s.rtc.toNat < p.since + 10000 * p.npqmax)
def State.allNp (s : State) : Bool :=
  (List.range 512).all (fun i => match s.slotAt i with | some p => s.slotNp p | none => false)

/-- NOTIFY_DEFERRED (R445): a pending queue finds every slot NP. -/
def State.notifyDeferred (s : State) (fn q : Nat) : State :=
  let f := s.funcAt fn
  if !s.allNp || !f.evEn then s
  else s.postRecord fn f.evRing.toNat false 13 (eventBytes s.rtc.toNat 3 0 0 fn 0xFFFF q 0)

/-- Sets the pending bit of a queue with no slot. -/
def State.setPending (s : State) (fn q : Nat) : State :=
  if (s.slotOf fn q).isSome || (s.queueAt fn q).pend.isSome then s
  else (({ s with nextPend := s.nextPend + 1 }).onQueue fn q (fun x => { x with pend := some s.nextPend })).notifyDeferred fn q

/-- NOTIFY (R441, R457): a write of 4 bytes to a doorbell. One that comes while a function-level reset is under way leaves no trace
(R459). -/
def execNotify (fn q : Nat) (tail : Word32) (relaxed : Bool) (s : State) : Out :=
  let x := s.queueAt fn q
  .next (if (s.funcAt fn).resetting then s
    else if !x.en || (s.funcAt fn).qtn.toNat ≤ q then s.setFerr fn 2 q
    else if relaxed && x.strict then s.setFerr fn 1 q
    else if 2 ^ x.log < (tail - x.head).toNat then (s.setQueue fn q x.off).setFerr fn 3 q
    else (s.setQueue fn q { x with bell := tail }).setPending fn q)

/-! ## A host packet (R442, R443) -/

structure HPacket where
  func : BitVec 32
  flags : Nat
  wfence : Nat
  rid : Nat
  payload : Nat
  len : Nat
  wtarget : Word32
  sfence : Nat
  reply : Nat
  rmax : Nat
  /-- a reserved bit is set -/
  bad : Bool
deriving DecidableEq, Repr

def hpacketOf (bs : List Byte) : HPacket :=
  let f (o n : Nat) : Nat := ofBytes (cutBytes bs o n)
  { func := BitVec.ofNat 32 (f 0 4), flags := f 4 2, wfence := f 6 2, rid := f 8 8, payload := f 16 8, len := f 24 4,
    wtarget := BitVec.ofNat 32 (f 28 4), sfence := f 32 2, reply := f 40 8, rmax := f 48 4,
    bad := decide (f 4 2 ≥ 8) || f 34 6 != 0 || f 52 12 != 0 }

/-- The counter is allocated to a partition (R163), which is there (R118). -/
def State.fenceOwned (s : State) (fn n : Nat) : Bool :=
  (s.partAt fn).active && (s.fenceAt n).alloc && (s.fenceAt n).owner.toNat == fn

/-- What becomes of a packet: consumed, or the queue waits at it, with the fence that it waits on. -/
inductive PacketEnd where
  | consumed
  | waits (fence : Option (Nat × Word32))
deriving DecidableEq, Repr

/-- A Sheepdog access for queue `q` that has to wait: on a migrating page it sleeps until a shootdown wakes it (R205), for an absent segment
page it asks the Carder; whether its stall has passed the segment wait limit (R327). -/
def State.dogWait (s : State) (fn q mc : Nat) (w : List Nat) : Bool × State :=
  match w with
  | [1, vpn] => (false, (s.nap mc vpn).onQueue fn q (fun x => { x with sleep := some (mc, vpn) }))
  | [2, sg, e, va] => s.segNap mc (va / 65536) sg e
  | _ => (false, s)
/-- An access for the packet at HEAD sleeps. -/
def State.dogAsleep (s : State) (fn q : Nat) : Bool := (s.queueAt fn q).sleep.any (fun e => s.naps.contains e)

/-- How a packet ends for which an access faults (R483), or waits. -/
def State.dogStop {α : Type} (s : State) (fn q mc : Nat) (g : Got α) (fail : State → PacketEnd × State) : PacketEnd × State :=
  match g with
  | .wait w =>
    let (late, s) := s.dogWait fn q mc w
    if late then fail s else (.waits none, s)
  | _ => fail s

/-- What the device keeps of the packet at HEAD of queue `q` (R443, R450). -/
def State.hostReqOf (s : State) (fn q : Nat) (p : HPacket) : HostReq :=
  { queue := q, qseq := (s.queueAt fn q).head.toNat, reply := p.reply, rmax := p.rmax % 2 ^ 24,
    sf := p.flags.testBit 1 && s.fenceOwned fn p.sfence, sfence := p.sfence, nocomp := p.flags.testBit 2 }

/-- Writes the buffer and the request entry of a packet that is accepted (R124, R341); a fault ends it with FETCH_FAULT (R483) (DEDUCED, log 55). -/
def State.hostAppend (s : State) (fn q mc buf : Nat) (p : HPacket) (h : HostReq) : PacketEnd × State :=
  let src := 0x8000 + q
  let fail (s : State) : PacketEnd × State :=
    (.consumed, (s.giveBuf mc buf).complete fn mc (some h) p.rid 0 src 4 0 0 0)
  let stop {α : Type} (s : State) (g : Got α) : PacketEnd × State :=
    match s.dogStop fn q mc g fail with
    | (.waits f, s) => (.waits f, s.giveBuf mc buf)
    | x => x
  match s.hostGet fn (s.queueAt fn q).pas p.payload p.len with
  | (none, s) => fail s
  | (some bs, s) =>
    match s.netWrite mc 0 0 buf (bufMeta 0 0 0 0 255 0 0 p.rid p.len ++ bs) with
    | (.ok t, s) =>
      let s := s.onMc mc (fun m => { m with bts := max m.bts t })
      (match s.append mc buf p.len src p.rid (some h) with
       | (.ok _, s) => (.consumed, s)
       | (g, s) => stop s g)
    | (g, s) => stop s g

/-- The packet at HEAD of queue `q`, as it has been fetched; none where the host link rejects the fetch, when the queue waits (DESIGN
CHOICE, log 155). -/
def State.fetchPacket (s : State) (fn q : Nat) : Option (List Byte) × State :=
  let x := s.queueAt fn q
  if !x.held.isEmpty then (some x.held, s)
  else
    match s.hostGet fn x.pas (x.ring + 64 * (x.head.toNat % 2 ^ x.log)) 64 with
    | (some bs, s) => (some bs, s.onQueue fn q (fun x => { x with held := bs }))
    | (none, s) => (none, s)

/-- A fetched packet (R443). A wait that an update of its fence has ended stays ended. -/
def State.handlePacket (s : State) (fn q : Nat) (p : HPacket) : PacketEnd × State :=
  let x := s.queueAt fn q
  let (wf, sf) := (p.flags.testBit 0, p.flags.testBit 1)
  let h := s.hostReqOf fn q p
  let fin (s : State) (mc status : Nat) : PacketEnd × State :=
    (.consumed, s.complete fn mc (some h) p.rid 0 (0x8000 + q) status 0 0 0)
  let w := s.fenceAt p.wfence
  if p.bad then fin s 0x3FFF 5
  else if (wf && x.passed.isNone && !s.fenceOwned fn p.wfence) || (sf && !s.fenceOwned fn p.sfence) then fin s 0x3FFF 6
  else if wf && x.passed.isNone && !w.holds p.wtarget then (.waits (some (p.wfence, p.wtarget)), s)
  else if wf && x.passed.getD w.err then fin s 0x3FFF 7
  else
    match s.mcs.find? (fun e => (s.partAt fn).active && e.2.state != .free && e.2.func == p.func && e.2.part.toNat == fn) with
    | none => fin s 0x3FFF 2
    | some (mc, _) =>
      let stop {α : Type} (s : State) (g : Got α) : PacketEnd × State := s.dogStop fn q mc g (fun s => fin s mc 4)
      match s.rxPool mc 0 with
      | (.ok pool, s) =>
        if pool.bufsize < p.len + 64 then fin s mc 3
        else
          (match s.takeBuf mc pool with
           | (.ok none, s) => (.waits none, s)
           | (.ok (some buf), s) => s.hostAppend fn q mc buf p h
           | (g, s) => stop s g)
      | (g, s) => stop s g

/-- HOST_QUEUE_PACKET (R443): the packet at HEAD of queue `q`. -/
def State.hostPacket (s : State) (fn q : Nat) : PacketEnd × State :=
  if s.dogAsleep fn q then (.waits none, s)
  else
    match s.fetchPacket fn q with
    | (none, s) => (.waits none, s)
    | (some bs, s) => s.handlePacket fn q (hpacketOf bs)

/-- HEAD rises past a consumed packet and is written back to the descriptor (R440). -/
def State.headUp (s : State) (fn q : Nat) : State :=
  let x := s.queueAt fn q
  let s := s.setQueue fn q { x with head := x.head + 1, waits := none, passed := none, held := [], sleep := none }
  (s.hostPut fn none ((s.funcAt fn).qtbase.toNat + 64 * q + 16) 2 (toBytes 4 (x.head + 1).toNat)).2

/-- The packets of one visit to a queue: up to `k`. -/
def State.servePackets (s : State) (fn q : Nat) : Nat → State
  | 0 => s
  | k + 1 =>
    if (s.queueAt fn q).avail = 0 then s
    else
      match s.hostPacket fn q with
      | (.consumed, s) => (s.headUp fn q).servePackets fn q k
      | (.waits f, s) => s.onQueue fn q (fun x => { x with waits := f })

/-- A visit to a queue: the pending bit is cleared once every packet up to TAIL has been fetched (R445). -/
def State.serveQueue (s : State) (fn q : Nat) : State :=
  let s := s.servePackets fn q 4
  let x := s.queueAt fn q
  if x.en && x.bell == x.head then s.setQueue fn q { x with pend := none } else s

/-- The queues whose pending bit is set: when it was, and which. -/
def State.pendingQueues (s : State) : List (Nat × Nat × Nat) :=
  s.funcs.flatMap (fun e => e.2.queues.filterMap (fun y => y.2.pend.map (fun n => (n, e.1, y.1))))

/-- The pending queue that is served first: the oldest of those that have packets to fetch (DEDUCED, log 91). -/
def State.oldestPending (s : State) : Option (Nat × Nat) :=
  let l := s.pendingQueues.filter (fun y => (s.queueAt y.2.1 y.2.2).avail != 0)
  (l.find? (fun y => l.all (fun z => decide (y.1 ≤ z.1)))).map (·.2)

/-- The Sheepdog core of a slot, and its place in that core's order. -/
def slotPlace (i : Nat) : Nat × Nat :=
  if h : i < 512 then ((Config.slotOrder ⟨i, h⟩).val / 128, (Config.slotOrder ⟨i, h⟩).val % 128) else (4, 0)

/-- Slot `i` is the next that its core visits; a round begins once in a period of 1.6 µs (R444). -/
def State.slotDue (s : State) (i : Nat) : Bool :=
  let (c, n) := slotPlace i
  let (next, began) := SMap.get (0, 0) s.rounds c
  decide (i < 512) && n == next && (n != 0 || decide (began ≤ s.rtc.toNat / 1600))
/-- The visit is made. -/
def State.slotDone (s : State) (i : Nat) : State :=
  let (c, n) := slotPlace i
  let (_, began) := SMap.get (0, 0) s.rounds c
  { s with rounds := SMap.set (0, 0) s.rounds c ((n + 1) % 128, if n = 0 then s.rtc.toNat / 1600 + 1 else began) }

/-- What a visit to a slot does (R445): the slot's own queue, or the oldest pending queue. -/
def State.visit (s : State) (i : Nat) : State :=
  match s.slotAt i with
  | none => (match s.oldestPending with | some (fn, q) => s.serveQueue fn q | none => s)
  | some p =>
    let has := (s.queueAt p.fn p.queue).avail != 0
    let other := if s.slotNp p then none else if !has || 4 ≤ p.busy then s.oldestPending else none
    let s := { s with slots := SMap.set none s.slots i (some { p with busy := if has then min 4 (p.busy + 1) else 0 }) }
    match other with
    | some (fn, q) => s.serveQueue fn q
    | none => s.serveQueue p.fn p.queue

/-- POLLING_SLOT_VISIT (R444, R445), of the slot that is due. No packet is fetched during a memory checkpoint (R474). -/
def execPollingSlotVisit (i : Nat) (s : State) : Out :=
  .next (if !s.slotDue i then s
    else if s.quiesced then s.slotDone i
    else (s.slotDone i).visit i)

/-- The packets that wait on a fence that is freed complete with FENCE_ERR (R164). -/
def State.freePackets (s : State) (n : Nat) : State :=
  let l := s.funcs.flatMap (fun e => (e.2.queues.filter (fun y => y.2.waits.map (·.1) == some n)).map (fun y => (e.1, y.1)))
  l.foldl (fun s e =>
    let (fn, q) := e
    let p := hpacketOf (s.queueAt fn q).held
    (s.complete fn 0x3FFF (some (s.hostReqOf fn q p)) p.rid 0 (0x8000 + q) 7 0 0 0).headUp fn q) s

/-! ## Rings (R448) -/

/-- RING_CTIME_EXPIRY: CTIME has passed since the first record after the last message. -/
def execRingCtimeExpiry (fn r : Nat) (s : State) : Out :=
  let f := s.funcAt fn
  let d := SMap.get {} f.rings r
  .next (if d.since = 0 || d.ctime = 0 || s.rtc.toNat < d.first + 1000 * d.ctime.toNat then s
    else (s.setFunc fn { f with rings := SMap.set {} f.rings r { d with since := 0 } }).sendMsi fn d.vec.toNat)

/-- CDROP_READ (R437): the count is returned and cleared; before READY and in the fatal state the answer is zero (R464, R476). -/
def execCdropRead (fn : Nat) (s : State) : Out :=
  .next (if s.phase != .ready then { s with outbox := s.outbox ++ [.reg fn 0] } else {
    s.onFunc fn (fun f => { f with cdrop := 0 }) with outbox := s.outbox ++ [.reg fn (s.funcAt fn).cdrop.toNat] })

end Sys2Proof.Machine
end

