-- ==== Sys2Proof/Machine/Windows.lean ====
section
/-!
DEFINITION. The registers that the host reaches (spec/01 R8; spec/04_execution.md R118 to R123, R134; spec/05_control_class.md R163,
R164; spec/07 R218; spec/10 R293; spec/14 R377; spec/15_traps.md R419, R431; spec/16_host.md R436 to R439, R452 to R460): the layouts,
host writes and reads, and the writes that do more than set a field.
-/
namespace Sys2Proof.Machine
set_option Elab.async false
open Sys2Proof

/-! ## Fields of a block of registers -/

/-- A host write: its offset in the block, its bytes and its value. -/
structure HostWrite where
  off : Nat
  len : Nat
  v   : Nat
deriving DecidableEq, Repr

def HostWrite.hits (w : HostWrite) (o n : Nat) : Bool := decide (o < w.off + w.len) && decide (w.off < o + n)
def HostWrite.covers (w : HostWrite) (a : Nat) : Bool := decide (w.off ≤ a) && decide (a < w.off + w.len)
/-- A field of `n` bytes at `o` with the written bytes over the old ones. -/
def HostWrite.upd (w : HostWrite) (o n old : Nat) : Nat :=
  ofBytes ((List.range n).map (fun i => BitVec.ofNat 8 (if w.covers (o + i) then w.v / 256 ^ (o + i - w.off) else old / 256 ^ i)))

/-- A field of a register map (R8): where it stands, its value, and what a write makes of the block. A WO field reads as 0; a
W1C or W1S field takes bytes that are not written as 0. -/
structure Field (α : Type) where
  off : Nat
  n   : Nat
  get : α → Nat
  set : Nat → α → α
  shown : Bool := true
  ones : Bool := false

variable {α : Type}

def ro (off n : Nat) (get : α → Nat) : Field α := ⟨off, n, get, fun _ x => x, true, false⟩

/-- A write acts on every field that it touches. -/
def writeFields (fs : List (Field α)) (w : HostWrite) (x : α) : α :=
  fs.foldl (fun x f => if w.hits f.off f.n then f.set (w.upd f.off f.n (if f.ones then 0 else f.get x)) x else x) x

/-- The bytes of a block; reserved bytes read 0. -/
def readFields (fs : List (Field α)) (x : α) : SMap Byte :=
  fs.foldl (fun m f => if f.shown then wrNum m f.off f.n (f.get x) else m) []

/-- The nearest end of a range (R118, R122, R460). -/
def clampTo (lo hi v : Nat) : Nat := max lo (min hi v)

/-! ## Partition records (R118) -/

/-- The fields of a partition record (R118) (DEDUCED, log 87). -/
def partFields : List (Field Part) :=
  [⟨0, 1, fun p => if p.active then 1 else 0, fun v p => { p with active := decide (1 ≤ v) }, true, false⟩,
   ⟨1, 1, fun p => p.prioCap.toNat, fun v p => { p with prioCap := BitVec.ofNat 3 (clampTo 0 7 v) }, true, false⟩,
   ⟨2, 2, fun p => p.holdCap.toNat, fun v p => { p with holdCap := BitVec.ofNat 12 (clampTo 0 4095 v) }, true, false⟩,
   ⟨4, 2, fun p => p.mctxQ.toNat, fun v p => { p with mctxQ := BitVec.ofNat 16 (clampTo 0 16384 v) }, true, false⟩,
   ⟨6, 2, fun p => p.fenceQ.toNat, fun v p => { p with fenceQ := BitVec.ofNat 16 (clampTo 0 1024 v) }, true, false⟩,
   ⟨8, 4, fun p => p.seqQ.toNat, fun v p => { p with seqQ := BitVec.ofNat 32 (clampTo 0 (2 ^ 24) v) }, true, false⟩,
   ⟨12, 4, fun p => p.blockQ.toNat, fun v p => { p with blockQ := BitVec.ofNat 32 v }, true, false⟩,
   ⟨16, 16, fun p => p.privBase.toNat, fun v p => { p with privBase := BitVec.ofNat 72 v }, true, false⟩,
   ⟨32, 16, fun p => p.privBound.toNat, fun v p => { p with privBound := BitVec.ofNat 72 v }, true, false⟩,
   ⟨48, 16, fun p => p.hostBase.toNat, fun v p => { p with hostBase := BitVec.ofNat 72 v }, true, false⟩,
   ⟨64, 16, fun p => p.hostBound.toNat, fun v p => { p with hostBound := BitVec.ofNat 72 v }, true, false⟩,
   ⟨80, 32, fun p => p.key.toNat, fun v p => { p with key := BitVec.ofNat 256 v }, false, false⟩,
   ro 112 2 (fun p => p.mctxU.toNat), ro 114 2 (fun p => p.fenceU.toNat), ro 116 4 (fun p => p.seqU.toNat),
   ro 120 4 (fun p => p.blockU.toNat),
   ⟨128, 512, fun p => p.grants.toNat, fun v p => { p with grants := BitVec.ofNat 4096 v }, true, false⟩]

/-! ## Micro-context control blocks (R121, R122) -/

def McState.code : McState → Nat
  | .free => 0
  | .idle => 1
  | .ready => 2
  | .bound => 3
  | .halted => 4

def vaField (off : Nat) (get : Mc → VAddr) (set : VAddr → Mc → Mc) : Field Mc :=
  ⟨off, 16, fun m => (get m).toNat, fun v m => set (BitVec.ofNat 72 v) m, true, false⟩

/-- Fields that may be written only in FREE or HALTED. -/
def mcLocked : List (Field Mc) :=
  [⟨1, 1, fun m => m.part.toNat, fun v m => { m with part := BitVec.ofNat 8 (clampTo 0 63 v) }, true, false⟩,
   ⟨4, 4, fun m => m.func.toNat, fun v m => { m with func := BitVec.ofNat 32 v }, true, false⟩,
   ⟨28, 1, fun m => m.stages.toNat, fun v m => { m with stages := BitVec.ofNat 8 (clampTo 1 16 v) }, true, false⟩,
   ⟨29, 1, fun m => m.cores.toNat, fun v m => { m with cores := BitVec.ofNat 8 v }, true, false⟩,
   vaField 32 (·.ptroot) (fun v m => { m with ptroot := v }),
   vaField 48 (·.tensors) (fun v m => { m with tensors := v }),
   vaField 64 (·.codebase) (fun v m => { m with codebase := v }),
   vaField 80 (·.startv) (fun v m => { m with startv := v }),
   vaField 112 (·.rxpool) (fun v m => { m with rxpool := v }),
   vaField 128 (·.rqbase) (fun v m => { m with rqbase := v }),
   vaField 144 (·.framepool) (fun v m => { m with framepool := v }),
   ⟨160, 32, fun m => m.key.toNat, fun v m => { m with key := BitVec.ofNat 256 v }, false, false⟩,
   ⟨200, 1, fun m => m.rqlog.toNat, fun v m => { m with rqlog := BitVec.ofNat 8 (clampTo 0 16 v) }, true, false⟩,
   ⟨202, 2, fun m => m.frames.toNat, fun v m => { m with frames := BitVec.ofNat 16 (clampTo 1 4096 v) }, true, false⟩]

/-- Fields that may be written in any state; TICKETS recomputes STRIDE (R138) (DEDUCED, log 88). -/
def mcOpen : List (Field Mc) :=
  [⟨2, 1, fun m => m.prio.toNat, fun v m => { m with prio := BitVec.ofNat 3 (clampTo 0 7 v) }, true, false⟩,
   ⟨3, 1, fun m => (if m.np then 1 else 0) + (if m.global then 2 else 0),
     fun v m => { m with np := v.testBit 0, global := v.testBit 1 }, true, false⟩,
   ⟨8, 2, fun m => m.tickets.toNat, fun v m => recomputeStride { m with tickets := BitVec.ofNat 16 (clampTo 1 65535 v) }, true, false⟩,
   ⟨10, 2, fun m => m.hold.toNat, fun v m => { m with hold := BitVec.ofNat 12 (clampTo 0 4095 v) }, true, false⟩,
   ⟨12, 2, fun m => m.npmax.toNat, fun v m => { m with npmax := BitVec.ofNat 16 (clampTo 1 1000 v) }, true, false⟩,
   ⟨14, 2, fun m => m.tileq.toNat, fun v m => { m with tileq := BitVec.ofNat 16 (clampTo 1 256 v) }, true, false⟩,
   ⟨16, 8, fun m => m.pass.toNat, fun v m => { m with pass := BitVec.ofNat 64 v }, true, false⟩,
   vaField 96 (·.paramver) (fun v m => { m with paramver := v }),
   ⟨204, 4, fun m => m.handler.toNat, fun v m => { m with handler := BitVec.ofNat 32 v }, true, false⟩,
   ⟨208, 2, fun m => m.evring.toNat, fun v m => { m with evring := BitVec.ofNat 16 v }, true, false⟩,
   ⟨224, 8, fun m => m.streqs.toNat, fun v m => { m with streqs := BitVec.ofNat 64 v }, true, false⟩,
   ⟨232, 8, fun m => m.stcyc.toNat, fun v m => { m with stcyc := BitVec.ofNat 64 v }, true, false⟩,
   ⟨240, 4, fun m => m.stdisc.toNat, fun v m => { m with stdisc := BitVec.ofNat 32 v }, true, false⟩,
   ⟨244, 4, fun m => m.stpreempt.toNat, fun v m => { m with stpreempt := BitVec.ofNat 32 v }, true, false⟩,
   ⟨248, 4, fun m => m.sttrap.toNat, fun v m => { m with sttrap := BitVec.ofNat 32 v }, true, false⟩]

def mcFixed : List (Field Mc) :=
  [ro 0 1 (fun m => m.state.code), ro 24 4 (fun m => m.stride.toNat), ro 30 2 (fun m => m.conts.toNat),
   ro 192 4 (fun m => m.rqhead.toNat), ro 196 4 (fun m => m.rqtail.toNat), ro 212 4 (fun m => m.borrow.toNat),
   ro 216 8 (fun m => m.boundat.toNat)]

/-- The micro-contexts that a function reaches (R438): all through the PF, its partition's through a VF, while it is there (R118). -/
def State.reaches (s : State) (fn mc : Nat) : Bool :=
  decide (mc < 16384) && (fn == 0 || ((s.partAt fn).active && (s.mcAt mc).part.toNat == fn))

/-! ## Writes of STATE (R123) -/

/-- What an install requires. -/
def State.installable (s : State) (mc : Nat) : Bool :=
  let m := s.mcAt mc
  let p := s.partAt m.part.toNat
  !s.mcs.any (fun e => e.1 != mc && e.2.state != .free && e.2.func == m.func)
    && p.active && decide (p.mctxU < p.mctxQ)
    && decide (1 ≤ m.tickets.toNat) && decide (1 ≤ m.npmax.toNat ∧ m.npmax.toNat ≤ 1000) && decide (1 ≤ m.tileq.toNat ∧ m.tileq.toNat ≤ 256)
    && decide (1 ≤ m.stages.toNat ∧ m.stages.toNat ≤ 16) && decide (1 ≤ m.frames.toNat ∧ m.frames.toNat ≤ 4096)
    && [1, 2, 4, 8, 16].contains m.cores.toNat && decide (m.stages.toNat * m.cores.toNat ≤ m.frames.toNat)
    && m.rxpool != 0 && m.rqbase != 0 && m.framepool != 0 && m.codebase != 0 && m.startv != 0

/-- IDLE: an install of a FREE block, or the release of a HALTED one, which is none of the moments of R140 (DEDUCED, log 133). A refused install sets FERR code 4 of the writing function. -/
def State.mctxIdle (s : State) (fn mc : Nat) : State :=
  match (s.mcAt mc).state with
  | .free =>
    if s.installable mc then
      (s.onMc mc (fun m => { m with state := .idle })).onPart (s.mcAt mc).part.toNat (fun p => { p with mctxU := p.mctxU + 1 })
    else s.setFerr fn 4 (mc * 65536)
  | .halted => s.decideMc mc true
  | _ => s

/-- HALTED: every binding is pre-empted at once, whatever NP holds; reservations end. -/
def State.mctxHalted (s : State) (mc : Nat) : State :=
  let st := (s.mcAt mc).state
  if st == .free || st == .halted then s
  else
    let s := s.onMc mc (fun m => { m with state := .halted })
    let s := { s with reserves := s.reserves.filter (·.mc != mc) }
    (s.bindsOf mc).foldl (fun s b => (s.unlaunch b).preempt b) s

/-- Discards the unbound request entries from RQHEAD to RQTAIL: each buffer returns, and a completion with ABANDONED is posted. An
entry that cannot be read is passed over (DEDUCED, log 95). -/
def State.dropRequests (s : State) (mc : Nat) : Nat → State
  | 0 => s
  | k + 1 =>
    let m := s.mcAt mc
    if m.rqhead = m.rqtail then s
    else
      let va := m.rqbase.toNat + 32 * (m.rqhead.toNat % 2 ^ m.rqlog.toNat)
      let s' := match s.netRead mc 0 va 32 with
        | (.ok e, t) =>
          let f (o n : Nat) : Nat := ofBytes (cutBytes e o n)
          (t.giveBuf mc (f 0 9)).complete m.part.toNat mc (SMap.get none m.hreqs m.rqhead.toNat) (f 24 8) 0 (f 20 2) 1 0 0 m.bts
        | (_, t) => t
      (s'.onMc mc (fun m => { m with hreqs := SMap.set none m.hreqs m.rqhead.toNat none, rqhead := m.rqhead + 1 })).dropRequests mc k

/-- FREE of a HALTED block with CONTS = 0: requests and unexpected messages are discarded. What the device kept of rings ends with the
block. MCTXU of the partition that the block names now falls (DESIGN CHOICE, log 129). -/
def State.mctxFree (s : State) (mc : Nat) : State :=
  let m := s.mcAt mc
  if m.state != .halted || m.conts != 0 then s
  else
    let s := s.dropRequests mc (m.rqtail - m.rqhead).toNat
    let s := m.unexp.foldl (fun s u => s.giveBuf mc u.buf) s
    let s := s.onMc mc (fun m => {
      m with state := .free, rqhead := m.rqtail, unexp := [], hreqs := [], ringNew := [], broken := [], told := [] })
    s.onPart m.part.toNat (fun p => { p with mctxU := p.mctxU - 1 })

/-- A write of STATE. -/
def State.mctxState (s : State) (fn mc v : Nat) : State :=
  match v with
  | 0 => s.mctxFree mc
  | 1 => s.mctxIdle fn mc
  | 4 => s.mctxHalted mc
  | _ => s

def execMctxWriteIdle (fn mc : Nat) (s : State) : Out := .next (if s.reaches fn mc then s.mctxIdle fn mc else s)
def execMctxWriteHalted (fn mc : Nat) (s : State) : Out := .next (if s.reaches fn mc then s.mctxHalted mc else s)
def execMctxWriteFree (fn mc : Nat) (s : State) : Out := .next (if s.reaches fn mc then s.mctxFree mc else s)

/-- A write of fields of a control block: a locked field in another state is ignored and reported (R122). PART is read-only
through a VF. STATE takes effect last. -/
def State.mctxWrite (s : State) (fn mc : Nat) (w : HostWrite) : State :=
  if !s.reaches fn mc then s
  else
    let m := s.mcAt mc
    let free := m.state == .free || m.state == .halted
    let locked := mcLocked.filter (fun f => fn == 0 || f.off != 1)
    let s := if free then s.setMc mc (writeFields locked w m)
      else (locked.filter (fun f => w.hits f.off f.n)).foldl (fun s f => s.setFerr fn 4 (mc * 65536 + f.off)) s
    let s := s.onMc mc (writeFields mcOpen w)
    if w.covers 0 then s.mctxState fn mc (w.upd 0 1 0) else s

/-- TICKETS_WRITE (R122, R138). -/
def execTicketsWrite (fn mc v : Nat) (s : State) : Out := .next (s.mctxWrite fn mc ⟨8, 2, v⟩)
/-- PARAMVER_WRITE (R134): a step of its own, so no latch is in progress. -/
def execParamverWrite (fn mc : Nat) (v : VAddr) (s : State) : Out := .next (s.mctxWrite fn mc ⟨96, 16, v.toNat⟩)

/-! ## Fence counters (R163, R164) -/

/-- An allocation of counter `n` to partition `p`. -/
def State.fenceAlloc (s : State) (n p : Nat) : State :=
  let f := s.fenceAt n
  let x := s.partAt p
  if f.alloc || decide (63 < p) || decide (65535 < n) || !x.active || decide (x.fenceQ ≤ x.fenceU) then s.setFerr 0 8 n
  else
    (s.setFence n { f with value := 0, sv := false, signal := 0, alloc := true, owner := BitVec.ofNat 6 p, err := false, errcnt := 0 }).onPart p
      (fun x => { x with fenceU := x.fenceU + 1 })

/-- A free of counter `n`: its waits are released as if ERR were 1, waiting packets complete with FENCE_ERR, and C commands that
name it, those that a freeze has withdrawn included, complete without a fence update (DEDUCED, log 92). The partition bits of OWNER stay as they are (DESIGN CHOICE, log 153). -/
def State.fenceFree (s : State) (n : Nat) : State :=
  let f := s.fenceAt n
  if !f.alloc then s.setFerr 0 8 n
  else
    let s := s.wakeFence n true s.conts
    let s := s.wakeWaitf n true s.cores
    let s := s.freePackets n
    let s := { s with conts := s.conts.map (fun (e : Nat × Cont) => (e.1, { e.2 with fens := e.2.fens.filter (fun x => x.2 != n) })) }
    let s := { s with ops := s.ops.map (fun (o : Op) =>
      if o.kind == OpKind.copy && copyFen o.instr && ctrlFence (o.x.getD 2 0) == n then { o with instr := clearFen o.instr } else o) }
    let s := s.setFence n { s.fenceAt n with alloc := false }
    s.onPart f.owner.toNat (fun x => { x with fenceU := x.fenceU - 1 })

/-- FENCE_ALLOC and FENCE_FREE: writes of OWNER by partition 0. -/
def execFenceAlloc (fn n part : Nat) (s : State) : Out := .next (if fn = 0 then s.fenceAlloc n part else s)
def execFenceFree (fn n : Nat) (s : State) : Out := .next (if fn = 0 then s.fenceFree n else s)

def fenceFields : List (Field Fence) :=
  [⟨0, 4, fun f => f.value.toNat, fun v f => { f with value := BitVec.ofNat 32 v }, true, false⟩,
   ⟨4, 2, fun f => (if f.sv then 2 ^ 15 else 0) + f.signal.toNat, fun v f => { f with sv := v.testBit 15, signal := BitVec.ofNat 14 v }, true, false⟩,
   ro 6 1 (fun f => (if f.alloc then 128 else 0) + f.owner.toNat),
   ⟨7, 1, fun f => if f.err then 1 else 0, fun v f => { f with err := f.err && !v.testBit 0 }, true, true⟩,
   ro 8 4 (fun f => f.errcnt.toNat)]

/-- A write of a fence-counter entry: an update at the fence store; OWNER through the PF, last. -/
def State.fenceWrite (s : State) (fn n : Nat) (w : HostWrite) : State :=
  if decide (65535 < n) || !(fn == 0 || s.fenceOwned fn n) then s
  else
    let s := if w.hits 0 6 || w.covers 7 then s.fenceUpdate n 0 (writeFields fenceFields w) else s
    if w.covers 6 && fn == 0 then
      (let v := w.upd 6 1 0
       if 128 ≤ v then s.fenceAlloc n (v % 64) else s.fenceFree n)
    else s

/-! ## Trapped continuations (R419, R439) -/

/-- ABORT (R419): once its carried accesses are complete, the continuation becomes FREE; its valid handles are freed as TFREE frees
them, from the descriptors in its frame (DEDUCED, log 96). -/
def State.abortCont (s : State) (k : Nat) : State :=
  let x := s.contAt k
  let (mc, fs) := (k / 4096, k % 4096)
  let q := clusterOfCore x.home
  if s.carriedLive mc fs then { s with again := true }
  else
  let mask := s.frameNum mc fs 192 32
  let ds := ((List.range 256).filter (fun i => mask.testBit i)).map (fun i =>
    (i, TDesc.ofBits (s.frameNum mc fs (17728 + 16 * i) 16)))
  let s := (ds.filter (fun e => e.2.clus)).foldl (fun s e =>
    s.freeClus q ⟨true, e.2.base.toNat, e.2.units, e.2.tti.toNat,
      (s.ops.filter (fun o => o.mc == mc && o.fslot == fs && o.hs.any (fun h => h.1.toNat == e.1))).map (·.id)⟩) s
  let s := { s with handlers := s.handlers.filter (fun h => !(h.mc == mc && h.fslot == fs)),
                    ops := s.ops.filter (fun o => !(o.mc == mc && o.fslot == fs && o.faulted)) }
  (s.contFree k).reapClus q

/-- The checks of a write of CONTCTL (R439), which fail against a partition that is absent (R118). -/
def State.contctl (s : State) (fn mc slot : Nat) (f : State → State) : State :=
  if !(s.partAt fn).active || (s.mcAt mc).part.toNat != fn || decide ((s.mcAt mc).frames.toNat ≤ slot) || (s.contAt (contKey mc slot)).state != .trapped
  then s.setFerr fn 5 (mc * 4096 + slot) else f s

def execContctlResume (fn mc slot : Nat) (s : State) : Out :=
  .next (s.contctl fn mc slot (fun s => s.resumeTrapped (contKey mc slot) false))
def execContctlSkip (fn mc slot : Nat) (s : State) : Out :=
  .next (s.contctl fn mc slot (fun s => s.resumeTrapped (contKey mc slot) true))
def execContctlAbort (fn mc slot : Nat) (s : State) : Out :=
  .next (s.contctl fn mc slot (fun s => s.abortCont (contKey mc slot)))

/-- A write of the whole register (R439). -/
def State.contctlWrite (s : State) (fn v : Nat) : State :=
  let (mc, slot) := (bitsOf v 12 14, bitsOf v 0 12)
  let k := contKey mc slot
  match bitsOf v 62 2 with
  | 1 => s.contctl fn mc slot (fun s => s.resumeTrapped k false)
  | 2 => s.contctl fn mc slot (fun s => s.resumeTrapped k true)
  | 3 => s.contctl fn mc slot (fun s => s.abortCont k)
  | _ => s

/-! ## TWAYS (R218) -/

def State.clcfg (s : State) (q v : Nat) : State :=
  let w := BitVec.ofNat 4 (clampTo 0 14 v)
  let k := s.clusterAt q
  if s.clusterHeld q then s.setCluster q { k with pend := some w } else s.setCluster q { k with tways := w, pend := none }

def execClcfgWrite (fn cl : Nat) (v : Word) (s : State) : Out :=
  .next (if fn = 0 && decide (cl < 48) then s.clcfg cl (v.toNat % 16) else s)
def execTwaysPendingApply (cl : Nat) (s : State) : Out := .next (s.twaysApply cl)

/-! ## Other blocks: sequence states, Fold statistics, banks -/

def seqFields : List (Field Part) :=
  [⟨0, 8, fun p => p.htBase.toNat, fun v p => { p with htBase := BitVec.ofNat 64 v }, true, false⟩,
   ⟨8, 4, fun p => p.htN.toNat, fun v p => { p with htN := BitVec.ofNat 32 (clampTo 0 (2 ^ 24) v) }, true, false⟩,
   ⟨16, 8, fun p => p.btBase.toNat, fun v p => { p with btBase := BitVec.ofNat 64 v }, true, false⟩,
   ⟨24, 4, fun p => p.btN.toNat, fun v p => { p with btN := BitVec.ofNat 32 (clampTo 0 (2 ^ 28) v) }, true, false⟩]

/-- A write of a sequence state takes effect only while SEQU and BLOCKU are 0 (R377). -/
def State.seqWrite (s : State) (p : Nat) (w : HostWrite) : State :=
  if (s.partAt p).seqU = 0 && (s.partAt p).blockU = 0 then s.onPart p (writeFields seqFields w) else s

def statFields : List (Field Pen) :=
  (List.range 13).map (fun i => ⟨8 * i, 8, fun p => (SMap.get 0 p.stats (8 * i)).toNat,
    fun v p => { p with stats := SMap.set 0 p.stats (8 * i) (BitVec.ofNat 64 v) }, true, false⟩)

def bankFields : List (Field Bank) :=
  [⟨0, 8, Bank.status, fun v b => { b with valid := b.valid && !v.testBit 63, ovfl := b.ovfl && !v.testBit 62 }, true, true⟩,
   ro 8 8 Bank.addrReg, ro 16 8 Bank.miscReg,
   ⟨24, 8, Bank.countReg, fun v b => { b with cont := BitVec.ofNat 32 (v / 2 ^ 32), corr := BitVec.ofNat 32 v }, true, false⟩]

/-! ## Device registers (R455, R456, R460) -/

def State.sliceWrite (s : State) (v : Nat) : State := { s with slice := BitVec.ofNat 32 (clampTo 10 10000 v) }
def State.segwaitWrite (s : State) (v : Nat) : State := { s with segwait := BitVec.ofNat 32 (clampTo 1 1000000 v) }
/-- CXLEN is written only while every micro-context is FREE or HALTED; every page is in device bias from then on. -/
def State.cxlenWrite (s : State) (v : Nat) : State :=
  if s.mcs.all (fun e => e.2.state == .free || e.2.state == .halted) then { s with cxlen := v.testBit 0, hostBias := [] } else s

def execSliceWrite (v : Word32) (s : State) : Out := .next (s.sliceWrite v.toNat)
def execSegwaitWrite (v : Word32) (s : State) : Out := .next (s.segwaitWrite v.toNat)
def execCxlenWrite (v : Word32) (s : State) : Out := .next (s.cxlenWrite v.toNat)

/-- GO of BIASCTL starts a flip of one page; one flip at a time (DESIGN CHOICE, log 97). -/
def State.biasGoWrite (s : State) (page : Nat) (dir : Bool) : State :=
  if s.biasGo then { s with biasNext := some (dir, BitVec.ofNat 24 page) }
  else { s with biasGo := true, biasDir := dir, biasPage := BitVec.ofNat 24 page }
def execBiasFlipToHost (page : Nat) (s : State) : Out := .next (s.biasGoWrite page true)
def execBiasFlipToDevice (page : Nat) (s : State) : Out := .next (s.biasGoWrite page false)

/-- The end of a flip: DONE, and DIR and the page as they have been written meanwhile (R8). -/
def State.biasEnd (s : State) : State :=
  let (dir, page) := s.biasNext.getD (s.biasDir, s.biasPage)
  { s with biasGo := false, biasDone := true, biasDir := dir, biasPage := page, biasNext := none }

/-- BIAS_FLIP_DONE: to host bias, tentative lines of the page are committed first. -/
def execBiasFlipDone (s : State) : Out :=
  .next (if !s.biasGo then s
    else
      let p := s.biasPage.toNat
      let other := s.hostBias.filter (· != p)
      if s.biasDir then { (s.commitLines none (65536 * p) 65536).biasEnd with hostBias := p :: other }
      else { s.biasEnd with hostBias := other })

def State.biasctl (s : State) : Nat :=
  let (dir, page) := s.biasNext.getD (s.biasDir, s.biasPage)
  (if s.biasGo then 2 ^ 63 else 0) + (if s.biasDone then 2 ^ 62 else 0) + (if dir then 2 ^ 61 else 0) + page.toNat * 65536
/-- A write of BIASCTL; while a flip is under way, what it works on stays (R8, R456). -/
def State.biasWrite (s : State) (v clr : Nat) : State :=
  let s := { s with biasDone := s.biasDone && !clr.testBit 62 }
  if s.biasGo then { s with biasNext := some (v.testBit 61, BitVec.ofNat 24 (v / 65536)) }
  else { s with biasGo := clr.testBit 63, biasDir := v.testBit 61, biasPage := BitVec.ofNat 24 (v / 65536) }

/-- MBCTL: GO is ignored while BUSY is 1. -/
def State.mbctlWrite (s : State) (v : Nat) : State :=
  let s := { s with mbDone := s.mbDone && !v.testBit 1 }
  if v.testBit 0 && !s.mbBusy then { s with mbBusy := true, mbReply := none } else s
def State.mbctl (s : State) : Nat := (if s.mbBusy then 5 else 0) + (if s.mbDone then 2 else 0)

def deviceFields : List (Field State) :=
  [⟨0, 4, fun s => s.slice.toNat, fun v s => s.sliceWrite v, true, false⟩,
   ⟨4, 4, fun s => s.segwait.toNat, fun v s => s.segwaitWrite v, true, false⟩,
   ⟨8, 4, fun s => if s.cxlen then 1 else 0, fun v s => s.cxlenWrite v, true, false⟩,
   ro 0x10 8 State.biasctl,
   ⟨0x180, 8, State.mbctl, fun v s => s.mbctlWrite v, true, true⟩]

/-- A write of device registers through the PF. -/
def State.deviceWrite (s : State) (w : HostWrite) : State :=
  let s := writeFields deviceFields w s
  let s := if w.hits 0x10 8 then s.biasWrite (w.upd 0x10 8 s.biasctl) (w.upd 0x10 8 0) else s
  if w.hits 0x100 64 then
    (List.range 64).foldl (fun s i =>
      if w.covers (0x100 + i) then { s with mbreq := wrByte s.mbreq i (BitVec.ofNat 8 (w.v / 256 ^ (0x100 + i - w.off))) } else s) s
  else s

/-! ## Function registers (R437, R446, R452) -/

/-- STATUS (DEDUCED, log 134). -/
def State.statusReg (s : State) : Nat :=
  (if s.phase == .ready then 1 else 0) + (if s.cxlen then 2 else 0) + (if s.units != s.factory then 4 else 0)
    + (if s.phase == .fatal then 8 else 0)

def Ferr.reg (f : Ferr) : Nat :=
  (if f.valid then 2 ^ 63 else 0) + (if f.ovfl then 2 ^ 62 else 0) + f.code.toNat * 2 ^ 32 + f.datum.toNat

def bit (b : Bool) (n : Nat) : Nat := if b then 2 ^ n else 0

/-- BAR0 (R437) (DESIGN CHOICE, log 135). -/
def funcFields : List (Field Func) :=
  [⟨0x10, 4, fun f => bit f.hostPv 31 + f.hostPasid.toNat, fun v f => { f with hostPv := v.testBit 31, hostPasid := BitVec.ofNat 20 v }, true, false⟩,
   ⟨0x18, 8, fun f => f.qtbase.toNat, fun v f => { f with qtbase := BitVec.ofNat 64 v }, true, false⟩,
   ⟨0x20, 4, fun f => f.qtn.toNat, fun v f => { f with qtn := BitVec.ofNat 32 (clampTo 0 4096 v) }, true, false⟩,
   ⟨0x28, 4, fun f => bit f.encrEn 31 + f.encr.toNat, fun v f => { f with encrEn := v.testBit 31, encr := BitVec.ofNat 10 v }, true, false⟩,
   ⟨0x2C, 4, fun f => bit f.evEn 31 + f.evRing.toNat, fun v f => { f with evEn := v.testBit 31, evRing := BitVec.ofNat 10 v }, true, false⟩,
   ⟨0x30, 8, fun f => f.ferr.reg, fun v f => { f with ferr := { f.ferr with valid := f.ferr.valid && !v.testBit 63,
                                                                            ovfl := f.ferr.ovfl && !v.testBit 62 } }, true, true⟩,
   ⟨0x38, 1, fun f => f.ferrVec.toNat, fun v f => { f with ferrVec := BitVec.ofNat 8 v }, true, false⟩,
   ro 0x3C 4 (fun f => f.cdrop.toNat),
   ⟨0x40, 16, fun f => f.sdva.toNat, fun v f => { f with sdva := BitVec.ofNat 72 v }, true, false⟩,
   ⟨0x50, 4, fun f => f.sdpages.toNat, fun v f => { f with sdpages := BitVec.ofNat 32 (clampTo 1 (2 ^ 24) v) }, true, false⟩,
   ⟨0x54, 2, fun f => f.sdmctx.toNat, fun v f => { f with sdmctx := BitVec.ofNat 16 (v &&& 0xBFFF) }, true, false⟩,
   ⟨0x68, 8, fun f => f.memwin.toNat, fun v f => { f with memwin := BitVec.ofNat 64 v }, true, false⟩]

def ringFields : List (Field RingD) :=
  [⟨0, 8, fun d => d.base.toNat, fun v d => { d with base := BitVec.ofNat 64 v }, true, false⟩,
   ⟨8, 1, fun d => d.log.toNat, fun v d => { d with log := BitVec.ofNat 8 (clampTo 4 20 v) }, true, false⟩,
   ⟨9, 1, fun d => bit d.en 0 + bit d.compl 1 + bit d.pv 2,
     fun v d => { d with en := v.testBit 0, compl := v.testBit 1, pv := v.testBit 2 }, true, false⟩,
   ⟨10, 1, fun d => d.vec.toNat, fun v d => { d with vec := BitVec.ofNat 8 v }, true, false⟩,
   ⟨11, 1, fun d => d.ccount.toNat, fun v d => { d with ccount := BitVec.ofNat 8 (clampTo 1 255 v) }, true, false⟩,
   ⟨12, 2, fun d => d.ctime.toNat, fun v d => { d with ctime := BitVec.ofNat 16 v }, true, false⟩,
   ⟨16, 4, fun d => d.pasid.toNat, fun v d => { d with pasid := BitVec.ofNat 20 v }, true, false⟩,
   ⟨20, 4, fun d => d.head.toNat, fun v d => { d with head := BitVec.ofNat 32 v }, true, false⟩,
   ro 24 4 (fun d => d.tail.toNat)]

/-- Vectors that are pending and no longer masked send their messages (R448). -/
def State.unmask (s : State) (fn : Nat) : List Nat → State
  | [] => s
  | v :: r =>
    let f := s.funcAt fn
    (if f.msixp.getLsbD v && (rdByte f.msixt (16 * v + 12)).toNat % 2 = 0 then
      (s.setFunc fn { f with msixp := f.msixp &&& ~~~(1#256 <<< v) }).sendMsi fn v
     else s).unmask fn r

/-- Writes the bytes of a write that lie in a window of `n` bytes at `o` (DEDUCED, log 93). -/
def HostWrite.into (w : HostWrite) (o n : Nat) (m : SMap Byte) : SMap Byte :=
  (List.range w.len).foldl (fun m i =>
    if o ≤ w.off + i && w.off + i < o + n then wrByte m (w.off + i - o) (BitVec.ofNat 8 (w.v / 256 ^ i)) else m) m

/-! ## Shootdowns (R452, R453) -/

/-- SDVA, SDPAGES, SDMCTX and WAKE of the shootdown at work: the registers as they stood at its GO (DESIGN CHOICE, log 98). -/
def Func.sdNow (f : Func) : VAddr × Word32 × BitVec 16 × Bool := f.sdrun.getD (f.sdva, f.sdpages, f.sdmctx, f.sdwake)
/-- A micro-context is in the scope of a function's shootdown. -/
def State.sdScope (s : State) (fn mc : Nat) : Bool :=
  let m := (s.funcAt fn).sdNow.2.2.1.toNat
  (m.testBit 15 || mc == m % 16384) && (fn == 0 || (s.mcAt mc).part.toNat == fn)
/-- A page is in its range. -/
def State.sdRange (s : State) (fn vpn : Nat) : Bool :=
  let (va, n, _) := (s.funcAt fn).sdNow
  decide (va.toNat / 65536 ≤ vpn) && decide (vpn < va.toNat / 65536 + n.toNat)

/-- A write of SDCTL with GO: WAKE is written; GO is ignored while BUSY is 1 (DESIGN CHOICE, log 98). -/
def State.sdStart (s : State) (fn : Nat) (wake : Bool) : State :=
  s.onFunc fn (fun f => if f.sdbusy then { f with sdwake := wake }
    else { f with sdbusy := true, sdwake := wake, sdrun := some (f.sdva, f.sdpages, f.sdmctx, wake) })
def execShootdown (fn : Nat) (wake : Bool) (s : State) : Out := .next (s.sdStart fn wake)

/-- The device physical page of a cached leaf. -/
def State.leafPage (s : State) (e : TlbEntry) : Nat :=
  let f := bitsOf e.leaf 16 36
  if e.shared then f else ((s.partOfMc e.mc).privBase.toNat + 65536 * f) / 65536

/-- A wait on a migrating page that `hit` names ends. -/
def Stall.woken (hit : Nat → Bool) : Stall → Stall
  | .mig p => if hit p then .other else .mig p
  | .smig p => if hit p then .other else .smig p
  | x => x
def Arch.woken (hit : Nat → Bool) (a : Arch) : Arch := { a with stall := a.stall.woken hit, fwait := a.fwait.woken hit }

/-- Step 4: accesses and fetches that stall on MIG in the range translate again, those of the Shepherd and of Sheepdog cores among them
(R205). -/
def State.sdWake (s : State) (fn : Nat) : State :=
  let hit (mc p : Nat) : Bool := s.sdScope fn mc && s.sdRange fn p
  let s' := { s with
    ops := s.ops.map (fun (o : Op) => if o.asleep && hit o.mc (o.st.getD 1 0) then { o with wait := none, st := [] } else o),
    naps := s.naps.filter (fun e => !hit e.1 e.2) }
  s.cores.foldl (fun t e => t.onArchAt e.1 (·.woken (hit e.2.mc))) s'

/-- SHOOTDOWN_DONE (R453): cached entries of the range and scope are dropped. Accesses translate within their steps, so none is left
behind; a pin of R259 on a line of the range holds DONE back. -/
def execShootdownDone (fn : Nat) (s : State) : Out :=
  let f := s.funcAt fn
  .next (if !f.sdbusy then s
    else
      let hit (e : TlbEntry) : Bool := s.sdScope fn e.mc && s.sdRange fn e.page
      let pages := (s.tlb.filter hit).map s.leafPage
      if s.allPinned.any (fun l => pages.contains (l / 1024)) then s
      else
        let s := { s with tlb := s.tlb.filter (fun e => !hit e) }
        let s := if f.sdNow.2.2.2 then s.sdWake fn else s
        s.onFunc fn (fun f => { f with sdbusy := false, sddone := true, sdrun := none }))

/-! ## BAR0 -/

/-- SDCTL. A GO that has been written reads 1 until its shootdown is done, as BUSY does (DESIGN CHOICE, log 97). -/
def State.sdctl (s : State) (fn : Nat) : Nat :=
  let f := s.funcAt fn
  bit f.sdbusy 0 + bit f.sdwake 1 + bit f.sdbusy 2 + bit f.sddone 3

/-- A write of BAR0 of function `fn`. -/
def State.bar0Write (s : State) (fn : Nat) (w : HostWrite) : State :=
  let s := s.onFunc fn (writeFields funcFields w)
  let s := if w.hits 0x24 4 then
      (let v := w.upd 0x24 4 0
       let q := v % 4096
       match (if v.testBit 31 then execQueueEnable fn q s else execQueueDisable fn q s) with
       | .next t => t
       | _ => s)
    else s
  let s := if w.hits 0x58 8 then
      (let v := w.upd 0x58 8 0
       let s := s.onFunc fn (fun f => {
         f with sddone := f.sddone && !v.testBit 3, sdwake := if w.covers 0x58 then v.testBit 1 else f.sdwake })
       if v.testBit 0 then s.sdStart fn (v.testBit 1) else s)
    else s
  let s := if w.hits 0x60 8 then s.contctlWrite fn (w.upd 0x60 8 0) else s
  let s := if 0x1000 ≤ w.off && w.off < 0x9000 then
      (let r := (w.off - 0x1000) / 32
       s.onFunc fn (fun f => { f with rings := SMap.set {} f.rings r (writeFields ringFields ⟨(w.off - 0x1000) % 32, w.len, w.v⟩
         (SMap.get {} f.rings r)) }))
    else s
  if w.hits 0xC000 4096 then
    (s.onFunc fn (fun f => { f with msixt := w.into 0xC000 4096 f.msixt })).unmask fn
      (((List.range w.len).map (fun i => (w.off + i - 0xC000) / 16)).eraseDups)
  else s

/-- BAR0 as the host reads it, CDROP not cleared. -/
def State.bar0Read (s : State) (fn off n : Nat) : List Byte :=
  let f := s.funcAt fn
  (List.range n).map (fun i =>
    let a := off + i
    if 0x1000 ≤ a && a < 0x9000 then rdByte (readFields ringFields (SMap.get {} f.rings ((a - 0x1000) / 32))) ((a - 0x1000) % 32)
    else if 0xC000 ≤ a && a < 0xD000 then rdByte f.msixt (a - 0xC000)
    else
      let m := wrNum (wrNum (readFields funcFields f) 0 8 s.statusReg) 8 8 fn
      rdByte (wrNum (wrNum m 0x58 8 (s.sdctl fn)) 0xD000 32 f.msixp.toNat) a)

/-! ## BAR4 (R438) -/

/-- The device physical address of a byte of a function's memory window. -/
def State.windowAddr (s : State) (fn off : Nat) : Option Nat :=
  let rel := (s.funcAt fn).memwin.toNat + off
  ((s.partAt fn).privMap (rel - rel % 65536)).map (· + rel % 65536)

/-- A write of the memory window: a HOST-path access (R370), before which tentative lines are committed (R423). -/
def State.windowWrite (s : State) (fn : Nat) (w : HostWrite) : State :=
  match s.windowAddr fn w.off, s.windowAddr fn (w.off + w.len - 1) with
  | some a, some _ => ((s.commitLines none a w.len).wrMem 0 a (toBytes w.len w.v)).2
  | _, _ => s

/-- The contained record of a read of poisoned memory by an agent that is no continuation (R428, R475). -/
def State.poisonRecord (s : State) (pa : Nat) : State :=
  let src := if spaceOf pa = some 1 then 15 else 16
  s.mcRecord { bank := bankOf src (ownerDie pa), sev := 2, kind := 4, source := src,
               unit := if src = 16 then pa / 65536 % 12 else ownerDie pa, addr := some (BitVec.ofNat 64 pa) }

/-- A write of BAR4 of function `fn`. -/
def State.bar4Write (s : State) (fn : Nat) (w : HostWrite) : State :=
  let at' (base : Nat) (size : Nat) : Nat × HostWrite := ((w.off - base) / size, ⟨(w.off - base) % size, w.len, w.v⟩)
  let pf := fn == 0
  if w.off < 0x10000 then
    (let (p, u) := at' 0 1024
     (if pf then s.rekeyPart (s.onPart p (writeFields partFields u)) p else s))
  else if w.off < 0x410000 then (let (m, u) := at' 0x10000 256; s.mctxWrite fn m u)
  else if w.off < 0x510000 then (let (n, u) := at' 0x410000 16; s.fenceWrite fn n u)
  else if w.off < 0x520000 then
    (let (p, u) := at' 0x510000 32
     (if pf && decide (p < 64) then s.seqWrite p u else s))
  else if w.off < 0x550000 then
    (let (q, u) := at' 0x520000 4096
     (if !pf then s
       else if u.covers 0 then s.clcfg q (u.upd 0 1 0 % 16)
       else if 0x100 ≤ u.off && u.off < 0x300 then
         (let p := 4 * q + (u.off - 0x100) / 128
          s.setPen p (writeFields statFields ⟨(u.off - 0x100) % 128, u.len, u.v⟩ (s.penAt p)))
       else s))
  else if w.off < 0x560000 then
    (let (b, u) := at' 0x550000 32
     (if pf && decide (b < 40) then { s with banks := SMap.set {} s.banks b (writeFields bankFields u (SMap.get {} s.banks b)) } else s))
  else if w.off < 0x600000 then (if pf then s.deviceWrite ⟨w.off - 0x560000, w.len, w.v⟩ else s)
  else if w.off < 0x800000 then s.windowWrite fn ⟨w.off - 0x600000, w.len, w.v⟩
  else s

/-- One byte of BAR4. -/
def State.bar4Byte (s : State) (fn a : Nat) : Byte :=
  let pf := fn == 0
  if a < 0x10000 then
    (if pf then rdByte (readFields partFields (s.partAt (a / 1024))) (a % 1024)
     else if a < 1024 then rdByte (readFields partFields (s.partAt fn)) a else 0)
  else if a < 0x410000 then
    (let m := (a - 0x10000) / 256
     if s.reaches fn m then rdByte (readFields (mcLocked ++ mcOpen ++ mcFixed) (s.mcAt m)) ((a - 0x10000) % 256) else 0)
  else if a < 0x510000 then
    (let n := (a - 0x410000) / 16
     if pf || s.fenceOwned fn n then rdByte (readFields fenceFields (s.fenceAt n)) ((a - 0x410000) % 16) else 0)
  else if a < 0x520000 then
    (let p := (a - 0x510000) / 32
     if p < 64 && (pf || p == fn) then rdByte (readFields seqFields (s.partAt p)) ((a - 0x510000) % 32) else 0)
  else if a < 0x550000 then
    (let q := (a - 0x520000) / 4096
     let o := (a - 0x520000) % 4096
     let k := s.clusterAt q
     if !pf then 0
     else if o < 8 then rdByte (wrNum [] 0 8 (k.tways.toNat + (if k.pend.isSome then 256 else 0))) o
     else if 0x100 ≤ o && o < 0x300 then rdByte (readFields statFields (s.penAt (4 * q + (o - 0x100) / 128))) ((o - 0x100) % 128)
     else 0)
  else if a < 0x560000 then
    (let b := (a - 0x550000) / 32
     if pf && decide (b < 40) then rdByte (readFields bankFields (SMap.get {} s.banks b)) ((a - 0x550000) % 32) else 0)
  else if a < 0x600000 then
    (let o := a - 0x560000
     if !pf then 0
     else if 0x100 ≤ o && o < 0x140 then rdByte s.mbreq (o - 0x100)
     else if 0x140 ≤ o && o < 0x180 then rdByte s.mbrsp (o - 0x140)
     else rdByte (readFields deviceFields s) o)
  else if a < 0x800000 then
    (match s.windowAddr fn (a - 0x600000) with
     | some pa => rdByte s.mem pa
     | none => 0)
  else 0

/-- What a host read of a BAR returns, before READY and in the fatal state as R464 and R476 state. -/
def State.barRead (s : State) (fn bar off n : Nat) : List Byte :=
  let early := s.phase != .ready
  if bar = 0 then (if early then (rdBytes (wrNum [] 0 8 s.statusReg) off n) else s.bar0Read fn off n)
  else if bar = 2 then
    (if early || off % 64 != 0 then List.replicate n 0
     else (toBytes 4 (s.queueAt fn (off / 4096 * 64 + off % 4096 / 64)).bell.toNat).take n)
  else if bar = 4 then
    (List.range n).map (fun i =>
      let a := off + i
      if early && !(s.phase == .fatal && 0x550000 ≤ a && a < 0x560000) then 0 else s.bar4Byte fn a)
  else List.replicate n 0

/-- A host read (R8): what it returns leaves the device; CDROP is cleared (RC). A read of the memory window is an access of the HOST path,
before which tentative lines are committed (R370, R371); one of poisoned memory is answered as poisoned (R471) (PRESUMED, log 157). -/
def State.hostRead (s : State) (fn bar off n : Nat) : State :=
  let win := if bar == 4 && s.phase == .ready && decide (0x600000 ≤ off) && decide (off < 0x800000) then s.windowAddr fn (off - 0x600000) else none
  match win with
  | some a =>
    let s := (s.commitLines none a n).viaCache a n false
    if s.poisoned a n then { s.poisonRecord a with outbox := s.outbox ++ [.poisoned fn] }
    else { s with outbox := s.outbox ++ [.reg fn (ofBytes (s.barRead fn bar off n))] }
  | none =>
    let t := { s with outbox := s.outbox ++ [.reg fn (ofBytes (s.barRead fn bar off n))] }
    if bar == 0 && s.phase == .ready && decide (off < 0x40) && decide (0x3C < off + n) then t.onFunc fn (fun f => { f with cdrop := 0 }) else t

/-! ## REGISTER_WRITE (R8, R436, R441) -/

/-- A host write of up to 8 bytes to a BAR: registers act by their access codes; those with a step of their own act as that step. -/
def execRegisterWrite (fn bar off len : Nat) (v : Word) (s : State) : Out :=
  let n := min len 8
  let w : HostWrite := ⟨off, n, v.toNat % 256 ^ n⟩
  if n = 0 || decide (63 < fn) then .next s
  else if bar = 0 then .next (if off < 0x10000 then s.bar0Write fn w else s)
  else if bar = 2 then
    (if n = 4 && off % 64 = 0 && decide (off < 0x40000) then
      execNotify fn (off / 4096 * 64 + off % 4096 / 64) (v.truncate 32) false s else .next s)
  else if bar = 4 then .next (s.bar4Write fn w)
  else .next s

/-! ## FUNCTION_LEVEL_RESET (R458, R459) -/

/-- The function's registers, queues and rings are reset; through a VF every micro-context of the partition is HALTED. The reset is under
way until it completes (R459). -/
def execFunctionLevelReset (fn : Nat) (s : State) : Out :=
  .next (if 63 < fn then s
    else
      let s := s.setFunc fn { resetting := true }
      if fn = 0 then s
      else ((s.mcs.filter (fun e => e.2.part.toNat == fn && e.2.state != .free)).map (·.1)).foldl (fun s m => s.mctxHalted m) s)

/-- A reset that is under way completes. -/
def State.resetDone (s : State) (fn : Nat) : State := if 63 < fn then s else s.onFunc fn (fun f => { f with resetting := false })

end Sys2Proof.Machine
end

