-- ==== Sys2Proof/Machine/Mailbox.lean ====
section
/-!
DEFINITION. The allocator mailbox (spec/16_host.md R461, spec/15_traps.md R433, R434) and the commands of spec/17_bringup.md (R469,
R474, R475): the management core works on a request that MBREQ holds, and MAILBOX_REPLY delivers its answer.
-/
namespace Sys2Proof.Machine
set_option Elab.async false
open Sys2Proof

/-! ## Requests and replies (R461) -/

/-- CMD, TAG and PART. -/
def mbHead (cmd : Nat) (tag : Byte) (part : Nat) : List Byte := toBytes 1 cmd ++ [tag] ++ toBytes 2 part

/-- The management core has this request at hand and has not answered it. -/
def State.asked (s : State) (bs : List Byte) : Bool := s.mbBusy && s.mbReply.isNone && rdBytes s.mbreq 0 bs.length == bs

/-- An answer: TAG, STATUS and the body from byte 4 on. -/
def State.answer (s : State) (tag : Byte) (status : Nat) (body : List Byte) : State :=
  let bs := [tag] ++ toBytes 1 status ++ toBytes 2 0 ++ body
  { s with mbReply := some (bs ++ List.replicate (64 - bs.length) 0) }

/-! ## STATUS, BLKPOOL -/

/-- The free bytes of a pool: what no block holds, memory of fenced stacks left out (R471). -/
def State.poolFree (s : State) (p : Part) (x : Pool) : Nat :=
  let pages := (List.range (x.bytes / 65536)).filter (fun i => !s.relFenced p (x.base + 65536 * i) 65536)
  let used := (x.blocks.filter (fun b => !s.relFenced p b.2.1 (2 ^ b.2.2))).map (fun b => 2 ^ b.2.2)
  65536 * pages.length - used.foldl (· + ·) 0

def execStatus (tag : Byte) (part : Nat) (s : State) : Out :=
  .next (if !s.asked (mbHead 3 tag part) then s
    else if 63 < part then s.answer tag 4 []
    else
      let free := match SMap.get none s.pools part with
        | some p => s.poolFree (s.partAt part) p
        | none => 0
      s.answer tag 0 (toBytes 4 (s.partAt part).blockU.toNat ++ toBytes 8 free))

/-- `n` bytes at a partition-relative address lie within the private bound of a partition that is there (R118). -/
def Part.holds (p : Part) (rel n : Nat) : Bool := p.active && decide (p.privBase.toNat + rel + n ≤ p.privBound.toNat)

def execBlkpool (tag : Byte) (part base bytes : Nat) (s : State) : Out :=
  .next (if !s.asked (mbHead 10 tag part ++ toBytes 8 base ++ toBytes 8 bytes) then s
    else if 63 < part || base % 65536 != 0 || bytes % 65536 != 0 || !(s.partAt part).holds base bytes then s.answer tag 4 []
    else
      let old := match SMap.get none s.pools part with
        | some p => p.blocks
        | none => []
      ({ s with pools := SMap.set none s.pools part (some ⟨base, bytes, old⟩) }).answer tag 0 [])

/-! ## Segments (R324, R328, R480) -/

/-- BLKPOOL, SEGINST, MAPQ and UNMAPQ with values the tables do not list (DEDUCED, log 100). -/
def execSeginst (tag : Byte) (part src peer flashOff haddr : Nat) (s : State) : Out :=
  .next (if !s.asked (mbHead 5 tag part ++ toBytes 1 src ++ toBytes 1 peer ++ toBytes 8 flashOff ++ toBytes 8 haddr) then s
    else if 1 < src then s.answer tag 1 []
    else if 63 < part || !(s.partAt part).active then s.answer tag 4 []
    else
      match s.hostGet 0 none haddr 64 with
      | (none, s) => s.answer tag 4 []
      | (some h, s) =>
        match s.segInstall part (src + 2 * peer) (BitVec.ofNat 512 (ofBytes h)) with
        | (some n, s) => s.answer tag 0 (toBytes 2 n ++ toBytes 2 (s.segAt n).gen.toNat ++ toBytes 1 (s.segAt n).state)
        | (none, s) => s.answer tag 3 [])

def execSegrel (tag : Byte) (part seg : Nat) (s : State) : Out :=
  .next (if !s.asked (mbHead 6 tag part ++ toBytes 2 seg) then s
    else
      match s.segRelease part seg with
      | some t => t.answer tag 0 []
      | none => s.answer tag 4 [])

def execSegmap (tag : Byte) (part seg first n laddr : Nat) (s : State) : Out :=
  let p := s.partAt part
  let g := s.segAt seg
  let base := laddr / 8 * 8
  .next (if !s.asked (mbHead 7 tag part ++ toBytes 2 seg ++ toBytes 4 first ++ toBytes 4 n ++ toBytes 8 laddr) then s
    else if 1 < laddr % 8 then s.answer tag 1 []
    else if g.state = 0 || g.state = 4 || !p.grants.getLsbD seg || !p.holds base (8 * n) then s.answer tag 4 []
    else (s.segMap part seg (p.privBase.toNat + base) (laddr % 8 == 1) first n).answer tag 0 [])

/-! ## Polling slots (R444) -/

/-- MAPQ: a free slot, which of them is the firmware's choice (DESIGN CHOICE, log 3). With it the pending queues may find every slot NP
(R445). -/
def execMapq (tag : Byte) (part func queue np npqmax : Nat) (s : State) : Out :=
  let free := (List.range 512).filter (fun i => (s.slotAt i).isNone)
  .next (if !s.asked (mbHead 8 tag part ++ toBytes 1 func ++ toBytes 2 queue ++ toBytes 1 np ++ toBytes 2 npqmax) then s
    else if free.isEmpty || (s.slotOf func queue).isSome || 63 < func || 4095 < queue then s.answer tag 4 []
    else
      let (n, s) := s.fresh
      let i := free.getD (Config.pick n % free.length) 0
      let x : PSlot := { fn := func, queue := queue, np := np % 2 = 1, npqmax := clampTo 1 1000 npqmax, since := s.rtc.toNat }
      let s : State := { s with slots := SMap.set none s.slots i (some x) }
      (s.pendingQueues.foldl (fun s y => s.notifyDeferred y.2.1 y.2.2) s).answer tag 0 (toBytes 2 i))

def execUnmapq (tag : Byte) (part func queue : Nat) (s : State) : Out :=
  .next (if !s.asked (mbHead 9 tag part ++ toBytes 1 func ++ toBytes 2 queue) then s
    else
      match s.slotOf func queue with
      | some i => ({ s with slots := SMap.set none s.slots i none }).answer tag 0 []
      | none => s.answer tag 4 [])

/-! ## Self-test (R433, R434) -/

/-- The service micro-context of R144: the lowest of partition 0 with NP set and NPMAX at most 200. -/
def State.serviceMc (s : State) : Option Nat :=
  (s.mcs.find? (fun e => e.2.state != .free && e.2.part == 0 && e.2.np && e.2.npmax ≤ 200)).map (·.1)

/-- The pens of a unit. -/
def unitPens (ukind uindex : Nat) : List Nat := if ukind = 0 then [uindex] else pensOf uindex
/-- A unit is in the unit map. -/
def State.unitPresent (s : State) (ukind uindex : Nat) : Bool :=
  if ukind = 0 then s.penPresent uindex else decide (uindex < 48) && s.units.clusters.getLsbD uindex

/-- The management core asks the service micro-context for a run on a unit alone: a request of its own, which completes nowhere and whose
RID is LEVEL (DESIGN CHOICE, log 101). -/
def State.askTest (s : State) (m level : Nat) (unit : List Nat) (t : SelfTest) : Option State :=
  match (s.onMc m (fun x => { x with testOnly := unit })).append m 0 0 0 level (some ⟨0, 0, 0, 0, false, 0, true⟩) with
  | (.ok _, s) => some { s with selfTest := some t }
  | _ => none

/-- TEST: the service micro-context's binding is placed on the unit alone, and the reply waits for its end; how a run ends comes with the
event. Without a service micro-context, or where its request cannot be written, no placement becomes free (DESIGN CHOICE, log 101). The
reserved bytes of the request are ignored. -/
def execTest (tag : Byte) (part ukind level uindex : Nat) (result : TestEnd) (s : State) : Out :=
  let st := match result with
    | .pass => 0
    | .fail => 1
  let t : SelfTest := { mc := none, tag := tag, status := st, since := s.rtc.toNat }
  .next (if !s.asked (mbHead 4 tag part ++ toBytes 1 ukind ++ toBytes 1 level ++ toBytes 2 uindex) || s.selfTest.isSome then s
    else if 1 < ukind || !s.unitPresent ukind uindex then s.answer tag 0 (toBytes 1 2)
    else
      match s.serviceMc with
      | none => { s with selfTest := some t }
      | some m => (s.askTest m level (unitPens ukind uindex) { t with mc := some m }).getD { s with selfTest := some t })

/-- A self-test that fails (R434): a contained record of KIND 6 in the unit's bank, and the unit is fenced. The spec names neither
the bank group of a unit nor a SOURCE (DESIGN CHOICE, log 3). -/
def State.testFailed (s : State) (ukind uindex : Nat) : State :=
  let (n, s) := s.fresh
  let (k, s) := s.fresh
  let die := if ukind = 0 then uindex / 48 else uindex / 12
  let b := 8 * die + Config.pick n % 8
  let s := s.mcRecord { bank := b, sev := 2, kind := 6, unit := uindex, source := Config.freeBits k % 256 }
  s.fenceUnit (ukind == 1) uindex b none

/-! ## The unit map (R469) -/

/-- The body of the UNITMAP reply. -/
def State.unitMapBody (s : State) : List Byte :=
  toBytes 4 s.mapver.toNat ++ toBytes 24 (bitMask ((List.range 192).filter s.penPresent)) ++ toBytes 6 s.units.clusters.toNat
    ++ toBytes 2 s.units.hbm.toNat ++ toBytes 8 s.units.eth.toNat

def execUnitmap (tag : Byte) (s : State) : Out :=
  .next (if s.asked (toBytes 1 11 ++ [tag]) then s.answer tag 0 s.unitMapBody else s)

/-! ## Memory checkpoints (R474, R475) -/

def CkptState.num : CkptState → Nat
  | .idle => 0
  | .running => 1
  | .done => 2
  | .failed => 3
  | .held => 4
/-- STATE as a reply gives it. -/
def Ckpt.code (c : Ckpt) : Byte := Config.ckptCode c.state.num

/-- The copy has ended, as DONE or FAILED: with HOLD the device stays quiesced. -/
def State.ckptEnd (s : State) (st : CkptState) : State :=
  { s with ckpt := { s.ckpt with state := if s.ckpt.hold then .held else st, took := (s.rtc.toNat - s.ckpt.start) / 1000 } }

/-- The route entry of partition 0 for port `p`: from the route table of its lowest micro-context (DESIGN CHOICE, log 32). -/
def State.ckptRoute (s : State) (route0 p : Nat) : Option (List Byte) :=
  match (s.mcs.find? (fun e => e.2.state != .free && e.2.part == 0)).map (·.1) with
  | none => none
  | some mc =>
    match (s.rxPool mc 0).1 with
    | .ok pool =>
      if pool.nroutes ≤ route0 + p then none
      else
        match (s.netRead mc 0 (pool.routes + 64 * (route0 + p)) 64).1 with
        | .ok r => if ofBytes (cutBytes r 27 1) % 2 = 1 && ofBytes (cutBytes r 26 1) == p then some r else none
        | _ => none
    | _ => none

/-- MEMCKPT (R474) (DESIGN CHOICE, log 102). -/
def execMemckpt (tag : Byte) (fn flags ports route0 haddr hbytes : Nat) (key : BitVec 256) (s : State) : Out :=
  .next (if !s.asked (mbHead 12 tag fn ++ toBytes 1 flags ++ toBytes 1 ports ++ toBytes 2 route0 ++ toBytes 8 haddr ++ toBytes 8 hbytes
        ++ toBytes 32 key.toNat) then s
    else if fn != 0 || s.cxlen || s.quiesced || (ports % 256 == 0 && hbytes == 0) then s.answer tag 4 []
    else
      let routes := ((List.range 8).filter (fun p => ports.testBit p)).filterMap (fun p => (s.ckptRoute route0 p).map (fun r => (p, r)))
      let streams := routes.map (·.1) ++ (if hbytes = 0 then [] else [8])
      let c : Ckpt := { state := .running, hold := flags.testBit 0, route0 := route0, haddr := haddr, hbytes := hbytes, key := key,
                        streams := streams, routes := routes, start := s.rtc.toNat }
      let s := (s.binds.filter (fun e => e.2.live && e.2.held)).foldl (fun s e => s.freezeBinding e.1) { s with ckpt := c }
      let s := if streams.isEmpty then s.ckptEnd .failed else s
      s.answer tag 0 [s.ckpt.code])

def execCkptstat (tag : Byte) (s : State) : Out :=
  let c := s.ckpt
  .next (if !s.asked (toBytes 1 13 ++ [tag]) then s
    else s.answer tag 0 ([c.code] ++ toBytes 4 c.pages ++ toBytes 4 c.eth ++ toBytes 4 c.host
      ++ toBytes 4 (if c.state == .running then (s.rtc.toNat - c.start) / 1000 else c.took)))

/-- CKPTEND resumes a device that is HELD. -/
def execCkptend (tag : Byte) (fn : Nat) (s : State) : Out :=
  .next (if !s.asked (mbHead 14 tag fn) then s
    else if fn != 0 || s.ckpt.state != .held then s.answer tag 4 []
    else
      let s := { s with ckpt := { s.ckpt with state := .idle } }
      s.answer tag 0 [s.ckpt.code])

/-- A page as it is sent: all `0xFF` where it is poisoned. -/
def State.ckptPage (s : State) (page : Nat) : List Byte :=
  if s.poisoned (65536 * page) 65536 then List.replicate 65536 0xFF else rdBytes s.mem (65536 * page) 65536

/-- The read of a poisoned page leaves its record in its bank. -/
def State.ckptRead (s : State) (page : Nat) : State :=
  if s.poisoned (65536 * page) 65536 then s.poisonRecord (65536 * page) else s

/-- Sends datagram `j` of a page. -/
def State.ckptDatagram (s : State) (port page : Nat) (r d : List Byte) (j : Nat) : State :=
  let f (o n : Nat) : Nat := ofBytes (cutBytes r o n)
  let nonce := toBe 1 7 ++ toBe 3 0 ++ toBe 8 s.ckpt.ctr
  let hdr := amiuxHeader 7 0 0 (65536 * page + 8192 * j) nonce 8192
  let s := s.emit s.ckpt.key port (ofBe (cutBytes r 0 16)) (ofBe (cutBytes r 16 6)) (f 22 2) (f 24 2) amiuxPort nonce hdr
    (cutBytes d (8192 * j) 8192)
  { s with ckpt := { s.ckpt with ctr := s.ckpt.ctr + 1 } }

/-- Sends a page to the host as a record. Its NONCE is not laid down (DESIGN CHOICE, log 3), nor is it said which of its bytes comes first
in the nonce of GCM: the first (DESIGN CHOICE, log 152). -/
def State.ckptRecord (s : State) (page : Nat) : State :=
  let (n, s) := s.fresh
  let nonce := toBytes 12 (Config.freeBits n)
  let (ct, tag) := gcmSeal s.ckpt.key (ofBe nonce) [] (s.ckptPage page)
  let bs := toBytes 8 (65536 * page) ++ nonce ++ toBe 16 tag ++ List.replicate 28 0 ++ ct
  let s := (s.hostPut 0 none (s.ckpt.haddr + 65600 * s.ckpt.host) 3 bs).2
  { s with ckpt := { s.ckpt with host := s.ckpt.host + 1, pages := s.ckpt.pages + 1 } }

/-- A stream can go on: a port while it has link; the host link while it has room for a record, floor(HBYTES / 65,600) in all, and the host
takes it. -/
def State.ckptAlive (s : State) (x : Nat) : Bool :=
  let c := s.ckpt
  if x = 8 then decide (c.host < c.hbytes / 65600) && !s.hostBad (c.haddr + 65600 * c.host) 65600 else s.linkUp x

/-- The pages of a checkpoint: those of present controllers that no shared segment holds. -/
def State.ckptHolds (s : State) (p : Nat) : Bool := !s.stackFenced (65536 * p) && !s.segFrames.contains p

/-- The page that a stream takes next: the lowest that another has left unfinished, or the lowest that none has taken. -/
def State.ckptNext (s : State) : Option Nat :=
  match s.ckpt.redo.find? (fun p => s.ckpt.redo.all (fun q => decide (p ≤ q))) with
  | some p => some p
  | none => ((List.range (stackTop / 65536 - s.ckpt.next)).find? (fun i => s.ckptHolds (s.ckpt.next + i))).map (s.ckpt.next + ·)

/-- The stream takes a page. -/
def State.ckptTake (s : State) (x p : Nat) : State :=
  let c := s.ckpt
  ({ s with ckpt := { c with redo := c.redo.filter (· != p), next := if c.redo.contains p then c.next else p + 1,
                             busy := c.busy ++ [(x, p, 0)] } }).ckptRead p

/-- A stream stops (R475): its unfinished page passes to the others; without a stream the checkpoint has FAILED. -/
def State.ckptDrop (s : State) (x : Nat) : State :=
  let c := s.ckpt
  let c := { c with streams := c.streams.filter (· != x), busy := c.busy.filter (·.1 != x),
                    redo := c.redo ++ ((c.busy.filter (·.1 == x)).map (·.2.1)) }
  let s := { s with ckpt := c }
  if c.streams.isEmpty then s.ckptEnd .failed else s

/-- One step of a stream: it takes a page, sends one of the page's eight datagrams, or its record; one that cannot go on stops. -/
def State.ckptMove (s : State) (x : Nat) : State :=
  let c := s.ckpt
  if !s.ckptAlive x then s.ckptDrop x
  else
    match c.busy.find? (·.1 == x) with
    | none => (match s.ckptNext with | some p => s.ckptTake x p | none => s)
    | some (_, p, j) =>
      let rest := c.busy.filter (·.1 != x)
      if x = 8 then ({ s with ckpt := { c with busy := rest } }).ckptRecord p
      else
        let s := s.ckptDatagram x p (((c.routes.find? (·.1 == x)).map (·.2)).getD []) (s.ckptPage p) j
        let c := s.ckpt
        { s with ckpt := if j = 7 then { c with busy := rest, pages := c.pages + 1, eth := c.eth + 1 }
                         else { c with busy := rest ++ [(x, p, j + 1)] } }

/-- What a freeze of every binding leaves to be done (R474): a core that runs, a carried access. -/
def State.ckptWaits (s : State) : Bool :=
  s.cores.any (·.2.running) || s.conts.any (·.2.settling) || s.ops.any (fun o => o.carried && !o.faulted)

/-- A step of a stream of a checkpoint that runs (R474), once every core has frozen and the carried accesses are complete. -/
def State.ckptStep (s : State) (x : Nat) : State :=
  if s.ckpt.state != .running || s.ckptWaits || !s.ckpt.streams.contains x then s else s.ckptMove x

/-- The rest of a copy: steps of streams, each chosen freely, until every page has been sent or no stream is left. -/
def State.ckptRun (s : State) : Nat → State
  | 0 => s
  | k + 1 =>
    if s.ckpt.state != .running then s
    else if s.ckptNext.isNone && s.ckpt.busy.isEmpty then s.ckptEnd .done
    else
      let (n, s) := s.fresh
      -- with no page left to take, a stream that is at work goes on
      let l := if s.ckptNext.isNone then s.ckpt.busy.map (·.1) else s.ckpt.streams
      (s.ckptMove (l.getD (Config.pick n % l.length) 0)).ckptRun k

/-- CHECKPOINT_COPY_END (R474, R475): the pages that are left go out; DONE when every page has been sent, FAILED when no stream is left. Nine
steps send a page, and a stream stops once. -/
def execCheckpointCopyEnd (s : State) : Out :=
  .next (if s.ckpt.state != .running || s.ckptWaits then s else s.ckptRun (100 * (stackTop / 65536) + 100))

/-- CHECKPOINT_STREAM_FAILURE (R475): the stream's link fails. -/
def execCheckpointStreamFailure (stream : Nat) (s : State) : Out :=
  .next (if s.ckpt.state != .running || !s.ckpt.streams.contains stream then s else s.ckptDrop stream)

/-! ## MAILBOX_REPLY (R434, R461) -/

/-- The commands of the mailbox that the host sends. -/
def hostCmd (c : Nat) : Bool := decide (3 ≤ c ∧ c ≤ 14)

/-- The answer to a self-test whose binding has ended, or that has not been placed within 100 ms, when its request is withdrawn (R434). -/
def State.testAnswer (s : State) (t : SelfTest) : Option State :=
  let mine (m : Nat) : Bool := t.mc == some m
  let placed := s.binds.any (fun e => e.2.live && mine e.2.mc && !e.2.only.isEmpty)
  if t.ended then some (({ s with selfTest := none } : State).answer t.tag 0 (toBytes 1 t.status))
  else if placed || decide (s.rtc.toNat < t.since + 100000000) then none
  else
    let s := match t.mc with
      | some m => s.onMc m (fun m => { m with rqtail := if m.rqhead = m.rqtail then m.rqtail else m.rqtail - 1 })
      | none => s
    some (({ s with selfTest := none, reserves := s.reserves.filter (fun r => !mine r.mc) } : State).answer t.tag 0 (toBytes 1 3))

/-- What a failed self-test does as its reply is given. -/
def State.testReply (s : State) (bs : List Byte) : State :=
  if rdNum s.mbreq 0 1 != 4 then s
  else
    let s := (s.mcs.map (·.1)).foldl (fun s m => s.onMc m (fun x => { x with testOnly := [] })) s
    if bs.getD 4 0 = 1 then s.testFailed (rdNum s.mbreq 4 1) (rdNum s.mbreq 6 2) else s

/-- MAILBOX_REPLY: DONE is set with the answer. A request of another CMD is answered BADCMD. -/
def execMailboxReply (s : State) : Out :=
  let out (s : State) (bs : List Byte) : State := {
    s with mbrsp := wrBytes [] 0 bs, mbDone := true, mbBusy := false, mbReply := none,
           outbox := s.outbox ++ [.mailbox (bs.headD 0) (bs.getD 1 0).toNat] }
  .next (if !s.mbBusy then s
    else
      match s.mbReply with
      | some bs => out (s.testReply bs) bs
      | none =>
        if hostCmd (rdNum s.mbreq 0 1) then
          (match s.selfTest.bind s.testAnswer with
           | some t => (match t.mbReply with
             | some bs => out (t.testReply bs) bs
             | none => s)
           | none => s)
        else
          match (s.answer (rdByte s.mbreq 1) 1 []).mbReply with
          | some bs => out s bs
          | none => s)

end Sys2Proof.Machine
end

