-- ==== Sys2Proof/Machine/Bringup.lean ====
section
/-!
DEFINITION. Power-up, islands, the fatal state (spec/17_bringup.md R463 to R467, R471 to R473, R476, R477), SPDM (R468) and accesses of the host over
CXL.mem (spec/13_memory_model.md R370, spec/16_host.md R455).
-/
namespace Sys2Proof.Machine
set_option Elab.async false
open Sys2Proof

/-! ## Power (R26, R463, R465, R476) -/

/-- The device without power, or at the start of bring-up, where every link is held in reset: of the state before, only what lies outside
the device is left (DEDUCED, log 126). -/
def State.blank (s : State) (ph : Phase) : State :=
  { State.reset with inbox := s.inbox, outbox := s.outbox, free := s.free, host := s.host, hostErr := s.hostErr, phase := ph }

/-- The ROM's check of a board image (R465): the vendor root key is the one whose hash the ROM holds, and its signature over every other
byte of the image verifies. -/
def imageOk (img : BoardImage) : Bool := sha512 (keyBytes img.rootKey) == Config.rootHash && ecdsaOk img.rootKey img.bytes img.sig

/-- Steps 1 and 2: an image with a bad signature or a low SVN ends bring-up in the fatal state with BOOTERR. -/
def State.startBoot (s : State) (img : BoardImage) : State :=
  if !imageOk img || decide (img.svn < img.minSvn) then { s.blank .fatal with booterr := true }
  else
    let u : Units := ⟨img.pens, img.clusters, img.hbm, img.eth⟩
    { s.blank .boot with image := some img, factory := u, units := u }

/-- POWER_GOOD, for a device without power or right after reset. -/
def execPowerGood (img : BoardImage) (s : State) : Out :=
  .next (if s.phase == .off || (s.phase == .boot && s.image.isNone) then s.startBoot img else s)
/-- I3C_RESET: the board controller's RESET command restarts bring-up from step 1. -/
def execI3cReset (img : BoardImage) (s : State) : Out := .next (if s.phase == .off then s else s.startBoot img)
def execPowerRemoval (s : State) : Out := .next (s.blank .off)

/-! ## Bring-up (R463, R466) -/

/-- The numbers below `n` that a mask holds. -/
def bitsIn {w : Nat} (b : BitVec w) (n : Nat) : List Nat := (List.range n).filter (fun i => b.getLsbD i)

/-- A contained record of KIND 6 for a unit that fails in bring-up; the bank group of a pen or cluster and SOURCE are not named
(DESIGN CHOICE, log 3). -/
def State.bootRecord (s : State) (die unit : Nat) (group : Option Nat) : State :=
  let (n, s) := s.fresh
  let (k, s) := s.fresh
  let b := match group with
    | some g => g
    | none => 8 * die + Config.pick n % 8
  s.mcRecord { bank := b, sev := 2, kind := 6, unit := unit, source := Config.freeBits k % 256 }

/-- The records of the units of the factory map that fail. -/
def State.bootRecords (s : State) (img : BoardImage) : State :=
  let s := (bitsIn (img.pens &&& img.badPens) 192).foldl (fun s i => s.bootRecord (i / 48) i none) s
  let s := (bitsIn (img.clusters &&& img.badClusters) 48).foldl (fun s i => s.bootRecord (i / 12) i none) s
  let s := (bitsIn (img.hbm &&& img.badHbm) 12).foldl (fun s i => s.bootRecord (i / 3) i (some (8 * (i / 3) + 7))) s
  (bitsIn (img.eth &&& img.badEth) 64).foldl (fun s i => s.bootRecord 0 (i / 8) (some 32)) s

/-- BRINGUP_COMPLETE: steps 3 to 7: what fails is fenced, the unit map is published, READY is set; or bring-up ends in the fatal
state. -/
def execBringupComplete (s : State) : Out :=
  .next (match s.image with
    | none => s
    | some img =>
      if s.phase != .boot then s
      else
        let s := s.bootRecords img
        let u : Units := ⟨img.pens &&& ~~~img.badPens, img.clusters &&& ~~~img.badClusters, img.hbm &&& ~~~img.badHbm,
                          img.eth &&& ~~~img.badEth⟩
        if img.d2dFail || img.ioFail || img.hostFail || u.clusters = 0 || u.hbm = 0 then { s with phase := .fatal, units := u }
        else
          let s := { s with units := u, mapver := 1, phase := .ready }
          { s with mapAtReady := s.unitMapBody })

/-! ## Islands (R472, R473) -/

/-- An island that throttles. -/
def throttles (i : Nat) : Bool := decide (i < 56) && i != 52 && i != 53

/-- A cause to throttle holds, or the step has fallen: the next fall comes 1 ms later at the earliest (DEDUCED, log 158). -/
def State.calm (s : State) (i : Nat) : State := { s with calmAt := SMap.set 0 s.calmAt i (s.rtc.toNat + 1000000) }

/-- THROTTLE_STEP_UP: a cause to throttle holds, and k rises by one step, at most once per 10 µs. -/
def execThrottleStepUp (i : Nat) (s : State) : Out :=
  let k := SMap.get 0 s.islands i
  .next (if !throttles i then s
    else if 8 ≤ k || decide (s.rtc.toNat < SMap.get 0 s.raiseAt i) then s.calm i
    else { s.calm i with islands := SMap.set 0 s.islands i (k + 1), raiseAt := SMap.set 0 s.raiseAt i (s.rtc.toNat + 10000) })
/-- THROTTLE_STEP_DOWN: no cause has held for 1 ms, and k falls by one step. -/
def execThrottleStepDown (i : Nat) (s : State) : Out :=
  .next (if !throttles i || decide (s.rtc.toNat < SMap.get 0 s.calmAt i) then s else { s.calm i with islands := SMap.set 0 s.islands i (SMap.get 0 s.islands i - 1) })
/-- THERMAL_TRIP: a sensor at or above 110 °C is a fatal error of the POWER bank; KIND and SOURCE are not named (DESIGN CHOICE, log 3). -/
def execThermalTrip (i : Nat) (s : State) : Out :=
  let (n, t) := s.fresh
  let (k, t) := t.fresh
  .next { t.mcRecord { bank := 39, sev := 3, kind := Config.freeBits n % 256, unit := i, source := Config.freeBits k % 256 } with
    phase := .fatal }

/-! ## Links and the test port -/

/-- ETHERNET_LINK_CHANGE. -/
def execEthernetLinkChange (port : Nat) (up : Bool) (s : State) : Out :=
  let m : BitVec 8 := 1#8 <<< port
  .next { s with links := if up then s.links ||| m else s.links &&& ~~~m }

/-- BOUNDARY_SCAN (R477): the port is open before step 2, and after it when the image sets DEBUG. It shows the package's signals and
changes nothing (DESIGN CHOICE, log 104). -/
def execBoundaryScan (s : State) : Out :=
  let opened := match s.image with
    | none => true
    | some img => img.debug
  .next (if opened && s.phase != .off then { s with outbox := s.outbox ++ [.scan] } else s)

/-! ## CXL.mem (R370, R455) -/

/-- CXL_MEM_ACCESS: the decoder maps host physical addresses onto device physical addresses from 0 on. Tentative lines are committed first
(R371); a read of poisoned memory is answered as poisoned (R471) (PRESUMED, log 157). -/
def execCxlMemAccess (addr : Nat) (write : Option (List Byte)) (len : Nat) (s : State) : Out :=
  let n := match write with
    | some bs => bs.length
    | none => len
  .next (if !s.cxlen || stackTop < addr + n then s
    else
      let s := s.commitLines none addr n
      match write with
      | some bs => (s.putMem 0 addr bs).2
      | none => if s.poisoned addr n then { s.poisonRecord addr with outbox := s.outbox ++ [.poisoned 0] }
        else { s with outbox := s.outbox ++ [.cxl (rdBytes s.mem addr n)] })

/-! ## Reads from outside (R20, R435, R464, R476) -/

/-- A configuration read: all 64 functions are there (DESIGN CHOICE, log 125). -/
def State.configRead (s : State) (fn off : Nat) : State :=
  if 63 < fn then s
  else { s with outbox := s.outbox ++ [.config fn off (Config.configSpace fn off (SMap.get none s.config (fn * 4096 + off % 4096)))] }

/-- A configuration write of 4 bytes: it is kept, and one of the right bits starts a function-level reset (R459) (DESIGN CHOICE, log 125). -/
def State.configWrite (s : State) (fn off v : Nat) : State :=
  if 63 < fn then s
  else
    let s := { s with config := SMap.set none s.config (fn * 4096 + off % 4096) (some (v % 2 ^ 32)), outbox := s.outbox ++ [.configDone fn off] }
    if Config.startsReset (off % 4096) (v % 2 ^ 32) then
      match execFunctionLevelReset fn s with
      | .next t => t
      | _ => s
    else s

/-- A read of the board controller over I3C: STATUS and BOOTERR, or the 32 bytes of a bank (DESIGN CHOICE, log 125). -/
def State.i3cRead (s : State) (bank : Option Nat) : State :=
  let bs := match bank with
    | none => toBytes 8 s.statusReg ++ toBytes 1 (bit s.booterr 0)
    | some b => rdBytes (readFields bankFields (SMap.get {} s.banks b)) 0 32
  { s with outbox := s.outbox ++ [.i3c bs] }

/-! ## SPDM (R468; the message formats are those of SPDM 1.3, PRESUMED, log 33) -/

/-- A response: version 1.3, code, two parameters, body. -/
def spdm (code p1 p2 : Nat) (body : List Byte) : List Byte := toBytes 1 0x13 ++ toBytes 1 code ++ toBytes 1 p1 ++ toBytes 1 p2 ++ body
def spdmError (e : Nat) : List Byte := spdm 0x7F e 0 []

/-- The PF answers, once verified firmware runs; VFs answer nothing. -/
def State.spdmAnswer (s : State) (fn : Nat) (bytes : List Byte) : State :=
  if fn = 0 && s.image.isSome then { s with outbox := s.outbox ++ [.spdm fn bytes] } else s

/-- Requests that need the agreed version, or algorithms too. -/
def State.spdmIf (s : State) (fn : Nat) (ok : Bool) (bytes : List Byte) : State :=
  s.spdmAnswer fn (if ok then bytes else spdmError 4)

def execGetVersion (fn : Nat) (s : State) : Out :=
  let s' := if fn = 0 && s.image.isSome then { s with spdmVer := true, spdmAlg := false } else s
  .next (s'.spdmAnswer fn ([0x10, 0x04, 0, 0, 0, 1] ++ toBytes 2 0x1300))

/-- GET_CAPABILITIES: certificates, challenge, measurements with signature; the timing exponent and the sizes are free (DESIGN CHOICE, log 3). -/
def execGetCapabilities (fn : Nat) (s : State) : Out :=
  let (n, t) := s.fresh
  let (k, t) := t.fresh
  .next (t.spdmIf fn s.spdmVer (spdm 0x61 0 0 ([0] ++ toBytes 1 (Config.freeBits n) ++ toBytes 2 0 ++ toBytes 4 0x16
    ++ toBytes 8 (Config.freeBits k))))

/-- NEGOTIATE_ALGORITHMS: ECDSA P-521 and SHA-512, or no agreement. -/
def execNegotiateAlgorithms (fn : Nat) (p521 sha512 : Bool) (s : State) : Out :=
  let ok := p521 && sha512
  let s' := if fn = 0 && s.image.isSome && s.spdmVer then { s with spdmAlg := ok } else s
  .next (s'.spdmIf fn s.spdmVer (if ok then
      spdm 0x63 0 0 (toBytes 2 36 ++ [1, 0] ++ toBytes 4 8 ++ toBytes 4 0x100 ++ toBytes 4 4 ++ toBytes 12 0 ++ toBytes 4 0)
    else spdmError 1))

/-- The certificate chain of the one slot: the identity certificate of the board image (R467) (DESIGN CHOICE, log 17). -/
def State.certChain (s : State) : List Byte :=
  match s.image with
  | some img => img.cert
  | none => []

def execGetDigests (fn : Nat) (s : State) : Out :=
  .next (s.spdmIf fn s.spdmAlg (spdm 0x01 0 1 (sha512 s.certChain)))

/-- GET_CERTIFICATE: a portion of the chain of slot 0. -/
def execGetCertificate (fn slot off len : Nat) (s : State) : Out :=
  let c := s.certChain
  let p := (c.drop off).take len
  .next (s.spdmIf fn s.spdmAlg (if slot != 0 || decide (c.length < off) then spdmError 1
    else spdm 0x02 0 0 (toBytes 2 p.length ++ toBytes 2 (c.length - off - p.length) ++ p)))

/-- The value of a measurement (R468, R477) (DESIGN CHOICE, log 103). -/
def State.measure (s : State) (i : Nat) : List Byte :=
  match i with
  | 1 => toBytes 64 Config.romHash.toNat
  | 2 => match s.image with
    | some img => sha512 img.bytes ++ toBytes 8 img.svn ++ toBytes 1 (if img.debug then 1 else 0)
    | none => []
  | 3 => sha512 s.mapAtReady
  | _ => sha512 s.unitMapBody

/-- A measurement block. -/
def State.measureBlock (s : State) (i : Nat) : List Byte :=
  let v := s.measure i
  toBytes 1 i ++ [1] ++ toBytes 2 (v.length + 3) ++ [0x01] ++ toBytes 2 v.length ++ v

/-- CHALLENGE of slot 0: the hash of the chain, a fresh nonce, the hash of all measurements, and the signature over the request's nonce
and the response. -/
def execChallenge (fn slot : Nat) (nonce : BitVec 256) (s : State) : Out :=
  let (n, t) := s.fresh
  let m := spdm 0x03 0 1 (sha512 s.certChain ++ toBytes 32 (Config.freeBits n)
    ++ sha512 ([1, 2, 3, 4].flatMap s.measureBlock) ++ toBytes 2 0 ++ toBytes 8 0)
  .next (t.spdmIf fn s.spdmAlg (if slot != 0 then spdmError 1 else m ++ Config.identitySign (toBytes 32 nonce.toNat ++ m)))

/-- GET_MEASUREMENTS: index 0 asks for their number, 0xFF for all. A response ends with a nonce, no opaque data and the requester's
context; asked for with a nonce, it is signed like a challenge. -/
def execGetMeasurements (fn : Nat) (index : Nat × Option (BitVec 256)) (s : State) : Out :=
  let (index, sign) := index
  let (n, t) := s.fresh
  let done (m : List Byte) : List Byte :=
    let m := m ++ toBytes 32 (Config.freeBits n) ++ toBytes 2 0 ++ toBytes 8 0
    match sign with
    | some nonce => m ++ Config.identitySign (toBytes 32 nonce.toNat ++ m)
    | none => m
  let blocks (l : List Nat) : List Byte :=
    let b := l.flatMap s.measureBlock
    done (spdm 0x60 0 0 (toBytes 1 l.length ++ toBytes 3 b.length ++ b))
  .next (t.spdmIf fn s.spdmAlg (if index = 0 then done (spdm 0x60 4 0 (toBytes 4 0))
    else if index = 0xFF then blocks [1, 2, 3, 4]
    else if index ≤ 4 then blocks [index] else spdmError 1))

/-- The request codes of the seven requests that are supported. -/
def spdmCodes : List Nat := [0x84, 0xE1, 0xE3, 0x81, 0x82, 0x83, 0xE0]
/-- A request of another code, those of session establishment among them: UnsupportedRequest, with the code. -/
def State.spdmOther (s : State) (fn code : Nat) : State :=
  if spdmCodes.contains (code % 256) then s else s.spdmAnswer fn (spdm 0x7F 7 (code % 256) [])

/-! ## What happens in each phase (R26, R464, R476) -/

/-- What can happen to a device that is not READY: power, bring-up, checks, links, the test port, SPDM, and what the host port answers. -/
def earlyEvent : Instr → Bool
  | .powerGood _ => true
  | .bringupComplete => true
  | .i3cReset _ => true
  | .powerRemoval => true
  | .fatalError .. => true
  | .thermalTrip _ => true
  | .ethernetLinkChange .. => true
  | .boundaryScan => true
  | .getVersion _ => true
  | .getCapabilities _ => true
  | .negotiateAlgorithms .. => true
  | .getDigests _ => true
  | .getCertificate .. => true
  | .challenge .. => true
  | .getMeasurements .. => true
  | .cdropRead _ => true
  | .functionLevelReset _ => true
  | _ => false

/-- What can happen to a device without power. -/
def offEvent : Instr → Bool
  | .powerGood _ => true
  | .powerRemoval => true
  | _ => false

/-- A move has an effect in a phase. -/
def Phase.lets (p : Phase) (m : Move) : Bool :=
  match p with
  | .ready => true
  | .off => (match m with | .ev i => offEvent i | _ => false)
  | _ => (match m with
    | .ev i => earlyEvent i
    | .clock => true
    | .hostRead .. => true
    | .configRead .. => true
    | .configWrite .. => true
    | .resetDone _ => true
    | .unsupported _ => true
    | .spdmRequest .. => true
    | .i3cRead _ => true
    | _ => false)

end Sys2Proof.Machine
end

