-- ==== Sys2Proof/Machine/Movement.lean ====
section
/-!
DEFINITION. Slot C, the movement class (spec/12_movement_class.md R329, R330, R335): the issue of its commands and their progress.
-/
namespace Sys2Proof.Machine
set_option Elab.async false
open Sys2Proof

/-! ## Issue -/

/-- What a command reads at issue: s[x], s[y], s[w]. -/
def cWords (r : Arch) (x y w : SReg) : List Nat := [(r.rdS x).toNat, (r.rdS y).toNat, (r.rdS w).toNat]

/-- The handles that endpoint words name. -/
def endRegs (ws : List Nat) : List TReg := (ws.filter endHandle).map endReg

/-- Issue of a C command: COUNTER_FULL, reserved bits and kinds, invalid handles, the fence of a command with FEN, and the
checks of the instruction (R330) (DEDUCED, log 41). -/
def copyIssue (g : Guard) (i : Instr) (x y w : SReg) (bad : List Nat → Bool) (regs : List Nat → List TReg)
    (more : State → List Nat → Option Trap) (paths : List Nat → BitVec 6) (s : State) : Out :=
  let ws (s : State) : List Nat := cWords s.arch x y w
  issue 6 g
    (fun s => firstTrap [s.ctrFull .cpo, trapIf (bad (ws s)) 64 1, s.arch.tileInvalid (regs (ws s)),
      if copyFen i then s.fenceCheck (BitVec.ofNat 64 (ctrlFence ((ws s).getD 2 0))) else none, more s (ws s)])
    (fun _ => none)
    (fun s => (s.startOp .cpo { s.newOp .copy 6 i with
      x := ws s, hs := (regs (ws s)).map (fun r => (r, s.arch.rdT r)), paths := paths (ws s), crc := crcStart,
      dat := s.keyFor i }).commitPoint) s

def noTrap (_ : State) (_ : List Nat) : Option Trap := none

def execCpy (g : Guard) (x y w : SReg) (sat fen : BitVec 1) (crc : Option Word32) (s : State) : Out :=
  copyIssue g (.cpy g x y w sat fen crc) x y w
    (fun l => endBad (l.getD 0 0) || endBad (l.getD 1 0) || (endHandle (l.getD 0 0) && endHandle (l.getD 1 0))
      || bitsOf (l.getD 2 0) 48 16 != 0 || bitsOf (l.getD 2 0) 12 20 != 0)
    (fun l => endRegs (l.take 2)) noTrap (fun l => if (endRegs (l.take 2)).isEmpty then 4 else 6) s

/-- The checks that GATH and SCAT share: the handle endpoint, the tensor endpoint and the control word. -/
def rowBad (h t w : Nat) : Bool :=
  endBad h || endBad t || !endHandle h || endHandle t || endOrigin t != 0
    || bitsOf w 48 16 != 0 || bitsOf w 28 4 != 0 || bitsOf w 8 8 != 0
/-- The index handle is INT32. -/
def idxTrap (s : State) (l : List Nat) : Option Trap :=
  trapIf ((s.arch.rdT (BitVec.ofNat 8 (l.getD 2 0))).fmt != 8) 64 5

def execGath (g : Guard) (x y w : SReg) (sat fen : BitVec 1) (crc : Option Word32) (s : State) : Out :=
  copyIssue g (.gath g x y w sat fen crc) x y w (fun l => rowBad (l.getD 0 0) (l.getD 1 0) (l.getD 2 0))
    (fun l => [endReg (l.getD 0 0), BitVec.ofNat 8 (l.getD 2 0)]) idxTrap (fun _ => 6) s
def execScat (g : Guard) (x y w : SReg) (sat fen : BitVec 1) (crc : Option Word32) (s : State) : Out :=
  copyIssue g (.scat g x y w sat fen crc) x y w (fun l => rowBad (l.getD 1 0) (l.getD 0 0) (l.getD 2 0))
    (fun l => [endReg (l.getD 1 0), BitVec.ofNat 8 (l.getD 2 0)]) idxTrap (fun _ => 6) s

def execCpyn (g : Guard) (x y w : SReg) (fen : BitVec 1) (s : State) : Out :=
  copyIssue g (.cpyn g x y w fen) x y w
    (fun l =>
      let d := l.getD 0 0
      endBad (l.getD 1 0) || !endHandle (l.getD 1 0) || bitsOf (l.getD 2 0) 48 16 != 0 || bitsOf (l.getD 2 0) 0 16 != 0
        || (if d.testBit 63 then bitsOf d 48 15 != 0 || bitsOf d 12 4 != 0 else d != 0))
    (fun l => [endReg (l.getD 1 0)])
    (fun s l => firstTrap [trapIf (!(l.getD 0 0).testBit 63 && (s.bindAt s.core.bind).req.isNone) 65 2,
      trapIf (decide (8192 < bitsOf (l.getD 2 0) 16 16)) 65 3])
    (fun _ => 0x22) s

def execNrecv (g : Guard) (x y w : SReg) (fen : BitVec 1) (s : State) : Out :=
  copyIssue g (.nrecv g x y w fen) x y w
    (fun l => endBad (l.getD 0 0) || !endHandle (l.getD 0 0) || bitsOf (l.getD 1 0) 48 16 != 0 || bitsOf (l.getD 1 0) 0 16 != 0
      || bitsOf (l.getD 2 0) 48 16 != 0 || bitsOf (l.getD 2 0) 0 32 != 0)
    (fun l => [endReg (l.getD 0 0)]) noTrap (fun _ => 0x22) s

def execRing (g : Guard) (x y w : SReg) (s : State) : Out :=
  copyIssue g (.ring g x y w) x y w
    (fun l => endBad (l.getD 0 0) || endBad (l.getD 1 0) || !endHandle (l.getD 0 0) || !endHandle (l.getD 1 0)
      || bitsOf (l.getD 2 0) 56 8 != 0 || bitsOf (l.getD 2 0) 12 4 != 0)
    (fun l => endRegs (l.take 2))
    (fun s l =>
      let d := s.arch.rdT (endReg (l.getD 0 0))
      let e := s.arch.rdT (endReg (l.getD 1 0))
      trapIf (d.rowsm1 != e.rowsm1 || d.rbm1 != e.rbm1 || d.fmt != e.fmt || d.fmt != 0 || decide (d.rb < 1032)
        || decide (8192 < d.rows * d.rb)) 65 4)
    (fun _ => 0x22) s

def execCseg (g : Guard) (x y w : SReg) (nowait : BitVec 1) (s : State) : Out :=
  copyIssue g (.cseg g x y w nowait) x y w (fun l => decide (l.getD 0 0 < 0x80) || decide (0xFE < l.getD 0 0)) (fun _ => []) noTrap
    (fun _ => 0) s

/-! ## Progress -/

/-- C_COMMAND_COMPLETE (R331 to R349): the next piece of work of a command: its start, an element or a row, a packet, a match;
with the last one it completes. -/
def execCCommandComplete (id : Nat) (s : State) : Out :=
  .next (match s.opAt id with
    | some o => if o.kind != .copy || o.faulted || o.asleep || !s.onItsCore o then s else s.copyRun o
    | none => s)

/-- RING_TIMEOUT (R348): RINGTO has passed since the issue of a RING without a match. -/
def execRingTimeout (id : Nat) (s : State) : Out :=
  .next (match s.opAt id with
    | some o =>
      if o.kind != .copy || o.faulted || o.asleep || !s.onItsCore o || (s.msgOf o).isSome then s
      else
        match o.instr with
        | .ring .. =>
          (match s.ringLate o with
           | (.ok true, s) => s.ringBreak o
           | (.ok false, s) => s
           | (.fault t, s) => s.lateOp o t
           | (.wait w, s) => s.waitOn o w)
        | _ => s
    | none => s)

end Sys2Proof.Machine
end

