-- ==== Sys2Proof/Machine/Scalar.lean ====
section
/-!
DEFINITION. Slot S, the scalar class (spec/06_scalar_class.md R176 to R195).
-/
namespace Sys2Proof.Machine
set_option Elab.async false
open Sys2Proof

/-- Width of a form whose bit 0 selects `.w` (R177, R179). -/
def formW (f : BitVec 3) : Nat := if f.getLsbD 0 then 32 else 64

/-- SignExtend(Truncate(value, w), 64) (R180). -/
def sxW (w : Nat) (v : Int) : Word := BitVec.ofInt 64 (toSigned w (truncInt w v))

/-- One s result of latency `lat` (R176, R178). -/
def sRes (lat : Nat) (d : SReg) (v : Word) (s : State) : State := s.result lat 1 0 (.s d v)

/-- An S instruction with an s result computed from the registers at issue. -/
def sOp (lat : Nat) (g : Guard) (d : SReg) (f : Arch → Word) (s : State) : Out :=
  issueF 1 g (fun s => sRes lat d (f s.arch) s) s

/-- An S instruction with a p result of latency 1. -/
def pOp (g : Guard) (d : PReg) (f : Arch → Bool) (s : State) : Out :=
  issueF 1 g (fun s => s.result 1 1 0 (.p d (f s.arch))) s

/-! ## Integer arithmetic (R179 to R181) -/

/-- ADD and SUB: the exact value, wrapped or clamped, with SV (R180). -/
def addSub (neg : Bool) (f : BitVec 3) (a b : Word) : Word × Flags :=
  let w := formW f
  let x := toSigned w a.toNat
  let y := toSigned w b.toNat
  let v := if neg then x - y else x + y
  if f.getLsbD 1 then
    let c := clampInt (minInt w) (maxInt w) v
    (BitVec.ofInt 64 c, if c = v then 0 else fSV)
  else (sxW w v, 0)

def addSubOp (neg : Bool) (g : Guard) (d a b : SReg) (f : BitVec 3) (s : State) : Out :=
  issueF 1 g (fun s =>
    let (v, fl) := addSub neg f (s.arch.rdS a) (s.arch.rdS b)
    s.result 1 1 fl (.s d v)) s

def execAdd (g : Guard) (d a b : SReg) (f : BitVec 3) (s : State) : Out := addSubOp false g d a b f s
def execSub (g : Guard) (d a b : SReg) (f : BitVec 3) (s : State) : Out := addSubOp true g d a b f s

def execAddi (g : Guard) (d a : SReg) (imm : BitVec 9) (ext : Option Word32) (s : State) : Out :=
  sOp 1 g d (fun r => r.rdS a + immOr 64 imm ext) s

/-- A function of the low `w` bits of two sources, read as signed integers (R180). -/
def signedOp (lat : Nat) (g : Guard) (d a b : SReg) (f : BitVec 3) (h : Nat → Int → Int → Int) (s : State) : Out :=
  let w := formW f
  sOp lat g d (fun r => sxW w (h w (toSigned w (r.rdS a).toNat) (toSigned w (r.rdS b).toNat))) s

/-- The same, read as unsigned. -/
def unsignedOp (lat : Nat) (g : Guard) (d a b : SReg) (f : BitVec 3) (h : Nat → Nat → Nat → Nat) (s : State) : Out :=
  let w := formW f
  sOp lat g d (fun r => sxW w (h w ((r.rdS a).toNat % 2 ^ w) ((r.rdS b).toNat % 2 ^ w) : Nat)) s

/-- Latency of a division (R178). -/
def divLat (f : BitVec 3) : Nat := if f.getLsbD 0 then 14 else 24

def divS (w : Nat) (x y : Int) : Int := if y = 0 then -1 else if x = minInt w ∧ y = -1 then x else x.tdiv y
def remS (w : Nat) (x y : Int) : Int :=
  if y = 0 then x else if x = minInt w ∧ y = -1 then 0 else x - y * x.tdiv y
def divU (w : Nat) (x y : Nat) : Nat := if y = 0 then 2 ^ w - 1 else x / y
def remU (_ : Nat) (x y : Nat) : Nat := if y = 0 then x else x % y

def execMul (g : Guard) (d a b : SReg) (f : BitVec 3) (s : State) : Out :=
  signedOp 3 g d a b f (fun _ x y => x * y) s
def execMulh (g : Guard) (d a b : SReg) (s : State) : Out :=
  signedOp 3 g d a b 0 (fun _ x y => (x * y) / ((2 ^ 64 : Nat) : Int)) s
def execMulhu (g : Guard) (d a b : SReg) (s : State) : Out :=
  unsignedOp 3 g d a b 0 (fun _ x y => x * y / 2 ^ 64) s
def execDiv (g : Guard) (d a b : SReg) (f : BitVec 3) (s : State) : Out := signedOp (divLat f) g d a b f divS s
def execDivu (g : Guard) (d a b : SReg) (f : BitVec 3) (s : State) : Out := unsignedOp (divLat f) g d a b f divU s
def execRem (g : Guard) (d a b : SReg) (f : BitVec 3) (s : State) : Out := signedOp (divLat f) g d a b f remS s
def execRemu (g : Guard) (d a b : SReg) (f : BitVec 3) (s : State) : Out := unsignedOp (divLat f) g d a b f remU s

/-! ## Logic (R182) -/

def execAnd (g : Guard) (d a b : SReg) (s : State) : Out := sOp 1 g d (fun r => r.rdS a &&& r.rdS b) s
def execOr (g : Guard) (d a b : SReg) (s : State) : Out := sOp 1 g d (fun r => r.rdS a ||| r.rdS b) s
def execXor (g : Guard) (d a b : SReg) (s : State) : Out := sOp 1 g d (fun r => r.rdS a ^^^ r.rdS b) s
def execAndn (g : Guard) (d a b : SReg) (s : State) : Out := sOp 1 g d (fun r => r.rdS a &&& ~~~ r.rdS b) s
def execAndi (g : Guard) (d a : SReg) (imm : BitVec 9) (ext : Option Word32) (s : State) : Out :=
  sOp 1 g d (fun r => r.rdS a &&& immOr 64 imm ext) s
def execOri (g : Guard) (d a : SReg) (imm : BitVec 9) (ext : Option Word32) (s : State) : Out :=
  sOp 1 g d (fun r => r.rdS a ||| immOr 64 imm ext) s
def execXori (g : Guard) (d a : SReg) (imm : BitVec 9) (ext : Option Word32) (s : State) : Out :=
  sOp 1 g d (fun r => r.rdS a ^^^ immOr 64 imm ext) s

/-! ## Shifts and bit operations (R183 to R185) -/

def shl (w x n : Nat) : Nat := if n < w then x * 2 ^ n % 2 ^ w else 0
def shr (w x n : Nat) : Nat := if n < w then x / 2 ^ n else 0
def shra (w : Nat) (x : Int) (n : Nat) : Int := if n < w then x / ((2 ^ n : Nat) : Int) else if x < 0 then -1 else 0
/-- Rotation to the right. -/
def rotR (w x n : Nat) : Nat :=
  let k := n % w
  x / 2 ^ k + x % 2 ^ k * 2 ^ (w - k)

/-- A shift of the low `w` bits of s[a] by an unsigned count. -/
def shiftOp (g : Guard) (d a : SReg) (w : Nat) (h : Nat → Nat → Nat → Int) (n : Arch → Nat) (s : State) : Out :=
  sOp 1 g d (fun r => sxW w (h w ((r.rdS a).toNat % 2 ^ w) (n r))) s

def sllI (w x n : Nat) : Int := shl w x n
def srlI (w x n : Nat) : Int := shr w x n
def sraI (w x n : Nat) : Int := shra w (toSigned w x) n
def rotI (f : BitVec 3) (w x n : Nat) : Int := if f.getLsbD 1 then rotR w x (w - n % w) else rotR w x n

def execSll (g : Guard) (d a b : SReg) (f : BitVec 3) (s : State) : Out :=
  shiftOp g d a (formW f) sllI (fun r => (r.rdS b).toNat) s
def execSrl (g : Guard) (d a b : SReg) (f : BitVec 3) (s : State) : Out :=
  shiftOp g d a (formW f) srlI (fun r => (r.rdS b).toNat) s
def execSra (g : Guard) (d a b : SReg) (f : BitVec 3) (s : State) : Out :=
  shiftOp g d a (formW f) sraI (fun r => (r.rdS b).toNat) s
def execRot (g : Guard) (d a b : SReg) (f : BitVec 3) (s : State) : Out :=
  shiftOp g d a (formW f) (rotI f) (fun r => (r.rdS b).toNat) s
def execSlli (g : Guard) (d a : SReg) (w : BitVec 1) (c : BitVec 6) (s : State) : Out :=
  shiftOp g d a (if w = 1 then 32 else 64) sllI (fun _ => c.toNat) s
def execSrli (g : Guard) (d a : SReg) (w : BitVec 1) (c : BitVec 6) (s : State) : Out :=
  shiftOp g d a (if w = 1 then 32 else 64) srlI (fun _ => c.toNat) s
def execSrai (g : Guard) (d a : SReg) (w : BitVec 1) (c : BitVec 6) (s : State) : Out :=
  shiftOp g d a (if w = 1 then 32 else 64) sraI (fun _ => c.toNat) s

def execMin (g : Guard) (d a b : SReg) (s : State) : Out :=
  sOp 1 g d (fun r => if (r.rdS b).slt (r.rdS a) then r.rdS b else r.rdS a) s
def execMax (g : Guard) (d a b : SReg) (s : State) : Out :=
  sOp 1 g d (fun r => if (r.rdS a).slt (r.rdS b) then r.rdS b else r.rdS a) s
def execMinu (g : Guard) (d a b : SReg) (s : State) : Out :=
  sOp 1 g d (fun r => if r.rdS b < r.rdS a then r.rdS b else r.rdS a) s
def execMaxu (g : Guard) (d a b : SReg) (s : State) : Out :=
  sOp 1 g d (fun r => if r.rdS a < r.rdS b then r.rdS b else r.rdS a) s

/-- Leading zeros of the low `w` bits (R185). -/
def clzN (w x : Nat) : Nat := if x = 0 then w else w - 1 - Nat.log2 x
/-- Trailing zeros of the low `w` bits. -/
def ctzN (w x : Nat) : Nat := ((firstIdx (fun i => x.testBit i) w 0)).getD w

/-- A count of the low `w` bits of s[a] (R177: a count is not sign-extended). -/
def countOp (g : Guard) (d a : SReg) (f : BitVec 3) (h : Nat → Nat → Nat) (s : State) : Out :=
  let w := formW f
  sOp 1 g d (fun r => BitVec.ofNat 64 (h w ((r.rdS a).toNat % 2 ^ w))) s

def execClz (g : Guard) (d a : SReg) (f : BitVec 3) (s : State) : Out := countOp g d a f clzN s
def execCtz (g : Guard) (d a : SReg) (f : BitVec 3) (s : State) : Out := countOp g d a f ctzN s
def execPopc (g : Guard) (d a : SReg) (f : BitVec 3) (s : State) : Out := countOp g d a f popCount s
/-- Width that SEXT and ZEXT take (R179). -/
def extW (f : BitVec 3) : Nat := 8 * 2 ^ f.toNat
def execSext (g : Guard) (d a : SReg) (f : BitVec 3) (s : State) : Out :=
  sOp 1 g d (fun r => sxW (extW f) ((r.rdS a).toNat : Int)) s
def execZext (g : Guard) (d a : SReg) (f : BitVec 3) (s : State) : Out :=
  sOp 1 g d (fun r => BitVec.ofNat 64 ((r.rdS a).toNat % 2 ^ extW f)) s

/-! ## Constants and selection (R186, R190) -/

def execLi (g : Guard) (d : SReg) (imm : BitVec 15) (ext : Option Word32) (s : State) : Out :=
  sOp 1 g d (fun _ => immOr 64 imm ext) s
def execLih (g : Guard) (d : SReg) (ext : Word32) (s : State) : Out :=
  sOp 1 g d (fun r => ext ++ (r.rdS d).truncate 32) s
def execSel (g : Guard) (d a b : SReg) (q : BitVec 3) (s : State) : Out :=
  sOp 1 g d (fun r => if r.rdP (q.zeroExtend 4) then r.rdS a else r.rdS b) s

/-! ## Comparisons and predicates (R187 to R189) -/

def execCmp (g : Guard) (pd : PReg) (a b : SReg) (cond : BitVec 5) (s : State) : Out :=
  pOp g pd (fun r => icond 64 cond.toNat (r.rdS a).toNat (r.rdS b).toNat) s
def execCmpi (g : Guard) (pd : PReg) (a : SReg) (cond : BitVec 5) (imm : BitVec 6) (ext : Option Word32) (s : State) : Out :=
  pOp g pd (fun r => icond 64 cond.toNat (r.rdS a).toNat (immOr 64 imm ext).toNat) s
def execPand (g : Guard) (pd pa pb : PReg) (s : State) : Out := pOp g pd (fun r => r.rdP pa && r.rdP pb) s
def execPor (g : Guard) (pd pa pb : PReg) (s : State) : Out := pOp g pd (fun r => r.rdP pa || r.rdP pb) s
def execPxor (g : Guard) (pd pa pb : PReg) (s : State) : Out := pOp g pd (fun r => r.rdP pa != r.rdP pb) s
def execPandn (g : Guard) (pd pa pb : PReg) (s : State) : Out := pOp g pd (fun r => r.rdP pa && !r.rdP pb) s

/-! ## Floating point (R191, R192) -/

/-- The FP32 value in bits [31:0] of an s register. -/
def Arch.f32 (a : Arch) (r : SReg) : FVal := FFmt.fp32.decode ((a.rdS r).toNat % 2 ^ 32)

/-- An FP32 instruction: the exact result rounded once, zero-extended (R191). -/
def fOp (lat : Nat) (g : Guard) (d : SReg) (rm : BitVec 3) (f : Rm → Arch → Ex) (s : State) : Out :=
  issueF 1 g (fun s =>
    let m := Rm.ofField s.arch.rmode rm
    let (y, fl) := FFmt.fp32.round m false (f m s.arch)
    s.result lat 1 fl (.s d (BitVec.ofNat 64 y))) s

def execFadd (g : Guard) (d a b : SReg) (rm : BitVec 3) (s : State) : Out :=
  fOp 4 g d rm (fun m r => addV m (r.f32 a) (r.f32 b)) s
def execFsub (g : Guard) (d a b : SReg) (rm : BitVec 3) (s : State) : Out :=
  fOp 4 g d rm (fun m r => addV m (r.f32 a) (r.f32 b).negate) s
def execFmul (g : Guard) (d a b : SReg) (rm : BitVec 3) (s : State) : Out :=
  fOp 4 g d rm (fun _ r => mulEx (r.f32 a) (r.f32 b)) s
def execFfma (g : Guard) (d a b : SReg) (rm : BitVec 3) (s : State) : Out :=
  fOp 4 g d rm (fun m r => fmaEx m (r.f32 a) (r.f32 b) (r.f32 d)) s
def execFdiv (g : Guard) (d a b : SReg) (rm : BitVec 3) (s : State) : Out :=
  fOp 12 g d rm (fun _ r => divEx (r.f32 a) (r.f32 b)) s
def execFsqrt (g : Guard) (d a : SReg) (rm : BitVec 3) (s : State) : Out :=
  fOp 12 g d rm (fun _ r => sqrtEx (r.f32 a)) s

def fMinMax (mx : Bool) (g : Guard) (d a b : SReg) (s : State) : Out :=
  issueF 1 g (fun s =>
    let (y, fl) := FFmt.fp32.minMax mx ((s.arch.rdS a).toNat % 2 ^ 32) ((s.arch.rdS b).toNat % 2 ^ 32)
    s.result 1 1 fl (.s d (BitVec.ofNat 64 y))) s

def execFmin (g : Guard) (d a b : SReg) (s : State) : Out := fMinMax false g d a b s
def execFmax (g : Guard) (d a b : SReg) (s : State) : Out := fMinMax true g d a b s

def execFcmp (g : Guard) (pd : PReg) (a b : SReg) (cond : BitVec 5) (s : State) : Out :=
  issueF 1 g (fun s =>
    let (r, nv) := fcondV cond.toNat (s.arch.f32 a) (s.arch.f32 b)
    s.result 1 1 (if nv then fNV else 0) (.p pd r)) s

/-! ## Conversions (R193) -/

/-- The value and the flags of an FCVT code on a source register value. -/
def fcvtVal (code : Nat) (rm : Rm) (sat : Bool) (x : Nat) : Word × Flags :=
  let nat (r : Nat × Flags) : Word × Flags := (BitVec.ofNat 64 r.1, r.2)
  let toI (w : Nat) : Word × Flags :=
    let (v, fl) := toIntF rm (minInt w) (maxInt w) (FFmt.fp32.decode (x % 2 ^ 32))
    (BitVec.ofInt 64 v, fl)
  match code with
  | 0 => toI 32
  | 1 => toI 64
  | 2 => nat (FFmt.fp32.round rm false (FVal.ofInt (toSigned 32 x)).toEx)
  | 3 => nat (FFmt.fp32.round rm false (FVal.ofInt (toSigned 64 x)).toEx)
  | 4 => nat (FFmt.fp32.round rm false (FVal.ofInt (x % 2 ^ 64 : Nat)).toEx)
  | 5 => nat (convElem 0 1 rm sat x)
  | 6 => nat (convElem 1 0 rm sat x)
  | 7 => nat (convElem 0 2 rm sat x)
  | 8 => nat (convElem 2 0 rm sat x)
  | 9 => nat (convElem 0 3 rm sat x)
  | 10 => nat (convElem 3 0 rm sat x)
  | 11 => nat (convElem 0 4 rm sat x)
  | 12 => nat (convElem 4 0 rm sat x)
  | _ => nat (FFmt.fp32.integral rm (FFmt.fp32.decode (x % 2 ^ 32)))

def execFcvt (g : Guard) (d a : SReg) (sat : BitVec 1) (code : BitVec 5) (rm : BitVec 3) (s : State) : Out :=
  issueF 1 g (fun s =>
    let (v, fl) := fcvtVal code.toNat (Rm.ofField s.arch.rmode rm) (sat == 1) (s.arch.rdS a).toNat
    s.result 3 1 fl (.s d v)) s

end Sys2Proof.Machine
end

