-- ==== Sys2Proof/Machine/Sequence.lean ====
section
/-!
DEFINITION. Slot Q, the sequence class (spec/14_sequence_class.md R383 to R386, R400): the issue of its commands, their progress, and
the dealings of the sequence units with the allocator (R381, R382, R397, R461).
-/
namespace Sys2Proof.Machine
set_option Elab.async false
open Sys2Proof

/-! ## Issue -/

/-- Reserved bits of a handle (R375), of a tile word and of a range word (R384). -/
def handleBad (h : Nat) : Bool := bitsOf h 24 9 != 0
def tileWordBad (w : Nat) : Bool := decide (2 ^ 16 ≤ w)
def rangeBad (w : Nat) (e : Option Word32) : Bool := e.isNone && decide (2 ^ 44 ≤ w)
def countBad (w : Nat) (e : Option Word32) : Bool := e.isNone && decide (2 ^ 32 ≤ w)

/-- Issue of a Q command: COUNTER_FULL, reserved bits, invalid handles of its tile words, and the checks of the instruction. -/
def seqIssue (g : Guard) (i : Instr) (ws : Arch → List Nat) (bad : List Nat → Bool) (regs : List Nat → List TReg)
    (more : State → List Nat → Option Trap) (paths : BitVec 6) (dat : Arch → List Byte) (s : State) : Out :=
  issue 7 g
    (fun s => firstTrap [s.ctrFull .sqo, trapIf (bad (ws s.arch)) 85 1, s.arch.tileInvalid (regs (ws s.arch)),
      more s (ws s.arch)])
    (fun _ => none)
    (fun s => (s.startOp .sqo { s.newOp .seq 7 i with
      x := ws s.arch, hs := (regs (ws s.arch)).map (fun r => (r, s.arch.rdT r)), paths := paths, dat := dat s.arch }).commitPoint) s

def noRegs (_ : List Nat) : List TReg := []
def noDat (_ : Arch) : List Byte := []
def qWords (x y w : SReg) (r : Arch) : List Nat := cWords r x y w

/-- The parameter word of SQNEW breaks R372. -/
def paramBad (w : Nat) : Bool :=
  let sl := bitsOf w 12 4
  let ps := bitsOf w 8 4
  let cp := bitsOf w 0 5
  !(decide (4 ≤ sl) && decide (sl ≤ 12) && decide (ps ≤ 12) && decide (10 ≤ sl + ps) && decide (sl + ps ≤ 16)
    && decide (ps ≤ cp) && decide (cp ≤ ps + 13))

def execSqnew (g : Guard) (x y : SReg) (s : State) : Out :=
  seqIssue g (.sqnew g x y) (qWords x y 0) (fun l => (l.getD 1 0) &&& 0xFF1F != l.getD 1 0) noRegs
    (fun _ l => trapIf (paramBad (l.getD 1 0)) 85 3) 0x10 noDat s
def execSqres (g : Guard) (x y w : SReg) (ext : Option Word32) (s : State) : Out :=
  seqIssue g (.sqres g x y w ext) (qWords x y w)
    (fun l => handleBad (l.getD 1 0) || countBad (l.getD 2 0) ext
      || decide (4096 < (match ext with | some e => e.toNat | none => l.getD 2 0))) noRegs noTrap 0x10 noDat s
def execSqput (g : Guard) (x y w : SReg) (ext : Option Word32) (s : State) : Out :=
  seqIssue g (.sqput g x y w ext) (qWords x y w)
    (fun l => handleBad (l.getD 1 0) || tileWordBad (l.getD 0 0) || rangeBad (l.getD 2 0) ext)
    (fun l => [endReg (l.getD 0 0)]) noTrap 0x12 noDat s
def execSqget (g : Guard) (x y w : SReg) (ext : Option Word32) (s : State) : Out :=
  seqIssue g (.sqget g x y w ext) (qWords x y w)
    (fun l => handleBad (l.getD 1 0) || tileWordBad (l.getD 0 0) || rangeBad (l.getD 2 0) ext)
    (fun l => [endReg (l.getD 0 0)]) noTrap 0x12 noDat s
def execSqcmt (g : Guard) (x y w : SReg) (ext : Option Word32) (s : State) : Out :=
  seqIssue g (.sqcmt g x y w ext) (qWords x y w) (fun l => handleBad (l.getD 1 0) || rangeBad (l.getD 2 0) ext)
    noRegs noTrap 0x10 noDat s
def execSqlen (g : Guard) (x y : SReg) (rl : BitVec 1) (s : State) : Out :=
  seqIssue g (.sqlen g x y rl) (qWords x y 0) (fun l => handleBad (l.getD 1 0)) noRegs noTrap 0x10 noDat s
def execSqwait (g : Guard) (x y w : SReg) (ext : Option Word32) (s : State) : Out :=
  seqIssue g (.sqwait g x y w ext) (qWords x y w) (fun l => handleBad (l.getD 1 0) || countBad (l.getD 2 0) ext)
    noRegs noTrap 0x10 noDat s
def execSqfork (g : Guard) (x y w : SReg) (ext : Option Word32) (s : State) : Out :=
  seqIssue g (.sqfork g x y w ext) (qWords x y w) (fun l => handleBad (l.getD 1 0) || countBad (l.getD 2 0) ext)
    noRegs noTrap 0x10 noDat s
def execSqrel (g : Guard) (y : SReg) (s : State) : Out :=
  seqIssue g (.sqrel g y) (qWords 0 y 0) (fun l => handleBad (l.getD 1 0)) noRegs noTrap 0x10 noDat s
def execSqinfo (g : Guard) (x y : SReg) (f : BitVec 3) (s : State) : Out :=
  seqIssue g (.sqinfo g x y f) (qWords x y 0) (fun l => handleBad (l.getD 1 0)) noRegs noTrap 0x10 noDat s

/-- The tile words of SQATT: the query, unless it comes from v registers, and the partial. -/
def attRegs (l : List Nat) : List TReg :=
  (if (l.getD 0 0).testBit 63 then [] else [endReg (l.getD 0 0)]) ++ [endReg (l.getD 1 0)]

/-- The checks of R400 that are made at issue (DEDUCED, log 46). -/
def attTrap (s : State) (l : List Nat) : Option Trap :=
  let x0 := l.getD 0 0
  let qv := x0.testBit 63
  let q := s.arch.rdT (endReg x0)
  let p := s.arch.rdT (endReg (l.getD 1 0))
  let D := bitsOf (l.getD 5 0) 32 8 + 1
  let lo := bitsOf (l.getD 4 0) 0 32
  let hi := bitsOf (l.getD 4 0) 32 32
  let kvf := bitsOf (l.getD 5 0) 40 4
  let qf := if qv then bitsOf x0 16 2 else q.fmt.toNat
  let qBad := if qv then decide (2 < qf) || bitsOf x0 0 6 == 63 || decide (2 * (256 / unitBytes qf) < D)
    else decide (2 < qf) || decide (q.rb < D * unitBytes qf)
  firstTrap [trapIf (decide (hi < lo)) 82 4 (BitVec.ofNat 32 lo),
    trapIf (qBad || p.fmt != 0 || decide (p.rb < 1032) || decide (p.rows ≤ wordRow (l.getD 1 0)) || kvf == 0 || decide (3 < kvf)) 85 2]

def execSqatt (g : Guard) (x4 : BitVec 4) (y w : SReg) (s : State) : Out :=
  let x : SReg := x4.zeroExtend 6 <<< 2
  seqIssue g (.sqatt g x4 y w)
    (fun r => [r.rdS x, r.rdS (x + 1), r.rdS y, r.rdS w, r.rdS (x + 2), r.rdS (x + 3)].map BitVec.toNat)
    (fun l => handleBad (l.getD 2 0) || (w != 0 && handleBad (l.getD 3 0)) || tileWordBad (l.getD 1 0)
      || (!(l.getD 0 0).testBit 63 && tileWordBad (l.getD 0 0)))
    attRegs attTrap 0x12
    (fun r =>
      let n : VReg := BitVec.ofNat 6 (r.rdS x).toNat
      if (r.rdS x).getLsbD 63 then vBytes (r.rdV n) ++ vBytes (r.rdV (n + 1)) else []) s

def execSqmrg (g : Guard) (x y w : SReg) (s : State) : Out :=
  seqIssue g (.sqmrg g x y w) (qWords x y w)
    (fun l => decide (2 ^ 24 ≤ l.getD 0 0) || tileWordBad (l.getD 1 0) || tileWordBad (l.getD 2 0))
    (fun l => l.map endReg)
    (fun s l =>
      let n := bitsOf (l.getD 0 0) 16 8 + 1
      trapIf (l.any (fun v =>
        let d := s.arch.rdT (endReg v)
        d.fmt != 0 || decide (d.rb < 1032) || decide (d.rows < wordRow v + n))) 85 2)
    2 noDat s

/-! ## Progress -/

/-- Q_COMMAND_COMPLETE: the next piece of work of a command: its start, a slot, a chunk, its step; with the last one it
completes. -/
def execQCommandComplete (id : Nat) (s : State) : Out :=
  .next (match s.opAt id with
    | some o => if o.kind != .seq || o.faulted || !s.onItsCore o then s else s.seqRun o
    | none => s)

/-! ## The allocator (R381, R382, R461) -/

/-- The first of `n` numbers, from `a` on around, for which `f` holds. -/
def firstFrom (f : Nat → Bool) (n a : Nat) : Option Nat :=
  (firstIdx (fun i => f ((a + i) % n)) n 0).map (fun i => (a + i) % n)

/-- One block of `2 ^ size` bytes for a partition: a free number and a free place in the pool, both chosen by the allocator; memory of a
fenced stack is excluded (R471). Where no number below BTN is free there is no block to grant (DESIGN CHOICE, log 146). -/
def State.grantOne (s : State) (part size : Nat) : Option (Nat × State) :=
  let p := s.partAt part
  match SMap.get none s.pools part with
  | none => none
  | some pool =>
    let (a, s) := s.fresh
    let (b, s) := s.fresh
    let B := 2 ^ size
    let first := ceilDiv pool.base B
    let cnt := (pool.base + pool.bytes) / B - first
    let clear (i : Nat) : Bool :=
      let lo := (first + i) * B
      !s.relFenced p lo B && pool.blocks.all (fun x => decide (lo + B ≤ x.2.1) || decide (x.2.1 + 2 ^ x.2.2 ≤ lo))
    match firstFrom (fun i => match p.seqAddr (p.btBase.toNat + 16 * i) with
        | .ok e => rdNum s.mem (e + 9) 1 == 0
        | .error _ => false) p.btN.toNat (Config.pick a), firstFrom clear cnt (Config.pick b) with
    | some n, some i =>
      let lo := (first + i) * B
      match p.seqAddr (p.btBase.toNat + 16 * n) with
      | .error _ => none
      | .ok e =>
        let s := s.seqPut none e (toBytes 8 lo ++ toBytes 1 size ++ toBytes 1 1 ++ toBytes 2 0)
        let s := s.onPart part (fun x => { x with blockU := x.blockU + 1 })
        some (n, { s with pools := SMap.set none s.pools part (some { pool with blocks := pool.blocks ++ [(n, lo, size)] }) })
    | _, _ => none

/-- As many blocks of those asked for as BLOCKQ and the pool allow, none for an absent partition (R118). -/
def State.grantMany (s : State) (part size : Nat) : Nat → List Nat × State
  | 0 => ([], s)
  | k + 1 =>
    if !(s.partAt part).active || (s.partAt part).blockQ ≤ (s.partAt part).blockU then ([], s)
    else
      match s.grantOne part size with
      | none => ([], s)
      | some (b, s) =>
        let (r, s) := s.grantMany part size k
        (b :: r, s)

/-- GRANT (R381): the sequence unit of cluster `cl` asks for blocks for the oldest command that waits for some of this partition
and size; the answer is on its way as `[4, size, status, blocks …]`. -/
def execGrant (cl part size count : Nat) (s : State) : Out :=
  .next (match s.ops.find? (fun o => o.kind == .seq && clusterOfCore o.core == cl && s.seqPartNo o == part && !o.faulted
      && o.st == [3, size]) with
    | none => s
    | some o =>
      if count != min 8 (1 + (64 - (s.clusterAt cl).blocks.length)) then s
      else
        let full := !(s.partAt part).active || decide ((s.partAt part).blockQ ≤ (s.partAt part).blockU)
        let (l, s) := (s.seqClear part).grantMany part size count
        let st := if full then 3 else if l.isEmpty then 4 else 0
        s.setOp { o with st := 4 :: size :: st :: l })

/-- BLOCK_GRANT_ANSWER (R381): the command takes one block, the cache the others; a refusal ends it. One that has taken a late fault needs
none. -/
def execBlockGrantAnswer (id : Nat) (s : State) : Out :=
  .next (match s.opAt id with
    | none => s
    | some o =>
      match o.st with
      | 4 :: size :: st :: l =>
        if o.kind != .seq then s
        else if o.faulted then
          (l.foldl (fun s b => s.cacheBlk (clusterOfCore o.core) (s.seqPartNo o) b size) s).setOp { o with st := [] }
        else if st != 0 then s.setOp { o with st := [5, st] }
        else
          let s := (l.drop 1).foldl (fun s b => s.cacheBlk (clusterOfCore o.core) (s.seqPartNo o) b size) s
          s.setOp { o with got := o.got ++ l.take 1, st := [] }
      | _ => s)

/-- A block goes back to the allocator, which keeps a poisoned one out of use. -/
def State.returnBlk (s : State) (part b : Nat) : State :=
  let p := s.partAt part
  match p.seqAddr (p.btBase.toNat + 16 * b) with
  | .error _ => s
  | .ok e =>
    let s := s.onPart part (fun x => { x with blockU := x.blockU - 1 })
    if rdNum s.mem (e + 9) 1 = 3 then s
    else
      let s := s.seqPut none (e + 9) (toBytes 1 0 ++ toBytes 2 0)
      match SMap.get none s.pools part with
      | none => s
      | some pool => { s with pools := SMap.set none s.pools part
                                (some { pool with blocks := pool.blocks.filter (fun x => x.1 != b) }) }

/-- RETURN (R382): the sequence unit of a cluster returns blocks that its cache has no room for, or that are poisoned. -/
def execReturnBlocks (cl part : Nat) (blocks : List Nat) (s : State) : Out :=
  let k := s.clusterAt cl
  let mine (b : Nat) : Bool := k.rets.any (fun x => x.1 == part && x.2.1 == b)
  .next (if blocks.isEmpty || 255 < blocks.length || !blocks.all mine then s
    else
      let s := s.setCluster cl { k with rets := k.rets.filter (fun x => !(x.1 == part && blocks.contains x.2.1)) }
      blocks.eraseDups.foldl (fun s b => s.returnBlk part b) (s.seqClear part))

/-! ## Poisoned blocks (R397) -/

/-- BLOCK_POISON: an uncorrectable error is found in a block that has been granted. -/
def execBlockPoison (part blk : Nat) (s : State) : Out := .next ((s.seqClear part).poisonBlk part blk)

/-- The lowest page of a sequence whose block is poisoned (DEDUCED, log 76). -/
def State.badPage (s : State) (p : Part) (l : Blk) (n : Nat) : Option Nat :=
  firstIdx (fun j => match s.pageBlk p l j with | .ok (some b) => b.state == 3 | _ => false) n 0

/-- One sequence of a partition, when its page list names a poisoned block below its PSLOT. -/
def State.poisonSeq (s : State) (part i : Nat) : State :=
  let p := s.partAt part
  match (do let e ← s.entryAt p i; let l ← s.blkAt p e.list; return (e, l)) with
  | .error _ => s
  | .ok (e, l) =>
    if e.state = 0 || e.part != part then s
    else
      match s.badPage p l (2 ^ (e.cap - e.psl)) with
      | none => s
      | some j =>
        let n := j * 2 ^ e.psl
        if e.state = 2 && e.pslot ≤ n then s
        else
          let s := s.putEntry p i none { e with state := 2, pslot := min e.pslot n }
          (s.seqWaits part i).postEvent e.creator 5 0 0xFFFF (handleOf part e.gen e.cap i) (min e.pslot n)

/-- SEQUENCE_POISONING: the management core goes through the sequences of a partition. -/
def execSequencePoisoning (part : Nat) (s : State) : Out :=
  let s := s.seqClear part
  .next ((List.range (s.partAt part).htN.toNat).foldl (fun s i => s.poisonSeq part i) s)

end Sys2Proof.Machine
end

