-- ==== Sys2Proof/Machine/Dispatch.lean ====
section
/-!
DEFINITION. One arm for every instruction: a direct call of its meaning.
-/
namespace Sys2Proof.Machine
open Sys2Proof

def exec (i : Instr) (s : State) : Host.Outcome State Fault Refusal :=
  match i with
  | .br g x y => Sys2Proof.Machine.execBr g x y s
  | .bri g off => Sys2Proof.Machine.execBri g off s
  | .call g off => Sys2Proof.Machine.execCall g off s
  | .ret g x => Sys2Proof.Machine.execRet g x s
  | .loop g lc x fin => Sys2Proof.Machine.execLoop g lc x fin s
  | .loopi g lc fin n => Sys2Proof.Machine.execLoopi g lc fin n s
  | .lbrk g lc fin => Sys2Proof.Machine.execLbrk g lc fin s
  | .susp g desc => Sys2Proof.Machine.execSusp g desc s
  | .suspFence g x y desc => Sys2Proof.Machine.execSuspFence g x y desc s
  | .suspLend g x y desc => Sys2Proof.Machine.execSuspLend g x y desc s
  | .suspBar g x y desc => Sys2Proof.Machine.execSuspBar g x y desc s
  | .yield g => Sys2Proof.Machine.execYield g s
  | .spawn g x y stage => Sys2Proof.Machine.execSpawn g x y stage s
  | .retire g => Sys2Proof.Machine.execRetire g s
  | .reqdone g x => Sys2Proof.Machine.execReqdone g x s
  | .cres g x => Sys2Proof.Machine.execCres g x s
  | .cresSkip g x => Sys2Proof.Machine.execCresSkip g x s
  | .waitc g nl ns nc nt nq => Sys2Proof.Machine.execWaitc g nl ns nc nt nq s
  | .waitf g x y p ext => Sys2Proof.Machine.execWaitf g x y p ext s
  | .waitfLend g x y p => Sys2Proof.Machine.execWaitfLend g x y p s
  | .finc g x y amount => Sys2Proof.Machine.execFinc g x y amount s
  | .fincSet g x y amount => Sys2Proof.Machine.execFincSet g x y amount s
  | .fence g before after => Sys2Proof.Machine.execFence g before after s
  | .gbar g x bar => Sys2Proof.Machine.execGbar g x bar s
  | .evpost g x y code => Sys2Proof.Machine.execEvpost g x y code s
  | .trap g x => Sys2Proof.Machine.execTrap g x s
  | .trapSys g x => Sys2Proof.Machine.execTrapSys g x s
  | .ckpt g => Sys2Proof.Machine.execCkpt g s
  | .srd g x sys => Sys2Proof.Machine.execSrd g x sys s
  | .swr g x sys => Sys2Proof.Machine.execSwr g x sys s
  | .add g d a b f => Sys2Proof.Machine.execAdd g d a b f s
  | .addi g d a imm ext => Sys2Proof.Machine.execAddi g d a imm ext s
  | .sub g d a b f => Sys2Proof.Machine.execSub g d a b f s
  | .mul g d a b f => Sys2Proof.Machine.execMul g d a b f s
  | .mulh g d a b => Sys2Proof.Machine.execMulh g d a b s
  | .mulhu g d a b => Sys2Proof.Machine.execMulhu g d a b s
  | .div g d a b f => Sys2Proof.Machine.execDiv g d a b f s
  | .divu g d a b f => Sys2Proof.Machine.execDivu g d a b f s
  | .rem g d a b f => Sys2Proof.Machine.execRem g d a b f s
  | .remu g d a b f => Sys2Proof.Machine.execRemu g d a b f s
  | .and g d a b => Sys2Proof.Machine.execAnd g d a b s
  | .andi g d a imm ext => Sys2Proof.Machine.execAndi g d a imm ext s
  | .or g d a b => Sys2Proof.Machine.execOr g d a b s
  | .ori g d a imm ext => Sys2Proof.Machine.execOri g d a imm ext s
  | .xor g d a b => Sys2Proof.Machine.execXor g d a b s
  | .xori g d a imm ext => Sys2Proof.Machine.execXori g d a imm ext s
  | .andn g d a b => Sys2Proof.Machine.execAndn g d a b s
  | .sll g d a b f => Sys2Proof.Machine.execSll g d a b f s
  | .slli g d a w c => Sys2Proof.Machine.execSlli g d a w c s
  | .srl g d a b f => Sys2Proof.Machine.execSrl g d a b f s
  | .srli g d a w c => Sys2Proof.Machine.execSrli g d a w c s
  | .sra g d a b f => Sys2Proof.Machine.execSra g d a b f s
  | .srai g d a w c => Sys2Proof.Machine.execSrai g d a w c s
  | .rot g d a b f => Sys2Proof.Machine.execRot g d a b f s
  | .min g d a b => Sys2Proof.Machine.execMin g d a b s
  | .max g d a b => Sys2Proof.Machine.execMax g d a b s
  | .minu g d a b => Sys2Proof.Machine.execMinu g d a b s
  | .maxu g d a b => Sys2Proof.Machine.execMaxu g d a b s
  | .clz g d a f => Sys2Proof.Machine.execClz g d a f s
  | .ctz g d a f => Sys2Proof.Machine.execCtz g d a f s
  | .popc g d a f => Sys2Proof.Machine.execPopc g d a f s
  | .sext g d a f => Sys2Proof.Machine.execSext g d a f s
  | .zext g d a f => Sys2Proof.Machine.execZext g d a f s
  | .li g d imm ext => Sys2Proof.Machine.execLi g d imm ext s
  | .lih g d ext => Sys2Proof.Machine.execLih g d ext s
  | .sel g d a b q => Sys2Proof.Machine.execSel g d a b q s
  | .cmp g pd a b cond => Sys2Proof.Machine.execCmp g pd a b cond s
  | .cmpi g pd a cond imm ext => Sys2Proof.Machine.execCmpi g pd a cond imm ext s
  | .pand g pd pa pb => Sys2Proof.Machine.execPand g pd pa pb s
  | .por g pd pa pb => Sys2Proof.Machine.execPor g pd pa pb s
  | .pxor g pd pa pb => Sys2Proof.Machine.execPxor g pd pa pb s
  | .pandn g pd pa pb => Sys2Proof.Machine.execPandn g pd pa pb s
  | .fadd g d a b rm => Sys2Proof.Machine.execFadd g d a b rm s
  | .fsub g d a b rm => Sys2Proof.Machine.execFsub g d a b rm s
  | .fmul g d a b rm => Sys2Proof.Machine.execFmul g d a b rm s
  | .ffma g d a b rm => Sys2Proof.Machine.execFfma g d a b rm s
  | .fdiv g d a b rm => Sys2Proof.Machine.execFdiv g d a b rm s
  | .fsqrt g d a rm => Sys2Proof.Machine.execFsqrt g d a rm s
  | .fmin g d a b => Sys2Proof.Machine.execFmin g d a b s
  | .fmax g d a b => Sys2Proof.Machine.execFmax g d a b s
  | .fcmp g pd a b cond => Sys2Proof.Machine.execFcmp g pd a b cond s
  | .fcvt g d a sat code rm => Sys2Proof.Machine.execFcvt g d a sat code rm s
  | .aadd g d a b => Sys2Proof.Machine.execAadd g d a b s
  | .aaddi g d a imm ext => Sys2Proof.Machine.execAaddi g d a imm ext s
  | .asub g d a b => Sys2Proof.Machine.execAsub g d a b s
  | .amov g d a b => Sys2Proof.Machine.execAmov g d a b s
  | .asplitLo g a b => Sys2Proof.Machine.execAsplitLo g a b s
  | .asplitHi g a b => Sys2Proof.Machine.execAsplitHi g a b s
  | .ld g x a sz sx ord off ext => Sys2Proof.Machine.execLd g x a sz sx ord off ext s
  | .st g x a sz ord off ext => Sys2Proof.Machine.execSt g x a sz ord off ext s
  | .lda g d a ord off => Sys2Proof.Machine.execLda g d a ord off s
  | .sta g d a ord off => Sys2Proof.Machine.execSta g d a ord off s
  | .pref g a sz off ext => Sys2Proof.Machine.execPref g a sz off ext s
  | .amoAdd g d a b sz ord => Sys2Proof.Machine.execAmoAdd g d a b sz ord s
  | .amoAnd g d a b sz ord => Sys2Proof.Machine.execAmoAnd g d a b sz ord s
  | .amoOr g d a b sz ord => Sys2Proof.Machine.execAmoOr g d a b sz ord s
  | .amoXor g d a b sz ord => Sys2Proof.Machine.execAmoXor g d a b sz ord s
  | .amoMin g d a b sz ord => Sys2Proof.Machine.execAmoMin g d a b sz ord s
  | .amoMax g d a b sz ord => Sys2Proof.Machine.execAmoMax g d a b sz ord s
  | .amoMinu g d a b sz ord => Sys2Proof.Machine.execAmoMinu g d a b sz ord s
  | .amoMaxu g d a b sz ord => Sys2Proof.Machine.execAmoMaxu g d a b sz ord s
  | .amoSwap g d a b sz ord => Sys2Proof.Machine.execAmoSwap g d a b sz ord s
  | .cas g d a b sz ord => Sys2Proof.Machine.execCas g d a b sz ord s
  | .red g op a b sz ord => Sys2Proof.Machine.execRed g op a b sz ord s
  | .talloc g t x tx => Sys2Proof.Machine.execTalloc g t x tx s
  | .tfree g t => Sys2Proof.Machine.execTfree g t s
  | .tqry g t x => Sys2Proof.Machine.execTqry g t x s
  | .vadd g d a b k vx => Sys2Proof.Machine.execVadd g d a b k vx s
  | .vsub g d a b k vx => Sys2Proof.Machine.execVsub g d a b k vx s
  | .vmul g d a b k vx => Sys2Proof.Machine.execVmul g d a b k vx s
  | .vfma g d a b k vx => Sys2Proof.Machine.execVfma g d a b k vx s
  | .vfms g d a b k vx => Sys2Proof.Machine.execVfms g d a b k vx s
  | .vabs g d a k vx => Sys2Proof.Machine.execVabs g d a k vx s
  | .vmin g d a b k vx => Sys2Proof.Machine.execVmin g d a b k vx s
  | .vmax g d a b k vx => Sys2Proof.Machine.execVmax g d a b k vx s
  | .vdiv g d a b k vx => Sys2Proof.Machine.execVdiv g d a b k vx s
  | .vrcp g d a k vx => Sys2Proof.Machine.execVrcp g d a k vx s
  | .vrsq g d a k vx => Sys2Proof.Machine.execVrsq g d a k vx s
  | .vsqrt g d a k vx => Sys2Proof.Machine.execVsqrt g d a k vx s
  | .vexp g d a k vx => Sys2Proof.Machine.execVexp g d a k vx s
  | .vexp2 g d a k vx => Sys2Proof.Machine.execVexp2 g d a k vx s
  | .vlog2 g d a k vx => Sys2Proof.Machine.execVlog2 g d a k vx s
  | .vtanh g d a k vx => Sys2Proof.Machine.execVtanh g d a k vx s
  | .vsigm g d a k vx => Sys2Proof.Machine.execVsigm g d a k vx s
  | .vand g d a b k vx => Sys2Proof.Machine.execVand g d a b k vx s
  | .vor g d a b k vx => Sys2Proof.Machine.execVor g d a b k vx s
  | .vxor g d a b k vx => Sys2Proof.Machine.execVxor g d a b k vx s
  | .vshl g d a b k vx => Sys2Proof.Machine.execVshl g d a b k vx s
  | .vshr g d a b k vx => Sys2Proof.Machine.execVshr g d a b k vx s
  | .vsra g d a b k vx => Sys2Proof.Machine.execVsra g d a b k vx s
  | .vcmp g kd a b cond vx => Sys2Proof.Machine.execVcmp g kd a b cond vx s
  | .vsel g d a b k vx => Sys2Proof.Machine.execVsel g d a b k vx s
  | .vcvt g d a k vx => Sys2Proof.Machine.execVcvt g d a k vx s
  | .vred g d a k vx => Sys2Proof.Machine.execVred g d a k vx s
  | .vscan g d a k vx => Sys2Proof.Machine.execVscan g d a k vx s
  | .vbcast g d b k vx => Sys2Proof.Machine.execVbcast g d b k vx s
  | .vins g d a b vx => Sys2Proof.Machine.execVins g d a b vx s
  | .vext g d a b vx => Sys2Proof.Machine.execVext g d a b vx s
  | .vperm g d a b k vx => Sys2Proof.Machine.execVperm g d a b k vx s
  | .viota g d b k vx => Sys2Proof.Machine.execViota g d b k vx s
  | .vmov g d a k vx => Sys2Proof.Machine.execVmov g d a k vx s
  | .vld g v t x vx => Sys2Proof.Machine.execVld g v t x vx s
  | .vst g v t x vx => Sys2Proof.Machine.execVst g v t x vx s
  | .vldx g v t x vx => Sys2Proof.Machine.execVldx g v t x vx s
  | .vstx g v t x vx => Sys2Proof.Machine.execVstx g v t x vx s
  | .vdot g d a b k vx => Sys2Proof.Machine.execVdot g d a b k vx s
  | .vso g d a b k vx => Sys2Proof.Machine.execVso g d a b k vx s
  | .vcmul g d a b k vx => Sys2Proof.Machine.execVcmul g d a b k vx s
  | .vcmac g d a b k vx => Sys2Proof.Machine.execVcmac g d a b k vx s
  | .vconj g d a k vx => Sys2Proof.Machine.execVconj g d a k vx s
  | .kand g kd ka kb => Sys2Proof.Machine.execKand g kd ka kb s
  | .kor g kd ka kb x => Sys2Proof.Machine.execKor g kd ka kb x s
  | .kxor g kd ka kb x => Sys2Proof.Machine.execKxor g kd ka kb x s
  | .knot g kd ka => Sys2Proof.Machine.execKnot g kd ka s
  | .kpop g ka kb x => Sys2Proof.Machine.execKpop g ka kb x s
  | .mmul g z ta tb acc mx => Sys2Proof.Machine.execMmul g z ta tb acc mx s
  | .mmulw g z ta tb acc mx => Sys2Proof.Machine.execMmulw g z ta tb acc mx s
  | .mmulwT g z ta b acc mx => Sys2Proof.Machine.execMmulwT g z ta b acc mx s
  | .mspec g z ta tb acc mx => Sys2Proof.Machine.execMspec g z ta tb acc mx s
  | .mzero g z dom => Sys2Proof.Machine.execMzero g z dom s
  | .mrd g z t y mx => Sys2Proof.Machine.execMrd g z t y mx s
  | .mrdv g z v y => Sys2Proof.Machine.execMrdv g z v y s
  | .mfmt g ix y w => Sys2Proof.Machine.execMfmt g ix y w s
  | .mstat g d => Sys2Proof.Machine.execMstat g d s
  | .xexp g d a uc xe => Sys2Proof.Machine.execXexp g d a uc xe s
  | .xcmp g d a uc xe => Sys2Proof.Machine.execXcmp g d a uc xe s
  | .xtrn g d a uc xe => Sys2Proof.Machine.execXtrn g d a uc xe s
  | .xcvt g d a sat xe => Sys2Proof.Machine.execXcvt g d a sat xe s
  | .xdft g d a bc xe => Sys2Proof.Machine.execXdft g d a bc xe s
  | .xidft g d a bc xe => Sys2Proof.Machine.execXidft g d a bc xe s
  | .xidftAcc g d z bc xe => Sys2Proof.Machine.execXidftAcc g d z bc xe s
  | .xtag g t dom xe => Sys2Proof.Machine.execXtag g t dom xe s
  | .xtagAcc g z dom xe => Sys2Proof.Machine.execXtagAcc g z dom xe s
  | .xmov g d a xe => Sys2Proof.Machine.execXmov g d a xe s
  | .xfill g d x xe => Sys2Proof.Machine.execXfill g d x xe s
  | .cpy g x y w sat fen crc => Sys2Proof.Machine.execCpy g x y w sat fen crc s
  | .gath g x y w sat fen crc => Sys2Proof.Machine.execGath g x y w sat fen crc s
  | .scat g x y w sat fen crc => Sys2Proof.Machine.execScat g x y w sat fen crc s
  | .cpyn g x y w fen => Sys2Proof.Machine.execCpyn g x y w fen s
  | .nrecv g x y w fen => Sys2Proof.Machine.execNrecv g x y w fen s
  | .ring g x y w => Sys2Proof.Machine.execRing g x y w s
  | .cseg g x y w nowait => Sys2Proof.Machine.execCseg g x y w nowait s
  | .sqnew g x y => Sys2Proof.Machine.execSqnew g x y s
  | .sqres g x y w ext => Sys2Proof.Machine.execSqres g x y w ext s
  | .sqput g x y w ext => Sys2Proof.Machine.execSqput g x y w ext s
  | .sqcmt g x y w ext => Sys2Proof.Machine.execSqcmt g x y w ext s
  | .sqlen g x y rl => Sys2Proof.Machine.execSqlen g x y rl s
  | .sqwait g x y w ext => Sys2Proof.Machine.execSqwait g x y w ext s
  | .sqfork g x y w ext => Sys2Proof.Machine.execSqfork g x y w ext s
  | .sqrel g y => Sys2Proof.Machine.execSqrel g y s
  | .sqget g x y w ext => Sys2Proof.Machine.execSqget g x y w ext s
  | .sqatt g x4 y w => Sys2Proof.Machine.execSqatt g x4 y w s
  | .sqmrg g x y w => Sys2Proof.Machine.execSqmrg g x y w s
  | .sqinfo g x y f => Sys2Proof.Machine.execSqinfo g x y f s
  | .resultLand c => Sys2Proof.Machine.execResultLand c s
  | .loopEndStep c => Sys2Proof.Machine.execLoopEndStep c s
  | .waitcRelease c => Sys2Proof.Machine.execWaitcRelease c s
  | .waitfRelease c => Sys2Proof.Machine.execWaitfRelease c s
  | .fenceSatisfied c => Sys2Proof.Machine.execFenceSatisfied c s
  | .suspFrameWrite c => Sys2Proof.Machine.execSuspFrameWrite c s
  | .retireComplete c => Sys2Proof.Machine.execRetireComplete c s
  | .releaseApply op => Sys2Proof.Machine.execReleaseApply op s
  | .scalarAccessComplete op => Sys2Proof.Machine.execScalarAccessComplete op s
  | .tileAccessComplete op => Sys2Proof.Machine.execTileAccessComplete op s
  | .passLanding c => Sys2Proof.Machine.execPassLanding c s
  | .waitedPassComplete op => Sys2Proof.Machine.execWaitedPassComplete op s
  | .mrdLanding c op => Sys2Proof.Machine.execMrdLanding c op s
  | .xStepLanding c => Sys2Proof.Machine.execXStepLanding c s
  | .cCommandComplete op => Sys2Proof.Machine.execCCommandComplete op s
  | .qCommandComplete op => Sys2Proof.Machine.execQCommandComplete op s
  | .pinGrant pen group => Sys2Proof.Machine.execPinGrant pen group s
  | .foldArrival op => Sys2Proof.Machine.execFoldArrival op s
  | .foldDeadline group => Sys2Proof.Machine.execFoldDeadline group s
  | .foldGroupStart pen => Sys2Proof.Machine.execFoldGroupStart pen s
  | .foldSplit group => Sys2Proof.Machine.execFoldSplit group s
  | .foldPassRetry group => Sys2Proof.Machine.execFoldPassRetry group s
  | .freeze c => Sys2Proof.Machine.execFreeze c s
  | .freezeComplete c => Sys2Proof.Machine.execFreezeComplete c s
  | .carriedAccessComplete op => Sys2Proof.Machine.execCarriedAccessComplete op s
  | .continuationResume c => Sys2Proof.Machine.execContinuationResume c s
  | .lateFault c => Sys2Proof.Machine.execLateFault c s
  | .handlerCreation => Sys2Proof.Machine.execHandlerCreation s
  | .checkpointInterval c => Sys2Proof.Machine.execCheckpointInterval c s
  | .forcedCheckpoint c => Sys2Proof.Machine.execForcedCheckpoint c s
  | .rollback c source => Sys2Proof.Machine.execRollback c source s
  | .containedError c source op => Sys2Proof.Machine.execContainedError c source op s
  | .fatalError bank source unit => Sys2Proof.Machine.execFatalError bank source unit s
  | .ptsTick c => Sys2Proof.Machine.execPtsTick c s
  | .requestPacketReceive p => Sys2Proof.Machine.execRequestPacketReceive p s
  | .peerMessageReceive p => Sys2Proof.Machine.execPeerMessageReceive p s
  | .ringStepReceive p => Sys2Proof.Machine.execRingStepReceive p s
  | .ringBreakReceive p => Sys2Proof.Machine.execRingBreakReceive p s
  | .segmentPageMessage p => Sys2Proof.Machine.execSegmentPageMessage p s
  | .ringTimeout op => Sys2Proof.Machine.execRingTimeout op s
  | .unexpectedMessageExpiry mc => Sys2Proof.Machine.execUnexpectedMessageExpiry mc s
  | .shepherdSelect => Sys2Proof.Machine.execShepherdSelect s
  | .newBinding => Sys2Proof.Machine.execNewBinding s
  | .bindingLaunchAfterFreeze => Sys2Proof.Machine.execBindingLaunchAfterFreeze s
  | .rebinding => Sys2Proof.Machine.execRebinding s
  | .sliceEnd bind => Sys2Proof.Machine.execSliceEnd bind s
  | .npExpiry bind => Sys2Proof.Machine.execNpExpiry bind s
  | .bindingEnd bind => Sys2Proof.Machine.execBindingEnd bind s
  | .carderPageArrival seg page data => Sys2Proof.Machine.execCarderPageArrival seg page data s
  | .segWaitExpiry op => Sys2Proof.Machine.execSegWaitExpiry op s
  | .segmentDrain seg => Sys2Proof.Machine.execSegmentDrain seg s
  | .blockGrantAnswer op => Sys2Proof.Machine.execBlockGrantAnswer op s
  | .blockPoison part blk => Sys2Proof.Machine.execBlockPoison part blk s
  | .sequencePoisoning part => Sys2Proof.Machine.execSequencePoisoning part s
  | .twaysPendingApply cl => Sys2Proof.Machine.execTwaysPendingApply cl s
  | .clcfgWrite fn cl v => Sys2Proof.Machine.execClcfgWrite fn cl v s
  | .mctxWriteIdle fn mc => Sys2Proof.Machine.execMctxWriteIdle fn mc s
  | .mctxWriteHalted fn mc => Sys2Proof.Machine.execMctxWriteHalted fn mc s
  | .mctxWriteFree fn mc => Sys2Proof.Machine.execMctxWriteFree fn mc s
  | .ticketsWrite fn mc v => Sys2Proof.Machine.execTicketsWrite fn mc v s
  | .paramverWrite fn mc v => Sys2Proof.Machine.execParamverWrite fn mc v s
  | .fenceAlloc fn n part => Sys2Proof.Machine.execFenceAlloc fn n part s
  | .fenceFree fn n => Sys2Proof.Machine.execFenceFree fn n s
  | .contctlResume fn mc slot => Sys2Proof.Machine.execContctlResume fn mc slot s
  | .contctlSkip fn mc slot => Sys2Proof.Machine.execContctlSkip fn mc slot s
  | .contctlAbort fn mc slot => Sys2Proof.Machine.execContctlAbort fn mc slot s
  | .queueEnable fn q => Sys2Proof.Machine.execQueueEnable fn q s
  | .queueDisable fn q => Sys2Proof.Machine.execQueueDisable fn q s
  | .notify fn q tail relaxed => Sys2Proof.Machine.execNotify fn q tail relaxed s
  | .pollingSlotVisit slot => Sys2Proof.Machine.execPollingSlotVisit slot s
  | .ringCtimeExpiry fn ring => Sys2Proof.Machine.execRingCtimeExpiry fn ring s
  | .cdropRead fn => Sys2Proof.Machine.execCdropRead fn s
  | .shootdown fn wake => Sys2Proof.Machine.execShootdown fn wake s
  | .shootdownDone fn => Sys2Proof.Machine.execShootdownDone fn s
  | .sliceWrite v => Sys2Proof.Machine.execSliceWrite v s
  | .segwaitWrite v => Sys2Proof.Machine.execSegwaitWrite v s
  | .cxlenWrite v => Sys2Proof.Machine.execCxlenWrite v s
  | .biasFlipToHost page => Sys2Proof.Machine.execBiasFlipToHost page s
  | .biasFlipToDevice page => Sys2Proof.Machine.execBiasFlipToDevice page s
  | .biasFlipDone => Sys2Proof.Machine.execBiasFlipDone s
  | .grant cl part size count => Sys2Proof.Machine.execGrant cl part size count s
  | .returnBlocks cl part blocks => Sys2Proof.Machine.execReturnBlocks cl part blocks s
  | .status tag part => Sys2Proof.Machine.execStatus tag part s
  | .test tag part ukind level uindex result => Sys2Proof.Machine.execTest tag part ukind level uindex result s
  | .seginst tag part src peer flashOff haddr => Sys2Proof.Machine.execSeginst tag part src peer flashOff haddr s
  | .segrel tag part seg => Sys2Proof.Machine.execSegrel tag part seg s
  | .segmap tag part seg first n laddr => Sys2Proof.Machine.execSegmap tag part seg first n laddr s
  | .mapq tag part func queue np npqmax => Sys2Proof.Machine.execMapq tag part func queue np npqmax s
  | .unmapq tag part func queue => Sys2Proof.Machine.execUnmapq tag part func queue s
  | .blkpool tag part base bytes => Sys2Proof.Machine.execBlkpool tag part base bytes s
  | .unitmap tag => Sys2Proof.Machine.execUnitmap tag s
  | .memckpt tag fn flags ports route0 haddr hbytes key => Sys2Proof.Machine.execMemckpt tag fn flags ports route0 haddr hbytes key s
  | .ckptstat tag => Sys2Proof.Machine.execCkptstat tag s
  | .ckptend tag fn => Sys2Proof.Machine.execCkptend tag fn s
  | .mailboxReply => Sys2Proof.Machine.execMailboxReply s
  | .checkpointStreamFailure stream => Sys2Proof.Machine.execCheckpointStreamFailure stream s
  | .checkpointCopyEnd => Sys2Proof.Machine.execCheckpointCopyEnd s
  | .functionLevelReset fn => Sys2Proof.Machine.execFunctionLevelReset fn s
  | .cxlMemAccess addr write len => Sys2Proof.Machine.execCxlMemAccess addr write len s
  | .registerWrite fn bar off len v => Sys2Proof.Machine.execRegisterWrite fn bar off len v s
  | .getVersion fn => Sys2Proof.Machine.execGetVersion fn s
  | .getCapabilities fn => Sys2Proof.Machine.execGetCapabilities fn s
  | .negotiateAlgorithms fn p521 sha512 => Sys2Proof.Machine.execNegotiateAlgorithms fn p521 sha512 s
  | .getDigests fn => Sys2Proof.Machine.execGetDigests fn s
  | .getCertificate fn slot off len => Sys2Proof.Machine.execGetCertificate fn slot off len s
  | .challenge fn slot nonce => Sys2Proof.Machine.execChallenge fn slot nonce s
  | .getMeasurements fn index => Sys2Proof.Machine.execGetMeasurements fn index s
  | .powerGood img => Sys2Proof.Machine.execPowerGood img s
  | .bringupComplete => Sys2Proof.Machine.execBringupComplete s
  | .throttleStepUp island => Sys2Proof.Machine.execThrottleStepUp island s
  | .throttleStepDown island => Sys2Proof.Machine.execThrottleStepDown island s
  | .thermalTrip island => Sys2Proof.Machine.execThermalTrip island s
  | .i3cReset img => Sys2Proof.Machine.execI3cReset img s
  | .emptyBundle sk => Sys2Proof.Machine.execEmptyBundle sk s
  | .manifestRead seg bytes => Sys2Proof.Machine.execManifestRead seg bytes s
  | .powerRemoval => Sys2Proof.Machine.execPowerRemoval s
  | .ethernetLinkChange port up => Sys2Proof.Machine.execEthernetLinkChange port up s
  | .boundaryScan => Sys2Proof.Machine.execBoundaryScan s

end Sys2Proof.Machine
end

