-- ==== Sys2Proof/Machine/Issue.lean ====
section
/-!
DEFINITION. One cycle of a core (spec/02_bundles.md R27 to R35, R50 to R52, R482): fetching a bundle, its checks, its issue,
control transfers, and the end of the cycle.
-/
namespace Sys2Proof.Machine
set_option Elab.async false
open Sys2Proof

/-! ## Fetch (R27 to R32) -/

/-- A bundle as it is fetched: its address, the SK of its header, the address after it, and its syllables with their slots
and words. -/
structure Bundle where
  at'  : Nat
  sk   : Nat
  next : Nat
  syls : List (Nat × Nat × Instr)

/-- The words of a line of code that follow each other from an address on. -/
def State.codeWord (s : State) (host : Bool) (pa : Nat) : Nat := rdNum (if host then s.host else s.mem) pa 4

/-- The syllables of the slots from `sl` on, the first word of the rest at `pa`; the first bad one with its reason. -/
def State.fetchSyls (s : State) (host : Bool) (h pa : Nat) : List Slot → Except (Nat × Nat) (List (Nat × Nat × Instr))
  | [] => .ok []
  | sl :: r =>
    if h.testBit sl.num then
      let w := s.codeWord host pa
      let x := h.testBit (8 + sl.num)
      let e : Option Word32 := if x then some (BitVec.ofNat 32 (s.codeWord host (pa + 4))) else none
      match decodeSyl sl (BitVec.ofNat 32 w) e with
      | .error n => .error (sl.num, n)
      | .ok i =>
        match s.fetchSyls host h (pa + (if x then 8 else 4)) r with
        | .ok l => .ok ((sl.num, w, i) :: l)
        | .error e => .error e
    else s.fetchSyls host h pa r

/-- A header as it is fetched: its address, where it stands, and its word. -/
structure Head where
  at'  : Nat
  host : Bool
  pa   : Nat
  word : Nat

/-- The fetch of the header that stands at `va`, or after the line-end markers from there on (R28 to R32): its address, or the one
that the fetch has come to. `fuel` bounds the markers. -/
def State.fetchHead (s : State) (c : Nat) : Nat → Nat → (Nat × Except FetchStop Head) × State
  | 0, va => ((va, .error (.wait .other)), s)
  | k + 1, va =>
    match s.codeAt c va with
    | (.error e, s) => ((va, .error e), s)
    | (.ok (host, pa), s) =>
      if va % 4 != 0 then ((va, .error (.trap 7 { cause := 2, reason := 1 })), s)
      else
        let h := s.codeWord host pa
        if h = lineEnd then s.fetchHead c k ((va / 64 + 1) * 64 % 2 ^ 72)
        else ((va, .ok ⟨va, host, pa, h⟩), s)

/-- A control transfer or a loop start, by the opcode of its slot B word (R33, R148). -/
def delayOp (w : Nat) : Bool := let op := w / 2 ^ 26; (decide (1 ≤ op) && decide (op ≤ 9)) || op == 0xB

/-- The word of slot B in a bundle, if it has one. -/
def State.slotB (s : State) (h : Head) : Option Nat :=
  if h.word.testBit 0 && decide (h.at' / 4 % 16 < 15) then some (s.codeWord h.host (h.pa + 4)) else none

/-- ILL_TARGET of the bundle's BR or RET with a true guard, which comes before its other encoding causes, those of its own word among them
(R32, R52). -/
def State.earlyTarget (s : State) (c : Nat) (h : Head) : Bool :=
  let a := (s.coreAt c).now
  let base := (s.mcAt (s.coreAt c).mc).codebase.toNat
  match s.slotB h with
  | none => false
  | some w =>
    let reg (lo : Nat) : Nat := (a.rdS (BitVec.ofNat 6 (bitsOf w lo 6))).toNat
    let t := if w / 2 ^ 26 = 1 then base + reg 10 + reg 4 else if w / 2 ^ 26 = 4 then base + reg 10 else 0
    a.guardOn 0 ⟨BitVec.ofNat 1 (bitsOf w 25 1), BitVec.ofNat 4 (bitsOf w 21 4)⟩ && t % 4 != 0

/-- ILL_BUNDLE (R30, R31, R33): the header, then a transfer or a loop start in a delay bundle (DEDUCED, log 12) (DEDUCED, log 37). -/
def State.bundleBad (s : State) (c : Nat) (h : Head) : Option Nat :=
  match headerBad h.word (h.at' / 4 % 16) with
  | some r => some r
  | none => if (s.coreAt c).now.delay && (s.slotB h).any delayOp then some 4 else none

/-- The fetch of the bundle at `va` for core `c` (R28 to R33, R50, R52): a fetch fault comes before every encoding check; then
ILL_TARGET, ILL_BUNDLE and ILL_SYLLABLE. Beside it stands the address that the fetch has come to. -/
def State.fetchAt (s : State) (c fuel va : Nat) : (Nat × Except FetchStop Bundle) × State :=
  match s.fetchHead c fuel va with
  | ((va, .error e), s) => ((va, .error e), s)
  | ((_, .ok h), s) =>
    let trap (slot : Nat) (t : Trap) : (Nat × Except FetchStop Bundle) × State := ((h.at', .error (.trap slot t)), s)
    if s.earlyTarget c h then trap 0 { cause := 2, reason := 1 }
    else
      match s.bundleBad c h with
      | some r => trap (if r = 4 then 0 else 7) { cause := 0, reason := r }
      | none =>
        match s.fetchSyls h.host h.word (h.pa + 4) slotList with
        | .error (sl, r) => trap sl { cause := 1, reason := r }
        | .ok l => ((h.at', .ok ⟨h.at', bitsOf h.word 16 4, (h.at' + 4 * headerWords h.word) % 2 ^ 72, l⟩), s)

/-- The bundle after the one at `va`, in fetch order, when that one is not to issue: its header alone is read (R150, R481). -/
def State.fetchPast (s : State) (c fuel va : Nat) : (Nat × Except FetchStop Bundle) × State :=
  match s.fetchHead c fuel va with
  | ((va, .error e), s) => ((va, .error e), s)
  | ((_, .ok h), s) => s.fetchAt c fuel ((h.at' + 4 * headerWords h.word) % 2 ^ 72)

/-! ## Classes of syllables -/

/-- A control-transfer syllable (R148). -/
def isTransfer : Instr → Bool
  | .br .. => true | .bri .. => true | .call .. => true | .ret .. => true | .lbrk .. => true
  | .susp .. => true | .suspFence .. => true | .suspLend .. => true | .suspBar .. => true
  | .yield .. => true | .retire .. => true
  | _ => false
/-- A loop start (R148). -/
def isLoopStart : Instr → Bool
  | .loop .. => true | .loopi .. => true | _ => false

/-- KIND 1 of an endpoint word names a handle (R321). -/
def handleWord (w : Word) : Bool := bitsOf w.toNat 62 2 == 1

/-- The paths that a syllable of slot `sl` accesses (R352). -/
def pathsOf (a : Arch) (sl : Nat) (i : Instr) : BitVec 6 :=
  if sl = 2 then (match scAct i with | some _ => 1 | none => 0)
  else if sl = 3 then (match i with | .vld .. => 2 | .vst .. => 2 | .vldx .. => 2 | .vstx .. => 2 | _ => 0)
  else if sl = 4 then
    (match i with | .mmul .. => 2 | .mspec .. => 2 | .mmulw .. => 2 | .mmulwT .. => 0xA | .mrd .. => 2 | _ => 0)
  else if sl = 5 then (match i with | .xtag .. => 0 | .xtagAcc .. => 0 | _ => 2)
  else if sl = 6 then
    (match i with
     | .cpy _ x y _ _ _ _ => if handleWord (a.rdS x) || handleWord (a.rdS y) then 6 else 4
     | .gath .. => 6 | .scat .. => 6 | .cseg .. => 0 | _ => 0x22)
  else if sl = 7 then
    (match i with | .sqput .. => 0x12 | .sqget .. => 0x12 | .sqatt .. => 0x12 | .sqmrg .. => 2 | _ => 0x10)
  else 0

/-- A counted syllable with its counter (R61). -/
def countedOn (a : Arch) (sl : Nat) (i : Instr) : Option Ctr :=
  match sl with
  | 2 => (match scAct i with
    | some (.store _) => some .sto
    | some (.amo _ _ none) => some .sto
    | some _ => some .ldo
    | none => none)
  | 3 => (match i with
    | .vld _ _ t _ _ => if (a.rdT t).clus then some .ldo else none
    | .vldx _ _ t _ _ => if (a.rdT t).clus then some .ldo else none
    | .vst _ _ t _ _ => if (a.rdT t).clus then some .sto else none
    | .vstx _ _ t _ _ => if (a.rdT t).clus then some .sto else none
    | _ => none)
  | 4 => (match i with
    | .mmulw .. => some .tlo
    | .mmulwT .. => some .tlo
    | .mrd _ _ t _ _ => if (a.rdT t).clus then some .tlo else none
    | _ => none)
  | 6 => some .cpo
  | 7 => some .sqo
  | _ => none

/-- The guard of a syllable word. -/
def guardOfWord (w : Nat) : Guard := ⟨BitVec.ofNat 1 (bitsOf w 25 1), BitVec.ofNat 4 (bitsOf w 21 4)⟩

/-! ## Checks of a bundle -/

/-- BAD_SUSP reason 3 of the syllable of a slot in the delay bundle of a SUSP or RETIRE (R156). -/
def suspDelayBad (a : Arch) (y : Nat × Nat × Instr) : Bool :=
  (match a.xfer with
   | some ⟨.susp .., _, _, _⟩ => true
   | some ⟨.retire, _, _, _⟩ => true
   | _ => false) && a.guardOn y.1 (guardOfWord y.2.1) && (countedOn a y.1 y.2.2).isSome

/-- The syllables on which a condition holds with a true guard. -/
def guardedAny (a : Arch) (b : Bundle) (f : Nat → Instr → Bool) : Bool :=
  b.syls.any (fun y => a.guardOn y.1 (guardOfWord y.2.1) && f y.1 y.2.2)

/-- A pending fence, or an acquire whose read is not performed, holds the bundle back (R14, R168, R362). -/
def State.heldBack (s : State) (c : Nat) (b : Bundle) : Bool :=
  let x := s.coreAt c
  let a := x.now
  let after := a.fences.foldl (fun m f => m ||| f.after) 0
  let acq := s.ops.any (fun o => o.acq && o.mc == x.mc && o.fslot == x.fslot)
  guardedAny a b (fun sl i => (pathsOf a sl i &&& after) != 0 || (acq && pathsOf a sl i != 0))

/-- What the checks of the syllables come to, in slot order: the state after the first trap, or those that stall. -/
def State.checkSyls (s : State) (a : Arch) : List (Nat × Nat × Instr) → Option State × List Instr
  | [] => (none, [])
  | y :: r =>
    if suspDelayBad a y then (some (s.takeTrap s.cur y.1 { cause := 97, reason := 3 }), [])
    else
      match exec y.2.2 s with
      | .next t =>
        if t.verdict = .trapped then (some t, [])
        else
          let (x, l) := s.checkSyls a r
          (x, if t.verdict = .stalled then y.2.2 :: l else l)
      | _ => s.checkSyls a r

/-- The effects of instructions, one after another. -/
def State.runAll (s : State) : List Instr → State
  | [] => s
  | i :: r => match exec i s with
    | .next t => t.runAll r
    | _ => s.runAll r

/-- Register writes that stay in flight beyond their cycle (R415) (DEDUCED, log 67). -/
def Arch.queued (a : Arch) : Nat := (a.fly.filter (fun l => decide (2 ≤ l.remain) && (ifqOf l.w).isSome)).length

/-- Two syllables of a bundle count on one counter that has room for one alone (R62; DEDUCED, log 31). -/
def ctrOver (a : Arch) (b : Bundle) : Bool :=
  [Ctr.ldo, Ctr.sto].any (fun c => a.ctr c == 254
    && decide ((b.syls.filter (fun y => a.guardOn y.1 (guardOfWord y.2.1) && countedOn a y.1 y.2.2 == some c)).length ≥ 2))

/-! ## Fixed-latency accesses after earlier commands (R358) -/

/-- The CLUS bytes that passes, X streams and started Fold members have still to access, each with its operation number and core. -/
def State.clusWork (s : State) (cs : List Nat) : List (Nat × Nat × List Piece) :=
  let own (c : Nat) : List (Nat × Nat × List Piece) :=
    let a := (s.coreAt c).now
    a.passes.map (fun p => (p.id, c, p.restPieces)) ++ a.xs.map (fun x => (x.id, c, x.restPieces))
  let fold := (s.ops.filter (fun o => cs.contains o.core && !o.faulted && (o.waited.map (·.phase)) == some .started)).map (fun o =>
    (o.id, o.core, o.waitedPcs ((o.waited.map (·.key)).getD [])))
  ((cs.flatMap own ++ fold).map (fun w => (w.1, w.2.1, w.2.2.filter (fun x => x.sp == .clus)))).filter (fun w => !w.2.2.isEmpty)

/-- Works on a command while it gets on. -/
def State.hurryOp (s : State) (id : Nat) : Nat → State
  | 0 => s
  | k + 1 =>
    match s.opAt id with
    | none => s
    | some o =>
      if o.faulted || o.asleep then s
      else
        let t := if o.kind == .copy then s.copyRun o else s.seqRun o
        if t.opAt id == some o then t else t.hurryOp id k

/-- Before fixed-latency work of cores `cs` accesses CLUS tiles, the earlier C and Q commands of its continuation that access the same
bytes go on as far as they can (R358; DEDUCED, log 53). -/
def State.hurry (s : State) (cs : List Nat) : State :=
  let work := s.clusWork cs
  if work.isEmpty then s
  else
    let late := (s.ops.filter (fun o => (o.kind == .copy || o.kind == .seq) && s.onItsCore o && !o.faulted
      && work.any (fun w => decide (o.id < w.1) && w.2.1 == o.core && (s.restPieces o).any (fun x => w.2.2.any (fun y => x.meets y)))))
    late.foldl (fun s o => s.hurryOp o.id (o.total + 65536)) s

/-- The CLUS handles that a syllable of slot M reads at its issue: a stationary, the operands of a waited pass, an adapter (R258, R270). -/
def issueReads : Instr → List TReg
  | .mmul _ _ _ tb _ _ => [tb]
  | .mspec _ _ _ tb _ _ => [tb]
  | .mmulw _ _ ta tb _ _ => [ta, tb]
  | .mmulwT _ _ ta _ _ _ => [ta]
  | .mrd _ _ _ _ x => (mrdEpi x).toList
  | _ => []

/-- The same for what a bundle reads of CLUS tiles in its issue cycle. -/
def State.hurryFor (s : State) (c : Nat) (b : Bundle) : State :=
  let a := (s.coreAt c).now
  let ts := (b.syls.filter (fun y => y.1 == 4 && a.guardOn 4 (guardOfWord y.2.1))).flatMap (fun y => issueReads y.2.2)
  let ps := (ts.map a.rdT).flatMap (fun d => if d.clus then tileAll d else [])
  if ps.isEmpty then s
  else
    let late := s.ops.filter (fun o => (o.kind == .copy || o.kind == .seq) && o.core == c && s.onItsCore o && !o.faulted
      && (s.restPieces o).any (fun x => ps.any (fun y => x.meets y)))
    late.foldl (fun s o => s.hurryOp o.id (o.total + 65536)) s

/-! ## The end of a cycle -/

/-- What happens at the end of a core's cycle after the issue (R59, R60, R233, R297, R356, R421): reads of the cycle, landings in
tiles and accumulators, register landings, the checkpoint, the counts. `step'` says that a bundle or an empty cycle has
issued and no transfer was pending, so that LOOP_END_STEP applies (R151). -/
def State.cycleEnd (s : State) (c : Nat) (step' : Bool) : State :=
  let s := { s with ending := some c }
  let s := if step' then s.onArchAt c Arch.loopEnd else s
  let s := (s.hurry [c]).enginesRead c
  let s := ((s.readLands c).xLands c).passLands c
  let units := ((s.coreAt c).now.pw.flatMap (fun w => [w.addr / 64, (w.addr + w.bytes.length - 1) / 64]))
  let s := s.onCoreAt c (fun x => { x with undoPriv := (units ++ x.undoPriv).eraseDups })
  let s := (s.onArchAt c Arch.landPriv).onArchAt c Arch.land
  let s := (s.fencesDone c).ptsTick c
  let s := { s with ending := none }
  let s := s.onCoreAt c (fun x => { x with cyc := x.cyc + 1, sinceCk := x.sinceCk + 1, delivered := x.delivered + 1 })
  let s := (s.reapPriv c).retryPassed c
  if s.checkpointDue c || (s.coreAt c).forced then s.checkpoint c else s

/-! ## Control transfers (R33) -/

/-- A pending transfer after its delay cycle. -/
def State.takeTransfer (s : State) (c : Nat) : State :=
  match (s.coreAt c).now.xfer with
  | none => s
  | some x =>
    match x.kind with
    | .branch t => s.onArchAt c (fun a => { a with xfer := none, pc := t, past := false, sk := 0, delay := false })
    | _ => s.onArchAt c (fun a => { a with xfer := some { x with done := true } })

/-! ## Issue -/

/-- The state with the late faults that the engines of core `c` detect in the present cycle, when they detect one (R417). The work that
has met one is out of flight with its record; the rest is as at the start of the cycle. -/
def State.lateNow (s : State) (c : Nat) : Option State :=
  let u := (((s.enginesRead c).readLands c).xLands c).passLands c
  let ls := (u.coreAt c).late
  if ls.isEmpty then none
  else
    let hit (i : Nat) : Bool := ls.any (·.op == i)
    let a := (s.coreAt c).now
    let s := (a.xs.filter (fun x => hit x.id)).foldl (fun s x => (s.xSettleLand c x x.pend).1) s
    let s := ls.foldl (fun s l => match s.opAt l.op, u.opAt l.op with
      | some _, some o => if o.faulted then s.setOp o else s
      | _, _ => s) s
    let bad := a.passes.filter (fun p => hit p.id && p.badNow)
    some (s.onCoreAt c (fun x => { x with
      late := ls,
      now := { bad.foldl (fun a p => a.setZflag p.z { a.zflag p.z with valid := false }) x.now with
        passes := x.now.passes.filter (fun p => !hit p.id), xs := x.now.xs.filter (fun y => !hit y.id),
        occ := if bad.isEmpty then x.now.occ else 0 } }))

/-- A core whose trap waits for its frame's page, or whose stop waits for the end of the cycle, stands: the cycle passes with nothing issued
and nothing landed (R203, R205, R291). -/
def State.standing (s : State) (c : Nat) : State :=
  if (s.coreAt c).running then s.onCoreAt c (fun x => { x with cyc := x.cyc + 1 }) else s

/-- The state `t` after a precise trap of the bundle at issue; but a late fault that is detected in the same cycle is taken, and the bundle
becomes RESUME (R417; DEDUCED, log 137). -/
def State.orLate (s : State) (c : Nat) (t : State) : State :=
  (match s.lateNow c with
   | some u => (match execLateFault c u with | .next v => v | _ => t)
   | none => t).standing c

/-- The issue of a bundle whose checks have passed: its effects, then the place of the next bundle. -/
def State.issueBundle (s : State) (c : Nat) (b : Bundle) : State :=
  let s := s.onCoreAt c (fun x => { x with bnext := BitVec.ofNat 72 b.next, bsk := b.sk, loop0 := none })
  let s := s.onArchAt c (fun a => { a with pc := BitVec.ofNat 72 b.at', started := none })
  let s := { s with checked := true }
  let s := if b.syls.isEmpty then (match execEmptyBundle (BitVec.ofNat 4 b.sk) s with | .next t => t | _ => s)
    else s.runAll (b.syls.map (·.2.2))
  { s with checked := false }

/-- The sequencer after an issue (R27, R33, R148, R150). -/
def State.advance (s : State) (c : Nat) (b : Bundle) : State :=
  let x := s.coreAt c
  let a := x.now
  let stat := b.syls.any (fun y => isTransfer y.2.2) && x.bsk == 0
  let a := { a with last := BitVec.ofNat 72 b.at', past := false, passTo := none, pc := x.bnext, sk := x.bsk, delay := stat,
                       noStep := false }
  let a := { a with stall := .none, skipSlot := none, entryTile := none }
  let a := match x.loop0 with
    | some e => { a with passTo := some e, sk := x.bsk + 1 }
    | none => a
  s.setCoreAt c { x with now := a, loop0 := none }

/-- The link of a CALL whose delay bundle could not be read at its issue: the address after that bundle, now that it issues (R149;
DEDUCED, log 114). -/
def State.lateLink (s : State) (c : Nat) (b : Bundle) : State :=
  let x := s.coreAt c
  match x.now.xfer with
  | some ⟨k, base, d, true⟩ =>
    let n := s.codeOff x.mc (s.skipMarkers x.mc b.next fetchFuel)
    s.onArchAt c (fun a => { a.wr (.s 63 (BitVec.ofNat 64 n)) with xfer := some ⟨k, base, d, false⟩ })
  | _ => s

/-- A bundle that other work holds back keeps what its WAITF or GBAR has come to (R166, R169). -/
def Stall.held : Stall → Stall
  | .waitf x y l d => .waitf x y l d
  | .gbar b o r m => .gbar b o r m
  | _ => .other

/-- The issue of a bundle: its checks on the state before it, in slot order (R52, R482), then the reasons to wait, then the
effects of all its syllables at once. -/
def State.issueBody (s : State) (c : Nat) (b : Bundle) : State :=
  let s := s.hurryFor c b
  let a := (s.coreAt c).now
  -- the checks see the bundle's own address and the address after it
  let s := s.onCoreAt c (fun x => {
    x with bnext := BitVec.ofNat 72 b.next, bsk := b.sk, now := { x.now with pc := BitVec.ofNat 72 b.at' } })
  let (trap, stalls) := ({ s with checked := false } : State).checkSyls a b.syls
  match trap with
  | some t => s.orLate c t
  | none =>
    let t := s.issueBundle c b
    if ctrOver a b then s.orLate c (s.takeTrap c 3 { cause := 96, reason := 0 })
    else if (t.coreAt c).now.queued > 64 then s.orLate c (s.takeTrap c 7 { cause := 106, reason := 0 })
    else if !stalls.isEmpty then (State.runAll { s with checked := false } stalls).cycleEnd c false
    else if s.heldBack c b then (s.onArchAt c (fun a => { a with stall := a.stall.held })).cycleEnd c false
    else
      let pending := a.xfer.isSome
      let t := t.advance c b
      let t := if pending then t.takeTransfer c else t
      if (t.coreAt c).running then t.cycleEnd c (!pending && !a.noStep) else t

/-- Where the next bundle is fetched (R150, R481): at `pc`; after the bundle at `pc`, when that has issued; or after the end bundle of a
loop with count 0. -/
def State.fetchNext (s : State) (c : Nat) : (Nat × Except FetchStop Bundle) × State :=
  let a := (s.coreAt c).now
  match a.passTo with
  | some e => s.fetchPast c fetchFuel e.toNat
  | none => if a.past then s.fetchPast c fetchFuel a.pc.toNat else s.fetchAt c fetchFuel a.pc.toNat

/-- The sequencer has come to address `va` (R29): what stood before it is passed, unless `stay`. -/
def Arch.arrive (a : Arch) (stay : Bool) (va : Nat) : Arch :=
  if stay then a else { a with pc := BitVec.ofNat 72 va, past := false, passTo := none }

/-- A cycle in which a bundle stands at issue. TILE_STATE of an entry comes before everything that its first bundle could raise
(R84; DEDUCED, log 115). -/
def State.issueCycle (s : State) (c : Nat) : State :=
  let a := (s.coreAt c).now
  let asleep := match a.fwait with
    | .mig _ => true
    | _ => false
  if asleep then s.cycleEnd c false
  else
  match a.entryTile with
  | some i =>
    -- R84: the first handle that has not been allocated
    s.orLate c (s.takeTrap c 7 { cause := 41, reason := 2, data := BitVec.ofNat 32 (s.tileRec (s.coreAt c).mc i).1.toNat })
  | none =>
    -- a bundle that is passed over stays the place of a fetch that has not come beyond it
    let stay (va : Nat) : Bool := match a.passTo with
      | some e => s.skipMarkers (s.coreAt c).mc e.toNat fetchFuel == va
      | none => a.past && s.skipMarkers (s.coreAt c).mc a.pc.toNat fetchFuel == va
    match s.fetchNext c with
    | ((va, .error (.wait st)), s) => (s.onArchAt c (fun a => { a.arrive (stay va) va with fwait := st })).cycleEnd c false
    | ((va, .error (.trap slot t)), s) =>
      let s := s.onArchAt c (fun a => { a.arrive (stay va) va with fwait := .none })
      s.orLate c (s.takeTrap c slot t)
    | ((va, .ok b), s) => ((s.onArchAt c (fun a => { a.arrive false va with fwait := .none })).lateLink c b).issueBody c b

/-- One cycle of a core that holds a RUNNING continuation, if it has not run the present cycle of its cluster: a late fault is
taken at the boundary (R417); an empty cycle, a cycle of a SUSP or RETIRE that is completing, or the issue of a bundle. -/
def State.coreCycleGo (s : State) (c : Nat) : State :=
  let s := ({ s with cur := c, checked := false } : State).yieldEnd c
  let x := s.coreAt c
  if !x.running then s
  else if x.stop.isSome then s.standing c
  else if !x.late.isEmpty && !x.now.gbarReleased then (match execLateFault c s with | .next t => t.standing c | _ => s)
  else
    match x.now.xfer with
    | some ⟨.susp .., _, true, _⟩ =>
      (match execSuspFrameWrite c s with
       | .next t => if (t.coreAt c).running then t.cycleEnd c false else t
       | _ => s)
    | some ⟨.retire, _, true, _⟩ =>
      (match execRetireComplete c s with
       | .next t => if (t.coreAt c).running then t.cycleEnd c false else t
       | _ => s)
    | some ⟨.yield, _, true, _⟩ => if s.frameOff c then s.cycleEnd c false else (s.stopAt c .yield).standing c
    | p =>
      if x.now.sk > 0 then
        let s := s.onArchAt c (fun a => { a with sk := a.sk - 1 })
        ((s.takeTransfer c).cycleEnd c (p.isNone && !x.now.noStep)).onArchAt c (fun a => { a with noStep := a.noStep && decide (0 < a.sk) })
      else s.issueCycle c

/-- A cycle of a core, and the turn of a YIELD at the boundary that it ends at (R157). -/
def State.coreCycle (s : State) (c : Nat) : State :=
  let x := s.coreAt c
  if !x.running || x.cyc != (s.clusterAt (clusterOfCore c)).cyc then s
  else (s.coreCycleGo c).yieldEnd c

/-! ## A cycle of a cluster (R14) -/

/-- The cores of a cluster. -/
def coresOf (q : Nat) : List Nat := (List.range 16).map (fun i => 16 * q + i)

/-- The end of a cycle of cluster `q` and the start of the next, once all its cores have run it: the Fold (R277 to R286),
the stops of the cycle (R291) and the freezes that have been decided (R408), freed tiles (R221) and TWAYS (R218) (DEDUCED, log 65). -/
def State.clusterCycle (s : State) (q : Nat) : State :=
  let t := (s.clusterAt q).cyc
  if (coresOf q).any (fun c => (s.coreAt c).running && (s.coreAt c).cyc != t + 1) then s
  else
    let s := (s.hurry (coresOf q)).foldFinish q t
    let s := (coresOf q).foldl (fun s c => s.stopNow c t) s
    let s := s.setCluster q { s.clusterAt q with cyc := t + 1 }
    let s := s.foldBegin q (t + 1)
    let s := (coresOf q).foldl (fun s c => (s.serveFreeze c).freezeEnd c) s
    (s.reapClus q).twaysApply q

end Sys2Proof.Machine
end

