-- ==== Sys2Proof/Machine/Step.lean ====
section
/-!
DEFINITION. One step of the device: the move that happens next (DESIGN CHOICE, log 4), and the placing of an instruction where the next step
fetches.
-/
namespace Sys2Proof.Machine
set_option Elab.async false
open Sys2Proof

/-- What comes from outside and is no event of the table. -/
def State.outsideMove (s : State) (m : Move) : State :=
  match m with
  | .hostRead fn bar off n => s.hostRead fn bar off n
  | .configRead fn off => s.configRead fn off
  | .configWrite fn off v => s.configWrite fn off v
  | .resetDone fn => s.resetDone fn
  | .frame port bs => s.frameArrives port bs
  | .ckptStep x => s.ckptStep x
  | .spdmRequest fn code => s.spdmOther fn code
  | .unsupported fn => { s with outbox := s.outbox ++ [.unsupported fn] }
  | .i3cRead b => s.i3cRead b
  | _ => s

/-- What one move does, in a phase that lets it have an effect (R26, R464, R476). An event that has to wait happens again after the
others (DESIGN CHOICE, log 6). -/
def State.move (s : State) (m : Move) : Host.Outcome State Fault Refusal :=
  if !s.phase.lets m then .next s
  else
    match m with
    | .clock => .next { s with rtc := s.rtc + 1 }.giveOwed
    | .core c => .next (s.coreCycle c)
    | .cluster q => .next (s.clusterCycle q)
    | .ev i =>
      match exec i s with
      | .next t => .next (if t.again then { t with again := false, inbox := t.inbox ++ [.ev i] } else t)
      | r => r
    | m => .next (s.outsideMove m)

/-- One step: the oldest move of the inbox; with an empty inbox, a move that the free values name, unless the device has no
power (DESIGN CHOICE, log 112). -/
def step (s : State) : Host.Outcome State Fault Refusal :=
  match s.inbox with
  | m :: r => State.move { s with inbox := r } m
  | [] =>
    if s.phase == .off then .fault .noPower
    else State.move { s with free := s.free + 1 } (Config.nextMove s.free)

/-! ## Placing an instruction -/

/-- A page table of four levels that maps page 0 of a micro-context to the frame at 0x500000 for execution (R197, R198), and the
line of code there. -/
def placed (mem : SMap Byte) (ws : List Nat) : SMap Byte :=
  let mem := wrNum mem 0x100000 8 (0x200000 + 1)
  let mem := wrNum mem 0x200000 8 (0x300000 + 1)
  let mem := wrNum mem 0x300000 8 (0x400000 + 1)
  let mem := wrNum mem 0x400000 8 (0x500000 + 0x19)
  wrBytes mem 0x500000 (ws.flatMap (toBytes 4))

/-- The bundle of an instruction: its header with the bit of its slot, and its words. -/
def placedWords (w : Nat) : List Nat :=
  let lo := w % 2 ^ 32
  let hi := w / 2 ^ 32 % 2 ^ 32
  match tableSlot (BitVec.ofNat 32 lo) (BitVec.ofNat 32 hi) slotList with
  | none => [1, lo, 0]
  | some (sl, _) =>
    if extKind sl (lo / 2 ^ 26) == .required || hi != 0 then [2 ^ sl.num + 2 ^ (8 + sl.num), lo, hi] else [2 ^ sl.num, lo, 0]

/-- A unit map with every unit (R469). -/
def presentUnits : Units := ⟨BitVec.allOnes 192, BitVec.allOnes 48, BitVec.allOnes 12, BitVec.allOnes 64⟩

/-- An instruction placed where the next step fetches it (DESIGN CHOICE, log 10). -/
def State.withFetchWord (s : State) (_nbits w : Nat) : State := {
  s with
    mem := placed s.mem (placedWords w)
    parts := SMap.set {} s.parts 0 { s.partAt 0 with active := true, privBase := 0, privBound := 0x1000000 }
    mcs := SMap.set {} s.mcs 0 { s.mcAt 0 with state := .bound, ptroot := 0x100000, frames := 1 }
    cores := SMap.set {} s.cores 0 { s.coreAt 0 with running := true, cyc := (s.clusterAt 0).cyc }
    phase := .ready
    factory := presentUnits
    units := presentUnits
    mapver := 1
    inbox := [.core 0] }

end Sys2Proof.Machine
end

