-- ==== Sys2Proof/Safety.lean ====
section
/-!
DEFINITION. What the statements call a well-kept state: the memories in their canonical form.
-/
namespace Sys2Proof
set_option Elab.async false
open Sys2Proof.Machine

/-- Device memory and host memory stand in the canonical form: addresses strictly rising, no entry for a zero byte. -/
def MemInv (s : State) : Prop := Memory.wf s.mem = true ∧ Memory.wf s.host = true

end Sys2Proof
end

