-- ==== Sys2Proof/Certificates/Slice0/Obligations.lean ====
section
/-!
DEFINITION. The statements about the machine. Those of an instruction say which state `exec` answers; the names of the rules that
they formalise stand in OBLIGATIONS.json.
-/
set_option Elab.async false
open Sys2Proof Sys2Proof.Machine

namespace Sys2Proof.Claim

/-- `exec` answers state `t`, and the syllable has issued. -/
def Issues (i : Instr) (s t : State) : Prop := exec i s = .next { t with verdict := .issued }

/-- The syllable issues and one result is in flight: its latency, its slot, its flags and the register that it will write (R59). -/
def Lands (i : Instr) (s : State) (lat slot : Nat) (fl : Flags) (w : RegWrite) : Prop :=
  Issues i s (s.result lat slot fl w)

/-- `n` ends of cycles, for the results in flight. -/
def landings : Nat → Arch → Arch
  | 0, a => a
  | n + 1, a => landings n a.land

/-- The low 32 bits, sign-extended (R177). -/
def low32 (x : Word) : Word := (x.truncate 32).signExtend 64

/-- The sign-extended immediate or extension word (R40). -/
def imm {n : Nat} (w : Nat) (i : BitVec n) (ext : Option Word32) : BitVec w :=
  match ext with
  | some e => e.signExtend w
  | none => i.signExtend w

/-- A sum held to the signed numbers of `w` bits, and the flag SV where it was not one (R180). -/
def saturated (w : Nat) (v : Int) : Word × Flags :=
  let c := max (-(2 ^ (w - 1) : Nat) : Int) (min (((2 ^ (w - 1) : Nat) : Int) - 1) v)
  (BitVec.ofInt 64 c, if c = v then 0 else fSV)

/-- The registers of the continuation at work, as its syllables read them. -/
def SameRegs (a b : Arch) : Prop :=
  (∀ r, a.rdS r = b.rdS r) ∧ (∀ r, a.rdA r = b.rdA r) ∧ (∀ r, a.rdP r = b.rdP r) ∧ (∀ r, a.rdV r = b.rdV r)
    ∧ (∀ r, a.rdK r = b.rdK r) ∧ (∀ r, a.rdT r = b.rdT r) ∧ (∀ r, a.rdLc r = b.rdLc r) ∧ (∀ r, a.rdFt r = b.rdFt r)
    ∧ a.z = b.z ∧ a.zf = b.zf ∧ a.rmode = b.rmode ∧ a.fflags = b.fflags ∧ a.hold = b.hold
    ∧ a.scopeGlobal = b.scopeGlobal ∧ a.leaseLen = b.leaseLen ∧ a.ckpti = b.ckpti ∧ a.trapinfo = b.trapinfo
    ∧ a.ldo = b.ldo ∧ a.sto = b.sto ∧ a.cpo = b.cpo ∧ a.tlo = b.tlo ∧ a.sqo = b.sqo ∧ a.priv = b.priv

/-- Device memory and host memory read the same at every address. -/
def SameMem (s t : State) : Prop := ∀ a, rdByte t.mem a = rdByte s.mem a ∧ rdByte t.host a = rdByte s.host a

end Sys2Proof.Claim

open Sys2Proof.Claim

/-! ## Encoding -/

/-- The decoder reads back every well-formed instruction of a slot from the words that the encoder writes. -/
def Obligations.DecodeOfEncode : Prop :=
  ∀ (i : Instr) (sl : Slot), i.slot = some sl → i.wellFormed = true →
    decodeSyl sl ((encode i).headD 0) (encode i)[1]? = .ok i

/-- Whatever word decodes in a slot is the word that the encoder writes for its instruction, which is well-formed and of that slot: no
bit of a syllable or of its extension word is dropped. -/
def Obligations.EncodeOfDecode : Prop :=
  ∀ (sl : Slot) (w : Word32) (e : Option Word32) (i : Instr), decodeSyl sl w e = .ok i →
    encode i = w :: e.toList ∧ i.slot = some sl ∧ i.wellFormed = true

/-- Which reason of ILL_SYLLABLE a syllable gives: 1 exactly for an unassigned opcode; 3 and 4 only for an extension word that the opcode
does not take, or lacks; 5 only for a word whose instruction names a31 as its destination; no other reason. -/
def Obligations.DecodeReasons : Prop :=
  ∀ (sl : Slot) (w : Word32) (e : Option Word32) (n : Nat), decodeSyl sl w e = .error n →
    1 ≤ n ∧ n ≤ 5
    ∧ (n = 1 ↔ extKind sl (w.toNat / 2 ^ 26) = .unassigned)
    ∧ (n = 3 → extKind sl (w.toNat / 2 ^ 26) = .none ∧ e.isSome = true)
    ∧ (n = 4 → extKind sl (w.toNat / 2 ^ 26) = .required ∧ e = none)
    ∧ (n = 5 → ∃ i, decFields sl (w.toNat / 2 ^ 26) w e = some i ∧ i.destA31 = true)

/-- Words of the spec's encoding tables and worked examples, and the instructions that they stand for. -/
def Obligations.DecodeWords : Prop :=
  decodeSyl .s 0x06618210#32 none = .ok (.add ⟨1, 3⟩ 3 1 2 0)
    ∧ decodeSyl .a 0x18021284#32 none = .ok (.ld ⟨0, 0⟩ 4 4 2 1 0 4 none)
    ∧ decodeSyl .v 0x04008419#32 none = .ok (.vadd ⟨0, 0⟩ 1 2 3 1 none)
    ∧ decodeSyl .s 0xD0038C02#32 none = .ok (.fcvt ⟨0, 0⟩ 7 6 0 0 2)
    ∧ decodeSyl .s 0x8C028000#32 (some 0x12345678#32) = .ok (.lih ⟨0, 0⟩ 5 0x12345678)
    ∧ decodeSyl .b 0x28001061#32 none = .ok (.spawn ⟨0, 0⟩ 4 6 1)

/-! ## Steps -/

/-- Every instruction answers a next state in every state: nothing that executes stops the machine. That a step answers no next state
exactly when the device has no power and nothing is left to happen is the model's choice (log 112), and so is the inbox (log 4). -/
def Obligations.EveryStepAnswers : Prop :=
  (∀ (i : Instr) (s : State), ∃ t, exec i s = .next t)
  ∧ (∀ (s : State), (∀ t, step s ≠ .next t) ↔ s.inbox = [] ∧ s.phase = .off)

/-- A step of an event takes it from the inbox and answers what `exec` answers; one that has to wait stands at the end of the inbox
again. The inbox, and that a waiting event stands at its end again, are the model's choice (log 4). -/
def Obligations.StepRunsEvent : Prop :=
  ∀ (s t : State) (i : Instr) (r : List Move), s.inbox = .ev i :: r → s.phase.lets (.ev i) = true →
    exec i { s with inbox := r } = .next t →
    step s = .next (if t.again then { t with again := false, inbox := t.inbox ++ [.ev i] } else t)

/-- The state in which the fetch of core `c` has come to the bundle at `va`, and the earlier commands have gone on that access the CLUS
bytes which the bundle reads at its issue (R358). -/
def Sys2Proof.Claim.arrived (s : State) (c va : Nat) (b : Bundle) : State :=
  (s.onArchAt c (fun a => { a.arrive false va with fwait := .none })).hurryFor c b

/-- The state in which core `c` checks a fetched bundle: the sequencer stands at the bundle, and knows what follows it. -/
def Sys2Proof.Claim.atBundle (s : State) (c : Nat) (b : Bundle) : State :=
  { (s.onCoreAt c (fun x => { x with
      bnext := BitVec.ofNat 72 b.next, bsk := b.sk, now := { x.now with pc := BitVec.ofNat 72 b.at' } })) with checked := false }

/-- The state in which the syllables of a bundle have their effects. -/
def Sys2Proof.Claim.issuing (s : State) (c : Nat) (b : Bundle) : State :=
  { ((atBundle s c b).onCoreAt c (fun x => { x with bnext := BitVec.ofNat 72 b.next, bsk := b.sk, loop0 := none })).onArchAt c
      (fun a => { a with pc := BitVec.ofNat 72 b.at', started := none }) with checked := true }

/-- A core at rest: it holds a RUNNING continuation that has its cycle to run, and nothing is pending on it. -/
def Sys2Proof.Claim.Ready (s : State) (c : Nat) : Prop :=
  let x := s.coreAt c
  x.running = true ∧ x.cyc = (s.clusterAt (clusterOfCore c)).cyc ∧ x.late = [] ∧ x.stop = none ∧ x.now.xfer = none ∧ x.now.sk = 0
    ∧ x.now.stall = .none ∧ x.now.fwait = .none ∧ x.now.entryTile = none ∧ x.now.past = false ∧ x.now.passTo = none

/-- A step of a core whose fetch gives a bundle of one syllable, which no check traps or stalls and no fence holds back, is `exec` of
that syllable's instruction; then the sequencer goes on, and the cycle ends. -/
def Obligations.StepRunsSyllable : Prop :=
  ∀ (s s1 t u : State) (c va : Nat) (r : List Move) (b : Bundle) (n w : Nat) (i : Instr),
    s.inbox = .core c :: r → s.phase = .ready → Ready s c →
    ({ s with inbox := r, cur := c, checked := false } : State).fetchAt c fetchFuel (s.coreAt c).now.pc.toNat = ((va, .ok b), s1) →
    (s1.coreAt c).now.xfer = none → b.syls = [(n, w, i)] →
    let s2 := arrived s1 c va b
    (s2.coreAt c).now.xfer = none → (s2.coreAt c).now.noStep = false →
    exec i (atBundle s2 c b) = .next u → u.verdict = .issued →
    exec i (issuing s2 c b) = .next t →
    (t.coreAt c).now.queued ≤ 64 → (atBundle s2 c b).heldBack c b = false → (t.coreAt c).running = true →
    step s = .next (((({ t with checked := false } : State).advance c b).cycleEnd c true).yieldEnd c)

/-- The fetch of a bundle of one syllable: a header that is good and has one slot present, then the syllable, then its extension word. A
BR or RET is fetched where its target is a multiple of 4 (R32), and in a delay bundle no transfer and no loop start is (R33). The words are
read where the address translates, in a line without poison; that its tentative writers commit it at once when the fetch reads it is the
model's choice (log 52; R371 and R423 ask that the fetch sees no tentative byte). -/
def Obligations.FetchReadsSyllable : Prop :=
  (∀ (s s1 : State) (c k va pa sk : Nat) (sl : Slot) (w : Word32) (e : Option Word32) (i : Instr),
    va % 4 = 0 → s.codeAt c va = (.ok (false, pa), s1) → sk < 16 →
    rdNum s1.mem pa 4 = 2 ^ sl.num + (if e.isSome then 2 ^ (8 + sl.num) else 0) + sk * 2 ^ 16 →
    rdNum s1.mem (pa + 4) 4 = w.toNat → (∀ x, e = some x → rdNum s1.mem (pa + 8) 4 = x.toNat) →
    va / 4 % 16 + (if e.isSome then 3 else 2) ≤ 16 →
    decodeSyl sl w e = .ok i →
    (sl = .b → (s1.coreAt c).now.delay = true → delayOp w.toNat = false) →
    (∀ g x y, i = .br g x y → ((s1.mcAt (s1.coreAt c).mc).codebase.toNat + ((s1.coreAt c).now.rdS x).toNat
      + ((s1.coreAt c).now.rdS y).toNat) % 4 = 0) →
    (∀ g x, i = .ret g x → ((s1.mcAt (s1.coreAt c).mc).codebase.toNat + ((s1.coreAt c).now.rdS x).toNat) % 4 = 0) →
    s.fetchAt c (k + 1) va
      = ((va, .ok ⟨va, sk, (va + 4 * (if e.isSome then 3 else 2)) % 2 ^ 72, [(sl.num, w.toNat, i)]⟩), s1))
  ∧ (∀ (s s1 : State) (c va pa : Nat),
    s.xlateDo (s.fetcher c) (s.coreAt c).mc 0 va .execute = (.ok false pa, s1) → s1.poisoned (pa / 64 * 64) 64 = false →
    s.codeAt c va = (.ok (false, pa), (s1.commitBut c none (pa / 64 * 64) 64).viaCache (pa / 64 * 64) 64 false))
  ∧ (∀ (s s1 : State) (c va pa : Nat),
    s.xlateDo (s.fetcher c) (s.coreAt c).mc 0 va .execute = (.ok true pa, s1) →
    let t := s1.hostLink (s.coreAt c).mc false (pa / 64 * 64) 64
    (∀ e ∈ t.hostErr, e.1 ≠ pa / 65536) → s.codeAt c va = (.ok (true, pa), t))

/-! ## Reset -/

/-- The device right after reset: it stands at the start of bring-up, no micro-context is allocated, no partition is active, no fence
counter is allocated, no core runs, no operation is outstanding. That memory reads zero already here (the spec has bring-up write the
zeros), that RTC is 0 and which phase it is are the model's choice (logs 1 and 5). -/
def Obligations.ResetValues : Prop :=
  State.reset.phase = .boot ∧ (∀ m, (State.reset.mcAt m).state = .free) ∧ (∀ p, (State.reset.partAt p).active = false)
    ∧ (∀ n, (State.reset.fenceAt n).alloc = false) ∧ (∀ c, (State.reset.coreAt c).running = false) ∧ State.reset.ops = []
    ∧ (∀ a, rdByte State.reset.mem a = 0) ∧ (∀ m, (State.reset.mcAt m).unexp = [])
    ∧ (∀ q, (State.reset.clusterAt q).tways = 8) ∧ State.reset.rtc = 0

/-- The memories are in their canonical form after reset. -/
def Obligations.ResetMemories : Prop := MemInv State.reset

/-- Every step keeps the memories in their canonical form, whatever the state it starts from. -/
def Obligations.StepKeepsMemories : Prop :=
  ∀ s t : State, MemInv s → step s = .next t → MemInv t

/-! ## Registers -/

/-- s0 and a0 read 0, p0 reads true and k0 all ones, in every state; a write to one of them changes nothing. Any other register that is
written reads the value; every other register reads as before. -/
def Obligations.RegisterAccess : Prop :=
  (∀ (a : Arch) (v : Word) (x : VAddr) (b : Bool),
    a.rdS 0 = 0 ∧ a.rdA 0 = 0 ∧ a.rdP 0 = true ∧ a.rdK 0 = BitVec.allOnes 64
    ∧ a.wr (.s 0 v) = a ∧ a.wr (.a 0 x) = a ∧ a.wr (.p 0 b) = a ∧ a.wr (.k 0 v) = a)
  ∧ (∀ a : Arch,
    (∀ (r q : SReg) (v : Word), r ≠ 0 → (a.wr (.s r v)).rdS q = if q = r then v else a.rdS q)
    ∧ (∀ (r q : AReg) (v : VAddr), r ≠ 0 → (a.wr (.a r v)).rdA q = if q = r then v else a.rdA q)
    ∧ (∀ (r q : PReg) (v : Bool), r ≠ 0 → (a.wr (.p r v)).rdP q = if q = r then v else a.rdP q)
    ∧ (∀ (r q : KReg) (v : Word), r ≠ 0 → (a.wr (.k r v)).rdK q = if q = r then v else a.rdK q)
    ∧ (∀ (r q : VReg) (v : VWord), (a.wr (.v r v)).rdV q = if q = r then v else a.rdV q)
    ∧ (∀ (r q : TReg) (v : TDesc), (a.wr (.t r v)).rdT q = if q = r then v else a.rdT q)
    ∧ (∀ (r q : BitVec 2) (v : Word32), (a.wr (.lc r v)).rdLc q = if q = r then v else a.rdLc q)
    ∧ (∀ (r q : BitVec 4) (v : BitVec 16), (a.wr (.ft r v)).rdFt q = if q = r then v else a.rdFt q)
    ∧ (∀ (r : SReg) (v : Word), SameRegs { a.wr (.s r v) with s := a.s } a)
    ∧ (∀ (r : AReg) (v : VAddr), SameRegs { a.wr (.a r v) with a := a.a } a)
    ∧ (∀ (r : PReg) (v : Bool), SameRegs { a.wr (.p r v) with p := a.p } a)
    ∧ (∀ (r : VReg) (v : VWord), SameRegs { a.wr (.v r v) with v := a.v } a)
    ∧ (∀ (r : KReg) (v : Word), SameRegs { a.wr (.k r v) with k := a.k } a)
    ∧ (∀ (r : TReg) (v : TDesc), SameRegs { a.wr (.t r v) with t := a.t } a)
    ∧ (∀ (r : BitVec 2) (v : Word32), SameRegs { a.wr (.lc r v) with lc := a.lc } a)
    ∧ (∀ (r : BitVec 4) (v : BitVec 16), SameRegs { a.wr (.ft r v) with ft := a.ft } a))

/-- A syllable whose result is in flight has changed no register and no memory; no other core is touched. -/
def Obligations.ResultInFlight : Prop :=
  ∀ (s : State) (lat slot : Nat) (fl : Flags) (w : RegWrite),
    let t := s.result lat slot fl w
    t.arch.fly = s.arch.fly ++ [⟨lat, slot, s.arch.seq, fl, w⟩] ∧ SameRegs t.arch s.arch ∧ t.arch.pc = s.arch.pc
      ∧ SameMem s t ∧ (∀ c, c ≠ s.cur → t.coreAt c = s.coreAt c)
      ∧ t.ops = s.ops ∧ t.conts = s.conts ∧ t.fences = s.fences ∧ t.clusters = s.clusters ∧ t.mcs = s.mcs

/-- A result of latency L lands at the end of the L-th cycle: until then its register reads the old value, after it the new one, and the
flags of the result have been ORed into FFLAGS. No other register changes. Of two results that land in one register in one cycle, the
value of the higher slot remains, and of one slot the value of the later issue; the flags of both reach FFLAGS. -/
def Obligations.Landings : Prop :=
  (∀ (a : Arch) (lat slot n : Nat) (fl : Flags) (d : SReg) (v : Word), a.fly = [] → 1 ≤ lat →
    let b := landings n (a.fly1 lat slot fl (.s d v))
    (n < lat → SameRegs b a)
    ∧ (lat ≤ n → (∀ q, b.rdS q = if q = d ∧ d ≠ 0 then v else a.rdS q) ∧ b.fflags = a.fflags ||| fl
        ∧ SameRegs { b with s := a.s, fflags := a.fflags } a))
  ∧ (∀ (a : Arch) (x y : Landing) (d : SReg) (v w : Word), a.fly = [x, y] ∨ a.fly = [y, x] → x.remain ≤ 1 → y.remain ≤ 1 →
    x.w = .s d v → y.w = .s d w → d ≠ 0 → (x.slot < y.slot ∨ (x.slot = y.slot ∧ x.seq < y.seq)) →
    a.land.rdS d = w ∧ a.land.fflags = a.fflags ||| x.flags ||| y.flags)

/-- A syllable whose guard is false changes nothing, whatever its slot and operands (the passes, the streams and the readouts to PRIV, which
keep their engine or port busy, stand apart). -/
def Obligations.GuardedOff : Prop :=
  ∀ (s : State) (i : Instr) (sl : Slot), i.slot = some sl →
    (∀ g z ta tb acc mx, i ≠ .mmul g z ta tb acc mx ∧ i ≠ .mspec g z ta tb acc mx) →
    (∀ g z t y mx, i = .mrd g z t y mx → (s.arch.rdT t).clus = true) →
    (sl = .x → ∃ g t d xe z, i = .xtag g t d xe ∨ i = .xtagAcc g z d xe) →
    s.arch.guardOn sl.num (guardOf ((encode i).headD 0)) = false →
    exec i s = .next { s with verdict := .issued }

/-! ## Slot S -/

namespace Sys2Proof.Claim

/-- The conditions of CMP and CMPI (R187, table "Condition codes"). -/
def condition (c : BitVec 5) (x y : Word) : Bool :=
  match c.toNat with
  | 0 => x == y
  | 1 => x != y
  | 2 => x.slt y
  | 3 => !x.slt y
  | 4 => x.sle y
  | 5 => !x.sle y
  | 6 => x.ult y
  | 7 => !x.ult y
  | 8 => x.ule y
  | 9 => !x.ule y
  | 10 => x &&& y != 0
  | _ => x &&& y == 0

/-- The FP32 value in the low bits of a register (R177). -/
def single (x : Word) : FVal := FFmt.fp32.decode (x.toNat % 2 ^ 32)

/-- The number of ones among the low `w` bits. -/
def ones (w : Nat) (x : Word) : Nat := ((List.range w).filter (fun i => x.getLsbD i)).length

/-- CLZ, CTZ and POPC of the low `w` bits put their counts in flight with latency 1. -/
def Counts (s : State) (g : Guard) (d a : SReg) (f : BitVec 3) (w : Nat) : Prop :=
  let x := s.arch.rdS a
  (∃ n < w + 1, Lands (.clz g d a f) s 1 1 0 (.s d (BitVec.ofNat 64 n))
    ∧ (∀ j < n, x.getLsbD (w - 1 - j) = false) ∧ (n < w → x.getLsbD (w - 1 - n) = true))
  ∧ (∃ n < w + 1, Lands (.ctz g d a f) s 1 1 0 (.s d (BitVec.ofNat 64 n))
    ∧ (∀ j < n, x.getLsbD j = false) ∧ (n < w → x.getLsbD n = true))
  ∧ Lands (.popc g d a f) s 1 1 0 (.s d (BitVec.ofNat 64 (ones w x)))

/-- The value of a conversion to an integer (R106): the nearest integer of the mode, held to the range with NV. -/
def toInteger (m : Rm) (lo hi : Int) (x : FVal) : Int × Flags :=
  match x with
  | .nan _ => (0, fNV)
  | .inf n => (if n then lo else hi, fNV)
  | .zero _ => (0, 0)
  | .fin n k e =>
    let (q, nx) := roundNat m n (k * 2 ^ e.toNat) (2 ^ (-e).toNat)
    let v : Int := if n then -(q : Int) else q
    if v < lo then (lo, fNV) else if hi < v then (hi, fNV) else (v, if nx then fNX else 0)

/-- The floating-point format of a narrow FCVT code (R193). -/
def narrow (code : Nat) : FFmt :=
  if code ≤ 6 then FFmt.fp16 else if code ≤ 8 then FFmt.bf16 else if code ≤ 10 then FFmt.fe4m3 else FFmt.fe5m2

/-- The table "Conversion codes" (R193), codes 0 to 12. -/
def conversion (code : Nat) (m : Rm) (sat : Bool) (x : Word) : Word × Flags :=
  let up (r : Nat × Flags) : Word × Flags := (BitVec.ofNat 64 r.1, r.2)
  let whole (i : Int) : Ex := if i = 0 then .zero false else .fin (decide (i < 0)) i.natAbs 1 0
  if code = 0 then
    let (v, fl) := toInteger m (-2147483648) 2147483647 (single x)
    (BitVec.ofInt 64 v, fl)
  else if code = 1 then
    let (v, fl) := toInteger m (-9223372036854775808) 9223372036854775807 (single x)
    (BitVec.ofInt 64 v, fl)
  else if code = 2 then up (FFmt.fp32.round m false (whole (x.truncate 32).toInt))
  else if code = 3 then up (FFmt.fp32.round m false (whole x.toInt))
  else if code = 4 then up (FFmt.fp32.round m false (whole x.toNat))
  else if code % 2 = 1 then up ((narrow code).round m sat (single x).toEx)
  else up (FFmt.fp32.round m false ((narrow code).decode x.toNat).toEx)

end Sys2Proof.Claim

/-- Integer addition, subtraction, multiplication and division: every form issues and puts its exact value, wrapped or held to the signed
range, in flight with its latency; a clamp raises SV; no operand traps. -/
def Obligations.IntegerArithmetic : Prop :=
  ∀ (s : State) (g : Guard) (d a b : SReg) (i : BitVec 9) (e : Option Word32), s.arch.guardOn 1 g = true →
    let x := s.arch.rdS a
    let y := s.arch.rdS b
    let x32 : Word32 := x.truncate 32
    let y32 : Word32 := y.truncate 32
    Lands (.add g d a b 0) s 1 1 0 (.s d (x + y))
    ∧ Lands (.add g d a b 1) s 1 1 0 (.s d (low32 (x + y)))
    ∧ Lands (.add g d a b 2) s 1 1 (saturated 64 (x.toInt + y.toInt)).2 (.s d (saturated 64 (x.toInt + y.toInt)).1)
    ∧ Lands (.add g d a b 3) s 1 1 (saturated 32 (x32.toInt + y32.toInt)).2 (.s d (saturated 32 (x32.toInt + y32.toInt)).1)
    ∧ Lands (.sub g d a b 0) s 1 1 0 (.s d (x - y))
    ∧ Lands (.sub g d a b 1) s 1 1 0 (.s d (low32 (x - y)))
    ∧ Lands (.sub g d a b 2) s 1 1 (saturated 64 (x.toInt - y.toInt)).2 (.s d (saturated 64 (x.toInt - y.toInt)).1)
    ∧ Lands (.sub g d a b 3) s 1 1 (saturated 32 (x32.toInt - y32.toInt)).2 (.s d (saturated 32 (x32.toInt - y32.toInt)).1)
    ∧ Lands (.addi g d a i e) s 1 1 0 (.s d (x + imm 64 i e))
    ∧ Lands (.mul g d a b 0) s 3 1 0 (.s d (x * y))
    ∧ Lands (.mul g d a b 1) s 3 1 0 (.s d (low32 (x * y)))
    ∧ Lands (.mulh g d a b) s 3 1 0 (.s d ((x.signExtend 128 * y.signExtend 128).extractLsb' 64 64))
    ∧ Lands (.mulhu g d a b) s 3 1 0 (.s d ((x.zeroExtend 128 * y.zeroExtend 128).extractLsb' 64 64))
    ∧ Lands (.div g d a b 0) s 24 1 0 (.s d (if y = 0 then -1 else x.sdiv y))
    ∧ Lands (.div g d a b 1) s 14 1 0 (.s d (if y32 = 0 then -1 else (x32.sdiv y32).signExtend 64))
    ∧ Lands (.divu g d a b 0) s 24 1 0 (.s d (if y = 0 then -1 else x / y))
    ∧ Lands (.divu g d a b 1) s 14 1 0 (.s d (if y32 = 0 then -1 else (x32 / y32).signExtend 64))
    ∧ Lands (.rem g d a b 0) s 24 1 0 (.s d (if y = 0 then x else x.srem y))
    ∧ Lands (.rem g d a b 1) s 14 1 0 (.s d (if y32 = 0 then x32.signExtend 64 else (x32.srem y32).signExtend 64))
    ∧ Lands (.remu g d a b 0) s 24 1 0 (.s d (if y = 0 then x else x % y))
    ∧ Lands (.remu g d a b 1) s 14 1 0 (.s d (if y32 = 0 then x32.signExtend 64 else (x32 % y32).signExtend 64))

/-- Logic, shifts and rotates: every form issues and puts its value in flight with latency 1. A count of the width or more gives zeros,
or the sign of the source. -/
def Obligations.LogicAndShifts : Prop :=
  ∀ (s : State) (g : Guard) (d a b : SReg) (i : BitVec 9) (e : Option Word32) (c : BitVec 6), s.arch.guardOn 1 g = true →
    let x := s.arch.rdS a
    let y := s.arch.rdS b
    let n := y.toNat
    let x32 : Word32 := x.truncate 32
    Lands (.and g d a b) s 1 1 0 (.s d (x &&& y))
    ∧ Lands (.andi g d a i e) s 1 1 0 (.s d (x &&& imm 64 i e))
    ∧ Lands (.or g d a b) s 1 1 0 (.s d (x ||| y))
    ∧ Lands (.ori g d a i e) s 1 1 0 (.s d (x ||| imm 64 i e))
    ∧ Lands (.xor g d a b) s 1 1 0 (.s d (x ^^^ y))
    ∧ Lands (.xori g d a i e) s 1 1 0 (.s d (x ^^^ imm 64 i e))
    ∧ Lands (.andn g d a b) s 1 1 0 (.s d (x &&& ~~~ y))
    ∧ Lands (.sll g d a b 0) s 1 1 0 (.s d (if n < 64 then x <<< n else 0))
    ∧ Lands (.sll g d a b 1) s 1 1 0 (.s d (if n < 32 then (x32 <<< n).signExtend 64 else 0))
    ∧ Lands (.srl g d a b 0) s 1 1 0 (.s d (if n < 64 then x >>> n else 0))
    ∧ Lands (.srl g d a b 1) s 1 1 0 (.s d (if n < 32 then (x32 >>> n).signExtend 64 else 0))
    ∧ Lands (.sra g d a b 0) s 1 1 0 (.s d (if n < 64 then x.sshiftRight n else if x.msb then -1 else 0))
    ∧ Lands (.sra g d a b 1) s 1 1 0
        (.s d (if n < 32 then (x32.sshiftRight n).signExtend 64 else if x32.msb then -1 else 0))
    ∧ Lands (.slli g d a 0 c) s 1 1 0 (.s d (x <<< c.toNat))
    ∧ (c.toNat < 32 → Lands (.slli g d a 1 c) s 1 1 0 (.s d ((x32 <<< c.toNat).signExtend 64)))
    ∧ Lands (.srli g d a 0 c) s 1 1 0 (.s d (x >>> c.toNat))
    ∧ (c.toNat < 32 → Lands (.srli g d a 1 c) s 1 1 0 (.s d ((x32 >>> c.toNat).signExtend 64)))
    ∧ Lands (.srai g d a 0 c) s 1 1 0 (.s d (x.sshiftRight c.toNat))
    ∧ (c.toNat < 32 → Lands (.srai g d a 1 c) s 1 1 0 (.s d ((x32.sshiftRight c.toNat).signExtend 64)))
    ∧ Lands (.rot g d a b 0) s 1 1 0 (.s d (x.rotateRight (n % 64)))
    ∧ Lands (.rot g d a b 1) s 1 1 0 (.s d ((x32.rotateRight (n % 32)).signExtend 64))
    ∧ Lands (.rot g d a b 2) s 1 1 0 (.s d (x.rotateLeft (n % 64)))
    ∧ Lands (.rot g d a b 3) s 1 1 0 (.s d ((x32.rotateLeft (n % 32)).signExtend 64))

/-- Minimum and maximum, bit counts, extensions, constants and selection: every form issues and puts its value in flight with latency 1. -/
def Obligations.SelectionAndCounts : Prop :=
  ∀ (s : State) (g : Guard) (d a b : SReg) (i : BitVec 15) (e : Option Word32) (h : Word32) (q : BitVec 3),
    s.arch.guardOn 1 g = true →
    let x := s.arch.rdS a
    let y := s.arch.rdS b
    Lands (.min g d a b) s 1 1 0 (.s d (if x.slt y then x else y))
    ∧ Lands (.max g d a b) s 1 1 0 (.s d (if x.slt y then y else x))
    ∧ Lands (.minu g d a b) s 1 1 0 (.s d (if x.ult y then x else y))
    ∧ Lands (.maxu g d a b) s 1 1 0 (.s d (if x.ult y then y else x))
    ∧ Counts s g d a 0 64 ∧ Counts s g d a 1 32
    ∧ Lands (.sext g d a 0) s 1 1 0 (.s d ((x.truncate 8).signExtend 64))
    ∧ Lands (.sext g d a 1) s 1 1 0 (.s d ((x.truncate 16).signExtend 64))
    ∧ Lands (.sext g d a 2) s 1 1 0 (.s d ((x.truncate 32).signExtend 64))
    ∧ Lands (.zext g d a 0) s 1 1 0 (.s d (x &&& 0xFF))
    ∧ Lands (.zext g d a 1) s 1 1 0 (.s d (x &&& 0xFFFF))
    ∧ Lands (.zext g d a 2) s 1 1 0 (.s d (x &&& 0xFFFFFFFF))
    ∧ Lands (.li g d i e) s 1 1 0 (.s d (imm 64 i e))
    ∧ Lands (.lih g d h) s 1 1 0 (.s d ((h.zeroExtend 64 <<< 32) ||| (s.arch.rdS d &&& 0xFFFFFFFF)))
    ∧ Lands (.sel g d a b q) s 1 1 0 (.s d (if s.arch.rdP (q.zeroExtend 4) then x else y))

/-- Comparisons and predicate logic: every condition of the table issues and puts its truth value in flight with latency 1; no flag is
raised. -/
def Obligations.ComparesAndPredicates : Prop :=
  ∀ (s : State) (g : Guard) (d p q : PReg) (a b : SReg) (c : BitVec 5) (i : BitVec 6) (e : Option Word32),
    s.arch.guardOn 1 g = true →
    (c.toNat ≤ 11 → Lands (.cmp g d a b c) s 1 1 0 (.p d (condition c (s.arch.rdS a) (s.arch.rdS b)))
      ∧ Lands (.cmpi g d a c i e) s 1 1 0 (.p d (condition c (s.arch.rdS a) (imm 64 i e))))
    ∧ Lands (.pand g d p q) s 1 1 0 (.p d (s.arch.rdP p && s.arch.rdP q))
    ∧ Lands (.por g d p q) s 1 1 0 (.p d (s.arch.rdP p || s.arch.rdP q))
    ∧ Lands (.pxor g d p q) s 1 1 0 (.p d (s.arch.rdP p != s.arch.rdP q))
    ∧ Lands (.pandn g d p q) s 1 1 0 (.p d (s.arch.rdP p && !s.arch.rdP q))

/-- FP32 arithmetic, minimum and maximum, comparison and conversion: every form issues and puts the rounding of its exact value, or the
operand that it selects, in flight with its latency and its flags. The rounding field 0 takes RMODE as it is at issue. -/
def Obligations.FloatingPoint : Prop :=
  ∀ (s : State) (g : Guard) (d a b : SReg) (p : PReg) (r : BitVec 3) (c code : BitVec 5) (sat : BitVec 1),
    s.arch.guardOn 1 g = true → r.toNat ≤ 4 →
    let m := if r = 0 then Rm.ofMode s.arch.rmode else if r = 1 then .rne else if r = 2 then .rz else if r = 3 then .rdn else .rup
    let x := single (s.arch.rdS a)
    let y := single (s.arch.rdS b)
    let z := single (s.arch.rdS d)
    let R (v : Ex) := FFmt.fp32.round m false v
    let sn : Bool := x.isSNaN || y.isSNaN
    let un : Bool := x.isNaN || y.isNaN
    Lands (.fadd g d a b r) s 4 1 (R (addV m x y)).2 (.s d (BitVec.ofNat 64 (R (addV m x y)).1))
    ∧ Lands (.fsub g d a b r) s 4 1 (R (addV m x y.negate)).2 (.s d (BitVec.ofNat 64 (R (addV m x y.negate)).1))
    ∧ Lands (.fmul g d a b r) s 4 1 (R (mulEx x y)).2 (.s d (BitVec.ofNat 64 (R (mulEx x y)).1))
    ∧ Lands (.ffma g d a b r) s 4 1 (R (fmaEx m x y z)).2 (.s d (BitVec.ofNat 64 (R (fmaEx m x y z)).1))
    ∧ Lands (.fdiv g d a b r) s 12 1 (R (divEx x y)).2 (.s d (BitVec.ofNat 64 (R (divEx x y)).1))
    ∧ Lands (.fsqrt g d a r) s 12 1 (R (sqrtEx x)).2 (.s d (BitVec.ofNat 64 (R (sqrtEx x)).1))
    ∧ Lands (.fmin g d a b) s 1 1 (if sn then fNV else 0) (.s d (
        if x.isNaN && y.isNaN then 0x7FC00000 else if x.isNaN then s.arch.rdS b &&& 0xFFFFFFFF
        else if y.isNaN then s.arch.rdS a &&& 0xFFFFFFFF
        else (if leMin x y then s.arch.rdS a else s.arch.rdS b) &&& 0xFFFFFFFF))
    ∧ Lands (.fmax g d a b) s 1 1 (if sn then fNV else 0) (.s d (
        if x.isNaN && y.isNaN then 0x7FC00000 else if x.isNaN then s.arch.rdS b &&& 0xFFFFFFFF
        else if y.isNaN then s.arch.rdS a &&& 0xFFFFFFFF
        else (if leMin x y then s.arch.rdS b else s.arch.rdS a) &&& 0xFFFFFFFF))
    ∧ (condFp c = true → Lands (.fcmp g p a b c) s 1 1
        (if (if 2 ≤ c.toNat ∧ c.toNat ≤ 5 then un else sn) then fNV else 0)
        (.p p (if c = 12 then un else if c = 13 then !un else if un then c = 1 else
          match c.toNat with
          | 0 => cmpV x y = 0 | 1 => cmpV x y ≠ 0 | 2 => cmpV x y < 0 | 3 => 0 ≤ cmpV x y | 4 => cmpV x y ≤ 0
          | _ => 0 < cmpV x y)))
    ∧ (code.toNat ≤ 12 → Lands (.fcvt g d a sat code r) s 3 1 (conversion code.toNat m (sat = 1) (s.arch.rdS a)).2
        (.s d (conversion code.toNat m (sat = 1) (s.arch.rdS a)).1))
    ∧ Lands (.fcvt g d a 0 13 r) s 3 1 (FFmt.fp32.integral m x).2 (.s d (BitVec.ofNat 64 (FFmt.fp32.integral m x).1))

/-- Rounding the value of a number that is no NaN to its own format gives the number back, in every mode, and raises no flag. A rounding
that does not overflow: toward zero it never grows, downward it never rises, upward it never falls; what is exact keeps its value and
raises nothing, and what is not raises NX. -/
def Obligations.Rounding : Prop :=
  (∀ (F : FFmt) (m : Rm) (sat : Bool) (x : Nat),
    F = FFmt.fp32 ∨ F = FFmt.fp16 ∨ F = FFmt.bf16 ∨ F = FFmt.fe4m3 ∨ F = FFmt.fe5m2 →
    x < 2 ^ F.width → (F.decode x).isNaN = false →
    F.round m sat (F.decode x).toEx = (x, 0))
  ∧ (∀ (F : FFmt) (m : Rm) (neg : Bool) (num den : Nat) (e : Int),
    F = FFmt.fp32 ∨ F = FFmt.fp16 ∨ F = FFmt.bf16 ∨ F = FFmt.fe4m3 ∨ F = FFmt.fe5m2 → 0 < num → 0 < den →
    let r := F.round m false (.fin neg num den e)
    r.2 &&& fOF = 0 →
    let below := match F.decode r.1 with
      | .fin _ k q => k * den * 2 ^ (q - e).toNat ≤ num * 2 ^ (e - q).toNat
      | _ => True
    let above := match F.decode r.1 with
      | .fin _ k q => num * 2 ^ (e - q).toNat ≤ k * den * 2 ^ (q - e).toNat
      | _ => False
    (F.decode r.1).isNaN = false ∧ (F.decode r.1).neg? = neg
    ∧ (m = .rz ∨ (m = .rdn ∧ neg = false) ∨ (m = .rup ∧ neg = true) → below)
    ∧ ((m = .rdn ∧ neg = true) ∨ (m = .rup ∧ neg = false) → above)
    ∧ (r.2 &&& fNX = 0 ↔ below ∧ above))

/-! ## Slot B -/

namespace Sys2Proof.Claim

/-- A branch to `t` with the further effect `u`: it issues and its target waits for one delay cycle, or, at a target that is no multiple of
4, it raises ILL_TARGET. -/
def Goes (i : Instr) (s : State) (t : VAddr) (u : State → State) : Prop :=
  (t.toNat % 4 = 0 → Issues i s (u (s.transfer (.branch t))))
  ∧ (t.toNat % 4 ≠ 0 → s.checked = false → exec i s = .next (s.takeTrap s.cur 0 { cause := 2, reason := 1 }))

/-- A stalled bundle: state `t`, and nothing of the syllable's effect. -/
def Stalls (i : Instr) (s t : State) : Prop := exec i s = .next { t with verdict := .stalled }

/-- A trap of a syllable of slot `slot`. -/
def Traps (i : Instr) (s : State) (slot cause reason : Nat) : Prop :=
  exec i s = .next (s.takeTrap s.cur slot { cause := cause, reason := reason })

/-- The counter that register value `n` names may be used by the continuation at work (R163). -/
def FenceOk (s : State) (n : Word) : Prop :=
  n.toNat ≤ 65535 ∧ (s.fenceAt n.toNat).alloc = true ∧ (s.fenceAt n.toNat).owner.toNat = s.curMc.part.toNat ∧ s.curPart.active = true

/-- The core at work in `t` has come in state `u` to the end of the delay cycle of its transfer: its results have landed, its fences are
satisfied, and its frame does not migrate. -/
def Delayed (t u : State) : Prop :=
  let x := t.core
  let y := u.coreAt t.cur
  y.running = true ∧ y.mc = x.mc ∧ y.fslot = x.fslot ∧ y.now.xfer = x.now.xfer.map (fun k => { k with done := true })
    ∧ y.now.quiet = true ∧ y.now.fences = [] ∧ u.frameAsleep y.mc y.fslot = false

/-- The loop that `i` starts and that ends `fin` words after the bundle at work. -/
def loopFrom (s : State) (i : Instr) (fin : BitVec 13) : LoopReg :=
  ⟨true, some i, BitVec.ofNat 72 (s.skipMarkers s.core.mc s.core.bnext.toNat fetchFuel), s.arch.pc + fin.zeroExtend 72 * 4⟩

end Sys2Proof.Claim

/-- Branches: BR goes to CODEBASE plus the sum of two registers, BRI and CALL to an offset from the PC in words, RET to CODEBASE plus a
register, LBRK to its end bundle. CALL also links s63, LBRK also leaves its loop. -/
def Obligations.ControlTransfers : Prop :=
  ∀ (s : State) (g : Guard) (x y : SReg) (off : BitVec 21) (lc : BitVec 2) (fin : BitVec 13), s.arch.guardOn 0 g = true →
    let base := s.curMc.codebase
    let rel : VAddr := s.arch.pc + off.signExtend 72 * 4
    Goes (.br g x y) s (base + BitVec.ofNat 72 ((s.arch.rdS x).toNat + (s.arch.rdS y).toNat)) id
    ∧ Goes (.bri g off) s rel id
    ∧ Goes (.call g off) s rel (fun t => (t.result 1 0 0 (.s 63 (BitVec.ofNat 64 s.callLink))).onArch
        (fun a => { a with xfer := a.xfer.map (fun x => { x with link := s.linkLater }) }))
    ∧ Goes (.ret g x) s (base + (s.arch.rdS x).zeroExtend 72) id
    ∧ Goes (.lbrk g lc fin) s (s.arch.pc + fin.zeroExtend 72 * 4)
        (fun t => t.onArch (fun a => a.setLoop lc.toNat { a.loopAt lc.toNat with active := false }))
    ∧ (∀ t k, t = s.transfer k → t.arch.xfer = some ⟨k, s.arch.pc, false, false⟩ ∧ SameRegs t.arch s.arch ∧ SameMem s t)
    ∧ (s.core.bsk > 0 → s.peekCode s.core.mc 0 s.core.bnext.toNat ≠ some lineEnd →
        s.callLink = (s.core.bnext - base).toNat ∧ s.linkLater = false)
    ∧ (∀ h, s.core.bsk = 0 → s.peekCode s.core.mc 0 s.core.bnext.toNat = some h → h ≠ lineEnd →
        (let r := (s.core.bnext.toNat + 4 * bundleWords h) % 2 ^ 72
         s.peekCode s.core.mc 0 r ≠ some lineEnd →
           s.callLink = (r + 2 ^ 72 - base.toNat) % 2 ^ 72 ∧ s.linkLater = false))
    ∧ (∀ c k b, let y := s.coreAt c
        y.now.xfer = some ⟨.branch k, b, false, false⟩ →
          s.takeTransfer c = s.onArchAt c (fun a => { a with xfer := none, pc := k, past := false, sk := 0, delay := false }))

/-- Hardware loops. LOOP and LOOPI write the count, and with a count above 0 activate the loop on the bundles up to its end; with a count
of 0 the loop is inactive and the sequencer passes over its body. At the end of its end bundle, the highest active loop that ends there
counts down and goes back while more than one turn is left, else it is left with a count of 0; a control transfer keeps all loops as they
are, and the bundle that starts a loop does not end it. -/
def Obligations.HardwareLoops : Prop :=
  (∀ (s : State) (g : Guard) (lc : BitVec 2) (x : SReg) (fin : BitVec 13) (n : Word32), s.arch.guardOn 0 g = true →
    let k : Word32 := (s.arch.rdS x).truncate 32
    let starts (i : Instr) (n : Word32) : Prop :=
      ∃ t, Issues i s t ∧ t.arch.fly = s.arch.fly ++ [⟨1, 0, s.arch.seq, 0, .lc lc n⟩] ∧ SameRegs t.arch s.arch ∧ SameMem s t
        ∧ (∀ m, m ≠ lc.toNat → t.arch.loopAt m = s.arch.loopAt m)
        ∧ (n ≠ 0 → t.arch.loopAt lc.toNat = loopFrom s i fin ∧ t.core.loop0 = s.core.loop0 ∧ t.arch.started = some lc.toNat)
        ∧ (n = 0 → (t.arch.loopAt lc.toNat).active = false ∧ t.core.loop0 = some (s.arch.pc + fin.zeroExtend 72 * 4))
    starts (.loop g lc x fin) k ∧ starts (.loopi g lc fin n) n)
  ∧ (∀ (s : State) (c : Nat), s.ending = some c → exec (.loopEndStep c) s = .next (s.onArchAt c Arch.loopEnd))
  ∧ (∀ a : Arch, a.sk ≠ 0 ∨ a.xfer.isSome = true → a.loopEnd = a)
  ∧ (∀ a : Arch, a.sk = 0 → a.xfer = none →
      let ends (n : Nat) : Prop := (a.loopAt n).active = true ∧ (a.loopAt n).lend = a.last ∧ a.started ≠ some n
      ((∀ n < 4, ¬ ends n) → a.loopEnd = a)
      ∧ (∀ n < 4, ends n → (∀ m < 4, n < m → ¬ ends m) →
          let i := BitVec.ofNat 2 n
          (1 < (a.rdLc i).toNat → a.loopEnd.pc = (a.loopAt n).lstart ∧ a.loopEnd.rdLc i = a.rdLc i - 1
            ∧ (∀ j, j ≠ i → a.loopEnd.rdLc j = a.rdLc j) ∧ (∀ m, a.loopEnd.loopAt m = a.loopAt m))
          ∧ ((a.rdLc i).toNat ≤ 1 → a.loopEnd.rdLc i = 0 ∧ (a.loopEnd.loopAt n).active = false)))

/-- SUSP, YIELD and RETIRE. With every outstanding-operation counter at 0 and a good descriptor, each SUSP form issues and waits for its
delay cycle; `susp` and `susp.bar` are commit points, and so is RETIRE. A counter that is not 0 raises BAD_SUSP reason 1, a bad descriptor
BAD_SUSP reason 2; a fence that may not be named raises FENCE_ACCESS. After the delay cycle, when the results have landed and the fences are
satisfied, the SUSP completes: its core holds no continuation, and the continuation is RUNNABLE at once (`susp`), once its fence condition
holds (`susp.fence`, `susp.lend`, WAITING until then) or with its barrier (`susp.bar`); RETIRE leaves its frame slot free; YIELD gives its
core up to another RUNNABLE continuation of its stage. -/
def Obligations.Suspends : Prop :=
  ∀ (s : State) (g : Guard) (x y : SReg) (desc : Word32), s.arch.guardOn 0 g = true →
    let va := (s.arch.pc + desc.signExtend 72 * 4).toNat
    let off := BitVec.ofNat 32 (s.codeOff s.core.mc va)
    let wid := (s.arch.rdS x).toNat
    let n := (s.arch.rdS y).toNat
    let target : Word32 := (s.arch.rdS y).truncate 32
    let c := s.cur
    let k := s.curKey
    (∀ d t, s.arch.countersZero = true → s.arch.descAsleep = false → s.suspRead c va = (.ok d, t) →
      let at' (w i : Nat) (z : Word32) : State := t.transfer (.susp off w i z (some d))
      Issues (.susp g desc) s (at' 0 0 0).commitPoint
      ∧ (FenceOk s (s.arch.rdS x) →
          Issues (.suspFence g x y desc) s (at' 1 wid target) ∧ Issues (.suspLend g x y desc) s (at' 2 wid target))
      ∧ (1 ≤ n → n ≤ 4096 → wid ≤ 15 → Issues (.suspBar g x y desc) s (at' 3 wid target).commitPoint)
      ∧ (∀ u, Delayed (at' 0 0 0) u → ∃ v, exec (.suspFrameWrite c) u = .next v ∧ (v.coreAt c).running = false
          ∧ (v.contAt k).state = .runnable ∧ (v.contAt k).statp = some d.statp ∧ (v.contAt k).frozen = false)
      ∧ (∀ u kind, kind = 1 ∨ kind = 2 → Delayed (at' kind (wid % 65536) target) u →
          let f := u.fenceAt (wid % 65536)
          ∃ v, exec (.suspFrameWrite c) u = .next v ∧ (v.coreAt c).running = false
            ∧ (v.contAt k).state = (if f.err = true ∨ (f.value.toNat + 2 ^ 32 - target.toNat) % 2 ^ 32 < 2 ^ 31 then .runnable else .waiting)
            ∧ (v.contAt k).wid = wid % 65536 ∧ (v.contAt k).wtarget = target ∧ (v.contAt k).wkind = kind)
      ∧ (∀ u, 1 ≤ n → n ≤ 4096 → wid ≤ 15 → Delayed (at' 3 wid target) u →
          let b := SMap.get {} (u.bindAt (u.contAt k).bind).bars wid
          (b.count = 0 ∨ b.target = n) →
          ∃ v, exec (.suspFrameWrite c) u = .next v ∧ (v.coreAt c).running = false
            ∧ (v.contAt k).state = (if n ≤ b.count + 1 then .runnable else .waiting)))
    ∧ Issues (.yield g) s (s.transfer .yield)
    ∧ (∀ u : State, let z := u.coreAt c
        z.now.xfer = some ⟨.yield, s.arch.pc, true, false⟩ → z.running = true → z.mc = s.core.mc → z.fslot = s.core.fslot → z.fslot < 4096 →
        z.late = [] → z.stop = none → u.frameAsleep z.mc z.fslot = false → u.opsOf z.mc z.fslot = [] →
        (u.otherRunnable c = true → let v := u.yieldEnd c
          (v.coreAt c).running = false ∧ (v.contAt k).state = .runnable ∧ (v.contAt k).frozen = true)
        ∧ (u.otherRunnable c = false → u.yieldEnd c = u.onArchAt c (fun a => { a with xfer := none, noStep := decide (0 < a.sk) })))
    ∧ (s.arch.countersZero = true → Issues (.retire g) s (s.transfer .retire).commitPoint
        ∧ ∀ u, Delayed (s.transfer .retire) u → u.opsOf s.core.mc s.core.fslot = [] →
            ∃ v, exec (.retireComplete c) u = .next v ∧ (v.coreAt c).running = false ∧ v.contAt k = {})
    ∧ (s.checked = false → s.arch.countersZero = false →
        Traps (.retire g) s 0 97 1
        ∧ ((∀ f, (s.suspRead c va).1 ≠ .fault f) →
            Traps (.susp g desc) s 0 97 1 ∧ Traps (.suspFence g x y desc) s 0 97 1 ∧ Traps (.suspLend g x y desc) s 0 97 1
            ∧ Traps (.suspBar g x y desc) s 0 97 1))
    ∧ (s.checked = false → s.arch.countersZero = true → s.arch.descAsleep = false →
        ((s.suspRead c va).1 = .bad → Traps (.susp g desc) s 0 97 2)
        ∧ (∀ d, (s.suspRead c va).1 = .ok d → (s.arch.rdS x).toNat > 65535 → Traps (.suspFence g x y desc) s 0 101 1)
        ∧ (∀ d, (s.suspRead c va).1 = .ok d → n = 0 ∨ 4096 < n → Traps (.suspBar g x y desc) s 0 102 1))
    ∧ ((s.transfer .retire).commitPoint.core.commit = true)

/-- SPAWN, REQDONE, FINC and EVPOST issue as releases: the effect waits for every access of the continuation that is outstanding, the
core takes a checkpoint, and no register or byte of memory changes (SPAWN writes the frame of its new continuation). A REQDONE of a
binding without a request, or a second one, and a SPAWN of a bad resume offset, a bad stage or without a free slot raise their traps. -/
def Obligations.ReleasesIssue : Prop :=
  (∀ (s : State) (g : Guard) (x y : SReg) (n : Option Word32) (code : Option Byte), s.arch.guardOn 0 g = true →
    let v := (s.arch.rdS x).toNat
    let amount := match n with | some k => k.toNat | none => if y = 0 then 1 else (s.arch.rdS y).toNat % 2 ^ 32
    (FenceOk s (s.arch.rdS x) →
      Issues (.finc g x y n) s (s.release .finc (.finc g x y n) [v, amount, 0])
      ∧ Issues (.fincSet g x y n) s (s.release .finc (.fincSet g x y n) [v, amount, 1]))
    ∧ ((s.arch.rdS x).toNat > 65535 → s.checked = false → Traps (.finc g x y n) s 0 101 1 ∧ Traps (.fincSet g x y n) s 0 101 1)
    ∧ Issues (.evpost g x y code) s (s.release .evpost (.evpost g x y code) [v, (s.arch.rdS y).toNat, (code.getD 0).toNat])
    ∧ ((s.bindAt s.core.bind).req.isSome = true → (s.bindAt s.core.bind).reqdone = false →
        Issues (.reqdone g x) s ((s.onBind s.core.bind (fun b => { b with reqdone := true })).release .reqdone (.reqdone g x)
          [v % 65536]))
    ∧ ((s.bindAt s.core.bind).req = none → s.checked = false → Traps (.reqdone g x) s 0 99 1)
    ∧ ((s.bindAt s.core.bind).req.isSome = true → (s.bindAt s.core.bind).reqdone = true → s.checked = false →
        Traps (.reqdone g x) s 0 99 2)
    ∧ (∀ k : BitVec 4, s.checked = false →
        (2 ^ 32 ≤ v ∨ v % 4 ≠ 0 → Traps (.spawn g x y k) s 0 98 1)
        ∧ (v < 2 ^ 32 → v % 4 = 0 → s.curMc.stages.toNat ≤ k.toNat → Traps (.spawn g x y k) s 0 98 2)
        ∧ (v < 2 ^ 32 → v % 4 = 0 → k.toNat < s.curMc.stages.toNat → s.freeSlot s.core.mc = none → Traps (.spawn g x y k) s 0 98 3))
    ∧ (∀ (k : BitVec 4) (fs : Nat), v < 2 ^ 32 → v % 4 = 0 → k.toNat < s.curMc.stages.toNat →
        s.freeSlot s.core.mc = some fs → s.spawnWaits = none →
        ∃ t, Issues (.spawn g x y k) s t ∧ (t.contAt (contKey s.core.mc fs)).spawning = true
          ∧ (t.contAt (contKey s.core.mc fs)).stage = k.toNat ∧ (t.contAt (contKey s.core.mc fs)).bind = s.core.bind
          ∧ t.core.commit = true ∧ SameRegs t.arch s.arch
          ∧ (∃ o, t.ops = s.ops ++ [o] ∧ o.kind = .spawn ∧ o.x = [fs] ∧ o.after = s.liveOps)))
  ∧ (∀ (s : State) (k : OpKind) (i : Instr) (x : List Nat), let t := s.release k i x
      t.core.commit = true ∧ SameRegs t.arch s.arch ∧ SameMem s t ∧ t.conts = s.conts ∧ t.fences = s.fences
      ∧ ∃ o, t.ops = s.ops ++ [o] ∧ o.kind = k ∧ o.x = x ∧ o.rel = true ∧ o.after = s.liveOps)

/-- A release is applied once nothing that it waits for is left and the checkpoint after it has been taken: FINC adds its amount to the
counter, `finc.set` sets it and clears ERR; until then it changes nothing. -/
def Obligations.ReleaseApplies : Prop :=
  ∀ (s : State) (id : Nat) (o : Op), s.opAt id = some o →
    (o.isRelease = true → s.stillLive o o.after = true ∨ s.committed o = false → exec (.releaseApply id) s = .next s)
    ∧ (∀ n a set, o.kind = .finc → o.x = [n, a, set] → s.stillLive o o.after = false → s.committed o = true →
        (s.fenceAt n).alloc = true → (s.fenceAt n).owner.toNat = (s.mcAt o.mc).part.toNat →
        ∃ t, exec (.releaseApply id) s = .next t ∧ t.opAt id = none
          ∧ (t.fenceAt n).value = (if set = 1 then BitVec.ofNat 32 a else (s.fenceAt n).value + BitVec.ofNat 32 a)
          ∧ (t.fenceAt n).err = (if set = 1 then false else (s.fenceAt n).err)
          ∧ (∀ m, m ≠ n → t.fenceAt m = s.fenceAt m))

/-- WAITC issues when every class counter is at most its field, 15 placing no condition, and stalls otherwise. WAITF issues when its
condition holds and writes `not ERR` to its predicate; otherwise it stalls, the lending form with its loan, and the store ends it; each
cycle looks at the registers as they are. FENCE arms a pending fence over the accesses outstanding on its before paths. GBAR arrives, stalls
until its barrier has released it, and then issues; a target out of range or one that differs raises BAD_BARRIER. -/
def Obligations.WaitsAndFences : Prop :=
  ∀ (s : State) (g : Guard) (x y : SReg) (p : PReg) (e : Bool) (nl ns nc nt nq bar : BitVec 4) (before after : BitVec 6),
    s.arch.guardOn 0 g = true →
    let n := (s.arch.rdS x).toNat
    let f := s.fenceAt n
    let t : Word32 := (s.arch.rdS y).truncate 32
    let low (k : BitVec 4) (c : BitVec 8) : Prop := k = 15 ∨ c.toNat ≤ k.toNat
    let allLow := low nl s.arch.ldo ∧ low ns s.arch.sto ∧ low nc s.arch.cpo ∧ low nt s.arch.tlo ∧ low nq s.arch.sqo
    let holds : Prop := f.err = true ∨ (f.value.toNat + 2 ^ 32 - t.toNat) % 2 ^ 32 < 2 ^ 31
    (allLow → Issues (.waitc g nl ns nc nt nq) s s.unstall)
    ∧ (¬ allLow → s.checked = false → Stalls (.waitc g nl ns nc nt nq) s (s.stallAs (.waitc nl ns nc nt nq)))
    ∧ (s.arch.waitfDone n t = none → FenceOk s (s.arch.rdS x) → holds →
        Issues (.waitf g x y p e) s ((s.waitfEnd s.cur n t f.err).unstall.result 1 0 0 (.p p (!f.err)))
        ∧ Issues (.waitfLend g x y p) s ((s.waitfEnd s.cur n t f.err).unstall.result 1 0 0 (.p p (!f.err))))
    ∧ (s.arch.stall = .none → s.waitfEnd s.cur n t f.err = s.raisePts s.curKey f.fts)
    ∧ (∀ b, s.arch.waitfDone n t = some b →
        Issues (.waitf g x y p e) s (s.unstall.result 1 0 0 (.p p (!b)))
        ∧ Issues (.waitfLend g x y p) s (s.unstall.result 1 0 0 (.p p (!b))))
    ∧ (s.arch.waitfDone n t = none → FenceOk s (s.arch.rdS x) → ¬ holds → s.checked = false →
        Stalls (.waitf g x y p e) s (s.waitfStall x y none)
        ∧ Stalls (.waitfLend g x y p) s (s.waitfStall x y (s.lendTo s.core.mc n)))
    ∧ (s.arch.stall = .none → s.waitfStall x y none = s.stallAs (.waitf x y none none)
        ∧ ∀ k, s.waitfStall x y (some k) = (s.stallAs (.waitf x y (some k) none)).beginLoan s.core.mc k)
    ∧ (n > 65535 → s.arch.waitfDone n t = none → s.checked = false →
        Traps (.waitf g x y p e) s 0 101 1 ∧ Traps (.waitfLend g x y p) s 0 101 1)
    ∧ (before ≠ 0 → after ≠ 0 → Issues (.fence g before after) s
        (s.onArch (fun a => { a with fences := a.fences ++ [⟨before, after, s.opsOnPaths before, some (.fence g before after)⟩] })))
    ∧ (before = 0 ∨ after = 0 → Issues (.fence g before after) s s)
    ∧ (s.checked = false → s.arch.stall = .none → 1 ≤ n → n ≤ 4096 →
        ((SMap.get {} (s.bindAt s.core.bind).bars bar.toNat).count = 0
          ∨ (SMap.get {} (s.bindAt s.core.bind).bars bar.toNat).target = n) →
        Stalls (.gbar g x bar) s ((s.release .arrive (.gbar g x bar) [bar.toNat, n]).stallAs (.gbar bar.toNat s.nextOp false false)))
    ∧ (s.checked = false → s.arch.stall = .none →
        (n < 1 ∨ 4096 < n → Traps (.gbar g x bar) s 0 102 1)
        ∧ (1 ≤ n → n ≤ 4096 → 0 < (SMap.get {} (s.bindAt s.core.bind).bars bar.toNat).count →
            (SMap.get {} (s.bindAt s.core.bind).bars bar.toNat).target ≠ n → Traps (.gbar g x bar) s 0 102 2))
    ∧ (∀ k op, 1 ≤ n → n ≤ 4096 → s.arch.stall = .gbar k op true false → Issues (.gbar g x bar) s s.unstall)
    ∧ (∀ c,
        (∀ k l u v w, (s.coreAt c).now.stall = .waitc k l u v w → waitcOk (s.coreAt c).now k l u v w = true →
          exec (.waitcRelease c) s = .next (s.onArchAt c (fun a => { a with stall := .none })))
        ∧ (∀ u v l, (s.coreAt c).now.stall = .waitf u v l none →
            let m := ((s.coreAt c).now.rdS u).toNat
            let tt : Word32 := ((s.coreAt c).now.rdS v).truncate 32
            (s.fenceAt m).holds tt = true → exec (.waitfRelease c) s = .next (s.waitfEnd c m tt (s.fenceAt m).err))
        ∧ (∃ t, exec (.fenceSatisfied c) s = .next t ∧ (∀ d, d ≠ c → t.coreAt d = s.coreAt d)
            ∧ SameRegs (t.coreAt c).now (s.coreAt c).now
            ∧ ∀ q, q ∈ (t.coreAt c).now.fences ↔ q ∈ (s.coreAt c).now.fences ∧ ∃ i ∈ q.ops,
                (s.opAt i).isSome = true ∨ (∃ z ∈ (s.coreAt c).now.passes, z.id = i) ∨ (∃ z ∈ (s.coreAt c).now.reads, z.id = i)
                ∨ (∃ z ∈ (s.coreAt c).now.xs, z.id = i)))

/-- TRAP and `trap.sys` take their traps with s[x][31:0] as data; CRES and `cres.skip` resume a TRAPPED continuation of the
micro-context, and raise BAD_CRES for an index out of range or a continuation that is not TRAPPED; CKPT is a commit point. A resumed
continuation is frozen and RUNNABLE, at once or, while accesses that it has carried are outstanding, when they are done; `cres.skip` marks
it to pass over its trapped syllable. -/
def Obligations.TrapsAndResumes : Prop :=
  ∀ (s : State) (g : Guard) (x : SReg), s.arch.guardOn 0 g = true →
    let n := (s.arch.rdS x).toNat
    let k := contKey s.core.mc n
    let data : Word32 := (s.arch.rdS x).truncate 32
    exec (.trap g x) s = .next (s.takeTrap s.cur 0 { cause := 103, reason := 0, data := data })
    ∧ exec (.trapSys g x) s = .next (s.takeTrap s.cur 0 { cause := 104, reason := 0, data := data })
    ∧ Issues (.ckpt g) s (s.setCore { s.core with commit := true })
    ∧ (n < s.curMc.frames.toNat → (s.contAt k).state = .trapped →
        Issues (.cres g x) s (s.resumeTrapped k false).commitPoint
        ∧ Issues (.cresSkip g x) s (s.resumeTrapped k true).commitPoint)
    ∧ (n ≥ s.curMc.frames.toNat → s.checked = false → Traps (.cres g x) s 0 100 1 ∧ Traps (.cresSkip g x) s 0 100 1)
    ∧ (n < s.curMc.frames.toNat → (s.contAt k).state ≠ .trapped → s.checked = false →
        Traps (.cres g x) s 0 100 2 ∧ Traps (.cresSkip g x) s 0 100 2)
    ∧ (∀ (j : Nat) (skip : Bool), (s.contAt j).refused = false →
        let t := s.resumeTrapped j skip
        (t.contAt j).frozen = true ∧ (t.contAt j).skip = skip
        ∧ (s.carriedLive (j / 4096) (j % 4096) = false → (t.contAt j).state = .runnable ∧ (t.contAt j).settling = false)
        ∧ (s.carriedLive (j / 4096) (j % 4096) = true → (t.contAt j).state = (s.contAt j).state ∧ (t.contAt j).settling = true)
        ∧ (∀ i, i ≠ j → t.contAt i = s.contAt i))

/-- Taking a trap: TRAPINFO holds the data, the frame slot, the reason, the slot of the syllable and the cause; the continuation is
TRAPPED and frozen, and its core holds no continuation. While a page of its frame migrates the Shepherd sleeps on the page and nothing else
happens (R205; that the core lets its cycle pass and traps in a later one is log 137). With members in the Fold whose group has not started
the trap is taken when the cycle ends (R291). -/
def Obligations.TrapTaken : Prop :=
  ∀ (s : State) (c slot : Nat) (t : Trap), slot < 8 → t.cause < 128 → t.reason < 16 →
    let x := s.coreAt c
    let k := contKey x.mc x.fslot
    let u := s.takeTrap c slot t
    (s.frameAsleep x.mc x.fslot = true → u = { s.frameNap x.mc x.fslot with verdict := .trapped })
    ∧ (s.frameAsleep x.mc x.fslot = false → s.foldPending c = true → u = { s.stopAt c (.trap slot t none) with verdict := .trapped })
    ∧ (∀ n m, s.frameAsleep x.mc x.fslot = false → x.stop = some (n, .trap slot t none) → n ≤ m →
        s.stopNow c m = (s.onCoreAt c (fun y => { y with stop := none })).trapNow c slot t none)
    ∧ (s.frameAsleep x.mc x.fslot = false → s.foldPending c = false →
    u.verdict = .trapped ∧ (u.coreAt c).running = false ∧ (u.contAt k).state = .trapped ∧ (u.contAt k).frozen = true
    ∧ (let i := (u.contAt k).trapinfo
       i.extractLsb' 0 7 = BitVec.ofNat 7 t.cause ∧ i.extractLsb' 7 1 = 0 ∧ i.extractLsb' 8 3 = BitVec.ofNat 3 slot
       ∧ i.extractLsb' 11 5 = 0 ∧ i.extractLsb' 16 4 = BitVec.ofNat 4 t.reason
       ∧ i.extractLsb' 20 12 = BitVec.ofNat 12 x.fslot ∧ i.extractLsb' 32 32 = t.data))

/-- SRD puts the value of every listed system register in flight, SWR the write of the register, held to its range; a number that is not
listed raises SYSREG_ACCESS. That a value for HOLD is cut to the register's bits before it is held to the range is log 8. -/
def Obligations.SystemRegisters : Prop :=
  (∀ (s : State) (g : Guard) (x : SReg) (n : BitVec 12), s.arch.guardOn 0 g = true →
    let listed : Prop := n.toNat ≤ 14 ∨ (16 ≤ n.toNat ∧ n.toNat ≤ 19)
    (listed → (∃ v, s.rdSys n = some v ∧ Lands (.srd g x n) s 1 0 0 (.s x v))
      ∧ Lands (.swr g x n) s 1 0 0 (s.swrWrite n (s.arch.rdS x)))
    ∧ (¬ listed → s.checked = false → Traps (.srd g x n) s 0 105 1 ∧ Traps (.swr g x n) s 0 105 1))
  ∧ (∀ (s : State) (v : Word), let a := s.arch
      s.rdSys 5 = some (a.hold.zeroExtend 64) ∧ s.rdSys 8 = some (a.ckpti.zeroExtend 64) ∧ s.rdSys 9 = some (a.rmode.zeroExtend 64)
      ∧ s.rdSys 10 = some (a.fflags.zeroExtend 64) ∧ s.rdSys 11 = some (BitVec.ofNat 64 s.core.cyc) ∧ s.rdSys 12 = some s.rtc
      ∧ s.rdSys 13 = some a.trapinfo
      ∧ s.rdSys 14 = some ((a.sqo.zeroExtend 24 ++ a.tlo ++ a.cpo ++ a.sto ++ a.ldo).zeroExtend 64)
      ∧ (∀ i : BitVec 2, s.rdSys (i.zeroExtend 12 + 16) = some ((a.rdLc i).zeroExtend 64))
      ∧ (∀ i : BitVec 2, s.swrWrite (i.zeroExtend 12 + 16) v = .lc i (v.truncate 32))
      ∧ (∀ n ∈ [0, 1, 2, 3, 4, 11, 12, 13, 14], s.swrWrite n v = .none)
      ∧ (a.wr (s.swrWrite 9 v)).rmode = v.truncate 2 ∧ (a.wr (s.swrWrite 10 v)).fflags = v.truncate 6
      ∧ (let n := (v.truncate 32 : Word32).toNat
         (a.wr (s.swrWrite 8 v)).ckpti.toNat = if n < 1024 then 1024 else if n > 1048576 then 1048576 else n)
      ∧ (let n := (v.truncate 16 : BitVec 16).toNat
         (a.wr (s.swrWrite 7 v)).leaseLen.toNat = if n < 16 then 16 else if n > 4096 then 4096 else n)
      ∧ (a.wr (s.swrWrite 5 v)).hold.toNat = min (v.truncate 12 : BitVec 12).toNat (s.effHold s.core.mc).toNat
      ∧ (a.wr (s.swrWrite 6 v)).scopeGlobal = (v.getLsbD 0 && ((s.mcAt s.core.mc).global || a.scopeGlobal)))

/-! ## Slot A -/

namespace Sys2Proof.Claim

/-- A scalar access issues: its counter rises by one, and it is outstanding with its operand values, its order and what it waits for;
`commit` says that it is a commit point. No register and no byte of memory changes. -/
def Access (i : Instr) (s : State) (c : Ctr) (ord : BitVec 2) (commit : Bool) (x : List Nat) : Prop :=
  s.arch.ctr c ≠ 255 →
  ∃ t o, Issues i s t ∧ t.ops = s.ops ++ [o] ∧ o.id = s.nextOp ∧ o.kind = .scalar ∧ o.instr = i ∧ o.x = x
    ∧ o.acq = ord.getLsbD 0 ∧ o.rel = ord.getLsbD 1 ∧ o.after = (if ord.getLsbD 1 then s.liveOps else [])
    ∧ o.core = s.cur ∧ o.mc = s.core.mc ∧ o.fslot = s.core.fslot
    ∧ t.arch = s.arch.setCtr c (s.arch.ctr c + 1) ∧ t.core.commit = (s.core.commit || commit) ∧ SameMem s t
    ∧ (∀ d, d ≠ s.cur → t.coreAt d = s.coreAt d)

/-- The byte offset of a scalar access: the short field scaled by the size, or the extension word (R209). -/
def offset (off : BitVec 5) (sz : BitVec 2) (e : Option Word32) : VAddr :=
  match e with
  | some w => w.signExtend 72
  | none => off.signExtend 72 * (BitVec.ofNat 72 (2 ^ sz.toNat))

end Sys2Proof.Claim

/-- Address arithmetic and TQRY issue with latency 1, modulo 2^72. -/
def Obligations.AddressArithmetic : Prop :=
  ∀ (s : State) (g : Guard) (d a : AReg) (b : SReg) (i : BitVec 11) (e : Option Word32) (t : TReg),
    s.arch.guardOn 2 g = true →
    let x := s.arch.rdA a
    let y := s.arch.rdS b
    let td := s.arch.rdT t
    Lands (.aadd g d a b) s 1 2 0 (.a d (x + y.signExtend 72))
    ∧ Lands (.aaddi g d a i e) s 1 2 0 (.a d (x + imm 72 i e))
    ∧ Lands (.asub g d a b) s 1 2 0 (.a d (x - y.signExtend 72))
    ∧ Lands (.amov g d a b) s 1 2 0 (.a d ((x >>> 64 <<< 64) ||| y.zeroExtend 72))
    ∧ Lands (.asplitLo g a b) s 1 2 0 (.s b (x.truncate 64))
    ∧ Lands (.asplitHi g a b) s 1 2 0 (.s b ((x >>> 64).truncate 64))
    ∧ (td.valid = false → Lands (.tqry g t b) s 1 2 0 (.s b 0))
    ∧ (td.valid = true → ∃ v, Lands (.tqry g t b) s 1 2 0 (.s b v) ∧ v.getLsbD 0 = true ∧ v.getLsbD 1 = td.clus
        ∧ v.getLsbD 2 = td.spectral ∧ v.extractLsb' 4 4 = td.fmt ∧ v.extractLsb' 8 8 = td.rowsm1
        ∧ v.extractLsb' 16 12 = td.rbm1 ∧ v.extractLsb' 32 11 = td.base ∧ v.extractLsb' 48 12 = td.tti)

/-- Every scalar access issues when its counter has room: loads, prefetches, atomics and CAS on LDO, stores and reductions on STO; the
atomics, CAS and RED are commit points. A full counter raises COUNTER_FULL. -/
def Obligations.ScalarAccessIssue : Prop :=
  ∀ (s : State) (g : Guard) (x b : SReg) (d a : AReg) (sz ord : BitVec 2) (w sx : BitVec 1) (off : BitVec 5) (o9 : BitVec 9)
    (op : BitVec 4) (e : Option Word32), s.arch.guardOn 2 g = true →
    let ea := (s.arch.rdA a + offset off sz e).toNat
    let slot := (s.arch.rdA a + o9.signExtend 72 * 16).toNat
    let at' := (s.arch.rdA a).toNat
    let v := (s.arch.rdS b).toNat
    Access (.ld g x a sz sx ord off e) s .ldo ord false [ea]
    ∧ Access (.st g x a sz ord off e) s .sto ord false [ea, (s.arch.rdS x).toNat]
    ∧ Access (.lda g d a ord o9) s .ldo ord false [slot]
    ∧ Access (.sta g d a ord o9) s .sto ord false [slot, (s.arch.rdA d).toNat]
    ∧ Access (.pref g a sz off e) s .ldo 0 false [ea]
    ∧ Access (.amoAdd g x a b w ord) s .ldo ord true [at', v] ∧ Access (.amoAnd g x a b w ord) s .ldo ord true [at', v]
    ∧ Access (.amoOr g x a b w ord) s .ldo ord true [at', v] ∧ Access (.amoXor g x a b w ord) s .ldo ord true [at', v]
    ∧ Access (.amoMin g x a b w ord) s .ldo ord true [at', v] ∧ Access (.amoMax g x a b w ord) s .ldo ord true [at', v]
    ∧ Access (.amoMinu g x a b w ord) s .ldo ord true [at', v] ∧ Access (.amoMaxu g x a b w ord) s .ldo ord true [at', v]
    ∧ Access (.amoSwap g x a b w ord) s .ldo ord true [at', v]
    ∧ Access (.cas g x a b w ord) s .ldo ord true [at', v, (s.arch.rdS x).toNat]
    ∧ Access (.red g op a b w ord) s .sto ord true [at', v]
    ∧ (s.checked = false → s.arch.ldo = 255 →
        Traps (.ld g x a sz sx ord off e) s 2 96 0 ∧ Traps (.lda g d a ord o9) s 2 96 0 ∧ Traps (.pref g a sz off e) s 2 96 0
        ∧ Traps (.amoAdd g x a b w ord) s 2 96 0 ∧ Traps (.amoAnd g x a b w ord) s 2 96 0 ∧ Traps (.amoOr g x a b w ord) s 2 96 0
        ∧ Traps (.amoXor g x a b w ord) s 2 96 0 ∧ Traps (.amoMin g x a b w ord) s 2 96 0 ∧ Traps (.amoMax g x a b w ord) s 2 96 0
        ∧ Traps (.amoMinu g x a b w ord) s 2 96 0 ∧ Traps (.amoMaxu g x a b w ord) s 2 96 0
        ∧ Traps (.amoSwap g x a b w ord) s 2 96 0 ∧ Traps (.cas g x a b w ord) s 2 96 0)
    ∧ (s.checked = false → s.arch.sto = 255 →
        Traps (.st g x a sz ord off e) s 2 96 0 ∧ Traps (.sta g d a ord o9) s 2 96 0 ∧ Traps (.red g op a b w ord) s 2 96 0)

namespace Sys2Proof.Claim

/-- Operation `o` is a scalar access that may complete now: nothing earlier of its continuation is outstanding, its release has
nothing to wait for, an atomic's checkpoint has been taken. -/
def Due (s : State) (o : Op) (act : ScAct) : Prop :=
  s.opAt o.id = some o ∧ o.kind = .scalar ∧ scAct o.instr = some act ∧ o.faulted = false ∧ o.wait = none
  ∧ s.scalarEarlier o = false ∧ (o.rel = true → s.stillLive o o.after = false) ∧ (act.acc = .atomic → s.committed o = true)
  ∧ s.onItsCore o = true

/-- Its address is aligned and translates to device address `pa`, with state `s'` after the walk. -/
def Reaches (s s' : State) (o : Op) (act : ScAct) (pa : Nat) : Prop :=
  Due s o act ∧ o.x.getD 0 0 % act.size = 0 ∧ act.size ≠ 0
  ∧ s.xlateDo (s.agent o) o.mc o.id (o.x.getD 0 0) act.acc = (.ok false pa, s') ∧ s'.onItsCore o = true

/-- No other core's tentative byte and no poison lies there, and the L1 does not hold the line. -/
def CanPerform (s s' : State) (o : Op) (act : ScAct) (pa : Nat) : Prop :=
  Reaches s s' o act pa ∧ s.tentative o.core none pa act.size = none ∧ s.poisoned pa act.size = false
  ∧ (s'.coreAt o.core).l1Find (pa / 64) = none

/-- The counter of an access falls, and the access is gone. -/
def Completed (s' t : State) (o : Op) : Prop :=
  t.opAt o.id = none
  ∧ ∀ k, o.ctr = some k → (t.coreAt o.core).now.ctr k
      = if (s'.coreAt o.core).now.ctr k = 0 then 0 else (s'.coreAt o.core).now.ctr k - 1

/-- The bytes from `pa` on read as the number `v` of `n` bytes, and every other byte of device memory as in `s`. -/
def Stored (s t : State) (pa n v : Nat) : Prop :=
  ∀ a, rdByte t.mem a = if pa ≤ a ∧ a < pa + n then BitVec.ofNat 8 (v / 256 ^ (a - pa)) else rdByte s.mem a

end Sys2Proof.Claim

/-- The completion of a scalar access. A load writes the bytes of memory, or of the L1 line that it hits, zero- or sign-extended, to its
register and changes no byte; a PREF changes no register and no byte (R210; log 15), whatever its translation comes to; a
store writes the low bytes of its value and nothing else; an atomic writes the new value and gives the old one, sign-extended; CAS writes
when the old value is the one it compares with. A result gives way to one of a higher slot that has landed in its register in the same
cycle. The counter falls and the operation is gone. At an address that is no multiple of its size, it raises MISALIGNED as a late fault
before translation: memory and registers stay as they are. -/
def Obligations.ScalarAccessCompletes : Prop :=
  (∀ (s s' : State) (o : Op) (act : ScAct) (pa : Nat), CanPerform s s' o act pa → pa % 64 + act.size ≤ 64 →
    let m := rdNum s'.mem pa act.size
    let v := o.x.getD 1 0
    let arch (t : State) := (t.coreAt o.core).now
    let lands (w : RegWrite) : Bool := !(arch s').loses o.slot o.seq w
    ∃ t, exec (.scalarAccessComplete o.id) s = .next t ∧ Completed s' t o
    ∧ (∀ n sx d, act = .load n sx d → Stored s' t pa 0 0 ∧ ∀ r, (arch t).rdS r = if r = d ∧ d ≠ 0 ∧ lands (.s d 0) = true then
          (if sx then BitVec.ofInt 64 (toSigned (8 * n) m) else BitVec.ofNat 64 m) else (arch s').rdS r)
    ∧ (∀ d, act = .loadA d → Stored s' t pa 0 0
        ∧ ∀ r, (arch t).rdA r = if r = d ∧ d ≠ 0 ∧ lands (.a d 0) = true then BitVec.ofNat 72 m else (arch s').rdA r)
    ∧ (∀ n, act = .store n → Stored s' t pa n v ∧ (∀ r, (arch t).rdS r = (arch s').rdS r))
    ∧ (∀ n op d, act = .amo n op (some d) → Stored s' t pa n (atomicVal op (8 * n) m (v % 2 ^ (8 * n)))
        ∧ ∀ r, (arch t).rdS r = if r = d ∧ d ≠ 0 ∧ lands (.s d 0) = true then BitVec.ofInt 64 (toSigned (8 * n) m) else (arch s').rdS r)
    ∧ (∀ n op, act = .amo n op none → Stored s' t pa n (atomicVal op (8 * n) m (v % 2 ^ (8 * n)))
        ∧ ∀ r, (arch t).rdS r = (arch s').rdS r)
    ∧ (∀ n d, act = .cas n d →
        Stored s' t pa (if m = o.x.getD 2 0 % 2 ^ (8 * n) then n else 0) v
        ∧ ∀ r, (arch t).rdS r = if r = d ∧ d ≠ 0 ∧ lands (.s d 0) = true then BitVec.ofInt 64 (toSigned (8 * n) m) else (arch s').rdS r))
  ∧ (∀ (s s' : State) (o : Op) (act : ScAct) (pa : Nat) (l : L1Line), Reaches s s' o act pa →
    (s'.coreAt o.core).l1Find (pa / 64) = some l → (s'.contAt (contKey o.mc o.fslot)).pts ≤ l.lease → act.acc = .read →
    let m := ofBytes ((l.data.drop (pa % 64)).take act.size)
    let arch (t : State) := (t.coreAt o.core).now
    let lands (w : RegWrite) : Bool := !(arch s').loses o.slot o.seq w
    ∃ t, exec (.scalarAccessComplete o.id) s = .next t ∧ Completed s' t o ∧ Stored s' t pa 0 0
    ∧ (∀ n sx d, act = .load n sx d → ∀ r, (arch t).rdS r = if r = d ∧ d ≠ 0 ∧ lands (.s d 0) = true then
          (if sx then BitVec.ofInt 64 (toSigned (8 * n) m) else BitVec.ofNat 64 m) else (arch s').rdS r)
    ∧ (∀ d, act = .loadA d → ∀ r, (arch t).rdA r = if r = d ∧ d ≠ 0 ∧ lands (.a d 0) = true then BitVec.ofNat 72 m else (arch s').rdA r))
  ∧ (∀ (s s' : State) (o : Op) (x : Xl), Due s o .pref → s.xlatePref (s.agent o) o.mc o.id (o.x.getD 0 0) = (x, s') →
    s'.onItsCore o = true → (∀ pa, x = .ok false pa → s.tentative o.core none pa 1 = none) →
    ∃ t, exec (.scalarAccessComplete o.id) s = .next t ∧ Completed s' t o ∧ SameMem s t
      ∧ ∀ r, (t.coreAt o.core).now.rdS r = (s'.coreAt o.core).now.rdS r)
  ∧ (∀ (s : State) (o : Op) (act : ScAct), Due s o act → act.size ≠ 0 → o.x.getD 0 0 % act.size ≠ 0 →
    ∃ t l, exec (.scalarAccessComplete o.id) s = .next t ∧ SameMem s t ∧ (t.coreAt o.core).late = (s.coreAt o.core).late ++ [l]
      ∧ l.cause = 36 ∧ l.reason = (if act.size = 16 then 2 else 1) ∧ l.va = BitVec.ofNat 72 (o.x.getD 0 0)
      ∧ (t.coreAt o.core).now = (s.coreAt o.core).now)

/-- TALLOC and TFREE. TALLOC of a valid handle raises TILE_STATE. Otherwise its status lands after 6 cycles, or 24 for a CLUS tile: 3
when the continuation holds as many handles as TILEQ, 2 without a free tile-table entry, 1 without room, and 0 with the descriptor, whose
BASE is the lowest unit that starts a free run, whose entry is the lowest free one, and whose bytes read zero. That one which a rollback
executes again has the status that it had, and what an allocation finds taken meanwhile, is log 64. TFREE of a valid handle makes it invalid
after one cycle, and its units stay taken while work that names it is outstanding (log 111 for when they return); of an invalid handle it
does nothing. -/
def Obligations.TileHandles : Prop :=
  ∀ (s : State) (g : Guard) (t : TReg) (x : SReg) (tx : TallocX), s.arch.guardOn 2 g = true →
    let lat := if tx.level = 1 then 24 else 6
    let full : Prop := (s.mcAt s.core.mc).tileq.toNat ≤ (s.arch.t.filter (fun e => e.2.valid)).length
    let want : TDesc := { clus := tx.level == 1, fmt := tx.fmt, rowsm1 := tx.rowsm1, rbm1 := tx.rbm1 }
    let fails (st : Nat) (d : TDesc) (rest : List (TDesc × Nat × TDesc)) : Prop :=
      Issues (.talloc g t x tx) s ((s.onCoreAt s.cur (fun y => { y with made := (want, st, d) :: y.made, remake := rest })).result lat 2 0
        (.s x (BitVec.ofNat 64 st)))
    ((s.arch.rdT t).valid = true → s.checked = false →
      exec (.talloc g t x tx) s = .next (s.takeTrap s.cur 2 { cause := 41, reason := 1, data := t.zeroExtend 32 }))
    ∧ ((s.arch.rdT t).valid = false → ∀ st d rest, st ≠ 0 → s.core.remake = (want, st, d) :: rest → fails st d rest)
    ∧ ((s.arch.rdT t).valid = false → s.core.remake = [] →
      (full → fails 3 {} [])
      ∧ (¬ full → tx.level = 1 → (∀ i < 4096, (SMap.get {} (s.clusterAt (clusterOfCore s.cur)).tt i).live = true) → fails 2 {} [])
      ∧ (¬ full → tx.level = 0 → (∀ b, fits s.arch.privUsed 128 want.units b = false) → fails 1 {} [])
      ∧ (∀ b, ¬ full → tx.level = 0 → fits s.arch.privUsed 128 want.units b = true →
        (∀ b' < b, fits s.arch.privUsed 128 want.units b' = false) →
        ∃ u, Issues (.talloc g t x tx) s u
          ∧ u.arch.fly = s.arch.fly ++ [⟨6, 2, s.arch.seq, 0, .t t { want with valid := true, base := BitVec.ofNat 11 b }⟩,
                                        ⟨6, 2, s.arch.seq + 1, 0, .s x 0⟩]
          ∧ (∀ i, rdByte u.arch.priv i = if 4096 * b ≤ i ∧ i < 4096 * (b + want.units) then 0 else rdByte s.arch.priv i)
          ∧ SameMem s u)
      ∧ (∀ b i, ¬ full → tx.level = 1 → s.reserved s.cur = [] → i < 4096 →
        let q := s.clusterAt (clusterOfCore s.cur)
        let total := q.tways.toNat * 128
        (SMap.get {} q.tt i).live = false → (∀ j < i, (SMap.get {} q.tt j).live = true) →
        fits q.clusUsed total want.units b = true → (∀ b' < b, fits q.clusUsed total want.units b' = false) →
        ∃ u, Issues (.talloc g t x tx) s u
          ∧ u.arch.fly = s.arch.fly
              ++ [⟨24, 2, s.arch.seq, 0, .t t { want with valid := true, base := BitVec.ofNat 11 b, tti := BitVec.ofNat 12 i }⟩,
                  ⟨24, 2, s.arch.seq + 1, 0, .s x 0⟩]
          ∧ (SMap.get {} (u.clusterAt (clusterOfCore s.cur)).tt i).live = true ∧ SameMem s u))
    ∧ ((s.arch.rdT t).valid = true →
        ∃ u, Issues (.tfree g t) s u ∧ u.arch.fly = s.arch.fly ++ [⟨1, 2, s.arch.seq, 0, .t t {}⟩] ∧ SameMem s u
          ∧ ((s.arch.rdT t).clus = false → u.arch.zombies = s.freed s.cur t :: s.arch.zombies)
          ∧ ((s.arch.rdT t).clus = true → (u.clusterAt (clusterOfCore s.cur)).zombies
              = s.freed s.cur t :: (s.clusterAt (clusterOfCore s.cur)).zombies))
    ∧ ((s.arch.rdT t).valid = false → Issues (.tfree g t) s s)

/-! ## Slot V -/

namespace Sys2Proof.Claim

/-- Format code, rounding mode and saturation of a syllable (R40, R229): those of its VX extension, or the default code, RMODE and no
saturation. -/
def code (dflt : Nat) (vx : Option VX) : Nat := match vx with | some e => e.fmt.toNat | none => dflt
def mode (a : Arch) (vx : Option VX) : Rm :=
  match vx with
  | some e => if e.rm = 0 then Rm.ofMode a.rmode else if e.rm = 1 then .rne else if e.rm = 2 then .rz else if e.rm = 3 then .rdn else .rup
  | none => Rm.ofMode a.rmode
def sats (vx : Option VX) : Bool := match vx with | some e => e.sat == 1 | none => false

/-- Bits of an element, and elements of a register (R227). -/
def bits (c : Nat) : Nat := if c = 0 ∨ c = 8 ∨ c = 10 then 32 else if c = 11 then 64 else if c = 1 ∨ c = 2 ∨ c = 7 then 16 else 8
def count (c : Nat) : Nat := 2048 / bits c
/-- Element `e` of a register value. -/
def elem (c : Nat) (v : VWord) (e : Nat) : Nat := (v.extractLsb' (bits c * e) (bits c)).toNat
/-- Element `e` is active (R228): the bit of its lane. -/
def active (c : Nat) (k : Word) (e : Nat) : Bool := k.getLsbD (bits c * e / 32)

/-- The value that an integer element takes (R234): modulo `2 ^ w`, or held to the range of the format with SV. -/
def intResult (c : Nat) (sat : Bool) (v : Int) : Nat × Flags :=
  let lo : Int := if c = 6 then 0 else -(2 ^ (bits c - 1) : Nat)
  let hi : Int := if c = 6 then 255 else (2 ^ (bits c - 1) : Nat) - 1
  if sat = true ∧ v < lo then ((lo % (2 ^ bits c : Nat)).toNat, fSV)
  else if sat = true ∧ hi < v then ((hi % (2 ^ bits c : Nat)).toNat, fSV)
  else ((v % (2 ^ bits c : Nat)).toNat, 0)

/-- The floating-point or integer result of an element (R234). -/
def numResult (c : Nat) (m : Rm) (sat : Bool) (fp : FFmt → Ex) (int : Int) : Nat × Flags :=
  match ffmtOf c with
  | some F => F.round m sat (fp F)
  | none => intResult c sat int

/-- A value for element-wise work: `f e` gives the element and its flags where the mask has it active, elsewhere the old one stays; the flags
are those of the active elements. -/
def Elements (c : Nat) (k : Word) (old v : VWord) (fl : Flags) (f : Nat → Nat × Flags) : Prop :=
  (∀ e < count c, elem c v e = if active c k e then (f e).1 % 2 ^ bits c else elem c old e)
  ∧ (∀ j < 6, fl.getLsbD j = true ↔ ∃ e < count c, active c k e = true ∧ (f e).2.getLsbD j = true)

/-- An instruction of slot V issues and puts such a value in flight. -/
def Wise (i : Instr) (s : State) (lat c : Nat) (k : KReg) (d : VReg) (f : Nat → Nat × Flags) : Prop :=
  ∃ v fl, Lands i s lat 3 fl (.v d v) ∧ Elements c (s.arch.rdK k) (s.arch.rdV d) v fl f

/-- One bit for each lane of 32 bits of a comparison (R236). -/
def laneHolds (c cond : Nat) (any : Bool) (x y : VWord) (i : Nat) : Bool :=
  let m := 32 / bits c
  let holds (j : Nat) : Bool := (vCond c cond (elem c x (m * i + j)) (elem c y (m * i + j))).1
  if any then (List.range m).any holds else (List.range m).all holds

end Sys2Proof.Claim

/-- Element-wise arithmetic: every instruction issues with its latency and computes each active element from the elements of its sources
as the table "Element-wise instructions" says; the other elements keep their values and raise no flag. -/
def Obligations.VectorArithmetic : Prop :=
  ∀ (s : State) (g : Guard) (d a b : VReg) (k : KReg) (vx : Option VX), s.arch.guardOn 3 g = true →
    let c := code 0 vx
    let m := mode s.arch vx
    let t := sats vx
    c ≤ 2 ∨ (5 ≤ c ∧ c ≤ 8) →
    let fp : Bool := c ≤ 4
    let x (e : Nat) : Nat := elem c (s.arch.rdV a) e
    let y (e : Nat) : Nat := elem c (s.arch.rdV b) e
    let z (e : Nat) : Nat := elem c (s.arch.rdV d) e
    let num (F : FFmt → Nat → Ex) (I : Nat → Int) (e : Nat) : Nat × Flags := numResult c m t (fun f => F f e) (I e)
    let real (F : FFmt → Nat → Ex) (e : Nat) : Nat × Flags := match ffmtOf c with | some f => f.round m t (F f e) | none => (0, 0)
    let fn (h : FFmt → Rm → Bool → FVal → Nat × Flags) (e : Nat) : Nat × Flags :=
      match ffmtOf c with | some f => h f m t (f.decode (x e)) | none => (0, 0)
    let pick (mx : Bool) (e : Nat) : Nat × Flags :=
      match ffmtOf c with
      | some f => f.minMax mx (x e) (y e)
      | none => (if (if mx then intElem c (y e) < intElem c (x e) else intElem c (x e) ≤ intElem c (y e)) then x e else y e, 0)
    Wise (.vadd g d a b k vx) s (if fp then 4 else 2) c k d
      (num (fun f e => addV m (f.decode (x e)) (f.decode (y e))) (fun e => intElem c (x e) + intElem c (y e)))
    ∧ Wise (.vsub g d a b k vx) s (if fp then 4 else 2) c k d
      (num (fun f e => addV m (f.decode (x e)) (f.decode (y e)).negate) (fun e => intElem c (x e) - intElem c (y e)))
    ∧ Wise (.vmul g d a b k vx) s 4 c k d
      (num (fun f e => mulEx (f.decode (x e)) (f.decode (y e))) (fun e => intElem c (x e) * intElem c (y e)))
    ∧ Wise (.vfma g d a b k vx) s 5 c k d (real (fun f e => fmaEx m (f.decode (x e)) (f.decode (y e)) (f.decode (z e))))
    ∧ Wise (.vfms g d a b k vx) s 5 c k d (real (fun f e => fmaEx m (f.decode (x e)).negate (f.decode (y e)) (f.decode (z e))))
    ∧ Wise (.vabs g d a k vx) s 2 c k d (fun e =>
        match ffmtOf c with
        | some f => (x e % 2 ^ (f.eb + f.f), 0)
        | none => intResult c t (intElem c (x e)).natAbs)
    ∧ Wise (.vmin g d a b k vx) s 2 c k d (pick false)
    ∧ Wise (.vmax g d a b k vx) s 2 c k d (pick true)
    ∧ Wise (.vdiv g d a b k vx) s 16 c k d (real (fun f e => divEx (f.decode (x e)) (f.decode (y e))))
    ∧ Wise (.vrcp g d a k vx) s 16 c k d (real (fun f e => divEx (.fin false 1 0) (f.decode (x e))))
    ∧ Wise (.vrsq g d a k vx) s 16 c k d (real (fun f e => rsqrtEx (f.decode (x e))))
    ∧ Wise (.vsqrt g d a k vx) s 16 c k d (real (fun f e => sqrtEx (f.decode (x e))))
    ∧ Wise (.vexp g d a k vx) s 12 c k d (fn expRound)
    ∧ Wise (.vexp2 g d a k vx) s 12 c k d (fn exp2Round)
    ∧ Wise (.vlog2 g d a k vx) s 12 c k d (fn log2Round)
    ∧ Wise (.vtanh g d a k vx) s 24 c k d (fn tanhRound)
    ∧ Wise (.vsigm g d a k vx) s 24 c k d (fn sigmRound)

/-- Bits, moves, comparisons and conversions of vectors: every instruction issues with its latency and its value; none but VCMP, and
VCVT, raises a flag. The mask instructions issue with latency 1. The format that the moves take without a VX extension is the model's choice
(log 127). -/
def Obligations.VectorBits : Prop :=
  (∀ (s : State) (g : Guard) (d a b : VReg) (k kd : KReg) (p q : SReg) (cond : BitVec 5) (vx : Option VX), s.arch.guardOn 3 g = true →
    let A := s.arch.rdV a
    let B := s.arch.rdV b
    let D := s.arch.rdV d
    let c8 := code 8 vx
    let c := code 0 vx
    let op (h : Nat → Nat → Nat) (e : Nat) : Nat × Flags := (h (elem c8 A e) (elem c8 B e), 0)
    Wise (.vand g d a b k vx) s 2 c8 k d (op (· &&& ·))
    ∧ Wise (.vor g d a b k vx) s 2 c8 k d (op (· ||| ·))
    ∧ Wise (.vxor g d a b k vx) s 2 c8 k d (op (· ^^^ ·))
    ∧ Wise (.vshl g d a b k vx) s 2 c8 k d (op (fun x n => if n < bits c8 then x * 2 ^ n else 0))
    ∧ Wise (.vshr g d a b k vx) s 2 c8 k d (op (fun x n => if n < bits c8 then x / 2 ^ n else 0))
    ∧ Wise (.vsra g d a b k vx) s 2 c8 k d (op (fun x n => ((BitVec.ofNat (bits c8) x).sshiftRight (min n (bits c8))).toNat))
    ∧ Wise (.vmov g d a k vx) s 2 c k d (fun e => (elem c A e, 0))
    ∧ Wise (.vbcast g d p k vx) s 2 c k d (fun _ => ((s.arch.rdS p).toNat, 0))
    ∧ Wise (.viota g d p k vx) s 2 c8 k d (fun e => ((s.arch.rdS p).toNat + e, 0))
    ∧ Wise (.vperm g d a b k vx) s 3 c k d (fun e =>
        let j := if c = 11 then elem c B e % 2 ^ 32 else elem c B e
        (if j < count c then elem c A j else 0, 0))
    ∧ (∃ v, Lands (.vsel g d a b k vx) s 2 3 0 (.v d v)
        ∧ ∀ i < 64, elem 0 v i = if (s.arch.rdK k).getLsbD i then elem 0 A i else elem 0 B i)
    ∧ (∃ v, Lands (.vins g d p q vx) s 2 3 0 (.v d v)
        ∧ ∀ e < count c, elem c v e = if e = (s.arch.rdS p).toNat then (s.arch.rdS q).toNat % 2 ^ bits c else elem c D e)
    ∧ (let i := (s.arch.rdS q).toNat
       (count c ≤ i → Lands (.vext g p a q vx) s 2 3 0 (.s p 0))
       ∧ (i < count c → (c = 5 ∨ c = 7 ∨ c = 8) →
          Lands (.vext g p a q vx) s 2 3 0 (.s p ((A.extractLsb' (bits c * i) (bits c)).signExtend 64)))
       ∧ (i < count c → ¬ (c = 5 ∨ c = 7 ∨ c = 8) → Lands (.vext g p a q vx) s 2 3 0 (.s p (BitVec.ofNat 64 (elem c A i)))))
    ∧ (c ≤ 8 → ∃ v fl, Lands (.vcmp g kd a b cond vx) s 2 3 fl (.k kd v)
        ∧ (∀ i < 64, v.getLsbD i = laneHolds c cond.toNat (match vx with | some e => e.sub == 1 | none => false) A B i)
        ∧ (fl = fNV ∨ fl = 0) ∧ (fl = fNV ↔ ∃ e < count c, (vCond c cond.toNat (elem c A e) (elem c B e)).2 = true))
    ∧ (∀ (src part : Nat) (m : Rm) (t : Bool), src = (match vx with | some e => e.sub.toNat % 16 | none => 0) →
        part = (match vx with | some e => e.sub.toNat / 16 % 4 | none => 0) → m = mode s.arch vx → t = sats vx →
        Wise (.vcvt g d a k vx) s 3 c k d (fun e =>
          if count src < count c then
            (if part * count src ≤ e ∧ e < part * count src + count src then convAny src c m t (elem src A (e - part * count src))
             else (elem c D e, 0))
          else convAny src c m t (elem src A (part * count c + e)))))
  ∧ (∀ (s : State) (g : Guard) (kd ka kb : KReg) (x : SReg), s.arch.guardOn 3 g = true →
    let p := s.arch.rdK ka
    let q := s.arch.rdK kb
    Lands (.kand g kd ka kb) s 1 3 0 (.k kd (p &&& q))
    ∧ Lands (.kor g kd ka kb x) s 1 3 0 (.k kd (p ||| q ||| s.arch.rdS x))
    ∧ Lands (.kxor g kd ka kb x) s 1 3 0 (.k kd (p ^^^ q ^^^ s.arch.rdS x))
    ∧ Lands (.knot g kd ka) s 1 3 0 (.k kd (~~~ p))
    ∧ Lands (.kpop g ka kb x) s 1 3 0 (.s x (BitVec.ofNat 64 (ones 64 (p &&& q)))))

/-- Sums, scans, scale and offset, complex products: every instruction issues with its latency. VRED writes its root into element 0 and
zero bits into the others, and an integer sum without saturation is the sum of the active elements modulo the width. VDOT adds the
products of a lane to its 32-bit value; `vso.grad` writes its scale and offset registers and not its destination. The flags of a VSCAN are
log 28, and that infinities of both signs among the terms of a sum make it invalid is log 122. -/
def Obligations.VectorSums : Prop :=
  ∀ (s : State) (g : Guard) (d a b : VReg) (k : KReg) (vx : Option VX), s.arch.guardOn 3 g = true →
    let c := code 0 vx
    let m := mode s.arch vx
    let t := sats vx
    let K := s.arch.rdK k
    let A := s.arch.rdV a
    let B := s.arch.rdV b
    let B1 := s.arch.rdV (b + 1)
    let D := s.arch.rdV d
    let form := match vx with | some e => e.sub.toNat % 4 | none => 0
    let cc := if c = 10 then 10 else 11
    (∃ v fl, Lands (.vred g d a k vx) s 10 3 fl (.v d v) ∧ (∀ e, 0 < e → e < count c → elem c v e = 0)
      ∧ (5 ≤ c → c ≤ 8 → form = 0 → t = false → fl = 0
          ∧ elem c v 0 = (((List.range (count c)).map (fun e => if active c K e then elem c A e else 0)).sum) % 2 ^ bits c))
    ∧ Wise (.vscan g d a k vx) s 12 c k d (fun e =>
        let x := vCtx s.arch 0 vx
        let y := x.prefixAt form (x.levels form (vLog c) (vLeaves c K A)) e
        (y.1.getD 0, y.2))
    ∧ (1 ≤ c → c ≤ 7 → Wise (.vdot g d a b k vx) s 6 0 k d (fun i =>
        let n := 32 / bits c
        let es := (List.range n).map (fun j => (elem c A (n * i + j), elem c B (n * i + j)))
        match ffmtOf c with
        | some F => FFmt.fp32.round m false (sumEx m (es.any (fun e => (mulV (F.decode e.1) (F.decode e.2)).2)
              || infClash (es.map (fun e => (mulV (F.decode e.1) (F.decode e.2)).1)))
            (FFmt.fp32.decode (elem 0 D i) :: es.map (fun e => (mulV (F.decode e.1) (F.decode e.2)).1)))
        | none => intResult 8 t ((BitVec.ofNat 32 (elem 0 D i)).toInt + (es.map (fun e => intElem c e.1 * intElem c e.2)).sum)))
    ∧ (c ≤ 2 → ∃ F, ffmtOf c = some F ∧
        let el (v : VWord) (e : Nat) : FVal := F.decode (elem c v e)
        let y (e : Nat) := F.round m t (fmaEx m (el A e) (el B e) (el B1 e))
        (form = 0 → Wise (.vso g d a b k vx) s 5 c k d y)
        ∧ (form = 1 → Wise (.vso g d a b k vx) s 5 c k d (fun e =>
            (if (F.decode (y e).1).isNaN then F.nan else if (F.decode (y e).1).neg? then 0 else (y e).1, (y e).2)))
        ∧ (form = 2 → ∃ v w f h, Issues (.vso g d a b k vx) s ((s.result 5 3 f (.v b v)).result 5 3 h (.v (b + 1) w))
            ∧ Elements c K B v f (fun e => F.round m t (fmaEx m (el D e) (el A e) (el B e)))
            ∧ Elements c K B1 w h (fun e => F.round m t (addV m (el B1 e) (el D e)))))
    ∧ Wise (.vcmul g d a b k vx) s 5 cc k d (fun e => cpxMul ⟨cc, m, t⟩ false (elem cc A e) (elem cc B e) (elem cc D e))
    ∧ Wise (.vcmac g d a b k vx) s 6 cc k d (fun e => cpxMul ⟨cc, m, t⟩ true (elem cc A e) (elem cc B e) (elem cc D e))
    ∧ Wise (.vconj g d a k vx) s 2 cc k d (fun e => (elem cc A e ^^^ 2 ^ (bits cc - 1), 0))

namespace Sys2Proof.Claim

/-- A byte of the tile `t` of the core at work: 0 beyond its rows and its row bytes (R248). -/
def tileByte (s : State) (t : TDesc) (row i : Nat) : Byte :=
  if row < t.rows ∧ i < t.rb then rdByte s.arch.priv (4096 * t.base.toNat + row * ((t.rb + 63) / 64 * 64) + i) else 0

/-- Lane `i` of an index register: its row and the byte offset of its word (R249). -/
def laneRow (x : VWord) (i : Nat) : Nat := elem 0 x i / 2 ^ 10 % 2 ^ 8
def laneByte (x : VWord) (i : Nat) : Nat := 4 * (elem 0 x i % 2 ^ 10)

/-- A counted access to a tile of the cluster's region issues: its counter rises by one and it is outstanding. -/
def TileAccess (i : Instr) (s : State) (c : Ctr) (t : TReg) (x : List Nat) (dat : List Byte) : Prop :=
  s.arch.ctr c ≠ 255 → ∃ u o, Issues i s u ∧ u.ops = s.ops ++ [o] ∧ o.id = s.nextOp ∧ o.kind = .tile ∧ o.instr = i ∧ o.x = x
    ∧ o.dat = dat ∧ o.hs = [(t, s.arch.rdT t)] ∧ u.arch = s.arch.setCtr c (s.arch.ctr c + 1) ∧ SameMem s u

/-- The counted store `o` to a CLUS tile performs its next 64-byte unit, from `s` to `t`: the last write of the unit that covers a byte gives
it; with the last unit the operation is gone, and the registers become `fin` of what they were. -/
def StoresUnit (s t : State) (o : Op) (fin : Arch → Arch) : Prop :=
  let ws := o.unitWrites
  let clus (u : State) : SMap Byte := (u.clusterAt (clusterOfCore o.core)).clus
  (o.index < o.tileWrites.length → ws ≠ []) ∧ (∀ z ∈ ws, z ∈ o.tileWrites) ∧ SameMem s t
  ∧ (o.tileWrites.length ≤ o.index + ws.length → t.opAt o.id = none ∧ SameRegs (t.coreAt o.core).now (fin (s.coreAt o.core).now))
  ∧ (o.index + ws.length < o.tileWrites.length → t.opAt o.id = some { o with index := o.index + ws.length }
      ∧ SameRegs (t.coreAt o.core).now (s.coreAt o.core).now)
  ∧ ∀ r i, r < o.tile.rows → i < o.tile.rb → rdByte (clus t) (o.tile.clusAddr r i) =
      ((ws.reverse.find? (fun z => z.1 = r ∧ z.2.1 ≤ i ∧ i < z.2.1 + z.2.2.length)).map (fun z => z.2.2.getD (i - z.2.1) 0)).getD
        (rdByte (clus s) (o.tile.clusAddr r i))

/-- The syllable issues, no register changes, and the bytes that PRIV holds once the writes of the cycle have landed are `w a` where it
gives one, and the old ones elsewhere. -/
def PutsPriv (i : Instr) (s : State) (w : Nat → Option Byte) : Prop :=
  ∃ u, Issues i s u ∧ SameRegs u.arch s.arch ∧ SameMem s u ∧ u.arch.fly = s.arch.fly
    ∧ ∀ a, rdByte u.arch.landPriv.priv a = (w a).getD (rdByte s.arch.priv a)

/-- The syllable issues without a result, and its core has the late fault `f` beside those that it had (R428). -/
def Withholds (i : Instr) (s : State) (f : Trap) : Prop :=
  ∃ u l, Issues i s u ∧ u.arch = s.arch ∧ SameMem s u ∧ u.core.late = s.core.late ++ [l] ∧ l.cause = f.cause ∧ l.reason = f.reason
    ∧ l.data = f.data

/-- The byte that a masked window of a tile puts at PRIV address `a`: that of window byte `j`, if `a` is its place. -/
def windowPut (t : TDesc) (row off : Nat) (k : Word) (v : VWord) (a : Nat) : Option Byte :=
  let start := 4096 * t.base.toNat + row * ((t.rb + 63) / 64 * 64) + off
  let j := a - start
  if start ≤ a ∧ j < 256 ∧ row < t.rows ∧ off + j < t.rb ∧ k.getLsbD (j / 4) = true then some (v.extractLsb' (8 * j) 8) else none

end Sys2Proof.Claim

/-- Vector accesses to tiles. On a PRIV tile VLD and VLDX read their active lanes with latency 6, zeros outside the tile; VST and VSTX
write their active lanes at the end of the cycle, a higher lane after a lower one, nothing outside the tile; that of a word which straddles
RB the bytes inside the tile are read and written is log 131. A load that meets an uncorrectable word has no result and takes a late fault
(log 105). On a CLUS tile all four are counted. An invalid handle raises TILE_INVALID. -/
def Obligations.VectorTiles : Prop :=
  ∀ (s : State) (g : Guard) (v : VReg) (t : TReg) (x : SReg) (xv : VReg) (vx : Option VX), s.arch.guardOn 3 g = true →
    let d := s.arch.rdT t
    let row := (s.arch.rdS x).toNat % 256
    let off := 4 * ((s.arch.rdS x).toNat / 2 ^ 16 % 2 ^ 10)
    let K := s.arch.rdK (match vx with | some e => e.sub.truncate 3 | none => 0)
    let V := s.arch.rdV v
    let I := s.arch.rdV xv
    (d.valid = true → d.clus = false →
      (s.windowBad s.cur d row off K.toNat = none → ∃ w, Lands (.vld g v t x vx) s 6 3 0 (.v v w)
        ∧ ∀ j < 256, w.extractLsb' (8 * j) 8 = if K.getLsbD (j / 4) then tileByte s d row (off + j) else V.extractLsb' (8 * j) 8)
      ∧ (s.gatherBad s.cur d (vBytes I) K.toNat = none → ∃ w, Lands (.vldx g v t xv vx) s 6 3 0 (.v v w)
        ∧ ∀ j < 256, w.extractLsb' (8 * j) 8 =
            if K.getLsbD (j / 4) then tileByte s d (laneRow I (j / 4)) (laneByte I (j / 4) + j % 4) else V.extractLsb' (8 * j) 8)
      ∧ (s.arch.badPriv = [] → s.windowBad s.cur d row off K.toNat = none ∧ s.gatherBad s.cur d (vBytes I) K.toNat = none)
      ∧ (∀ f, s.windowBad s.cur d row off K.toNat = some f → Withholds (.vld g v t x vx) s f)
      ∧ (∀ f, s.gatherBad s.cur d (vBytes I) K.toNat = some f → Withholds (.vldx g v t xv vx) s f)
      ∧ (s.arch.pw = [] → PutsPriv (.vst g v t x vx) s (windowPut d row off K V))
      ∧ (s.arch.pw = [] →
          PutsPriv (.vstx g v t xv vx) s (fun a => (List.range 64).reverse.findSome? (fun i =>
            let start := 4096 * d.base.toNat + laneRow I i * ((d.rb + 63) / 64 * 64) + laneByte I i
            let j := a - start
            if K.getLsbD i = true ∧ start ≤ a ∧ j < 4 ∧ laneRow I i < d.rows ∧ laneByte I i + j < d.rb
            then some (V.extractLsb' (32 * i + 8 * j) 8) else none))))
    ∧ (d.valid = true → d.clus = true →
      TileAccess (.vld g v t x vx) s .ldo t [row, off, K.toNat] (vBytes V)
      ∧ TileAccess (.vst g v t x vx) s .sto t [row, off, K.toNat] (vBytes V)
      ∧ TileAccess (.vldx g v t xv vx) s .ldo t [0, 0, K.toNat] (vBytes V ++ vBytes I)
      ∧ TileAccess (.vstx g v t xv vx) s .sto t [0, 0, K.toNat] (vBytes V ++ vBytes I))
    ∧ (d.valid = false → s.checked = false → ∀ i ∈ ([.vld g v t x vx, .vst g v t x vx, .vldx g v t xv vx, .vstx g v t xv vx] : List Instr),
        exec i s = .next (s.takeTrap s.cur 3 { cause := 40, reason := 1, data := t.zeroExtend 32 }))

/-- A counted access to a CLUS tile is performed when nothing earlier of its continuation has the tile and no other core's tentative byte
lies in it: a load writes its register, unless a result of a higher slot has landed there in the same cycle; a store writes one 64-byte unit
of the tile after another (the order of the units is log 119), a later lane after an earlier one; with the last one the operation is gone.
One whose tile-table entry does not name the binding raises TILE_INVALID reason 2 as a late fault. -/
def Obligations.TileAccessCompletes : Prop :=
  ∀ (s : State) (o : Op), s.opAt o.id = some o → o.kind = .tile → o.faulted = false → s.tileBlocked o = false →
    s.pathBlocked o o.tilePcs = false → s.tentTile o.core o.tile = none → s.onItsCore o = true →
    let run := exec (.tileAccessComplete o.id) s
    (s.clusOk o.core o.mc o.bind o.tile = false → ∃ t l, run = .next t ∧ SameMem s t
      ∧ (t.coreAt o.core).late = (s.coreAt o.core).late ++ [l] ∧ l.cause = 40 ∧ l.reason = 2)
    ∧ (s.clusOk o.core o.mc o.bind o.tile = true → ∀ g v w x vx row off k,
        (o.instr = .vld g v w x vx → o.x = [row, off, k] → o.dat.length = 256 → s.windowBad o.core o.tile row off k = none →
          ∃ t, run = .next t ∧ t.opAt o.id = none ∧ SameMem s t ∧ t.clusters = s.clusters
            ∧ (t.coreAt o.core).now.rdV v = if (s.coreAt o.core).now.loses o.slot o.seq (.v v 0) then (s.coreAt o.core).now.rdV v
                else vOfBytes (maskLanes k (s.tileWindow o.core o.tile row off) o.dat))
        ∧ (∀ y, o.instr = .vldx g v w y vx → o.x = [row, off, k] → o.dat.length = 512 → s.gatherBad o.core o.tile (o.dat.drop 256) k = none →
          ∃ t, run = .next t ∧ t.opAt o.id = none ∧ SameMem s t ∧ t.clusters = s.clusters
            ∧ (t.coreAt o.core).now.rdV v = if (s.coreAt o.core).now.loses o.slot o.seq (.v v 0) then (s.coreAt o.core).now.rdV v
                else vOfBytes (maskLanes k (s.tileGather o.core o.tile (o.dat.drop 256)) (o.dat.take 256)))
        ∧ (∀ y, o.instr = .vst g v w x vx ∨ o.instr = .vstx g v w y vx → o.tile.clus = true →
          256 * o.tile.base.toNat + (o.tile.rows + 15) / 16 * o.tile.rs ≤ 2 ^ 19 →
          ∃ t, run = .next t ∧ StoresUnit s t o (·.dec .sto))
        ∧ (o.instr = .vst g v w x vx → o.x = [row, off, k] →
          o.tileWrites = ((List.range 64).filter (fun i => k.testBit i)).map (fun i => (row, off + 4 * i, cutBytes o.dat (4 * i) 4)))
        ∧ (∀ y, o.instr = .vstx g v w y vx → o.x = [row, off, k] →
          o.tileWrites = ((List.range 64).filter (fun i => k.testBit i)).map (fun i =>
            ((laneIndex (o.dat.drop 256) i).1, (laneIndex (o.dat.drop 256) i).2, cutBytes o.dat (4 * i) 4))))

/-! ## Slot M -/

namespace Sys2Proof.Claim

/-- What a pass needs of its share, its word and its operands (R254 to R257, R264, R268): a share of rate 1 / `m`, a legal word, a valid moving
tile of at most 128 rows in the word's format and domain, and, for a stationary in a handle, a valid CLUS tile that fits. -/
def PassReady (s : State) (spec : Bool) (ta : TReg) (tb : Option TReg) (sb : Word) (w : BitVec 16) (m : Nat) : Prop :=
  let A := s.arch.rdT ta
  s.divisor s.cur = some m ∧ wordOk spec w = true ∧ A.valid = true ∧ A.rows ≤ 128 ∧ A.fmt.toNat = wordAF w ∧ A.spectral = spec
  ∧ (∀ b, tb = some b → (s.arch.rdT b).valid = true ∧ (s.arch.rdT b).clus = true ∧ (s.arch.rdT b).fmt.toNat = wordBF w
      ∧ (s.arch.rdT b).rows ≤ nMax w ∧ depthBad w (s.arch.rdT b).rb = false ∧ (s.arch.rdT b).spectral = spec)
  ∧ (tb = none → sb.extractLsb' 12 4 = 0 ∧ sb.extractLsb' 40 24 = 0)

/-- The format word of a pass: that of its extension, or the one of the table that lc[N] names (R263). -/
def passWord (a : Arch) (mx : MX) : BitVec 16 := if mx.fs = 0 then mx.word else a.rdFt ((a.rdLc mx.n).truncate 4)

/-- A deterministic pass issues: its share is occupied for `m * (64 + R)` cycles, and, where both tiles belong to the binding and no word of
the stationary is uncorrectable, one pass with its accumulator, its operands and its latency is under way. -/
def PassStarts (i : Instr) (s : State) (spec : Bool) (z : ZReg) (ta tb : TReg) (acc : BitVec 1) (w : BitVec 16) (m : Nat) : Prop :=
  let A := s.arch.rdT ta
  let B := s.arch.rdT tb
  let mine (d : TDesc) : Bool := s.clusOk s.cur s.core.mc s.core.bind d
  ∃ t, Issues i s t ∧ t.arch.occ = m * (64 + A.rows) ∧ (s.ops = [] → SameMem s t)
    ∧ (mine A = true → mine B = true → s.allBad s.cur B = none → s.ops = [] →
      ∃ p, t.arch.passes = s.arch.passes ++ [p] ∧ p.id = s.nextOp ∧ p.z = z.toNat ∧ p.mov = A
        ∧ p.rows = A.rows ∧ p.cols = B.rows ∧ p.acc = (acc == 1) ∧ p.word = w ∧ p.spec = spec ∧ p.age = 0
        ∧ p.lat = m * (64 + A.rows) + (if wordInt w then 61 else 65) ∧ SameRegs t.arch s.arch)

/-- An MMULW issues: TLO rises by one, and it is outstanding with its word, its stationary, HOLD and FOLDSCOPE, in the state in which the
counted accesses to its handles' tiles that came before it have been performed; without one that is the state before it. -/
def WaitedStarts (i : Instr) (s : State) (ta : TReg) (tb : Option TReg) (mx : MX) (sb : Arch → Word) : Prop :=
  let u := s.settleWaited ta tb
  (∃ t o k, Issues i s t ∧ t.ops = u.ops ++ [o] ∧ o.id = u.nextOp ∧ o.kind = .waited ∧ o.instr = i ∧ o.waited = some k
    ∧ k.phase = (if u.penModeOf u.cur = .fold then .coming else .share) ∧ k.hold = u.arch.hold.toNat ∧ k.global = u.arch.scopeGlobal
    ∧ o.x = [(passWord u.arch mx).toNat, (sb u.arch).toNat, u.arch.hold.toNat, if u.arch.scopeGlobal then 1 else 0]
    ∧ o.hs = (ta, u.arch.rdT ta) :: (match tb with | some b => [(b, u.arch.rdT b)] | none => [])
    ∧ t.arch = u.arch.setCtr .tlo (u.arch.tlo + 1) ∧ SameMem u t)
  ∧ ((∀ p ∈ s.ops, p.kind ≠ .tile ∧ p.kind ≠ .readout) →
      u.arch = s.arch ∧ u.ops = s.ops ∧ u.nextOp = s.nextOp ∧ u.penModeOf u.cur = s.penModeOf s.cur ∧ SameMem s u)

/-- The waited pass `o` has begun in its share and its occupancy has passed; it is the only operation outstanding, nothing is tentative,
no earlier work is to access the bytes of its handles, and neither its handles, its rows, its stationary nor its accumulator keep it from
landing (R262, R268, R358). -/
def MayLand (u : State) (o : Op) (k : Waited) : Prop :=
  let stat := u.statTable (clusterOfCore o.core) k.key
  u.ops = [o] ∧ u.pathBlocked o (o.waitedPcs k.key) = false ∧ o.kind = .waited ∧ o.waited = some k ∧ k.phase = .share ∧ k.began = true ∧ o.faulted = false ∧ o.asleep = false
  ∧ u.onItsCore o = true ∧ (u.coreAt o.core).now.occ = 0 ∧ (u.coreAt o.core).now.passes = [] ∧ (∀ e ∈ u.cores, e.2.undo = [])
  ∧ stat.2 = none ∧ statBad o.word k.key (o.stationary k.key stat.1) = false ∧ u.waitedTrap o = none

/-- What the waited pass `o` multiplies: its moving tile and its stationary as it reads them, in the formats of its word (R254, R261). -/
def productOf (u : State) (o : Op) (key : List Nat) (stat : SMap Byte) : PassIn := {
  word := o.word, spec := false, r := o.aDesc.rows, n := keyRows key, k := kOf (wordBF o.word) (wordBSC o.word) (keyRb key),
  ka := kOf (wordAF o.word) (wordASC o.word) o.aDesc.rb, A := u.moving o, B := o.stationary key stat,
  edge := if key.headD 0 = 1 then (o.waited.map (·.edge)).getD (256, 4096) else (256, 4096) }

/-- The pass lands: the accumulator takes the product of its operands (R261), valid and real; TLO falls, and the operation is gone. -/
def WaitedLands (u : State) (o : Op) (k : Waited) (z : ZReg) (acc : BitVec 1) : Prop :=
  let a := (u.coreAt o.core).now
  let p := productOf u o k.key (u.statTable (clusterOfCore o.core) k.key).1
  ∃ v, exec (.waitedPassComplete o.id) u = .next v ∧ v.opAt o.id = none ∧ SameMem u v
    ∧ (v.coreAt o.core).now = (a.landPass z.toNat (acc == 1) false p).dec .tlo
    ∧ ((v.coreAt o.core).now.zflag z.toNat).valid = true ∧ ((v.coreAt o.core).now.zflag z.toNat).spectral = false
    ∧ (∀ c, c ≠ o.core → v.coreAt c = u.coreAt c)

end Sys2Proof.Claim

/-- MMUL and MSPEC. A pass whose share, word and operands are good issues; one with a false guard occupies its share and does nothing
else; a share that is occupied raises ARRAY_BUSY, a Fold or a core without a share MATRIX_MODE, an invalid handle TILE_INVALID, and a bad
format word BAD_FORMAT, which marks the accumulator invalid. -/
def Obligations.DeterministicPasses : Prop :=
  ∀ (s : State) (g : Guard) (z : ZReg) (ta tb : TReg) (acc : BitVec 1) (mx : MX) (spec : Bool) (m : Nat),
    let i : Instr := if spec then .mspec g z ta tb acc mx else .mmul g z ta tb acc mx
    let w := passWord s.arch mx
    let A := s.arch.rdT ta
    (s.arch.guardOn 4 g = true → PassReady s spec ta (some tb) 0 w m → s.penModeOf s.cur ≠ .fold → s.arch.occ = 0 →
        s.waitedOps s.cur = [] → (acc = 1 → s.arch.zAhead z.toNat = (true, spec)) → PassStarts i s spec z ta tb acc w m)
    ∧ (s.arch.guardOn 4 g = false → s.penModeOf s.cur ≠ .fold → s.divisor s.cur = some m →
        exec i s = .next { s.onArch (fun a => { a with occ := max a.occ (m * (64 + A.rows)) }) with verdict := .issued })
    ∧ (s.arch.guardOn 4 g = true → s.checked = false → A.valid = true → (s.arch.rdT tb).valid = true →
        (s.penModeOf s.cur = .fold → Traps i s 4 54 1)
        ∧ (s.penModeOf s.cur ≠ .fold → s.divisor s.cur = none → Traps i s 4 54 2)
        ∧ (s.penModeOf s.cur ≠ .fold → s.divisor s.cur = some m → 0 < s.arch.occ → Traps i s 4 53 1)
        ∧ (s.penModeOf s.cur ≠ .fold → s.divisor s.cur = some m → s.arch.occ = 0 → s.waitedOps s.cur = [] → wordOk spec w = false →
            ∃ u : State, exec i s = .next (u.takeTrap s.cur 4 { cause := 48, reason := 0 })
              ∧ (u.arch.zflag z.toNat).valid = false ∧ u.cur = s.cur))
    ∧ (s.arch.guardOn 4 g = true → s.checked = false → A.valid = false → ta = tb →
        exec i s = .next (s.takeTrap s.cur 4 { cause := 40, reason := 1, data := ta.zeroExtend 32 }))

/-- MMULW with a stationary in a handle or in a tensor: when its share or Fold, its word and its operands are good it issues and is
counted on TLO; in a Fold its entry waits until the Fold has room. In a share, once it has begun and its occupancy has passed, it completes:
its accumulator takes the product (when it begins and completes in its share is log 69, and which bytes it reads of an operand that is
written meanwhile is log 3). -/
def Obligations.WaitedPasses : Prop :=
  ∀ (s : State) (g : Guard) (z : ZReg) (ta tb : TReg) (b : SReg) (acc : BitVec 1) (mx : MX) (m : Nat), s.arch.guardOn 4 g = true →
    s.arch.tlo ≠ 255 → (s.penModeOf s.cur = .fold → s.foldStall s.cur = none) →
    let w := passWord s.arch mx
    (PassReady s false ta (some tb) 0 w m → WaitedStarts (.mmulw g z ta tb acc mx) s ta (some tb) mx (fun _ => 0)
      ∧ ∀ u o k, o.instr = .mmulw g z ta tb acc mx → MayLand u o k → WaitedLands u o k z acc)
    ∧ (PassReady s false ta none (s.arch.rdS b) w m → WaitedStarts (.mmulwT g z ta b acc mx) s ta none mx (fun a => a.rdS b)
      ∧ ∀ u o k, o.instr = .mmulwT g z ta b acc mx → MayLand u o k → WaitedLands u o k z acc)

/-- The accumulator instructions: MZERO with latency 2, MRDV with latency 4, MFMT and MSTAT with latency 1. MRDV that meets an
uncorrectable word has no result and takes a late fault. BUSY of MSTAT is the rest of the share's occupancy, and not 0 while a waited pass
is outstanding there (its value is then a free one, log 69). An accumulator that MZERO has cleared reads 0 everywhere, is valid, of the
domain asked for and not saturated. -/
def Obligations.Accumulators : Prop :=
  (∀ (s : State) (g : Guard) (z : ZReg) (dom : BitVec 1) (v : VReg) (y d : SReg) (i : BitVec 4) (w : BitVec 16), s.arch.guardOn 4 g = true →
    let n := (s.arch.rdS y).toNat
    let at' (j : Nat) : Nat := s.arch.zElem z.toNat (n % 128) (64 * (n / 256 % 4) + j)
    let bad := accTrap (badUnit s.arch.badAcc (accAddr z.toNat (n % 128) (64 * (n / 256 % 4))) 256)
    let shared : Prop := ∃ o ∈ s.waitedOps s.cur, ∃ k, o.waited = some k ∧ k.phase = .share
    (s.zBusy s.cur z.toNat = false → Lands (.mzero g z dom) s 2 4 0 (.mzero z (dom == 1)))
    ∧ (s.zBusy s.cur z.toNat = true → s.checked = false → Traps (.mzero g z dom) s 4 53 3)
    ∧ ((s.arch.zflag z.toNat).valid = true →
        (bad = none → ∃ x, Lands (.mrdv g z v y) s 4 4 0 (.v v x) ∧ ∀ j < 64, elem 0 x j = at' j % 2 ^ 32)
        ∧ (∀ f, bad = some f → Withholds (.mrdv g z v y) s f))
    ∧ (s.arch.badAcc = [] → bad = none)
    ∧ ((s.arch.zflag z.toNat).valid = false → s.checked = false → Traps (.mrdv g z v y) s 4 50 0)
    ∧ Lands (.mfmt g i y (some w)) s 1 4 0 (.ft i w)
    ∧ Lands (.mfmt g i y none) s 1 4 0 (.ft i ((s.arch.rdS y).truncate 16))
    ∧ (∃ x, Issues (.mstat g d) s (s.fresh.2.result 1 4 0 (.s d x)) ∧ (∀ k : ZReg,
        x.getLsbD k.toNat = (s.arch.zflag k.toNat).valid ∧ x.getLsbD (4 + k.toNat) = (s.arch.zflag k.toNat).spectral
        ∧ x.getLsbD (8 + k.toNat) = (s.arch.zflag k.toNat).sat
        ∧ x.getLsbD (12 + k.toNat) = (s.waitedOps s.cur).any (fun o => o.zdest.1 == k.toNat))
        ∧ (¬ shared → (x.extractLsb' 16 12).toNat = min s.arch.occ 4095) ∧ (shared → x.extractLsb' 16 12 ≠ 0)))
  ∧ (∀ (a : Arch) (z : ZReg) (dom : Bool) (row col : Nat), col < 256 → row < 128 →
      (a.wr (.mzero z dom)).zElem z.toNat row col = 0 ∧ (a.wr (.mzero z dom)).zflag z.toNat = ⟨true, dom, false⟩
      ∧ ∀ y : ZReg, y ≠ z → (a.wr (.mzero z dom)).zElem y.toNat row col = a.zElem y.toNat row col
          ∧ (a.wr (.mzero z dom)).zflag y.toNat = a.zflag y.toNat)

/-- MRD without an adapter. To a PRIV tile it holds the M port and lands after 4 cycles and one more for each 256 bytes of each row, which
then hold its bytes; to a CLUS tile it is counted on TLO. An uncorrectable word among the elements withholds the result and is a late fault.
An accumulator that is not valid raises ACC_INVALID, a tile in PRIV while the port is busy ARRAY_BUSY. With a false guard the port is held
all the same (the model's choice, log 38). -/
def Obligations.ReadsAccumulator : Prop :=
  ∀ (s : State) (g : Guard) (z : ZReg) (t : TReg) (y : SReg),
    let d := s.arch.rdT t
    let f := d.fmt.toNat
    let i : Instr := .mrd g z t y none
    let n := (s.arch.rdS y).toNat
    let rows := min d.rows (128 - n % 128)
    let spec := (s.arch.zflag z.toNat).spectral
    let bytes := min (d.rb / unitBytes f) ((if spec then 128 else 256) - n / 256 % 256) * unitBytes f
    let port := 4 + rows * ((bytes + 255) / 256)
    let bad := s.mrdBad z t (n % 128) (n / 256 % 256) (rows, bytes) none
    (s.arch.guardOn 4 g = true →
      (d.valid = true → f ≤ 11 → f ≠ 9 → (s.arch.zflag z.toNat).valid = true → (spec = true ↔ f = 10 ∨ f = 11) →
        (d.clus = false → s.arch.mport = 0 → bad = none →
          ∃ u r, Issues i s u ∧ u.arch.reads = s.arch.reads ++ [r] ∧ r.id = s.nextOp ∧ r.t = t ∧ r.dst = d
            ∧ r.rows = rows ∧ r.rbytes = bytes ∧ r.remain = port ∧ u.arch.mport = port ∧ SameMem s u ∧ u.arch.priv = s.arch.priv)
        ∧ (d.clus = false → s.arch.mport = 0 → ∀ l, bad = some l → Withholds i s l)
        ∧ (d.clus = true → s.arch.tlo ≠ 255 → bad = none → ∃ u o, Issues i s u ∧ u.ops = s.ops ++ [o] ∧ o.id = s.nextOp ∧ o.kind = .readout
            ∧ o.hs = [(t, d)] ∧ o.st = [rows, bytes, if spec then 1 else 0] ∧ u.arch.tlo = s.arch.tlo + 1 ∧ SameMem s u))
      ∧ (s.arch.badAcc = [] → bad = none)
      ∧ (d.valid = true → d.clus = false → 0 < s.arch.mport → s.checked = false → Traps i s 4 53 4)
      ∧ (d.valid = true → d.clus = false → s.arch.mport = 0 → f ≤ 11 → f ≠ 9 → (s.arch.zflag z.toNat).valid = false →
          s.checked = false → Traps i s 4 50 0))
    ∧ (s.arch.guardOn 4 g = false → exec i s = .next { (if d.clus then s else s.onArch (fun a => { a with mport := max a.mport port }))
        with verdict := .issued })

/-! ## Slot X -/

namespace Sys2Proof.Claim

/-- A stream issues: it stands behind the streams of the unit with its operation, steps and timing, or its CLUS handle is not the
binding's, and no register and no byte changes. -/
def Streams (i : Instr) (s : State) (sx : Word) : Prop :=
  ∃ t x, xStreamOf s.arch sx i = some x ∧ Issues i s t ∧ SameMem s t ∧ SameRegs t.arch s.arch ∧ t.nextOp = s.nextOp + 1
    ∧ ((∀ r ∈ x.hs, s.clusOk s.cur s.core.mc s.core.bind (s.arch.rdT r) = true) →
        ∃ y, t.arch.xs = s.arch.xs ++ [y] ∧ y.id = s.nextOp ∧ y.instr = i ∧ y.op = x.op ∧ y.steps = x.steps ∧ y.st = x.st ∧ y.d = x.d
          ∧ y.age = 0 ∧ y.off = false)

end Sys2Proof.Claim

/-- The streams of slot X and XTAG. With valid handles, an idle unit, a legal pair of levels, formats and domains, each stream issues;
with a false guard it occupies the unit all the same. A busy unit raises XFORM_BUSY, two CLUS handles XFORM_OPERAND. XTAG puts the tag in
flight with latency 1. -/
def Obligations.Transforms : Prop :=
  ∀ (s : State) (g : Guard) (d a : TReg) (z : ZReg) (x : SReg) (uc : BitVec 2) (bc : BitVec 3) (sat dom : BitVec 1) (xe : Option XE),
    let D := s.arch.rdT d
    let A := s.arch.rdT a
    let real (f : BitVec 4) : Prop := f.toNat ≤ 2
    let cpx (f : BitVec 4) : Prop := f = 10 ∨ f = 11
    let all : List Instr := [.xexp g d a uc xe, .xcmp g d a uc xe, .xtrn g d a uc xe, .xcvt g d a sat xe, .xdft g d a bc xe,
      .xidft g d a bc xe, .xmov g d a xe]
    (s.arch.guardOn 5 g = true → D.valid = true → s.arch.xBusy = false →
      Streams (.xfill g d x xe) s (s.arch.rdS x)
      ∧ (real D.fmt → (s.arch.zflag z.toNat).valid = true → (s.arch.zflag z.toNat).spectral = true →
          (s.waitedOps s.cur).any (fun o => o.zdest.1 == z.toNat) = false → Streams (.xidftAcc g d z bc xe) s 0)
      ∧ (A.valid = true →
          (A.clus = true → D.clus = false → Streams (.xexp g d a uc xe) s 0)
          ∧ (A.clus = false → D.clus = true → Streams (.xcmp g d a uc xe) s 0)
          ∧ (A.clus = false ∨ D.clus = false →
              Streams (.xmov g d a xe) s 0
              ∧ (A.spectral = false → Streams (.xtrn g d a uc xe) s 0)
              ∧ (cvtPair A.fmt.toNat D.fmt.toNat = true → (A.spectral = false ∨ 8 < A.fmt.toNat) → Streams (.xcvt g d a sat xe) s 0)
              ∧ (real A.fmt → cpx D.fmt → A.spectral = false → Streams (.xdft g d a bc xe) s 0)
              ∧ (cpx A.fmt → real D.fmt → A.spectral = true → Streams (.xidft g d a bc xe) s 0))))
    ∧ (s.arch.guardOn 5 g = true → D.valid = true → A.valid = true → s.checked = false →
        (s.arch.xBusy = true → ∀ i ∈ all, Traps i s 5 56 1)
        ∧ (s.arch.xBusy = false → A.clus = true → D.clus = true → ∀ i ∈ all, Traps i s 5 57 1))
    ∧ (s.arch.guardOn 5 g = false →
        (∀ i ∈ .xidftAcc g d z bc xe :: all, ∃ y, xStreamOf s.arch 0 i = some y
          ∧ exec i s = .next { s.onArch (fun r => { r with xs := r.xs ++ [{ y with off := true }] }) with verdict := .issued })
        ∧ ∃ y, xStreamOf s.arch (s.arch.rdS x) (.xfill g d x xe) = some y
          ∧ exec (.xfill g d x xe) s = .next { s.onArch (fun r => { r with xs := r.xs ++ [{ y with off := true }] }) with verdict := .issued })
    ∧ (s.arch.guardOn 5 g = true → D.valid = true → Lands (.xtag g d dom xe) s 1 5 0 (.dom d (dom == 1)))
    ∧ (s.arch.guardOn 5 g = true → (s.arch.zflag z.toNat).valid = true → s.zBusy s.cur z.toNat = false →
        Lands (.xtagAcc g z dom xe) s 1 5 0 (.zdom z (dom == 1)))

/-! ## Slots C and Q -/

namespace Sys2Proof.Claim

/-- A command issues: its counter rises by one, it is outstanding with the words that it read, and the core takes a checkpoint. -/
def Commands (i : Instr) (s : State) (c : Ctr) (kind : OpKind) (x : List Nat) : Prop :=
  ∃ t o, Issues i s t ∧ t.ops = s.ops ++ [o] ∧ o.id = s.nextOp ∧ o.kind = kind ∧ o.instr = i ∧ o.x = x ∧ o.st = []
    ∧ t.arch = s.arch.setCtr c (s.arch.ctr c + 1) ∧ t.core.commit = true ∧ SameMem s t

/-- A handle endpoint word with no reserved bit set that names a valid handle (R321), and a tensor endpoint word. -/
def HandleEnd (s : State) (w : Word) : Prop :=
  endBad w.toNat = false ∧ w.extractLsb' 62 2 = 1 ∧ (s.arch.rdT (w.truncate 8)).valid = true
def TensorEnd (w : Word) : Prop := endBad w.toNat = false ∧ w.extractLsb' 62 2 ≠ 1

/-- A command with FEN may name its fence. -/
def FenOk (s : State) (fen : BitVec 1) (w : Word) : Prop := fen = 1 → FenceOk s (BitVec.ofNat 64 (ctrlFence w.toNat))

/-- A sequence handle word and a tile word with no reserved bit set. -/
def SeqHandle (h : Word) : Prop := h.extractLsb' 24 9 = 0
def TileWord (s : State) (w : Word) : Prop := w.toNat < 2 ^ 16 ∧ (s.arch.rdT (w.truncate 8)).valid = true

end Sys2Proof.Claim

/-- The commands of slot C issue when CPO has room and their operand words name what they may name. A full counter raises COUNTER_FULL, an
endpoint word with a reserved bit or kind MOVE_OPERAND. -/
def Obligations.MovementCommands : Prop :=
  (∀ (s : State) (g : Guard) (x y w : SReg) (sat fen nw : BitVec 1) (crc : Option Word32), s.arch.guardOn 6 g = true → s.arch.cpo ≠ 255 →
    let X := s.arch.rdS x
    let Y := s.arch.rdS y
    let W := s.arch.rdS w
    let ws := [X.toNat, Y.toNat, W.toNat]
    let idx := s.arch.rdT (W.truncate 8)
    let rowsOk := W.extractLsb' 48 16 = 0 ∧ W.extractLsb' 28 4 = 0 ∧ W.extractLsb' 8 8 = 0 ∧ idx.valid = true ∧ idx.fmt = 8
    let goes (i : Instr) : Prop := Commands i s .cpo .copy ws
    (FenOk s fen W →
      (W.extractLsb' 48 16 = 0 → W.extractLsb' 12 20 = 0 →
          ((HandleEnd s X ∧ TensorEnd Y) ∨ (TensorEnd X ∧ HandleEnd s Y) ∨ (TensorEnd X ∧ TensorEnd Y)) →
          goes (.cpy g x y w sat fen crc))
      ∧ (rowsOk → HandleEnd s X → TensorEnd Y → endOrigin Y.toNat = 0 → goes (.gath g x y w sat fen crc))
      ∧ (rowsOk → TensorEnd X → HandleEnd s Y → endOrigin X.toNat = 0 → goes (.scat g x y w sat fen crc))
      ∧ (HandleEnd s Y → W.extractLsb' 48 16 = 0 → W.extractLsb' 0 16 = 0 → (W.extractLsb' 16 16).toNat ≤ 8192 →
          ((X = 0 ∧ (s.bindAt s.core.bind).req.isSome = true)
            ∨ (X.getLsbD 63 = true ∧ X.extractLsb' 48 15 = 0 ∧ X.extractLsb' 12 4 = 0)) → goes (.cpyn g x y w fen))
      ∧ (HandleEnd s X → Y.extractLsb' 48 16 = 0 → Y.extractLsb' 0 16 = 0 → W.extractLsb' 48 16 = 0 → W.extractLsb' 0 32 = 0 →
          goes (.nrecv g x y w fen)))
    ∧ (HandleEnd s X → HandleEnd s Y → W.extractLsb' 56 8 = 0 → W.extractLsb' 12 4 = 0 →
        (let D := s.arch.rdT (X.truncate 8)
         let E := s.arch.rdT (Y.truncate 8)
         D.rowsm1 = E.rowsm1 → D.rbm1 = E.rbm1 → D.fmt = 0 → E.fmt = 0 → 1032 ≤ D.rb → D.rows * D.rb ≤ 8192 → goes (.ring g x y w)))
    ∧ (0x80 ≤ X.toNat → X.toNat ≤ 0xFE → goes (.cseg g x y w nw)))
  ∧ (∀ (s : State) (g : Guard) (x y w : SReg) (sat fen nw : BitVec 1) (crc : Option Word32), s.arch.guardOn 6 g = true → s.checked = false →
    let X := (s.arch.rdS x).toNat
    let Y := (s.arch.rdS y).toNat
    let all : List Instr := [.cpy g x y w sat fen crc, .gath g x y w sat fen crc, .scat g x y w sat fen crc, .cpyn g x y w fen,
      .nrecv g x y w fen, .ring g x y w, .cseg g x y w nw]
    (s.arch.cpo = 255 → ∀ i ∈ all, Traps i s 6 96 0)
    ∧ (s.arch.cpo ≠ 255 →
        (endBad X = true → ∀ i ∈ ([.cpy g x y w sat fen crc, .gath g x y w sat fen crc, .scat g x y w sat fen crc, .nrecv g x y w fen,
          .ring g x y w] : List Instr), Traps i s 6 64 1)
        ∧ (endBad Y = true → ∀ i ∈ ([.cpy g x y w sat fen crc, .gath g x y w sat fen crc, .scat g x y w sat fen crc, .cpyn g x y w fen,
          .ring g x y w] : List Instr), Traps i s 6 64 1)
        ∧ (X < 0x80 ∨ 0xFE < X → Traps (.cseg g x y w nw) s 6 64 1)))

/-- The commands of slot Q issue when SQO has room and their operand words have no reserved bit set and name valid handles; that bits of
the operand block of an SQATT which the spec does not name are ignored is logs 85 and 145. A full counter raises COUNTER_FULL, a reserved
bit of a sequence handle SEQ_OPERAND. -/
def Obligations.SequenceCommands : Prop :=
  (∀ (s : State) (g : Guard) (x y w : SReg) (x4 : BitVec 4) (rl : BitVec 1) (f : BitVec 3) (e : Option Word32),
    s.arch.guardOn 7 g = true → s.arch.sqo ≠ 255 →
    let X := s.arch.rdS x
    let Y := s.arch.rdS y
    let W := s.arch.rdS w
    let ws := [X.toNat, Y.toNat, W.toNat]
    let goes (i : Instr) (ws : List Nat) : Prop := Commands i s .sqo .seq ws
    let countOk : Prop := e.isSome = true ∨ W.toNat < 2 ^ 32
    let rangeOk : Prop := e.isSome = true ∨ W.toNat < 2 ^ 44
    let sl := Y.toNat / 2 ^ 12 % 16
    let ps := Y.toNat / 2 ^ 8 % 16
    let cp := Y.toNat % 32
    (Y.toNat < 2 ^ 16 → Y.extractLsb' 5 3 = 0 → 4 ≤ sl → sl ≤ 12 → ps ≤ 12 → 10 ≤ sl + ps → sl + ps ≤ 16 → ps ≤ cp → cp ≤ ps + 13 →
      goes (.sqnew g x y) [X.toNat, Y.toNat, 0])
    ∧ (SeqHandle Y →
      (countOk → (match e with | some n => n.toNat | none => W.toNat) ≤ 4096 → goes (.sqres g x y w e) ws)
      ∧ (rangeOk → TileWord s X → goes (.sqput g x y w e) ws ∧ goes (.sqget g x y w e) ws)
      ∧ (rangeOk → goes (.sqcmt g x y w e) ws)
      ∧ goes (.sqlen g x y rl) [X.toNat, Y.toNat, 0]
      ∧ (countOk → goes (.sqwait g x y w e) ws ∧ goes (.sqfork g x y w e) ws)
      ∧ goes (.sqrel g y) [0, Y.toNat, 0]
      ∧ goes (.sqinfo g x y f) [X.toNat, Y.toNat, 0])
    ∧ (let q : SReg := x4.zeroExtend 6 <<< 2
       let P := s.arch.rdS (q + 1)
       let Q := s.arch.rdS q
       let R := s.arch.rdS (q + 2)
       let Z := s.arch.rdS (q + 3)
       let par := s.arch.rdT (P.truncate 8)
       let qry := s.arch.rdT (Q.truncate 8)
       let kv := (Z.extractLsb' 40 4).toNat
       SeqHandle Y → (w = 0 ∨ SeqHandle W) → TileWord s P → TileWord s Q → par.fmt = 0 → 1032 ≤ par.rb →
       P.toNat / 256 % 256 < par.rows → 1 ≤ kv → kv ≤ 3 → qry.fmt.toNat ≤ 2 →
       ((Z.extractLsb' 32 8).toNat + 1) * unitBytes qry.fmt.toNat ≤ qry.rb →
       (R.extractLsb' 0 32).toNat ≤ (R.extractLsb' 32 32).toNat →
       goes (.sqatt g x4 y w) [Q.toNat, P.toNat, Y.toNat, W.toNat, R.toNat, Z.toNat])
    ∧ (let q : SReg := x4.zeroExtend 6 <<< 2
       let P := s.arch.rdS (q + 1)
       let Q := s.arch.rdS q
       let R := s.arch.rdS (q + 2)
       let Z := s.arch.rdS (q + 3)
       let par := s.arch.rdT (P.truncate 8)
       let kv := (Z.extractLsb' 40 4).toNat
       let qf := (Q.extractLsb' 16 2).toNat
       SeqHandle Y → (w = 0 ∨ SeqHandle W) → TileWord s P → par.fmt = 0 → 1032 ≤ par.rb →
       P.toNat / 256 % 256 < par.rows → 1 ≤ kv → kv ≤ 3 → Q.getLsbD 63 = true → qf ≤ 2 → Q.extractLsb' 0 6 ≠ 63 →
       (Z.extractLsb' 32 8).toNat + 1 ≤ 2 * (256 / unitBytes qf) → (R.extractLsb' 0 32).toNat ≤ (R.extractLsb' 32 32).toNat →
       goes (.sqatt g x4 y w) [Q.toNat, P.toNat, Y.toNat, W.toNat, R.toNat, Z.toNat])
    ∧ (let n := X.toNat / 2 ^ 16 % 256 + 1
       let ok (v : Word) : Prop := (s.arch.rdT (v.truncate 8)).valid = true ∧ (s.arch.rdT (v.truncate 8)).fmt = 0
         ∧ 1032 ≤ (s.arch.rdT (v.truncate 8)).rb ∧ v.toNat / 256 % 256 + n ≤ (s.arch.rdT (v.truncate 8)).rows
       X.toNat < 2 ^ 24 → Y.toNat < 2 ^ 16 → W.toNat < 2 ^ 16 → ok X → ok Y → ok W → goes (.sqmrg g x y w) ws))
  ∧ (∀ (s : State) (g : Guard) (x y w : SReg) (x4 : BitVec 4) (rl : BitVec 1) (f : BitVec 3) (e : Option Word32),
    s.arch.guardOn 7 g = true → s.checked = false →
    let named : List Instr := [.sqres g x y w e, .sqput g x y w e, .sqget g x y w e, .sqcmt g x y w e, .sqlen g x y rl,
      .sqwait g x y w e, .sqfork g x y w e, .sqrel g y, .sqinfo g x y f, .sqatt g x4 y w]
    (s.arch.sqo = 255 → ∀ i ∈ .sqnew g x y :: .sqmrg g x y w :: named, Traps i s 7 96 0)
    ∧ (s.arch.sqo ≠ 255 → (s.arch.rdS y).extractLsb' 24 9 ≠ 0 → ∀ i ∈ named, Traps i s 7 85 1))

/-! ## Ends of cycles and of suspensions -/

namespace Sys2Proof.Claim

/-- `exec` of a step of the device answers state `t`. -/
def Becomes (i : Instr) (s t : State) : Prop := exec i s = .next t

end Sys2Proof.Claim

/-- The steps of the end of a core's cycle: results, passes, readouts and X steps that are due land, and PTS rises by one with every
sixteenth cycle; and an empty bundle, which only leaves its count of empty cycles. A pass that lands is gone, and its accumulator takes its
product; a readout that lands in PRIV is gone, and its rows stand in its tile; one to CLUS lands by 64-byte units (their order is log 119);
the last step of a stream ends the stream, and its bytes stand in their row. -/
def Obligations.EndsOfCycles : Prop :=
  (∀ (s : State) (c : Nat), s.ending = some c → let a := (s.coreAt c).now
    Becomes (.resultLand c) s (s.onArchAt c Arch.land)
    ∧ Becomes (.passLanding c) s (s.passLands c)
    ∧ (∀ p, a.passes = [p] → p.badNow = false → p.age + 1 ≥ p.lat → p.img = none → (p.acc = true → a.accBad p.z = none) →
        ∃ t, Becomes (.passLanding c) s t ∧ (t.coreAt c).now.passes = [] ∧ (t.coreAt c).now.occ = a.occ - 1
          ∧ (t.coreAt c).now.z = (a.landPass p.z p.acc p.spec p.input).z ∧ (t.coreAt c).now.zf = (a.landPass p.z p.acc p.spec p.input).zf
          ∧ (t.coreAt c).now.s = a.s ∧ SameMem s t)
    ∧ (∀ n, s.opAt n = none → Becomes (.mrdLanding c n) s (s.readLands c)
        ∧ ∀ r, a.reads = [r] → r.remain ≤ 1 → r.dst.clus = false → r.rows ≤ r.dst.rows → r.rbytes ≤ r.dst.rb → a.pw = [] →
          let b := ((s.readLands c).coreAt c).now
          let here (n i j : Nat) : Prop := i < r.rows ∧ j < r.rbytes ∧ n = r.dst.privAddr i j
          b.reads = [] ∧ b.mport = a.mport - 1 ∧ (∃ l, b.fly = a.fly ++ [l] ∧ l.w = .dom r.t r.spectral)
            ∧ (∀ n i j, here n i j → rdByte b.landPriv.priv n = rdByte r.data (rowKey i j))
            ∧ (∀ n, (∀ i j, ¬ here n i j) → rdByte b.landPriv.priv n = rdByte a.priv n))
    ∧ Becomes (.xStepLanding c) s (s.xLands c)
    ∧ (∀ x p row lo bs, a.xs = [x] → x.pend = [p] → p.remain ≤ 1 → p.fault = none → x.reads ≤ x.age + 1 → x.dst.clus = false →
        p.writes = [(row, lo, bs)] → row < x.dst.rows → lo + bs.length ≤ x.dst.rb → a.pw = [] →
        ∃ t, Becomes (.xStepLanding c) s t ∧ let b := (t.coreAt c).now
          b.xs = [] ∧ SameMem s t ∧ ∀ n, rdByte b.landPriv.priv n =
            if x.dst.privAddr row lo ≤ n ∧ n < x.dst.privAddr row lo + bs.length then bs.getD (n - x.dst.privAddr row lo) 0
            else rdByte a.priv n)
    ∧ (∃ t, Becomes (.ptsTick c) s t ∧ let k := s.keyOf c
        ((s.contAt k).tick = 15 → (t.contAt k).pts = (s.contAt k).pts + 1 ∧ (t.contAt k).tick = 0)
        ∧ ((s.contAt k).tick ≠ 15 → (t.contAt k).pts = (s.contAt k).pts ∧ (t.contAt k).tick = (s.contAt k).tick + 1)
        ∧ (∀ j, j ≠ k → t.contAt j = s.contAt j) ∧ t.cores = s.cores ∧ SameMem s t))
  ∧ (∀ (s : State) (o : Op) (c : Nat), s.opAt o.id = some o → o.kind = .readout → o.faulted = false → s.tileBlocked o = false →
      s.pathBlocked o o.tilePcs = false → s.tentTile o.core o.tile = none → s.onItsCore o = true →
      Becomes (.mrdLanding c o.id) s (s.tileRun o)
      ∧ ∀ g z t y mx rows n sp, o.instr = .mrd g z t y mx → o.st = [rows, n, sp] → o.tile.clus = true →
        s.clusOk o.core o.mc o.bind o.tile = true → 256 * o.tile.base.toNat + (o.tile.rows + 15) / 16 * o.tile.rs ≤ 2 ^ 19 →
        (∃ u, Becomes (.mrdLanding c o.id) s u
          ∧ StoresUnit s u o (fun a => (a.wrCounted o.slot o.seq (.dom t (sp == 1))).dec .tlo))
        ∧ o.tileWrites = (List.range rows).flatMap (fun i => (List.range ((n + 63) / 64)).map (fun j =>
            (i, 64 * j, cutBytes o.dat (i * n + 64 * j) (min 64 (n - 64 * j))))))
  ∧ (∀ (s : State) (n : BitVec 4), ∃ t, Issues (.emptyBundle n) s t ∧ t.core.bsk = n.toNat ∧ t.arch = s.arch ∧ SameMem s t)

/-- The completions of SUSP and RETIRE once their delay cycle has passed and nothing is in flight, and the checkpoints of a core: the
checkpoint holds the registers as they are, and no byte of memory is tentative after it. A forced checkpoint is taken for an awaited line;
that it may be taken at any tentative byte, as if the undo store of a slice were full, is log 148. -/
def Obligations.SuspensionsAndCheckpoints : Prop :=
  ∀ (s : State) (c : Nat) (b : VAddr) (l : Bool), (s.coreAt c).running = true →
    let x := s.coreAt c
    let k := s.keyOf c
    (∀ desc wkind wid wt d, x.now.xfer = some ⟨.susp desc wkind wid wt (some d), b, true, l⟩ → x.now.quiet = true → x.now.fences = [] →
      s.frameAsleep x.mc x.fslot = false →
      let s1 := s.shepUp.suspFrame c d.resume d.amask d.smask d.vmask wkind wid wt.toNat
      let s2 := s1.onCont k (fun y => { y with
        frozen := false, statp := some d.statp, wkind := wkind, wid := wid, wtarget := wt, werr := false, recIds := [], more := [],
        ops := [], skip := false, handlerInfo := 0 })
      Becomes (.suspFrameWrite c) s ((s2.shepUp.releaseCore c).suspState k wkind wid wt))
    ∧ (x.now.xfer = some ⟨.retire, b, true, l⟩ → x.now.quiet = true → s.opsOf x.mc x.fslot = [] →
      Becomes (.retireComplete c) s
        ((((x.now.handles.foldl (fun t e => t.tfree c (BitVec.ofNat 8 e.1)) s).releaseCore c).contFree k).reapClus (clusterOfCore c)))
    ∧ (∀ u : State, (u.contFree k).contAt k = {})
    ∧ (x.commit = true ∨ x.now.ckpti.toNat ≤ x.sinceCk ∨ 1024 < x.undoPriv.length → Becomes (.checkpointInterval c) s (s.checkpoint c))
    ∧ (x.forced = true ∨ x.undo ≠ [] → Becomes (.forcedCheckpoint c) s (s.checkpoint c))
    ∧ (let y := (s.checkpoint c).coreAt c
       y.saved = x.now ∧ y.now = x.now ∧ y.undo = [] ∧ y.sinceCk = 0 ∧ y.commit = false ∧ y.forced = false ∧ SameMem s (s.checkpoint c)
       ∧ ∀ d, d ≠ c → (s.checkpoint c).coreAt d = s.coreAt d)

/-! ## Engines -/

/-- The next piece of work of a waited pass, of a C command and of a Q command that its core holds; the end of a RING that has waited for
RINGTO without a match; the blocks that the allocator grants, and takes back. A CSEG of no bytes ends at once with status 0, and a SQLEN
whose handle checks gives the length: the command is gone, its counter falls and its register holds its result. Blocks that go back to the
allocator: a block that is not poisoned leaves its pool; a granted block in which an error is found is marked poisoned, and a partition's
sequences are gone through. The writers of tentative bytes among the sequences that are accessed take their checkpoints first (log 52); that
a failed check of a handle against an absent partition is its first failing reason, and which steps access an entry once, is log 123; a
refusal for want of a free number is log 146. -/
def Obligations.EngineSteps : Prop :=
  (∀ (s : State) (o : Op), s.opAt o.id = some o → o.faulted = false →
    let lands (t : State) (x : SReg) (v : Word) (k : Ctr) : Prop := t.opAt o.id = none ∧ SameMem s t
      ∧ (t.coreAt o.core).now = ((s.coreAt o.core).now.wrCounted o.slot o.seq (.s x v)).dec k
    (∀ w, o.kind = .waited → o.waited = some w → w.phase = .share → o.asleep = false → s.onItsCore o = true →
      (∀ p ∈ s.ops, p.kind = .waited → p.core = o.core → o.id ≤ p.id) → Becomes (.waitedPassComplete o.id) s (s.waitedRun o)
        ∧ ((s.coreAt o.core).now.occ = 0 → w.began = true → (s.coreAt o.core).now.passes = [] →
            Becomes (.waitedPassComplete o.id) s (s.waitedEnd o w)))
    ∧ (o.kind = .copy → o.asleep = false → s.onItsCore o = true → Becomes (.cCommandComplete o.id) s (s.copyRun o)
        ∧ ∀ g x y w nw, o.instr = .cseg g x y w nw → s.committed o = true → o.aux = 1 → o.x.getD 2 0 = 0 →
            ∃ t, Becomes (.cCommandComplete o.id) s t ∧ lands t w 0 .cpo)
    ∧ (o.kind = .seq → s.onItsCore o = true → Becomes (.qCommandComplete o.id) s (s.seqRun o)
        ∧ ∀ g x y rl e, o.instr = .sqlen g x y rl → s.committed o = true → o.aux = 1 → o.st = [] → s.seqClear (s.seqPartNo o) = s →
            s.handleCheck o o.seqHandle = .ok e →
            ∃ t, Becomes (.qCommandComplete o.id) s t ∧ lands t x (BitVec.ofNat 64 ((if rl = 1 then e.rl else e.cl) % 2 ^ 32)) .sqo)
    ∧ (∀ g x y w t, o.kind = .copy → o.instr = .ring g x y w → o.asleep = false → s.onItsCore o = true → s.msgOf o = none →
      s.ringLate o = (.ok true, t) → Becomes (.ringTimeout o.id) s (t.ringBreak o))
    ∧ (∀ size b l, o.kind = .seq → o.st = 4 :: size :: 0 :: b :: l → (s.clusterAt (clusterOfCore o.core)).blocks.length + l.length ≤ 64 →
      (∀ n ∈ l, s.blkBad (s.seqPartNo o) n = false) →
      ∃ t u : State, Becomes (.blockGrantAnswer o.id) s t ∧ t = u.setOp { o with got := o.got ++ [b], st := [] } ∧ u.ops = s.ops
        ∧ (u.clusterAt (clusterOfCore o.core)).blocks
            = (s.clusterAt (clusterOfCore o.core)).blocks ++ l.map (fun n => (s.seqPartNo o, n, size)))
    ∧ (∀ size st l, o.kind = .seq → o.st = 4 :: size :: st :: l → st ≠ 0 →
      Becomes (.blockGrantAnswer o.id) s (s.setOp { o with st := [5, st] }))
    ∧ (∀ size : Nat, o.kind = .seq → o.st = [3, size] → (∀ p ∈ s.ops, p.kind = .seq → p.st = [3, size] → p = o) →
      let q := clusterOfCore o.core
      let part := s.seqPartNo o
      let n := min 8 (1 + (64 - (s.clusterAt q).blocks.length))
      let p := s.partAt part
      let full : Prop := p.active = false ∨ p.blockQ ≤ p.blockU
      (∀ l u, (s.seqClear part).grantMany part size n = (l, u) →
        (full → Becomes (.grant q part size n) s (u.setOp { o with st := 4 :: size :: 3 :: l }))
        ∧ (¬ full → Becomes (.grant q part size n) s (u.setOp { o with st := 4 :: size :: (if l = [] then 4 else 0) :: l })))
      ∧ ∀ t : State, ((t.partAt part).active = false ∨ (t.partAt part).blockQ ≤ (t.partAt part).blockU) →
          t.grantMany part size n = ([], t)))
  ∧ (∀ (s : State) (q part blk : Nat) (e size : Nat),
    (let k := s.clusterAt q
     (part, blk, size) ∈ k.rets →
       Becomes (.returnBlocks q part [blk]) s
         (((s.setCluster q { k with rets := k.rets.filter (fun x => !(x.1 == part && x.2.1 == blk)) }).seqClear part).returnBlk part blk))
    ∧ (let p := s.partAt part
       p.seqAddr (p.btBase.toNat + 16 * blk) = .ok e → rdNum s.mem (e + 9) 1 ≠ 3 →
         ((s.returnBlk part blk).partAt part).blockU = p.blockU - 1
         ∧ (s.stackFenced (e + 9) = false → rdByte (s.returnBlk part blk).mem (e + 9) = 0))
    ∧ Becomes (.blockPoison part blk) s ((s.seqClear part).poisonBlk part blk)
    ∧ (∀ b, let u := s.putBlk (s.partAt part) blk none 3 b.refs
        s.blkAt (s.partAt part) blk = .ok b → blk < (s.partAt part).btN.toNat →
        ((b.state = 0 ∨ b.state = 3) → s.poisonBlk part blk = s)
        ∧ (b.state ≠ 0 → b.state ≠ 3 → (∀ x ∈ u.clusters, ∀ y ∈ x.2.blocks, ¬ (y.1 = part ∧ y.2.1 = blk)) →
            s.poisonBlk part blk = u))
    ∧ (let t := s.seqClear part
       Becomes (.sequencePoisoning part) s ((List.range (t.partAt part).htN.toNat).foldl (fun u i => u.poisonSeq part i) t)))

/-- The Fold: an MMULW arrives two cycles after its issue at the earliest, with a tensor stationary in the cycle after its translation; a pin
is granted to the next group of its array, a group becomes due by its deadline, starts when its array is free and its stationary pinned, and
lands at the end of the cycle in which its latency has passed: the accumulator of its member takes the product. A pass that fails within its
occupancy, once its rows stream (log 58), runs once more, and a second failure is a contained error. Which group of an array is next while
due groups wait for one another is log 72, and the order of a group that is forced within a cycle is log 142. -/
def Obligations.FoldSteps : Prop :=
  (∀ (s t : State) (o : Op) (w : Waited) (k : List Nat × (Nat × Nat)),
    let cyc := (s.clusterAt (clusterOfCore o.core)).cyc
    s.opAt o.id = some o → o.kind = .waited → o.waited = some w → w.phase = .coming → o.faulted = false →
    (o.kind0 = false → w.arrive = none → o.asleep = false → s.statKey o = (.ok k, t) →
      Becomes (.foldArrival o.id) s (t.setOp (o.withKey k (some (cyc + 1)))))
    ∧ (∀ n, o.kind0 = false → w.issued + 2 ≤ n → (∀ a, w.arrive = some a → a ≤ n → s.foldTry o n = s.foldArrive o n)
        ∧ (w.arrive = none → s.foldTry o n = s))
    ∧ (∀ n, o.kind0 = true → w.issued + 2 ≤ n → s.statKey o = (.ok k, t) → s.foldTry o n = t.foldArrive (o.withKey k (some n)) n)
    ∧ (∀ n, n < w.issued + 2 → s.foldTry o n = s))
  ∧ (∀ (s : State) (pen : Nat) (g : FGroup), let cyc := (s.clusterAt (pen / 4)).cyc
    (s.foldNext pen = some g → g.pinned = false → s.pinRoom g.lines = true → s.pinAhead (pen / 4) (g.ready.getD cyc) = false →
      Becomes (.pinGrant pen g.id) s (s.onGroups pen (fun x => if x.id = g.id then { x with pinned := true } else x)))
    ∧ (s.penOfGroup g.id = some pen → (s.penAt pen).groups = [g] → g.due = none → g.rows ≠ 128 → g.solo = false → g.forced = false →
        (∃ m ∈ g.members, m.deadline ≤ cyc) →
        ∃ t, Becomes (.foldDeadline g.id) s t ∧ (t.penAt pen).groups = [{ g with due := some cyc }]
          ∧ SMap.get 0 (t.penAt pen).stats 48 = satInc (SMap.get 0 (s.penAt pen).stats 48) 1)
    ∧ (s.foldNext pen = some g → s.arrayBusy pen cyc = false → g.pinned = true →
        (s.blockedBy g ((s.waiting (pen / 4)).map (·.2)) = false ∨ s.foldStuck (pen / 4) = true) →
        ∃ t, Becomes (.foldGroupStart pen) s t
          ∧ (∀ x ∈ (t.penAt pen).groups, x.id = g.id → x.started = some cyc ∧ x.height = g.rows)
          ∧ (t.penAt pen).groups.map (·.id) = (s.penAt pen).groups.map (·.id))
    ∧ (s.penOfGroup g.id = some pen → (s.penAt pen).groups.find? (·.id == g.id) = some g → g.landAt = some cyc → s.endingCl = some (pen / 4) →
        Becomes (.foldSplit g.id) s (s.foldSplit pen g)
        ∧ ∀ o m, (s.penAt pen).groups = [g] → g.members = [m] → m.op = o.id → g.retried = false → s.ops = [o] → o.kind = .waited →
            (∀ e ∈ s.cores, e.2.undo = []) → s.onItsCore o = true → s.waitedTrap o = none →
            ∃ t, Becomes (.foldSplit g.id) s t ∧ t.opAt o.id = none ∧ (t.penAt pen).groups = [] ∧ SameMem s t
              ∧ (t.coreAt o.core).now = ((s.coreAt o.core).now.landPass o.zdest.1 o.zdest.2 false
                  (productOf s o g.key (s.statTable (pen / 4) g.key).1)).dec .tlo)
    ∧ (∀ s0, s.groupHolding (fun x => x.id == g.id && x.started.isSome) = some (pen, g) → g.started = some s0 → s0 ≤ cyc →
        s.arrayBusy pen cyc = true →
        (cyc < s0 + 64 → Becomes (.foldPassRetry g.id) s s)
        ∧ (s0 + 64 ≤ cyc → g.retried = false → Becomes (.foldPassRetry g.id) s
          (s.onGroups pen (fun x => if x.id = g.id then { x with started := some (s0 + 64 + g.height), retried := true } else x)))
        ∧ (s0 + 64 ≤ cyc → g.retried = true → Becomes (.foldPassRetry g.id) s (s.foldContained pen g))))

/-! ## Freezes, handlers, check failures -/

/-- A freeze that has been decided is taken at a boundary at which every core of the binding that it takes stands; its continuations run
again when their carried accesses are done; an idle core takes the first RUNNABLE continuation of its stage; a late fault traps at a
boundary; a program cause gets a handler in the lowest free frame slot, and without one is delivered as a system cause. That a freeze waits
for the boundary of every core of the binding is log 56; a freeze with members in the Fold is taken when the cycle of its boundary has ended
(R291); the wait for a frame that migrates is log 137; an idle core and the order of its continuations is log 132, the handler that finds no
free slot, or whose accesses wait, log 75. -/
def Obligations.FreezesAndResumes : Prop :=
  ∀ (s : State) (c : Nat), let x := s.coreAt c
    (x.running = true → x.freeze ≠ .none →
      let cs := (s.cores.filter (fun e => e.2.running && e.2.mc == x.mc && e.2.bind == x.bind && e.2.freeze != .none
        && !e.2.now.finishing && e.2.late.isEmpty && e.2.stop.isNone)).map (·.1)
      ((∀ d ∈ cs, s.freezeWaits d = false ∧ s.frameOff d = false) → Becomes (.freeze c) s (cs.foldl (fun s d => s.freezeDecided d) s))
      ∧ ((∃ d ∈ cs, s.freezeWaits d = true) → Becomes (.freeze c) s s)
      ∧ ((∀ d ∈ cs, s.freezeWaits d = false) → (∃ d ∈ cs, s.frameOff d = true) →
          ∃ t, Becomes (.freeze c) s t ∧ t.cores = s.cores ∧ t.conts = s.conts ∧ SameMem s t))
    ∧ (s.foldPending c = false → s.freezeDecided c = s.freezeOne c)
    ∧ (s.foldPending c = true → let t := s.freezeDecided c
        (t.coreAt c).stop = x.stop.or (some (x.cyc, .freeze)) ∧ (t.coreAt c).running = x.running ∧ (t.coreAt c).now = x.now ∧ SameMem s t)
    ∧ (let t := s.freezeOne c
       let y := t.contAt (s.keyOf c)
       (t.coreAt c).running = false ∧ y.frozen = true ∧ y.settling = true ∧ y.preempted = true ∧ y.home = c)
    ∧ (∀ k y, s.conts.filter (fun e => e.2.settling && e.2.home == c) = [(k, y)] →
        let t := s.carriedDone k
        Becomes (.freezeComplete c) s ((t.binds.filter (fun e => e.2.pre && e.2.clusters.contains (clusterOfCore c))).foldl
          (fun u e => u.groupFree e.1) t))
    ∧ (∀ b, let y := s.bindAt b
        y.live = true → y.pre = true → (∀ e ∈ s.cores, ¬ (e.2.running = true ∧ e.2.bind = b)) →
        let t := ((y.pens.flatMap id).foldl (fun u p => u.foldRehost p) s).onBind b (fun z => { z with held := false, pre := false, pens := [] })
        s.groupFree b = (t.selectAt (t.frozenWork b)).decideMc y.mc false)
    ∧ (∀ (o : Op), s.opAt o.id = some o → o.carried = true → o.kind = .scalar →
        (∃ u, Becomes (.scalarAccessComplete o.id) s u ∧ Becomes (.carriedAccessComplete o.id) s (u.carriedDone (contKey o.mc o.fslot)))
        ∧ ∀ n pa s', scAct o.instr = some (.store n) → o.faulted = false → o.wait = none → s.scalarEarlier o = false →
          (o.rel = true → s.stillLive o o.after = false) → s.destAsleep o = false → n ≠ 0 → o.x.getD 0 0 % n = 0 → pa % 64 + n ≤ 64 →
          s.xlateDo (s.agent o) o.mc o.id (o.x.getD 0 0) .write = (.ok false pa, s') → s.tentative o.core none pa n = none →
          s.poisoned pa n = false →
          ∃ u, Becomes (.carriedAccessComplete o.id) s (u.carriedDone (contKey o.mc o.fslot)) ∧ u.opAt o.id = none
            ∧ Stored s' u pa n (o.x.getD 1 0))
    ∧ (∀ b st k r, x.running = false → s.noBinding = false → s.idlePlace c = some (b, st) → s.waitingConts b st = k :: r →
        Becomes (.continuationResume c) s (s.startOn c k))
    ∧ (∀ l, firstLate x.late = some l → x.running = true → Becomes (.lateFault c) s (s.takeTrapOf c l.slot l.trap (some l)))
    ∧ (∀ (h : HandlerReq) (r : List HandlerReq), s.handlers = h :: r →
        let u : State := { s with handlers := r }
        let y := s.contAt (contKey h.mc h.fslot)
        (s.freeSlot h.mc = none → Becomes .handlerCreation s
          (u.trapEvent h.mc h.fslot h.info h.resume { cause := h.info.toNat % 128, reason := 0, va := h.va }))
        ∧ (∀ fs, s.freeSlot h.mc = some fs → (s.mcAt h.mc).state = .halted → Becomes .handlerCreation s { s with handlers := r ++ [h] })
        ∧ (∀ fs, s.freeSlot h.mc = some fs → (s.mcAt h.mc).state ≠ .halted →
            let v := (s.contReach h.mc fs).shepReach h.mc .read (s.frameVa h.mc h.fslot + 272) 2 16
            (v.shepDown ≠ none → Becomes .handlerCreation s { v.shepUp with handlers := r ++ [h] })
            ∧ (v.shepDown = none →
                let w : State := { v with handlers := r }
                Becomes .handlerCreation s
                  (((w.newCont h.mc y.bind fs y.stage (w.mcAt h.mc).handler.toNat h.fslot h.info.toNat (w.frameNum h.mc h.fslot 272 16)).shepUp.onCont
                    (contKey h.mc fs) (fun z => { z with pts := y.pts, handlerInfo := h.info })).makeRunnable (contKey h.mc fs)))))

/-- Check failures. A core that fails a check takes the state of its last checkpoint and executes again, until the cycle in which the
failure would have landed; a second failure is contained, and a trap or a freeze before that cycle records the first as corrected. A failure
of memory poisons its unit, one of an accumulator, of PRIV or of L2 data the unit of 64 bytes there; one of an operation's engine reaches the
operation. A parity failure of the L1 drops a line, one of a translation buffer an entry. A fatal error stops the device, with its record in
the bank. When a re-execution is over is log 107, which units a contained error poisons log 105, the unit and the bank of a source logs 136
and 151. -/
def Obligations.CheckFailures : Prop :=
  ∀ (s : State) (c source n : Nat), let x := s.coreAt c
    (source = 1 ∨ source = 2 ∨ source = 3 ∨ source = 7 ∨ source = 9 → x.running = true →
      (x.retry = none → ∃ t, Becomes (.rollback c source) s t ∧ (t.coreAt c).now = { x.saved with stall := x.saved.stall.rolled }
        ∧ (t.coreAt c).undo = [] ∧ (t.coreAt c).stop = none
        ∧ (t.coreAt c).retry = some (x.cyc + x.sinceCk) ∧ (t.coreAt c).retrySrc = source ∧ (t.coreAt c).running = true)
      ∧ (x.retry ≠ none → Becomes (.rollback c source) s (s.containedCore c source)
        ∧ Becomes (.containedError c source n) s (s.containedCore c source)))
    ∧ (∀ st : Stall, st.rolled = match st with | .waitf _ _ _ none => .none | y => y)
    ∧ (rollsBack source = false → Becomes (.rollback c source) s ((s.dropFailed c source).coreError c source 1 x.mc))
    ∧ (∃ i, ((s.dropFailed c 4).coreAt c).l1 = x.l1.eraseIdx i ∧ (x.l1 ≠ [] → i < x.l1.length))
    ∧ (∀ e, (∀ d, d ∈ s.tlb.filter (fun d => d.op == 0 && d.cl == clusterOfCore c && (d.core == none || d.core == some c)) ↔ d = e) →
        ∀ d, d ∈ (s.dropFailed c 5).tlb ↔ d ∈ s.tlb ∧ d ≠ e)
    ∧ (source ≠ 4 → source ≠ 5 → (s.dropFailed c source).cores = s.cores ∧ (s.dropFailed c source).tlb = s.tlb)
    ∧ ((s.retryOver c).coreAt c = { x with retry := none, retrySrc := if x.retry = none then x.retrySrc else 0 }
        ∧ (x.retry ≠ none → (SMap.get {} (s.retryOver c).banks (bankAt x.retrySrc c)).valid = true))
    ∧ (source = 15 ∨ source = 16 → ∃ t, Becomes (.containedError c source n) s t
        ∧ (SMap.get {} t.banks (bankOf source (ownerDie (64 * n)))).valid = true
        ∧ (s.pools = [] → ∀ m, m ∈ t.poison ↔ m = n ∨ m ∈ s.poison)
        ∧ (∀ part pool b, s.pools = [(part, some pool)] → pool.blocks = [b] → (s.partAt part).privBase.toNat + b.2.1 ≤ 64 * n →
            64 * n < (s.partAt part).privBase.toNat + b.2.1 + 2 ^ b.2.2 →
            t.mem = ({ s with poison := if s.poison.contains n then s.poison else n :: s.poison }.poisonBlk part b.1).mem))
    ∧ (source = 11 → 2 ^ 23 ≤ n → ∃ t, Becomes (.containedError c source n) s t
        ∧ (SMap.get {} t.banks (bankOf 11 (lineHome (n - 2 ^ 23) / 12))).valid = true
        ∧ (s.pools = [] → ∀ m, m ∈ t.poisonL2 ↔ m = n - 2 ^ 23 ∨ m ∈ s.poisonL2))
    ∧ (source = 8 ∨ source = 10 ∨ source = 11 → (source = 11 → n < 2 ^ 23) → ∃ t, Becomes (.containedError c source n) s t
        ∧ (∀ m, m ∈ (t.coreAt c).now.badAcc ↔ (source = 8 ∧ x.running = true ∧ m = n / 64) ∨ m ∈ x.now.badAcc)
        ∧ (∀ m, m ∈ (t.coreAt c).now.badPriv ↔ (source = 10 ∧ x.running = true ∧ m = n / 64) ∨ m ∈ x.now.badPriv)
        ∧ (∀ m, m ∈ (t.clusterAt (clusterOfCore c)).bad ↔ (source = 11 ∧ m = n / 64) ∨ m ∈ (s.clusterAt (clusterOfCore c)).bad)
        ∧ (SMap.get {} t.banks (bankOf source (dieOfCore c))).valid = true)
    ∧ (∀ o, source = 6 ∨ source = 12 ∨ source = 13 ∨ source = 14 → s.opAt n = some o → o.faulted = false →
        Becomes (.containedError c source n) s (s.opContained c source o))
    ∧ (∀ unit bank, ∃ t, Becomes (.fatalError bank source unit) s t ∧ t.phase = .fatal
        ∧ let b := SMap.get {} t.banks (bank % 40)
          b.valid = true ∧ ((SMap.get {} s.banks (bank % 40)).valid = false →
            b.sev = 3 ∧ b.source = BitVec.ofNat 8 source ∧ b.unit = BitVec.ofNat 16 unit))

/-! ## Packets -/

/-- A packet that parses, finds its micro-context and is taken into a buffer: a request is appended to the request ring, a message of
TYPE 2 or 3 meets its receive, TYPE 4 breaks its ring's revolution, TYPE 5 and 6 go to the Carder; a message that has waited for RINGTO
is discarded and its buffer returns. Which order the checks of a packet come in, and that one that fails them is discarded with its buffer
given back, is log 74. -/
def Obligations.PacketsReceived : Prop :=
  ∀ (s s1 s2 : State) (p : Packet) (mc buf : Nat) (pool : RxPool), s.quiesced = false →
    (s.mcByFunc p.func = some mc → s.receive mc p = (some (buf, pool), s1) →
      let rid := p.rid.toNat
      (packetParses p 0 = true → s1.append mc buf p.len.toNat p.port rid none = (.ok (), s2) → Becomes (.requestPacketReceive p) s s2)
      ∧ (packetParses p 2 = true → Becomes (.peerMessageReceive p) s (s1.meet mc 2 rid buf p.len.toNat pool.nbuf))
      ∧ (packetParses p 3 = true → SMap.get 0 (s1.mcAt mc).ringNew (bitsOf rid 32 16) = 0 → s1.oldestPosted mc 3 (ringRid rid) = none →
          Becomes (.ringStepReceive p) s (s1.meet mc 3 (ringRid rid) buf p.len.toNat pool.nbuf))
      ∧ (packetParses p 4 = true → ∃ u : State, Becomes (.ringBreakReceive p) s (u.dropBroken mc (bitsOf rid 32 16) (bitsOf rid 16 16))
          ∧ (bitsOf rid 32 16, bitsOf rid 16 16) ∈ (u.mcAt mc).broken))
    ∧ (∀ img pt, packetParses p 5 = true ∨ packetParses p 6 = true → s.image = some img →
        gcmOpen img.fabric p.nonce.toNat (packetAad p) p.ct p.tag.toNat = some pt →
        Becomes (.segmentPageMessage p) s { s with carderIn := s.carderIn ++ [(p.typ.toNat, pt)] })
    ∧ (∀ u : Unexp, s.rxPool mc 0 = (.ok pool, s1) → (s1.mcAt mc).unexp = [u] → u.to' = none →
        u.at' + 100000 * pool.ringto ≤ s1.rtc.toNat →
        Becomes (.unexpectedMessageExpiry mc) s ((s1.onMc mc (fun m => { m with unexp := [] })).giveBuf mc u.buf))

/-! ## The Shepherd -/

/-- The Shepherd: at a moment of selection the micro-context of the least pass gets the free placement that is found first; a reservation
becomes a binding, launched at once or after the freeze of its holders; a frozen binding takes a placement again, those of its continuations
first that ran when it was pre-empted, in one cycle and once none of them has carried accesses outstanding; slices and NP end by the clock; a
binding whose last continuation is gone ends. A placement takes free pens of the units that are present, and what can be placed depends on
those units alone. While a continuation waits, its binding does not end and its slot is not taken, in a cycle of waits as in any other.
The selection's candidates are log 81, the cores that a rebinding starts its continuations on log 117, and the time that NP counts from log
118. -/
def Obligations.ShepherdSteps : Prop :=
  (∀ (s : State) (h : Shape),
    (∀ pl, s.placeFree h = some pl → pl.length = h.stages ∧
      ∀ e ∈ pl, ∀ p ∈ e.2, s.penPresent p = true ∧ s.holderOf p = none ∧ s.penReserved p = false)
    ∧ (∀ t : State, t.units = s.units → t.placeable h = s.placeable h)
    ∧ (∀ m, s.selectable m = true → ∃ w, s.nextWork m = some w ∧ s.placeable (s.shapeOf m w) = true))
  ∧ (∀ (s : State) (k b : Nat), (s.contAt k).state = .waiting →
    (k / 4096 = (s.bindAt b).mc → (s.contAt k).bind = b → Becomes (.bindingEnd b) s s)
    ∧ (∀ fs, s.freeSlot (k / 4096) = some fs → fs ≠ k % 4096)
    ∧ (∃ t, Becomes (.sliceEnd b) s t ∧ t.contAt k = s.contAt k))
  ∧ ∀ (s : State), s.noBinding = false →
    (s.selDue ≠ 0 → ∀ y w pl, s.selected = some y → s.nextWork y = some w → s.placeFree (s.shapeOf y w) = some pl →
      Becomes .shepherdSelect s { s with selDue := s.selDue - 1, reserves := s.reserves ++ [⟨y, w, pl.map (·.1), pl.map (·.2)⟩] })
    ∧ (s.selDue = 0 → Becomes .shepherdSelect s s)
    ∧ (∀ r rest, s.reserves = r :: rest → s.resFreezing r = true →
      (r.rebind = none → (s.mcAt r.mc).state ≠ .halted → (s.mcAt r.mc).state ≠ .free → s.nextWork r.mc = some none →
        (s.resFree r = true → ((s.bindNew r).bindAt s.nextBind).live = true →
          Becomes .newBinding s ((s.bindNew r).launch s.nextBind r))
        ∧ (s.resFree r = false ∨ ((s.bindNew r).bindAt s.nextBind).live = false → Becomes .newBinding s (s.bindNew r)))
      ∧ (∀ b, r.rebind = some b → s.resFree r = true → (s.mcAt r.mc).state ≠ .halted →
        ((s.bindAt b).launching = true → Becomes .bindingLaunchAfterFreeze s (s.launch b r))
        ∧ ((s.bindAt b).live = true → (s.bindAt b).launching = false → (s.bindAt b).held = false →
            let l := s.rebindCores b r
            let u := s.groupReach b (l.map (·.2))
            (s.settles b = true → rest = [] → Becomes .rebinding s s)
            ∧ (s.settles b = false → u.shepDown ≠ none → Becomes .rebinding s u.shepUp)
            ∧ (s.settles b = false → u.shepDown = none →
                Becomes .rebinding s ((l.foldl (fun t e => t.startOn e.1 e.2) (u.hold b r)).decideMc r.mc false)))))
    ∧ (∀ b, let x := s.bindAt b
      (x.live = true → x.held = true → x.pre = false → x.sliceAt + 1000 * s.slice.toNat ≤ s.rtc.toNat →
        let t := ((s.charge b).onBind b (fun y => { y with sliceAt := s.rtc.toNat })).selectAt true
        (t.wantedBy b = none → Becomes (.sliceEnd b) s t)
        ∧ (t.wantedBy b ≠ none → t.npHeld b = false → Becomes (.sliceEnd b) s (t.preempt b)))
      ∧ (x.live = true → x.held = true → x.boundat + 10000 * (s.mcAt x.mc).npmax.toNat ≤ s.rtc.toNat →
        let t := s.onBind b (fun y => { y with npOver := true })
        t.wantedBy b = none → Becomes (.npExpiry b) s t)
      ∧ (s.bindDone b = true → ∃ t, Becomes (.bindingEnd b) s t ∧ t.bindAt b = {}))

/-! ## Segments -/

/-- Shared segments: a manifest or a page that matches its hash is taken, one that does not makes the segment FAILED, a page only when it
fails twice; the Carder requests the page asked for first, else the first of ORDER; an access that has waited for SEGWAIT takes SEG_WAIT; a
DRAINING segment without pinned lines becomes FREE and keeps its generation, and no memory but its frames changes. -/
def Obligations.SegmentSteps : Prop :=
  ∀ (s : State) (n : Nat), let g := s.segAt n
    (g.state = 1 → s.quiesced = false →
      (∀ bytes, g.manifest = false →
        (∀ pages size place order phash, sha512Num bytes = g.hash → manifestOf bytes = some (pages, size, place, order, phash) →
          Becomes (.manifestRead n bytes) s ((s.setSeg n { g with
            manifest := true, pages := pages, size := size, place := place, order := order, phash := phash }).carderAsk n))
        ∧ (sha512Num bytes ≠ g.hash → ∃ t, Becomes (.manifestRead n bytes) s t ∧ (t.segAt n).state = 3))
      ∧ (∀ page data, g.manifest = true → page < g.pages → page ∉ g.present → page ∈ g.flight →
        let d := g.pageData page data
        ((sha512Num d).toNat = g.phash.getD page 0 →
            let u := s.commitAll ((g.regs.filter (·.page == page)).map (fun r => (r.addr, 8)))
            Becomes (.carderPageArrival n page data) s ((u.pageIn n page d).carderAsk n)
            ∧ SameMem s u ∧ ∀ d < 4096, (u.coreAt d).undo.all (fun x => x.clus.isSome || (g.regs.filter (·.page == page)).all (fun r =>
                decide (x.addr < r.addr / 64 * 64) || decide ((r.addr + 71) / 64 * 64 ≤ x.addr))) = true)
        ∧ ((sha512Num d).toNat ≠ g.phash.getD page 0 → page ∉ g.again →
            Becomes (.carderPageArrival n page data) s (s.setSeg n { g with again := page :: g.again }))
        ∧ ((sha512Num d).toNat ≠ g.phash.getD page 0 → page ∈ g.again →
            ∃ t, Becomes (.carderPageArrival n page data) s t ∧ (t.segAt n).state = 3))
      ∧ (∀ p, g.nextPage = some p → g.flight = [] → p ∈ ((s.carderAsk n).segAt n).flight))
    ∧ (∀ (o : Op) (w : Nat), s.opAt o.id = some o → o.wait = some w → o.st.headD 0 = 2 → o.faulted = false → s.onItsCore o = true →
        w + 1000 * s.segwait.toNat ≤ s.rtc.toNat →
        ∃ t l, Becomes (.segWaitExpiry o.id) s t ∧ (t.coreAt o.core).late = (s.coreAt o.core).late ++ [l] ∧ l.cause = 39 ∧ l.reason = 1
          ∧ l.va = BitVec.ofNat 72 (o.st.getD 3 0) ∧ (t.coreAt o.core).now = (s.coreAt o.core).now ∧ SameMem s t)
    ∧ (g.state = 4 → s.allPinned = [] → ∃ t, Becomes (.segmentDrain n) s t ∧ t.segAt n = { gen := g.gen } ∧ (∀ m, m ≠ n → t.segAt m = s.segAt m)
        ∧ (∀ e ∈ t.tlb, ¬ (e.shared = true ∧ bitsOf e.leaf 52 12 = n)) ∧ t.host = s.host
        ∧ ∀ a, (∀ f ∈ g.frames, a / 65536 ≠ f.2 - 1) → rdByte t.mem a = rdByte s.mem a)

/-! ## Registers of the host -/

/-- Writes of the windows: TWAYS, at once on a cluster that holds nothing and otherwise when it does; the states of a control block;
TICKETS, which sets STRIDE, and PARAMVER; the allocation of a fence counter and its end; the commands of CONTCTL. -/
def Obligations.WindowWrites : Prop :=
  ∀ (s : State),
    (∀ q (v : Word), q < 48 →
      let w : BitVec 4 := BitVec.ofNat 4 (min 14 (v.toNat % 16))
      (s.clusterHeld q = false → Becomes (.clcfgWrite 0 q v) s (s.setCluster q { s.clusterAt q with tways := w, pend := none }))
      ∧ (s.clusterHeld q = true → Becomes (.clcfgWrite 0 q v) s (s.setCluster q { s.clusterAt q with pend := some w })))
    ∧ (∀ q w, (s.clusterAt q).pend = some w → s.clusterHeld q = false →
        Becomes (.twaysPendingApply q) s (s.setCluster q { s.clusterAt q with tways := w, pend := none }))
    ∧ (∀ fn mc, mc < 16384 → fn = 0 ∨ ((s.partAt fn).active = true ∧ (s.mcAt mc).part.toNat = fn) → let m := s.mcAt mc
      (m.state = .free → s.installable mc = true →
        ∃ t, Becomes (.mctxWriteIdle fn mc) s t ∧ (t.mcAt mc).state = .idle ∧ (t.partAt m.part.toNat).mctxU = (s.partAt m.part.toNat).mctxU + 1
          ∧ (∀ d, d ≠ mc → t.mcAt d = s.mcAt d) ∧ SameMem s t)
      ∧ (m.state = .halted → ∃ t, Becomes (.mctxWriteIdle fn mc) s t ∧ (t.mcAt mc).state = s.decideTo mc)
      ∧ (m.state = .idle → s.bindsOf mc = [] → ∃ t, Becomes (.mctxWriteHalted fn mc) s t ∧ (t.mcAt mc).state = .halted
          ∧ (∀ d, d ≠ mc → t.mcAt d = s.mcAt d) ∧ t.reserves = s.reserves.filter (·.mc != mc) ∧ SameMem s t)
      ∧ (m.state = .halted → m.conts = 0 → m.rqhead = m.rqtail → m.unexp = [] →
          ∃ t, Becomes (.mctxWriteFree fn mc) s t ∧ (t.mcAt mc).state = .free
            ∧ (t.partAt m.part.toNat).mctxU = (s.partAt m.part.toNat).mctxU - 1 ∧ (∀ d, d ≠ mc → t.mcAt d = s.mcAt d) ∧ SameMem s t)
      ∧ (m.state = .idle → ∀ v, 1 ≤ v → v < 2 ^ 16 → ∃ t, Becomes (.ticketsWrite fn mc v) s t ∧ (t.mcAt mc).tickets = BitVec.ofNat 16 v
          ∧ (t.mcAt mc).stride = BitVec.ofNat 32 (2 ^ 20 / min (v + m.borrow.toNat) (2 ^ 20)) ∧ (t.mcAt mc).state = .idle
          ∧ (∀ d, d ≠ mc → t.mcAt d = s.mcAt d) ∧ SameMem s t)
      ∧ (m.state = .idle → ∀ v, ∃ t, Becomes (.paramverWrite fn mc v) s t ∧ (t.mcAt mc).paramver = v ∧ (t.mcAt mc).tickets = m.tickets
          ∧ (∀ d, d ≠ mc → t.mcAt d = s.mcAt d) ∧ SameMem s t))
    ∧ (∀ n p, n ≤ 65535 → p ≤ 63 →
      ((s.fenceAt n).alloc = false → (s.partAt p).active = true → (s.partAt p).fenceU < (s.partAt p).fenceQ →
        ∃ t, Becomes (.fenceAlloc 0 n p) s t
          ∧ t.fenceAt n = { s.fenceAt n with value := 0, sv := false, signal := 0, alloc := true, owner := BitVec.ofNat 6 p, err := false,
                                             errcnt := 0 }
          ∧ (t.partAt p).fenceU = (s.partAt p).fenceU + 1 ∧ (∀ m, m ≠ n → t.fenceAt m = s.fenceAt m) ∧ SameMem s t)
      ∧ ((s.fenceAt n).alloc = true → ∃ t, Becomes (.fenceFree 0 n) s t ∧ (t.fenceAt n).alloc = false))
    ∧ (∀ fn mc slot, (s.partAt fn).active = true → (s.mcAt mc).part.toNat = fn → slot < (s.mcAt mc).frames.toNat → let k := contKey mc slot
      (s.contAt k).state = .trapped →
        Becomes (.contctlResume fn mc slot) s (s.resumeTrapped k false)
        ∧ Becomes (.contctlSkip fn mc slot) s (s.resumeTrapped k true)
        ∧ Becomes (.contctlAbort fn mc slot) s (s.abortCont k))

/-- Queues and rings: a good descriptor enables its queue, a disable ends it, a doorbell write within the ring is noted, a slot's visit
serves its queue or the oldest pending one, a ring's CTIME signals it, CDROP reads and clears. A notify while a reset of its function is
under way leaves no trace. What a disable lets go, and that an enable keeps the doorbell, is log 89, a TAIL outside the ring log 90, a pending
queue without packets log 91, and the order of the slots log 156. -/
def Obligations.HostQueues : Prop :=
  ∀ (s : State) (fn q : Nat), let f := s.funcAt fn
    let x := s.queueAt fn q
    let a := f.qtbase.toNat + 64 * q
    let u := s.hostAs fn none false a 64
    (q < f.qtn.toNat → s.hostBad a 64 = false →
      (∀ y, queueOf fn (rdBytes s.host a 64) = some y → Becomes (.queueEnable fn q) s (u.setQueue fn q { y with bell := x.bell, pend := x.pend }))
      ∧ (queueOf fn (rdBytes s.host a 64) = none → Becomes (.queueEnable fn q) s ((u.setQueue fn q x.off).setFerr fn 3 q)))
    ∧ (f.qtn.toNat ≤ q → Becomes (.queueEnable fn q) s ((s.setQueue fn q x.off).setFerr fn 3 q))
    ∧ (u.outbox = s.outbox ++ [.link fn none false false a 64] ∧ u.funcs = s.funcs ∧ SameMem s u)
    ∧ (∃ t, Becomes (.queueDisable fn q) s t ∧ (t.queueAt fn q).en = false ∧ (t.queueAt fn q).head = (s.queueAt fn q).head ∧ SameMem s t)
    ∧ (∀ tail relaxed, f.resetting = true → Becomes (.notify fn q tail relaxed) s s)
    ∧ (∀ tail relaxed, f.resetting = false → (s.queueAt fn q).en = true → q < f.qtn.toNat → ¬ (relaxed = true ∧ (s.queueAt fn q).strict = true) →
        (tail - (s.queueAt fn q).head).toNat ≤ 2 ^ (s.queueAt fn q).log →
        Becomes (.notify fn q tail relaxed) s ((s.setQueue fn q { s.queueAt fn q with bell := tail }).setPending fn q))
    ∧ (∀ i, (s.slotDue i = false → Becomes (.pollingSlotVisit i) s s)
        ∧ (s.slotDue i = true → s.quiesced = true → Becomes (.pollingSlotVisit i) s (s.slotDone i))
        ∧ (s.slotDue i = true → s.quiesced = false → Becomes (.pollingSlotVisit i) s ((s.slotDone i).visit i)))
    ∧ (∀ i p, s.slotAt i = some p →
        let has := (s.queueAt p.fn p.queue).avail != 0
        let t : State := { s with slots := SMap.set none s.slots i (some { p with busy := if has then min 4 (p.busy + 1) else 0 }) }
        ((s.slotNp p = true ∨ (has = true ∧ p.busy < 4)) → s.visit i = t.serveQueue p.fn p.queue)
        ∧ (s.slotNp p = false → has = false ∨ 4 ≤ p.busy →
            (∀ e, s.oldestPending = some e → s.visit i = t.serveQueue e.1 e.2) ∧ (s.oldestPending = none → s.visit i = t.serveQueue p.fn p.queue)))
    ∧ (∀ e, s.oldestPending = some e → ∃ n, (n, e.1, e.2) ∈ s.pendingQueues ∧ (s.queueAt e.1 e.2).avail ≠ 0
        ∧ ∀ y ∈ s.pendingQueues, (s.queueAt y.2.1 y.2.2).avail ≠ 0 → n ≤ y.1)
    ∧ (∀ r, let d := SMap.get {} f.rings r
        d.since ≠ 0 → d.ctime ≠ 0 → d.first + 1000 * d.ctime.toNat ≤ s.rtc.toNat →
        Becomes (.ringCtimeExpiry fn r) s ((s.setFunc fn { f with rings := SMap.set {} f.rings r { d with since := 0 } }).sendMsi fn d.vec.toNat))
    ∧ (s.phase = .ready → ∃ t, Becomes (.cdropRead fn) s t ∧ (t.funcAt fn).cdrop = 0 ∧ t.outbox = s.outbox ++ [.reg fn f.cdrop.toNat] ∧ SameMem s t)

/-- Device registers and shootdowns: SLICE and SEGWAIT are held to their ranges, CXLEN is written while no micro-context may work, a page
changes its bias once tentative lines are committed, a shootdown works with the range and scope of its GO and drops the cached entries there,
a reset of a function clears its registers, CXL.mem reads and writes device memory, a register write acts on its block, and what a read from
outside returns leaves the device. What GO of BIASCTL and of SDCTL does while one is under way is logs 97 and 98, the configuration space
log 125, the layout of BAR0 log 135, and a poisoned read log 157. -/
def Obligations.DeviceRegisters : Prop :=
  ∀ (s : State),
    (∀ v : Word32, Becomes (.sliceWrite v) s { s with slice := BitVec.ofNat 32 (max 10 (min 10000 v.toNat)) }
      ∧ Becomes (.segwaitWrite v) s { s with segwait := BitVec.ofNat 32 (max 1 (min 1000000 v.toNat)) }
      ∧ ((∀ e ∈ s.mcs, e.2.state = .free ∨ e.2.state = .halted) → Becomes (.cxlenWrite v) s { s with cxlen := v.getLsbD 0, hostBias := [] }))
    ∧ (∀ page, s.biasGo = false →
        Becomes (.biasFlipToHost page) s { s with biasGo := true, biasDir := true, biasPage := BitVec.ofNat 24 page }
        ∧ Becomes (.biasFlipToDevice page) s { s with biasGo := true, biasDir := false, biasPage := BitVec.ofNat 24 page })
    ∧ (∀ page, s.biasGo = true → Becomes (.biasFlipToHost page) s { s with biasNext := some (true, BitVec.ofNat 24 page) })
    ∧ (s.biasGo = true →
        (s.biasDir = false → ∃ t, Becomes .biasFlipDone s t ∧ t.biasDone = true ∧ t.biasGo = false
          ∧ ∀ p, p ∈ t.hostBias ↔ p ∈ s.hostBias ∧ p ≠ s.biasPage.toNat)
        ∧ (s.biasDir = true → ∃ t, Becomes .biasFlipDone s t ∧ t.biasDone = true
          ∧ t.biasGo = false ∧ ∀ p, p ∈ t.hostBias ↔ p ∈ s.hostBias ∨ p = s.biasPage.toNat))
    ∧ (∀ fn wake, (s.funcAt fn).sdbusy = false → ∃ t, Becomes (.shootdown fn wake) s t ∧ (t.funcAt fn).sdbusy = true
        ∧ (t.funcAt fn).sdwake = wake ∧ (t.funcAt fn).sdNow = ((s.funcAt fn).sdva, (s.funcAt fn).sdpages, (s.funcAt fn).sdmctx, wake)
        ∧ t.tlb = s.tlb ∧ SameMem s t)
    ∧ (∀ fn, (s.funcAt fn).sdbusy = true → (s.funcAt fn).sdNow.2.2.2 = false → s.allPinned = [] →
        ∃ t, Becomes (.shootdownDone fn) s t ∧ (t.funcAt fn).sdbusy = false ∧ (t.funcAt fn).sddone = true ∧ SameMem s t
          ∧ ∀ e, e ∈ t.tlb ↔ e ∈ s.tlb ∧ ¬ (s.sdScope fn e.mc = true ∧ s.sdRange fn e.page = true))
    ∧ (∃ t, Becomes (.functionLevelReset 0) s t ∧ t.funcAt 0 = { resetting := true } ∧ (∀ fn, fn ≠ 0 → t.funcAt fn = s.funcAt fn) ∧ SameMem s t
        ∧ t.mcs = s.mcs ∧ (t.resetDone 0).funcAt 0 = {})
    ∧ (∀ a n bs, s.cxlen = true →
        let u := s.commitLines none a n
        (a + n ≤ stackTop → s.poisoned a n = false →
          Becomes (.cxlMemAccess a none n) s { u with outbox := s.outbox ++ [.cxl (rdBytes s.mem a n)] })
        ∧ (a + n ≤ stackTop → s.poisoned a n = true →
          ∃ t, Becomes (.cxlMemAccess a none n) s t ∧ t.outbox = s.outbox ++ [.poisoned 0] ∧ SameMem s t)
        ∧ (a + bs.length ≤ stackTop → Becomes (.cxlMemAccess a (some bs) n) s ((s.commitLines none a bs.length).putMem 0 a bs).2))
    ∧ (∀ fn (v : Word), fn ≤ 63 →
        Becomes (.registerWrite fn 0 0x18 8 v) s (s.bar0Write fn ⟨0x18, 8, v.toNat⟩)
        ∧ ((s.bar0Write fn ⟨0x18, 8, v.toNat⟩).funcAt fn).qtbase = v)
    ∧ (∀ fn off n r, s.phase = .ready →
        (s.inbox = .configRead fn off :: r → fn ≤ 63 →
          step s = .next { s with inbox := r, outbox := s.outbox
            ++ [.config fn off (Config.configSpace fn off (SMap.get none s.config (fn * 4096 + off % 4096)))] })
        ∧ (∀ v, s.inbox = .configWrite fn off v :: r → fn ≤ 63 →
          let u : State := { s with inbox := r, config := SMap.set none s.config (fn * 4096 + off % 4096) (some (v % 2 ^ 32)),
                                    outbox := s.outbox ++ [.configDone fn off] }
          ∃ t, step s = .next t
            ∧ if Config.startsReset (off % 4096) (v % 2 ^ 32) = true then Becomes (.functionLevelReset fn) u t else t = u)
        ∧ (s.inbox = .unsupported fn :: r → step s = .next { s with inbox := r, outbox := s.outbox ++ [.unsupported fn] })
        ∧ (s.inbox = .hostRead fn 0 off n :: r → s.again = false → 0x40 ≤ off →
          step s = .next { s with inbox := r, outbox := s.outbox ++ [.reg fn (ofBytes (s.bar0Read fn off n))] }))

/-! ## The mailbox -/

/-- The commands of the mailbox: once the management core has the request at hand, each is answered with its TAG, a STATUS and its
results (a self-test when its binding has ended, or is not placed within 100 ms); the reply sets DONE. A checkpoint goes on by steps of its
streams. Values that the tables do not list are log 100, the run of a self-test log 101, the refusals of MEMCKPT and its routes logs 102 and
32, and the free choices of slots and numbers log 3. -/
def Obligations.MailboxCommands : Prop :=
  ∀ (s : State) (tag : Byte) (part : Nat), part ≤ 63 →
    (s.asked (mbHead 3 tag part) = true → SMap.get none s.pools part = none →
      Becomes (.status tag part) s (s.answer tag 0 (toBytes 4 (s.partAt part).blockU.toNat ++ toBytes 8 0)))
    ∧ (∀ src peer fo ha n t, s.asked (mbHead 5 tag part ++ toBytes 1 src ++ toBytes 1 peer ++ toBytes 8 fo ++ toBytes 8 ha) = true → src ≤ 1 →
        (s.partAt part).active = true → s.hostBad ha 64 = false →
        (s.hostAs 0 none false ha 64).segInstall part (src + 2 * peer) (BitVec.ofNat 512 (ofBytes (rdBytes s.host ha 64))) = (some n, t) →
        Becomes (.seginst tag part src peer fo ha) s (t.answer tag 0 (toBytes 2 n ++ toBytes 2 (t.segAt n).gen.toNat ++ toBytes 1 (t.segAt n).state)))
    ∧ (∀ seg t, s.asked (mbHead 6 tag part ++ toBytes 2 seg) = true → s.segRelease part seg = some t →
        Becomes (.segrel tag part seg) s (t.answer tag 0 []))
    ∧ (∀ seg first n laddr, s.asked (mbHead 7 tag part ++ toBytes 2 seg ++ toBytes 4 first ++ toBytes 4 n ++ toBytes 8 laddr) = true →
        laddr % 8 ≤ 1 → (s.segAt seg).state ≠ 0 → (s.segAt seg).state ≠ 4 → (s.partAt part).grants.getLsbD seg = true →
        (s.partAt part).holds (laddr / 8 * 8) (8 * n) = true →
        Becomes (.segmap tag part seg first n laddr) s ((s.segMap part seg ((s.partAt part).privBase.toNat + laddr / 8 * 8) (laddr % 8 == 1) first n).answer tag 0 []))
    ∧ (∀ func queue np npqmax, s.asked (mbHead 8 tag part ++ toBytes 1 func ++ toBytes 2 queue ++ toBytes 1 np ++ toBytes 2 npqmax) = true →
        s.slotOf func queue = none → func ≤ 63 → queue ≤ 4095 → (∃ i < 512, s.slotAt i = none) →
        ∃ (t : State) (i : Nat), Becomes (.mapq tag part func queue np npqmax) s (t.answer tag 0 (toBytes 2 i)) ∧ s.slotAt i = none ∧ i < 512
          ∧ t.slotAt i = some { fn := func, queue := queue, np := np % 2 = 1, npqmax := max 1 (min 1000 npqmax), since := s.rtc.toNat }
          ∧ ∀ j, j ≠ i → t.slotAt j = s.slotAt j)
    ∧ (∀ func queue i, s.asked (mbHead 9 tag part ++ toBytes 1 func ++ toBytes 2 queue) = true → s.slotOf func queue = some i →
        Becomes (.unmapq tag part func queue) s (({ s with slots := SMap.set none s.slots i none } : State).answer tag 0 []))
    ∧ (∀ base bytes, s.asked (mbHead 10 tag part ++ toBytes 8 base ++ toBytes 8 bytes) = true → base % 65536 = 0 → bytes % 65536 = 0 →
        (s.partAt part).holds base bytes = true → SMap.get none s.pools part = none →
        Becomes (.blkpool tag part base bytes) s (({ s with pools := SMap.set none s.pools part (some ⟨base, bytes, []⟩) } : State).answer tag 0 []))
    ∧ (∀ uk lv ui, s.asked (mbHead 4 tag part ++ toBytes 1 uk ++ toBytes 1 lv ++ toBytes 2 ui) = true → s.selfTest = none → ∀ r : TestEnd,
        let t : SelfTest := { mc := none, tag := tag, status := match r with | .pass => 0 | .fail => 1, since := s.rtc.toNat }
        let later : State := { s with selfTest := some t }
        (1 < uk ∨ s.unitPresent uk ui = false → Becomes (.test tag part uk lv ui r) s (s.answer tag 0 (toBytes 1 2)))
        ∧ (uk ≤ 1 → s.unitPresent uk ui = true →
            (s.serviceMc = none → Becomes (.test tag part uk lv ui r) s later)
            ∧ ∀ m, s.serviceMc = some m → Becomes (.test tag part uk lv ui r) s
                ((s.askTest m lv (unitPens uk ui) { t with mc := some m }).getD later)))
    ∧ (∀ t : SelfTest, s.mbBusy = true → s.mbReply = none → rdNum s.mbreq 0 1 = 4 → s.selfTest = some t →
        let gives (u : State) (n : Byte) : Prop := rdByte u.mbrsp 0 = t.tag ∧ rdByte u.mbrsp 4 = n ∧ u.selfTest = none ∧ u.mbDone = true
          ∧ u.mbBusy = false ∧ SameMem s u
        (t.ended = true → t.status = 0 → ∃ u, Becomes .mailboxReply s u ∧ gives u 0 ∧ u.units = s.units)
        ∧ (t.ended = true → t.status = 1 → ∃ u, Becomes .mailboxReply s u ∧ gives u 1)
        ∧ (t.ended = false → s.rtc.toNat < t.since + 100000000 → Becomes .mailboxReply s s)
        ∧ (t.ended = false → t.since + 100000000 ≤ s.rtc.toNat → s.binds = [] → ∃ u, Becomes .mailboxReply s u ∧ gives u 3 ∧ u.units = s.units))
    ∧ (s.asked (toBytes 1 11 ++ [tag]) = true → Becomes (.unitmap tag) s (s.answer tag 0 s.unitMapBody))
    ∧ (∀ fl ports r0 ha hb key, s.asked (mbHead 12 tag 0 ++ toBytes 1 fl ++ toBytes 1 ports ++ toBytes 2 r0 ++ toBytes 8 ha ++ toBytes 8 hb
          ++ toBytes 32 (BitVec.toNat key)) = true → s.cxlen = false → s.quiesced = false → ports % 256 ≠ 0 ∨ hb ≠ 0 →
        ∃ t : State, Becomes (.memckpt tag 0 fl ports r0 ha hb key) s (t.answer tag 0 [t.ckpt.code]) ∧ t.ckpt.hold = fl.testBit 0 ∧ t.ckpt.key = key
          ∧ (hb ≠ 0 → t.ckpt.state = .running))
    ∧ (s.asked (toBytes 1 13 ++ [tag]) = true → s.ckpt.state ≠ .running → Becomes (.ckptstat tag) s
        (s.answer tag 0 ([s.ckpt.code] ++ toBytes 4 s.ckpt.pages ++ toBytes 4 s.ckpt.eth ++ toBytes 4 s.ckpt.host ++ toBytes 4 s.ckpt.took)))
    ∧ (s.asked (mbHead 14 tag 0) = true → s.ckpt.state = .held → ∃ t, Becomes (.ckptend tag 0) s t ∧ t.ckpt.state = .idle ∧ t.quiesced = false)
    ∧ (∀ bs, s.mbBusy = true → s.mbReply = some bs → rdNum s.mbreq 0 1 ≠ 4 →
        ∃ t, Becomes .mailboxReply s t ∧ t.mbDone = true ∧ t.mbBusy = false ∧ t.mbReply = none ∧ t.mbrsp = wrBytes [] 0 bs
          ∧ t.outbox = s.outbox ++ [.mailbox (bs.headD 0) (bs.getD 1 0).toNat] ∧ SameMem s t)
    ∧ (∀ x y r, s.ckpt.state = .running → s.ckpt.streams = x :: y :: r → x ≠ y →
        ∃ t, Becomes (.checkpointStreamFailure x) s t ∧ x ∉ t.ckpt.streams ∧ y ∈ t.ckpt.streams ∧ t.ckpt.state = .running ∧ SameMem s t)
    ∧ (s.ckpt.state = .running →
        (s.ckptWaits = true → Becomes .checkpointCopyEnd s s)
        ∧ (s.ckptWaits = false → s.ckptNext = none → s.ckpt.busy = [] → Becomes .checkpointCopyEnd s (s.ckptEnd .done))
        ∧ (∀ x r, s.ckptWaits = false → x ∈ s.ckpt.streams → s.phase = .ready → s.inbox = .ckptStep x :: r →
            step s = .next (({ s with inbox := r } : State).ckptMove x)))
    ∧ (∀ x, let t := s.ckptMove x
        (s.ckptAlive x = false → t = s.ckptDrop x)
        ∧ (∀ p, s.ckptAlive x = true → (∀ e ∈ s.ckpt.busy, e.1 ≠ x) → s.ckptNext = some p →
            t.ckpt.busy = s.ckpt.busy ++ [(x, p, 0)] ∧ (∀ q ∈ t.ckpt.redo, q ≠ p) ∧ SameMem s t)
        ∧ (∀ p j, s.ckptAlive x = true → s.ckpt.busy = [(x, p, j)] →
            (x = 8 → t.ckpt.busy = [] ∧ t.ckpt.host = s.ckpt.host + 1 ∧ t.ckpt.pages = s.ckpt.pages + 1)
            ∧ (x ≠ 8 → j ≠ 7 → t.ckpt.busy = [(x, p, j + 1)] ∧ t.ckpt.pages = s.ckpt.pages ∧ SameMem s t)
            ∧ (x ≠ 8 → j = 7 → t.ckpt.busy = [] ∧ t.ckpt.eth = s.ckpt.eth + 1 ∧ t.ckpt.pages = s.ckpt.pages + 1 ∧ SameMem s t)))

/-! ## Power and identity -/

/-- Power-up and the fatal state: an image that verifies is loaded, one that does not ends bring-up; without a failure that ends it,
bring-up publishes the unit map and sets READY; removal of power leaves nothing of the device's own state; throttling moves an island by
one step. SPDM: the PF of a device whose image is verified answers; a request before its version or its algorithms are agreed gets an
error, and so does a request of another code. The links are down from step 1 on (log 126), an island stays at its step for 1 ms (log 158), the
values of the measurements are log 103, what a boundary scan shows log 104, and the identity certificate is the chain (log 17). -/
def Obligations.PowerAndIdentity : Prop :=
  (∀ (s : State) (img : BoardImage) (i : Nat),
    (s.phase = .off ∨ (s.phase = .boot ∧ s.image = none) → ∃ t, Becomes (.powerGood img) s t ∧ t.mem = [] ∧ t.host = s.host ∧ t.ops = []
      ∧ t.links = 0
      ∧ (let ok := imageOk img && decide (img.minSvn ≤ img.svn)
         t.phase = (if ok then .boot else .fatal) ∧ t.image = (if ok then some img else none) ∧ t.booterr = !ok))
    ∧ (s.phase ≠ .off → ∃ t, Becomes (.i3cReset img) s t ∧ t.mem = [] ∧ t.host = s.host ∧ t.mcs = [] ∧ t.rtc = 0)
    ∧ (∃ t, Becomes .powerRemoval s t ∧ t.phase = .off ∧ t.mem = [] ∧ t.host = s.host ∧ t.image = none)
    ∧ (s.image = some img → s.phase = .boot → img.badPens = 0 → img.badClusters = 0 → img.badHbm = 0 → img.badEth = 0 →
        ∃ t, Becomes .bringupComplete s t ∧ t.units = ⟨img.pens, img.clusters, img.hbm, img.eth⟩
          ∧ (img.d2dFail = false → img.ioFail = false → img.hostFail = false → img.clusters ≠ 0 → img.hbm ≠ 0 →
              t.phase = .ready ∧ t.mapver = 1 ∧ t.mapAtReady = t.unitMapBody)
          ∧ (img.d2dFail = true ∨ img.ioFail = true ∨ img.hostFail = true ∨ img.clusters = 0 ∨ img.hbm = 0 → t.phase = .fatal))
    ∧ (throttles i = true →
        (SMap.get 0 s.islands i < 8 → SMap.get 0 s.raiseAt i ≤ s.rtc.toNat → ∃ t, Becomes (.throttleStepUp i) s t
          ∧ SMap.get 0 t.islands i = SMap.get 0 s.islands i + 1 ∧ SMap.get 0 t.raiseAt i = s.rtc.toNat + 10000
          ∧ SMap.get 0 t.calmAt i = s.rtc.toNat + 1000000
          ∧ ∀ j, j ≠ i → SMap.get 0 t.islands j = SMap.get 0 s.islands j)
        ∧ (s.rtc.toNat < SMap.get 0 s.calmAt i → Becomes (.throttleStepDown i) s s)
        ∧ (SMap.get 0 s.calmAt i ≤ s.rtc.toNat → ∃ t, Becomes (.throttleStepDown i) s t ∧ SMap.get 0 t.islands i = SMap.get 0 s.islands i - 1
          ∧ ∀ j, j ≠ i → SMap.get 0 t.islands j = SMap.get 0 s.islands j))
    ∧ (∃ t, Becomes (.thermalTrip i) s t ∧ t.phase = .fatal ∧ (SMap.get {} t.banks 39).valid = true ∧ t.mem = s.mem)
    ∧ (∀ port up, ∃ t, Becomes (.ethernetLinkChange port up) s t ∧ t.links = (if up then s.links ||| (1#8 <<< port) else s.links &&& ~~~(1#8 <<< port))
        ∧ t.mem = s.mem)
    ∧ (s.phase ≠ .off → s.image = none ∨ (s.image = some img ∧ img.debug = true) →
        Becomes .boundaryScan s { s with outbox := s.outbox ++ [.scan] }))
  ∧ (∀ (s : State) (img : BoardImage), s.image = some img →
    let answers (i : Instr) (f : List Byte → Prop) : Prop := ∃ t bs, Becomes i s t ∧ t.outbox = s.outbox ++ [.spdm 0 bs] ∧ f bs ∧ SameMem s t
    answers (.getVersion 0) (fun bs => bs.take 2 = [0x10, 0x04])
    ∧ (s.spdmVer = true →
        answers (.getCapabilities 0) (fun bs => bs.take 2 = [0x13, 0x61])
        ∧ answers (.negotiateAlgorithms 0 true true) (fun bs => bs.take 2 = [0x13, 0x63]))
    ∧ (s.spdmAlg = true →
        answers (.getDigests 0) (fun bs => bs = [0x13, 0x01, 0, 1] ++ sha512 img.cert)
        ∧ (∀ off len, off ≤ img.cert.length → answers (.getCertificate 0 0 off len) (fun bs => bs.drop 8 = (img.cert.drop off).take len))
        ∧ (∀ nonce, answers (.challenge 0 0 nonce) (fun bs => bs.take 4 = [0x13, 0x03, 0, 1]))
        ∧ answers (.getMeasurements 0 (0, none)) (fun bs => bs.take 8 = [0x13, 0x60, 4, 0, 0, 0, 0, 0] ∧ bs.length = 50)
        ∧ (∀ nonce, answers (.getMeasurements 0 (0, some nonce)) (fun bs => bs.take 8 = [0x13, 0x60, 4, 0, 0, 0, 0, 0]
            ∧ bs.drop 50 = Config.identitySign (toBytes 32 nonce.toNat ++ bs.take 50))))
    ∧ (s.spdmAlg = false → answers (.getDigests 0) (fun bs => bs = [0x13, 0x7F, 4, 0]))
    ∧ (∀ code r, s.phase = .ready → s.inbox = .spdmRequest 0 code :: r → code % 256 ∉ spdmCodes →
        step s = .next { s with inbox := r, outbox := s.outbox ++ [.spdm 0 (spdm 0x7F 7 (code % 256) [])] })
    ∧ (∀ fn, fn ≠ 0 → exec (.getDigests fn) s = .next s))
end

