-- ==== Sys2Proof/Laws/Encoding.lean ====
section
/-!
SUPPORT. Laws of the encoding (R34, R38): the fields of a word that the encoder builds.
-/
namespace Sys2Proof
set_option Elab.async false

theorem syl_toNat (op : Nat) (g : Guard) (X : Nat) (ho : op < 64) (hX : X < 2 ^ 21) :
    (syl op g X).toNat = op * 2 ^ 26 + g.n.toNat * 2 ^ 25 + g.p.toNat * 2 ^ 21 + X := by
  simp only [syl, BitVec.toNat_ofNat]; omega

theorem syl_op (op : Nat) (g : Guard) (X : Nat) (ho : op < 64) (hX : X < 2 ^ 21) : (syl op g X).toNat / 2 ^ 26 = op := by
  rw [syl_toNat op g X ho hX]; omega

theorem guardOf_syl (op : Nat) (g : Guard) (X : Nat) (ho : op < 64) (hX : X < 2 ^ 21) : guardOf (syl op g X) = g := by
  obtain ⟨n, p⟩ := g
  simp only [guardOf, fld, syl_toNat op ⟨n, p⟩ X ho hX, Guard.mk.injEq]
  constructor <;> apply BitVec.eq_of_toNat_eq <;> simp only [BitVec.toNat_ofNat] <;> omega

/-- A syllable whose fields decode, in an opcode that takes the extension `e`. -/
theorem decode_of_fields {sl : Slot} {op : Nat} {g : Guard} {X : Nat} {e : Option Word32} {i : Instr} (ho : op < 64)
    (hX : X < 2 ^ 21) (hu : extKind sl op ≠ .unassigned) (hn : extKind sl op = .none → e = none)
    (hr : extKind sl op = .required → e.isSome)
    (hd : ∀ w : Word32, w.toNat = op * 2 ^ 26 + g.n.toNat * 2 ^ 25 + g.p.toNat * 2 ^ 21 + X → guardOf w = g →
      decFields sl op w e = some i)
    (h : i.wellFormed = true) : decodeSyl sl (syl op g X) e = .ok i := by
  have hw : i.formOk = true ∧ i.destA31 = false := by simpa [Instr.wellFormed] using h
  have hd := hd _ (syl_toNat op g X ho hX) (guardOf_syl op g X ho hX)
  have hs : extSeen (extKind sl op) e = e := by
    cases hk : extKind sl op
    · exact absurd hk hu
    · rw [hn hk]; rfl
    · rfl
    · obtain ⟨w, rfl⟩ := Option.isSome_iff_exists.mp (hr hk); rfl
  simp only [decodeSyl, syl_op op g X ho hX, hs, hd, if_neg hu, hw.1, hw.2]
  have h3 : (extKind sl op = .none && e.isSome) = false := by
    by_cases hk : extKind sl op = .none
    · simp [hn hk]
    · simp [hk]
  have h4 : (extKind sl op = .required && e.isNone) = false := by
    by_cases hk : extKind sl op = .required
    · have := hr hk; cases e <;> simp_all
    · simp [hk]
  simp [h3, h4]

theorem decode_plain {sl : Slot} {op : Nat} {g : Guard} {X : Nat} {i : Instr} (hk : extKind sl op = .none ∧ op < 64)
    (hX : X < 2 ^ 21)
    (hd : ∀ w : Word32, w.toNat = op * 2 ^ 26 + g.n.toNat * 2 ^ 25 + g.p.toNat * 2 ^ 21 + X → guardOf w = g →
      decFields sl op w none = some i)
    (h : i.wellFormed = true) : decodeSyl sl (syl op g X) none = .ok i :=
  decode_of_fields hk.2 hX (by rw [hk.1]; decide) (fun _ => rfl) (fun hr => by rw [hk.1] at hr; cases hr) hd h

theorem decode_opt {sl : Slot} {op : Nat} {g : Guard} {X : Nat} {e : Option Word32} {i : Instr}
    (hk : extKind sl op = .optional ∧ op < 64) (hX : X < 2 ^ 21)
    (hd : ∀ w : Word32, w.toNat = op * 2 ^ 26 + g.n.toNat * 2 ^ 25 + g.p.toNat * 2 ^ 21 + X → guardOf w = g →
      decFields sl op w e = some i)
    (h : i.wellFormed = true) : decodeSyl sl (syl op g X) e = .ok i :=
  decode_of_fields hk.2 hX (by rw [hk.1]; decide) (fun hr => by rw [hk.1] at hr; cases hr)
    (fun hr => by rw [hk.1] at hr; cases hr) hd h

theorem decode_req {sl : Slot} {op : Nat} {g : Guard} {X : Nat} {e : Word32} {i : Instr}
    (hk : extKind sl op = .required ∧ op < 64) (hX : X < 2 ^ 21)
    (hd : ∀ w : Word32, w.toNat = op * 2 ^ 26 + g.n.toNat * 2 ^ 25 + g.p.toNat * 2 ^ 21 + X → guardOf w = g →
      decFields sl op w (some e) = some i)
    (h : i.wellFormed = true) : decodeSyl sl (syl op g X) (some e) = .ok i :=
  decode_of_fields hk.2 hX (by rw [hk.1]; decide) (fun hr => by rw [hk.1] at hr; cases hr) (fun _ => rfl) hd h

/-! ## Extension words (R40) -/

theorem toList_head (e : Option Word32) : e.toList[0]? = e := by cases e <;> rfl

theorem vxOf_encVX (e : Option VX) : vxOf (encVX e)[0]? = e := by
  cases e with
  | none => rfl
  | some e =>
    obtain ⟨a, b, c, d⟩ := e
    simp only [encVX, vxOf, Option.map_some, Option.toList_some, List.getElem?_cons_zero, Option.some.injEq, VX.mk.injEq]
    refine ⟨?_, ?_, ?_, ?_⟩ <;> apply BitVec.eq_of_toNat_eq <;> simp only [fld, BitVec.toNat_ofNat] <;> omega

theorem xeOf_encXE (e : Option XE) : xeOf (encXE e)[0]? = e := by
  cases e with
  | none => rfl
  | some e =>
    obtain ⟨a, b, c, d⟩ := e
    simp only [encXE, xeOf, Option.map_some, Option.toList_some, List.getElem?_cons_zero, Option.some.injEq, XE.mk.injEq]
    refine ⟨?_, ?_, ?_, ?_⟩ <;> apply BitVec.eq_of_toNat_eq <;> simp only [fld, BitVec.toNat_ofNat] <;> omega

theorem mxOf_encMX (e : MX) : mxOf ((encMX e)[0]?.getD 0) = e := by
  obtain ⟨a, b, c⟩ := e
  simp only [encMX, mxOf, List.getElem?_cons_zero, Option.getD_some, MX.mk.injEq]
  refine ⟨?_, ?_, ?_⟩ <;> apply BitVec.eq_of_toNat_eq <;> simp only [fld, BitVec.toNat_ofNat] <;> omega

theorem efz_encMX (e : MX) : efz (encMX e)[0]? 16 13 = true := by
  obtain ⟨a, b, c⟩ := e
  simp only [encMX, efz, List.getElem?_cons_zero, fz, BitVec.toNat_ofNat, beq_iff_eq]
  omega

theorem mrdxOf_encMrdX (e : Option MrdX) : (encMrdX e)[0]?.map mrdxOf = e := by
  cases e with
  | none => rfl
  | some e =>
    obtain ⟨a, b, c, d, f⟩ := e
    simp only [encMrdX, mrdxOf, Option.map_some, Option.toList_some, List.getElem?_cons_zero, Option.some.injEq,
      MrdX.mk.injEq]
    refine ⟨?_, ?_, ?_, ?_, ?_⟩ <;> apply BitVec.eq_of_toNat_eq <;> simp only [fld, BitVec.toNat_ofNat] <;> omega

theorem efz_encMrdX (e : Option MrdX) : efz (encMrdX e)[0]? 0 20 = true := by
  cases e with
  | none => rfl
  | some e =>
    simp only [encMrdX, efz, Option.map_some, Option.toList_some, List.getElem?_cons_zero, fz, BitVec.toNat_ofNat, beq_iff_eq]
    omega

theorem tallocxOf_encTallocX (e : TallocX) : tallocxOf ((encTallocX e)[0]?.getD 0) = e := by
  obtain ⟨a, b, c, d⟩ := e
  simp only [encTallocX, tallocxOf, List.getElem?_cons_zero, Option.getD_some, TallocX.mk.injEq]
  refine ⟨?_, ?_, ?_, ?_⟩ <;> apply BitVec.eq_of_toNat_eq <;> simp only [fld, BitVec.toNat_ofNat] <;> omega

theorem efz_encTallocX (e : TallocX) : efz (encTallocX e)[0]? 24 3 = true ∧ efz (encTallocX e)[0]? 8 4 = true := by
  obtain ⟨a, b, c, d⟩ := e
  simp only [encTallocX, efz, List.getElem?_cons_zero, fz, BitVec.toNat_ofNat, beq_iff_eq]
  omega

theorem ext_8 (c : Option (BitVec 8)) :
    (c.map (fun c => BitVec.ofNat 32 c.toNat)).toList[0]?.map (fun e => fld e 0 8) = c := by
  cases c with
  | none => rfl
  | some c =>
    simp only [Option.map_some, Option.toList_some, List.getElem?_cons_zero, Option.some.injEq]
    apply BitVec.eq_of_toNat_eq
    simp only [fld, BitVec.toNat_ofNat]; omega

theorem efz_ext_8 (c : Option (BitVec 8)) :
    efz (c.map (fun c => BitVec.ofNat 32 c.toNat)).toList[0]? 8 24 = true := by
  cases c with
  | none => rfl
  | some c =>
    simp only [efz, Option.map_some, Option.toList_some, List.getElem?_cons_zero, fz, BitVec.toNat_ofNat, beq_iff_eq]
    omega

theorem ext_16 (c : Option (BitVec 16)) :
    (c.map (fun c => BitVec.ofNat 32 c.toNat)).toList[0]?.map (fun e => fld e 0 16) = c := by
  cases c with
  | none => rfl
  | some c =>
    simp only [Option.map_some, Option.toList_some, List.getElem?_cons_zero, Option.some.injEq]
    apply BitVec.eq_of_toNat_eq
    simp only [fld, BitVec.toNat_ofNat]; omega

theorem efz_ext_16 (c : Option (BitVec 16)) :
    efz (c.map (fun c => BitVec.ofNat 32 c.toNat)).toList[0]? 16 16 = true := by
  cases c with
  | none => rfl
  | some c =>
    simp only [efz, Option.map_some, Option.toList_some, List.getElem?_cons_zero, fz, BitVec.toNat_ofNat, beq_iff_eq]
    omega

/-! ## The three-register format -/

theorem encSR_lt (d a b : BitVec 6) (f : BitVec 3) : encSR d a b f.toNat < 2 ^ 21 := by simp only [encSR]; omega

/-- The fields of a word in the three-register format. -/
theorem fields_SR {w : Word32} {d a b : BitVec 6} {f : BitVec 3} {op n p : Nat}
    (hw : w.toNat = op * 2 ^ 26 + n * 2 ^ 25 + p * 2 ^ 21 + encSR d a b f.toNat) :
    fld w 15 6 = d ∧ fld w 9 6 = a ∧ fld w 3 6 = b ∧ fld w 0 3 = f := by
  simp only [encSR] at hw
  refine ⟨?_, ?_, ?_, ?_⟩ <;> apply BitVec.eq_of_toNat_eq <;> simp only [fld, BitVec.toNat_ofNat] <;> omega

theorem fz_eq_fld (w : Word32) (lo n : Nat) : fz w lo n = (fld w lo n == (0 : BitVec n)) := by
  rw [Bool.eq_iff_iff, beq_iff_eq, fz, beq_iff_eq, fld]
  constructor
  · intro h; apply BitVec.eq_of_toNat_eq; simpa using h
  · intro h; simpa using congrArg BitVec.toNat h

theorem keep_eq {c : Bool} {i j : Instr} (hc : c = true) (h : i = j) : keep c i = some j := by rw [hc, h]; rfl

end Sys2Proof
end

