-- ==== Sys2Proof/Laws/State.lean ====
section
/-!
SUPPORT. One lemma for each field and each plain update of the state: the field reads as before. No proof has to unfold an update.
-/
namespace Sys2Proof.Machine
set_option Elab.async false
open Sys2Proof

/-! ## State.setCoreAt -/

@[simp] theorem State.setCoreAt_inbox (s : State) (c : Nat) (x : Core) : (s.setCoreAt c x).inbox = s.inbox := rfl
@[simp] theorem State.setCoreAt_outbox (s : State) (c : Nat) (x : Core) : (s.setCoreAt c x).outbox = s.outbox := rfl
@[simp] theorem State.setCoreAt_free (s : State) (c : Nat) (x : Core) : (s.setCoreAt c x).free = s.free := rfl
@[simp] theorem State.setCoreAt_cur (s : State) (c : Nat) (x : Core) : (s.setCoreAt c x).cur = s.cur := rfl
@[simp] theorem State.setCoreAt_checked (s : State) (c : Nat) (x : Core) : (s.setCoreAt c x).checked = s.checked := rfl
@[simp] theorem State.setCoreAt_verdict (s : State) (c : Nat) (x : Core) : (s.setCoreAt c x).verdict = s.verdict := rfl
@[simp] theorem State.setCoreAt_again (s : State) (c : Nat) (x : Core) : (s.setCoreAt c x).again = s.again := rfl
@[simp] theorem State.setCoreAt_ending (s : State) (c : Nat) (x : Core) : (s.setCoreAt c x).ending = s.ending := rfl
@[simp] theorem State.setCoreAt_endingCl (s : State) (c : Nat) (x : Core) : (s.setCoreAt c x).endingCl = s.endingCl := rfl
@[simp] theorem State.setCoreAt_rtc (s : State) (c : Nat) (x : Core) : (s.setCoreAt c x).rtc = s.rtc := rfl
@[simp] theorem State.setCoreAt_mem (s : State) (c : Nat) (x : Core) : (s.setCoreAt c x).mem = s.mem := rfl
@[simp] theorem State.setCoreAt_host (s : State) (c : Nat) (x : Core) : (s.setCoreAt c x).host = s.host := rfl
@[simp] theorem State.setCoreAt_hostErr (s : State) (c : Nat) (x : Core) : (s.setCoreAt c x).hostErr = s.hostErr := rfl
@[simp] theorem State.setCoreAt_clusters (s : State) (c : Nat) (x : Core) : (s.setCoreAt c x).clusters = s.clusters := rfl
@[simp] theorem State.setCoreAt_pens (s : State) (c : Nat) (x : Core) : (s.setCoreAt c x).pens = s.pens := rfl
@[simp] theorem State.setCoreAt_mcs (s : State) (c : Nat) (x : Core) : (s.setCoreAt c x).mcs = s.mcs := rfl
@[simp] theorem State.setCoreAt_parts (s : State) (c : Nat) (x : Core) : (s.setCoreAt c x).parts = s.parts := rfl
@[simp] theorem State.setCoreAt_conts (s : State) (c : Nat) (x : Core) : (s.setCoreAt c x).conts = s.conts := rfl
@[simp] theorem State.setCoreAt_binds (s : State) (c : Nat) (x : Core) : (s.setCoreAt c x).binds = s.binds := rfl
@[simp] theorem State.setCoreAt_reserves (s : State) (c : Nat) (x : Core) : (s.setCoreAt c x).reserves = s.reserves := rfl
@[simp] theorem State.setCoreAt_selDue (s : State) (c : Nat) (x : Core) : (s.setCoreAt c x).selDue = s.selDue := rfl
@[simp] theorem State.setCoreAt_loans (s : State) (c : Nat) (x : Core) : (s.setCoreAt c x).loans = s.loans := rfl
@[simp] theorem State.setCoreAt_handlers (s : State) (c : Nat) (x : Core) : (s.setCoreAt c x).handlers = s.handlers := rfl
@[simp] theorem State.setCoreAt_fences (s : State) (c : Nat) (x : Core) : (s.setCoreAt c x).fences = s.fences := rfl
@[simp] theorem State.setCoreAt_ops (s : State) (c : Nat) (x : Core) : (s.setCoreAt c x).ops = s.ops := rfl
@[simp] theorem State.setCoreAt_nextOp (s : State) (c : Nat) (x : Core) : (s.setCoreAt c x).nextOp = s.nextOp := rfl
@[simp] theorem State.setCoreAt_nextBind (s : State) (c : Nat) (x : Core) : (s.setCoreAt c x).nextBind = s.nextBind := rfl
@[simp] theorem State.setCoreAt_nextOrder (s : State) (c : Nat) (x : Core) : (s.setCoreAt c x).nextOrder = s.nextOrder := rfl
@[simp] theorem State.setCoreAt_lines (s : State) (c : Nat) (x : Core) : (s.setCoreAt c x).lines = s.lines := rfl
@[simp] theorem State.setCoreAt_tlb (s : State) (c : Nat) (x : Core) : (s.setCoreAt c x).tlb = s.tlb := rfl
@[simp] theorem State.setCoreAt_shepDown (s : State) (c : Nat) (x : Core) : (s.setCoreAt c x).shepDown = s.shepDown := rfl
@[simp] theorem State.setCoreAt_naps (s : State) (c : Nat) (x : Core) : (s.setCoreAt c x).naps = s.naps := rfl
@[simp] theorem State.setCoreAt_segNaps (s : State) (c : Nat) (x : Core) : (s.setCoreAt c x).segNaps = s.segNaps := rfl
@[simp] theorem State.setCoreAt_funcs (s : State) (c : Nat) (x : Core) : (s.setCoreAt c x).funcs = s.funcs := rfl
@[simp] theorem State.setCoreAt_poison (s : State) (c : Nat) (x : Core) : (s.setCoreAt c x).poison = s.poison := rfl
@[simp] theorem State.setCoreAt_poisonL2 (s : State) (c : Nat) (x : Core) : (s.setCoreAt c x).poisonL2 = s.poisonL2 := rfl
@[simp] theorem State.setCoreAt_segs (s : State) (c : Nat) (x : Core) : (s.setCoreAt c x).segs = s.segs := rfl
@[simp] theorem State.setCoreAt_nextGroup (s : State) (c : Nat) (x : Core) : (s.setCoreAt c x).nextGroup = s.nextGroup := rfl
@[simp] theorem State.setCoreAt_segwait (s : State) (c : Nat) (x : Core) : (s.setCoreAt c x).segwait = s.segwait := rfl
@[simp] theorem State.setCoreAt_slice (s : State) (c : Nat) (x : Core) : (s.setCoreAt c x).slice = s.slice := rfl
@[simp] theorem State.setCoreAt_cxlen (s : State) (c : Nat) (x : Core) : (s.setCoreAt c x).cxlen = s.cxlen := rfl
@[simp] theorem State.setCoreAt_biasGo (s : State) (c : Nat) (x : Core) : (s.setCoreAt c x).biasGo = s.biasGo := rfl
@[simp] theorem State.setCoreAt_biasDone (s : State) (c : Nat) (x : Core) : (s.setCoreAt c x).biasDone = s.biasDone := rfl
@[simp] theorem State.setCoreAt_biasDir (s : State) (c : Nat) (x : Core) : (s.setCoreAt c x).biasDir = s.biasDir := rfl
@[simp] theorem State.setCoreAt_biasPage (s : State) (c : Nat) (x : Core) : (s.setCoreAt c x).biasPage = s.biasPage := rfl
@[simp] theorem State.setCoreAt_biasNext (s : State) (c : Nat) (x : Core) : (s.setCoreAt c x).biasNext = s.biasNext := rfl
@[simp] theorem State.setCoreAt_hostBias (s : State) (c : Nat) (x : Core) : (s.setCoreAt c x).hostBias = s.hostBias := rfl
@[simp] theorem State.setCoreAt_mbreq (s : State) (c : Nat) (x : Core) : (s.setCoreAt c x).mbreq = s.mbreq := rfl
@[simp] theorem State.setCoreAt_mbrsp (s : State) (c : Nat) (x : Core) : (s.setCoreAt c x).mbrsp = s.mbrsp := rfl
@[simp] theorem State.setCoreAt_mbBusy (s : State) (c : Nat) (x : Core) : (s.setCoreAt c x).mbBusy = s.mbBusy := rfl
@[simp] theorem State.setCoreAt_mbDone (s : State) (c : Nat) (x : Core) : (s.setCoreAt c x).mbDone = s.mbDone := rfl
@[simp] theorem State.setCoreAt_mbReply (s : State) (c : Nat) (x : Core) : (s.setCoreAt c x).mbReply = s.mbReply := rfl
@[simp] theorem State.setCoreAt_selfTest (s : State) (c : Nat) (x : Core) : (s.setCoreAt c x).selfTest = s.selfTest := rfl
@[simp] theorem State.setCoreAt_pools (s : State) (c : Nat) (x : Core) : (s.setCoreAt c x).pools = s.pools := rfl
@[simp] theorem State.setCoreAt_slots (s : State) (c : Nat) (x : Core) : (s.setCoreAt c x).slots = s.slots := rfl
@[simp] theorem State.setCoreAt_rounds (s : State) (c : Nat) (x : Core) : (s.setCoreAt c x).rounds = s.rounds := rfl
@[simp] theorem State.setCoreAt_nextPend (s : State) (c : Nat) (x : Core) : (s.setCoreAt c x).nextPend = s.nextPend := rfl
@[simp] theorem State.setCoreAt_banks (s : State) (c : Nat) (x : Core) : (s.setCoreAt c x).banks = s.banks := rfl
@[simp] theorem State.setCoreAt_phase (s : State) (c : Nat) (x : Core) : (s.setCoreAt c x).phase = s.phase := rfl
@[simp] theorem State.setCoreAt_image (s : State) (c : Nat) (x : Core) : (s.setCoreAt c x).image = s.image := rfl
@[simp] theorem State.setCoreAt_booterr (s : State) (c : Nat) (x : Core) : (s.setCoreAt c x).booterr = s.booterr := rfl
@[simp] theorem State.setCoreAt_factory (s : State) (c : Nat) (x : Core) : (s.setCoreAt c x).factory = s.factory := rfl
@[simp] theorem State.setCoreAt_units (s : State) (c : Nat) (x : Core) : (s.setCoreAt c x).units = s.units := rfl
@[simp] theorem State.setCoreAt_mapver (s : State) (c : Nat) (x : Core) : (s.setCoreAt c x).mapver = s.mapver := rfl
@[simp] theorem State.setCoreAt_mapAtReady (s : State) (c : Nat) (x : Core) : (s.setCoreAt c x).mapAtReady = s.mapAtReady := rfl
@[simp] theorem State.setCoreAt_links (s : State) (c : Nat) (x : Core) : (s.setCoreAt c x).links = s.links := rfl
@[simp] theorem State.setCoreAt_carderIn (s : State) (c : Nat) (x : Core) : (s.setCoreAt c x).carderIn = s.carderIn := rfl
@[simp] theorem State.setCoreAt_islands (s : State) (c : Nat) (x : Core) : (s.setCoreAt c x).islands = s.islands := rfl
@[simp] theorem State.setCoreAt_raiseAt (s : State) (c : Nat) (x : Core) : (s.setCoreAt c x).raiseAt = s.raiseAt := rfl
@[simp] theorem State.setCoreAt_calmAt (s : State) (c : Nat) (x : Core) : (s.setCoreAt c x).calmAt = s.calmAt := rfl
@[simp] theorem State.setCoreAt_config (s : State) (c : Nat) (x : Core) : (s.setCoreAt c x).config = s.config := rfl
@[simp] theorem State.setCoreAt_portDrops (s : State) (c : Nat) (x : Core) : (s.setCoreAt c x).portDrops = s.portDrops := rfl
@[simp] theorem State.setCoreAt_ckpt (s : State) (c : Nat) (x : Core) : (s.setCoreAt c x).ckpt = s.ckpt := rfl
@[simp] theorem State.setCoreAt_spdmVer (s : State) (c : Nat) (x : Core) : (s.setCoreAt c x).spdmVer = s.spdmVer := rfl
@[simp] theorem State.setCoreAt_spdmAlg (s : State) (c : Nat) (x : Core) : (s.setCoreAt c x).spdmAlg = s.spdmAlg := rfl

/-! ## State.setCluster -/

@[simp] theorem State.setCluster_inbox (s : State) (q : Nat) (x : Cluster) : (s.setCluster q x).inbox = s.inbox := rfl
@[simp] theorem State.setCluster_outbox (s : State) (q : Nat) (x : Cluster) : (s.setCluster q x).outbox = s.outbox := rfl
@[simp] theorem State.setCluster_free (s : State) (q : Nat) (x : Cluster) : (s.setCluster q x).free = s.free := rfl
@[simp] theorem State.setCluster_cur (s : State) (q : Nat) (x : Cluster) : (s.setCluster q x).cur = s.cur := rfl
@[simp] theorem State.setCluster_checked (s : State) (q : Nat) (x : Cluster) : (s.setCluster q x).checked = s.checked := rfl
@[simp] theorem State.setCluster_verdict (s : State) (q : Nat) (x : Cluster) : (s.setCluster q x).verdict = s.verdict := rfl
@[simp] theorem State.setCluster_again (s : State) (q : Nat) (x : Cluster) : (s.setCluster q x).again = s.again := rfl
@[simp] theorem State.setCluster_ending (s : State) (q : Nat) (x : Cluster) : (s.setCluster q x).ending = s.ending := rfl
@[simp] theorem State.setCluster_endingCl (s : State) (q : Nat) (x : Cluster) : (s.setCluster q x).endingCl = s.endingCl := rfl
@[simp] theorem State.setCluster_rtc (s : State) (q : Nat) (x : Cluster) : (s.setCluster q x).rtc = s.rtc := rfl
@[simp] theorem State.setCluster_mem (s : State) (q : Nat) (x : Cluster) : (s.setCluster q x).mem = s.mem := rfl
@[simp] theorem State.setCluster_host (s : State) (q : Nat) (x : Cluster) : (s.setCluster q x).host = s.host := rfl
@[simp] theorem State.setCluster_hostErr (s : State) (q : Nat) (x : Cluster) : (s.setCluster q x).hostErr = s.hostErr := rfl
@[simp] theorem State.setCluster_cores (s : State) (q : Nat) (x : Cluster) : (s.setCluster q x).cores = s.cores := rfl
@[simp] theorem State.setCluster_pens (s : State) (q : Nat) (x : Cluster) : (s.setCluster q x).pens = s.pens := rfl
@[simp] theorem State.setCluster_mcs (s : State) (q : Nat) (x : Cluster) : (s.setCluster q x).mcs = s.mcs := rfl
@[simp] theorem State.setCluster_parts (s : State) (q : Nat) (x : Cluster) : (s.setCluster q x).parts = s.parts := rfl
@[simp] theorem State.setCluster_conts (s : State) (q : Nat) (x : Cluster) : (s.setCluster q x).conts = s.conts := rfl
@[simp] theorem State.setCluster_binds (s : State) (q : Nat) (x : Cluster) : (s.setCluster q x).binds = s.binds := rfl
@[simp] theorem State.setCluster_reserves (s : State) (q : Nat) (x : Cluster) : (s.setCluster q x).reserves = s.reserves := rfl
@[simp] theorem State.setCluster_selDue (s : State) (q : Nat) (x : Cluster) : (s.setCluster q x).selDue = s.selDue := rfl
@[simp] theorem State.setCluster_loans (s : State) (q : Nat) (x : Cluster) : (s.setCluster q x).loans = s.loans := rfl
@[simp] theorem State.setCluster_handlers (s : State) (q : Nat) (x : Cluster) : (s.setCluster q x).handlers = s.handlers := rfl
@[simp] theorem State.setCluster_fences (s : State) (q : Nat) (x : Cluster) : (s.setCluster q x).fences = s.fences := rfl
@[simp] theorem State.setCluster_ops (s : State) (q : Nat) (x : Cluster) : (s.setCluster q x).ops = s.ops := rfl
@[simp] theorem State.setCluster_nextOp (s : State) (q : Nat) (x : Cluster) : (s.setCluster q x).nextOp = s.nextOp := rfl
@[simp] theorem State.setCluster_nextBind (s : State) (q : Nat) (x : Cluster) : (s.setCluster q x).nextBind = s.nextBind := rfl
@[simp] theorem State.setCluster_nextOrder (s : State) (q : Nat) (x : Cluster) : (s.setCluster q x).nextOrder = s.nextOrder := rfl
@[simp] theorem State.setCluster_lines (s : State) (q : Nat) (x : Cluster) : (s.setCluster q x).lines = s.lines := rfl
@[simp] theorem State.setCluster_tlb (s : State) (q : Nat) (x : Cluster) : (s.setCluster q x).tlb = s.tlb := rfl
@[simp] theorem State.setCluster_shepDown (s : State) (q : Nat) (x : Cluster) : (s.setCluster q x).shepDown = s.shepDown := rfl
@[simp] theorem State.setCluster_naps (s : State) (q : Nat) (x : Cluster) : (s.setCluster q x).naps = s.naps := rfl
@[simp] theorem State.setCluster_segNaps (s : State) (q : Nat) (x : Cluster) : (s.setCluster q x).segNaps = s.segNaps := rfl
@[simp] theorem State.setCluster_funcs (s : State) (q : Nat) (x : Cluster) : (s.setCluster q x).funcs = s.funcs := rfl
@[simp] theorem State.setCluster_poison (s : State) (q : Nat) (x : Cluster) : (s.setCluster q x).poison = s.poison := rfl
@[simp] theorem State.setCluster_poisonL2 (s : State) (q : Nat) (x : Cluster) : (s.setCluster q x).poisonL2 = s.poisonL2 := rfl
@[simp] theorem State.setCluster_segs (s : State) (q : Nat) (x : Cluster) : (s.setCluster q x).segs = s.segs := rfl
@[simp] theorem State.setCluster_nextGroup (s : State) (q : Nat) (x : Cluster) : (s.setCluster q x).nextGroup = s.nextGroup := rfl
@[simp] theorem State.setCluster_segwait (s : State) (q : Nat) (x : Cluster) : (s.setCluster q x).segwait = s.segwait := rfl
@[simp] theorem State.setCluster_slice (s : State) (q : Nat) (x : Cluster) : (s.setCluster q x).slice = s.slice := rfl
@[simp] theorem State.setCluster_cxlen (s : State) (q : Nat) (x : Cluster) : (s.setCluster q x).cxlen = s.cxlen := rfl
@[simp] theorem State.setCluster_biasGo (s : State) (q : Nat) (x : Cluster) : (s.setCluster q x).biasGo = s.biasGo := rfl
@[simp] theorem State.setCluster_biasDone (s : State) (q : Nat) (x : Cluster) : (s.setCluster q x).biasDone = s.biasDone := rfl
@[simp] theorem State.setCluster_biasDir (s : State) (q : Nat) (x : Cluster) : (s.setCluster q x).biasDir = s.biasDir := rfl
@[simp] theorem State.setCluster_biasPage (s : State) (q : Nat) (x : Cluster) : (s.setCluster q x).biasPage = s.biasPage := rfl
@[simp] theorem State.setCluster_biasNext (s : State) (q : Nat) (x : Cluster) : (s.setCluster q x).biasNext = s.biasNext := rfl
@[simp] theorem State.setCluster_hostBias (s : State) (q : Nat) (x : Cluster) : (s.setCluster q x).hostBias = s.hostBias := rfl
@[simp] theorem State.setCluster_mbreq (s : State) (q : Nat) (x : Cluster) : (s.setCluster q x).mbreq = s.mbreq := rfl
@[simp] theorem State.setCluster_mbrsp (s : State) (q : Nat) (x : Cluster) : (s.setCluster q x).mbrsp = s.mbrsp := rfl
@[simp] theorem State.setCluster_mbBusy (s : State) (q : Nat) (x : Cluster) : (s.setCluster q x).mbBusy = s.mbBusy := rfl
@[simp] theorem State.setCluster_mbDone (s : State) (q : Nat) (x : Cluster) : (s.setCluster q x).mbDone = s.mbDone := rfl
@[simp] theorem State.setCluster_mbReply (s : State) (q : Nat) (x : Cluster) : (s.setCluster q x).mbReply = s.mbReply := rfl
@[simp] theorem State.setCluster_selfTest (s : State) (q : Nat) (x : Cluster) : (s.setCluster q x).selfTest = s.selfTest := rfl
@[simp] theorem State.setCluster_pools (s : State) (q : Nat) (x : Cluster) : (s.setCluster q x).pools = s.pools := rfl
@[simp] theorem State.setCluster_slots (s : State) (q : Nat) (x : Cluster) : (s.setCluster q x).slots = s.slots := rfl
@[simp] theorem State.setCluster_rounds (s : State) (q : Nat) (x : Cluster) : (s.setCluster q x).rounds = s.rounds := rfl
@[simp] theorem State.setCluster_nextPend (s : State) (q : Nat) (x : Cluster) : (s.setCluster q x).nextPend = s.nextPend := rfl
@[simp] theorem State.setCluster_banks (s : State) (q : Nat) (x : Cluster) : (s.setCluster q x).banks = s.banks := rfl
@[simp] theorem State.setCluster_phase (s : State) (q : Nat) (x : Cluster) : (s.setCluster q x).phase = s.phase := rfl
@[simp] theorem State.setCluster_image (s : State) (q : Nat) (x : Cluster) : (s.setCluster q x).image = s.image := rfl
@[simp] theorem State.setCluster_booterr (s : State) (q : Nat) (x : Cluster) : (s.setCluster q x).booterr = s.booterr := rfl
@[simp] theorem State.setCluster_factory (s : State) (q : Nat) (x : Cluster) : (s.setCluster q x).factory = s.factory := rfl
@[simp] theorem State.setCluster_units (s : State) (q : Nat) (x : Cluster) : (s.setCluster q x).units = s.units := rfl
@[simp] theorem State.setCluster_mapver (s : State) (q : Nat) (x : Cluster) : (s.setCluster q x).mapver = s.mapver := rfl
@[simp] theorem State.setCluster_mapAtReady (s : State) (q : Nat) (x : Cluster) : (s.setCluster q x).mapAtReady = s.mapAtReady := rfl
@[simp] theorem State.setCluster_links (s : State) (q : Nat) (x : Cluster) : (s.setCluster q x).links = s.links := rfl
@[simp] theorem State.setCluster_carderIn (s : State) (q : Nat) (x : Cluster) : (s.setCluster q x).carderIn = s.carderIn := rfl
@[simp] theorem State.setCluster_islands (s : State) (q : Nat) (x : Cluster) : (s.setCluster q x).islands = s.islands := rfl
@[simp] theorem State.setCluster_raiseAt (s : State) (q : Nat) (x : Cluster) : (s.setCluster q x).raiseAt = s.raiseAt := rfl
@[simp] theorem State.setCluster_calmAt (s : State) (q : Nat) (x : Cluster) : (s.setCluster q x).calmAt = s.calmAt := rfl
@[simp] theorem State.setCluster_config (s : State) (q : Nat) (x : Cluster) : (s.setCluster q x).config = s.config := rfl
@[simp] theorem State.setCluster_portDrops (s : State) (q : Nat) (x : Cluster) : (s.setCluster q x).portDrops = s.portDrops := rfl
@[simp] theorem State.setCluster_ckpt (s : State) (q : Nat) (x : Cluster) : (s.setCluster q x).ckpt = s.ckpt := rfl
@[simp] theorem State.setCluster_spdmVer (s : State) (q : Nat) (x : Cluster) : (s.setCluster q x).spdmVer = s.spdmVer := rfl
@[simp] theorem State.setCluster_spdmAlg (s : State) (q : Nat) (x : Cluster) : (s.setCluster q x).spdmAlg = s.spdmAlg := rfl

/-! ## State.setPen -/

@[simp] theorem State.setPen_inbox (s : State) (p : Nat) (x : Pen) : (s.setPen p x).inbox = s.inbox := rfl
@[simp] theorem State.setPen_outbox (s : State) (p : Nat) (x : Pen) : (s.setPen p x).outbox = s.outbox := rfl
@[simp] theorem State.setPen_free (s : State) (p : Nat) (x : Pen) : (s.setPen p x).free = s.free := rfl
@[simp] theorem State.setPen_cur (s : State) (p : Nat) (x : Pen) : (s.setPen p x).cur = s.cur := rfl
@[simp] theorem State.setPen_checked (s : State) (p : Nat) (x : Pen) : (s.setPen p x).checked = s.checked := rfl
@[simp] theorem State.setPen_verdict (s : State) (p : Nat) (x : Pen) : (s.setPen p x).verdict = s.verdict := rfl
@[simp] theorem State.setPen_again (s : State) (p : Nat) (x : Pen) : (s.setPen p x).again = s.again := rfl
@[simp] theorem State.setPen_ending (s : State) (p : Nat) (x : Pen) : (s.setPen p x).ending = s.ending := rfl
@[simp] theorem State.setPen_endingCl (s : State) (p : Nat) (x : Pen) : (s.setPen p x).endingCl = s.endingCl := rfl
@[simp] theorem State.setPen_rtc (s : State) (p : Nat) (x : Pen) : (s.setPen p x).rtc = s.rtc := rfl
@[simp] theorem State.setPen_mem (s : State) (p : Nat) (x : Pen) : (s.setPen p x).mem = s.mem := rfl
@[simp] theorem State.setPen_host (s : State) (p : Nat) (x : Pen) : (s.setPen p x).host = s.host := rfl
@[simp] theorem State.setPen_hostErr (s : State) (p : Nat) (x : Pen) : (s.setPen p x).hostErr = s.hostErr := rfl
@[simp] theorem State.setPen_cores (s : State) (p : Nat) (x : Pen) : (s.setPen p x).cores = s.cores := rfl
@[simp] theorem State.setPen_clusters (s : State) (p : Nat) (x : Pen) : (s.setPen p x).clusters = s.clusters := rfl
@[simp] theorem State.setPen_mcs (s : State) (p : Nat) (x : Pen) : (s.setPen p x).mcs = s.mcs := rfl
@[simp] theorem State.setPen_parts (s : State) (p : Nat) (x : Pen) : (s.setPen p x).parts = s.parts := rfl
@[simp] theorem State.setPen_conts (s : State) (p : Nat) (x : Pen) : (s.setPen p x).conts = s.conts := rfl
@[simp] theorem State.setPen_binds (s : State) (p : Nat) (x : Pen) : (s.setPen p x).binds = s.binds := rfl
@[simp] theorem State.setPen_reserves (s : State) (p : Nat) (x : Pen) : (s.setPen p x).reserves = s.reserves := rfl
@[simp] theorem State.setPen_selDue (s : State) (p : Nat) (x : Pen) : (s.setPen p x).selDue = s.selDue := rfl
@[simp] theorem State.setPen_loans (s : State) (p : Nat) (x : Pen) : (s.setPen p x).loans = s.loans := rfl
@[simp] theorem State.setPen_handlers (s : State) (p : Nat) (x : Pen) : (s.setPen p x).handlers = s.handlers := rfl
@[simp] theorem State.setPen_fences (s : State) (p : Nat) (x : Pen) : (s.setPen p x).fences = s.fences := rfl
@[simp] theorem State.setPen_ops (s : State) (p : Nat) (x : Pen) : (s.setPen p x).ops = s.ops := rfl
@[simp] theorem State.setPen_nextOp (s : State) (p : Nat) (x : Pen) : (s.setPen p x).nextOp = s.nextOp := rfl
@[simp] theorem State.setPen_nextBind (s : State) (p : Nat) (x : Pen) : (s.setPen p x).nextBind = s.nextBind := rfl
@[simp] theorem State.setPen_nextOrder (s : State) (p : Nat) (x : Pen) : (s.setPen p x).nextOrder = s.nextOrder := rfl
@[simp] theorem State.setPen_lines (s : State) (p : Nat) (x : Pen) : (s.setPen p x).lines = s.lines := rfl
@[simp] theorem State.setPen_tlb (s : State) (p : Nat) (x : Pen) : (s.setPen p x).tlb = s.tlb := rfl
@[simp] theorem State.setPen_shepDown (s : State) (p : Nat) (x : Pen) : (s.setPen p x).shepDown = s.shepDown := rfl
@[simp] theorem State.setPen_naps (s : State) (p : Nat) (x : Pen) : (s.setPen p x).naps = s.naps := rfl
@[simp] theorem State.setPen_segNaps (s : State) (p : Nat) (x : Pen) : (s.setPen p x).segNaps = s.segNaps := rfl
@[simp] theorem State.setPen_funcs (s : State) (p : Nat) (x : Pen) : (s.setPen p x).funcs = s.funcs := rfl
@[simp] theorem State.setPen_poison (s : State) (p : Nat) (x : Pen) : (s.setPen p x).poison = s.poison := rfl
@[simp] theorem State.setPen_poisonL2 (s : State) (p : Nat) (x : Pen) : (s.setPen p x).poisonL2 = s.poisonL2 := rfl
@[simp] theorem State.setPen_segs (s : State) (p : Nat) (x : Pen) : (s.setPen p x).segs = s.segs := rfl
@[simp] theorem State.setPen_nextGroup (s : State) (p : Nat) (x : Pen) : (s.setPen p x).nextGroup = s.nextGroup := rfl
@[simp] theorem State.setPen_segwait (s : State) (p : Nat) (x : Pen) : (s.setPen p x).segwait = s.segwait := rfl
@[simp] theorem State.setPen_slice (s : State) (p : Nat) (x : Pen) : (s.setPen p x).slice = s.slice := rfl
@[simp] theorem State.setPen_cxlen (s : State) (p : Nat) (x : Pen) : (s.setPen p x).cxlen = s.cxlen := rfl
@[simp] theorem State.setPen_biasGo (s : State) (p : Nat) (x : Pen) : (s.setPen p x).biasGo = s.biasGo := rfl
@[simp] theorem State.setPen_biasDone (s : State) (p : Nat) (x : Pen) : (s.setPen p x).biasDone = s.biasDone := rfl
@[simp] theorem State.setPen_biasDir (s : State) (p : Nat) (x : Pen) : (s.setPen p x).biasDir = s.biasDir := rfl
@[simp] theorem State.setPen_biasPage (s : State) (p : Nat) (x : Pen) : (s.setPen p x).biasPage = s.biasPage := rfl
@[simp] theorem State.setPen_biasNext (s : State) (p : Nat) (x : Pen) : (s.setPen p x).biasNext = s.biasNext := rfl
@[simp] theorem State.setPen_hostBias (s : State) (p : Nat) (x : Pen) : (s.setPen p x).hostBias = s.hostBias := rfl
@[simp] theorem State.setPen_mbreq (s : State) (p : Nat) (x : Pen) : (s.setPen p x).mbreq = s.mbreq := rfl
@[simp] theorem State.setPen_mbrsp (s : State) (p : Nat) (x : Pen) : (s.setPen p x).mbrsp = s.mbrsp := rfl
@[simp] theorem State.setPen_mbBusy (s : State) (p : Nat) (x : Pen) : (s.setPen p x).mbBusy = s.mbBusy := rfl
@[simp] theorem State.setPen_mbDone (s : State) (p : Nat) (x : Pen) : (s.setPen p x).mbDone = s.mbDone := rfl
@[simp] theorem State.setPen_mbReply (s : State) (p : Nat) (x : Pen) : (s.setPen p x).mbReply = s.mbReply := rfl
@[simp] theorem State.setPen_selfTest (s : State) (p : Nat) (x : Pen) : (s.setPen p x).selfTest = s.selfTest := rfl
@[simp] theorem State.setPen_pools (s : State) (p : Nat) (x : Pen) : (s.setPen p x).pools = s.pools := rfl
@[simp] theorem State.setPen_slots (s : State) (p : Nat) (x : Pen) : (s.setPen p x).slots = s.slots := rfl
@[simp] theorem State.setPen_rounds (s : State) (p : Nat) (x : Pen) : (s.setPen p x).rounds = s.rounds := rfl
@[simp] theorem State.setPen_nextPend (s : State) (p : Nat) (x : Pen) : (s.setPen p x).nextPend = s.nextPend := rfl
@[simp] theorem State.setPen_banks (s : State) (p : Nat) (x : Pen) : (s.setPen p x).banks = s.banks := rfl
@[simp] theorem State.setPen_phase (s : State) (p : Nat) (x : Pen) : (s.setPen p x).phase = s.phase := rfl
@[simp] theorem State.setPen_image (s : State) (p : Nat) (x : Pen) : (s.setPen p x).image = s.image := rfl
@[simp] theorem State.setPen_booterr (s : State) (p : Nat) (x : Pen) : (s.setPen p x).booterr = s.booterr := rfl
@[simp] theorem State.setPen_factory (s : State) (p : Nat) (x : Pen) : (s.setPen p x).factory = s.factory := rfl
@[simp] theorem State.setPen_units (s : State) (p : Nat) (x : Pen) : (s.setPen p x).units = s.units := rfl
@[simp] theorem State.setPen_mapver (s : State) (p : Nat) (x : Pen) : (s.setPen p x).mapver = s.mapver := rfl
@[simp] theorem State.setPen_mapAtReady (s : State) (p : Nat) (x : Pen) : (s.setPen p x).mapAtReady = s.mapAtReady := rfl
@[simp] theorem State.setPen_links (s : State) (p : Nat) (x : Pen) : (s.setPen p x).links = s.links := rfl
@[simp] theorem State.setPen_carderIn (s : State) (p : Nat) (x : Pen) : (s.setPen p x).carderIn = s.carderIn := rfl
@[simp] theorem State.setPen_islands (s : State) (p : Nat) (x : Pen) : (s.setPen p x).islands = s.islands := rfl
@[simp] theorem State.setPen_raiseAt (s : State) (p : Nat) (x : Pen) : (s.setPen p x).raiseAt = s.raiseAt := rfl
@[simp] theorem State.setPen_calmAt (s : State) (p : Nat) (x : Pen) : (s.setPen p x).calmAt = s.calmAt := rfl
@[simp] theorem State.setPen_config (s : State) (p : Nat) (x : Pen) : (s.setPen p x).config = s.config := rfl
@[simp] theorem State.setPen_portDrops (s : State) (p : Nat) (x : Pen) : (s.setPen p x).portDrops = s.portDrops := rfl
@[simp] theorem State.setPen_ckpt (s : State) (p : Nat) (x : Pen) : (s.setPen p x).ckpt = s.ckpt := rfl
@[simp] theorem State.setPen_spdmVer (s : State) (p : Nat) (x : Pen) : (s.setPen p x).spdmVer = s.spdmVer := rfl
@[simp] theorem State.setPen_spdmAlg (s : State) (p : Nat) (x : Pen) : (s.setPen p x).spdmAlg = s.spdmAlg := rfl

/-! ## State.setMc -/

@[simp] theorem State.setMc_inbox (s : State) (m : Nat) (x : Mc) : (s.setMc m x).inbox = s.inbox := rfl
@[simp] theorem State.setMc_outbox (s : State) (m : Nat) (x : Mc) : (s.setMc m x).outbox = s.outbox := rfl
@[simp] theorem State.setMc_free (s : State) (m : Nat) (x : Mc) : (s.setMc m x).free = s.free := rfl
@[simp] theorem State.setMc_cur (s : State) (m : Nat) (x : Mc) : (s.setMc m x).cur = s.cur := rfl
@[simp] theorem State.setMc_checked (s : State) (m : Nat) (x : Mc) : (s.setMc m x).checked = s.checked := rfl
@[simp] theorem State.setMc_verdict (s : State) (m : Nat) (x : Mc) : (s.setMc m x).verdict = s.verdict := rfl
@[simp] theorem State.setMc_again (s : State) (m : Nat) (x : Mc) : (s.setMc m x).again = s.again := rfl
@[simp] theorem State.setMc_ending (s : State) (m : Nat) (x : Mc) : (s.setMc m x).ending = s.ending := rfl
@[simp] theorem State.setMc_endingCl (s : State) (m : Nat) (x : Mc) : (s.setMc m x).endingCl = s.endingCl := rfl
@[simp] theorem State.setMc_rtc (s : State) (m : Nat) (x : Mc) : (s.setMc m x).rtc = s.rtc := rfl
@[simp] theorem State.setMc_mem (s : State) (m : Nat) (x : Mc) : (s.setMc m x).mem = s.mem := rfl
@[simp] theorem State.setMc_host (s : State) (m : Nat) (x : Mc) : (s.setMc m x).host = s.host := rfl
@[simp] theorem State.setMc_hostErr (s : State) (m : Nat) (x : Mc) : (s.setMc m x).hostErr = s.hostErr := rfl
@[simp] theorem State.setMc_cores (s : State) (m : Nat) (x : Mc) : (s.setMc m x).cores = s.cores := rfl
@[simp] theorem State.setMc_clusters (s : State) (m : Nat) (x : Mc) : (s.setMc m x).clusters = s.clusters := rfl
@[simp] theorem State.setMc_pens (s : State) (m : Nat) (x : Mc) : (s.setMc m x).pens = s.pens := rfl
@[simp] theorem State.setMc_parts (s : State) (m : Nat) (x : Mc) : (s.setMc m x).parts = s.parts := rfl
@[simp] theorem State.setMc_conts (s : State) (m : Nat) (x : Mc) : (s.setMc m x).conts = s.conts := rfl
@[simp] theorem State.setMc_binds (s : State) (m : Nat) (x : Mc) : (s.setMc m x).binds = s.binds := rfl
@[simp] theorem State.setMc_reserves (s : State) (m : Nat) (x : Mc) : (s.setMc m x).reserves = s.reserves := rfl
@[simp] theorem State.setMc_selDue (s : State) (m : Nat) (x : Mc) : (s.setMc m x).selDue = s.selDue := rfl
@[simp] theorem State.setMc_loans (s : State) (m : Nat) (x : Mc) : (s.setMc m x).loans = s.loans := rfl
@[simp] theorem State.setMc_handlers (s : State) (m : Nat) (x : Mc) : (s.setMc m x).handlers = s.handlers := rfl
@[simp] theorem State.setMc_fences (s : State) (m : Nat) (x : Mc) : (s.setMc m x).fences = s.fences := rfl
@[simp] theorem State.setMc_ops (s : State) (m : Nat) (x : Mc) : (s.setMc m x).ops = s.ops := rfl
@[simp] theorem State.setMc_nextOp (s : State) (m : Nat) (x : Mc) : (s.setMc m x).nextOp = s.nextOp := rfl
@[simp] theorem State.setMc_nextBind (s : State) (m : Nat) (x : Mc) : (s.setMc m x).nextBind = s.nextBind := rfl
@[simp] theorem State.setMc_nextOrder (s : State) (m : Nat) (x : Mc) : (s.setMc m x).nextOrder = s.nextOrder := rfl
@[simp] theorem State.setMc_lines (s : State) (m : Nat) (x : Mc) : (s.setMc m x).lines = s.lines := rfl
@[simp] theorem State.setMc_tlb (s : State) (m : Nat) (x : Mc) : (s.setMc m x).tlb = s.tlb := rfl
@[simp] theorem State.setMc_shepDown (s : State) (m : Nat) (x : Mc) : (s.setMc m x).shepDown = s.shepDown := rfl
@[simp] theorem State.setMc_naps (s : State) (m : Nat) (x : Mc) : (s.setMc m x).naps = s.naps := rfl
@[simp] theorem State.setMc_segNaps (s : State) (m : Nat) (x : Mc) : (s.setMc m x).segNaps = s.segNaps := rfl
@[simp] theorem State.setMc_funcs (s : State) (m : Nat) (x : Mc) : (s.setMc m x).funcs = s.funcs := rfl
@[simp] theorem State.setMc_poison (s : State) (m : Nat) (x : Mc) : (s.setMc m x).poison = s.poison := rfl
@[simp] theorem State.setMc_poisonL2 (s : State) (m : Nat) (x : Mc) : (s.setMc m x).poisonL2 = s.poisonL2 := rfl
@[simp] theorem State.setMc_segs (s : State) (m : Nat) (x : Mc) : (s.setMc m x).segs = s.segs := rfl
@[simp] theorem State.setMc_nextGroup (s : State) (m : Nat) (x : Mc) : (s.setMc m x).nextGroup = s.nextGroup := rfl
@[simp] theorem State.setMc_segwait (s : State) (m : Nat) (x : Mc) : (s.setMc m x).segwait = s.segwait := rfl
@[simp] theorem State.setMc_slice (s : State) (m : Nat) (x : Mc) : (s.setMc m x).slice = s.slice := rfl
@[simp] theorem State.setMc_cxlen (s : State) (m : Nat) (x : Mc) : (s.setMc m x).cxlen = s.cxlen := rfl
@[simp] theorem State.setMc_biasGo (s : State) (m : Nat) (x : Mc) : (s.setMc m x).biasGo = s.biasGo := rfl
@[simp] theorem State.setMc_biasDone (s : State) (m : Nat) (x : Mc) : (s.setMc m x).biasDone = s.biasDone := rfl
@[simp] theorem State.setMc_biasDir (s : State) (m : Nat) (x : Mc) : (s.setMc m x).biasDir = s.biasDir := rfl
@[simp] theorem State.setMc_biasPage (s : State) (m : Nat) (x : Mc) : (s.setMc m x).biasPage = s.biasPage := rfl
@[simp] theorem State.setMc_biasNext (s : State) (m : Nat) (x : Mc) : (s.setMc m x).biasNext = s.biasNext := rfl
@[simp] theorem State.setMc_hostBias (s : State) (m : Nat) (x : Mc) : (s.setMc m x).hostBias = s.hostBias := rfl
@[simp] theorem State.setMc_mbreq (s : State) (m : Nat) (x : Mc) : (s.setMc m x).mbreq = s.mbreq := rfl
@[simp] theorem State.setMc_mbrsp (s : State) (m : Nat) (x : Mc) : (s.setMc m x).mbrsp = s.mbrsp := rfl
@[simp] theorem State.setMc_mbBusy (s : State) (m : Nat) (x : Mc) : (s.setMc m x).mbBusy = s.mbBusy := rfl
@[simp] theorem State.setMc_mbDone (s : State) (m : Nat) (x : Mc) : (s.setMc m x).mbDone = s.mbDone := rfl
@[simp] theorem State.setMc_mbReply (s : State) (m : Nat) (x : Mc) : (s.setMc m x).mbReply = s.mbReply := rfl
@[simp] theorem State.setMc_selfTest (s : State) (m : Nat) (x : Mc) : (s.setMc m x).selfTest = s.selfTest := rfl
@[simp] theorem State.setMc_pools (s : State) (m : Nat) (x : Mc) : (s.setMc m x).pools = s.pools := rfl
@[simp] theorem State.setMc_slots (s : State) (m : Nat) (x : Mc) : (s.setMc m x).slots = s.slots := rfl
@[simp] theorem State.setMc_rounds (s : State) (m : Nat) (x : Mc) : (s.setMc m x).rounds = s.rounds := rfl
@[simp] theorem State.setMc_nextPend (s : State) (m : Nat) (x : Mc) : (s.setMc m x).nextPend = s.nextPend := rfl
@[simp] theorem State.setMc_banks (s : State) (m : Nat) (x : Mc) : (s.setMc m x).banks = s.banks := rfl
@[simp] theorem State.setMc_phase (s : State) (m : Nat) (x : Mc) : (s.setMc m x).phase = s.phase := rfl
@[simp] theorem State.setMc_image (s : State) (m : Nat) (x : Mc) : (s.setMc m x).image = s.image := rfl
@[simp] theorem State.setMc_booterr (s : State) (m : Nat) (x : Mc) : (s.setMc m x).booterr = s.booterr := rfl
@[simp] theorem State.setMc_factory (s : State) (m : Nat) (x : Mc) : (s.setMc m x).factory = s.factory := rfl
@[simp] theorem State.setMc_units (s : State) (m : Nat) (x : Mc) : (s.setMc m x).units = s.units := rfl
@[simp] theorem State.setMc_mapver (s : State) (m : Nat) (x : Mc) : (s.setMc m x).mapver = s.mapver := rfl
@[simp] theorem State.setMc_mapAtReady (s : State) (m : Nat) (x : Mc) : (s.setMc m x).mapAtReady = s.mapAtReady := rfl
@[simp] theorem State.setMc_links (s : State) (m : Nat) (x : Mc) : (s.setMc m x).links = s.links := rfl
@[simp] theorem State.setMc_carderIn (s : State) (m : Nat) (x : Mc) : (s.setMc m x).carderIn = s.carderIn := rfl
@[simp] theorem State.setMc_islands (s : State) (m : Nat) (x : Mc) : (s.setMc m x).islands = s.islands := rfl
@[simp] theorem State.setMc_raiseAt (s : State) (m : Nat) (x : Mc) : (s.setMc m x).raiseAt = s.raiseAt := rfl
@[simp] theorem State.setMc_calmAt (s : State) (m : Nat) (x : Mc) : (s.setMc m x).calmAt = s.calmAt := rfl
@[simp] theorem State.setMc_config (s : State) (m : Nat) (x : Mc) : (s.setMc m x).config = s.config := rfl
@[simp] theorem State.setMc_portDrops (s : State) (m : Nat) (x : Mc) : (s.setMc m x).portDrops = s.portDrops := rfl
@[simp] theorem State.setMc_ckpt (s : State) (m : Nat) (x : Mc) : (s.setMc m x).ckpt = s.ckpt := rfl
@[simp] theorem State.setMc_spdmVer (s : State) (m : Nat) (x : Mc) : (s.setMc m x).spdmVer = s.spdmVer := rfl
@[simp] theorem State.setMc_spdmAlg (s : State) (m : Nat) (x : Mc) : (s.setMc m x).spdmAlg = s.spdmAlg := rfl

/-! ## State.setPart -/

@[simp] theorem State.setPart_inbox (s : State) (p : Nat) (x : Part) : (s.setPart p x).inbox = s.inbox := rfl
@[simp] theorem State.setPart_outbox (s : State) (p : Nat) (x : Part) : (s.setPart p x).outbox = s.outbox := rfl
@[simp] theorem State.setPart_free (s : State) (p : Nat) (x : Part) : (s.setPart p x).free = s.free := rfl
@[simp] theorem State.setPart_cur (s : State) (p : Nat) (x : Part) : (s.setPart p x).cur = s.cur := rfl
@[simp] theorem State.setPart_checked (s : State) (p : Nat) (x : Part) : (s.setPart p x).checked = s.checked := rfl
@[simp] theorem State.setPart_verdict (s : State) (p : Nat) (x : Part) : (s.setPart p x).verdict = s.verdict := rfl
@[simp] theorem State.setPart_again (s : State) (p : Nat) (x : Part) : (s.setPart p x).again = s.again := rfl
@[simp] theorem State.setPart_ending (s : State) (p : Nat) (x : Part) : (s.setPart p x).ending = s.ending := rfl
@[simp] theorem State.setPart_endingCl (s : State) (p : Nat) (x : Part) : (s.setPart p x).endingCl = s.endingCl := rfl
@[simp] theorem State.setPart_rtc (s : State) (p : Nat) (x : Part) : (s.setPart p x).rtc = s.rtc := rfl
@[simp] theorem State.setPart_mem (s : State) (p : Nat) (x : Part) : (s.setPart p x).mem = s.mem := rfl
@[simp] theorem State.setPart_host (s : State) (p : Nat) (x : Part) : (s.setPart p x).host = s.host := rfl
@[simp] theorem State.setPart_hostErr (s : State) (p : Nat) (x : Part) : (s.setPart p x).hostErr = s.hostErr := rfl
@[simp] theorem State.setPart_cores (s : State) (p : Nat) (x : Part) : (s.setPart p x).cores = s.cores := rfl
@[simp] theorem State.setPart_clusters (s : State) (p : Nat) (x : Part) : (s.setPart p x).clusters = s.clusters := rfl
@[simp] theorem State.setPart_pens (s : State) (p : Nat) (x : Part) : (s.setPart p x).pens = s.pens := rfl
@[simp] theorem State.setPart_mcs (s : State) (p : Nat) (x : Part) : (s.setPart p x).mcs = s.mcs := rfl
@[simp] theorem State.setPart_conts (s : State) (p : Nat) (x : Part) : (s.setPart p x).conts = s.conts := rfl
@[simp] theorem State.setPart_binds (s : State) (p : Nat) (x : Part) : (s.setPart p x).binds = s.binds := rfl
@[simp] theorem State.setPart_reserves (s : State) (p : Nat) (x : Part) : (s.setPart p x).reserves = s.reserves := rfl
@[simp] theorem State.setPart_selDue (s : State) (p : Nat) (x : Part) : (s.setPart p x).selDue = s.selDue := rfl
@[simp] theorem State.setPart_loans (s : State) (p : Nat) (x : Part) : (s.setPart p x).loans = s.loans := rfl
@[simp] theorem State.setPart_handlers (s : State) (p : Nat) (x : Part) : (s.setPart p x).handlers = s.handlers := rfl
@[simp] theorem State.setPart_fences (s : State) (p : Nat) (x : Part) : (s.setPart p x).fences = s.fences := rfl
@[simp] theorem State.setPart_ops (s : State) (p : Nat) (x : Part) : (s.setPart p x).ops = s.ops := rfl
@[simp] theorem State.setPart_nextOp (s : State) (p : Nat) (x : Part) : (s.setPart p x).nextOp = s.nextOp := rfl
@[simp] theorem State.setPart_nextBind (s : State) (p : Nat) (x : Part) : (s.setPart p x).nextBind = s.nextBind := rfl
@[simp] theorem State.setPart_nextOrder (s : State) (p : Nat) (x : Part) : (s.setPart p x).nextOrder = s.nextOrder := rfl
@[simp] theorem State.setPart_lines (s : State) (p : Nat) (x : Part) : (s.setPart p x).lines = s.lines := rfl
@[simp] theorem State.setPart_tlb (s : State) (p : Nat) (x : Part) : (s.setPart p x).tlb = s.tlb := rfl
@[simp] theorem State.setPart_shepDown (s : State) (p : Nat) (x : Part) : (s.setPart p x).shepDown = s.shepDown := rfl
@[simp] theorem State.setPart_naps (s : State) (p : Nat) (x : Part) : (s.setPart p x).naps = s.naps := rfl
@[simp] theorem State.setPart_segNaps (s : State) (p : Nat) (x : Part) : (s.setPart p x).segNaps = s.segNaps := rfl
@[simp] theorem State.setPart_funcs (s : State) (p : Nat) (x : Part) : (s.setPart p x).funcs = s.funcs := rfl
@[simp] theorem State.setPart_poison (s : State) (p : Nat) (x : Part) : (s.setPart p x).poison = s.poison := rfl
@[simp] theorem State.setPart_poisonL2 (s : State) (p : Nat) (x : Part) : (s.setPart p x).poisonL2 = s.poisonL2 := rfl
@[simp] theorem State.setPart_segs (s : State) (p : Nat) (x : Part) : (s.setPart p x).segs = s.segs := rfl
@[simp] theorem State.setPart_nextGroup (s : State) (p : Nat) (x : Part) : (s.setPart p x).nextGroup = s.nextGroup := rfl
@[simp] theorem State.setPart_segwait (s : State) (p : Nat) (x : Part) : (s.setPart p x).segwait = s.segwait := rfl
@[simp] theorem State.setPart_slice (s : State) (p : Nat) (x : Part) : (s.setPart p x).slice = s.slice := rfl
@[simp] theorem State.setPart_cxlen (s : State) (p : Nat) (x : Part) : (s.setPart p x).cxlen = s.cxlen := rfl
@[simp] theorem State.setPart_biasGo (s : State) (p : Nat) (x : Part) : (s.setPart p x).biasGo = s.biasGo := rfl
@[simp] theorem State.setPart_biasDone (s : State) (p : Nat) (x : Part) : (s.setPart p x).biasDone = s.biasDone := rfl
@[simp] theorem State.setPart_biasDir (s : State) (p : Nat) (x : Part) : (s.setPart p x).biasDir = s.biasDir := rfl
@[simp] theorem State.setPart_biasPage (s : State) (p : Nat) (x : Part) : (s.setPart p x).biasPage = s.biasPage := rfl
@[simp] theorem State.setPart_biasNext (s : State) (p : Nat) (x : Part) : (s.setPart p x).biasNext = s.biasNext := rfl
@[simp] theorem State.setPart_hostBias (s : State) (p : Nat) (x : Part) : (s.setPart p x).hostBias = s.hostBias := rfl
@[simp] theorem State.setPart_mbreq (s : State) (p : Nat) (x : Part) : (s.setPart p x).mbreq = s.mbreq := rfl
@[simp] theorem State.setPart_mbrsp (s : State) (p : Nat) (x : Part) : (s.setPart p x).mbrsp = s.mbrsp := rfl
@[simp] theorem State.setPart_mbBusy (s : State) (p : Nat) (x : Part) : (s.setPart p x).mbBusy = s.mbBusy := rfl
@[simp] theorem State.setPart_mbDone (s : State) (p : Nat) (x : Part) : (s.setPart p x).mbDone = s.mbDone := rfl
@[simp] theorem State.setPart_mbReply (s : State) (p : Nat) (x : Part) : (s.setPart p x).mbReply = s.mbReply := rfl
@[simp] theorem State.setPart_selfTest (s : State) (p : Nat) (x : Part) : (s.setPart p x).selfTest = s.selfTest := rfl
@[simp] theorem State.setPart_pools (s : State) (p : Nat) (x : Part) : (s.setPart p x).pools = s.pools := rfl
@[simp] theorem State.setPart_slots (s : State) (p : Nat) (x : Part) : (s.setPart p x).slots = s.slots := rfl
@[simp] theorem State.setPart_rounds (s : State) (p : Nat) (x : Part) : (s.setPart p x).rounds = s.rounds := rfl
@[simp] theorem State.setPart_nextPend (s : State) (p : Nat) (x : Part) : (s.setPart p x).nextPend = s.nextPend := rfl
@[simp] theorem State.setPart_banks (s : State) (p : Nat) (x : Part) : (s.setPart p x).banks = s.banks := rfl
@[simp] theorem State.setPart_phase (s : State) (p : Nat) (x : Part) : (s.setPart p x).phase = s.phase := rfl
@[simp] theorem State.setPart_image (s : State) (p : Nat) (x : Part) : (s.setPart p x).image = s.image := rfl
@[simp] theorem State.setPart_booterr (s : State) (p : Nat) (x : Part) : (s.setPart p x).booterr = s.booterr := rfl
@[simp] theorem State.setPart_factory (s : State) (p : Nat) (x : Part) : (s.setPart p x).factory = s.factory := rfl
@[simp] theorem State.setPart_units (s : State) (p : Nat) (x : Part) : (s.setPart p x).units = s.units := rfl
@[simp] theorem State.setPart_mapver (s : State) (p : Nat) (x : Part) : (s.setPart p x).mapver = s.mapver := rfl
@[simp] theorem State.setPart_mapAtReady (s : State) (p : Nat) (x : Part) : (s.setPart p x).mapAtReady = s.mapAtReady := rfl
@[simp] theorem State.setPart_links (s : State) (p : Nat) (x : Part) : (s.setPart p x).links = s.links := rfl
@[simp] theorem State.setPart_carderIn (s : State) (p : Nat) (x : Part) : (s.setPart p x).carderIn = s.carderIn := rfl
@[simp] theorem State.setPart_islands (s : State) (p : Nat) (x : Part) : (s.setPart p x).islands = s.islands := rfl
@[simp] theorem State.setPart_raiseAt (s : State) (p : Nat) (x : Part) : (s.setPart p x).raiseAt = s.raiseAt := rfl
@[simp] theorem State.setPart_calmAt (s : State) (p : Nat) (x : Part) : (s.setPart p x).calmAt = s.calmAt := rfl
@[simp] theorem State.setPart_config (s : State) (p : Nat) (x : Part) : (s.setPart p x).config = s.config := rfl
@[simp] theorem State.setPart_portDrops (s : State) (p : Nat) (x : Part) : (s.setPart p x).portDrops = s.portDrops := rfl
@[simp] theorem State.setPart_ckpt (s : State) (p : Nat) (x : Part) : (s.setPart p x).ckpt = s.ckpt := rfl
@[simp] theorem State.setPart_spdmVer (s : State) (p : Nat) (x : Part) : (s.setPart p x).spdmVer = s.spdmVer := rfl
@[simp] theorem State.setPart_spdmAlg (s : State) (p : Nat) (x : Part) : (s.setPart p x).spdmAlg = s.spdmAlg := rfl

/-! ## State.setCont -/

@[simp] theorem State.setCont_inbox (s : State) (k : Nat) (x : Cont) : (s.setCont k x).inbox = s.inbox := rfl
@[simp] theorem State.setCont_outbox (s : State) (k : Nat) (x : Cont) : (s.setCont k x).outbox = s.outbox := rfl
@[simp] theorem State.setCont_free (s : State) (k : Nat) (x : Cont) : (s.setCont k x).free = s.free := rfl
@[simp] theorem State.setCont_cur (s : State) (k : Nat) (x : Cont) : (s.setCont k x).cur = s.cur := rfl
@[simp] theorem State.setCont_checked (s : State) (k : Nat) (x : Cont) : (s.setCont k x).checked = s.checked := rfl
@[simp] theorem State.setCont_verdict (s : State) (k : Nat) (x : Cont) : (s.setCont k x).verdict = s.verdict := rfl
@[simp] theorem State.setCont_again (s : State) (k : Nat) (x : Cont) : (s.setCont k x).again = s.again := rfl
@[simp] theorem State.setCont_ending (s : State) (k : Nat) (x : Cont) : (s.setCont k x).ending = s.ending := rfl
@[simp] theorem State.setCont_endingCl (s : State) (k : Nat) (x : Cont) : (s.setCont k x).endingCl = s.endingCl := rfl
@[simp] theorem State.setCont_rtc (s : State) (k : Nat) (x : Cont) : (s.setCont k x).rtc = s.rtc := rfl
@[simp] theorem State.setCont_mem (s : State) (k : Nat) (x : Cont) : (s.setCont k x).mem = s.mem := rfl
@[simp] theorem State.setCont_host (s : State) (k : Nat) (x : Cont) : (s.setCont k x).host = s.host := rfl
@[simp] theorem State.setCont_hostErr (s : State) (k : Nat) (x : Cont) : (s.setCont k x).hostErr = s.hostErr := rfl
@[simp] theorem State.setCont_cores (s : State) (k : Nat) (x : Cont) : (s.setCont k x).cores = s.cores := rfl
@[simp] theorem State.setCont_clusters (s : State) (k : Nat) (x : Cont) : (s.setCont k x).clusters = s.clusters := rfl
@[simp] theorem State.setCont_pens (s : State) (k : Nat) (x : Cont) : (s.setCont k x).pens = s.pens := rfl
@[simp] theorem State.setCont_mcs (s : State) (k : Nat) (x : Cont) : (s.setCont k x).mcs = s.mcs := rfl
@[simp] theorem State.setCont_parts (s : State) (k : Nat) (x : Cont) : (s.setCont k x).parts = s.parts := rfl
@[simp] theorem State.setCont_binds (s : State) (k : Nat) (x : Cont) : (s.setCont k x).binds = s.binds := rfl
@[simp] theorem State.setCont_reserves (s : State) (k : Nat) (x : Cont) : (s.setCont k x).reserves = s.reserves := rfl
@[simp] theorem State.setCont_selDue (s : State) (k : Nat) (x : Cont) : (s.setCont k x).selDue = s.selDue := rfl
@[simp] theorem State.setCont_loans (s : State) (k : Nat) (x : Cont) : (s.setCont k x).loans = s.loans := rfl
@[simp] theorem State.setCont_handlers (s : State) (k : Nat) (x : Cont) : (s.setCont k x).handlers = s.handlers := rfl
@[simp] theorem State.setCont_fences (s : State) (k : Nat) (x : Cont) : (s.setCont k x).fences = s.fences := rfl
@[simp] theorem State.setCont_ops (s : State) (k : Nat) (x : Cont) : (s.setCont k x).ops = s.ops := rfl
@[simp] theorem State.setCont_nextOp (s : State) (k : Nat) (x : Cont) : (s.setCont k x).nextOp = s.nextOp := rfl
@[simp] theorem State.setCont_nextBind (s : State) (k : Nat) (x : Cont) : (s.setCont k x).nextBind = s.nextBind := rfl
@[simp] theorem State.setCont_nextOrder (s : State) (k : Nat) (x : Cont) : (s.setCont k x).nextOrder = s.nextOrder := rfl
@[simp] theorem State.setCont_lines (s : State) (k : Nat) (x : Cont) : (s.setCont k x).lines = s.lines := rfl
@[simp] theorem State.setCont_tlb (s : State) (k : Nat) (x : Cont) : (s.setCont k x).tlb = s.tlb := rfl
@[simp] theorem State.setCont_shepDown (s : State) (k : Nat) (x : Cont) : (s.setCont k x).shepDown = s.shepDown := rfl
@[simp] theorem State.setCont_naps (s : State) (k : Nat) (x : Cont) : (s.setCont k x).naps = s.naps := rfl
@[simp] theorem State.setCont_segNaps (s : State) (k : Nat) (x : Cont) : (s.setCont k x).segNaps = s.segNaps := rfl
@[simp] theorem State.setCont_funcs (s : State) (k : Nat) (x : Cont) : (s.setCont k x).funcs = s.funcs := rfl
@[simp] theorem State.setCont_poison (s : State) (k : Nat) (x : Cont) : (s.setCont k x).poison = s.poison := rfl
@[simp] theorem State.setCont_poisonL2 (s : State) (k : Nat) (x : Cont) : (s.setCont k x).poisonL2 = s.poisonL2 := rfl
@[simp] theorem State.setCont_segs (s : State) (k : Nat) (x : Cont) : (s.setCont k x).segs = s.segs := rfl
@[simp] theorem State.setCont_nextGroup (s : State) (k : Nat) (x : Cont) : (s.setCont k x).nextGroup = s.nextGroup := rfl
@[simp] theorem State.setCont_segwait (s : State) (k : Nat) (x : Cont) : (s.setCont k x).segwait = s.segwait := rfl
@[simp] theorem State.setCont_slice (s : State) (k : Nat) (x : Cont) : (s.setCont k x).slice = s.slice := rfl
@[simp] theorem State.setCont_cxlen (s : State) (k : Nat) (x : Cont) : (s.setCont k x).cxlen = s.cxlen := rfl
@[simp] theorem State.setCont_biasGo (s : State) (k : Nat) (x : Cont) : (s.setCont k x).biasGo = s.biasGo := rfl
@[simp] theorem State.setCont_biasDone (s : State) (k : Nat) (x : Cont) : (s.setCont k x).biasDone = s.biasDone := rfl
@[simp] theorem State.setCont_biasDir (s : State) (k : Nat) (x : Cont) : (s.setCont k x).biasDir = s.biasDir := rfl
@[simp] theorem State.setCont_biasPage (s : State) (k : Nat) (x : Cont) : (s.setCont k x).biasPage = s.biasPage := rfl
@[simp] theorem State.setCont_biasNext (s : State) (k : Nat) (x : Cont) : (s.setCont k x).biasNext = s.biasNext := rfl
@[simp] theorem State.setCont_hostBias (s : State) (k : Nat) (x : Cont) : (s.setCont k x).hostBias = s.hostBias := rfl
@[simp] theorem State.setCont_mbreq (s : State) (k : Nat) (x : Cont) : (s.setCont k x).mbreq = s.mbreq := rfl
@[simp] theorem State.setCont_mbrsp (s : State) (k : Nat) (x : Cont) : (s.setCont k x).mbrsp = s.mbrsp := rfl
@[simp] theorem State.setCont_mbBusy (s : State) (k : Nat) (x : Cont) : (s.setCont k x).mbBusy = s.mbBusy := rfl
@[simp] theorem State.setCont_mbDone (s : State) (k : Nat) (x : Cont) : (s.setCont k x).mbDone = s.mbDone := rfl
@[simp] theorem State.setCont_mbReply (s : State) (k : Nat) (x : Cont) : (s.setCont k x).mbReply = s.mbReply := rfl
@[simp] theorem State.setCont_selfTest (s : State) (k : Nat) (x : Cont) : (s.setCont k x).selfTest = s.selfTest := rfl
@[simp] theorem State.setCont_pools (s : State) (k : Nat) (x : Cont) : (s.setCont k x).pools = s.pools := rfl
@[simp] theorem State.setCont_slots (s : State) (k : Nat) (x : Cont) : (s.setCont k x).slots = s.slots := rfl
@[simp] theorem State.setCont_rounds (s : State) (k : Nat) (x : Cont) : (s.setCont k x).rounds = s.rounds := rfl
@[simp] theorem State.setCont_nextPend (s : State) (k : Nat) (x : Cont) : (s.setCont k x).nextPend = s.nextPend := rfl
@[simp] theorem State.setCont_banks (s : State) (k : Nat) (x : Cont) : (s.setCont k x).banks = s.banks := rfl
@[simp] theorem State.setCont_phase (s : State) (k : Nat) (x : Cont) : (s.setCont k x).phase = s.phase := rfl
@[simp] theorem State.setCont_image (s : State) (k : Nat) (x : Cont) : (s.setCont k x).image = s.image := rfl
@[simp] theorem State.setCont_booterr (s : State) (k : Nat) (x : Cont) : (s.setCont k x).booterr = s.booterr := rfl
@[simp] theorem State.setCont_factory (s : State) (k : Nat) (x : Cont) : (s.setCont k x).factory = s.factory := rfl
@[simp] theorem State.setCont_units (s : State) (k : Nat) (x : Cont) : (s.setCont k x).units = s.units := rfl
@[simp] theorem State.setCont_mapver (s : State) (k : Nat) (x : Cont) : (s.setCont k x).mapver = s.mapver := rfl
@[simp] theorem State.setCont_mapAtReady (s : State) (k : Nat) (x : Cont) : (s.setCont k x).mapAtReady = s.mapAtReady := rfl
@[simp] theorem State.setCont_links (s : State) (k : Nat) (x : Cont) : (s.setCont k x).links = s.links := rfl
@[simp] theorem State.setCont_carderIn (s : State) (k : Nat) (x : Cont) : (s.setCont k x).carderIn = s.carderIn := rfl
@[simp] theorem State.setCont_islands (s : State) (k : Nat) (x : Cont) : (s.setCont k x).islands = s.islands := rfl
@[simp] theorem State.setCont_raiseAt (s : State) (k : Nat) (x : Cont) : (s.setCont k x).raiseAt = s.raiseAt := rfl
@[simp] theorem State.setCont_calmAt (s : State) (k : Nat) (x : Cont) : (s.setCont k x).calmAt = s.calmAt := rfl
@[simp] theorem State.setCont_config (s : State) (k : Nat) (x : Cont) : (s.setCont k x).config = s.config := rfl
@[simp] theorem State.setCont_portDrops (s : State) (k : Nat) (x : Cont) : (s.setCont k x).portDrops = s.portDrops := rfl
@[simp] theorem State.setCont_ckpt (s : State) (k : Nat) (x : Cont) : (s.setCont k x).ckpt = s.ckpt := rfl
@[simp] theorem State.setCont_spdmVer (s : State) (k : Nat) (x : Cont) : (s.setCont k x).spdmVer = s.spdmVer := rfl
@[simp] theorem State.setCont_spdmAlg (s : State) (k : Nat) (x : Cont) : (s.setCont k x).spdmAlg = s.spdmAlg := rfl

/-! ## State.setBind -/

@[simp] theorem State.setBind_inbox (s : State) (b : Nat) (x : Binding) : (s.setBind b x).inbox = s.inbox := rfl
@[simp] theorem State.setBind_outbox (s : State) (b : Nat) (x : Binding) : (s.setBind b x).outbox = s.outbox := rfl
@[simp] theorem State.setBind_free (s : State) (b : Nat) (x : Binding) : (s.setBind b x).free = s.free := rfl
@[simp] theorem State.setBind_cur (s : State) (b : Nat) (x : Binding) : (s.setBind b x).cur = s.cur := rfl
@[simp] theorem State.setBind_checked (s : State) (b : Nat) (x : Binding) : (s.setBind b x).checked = s.checked := rfl
@[simp] theorem State.setBind_verdict (s : State) (b : Nat) (x : Binding) : (s.setBind b x).verdict = s.verdict := rfl
@[simp] theorem State.setBind_again (s : State) (b : Nat) (x : Binding) : (s.setBind b x).again = s.again := rfl
@[simp] theorem State.setBind_ending (s : State) (b : Nat) (x : Binding) : (s.setBind b x).ending = s.ending := rfl
@[simp] theorem State.setBind_endingCl (s : State) (b : Nat) (x : Binding) : (s.setBind b x).endingCl = s.endingCl := rfl
@[simp] theorem State.setBind_rtc (s : State) (b : Nat) (x : Binding) : (s.setBind b x).rtc = s.rtc := rfl
@[simp] theorem State.setBind_mem (s : State) (b : Nat) (x : Binding) : (s.setBind b x).mem = s.mem := rfl
@[simp] theorem State.setBind_host (s : State) (b : Nat) (x : Binding) : (s.setBind b x).host = s.host := rfl
@[simp] theorem State.setBind_hostErr (s : State) (b : Nat) (x : Binding) : (s.setBind b x).hostErr = s.hostErr := rfl
@[simp] theorem State.setBind_cores (s : State) (b : Nat) (x : Binding) : (s.setBind b x).cores = s.cores := rfl
@[simp] theorem State.setBind_clusters (s : State) (b : Nat) (x : Binding) : (s.setBind b x).clusters = s.clusters := rfl
@[simp] theorem State.setBind_pens (s : State) (b : Nat) (x : Binding) : (s.setBind b x).pens = s.pens := rfl
@[simp] theorem State.setBind_mcs (s : State) (b : Nat) (x : Binding) : (s.setBind b x).mcs = s.mcs := rfl
@[simp] theorem State.setBind_parts (s : State) (b : Nat) (x : Binding) : (s.setBind b x).parts = s.parts := rfl
@[simp] theorem State.setBind_conts (s : State) (b : Nat) (x : Binding) : (s.setBind b x).conts = s.conts := rfl
@[simp] theorem State.setBind_reserves (s : State) (b : Nat) (x : Binding) : (s.setBind b x).reserves = s.reserves := rfl
@[simp] theorem State.setBind_selDue (s : State) (b : Nat) (x : Binding) : (s.setBind b x).selDue = s.selDue := rfl
@[simp] theorem State.setBind_loans (s : State) (b : Nat) (x : Binding) : (s.setBind b x).loans = s.loans := rfl
@[simp] theorem State.setBind_handlers (s : State) (b : Nat) (x : Binding) : (s.setBind b x).handlers = s.handlers := rfl
@[simp] theorem State.setBind_fences (s : State) (b : Nat) (x : Binding) : (s.setBind b x).fences = s.fences := rfl
@[simp] theorem State.setBind_ops (s : State) (b : Nat) (x : Binding) : (s.setBind b x).ops = s.ops := rfl
@[simp] theorem State.setBind_nextOp (s : State) (b : Nat) (x : Binding) : (s.setBind b x).nextOp = s.nextOp := rfl
@[simp] theorem State.setBind_nextBind (s : State) (b : Nat) (x : Binding) : (s.setBind b x).nextBind = s.nextBind := rfl
@[simp] theorem State.setBind_nextOrder (s : State) (b : Nat) (x : Binding) : (s.setBind b x).nextOrder = s.nextOrder := rfl
@[simp] theorem State.setBind_lines (s : State) (b : Nat) (x : Binding) : (s.setBind b x).lines = s.lines := rfl
@[simp] theorem State.setBind_tlb (s : State) (b : Nat) (x : Binding) : (s.setBind b x).tlb = s.tlb := rfl
@[simp] theorem State.setBind_shepDown (s : State) (b : Nat) (x : Binding) : (s.setBind b x).shepDown = s.shepDown := rfl
@[simp] theorem State.setBind_naps (s : State) (b : Nat) (x : Binding) : (s.setBind b x).naps = s.naps := rfl
@[simp] theorem State.setBind_segNaps (s : State) (b : Nat) (x : Binding) : (s.setBind b x).segNaps = s.segNaps := rfl
@[simp] theorem State.setBind_funcs (s : State) (b : Nat) (x : Binding) : (s.setBind b x).funcs = s.funcs := rfl
@[simp] theorem State.setBind_poison (s : State) (b : Nat) (x : Binding) : (s.setBind b x).poison = s.poison := rfl
@[simp] theorem State.setBind_poisonL2 (s : State) (b : Nat) (x : Binding) : (s.setBind b x).poisonL2 = s.poisonL2 := rfl
@[simp] theorem State.setBind_segs (s : State) (b : Nat) (x : Binding) : (s.setBind b x).segs = s.segs := rfl
@[simp] theorem State.setBind_nextGroup (s : State) (b : Nat) (x : Binding) : (s.setBind b x).nextGroup = s.nextGroup := rfl
@[simp] theorem State.setBind_segwait (s : State) (b : Nat) (x : Binding) : (s.setBind b x).segwait = s.segwait := rfl
@[simp] theorem State.setBind_slice (s : State) (b : Nat) (x : Binding) : (s.setBind b x).slice = s.slice := rfl
@[simp] theorem State.setBind_cxlen (s : State) (b : Nat) (x : Binding) : (s.setBind b x).cxlen = s.cxlen := rfl
@[simp] theorem State.setBind_biasGo (s : State) (b : Nat) (x : Binding) : (s.setBind b x).biasGo = s.biasGo := rfl
@[simp] theorem State.setBind_biasDone (s : State) (b : Nat) (x : Binding) : (s.setBind b x).biasDone = s.biasDone := rfl
@[simp] theorem State.setBind_biasDir (s : State) (b : Nat) (x : Binding) : (s.setBind b x).biasDir = s.biasDir := rfl
@[simp] theorem State.setBind_biasPage (s : State) (b : Nat) (x : Binding) : (s.setBind b x).biasPage = s.biasPage := rfl
@[simp] theorem State.setBind_biasNext (s : State) (b : Nat) (x : Binding) : (s.setBind b x).biasNext = s.biasNext := rfl
@[simp] theorem State.setBind_hostBias (s : State) (b : Nat) (x : Binding) : (s.setBind b x).hostBias = s.hostBias := rfl
@[simp] theorem State.setBind_mbreq (s : State) (b : Nat) (x : Binding) : (s.setBind b x).mbreq = s.mbreq := rfl
@[simp] theorem State.setBind_mbrsp (s : State) (b : Nat) (x : Binding) : (s.setBind b x).mbrsp = s.mbrsp := rfl
@[simp] theorem State.setBind_mbBusy (s : State) (b : Nat) (x : Binding) : (s.setBind b x).mbBusy = s.mbBusy := rfl
@[simp] theorem State.setBind_mbDone (s : State) (b : Nat) (x : Binding) : (s.setBind b x).mbDone = s.mbDone := rfl
@[simp] theorem State.setBind_mbReply (s : State) (b : Nat) (x : Binding) : (s.setBind b x).mbReply = s.mbReply := rfl
@[simp] theorem State.setBind_selfTest (s : State) (b : Nat) (x : Binding) : (s.setBind b x).selfTest = s.selfTest := rfl
@[simp] theorem State.setBind_pools (s : State) (b : Nat) (x : Binding) : (s.setBind b x).pools = s.pools := rfl
@[simp] theorem State.setBind_slots (s : State) (b : Nat) (x : Binding) : (s.setBind b x).slots = s.slots := rfl
@[simp] theorem State.setBind_rounds (s : State) (b : Nat) (x : Binding) : (s.setBind b x).rounds = s.rounds := rfl
@[simp] theorem State.setBind_nextPend (s : State) (b : Nat) (x : Binding) : (s.setBind b x).nextPend = s.nextPend := rfl
@[simp] theorem State.setBind_banks (s : State) (b : Nat) (x : Binding) : (s.setBind b x).banks = s.banks := rfl
@[simp] theorem State.setBind_phase (s : State) (b : Nat) (x : Binding) : (s.setBind b x).phase = s.phase := rfl
@[simp] theorem State.setBind_image (s : State) (b : Nat) (x : Binding) : (s.setBind b x).image = s.image := rfl
@[simp] theorem State.setBind_booterr (s : State) (b : Nat) (x : Binding) : (s.setBind b x).booterr = s.booterr := rfl
@[simp] theorem State.setBind_factory (s : State) (b : Nat) (x : Binding) : (s.setBind b x).factory = s.factory := rfl
@[simp] theorem State.setBind_units (s : State) (b : Nat) (x : Binding) : (s.setBind b x).units = s.units := rfl
@[simp] theorem State.setBind_mapver (s : State) (b : Nat) (x : Binding) : (s.setBind b x).mapver = s.mapver := rfl
@[simp] theorem State.setBind_mapAtReady (s : State) (b : Nat) (x : Binding) : (s.setBind b x).mapAtReady = s.mapAtReady := rfl
@[simp] theorem State.setBind_links (s : State) (b : Nat) (x : Binding) : (s.setBind b x).links = s.links := rfl
@[simp] theorem State.setBind_carderIn (s : State) (b : Nat) (x : Binding) : (s.setBind b x).carderIn = s.carderIn := rfl
@[simp] theorem State.setBind_islands (s : State) (b : Nat) (x : Binding) : (s.setBind b x).islands = s.islands := rfl
@[simp] theorem State.setBind_raiseAt (s : State) (b : Nat) (x : Binding) : (s.setBind b x).raiseAt = s.raiseAt := rfl
@[simp] theorem State.setBind_calmAt (s : State) (b : Nat) (x : Binding) : (s.setBind b x).calmAt = s.calmAt := rfl
@[simp] theorem State.setBind_config (s : State) (b : Nat) (x : Binding) : (s.setBind b x).config = s.config := rfl
@[simp] theorem State.setBind_portDrops (s : State) (b : Nat) (x : Binding) : (s.setBind b x).portDrops = s.portDrops := rfl
@[simp] theorem State.setBind_ckpt (s : State) (b : Nat) (x : Binding) : (s.setBind b x).ckpt = s.ckpt := rfl
@[simp] theorem State.setBind_spdmVer (s : State) (b : Nat) (x : Binding) : (s.setBind b x).spdmVer = s.spdmVer := rfl
@[simp] theorem State.setBind_spdmAlg (s : State) (b : Nat) (x : Binding) : (s.setBind b x).spdmAlg = s.spdmAlg := rfl

/-! ## State.setFence -/

@[simp] theorem State.setFence_inbox (s : State) (n : Nat) (x : Fence) : (s.setFence n x).inbox = s.inbox := rfl
@[simp] theorem State.setFence_outbox (s : State) (n : Nat) (x : Fence) : (s.setFence n x).outbox = s.outbox := rfl
@[simp] theorem State.setFence_free (s : State) (n : Nat) (x : Fence) : (s.setFence n x).free = s.free := rfl
@[simp] theorem State.setFence_cur (s : State) (n : Nat) (x : Fence) : (s.setFence n x).cur = s.cur := rfl
@[simp] theorem State.setFence_checked (s : State) (n : Nat) (x : Fence) : (s.setFence n x).checked = s.checked := rfl
@[simp] theorem State.setFence_verdict (s : State) (n : Nat) (x : Fence) : (s.setFence n x).verdict = s.verdict := rfl
@[simp] theorem State.setFence_again (s : State) (n : Nat) (x : Fence) : (s.setFence n x).again = s.again := rfl
@[simp] theorem State.setFence_ending (s : State) (n : Nat) (x : Fence) : (s.setFence n x).ending = s.ending := rfl
@[simp] theorem State.setFence_endingCl (s : State) (n : Nat) (x : Fence) : (s.setFence n x).endingCl = s.endingCl := rfl
@[simp] theorem State.setFence_rtc (s : State) (n : Nat) (x : Fence) : (s.setFence n x).rtc = s.rtc := rfl
@[simp] theorem State.setFence_mem (s : State) (n : Nat) (x : Fence) : (s.setFence n x).mem = s.mem := rfl
@[simp] theorem State.setFence_host (s : State) (n : Nat) (x : Fence) : (s.setFence n x).host = s.host := rfl
@[simp] theorem State.setFence_hostErr (s : State) (n : Nat) (x : Fence) : (s.setFence n x).hostErr = s.hostErr := rfl
@[simp] theorem State.setFence_cores (s : State) (n : Nat) (x : Fence) : (s.setFence n x).cores = s.cores := rfl
@[simp] theorem State.setFence_clusters (s : State) (n : Nat) (x : Fence) : (s.setFence n x).clusters = s.clusters := rfl
@[simp] theorem State.setFence_pens (s : State) (n : Nat) (x : Fence) : (s.setFence n x).pens = s.pens := rfl
@[simp] theorem State.setFence_mcs (s : State) (n : Nat) (x : Fence) : (s.setFence n x).mcs = s.mcs := rfl
@[simp] theorem State.setFence_parts (s : State) (n : Nat) (x : Fence) : (s.setFence n x).parts = s.parts := rfl
@[simp] theorem State.setFence_conts (s : State) (n : Nat) (x : Fence) : (s.setFence n x).conts = s.conts := rfl
@[simp] theorem State.setFence_binds (s : State) (n : Nat) (x : Fence) : (s.setFence n x).binds = s.binds := rfl
@[simp] theorem State.setFence_reserves (s : State) (n : Nat) (x : Fence) : (s.setFence n x).reserves = s.reserves := rfl
@[simp] theorem State.setFence_selDue (s : State) (n : Nat) (x : Fence) : (s.setFence n x).selDue = s.selDue := rfl
@[simp] theorem State.setFence_loans (s : State) (n : Nat) (x : Fence) : (s.setFence n x).loans = s.loans := rfl
@[simp] theorem State.setFence_handlers (s : State) (n : Nat) (x : Fence) : (s.setFence n x).handlers = s.handlers := rfl
@[simp] theorem State.setFence_ops (s : State) (n : Nat) (x : Fence) : (s.setFence n x).ops = s.ops := rfl
@[simp] theorem State.setFence_nextOp (s : State) (n : Nat) (x : Fence) : (s.setFence n x).nextOp = s.nextOp := rfl
@[simp] theorem State.setFence_nextBind (s : State) (n : Nat) (x : Fence) : (s.setFence n x).nextBind = s.nextBind := rfl
@[simp] theorem State.setFence_nextOrder (s : State) (n : Nat) (x : Fence) : (s.setFence n x).nextOrder = s.nextOrder := rfl
@[simp] theorem State.setFence_lines (s : State) (n : Nat) (x : Fence) : (s.setFence n x).lines = s.lines := rfl
@[simp] theorem State.setFence_tlb (s : State) (n : Nat) (x : Fence) : (s.setFence n x).tlb = s.tlb := rfl
@[simp] theorem State.setFence_shepDown (s : State) (n : Nat) (x : Fence) : (s.setFence n x).shepDown = s.shepDown := rfl
@[simp] theorem State.setFence_naps (s : State) (n : Nat) (x : Fence) : (s.setFence n x).naps = s.naps := rfl
@[simp] theorem State.setFence_segNaps (s : State) (n : Nat) (x : Fence) : (s.setFence n x).segNaps = s.segNaps := rfl
@[simp] theorem State.setFence_funcs (s : State) (n : Nat) (x : Fence) : (s.setFence n x).funcs = s.funcs := rfl
@[simp] theorem State.setFence_poison (s : State) (n : Nat) (x : Fence) : (s.setFence n x).poison = s.poison := rfl
@[simp] theorem State.setFence_poisonL2 (s : State) (n : Nat) (x : Fence) : (s.setFence n x).poisonL2 = s.poisonL2 := rfl
@[simp] theorem State.setFence_segs (s : State) (n : Nat) (x : Fence) : (s.setFence n x).segs = s.segs := rfl
@[simp] theorem State.setFence_nextGroup (s : State) (n : Nat) (x : Fence) : (s.setFence n x).nextGroup = s.nextGroup := rfl
@[simp] theorem State.setFence_segwait (s : State) (n : Nat) (x : Fence) : (s.setFence n x).segwait = s.segwait := rfl
@[simp] theorem State.setFence_slice (s : State) (n : Nat) (x : Fence) : (s.setFence n x).slice = s.slice := rfl
@[simp] theorem State.setFence_cxlen (s : State) (n : Nat) (x : Fence) : (s.setFence n x).cxlen = s.cxlen := rfl
@[simp] theorem State.setFence_biasGo (s : State) (n : Nat) (x : Fence) : (s.setFence n x).biasGo = s.biasGo := rfl
@[simp] theorem State.setFence_biasDone (s : State) (n : Nat) (x : Fence) : (s.setFence n x).biasDone = s.biasDone := rfl
@[simp] theorem State.setFence_biasDir (s : State) (n : Nat) (x : Fence) : (s.setFence n x).biasDir = s.biasDir := rfl
@[simp] theorem State.setFence_biasPage (s : State) (n : Nat) (x : Fence) : (s.setFence n x).biasPage = s.biasPage := rfl
@[simp] theorem State.setFence_biasNext (s : State) (n : Nat) (x : Fence) : (s.setFence n x).biasNext = s.biasNext := rfl
@[simp] theorem State.setFence_hostBias (s : State) (n : Nat) (x : Fence) : (s.setFence n x).hostBias = s.hostBias := rfl
@[simp] theorem State.setFence_mbreq (s : State) (n : Nat) (x : Fence) : (s.setFence n x).mbreq = s.mbreq := rfl
@[simp] theorem State.setFence_mbrsp (s : State) (n : Nat) (x : Fence) : (s.setFence n x).mbrsp = s.mbrsp := rfl
@[simp] theorem State.setFence_mbBusy (s : State) (n : Nat) (x : Fence) : (s.setFence n x).mbBusy = s.mbBusy := rfl
@[simp] theorem State.setFence_mbDone (s : State) (n : Nat) (x : Fence) : (s.setFence n x).mbDone = s.mbDone := rfl
@[simp] theorem State.setFence_mbReply (s : State) (n : Nat) (x : Fence) : (s.setFence n x).mbReply = s.mbReply := rfl
@[simp] theorem State.setFence_selfTest (s : State) (n : Nat) (x : Fence) : (s.setFence n x).selfTest = s.selfTest := rfl
@[simp] theorem State.setFence_pools (s : State) (n : Nat) (x : Fence) : (s.setFence n x).pools = s.pools := rfl
@[simp] theorem State.setFence_slots (s : State) (n : Nat) (x : Fence) : (s.setFence n x).slots = s.slots := rfl
@[simp] theorem State.setFence_rounds (s : State) (n : Nat) (x : Fence) : (s.setFence n x).rounds = s.rounds := rfl
@[simp] theorem State.setFence_nextPend (s : State) (n : Nat) (x : Fence) : (s.setFence n x).nextPend = s.nextPend := rfl
@[simp] theorem State.setFence_banks (s : State) (n : Nat) (x : Fence) : (s.setFence n x).banks = s.banks := rfl
@[simp] theorem State.setFence_phase (s : State) (n : Nat) (x : Fence) : (s.setFence n x).phase = s.phase := rfl
@[simp] theorem State.setFence_image (s : State) (n : Nat) (x : Fence) : (s.setFence n x).image = s.image := rfl
@[simp] theorem State.setFence_booterr (s : State) (n : Nat) (x : Fence) : (s.setFence n x).booterr = s.booterr := rfl
@[simp] theorem State.setFence_factory (s : State) (n : Nat) (x : Fence) : (s.setFence n x).factory = s.factory := rfl
@[simp] theorem State.setFence_units (s : State) (n : Nat) (x : Fence) : (s.setFence n x).units = s.units := rfl
@[simp] theorem State.setFence_mapver (s : State) (n : Nat) (x : Fence) : (s.setFence n x).mapver = s.mapver := rfl
@[simp] theorem State.setFence_mapAtReady (s : State) (n : Nat) (x : Fence) : (s.setFence n x).mapAtReady = s.mapAtReady := rfl
@[simp] theorem State.setFence_links (s : State) (n : Nat) (x : Fence) : (s.setFence n x).links = s.links := rfl
@[simp] theorem State.setFence_carderIn (s : State) (n : Nat) (x : Fence) : (s.setFence n x).carderIn = s.carderIn := rfl
@[simp] theorem State.setFence_islands (s : State) (n : Nat) (x : Fence) : (s.setFence n x).islands = s.islands := rfl
@[simp] theorem State.setFence_raiseAt (s : State) (n : Nat) (x : Fence) : (s.setFence n x).raiseAt = s.raiseAt := rfl
@[simp] theorem State.setFence_calmAt (s : State) (n : Nat) (x : Fence) : (s.setFence n x).calmAt = s.calmAt := rfl
@[simp] theorem State.setFence_config (s : State) (n : Nat) (x : Fence) : (s.setFence n x).config = s.config := rfl
@[simp] theorem State.setFence_portDrops (s : State) (n : Nat) (x : Fence) : (s.setFence n x).portDrops = s.portDrops := rfl
@[simp] theorem State.setFence_ckpt (s : State) (n : Nat) (x : Fence) : (s.setFence n x).ckpt = s.ckpt := rfl
@[simp] theorem State.setFence_spdmVer (s : State) (n : Nat) (x : Fence) : (s.setFence n x).spdmVer = s.spdmVer := rfl
@[simp] theorem State.setFence_spdmAlg (s : State) (n : Nat) (x : Fence) : (s.setFence n x).spdmAlg = s.spdmAlg := rfl

/-! ## State.setFunc -/

@[simp] theorem State.setFunc_inbox (s : State) (n : Nat) (x : Func) : (s.setFunc n x).inbox = s.inbox := rfl
@[simp] theorem State.setFunc_outbox (s : State) (n : Nat) (x : Func) : (s.setFunc n x).outbox = s.outbox := rfl
@[simp] theorem State.setFunc_free (s : State) (n : Nat) (x : Func) : (s.setFunc n x).free = s.free := rfl
@[simp] theorem State.setFunc_cur (s : State) (n : Nat) (x : Func) : (s.setFunc n x).cur = s.cur := rfl
@[simp] theorem State.setFunc_checked (s : State) (n : Nat) (x : Func) : (s.setFunc n x).checked = s.checked := rfl
@[simp] theorem State.setFunc_verdict (s : State) (n : Nat) (x : Func) : (s.setFunc n x).verdict = s.verdict := rfl
@[simp] theorem State.setFunc_again (s : State) (n : Nat) (x : Func) : (s.setFunc n x).again = s.again := rfl
@[simp] theorem State.setFunc_ending (s : State) (n : Nat) (x : Func) : (s.setFunc n x).ending = s.ending := rfl
@[simp] theorem State.setFunc_endingCl (s : State) (n : Nat) (x : Func) : (s.setFunc n x).endingCl = s.endingCl := rfl
@[simp] theorem State.setFunc_rtc (s : State) (n : Nat) (x : Func) : (s.setFunc n x).rtc = s.rtc := rfl
@[simp] theorem State.setFunc_mem (s : State) (n : Nat) (x : Func) : (s.setFunc n x).mem = s.mem := rfl
@[simp] theorem State.setFunc_host (s : State) (n : Nat) (x : Func) : (s.setFunc n x).host = s.host := rfl
@[simp] theorem State.setFunc_hostErr (s : State) (n : Nat) (x : Func) : (s.setFunc n x).hostErr = s.hostErr := rfl
@[simp] theorem State.setFunc_cores (s : State) (n : Nat) (x : Func) : (s.setFunc n x).cores = s.cores := rfl
@[simp] theorem State.setFunc_clusters (s : State) (n : Nat) (x : Func) : (s.setFunc n x).clusters = s.clusters := rfl
@[simp] theorem State.setFunc_pens (s : State) (n : Nat) (x : Func) : (s.setFunc n x).pens = s.pens := rfl
@[simp] theorem State.setFunc_mcs (s : State) (n : Nat) (x : Func) : (s.setFunc n x).mcs = s.mcs := rfl
@[simp] theorem State.setFunc_parts (s : State) (n : Nat) (x : Func) : (s.setFunc n x).parts = s.parts := rfl
@[simp] theorem State.setFunc_conts (s : State) (n : Nat) (x : Func) : (s.setFunc n x).conts = s.conts := rfl
@[simp] theorem State.setFunc_binds (s : State) (n : Nat) (x : Func) : (s.setFunc n x).binds = s.binds := rfl
@[simp] theorem State.setFunc_reserves (s : State) (n : Nat) (x : Func) : (s.setFunc n x).reserves = s.reserves := rfl
@[simp] theorem State.setFunc_selDue (s : State) (n : Nat) (x : Func) : (s.setFunc n x).selDue = s.selDue := rfl
@[simp] theorem State.setFunc_loans (s : State) (n : Nat) (x : Func) : (s.setFunc n x).loans = s.loans := rfl
@[simp] theorem State.setFunc_handlers (s : State) (n : Nat) (x : Func) : (s.setFunc n x).handlers = s.handlers := rfl
@[simp] theorem State.setFunc_fences (s : State) (n : Nat) (x : Func) : (s.setFunc n x).fences = s.fences := rfl
@[simp] theorem State.setFunc_ops (s : State) (n : Nat) (x : Func) : (s.setFunc n x).ops = s.ops := rfl
@[simp] theorem State.setFunc_nextOp (s : State) (n : Nat) (x : Func) : (s.setFunc n x).nextOp = s.nextOp := rfl
@[simp] theorem State.setFunc_nextBind (s : State) (n : Nat) (x : Func) : (s.setFunc n x).nextBind = s.nextBind := rfl
@[simp] theorem State.setFunc_nextOrder (s : State) (n : Nat) (x : Func) : (s.setFunc n x).nextOrder = s.nextOrder := rfl
@[simp] theorem State.setFunc_lines (s : State) (n : Nat) (x : Func) : (s.setFunc n x).lines = s.lines := rfl
@[simp] theorem State.setFunc_tlb (s : State) (n : Nat) (x : Func) : (s.setFunc n x).tlb = s.tlb := rfl
@[simp] theorem State.setFunc_shepDown (s : State) (n : Nat) (x : Func) : (s.setFunc n x).shepDown = s.shepDown := rfl
@[simp] theorem State.setFunc_naps (s : State) (n : Nat) (x : Func) : (s.setFunc n x).naps = s.naps := rfl
@[simp] theorem State.setFunc_segNaps (s : State) (n : Nat) (x : Func) : (s.setFunc n x).segNaps = s.segNaps := rfl
@[simp] theorem State.setFunc_poison (s : State) (n : Nat) (x : Func) : (s.setFunc n x).poison = s.poison := rfl
@[simp] theorem State.setFunc_poisonL2 (s : State) (n : Nat) (x : Func) : (s.setFunc n x).poisonL2 = s.poisonL2 := rfl
@[simp] theorem State.setFunc_segs (s : State) (n : Nat) (x : Func) : (s.setFunc n x).segs = s.segs := rfl
@[simp] theorem State.setFunc_nextGroup (s : State) (n : Nat) (x : Func) : (s.setFunc n x).nextGroup = s.nextGroup := rfl
@[simp] theorem State.setFunc_segwait (s : State) (n : Nat) (x : Func) : (s.setFunc n x).segwait = s.segwait := rfl
@[simp] theorem State.setFunc_slice (s : State) (n : Nat) (x : Func) : (s.setFunc n x).slice = s.slice := rfl
@[simp] theorem State.setFunc_cxlen (s : State) (n : Nat) (x : Func) : (s.setFunc n x).cxlen = s.cxlen := rfl
@[simp] theorem State.setFunc_biasGo (s : State) (n : Nat) (x : Func) : (s.setFunc n x).biasGo = s.biasGo := rfl
@[simp] theorem State.setFunc_biasDone (s : State) (n : Nat) (x : Func) : (s.setFunc n x).biasDone = s.biasDone := rfl
@[simp] theorem State.setFunc_biasDir (s : State) (n : Nat) (x : Func) : (s.setFunc n x).biasDir = s.biasDir := rfl
@[simp] theorem State.setFunc_biasPage (s : State) (n : Nat) (x : Func) : (s.setFunc n x).biasPage = s.biasPage := rfl
@[simp] theorem State.setFunc_biasNext (s : State) (n : Nat) (x : Func) : (s.setFunc n x).biasNext = s.biasNext := rfl
@[simp] theorem State.setFunc_hostBias (s : State) (n : Nat) (x : Func) : (s.setFunc n x).hostBias = s.hostBias := rfl
@[simp] theorem State.setFunc_mbreq (s : State) (n : Nat) (x : Func) : (s.setFunc n x).mbreq = s.mbreq := rfl
@[simp] theorem State.setFunc_mbrsp (s : State) (n : Nat) (x : Func) : (s.setFunc n x).mbrsp = s.mbrsp := rfl
@[simp] theorem State.setFunc_mbBusy (s : State) (n : Nat) (x : Func) : (s.setFunc n x).mbBusy = s.mbBusy := rfl
@[simp] theorem State.setFunc_mbDone (s : State) (n : Nat) (x : Func) : (s.setFunc n x).mbDone = s.mbDone := rfl
@[simp] theorem State.setFunc_mbReply (s : State) (n : Nat) (x : Func) : (s.setFunc n x).mbReply = s.mbReply := rfl
@[simp] theorem State.setFunc_selfTest (s : State) (n : Nat) (x : Func) : (s.setFunc n x).selfTest = s.selfTest := rfl
@[simp] theorem State.setFunc_pools (s : State) (n : Nat) (x : Func) : (s.setFunc n x).pools = s.pools := rfl
@[simp] theorem State.setFunc_slots (s : State) (n : Nat) (x : Func) : (s.setFunc n x).slots = s.slots := rfl
@[simp] theorem State.setFunc_rounds (s : State) (n : Nat) (x : Func) : (s.setFunc n x).rounds = s.rounds := rfl
@[simp] theorem State.setFunc_nextPend (s : State) (n : Nat) (x : Func) : (s.setFunc n x).nextPend = s.nextPend := rfl
@[simp] theorem State.setFunc_banks (s : State) (n : Nat) (x : Func) : (s.setFunc n x).banks = s.banks := rfl
@[simp] theorem State.setFunc_phase (s : State) (n : Nat) (x : Func) : (s.setFunc n x).phase = s.phase := rfl
@[simp] theorem State.setFunc_image (s : State) (n : Nat) (x : Func) : (s.setFunc n x).image = s.image := rfl
@[simp] theorem State.setFunc_booterr (s : State) (n : Nat) (x : Func) : (s.setFunc n x).booterr = s.booterr := rfl
@[simp] theorem State.setFunc_factory (s : State) (n : Nat) (x : Func) : (s.setFunc n x).factory = s.factory := rfl
@[simp] theorem State.setFunc_units (s : State) (n : Nat) (x : Func) : (s.setFunc n x).units = s.units := rfl
@[simp] theorem State.setFunc_mapver (s : State) (n : Nat) (x : Func) : (s.setFunc n x).mapver = s.mapver := rfl
@[simp] theorem State.setFunc_mapAtReady (s : State) (n : Nat) (x : Func) : (s.setFunc n x).mapAtReady = s.mapAtReady := rfl
@[simp] theorem State.setFunc_links (s : State) (n : Nat) (x : Func) : (s.setFunc n x).links = s.links := rfl
@[simp] theorem State.setFunc_carderIn (s : State) (n : Nat) (x : Func) : (s.setFunc n x).carderIn = s.carderIn := rfl
@[simp] theorem State.setFunc_islands (s : State) (n : Nat) (x : Func) : (s.setFunc n x).islands = s.islands := rfl
@[simp] theorem State.setFunc_raiseAt (s : State) (n : Nat) (x : Func) : (s.setFunc n x).raiseAt = s.raiseAt := rfl
@[simp] theorem State.setFunc_calmAt (s : State) (n : Nat) (x : Func) : (s.setFunc n x).calmAt = s.calmAt := rfl
@[simp] theorem State.setFunc_config (s : State) (n : Nat) (x : Func) : (s.setFunc n x).config = s.config := rfl
@[simp] theorem State.setFunc_portDrops (s : State) (n : Nat) (x : Func) : (s.setFunc n x).portDrops = s.portDrops := rfl
@[simp] theorem State.setFunc_ckpt (s : State) (n : Nat) (x : Func) : (s.setFunc n x).ckpt = s.ckpt := rfl
@[simp] theorem State.setFunc_spdmVer (s : State) (n : Nat) (x : Func) : (s.setFunc n x).spdmVer = s.spdmVer := rfl
@[simp] theorem State.setFunc_spdmAlg (s : State) (n : Nat) (x : Func) : (s.setFunc n x).spdmAlg = s.spdmAlg := rfl

/-! ## State.setLineTs -/

@[simp] theorem State.setLineTs_inbox (s : State) (l : Nat) (x : LineTs) : (s.setLineTs l x).inbox = s.inbox := rfl
@[simp] theorem State.setLineTs_outbox (s : State) (l : Nat) (x : LineTs) : (s.setLineTs l x).outbox = s.outbox := rfl
@[simp] theorem State.setLineTs_free (s : State) (l : Nat) (x : LineTs) : (s.setLineTs l x).free = s.free := rfl
@[simp] theorem State.setLineTs_cur (s : State) (l : Nat) (x : LineTs) : (s.setLineTs l x).cur = s.cur := rfl
@[simp] theorem State.setLineTs_checked (s : State) (l : Nat) (x : LineTs) : (s.setLineTs l x).checked = s.checked := rfl
@[simp] theorem State.setLineTs_verdict (s : State) (l : Nat) (x : LineTs) : (s.setLineTs l x).verdict = s.verdict := rfl
@[simp] theorem State.setLineTs_again (s : State) (l : Nat) (x : LineTs) : (s.setLineTs l x).again = s.again := rfl
@[simp] theorem State.setLineTs_ending (s : State) (l : Nat) (x : LineTs) : (s.setLineTs l x).ending = s.ending := rfl
@[simp] theorem State.setLineTs_endingCl (s : State) (l : Nat) (x : LineTs) : (s.setLineTs l x).endingCl = s.endingCl := rfl
@[simp] theorem State.setLineTs_rtc (s : State) (l : Nat) (x : LineTs) : (s.setLineTs l x).rtc = s.rtc := rfl
@[simp] theorem State.setLineTs_mem (s : State) (l : Nat) (x : LineTs) : (s.setLineTs l x).mem = s.mem := rfl
@[simp] theorem State.setLineTs_host (s : State) (l : Nat) (x : LineTs) : (s.setLineTs l x).host = s.host := rfl
@[simp] theorem State.setLineTs_hostErr (s : State) (l : Nat) (x : LineTs) : (s.setLineTs l x).hostErr = s.hostErr := rfl
@[simp] theorem State.setLineTs_cores (s : State) (l : Nat) (x : LineTs) : (s.setLineTs l x).cores = s.cores := rfl
@[simp] theorem State.setLineTs_clusters (s : State) (l : Nat) (x : LineTs) : (s.setLineTs l x).clusters = s.clusters := rfl
@[simp] theorem State.setLineTs_pens (s : State) (l : Nat) (x : LineTs) : (s.setLineTs l x).pens = s.pens := rfl
@[simp] theorem State.setLineTs_mcs (s : State) (l : Nat) (x : LineTs) : (s.setLineTs l x).mcs = s.mcs := rfl
@[simp] theorem State.setLineTs_parts (s : State) (l : Nat) (x : LineTs) : (s.setLineTs l x).parts = s.parts := rfl
@[simp] theorem State.setLineTs_conts (s : State) (l : Nat) (x : LineTs) : (s.setLineTs l x).conts = s.conts := rfl
@[simp] theorem State.setLineTs_binds (s : State) (l : Nat) (x : LineTs) : (s.setLineTs l x).binds = s.binds := rfl
@[simp] theorem State.setLineTs_reserves (s : State) (l : Nat) (x : LineTs) : (s.setLineTs l x).reserves = s.reserves := rfl
@[simp] theorem State.setLineTs_selDue (s : State) (l : Nat) (x : LineTs) : (s.setLineTs l x).selDue = s.selDue := rfl
@[simp] theorem State.setLineTs_loans (s : State) (l : Nat) (x : LineTs) : (s.setLineTs l x).loans = s.loans := rfl
@[simp] theorem State.setLineTs_handlers (s : State) (l : Nat) (x : LineTs) : (s.setLineTs l x).handlers = s.handlers := rfl
@[simp] theorem State.setLineTs_fences (s : State) (l : Nat) (x : LineTs) : (s.setLineTs l x).fences = s.fences := rfl
@[simp] theorem State.setLineTs_ops (s : State) (l : Nat) (x : LineTs) : (s.setLineTs l x).ops = s.ops := rfl
@[simp] theorem State.setLineTs_nextOp (s : State) (l : Nat) (x : LineTs) : (s.setLineTs l x).nextOp = s.nextOp := rfl
@[simp] theorem State.setLineTs_nextBind (s : State) (l : Nat) (x : LineTs) : (s.setLineTs l x).nextBind = s.nextBind := rfl
@[simp] theorem State.setLineTs_nextOrder (s : State) (l : Nat) (x : LineTs) : (s.setLineTs l x).nextOrder = s.nextOrder := rfl
@[simp] theorem State.setLineTs_tlb (s : State) (l : Nat) (x : LineTs) : (s.setLineTs l x).tlb = s.tlb := rfl
@[simp] theorem State.setLineTs_shepDown (s : State) (l : Nat) (x : LineTs) : (s.setLineTs l x).shepDown = s.shepDown := rfl
@[simp] theorem State.setLineTs_naps (s : State) (l : Nat) (x : LineTs) : (s.setLineTs l x).naps = s.naps := rfl
@[simp] theorem State.setLineTs_segNaps (s : State) (l : Nat) (x : LineTs) : (s.setLineTs l x).segNaps = s.segNaps := rfl
@[simp] theorem State.setLineTs_funcs (s : State) (l : Nat) (x : LineTs) : (s.setLineTs l x).funcs = s.funcs := rfl
@[simp] theorem State.setLineTs_poison (s : State) (l : Nat) (x : LineTs) : (s.setLineTs l x).poison = s.poison := rfl
@[simp] theorem State.setLineTs_poisonL2 (s : State) (l : Nat) (x : LineTs) : (s.setLineTs l x).poisonL2 = s.poisonL2 := rfl
@[simp] theorem State.setLineTs_segs (s : State) (l : Nat) (x : LineTs) : (s.setLineTs l x).segs = s.segs := rfl
@[simp] theorem State.setLineTs_nextGroup (s : State) (l : Nat) (x : LineTs) : (s.setLineTs l x).nextGroup = s.nextGroup := rfl
@[simp] theorem State.setLineTs_segwait (s : State) (l : Nat) (x : LineTs) : (s.setLineTs l x).segwait = s.segwait := rfl
@[simp] theorem State.setLineTs_slice (s : State) (l : Nat) (x : LineTs) : (s.setLineTs l x).slice = s.slice := rfl
@[simp] theorem State.setLineTs_cxlen (s : State) (l : Nat) (x : LineTs) : (s.setLineTs l x).cxlen = s.cxlen := rfl
@[simp] theorem State.setLineTs_biasGo (s : State) (l : Nat) (x : LineTs) : (s.setLineTs l x).biasGo = s.biasGo := rfl
@[simp] theorem State.setLineTs_biasDone (s : State) (l : Nat) (x : LineTs) : (s.setLineTs l x).biasDone = s.biasDone := rfl
@[simp] theorem State.setLineTs_biasDir (s : State) (l : Nat) (x : LineTs) : (s.setLineTs l x).biasDir = s.biasDir := rfl
@[simp] theorem State.setLineTs_biasPage (s : State) (l : Nat) (x : LineTs) : (s.setLineTs l x).biasPage = s.biasPage := rfl
@[simp] theorem State.setLineTs_biasNext (s : State) (l : Nat) (x : LineTs) : (s.setLineTs l x).biasNext = s.biasNext := rfl
@[simp] theorem State.setLineTs_hostBias (s : State) (l : Nat) (x : LineTs) : (s.setLineTs l x).hostBias = s.hostBias := rfl
@[simp] theorem State.setLineTs_mbreq (s : State) (l : Nat) (x : LineTs) : (s.setLineTs l x).mbreq = s.mbreq := rfl
@[simp] theorem State.setLineTs_mbrsp (s : State) (l : Nat) (x : LineTs) : (s.setLineTs l x).mbrsp = s.mbrsp := rfl
@[simp] theorem State.setLineTs_mbBusy (s : State) (l : Nat) (x : LineTs) : (s.setLineTs l x).mbBusy = s.mbBusy := rfl
@[simp] theorem State.setLineTs_mbDone (s : State) (l : Nat) (x : LineTs) : (s.setLineTs l x).mbDone = s.mbDone := rfl
@[simp] theorem State.setLineTs_mbReply (s : State) (l : Nat) (x : LineTs) : (s.setLineTs l x).mbReply = s.mbReply := rfl
@[simp] theorem State.setLineTs_selfTest (s : State) (l : Nat) (x : LineTs) : (s.setLineTs l x).selfTest = s.selfTest := rfl
@[simp] theorem State.setLineTs_pools (s : State) (l : Nat) (x : LineTs) : (s.setLineTs l x).pools = s.pools := rfl
@[simp] theorem State.setLineTs_slots (s : State) (l : Nat) (x : LineTs) : (s.setLineTs l x).slots = s.slots := rfl
@[simp] theorem State.setLineTs_rounds (s : State) (l : Nat) (x : LineTs) : (s.setLineTs l x).rounds = s.rounds := rfl
@[simp] theorem State.setLineTs_nextPend (s : State) (l : Nat) (x : LineTs) : (s.setLineTs l x).nextPend = s.nextPend := rfl
@[simp] theorem State.setLineTs_banks (s : State) (l : Nat) (x : LineTs) : (s.setLineTs l x).banks = s.banks := rfl
@[simp] theorem State.setLineTs_phase (s : State) (l : Nat) (x : LineTs) : (s.setLineTs l x).phase = s.phase := rfl
@[simp] theorem State.setLineTs_image (s : State) (l : Nat) (x : LineTs) : (s.setLineTs l x).image = s.image := rfl
@[simp] theorem State.setLineTs_booterr (s : State) (l : Nat) (x : LineTs) : (s.setLineTs l x).booterr = s.booterr := rfl
@[simp] theorem State.setLineTs_factory (s : State) (l : Nat) (x : LineTs) : (s.setLineTs l x).factory = s.factory := rfl
@[simp] theorem State.setLineTs_units (s : State) (l : Nat) (x : LineTs) : (s.setLineTs l x).units = s.units := rfl
@[simp] theorem State.setLineTs_mapver (s : State) (l : Nat) (x : LineTs) : (s.setLineTs l x).mapver = s.mapver := rfl
@[simp] theorem State.setLineTs_mapAtReady (s : State) (l : Nat) (x : LineTs) : (s.setLineTs l x).mapAtReady = s.mapAtReady := rfl
@[simp] theorem State.setLineTs_links (s : State) (l : Nat) (x : LineTs) : (s.setLineTs l x).links = s.links := rfl
@[simp] theorem State.setLineTs_carderIn (s : State) (l : Nat) (x : LineTs) : (s.setLineTs l x).carderIn = s.carderIn := rfl
@[simp] theorem State.setLineTs_islands (s : State) (l : Nat) (x : LineTs) : (s.setLineTs l x).islands = s.islands := rfl
@[simp] theorem State.setLineTs_raiseAt (s : State) (l : Nat) (x : LineTs) : (s.setLineTs l x).raiseAt = s.raiseAt := rfl
@[simp] theorem State.setLineTs_calmAt (s : State) (l : Nat) (x : LineTs) : (s.setLineTs l x).calmAt = s.calmAt := rfl
@[simp] theorem State.setLineTs_config (s : State) (l : Nat) (x : LineTs) : (s.setLineTs l x).config = s.config := rfl
@[simp] theorem State.setLineTs_portDrops (s : State) (l : Nat) (x : LineTs) : (s.setLineTs l x).portDrops = s.portDrops := rfl
@[simp] theorem State.setLineTs_ckpt (s : State) (l : Nat) (x : LineTs) : (s.setLineTs l x).ckpt = s.ckpt := rfl
@[simp] theorem State.setLineTs_spdmVer (s : State) (l : Nat) (x : LineTs) : (s.setLineTs l x).spdmVer = s.spdmVer := rfl
@[simp] theorem State.setLineTs_spdmAlg (s : State) (l : Nat) (x : LineTs) : (s.setLineTs l x).spdmAlg = s.spdmAlg := rfl

/-! ## State.setOp -/

@[simp] theorem State.setOp_inbox (s : State) (o : Op) : (s.setOp o).inbox = s.inbox := rfl
@[simp] theorem State.setOp_outbox (s : State) (o : Op) : (s.setOp o).outbox = s.outbox := rfl
@[simp] theorem State.setOp_free (s : State) (o : Op) : (s.setOp o).free = s.free := rfl
@[simp] theorem State.setOp_cur (s : State) (o : Op) : (s.setOp o).cur = s.cur := rfl
@[simp] theorem State.setOp_checked (s : State) (o : Op) : (s.setOp o).checked = s.checked := rfl
@[simp] theorem State.setOp_verdict (s : State) (o : Op) : (s.setOp o).verdict = s.verdict := rfl
@[simp] theorem State.setOp_again (s : State) (o : Op) : (s.setOp o).again = s.again := rfl
@[simp] theorem State.setOp_ending (s : State) (o : Op) : (s.setOp o).ending = s.ending := rfl
@[simp] theorem State.setOp_endingCl (s : State) (o : Op) : (s.setOp o).endingCl = s.endingCl := rfl
@[simp] theorem State.setOp_rtc (s : State) (o : Op) : (s.setOp o).rtc = s.rtc := rfl
@[simp] theorem State.setOp_mem (s : State) (o : Op) : (s.setOp o).mem = s.mem := rfl
@[simp] theorem State.setOp_host (s : State) (o : Op) : (s.setOp o).host = s.host := rfl
@[simp] theorem State.setOp_hostErr (s : State) (o : Op) : (s.setOp o).hostErr = s.hostErr := rfl
@[simp] theorem State.setOp_cores (s : State) (o : Op) : (s.setOp o).cores = s.cores := rfl
@[simp] theorem State.setOp_clusters (s : State) (o : Op) : (s.setOp o).clusters = s.clusters := rfl
@[simp] theorem State.setOp_pens (s : State) (o : Op) : (s.setOp o).pens = s.pens := rfl
@[simp] theorem State.setOp_mcs (s : State) (o : Op) : (s.setOp o).mcs = s.mcs := rfl
@[simp] theorem State.setOp_parts (s : State) (o : Op) : (s.setOp o).parts = s.parts := rfl
@[simp] theorem State.setOp_conts (s : State) (o : Op) : (s.setOp o).conts = s.conts := rfl
@[simp] theorem State.setOp_binds (s : State) (o : Op) : (s.setOp o).binds = s.binds := rfl
@[simp] theorem State.setOp_reserves (s : State) (o : Op) : (s.setOp o).reserves = s.reserves := rfl
@[simp] theorem State.setOp_selDue (s : State) (o : Op) : (s.setOp o).selDue = s.selDue := rfl
@[simp] theorem State.setOp_loans (s : State) (o : Op) : (s.setOp o).loans = s.loans := rfl
@[simp] theorem State.setOp_handlers (s : State) (o : Op) : (s.setOp o).handlers = s.handlers := rfl
@[simp] theorem State.setOp_fences (s : State) (o : Op) : (s.setOp o).fences = s.fences := rfl
@[simp] theorem State.setOp_nextOp (s : State) (o : Op) : (s.setOp o).nextOp = s.nextOp := rfl
@[simp] theorem State.setOp_nextBind (s : State) (o : Op) : (s.setOp o).nextBind = s.nextBind := rfl
@[simp] theorem State.setOp_nextOrder (s : State) (o : Op) : (s.setOp o).nextOrder = s.nextOrder := rfl
@[simp] theorem State.setOp_lines (s : State) (o : Op) : (s.setOp o).lines = s.lines := rfl
@[simp] theorem State.setOp_tlb (s : State) (o : Op) : (s.setOp o).tlb = s.tlb := rfl
@[simp] theorem State.setOp_shepDown (s : State) (o : Op) : (s.setOp o).shepDown = s.shepDown := rfl
@[simp] theorem State.setOp_naps (s : State) (o : Op) : (s.setOp o).naps = s.naps := rfl
@[simp] theorem State.setOp_segNaps (s : State) (o : Op) : (s.setOp o).segNaps = s.segNaps := rfl
@[simp] theorem State.setOp_funcs (s : State) (o : Op) : (s.setOp o).funcs = s.funcs := rfl
@[simp] theorem State.setOp_poison (s : State) (o : Op) : (s.setOp o).poison = s.poison := rfl
@[simp] theorem State.setOp_poisonL2 (s : State) (o : Op) : (s.setOp o).poisonL2 = s.poisonL2 := rfl
@[simp] theorem State.setOp_segs (s : State) (o : Op) : (s.setOp o).segs = s.segs := rfl
@[simp] theorem State.setOp_nextGroup (s : State) (o : Op) : (s.setOp o).nextGroup = s.nextGroup := rfl
@[simp] theorem State.setOp_segwait (s : State) (o : Op) : (s.setOp o).segwait = s.segwait := rfl
@[simp] theorem State.setOp_slice (s : State) (o : Op) : (s.setOp o).slice = s.slice := rfl
@[simp] theorem State.setOp_cxlen (s : State) (o : Op) : (s.setOp o).cxlen = s.cxlen := rfl
@[simp] theorem State.setOp_biasGo (s : State) (o : Op) : (s.setOp o).biasGo = s.biasGo := rfl
@[simp] theorem State.setOp_biasDone (s : State) (o : Op) : (s.setOp o).biasDone = s.biasDone := rfl
@[simp] theorem State.setOp_biasDir (s : State) (o : Op) : (s.setOp o).biasDir = s.biasDir := rfl
@[simp] theorem State.setOp_biasPage (s : State) (o : Op) : (s.setOp o).biasPage = s.biasPage := rfl
@[simp] theorem State.setOp_biasNext (s : State) (o : Op) : (s.setOp o).biasNext = s.biasNext := rfl
@[simp] theorem State.setOp_hostBias (s : State) (o : Op) : (s.setOp o).hostBias = s.hostBias := rfl
@[simp] theorem State.setOp_mbreq (s : State) (o : Op) : (s.setOp o).mbreq = s.mbreq := rfl
@[simp] theorem State.setOp_mbrsp (s : State) (o : Op) : (s.setOp o).mbrsp = s.mbrsp := rfl
@[simp] theorem State.setOp_mbBusy (s : State) (o : Op) : (s.setOp o).mbBusy = s.mbBusy := rfl
@[simp] theorem State.setOp_mbDone (s : State) (o : Op) : (s.setOp o).mbDone = s.mbDone := rfl
@[simp] theorem State.setOp_mbReply (s : State) (o : Op) : (s.setOp o).mbReply = s.mbReply := rfl
@[simp] theorem State.setOp_selfTest (s : State) (o : Op) : (s.setOp o).selfTest = s.selfTest := rfl
@[simp] theorem State.setOp_pools (s : State) (o : Op) : (s.setOp o).pools = s.pools := rfl
@[simp] theorem State.setOp_slots (s : State) (o : Op) : (s.setOp o).slots = s.slots := rfl
@[simp] theorem State.setOp_rounds (s : State) (o : Op) : (s.setOp o).rounds = s.rounds := rfl
@[simp] theorem State.setOp_nextPend (s : State) (o : Op) : (s.setOp o).nextPend = s.nextPend := rfl
@[simp] theorem State.setOp_banks (s : State) (o : Op) : (s.setOp o).banks = s.banks := rfl
@[simp] theorem State.setOp_phase (s : State) (o : Op) : (s.setOp o).phase = s.phase := rfl
@[simp] theorem State.setOp_image (s : State) (o : Op) : (s.setOp o).image = s.image := rfl
@[simp] theorem State.setOp_booterr (s : State) (o : Op) : (s.setOp o).booterr = s.booterr := rfl
@[simp] theorem State.setOp_factory (s : State) (o : Op) : (s.setOp o).factory = s.factory := rfl
@[simp] theorem State.setOp_units (s : State) (o : Op) : (s.setOp o).units = s.units := rfl
@[simp] theorem State.setOp_mapver (s : State) (o : Op) : (s.setOp o).mapver = s.mapver := rfl
@[simp] theorem State.setOp_mapAtReady (s : State) (o : Op) : (s.setOp o).mapAtReady = s.mapAtReady := rfl
@[simp] theorem State.setOp_links (s : State) (o : Op) : (s.setOp o).links = s.links := rfl
@[simp] theorem State.setOp_carderIn (s : State) (o : Op) : (s.setOp o).carderIn = s.carderIn := rfl
@[simp] theorem State.setOp_islands (s : State) (o : Op) : (s.setOp o).islands = s.islands := rfl
@[simp] theorem State.setOp_raiseAt (s : State) (o : Op) : (s.setOp o).raiseAt = s.raiseAt := rfl
@[simp] theorem State.setOp_calmAt (s : State) (o : Op) : (s.setOp o).calmAt = s.calmAt := rfl
@[simp] theorem State.setOp_config (s : State) (o : Op) : (s.setOp o).config = s.config := rfl
@[simp] theorem State.setOp_portDrops (s : State) (o : Op) : (s.setOp o).portDrops = s.portDrops := rfl
@[simp] theorem State.setOp_ckpt (s : State) (o : Op) : (s.setOp o).ckpt = s.ckpt := rfl
@[simp] theorem State.setOp_spdmVer (s : State) (o : Op) : (s.setOp o).spdmVer = s.spdmVer := rfl
@[simp] theorem State.setOp_spdmAlg (s : State) (o : Op) : (s.setOp o).spdmAlg = s.spdmAlg := rfl

/-! ## State.dropOp -/

@[simp] theorem State.dropOp_inbox (s : State) (i : Nat) : (s.dropOp i).inbox = s.inbox := rfl
@[simp] theorem State.dropOp_outbox (s : State) (i : Nat) : (s.dropOp i).outbox = s.outbox := rfl
@[simp] theorem State.dropOp_free (s : State) (i : Nat) : (s.dropOp i).free = s.free := rfl
@[simp] theorem State.dropOp_cur (s : State) (i : Nat) : (s.dropOp i).cur = s.cur := rfl
@[simp] theorem State.dropOp_checked (s : State) (i : Nat) : (s.dropOp i).checked = s.checked := rfl
@[simp] theorem State.dropOp_verdict (s : State) (i : Nat) : (s.dropOp i).verdict = s.verdict := rfl
@[simp] theorem State.dropOp_again (s : State) (i : Nat) : (s.dropOp i).again = s.again := rfl
@[simp] theorem State.dropOp_ending (s : State) (i : Nat) : (s.dropOp i).ending = s.ending := rfl
@[simp] theorem State.dropOp_endingCl (s : State) (i : Nat) : (s.dropOp i).endingCl = s.endingCl := rfl
@[simp] theorem State.dropOp_rtc (s : State) (i : Nat) : (s.dropOp i).rtc = s.rtc := rfl
@[simp] theorem State.dropOp_mem (s : State) (i : Nat) : (s.dropOp i).mem = s.mem := rfl
@[simp] theorem State.dropOp_host (s : State) (i : Nat) : (s.dropOp i).host = s.host := rfl
@[simp] theorem State.dropOp_hostErr (s : State) (i : Nat) : (s.dropOp i).hostErr = s.hostErr := rfl
@[simp] theorem State.dropOp_cores (s : State) (i : Nat) : (s.dropOp i).cores = s.cores := rfl
@[simp] theorem State.dropOp_clusters (s : State) (i : Nat) : (s.dropOp i).clusters = s.clusters := rfl
@[simp] theorem State.dropOp_pens (s : State) (i : Nat) : (s.dropOp i).pens = s.pens := rfl
@[simp] theorem State.dropOp_mcs (s : State) (i : Nat) : (s.dropOp i).mcs = s.mcs := rfl
@[simp] theorem State.dropOp_parts (s : State) (i : Nat) : (s.dropOp i).parts = s.parts := rfl
@[simp] theorem State.dropOp_conts (s : State) (i : Nat) : (s.dropOp i).conts = s.conts := rfl
@[simp] theorem State.dropOp_binds (s : State) (i : Nat) : (s.dropOp i).binds = s.binds := rfl
@[simp] theorem State.dropOp_reserves (s : State) (i : Nat) : (s.dropOp i).reserves = s.reserves := rfl
@[simp] theorem State.dropOp_selDue (s : State) (i : Nat) : (s.dropOp i).selDue = s.selDue := rfl
@[simp] theorem State.dropOp_loans (s : State) (i : Nat) : (s.dropOp i).loans = s.loans := rfl
@[simp] theorem State.dropOp_handlers (s : State) (i : Nat) : (s.dropOp i).handlers = s.handlers := rfl
@[simp] theorem State.dropOp_fences (s : State) (i : Nat) : (s.dropOp i).fences = s.fences := rfl
@[simp] theorem State.dropOp_nextOp (s : State) (i : Nat) : (s.dropOp i).nextOp = s.nextOp := rfl
@[simp] theorem State.dropOp_nextBind (s : State) (i : Nat) : (s.dropOp i).nextBind = s.nextBind := rfl
@[simp] theorem State.dropOp_nextOrder (s : State) (i : Nat) : (s.dropOp i).nextOrder = s.nextOrder := rfl
@[simp] theorem State.dropOp_lines (s : State) (i : Nat) : (s.dropOp i).lines = s.lines := rfl
@[simp] theorem State.dropOp_shepDown (s : State) (i : Nat) : (s.dropOp i).shepDown = s.shepDown := rfl
@[simp] theorem State.dropOp_naps (s : State) (i : Nat) : (s.dropOp i).naps = s.naps := rfl
@[simp] theorem State.dropOp_segNaps (s : State) (i : Nat) : (s.dropOp i).segNaps = s.segNaps := rfl
@[simp] theorem State.dropOp_funcs (s : State) (i : Nat) : (s.dropOp i).funcs = s.funcs := rfl
@[simp] theorem State.dropOp_poison (s : State) (i : Nat) : (s.dropOp i).poison = s.poison := rfl
@[simp] theorem State.dropOp_poisonL2 (s : State) (i : Nat) : (s.dropOp i).poisonL2 = s.poisonL2 := rfl
@[simp] theorem State.dropOp_segs (s : State) (i : Nat) : (s.dropOp i).segs = s.segs := rfl
@[simp] theorem State.dropOp_nextGroup (s : State) (i : Nat) : (s.dropOp i).nextGroup = s.nextGroup := rfl
@[simp] theorem State.dropOp_segwait (s : State) (i : Nat) : (s.dropOp i).segwait = s.segwait := rfl
@[simp] theorem State.dropOp_slice (s : State) (i : Nat) : (s.dropOp i).slice = s.slice := rfl
@[simp] theorem State.dropOp_cxlen (s : State) (i : Nat) : (s.dropOp i).cxlen = s.cxlen := rfl
@[simp] theorem State.dropOp_biasGo (s : State) (i : Nat) : (s.dropOp i).biasGo = s.biasGo := rfl
@[simp] theorem State.dropOp_biasDone (s : State) (i : Nat) : (s.dropOp i).biasDone = s.biasDone := rfl
@[simp] theorem State.dropOp_biasDir (s : State) (i : Nat) : (s.dropOp i).biasDir = s.biasDir := rfl
@[simp] theorem State.dropOp_biasPage (s : State) (i : Nat) : (s.dropOp i).biasPage = s.biasPage := rfl
@[simp] theorem State.dropOp_biasNext (s : State) (i : Nat) : (s.dropOp i).biasNext = s.biasNext := rfl
@[simp] theorem State.dropOp_hostBias (s : State) (i : Nat) : (s.dropOp i).hostBias = s.hostBias := rfl
@[simp] theorem State.dropOp_mbreq (s : State) (i : Nat) : (s.dropOp i).mbreq = s.mbreq := rfl
@[simp] theorem State.dropOp_mbrsp (s : State) (i : Nat) : (s.dropOp i).mbrsp = s.mbrsp := rfl
@[simp] theorem State.dropOp_mbBusy (s : State) (i : Nat) : (s.dropOp i).mbBusy = s.mbBusy := rfl
@[simp] theorem State.dropOp_mbDone (s : State) (i : Nat) : (s.dropOp i).mbDone = s.mbDone := rfl
@[simp] theorem State.dropOp_mbReply (s : State) (i : Nat) : (s.dropOp i).mbReply = s.mbReply := rfl
@[simp] theorem State.dropOp_selfTest (s : State) (i : Nat) : (s.dropOp i).selfTest = s.selfTest := rfl
@[simp] theorem State.dropOp_pools (s : State) (i : Nat) : (s.dropOp i).pools = s.pools := rfl
@[simp] theorem State.dropOp_slots (s : State) (i : Nat) : (s.dropOp i).slots = s.slots := rfl
@[simp] theorem State.dropOp_rounds (s : State) (i : Nat) : (s.dropOp i).rounds = s.rounds := rfl
@[simp] theorem State.dropOp_nextPend (s : State) (i : Nat) : (s.dropOp i).nextPend = s.nextPend := rfl
@[simp] theorem State.dropOp_banks (s : State) (i : Nat) : (s.dropOp i).banks = s.banks := rfl
@[simp] theorem State.dropOp_phase (s : State) (i : Nat) : (s.dropOp i).phase = s.phase := rfl
@[simp] theorem State.dropOp_image (s : State) (i : Nat) : (s.dropOp i).image = s.image := rfl
@[simp] theorem State.dropOp_booterr (s : State) (i : Nat) : (s.dropOp i).booterr = s.booterr := rfl
@[simp] theorem State.dropOp_factory (s : State) (i : Nat) : (s.dropOp i).factory = s.factory := rfl
@[simp] theorem State.dropOp_units (s : State) (i : Nat) : (s.dropOp i).units = s.units := rfl
@[simp] theorem State.dropOp_mapver (s : State) (i : Nat) : (s.dropOp i).mapver = s.mapver := rfl
@[simp] theorem State.dropOp_mapAtReady (s : State) (i : Nat) : (s.dropOp i).mapAtReady = s.mapAtReady := rfl
@[simp] theorem State.dropOp_links (s : State) (i : Nat) : (s.dropOp i).links = s.links := rfl
@[simp] theorem State.dropOp_carderIn (s : State) (i : Nat) : (s.dropOp i).carderIn = s.carderIn := rfl
@[simp] theorem State.dropOp_islands (s : State) (i : Nat) : (s.dropOp i).islands = s.islands := rfl
@[simp] theorem State.dropOp_raiseAt (s : State) (i : Nat) : (s.dropOp i).raiseAt = s.raiseAt := rfl
@[simp] theorem State.dropOp_calmAt (s : State) (i : Nat) : (s.dropOp i).calmAt = s.calmAt := rfl
@[simp] theorem State.dropOp_config (s : State) (i : Nat) : (s.dropOp i).config = s.config := rfl
@[simp] theorem State.dropOp_portDrops (s : State) (i : Nat) : (s.dropOp i).portDrops = s.portDrops := rfl
@[simp] theorem State.dropOp_ckpt (s : State) (i : Nat) : (s.dropOp i).ckpt = s.ckpt := rfl
@[simp] theorem State.dropOp_spdmVer (s : State) (i : Nat) : (s.dropOp i).spdmVer = s.spdmVer := rfl
@[simp] theorem State.dropOp_spdmAlg (s : State) (i : Nat) : (s.dropOp i).spdmAlg = s.spdmAlg := rfl

/-! ## State.pushOp -/

@[simp] theorem State.pushOp_inbox (s : State) (o : Op) : (s.pushOp o).inbox = s.inbox := rfl
@[simp] theorem State.pushOp_outbox (s : State) (o : Op) : (s.pushOp o).outbox = s.outbox := rfl
@[simp] theorem State.pushOp_free (s : State) (o : Op) : (s.pushOp o).free = s.free := rfl
@[simp] theorem State.pushOp_cur (s : State) (o : Op) : (s.pushOp o).cur = s.cur := rfl
@[simp] theorem State.pushOp_checked (s : State) (o : Op) : (s.pushOp o).checked = s.checked := rfl
@[simp] theorem State.pushOp_verdict (s : State) (o : Op) : (s.pushOp o).verdict = s.verdict := rfl
@[simp] theorem State.pushOp_again (s : State) (o : Op) : (s.pushOp o).again = s.again := rfl
@[simp] theorem State.pushOp_ending (s : State) (o : Op) : (s.pushOp o).ending = s.ending := rfl
@[simp] theorem State.pushOp_endingCl (s : State) (o : Op) : (s.pushOp o).endingCl = s.endingCl := rfl
@[simp] theorem State.pushOp_rtc (s : State) (o : Op) : (s.pushOp o).rtc = s.rtc := rfl
@[simp] theorem State.pushOp_mem (s : State) (o : Op) : (s.pushOp o).mem = s.mem := rfl
@[simp] theorem State.pushOp_host (s : State) (o : Op) : (s.pushOp o).host = s.host := rfl
@[simp] theorem State.pushOp_hostErr (s : State) (o : Op) : (s.pushOp o).hostErr = s.hostErr := rfl
@[simp] theorem State.pushOp_cores (s : State) (o : Op) : (s.pushOp o).cores = s.cores := rfl
@[simp] theorem State.pushOp_clusters (s : State) (o : Op) : (s.pushOp o).clusters = s.clusters := rfl
@[simp] theorem State.pushOp_pens (s : State) (o : Op) : (s.pushOp o).pens = s.pens := rfl
@[simp] theorem State.pushOp_mcs (s : State) (o : Op) : (s.pushOp o).mcs = s.mcs := rfl
@[simp] theorem State.pushOp_parts (s : State) (o : Op) : (s.pushOp o).parts = s.parts := rfl
@[simp] theorem State.pushOp_conts (s : State) (o : Op) : (s.pushOp o).conts = s.conts := rfl
@[simp] theorem State.pushOp_binds (s : State) (o : Op) : (s.pushOp o).binds = s.binds := rfl
@[simp] theorem State.pushOp_reserves (s : State) (o : Op) : (s.pushOp o).reserves = s.reserves := rfl
@[simp] theorem State.pushOp_selDue (s : State) (o : Op) : (s.pushOp o).selDue = s.selDue := rfl
@[simp] theorem State.pushOp_loans (s : State) (o : Op) : (s.pushOp o).loans = s.loans := rfl
@[simp] theorem State.pushOp_handlers (s : State) (o : Op) : (s.pushOp o).handlers = s.handlers := rfl
@[simp] theorem State.pushOp_fences (s : State) (o : Op) : (s.pushOp o).fences = s.fences := rfl
@[simp] theorem State.pushOp_nextBind (s : State) (o : Op) : (s.pushOp o).nextBind = s.nextBind := rfl
@[simp] theorem State.pushOp_nextOrder (s : State) (o : Op) : (s.pushOp o).nextOrder = s.nextOrder := rfl
@[simp] theorem State.pushOp_lines (s : State) (o : Op) : (s.pushOp o).lines = s.lines := rfl
@[simp] theorem State.pushOp_tlb (s : State) (o : Op) : (s.pushOp o).tlb = s.tlb := rfl
@[simp] theorem State.pushOp_shepDown (s : State) (o : Op) : (s.pushOp o).shepDown = s.shepDown := rfl
@[simp] theorem State.pushOp_naps (s : State) (o : Op) : (s.pushOp o).naps = s.naps := rfl
@[simp] theorem State.pushOp_segNaps (s : State) (o : Op) : (s.pushOp o).segNaps = s.segNaps := rfl
@[simp] theorem State.pushOp_funcs (s : State) (o : Op) : (s.pushOp o).funcs = s.funcs := rfl
@[simp] theorem State.pushOp_poison (s : State) (o : Op) : (s.pushOp o).poison = s.poison := rfl
@[simp] theorem State.pushOp_poisonL2 (s : State) (o : Op) : (s.pushOp o).poisonL2 = s.poisonL2 := rfl
@[simp] theorem State.pushOp_segs (s : State) (o : Op) : (s.pushOp o).segs = s.segs := rfl
@[simp] theorem State.pushOp_nextGroup (s : State) (o : Op) : (s.pushOp o).nextGroup = s.nextGroup := rfl
@[simp] theorem State.pushOp_segwait (s : State) (o : Op) : (s.pushOp o).segwait = s.segwait := rfl
@[simp] theorem State.pushOp_slice (s : State) (o : Op) : (s.pushOp o).slice = s.slice := rfl
@[simp] theorem State.pushOp_cxlen (s : State) (o : Op) : (s.pushOp o).cxlen = s.cxlen := rfl
@[simp] theorem State.pushOp_biasGo (s : State) (o : Op) : (s.pushOp o).biasGo = s.biasGo := rfl
@[simp] theorem State.pushOp_biasDone (s : State) (o : Op) : (s.pushOp o).biasDone = s.biasDone := rfl
@[simp] theorem State.pushOp_biasDir (s : State) (o : Op) : (s.pushOp o).biasDir = s.biasDir := rfl
@[simp] theorem State.pushOp_biasPage (s : State) (o : Op) : (s.pushOp o).biasPage = s.biasPage := rfl
@[simp] theorem State.pushOp_biasNext (s : State) (o : Op) : (s.pushOp o).biasNext = s.biasNext := rfl
@[simp] theorem State.pushOp_hostBias (s : State) (o : Op) : (s.pushOp o).hostBias = s.hostBias := rfl
@[simp] theorem State.pushOp_mbreq (s : State) (o : Op) : (s.pushOp o).mbreq = s.mbreq := rfl
@[simp] theorem State.pushOp_mbrsp (s : State) (o : Op) : (s.pushOp o).mbrsp = s.mbrsp := rfl
@[simp] theorem State.pushOp_mbBusy (s : State) (o : Op) : (s.pushOp o).mbBusy = s.mbBusy := rfl
@[simp] theorem State.pushOp_mbDone (s : State) (o : Op) : (s.pushOp o).mbDone = s.mbDone := rfl
@[simp] theorem State.pushOp_mbReply (s : State) (o : Op) : (s.pushOp o).mbReply = s.mbReply := rfl
@[simp] theorem State.pushOp_selfTest (s : State) (o : Op) : (s.pushOp o).selfTest = s.selfTest := rfl
@[simp] theorem State.pushOp_pools (s : State) (o : Op) : (s.pushOp o).pools = s.pools := rfl
@[simp] theorem State.pushOp_slots (s : State) (o : Op) : (s.pushOp o).slots = s.slots := rfl
@[simp] theorem State.pushOp_rounds (s : State) (o : Op) : (s.pushOp o).rounds = s.rounds := rfl
@[simp] theorem State.pushOp_nextPend (s : State) (o : Op) : (s.pushOp o).nextPend = s.nextPend := rfl
@[simp] theorem State.pushOp_banks (s : State) (o : Op) : (s.pushOp o).banks = s.banks := rfl
@[simp] theorem State.pushOp_phase (s : State) (o : Op) : (s.pushOp o).phase = s.phase := rfl
@[simp] theorem State.pushOp_image (s : State) (o : Op) : (s.pushOp o).image = s.image := rfl
@[simp] theorem State.pushOp_booterr (s : State) (o : Op) : (s.pushOp o).booterr = s.booterr := rfl
@[simp] theorem State.pushOp_factory (s : State) (o : Op) : (s.pushOp o).factory = s.factory := rfl
@[simp] theorem State.pushOp_units (s : State) (o : Op) : (s.pushOp o).units = s.units := rfl
@[simp] theorem State.pushOp_mapver (s : State) (o : Op) : (s.pushOp o).mapver = s.mapver := rfl
@[simp] theorem State.pushOp_mapAtReady (s : State) (o : Op) : (s.pushOp o).mapAtReady = s.mapAtReady := rfl
@[simp] theorem State.pushOp_links (s : State) (o : Op) : (s.pushOp o).links = s.links := rfl
@[simp] theorem State.pushOp_carderIn (s : State) (o : Op) : (s.pushOp o).carderIn = s.carderIn := rfl
@[simp] theorem State.pushOp_islands (s : State) (o : Op) : (s.pushOp o).islands = s.islands := rfl
@[simp] theorem State.pushOp_raiseAt (s : State) (o : Op) : (s.pushOp o).raiseAt = s.raiseAt := rfl
@[simp] theorem State.pushOp_calmAt (s : State) (o : Op) : (s.pushOp o).calmAt = s.calmAt := rfl
@[simp] theorem State.pushOp_config (s : State) (o : Op) : (s.pushOp o).config = s.config := rfl
@[simp] theorem State.pushOp_portDrops (s : State) (o : Op) : (s.pushOp o).portDrops = s.portDrops := rfl
@[simp] theorem State.pushOp_ckpt (s : State) (o : Op) : (s.pushOp o).ckpt = s.ckpt := rfl
@[simp] theorem State.pushOp_spdmVer (s : State) (o : Op) : (s.pushOp o).spdmVer = s.spdmVer := rfl
@[simp] theorem State.pushOp_spdmAlg (s : State) (o : Op) : (s.pushOp o).spdmAlg = s.spdmAlg := rfl

end Sys2Proof.Machine
end

