-- ==== Sys2Proof/Laws/Tables.lean ====
section
/-!
SUPPORT. Laws of the sparse tables: reading after writing, and the canonical form that every operation keeps.
-/
namespace Sys2Proof.Machine
set_option Elab.async false
open Sys2Proof

variable {V : Type}

/-! ## Reading after writing -/

theorem SMap.get_ins_self (d : V) (m : SMap V) (k : Nat) (v : V) (h : ∀ e ∈ m, e.1 ≠ k) :
    SMap.get d (SMap.ins k v m) k = v := by
  induction m with
  | nil => simp [SMap.ins, SMap.get]
  | cons e r ih =>
    obtain ⟨i, w⟩ := e
    have hi : i ≠ k := h (i, w) (by simp)
    by_cases hk : k < i
    · simp [SMap.ins, SMap.get, hk]
    · simp [SMap.ins, SMap.get, hk, hi, ih (fun e he => h e (by simp [he]))]

theorem SMap.get_ins_ne (d : V) (m : SMap V) (k j : Nat) (v : V) (h : j ≠ k) :
    SMap.get d (SMap.ins k v m) j = SMap.get d m j := by
  induction m with
  | nil => simp [SMap.ins, SMap.get, h.symm]
  | cons e r ih =>
    obtain ⟨i, w⟩ := e
    by_cases hk : k < i
    · simp [SMap.ins, SMap.get, hk, h.symm]
    · simp only [SMap.ins, hk, if_false, SMap.get, ih]

theorem SMap.get_filter (d : V) (m : SMap V) (p : Nat → Bool) (j : Nat) (h : p j = true) :
    SMap.get d (m.filter (fun e => p e.1)) j = SMap.get d m j := by
  induction m with
  | nil => rfl
  | cons e r ih =>
    obtain ⟨i, w⟩ := e
    by_cases hi : i = j
    · subst hi; simp [List.filter, h, SMap.get]
    · by_cases hp : p i = true <;> simp [List.filter, hp, SMap.get, hi, ih]

theorem SMap.get_filter_out (d : V) (m : SMap V) (p : Nat → Bool) (j : Nat) (h : p j = false) :
    SMap.get d (m.filter (fun e => p e.1)) j = d := by
  induction m with
  | nil => rfl
  | cons e r ih =>
    obtain ⟨i, w⟩ := e
    by_cases hp : p i = true
    · have : i ≠ j := fun hi => by simp [hi, h] at hp
      simp [List.filter, hp, SMap.get, this, ih]
    · simp [List.filter, hp, ih]

theorem SMap.get_drop_self (d : V) (m : SMap V) (k : Nat) : SMap.get d (SMap.drop k m) k = d :=
  SMap.get_filter_out d m (fun i => i != k) k (by simp)

theorem SMap.get_drop_ne (d : V) (m : SMap V) (k j : Nat) (h : j ≠ k) :
    SMap.get d (SMap.drop k m) j = SMap.get d m j :=
  SMap.get_filter d m (fun i => i != k) j (by simp [h])

theorem SMap.get_set_self [DecidableEq V] (d : V) (m : SMap V) (k : Nat) (v : V) :
    SMap.get d (SMap.set d m k v) k = v := by
  unfold SMap.set
  split
  · rename_i h; rw [SMap.get_drop_self, h]
  · exact SMap.get_ins_self d _ k v (by simp [SMap.drop])

theorem SMap.get_set_ne [DecidableEq V] (d : V) (m : SMap V) (k j : Nat) (v : V) (h : j ≠ k) :
    SMap.get d (SMap.set d m k v) j = SMap.get d m j := by
  unfold SMap.set
  split
  · exact SMap.get_drop_ne d m k j h
  · rw [SMap.get_ins_ne d _ k j v h, SMap.get_drop_ne d m k j h]

theorem SMap.get_set [DecidableEq V] (d : V) (m : SMap V) (k j : Nat) (v : V) :
    SMap.get d (SMap.set d m k v) j = if j = k then v else SMap.get d m j := by
  split
  · rename_i h; rw [h, SMap.get_set_self]
  · rename_i h; exact SMap.get_set_ne d m k j v h

theorem SMap.get_clear (d : V) (m : SMap V) (lo n j : Nat) :
    SMap.get d (SMap.clear m lo n) j = if lo ≤ j ∧ j < lo + n then d else SMap.get d m j := by
  split
  · exact SMap.get_filter_out d m (fun i => i < lo || lo + n ≤ i) j (by simp; omega)
  · exact SMap.get_filter d m (fun i => i < lo || lo + n ≤ i) j (by simp; omega)

theorem SMap.get_append_right (d : V) (m n : SMap V) (j : Nat) (h : ∀ e ∈ m, e.1 ≠ j) :
    SMap.get d (m ++ n) j = SMap.get d n j := by
  induction m with
  | nil => rfl
  | cons e r ih =>
    obtain ⟨i, w⟩ := e
    have hi : i ≠ j := h (i, w) (by simp)
    simp only [List.cons_append, SMap.get, if_neg hi]
    exact ih (fun e he => h e (by simp [he]))

theorem SMap.get_absent (d : V) (m : SMap V) (j : Nat) (h : ∀ e ∈ m, e.1 ≠ j) : SMap.get d m j = d := by
  have := SMap.get_append_right d m [] j h
  simpa [SMap.get] using this

theorem SMap.get_append_left (d : V) (m n : SMap V) (j : Nat) (h : ∀ e ∈ n, e.1 ≠ j) :
    SMap.get d (m ++ n) j = SMap.get d m j := by
  induction m with
  | nil => exact SMap.get_absent d n j h
  | cons e r ih =>
    obtain ⟨i, w⟩ := e
    simp only [List.cons_append, SMap.get, ih]

/-! ## The canonical form -/

theorem SMap.wf_nil [DecidableEq V] (d : V) : SMap.wf d ([] : SMap V) = true := rfl

/-- The canonical form says that the list is sorted by key and holds no default. -/
theorem SMap.wf_iff [DecidableEq V] (d : V) (m : SMap V) :
    SMap.wf d m = true ↔ m.Pairwise (fun x y => x.1 < y.1) ∧ ∀ e ∈ m, e.2 ≠ d := by
  induction m with
  | nil => simp [SMap.wf]
  | cons e r ih =>
    obtain ⟨k, v⟩ := e
    simp only [SMap.wf, Bool.and_eq_true, decide_eq_true_eq, List.all_eq_true, ih, List.pairwise_cons,
      List.forall_mem_cons]
    tauto

theorem SMap.wf_filter [DecidableEq V] {d : V} {m : SMap V} (p : Nat × V → Bool) (h : SMap.wf d m = true) :
    SMap.wf d (m.filter p) = true := by
  rw [SMap.wf_iff] at *
  exact ⟨h.1.filter p, fun e he => h.2 e (List.mem_filter.mp he).1⟩

theorem SMap.wf_drop [DecidableEq V] {d : V} {m : SMap V} (k : Nat) (h : SMap.wf d m = true) :
    SMap.wf d (SMap.drop k m) = true := SMap.wf_filter _ h

theorem SMap.wf_clear [DecidableEq V] {d : V} {m : SMap V} (lo n : Nat) (h : SMap.wf d m = true) :
    SMap.wf d (SMap.clear m lo n) = true := SMap.wf_filter _ h

theorem SMap.mem_ins (m : SMap V) (k : Nat) (v : V) (e : Nat × V) : e ∈ SMap.ins k v m ↔ e = (k, v) ∨ e ∈ m := by
  induction m with
  | nil => simp [SMap.ins]
  | cons x r ih =>
    obtain ⟨i, w⟩ := x
    by_cases hk : k < i
    · simp [SMap.ins, hk]
    · simp only [SMap.ins, hk, if_false, List.mem_cons, ih]; tauto

theorem SMap.sorted_ins (m : SMap V) (k : Nat) (v : V) (hs : m.Pairwise (fun x y => x.1 < y.1)) (hk : ∀ e ∈ m, e.1 ≠ k) :
    (SMap.ins k v m).Pairwise (fun x y => x.1 < y.1) := by
  induction m with
  | nil => simp [SMap.ins]
  | cons x r ih =>
    obtain ⟨i, w⟩ := x
    have hi : i ≠ k := hk (i, w) (by simp)
    rw [List.pairwise_cons] at hs
    by_cases h : k < i
    · rw [SMap.ins, if_pos h, List.pairwise_cons, List.forall_mem_cons]
      exact ⟨⟨h, fun e he => lt_trans h (hs.1 e he)⟩, List.pairwise_cons.mpr hs⟩
    · rw [SMap.ins, if_neg h, List.pairwise_cons]
      refine ⟨fun e he => ?_, ih hs.2 (fun e he => hk e (by simp [he]))⟩
      rcases (SMap.mem_ins r k v e).mp he with rfl | he
      · show i < k; omega
      · exact hs.1 e he

theorem SMap.wf_set [DecidableEq V] {d : V} {m : SMap V} (k : Nat) (v : V) (h : SMap.wf d m = true) :
    SMap.wf d (SMap.set d m k v) = true := by
  unfold SMap.set
  split
  · exact SMap.wf_drop k h
  · rename_i hv
    have h' := (SMap.wf_iff d _).mp (SMap.wf_drop k h)
    rw [SMap.wf_iff]
    refine ⟨SMap.sorted_ins _ k v h'.1 (by simp [SMap.drop]), fun e he => ?_⟩
    rcases (SMap.mem_ins _ k v e).mp he with rfl | he
    · exact hv
    · exact h'.2 e he

end Sys2Proof.Machine
end

