-- ==== Sys2Proof/Laws/Registers.lean ====
section
/-!
SUPPORT. Laws of the registers: which core and which continuation an update reaches, and what a register reads after a write
(R36, R37).
-/
namespace Sys2Proof.Machine
set_option Elab.async false
open Sys2Proof

/-! ## Cores -/

theorem State.coreAt_setCoreAt (s : State) (c c' : Nat) (x : Core) :
    (s.setCoreAt c x).coreAt c' = if c' = c then x else s.coreAt c' := SMap.get_set ({} : Core) s.cores c c' x
@[simp] theorem State.coreAt_setCoreAt_self (s : State) (c : Nat) (x : Core) : (s.setCoreAt c x).coreAt c = x :=
  SMap.get_set_self ({} : Core) s.cores c x
@[simp] theorem State.core_setCore (s : State) (x : Core) : (s.setCore x).core = x :=
  SMap.get_set_self ({} : Core) s.cores s.cur x
@[simp] theorem State.cur_setCore (s : State) (x : Core) : (s.setCore x).cur = s.cur := rfl
@[simp] theorem State.core_setArch (s : State) (a : Arch) : (s.setArch a).core = { s.core with now := a } :=
  SMap.get_set_self ({} : Core) s.cores s.cur _
@[simp] theorem State.arch_setArch (s : State) (a : Arch) : (s.setArch a).arch = a := by
  simp [State.arch]
@[simp] theorem State.arch_onArch (s : State) (f : Arch → Arch) : (s.onArch f).arch = f s.arch := by
  simp [State.onArch]
/-- An update of the registers of the core at work leaves the other cores alone. -/
theorem State.coreAt_onArch (s : State) (f : Arch → Arch) (c : Nat) (h : c ≠ s.cur) : (s.onArch f).coreAt c = s.coreAt c := by
  show SMap.get ({} : Core) (SMap.set {} s.cores s.cur _) c = _
  exact SMap.get_set_ne ({} : Core) s.cores s.cur c _ h

theorem State.clusterAt_setCluster (s : State) (q q' : Nat) (x : Cluster) :
    (s.setCluster q x).clusterAt q' = if q' = q then x else s.clusterAt q' := SMap.get_set ({} : Cluster) s.clusters q q' x
theorem State.penAt_setPen (s : State) (p p' : Nat) (x : Pen) :
    (s.setPen p x).penAt p' = if p' = p then x else s.penAt p' := SMap.get_set ({} : Pen) s.pens p p' x
theorem State.mcAt_setMc (s : State) (m m' : Nat) (x : Mc) :
    (s.setMc m x).mcAt m' = if m' = m then x else s.mcAt m' := SMap.get_set ({} : Mc) s.mcs m m' x
theorem State.partAt_setPart (s : State) (p p' : Nat) (x : Part) :
    (s.setPart p x).partAt p' = if p' = p then x else s.partAt p' := SMap.get_set ({} : Part) s.parts p p' x
theorem State.contAt_setCont (s : State) (k k' : Nat) (x : Cont) :
    (s.setCont k x).contAt k' = if k' = k then x else s.contAt k' := SMap.get_set ({} : Cont) s.conts k k' x
theorem State.bindAt_setBind (s : State) (b b' : Nat) (x : Binding) :
    (s.setBind b x).bindAt b' = if b' = b then x else s.bindAt b' := SMap.get_set ({} : Binding) s.binds b b' x
theorem State.fenceAt_setFence (s : State) (n n' : Nat) (x : Fence) :
    (s.setFence n x).fenceAt n' = if n' = n then x else s.fenceAt n' := SMap.get_set ({} : Fence) s.fences n n' x
theorem State.funcAt_setFunc (s : State) (n n' : Nat) (x : Func) :
    (s.setFunc n x).funcAt n' = if n' = n then x else s.funcAt n' := SMap.get_set ({} : Func) s.funcs n n' x

/-! ## A register after a write (R37) -/

theorem Arch.rdS_wr_s (a : Arch) (r q : SReg) (v : Word) :
    (a.wr (.s r v)).rdS q = if q = r ∧ r ≠ 0 then v else a.rdS q := by
  by_cases hr : r = 0
  · simp only [Arch.wr, hr, if_true, ne_eq, not_true_eq_false, and_false, if_false]
  · have hw : a.wr (.s r v) = { a with s := SMap.set 0 a.s r.toNat v } := if_neg hr
    rw [hw]
    simp only [Arch.rdS, SMap.get_set, BitVec.toNat_inj]
    by_cases hq : q = r
    · simp only [hq, hr, if_true, if_false, ne_eq, not_false_eq_true, and_self]
    · simp only [hq, if_false, false_and]

theorem Arch.rdA_wr_a (a : Arch) (r q : AReg) (v : VAddr) :
    (a.wr (.a r v)).rdA q = if q = r ∧ r ≠ 0 then v else a.rdA q := by
  by_cases hr : r = 0
  · simp only [Arch.wr, hr, if_true, ne_eq, not_true_eq_false, and_false, if_false]
  · have hw : a.wr (.a r v) = { a with a := SMap.set 0 a.a r.toNat v } := if_neg hr
    rw [hw]
    simp only [Arch.rdA, SMap.get_set, BitVec.toNat_inj]
    by_cases hq : q = r
    · simp only [hq, hr, if_true, if_false, ne_eq, not_false_eq_true, and_self]
    · simp only [hq, if_false, false_and]

theorem Arch.rdK_wr_k (a : Arch) (r q : KReg) (v : Word) :
    (a.wr (.k r v)).rdK q = if q = r ∧ r ≠ 0 then v else a.rdK q := by
  by_cases hr : r = 0
  · simp only [Arch.wr, hr, if_true, ne_eq, not_true_eq_false, and_false, if_false]
  · have hw : a.wr (.k r v) = { a with k := SMap.set 0 a.k r.toNat v } := if_neg hr
    rw [hw]
    simp only [Arch.rdK, SMap.get_set, BitVec.toNat_inj]
    by_cases hq : q = r
    · simp only [hq, hr, if_true, if_false, ne_eq, not_false_eq_true, and_self]
    · simp only [hq, if_false, false_and]

theorem Arch.rdV_wr_v (a : Arch) (r q : VReg) (v : VWord) :
    (a.wr (.v r v)).rdV q = if q = r then v else a.rdV q := by
  simp only [Arch.wr, Arch.rdV, SMap.get_set, BitVec.toNat_inj]

theorem Arch.rdT_wr_t (a : Arch) (r q : TReg) (v : TDesc) :
    (a.wr (.t r v)).rdT q = if q = r then v else a.rdT q := by
  simp only [Arch.wr, Arch.rdT, SMap.get_set, BitVec.toNat_inj]

theorem getLsbD_setBit {w : Nat} (x : BitVec w) (i j : Nat) (b : Bool) (hi : i < w) :
    (setBit x i b).getLsbD j = if j = i then b else x.getLsbD j := by
  by_cases hj : j < w
  · unfold setBit
    cases b
    · by_cases h : j = i
      · subst h; simp [hj]
      · by_cases hlt : j < i
        · simp [hj, h, hlt]
        · have : j - i ≠ 0 := by omega
          simp [hj, h, this]
    · by_cases h : j = i
      · subst h; simp [hj]
      · by_cases hlt : j < i
        · simp [hj, h, hlt]
        · have : j - i ≠ 0 := by omega
          simp [hj, h, this]
  · have : j ≠ i := by omega
    simp [this, BitVec.getLsbD_of_ge _ _ (Nat.le_of_not_lt hj)]

theorem Arch.rdP_wr_p (a : Arch) (r q : PReg) (v : Bool) :
    (a.wr (.p r v)).rdP q = if q = r ∧ r ≠ 0 then v else a.rdP q := by
  by_cases hr : r = 0
  · simp only [Arch.wr, hr, if_true, ne_eq, not_true_eq_false, and_false, if_false]
  · have hw : a.wr (.p r v) = { a with p := setBit a.p r.toNat v } := if_neg hr
    rw [hw]
    simp only [Arch.rdP, getLsbD_setBit _ _ _ _ r.isLt, BitVec.toNat_inj]
    by_cases hq : q = r
    · have : (r == 0) = false := by simpa using hr
      simp only [hq, hr, this, if_true, ne_eq, not_false_eq_true, and_self, Bool.false_or]
    · simp only [hq, if_false, false_and]

/-! ## A result in flight (R59) -/

@[simp] theorem State.arch_result (s : State) (lat slot : Nat) (fl : Flags) (w : RegWrite) :
    (s.result lat slot fl w).arch = s.arch.fly1 lat slot fl w := State.arch_onArch s _
theorem State.coreAt_result (s : State) (lat slot : Nat) (fl : Flags) (w : RegWrite) (c : Nat) (h : c ≠ s.cur) :
    (s.result lat slot fl w).coreAt c = s.coreAt c := State.coreAt_onArch s _ c h

end Sys2Proof.Machine
end

