-- ==== Sys2Proof/Laws/Issue.lean ====
section
/-!
SUPPORT. What the issue of a syllable can do (R35, R51, R482): nothing, a trap, a stall, or its effect.
-/
namespace Sys2Proof.Machine
set_option Elab.async false
open Sys2Proof

/-- Everything that the issue of a syllable can do. -/
theorem issue_cases (slot : Nat) (g : Guard) (chk : State → Option Trap) (hold : State → Option State) (eff : State → State)
    (s : State) :
    (s.arch.guardOn slot g = false ∧ issue slot g chk hold eff s = .next { s with verdict := .issued })
    ∨ (∃ t, s.arch.guardOn slot g = true ∧ s.checked = false ∧ chk s = some t
        ∧ issue slot g chk hold eff s = .next (s.takeTrap s.cur slot t))
    ∨ (∃ s', s.arch.guardOn slot g = true ∧ s.checked = false ∧ chk s = none ∧ hold s = some s'
        ∧ issue slot g chk hold eff s = .next { s' with verdict := .stalled })
    ∨ (s.arch.guardOn slot g = true ∧ (s.checked = true ∨ (chk s = none ∧ hold s = none))
        ∧ issue slot g chk hold eff s = .next { eff s with verdict := .issued }) := by
  unfold issue
  cases hg : s.arch.guardOn slot g
  · simp
  · cases hc : s.checked
    · cases ht : chk s
      · cases hh : hold s <;> simp
      · simp
    · simp

theorem issue_off {slot : Nat} {g : Guard} {chk : State → Option Trap} {hold : State → Option State} {eff : State → State}
    {s : State} (h : s.arch.guardOn slot g = false) : issue slot g chk hold eff s = .next { s with verdict := .issued } := by
  simp [issue, h]

/-- A syllable whose checks pass has its effect. -/
theorem issue_on {slot : Nat} {g : Guard} {chk : State → Option Trap} {hold : State → Option State} {eff : State → State}
    {s : State} (h : s.arch.guardOn slot g = true) (hc : s.checked = true ∨ (chk s = none ∧ hold s = none)) :
    issue slot g chk hold eff s = .next { eff s with verdict := .issued } := by
  rcases hc with hc | ⟨ht, hh⟩
  · simp [issue, h, hc]
  · cases hc : s.checked <;> simp [issue, h, hc, ht, hh]

theorem issue_trap {slot : Nat} {g : Guard} {chk : State → Option Trap} {hold : State → Option State} {eff : State → State}
    {s : State} {t : Trap} (h : s.arch.guardOn slot g = true) (hc : s.checked = false) (ht : chk s = some t) :
    issue slot g chk hold eff s = .next (s.takeTrap s.cur slot t) := by
  simp [issue, h, hc, ht]

theorem issue_stall {slot : Nat} {g : Guard} {chk : State → Option Trap} {hold : State → Option State} {eff : State → State}
    {s s' : State} (h : s.arch.guardOn slot g = true) (hc : s.checked = false) (ht : chk s = none) (hh : hold s = some s') :
    issue slot g chk hold eff s = .next { s' with verdict := .stalled } := by
  simp [issue, h, hc, ht, hh]

theorem issueF_on {slot : Nat} {g : Guard} {eff : State → State} {s : State} (h : s.arch.guardOn slot g = true) :
    issueF slot g eff s = .next { eff s with verdict := .issued } := issue_on h (.inr ⟨rfl, rfl⟩)

/-- A syllable always ends in a next state. -/
theorem issue_next (slot : Nat) (g : Guard) (chk : State → Option Trap) (hold : State → Option State) (eff : State → State)
    (s : State) : ∃ t, issue slot g chk hold eff s = .next t := by
  rcases issue_cases slot g chk hold eff s with ⟨_, h⟩ | ⟨_, _, _, _, h⟩ | ⟨_, _, _, _, _, h⟩ | ⟨_, _, h⟩ <;> exact ⟨_, h⟩

theorem issueF_next (slot : Nat) (g : Guard) (eff : State → State) (s : State) : ∃ t, issueF slot g eff s = .next t :=
  issue_next slot g _ _ eff s

/-- The first trap of a list of checks is none exactly when every check passes. -/
theorem firstTrap_none {l : List (Option Trap)} : firstTrap l = none ↔ ∀ x ∈ l, x = none := by
  induction l with
  | nil => simp [firstTrap]
  | cons x r ih => cases x <;> simp [firstTrap, ih]

theorem trapIf_none {b : Bool} {c r : Nat} {d : Word32} : trapIf b c r d = none ↔ b = false := by
  cases b <;> simp [trapIf]

end Sys2Proof.Machine
end

