-- ==== Sys2Proof/Laws/Memory.lean ====
section
/-!
SUPPORT. Laws of the memories: every operation keeps the canonical form, a read after a write gives the bytes written, and a
write leaves every other byte alone.
-/
namespace Sys2Proof.Machine
set_option Elab.async false
open Sys2Proof

/-! ## The canonical form is kept -/

theorem wrByte_wf {m : SMap Byte} (a : Nat) (b : Byte) (h : Memory.wf m = true) : Memory.wf (wrByte m a b) = true :=
  SMap.wf_set a b h

theorem cellsOf_key (a : Nat) (l : List Byte) : ∀ e ∈ cellsOf a l, a ≤ e.1 ∧ e.1 < a + l.length ∧ e.2 ≠ 0 := by
  induction l generalizing a with
  | nil => simp [cellsOf]
  | cons b r ih =>
    intro e he
    have tail : e ∈ cellsOf (a + 1) r → a ≤ e.1 ∧ e.1 < a + (b :: r).length ∧ e.2 ≠ 0 := fun he => by
      have := ih (a + 1) e he
      rw [List.length_cons]
      exact ⟨by omega, by omega, this.2.2⟩
    unfold cellsOf at he
    split at he
    · exact tail he
    · rename_i hb
      rcases List.mem_cons.mp he with rfl | he
      · exact ⟨Nat.le_refl _, by rw [List.length_cons]; omega, hb⟩
      · exact tail he

theorem cellsOf_sorted (a : Nat) (l : List Byte) : (cellsOf a l).Pairwise (fun x y => x.1 < y.1) := by
  induction l generalizing a with
  | nil => simp [cellsOf]
  | cons b r ih =>
    unfold cellsOf
    split
    · exact ih (a + 1)
    · rw [List.pairwise_cons]
      exact ⟨fun e he => by have := cellsOf_key (a + 1) r e he; show a < e.1; omega, ih (a + 1)⟩

theorem wrBytes_wf {m : SMap Byte} (a : Nat) (l : List Byte) (h : Memory.wf m = true) :
    Memory.wf (wrBytes m a l) = true := by
  have h' := (SMap.wf_iff 0 m).mp h
  refine (SMap.wf_iff 0 _).mpr ⟨?_, ?_⟩
  · unfold wrBytes
    rw [List.append_assoc, List.pairwise_append]
    refine ⟨h'.1.filter _, ?_, ?_⟩
    · rw [List.pairwise_append]
      refine ⟨cellsOf_sorted a l, h'.1.filter _, fun x hx y hy => ?_⟩
      have h1 := cellsOf_key a l x hx
      have h2 := (List.mem_filter.mp hy).2
      simp at h2; omega
    · intro x hx y hy
      have h1 := (List.mem_filter.mp hx).2
      simp at h1
      rcases List.mem_append.mp hy with hy | hy
      · have h2 := cellsOf_key a l y hy; omega
      · have h2 := (List.mem_filter.mp hy).2; simp at h2; omega
  · intro e he
    unfold wrBytes at he
    rcases List.mem_append.mp he with he | he
    · rcases List.mem_append.mp he with he | he
      · exact h'.2 e (List.mem_filter.mp he).1
      · exact (cellsOf_key a l e he).2.2
    · exact h'.2 e (List.mem_filter.mp he).1

theorem wrNum_wf {m : SMap Byte} (a n v : Nat) (h : Memory.wf m = true) : Memory.wf (wrNum m a n v) = true :=
  wrBytes_wf a _ h

theorem clear_wf {m : SMap Byte} (lo n : Nat) (h : Memory.wf m = true) : Memory.wf (SMap.clear m lo n) = true :=
  SMap.wf_clear lo n h

/-! ## Reading after writing -/

theorem rdByte_wrByte (m : SMap Byte) (a b : Nat) (v : Byte) :
    rdByte (wrByte m a v) b = if b = a then v else rdByte m b := SMap.get_set 0 m a b v

theorem get_cellsOf (a : Nat) (l : List Byte) (j : Nat) (h : a ≤ j) :
    SMap.get 0 (cellsOf a l) j = l.getD (j - a) 0 := by
  induction l generalizing a with
  | nil => simp [cellsOf, SMap.get]
  | cons b r ih =>
    rcases Nat.lt_or_eq_of_le h with h | rfl
    · have e1 : j - a = (j - (a + 1)) + 1 := by omega
      rw [e1, List.getD_cons_succ, ← ih (a + 1) h]
      by_cases hb : b = 0
      · rw [cellsOf, if_pos hb]
      · rw [cellsOf, if_neg hb]; exact if_neg (by omega)
    · rw [Nat.sub_self, List.getD_cons_zero]
      unfold cellsOf
      split
      · rename_i hb
        rw [hb]
        exact SMap.get_absent 0 _ a (fun e he => by have := cellsOf_key (a + 1) r e he; omega)
      · exact if_pos rfl

/-- One byte after a write of bytes: the byte written, or the one that was there. -/
theorem rdByte_wrBytes (m : SMap Byte) (a : Nat) (l : List Byte) (j : Nat) :
    rdByte (wrBytes m a l) j = if a ≤ j ∧ j < a + l.length then l.getD (j - a) 0 else rdByte m j := by
  have hlo : ∀ e ∈ m.filter (fun e => decide (e.1 < a)), e.1 < a := fun e he => by
    simpa using (List.mem_filter.mp he).2
  have hhi : ∀ e ∈ m.filter (fun e => decide (a + l.length ≤ e.1)), a + l.length ≤ e.1 := fun e he => by
    simpa using (List.mem_filter.mp he).2
  show SMap.get 0 (wrBytes m a l) j = _
  unfold wrBytes
  split
  · rename_i h
    rw [List.append_assoc, SMap.get_append_right 0 _ _ j (fun e he => by have := hlo e he; omega),
      SMap.get_append_left 0 _ _ j (fun e he => by have := hhi e he; omega)]
    exact get_cellsOf a l j h.1
  · rename_i h
    by_cases hj : j < a
    · rw [List.append_assoc, SMap.get_append_left 0 _ _ j]
      · exact SMap.get_filter 0 m (fun i => decide (i < a)) j (by simpa using hj)
      · intro e he
        rcases List.mem_append.mp he with he | he
        · have := cellsOf_key a l e he; omega
        · have := hhi e he; omega
    · rw [SMap.get_append_right 0 _ _ j]
      · exact SMap.get_filter 0 m (fun i => decide (a + l.length ≤ i)) j (by simp; omega)
      · intro e he
        rcases List.mem_append.mp he with he | he
        · have := hlo e he; omega
        · have := cellsOf_key a l e he; omega

theorem rdCells_filter (m : SMap Byte) (lo hi a n : Nat) (h1 : lo ≤ a) (h2 : a + n ≤ hi) :
    rdCells (m.filter (fun e => decide (lo ≤ e.1) && decide (e.1 < hi))) a n = rdCells m a n := by
  induction n generalizing a with
  | zero => rfl
  | succ n ih =>
    simp only [rdCells]
    rw [ih (a + 1) (by omega) (by omega)]
    congr 1
    exact SMap.get_filter 0 m (fun i => decide (lo ≤ i) && decide (i < hi)) a (by simp; omega)

theorem rdBytes_eq (m : SMap Byte) (a n : Nat) : rdBytes m a n = rdCells m a n :=
  rdCells_filter m a (a + n) a n (Nat.le_refl a) (Nat.le_refl (a + n))

theorem rdCells_length (m : SMap Byte) (a n : Nat) : (rdCells m a n).length = n := by
  induction n generalizing a with
  | zero => rfl
  | succ n ih => simp [rdCells, ih]

@[simp] theorem rdBytes_length (m : SMap Byte) (a n : Nat) : (rdBytes m a n).length = n := by
  rw [rdBytes_eq, rdCells_length]

theorem rdCells_congr (m m' : SMap Byte) (a n : Nat) (h : ∀ j, a ≤ j → j < a + n → rdByte m j = rdByte m' j) :
    rdCells m a n = rdCells m' a n := by
  induction n generalizing a with
  | zero => rfl
  | succ n ih =>
    simp only [rdCells]
    rw [h a (by omega) (by omega), ih (a + 1) (fun j h1 h2 => h j (by omega) (by omega))]

/-- Bytes read from elsewhere are the ones that were there. -/
theorem rdBytes_wrBytes_ne (m : SMap Byte) (a b n : Nat) (l : List Byte) (h : b + n ≤ a ∨ a + l.length ≤ b) :
    rdBytes (wrBytes m a l) b n = rdBytes m b n := by
  rw [rdBytes_eq, rdBytes_eq]
  exact rdCells_congr _ _ b n (fun j h1 h2 => by rw [rdByte_wrBytes, if_neg (by omega)])

theorem rdCells_wrBytes (m : SMap Byte) (a : Nat) (pre l : List Byte) :
    rdCells (wrBytes m a (pre ++ l)) (a + pre.length) l.length = l := by
  induction l generalizing pre with
  | nil => rfl
  | cons b r ih =>
    simp only [List.length_cons, rdCells]
    have h0 : rdByte (wrBytes m a (pre ++ b :: r)) (a + pre.length) = b := by
      rw [rdByte_wrBytes, if_pos (by simp)]; simp
    have h1 := ih (pre ++ [b])
    simp only [List.append_assoc, List.singleton_append, List.length_append, List.length_singleton] at h1
    rw [h0, Nat.add_assoc, h1]

/-- Reading back the bytes that were written. -/
theorem rdBytes_wrBytes (m : SMap Byte) (a : Nat) (l : List Byte) : rdBytes (wrBytes m a l) a l.length = l := by
  rw [rdBytes_eq]
  simpa using rdCells_wrBytes m a [] l

end Sys2Proof.Machine
end

