-- ==== Sys2Proof/Laws/PerInstr.lean ====
section
/-!
SUPPORT. Statements for every instruction, one lemma for each constructor. Family `RoundTrip`: the decoder reads back the words that
the encoder writes for a well-formed instruction of a slot (R27 to R49).
-/
namespace Sys2Proof.Laws.RoundTrip
open Sys2Proof
set_option Elab.async false

/-- The decoder of an instruction's slot reads the instruction back from its words, with every operand as it stands. -/
def Statement (i : Instr) : Prop :=
  ∀ sl, i.slot = some sl → i.wellFormed = true → decodeSyl sl ((encode i).headD 0) (encode i)[1]? = .ok i


theorem br (g : Guard) (x y : SReg) : Statement (.br g x y) := by
  intro sl hs h
  obtain rfl := Option.some.inj hs
  refine decode_plain (op := 0x01) (X := (encBG x y 0)) (by decide) (by simp only [encBG]; omega) (fun u hw hg => ?_) h
  simp only [encBG] at hw
  show decB 0x01 u (none) = _
  simp only [decB, hg]
  refine keep_eq ?_ ?_
  · simp only [fz, Bool.and_eq_true, beq_iff_eq]; omega
  · congr 1 <;> first | rfl | (apply BitVec.eq_of_toNat_eq; simp only [fld, BitVec.toNat_ofNat]; omega)

theorem bri (g : Guard) (off : BitVec 21) : Statement (.bri g off) := by
  intro sl hs h
  obtain rfl := Option.some.inj hs
  refine decode_plain (op := 0x02) (X := off.toNat) (by decide) (by omega) (fun u hw hg => ?_) h
  show decB 0x02 u (none) = _
  simp only [decB, hg]
  refine congrArg some ?_
  congr 1 ; first | rfl | (apply BitVec.eq_of_toNat_eq; simp only [fld, BitVec.toNat_ofNat]; omega)

theorem call (g : Guard) (off : BitVec 21) : Statement (.call g off) := by
  intro sl hs h
  obtain rfl := Option.some.inj hs
  refine decode_plain (op := 0x03) (X := off.toNat) (by decide) (by omega) (fun u hw hg => ?_) h
  show decB 0x03 u (none) = _
  simp only [decB, hg]
  refine congrArg some ?_
  congr 1 ; first | rfl | (apply BitVec.eq_of_toNat_eq; simp only [fld, BitVec.toNat_ofNat]; omega)

theorem ret (g : Guard) (x : SReg) : Statement (.ret g x) := by
  intro sl hs h
  obtain rfl := Option.some.inj hs
  refine decode_plain (op := 0x04) (X := (encBG x 0 0)) (by decide) (by simp only [encBG, BitVec.ofNat_eq_ofNat, BitVec.toNat_ofNat]; omega) (fun u hw hg => ?_) h
  simp only [encBG, BitVec.ofNat_eq_ofNat, BitVec.toNat_ofNat] at hw
  show decB 0x04 u (none) = _
  simp only [decB, hg]
  refine keep_eq ?_ ?_
  · simp only [fz, Bool.and_eq_true, beq_iff_eq]; omega
  · congr 1 ; first | rfl | (apply BitVec.eq_of_toNat_eq; simp only [fld, BitVec.toNat_ofNat]; omega)

theorem loop (g : Guard) (lc : BitVec 2) (x : SReg) (fin : BitVec 13) : Statement (.loop g lc x fin) := by
  intro sl hs h
  obtain rfl := Option.some.inj hs
  refine decode_plain (op := 0x05) (X := (encBL lc x fin)) (by decide) (by simp only [encBL]; omega) (fun u hw hg => ?_) h
  simp only [encBL] at hw
  show decB 0x05 u (none) = _
  simp only [decB, hg]
  refine congrArg some ?_
  congr 1 <;> first | rfl | (apply BitVec.eq_of_toNat_eq; simp only [fld, BitVec.toNat_ofNat]; omega)

theorem loopi (g : Guard) (lc : BitVec 2) (fin : BitVec 13) (n : Word32) : Statement (.loopi g lc fin n) := by
  intro sl hs h
  obtain rfl := Option.some.inj hs
  refine decode_req (op := 0x06) (X := (encBL lc 0 fin)) (by decide) (by simp only [encBL, BitVec.ofNat_eq_ofNat, BitVec.toNat_ofNat]; omega) (fun u hw hg => ?_) h
  simp only [encBL, BitVec.ofNat_eq_ofNat, BitVec.toNat_ofNat] at hw
  show decB 0x06 u (some n) = _
  simp only [decB, hg]
  refine keep_eq ?_ ?_
  · simp only [fz, beq_iff_eq]; omega
  · congr 1 <;> first | rfl | (apply BitVec.eq_of_toNat_eq; simp only [fld, BitVec.toNat_ofNat]; omega)

theorem lbrk (g : Guard) (lc : BitVec 2) (fin : BitVec 13) : Statement (.lbrk g lc fin) := by
  intro sl hs h
  obtain rfl := Option.some.inj hs
  refine decode_plain (op := 0x07) (X := (encBL lc 0 fin)) (by decide) (by simp only [encBL, BitVec.ofNat_eq_ofNat, BitVec.toNat_ofNat]; omega) (fun u hw hg => ?_) h
  simp only [encBL, BitVec.ofNat_eq_ofNat, BitVec.toNat_ofNat] at hw
  show decB 0x07 u (none) = _
  simp only [decB, hg]
  refine keep_eq ?_ ?_
  · simp only [fz, beq_iff_eq]; omega
  · congr 1 <;> first | rfl | (apply BitVec.eq_of_toNat_eq; simp only [fld, BitVec.toNat_ofNat]; omega)

theorem susp (g : Guard) (desc : Word32) : Statement (.susp g desc) := by
  intro sl hs h
  obtain rfl := Option.some.inj hs
  refine decode_req (op := 0x08) (X := 0) (by decide) (by decide) (fun u hw hg => ?_) h
  show decB 0x08 u (some desc) = _
  simp only [decB, hg]
  have hk : u.toNat % 16 = 0 := by omega
  simp only [hk]
  refine keep_eq ?_ ?_
  · simp only [fz, Bool.and_eq_true, beq_iff_eq]; omega
  · rfl

theorem suspFence (g : Guard) (x y : SReg) (desc : Word32) : Statement (.suspFence g x y desc) := by
  intro sl hs h
  obtain rfl := Option.some.inj hs
  refine decode_req (op := 0x08) (X := (encBG x y 1)) (by decide) (by simp only [encBG]; omega) (fun u hw hg => ?_) h
  simp only [encBG] at hw
  show decB 0x08 u (some desc) = _
  simp only [decB, hg]
  have hk : u.toNat % 16 = 1 := by omega
  simp only [hk]
  refine keep_eq ?_ ?_
  · simp only [fz, beq_iff_eq]; omega
  · congr 1 <;> first | rfl | (apply BitVec.eq_of_toNat_eq; simp only [fld, BitVec.toNat_ofNat]; omega)

theorem suspLend (g : Guard) (x y : SReg) (desc : Word32) : Statement (.suspLend g x y desc) := by
  intro sl hs h
  obtain rfl := Option.some.inj hs
  refine decode_req (op := 0x08) (X := (encBG x y 2)) (by decide) (by simp only [encBG]; omega) (fun u hw hg => ?_) h
  simp only [encBG] at hw
  show decB 0x08 u (some desc) = _
  simp only [decB, hg]
  have hk : u.toNat % 16 = 2 := by omega
  simp only [hk]
  refine keep_eq ?_ ?_
  · simp only [fz, beq_iff_eq]; omega
  · congr 1 <;> first | rfl | (apply BitVec.eq_of_toNat_eq; simp only [fld, BitVec.toNat_ofNat]; omega)

theorem suspBar (g : Guard) (x y : SReg) (desc : Word32) : Statement (.suspBar g x y desc) := by
  intro sl hs h
  obtain rfl := Option.some.inj hs
  refine decode_req (op := 0x08) (X := (encBG x y 3)) (by decide) (by simp only [encBG]; omega) (fun u hw hg => ?_) h
  simp only [encBG] at hw
  show decB 0x08 u (some desc) = _
  simp only [decB, hg]
  have hk : u.toNat % 16 = 3 := by omega
  simp only [hk]
  refine keep_eq ?_ ?_
  · simp only [fz, beq_iff_eq]; omega
  · congr 1 <;> first | rfl | (apply BitVec.eq_of_toNat_eq; simp only [fld, BitVec.toNat_ofNat]; omega)

theorem yield (g : Guard) : Statement (.yield g) := by
  intro sl hs h
  obtain rfl := Option.some.inj hs
  refine decode_plain (op := 0x09) (X := 0) (by decide) (by decide) (fun u hw hg => ?_) h
  show decB 0x09 u (none) = _
  simp only [decB, hg]
  refine keep_eq ?_ ?_
  · simp only [fz, beq_iff_eq]; omega
  · rfl

theorem spawn (g : Guard) (x y : SReg) (stage : BitVec 4) : Statement (.spawn g x y stage) := by
  intro sl hs h
  obtain rfl := Option.some.inj hs
  refine decode_plain (op := 0x0A) (X := (encBG x y stage.toNat)) (by decide) (by simp only [encBG]; omega) (fun u hw hg => ?_) h
  simp only [encBG] at hw
  show decB 0x0A u (none) = _
  simp only [decB, hg]
  refine keep_eq ?_ ?_
  · simp only [fz, beq_iff_eq]; omega
  · congr 1 <;> first | rfl | (apply BitVec.eq_of_toNat_eq; simp only [fld, BitVec.toNat_ofNat]; omega)

theorem retire (g : Guard) : Statement (.retire g) := by
  intro sl hs h
  obtain rfl := Option.some.inj hs
  refine decode_plain (op := 0x0B) (X := 0) (by decide) (by decide) (fun u hw hg => ?_) h
  show decB 0x0B u (none) = _
  simp only [decB, hg]
  refine keep_eq ?_ ?_
  · simp only [fz, beq_iff_eq]; omega
  · rfl

theorem reqdone (g : Guard) (x : SReg) : Statement (.reqdone g x) := by
  intro sl hs h
  obtain rfl := Option.some.inj hs
  refine decode_plain (op := 0x0C) (X := (encBG x 0 0)) (by decide) (by simp only [encBG, BitVec.ofNat_eq_ofNat, BitVec.toNat_ofNat]; omega) (fun u hw hg => ?_) h
  simp only [encBG, BitVec.ofNat_eq_ofNat, BitVec.toNat_ofNat] at hw
  show decB 0x0C u (none) = _
  simp only [decB, hg]
  refine keep_eq ?_ ?_
  · simp only [fz, Bool.and_eq_true, beq_iff_eq]; omega
  · congr 1 ; first | rfl | (apply BitVec.eq_of_toNat_eq; simp only [fld, BitVec.toNat_ofNat]; omega)

theorem cres (g : Guard) (x : SReg) : Statement (.cres g x) := by
  intro sl hs h
  obtain rfl := Option.some.inj hs
  refine decode_plain (op := 0x0D) (X := (encBG x 0 0)) (by decide) (by simp only [encBG, BitVec.ofNat_eq_ofNat, BitVec.toNat_ofNat]; omega) (fun u hw hg => ?_) h
  simp only [encBG, BitVec.ofNat_eq_ofNat, BitVec.toNat_ofNat] at hw
  show decB 0x0D u (none) = _
  simp only [decB, hg]
  have hk : u.toNat % 16 = 0 := by omega
  simp only [hk]
  refine keep_eq ?_ ?_
  · simp only [fz, Bool.and_eq_true, beq_iff_eq]; omega
  · congr 1 ; first | rfl | (apply BitVec.eq_of_toNat_eq; simp only [fld, BitVec.toNat_ofNat]; omega)

theorem cresSkip (g : Guard) (x : SReg) : Statement (.cresSkip g x) := by
  intro sl hs h
  obtain rfl := Option.some.inj hs
  refine decode_plain (op := 0x0D) (X := (encBG x 0 1)) (by decide) (by simp only [encBG, BitVec.ofNat_eq_ofNat, BitVec.toNat_ofNat]; omega) (fun u hw hg => ?_) h
  simp only [encBG, BitVec.ofNat_eq_ofNat, BitVec.toNat_ofNat] at hw
  show decB 0x0D u (none) = _
  simp only [decB, hg]
  have hk : u.toNat % 16 = 1 := by omega
  simp only [hk]
  refine keep_eq ?_ ?_
  · simp only [fz, Bool.and_eq_true, beq_iff_eq]; omega
  · congr 1 ; first | rfl | (apply BitVec.eq_of_toNat_eq; simp only [fld, BitVec.toNat_ofNat]; omega)

theorem waitc (g : Guard) (nl ns nc nt nq : BitVec 4) : Statement (.waitc g nl ns nc nt nq) := by
  intro sl hs h
  obtain rfl := Option.some.inj hs
  refine decode_plain (op := 0x0E) (X := (nl.toNat * 2 ^ 16 + ns.toNat * 2 ^ 12 + nc.toNat * 2 ^ 8 + nt.toNat * 2 ^ 4 + nq.toNat)) (by decide) (by omega) (fun u hw hg => ?_) h
  show decB 0x0E u (none) = _
  simp only [decB, hg]
  refine keep_eq ?_ ?_
  · simp only [fz, beq_iff_eq]; omega
  · congr 1 <;> first | rfl | (apply BitVec.eq_of_toNat_eq; simp only [fld, BitVec.toNat_ofNat]; omega)

theorem waitf (g : Guard) (x y : SReg) (p : PReg) (ext : Bool) : Statement (.waitf g x y p ext) := by
  intro sl hs h
  obtain rfl := Option.some.inj hs
  refine decode_opt (op := 0x0F) (X := (encBG x y p.toNat)) (by decide) (by simp only [encBG]; omega) (fun u hw hg => ?_) h
  simp only [encBG] at hw
  show decB 0x0F u _ = _
  simp only [decB, hg]
  cases ext
  all_goals
    refine keep_eq ?_ ?_
    · simp only [fz, beq_iff_eq]; omega
    · congr 1 <;> first | rfl | (apply BitVec.eq_of_toNat_eq; simp only [fld, BitVec.toNat_ofNat]; omega)

theorem waitfLend (g : Guard) (x y : SReg) (p : PReg) : Statement (.waitfLend g x y p) := by
  intro sl hs h
  obtain rfl := Option.some.inj hs
  refine decode_opt (op := 0x0F) (X := (encBG x y p.toNat)) (by decide) (by simp only [encBG]; omega) (fun u hw hg => ?_) h
  simp only [encBG] at hw
  show decB 0x0F u (some 1) = _
  simp only [decB, hg]
  refine keep_eq ?_ ?_
  · simp only [fz, beq_iff_eq]; omega
  · congr 1 <;> first | rfl | (apply BitVec.eq_of_toNat_eq; simp only [fld, BitVec.toNat_ofNat]; omega)

theorem finc (g : Guard) (x y : SReg) (amount : Option Word32) : Statement (.finc g x y amount) := by
  intro sl hs h
  obtain rfl := Option.some.inj hs
  refine decode_opt (op := 0x10) (X := (encBG x y 0)) (by decide) (by simp only [encBG]; omega) (fun u hw hg => ?_) h
  simp only [encBG] at hw
  show decB 0x10 u ((amount.toList)[0]?) = _
  simp only [decB, hg]
  simp only [toList_head]
  have hk : u.toNat % 16 = 0 := by omega
  simp only [hk]
  refine keep_eq ?_ ?_
  · simp only [fz, beq_iff_eq]; omega
  · congr 1 <;> first | rfl | (apply BitVec.eq_of_toNat_eq; simp only [fld, BitVec.toNat_ofNat]; omega)

theorem fincSet (g : Guard) (x y : SReg) (amount : Option Word32) : Statement (.fincSet g x y amount) := by
  intro sl hs h
  obtain rfl := Option.some.inj hs
  refine decode_opt (op := 0x10) (X := (encBG x y 1)) (by decide) (by simp only [encBG]; omega) (fun u hw hg => ?_) h
  simp only [encBG] at hw
  show decB 0x10 u ((amount.toList)[0]?) = _
  simp only [decB, hg]
  simp only [toList_head]
  have hk : u.toNat % 16 = 1 := by omega
  simp only [hk]
  refine keep_eq ?_ ?_
  · simp only [fz, beq_iff_eq]; omega
  · congr 1 <;> first | rfl | (apply BitVec.eq_of_toNat_eq; simp only [fld, BitVec.toNat_ofNat]; omega)

theorem fence (g : Guard) (before after : BitVec 6) : Statement (.fence g before after) := by
  intro sl hs h
  obtain rfl := Option.some.inj hs
  refine decode_plain (op := 0x11) (X := (before.toNat * 2 ^ 8 + after.toNat)) (by decide) (by omega) (fun u hw hg => ?_) h
  show decB 0x11 u (none) = _
  simp only [decB, hg]
  refine keep_eq ?_ ?_
  · simp only [fz, Bool.and_eq_true, beq_iff_eq]; omega
  · congr 1 <;> first | rfl | (apply BitVec.eq_of_toNat_eq; simp only [fld, BitVec.toNat_ofNat]; omega)

theorem gbar (g : Guard) (x : SReg) (bar : BitVec 4) : Statement (.gbar g x bar) := by
  intro sl hs h
  obtain rfl := Option.some.inj hs
  refine decode_plain (op := 0x12) (X := (encBG x 0 bar.toNat)) (by decide) (by simp only [encBG, BitVec.ofNat_eq_ofNat, BitVec.toNat_ofNat]; omega) (fun u hw hg => ?_) h
  simp only [encBG, BitVec.ofNat_eq_ofNat, BitVec.toNat_ofNat] at hw
  show decB 0x12 u (none) = _
  simp only [decB, hg]
  refine keep_eq ?_ ?_
  · simp only [fz, Bool.and_eq_true, beq_iff_eq]; omega
  · congr 1 <;> first | rfl | (apply BitVec.eq_of_toNat_eq; simp only [fld, BitVec.toNat_ofNat]; omega)

theorem evpost (g : Guard) (x y : SReg) (code : Option Byte) : Statement (.evpost g x y code) := by
  intro sl hs h
  obtain rfl := Option.some.inj hs
  refine decode_opt (op := 0x13) (X := (encBG x y 0)) (by decide) (by simp only [encBG]; omega) (fun u hw hg => ?_) h
  simp only [encBG] at hw
  show decB 0x13 u (((code.map (fun code => BitVec.ofNat 32 code.toNat)).toList)[0]?) = _
  simp only [decB, hg]
  simp only [ext_8, efz_ext_8, Bool.and_true]
  refine keep_eq ?_ ?_
  · simp only [fz, Bool.and_eq_true, beq_iff_eq]; omega
  · congr 1 <;> first | rfl | (apply BitVec.eq_of_toNat_eq; simp only [fld, BitVec.toNat_ofNat]; omega)

theorem trap (g : Guard) (x : SReg) : Statement (.trap g x) := by
  intro sl hs h
  obtain rfl := Option.some.inj hs
  refine decode_plain (op := 0x14) (X := (encBG x 0 0)) (by decide) (by simp only [encBG, BitVec.ofNat_eq_ofNat, BitVec.toNat_ofNat]; omega) (fun u hw hg => ?_) h
  simp only [encBG, BitVec.ofNat_eq_ofNat, BitVec.toNat_ofNat] at hw
  show decB 0x14 u (none) = _
  simp only [decB, hg]
  have hk : u.toNat % 16 = 0 := by omega
  simp only [hk]
  refine keep_eq ?_ ?_
  · simp only [fz, Bool.and_eq_true, beq_iff_eq]; omega
  · congr 1 ; first | rfl | (apply BitVec.eq_of_toNat_eq; simp only [fld, BitVec.toNat_ofNat]; omega)

theorem trapSys (g : Guard) (x : SReg) : Statement (.trapSys g x) := by
  intro sl hs h
  obtain rfl := Option.some.inj hs
  refine decode_plain (op := 0x14) (X := (encBG x 0 1)) (by decide) (by simp only [encBG, BitVec.ofNat_eq_ofNat, BitVec.toNat_ofNat]; omega) (fun u hw hg => ?_) h
  simp only [encBG, BitVec.ofNat_eq_ofNat, BitVec.toNat_ofNat] at hw
  show decB 0x14 u (none) = _
  simp only [decB, hg]
  have hk : u.toNat % 16 = 1 := by omega
  simp only [hk]
  refine keep_eq ?_ ?_
  · simp only [fz, Bool.and_eq_true, beq_iff_eq]; omega
  · congr 1 ; first | rfl | (apply BitVec.eq_of_toNat_eq; simp only [fld, BitVec.toNat_ofNat]; omega)

theorem ckpt (g : Guard) : Statement (.ckpt g) := by
  intro sl hs h
  obtain rfl := Option.some.inj hs
  refine decode_plain (op := 0x15) (X := 0) (by decide) (by decide) (fun u hw hg => ?_) h
  show decB 0x15 u (none) = _
  simp only [decB, hg]
  refine keep_eq ?_ ?_
  · simp only [fz, beq_iff_eq]; omega
  · rfl

theorem srd (g : Guard) (x : SReg) (sys : BitVec 12) : Statement (.srd g x sys) := by
  intro sl hs h
  obtain rfl := Option.some.inj hs
  refine decode_plain (op := 0x16) (X := (encBY x sys)) (by decide) (by simp only [encBY]; omega) (fun u hw hg => ?_) h
  simp only [encBY] at hw
  show decB 0x16 u (none) = _
  simp only [decB, hg]
  refine keep_eq ?_ ?_
  · simp only [fz, beq_iff_eq]; omega
  · congr 1 <;> first | rfl | (apply BitVec.eq_of_toNat_eq; simp only [fld, BitVec.toNat_ofNat]; omega)

theorem swr (g : Guard) (x : SReg) (sys : BitVec 12) : Statement (.swr g x sys) := by
  intro sl hs h
  obtain rfl := Option.some.inj hs
  refine decode_plain (op := 0x17) (X := (encBY x sys)) (by decide) (by simp only [encBY]; omega) (fun u hw hg => ?_) h
  simp only [encBY] at hw
  show decB 0x17 u (none) = _
  simp only [decB, hg]
  refine keep_eq ?_ ?_
  · simp only [fz, beq_iff_eq]; omega
  · congr 1 <;> first | rfl | (apply BitVec.eq_of_toNat_eq; simp only [fld, BitVec.toNat_ofNat]; omega)

theorem add (g : Guard) (d a b : SReg) (f : BitVec 3) : Statement (.add g d a b f) := by
  intro sl hs h
  obtain rfl := Option.some.inj hs
  refine decode_plain (op := 0x01) (X := (encSR d a b f.toNat)) (by decide) (encSR_lt d a b f) (fun u hw hg => ?_) h
  obtain ⟨h1, h2, h3, h4⟩ := fields_SR (d := d) (a := a) (b := b) (f := f) hw
  show decS 0x01 u (none) = _
  simp only [decS, hg, h1, h2, h3, h4]

theorem addi (g : Guard) (d a : SReg) (imm : BitVec 9) (ext : Option Word32) : Statement (.addi g d a imm ext) := by
  intro sl hs h
  obtain rfl := Option.some.inj hs
  refine decode_opt (op := 0x02) (X := (encSI d a imm.toNat)) (by decide) (by simp only [encSI]; omega) (fun u hw hg => ?_) h
  simp only [encSI] at hw
  show decS 0x02 u ((ext.toList)[0]?) = _
  simp only [decS, hg]
  simp only [toList_head]
  refine congrArg some ?_
  congr 1 <;> first | rfl | (apply BitVec.eq_of_toNat_eq; simp only [fld, BitVec.toNat_ofNat]; omega)

theorem sub (g : Guard) (d a b : SReg) (f : BitVec 3) : Statement (.sub g d a b f) := by
  intro sl hs h
  obtain rfl := Option.some.inj hs
  refine decode_plain (op := 0x03) (X := (encSR d a b f.toNat)) (by decide) (encSR_lt d a b f) (fun u hw hg => ?_) h
  obtain ⟨h1, h2, h3, h4⟩ := fields_SR (d := d) (a := a) (b := b) (f := f) hw
  show decS 0x03 u (none) = _
  simp only [decS, hg, h1, h2, h3, h4]

theorem mul (g : Guard) (d a b : SReg) (f : BitVec 3) : Statement (.mul g d a b f) := by
  intro sl hs h
  obtain rfl := Option.some.inj hs
  refine decode_plain (op := 0x04) (X := (encSR d a b f.toNat)) (by decide) (encSR_lt d a b f) (fun u hw hg => ?_) h
  obtain ⟨h1, h2, h3, h4⟩ := fields_SR (d := d) (a := a) (b := b) (f := f) hw
  show decS 0x04 u (none) = _
  simp only [decS, hg, h1, h2, h3, h4]

theorem mulh (g : Guard) (d a b : SReg) : Statement (.mulh g d a b) := by
  intro sl hs h
  obtain rfl := Option.some.inj hs
  refine decode_plain (op := 0x05) (X := (encSR d a b 0)) (by decide) (encSR_lt d a b 0) (fun u hw hg => ?_) h
  obtain ⟨h1, h2, h3, h4⟩ := fields_SR (d := d) (a := a) (b := b) (f := 0) hw
  show decS 0x05 u (none) = _
  simp only [decS, hg, h1, h2, h3, h4, keep, fz_eq_fld, beq_self_eq_true, if_true]

theorem mulhu (g : Guard) (d a b : SReg) : Statement (.mulhu g d a b) := by
  intro sl hs h
  obtain rfl := Option.some.inj hs
  refine decode_plain (op := 0x06) (X := (encSR d a b 0)) (by decide) (encSR_lt d a b 0) (fun u hw hg => ?_) h
  obtain ⟨h1, h2, h3, h4⟩ := fields_SR (d := d) (a := a) (b := b) (f := 0) hw
  show decS 0x06 u (none) = _
  simp only [decS, hg, h1, h2, h3, h4, keep, fz_eq_fld, beq_self_eq_true, if_true]

theorem div (g : Guard) (d a b : SReg) (f : BitVec 3) : Statement (.div g d a b f) := by
  intro sl hs h
  obtain rfl := Option.some.inj hs
  refine decode_plain (op := 0x07) (X := (encSR d a b f.toNat)) (by decide) (encSR_lt d a b f) (fun u hw hg => ?_) h
  obtain ⟨h1, h2, h3, h4⟩ := fields_SR (d := d) (a := a) (b := b) (f := f) hw
  show decS 0x07 u (none) = _
  simp only [decS, hg, h1, h2, h3, h4]

theorem divu (g : Guard) (d a b : SReg) (f : BitVec 3) : Statement (.divu g d a b f) := by
  intro sl hs h
  obtain rfl := Option.some.inj hs
  refine decode_plain (op := 0x08) (X := (encSR d a b f.toNat)) (by decide) (encSR_lt d a b f) (fun u hw hg => ?_) h
  obtain ⟨h1, h2, h3, h4⟩ := fields_SR (d := d) (a := a) (b := b) (f := f) hw
  show decS 0x08 u (none) = _
  simp only [decS, hg, h1, h2, h3, h4]

theorem rem (g : Guard) (d a b : SReg) (f : BitVec 3) : Statement (.rem g d a b f) := by
  intro sl hs h
  obtain rfl := Option.some.inj hs
  refine decode_plain (op := 0x09) (X := (encSR d a b f.toNat)) (by decide) (encSR_lt d a b f) (fun u hw hg => ?_) h
  obtain ⟨h1, h2, h3, h4⟩ := fields_SR (d := d) (a := a) (b := b) (f := f) hw
  show decS 0x09 u (none) = _
  simp only [decS, hg, h1, h2, h3, h4]

theorem remu (g : Guard) (d a b : SReg) (f : BitVec 3) : Statement (.remu g d a b f) := by
  intro sl hs h
  obtain rfl := Option.some.inj hs
  refine decode_plain (op := 0x0A) (X := (encSR d a b f.toNat)) (by decide) (encSR_lt d a b f) (fun u hw hg => ?_) h
  obtain ⟨h1, h2, h3, h4⟩ := fields_SR (d := d) (a := a) (b := b) (f := f) hw
  show decS 0x0A u (none) = _
  simp only [decS, hg, h1, h2, h3, h4]

theorem and (g : Guard) (d a b : SReg) : Statement (.and g d a b) := by
  intro sl hs h
  obtain rfl := Option.some.inj hs
  refine decode_plain (op := 0x0B) (X := (encSR d a b 0)) (by decide) (encSR_lt d a b 0) (fun u hw hg => ?_) h
  obtain ⟨h1, h2, h3, h4⟩ := fields_SR (d := d) (a := a) (b := b) (f := 0) hw
  show decS 0x0B u (none) = _
  simp only [decS, hg, h1, h2, h3, h4, keep, fz_eq_fld, beq_self_eq_true, if_true]

theorem andi (g : Guard) (d a : SReg) (imm : BitVec 9) (ext : Option Word32) : Statement (.andi g d a imm ext) := by
  intro sl hs h
  obtain rfl := Option.some.inj hs
  refine decode_opt (op := 0x0C) (X := (encSI d a imm.toNat)) (by decide) (by simp only [encSI]; omega) (fun u hw hg => ?_) h
  simp only [encSI] at hw
  show decS 0x0C u ((ext.toList)[0]?) = _
  simp only [decS, hg]
  simp only [toList_head]
  refine congrArg some ?_
  congr 1 <;> first | rfl | (apply BitVec.eq_of_toNat_eq; simp only [fld, BitVec.toNat_ofNat]; omega)

theorem or (g : Guard) (d a b : SReg) : Statement (.or g d a b) := by
  intro sl hs h
  obtain rfl := Option.some.inj hs
  refine decode_plain (op := 0x0D) (X := (encSR d a b 0)) (by decide) (encSR_lt d a b 0) (fun u hw hg => ?_) h
  obtain ⟨h1, h2, h3, h4⟩ := fields_SR (d := d) (a := a) (b := b) (f := 0) hw
  show decS 0x0D u (none) = _
  simp only [decS, hg, h1, h2, h3, h4, keep, fz_eq_fld, beq_self_eq_true, if_true]

theorem ori (g : Guard) (d a : SReg) (imm : BitVec 9) (ext : Option Word32) : Statement (.ori g d a imm ext) := by
  intro sl hs h
  obtain rfl := Option.some.inj hs
  refine decode_opt (op := 0x0E) (X := (encSI d a imm.toNat)) (by decide) (by simp only [encSI]; omega) (fun u hw hg => ?_) h
  simp only [encSI] at hw
  show decS 0x0E u ((ext.toList)[0]?) = _
  simp only [decS, hg]
  simp only [toList_head]
  refine congrArg some ?_
  congr 1 <;> first | rfl | (apply BitVec.eq_of_toNat_eq; simp only [fld, BitVec.toNat_ofNat]; omega)

theorem xor (g : Guard) (d a b : SReg) : Statement (.xor g d a b) := by
  intro sl hs h
  obtain rfl := Option.some.inj hs
  refine decode_plain (op := 0x0F) (X := (encSR d a b 0)) (by decide) (encSR_lt d a b 0) (fun u hw hg => ?_) h
  obtain ⟨h1, h2, h3, h4⟩ := fields_SR (d := d) (a := a) (b := b) (f := 0) hw
  show decS 0x0F u (none) = _
  simp only [decS, hg, h1, h2, h3, h4, keep, fz_eq_fld, beq_self_eq_true, if_true]

theorem xori (g : Guard) (d a : SReg) (imm : BitVec 9) (ext : Option Word32) : Statement (.xori g d a imm ext) := by
  intro sl hs h
  obtain rfl := Option.some.inj hs
  refine decode_opt (op := 0x10) (X := (encSI d a imm.toNat)) (by decide) (by simp only [encSI]; omega) (fun u hw hg => ?_) h
  simp only [encSI] at hw
  show decS 0x10 u ((ext.toList)[0]?) = _
  simp only [decS, hg]
  simp only [toList_head]
  refine congrArg some ?_
  congr 1 <;> first | rfl | (apply BitVec.eq_of_toNat_eq; simp only [fld, BitVec.toNat_ofNat]; omega)

theorem andn (g : Guard) (d a b : SReg) : Statement (.andn g d a b) := by
  intro sl hs h
  obtain rfl := Option.some.inj hs
  refine decode_plain (op := 0x11) (X := (encSR d a b 0)) (by decide) (encSR_lt d a b 0) (fun u hw hg => ?_) h
  obtain ⟨h1, h2, h3, h4⟩ := fields_SR (d := d) (a := a) (b := b) (f := 0) hw
  show decS 0x11 u (none) = _
  simp only [decS, hg, h1, h2, h3, h4, keep, fz_eq_fld, beq_self_eq_true, if_true]

theorem sll (g : Guard) (d a b : SReg) (f : BitVec 3) : Statement (.sll g d a b f) := by
  intro sl hs h
  obtain rfl := Option.some.inj hs
  refine decode_plain (op := 0x12) (X := (encSR d a b f.toNat)) (by decide) (encSR_lt d a b f) (fun u hw hg => ?_) h
  obtain ⟨h1, h2, h3, h4⟩ := fields_SR (d := d) (a := a) (b := b) (f := f) hw
  show decS 0x12 u (none) = _
  simp only [decS, hg, h1, h2, h3, h4]

theorem slli (g : Guard) (d a : SReg) (w : BitVec 1) (c : BitVec 6) : Statement (.slli g d a w c) := by
  intro sl hs h
  obtain rfl := Option.some.inj hs
  refine decode_plain (op := 0x13) (X := (encSI d a (w.toNat * 2 ^ 6 + c.toNat))) (by decide) (by simp only [encSI]; omega) (fun u hw hg => ?_) h
  simp only [encSI] at hw
  show decS 0x13 u (none) = _
  simp only [decS, hg]
  refine keep_eq ?_ ?_
  · simp only [fz, beq_iff_eq]; omega
  · congr 1 <;> first | rfl | (apply BitVec.eq_of_toNat_eq; simp only [fld, BitVec.toNat_ofNat]; omega)

theorem srl (g : Guard) (d a b : SReg) (f : BitVec 3) : Statement (.srl g d a b f) := by
  intro sl hs h
  obtain rfl := Option.some.inj hs
  refine decode_plain (op := 0x14) (X := (encSR d a b f.toNat)) (by decide) (encSR_lt d a b f) (fun u hw hg => ?_) h
  obtain ⟨h1, h2, h3, h4⟩ := fields_SR (d := d) (a := a) (b := b) (f := f) hw
  show decS 0x14 u (none) = _
  simp only [decS, hg, h1, h2, h3, h4]

theorem srli (g : Guard) (d a : SReg) (w : BitVec 1) (c : BitVec 6) : Statement (.srli g d a w c) := by
  intro sl hs h
  obtain rfl := Option.some.inj hs
  refine decode_plain (op := 0x15) (X := (encSI d a (w.toNat * 2 ^ 6 + c.toNat))) (by decide) (by simp only [encSI]; omega) (fun u hw hg => ?_) h
  simp only [encSI] at hw
  show decS 0x15 u (none) = _
  simp only [decS, hg]
  refine keep_eq ?_ ?_
  · simp only [fz, beq_iff_eq]; omega
  · congr 1 <;> first | rfl | (apply BitVec.eq_of_toNat_eq; simp only [fld, BitVec.toNat_ofNat]; omega)

theorem sra (g : Guard) (d a b : SReg) (f : BitVec 3) : Statement (.sra g d a b f) := by
  intro sl hs h
  obtain rfl := Option.some.inj hs
  refine decode_plain (op := 0x16) (X := (encSR d a b f.toNat)) (by decide) (encSR_lt d a b f) (fun u hw hg => ?_) h
  obtain ⟨h1, h2, h3, h4⟩ := fields_SR (d := d) (a := a) (b := b) (f := f) hw
  show decS 0x16 u (none) = _
  simp only [decS, hg, h1, h2, h3, h4]

theorem srai (g : Guard) (d a : SReg) (w : BitVec 1) (c : BitVec 6) : Statement (.srai g d a w c) := by
  intro sl hs h
  obtain rfl := Option.some.inj hs
  refine decode_plain (op := 0x17) (X := (encSI d a (w.toNat * 2 ^ 6 + c.toNat))) (by decide) (by simp only [encSI]; omega) (fun u hw hg => ?_) h
  simp only [encSI] at hw
  show decS 0x17 u (none) = _
  simp only [decS, hg]
  refine keep_eq ?_ ?_
  · simp only [fz, beq_iff_eq]; omega
  · congr 1 <;> first | rfl | (apply BitVec.eq_of_toNat_eq; simp only [fld, BitVec.toNat_ofNat]; omega)

theorem rot (g : Guard) (d a b : SReg) (f : BitVec 3) : Statement (.rot g d a b f) := by
  intro sl hs h
  obtain rfl := Option.some.inj hs
  refine decode_plain (op := 0x18) (X := (encSR d a b f.toNat)) (by decide) (encSR_lt d a b f) (fun u hw hg => ?_) h
  obtain ⟨h1, h2, h3, h4⟩ := fields_SR (d := d) (a := a) (b := b) (f := f) hw
  show decS 0x18 u (none) = _
  simp only [decS, hg, h1, h2, h3, h4]

theorem min (g : Guard) (d a b : SReg) : Statement (.min g d a b) := by
  intro sl hs h
  obtain rfl := Option.some.inj hs
  refine decode_plain (op := 0x19) (X := (encSR d a b 0)) (by decide) (encSR_lt d a b 0) (fun u hw hg => ?_) h
  obtain ⟨h1, h2, h3, h4⟩ := fields_SR (d := d) (a := a) (b := b) (f := 0) hw
  show decS 0x19 u (none) = _
  simp only [decS, hg, h1, h2, h3, h4, keep, fz_eq_fld, beq_self_eq_true, if_true]

theorem max (g : Guard) (d a b : SReg) : Statement (.max g d a b) := by
  intro sl hs h
  obtain rfl := Option.some.inj hs
  refine decode_plain (op := 0x1A) (X := (encSR d a b 0)) (by decide) (encSR_lt d a b 0) (fun u hw hg => ?_) h
  obtain ⟨h1, h2, h3, h4⟩ := fields_SR (d := d) (a := a) (b := b) (f := 0) hw
  show decS 0x1A u (none) = _
  simp only [decS, hg, h1, h2, h3, h4, keep, fz_eq_fld, beq_self_eq_true, if_true]

theorem minu (g : Guard) (d a b : SReg) : Statement (.minu g d a b) := by
  intro sl hs h
  obtain rfl := Option.some.inj hs
  refine decode_plain (op := 0x1B) (X := (encSR d a b 0)) (by decide) (encSR_lt d a b 0) (fun u hw hg => ?_) h
  obtain ⟨h1, h2, h3, h4⟩ := fields_SR (d := d) (a := a) (b := b) (f := 0) hw
  show decS 0x1B u (none) = _
  simp only [decS, hg, h1, h2, h3, h4, keep, fz_eq_fld, beq_self_eq_true, if_true]

theorem maxu (g : Guard) (d a b : SReg) : Statement (.maxu g d a b) := by
  intro sl hs h
  obtain rfl := Option.some.inj hs
  refine decode_plain (op := 0x1C) (X := (encSR d a b 0)) (by decide) (encSR_lt d a b 0) (fun u hw hg => ?_) h
  obtain ⟨h1, h2, h3, h4⟩ := fields_SR (d := d) (a := a) (b := b) (f := 0) hw
  show decS 0x1C u (none) = _
  simp only [decS, hg, h1, h2, h3, h4, keep, fz_eq_fld, beq_self_eq_true, if_true]

theorem clz (g : Guard) (d a : SReg) (f : BitVec 3) : Statement (.clz g d a f) := by
  intro sl hs h
  obtain rfl := Option.some.inj hs
  refine decode_plain (op := 0x1D) (X := (encSR d a 0 f.toNat)) (by decide) (encSR_lt d a 0 f) (fun u hw hg => ?_) h
  obtain ⟨h1, h2, h3, h4⟩ := fields_SR (d := d) (a := a) (b := 0) (f := f) hw
  show decS 0x1D u (none) = _
  simp only [decS, hg, h1, h2, h3, h4, keep, fz_eq_fld, beq_self_eq_true, if_true]

theorem ctz (g : Guard) (d a : SReg) (f : BitVec 3) : Statement (.ctz g d a f) := by
  intro sl hs h
  obtain rfl := Option.some.inj hs
  refine decode_plain (op := 0x1E) (X := (encSR d a 0 f.toNat)) (by decide) (encSR_lt d a 0 f) (fun u hw hg => ?_) h
  obtain ⟨h1, h2, h3, h4⟩ := fields_SR (d := d) (a := a) (b := 0) (f := f) hw
  show decS 0x1E u (none) = _
  simp only [decS, hg, h1, h2, h3, h4, keep, fz_eq_fld, beq_self_eq_true, if_true]

theorem popc (g : Guard) (d a : SReg) (f : BitVec 3) : Statement (.popc g d a f) := by
  intro sl hs h
  obtain rfl := Option.some.inj hs
  refine decode_plain (op := 0x1F) (X := (encSR d a 0 f.toNat)) (by decide) (encSR_lt d a 0 f) (fun u hw hg => ?_) h
  obtain ⟨h1, h2, h3, h4⟩ := fields_SR (d := d) (a := a) (b := 0) (f := f) hw
  show decS 0x1F u (none) = _
  simp only [decS, hg, h1, h2, h3, h4, keep, fz_eq_fld, beq_self_eq_true, if_true]

theorem sext (g : Guard) (d a : SReg) (f : BitVec 3) : Statement (.sext g d a f) := by
  intro sl hs h
  obtain rfl := Option.some.inj hs
  refine decode_plain (op := 0x20) (X := (encSR d a 0 f.toNat)) (by decide) (encSR_lt d a 0 f) (fun u hw hg => ?_) h
  obtain ⟨h1, h2, h3, h4⟩ := fields_SR (d := d) (a := a) (b := 0) (f := f) hw
  show decS 0x20 u (none) = _
  simp only [decS, hg, h1, h2, h3, h4, keep, fz_eq_fld, beq_self_eq_true, if_true]

theorem zext (g : Guard) (d a : SReg) (f : BitVec 3) : Statement (.zext g d a f) := by
  intro sl hs h
  obtain rfl := Option.some.inj hs
  refine decode_plain (op := 0x21) (X := (encSR d a 0 f.toNat)) (by decide) (encSR_lt d a 0 f) (fun u hw hg => ?_) h
  obtain ⟨h1, h2, h3, h4⟩ := fields_SR (d := d) (a := a) (b := 0) (f := f) hw
  show decS 0x21 u (none) = _
  simp only [decS, hg, h1, h2, h3, h4, keep, fz_eq_fld, beq_self_eq_true, if_true]

theorem li (g : Guard) (d : SReg) (imm : BitVec 15) (ext : Option Word32) : Statement (.li g d imm ext) := by
  intro sl hs h
  obtain rfl := Option.some.inj hs
  refine decode_opt (op := 0x22) (X := (d.toNat * 2 ^ 15 + imm.toNat)) (by decide) (by omega) (fun u hw hg => ?_) h
  show decS 0x22 u ((ext.toList)[0]?) = _
  simp only [decS, hg]
  simp only [toList_head]
  refine congrArg some ?_
  congr 1 <;> first | rfl | (apply BitVec.eq_of_toNat_eq; simp only [fld, BitVec.toNat_ofNat]; omega)

theorem lih (g : Guard) (d : SReg) (ext : Word32) : Statement (.lih g d ext) := by
  intro sl hs h
  obtain rfl := Option.some.inj hs
  refine decode_req (op := 0x23) (X := (d.toNat * 2 ^ 15)) (by decide) (by omega) (fun u hw hg => ?_) h
  show decS 0x23 u (some ext) = _
  simp only [decS, hg]
  refine keep_eq ?_ ?_
  · simp only [fz, beq_iff_eq]; omega
  · congr 1 ; first | rfl | (apply BitVec.eq_of_toNat_eq; simp only [fld, BitVec.toNat_ofNat]; omega)

theorem sel (g : Guard) (d a b : SReg) (q : BitVec 3) : Statement (.sel g d a b q) := by
  intro sl hs h
  obtain rfl := Option.some.inj hs
  refine decode_plain (op := 0x24) (X := (encSR d a b q.toNat)) (by decide) (encSR_lt d a b q) (fun u hw hg => ?_) h
  obtain ⟨h1, h2, h3, h4⟩ := fields_SR (d := d) (a := a) (b := b) (f := q) hw
  show decS 0x24 u (none) = _
  simp only [decS, hg, h1, h2, h3, h4]

theorem cmp (g : Guard) (pd : PReg) (a b : SReg) (cond : BitVec 5) : Statement (.cmp g pd a b cond) := by
  intro sl hs h
  obtain rfl := Option.some.inj hs
  refine decode_plain (op := 0x25) (X := (encSC pd a b cond)) (by decide) (by simp only [encSC]; omega) (fun u hw hg => ?_) h
  simp only [encSC] at hw
  show decS 0x25 u (none) = _
  simp only [decS, hg]
  refine congrArg some ?_
  congr 1 <;> first | rfl | (apply BitVec.eq_of_toNat_eq; simp only [fld, BitVec.toNat_ofNat]; omega)

theorem cmpi (g : Guard) (pd : PReg) (a : SReg) (cond : BitVec 5) (imm : BitVec 6) (ext : Option Word32) : Statement (.cmpi g pd a cond imm ext) := by
  intro sl hs h
  obtain rfl := Option.some.inj hs
  refine decode_opt (op := 0x26) (X := (pd.toNat * 2 ^ 17 + a.toNat * 2 ^ 11 + cond.toNat * 2 ^ 6 + imm.toNat)) (by decide) (by omega) (fun u hw hg => ?_) h
  show decS 0x26 u ((ext.toList)[0]?) = _
  simp only [decS, hg]
  simp only [toList_head]
  refine congrArg some ?_
  congr 1 <;> first | rfl | (apply BitVec.eq_of_toNat_eq; simp only [fld, BitVec.toNat_ofNat]; omega)

theorem pand (g : Guard) (pd pa pb : PReg) : Statement (.pand g pd pa pb) := by
  intro sl hs h
  obtain rfl := Option.some.inj hs
  refine decode_plain (op := 0x27) (X := (encSP pd pa pb)) (by decide) (by simp only [encSP]; omega) (fun u hw hg => ?_) h
  simp only [encSP] at hw
  show decS 0x27 u (none) = _
  simp only [decS, hg]
  refine keep_eq ?_ ?_
  · simp only [fz, beq_iff_eq]; omega
  · congr 1 <;> first | rfl | (apply BitVec.eq_of_toNat_eq; simp only [fld, BitVec.toNat_ofNat]; omega)

theorem por (g : Guard) (pd pa pb : PReg) : Statement (.por g pd pa pb) := by
  intro sl hs h
  obtain rfl := Option.some.inj hs
  refine decode_plain (op := 0x28) (X := (encSP pd pa pb)) (by decide) (by simp only [encSP]; omega) (fun u hw hg => ?_) h
  simp only [encSP] at hw
  show decS 0x28 u (none) = _
  simp only [decS, hg]
  refine keep_eq ?_ ?_
  · simp only [fz, beq_iff_eq]; omega
  · congr 1 <;> first | rfl | (apply BitVec.eq_of_toNat_eq; simp only [fld, BitVec.toNat_ofNat]; omega)

theorem pxor (g : Guard) (pd pa pb : PReg) : Statement (.pxor g pd pa pb) := by
  intro sl hs h
  obtain rfl := Option.some.inj hs
  refine decode_plain (op := 0x29) (X := (encSP pd pa pb)) (by decide) (by simp only [encSP]; omega) (fun u hw hg => ?_) h
  simp only [encSP] at hw
  show decS 0x29 u (none) = _
  simp only [decS, hg]
  refine keep_eq ?_ ?_
  · simp only [fz, beq_iff_eq]; omega
  · congr 1 <;> first | rfl | (apply BitVec.eq_of_toNat_eq; simp only [fld, BitVec.toNat_ofNat]; omega)

theorem pandn (g : Guard) (pd pa pb : PReg) : Statement (.pandn g pd pa pb) := by
  intro sl hs h
  obtain rfl := Option.some.inj hs
  refine decode_plain (op := 0x2A) (X := (encSP pd pa pb)) (by decide) (by simp only [encSP]; omega) (fun u hw hg => ?_) h
  simp only [encSP] at hw
  show decS 0x2A u (none) = _
  simp only [decS, hg]
  refine keep_eq ?_ ?_
  · simp only [fz, beq_iff_eq]; omega
  · congr 1 <;> first | rfl | (apply BitVec.eq_of_toNat_eq; simp only [fld, BitVec.toNat_ofNat]; omega)

theorem fadd (g : Guard) (d a b : SReg) (rm : BitVec 3) : Statement (.fadd g d a b rm) := by
  intro sl hs h
  obtain rfl := Option.some.inj hs
  refine decode_plain (op := 0x2B) (X := (encSR d a b rm.toNat)) (by decide) (encSR_lt d a b rm) (fun u hw hg => ?_) h
  obtain ⟨h1, h2, h3, h4⟩ := fields_SR (d := d) (a := a) (b := b) (f := rm) hw
  show decS 0x2B u (none) = _
  simp only [decS, hg, h1, h2, h3, h4]

theorem fsub (g : Guard) (d a b : SReg) (rm : BitVec 3) : Statement (.fsub g d a b rm) := by
  intro sl hs h
  obtain rfl := Option.some.inj hs
  refine decode_plain (op := 0x2C) (X := (encSR d a b rm.toNat)) (by decide) (encSR_lt d a b rm) (fun u hw hg => ?_) h
  obtain ⟨h1, h2, h3, h4⟩ := fields_SR (d := d) (a := a) (b := b) (f := rm) hw
  show decS 0x2C u (none) = _
  simp only [decS, hg, h1, h2, h3, h4]

theorem fmul (g : Guard) (d a b : SReg) (rm : BitVec 3) : Statement (.fmul g d a b rm) := by
  intro sl hs h
  obtain rfl := Option.some.inj hs
  refine decode_plain (op := 0x2D) (X := (encSR d a b rm.toNat)) (by decide) (encSR_lt d a b rm) (fun u hw hg => ?_) h
  obtain ⟨h1, h2, h3, h4⟩ := fields_SR (d := d) (a := a) (b := b) (f := rm) hw
  show decS 0x2D u (none) = _
  simp only [decS, hg, h1, h2, h3, h4]

theorem ffma (g : Guard) (d a b : SReg) (rm : BitVec 3) : Statement (.ffma g d a b rm) := by
  intro sl hs h
  obtain rfl := Option.some.inj hs
  refine decode_plain (op := 0x2E) (X := (encSR d a b rm.toNat)) (by decide) (encSR_lt d a b rm) (fun u hw hg => ?_) h
  obtain ⟨h1, h2, h3, h4⟩ := fields_SR (d := d) (a := a) (b := b) (f := rm) hw
  show decS 0x2E u (none) = _
  simp only [decS, hg, h1, h2, h3, h4]

theorem fdiv (g : Guard) (d a b : SReg) (rm : BitVec 3) : Statement (.fdiv g d a b rm) := by
  intro sl hs h
  obtain rfl := Option.some.inj hs
  refine decode_plain (op := 0x2F) (X := (encSR d a b rm.toNat)) (by decide) (encSR_lt d a b rm) (fun u hw hg => ?_) h
  obtain ⟨h1, h2, h3, h4⟩ := fields_SR (d := d) (a := a) (b := b) (f := rm) hw
  show decS 0x2F u (none) = _
  simp only [decS, hg, h1, h2, h3, h4]

theorem fsqrt (g : Guard) (d a : SReg) (rm : BitVec 3) : Statement (.fsqrt g d a rm) := by
  intro sl hs h
  obtain rfl := Option.some.inj hs
  refine decode_plain (op := 0x30) (X := (encSR d a 0 rm.toNat)) (by decide) (encSR_lt d a 0 rm) (fun u hw hg => ?_) h
  obtain ⟨h1, h2, h3, h4⟩ := fields_SR (d := d) (a := a) (b := 0) (f := rm) hw
  show decS 0x30 u (none) = _
  simp only [decS, hg, h1, h2, h3, h4, keep, fz_eq_fld, beq_self_eq_true, if_true]

theorem fmin (g : Guard) (d a b : SReg) : Statement (.fmin g d a b) := by
  intro sl hs h
  obtain rfl := Option.some.inj hs
  refine decode_plain (op := 0x31) (X := (encSR d a b 0)) (by decide) (encSR_lt d a b 0) (fun u hw hg => ?_) h
  obtain ⟨h1, h2, h3, h4⟩ := fields_SR (d := d) (a := a) (b := b) (f := 0) hw
  show decS 0x31 u (none) = _
  simp only [decS, hg, h1, h2, h3, h4, keep, fz_eq_fld, beq_self_eq_true, if_true]

theorem fmax (g : Guard) (d a b : SReg) : Statement (.fmax g d a b) := by
  intro sl hs h
  obtain rfl := Option.some.inj hs
  refine decode_plain (op := 0x32) (X := (encSR d a b 0)) (by decide) (encSR_lt d a b 0) (fun u hw hg => ?_) h
  obtain ⟨h1, h2, h3, h4⟩ := fields_SR (d := d) (a := a) (b := b) (f := 0) hw
  show decS 0x32 u (none) = _
  simp only [decS, hg, h1, h2, h3, h4, keep, fz_eq_fld, beq_self_eq_true, if_true]

theorem fcmp (g : Guard) (pd : PReg) (a b : SReg) (cond : BitVec 5) : Statement (.fcmp g pd a b cond) := by
  intro sl hs h
  obtain rfl := Option.some.inj hs
  refine decode_plain (op := 0x33) (X := (encSC pd a b cond)) (by decide) (by simp only [encSC]; omega) (fun u hw hg => ?_) h
  simp only [encSC] at hw
  show decS 0x33 u (none) = _
  simp only [decS, hg]
  refine congrArg some ?_
  congr 1 <;> first | rfl | (apply BitVec.eq_of_toNat_eq; simp only [fld, BitVec.toNat_ofNat]; omega)

theorem fcvt (g : Guard) (d a : SReg) (sat : BitVec 1) (code : BitVec 5) (rm : BitVec 3) : Statement (.fcvt g d a sat code rm) := by
  intro sl hs h
  obtain rfl := Option.some.inj hs
  refine decode_plain (op := 0x34) (X := (d.toNat * 2 ^ 15 + a.toNat * 2 ^ 9 + sat.toNat * 2 ^ 8 + code.toNat * 2 ^ 3 + rm.toNat)) (by decide) (by omega) (fun u hw hg => ?_) h
  show decS 0x34 u (none) = _
  simp only [decS, hg]
  refine congrArg some ?_
  congr 1 <;> first | rfl | (apply BitVec.eq_of_toNat_eq; simp only [fld, BitVec.toNat_ofNat]; omega)

theorem aadd (g : Guard) (d a : AReg) (b : SReg) : Statement (.aadd g d a b) := by
  intro sl hs h
  obtain rfl := Option.some.inj hs
  refine decode_plain (op := 0x01) (X := (encAR d a b)) (by decide) (by simp only [encAR]; omega) (fun u hw hg => ?_) h
  simp only [encAR] at hw
  show decA 0x01 u (none) = _
  simp only [decA, hg]
  refine keep_eq ?_ ?_
  · simp only [fz, beq_iff_eq]; omega
  · congr 1 <;> first | rfl | (apply BitVec.eq_of_toNat_eq; simp only [fld, BitVec.toNat_ofNat]; omega)

theorem aaddi (g : Guard) (d a : AReg) (imm : BitVec 11) (ext : Option Word32) : Statement (.aaddi g d a imm ext) := by
  intro sl hs h
  obtain rfl := Option.some.inj hs
  refine decode_opt (op := 0x02) (X := (d.toNat * 2 ^ 16 + a.toNat * 2 ^ 11 + imm.toNat)) (by decide) (by omega) (fun u hw hg => ?_) h
  show decA 0x02 u ((ext.toList)[0]?) = _
  simp only [decA, hg]
  simp only [toList_head]
  refine congrArg some ?_
  congr 1 <;> first | rfl | (apply BitVec.eq_of_toNat_eq; simp only [fld, BitVec.toNat_ofNat]; omega)

theorem asub (g : Guard) (d a : AReg) (b : SReg) : Statement (.asub g d a b) := by
  intro sl hs h
  obtain rfl := Option.some.inj hs
  refine decode_plain (op := 0x03) (X := (encAR d a b)) (by decide) (by simp only [encAR]; omega) (fun u hw hg => ?_) h
  simp only [encAR] at hw
  show decA 0x03 u (none) = _
  simp only [decA, hg]
  refine keep_eq ?_ ?_
  · simp only [fz, beq_iff_eq]; omega
  · congr 1 <;> first | rfl | (apply BitVec.eq_of_toNat_eq; simp only [fld, BitVec.toNat_ofNat]; omega)

theorem amov (g : Guard) (d a : AReg) (b : SReg) : Statement (.amov g d a b) := by
  intro sl hs h
  obtain rfl := Option.some.inj hs
  refine decode_plain (op := 0x04) (X := (encAR d a b)) (by decide) (by simp only [encAR]; omega) (fun u hw hg => ?_) h
  simp only [encAR] at hw
  show decA 0x04 u (none) = _
  simp only [decA, hg]
  refine keep_eq ?_ ?_
  · simp only [fz, beq_iff_eq]; omega
  · congr 1 <;> first | rfl | (apply BitVec.eq_of_toNat_eq; simp only [fld, BitVec.toNat_ofNat]; omega)

theorem asplitLo (g : Guard) (a : AReg) (b : SReg) : Statement (.asplitLo g a b) := by
  intro sl hs h
  obtain rfl := Option.some.inj hs
  refine decode_plain (op := 0x05) (X := (encAR 0 a b)) (by decide) (by simp only [encAR, BitVec.ofNat_eq_ofNat, BitVec.toNat_ofNat]; omega) (fun u hw hg => ?_) h
  simp only [encAR, BitVec.ofNat_eq_ofNat, BitVec.toNat_ofNat] at hw
  show decA 0x05 u (none) = _
  simp only [decA, hg]
  have hk : u.toNat / 2 ^ 16 % 32 = 0 := by omega
  simp only [hk]
  refine keep_eq ?_ ?_
  · simp only [fz, beq_iff_eq]; omega
  · congr 1 <;> first | rfl | (apply BitVec.eq_of_toNat_eq; simp only [fld, BitVec.toNat_ofNat]; omega)

theorem asplitHi (g : Guard) (a : AReg) (b : SReg) : Statement (.asplitHi g a b) := by
  intro sl hs h
  obtain rfl := Option.some.inj hs
  refine decode_plain (op := 0x05) (X := (encAR 1 a b)) (by decide) (by simp only [encAR, BitVec.ofNat_eq_ofNat, BitVec.toNat_ofNat]; omega) (fun u hw hg => ?_) h
  simp only [encAR, BitVec.ofNat_eq_ofNat, BitVec.toNat_ofNat] at hw
  show decA 0x05 u (none) = _
  simp only [decA, hg]
  have hk : u.toNat / 2 ^ 16 % 32 = 1 := by omega
  simp only [hk]
  refine keep_eq ?_ ?_
  · simp only [fz, beq_iff_eq]; omega
  · congr 1 <;> first | rfl | (apply BitVec.eq_of_toNat_eq; simp only [fld, BitVec.toNat_ofNat]; omega)

theorem ld (g : Guard) (x : SReg) (a : AReg) (sz : BitVec 2) (sx : BitVec 1) (ord : BitVec 2) (off : BitVec 5) (ext : Option Word32) : Statement (.ld g x a sz sx ord off ext) := by
  intro sl hs h
  obtain rfl := Option.some.inj hs
  refine decode_opt (op := 0x06) (X := (encAM x a sz sx.toNat ord off)) (by decide) (by simp only [encAM]; omega) (fun u hw hg => ?_) h
  simp only [encAM] at hw
  show decA 0x06 u ((ext.toList)[0]?) = _
  simp only [decA, hg]
  simp only [toList_head]
  refine congrArg some ?_
  congr 1 <;> first | rfl | (apply BitVec.eq_of_toNat_eq; simp only [fld, BitVec.toNat_ofNat]; omega)

theorem st (g : Guard) (x : SReg) (a : AReg) (sz : BitVec 2) (ord : BitVec 2) (off : BitVec 5) (ext : Option Word32) : Statement (.st g x a sz ord off ext) := by
  intro sl hs h
  obtain rfl := Option.some.inj hs
  refine decode_opt (op := 0x07) (X := (encAM x a sz 0 ord off)) (by decide) (by simp only [encAM]; omega) (fun u hw hg => ?_) h
  simp only [encAM] at hw
  show decA 0x07 u ((ext.toList)[0]?) = _
  simp only [decA, hg]
  simp only [toList_head]
  refine keep_eq ?_ ?_
  · simp only [fz, beq_iff_eq]; omega
  · congr 1 <;> first | rfl | (apply BitVec.eq_of_toNat_eq; simp only [fld, BitVec.toNat_ofNat]; omega)

theorem lda (g : Guard) (d a : AReg) (ord : BitVec 2) (off : BitVec 9) : Statement (.lda g d a ord off) := by
  intro sl hs h
  obtain rfl := Option.some.inj hs
  refine decode_plain (op := 0x08) (X := (encAQ d a ord off)) (by decide) (by simp only [encAQ]; omega) (fun u hw hg => ?_) h
  simp only [encAQ] at hw
  show decA 0x08 u (none) = _
  simp only [decA, hg]
  refine congrArg some ?_
  congr 1 <;> first | rfl | (apply BitVec.eq_of_toNat_eq; simp only [fld, BitVec.toNat_ofNat]; omega)

theorem sta (g : Guard) (d a : AReg) (ord : BitVec 2) (off : BitVec 9) : Statement (.sta g d a ord off) := by
  intro sl hs h
  obtain rfl := Option.some.inj hs
  refine decode_plain (op := 0x09) (X := (encAQ d a ord off)) (by decide) (by simp only [encAQ]; omega) (fun u hw hg => ?_) h
  simp only [encAQ] at hw
  show decA 0x09 u (none) = _
  simp only [decA, hg]
  refine congrArg some ?_
  congr 1 <;> first | rfl | (apply BitVec.eq_of_toNat_eq; simp only [fld, BitVec.toNat_ofNat]; omega)

theorem pref (g : Guard) (a : AReg) (sz : BitVec 2) (off : BitVec 5) (ext : Option Word32) : Statement (.pref g a sz off ext) := by
  intro sl hs h
  obtain rfl := Option.some.inj hs
  refine decode_opt (op := 0x0A) (X := (encAM 0 a sz 0 0 off)) (by decide) (by simp only [encAM, BitVec.ofNat_eq_ofNat, BitVec.toNat_ofNat]; omega) (fun u hw hg => ?_) h
  simp only [encAM, BitVec.ofNat_eq_ofNat, BitVec.toNat_ofNat] at hw
  show decA 0x0A u ((ext.toList)[0]?) = _
  simp only [decA, hg]
  simp only [toList_head]
  refine keep_eq ?_ ?_
  · simp only [fz, Bool.and_eq_true, beq_iff_eq]; omega
  · congr 1 <;> first | rfl | (apply BitVec.eq_of_toNat_eq; simp only [fld, BitVec.toNat_ofNat]; omega)

theorem amoAdd (g : Guard) (d : SReg) (a : AReg) (b : SReg) (sz : BitVec 1) (ord : BitVec 2) : Statement (.amoAdd g d a b sz ord) := by
  intro sl hs h
  obtain rfl := Option.some.inj hs
  refine decode_plain (op := 0x0B) (X := (encAA d a b sz ord)) (by decide) (by simp only [encAA]; omega) (fun u hw hg => ?_) h
  simp only [encAA] at hw
  show decA 0x0B u (none) = _
  simp only [decA, hg]
  refine keep_eq ?_ ?_
  · simp only [fz, beq_iff_eq]; omega
  · congr 1 <;> first | rfl | (apply BitVec.eq_of_toNat_eq; simp only [fld, BitVec.toNat_ofNat]; omega)

theorem amoAnd (g : Guard) (d : SReg) (a : AReg) (b : SReg) (sz : BitVec 1) (ord : BitVec 2) : Statement (.amoAnd g d a b sz ord) := by
  intro sl hs h
  obtain rfl := Option.some.inj hs
  refine decode_plain (op := 0x0C) (X := (encAA d a b sz ord)) (by decide) (by simp only [encAA]; omega) (fun u hw hg => ?_) h
  simp only [encAA] at hw
  show decA 0x0C u (none) = _
  simp only [decA, hg]
  refine keep_eq ?_ ?_
  · simp only [fz, beq_iff_eq]; omega
  · congr 1 <;> first | rfl | (apply BitVec.eq_of_toNat_eq; simp only [fld, BitVec.toNat_ofNat]; omega)

theorem amoOr (g : Guard) (d : SReg) (a : AReg) (b : SReg) (sz : BitVec 1) (ord : BitVec 2) : Statement (.amoOr g d a b sz ord) := by
  intro sl hs h
  obtain rfl := Option.some.inj hs
  refine decode_plain (op := 0x0D) (X := (encAA d a b sz ord)) (by decide) (by simp only [encAA]; omega) (fun u hw hg => ?_) h
  simp only [encAA] at hw
  show decA 0x0D u (none) = _
  simp only [decA, hg]
  refine keep_eq ?_ ?_
  · simp only [fz, beq_iff_eq]; omega
  · congr 1 <;> first | rfl | (apply BitVec.eq_of_toNat_eq; simp only [fld, BitVec.toNat_ofNat]; omega)

theorem amoXor (g : Guard) (d : SReg) (a : AReg) (b : SReg) (sz : BitVec 1) (ord : BitVec 2) : Statement (.amoXor g d a b sz ord) := by
  intro sl hs h
  obtain rfl := Option.some.inj hs
  refine decode_plain (op := 0x0E) (X := (encAA d a b sz ord)) (by decide) (by simp only [encAA]; omega) (fun u hw hg => ?_) h
  simp only [encAA] at hw
  show decA 0x0E u (none) = _
  simp only [decA, hg]
  refine keep_eq ?_ ?_
  · simp only [fz, beq_iff_eq]; omega
  · congr 1 <;> first | rfl | (apply BitVec.eq_of_toNat_eq; simp only [fld, BitVec.toNat_ofNat]; omega)

theorem amoMin (g : Guard) (d : SReg) (a : AReg) (b : SReg) (sz : BitVec 1) (ord : BitVec 2) : Statement (.amoMin g d a b sz ord) := by
  intro sl hs h
  obtain rfl := Option.some.inj hs
  refine decode_plain (op := 0x0F) (X := (encAA d a b sz ord)) (by decide) (by simp only [encAA]; omega) (fun u hw hg => ?_) h
  simp only [encAA] at hw
  show decA 0x0F u (none) = _
  simp only [decA, hg]
  refine keep_eq ?_ ?_
  · simp only [fz, beq_iff_eq]; omega
  · congr 1 <;> first | rfl | (apply BitVec.eq_of_toNat_eq; simp only [fld, BitVec.toNat_ofNat]; omega)

theorem amoMax (g : Guard) (d : SReg) (a : AReg) (b : SReg) (sz : BitVec 1) (ord : BitVec 2) : Statement (.amoMax g d a b sz ord) := by
  intro sl hs h
  obtain rfl := Option.some.inj hs
  refine decode_plain (op := 0x10) (X := (encAA d a b sz ord)) (by decide) (by simp only [encAA]; omega) (fun u hw hg => ?_) h
  simp only [encAA] at hw
  show decA 0x10 u (none) = _
  simp only [decA, hg]
  refine keep_eq ?_ ?_
  · simp only [fz, beq_iff_eq]; omega
  · congr 1 <;> first | rfl | (apply BitVec.eq_of_toNat_eq; simp only [fld, BitVec.toNat_ofNat]; omega)

theorem amoMinu (g : Guard) (d : SReg) (a : AReg) (b : SReg) (sz : BitVec 1) (ord : BitVec 2) : Statement (.amoMinu g d a b sz ord) := by
  intro sl hs h
  obtain rfl := Option.some.inj hs
  refine decode_plain (op := 0x11) (X := (encAA d a b sz ord)) (by decide) (by simp only [encAA]; omega) (fun u hw hg => ?_) h
  simp only [encAA] at hw
  show decA 0x11 u (none) = _
  simp only [decA, hg]
  refine keep_eq ?_ ?_
  · simp only [fz, beq_iff_eq]; omega
  · congr 1 <;> first | rfl | (apply BitVec.eq_of_toNat_eq; simp only [fld, BitVec.toNat_ofNat]; omega)

theorem amoMaxu (g : Guard) (d : SReg) (a : AReg) (b : SReg) (sz : BitVec 1) (ord : BitVec 2) : Statement (.amoMaxu g d a b sz ord) := by
  intro sl hs h
  obtain rfl := Option.some.inj hs
  refine decode_plain (op := 0x12) (X := (encAA d a b sz ord)) (by decide) (by simp only [encAA]; omega) (fun u hw hg => ?_) h
  simp only [encAA] at hw
  show decA 0x12 u (none) = _
  simp only [decA, hg]
  refine keep_eq ?_ ?_
  · simp only [fz, beq_iff_eq]; omega
  · congr 1 <;> first | rfl | (apply BitVec.eq_of_toNat_eq; simp only [fld, BitVec.toNat_ofNat]; omega)

theorem amoSwap (g : Guard) (d : SReg) (a : AReg) (b : SReg) (sz : BitVec 1) (ord : BitVec 2) : Statement (.amoSwap g d a b sz ord) := by
  intro sl hs h
  obtain rfl := Option.some.inj hs
  refine decode_plain (op := 0x13) (X := (encAA d a b sz ord)) (by decide) (by simp only [encAA]; omega) (fun u hw hg => ?_) h
  simp only [encAA] at hw
  show decA 0x13 u (none) = _
  simp only [decA, hg]
  refine keep_eq ?_ ?_
  · simp only [fz, beq_iff_eq]; omega
  · congr 1 <;> first | rfl | (apply BitVec.eq_of_toNat_eq; simp only [fld, BitVec.toNat_ofNat]; omega)

theorem cas (g : Guard) (d : SReg) (a : AReg) (b : SReg) (sz : BitVec 1) (ord : BitVec 2) : Statement (.cas g d a b sz ord) := by
  intro sl hs h
  obtain rfl := Option.some.inj hs
  refine decode_plain (op := 0x14) (X := (encAA d a b sz ord)) (by decide) (by simp only [encAA]; omega) (fun u hw hg => ?_) h
  simp only [encAA] at hw
  show decA 0x14 u (none) = _
  simp only [decA, hg]
  refine keep_eq ?_ ?_
  · simp only [fz, beq_iff_eq]; omega
  · congr 1 <;> first | rfl | (apply BitVec.eq_of_toNat_eq; simp only [fld, BitVec.toNat_ofNat]; omega)

theorem red (g : Guard) (op : BitVec 4) (a : AReg) (b : SReg) (sz : BitVec 1) (ord : BitVec 2) : Statement (.red g op a b sz ord) := by
  intro sl hs h
  obtain rfl := Option.some.inj hs
  refine decode_plain (op := 0x15) (X := (op.toNat * 2 ^ 17 + a.toNat * 2 ^ 10 + b.toNat * 2 ^ 4 + sz.toNat * 2 ^ 3 + ord.toNat * 2)) (by decide) (by omega) (fun u hw hg => ?_) h
  show decA 0x15 u (none) = _
  simp only [decA, hg]
  refine keep_eq ?_ ?_
  · simp only [fz, Bool.and_eq_true, beq_iff_eq]; omega
  · congr 1 <;> first | rfl | (apply BitVec.eq_of_toNat_eq; simp only [fld, BitVec.toNat_ofNat]; omega)

theorem talloc (g : Guard) (t : TReg) (x : SReg) (tx : TallocX) : Statement (.talloc g t x tx) := by
  intro sl hs h
  obtain rfl := Option.some.inj hs
  refine decode_req (op := 0x16) (X := (t.toNat * 2 ^ 13 + x.toNat * 2 ^ 7)) (by decide) (by omega) (fun u hw hg => ?_) h
  show decA 0x16 u ((encTallocX tx)[0]?) = _
  simp only [decA, hg]
  simp only [tallocxOf_encTallocX, (efz_encTallocX tx).1, (efz_encTallocX tx).2, Bool.and_true]
  refine keep_eq ?_ ?_
  · simp only [fz, beq_iff_eq]; omega
  · congr 1 <;> first | rfl | (apply BitVec.eq_of_toNat_eq; simp only [fld, BitVec.toNat_ofNat]; omega)

theorem tfree (g : Guard) (t : TReg) : Statement (.tfree g t) := by
  intro sl hs h
  obtain rfl := Option.some.inj hs
  refine decode_plain (op := 0x17) (X := (t.toNat * 2 ^ 13)) (by decide) (by omega) (fun u hw hg => ?_) h
  show decA 0x17 u (none) = _
  simp only [decA, hg]
  refine keep_eq ?_ ?_
  · simp only [fz, beq_iff_eq]; omega
  · congr 1 ; first | rfl | (apply BitVec.eq_of_toNat_eq; simp only [fld, BitVec.toNat_ofNat]; omega)

theorem tqry (g : Guard) (t : TReg) (x : SReg) : Statement (.tqry g t x) := by
  intro sl hs h
  obtain rfl := Option.some.inj hs
  refine decode_plain (op := 0x18) (X := (t.toNat * 2 ^ 13 + x.toNat * 2 ^ 7)) (by decide) (by omega) (fun u hw hg => ?_) h
  show decA 0x18 u (none) = _
  simp only [decA, hg]
  refine keep_eq ?_ ?_
  · simp only [fz, beq_iff_eq]; omega
  · congr 1 <;> first | rfl | (apply BitVec.eq_of_toNat_eq; simp only [fld, BitVec.toNat_ofNat]; omega)

theorem vadd (g : Guard) (d a b : VReg) (k : KReg) (vx : Option VX) : Statement (.vadd g d a b k vx) := by
  intro sl hs h
  obtain rfl := Option.some.inj hs
  refine decode_opt (op := 0x01) (X := (encSR d a b k.toNat)) (by decide) (encSR_lt d a b k) (fun u hw hg => ?_) h
  obtain ⟨h1, h2, h3, h4⟩ := fields_SR (d := d) (a := a) (b := b) (f := k) hw
  show decV 0x01 u ((encVX vx)[0]?) = _
  simp only [decV, hg, h1, h2, h3, h4, vxOf_encVX]

theorem vsub (g : Guard) (d a b : VReg) (k : KReg) (vx : Option VX) : Statement (.vsub g d a b k vx) := by
  intro sl hs h
  obtain rfl := Option.some.inj hs
  refine decode_opt (op := 0x02) (X := (encSR d a b k.toNat)) (by decide) (encSR_lt d a b k) (fun u hw hg => ?_) h
  obtain ⟨h1, h2, h3, h4⟩ := fields_SR (d := d) (a := a) (b := b) (f := k) hw
  show decV 0x02 u ((encVX vx)[0]?) = _
  simp only [decV, hg, h1, h2, h3, h4, vxOf_encVX]

theorem vmul (g : Guard) (d a b : VReg) (k : KReg) (vx : Option VX) : Statement (.vmul g d a b k vx) := by
  intro sl hs h
  obtain rfl := Option.some.inj hs
  refine decode_opt (op := 0x03) (X := (encSR d a b k.toNat)) (by decide) (encSR_lt d a b k) (fun u hw hg => ?_) h
  obtain ⟨h1, h2, h3, h4⟩ := fields_SR (d := d) (a := a) (b := b) (f := k) hw
  show decV 0x03 u ((encVX vx)[0]?) = _
  simp only [decV, hg, h1, h2, h3, h4, vxOf_encVX]

theorem vfma (g : Guard) (d a b : VReg) (k : KReg) (vx : Option VX) : Statement (.vfma g d a b k vx) := by
  intro sl hs h
  obtain rfl := Option.some.inj hs
  refine decode_opt (op := 0x04) (X := (encSR d a b k.toNat)) (by decide) (encSR_lt d a b k) (fun u hw hg => ?_) h
  obtain ⟨h1, h2, h3, h4⟩ := fields_SR (d := d) (a := a) (b := b) (f := k) hw
  show decV 0x04 u ((encVX vx)[0]?) = _
  simp only [decV, hg, h1, h2, h3, h4, vxOf_encVX]

theorem vfms (g : Guard) (d a b : VReg) (k : KReg) (vx : Option VX) : Statement (.vfms g d a b k vx) := by
  intro sl hs h
  obtain rfl := Option.some.inj hs
  refine decode_opt (op := 0x05) (X := (encSR d a b k.toNat)) (by decide) (encSR_lt d a b k) (fun u hw hg => ?_) h
  obtain ⟨h1, h2, h3, h4⟩ := fields_SR (d := d) (a := a) (b := b) (f := k) hw
  show decV 0x05 u ((encVX vx)[0]?) = _
  simp only [decV, hg, h1, h2, h3, h4, vxOf_encVX]

theorem vabs (g : Guard) (d a : VReg) (k : KReg) (vx : Option VX) : Statement (.vabs g d a k vx) := by
  intro sl hs h
  obtain rfl := Option.some.inj hs
  refine decode_opt (op := 0x06) (X := (encSR d a 0 k.toNat)) (by decide) (encSR_lt d a 0 k) (fun u hw hg => ?_) h
  obtain ⟨h1, h2, h3, h4⟩ := fields_SR (d := d) (a := a) (b := 0) (f := k) hw
  show decV 0x06 u ((encVX vx)[0]?) = _
  simp only [decV, hg, h1, h2, h3, h4, vxOf_encVX, keep, fz_eq_fld, beq_self_eq_true, if_true]

theorem vmin (g : Guard) (d a b : VReg) (k : KReg) (vx : Option VX) : Statement (.vmin g d a b k vx) := by
  intro sl hs h
  obtain rfl := Option.some.inj hs
  refine decode_opt (op := 0x07) (X := (encSR d a b k.toNat)) (by decide) (encSR_lt d a b k) (fun u hw hg => ?_) h
  obtain ⟨h1, h2, h3, h4⟩ := fields_SR (d := d) (a := a) (b := b) (f := k) hw
  show decV 0x07 u ((encVX vx)[0]?) = _
  simp only [decV, hg, h1, h2, h3, h4, vxOf_encVX]

theorem vmax (g : Guard) (d a b : VReg) (k : KReg) (vx : Option VX) : Statement (.vmax g d a b k vx) := by
  intro sl hs h
  obtain rfl := Option.some.inj hs
  refine decode_opt (op := 0x08) (X := (encSR d a b k.toNat)) (by decide) (encSR_lt d a b k) (fun u hw hg => ?_) h
  obtain ⟨h1, h2, h3, h4⟩ := fields_SR (d := d) (a := a) (b := b) (f := k) hw
  show decV 0x08 u ((encVX vx)[0]?) = _
  simp only [decV, hg, h1, h2, h3, h4, vxOf_encVX]

theorem vdiv (g : Guard) (d a b : VReg) (k : KReg) (vx : Option VX) : Statement (.vdiv g d a b k vx) := by
  intro sl hs h
  obtain rfl := Option.some.inj hs
  refine decode_opt (op := 0x09) (X := (encSR d a b k.toNat)) (by decide) (encSR_lt d a b k) (fun u hw hg => ?_) h
  obtain ⟨h1, h2, h3, h4⟩ := fields_SR (d := d) (a := a) (b := b) (f := k) hw
  show decV 0x09 u ((encVX vx)[0]?) = _
  simp only [decV, hg, h1, h2, h3, h4, vxOf_encVX]

theorem vrcp (g : Guard) (d a : VReg) (k : KReg) (vx : Option VX) : Statement (.vrcp g d a k vx) := by
  intro sl hs h
  obtain rfl := Option.some.inj hs
  refine decode_opt (op := 0x0A) (X := (encSR d a 0 k.toNat)) (by decide) (encSR_lt d a 0 k) (fun u hw hg => ?_) h
  obtain ⟨h1, h2, h3, h4⟩ := fields_SR (d := d) (a := a) (b := 0) (f := k) hw
  show decV 0x0A u ((encVX vx)[0]?) = _
  simp only [decV, hg, h1, h2, h3, h4, vxOf_encVX, keep, fz_eq_fld, beq_self_eq_true, if_true]

theorem vrsq (g : Guard) (d a : VReg) (k : KReg) (vx : Option VX) : Statement (.vrsq g d a k vx) := by
  intro sl hs h
  obtain rfl := Option.some.inj hs
  refine decode_opt (op := 0x0B) (X := (encSR d a 0 k.toNat)) (by decide) (encSR_lt d a 0 k) (fun u hw hg => ?_) h
  obtain ⟨h1, h2, h3, h4⟩ := fields_SR (d := d) (a := a) (b := 0) (f := k) hw
  show decV 0x0B u ((encVX vx)[0]?) = _
  simp only [decV, hg, h1, h2, h3, h4, vxOf_encVX, keep, fz_eq_fld, beq_self_eq_true, if_true]

theorem vsqrt (g : Guard) (d a : VReg) (k : KReg) (vx : Option VX) : Statement (.vsqrt g d a k vx) := by
  intro sl hs h
  obtain rfl := Option.some.inj hs
  refine decode_opt (op := 0x0C) (X := (encSR d a 0 k.toNat)) (by decide) (encSR_lt d a 0 k) (fun u hw hg => ?_) h
  obtain ⟨h1, h2, h3, h4⟩ := fields_SR (d := d) (a := a) (b := 0) (f := k) hw
  show decV 0x0C u ((encVX vx)[0]?) = _
  simp only [decV, hg, h1, h2, h3, h4, vxOf_encVX, keep, fz_eq_fld, beq_self_eq_true, if_true]

theorem vexp (g : Guard) (d a : VReg) (k : KReg) (vx : Option VX) : Statement (.vexp g d a k vx) := by
  intro sl hs h
  obtain rfl := Option.some.inj hs
  refine decode_opt (op := 0x0D) (X := (encSR d a 0 k.toNat)) (by decide) (encSR_lt d a 0 k) (fun u hw hg => ?_) h
  obtain ⟨h1, h2, h3, h4⟩ := fields_SR (d := d) (a := a) (b := 0) (f := k) hw
  show decV 0x0D u ((encVX vx)[0]?) = _
  simp only [decV, hg, h1, h2, h3, h4, vxOf_encVX, keep, fz_eq_fld, beq_self_eq_true, if_true]

theorem vexp2 (g : Guard) (d a : VReg) (k : KReg) (vx : Option VX) : Statement (.vexp2 g d a k vx) := by
  intro sl hs h
  obtain rfl := Option.some.inj hs
  refine decode_opt (op := 0x0E) (X := (encSR d a 0 k.toNat)) (by decide) (encSR_lt d a 0 k) (fun u hw hg => ?_) h
  obtain ⟨h1, h2, h3, h4⟩ := fields_SR (d := d) (a := a) (b := 0) (f := k) hw
  show decV 0x0E u ((encVX vx)[0]?) = _
  simp only [decV, hg, h1, h2, h3, h4, vxOf_encVX, keep, fz_eq_fld, beq_self_eq_true, if_true]

theorem vlog2 (g : Guard) (d a : VReg) (k : KReg) (vx : Option VX) : Statement (.vlog2 g d a k vx) := by
  intro sl hs h
  obtain rfl := Option.some.inj hs
  refine decode_opt (op := 0x0F) (X := (encSR d a 0 k.toNat)) (by decide) (encSR_lt d a 0 k) (fun u hw hg => ?_) h
  obtain ⟨h1, h2, h3, h4⟩ := fields_SR (d := d) (a := a) (b := 0) (f := k) hw
  show decV 0x0F u ((encVX vx)[0]?) = _
  simp only [decV, hg, h1, h2, h3, h4, vxOf_encVX, keep, fz_eq_fld, beq_self_eq_true, if_true]

theorem vtanh (g : Guard) (d a : VReg) (k : KReg) (vx : Option VX) : Statement (.vtanh g d a k vx) := by
  intro sl hs h
  obtain rfl := Option.some.inj hs
  refine decode_opt (op := 0x10) (X := (encSR d a 0 k.toNat)) (by decide) (encSR_lt d a 0 k) (fun u hw hg => ?_) h
  obtain ⟨h1, h2, h3, h4⟩ := fields_SR (d := d) (a := a) (b := 0) (f := k) hw
  show decV 0x10 u ((encVX vx)[0]?) = _
  simp only [decV, hg, h1, h2, h3, h4, vxOf_encVX, keep, fz_eq_fld, beq_self_eq_true, if_true]

theorem vsigm (g : Guard) (d a : VReg) (k : KReg) (vx : Option VX) : Statement (.vsigm g d a k vx) := by
  intro sl hs h
  obtain rfl := Option.some.inj hs
  refine decode_opt (op := 0x11) (X := (encSR d a 0 k.toNat)) (by decide) (encSR_lt d a 0 k) (fun u hw hg => ?_) h
  obtain ⟨h1, h2, h3, h4⟩ := fields_SR (d := d) (a := a) (b := 0) (f := k) hw
  show decV 0x11 u ((encVX vx)[0]?) = _
  simp only [decV, hg, h1, h2, h3, h4, vxOf_encVX, keep, fz_eq_fld, beq_self_eq_true, if_true]

theorem vand (g : Guard) (d a b : VReg) (k : KReg) (vx : Option VX) : Statement (.vand g d a b k vx) := by
  intro sl hs h
  obtain rfl := Option.some.inj hs
  refine decode_opt (op := 0x12) (X := (encSR d a b k.toNat)) (by decide) (encSR_lt d a b k) (fun u hw hg => ?_) h
  obtain ⟨h1, h2, h3, h4⟩ := fields_SR (d := d) (a := a) (b := b) (f := k) hw
  show decV 0x12 u ((encVX vx)[0]?) = _
  simp only [decV, hg, h1, h2, h3, h4, vxOf_encVX]

theorem vor (g : Guard) (d a b : VReg) (k : KReg) (vx : Option VX) : Statement (.vor g d a b k vx) := by
  intro sl hs h
  obtain rfl := Option.some.inj hs
  refine decode_opt (op := 0x13) (X := (encSR d a b k.toNat)) (by decide) (encSR_lt d a b k) (fun u hw hg => ?_) h
  obtain ⟨h1, h2, h3, h4⟩ := fields_SR (d := d) (a := a) (b := b) (f := k) hw
  show decV 0x13 u ((encVX vx)[0]?) = _
  simp only [decV, hg, h1, h2, h3, h4, vxOf_encVX]

theorem vxor (g : Guard) (d a b : VReg) (k : KReg) (vx : Option VX) : Statement (.vxor g d a b k vx) := by
  intro sl hs h
  obtain rfl := Option.some.inj hs
  refine decode_opt (op := 0x14) (X := (encSR d a b k.toNat)) (by decide) (encSR_lt d a b k) (fun u hw hg => ?_) h
  obtain ⟨h1, h2, h3, h4⟩ := fields_SR (d := d) (a := a) (b := b) (f := k) hw
  show decV 0x14 u ((encVX vx)[0]?) = _
  simp only [decV, hg, h1, h2, h3, h4, vxOf_encVX]

theorem vshl (g : Guard) (d a b : VReg) (k : KReg) (vx : Option VX) : Statement (.vshl g d a b k vx) := by
  intro sl hs h
  obtain rfl := Option.some.inj hs
  refine decode_opt (op := 0x15) (X := (encSR d a b k.toNat)) (by decide) (encSR_lt d a b k) (fun u hw hg => ?_) h
  obtain ⟨h1, h2, h3, h4⟩ := fields_SR (d := d) (a := a) (b := b) (f := k) hw
  show decV 0x15 u ((encVX vx)[0]?) = _
  simp only [decV, hg, h1, h2, h3, h4, vxOf_encVX]

theorem vshr (g : Guard) (d a b : VReg) (k : KReg) (vx : Option VX) : Statement (.vshr g d a b k vx) := by
  intro sl hs h
  obtain rfl := Option.some.inj hs
  refine decode_opt (op := 0x16) (X := (encSR d a b k.toNat)) (by decide) (encSR_lt d a b k) (fun u hw hg => ?_) h
  obtain ⟨h1, h2, h3, h4⟩ := fields_SR (d := d) (a := a) (b := b) (f := k) hw
  show decV 0x16 u ((encVX vx)[0]?) = _
  simp only [decV, hg, h1, h2, h3, h4, vxOf_encVX]

theorem vsra (g : Guard) (d a b : VReg) (k : KReg) (vx : Option VX) : Statement (.vsra g d a b k vx) := by
  intro sl hs h
  obtain rfl := Option.some.inj hs
  refine decode_opt (op := 0x17) (X := (encSR d a b k.toNat)) (by decide) (encSR_lt d a b k) (fun u hw hg => ?_) h
  obtain ⟨h1, h2, h3, h4⟩ := fields_SR (d := d) (a := a) (b := b) (f := k) hw
  show decV 0x17 u ((encVX vx)[0]?) = _
  simp only [decV, hg, h1, h2, h3, h4, vxOf_encVX]

theorem vcmp (g : Guard) (kd : KReg) (a b : VReg) (cond : BitVec 5) (vx : Option VX) : Statement (.vcmp g kd a b cond vx) := by
  intro sl hs h
  obtain rfl := Option.some.inj hs
  refine decode_opt (op := 0x18) (X := (kd.toNat * 2 ^ 18 + a.toNat * 2 ^ 12 + b.toNat * 2 ^ 6 + cond.toNat * 2)) (by decide) (by omega) (fun u hw hg => ?_) h
  show decV 0x18 u ((encVX vx)[0]?) = _
  simp only [decV, hg]
  simp only [vxOf_encVX]
  refine keep_eq ?_ ?_
  · simp only [fz, beq_iff_eq]; omega
  · congr 1 <;> first | rfl | (apply BitVec.eq_of_toNat_eq; simp only [fld, BitVec.toNat_ofNat]; omega)

theorem vsel (g : Guard) (d a b : VReg) (k : KReg) (vx : Option VX) : Statement (.vsel g d a b k vx) := by
  intro sl hs h
  obtain rfl := Option.some.inj hs
  refine decode_opt (op := 0x19) (X := (encSR d a b k.toNat)) (by decide) (encSR_lt d a b k) (fun u hw hg => ?_) h
  obtain ⟨h1, h2, h3, h4⟩ := fields_SR (d := d) (a := a) (b := b) (f := k) hw
  show decV 0x19 u ((encVX vx)[0]?) = _
  simp only [decV, hg, h1, h2, h3, h4, vxOf_encVX]

theorem vcvt (g : Guard) (d a : VReg) (k : KReg) (vx : Option VX) : Statement (.vcvt g d a k vx) := by
  intro sl hs h
  obtain rfl := Option.some.inj hs
  refine decode_opt (op := 0x1A) (X := (encSR d a 0 k.toNat)) (by decide) (encSR_lt d a 0 k) (fun u hw hg => ?_) h
  obtain ⟨h1, h2, h3, h4⟩ := fields_SR (d := d) (a := a) (b := 0) (f := k) hw
  show decV 0x1A u ((encVX vx)[0]?) = _
  simp only [decV, hg, h1, h2, h3, h4, vxOf_encVX, keep, fz_eq_fld, beq_self_eq_true, if_true]

theorem vred (g : Guard) (d a : VReg) (k : KReg) (vx : Option VX) : Statement (.vred g d a k vx) := by
  intro sl hs h
  obtain rfl := Option.some.inj hs
  refine decode_opt (op := 0x1B) (X := (encSR d a 0 k.toNat)) (by decide) (encSR_lt d a 0 k) (fun u hw hg => ?_) h
  obtain ⟨h1, h2, h3, h4⟩ := fields_SR (d := d) (a := a) (b := 0) (f := k) hw
  show decV 0x1B u ((encVX vx)[0]?) = _
  simp only [decV, hg, h1, h2, h3, h4, vxOf_encVX, keep, fz_eq_fld, beq_self_eq_true, if_true]

theorem vscan (g : Guard) (d a : VReg) (k : KReg) (vx : Option VX) : Statement (.vscan g d a k vx) := by
  intro sl hs h
  obtain rfl := Option.some.inj hs
  refine decode_opt (op := 0x1C) (X := (encSR d a 0 k.toNat)) (by decide) (encSR_lt d a 0 k) (fun u hw hg => ?_) h
  obtain ⟨h1, h2, h3, h4⟩ := fields_SR (d := d) (a := a) (b := 0) (f := k) hw
  show decV 0x1C u ((encVX vx)[0]?) = _
  simp only [decV, hg, h1, h2, h3, h4, vxOf_encVX, keep, fz_eq_fld, beq_self_eq_true, if_true]

theorem vbcast (g : Guard) (d : VReg) (b : SReg) (k : KReg) (vx : Option VX) : Statement (.vbcast g d b k vx) := by
  intro sl hs h
  obtain rfl := Option.some.inj hs
  refine decode_opt (op := 0x1D) (X := (encSR d 0 b k.toNat)) (by decide) (encSR_lt d 0 b k) (fun u hw hg => ?_) h
  obtain ⟨h1, h2, h3, h4⟩ := fields_SR (d := d) (a := 0) (b := b) (f := k) hw
  show decV 0x1D u ((encVX vx)[0]?) = _
  simp only [decV, hg, h1, h2, h3, h4, vxOf_encVX, keep, fz_eq_fld, beq_self_eq_true, if_true]

theorem vins (g : Guard) (d : VReg) (a b : SReg) (vx : Option VX) : Statement (.vins g d a b vx) := by
  intro sl hs h
  obtain rfl := Option.some.inj hs
  refine decode_opt (op := 0x1E) (X := (encSR d a b 0)) (by decide) (encSR_lt d a b 0) (fun u hw hg => ?_) h
  obtain ⟨h1, h2, h3, h4⟩ := fields_SR (d := d) (a := a) (b := b) (f := 0) hw
  show decV 0x1E u ((encVX vx)[0]?) = _
  simp only [decV, hg, h1, h2, h3, h4, vxOf_encVX, keep, fz_eq_fld, beq_self_eq_true, if_true]

theorem vext (g : Guard) (d : SReg) (a : VReg) (b : SReg) (vx : Option VX) : Statement (.vext g d a b vx) := by
  intro sl hs h
  obtain rfl := Option.some.inj hs
  refine decode_opt (op := 0x1F) (X := (encSR d a b 0)) (by decide) (encSR_lt d a b 0) (fun u hw hg => ?_) h
  obtain ⟨h1, h2, h3, h4⟩ := fields_SR (d := d) (a := a) (b := b) (f := 0) hw
  show decV 0x1F u ((encVX vx)[0]?) = _
  simp only [decV, hg, h1, h2, h3, h4, vxOf_encVX, keep, fz_eq_fld, beq_self_eq_true, if_true]

theorem vperm (g : Guard) (d a b : VReg) (k : KReg) (vx : Option VX) : Statement (.vperm g d a b k vx) := by
  intro sl hs h
  obtain rfl := Option.some.inj hs
  refine decode_opt (op := 0x20) (X := (encSR d a b k.toNat)) (by decide) (encSR_lt d a b k) (fun u hw hg => ?_) h
  obtain ⟨h1, h2, h3, h4⟩ := fields_SR (d := d) (a := a) (b := b) (f := k) hw
  show decV 0x20 u ((encVX vx)[0]?) = _
  simp only [decV, hg, h1, h2, h3, h4, vxOf_encVX]

theorem viota (g : Guard) (d : VReg) (b : SReg) (k : KReg) (vx : Option VX) : Statement (.viota g d b k vx) := by
  intro sl hs h
  obtain rfl := Option.some.inj hs
  refine decode_opt (op := 0x21) (X := (encSR d 0 b k.toNat)) (by decide) (encSR_lt d 0 b k) (fun u hw hg => ?_) h
  obtain ⟨h1, h2, h3, h4⟩ := fields_SR (d := d) (a := 0) (b := b) (f := k) hw
  show decV 0x21 u ((encVX vx)[0]?) = _
  simp only [decV, hg, h1, h2, h3, h4, vxOf_encVX, keep, fz_eq_fld, beq_self_eq_true, if_true]

theorem vmov (g : Guard) (d a : VReg) (k : KReg) (vx : Option VX) : Statement (.vmov g d a k vx) := by
  intro sl hs h
  obtain rfl := Option.some.inj hs
  refine decode_opt (op := 0x22) (X := (encSR d a 0 k.toNat)) (by decide) (encSR_lt d a 0 k) (fun u hw hg => ?_) h
  obtain ⟨h1, h2, h3, h4⟩ := fields_SR (d := d) (a := a) (b := 0) (f := k) hw
  show decV 0x22 u ((encVX vx)[0]?) = _
  simp only [decV, hg, h1, h2, h3, h4, vxOf_encVX, keep, fz_eq_fld, beq_self_eq_true, if_true]

theorem vld (g : Guard) (v : VReg) (t : TReg) (x : SReg) (vx : Option VX) : Statement (.vld g v t x vx) := by
  intro sl hs h
  obtain rfl := Option.some.inj hs
  refine decode_opt (op := 0x23) (X := (encVT v t x)) (by decide) (by simp only [encVT]; omega) (fun u hw hg => ?_) h
  simp only [encVT] at hw
  show decV 0x23 u ((encVX vx)[0]?) = _
  simp only [decV, hg]
  simp only [vxOf_encVX]
  refine keep_eq ?_ ?_
  · simp only [fz, beq_iff_eq]; omega
  · congr 1 <;> first | rfl | (apply BitVec.eq_of_toNat_eq; simp only [fld, BitVec.toNat_ofNat]; omega)

theorem vst (g : Guard) (v : VReg) (t : TReg) (x : SReg) (vx : Option VX) : Statement (.vst g v t x vx) := by
  intro sl hs h
  obtain rfl := Option.some.inj hs
  refine decode_opt (op := 0x24) (X := (encVT v t x)) (by decide) (by simp only [encVT]; omega) (fun u hw hg => ?_) h
  simp only [encVT] at hw
  show decV 0x24 u ((encVX vx)[0]?) = _
  simp only [decV, hg]
  simp only [vxOf_encVX]
  refine keep_eq ?_ ?_
  · simp only [fz, beq_iff_eq]; omega
  · congr 1 <;> first | rfl | (apply BitVec.eq_of_toNat_eq; simp only [fld, BitVec.toNat_ofNat]; omega)

theorem vldx (g : Guard) (v : VReg) (t : TReg) (x : VReg) (vx : Option VX) : Statement (.vldx g v t x vx) := by
  intro sl hs h
  obtain rfl := Option.some.inj hs
  refine decode_opt (op := 0x25) (X := (encVT v t x)) (by decide) (by simp only [encVT]; omega) (fun u hw hg => ?_) h
  simp only [encVT] at hw
  show decV 0x25 u ((encVX vx)[0]?) = _
  simp only [decV, hg]
  simp only [vxOf_encVX]
  refine keep_eq ?_ ?_
  · simp only [fz, beq_iff_eq]; omega
  · congr 1 <;> first | rfl | (apply BitVec.eq_of_toNat_eq; simp only [fld, BitVec.toNat_ofNat]; omega)

theorem vstx (g : Guard) (v : VReg) (t : TReg) (x : VReg) (vx : Option VX) : Statement (.vstx g v t x vx) := by
  intro sl hs h
  obtain rfl := Option.some.inj hs
  refine decode_opt (op := 0x26) (X := (encVT v t x)) (by decide) (by simp only [encVT]; omega) (fun u hw hg => ?_) h
  simp only [encVT] at hw
  show decV 0x26 u ((encVX vx)[0]?) = _
  simp only [decV, hg]
  simp only [vxOf_encVX]
  refine keep_eq ?_ ?_
  · simp only [fz, beq_iff_eq]; omega
  · congr 1 <;> first | rfl | (apply BitVec.eq_of_toNat_eq; simp only [fld, BitVec.toNat_ofNat]; omega)

theorem vdot (g : Guard) (d a b : VReg) (k : KReg) (vx : Option VX) : Statement (.vdot g d a b k vx) := by
  intro sl hs h
  obtain rfl := Option.some.inj hs
  refine decode_opt (op := 0x27) (X := (encSR d a b k.toNat)) (by decide) (encSR_lt d a b k) (fun u hw hg => ?_) h
  obtain ⟨h1, h2, h3, h4⟩ := fields_SR (d := d) (a := a) (b := b) (f := k) hw
  show decV 0x27 u ((encVX vx)[0]?) = _
  simp only [decV, hg, h1, h2, h3, h4, vxOf_encVX]

theorem vso (g : Guard) (d a b : VReg) (k : KReg) (vx : Option VX) : Statement (.vso g d a b k vx) := by
  intro sl hs h
  obtain rfl := Option.some.inj hs
  refine decode_opt (op := 0x28) (X := (encSR d a b k.toNat)) (by decide) (encSR_lt d a b k) (fun u hw hg => ?_) h
  obtain ⟨h1, h2, h3, h4⟩ := fields_SR (d := d) (a := a) (b := b) (f := k) hw
  show decV 0x28 u ((encVX vx)[0]?) = _
  simp only [decV, hg, h1, h2, h3, h4, vxOf_encVX]

theorem vcmul (g : Guard) (d a b : VReg) (k : KReg) (vx : Option VX) : Statement (.vcmul g d a b k vx) := by
  intro sl hs h
  obtain rfl := Option.some.inj hs
  refine decode_opt (op := 0x29) (X := (encSR d a b k.toNat)) (by decide) (encSR_lt d a b k) (fun u hw hg => ?_) h
  obtain ⟨h1, h2, h3, h4⟩ := fields_SR (d := d) (a := a) (b := b) (f := k) hw
  show decV 0x29 u ((encVX vx)[0]?) = _
  simp only [decV, hg, h1, h2, h3, h4, vxOf_encVX]

theorem vcmac (g : Guard) (d a b : VReg) (k : KReg) (vx : Option VX) : Statement (.vcmac g d a b k vx) := by
  intro sl hs h
  obtain rfl := Option.some.inj hs
  refine decode_opt (op := 0x2A) (X := (encSR d a b k.toNat)) (by decide) (encSR_lt d a b k) (fun u hw hg => ?_) h
  obtain ⟨h1, h2, h3, h4⟩ := fields_SR (d := d) (a := a) (b := b) (f := k) hw
  show decV 0x2A u ((encVX vx)[0]?) = _
  simp only [decV, hg, h1, h2, h3, h4, vxOf_encVX]

theorem vconj (g : Guard) (d a : VReg) (k : KReg) (vx : Option VX) : Statement (.vconj g d a k vx) := by
  intro sl hs h
  obtain rfl := Option.some.inj hs
  refine decode_opt (op := 0x2B) (X := (encSR d a 0 k.toNat)) (by decide) (encSR_lt d a 0 k) (fun u hw hg => ?_) h
  obtain ⟨h1, h2, h3, h4⟩ := fields_SR (d := d) (a := a) (b := 0) (f := k) hw
  show decV 0x2B u ((encVX vx)[0]?) = _
  simp only [decV, hg, h1, h2, h3, h4, vxOf_encVX, keep, fz_eq_fld, beq_self_eq_true, if_true]

theorem kand (g : Guard) (kd ka kb : KReg) : Statement (.kand g kd ka kb) := by
  intro sl hs h
  obtain rfl := Option.some.inj hs
  refine decode_plain (op := 0x2C) (X := (encKK kd ka kb 0)) (by decide) (by simp only [encKK, BitVec.ofNat_eq_ofNat, BitVec.toNat_ofNat]; omega) (fun u hw hg => ?_) h
  simp only [encKK, BitVec.ofNat_eq_ofNat, BitVec.toNat_ofNat] at hw
  show decV 0x2C u (none) = _
  simp only [decV, hg]
  refine keep_eq ?_ ?_
  · simp only [fz, Bool.and_eq_true, beq_iff_eq]; omega
  · congr 1 <;> first | rfl | (apply BitVec.eq_of_toNat_eq; simp only [fld, BitVec.toNat_ofNat]; omega)

theorem kor (g : Guard) (kd ka kb : KReg) (x : SReg) : Statement (.kor g kd ka kb x) := by
  intro sl hs h
  obtain rfl := Option.some.inj hs
  refine decode_plain (op := 0x2D) (X := (encKK kd ka kb x)) (by decide) (by simp only [encKK]; omega) (fun u hw hg => ?_) h
  simp only [encKK] at hw
  show decV 0x2D u (none) = _
  simp only [decV, hg]
  refine keep_eq ?_ ?_
  · simp only [fz, beq_iff_eq]; omega
  · congr 1 <;> first | rfl | (apply BitVec.eq_of_toNat_eq; simp only [fld, BitVec.toNat_ofNat]; omega)

theorem kxor (g : Guard) (kd ka kb : KReg) (x : SReg) : Statement (.kxor g kd ka kb x) := by
  intro sl hs h
  obtain rfl := Option.some.inj hs
  refine decode_plain (op := 0x2E) (X := (encKK kd ka kb x)) (by decide) (by simp only [encKK]; omega) (fun u hw hg => ?_) h
  simp only [encKK] at hw
  show decV 0x2E u (none) = _
  simp only [decV, hg]
  refine keep_eq ?_ ?_
  · simp only [fz, beq_iff_eq]; omega
  · congr 1 <;> first | rfl | (apply BitVec.eq_of_toNat_eq; simp only [fld, BitVec.toNat_ofNat]; omega)

theorem knot (g : Guard) (kd ka : KReg) : Statement (.knot g kd ka) := by
  intro sl hs h
  obtain rfl := Option.some.inj hs
  refine decode_plain (op := 0x2F) (X := (encKK kd ka 0 0)) (by decide) (by simp only [encKK, BitVec.ofNat_eq_ofNat, BitVec.toNat_ofNat]; omega) (fun u hw hg => ?_) h
  simp only [encKK, BitVec.ofNat_eq_ofNat, BitVec.toNat_ofNat] at hw
  show decV 0x2F u (none) = _
  simp only [decV, hg]
  refine keep_eq ?_ ?_
  · simp only [fz, Bool.and_eq_true, beq_iff_eq]; omega
  · congr 1 <;> first | rfl | (apply BitVec.eq_of_toNat_eq; simp only [fld, BitVec.toNat_ofNat]; omega)

theorem kpop (g : Guard) (ka kb : KReg) (x : SReg) : Statement (.kpop g ka kb x) := by
  intro sl hs h
  obtain rfl := Option.some.inj hs
  refine decode_plain (op := 0x30) (X := (encKK 0 ka kb x)) (by decide) (by simp only [encKK, BitVec.ofNat_eq_ofNat, BitVec.toNat_ofNat]; omega) (fun u hw hg => ?_) h
  simp only [encKK, BitVec.ofNat_eq_ofNat, BitVec.toNat_ofNat] at hw
  show decV 0x30 u (none) = _
  simp only [decV, hg]
  refine keep_eq ?_ ?_
  · simp only [fz, Bool.and_eq_true, beq_iff_eq]; omega
  · congr 1 <;> first | rfl | (apply BitVec.eq_of_toNat_eq; simp only [fld, BitVec.toNat_ofNat]; omega)

theorem mmul (g : Guard) (z : ZReg) (ta tb : TReg) (acc : BitVec 1) (mx : MX) : Statement (.mmul g z ta tb acc mx) := by
  intro sl hs h
  obtain rfl := Option.some.inj hs
  refine decode_req (op := 0x01) (X := (encMA z ta tb.toNat 0 acc)) (by decide) (by simp only [encMA]; omega) (fun u hw hg => ?_) h
  simp only [encMA] at hw
  show decM 0x01 u ((encMX mx)[0]?) = _
  simp only [decM, hg]
  simp only [mxOf_encMX, efz_encMX, Bool.and_true]
  refine keep_eq ?_ ?_
  · simp only [fz, Bool.and_eq_true, beq_iff_eq]; omega
  · congr 1 <;> first | rfl | (apply BitVec.eq_of_toNat_eq; simp only [fld, BitVec.toNat_ofNat]; omega)

theorem mmulw (g : Guard) (z : ZReg) (ta tb : TReg) (acc : BitVec 1) (mx : MX) : Statement (.mmulw g z ta tb acc mx) := by
  intro sl hs h
  obtain rfl := Option.some.inj hs
  refine decode_req (op := 0x02) (X := (encMA z ta tb.toNat 0 acc)) (by decide) (by simp only [encMA]; omega) (fun u hw hg => ?_) h
  simp only [encMA] at hw
  show decM 0x02 u ((encMX mx)[0]?) = _
  simp only [decM, hg]
  simp only [mxOf_encMX, efz_encMX, Bool.and_true]
  have hk : fz u 2 1 = true := by
    simp only [fz, beq_iff_eq]; omega
  simp only [hk, if_true]
  refine keep_eq ?_ ?_
  · simp only [fz, beq_iff_eq]; omega
  · congr 1 <;> first | rfl | (apply BitVec.eq_of_toNat_eq; simp only [fld, BitVec.toNat_ofNat]; omega)

theorem mmulwT (g : Guard) (z : ZReg) (ta : TReg) (b : SReg) (acc : BitVec 1) (mx : MX) : Statement (.mmulwT g z ta b acc mx) := by
  intro sl hs h
  obtain rfl := Option.some.inj hs
  refine decode_req (op := 0x02) (X := (encMA z ta b.toNat 1 acc)) (by decide) (by simp only [encMA]; omega) (fun u hw hg => ?_) h
  simp only [encMA] at hw
  show decM 0x02 u ((encMX mx)[0]?) = _
  simp only [decM, hg]
  simp only [mxOf_encMX, efz_encMX, Bool.and_true]
  have hk : fz u 2 1 = false := by
    simp only [fz, beq_eq_false_iff_ne, ne_eq]; omega
  simp only [hk, Bool.false_eq_true, if_false]
  refine keep_eq ?_ ?_
  · simp only [fz, Bool.and_eq_true, beq_iff_eq]; omega
  · congr 1 <;> first | rfl | (apply BitVec.eq_of_toNat_eq; simp only [fld, BitVec.toNat_ofNat]; omega)

theorem mspec (g : Guard) (z : ZReg) (ta tb : TReg) (acc : BitVec 1) (mx : MX) : Statement (.mspec g z ta tb acc mx) := by
  intro sl hs h
  obtain rfl := Option.some.inj hs
  refine decode_req (op := 0x03) (X := (encMA z ta tb.toNat 0 acc)) (by decide) (by simp only [encMA]; omega) (fun u hw hg => ?_) h
  simp only [encMA] at hw
  show decM 0x03 u ((encMX mx)[0]?) = _
  simp only [decM, hg]
  simp only [mxOf_encMX, efz_encMX, Bool.and_true]
  refine keep_eq ?_ ?_
  · simp only [fz, Bool.and_eq_true, beq_iff_eq]; omega
  · congr 1 <;> first | rfl | (apply BitVec.eq_of_toNat_eq; simp only [fld, BitVec.toNat_ofNat]; omega)

theorem mzero (g : Guard) (z : ZReg) (dom : BitVec 1) : Statement (.mzero g z dom) := by
  intro sl hs h
  obtain rfl := Option.some.inj hs
  refine decode_plain (op := 0x04) (X := (encMZ z.toNat 0 dom.toNat)) (by decide) (by simp only [encMZ]; omega) (fun u hw hg => ?_) h
  simp only [encMZ] at hw
  show decM 0x04 u (none) = _
  simp only [decM, hg]
  refine keep_eq ?_ ?_
  · simp only [fz, Bool.and_eq_true, beq_iff_eq]; omega
  · congr 1 <;> first | rfl | (apply BitVec.eq_of_toNat_eq; simp only [fld, BitVec.toNat_ofNat]; omega)

theorem mrd (g : Guard) (z : ZReg) (t : TReg) (y : SReg) (mx : Option MrdX) : Statement (.mrd g z t y mx) := by
  intro sl hs h
  obtain rfl := Option.some.inj hs
  refine decode_opt (op := 0x05) (X := (encMZ z.toNat t.toNat y.toNat)) (by decide) (by simp only [encMZ]; omega) (fun u hw hg => ?_) h
  simp only [encMZ] at hw
  show decM 0x05 u ((encMrdX mx)[0]?) = _
  simp only [decM, hg]
  simp only [mrdxOf_encMrdX, efz_encMrdX, Bool.and_true]
  refine keep_eq ?_ ?_
  · simp only [fz, beq_iff_eq]; omega
  · congr 1 <;> first | rfl | (apply BitVec.eq_of_toNat_eq; simp only [fld, BitVec.toNat_ofNat]; omega)

theorem mrdv (g : Guard) (z : ZReg) (v : VReg) (y : SReg) : Statement (.mrdv g z v y) := by
  intro sl hs h
  obtain rfl := Option.some.inj hs
  refine decode_plain (op := 0x06) (X := (encMZ z.toNat v.toNat y.toNat)) (by decide) (by simp only [encMZ]; omega) (fun u hw hg => ?_) h
  simp only [encMZ] at hw
  show decM 0x06 u (none) = _
  simp only [decM, hg]
  refine keep_eq ?_ ?_
  · simp only [fz, Bool.and_eq_true, beq_iff_eq]; omega
  · congr 1 <;> first | rfl | (apply BitVec.eq_of_toNat_eq; simp only [fld, BitVec.toNat_ofNat]; omega)

theorem mfmt (g : Guard) (i : BitVec 4) (y : SReg) (w : Option (BitVec 16)) : Statement (.mfmt g i y w) := by
  intro sl hs h
  obtain rfl := Option.some.inj hs
  refine decode_opt (op := 0x07) (X := (encMZ 0 i.toNat y.toNat)) (by decide) (by simp only [encMZ]; omega) (fun u hw hg => ?_) h
  simp only [encMZ] at hw
  show decM 0x07 u (((w.map (fun v => BitVec.ofNat 32 v.toNat)).toList)[0]?) = _
  simp only [decM, hg]
  simp only [ext_16, efz_ext_16, Bool.and_true]
  refine keep_eq ?_ ?_
  · simp only [fz, Bool.and_eq_true, beq_iff_eq]; omega
  · congr 1 <;> first | rfl | (apply BitVec.eq_of_toNat_eq; simp only [fld, BitVec.toNat_ofNat]; omega)

theorem mstat (g : Guard) (d : SReg) : Statement (.mstat g d) := by
  intro sl hs h
  obtain rfl := Option.some.inj hs
  refine decode_plain (op := 0x08) (X := (encMZ 0 d.toNat 0)) (by decide) (by simp only [encMZ]; omega) (fun u hw hg => ?_) h
  simp only [encMZ] at hw
  show decM 0x08 u (none) = _
  simp only [decM, hg]
  refine keep_eq ?_ ?_
  · simp only [fz, Bool.and_eq_true, beq_iff_eq]; omega
  · congr 1 ; first | rfl | (apply BitVec.eq_of_toNat_eq; simp only [fld, BitVec.toNat_ofNat]; omega)

theorem xexp (g : Guard) (d a : TReg) (uc : BitVec 2) (xe : Option XE) : Statement (.xexp g d a uc xe) := by
  intro sl hs h
  obtain rfl := Option.some.inj hs
  refine decode_opt (op := 0x01) (X := (encXT d.toNat a.toNat uc.toNat)) (by decide) (by simp only [encXT]; omega) (fun u hw hg => ?_) h
  simp only [encXT] at hw
  show decX 0x01 u ((encXE xe)[0]?) = _
  simp only [decX, hg]
  simp only [xeOf_encXE]
  refine keep_eq ?_ ?_
  · simp only [fz, beq_iff_eq]; omega
  · congr 1 <;> first | rfl | (apply BitVec.eq_of_toNat_eq; simp only [fld, BitVec.toNat_ofNat]; omega)

theorem xcmp (g : Guard) (d a : TReg) (uc : BitVec 2) (xe : Option XE) : Statement (.xcmp g d a uc xe) := by
  intro sl hs h
  obtain rfl := Option.some.inj hs
  refine decode_opt (op := 0x02) (X := (encXT d.toNat a.toNat uc.toNat)) (by decide) (by simp only [encXT]; omega) (fun u hw hg => ?_) h
  simp only [encXT] at hw
  show decX 0x02 u ((encXE xe)[0]?) = _
  simp only [decX, hg]
  simp only [xeOf_encXE]
  refine keep_eq ?_ ?_
  · simp only [fz, beq_iff_eq]; omega
  · congr 1 <;> first | rfl | (apply BitVec.eq_of_toNat_eq; simp only [fld, BitVec.toNat_ofNat]; omega)

theorem xtrn (g : Guard) (d a : TReg) (uc : BitVec 2) (xe : Option XE) : Statement (.xtrn g d a uc xe) := by
  intro sl hs h
  obtain rfl := Option.some.inj hs
  refine decode_opt (op := 0x03) (X := (encXT d.toNat a.toNat uc.toNat)) (by decide) (by simp only [encXT]; omega) (fun u hw hg => ?_) h
  simp only [encXT] at hw
  show decX 0x03 u ((encXE xe)[0]?) = _
  simp only [decX, hg]
  simp only [xeOf_encXE]
  refine keep_eq ?_ ?_
  · simp only [fz, beq_iff_eq]; omega
  · congr 1 <;> first | rfl | (apply BitVec.eq_of_toNat_eq; simp only [fld, BitVec.toNat_ofNat]; omega)

theorem xcvt (g : Guard) (d a : TReg) (sat : BitVec 1) (xe : Option XE) : Statement (.xcvt g d a sat xe) := by
  intro sl hs h
  obtain rfl := Option.some.inj hs
  refine decode_opt (op := 0x04) (X := (encXT d.toNat a.toNat sat.toNat)) (by decide) (by simp only [encXT]; omega) (fun u hw hg => ?_) h
  simp only [encXT] at hw
  show decX 0x04 u ((encXE xe)[0]?) = _
  simp only [decX, hg]
  simp only [xeOf_encXE]
  refine keep_eq ?_ ?_
  · simp only [fz, beq_iff_eq]; omega
  · congr 1 <;> first | rfl | (apply BitVec.eq_of_toNat_eq; simp only [fld, BitVec.toNat_ofNat]; omega)

theorem xdft (g : Guard) (d a : TReg) (bc : BitVec 3) (xe : Option XE) : Statement (.xdft g d a bc xe) := by
  intro sl hs h
  obtain rfl := Option.some.inj hs
  refine decode_opt (op := 0x05) (X := (encXT d.toNat a.toNat bc.toNat)) (by decide) (by simp only [encXT]; omega) (fun u hw hg => ?_) h
  simp only [encXT] at hw
  show decX 0x05 u ((encXE xe)[0]?) = _
  simp only [decX, hg]
  simp only [xeOf_encXE]
  refine keep_eq ?_ ?_
  · simp only [fz, beq_iff_eq]; omega
  · congr 1 <;> first | rfl | (apply BitVec.eq_of_toNat_eq; simp only [fld, BitVec.toNat_ofNat]; omega)

theorem xidft (g : Guard) (d a : TReg) (bc : BitVec 3) (xe : Option XE) : Statement (.xidft g d a bc xe) := by
  intro sl hs h
  obtain rfl := Option.some.inj hs
  refine decode_opt (op := 0x06) (X := (encXT d.toNat a.toNat bc.toNat)) (by decide) (by simp only [encXT]; omega) (fun u hw hg => ?_) h
  simp only [encXT] at hw
  show decX 0x06 u ((encXE xe)[0]?) = _
  simp only [decX, hg]
  simp only [xeOf_encXE]
  have hk : fz u 3 1 = true := by
    simp only [fz, beq_iff_eq]; omega
  simp only [hk, if_true]
  refine keep_eq ?_ ?_
  · simp only [fz, beq_iff_eq]; omega
  · congr 1 <;> first | rfl | (apply BitVec.eq_of_toNat_eq; simp only [fld, BitVec.toNat_ofNat]; omega)

theorem xidftAcc (g : Guard) (d : TReg) (z : ZReg) (bc : BitVec 3) (xe : Option XE) : Statement (.xidftAcc g d z bc xe) := by
  intro sl hs h
  obtain rfl := Option.some.inj hs
  refine decode_opt (op := 0x06) (X := (encXT d.toNat z.toNat (8 + bc.toNat))) (by decide) (by simp only [encXT]; omega) (fun u hw hg => ?_) h
  simp only [encXT] at hw
  show decX 0x06 u ((encXE xe)[0]?) = _
  simp only [decX, hg]
  simp only [xeOf_encXE]
  have hk : fz u 3 1 = false := by
    simp only [fz, beq_eq_false_iff_ne, ne_eq]; omega
  simp only [hk, Bool.false_eq_true, if_false]
  refine keep_eq ?_ ?_
  · simp only [fz, Bool.and_eq_true, beq_iff_eq]; omega
  · congr 1 <;> first | rfl | (apply BitVec.eq_of_toNat_eq; simp only [fld, BitVec.toNat_ofNat]; omega)

theorem xtag (g : Guard) (t : TReg) (dom : BitVec 1) (xe : Option XE) : Statement (.xtag g t dom xe) := by
  intro sl hs h
  obtain rfl := Option.some.inj hs
  refine decode_opt (op := 0x07) (X := (encXT t.toNat 0 dom.toNat)) (by decide) (by simp only [encXT]; omega) (fun u hw hg => ?_) h
  simp only [encXT] at hw
  show decX 0x07 u ((encXE xe)[0]?) = _
  simp only [decX, hg]
  simp only [xeOf_encXE]
  have hk : fz u 1 1 = true := by
    simp only [fz, beq_iff_eq]; omega
  simp only [hk, if_true]
  refine keep_eq ?_ ?_
  · simp only [fz, beq_iff_eq]; omega
  · congr 1 <;> first | rfl | (apply BitVec.eq_of_toNat_eq; simp only [fld, BitVec.toNat_ofNat]; omega)

theorem xtagAcc (g : Guard) (z : ZReg) (dom : BitVec 1) (xe : Option XE) : Statement (.xtagAcc g z dom xe) := by
  intro sl hs h
  obtain rfl := Option.some.inj hs
  refine decode_opt (op := 0x07) (X := (encXT z.toNat 0 (2 + dom.toNat))) (by decide) (by simp only [encXT]; omega) (fun u hw hg => ?_) h
  simp only [encXT] at hw
  show decX 0x07 u ((encXE xe)[0]?) = _
  simp only [decX, hg]
  simp only [xeOf_encXE]
  have hk : fz u 1 1 = false := by
    simp only [fz, beq_eq_false_iff_ne, ne_eq]; omega
  simp only [hk, Bool.false_eq_true, if_false]
  refine keep_eq ?_ ?_
  · simp only [fz, Bool.and_eq_true, beq_iff_eq]; omega
  · congr 1 <;> first | rfl | (apply BitVec.eq_of_toNat_eq; simp only [fld, BitVec.toNat_ofNat]; omega)

theorem xmov (g : Guard) (d a : TReg) (xe : Option XE) : Statement (.xmov g d a xe) := by
  intro sl hs h
  obtain rfl := Option.some.inj hs
  refine decode_opt (op := 0x08) (X := (encXT d.toNat a.toNat 0)) (by decide) (by simp only [encXT]; omega) (fun u hw hg => ?_) h
  simp only [encXT] at hw
  show decX 0x08 u ((encXE xe)[0]?) = _
  simp only [decX, hg]
  simp only [xeOf_encXE]
  refine keep_eq ?_ ?_
  · simp only [fz, beq_iff_eq]; omega
  · congr 1 <;> first | rfl | (apply BitVec.eq_of_toNat_eq; simp only [fld, BitVec.toNat_ofNat]; omega)

theorem xfill (g : Guard) (d : TReg) (x : SReg) (xe : Option XE) : Statement (.xfill g d x xe) := by
  intro sl hs h
  obtain rfl := Option.some.inj hs
  refine decode_opt (op := 0x09) (X := (encXT d.toNat x.toNat 0)) (by decide) (by simp only [encXT]; omega) (fun u hw hg => ?_) h
  simp only [encXT] at hw
  show decX 0x09 u ((encXE xe)[0]?) = _
  simp only [decX, hg]
  simp only [xeOf_encXE]
  refine keep_eq ?_ ?_
  · simp only [fz, Bool.and_eq_true, beq_iff_eq]; omega
  · congr 1 <;> first | rfl | (apply BitVec.eq_of_toNat_eq; simp only [fld, BitVec.toNat_ofNat]; omega)

theorem cpy (g : Guard) (x y w : SReg) (sat fen : BitVec 1) (crc : Option Word32) : Statement (.cpy g x y w sat fen crc) := by
  intro sl hs h
  obtain rfl := Option.some.inj hs
  refine decode_opt (op := 0x01) (X := (encSR x y w (2 * sat.toNat + fen.toNat))) (by decide) (by simp only [encSR]; omega) (fun u hw hg => ?_) h
  simp only [encSR] at hw
  show decC 0x01 u ((crc.toList)[0]?) = _
  simp only [decC, hg]
  simp only [toList_head]
  refine keep_eq ?_ ?_
  · simp only [fz, beq_iff_eq]; omega
  · congr 1 <;> first | rfl | (apply BitVec.eq_of_toNat_eq; simp only [fld, BitVec.toNat_ofNat]; omega)

theorem gath (g : Guard) (x y w : SReg) (sat fen : BitVec 1) (crc : Option Word32) : Statement (.gath g x y w sat fen crc) := by
  intro sl hs h
  obtain rfl := Option.some.inj hs
  refine decode_opt (op := 0x02) (X := (encSR x y w (2 * sat.toNat + fen.toNat))) (by decide) (by simp only [encSR]; omega) (fun u hw hg => ?_) h
  simp only [encSR] at hw
  show decC 0x02 u ((crc.toList)[0]?) = _
  simp only [decC, hg]
  simp only [toList_head]
  refine keep_eq ?_ ?_
  · simp only [fz, beq_iff_eq]; omega
  · congr 1 <;> first | rfl | (apply BitVec.eq_of_toNat_eq; simp only [fld, BitVec.toNat_ofNat]; omega)

theorem scat (g : Guard) (x y w : SReg) (sat fen : BitVec 1) (crc : Option Word32) : Statement (.scat g x y w sat fen crc) := by
  intro sl hs h
  obtain rfl := Option.some.inj hs
  refine decode_opt (op := 0x03) (X := (encSR x y w (2 * sat.toNat + fen.toNat))) (by decide) (by simp only [encSR]; omega) (fun u hw hg => ?_) h
  simp only [encSR] at hw
  show decC 0x03 u ((crc.toList)[0]?) = _
  simp only [decC, hg]
  simp only [toList_head]
  refine keep_eq ?_ ?_
  · simp only [fz, beq_iff_eq]; omega
  · congr 1 <;> first | rfl | (apply BitVec.eq_of_toNat_eq; simp only [fld, BitVec.toNat_ofNat]; omega)

theorem cpyn (g : Guard) (x y w : SReg) (fen : BitVec 1) : Statement (.cpyn g x y w fen) := by
  intro sl hs h
  obtain rfl := Option.some.inj hs
  refine decode_plain (op := 0x04) (X := (encSR x y w fen.toNat)) (by decide) (by simp only [encSR]; omega) (fun u hw hg => ?_) h
  simp only [encSR] at hw
  show decC 0x04 u (none) = _
  simp only [decC, hg]
  refine keep_eq ?_ ?_
  · simp only [fz, beq_iff_eq]; omega
  · congr 1 <;> first | rfl | (apply BitVec.eq_of_toNat_eq; simp only [fld, BitVec.toNat_ofNat]; omega)

theorem nrecv (g : Guard) (x y w : SReg) (fen : BitVec 1) : Statement (.nrecv g x y w fen) := by
  intro sl hs h
  obtain rfl := Option.some.inj hs
  refine decode_plain (op := 0x05) (X := (encSR x y w fen.toNat)) (by decide) (by simp only [encSR]; omega) (fun u hw hg => ?_) h
  simp only [encSR] at hw
  show decC 0x05 u (none) = _
  simp only [decC, hg]
  refine keep_eq ?_ ?_
  · simp only [fz, beq_iff_eq]; omega
  · congr 1 <;> first | rfl | (apply BitVec.eq_of_toNat_eq; simp only [fld, BitVec.toNat_ofNat]; omega)

theorem ring (g : Guard) (x y w : SReg) : Statement (.ring g x y w) := by
  intro sl hs h
  obtain rfl := Option.some.inj hs
  refine decode_plain (op := 0x06) (X := (encSR x y w 0)) (by decide) (encSR_lt x y w 0) (fun u hw hg => ?_) h
  obtain ⟨h1, h2, h3, h4⟩ := fields_SR (d := x) (a := y) (b := w) (f := 0) hw
  show decC 0x06 u (none) = _
  simp only [decC, hg, h1, h2, h3, h4, keep, fz_eq_fld, beq_self_eq_true, if_true]

theorem cseg (g : Guard) (x y w : SReg) (nowait : BitVec 1) : Statement (.cseg g x y w nowait) := by
  intro sl hs h
  obtain rfl := Option.some.inj hs
  refine decode_plain (op := 0x07) (X := (encSR x y w nowait.toNat)) (by decide) (by simp only [encSR]; omega) (fun u hw hg => ?_) h
  simp only [encSR] at hw
  show decC 0x07 u (none) = _
  simp only [decC, hg]
  refine keep_eq ?_ ?_
  · simp only [fz, beq_iff_eq]; omega
  · congr 1 <;> first | rfl | (apply BitVec.eq_of_toNat_eq; simp only [fld, BitVec.toNat_ofNat]; omega)

theorem sqnew (g : Guard) (x y : SReg) : Statement (.sqnew g x y) := by
  intro sl hs h
  obtain rfl := Option.some.inj hs
  refine decode_plain (op := 0x01) (X := (encSR x y 0 0)) (by decide) (encSR_lt x y 0 0) (fun u hw hg => ?_) h
  obtain ⟨h1, h2, h3, h4⟩ := fields_SR (d := x) (a := y) (b := 0) (f := 0) hw
  show decQ 0x01 u (none) = _
  simp only [decQ, hg, h1, h2, h3, h4, keep, fz_eq_fld, beq_self_eq_true, Bool.and_self, if_true]

theorem sqres (g : Guard) (x y w : SReg) (ext : Option Word32) : Statement (.sqres g x y w ext) := by
  intro sl hs h
  obtain rfl := Option.some.inj hs
  refine decode_opt (op := 0x02) (X := (encSR x y w 0)) (by decide) (encSR_lt x y w 0) (fun u hw hg => ?_) h
  obtain ⟨h1, h2, h3, h4⟩ := fields_SR (d := x) (a := y) (b := w) (f := 0) hw
  show decQ 0x02 u ((ext.toList)[0]?) = _
  simp only [decQ, hg, h1, h2, h3, h4, toList_head, keep, fz_eq_fld, beq_self_eq_true, if_true]

theorem sqput (g : Guard) (x y w : SReg) (ext : Option Word32) : Statement (.sqput g x y w ext) := by
  intro sl hs h
  obtain rfl := Option.some.inj hs
  refine decode_opt (op := 0x03) (X := (encSR x y w 0)) (by decide) (encSR_lt x y w 0) (fun u hw hg => ?_) h
  obtain ⟨h1, h2, h3, h4⟩ := fields_SR (d := x) (a := y) (b := w) (f := 0) hw
  show decQ 0x03 u ((ext.toList)[0]?) = _
  simp only [decQ, hg, h1, h2, h3, h4, toList_head, keep, fz_eq_fld, beq_self_eq_true, if_true]

theorem sqcmt (g : Guard) (x y w : SReg) (ext : Option Word32) : Statement (.sqcmt g x y w ext) := by
  intro sl hs h
  obtain rfl := Option.some.inj hs
  refine decode_opt (op := 0x04) (X := (encSR x y w 0)) (by decide) (encSR_lt x y w 0) (fun u hw hg => ?_) h
  obtain ⟨h1, h2, h3, h4⟩ := fields_SR (d := x) (a := y) (b := w) (f := 0) hw
  show decQ 0x04 u ((ext.toList)[0]?) = _
  simp only [decQ, hg, h1, h2, h3, h4, toList_head, keep, fz_eq_fld, beq_self_eq_true, if_true]

theorem sqlen (g : Guard) (x y : SReg) (rl : BitVec 1) : Statement (.sqlen g x y rl) := by
  intro sl hs h
  obtain rfl := Option.some.inj hs
  refine decode_plain (op := 0x05) (X := (encSR x y 0 rl.toNat)) (by decide) (by simp only [encSR, BitVec.ofNat_eq_ofNat, BitVec.toNat_ofNat]; omega) (fun u hw hg => ?_) h
  simp only [encSR, BitVec.ofNat_eq_ofNat, BitVec.toNat_ofNat] at hw
  show decQ 0x05 u (none) = _
  simp only [decQ, hg]
  refine keep_eq ?_ ?_
  · simp only [fz, Bool.and_eq_true, beq_iff_eq]; omega
  · congr 1 <;> first | rfl | (apply BitVec.eq_of_toNat_eq; simp only [fld, BitVec.toNat_ofNat]; omega)

theorem sqwait (g : Guard) (x y w : SReg) (ext : Option Word32) : Statement (.sqwait g x y w ext) := by
  intro sl hs h
  obtain rfl := Option.some.inj hs
  refine decode_opt (op := 0x06) (X := (encSR x y w 0)) (by decide) (encSR_lt x y w 0) (fun u hw hg => ?_) h
  obtain ⟨h1, h2, h3, h4⟩ := fields_SR (d := x) (a := y) (b := w) (f := 0) hw
  show decQ 0x06 u ((ext.toList)[0]?) = _
  simp only [decQ, hg, h1, h2, h3, h4, toList_head, keep, fz_eq_fld, beq_self_eq_true, if_true]

theorem sqfork (g : Guard) (x y w : SReg) (ext : Option Word32) : Statement (.sqfork g x y w ext) := by
  intro sl hs h
  obtain rfl := Option.some.inj hs
  refine decode_opt (op := 0x07) (X := (encSR x y w 0)) (by decide) (encSR_lt x y w 0) (fun u hw hg => ?_) h
  obtain ⟨h1, h2, h3, h4⟩ := fields_SR (d := x) (a := y) (b := w) (f := 0) hw
  show decQ 0x07 u ((ext.toList)[0]?) = _
  simp only [decQ, hg, h1, h2, h3, h4, toList_head, keep, fz_eq_fld, beq_self_eq_true, if_true]

theorem sqrel (g : Guard) (y : SReg) : Statement (.sqrel g y) := by
  intro sl hs h
  obtain rfl := Option.some.inj hs
  refine decode_plain (op := 0x08) (X := (encSR 0 y 0 0)) (by decide) (encSR_lt 0 y 0 0) (fun u hw hg => ?_) h
  obtain ⟨h1, h2, h3, h4⟩ := fields_SR (d := 0) (a := y) (b := 0) (f := 0) hw
  show decQ 0x08 u (none) = _
  simp only [decQ, hg, h1, h2, h3, h4, keep, fz_eq_fld, beq_self_eq_true, Bool.and_self, if_true]

theorem sqget (g : Guard) (x y w : SReg) (ext : Option Word32) : Statement (.sqget g x y w ext) := by
  intro sl hs h
  obtain rfl := Option.some.inj hs
  refine decode_opt (op := 0x09) (X := (encSR x y w 0)) (by decide) (encSR_lt x y w 0) (fun u hw hg => ?_) h
  obtain ⟨h1, h2, h3, h4⟩ := fields_SR (d := x) (a := y) (b := w) (f := 0) hw
  show decQ 0x09 u ((ext.toList)[0]?) = _
  simp only [decQ, hg, h1, h2, h3, h4, toList_head, keep, fz_eq_fld, beq_self_eq_true, if_true]

theorem sqatt (g : Guard) (x4 : BitVec 4) (y w : SReg) : Statement (.sqatt g x4 y w) := by
  intro sl hs h
  obtain rfl := Option.some.inj hs
  refine decode_plain (op := 0x0A) (X := (x4.toNat * 2 ^ 17 + y.toNat * 2 ^ 9 + w.toNat * 2 ^ 3)) (by decide) (by omega) (fun u hw hg => ?_) h
  show decQ 0x0A u (none) = _
  simp only [decQ, hg]
  refine keep_eq ?_ ?_
  · simp only [fz, Bool.and_eq_true, beq_iff_eq]; omega
  · congr 1 <;> first | rfl | (apply BitVec.eq_of_toNat_eq; simp only [fld, BitVec.toNat_ofNat]; omega)

theorem sqmrg (g : Guard) (x y w : SReg) : Statement (.sqmrg g x y w) := by
  intro sl hs h
  obtain rfl := Option.some.inj hs
  refine decode_plain (op := 0x0B) (X := (encSR x y w 0)) (by decide) (encSR_lt x y w 0) (fun u hw hg => ?_) h
  obtain ⟨h1, h2, h3, h4⟩ := fields_SR (d := x) (a := y) (b := w) (f := 0) hw
  show decQ 0x0B u (none) = _
  simp only [decQ, hg, h1, h2, h3, h4, keep, fz_eq_fld, beq_self_eq_true, if_true]

theorem sqinfo (g : Guard) (x y : SReg) (f : BitVec 3) : Statement (.sqinfo g x y f) := by
  intro sl hs h
  obtain rfl := Option.some.inj hs
  refine decode_plain (op := 0x0C) (X := (encSR x y 0 f.toNat)) (by decide) (encSR_lt x y 0 f) (fun u hw hg => ?_) h
  obtain ⟨h1, h2, h3, h4⟩ := fields_SR (d := x) (a := y) (b := 0) (f := f) hw
  show decQ 0x0C u (none) = _
  simp only [decQ, hg, h1, h2, h3, h4, keep, fz_eq_fld, beq_self_eq_true, if_true]

theorem resultLand (c : Nat) : Statement (.resultLand c) := fun _ hs => nomatch hs

theorem loopEndStep (c : Nat) : Statement (.loopEndStep c) := fun _ hs => nomatch hs

theorem waitcRelease (c : Nat) : Statement (.waitcRelease c) := fun _ hs => nomatch hs

theorem waitfRelease (c : Nat) : Statement (.waitfRelease c) := fun _ hs => nomatch hs

theorem fenceSatisfied (c : Nat) : Statement (.fenceSatisfied c) := fun _ hs => nomatch hs

theorem suspFrameWrite (c : Nat) : Statement (.suspFrameWrite c) := fun _ hs => nomatch hs

theorem retireComplete (c : Nat) : Statement (.retireComplete c) := fun _ hs => nomatch hs

theorem releaseApply (op : Nat) : Statement (.releaseApply op) := fun _ hs => nomatch hs

theorem scalarAccessComplete (op : Nat) : Statement (.scalarAccessComplete op) := fun _ hs => nomatch hs

theorem tileAccessComplete (op : Nat) : Statement (.tileAccessComplete op) := fun _ hs => nomatch hs

theorem passLanding (c : Nat) : Statement (.passLanding c) := fun _ hs => nomatch hs

theorem waitedPassComplete (op : Nat) : Statement (.waitedPassComplete op) := fun _ hs => nomatch hs

theorem mrdLanding (c : Nat) (op : Nat) : Statement (.mrdLanding c op) := fun _ hs => nomatch hs

theorem xStepLanding (c : Nat) : Statement (.xStepLanding c) := fun _ hs => nomatch hs

theorem cCommandComplete (op : Nat) : Statement (.cCommandComplete op) := fun _ hs => nomatch hs

theorem qCommandComplete (op : Nat) : Statement (.qCommandComplete op) := fun _ hs => nomatch hs

theorem pinGrant (pen group : Nat) : Statement (.pinGrant pen group) := fun _ hs => nomatch hs

theorem foldArrival (op : Nat) : Statement (.foldArrival op) := fun _ hs => nomatch hs

theorem foldDeadline (group : Nat) : Statement (.foldDeadline group) := fun _ hs => nomatch hs

theorem foldGroupStart (pen : Nat) : Statement (.foldGroupStart pen) := fun _ hs => nomatch hs

theorem foldSplit (group : Nat) : Statement (.foldSplit group) := fun _ hs => nomatch hs

theorem foldPassRetry (group : Nat) : Statement (.foldPassRetry group) := fun _ hs => nomatch hs

theorem freeze (c : Nat) : Statement (.freeze c) := fun _ hs => nomatch hs

theorem freezeComplete (c : Nat) : Statement (.freezeComplete c) := fun _ hs => nomatch hs

theorem carriedAccessComplete (op : Nat) : Statement (.carriedAccessComplete op) := fun _ hs => nomatch hs

theorem continuationResume (c : Nat) : Statement (.continuationResume c) := fun _ hs => nomatch hs

theorem lateFault (c : Nat) : Statement (.lateFault c) := fun _ hs => nomatch hs

theorem handlerCreation : Statement (.handlerCreation) := fun _ hs => nomatch hs

theorem checkpointInterval (c : Nat) : Statement (.checkpointInterval c) := fun _ hs => nomatch hs

theorem forcedCheckpoint (c : Nat) : Statement (.forcedCheckpoint c) := fun _ hs => nomatch hs

theorem rollback (c source : Nat) : Statement (.rollback c source) := fun _ hs => nomatch hs

theorem containedError (c source op : Nat) : Statement (.containedError c source op) := fun _ hs => nomatch hs

theorem fatalError (bank source unit : Nat) : Statement (.fatalError bank source unit) := fun _ hs => nomatch hs

theorem ptsTick (c : Nat) : Statement (.ptsTick c) := fun _ hs => nomatch hs

theorem requestPacketReceive (p : Packet) : Statement (.requestPacketReceive p) := fun _ hs => nomatch hs

theorem peerMessageReceive (p : Packet) : Statement (.peerMessageReceive p) := fun _ hs => nomatch hs

theorem ringStepReceive (p : Packet) : Statement (.ringStepReceive p) := fun _ hs => nomatch hs

theorem ringBreakReceive (p : Packet) : Statement (.ringBreakReceive p) := fun _ hs => nomatch hs

theorem segmentPageMessage (p : Packet) : Statement (.segmentPageMessage p) := fun _ hs => nomatch hs

theorem ringTimeout (op : Nat) : Statement (.ringTimeout op) := fun _ hs => nomatch hs

theorem unexpectedMessageExpiry (mc : Nat) : Statement (.unexpectedMessageExpiry mc) := fun _ hs => nomatch hs

theorem shepherdSelect : Statement (.shepherdSelect) := fun _ hs => nomatch hs

theorem newBinding : Statement (.newBinding) := fun _ hs => nomatch hs

theorem bindingLaunchAfterFreeze : Statement (.bindingLaunchAfterFreeze) := fun _ hs => nomatch hs

theorem rebinding : Statement (.rebinding) := fun _ hs => nomatch hs

theorem sliceEnd (bind : Nat) : Statement (.sliceEnd bind) := fun _ hs => nomatch hs

theorem npExpiry (bind : Nat) : Statement (.npExpiry bind) := fun _ hs => nomatch hs

theorem bindingEnd (bind : Nat) : Statement (.bindingEnd bind) := fun _ hs => nomatch hs

theorem carderPageArrival (seg page : Nat) (data : List Byte) : Statement (.carderPageArrival seg page data) := fun _ hs => nomatch hs

theorem segWaitExpiry (op : Nat) : Statement (.segWaitExpiry op) := fun _ hs => nomatch hs

theorem segmentDrain (seg : Nat) : Statement (.segmentDrain seg) := fun _ hs => nomatch hs

theorem blockGrantAnswer (op : Nat) : Statement (.blockGrantAnswer op) := fun _ hs => nomatch hs

theorem blockPoison (part blk : Nat) : Statement (.blockPoison part blk) := fun _ hs => nomatch hs

theorem sequencePoisoning (part : Nat) : Statement (.sequencePoisoning part) := fun _ hs => nomatch hs

theorem twaysPendingApply (cl : Nat) : Statement (.twaysPendingApply cl) := fun _ hs => nomatch hs

theorem clcfgWrite (fn cl : Nat) (v : Word) : Statement (.clcfgWrite fn cl v) := fun _ hs => nomatch hs

theorem mctxWriteIdle (fn mc : Nat) : Statement (.mctxWriteIdle fn mc) := fun _ hs => nomatch hs

theorem mctxWriteHalted (fn mc : Nat) : Statement (.mctxWriteHalted fn mc) := fun _ hs => nomatch hs

theorem mctxWriteFree (fn mc : Nat) : Statement (.mctxWriteFree fn mc) := fun _ hs => nomatch hs

theorem ticketsWrite (fn mc : Nat) (v : Nat) : Statement (.ticketsWrite fn mc v) := fun _ hs => nomatch hs

theorem paramverWrite (fn mc : Nat) (v : VAddr) : Statement (.paramverWrite fn mc v) := fun _ hs => nomatch hs

theorem fenceAlloc (fn n part : Nat) : Statement (.fenceAlloc fn n part) := fun _ hs => nomatch hs

theorem fenceFree (fn n : Nat) : Statement (.fenceFree fn n) := fun _ hs => nomatch hs

theorem contctlResume (fn mc slot : Nat) : Statement (.contctlResume fn mc slot) := fun _ hs => nomatch hs

theorem contctlSkip (fn mc slot : Nat) : Statement (.contctlSkip fn mc slot) := fun _ hs => nomatch hs

theorem contctlAbort (fn mc slot : Nat) : Statement (.contctlAbort fn mc slot) := fun _ hs => nomatch hs

theorem queueEnable (fn q : Nat) : Statement (.queueEnable fn q) := fun _ hs => nomatch hs

theorem queueDisable (fn q : Nat) : Statement (.queueDisable fn q) := fun _ hs => nomatch hs

theorem notify (fn q : Nat) (tail : Word32) (relaxed : Bool) : Statement (.notify fn q tail relaxed) := fun _ hs => nomatch hs

theorem pollingSlotVisit (slot : Nat) : Statement (.pollingSlotVisit slot) := fun _ hs => nomatch hs

theorem ringCtimeExpiry (fn ring : Nat) : Statement (.ringCtimeExpiry fn ring) := fun _ hs => nomatch hs

theorem cdropRead (fn : Nat) : Statement (.cdropRead fn) := fun _ hs => nomatch hs

theorem shootdown (fn : Nat) (wake : Bool) : Statement (.shootdown fn wake) := fun _ hs => nomatch hs

theorem shootdownDone (fn : Nat) : Statement (.shootdownDone fn) := fun _ hs => nomatch hs

theorem sliceWrite (v : Word32) : Statement (.sliceWrite v) := fun _ hs => nomatch hs

theorem segwaitWrite (v : Word32) : Statement (.segwaitWrite v) := fun _ hs => nomatch hs

theorem cxlenWrite (v : Word32) : Statement (.cxlenWrite v) := fun _ hs => nomatch hs

theorem biasFlipToHost (page : Nat) : Statement (.biasFlipToHost page) := fun _ hs => nomatch hs

theorem biasFlipToDevice (page : Nat) : Statement (.biasFlipToDevice page) := fun _ hs => nomatch hs

theorem biasFlipDone : Statement (.biasFlipDone) := fun _ hs => nomatch hs

theorem grant (cl part size count : Nat) : Statement (.grant cl part size count) := fun _ hs => nomatch hs

theorem returnBlocks (cl part : Nat) (blocks : List Nat) : Statement (.returnBlocks cl part blocks) := fun _ hs => nomatch hs

theorem status (tag : Byte) (part : Nat) : Statement (.status tag part) := fun _ hs => nomatch hs

theorem test (tag : Byte) (part ukind level uindex : Nat) (result : TestEnd) : Statement (.test tag part ukind level uindex result) := fun _ hs => nomatch hs

theorem seginst (tag : Byte) (part src peer : Nat) (flashOff haddr : Nat) : Statement (.seginst tag part src peer flashOff haddr) := fun _ hs => nomatch hs

theorem segrel (tag : Byte) (part seg : Nat) : Statement (.segrel tag part seg) := fun _ hs => nomatch hs

theorem segmap (tag : Byte) (part seg first n laddr : Nat) : Statement (.segmap tag part seg first n laddr) := fun _ hs => nomatch hs

theorem mapq (tag : Byte) (part func queue np npqmax : Nat) : Statement (.mapq tag part func queue np npqmax) := fun _ hs => nomatch hs

theorem unmapq (tag : Byte) (part func queue : Nat) : Statement (.unmapq tag part func queue) := fun _ hs => nomatch hs

theorem blkpool (tag : Byte) (part base bytes : Nat) : Statement (.blkpool tag part base bytes) := fun _ hs => nomatch hs

theorem unitmap (tag : Byte) : Statement (.unitmap tag) := fun _ hs => nomatch hs

theorem memckpt (tag : Byte) (fn flags ports route0 haddr hbytes : Nat) (key : BitVec 256) : Statement (.memckpt tag fn flags ports route0 haddr hbytes key) := fun _ hs => nomatch hs

theorem ckptstat (tag : Byte) : Statement (.ckptstat tag) := fun _ hs => nomatch hs

theorem ckptend (tag : Byte) (fn : Nat) : Statement (.ckptend tag fn) := fun _ hs => nomatch hs

theorem mailboxReply : Statement (.mailboxReply) := fun _ hs => nomatch hs

theorem checkpointStreamFailure (stream : Nat) : Statement (.checkpointStreamFailure stream) := fun _ hs => nomatch hs

theorem checkpointCopyEnd : Statement (.checkpointCopyEnd) := fun _ hs => nomatch hs

theorem functionLevelReset (fn : Nat) : Statement (.functionLevelReset fn) := fun _ hs => nomatch hs

theorem cxlMemAccess (addr : Nat) (write : Option (List Byte)) (len : Nat) : Statement (.cxlMemAccess addr write len) := fun _ hs => nomatch hs

theorem registerWrite (fn bar off len : Nat) (v : Word) : Statement (.registerWrite fn bar off len v) := fun _ hs => nomatch hs

theorem getVersion (fn : Nat) : Statement (.getVersion fn) := fun _ hs => nomatch hs

theorem getCapabilities (fn : Nat) : Statement (.getCapabilities fn) := fun _ hs => nomatch hs

theorem negotiateAlgorithms (fn : Nat) (p521 sha512 : Bool) : Statement (.negotiateAlgorithms fn p521 sha512) := fun _ hs => nomatch hs

theorem getDigests (fn : Nat) : Statement (.getDigests fn) := fun _ hs => nomatch hs

theorem getCertificate (fn slot off len : Nat) : Statement (.getCertificate fn slot off len) := fun _ hs => nomatch hs

theorem challenge (fn slot : Nat) (nonce : BitVec 256) : Statement (.challenge fn slot nonce) := fun _ hs => nomatch hs

theorem getMeasurements (fn : Nat) (index : Nat × Option (BitVec 256)) : Statement (.getMeasurements fn index) := fun _ hs => nomatch hs

theorem powerGood (img : BoardImage) : Statement (.powerGood img) := fun _ hs => nomatch hs

theorem bringupComplete : Statement (.bringupComplete) := fun _ hs => nomatch hs

theorem throttleStepUp (island : Nat) : Statement (.throttleStepUp island) := fun _ hs => nomatch hs

theorem throttleStepDown (island : Nat) : Statement (.throttleStepDown island) := fun _ hs => nomatch hs

theorem thermalTrip (island : Nat) : Statement (.thermalTrip island) := fun _ hs => nomatch hs

theorem i3cReset (img : BoardImage) : Statement (.i3cReset img) := fun _ hs => nomatch hs

theorem emptyBundle (sk : BitVec 4) : Statement (.emptyBundle sk) := fun _ hs => nomatch hs

theorem manifestRead (seg : Nat) (bytes : List Byte) : Statement (.manifestRead seg bytes) := fun _ hs => nomatch hs

theorem powerRemoval : Statement (.powerRemoval) := fun _ hs => nomatch hs

theorem ethernetLinkChange (port : Nat) (up : Bool) : Statement (.ethernetLinkChange port up) := fun _ hs => nomatch hs

theorem boundaryScan : Statement (.boundaryScan) := fun _ hs => nomatch hs

end Sys2Proof.Laws.RoundTrip
end

