-- ==== Sys2Proof/Tests/Slice0.lean ====
section
/-!
SUPPORT. Tests of the model: ill-formed terms that `Instr.wellFormed` refuses, words of the spec's encoding tables (spec/02_bundles.md and
the form tables of the class chapters) with the instructions that they stand for, results worked out from the rules by hand, and for every
statement a state and operands that meet its hypotheses.
-/
open Sys2Proof Sys2Proof.Machine Sys2Proof.Claim

namespace Sys2Proof.Tests
set_option Elab.async false

/-- What the decoder reads, and the reason of ILL_SYLLABLE when it refuses. -/
def dec (sl : Slot) (w : Word32) (e : Option Word32) : Option Instr := (decodeSyl sl w e).toOption
def err (sl : Slot) (w : Word32) (e : Option Word32) : Option Nat :=
  match decodeSyl sl w e with
  | .ok _ => none
  | .error n => some n

/-- The unguarded guard. -/
def g0 : Guard := ⟨0, 0⟩
def vx (sub sat rm fmt : Nat) : Option VX := some ⟨BitVec.ofNat 24 sub, BitVec.ofNat 1 sat, BitVec.ofNat 3 rm, BitVec.ofNat 4 fmt⟩

/-! ## Ill-formed terms: one at least for each check of WellFormed.lean -/

/-- No one of the terms is well-formed. -/
def refused (l : List Instr) : Bool := l.all (fun i => !i.wellFormed)

theorem smoke_fields : refused [.spawn g0 4 7 1, .finc g0 4 5 (some 1), .fincSet g0 4 5 (some 1), .sqinfo g0 1 2 7, .mfmt g0 1 2 (some 0x55),
    .red g0 9 1 2 0 0, .red g0 8 1 2 1 0, .talloc g0 1 2 ⟨0, 12, 0, 0⟩] := by decide

theorem smoke_forms : refused [.add g0 1 2 3 4, .sub g0 1 2 3 7, .mul g0 1 2 3 2, .div g0 1 2 3 2, .divu g0 1 2 3 2, .rem g0 1 2 3 2,
    .remu g0 1 2 3 2, .sll g0 1 2 3 2, .srl g0 1 2 3 2, .sra g0 1 2 3 2, .rot g0 1 2 3 4, .clz g0 1 2 2, .ctz g0 1 2 2, .popc g0 1 2 2,
    .sext g0 1 2 3, .zext g0 1 2 3, .slli g0 1 2 1 32, .srli g0 1 2 1 63, .srai g0 1 2 1 32] := by decide

theorem smoke_short_fields : refused [.addi g0 1 2 1 (some 5), .andi g0 1 2 1 (some 5), .ori g0 1 2 1 (some 5), .xori g0 1 2 1 (some 5),
    .li g0 1 1 (some 5), .cmpi g0 1 2 0 1 (some 5), .aaddi g0 1 2 1 (some 5), .ld g0 1 2 3 0 0 1 (some 8), .st g0 1 2 3 0 1 (some 8),
    .pref g0 2 3 1 (some 8), .sqres g0 1 2 3 (some 1), .sqput g0 1 2 3 (some 1), .sqcmt g0 1 2 3 (some 1), .sqwait g0 1 2 3 (some 1),
    .sqfork g0 1 2 3 (some 1), .sqget g0 1 2 3 (some 1)] := by decide

theorem smoke_conditions : refused [.cmp g0 1 2 3 12, .cmpi g0 1 2 12 0 none, .fcmp g0 1 2 3 6, .fcmp g0 1 2 3 14, .vcmp g0 1 2 3 6 none,
    .vcmp g0 1 2 3 12 (vx 0 0 0 8), .vcmp g0 1 2 3 0 (vx 2 0 0 0), .vcmp g0 1 2 3 0 (vx 0 0 0 3)] := by decide

theorem smoke_rounding : refused [.fadd g0 1 2 3 5, .fsub g0 1 2 3 6, .fmul g0 1 2 3 7, .ffma g0 1 2 3 5, .fdiv g0 1 2 3 5, .fsqrt g0 1 2 5,
    .fcvt g0 1 2 0 0 5, .fcvt g0 1 2 0 14 0, .fcvt g0 1 2 1 6 0] := by decide

theorem smoke_memory_orders : refused [.ld g0 1 2 3 1 0 0 none, .ld g0 1 2 0 0 2 0 none, .st g0 1 2 0 1 0 none, .lda g0 1 2 3 0,
    .sta g0 1 2 1 0, .red g0 0 1 2 0 1] := by decide

theorem smoke_a31 : refused [.aadd g0 31 1 2, .aaddi g0 31 1 0 none, .asub g0 31 1 2, .amov g0 31 1 2, .lda g0 31 1 0 0] := by decide

theorem smoke_vx_arithmetic : refused [.vadd g0 1 2 3 0 (vx 0 0 0 3), .vsub g0 1 2 3 0 (vx 0 0 5 0), .vmul g0 1 2 3 0 (vx 0 0 1 8),
    .vfma g0 1 2 3 0 (vx 0 0 0 5), .vfms g0 1 2 3 0 (vx 1 0 0 0), .vabs g0 1 2 0 (vx 0 1 0 0), .vmin g0 1 2 3 0 (vx 0 1 0 5),
    .vmax g0 1 2 3 0 (vx 0 0 1 0), .vdiv g0 1 2 3 0 (vx 0 0 0 8), .vrcp g0 1 2 0 (vx 0 0 0 9), .vrsq g0 1 2 0 (vx 0 0 7 0),
    .vsqrt g0 1 2 0 (vx 0 0 0 6), .vexp g0 1 2 0 (vx 0 0 0 7), .vexp2 g0 1 2 0 (vx 2 0 0 0), .vlog2 g0 1 2 0 (vx 0 0 0 10),
    .vtanh g0 1 2 0 (vx 0 0 0 11), .vsigm g0 1 2 0 (vx 0 0 0 4)] := by decide

theorem smoke_vx_bits : refused [.vand g0 1 2 3 0 (vx 0 0 0 9), .vor g0 1 2 3 0 (vx 0 1 0 8), .vxor g0 1 2 3 0 (vx 0 0 1 8),
    .vshl g0 1 2 3 0 (vx 0 0 0 0), .vshr g0 1 2 3 0 (vx 0 0 0 10), .vsra g0 1 2 3 0 (vx 0 0 0 4), .vsel g0 1 2 3 0 (vx 0 0 0 12),
    .vbcast g0 1 2 0 (vx 0 0 0 9), .vins g0 1 2 3 (vx 1 0 0 0), .vext g0 1 2 3 (vx 0 0 0 9), .vperm g0 1 2 3 0 (vx 0 1 0 0),
    .viota g0 1 2 0 (vx 0 0 0 0), .vmov g0 1 2 0 (vx 0 0 2 0)] := by decide

theorem smoke_vx_sums : refused [.vred g0 1 2 0 (vx 4 0 0 0), .vred g0 1 2 0 (vx 0 1 0 0), .vscan g0 1 2 0 (vx 0 0 1 5),
    .vdot g0 1 2 3 0 none, .vdot g0 1 2 3 0 (vx 0 0 0 0), .vdot g0 1 2 3 0 (vx 0 1 0 1), .vdot g0 1 2 3 0 (vx 0 0 0 8),
    .vso g0 1 2 5 0 none, .vso g0 1 2 4 0 (vx 3 0 0 0), .vso g0 1 2 4 0 (vx 0 0 0 5), .vcmul g0 1 2 3 0 (vx 0 0 0 1),
    .vcmac g0 1 2 3 0 (vx 1 0 0 10), .vconj g0 1 2 0 (vx 0 1 0 10), .vconj g0 1 2 0 (vx 0 0 1 10)] := by decide

theorem smoke_vx_conversions : refused [.vcvt g0 1 2 0 (vx 9 0 0 0), .vcvt g0 1 2 0 (vx 0 0 0 9), .vcvt g0 1 2 0 (vx 0 0 0 10),
    .vcvt g0 1 2 0 (vx 10 0 0 10), .vcvt g0 1 2 0 (vx 0x10 0 0 0), .vcvt g0 1 2 0 (vx 0x20 0 0 1), .vcvt g0 1 2 0 (vx 0x40 0 0 5),
    .vcvt g0 1 2 0 (vx 0 0 5 1)] := by decide

theorem smoke_tiles : refused [.vld g0 1 2 3 (vx 8 0 0 0), .vst g0 1 2 3 (vx 0 0 0 1), .vldx g0 1 2 3 (vx 0 1 0 0), .vstx g0 1 2 3 (vx 0 0 1 0)] := by
  decide

theorem smoke_matrix : refused [.mmul g0 0 1 2 0 ⟨0, 1, 0x55⟩, .mmulw g0 0 1 2 0 ⟨1, 0, 0x55⟩, .mmulwT g0 0 1 2 0 ⟨1, 3, 1⟩,
    .mspec g0 0 1 2 0 ⟨0, 3, 0⟩] := by decide

theorem smoke_transforms : refused [.xexp g0 1 2 0 (some ⟨0, 0, 0, 10⟩), .xcmp g0 1 2 3 (some ⟨0, 0, 0, 66⟩), .xtrn g0 1 2 0 (some ⟨0, 0, 64, 0⟩),
    .xcvt g0 1 2 0 (some ⟨0, 0, 0, 1⟩), .xdft g0 1 2 5 none, .xidft g0 1 2 6 none, .xidftAcc g0 1 2 7 none, .xtag g0 1 0 (some ⟨1, 0, 0, 0⟩),
    .xtagAcc g0 1 0 (some ⟨0, 0, 1, 0⟩), .xmov g0 1 2 (some ⟨0, 0, 0, 1⟩), .xfill g0 1 2 (some ⟨1, 0, 0, 0⟩),
    .xfill g0 1 2 (some ⟨0, 0, 0, 1⟩)] := by decide

/-- The boundaries of the same checks are well-formed. -/
theorem smoke_accepts : [.spawn g0 4 6 1, .finc g0 4 0 (some 1), .add g0 1 2 3 3, .slli g0 1 2 1 31, .slli g0 1 2 0 63, .li g0 1 0 (some 5),
    .cmp g0 1 2 3 11, .fcmp g0 1 2 3 13, .fadd g0 1 2 3 4, .fcvt g0 1 2 1 11 0, .fcvt g0 1 2 0 13 4, .ld g0 1 2 2 1 1 0 none,
    .red g0 8 1 2 0 2, .talloc g0 1 2 ⟨0, 11, 0, 0⟩, .vadd g0 1 2 3 0 (vx 0 1 4 0), .vcvt g0 1 2 0 (vx 0x15 0 0 2), .vso g0 1 2 4 0 (vx 2 0 0 0),
    .vcmp g0 1 2 3 13 none, .mmul g0 0 1 2 0 ⟨1, 3, 0⟩, .xexp g0 1 2 0 (some ⟨0, 0, 0, 9⟩), .xtrn g0 1 2 0 (some ⟨0, 0, 63, 0⟩),
    .sqinfo g0 1 2 6].all Instr.wellFormed = true := by decide

/-! ## Words -/

/-- The words of the spec's worked examples. -/
theorem test_decode_examples :
    dec .s 0x06618210#32 none = some (.add ⟨1, 3⟩ 3 1 2 0)
    ∧ dec .a 0x18021284#32 none = some (.ld g0 4 4 2 1 0 4 none)
    ∧ dec .v 0x04008419#32 none = some (.vadd g0 1 2 3 1 none)
    ∧ dec .s 0x08028A00#32 (some 0x000186A0#32) = some (.addi g0 5 5 0 (some 100000))
    ∧ dec .b 0x28001061#32 none = some (.spawn g0 4 6 1)
    ∧ dec .b 0x40001000#32 none = some (.finc g0 4 0 none)
    ∧ dec .b 0x3C001052#32 none = some (.waitf g0 4 5 2 false)
    ∧ dec .a 0x58012180#32 (some 0x901FF03F#32) = some (.talloc g0 9 3 ⟨1, 2, 511, 63⟩)
    ∧ dec .s 0xD0038C02#32 none = some (.fcvt g0 7 6 0 0 2)
    ∧ dec .x 0x0800E0C0#32 (some 2#32) = some (.xcmp g0 7 6 0 (some ⟨0, 0, 0, 2⟩))
    ∧ dec .v 0x10020A32#32 (some 2#32) = some (.vfma g0 4 5 6 2 (some ⟨0, 0, 0, 2⟩))
    ∧ dec .v 0x8C020106#32 none = some (.vld g0 4 2 3 none)
    ∧ dec .v 0xA0028840#32 (some 0x100#32) = some (.vso g0 5 4 8 0 (some ⟨1, 0, 0, 0⟩))
    ∧ dec .v 0x90028106#32 none = some (.vst g0 5 2 3 none) := by decide

theorem test_decode_examples_2 :
    dec .m 0x08102034#32 (some 0x55#32) = some (.mmulwT g0 2 4 6 0 ⟨0, 0, 0x55⟩)
    ∧ dec .m 0x14103000#32 (some 0x07900000#32) = some (.mrd g0 2 6 0 (some ⟨7, 1, 0, 0, 1⟩))
    ∧ dec .a 0x2005F80C#32 none = some (.lda g0 5 31 0 12)
    ∧ dec .b 0x18080005#32 (some 3#32) = some (.loopi g0 1 5 3)
    ∧ dec .b 0x58028088#32 none = some (.srd g0 5 17)
    ∧ dec .q 0x1C0A2AB0#32 none = some (.sqfork g0 20 21 22 none)
    ∧ dec .q 0x08029048#32 none = some (.sqres g0 5 8 9 none)
    ∧ dec .q 0x10031050#32 none = some (.sqcmt g0 6 8 10 none)
    ∧ dec .s 0x88028000#32 (some 0x9ABCDEF0#32) = some (.li g0 5 0 (some 0x9ABCDEF0))
    ∧ dec .s 0x8C028000#32 (some 0x12345678#32) = some (.lih g0 5 0x12345678)
    ∧ dec .a 0x2C02906C#32 none = some (.amoAdd g0 5 4 6 1 2) := by decide

/-- Words that no instruction has: the reasons of ILL_SYLLABLE (R37, R38, R40). -/
theorem test_decode_refuses : err .b 0#32 none = some 1 ∧ err .s 0xFC000000#32 none = some 1 ∧ err .s 0x04000004#32 none = some 2
    ∧ err .s 0x04000000#32 (some 0#32) = some 3 ∧ err .s 0x8C028000#32 none = some 4 ∧ err .a 0x041F0000#32 none = some 5 := by decide

/-! One word of each encoded instruction, written out from the operand formats (R38) and the opcode maps (R41 to R48). -/

theorem test_decode_b_1 :
    dec .b 0x04A01490#32 none = some (.br ⟨0, 5⟩ 5 9)
    ∧ dec .b 0x094056B4#32 none = some (.bri ⟨0, 10⟩ 22196)
    ∧ dec .b 0x0DE056B4#32 none = some (.call ⟨0, 15⟩ 22196)
    ∧ dec .b 0x12A01400#32 none = some (.ret ⟨1, 5⟩ 5)
    ∧ dec .b 0x14F0B6B4#32 none = some (.loop ⟨0, 7⟩ 2 5 5812)
    ∧ dec .b 0x1B3816B4#32 (some 0x00012345#32) = some (.loopi ⟨1, 9⟩ 3 5812 0x00012345)
    ∧ dec .b 0x1EC816B4#32 none = some (.lbrk ⟨1, 6⟩ 1 5812)
    ∧ dec .b 0x21C00000#32 (some 0xFFFFFF80#32) = some (.susp ⟨0, 14⟩ 0xFFFFFF80)
    ∧ dec .b 0x21C01491#32 (some 0xFFFFFF80#32) = some (.suspFence ⟨0, 14⟩ 5 9 0xFFFFFF80)
    ∧ dec .b 0x21001492#32 (some 0xFFFFFF80#32) = some (.suspLend ⟨0, 8⟩ 5 9 0xFFFFFF80)
    ∧ dec .b 0x22001493#32 (some 0xFFFFFF80#32) = some (.suspBar ⟨1, 0⟩ 5 9 0xFFFFFF80)
    ∧ dec .b 0x26A00000#32 none = some (.yield ⟨1, 5⟩) := by decide

theorem test_decode_b_2 :
    dec .b 0x2A601463#32 none = some (.spawn ⟨1, 3⟩ 5 6 3)
    ∧ dec .b 0x2F200000#32 none = some (.retire ⟨1, 9⟩)
    ∧ dec .b 0x33C01400#32 none = some (.reqdone ⟨1, 14⟩ 5)
    ∧ dec .b 0x36A01400#32 none = some (.cres ⟨1, 5⟩ 5)
    ∧ dec .b 0x35A01401#32 none = some (.cresSkip ⟨0, 13⟩ 5)
    ∧ dec .b 0x3BA1234F#32 none = some (.waitc ⟨1, 13⟩ 1 2 3 4 15)
    ∧ dec .b 0x3D40149C#32 none = some (.waitf ⟨0, 10⟩ 5 9 12 false)
    ∧ dec .b 0x3FC0149C#32 (some 0x00000001#32) = some (.waitfLend ⟨1, 14⟩ 5 9 12)
    ∧ dec .b 0x42601490#32 none = some (.finc ⟨1, 3⟩ 5 9 none)
    ∧ dec .b 0x41C01491#32 none = some (.fincSet ⟨0, 14⟩ 5 9 none)
    ∧ dec .b 0x45802916#32 none = some (.fence ⟨0, 12⟩ 41 22)
    ∧ dec .b 0x49E01403#32 none = some (.gbar ⟨0, 15⟩ 5 3) := by decide

theorem test_decode_b_3 :
    dec .b 0x4D401490#32 none = some (.evpost ⟨0, 10⟩ 5 9 none)
    ∧ dec .b 0x53201400#32 none = some (.trap ⟨1, 9⟩ 5)
    ∧ dec .b 0x53C01401#32 none = some (.trapSys ⟨1, 14⟩ 5)
    ∧ dec .b 0x56200000#32 none = some (.ckpt ⟨1, 1⟩)
    ∧ dec .b 0x58E28088#32 none = some (.srd ⟨0, 7⟩ 5 17)
    ∧ dec .b 0x5DA28090#32 none = some (.swr ⟨0, 13⟩ 5 18) := by decide

theorem test_decode_s_1 :
    dec .s 0x06629271#32 none = some (.add ⟨1, 3⟩ 5 9 14 1)
    ∧ dec .s 0x0B8292B4#32 none = some (.addi ⟨1, 12⟩ 5 9 180 none)
    ∧ dec .s 0x0DC29272#32 none = some (.sub ⟨0, 14⟩ 5 9 14 2)
    ∧ dec .s 0x12029271#32 none = some (.mul ⟨1, 0⟩ 5 9 14 1)
    ∧ dec .s 0x15829270#32 none = some (.mulh ⟨0, 12⟩ 5 9 14)
    ∧ dec .s 0x1B629270#32 none = some (.mulhu ⟨1, 11⟩ 5 9 14)
    ∧ dec .s 0x1E829271#32 none = some (.div ⟨1, 4⟩ 5 9 14 1)
    ∧ dec .s 0x20429271#32 none = some (.divu ⟨0, 2⟩ 5 9 14 1)
    ∧ dec .s 0x26A29271#32 none = some (.rem ⟨1, 5⟩ 5 9 14 1)
    ∧ dec .s 0x2B829271#32 none = some (.remu ⟨1, 12⟩ 5 9 14 1)
    ∧ dec .s 0x2EC29270#32 none = some (.and ⟨1, 6⟩ 5 9 14)
    ∧ dec .s 0x32E292B4#32 none = some (.andi ⟨1, 7⟩ 5 9 180 none) := by decide

theorem test_decode_s_2 :
    dec .s 0x36629270#32 none = some (.or ⟨1, 3⟩ 5 9 14)
    ∧ dec .s 0x3A6292B4#32 none = some (.ori ⟨1, 3⟩ 5 9 180 none)
    ∧ dec .s 0x3C229270#32 none = some (.xor ⟨0, 1⟩ 5 9 14)
    ∧ dec .s 0x41A292B4#32 none = some (.xori ⟨0, 13⟩ 5 9 180 none)
    ∧ dec .s 0x44C29270#32 none = some (.andn ⟨0, 6⟩ 5 9 14)
    ∧ dec .s 0x4A229271#32 none = some (.sll ⟨1, 1⟩ 5 9 14 1)
    ∧ dec .s 0x4FC29255#32 none = some (.slli ⟨1, 14⟩ 5 9 1 21)
    ∧ dec .s 0x51C29271#32 none = some (.srl ⟨0, 14⟩ 5 9 14 1)
    ∧ dec .s 0x5662922A#32 none = some (.srli ⟨1, 3⟩ 5 9 0 42)
    ∧ dec .s 0x5A029271#32 none = some (.sra ⟨1, 0⟩ 5 9 14 1)
    ∧ dec .s 0x5CA2925E#32 none = some (.srai ⟨0, 5⟩ 5 9 1 30)
    ∧ dec .s 0x62029273#32 none = some (.rot ⟨1, 0⟩ 5 9 14 3) := by decide

theorem test_decode_s_3 :
    dec .s 0x65029270#32 none = some (.min ⟨0, 8⟩ 5 9 14)
    ∧ dec .s 0x6A829270#32 none = some (.max ⟨1, 4⟩ 5 9 14)
    ∧ dec .s 0x6F629270#32 none = some (.minu ⟨1, 11⟩ 5 9 14)
    ∧ dec .s 0x71829270#32 none = some (.maxu ⟨0, 12⟩ 5 9 14)
    ∧ dec .s 0x74229201#32 none = some (.clz ⟨0, 1⟩ 5 9 1)
    ∧ dec .s 0x7BA29201#32 none = some (.ctz ⟨1, 13⟩ 5 9 1)
    ∧ dec .s 0x7E829201#32 none = some (.popc ⟨1, 4⟩ 5 9 1)
    ∧ dec .s 0x81E29202#32 none = some (.sext ⟨0, 15⟩ 5 9 2)
    ∧ dec .s 0x85429201#32 none = some (.zext ⟨0, 10⟩ 5 9 1)
    ∧ dec .s 0x8882D6B4#32 none = some (.li ⟨0, 4⟩ 5 22196 none)
    ∧ dec .s 0x8D228000#32 (some 0x89ABCDEF#32) = some (.lih ⟨0, 9⟩ 5 0x89ABCDEF)
    ∧ dec .s 0x90A29273#32 none = some (.sel ⟨0, 5⟩ 5 9 14 3) := by decide

theorem test_decode_s_4 :
    dec .s 0x97C62924#32 none = some (.cmp ⟨1, 14⟩ 3 5 9 4)
    ∧ dec .s 0x98862913#32 none = some (.cmpi ⟨0, 4⟩ 3 5 4 19 none)
    ∧ dec .s 0x9FE6D200#32 none = some (.pand ⟨1, 15⟩ 3 6 9)
    ∧ dec .s 0xA1A6D200#32 none = some (.por ⟨0, 13⟩ 3 6 9)
    ∧ dec .s 0xA506D200#32 none = some (.pxor ⟨0, 8⟩ 3 6 9)
    ∧ dec .s 0xA826D200#32 none = some (.pandn ⟨0, 1⟩ 3 6 9)
    ∧ dec .s 0xAD629273#32 none = some (.fadd ⟨0, 11⟩ 5 9 14 3)
    ∧ dec .s 0xB2C29273#32 none = some (.fsub ⟨1, 6⟩ 5 9 14 3)
    ∧ dec .s 0xB5029273#32 none = some (.fmul ⟨0, 8⟩ 5 9 14 3)
    ∧ dec .s 0xBB429273#32 none = some (.ffma ⟨1, 10⟩ 5 9 14 3)
    ∧ dec .s 0xBD829273#32 none = some (.fdiv ⟨0, 12⟩ 5 9 14 3)
    ∧ dec .s 0xC1429203#32 none = some (.fsqrt ⟨0, 10⟩ 5 9 3) := by decide

theorem test_decode_s_5 :
    dec .s 0xC6029270#32 none = some (.fmin ⟨1, 0⟩ 5 9 14)
    ∧ dec .s 0xC9829270#32 none = some (.fmax ⟨0, 12⟩ 5 9 14)
    ∧ dec .s 0xCCC62924#32 none = some (.fcmp ⟨0, 6⟩ 3 5 9 4)
    ∧ dec .s 0xD2E2932B#32 none = some (.fcvt ⟨1, 7⟩ 5 9 1 5 3) := by decide

theorem test_decode_a_1 :
    dec .a 0x06EBA8A0#32 none = some (.aadd ⟨1, 7⟩ 11 21 5)
    ∧ dec .a 0x0A4BAEB4#32 none = some (.aaddi ⟨1, 2⟩ 11 21 1716 none)
    ∧ dec .a 0x0D4BA8A0#32 none = some (.asub ⟨0, 10⟩ 11 21 5)
    ∧ dec .a 0x108BA8A0#32 none = some (.amov ⟨0, 4⟩ 11 21 5)
    ∧ dec .a 0x152058A0#32 none = some (.asplitLo ⟨0, 9⟩ 11 5)
    ∧ dec .a 0x162158A0#32 none = some (.asplitHi ⟨1, 1⟩ 11 5)
    ∧ dec .a 0x1B42AEBB#32 none = some (.ld ⟨1, 10⟩ 5 11 2 1 1 27 none)
    ∧ dec .a 0x1EE2AD56#32 none = some (.st ⟨1, 7⟩ 5 11 1 2 22 none)
    ∧ dec .a 0x23ABAB0C#32 none = some (.lda ⟨1, 13⟩ 11 21 1 268)
    ∧ dec .a 0x266BAD0C#32 none = some (.sta ⟨1, 3⟩ 11 21 2 268)
    ∧ dec .a 0x2B002E13#32 none = some (.pref ⟨1, 8⟩ 11 2 19 none)
    ∧ dec .a 0x2C02AC9C#32 none = some (.amoAdd ⟨0, 0⟩ 5 11 9 1 2) := by decide

theorem test_decode_a_2 :
    dec .a 0x30A2AC9C#32 none = some (.amoAnd ⟨0, 5⟩ 5 11 9 1 2)
    ∧ dec .a 0x3782AC9C#32 none = some (.amoOr ⟨1, 12⟩ 5 11 9 1 2)
    ∧ dec .a 0x3A42AC9C#32 none = some (.amoXor ⟨1, 2⟩ 5 11 9 1 2)
    ∧ dec .a 0x3F62AC9C#32 none = some (.amoMin ⟨1, 11⟩ 5 11 9 1 2)
    ∧ dec .a 0x40E2AC9C#32 none = some (.amoMax ⟨0, 7⟩ 5 11 9 1 2)
    ∧ dec .a 0x4422AC9C#32 none = some (.amoMinu ⟨0, 1⟩ 5 11 9 1 2)
    ∧ dec .a 0x4AC2AC9C#32 none = some (.amoMaxu ⟨1, 6⟩ 5 11 9 1 2)
    ∧ dec .a 0x4D42AC9C#32 none = some (.amoSwap ⟨0, 10⟩ 5 11 9 1 2)
    ∧ dec .a 0x52A2AC9E#32 none = some (.cas ⟨1, 5⟩ 5 11 9 1 3)
    ∧ dec .a 0x56EA2C5C#32 none = some (.red ⟨1, 7⟩ 5 11 5 1 2)
    ∧ dec .a 0x59C4A280#32 (some 0x901FF03F#32) = some (.talloc ⟨0, 14⟩ 37 5 ⟨1, 2, 0x1FF, 0x3F⟩)
    ∧ dec .a 0x5C64A000#32 none = some (.tfree ⟨0, 3⟩ 37) := by decide

theorem test_decode_a_3 :
    dec .a 0x61C4A280#32 none = some (.tqry ⟨0, 14⟩ 37 5) := by decide

theorem test_decode_v_1 :
    dec .v 0x06829275#32 none = some (.vadd ⟨1, 4⟩ 5 9 14 5 none)
    ∧ dec .v 0x09229275#32 none = some (.vsub ⟨0, 9⟩ 5 9 14 5 none)
    ∧ dec .v 0x0EE29275#32 none = some (.vmul ⟨1, 7⟩ 5 9 14 5 none)
    ∧ dec .v 0x10A29275#32 none = some (.vfma ⟨0, 5⟩ 5 9 14 5 none)
    ∧ dec .v 0x14229275#32 none = some (.vfms ⟨0, 1⟩ 5 9 14 5 none)
    ∧ dec .v 0x18829205#32 none = some (.vabs ⟨0, 4⟩ 5 9 5 none)
    ∧ dec .v 0x1DE29275#32 none = some (.vmin ⟨0, 15⟩ 5 9 14 5 none)
    ∧ dec .v 0x22629275#32 none = some (.vmax ⟨1, 3⟩ 5 9 14 5 none)
    ∧ dec .v 0x26629275#32 none = some (.vdiv ⟨1, 3⟩ 5 9 14 5 none)
    ∧ dec .v 0x29A29205#32 none = some (.vrcp ⟨0, 13⟩ 5 9 5 none)
    ∧ dec .v 0x2FC29205#32 none = some (.vrsq ⟨1, 14⟩ 5 9 5 none)
    ∧ dec .v 0x31629205#32 none = some (.vsqrt ⟨0, 11⟩ 5 9 5 none) := by decide

theorem test_decode_v_2 :
    dec .v 0x37429205#32 none = some (.vexp ⟨1, 10⟩ 5 9 5 none)
    ∧ dec .v 0x3BC29205#32 none = some (.vexp2 ⟨1, 14⟩ 5 9 5 none)
    ∧ dec .v 0x3D429205#32 none = some (.vlog2 ⟨0, 10⟩ 5 9 5 none)
    ∧ dec .v 0x42C29205#32 none = some (.vtanh ⟨1, 6⟩ 5 9 5 none)
    ∧ dec .v 0x44A29205#32 none = some (.vsigm ⟨0, 5⟩ 5 9 5 none)
    ∧ dec .v 0x4A229275#32 none = some (.vand ⟨1, 1⟩ 5 9 14 5 none)
    ∧ dec .v 0x4C829275#32 none = some (.vor ⟨0, 4⟩ 5 9 14 5 none)
    ∧ dec .v 0x50C29275#32 none = some (.vxor ⟨0, 6⟩ 5 9 14 5 none)
    ∧ dec .v 0x56829275#32 none = some (.vshl ⟨1, 4⟩ 5 9 14 5 none)
    ∧ dec .v 0x58A29275#32 none = some (.vshr ⟨0, 5⟩ 5 9 14 5 none)
    ∧ dec .v 0x5EE29275#32 none = some (.vsra ⟨1, 7⟩ 5 9 14 5 none)
    ∧ dec .v 0x63385248#32 none = some (.vcmp ⟨1, 9⟩ 6 5 9 4 none) := by decide

theorem test_decode_v_3 :
    dec .v 0x64429275#32 none = some (.vsel ⟨0, 2⟩ 5 9 14 5 none)
    ∧ dec .v 0x69029205#32 none = some (.vcvt ⟨0, 8⟩ 5 9 5 none)
    ∧ dec .v 0x6E029205#32 none = some (.vred ⟨1, 0⟩ 5 9 5 none)
    ∧ dec .v 0x70029205#32 none = some (.vscan ⟨0, 0⟩ 5 9 5 none)
    ∧ dec .v 0x7582804D#32 none = some (.vbcast ⟨0, 12⟩ 5 9 5 none)
    ∧ dec .v 0x79C29270#32 none = some (.vins ⟨0, 14⟩ 5 9 14 none)
    ∧ dec .v 0x7CC29270#32 none = some (.vext ⟨0, 6⟩ 5 9 14 none)
    ∧ dec .v 0x81429275#32 none = some (.vperm ⟨0, 10⟩ 5 9 14 5 none)
    ∧ dec .v 0x85A2804D#32 none = some (.viota ⟨0, 13⟩ 5 9 5 none)
    ∧ dec .v 0x88E29205#32 none = some (.vmov ⟨0, 7⟩ 5 9 5 none)
    ∧ dec .v 0x8DA29292#32 none = some (.vld ⟨0, 13⟩ 5 37 9 none)
    ∧ dec .v 0x90029292#32 none = some (.vst ⟨0, 0⟩ 5 37 9 none) := by decide

theorem test_decode_v_4 :
    dec .v 0x97429292#32 none = some (.vldx ⟨1, 10⟩ 5 37 9 none)
    ∧ dec .v 0x9A829292#32 none = some (.vstx ⟨1, 4⟩ 5 37 9 none)
    ∧ dec .v 0x9EC29275#32 (some 0x00000012#32) = some (.vdot ⟨1, 6⟩ 5 9 14 5 (some ⟨0, 0, 1, 2⟩))
    ∧ dec .v 0xA0C29245#32 none = some (.vso ⟨0, 6⟩ 5 9 8 5 none)
    ∧ dec .v 0xA4C29275#32 none = some (.vcmul ⟨0, 6⟩ 5 9 14 5 none)
    ∧ dec .v 0xA8829275#32 none = some (.vcmac ⟨0, 4⟩ 5 9 14 5 none)
    ∧ dec .v 0xAEC29205#32 none = some (.vconj ⟨1, 6⟩ 5 9 5 none)
    ∧ dec .v 0xB2199000#32 none = some (.kand ⟨1, 0⟩ 6 3 1)
    ∧ dec .v 0xB6B99140#32 none = some (.kor ⟨1, 5⟩ 6 3 1 5)
    ∧ dec .v 0xB8F99140#32 none = some (.kxor ⟨0, 7⟩ 6 3 1 5)
    ∧ dec .v 0xBF998000#32 none = some (.knot ⟨1, 12⟩ 6 3)
    ∧ dec .v 0xC1A19140#32 none = some (.kpop ⟨0, 13⟩ 3 1 5) := by decide

theorem test_decode_m :
    dec .m 0x07112CB2#32 (some 0xC0000000#32) = some (.mmul ⟨1, 8⟩ 2 37 150 1 ⟨1, 2, 0⟩)
    ∧ dec .m 0x09112CB2#32 (some 0xC0000000#32) = some (.mmulw ⟨0, 8⟩ 2 37 150 1 ⟨1, 2, 0⟩)
    ∧ dec .m 0x0AD1282E#32 (some 0x00000055#32) = some (.mmulwT ⟨1, 6⟩ 2 37 5 1 ⟨0, 0, 0x55⟩)
    ∧ dec .m 0x0E312CB2#32 (some 0x00000055#32) = some (.mspec ⟨1, 1⟩ 2 37 150 1 ⟨0, 0, 0x55⟩)
    ∧ dec .m 0x12F00020#32 none = some (.mzero ⟨1, 7⟩ 2 1)
    ∧ dec .m 0x155128A0#32 none = some (.mrd ⟨0, 10⟩ 2 37 5 none)
    ∧ dec .m 0x19702920#32 none = some (.mrdv ⟨0, 11⟩ 2 5 9)
    ∧ dec .m 0x1FE018A0#32 none = some (.mfmt ⟨1, 15⟩ 3 5 none)
    ∧ dec .m 0x21C02800#32 none = some (.mstat ⟨0, 14⟩ 5) := by decide

theorem test_decode_x :
    dec .x 0x0464B2C1#32 none = some (.xexp ⟨0, 3⟩ 37 150 1 none)
    ∧ dec .x 0x0804B2C2#32 none = some (.xcmp ⟨0, 0⟩ 37 150 2 none)
    ∧ dec .x 0x0C84B2C3#32 none = some (.xtrn ⟨0, 4⟩ 37 150 3 none)
    ∧ dec .x 0x1224B2C1#32 none = some (.xcvt ⟨1, 1⟩ 37 150 1 none)
    ∧ dec .x 0x1764B2C4#32 none = some (.xdft ⟨1, 11⟩ 37 150 4 none)
    ∧ dec .x 0x1824B2C3#32 none = some (.xidft ⟨0, 1⟩ 37 150 3 none)
    ∧ dec .x 0x1A04A04A#32 none = some (.xidftAcc ⟨1, 0⟩ 37 2 2 none)
    ∧ dec .x 0x1DE4A001#32 none = some (.xtag ⟨0, 15⟩ 37 1 none)
    ∧ dec .x 0x1F204003#32 none = some (.xtagAcc ⟨1, 9⟩ 2 1 none)
    ∧ dec .x 0x23C4B2C0#32 none = some (.xmov ⟨1, 14⟩ 37 150 none)
    ∧ dec .x 0x27A4A0A0#32 none = some (.xfill ⟨1, 13⟩ 37 5 none) := by decide

theorem test_decode_c :
    dec .c 0x06429273#32 none = some (.cpy ⟨1, 2⟩ 5 9 14 1 1 none)
    ∧ dec .c 0x0A829273#32 none = some (.gath ⟨1, 4⟩ 5 9 14 1 1 none)
    ∧ dec .c 0x0D429273#32 none = some (.scat ⟨0, 10⟩ 5 9 14 1 1 none)
    ∧ dec .c 0x12029271#32 none = some (.cpyn ⟨1, 0⟩ 5 9 14 1)
    ∧ dec .c 0x14029271#32 none = some (.nrecv ⟨0, 0⟩ 5 9 14 1)
    ∧ dec .c 0x19629270#32 none = some (.ring ⟨0, 11⟩ 5 9 14)
    ∧ dec .c 0x1E029271#32 none = some (.cseg ⟨1, 0⟩ 5 9 14 1) := by decide

theorem test_decode_q :
    dec .q 0x04C29200#32 none = some (.sqnew ⟨0, 6⟩ 5 9)
    ∧ dec .q 0x0A029270#32 none = some (.sqres ⟨1, 0⟩ 5 9 14 none)
    ∧ dec .q 0x0FC29270#32 none = some (.sqput ⟨1, 14⟩ 5 9 14 none)
    ∧ dec .q 0x12C29270#32 none = some (.sqcmt ⟨1, 6⟩ 5 9 14 none)
    ∧ dec .q 0x14229201#32 none = some (.sqlen ⟨0, 1⟩ 5 9 1)
    ∧ dec .q 0x18A29270#32 none = some (.sqwait ⟨0, 5⟩ 5 9 14 none)
    ∧ dec .q 0x1F429270#32 none = some (.sqfork ⟨1, 10⟩ 5 9 14 none)
    ∧ dec .q 0x21400A00#32 none = some (.sqrel ⟨0, 10⟩ 5)
    ∧ dec .q 0x27829270#32 none = some (.sqget ⟨1, 12⟩ 5 9 14 none)
    ∧ dec .q 0x2BA60A48#32 none = some (.sqatt ⟨1, 13⟩ 3 5 9)
    ∧ dec .q 0x2E629270#32 none = some (.sqmrg ⟨1, 3⟩ 5 9 14)
    ∧ dec .q 0x31829203#32 none = some (.sqinfo ⟨0, 12⟩ 5 9 3) := by decide

/-! ## States for the witnesses -/

/-- Every slot's unguarded syllable runs in a state right after reset, and the guard `!p0` is false there: the hypothesis that the statements
about an instruction share. -/
theorem wit_guards : (∀ n < 8, State.reset.arch.guardOn n g0 = true) ∧ (∀ n < 8, State.reset.arch.guardOn n ⟨1, 0⟩ = false) := by decide

/-- The device with one micro-context at work on core 0, its code on page 0, and the words of `w` there. -/
def run (w : Nat) : State := State.reset.withFetchWord 64 w
/-- The same with registers of the continuation, and with values of its other fields. -/
def withS (l : SMap Word) (w : Nat := 0) : State := (run w).onArch (fun a => { a with s := l })
def withArch (f : Arch → Arch) : State := (run 0).onArch f

def theImage : BoardImage := ⟨[1, 2], (3, 4), (5, 6), [1], [2], [7, 8, 9], 2, 1, true, 9, 1, 1, 1, 1, 0, 0, 0, 0, false, false, false⟩

/-! ## Witnesses: encoding and steps -/

theorem wit_DecodeOfEncode : (Instr.add g0 1 2 3 3).slot = some .s ∧ (Instr.add g0 1 2 3 3).wellFormed = true
    ∧ (Instr.ld g0 1 2 2 1 1 0 (some 8)).slot = some .a ∧ (Instr.ld g0 1 2 2 1 1 0 (some 8)).wellFormed = true := by decide

theorem wit_EncodeOfDecode : decodeSyl .s 0x06618210#32 none = .ok (.add ⟨1, 3⟩ 3 1 2 0) := rfl

theorem wit_DecodeReasons : decodeSyl .b 0#32 none = .error 1 ∧ decodeSyl .s 0x04000004#32 none = .error 2
    ∧ decodeSyl .s 0x04000000#32 (some 0#32) = .error 3 ∧ decodeSyl .s 0x8C028000#32 none = .error 4
    ∧ decodeSyl .a 0x041F0000#32 none = .error 5 := ⟨rfl, rfl, rfl, rfl, rfl⟩

/-- An event that is done, and one that has to wait. -/
theorem wit_StepRunsEvent :
    let s : State := { State.reset with inbox := [.ev (.powerGood theImage)] }
    s.phase.lets (.ev (.powerGood theImage)) = true ∧ ∃ t : State, exec (.powerGood theImage) { s with inbox := [] } = .next t := by
  exact ⟨by decide, _, rfl⟩

/-- A property of the state that an outcome answers, and of what a fetch gives. -/
def nextAnd (o : Host.Outcome State Fault Refusal) (p : State → Bool) : Bool :=
  match o with
  | .next t => p t
  | _ => false
def fetchAnd (x : (Nat × Except FetchStop Bundle) × State) (p : Nat → Bundle → State → Bool) : Bool :=
  match x with
  | ((va, .ok b), s) => p va b s
  | _ => false

theorem nextAnd_elim {o : Host.Outcome State Fault Refusal} {p : State → Bool} (h : nextAnd o p = true) :
    ∃ t, o = .next t ∧ p t = true := by
  unfold nextAnd at h
  split at h
  · exact ⟨_, rfl, h⟩
  · simp at h

theorem fetchAnd_elim {x : (Nat × Except FetchStop Bundle) × State} {p : Nat → Bundle → State → Bool} (h : fetchAnd x p = true) :
    ∃ va b s, x = ((va, .ok b), s) ∧ p va b s = true := by
  unfold fetchAnd at h
  split at h
  · exact ⟨_, _, _, rfl, h⟩
  · simp at h

theorem wit_StepRunsSyllable :
    let s : State := run 0x04018410
    let i : Instr := .add g0 3 2 2 0
    s.inbox = [.core 0] ∧ s.phase = .ready ∧ Ready s 0
    ∧ ∃ (va : Nat) (b : Bundle) (s1 : State),
      ({ s with inbox := [], cur := 0, checked := false } : State).fetchAt 0 fetchFuel (s.coreAt 0).now.pc.toNat = ((va, .ok b), s1)
      ∧ (s1.coreAt 0).now.xfer = none ∧ b.syls = [(1, 0x04018410, i)]
      ∧ ((arrived s1 0 va b).coreAt 0).now.xfer = none ∧ ((arrived s1 0 va b).coreAt 0).now.noStep = false
      ∧ (∃ u, exec i (atBundle (arrived s1 0 va b) 0 b) = .next u ∧ u.verdict = .issued)
      ∧ (atBundle (arrived s1 0 va b) 0 b).heldBack 0 b = false
      ∧ ∃ t, exec i (issuing (arrived s1 0 va b) 0 b) = .next t ∧ (t.coreAt 0).now.queued ≤ 64 ∧ (t.coreAt 0).running = true := by
  intro s i
  refine ⟨by decide, by decide, by unfold Ready; decide, ?_⟩
  have h : fetchAnd (({ s with inbox := [], cur := 0, checked := false } : State).fetchAt 0 fetchFuel (s.coreAt 0).now.pc.toNat)
      (fun va b s1 => (s1.coreAt 0).now.xfer.isNone && b.syls == [(1, 0x04018410, i)]
        && ((arrived s1 0 va b).coreAt 0).now.xfer.isNone && !((arrived s1 0 va b).coreAt 0).now.noStep
        && nextAnd (exec i (atBundle (arrived s1 0 va b) 0 b)) (fun u => u.verdict == .issued) && !(atBundle (arrived s1 0 va b) 0 b).heldBack 0 b
        && nextAnd (exec i (issuing (arrived s1 0 va b) 0 b)) (fun t => decide ((t.coreAt 0).now.queued ≤ 64) && (t.coreAt 0).running))
      = true := by decide
  obtain ⟨va, b, s1, hf, hp⟩ := fetchAnd_elim h
  simp only [Bool.and_eq_true, Bool.not_eq_true', beq_iff_eq, Option.isNone_iff_eq_none] at hp
  obtain ⟨⟨⟨⟨⟨⟨h1, h2⟩, ha⟩, hb⟩, h3⟩, h4⟩, h5⟩ := hp
  obtain ⟨u, hu, hv⟩ := nextAnd_elim h3
  obtain ⟨t, ht, hw⟩ := nextAnd_elim h5
  simp only [Bool.and_eq_true, decide_eq_true_eq] at hw
  exact ⟨va, b, s1, hf, h1, h2, ha, hb, ⟨u, hu, by simpa using hv⟩, h4, t, ht, hw.1, hw.2⟩

/-- The state after a walk that succeeds, and its commit. -/
theorem wit_FetchReadsSyllable :
    let x := (run 0x04018410).xlateDo ((run 0x04018410).fetcher 0) 0 0 0 .execute
    let y := (run 0x04018410).codeAt 0 0
    x.1 = .ok false 0x500000 ∧ x.2.poisoned (0x500000 / 64 * 64) 64 = false
      ∧ (match y.1 with | .ok p => p == (false, 0x500000) | .error _ => false) = true
      ∧ rdNum y.2.mem 0x500000 4 = 2 ^ (Slot.s).num ∧ rdNum y.2.mem 0x500004 4 = 0x04018410 := by decide

/-- A page of a host frame. -/
theorem wit_FetchReadsSyllable_host :
    let s : State := { (run 0).onPart 0 (fun p => { p with hostBound := 0x1000000 }) with mem := wrNum (run 0).mem 0x400000 8 0x500099 }
    let x := s.xlateDo (s.fetcher 0) 0 0 0 .execute
    x.1 = .ok true 0x500000 ∧ x.2.hostErr = [] := by decide

/-- One with an extension word: MMULW.T of slot M; a BR with a target of CODEBASE, and its word in a delay bundle. -/
theorem wit_FetchReadsSyllable_ext :
    (let y := (run 0x0000005508102034).codeAt 0 0
     rdNum y.2.mem 0x500000 4 = 2 ^ (Slot.m).num + 2 ^ (8 + (Slot.m).num) ∧ rdNum y.2.mem 0x500004 4 = 0x08102034
      ∧ rdNum y.2.mem 0x500008 4 = 0x55)
    ∧ (let y := (run 0x04A01490).codeAt 0 0
       ((y.2.mcAt (y.2.coreAt 0).mc).codebase.toNat + ((y.2.coreAt 0).now.rdS 5).toNat + ((y.2.coreAt 0).now.rdS 9).toNat) % 4 = 0)
    ∧ delayOp 0x04A01490 = true ∧ delayOp 0x45802916 = false := by decide

theorem wit_StepKeepsMemories : MemInv State.reset ∧ MemInv (run 0x04018410)
    ∧ (∃ t, step { State.reset with inbox := [.clock] } = .next t) ∧ ∃ t, step (run 0x04018410) = .next t := by
  refine ⟨⟨by decide, by decide⟩, ⟨by decide, by decide⟩, ⟨_, rfl⟩, ?_⟩
  obtain ⟨t, h, _⟩ := nextAnd_elim (o := step (run 0x04018410)) (p := fun _ => true) (by decide)
  exact ⟨t, h⟩

/-! ## Witnesses: slots S, B -/

/-- A result of latency 3 before its landing, at it and after it. -/
theorem wit_Landings : State.reset.arch.fly = [] ∧ (1 : Nat) ≤ 3 ∧ (2 : Nat) < 3 ∧ (3 : Nat) ≤ 3
    ∧ ∃ (a : Arch) (x y : Landing), a.fly = [y, x] ∧ x.remain ≤ 1 ∧ y.remain ≤ 1 ∧ x.w = .s 1 5 ∧ y.w = .s 1 6 ∧ x.slot < y.slot :=
  ⟨by decide, by decide, by decide, by decide, { fly := [⟨1, 2, 1, 0, .s 1 6⟩, ⟨1, 1, 0, 0, .s 1 5⟩] }, ⟨1, 1, 0, 0, .s 1 5⟩,
    ⟨1, 2, 1, 0, .s 1 6⟩, rfl, by decide, by decide, rfl, rfl, by decide⟩

theorem wit_GuardedOff : (Instr.add ⟨1, 0⟩ 1 2 3 0).slot = some .s ∧ guardOf ((encode (.add ⟨1, 0⟩ 1 2 3 0)).headD 0) = ⟨1, 0⟩
    ∧ (Instr.xtag ⟨1, 0⟩ 1 0 none).slot = some .x := by decide

theorem wit_FloatingPoint : (4#3).toNat ≤ 4 ∧ (0#3).toNat ≤ 4 ∧ condFp 13 = true ∧ condFp 5 = true ∧ (12#5).toNat ≤ 12 := by decide

theorem wit_Rounding : (1 < 2 ^ FFmt.fp16.width ∧ (FFmt.fp16.decode 1).isNaN = false)
    ∧ (FFmt.fp32.round .rdn false (.fin true 1 3 0)).2 &&& fOF = 0
    ∧ (FFmt.fe4m3.round .rne false (.fin false 5 8 0)).2 &&& fOF = 0 := by decide

/-- A target that is a multiple of 4 and one that is not, for each branch. -/
theorem wit_ControlTransfers : let s := withS [(1, 0x40), (2, 0x42)]
    (s.curMc.codebase + BitVec.ofNat 72 ((s.arch.rdS 1).toNat + (s.arch.rdS 0).toNat)).toNat % 4 = 0
    ∧ (s.curMc.codebase + BitVec.ofNat 72 ((s.arch.rdS 1).toNat + (s.arch.rdS 2).toNat)).toNat % 4 ≠ 0
    ∧ (s.curMc.codebase + (s.arch.rdS 2).zeroExtend 72).toNat % 4 ≠ 0 ∧ s.checked = false
    ∧ (s.onCoreAt 0 (fun x => { x with bsk := 1, bnext := 0xC })).core.bsk > 0
    ∧ (s.onCoreAt 0 (fun x => { x with bsk := 1, bnext := 0xC })).peekCode 0 0 0xC ≠ some lineEnd := by decide

theorem wit_HardwareLoops :
    (∃ s : State, s.ending = some 0) ∧ (∃ a : Arch, a.sk ≠ 0) ∧ (∃ a : Arch, a.xfer.isSome = true)
    ∧ ∃ a : Arch, a.sk = 0 ∧ a.xfer = none ∧ (a.loopAt 1).active = true ∧ (a.loopAt 1).lend = a.last ∧ (a.loopAt 2).active = false
      ∧ (a.loopAt 3).active = false ∧ 1 < (a.rdLc 1).toNat :=
  ⟨⟨{ ending := some 0 }, rfl⟩, ⟨{ sk := 1 }, by decide⟩, ⟨{ xfer := some ⟨.retire, 0, false, false⟩ }, rfl⟩,
    { loops := [(1, ⟨true, none, 4, 8⟩)], last := 8, lc := [(1, 2)] }, by decide⟩

/-- The bundle that starts a loop and is its end bundle, and one at which no loop ends. -/
theorem wit_HardwareLoops_start : (∃ a : Arch, a.sk = 0 ∧ a.xfer = none ∧ (a.loopAt 1).active = true ∧ (a.loopAt 1).lend = a.last
      ∧ a.started = some 1)
    ∧ ∃ a : Arch, a.sk = 0 ∧ a.xfer = none ∧ ∀ n < 4, (a.loopAt n).active = false :=
  ⟨⟨{ loops := [(1, ⟨true, none, 8, 8⟩)], last := 8, lc := [(1, 2)], started := some 1 }, by decide⟩, {}, by decide⟩

/-- The last turn of two nested loops, of which the higher number counts. -/
theorem wit_HardwareLoops_last : ∃ a : Arch, (a.loopAt 0).active = true ∧ (a.loopAt 0).lend = a.last ∧ (a.loopAt 3).active = true
    ∧ (a.loopAt 3).lend = a.last ∧ (a.rdLc 3).toNat ≤ 1 ∧ a.sk = 0 ∧ a.xfer = none :=
  ⟨{ loops := [(0, ⟨true, none, 0, 8⟩), (3, ⟨true, none, 4, 8⟩)], last := 8, lc := [(0, 2), (3, 1)] }, by decide⟩

/-- The state of a micro-context with four frame slots and two stages, and fence counter 7 allocated to its partition. -/
def busy (f : Arch → Arch) : State :=
  let s := withArch f
  { s with
    mcs := SMap.set {} s.mcs 0 { s.mcAt 0 with frames := 4, stages := 2, tileq := 2 }
    fences := [(7, { alloc := true, value := 5 })] }

/-- The descriptor that a SUSP reads, and the state after the read. -/
def readAnd (x : DescRead × State) (p : SuspDesc → State → Bool) : Bool :=
  match x with
  | (.ok d, s) => p d s
  | _ => false

theorem readAnd_elim {x : DescRead × State} {p : SuspDesc → State → Bool} (h : readAnd x p = true) :
    ∃ d s, x = (.ok d, s) ∧ p d s = true := by
  unfold readAnd at h
  split at h
  · exact ⟨_, _, rfl, h⟩
  · simp at h

/-- The state at the end of the delay cycle of the transfer that `t` has begun. -/
def afterDelay (t : State) : State := t.onArch (fun a => { a with xfer := a.xfer.map (fun k => { k with done := true }) })

/-- What `Delayed` asks, in a form that evaluates. -/
def delayed (t u : State) : Bool :=
  let x := t.core
  let y := u.coreAt t.cur
  y.running && y.mc == x.mc && y.fslot == x.fslot && y.now.xfer == x.now.xfer.map (fun k => { k with done := true })
    && y.now.quiet && y.now.fences.isEmpty && !u.frameAsleep y.mc y.fslot

theorem delayed_elim {t u : State} (h : delayed t u = true) : Delayed t u := by
  unfold delayed at h
  simp only [Bool.and_eq_true, beq_iff_eq, List.isEmpty_iff, Bool.not_eq_true'] at h
  obtain ⟨⟨⟨⟨⟨⟨h1, h2⟩, h3⟩, h4⟩, h5⟩, h6⟩, h7⟩ := h
  exact ⟨h1, h2, h3, h4, h5, h6, h7⟩

/-- The descriptor reads, and each form's completion is reached: kinds 0 to 3, of which 1 waits on counter 7 at 4,096 (above its value)
and 2 on 5 (its value); the barrier is idle. -/
theorem wit_Suspends : let s := busy (fun a => { a with s := [(1, 7), (2, 4096)] })
    let off := BitVec.ofNat 32 (s.codeOff s.core.mc 0x40)
    s.arch.countersZero = true ∧ s.arch.descAsleep = false ∧ (s.arch.pc + (BitVec.signExtend 72 (16#32)) * 4).toNat = 0x40
    ∧ FenceOk s (s.arch.rdS 1) ∧ 1 ≤ (s.arch.rdS 2).toNat ∧ (s.arch.rdS 2).toNat ≤ 4096 ∧ (s.arch.rdS 1).toNat ≤ 15
    ∧ ∃ d t, s.suspRead s.cur 0x40 = (.ok d, t)
      ∧ (∀ k ∈ ([(0, 0, 0), (1, 7, 4096), (2, 7, 4096), (3, 7, 4096)] : List (Nat × Nat × Word32)),
          Delayed (t.transfer (.susp off k.1 k.2.1 k.2.2 (some d))) (afterDelay (t.transfer (.susp off k.1 k.2.1 k.2.2 (some d)))))
      ∧ (SMap.get {} (t.bindAt (t.contAt s.curKey).bind).bars 7).count = 0 := by
  intro s off
  have h : readAnd (s.suspRead s.cur 0x40) (fun d t =>
      ([(0, 0, 0), (1, 7, 4096), (2, 7, 4096), (3, 7, 4096)] : List (Nat × Nat × Word32)).all (fun k =>
        delayed (t.transfer (.susp off k.1 k.2.1 k.2.2 (some d))) (afterDelay (t.transfer (.susp off k.1 k.2.1 k.2.2 (some d)))))
      && (SMap.get {} (t.bindAt (t.contAt s.curKey).bind).bars 7).count == 0) = true := by decide +kernel
  obtain ⟨d, t, hr, hp⟩ := readAnd_elim h
  simp only [Bool.and_eq_true, List.all_eq_true, beq_iff_eq] at hp
  refine ⟨by decide, by decide, by decide, ?_, by decide, by decide, by decide, d, t, hr, fun k hk => delayed_elim (hp.1 k hk), hp.2⟩
  unfold FenceOk
  decide

/-- The turn of a YIELD, with another RUNNABLE continuation and without one; and a RETIRE whose delay cycle is over. -/
theorem wit_Suspends_yield :
    (let s := busy id
     let u : State := { afterDelay (s.transfer .yield) with conts := [(2, { state := .runnable })] }
     let z := u.coreAt s.cur
     z.now.xfer = some ⟨.yield, s.arch.pc, true, false⟩ ∧ z.running = true ∧ z.mc = s.core.mc ∧ z.fslot = s.core.fslot ∧ z.fslot < 4096
     ∧ z.late = [] ∧ z.retry = none ∧ u.frameAsleep z.mc z.fslot = false ∧ u.opsOf z.mc z.fslot = []
     ∧ u.otherRunnable s.cur = true ∧ (afterDelay (s.transfer .yield)).otherRunnable s.cur = false)
    ∧ (let s := busy id
       Delayed (s.transfer .retire) (afterDelay (s.transfer .retire)) ∧ (afterDelay (s.transfer .retire)).opsOf s.core.mc s.core.fslot = []) :=
  ⟨by decide, delayed_elim (by decide), by decide⟩

/-- A counter that is not 0, a descriptor with a reserved bit, and the registers that FENCE_ACCESS and BAD_BARRIER refuse. -/
theorem wit_Suspends_counter : (let s := busy (fun a => { a with sqo := 1 })
     s.arch.countersZero = false ∧ s.checked = false ∧ (match (s.suspRead s.cur 0x40).1 with | .fault _ => false | _ => true) = true)
    ∧ (let s : State := { busy (fun a => { a with s := [(1, 0x10000), (2, 4097)] }) with mem := wrNum (busy id).mem 0x500040 64 (2 ^ 512 - 1) }
       (match (s.suspRead s.cur 0x40).1 with | .bad => true | _ => false) = true ∧ s.arch.countersZero = true ∧ s.arch.descAsleep = false
       ∧ (s.arch.rdS 1).toNat > 65535 ∧ 4096 < (s.arch.rdS 2).toNat) := by decide +kernel

theorem wit_ReleasesIssue : let s := busy (fun a => { a with s := [(1, 7), (2, 0x10000), (3, 0x40)] })
    FenceOk s (s.arch.rdS 1) ∧ (s.arch.rdS 2).toNat > 65535 ∧ s.checked = false
    ∧ (s.bindAt s.core.bind).req = none ∧ (s.arch.rdS 3).toNat % 4 = 0 ∧ (1#4).toNat < s.curMc.stages.toNat
    ∧ s.freeSlot s.core.mc = some 0 := by
  unfold FenceOk
  decide

/-- A binding that serves a request, before its REQDONE and after it. -/
theorem wit_ReleasesIssue_request : let s (r : Bool) : State := { binds := [(0, { req := some ⟨0, 0, 0, 0, 0, none⟩, reqdone := r })] }
    (∀ r, ((s r).bindAt (s r).core.bind).req.isSome = true ∧ (s r).checked = false) ∧ ((s false).bindAt (s false).core.bind).reqdone = false
    ∧ ((s true).bindAt (s true).core.bind).reqdone = true := by decide

/-- `busy` with its frames, and an empty start-vector area, on the page at VA 0x10000, which is mapped. -/
def framed (f : Arch → Arch) : State :=
  let s := busy f
  { s with
    mem := wrNum s.mem 0x400008 8 0x510037
    mcs := SMap.set {} s.mcs 0 { s.mcAt 0 with framepool := 0x10000, startv := 0x10000 } }

/-- A SPAWN that goes on, one of an offset that is no multiple of 4, one of a stage that is not there, and one without a free slot. -/
theorem wit_ReleasesIssue_spawn : let s := framed (fun a => { a with s := [(3, 0x40), (4, 0x42)] })
    (s.arch.rdS 3).toNat < 2 ^ 32 ∧ (s.arch.rdS 3).toNat % 4 = 0 ∧ (1#4).toNat < s.curMc.stages.toNat ∧ s.spawnWaits = none
    ∧ (s.arch.rdS 4).toNat % 4 ≠ 0 ∧ s.curMc.stages.toNat ≤ (2#4).toNat
    ∧ (let u : State := { s with conts := (List.range 4).map (fun i => (contKey 0 i, { state := .runnable })) }
       u.freeSlot u.core.mc = none ∧ u.checked = false) := by decide +kernel

/-- A FINC that waits for an access, and one that nothing holds back. -/
def aFinc (after : List Nat) : Op :=
  { id := 9, kind := .finc, instr := .finc g0 1 0 none, core := 0, mc := 0, bind := 0, fslot := 0, slot := 0, x := [7, 3, 0],
    rel := true, after := after }
theorem wit_ReleaseApplies :
    (let s := { busy id with ops := [{ aFinc [] with id := 4, kind := .scalar }, aFinc [4]] }
     s.opAt 9 = some (aFinc [4]) ∧ (aFinc [4]).isRelease = true ∧ s.stillLive (aFinc [4]) [4] = true)
    ∧ (let s := { busy id with ops := [aFinc []] }
       s.opAt 9 = some (aFinc []) ∧ s.stillLive (aFinc []) [] = false ∧ (s.fenceAt 7).alloc = true
       ∧ (s.fenceAt 7).owner.toNat = (s.mcAt 0).part.toNat) := by decide

theorem wit_WaitsAndFences : let s := busy (fun a => { a with s := [(1, 7), (2, 5), (3, 6), (4, 1), (5, 4096)], ldo := 2 })
    (s.arch.ldo.toNat ≤ (2#4).toNat ∧ ¬ s.arch.ldo.toNat ≤ (1#4).toNat) ∧ s.checked = false ∧ s.arch.stall = .none ∧ FenceOk s (s.arch.rdS 1)
    ∧ s.arch.waitfDone (s.arch.rdS 1).toNat ((s.arch.rdS 2).truncate 32) = none
    ∧ ((s.fenceAt 7).value.toNat + 2 ^ 32 - ((s.arch.rdS 2).truncate 32 : Word32).toNat) % 2 ^ 32 < 2 ^ 31
    ∧ ¬ ((s.fenceAt 7).err = true ∨ ((s.fenceAt 7).value.toNat + 2 ^ 32 - ((s.arch.rdS 3).truncate 32 : Word32).toNat) % 2 ^ 32 < 2 ^ 31)
    ∧ 1 ≤ (s.arch.rdS 4).toNat ∧ (s.arch.rdS 5).toNat ≤ 4096 ∧ (SMap.get {} (s.bindAt s.core.bind).bars (3#4).toNat).count = 0 := by
  unfold FenceOk
  decide

/-- Stalls that have ended, and stalls whose conditions hold. -/
theorem wit_WaitsAndFences_stalls :
    (busy (fun a => { a with stall := .waitf 1 2 none (some (7, 5, true)) })).arch.waitfDone 7 5 = some true
    ∧ (busy (fun a => { a with stall := .gbar 3 9 true false })).arch.stall = .gbar 3 9 true false
    ∧ (let s := busy (fun a => { a with stall := .waitc 0 0 0 0 15, sqo := 9 })
       waitcOk (s.coreAt 0).now 0 0 0 0 15 = true)
    ∧ (let s := busy (fun a => { a with s := [(1, 7), (2, 5)], stall := .waitf 1 2 none none })
       (s.coreAt 0).now.stall = .waitf 1 2 none none ∧ (s.fenceAt 7).holds 5 = true) := by decide

/-- The registers that FENCE_ACCESS and BAD_BARRIER refuse, and a barrier at which another target has arrived. -/
theorem wit_WaitsAndFences_traps : let s := busy (fun a => { a with s := [(1, 0x10000), (2, 4)] })
    (s.arch.rdS 1).toNat > 65535 ∧ s.arch.waitfDone (s.arch.rdS 1).toNat 0 = none ∧ s.checked = false ∧ s.arch.stall = .none
    ∧ 4096 < (s.arch.rdS 1).toNat ∧ 1 ≤ (s.arch.rdS 2).toNat ∧ (s.arch.rdS 2).toNat ≤ 4096
    ∧ (let u : State := { s with binds := [(0, { bars := [(3, { count := 2, target := 5 })] })] }
       0 < (SMap.get {} (u.bindAt u.core.bind).bars (3#4).toNat).count
       ∧ (SMap.get {} (u.bindAt u.core.bind).bars (3#4).toNat).target ≠ (u.arch.rdS 2).toNat ∧ u.checked = false) := by decide

theorem wit_TrapsAndResumes : let s : State := { busy (fun a => { a with s := [(1, 2), (2, 4), (3, 1)] }) with
      conts := [(contKey 0 1, { state := .running }), (contKey 0 2, { state := .trapped, frozen := true })] }
    (s.arch.rdS 1).toNat < s.curMc.frames.toNat ∧ (s.contAt (contKey s.core.mc (s.arch.rdS 1).toNat)).state = .trapped
    ∧ (s.arch.rdS 2).toNat ≥ s.curMc.frames.toNat ∧ (s.arch.rdS 3).toNat < s.curMc.frames.toNat
    ∧ (s.contAt (contKey s.core.mc (s.arch.rdS 3).toNat)).state ≠ .trapped ∧ s.checked = false := by decide

theorem wit_TrapTaken : (7 : Nat) < 8 ∧ ({ cause := 127, reason := 15 } : Trap).cause < 128 ∧ ({ cause := 127, reason := 15 } : Trap).reason < 16 := by
  decide

theorem wit_SystemRegisters : (14#12).toNat ≤ 14 ∧ (16 ≤ (19#12).toNat ∧ (19#12).toNat ≤ 19)
    ∧ ¬ ((15#12).toNat ≤ 14 ∨ (16 ≤ (15#12).toNat ∧ (15#12).toNat ≤ 19))
    ∧ ¬ ((20#12).toNat ≤ 14 ∨ (16 ≤ (20#12).toNat ∧ (20#12).toNat ≤ 19)) ∧ State.reset.checked = false := by decide

/-! ## Witnesses: slot A -/

theorem wit_AddressArithmetic : ((withArch id).arch.rdT 9).valid = false
    ∧ ((withArch (fun a => { a with t := [(9, { valid := true, fmt := 2 })] })).arch.rdT 9).valid = true := by decide

theorem wit_ScalarAccessIssue : (withArch id).arch.ctr .ldo ≠ 255 ∧ (withArch (fun a => { a with sto := 254 })).arch.ctr .sto ≠ 255
    ∧ (withArch (fun a => { a with ldo := 255 })).arch.ldo = 255 ∧ (withArch (fun a => { a with sto := 255 })).arch.sto = 255
    ∧ (withArch id).checked = false := by decide

/-- Core 0 with the page at VA 0x10000 mapped for reading and writing, and an outstanding scalar access. -/
def access (i : Instr) (x : List Nat) : State :=
  let s := (busy (fun a => { a with ldo := 1, sto := 1 })).onCoreAt 0 (fun x => { x with savedOp := 10 })
  { s with mem := wrNum (wrNum s.mem 0x400008 8 0x510037) 0x510038 8 0x8070605040302010
           ops := [{ id := 9, kind := .scalar, instr := i, core := 0, mc := 0, bind := 0, fslot := 0, slot := 2, x := x, paths := 1 }]
           conts := [(0, { state := .running })] }

/-- What `Due` asks, in a form that evaluates. -/
def due (s : State) (n : Nat) (act : ScAct) : Option Op :=
  match s.opAt n with
  | none => none
  | some o =>
    if o.id == n && o.kind == .scalar && scAct o.instr == some act && !o.faulted && o.wait.isNone && !s.scalarEarlier o && !s.stillLive o o.after
      && s.committed o && s.onItsCore o then some o
    else none

theorem due_elim {s : State} {n : Nat} {act : ScAct} {o : Op} (h : due s n act = some o) : o.id = n ∧ Due s o act := by
  unfold due at h
  split at h
  · simp at h
  · rename_i o' ho
    split at h
    · rename_i hc
      injection h with h; subst h
      simp only [Bool.and_eq_true, beq_iff_eq, Bool.not_eq_true', Option.isNone_iff_eq_none] at hc
      obtain ⟨⟨⟨⟨⟨⟨⟨⟨h1, h2⟩, h3⟩, h4⟩, h5⟩, h6⟩, h7⟩, h8⟩, h9⟩ := hc
      exact ⟨h1, by rw [h1]; exact ho, h2, h3, h4, h5, h6, fun _ => h7, fun _ => h8, h9⟩
    · simp at h

/-- What `Reaches` asks of an operation that is due, and `p` of it. -/
def reaches (s : State) (n : Nat) (act : ScAct) (pa : Nat) (p : Op → State → Bool) : Bool :=
  match due s n act with
  | none => false
  | some o =>
    let x := s.xlateDo (s.agent o) o.mc o.id (o.x.getD 0 0) act.acc
    o.x.getD 0 0 % act.size == 0 && act.size != 0 && x.1 == .ok false pa && x.2.onItsCore o && p o x.2

theorem reaches_elim {s : State} {n : Nat} {act : ScAct} {pa : Nat} {p : Op → State → Bool} (h : reaches s n act pa p = true) :
    ∃ o s', o.id = n ∧ Reaches s s' o act pa ∧ p o s' = true := by
  unfold reaches at h
  split at h
  · simp at h
  · rename_i o ho
    simp only [Bool.and_eq_true, beq_iff_eq, bne_iff_ne, ne_eq] at h
    obtain ⟨⟨⟨⟨h1, h2⟩, h3⟩, h4⟩, h5⟩ := h
    exact ⟨o, _, (due_elim ho).1, ⟨(due_elim ho).2, h1, h2, Prod.ext h3 rfl, h4⟩, h5⟩

/-- What `CanPerform` asks, in a form that evaluates. -/
def performs (s : State) (n : Nat) (act : ScAct) (pa : Nat) : Bool :=
  reaches s n act pa (fun o s' => (s.tentative o.core none pa act.size).isNone && !s.poisoned pa act.size
    && ((s'.coreAt o.core).l1Find (pa / 64)).isNone)

theorem performs_elim {s : State} {n : Nat} {act : ScAct} {pa : Nat} (h : performs s n act pa = true) :
    ∃ o s', o.id = n ∧ CanPerform s s' o act pa := by
  obtain ⟨o, s', h1, h2, h3⟩ := reaches_elim h
  simp only [Bool.and_eq_true, Bool.not_eq_true', Option.isNone_iff_eq_none] at h3
  exact ⟨o, s', h1, h2, h3.1.1, h3.1.2, h3.2⟩

/-- A load, a store at the end of a line, an atomic and a CAS. -/
theorem wit_ScalarAccessCompletes :
    (∃ o s', o.id = 9 ∧ CanPerform (access (.ld g0 5 1 3 0 0 0 none) [0x10038]) s' o (.load 8 false 5) 0x510038)
    ∧ (∃ o s', o.id = 9 ∧ CanPerform (access (.lda g0 5 1 0 0) [0x10030]) s' o (.loadA 5) 0x510030)
    ∧ (∃ o s', o.id = 9 ∧ CanPerform (access (.st g0 5 1 3 0 0 none) [0x10038, 7]) s' o (.store 8) 0x510038)
    ∧ (∃ o s', o.id = 9 ∧ CanPerform (access (.amoAdd g0 5 1 2 1 0) [0x10038, 7]) s' o (.amo 8 0 (some 5)) 0x510038)
    ∧ (∃ o s', o.id = 9 ∧ CanPerform (access (.red g0 8 1 2 0 0) [0x10038, 7]) s' o (.amo 4 8 none) 0x510038)
    ∧ (∃ o s', o.id = 9 ∧ CanPerform (access (.cas g0 5 1 2 0 0) [0x10038, 7, 0x40302010]) s' o (.cas 4 5) 0x510038)
    ∧ 0x510038 % 64 + 8 ≤ 64 :=
  ⟨performs_elim (by decide), performs_elim (by decide), performs_elim (by decide), performs_elim (by decide), performs_elim (by decide),
    performs_elim (by decide), by decide⟩

/-- A load whose line the L1 holds under a lease, and a PREF. -/
theorem wit_ScalarAccessCompletes_l1 :
    (∃ o s', o.id = 9 ∧ Reaches ((access (.ld g0 5 1 3 0 0 0 none) [0x10038]).onCoreAt 0 (fun x =>
          { x with l1 := [⟨0x510038 / 64, List.replicate 64 7, 0, 12⟩] })) s' o (.load 8 false 5) 0x510038
      ∧ (match (s'.coreAt o.core).l1Find (0x510038 / 64) with
          | some l => decide ((s'.contAt (contKey o.mc o.fslot)).pts ≤ l.lease) | none => false) = true)
    ∧ (let s := access (.pref g0 1 3 0 none) [0x10038]
       (match due s 9 .pref with
        | some o => let x := s.xlatePref (s.agent o) o.mc o.id (o.x.getD 0 0)
                    x.1 == .ok false 0x510038 && x.2.onItsCore o && (s.tentative o.core none 0x510038 1).isNone
        | none => false) = true) :=
  ⟨by
    obtain ⟨o, s', h1, h2, h3⟩ := reaches_elim (s := (access (.ld g0 5 1 3 0 0 0 none) [0x10038]).onCoreAt 0 (fun x =>
      { x with l1 := [⟨0x510038 / 64, List.replicate 64 7, 0, 12⟩] })) (n := 9) (act := .load 8 false 5) (pa := 0x510038)
      (p := fun o s' => (match (s'.coreAt o.core).l1Find (0x510038 / 64) with
          | some l => decide ((s'.contAt (contKey o.mc o.fslot)).pts ≤ l.lease) | none => false)) (by decide)
    exact ⟨o, s', h1, h2, h3⟩, by decide⟩

theorem wit_ScalarAccessCompletes_misaligned : let s := access (.lda g0 5 1 0 0) [0x10008]
    (match s.opAt 9 with
     | some o => o.kind == .scalar && scAct o.instr == some (.loadA 5) && !o.faulted && o.wait.isNone && !s.scalarEarlier o
        && !s.stillLive o o.after && o.x.getD 0 0 % 16 != 0 && s.onItsCore o && s.committed o
     | none => false) = true := by decide

/-- Each answer of TALLOC. -/
theorem wit_TileHandles : let one : TDesc := { valid := true, rowsm1 := 0, rbm1 := 63 }
    (let s := busy (fun a => { a with t := [(9, one)] })
     (s.arch.rdT 9).valid = true ∧ (s.arch.rdT 9).clus = false ∧ s.checked = false ∧ s.core.remake = []
     ∧ ¬ (s.mcAt s.core.mc).tileq.toNat ≤ (s.arch.t.filter (fun e => e.2.valid)).length)
    ∧ (let want : TDesc := { clus := true, fmt := 2, rowsm1 := 15, rbm1 := 511 }
       let s := (busy id).onCoreAt 0 (fun y => { y with remake := [(want, 2, {}), (want, 0, want)] })
       (s.arch.rdT 9).valid = false ∧ s.core.remake = (want, 2, {}) :: [(want, 0, want)])
    ∧ (let s := busy (fun a => { a with t := [(1, one), (2, one)] })
       (s.arch.rdT 9).valid = false ∧ (s.mcAt s.core.mc).tileq.toNat ≤ (s.arch.t.filter (fun e => e.2.valid)).length)
    ∧ (let s := busy (fun a => { a with t := [(1, { one with rowsm1 := 7, rbm1 := 2047 })] })
       let want : TDesc := { fmt := 2, rowsm1 := 15, rbm1 := 511 }
       (s.arch.rdT 9).valid = false ∧ ¬ (s.mcAt s.core.mc).tileq.toNat ≤ (s.arch.t.filter (fun e => e.2.valid)).length
       ∧ want.units = 2 ∧ fits s.arch.privUsed 128 want.units 4 = true ∧ ∀ b < 4, fits s.arch.privUsed 128 want.units b = false)
    ∧ (let s := busy (fun a => { a with t := [(1, { one with rowsm1 := 255, rbm1 := 2047 })] })
       let want : TDesc := { fmt := 2, rowsm1 := 15, rbm1 := 511 }
       ∀ b < 130, fits s.arch.privUsed 128 want.units b = false) := by decide

/-- A CLUS tile behind one of two units, with the lowest entries of the table live: BASE 2 and entry 2. -/
theorem wit_TileHandles_clus :
    let want : TDesc := { clus := true, fmt := 2, rowsm1 := 15, rbm1 := 511 }
    let s := busy id
    let s := s.setCluster 0 { s.clusterAt 0 with
      tways := 4, tt := [(0, { live := true, base := 0, units := 2, rows := 16, rs := 512 }), (1, { live := true, base := 4, units := 1, rows := 1, rs := 64 })] }
    let q := s.clusterAt (clusterOfCore s.cur)
    s.reserved s.cur = [] ∧ s.core.remake = [] ∧ ¬ (s.mcAt s.core.mc).tileq.toNat ≤ (s.arch.t.filter (fun e => e.2.valid)).length
    ∧ (SMap.get {} q.tt 2).live = false ∧ (∀ j < 2, (SMap.get {} q.tt j).live = true)
    ∧ fits q.clusUsed (q.tways.toNat * 128) want.units 2 = true ∧ ∀ b < 2, fits q.clusUsed (q.tways.toNat * 128) want.units b = false := by
  decide +kernel

/-- Every entry of the tile table live. -/
theorem wit_TileHandles_table : ∃ k : Cluster, ∀ i < 4096, (SMap.get {} k.tt i).live = true := by
  refine ⟨{ tt := (List.range 4096).map (fun i => (i, { live := true })) }, ?_⟩
  intro i hi
  have h : ∀ (n a : Nat), i < a + n → a ≤ i →
      SMap.get {} ((List.range' a n).map (fun i => (i, ({ live := true } : TtEntry)))) i = { live := true } := by
    intro n
    induction n with
    | zero => intro a h1 h2; omega
    | succ n ih =>
      intro a h1 h2
      simp only [List.range'_succ, List.map_cons, SMap.get]
      by_cases ha : a = i
      · simp [ha]
      · have : ¬ i < a := by omega
        simp [ha, ih (a + 1) (by omega) (by omega)]
  rw [List.range_eq_range', h 4096 0 (by omega) (by omega)]

/-! ## Witnesses: slots V, M, X -/

theorem wit_VectorArithmetic : code 0 none ≤ 2 ∧ code 0 (vx 0 1 4 2) ≤ 2 ∧ (5 ≤ code 0 (vx 0 1 0 8) ∧ code 0 (vx 0 1 0 8) ≤ 8) := by decide

theorem wit_VectorBits : code 0 (vx 0 0 0 8) ≤ 8 ∧ count (code 0 (vx 0 0 0 11)) ≤ 32 ∧ 31 < count (code 0 (vx 0 0 0 11))
    ∧ count (code 0 none) ≤ 64 ∧ 255 < count (code 0 (vx 0 0 0 5)) := by decide

theorem wit_VectorSums : (5 ≤ code 0 (vx 0 0 0 5) ∧ sats (vx 0 0 0 5) = false) ∧ (1 ≤ code 0 (vx 0 0 0 7) ∧ code 0 (vx 0 0 0 7) ≤ 7)
    ∧ code 0 (vx 2 0 0 2) ≤ 2 := by decide

/-- A PRIV tile of 4 rows of 64 bytes and a CLUS tile of 8 rows that belongs to the binding, at handles 9 and 10, in format `f`. -/
def tiles (f : BitVec 4) (spec : Bool) (g : Arch → Arch) : State :=
  let s := busy (fun a => g { a with t := [(9, { valid := true, spectral := spec, fmt := f, rowsm1 := 3, rbm1 := 63 }),
    (10, { valid := true, clus := true, spectral := spec, fmt := f, rowsm1 := 7, rbm1 := 63, base := 2, tti := 3 })] })
  s.setCluster 0 { s.clusterAt 0 with tt := [(3, { live := true, base := 2, units := 1, rows := 8, rs := 64 })] }

theorem wit_VectorTiles : let s := tiles 0 false (fun a => { a with k := [(1, 4)] })
    (s.arch.rdT 9).valid = true ∧ (s.arch.rdT 9).clus = false ∧ (s.arch.rdT 10).valid = true ∧ (s.arch.rdT 10).clus = true
    ∧ (s.arch.rdT 11).valid = false ∧ s.checked = false ∧ s.arch.pw = [] ∧ s.arch.ctr .ldo ≠ 255 := by decide

/-- An uncorrectable unit in row 1 of the PRIV tile: a load of that row meets it, a load of row 0 does not. -/
theorem wit_VectorTiles_bad : let s := tiles 0 false (fun a => { a with badPriv := [1] })
    (s.windowBad s.cur (s.arch.rdT 9) 1 0 1).isSome = true ∧ s.windowBad s.cur (s.arch.rdT 9) 0 0 1 = none
    ∧ (s.gatherBad s.cur (s.arch.rdT 9) (vBytes 0x400) 1).isSome = true ∧ s.gatherBad s.cur (s.arch.rdT 9) (vBytes 0) 1 = none := by decide +kernel

/-- A mask of one lane. -/
theorem wit_VectorTiles_lane : (2 : Nat) < 64 ∧ ∀ l < 64, (4 : Word).getLsbD l = true ↔ l = 2 := by
  refine ⟨by decide, fun l _ => ?_⟩
  rw [show (4 : Word) = BitVec.twoPow 64 2 from by decide]
  simp only [BitVec.getLsbD_twoPow, Bool.and_eq_true, decide_eq_true_eq]
  omega

/-- A store to the CLUS tile of `tiles`, and a load of a tile that the binding does not have. -/
def tileOp (i : Instr) (x : List Nat) (t : TDesc) (n : Nat := 256) : State :=
  let s := tiles 0 false (fun a => { a with ldo := 1, sto := 1 })
  { s with conts := [(0, { state := .running })]
           ops := [{ id := 9, kind := .tile, instr := i, core := 0, mc := 0, bind := 0, fslot := 0, slot := 3, x := x, hs := [(10, t)],
                     dat := List.replicate n (7 : Byte), paths := 2 }] }
def tileReady (s : State) (ok : Bool) : Bool :=
  match s.opAt 9 with
  | some o => o.kind == .tile && !o.faulted && !s.tileBlocked o && !s.pathBlocked o o.tilePcs && (s.tentTile o.core o.tile).isNone
      && s.onItsCore o && s.clusOk o.core o.mc o.bind o.tile == ok && o.tile.clus
      && decide (256 * o.tile.base.toNat + (o.tile.rows + 15) / 16 * o.tile.rs ≤ 2 ^ 19)
  | none => false

theorem wit_TileAccessCompletes :
    let t : TDesc := { valid := true, clus := true, rowsm1 := 7, rbm1 := 63, base := 2, tti := 3 }
    tileReady (tileOp (.vst g0 4 10 5 none) [7, 0, 0x8001] t) true = true
    ∧ tileReady (tileOp (.vld g0 4 10 5 none) [7, 0, 0x8001] t) true = true
    ∧ tileReady (tileOp (.vld g0 4 10 5 none) [7, 0, 0x8001] { t with tti := 4 }) false = true
    ∧ tileReady (tileOp (.vldx g0 4 10 5 none) [0, 0, 0x8001] t 512) true = true
    ∧ tileReady (tileOp (.vstx g0 4 10 5 none) [0, 0, 0x8001] t 512) true = true
    ∧ (let s := tileOp (.vldx g0 4 10 5 none) [0, 0, 0x8001] t 512
       s.windowBad 0 t 0 0 0x8001 = none ∧ s.gatherBad 0 t (List.replicate 256 (7 : Byte)) 0x8001 = none)
    ∧ (List.replicate 256 (7 : Byte)).length = 256 ∧ (List.replicate 512 (7 : Byte)).length = 512
    ∧ t.clus = true ∧ 256 * t.base.toNat + (t.rows + 15) / 16 * t.rs ≤ 2 ^ 19 :=
  ⟨by decide, by decide, by decide, by decide, by decide, by decide +kernel, List.length_replicate, List.length_replicate, by decide, by decide⟩

theorem wit_PassReady : PassReady (tiles 5 false id) false 9 (some 10) 0 0x55 1 ∧ PassReady (tiles 10 true id) true 9 (some 10) 0 0xAA 1
    ∧ PassReady (tiles 5 false id) false 9 none 3 0x55 1 := by
  refine ⟨⟨by decide, by decide, by decide, by decide, by decide, by decide, ?_, by decide⟩,
    ⟨by decide, by decide, by decide, by decide, by decide, by decide, ?_, by decide⟩,
    ⟨by decide, by decide, by decide, by decide, by decide, by decide, by simp, by decide⟩⟩ <;>
  · intro b hb
    cases Option.some.inj hb
    decide

/-- The shares in which a pass starts, waits its turn and may not run. -/
def inPen (m : PenMode) (c : Nat) (f : Arch → Arch) : State :=
  let s := tiles 5 false f
  let s := (s.setCoreAt c (s.coreAt 0))
  { s with cur := c, pens := [(0, { mode := m })] }

theorem wit_DeterministicPasses :
    (let s := inPen .sole 0 id
     s.penModeOf s.cur ≠ .fold ∧ s.arch.occ = 0 ∧ s.waitedOps s.cur = [] ∧ s.divisor s.cur = some 1 ∧ s.ops = [] ∧ s.checked = false
     ∧ s.arch.guardOn 4 ⟨1, 0⟩ = false ∧ s.clusOk s.cur s.core.mc s.core.bind (s.arch.rdT 9) = true
     ∧ s.clusOk s.cur s.core.mc s.core.bind (s.arch.rdT 10) = true ∧ wordOk false 0x15 = false)
    ∧ (let s := inPen .sole 0 (fun a => { a with zf := [(2, ⟨true, false, false⟩)] })
       s.arch.zAhead 2 = (true, false))
    ∧ (let s := inPen .fold 0 id
       s.penModeOf s.cur = .fold)
    ∧ (let s := inPen .sole 1 id
       s.penModeOf s.cur ≠ .fold ∧ s.divisor s.cur = none ∧ (s.arch.rdT 9).valid = true)
    ∧ (let s := inPen .pair 0 (fun a => { a with occ := 1 })
       s.divisor s.cur = some 2 ∧ 0 < s.arch.occ)
    ∧ ((inPen .sole 0 id).arch.rdT 11).valid = false := by decide

theorem wit_WaitedPasses : (let s := inPen .fold 3 id
     s.arch.tlo ≠ 255 ∧ (s.foldStall s.cur).isNone = true ∧ (s.divisor s.cur).isSome = true)
    ∧ (let s := inPen .quad 3 id
       s.arch.tlo ≠ 255 ∧ s.penModeOf s.cur ≠ .fold ∧ s.divisor s.cur = some 4) := by decide

/-- An outstanding MMULW into accumulator 1. -/
def aPass : Op := { id := 9, kind := .waited, instr := .mmulw g0 1 9 10 0 ⟨0, 0, 0x55⟩, core := 0, mc := 0, bind := 0, fslot := 0, slot := 4 }

/-- What `MayLand` asks, in a form that evaluates. -/
def mayLand (u : State) (o : Op) (k : Waited) : Bool :=
  let stat := u.statTable (clusterOfCore o.core) k.key
  u.ops == [o] && !u.pathBlocked o (o.waitedPcs k.key) && o.kind == .waited && o.waited == some k && k.phase == .share && k.began && !o.faulted && !o.asleep
    && u.onItsCore o && (u.coreAt o.core).now.occ == 0 && (u.coreAt o.core).now.passes.isEmpty && u.cores.all (fun e => e.2.undo.isEmpty)
    && stat.2.isNone && !statBad o.word k.key (o.stationary k.key stat.1) && (u.waitedTrap o).isNone

theorem mayLand_elim {u : State} {o : Op} {k : Waited} (h : mayLand u o k = true) : MayLand u o k := by
  unfold mayLand at h
  simp only [Bool.and_eq_true, beq_iff_eq, List.isEmpty_iff, Bool.not_eq_true', List.all_eq_true, Option.isNone_iff_eq_none] at h
  obtain ⟨⟨⟨⟨⟨⟨⟨⟨⟨⟨⟨⟨⟨⟨h1, h15⟩, h2⟩, h3⟩, h4⟩, h5⟩, h6⟩, h7⟩, h8⟩, h9⟩, h10⟩, h11⟩, h12⟩, h13⟩, h14⟩ := h
  exact ⟨h1, h15, h2, h3, h4, h5, h6, h7, h8, h9, h10, h11, h12, h13, h14⟩

/-- A pass of each form that has begun in its share, with the tiles of `tiles`: its stationary in the handle, and in a tensor. -/
theorem wit_WaitedPasses_land :
    (let k : Waited := { phase := .share, issued := 0, hold := 0, global := false, began := true, key := [0, 3, 0, 8, 64, 2, 0x55] }
     let s := inPen .sole 0 id
     let o : Op := { aPass with waited := some k, x := [0x55, 0, 0, 0], hs := [(9, s.arch.rdT 9), (10, s.arch.rdT 10)] }
     o.instr = .mmulw g0 1 9 10 0 ⟨0, 0, 0x55⟩ ∧ MayLand { s with ops := [o] } o k)
    ∧ (let k : Waited := { phase := .share, issued := 0, hold := 0, global := false, began := true, key := [1, 0, 0, 0x520000, 16, 64, 64, 0x55] }
       let s := inPen .sole 0 id
       let o : Op := { aPass with instr := .mmulwT g0 1 9 10 0 ⟨0, 0, 0x55⟩, waited := some k, x := [0x55, 0, 0, 0], hs := [(9, s.arch.rdT 9)] }
       MayLand { s with ops := [o] } o k) := by
  refine ⟨⟨rfl, mayLand_elim (by decide +kernel)⟩, mayLand_elim (by decide +kernel)⟩

theorem wit_Accumulators :
    (let s := inPen .sole 0 (fun a => { a with zf := [(2, ⟨true, false, false⟩)] })
     s.zBusy s.cur 1 = false ∧ (s.arch.zflag 2).valid = true ∧ (s.arch.zflag 1).valid = false ∧ s.checked = false)
    ∧ (let s : State := { inPen .sole 0 id with ops := [aPass] }
       s.zBusy s.cur 1 = true)
    ∧ (let s := inPen .sole 0 (fun a => { a with badAcc := [accAddr 2 0 64 / 64], zf := [(2, ⟨true, false, false⟩)] })
       (s.arch.zflag 2).valid = true ∧ (accTrap (badUnit s.arch.badAcc (accAddr 2 0 64) 256)).isSome = true
       ∧ accTrap (badUnit s.arch.badAcc (accAddr 2 1 64) 256) = none)
    ∧ (let w : Waited := { phase := .share, issued := 0, hold := 0, global := false }
       let s : State := { inPen .sole 0 id with ops := [{ aPass with waited := some w }] }
       ∃ o ∈ s.waitedOps s.cur, ∃ k, o.waited = some k ∧ k.phase = .share)
    ∧ (let s := inPen .sole 0 id
       ∀ o ∈ s.waitedOps s.cur, o.waited = none) :=
  ⟨by decide, by decide, by decide, ⟨{ aPass with waited := some { phase := .share, issued := 0, hold := 0, global := false } }, by decide, _, rfl, rfl⟩,
    by decide⟩

theorem wit_ReadsAccumulator :
    (let s := tiles 8 false (fun a => { a with zf := [(2, ⟨true, false, false⟩)] })
     (s.arch.rdT 9).fmt.toNat ≤ 11 ∧ (s.arch.rdT 9).fmt.toNat ≠ 9 ∧ (s.arch.zflag 2).valid = true
     ∧ ((s.arch.zflag 2).spectral = true ↔ (s.arch.rdT 9).fmt.toNat = 10 ∨ (s.arch.rdT 9).fmt.toNat = 11)
     ∧ s.arch.mport = 0 ∧ s.arch.tlo ≠ 255 ∧ (s.arch.zflag 1).valid = false ∧ s.checked = false)
    ∧ (let s := tiles 10 true (fun a => { a with zf := [(2, ⟨true, true, false⟩)], mport := 3 })
       ((s.arch.zflag 2).spectral = true ↔ (s.arch.rdT 9).fmt.toNat = 10 ∨ (s.arch.rdT 9).fmt.toNat = 11) ∧ 0 < s.arch.mport)
    ∧ (let s := tiles 8 false (fun a => { a with zf := [(2, ⟨true, false, false⟩)], badAcc := [accAddr 2 1 0 / 64] })
       (s.mrdBad 2 9 0 0 (4, 64) none).isSome = true ∧ s.mrdBad 2 9 2 0 (2, 64) none = none)
    ∧ ((tiles 8 false id).arch.guardOn 4 ⟨1, 0⟩ = false ∧ ((tiles 8 false id).arch.rdT 9).clus = false
       ∧ ((tiles 8 false id).arch.rdT 10).clus = true) := by decide +kernel

theorem wit_Transforms :
    (let s := tiles 0 false (fun a => { a with zf := [(2, ⟨true, true, false⟩)] })
     s.arch.xBusy = false ∧ (s.arch.rdT 9).fmt.toNat ≤ 2 ∧ (s.arch.zflag 2).valid = true ∧ (s.arch.zflag 2).spectral = true
     ∧ (s.waitedOps s.cur).any (fun o => o.zdest.1 == 2) = false ∧ (s.arch.rdT 9).clus = false ∧ (s.arch.rdT 10).clus = true
     ∧ (s.arch.rdT 9).spectral = false ∧ cvtPair 0 8 = true ∧ s.checked = false ∧ s.arch.guardOn 5 ⟨1, 0⟩ = false
     ∧ s.zBusy s.cur 2 = false)
    ∧ (let s := tiles 10 true id
       ((s.arch.rdT 9).fmt = 10 ∨ (s.arch.rdT 9).fmt = 11) ∧ (s.arch.rdT 9).spectral = true)
    ∧ (tiles 0 false (fun a => { a with xs := [{ id := 1, hs := [], instr := .xmov g0 9 10 none, addr := 0, op := .move, steps := 4,
                                                  st := 1, d := 4 }] })).arch.xBusy = true := by decide

/-! ## Witnesses: slots C and Q -/

/-- Registers and tiles for the commands: words of handles 9 to 12 and of a tensor, a control word with fence 7, and tiles of 4 rows of
1,032 bytes of FP32. -/
def commands (f : BitVec 4) (l : SMap Word) : State :=
  busy (fun a => { a with s := l, t := [(9, { valid := true, fmt := f, rowsm1 := 3, rbm1 := 1031 }),
    (10, { valid := true, fmt := f, rowsm1 := 3, rbm1 := 1031, base := 8 }), (11, { valid := true, rowsm1 := 3, rbm1 := 1031, base := 16 })] })

theorem wit_MovementCommands :
    let s := commands 8 [(1, 0x4000000000000009), (2, 0x30005), (3, 0x0000000700000000), (4, 0x5), (5, 0x0000000700010009),
      (6, 0x8000000100020000), (7, 0x0000000020000000), (8, 0x0000000000000040), (9, 0x0000000700000000)]
    s.arch.cpo ≠ 255 ∧ FenOk s 1 (s.arch.rdS 3) ∧ HandleEnd s (s.arch.rdS 1) ∧ TensorEnd (s.arch.rdS 2) ∧ TensorEnd (s.arch.rdS 4)
    ∧ ((s.arch.rdS 3).extractLsb' 48 16 = 0 ∧ (s.arch.rdS 3).extractLsb' 12 20 = 0)
    ∧ ((s.arch.rdS 5).extractLsb' 48 16 = 0 ∧ (s.arch.rdS 5).extractLsb' 28 4 = 0 ∧ (s.arch.rdS 5).extractLsb' 8 8 = 0
      ∧ (s.arch.rdT ((s.arch.rdS 5).truncate 8)).valid = true ∧ (s.arch.rdT ((s.arch.rdS 5).truncate 8)).fmt = 8)
    ∧ endOrigin (s.arch.rdS 4).toNat = 0
    ∧ ((s.arch.rdS 6).getLsbD 63 = true ∧ (s.arch.rdS 6).extractLsb' 48 15 = 0 ∧ (s.arch.rdS 6).extractLsb' 12 4 = 0)
    ∧ ((s.arch.rdS 7).extractLsb' 48 16 = 0 ∧ (s.arch.rdS 7).extractLsb' 0 16 = 0 ∧ ((s.arch.rdS 7).extractLsb' 16 16).toNat ≤ 8192)
    ∧ ((s.arch.rdS 9).extractLsb' 48 16 = 0 ∧ (s.arch.rdS 9).extractLsb' 0 32 = 0) := by
  unfold FenOk FenceOk HandleEnd TensorEnd
  decide

theorem wit_MovementCommands_ring :
    let s := commands 0 [(1, 0x4000000000000009), (2, 0x400000000000000A), (3, 0x00FF000000000000), (4, 0x80), (5, 0xFE)]
    let D := s.arch.rdT ((s.arch.rdS 1).truncate 8)
    let E := s.arch.rdT ((s.arch.rdS 2).truncate 8)
    HandleEnd s (s.arch.rdS 1) ∧ HandleEnd s (s.arch.rdS 2) ∧ (s.arch.rdS 3).extractLsb' 56 8 = 0 ∧ (s.arch.rdS 3).extractLsb' 12 4 = 0
    ∧ D.rowsm1 = E.rowsm1 ∧ D.rbm1 = E.rbm1 ∧ D.fmt = 0 ∧ E.fmt = 0 ∧ 1032 ≤ D.rb ∧ D.rows * D.rb ≤ 8192
    ∧ 0x80 ≤ (s.arch.rdS 4).toNat ∧ (s.arch.rdS 5).toNat ≤ 0xFE := by
  unfold HandleEnd
  decide

theorem wit_SequenceCommands :
    let s := commands 0 [(1, 9), (2, 0x4606), (3, 0xFFFFFFFF), (4, 0xFFFFFFFE00000000), (5, 0x0FFFFFFFFFFF), (6, 10), (7, 11)]
    s.arch.sqo ≠ 255 ∧ TileWord s (s.arch.rdS 1) ∧ SeqHandle (s.arch.rdS 4) ∧ (s.arch.rdS 3).toNat < 2 ^ 32 ∧ (s.arch.rdS 5).toNat < 2 ^ 44 := by
  unfold TileWord SeqHandle
  decide

/-- The shape word of SQNEW at the corners of its range. -/
def shapeOk (y : Nat) : Bool :=
  let sl := y / 2 ^ 12 % 16
  let ps := y / 2 ^ 8 % 16
  let cp := y % 32
  decide (y < 2 ^ 16) && (BitVec.ofNat 64 y).extractLsb' 5 3 == 0 && decide (4 ≤ sl) && decide (sl ≤ 12) && decide (ps ≤ 12)
    && decide (10 ≤ sl + ps) && decide (sl + ps ≤ 16) && decide (ps ≤ cp) && decide (cp ≤ ps + 13)
theorem wit_SequenceCommands_shapes : shapeOk 0x4606 = true ∧ shapeOk 0xC404 = true ∧ shapeOk 0x4C19 = true := by decide

/-- SQATT with a query in a tile. -/
theorem wit_SequenceCommands_tile :
    let s := commands 0 [(1, 9), (2, 10), (3, 11), (20, 10), (21, 0x0109), (22, 0x0000000100000000), (23, 0x0000013F00000000)]
    let P := s.arch.rdS 21
    let Q := s.arch.rdS 20
    let R := s.arch.rdS 22
    let Z := s.arch.rdS 23
    let par := s.arch.rdT (P.truncate 8)
    let qry := s.arch.rdT (Q.truncate 8)
    (5#4 : BitVec 4).zeroExtend 6 <<< 2 = (20 : SReg) ∧ SeqHandle (s.arch.rdS 1)
    ∧ TileWord s P ∧ TileWord s Q ∧ par.fmt = 0 ∧ 1032 ≤ par.rb ∧ P.toNat / 256 % 256 < par.rows ∧ 1 ≤ (Z.extractLsb' 40 4).toNat
    ∧ (Z.extractLsb' 40 4).toNat ≤ 3 ∧ qry.fmt.toNat ≤ 2 ∧ ((Z.extractLsb' 32 8).toNat + 1) * unitBytes qry.fmt.toNat ≤ qry.rb
    ∧ (R.extractLsb' 0 32).toNat ≤ (R.extractLsb' 32 32).toNat := by
  unfold TileWord SeqHandle
  decide

/-- SQATT with a query in v registers, and its last row. -/
theorem wit_SequenceCommands_vector :
    let s := commands 0 [(20, 0x8000000000000000), (21, 0x0309), (22, 0), (23, 0x0000017F00000000)]
    let P := s.arch.rdS 21
    let Q := s.arch.rdS 20
    let Z := s.arch.rdS 23
    TileWord s P ∧ P.toNat / 256 % 256 < (s.arch.rdT (P.truncate 8)).rows ∧ Q.getLsbD 63 = true ∧ (Q.extractLsb' 16 2).toNat ≤ 2
    ∧ Q.extractLsb' 0 6 ≠ 63 ∧ (Z.extractLsb' 32 8).toNat + 1 ≤ 2 * (256 / unitBytes (Q.extractLsb' 16 2).toNat) := by
  unfold TileWord
  decide

def mergeOk (s : State) (n : Nat) (v : Word) : Bool :=
  (s.arch.rdT (v.truncate 8)).valid && (s.arch.rdT (v.truncate 8)).fmt == 0 && decide (1032 ≤ (s.arch.rdT (v.truncate 8)).rb)
    && decide (v.toNat / 256 % 256 + n ≤ (s.arch.rdT (v.truncate 8)).rows)
theorem wit_SequenceCommands_merge : let s := commands 0 [(1, 0x030009), (2, 10), (3, 11)]
    (s.arch.rdS 1).toNat < 2 ^ 24 ∧ mergeOk s ((s.arch.rdS 1).toNat / 2 ^ 16 % 256 + 1) (s.arch.rdS 1) = true
    ∧ mergeOk s ((s.arch.rdS 1).toNat / 2 ^ 16 % 256 + 1) (s.arch.rdS 2) = true
    ∧ mergeOk s ((s.arch.rdS 1).toNat / 2 ^ 16 % 256 + 1) (s.arch.rdS 3) = true := by decide

/-! ## Witnesses: ends of cycles, engines, the Fold -/

/-- A pass in its last cycle of latency. -/
def lastPass : Pass := { id := 1, instr := .mmul g0 0 9 10 0 ⟨0, 0, 0x55⟩, addr := 0, hs := [9, 10], z := 0, age := 128, lat := 129, m := 1,
                         rows := 4, cols := 8, depth := 64, word := 0x55, acc := false, spec := false, stat := [], mov := {} }
/-- A readout of two rows of four bytes in its last cycle, a stream whose only step lands, and an accumulating pass over a sound
accumulator. -/
theorem wit_EndsOfCycles_landings :
    (let d : TDesc := { valid := true, rowsm1 := 3, rbm1 := 63 }
     let r : Readout := { id := 1, remain := 1, t := 9, dst := d, spectral := false, rows := 2, rbytes := 4, data := [(rowKey 0 0, 5), (rowKey 1 3, 6)] }
     let s : State := { withArch (fun a => { a with reads := [r] }) with ending := some 0 }
     s.ending = some 0 ∧ (s.coreAt 0).now.reads = [r] ∧ r.remain ≤ 1 ∧ r.dst.clus = false ∧ r.rows ≤ r.dst.rows ∧ r.rbytes ≤ r.dst.rb
     ∧ (s.coreAt 0).now.pw = [] ∧ s.opAt 9 = none)
    ∧ (let d : TDesc := { valid := true, rowsm1 := 3, rbm1 := 63 }
       let p : XPend := { remain := 1, k := 0, writes := [(3, 62, [7, 8])], lastk := true }
       let x : XStream := { id := 1, hs := [9], instr := .xfill g0 9 1 none, addr := 0, op := .fill, dst := d, steps := 1, st := 1, d := 4, age := 4,
                            pend := [p] }
       let s : State := { withArch (fun a => { a with xs := [x] }) with ending := some 0 }
       (s.coreAt 0).now.xs = [x] ∧ x.pend = [p] ∧ p.remain ≤ 1 ∧ p.fault = none ∧ x.reads ≤ x.age + 1 ∧ x.dst.clus = false
       ∧ p.writes = [(3, 62, [7, 8])] ∧ 3 < x.dst.rows ∧ 62 + ([7, 8] : List Byte).length ≤ x.dst.rb ∧ (s.coreAt 0).now.pw = [])
    ∧ (let p := { lastPass with acc := true }
       let s : State := { withArch (fun a => { a with passes := [p] }) with ending := some 0 }
       (s.coreAt 0).now.passes = [p] ∧ p.acc = true ∧ (s.coreAt 0).now.accBad p.z = none) := by decide +kernel

/-- A readout to the CLUS tile of `tiles`: two rows of four bytes. -/
theorem wit_EndsOfCycles_readout :
    let t : TDesc := { valid := true, clus := true, rowsm1 := 7, rbm1 := 63, base := 2, tti := 3 }
    let o : Op := { id := 9, kind := .readout, instr := .mrd g0 2 10 0 none, core := 0, mc := 0, bind := 0, fslot := 0, slot := 4, hs := [(10, t)],
                    st := [2, 4, 0], dat := [1, 2, 3, 4, 5, 6, 7, 8], paths := 2 }
    let s : State := { tiles 8 false (fun a => { a with tlo := 1 }) with ops := [o] }
    s.opAt o.id = some o ∧ o.kind = .readout ∧ o.faulted = false ∧ s.tileBlocked o = false ∧ s.pathBlocked o o.tilePcs = false
    ∧ s.tentTile o.core o.tile = none ∧ s.onItsCore o = true ∧ o.tile.clus = true ∧ s.clusOk o.core o.mc o.bind o.tile = true
    ∧ 2 ≤ o.tile.rows ∧ 4 ≤ o.tile.rb ∧ o.dat.length = 2 * 4 ∧ 256 * o.tile.base.toNat + (o.tile.rows + 15) / 16 * o.tile.rs ≤ 2 ^ 19 := by
  decide +kernel

theorem wit_EndsOfCycles :
    (let s : State := { withArch (fun a => { a with passes := [lastPass] }) with ending := some 0 }
     s.ending = some 0 ∧ (s.coreAt 0).now.passes = [lastPass] ∧ lastPass.badNow = false ∧ lastPass.age + 1 ≥ lastPass.lat ∧ lastPass.img = none
     ∧ (s.opAt 5).isNone = true)
    ∧ (let s : State := { run 0 with conts := [(0, { tick := 15 })] }
       (s.contAt (s.keyOf 0)).tick = 15)
    ∧ (let s : State := { tiles 8 false (fun a => { a with tlo := 1 }) with
          ops := [{ id := 9, kind := .readout, instr := .mrd g0 2 10 0 none, core := 0, mc := 0, bind := 0, fslot := 0, slot := 4 }] }
       match s.opAt 9 with
       | some o => (o.kind == .readout && !o.faulted && !s.tileBlocked o && !o.carried) = true
       | none => False) := by
  refine ⟨by decide, by decide, ?_⟩
  show (_ : Bool) = true
  decide

theorem wit_SuspensionsAndCheckpoints :
    (let d : SuspDesc := ⟨0x40, 1, 2, 3, 4⟩
     let s := withArch (fun a => { a with xfer := some ⟨.susp 0x40 0 0 0 (some d), 0, true, false⟩ })
     (s.coreAt 0).running = true ∧ (s.coreAt 0).now.xfer = some ⟨.susp 0x40 0 0 0 (some d), 0, true, false⟩ ∧ (s.coreAt 0).now.quiet = true
     ∧ (s.coreAt 0).now.fences = [] ∧ s.frameAsleep (s.coreAt 0).mc (s.coreAt 0).fslot = false)
    ∧ (let s := withArch (fun a => { a with xfer := some ⟨.retire, 0, true, false⟩ })
       (s.coreAt 0).running = true ∧ (s.coreAt 0).now.xfer = some ⟨.retire, 0, true, false⟩ ∧ (s.coreAt 0).now.quiet = true ∧ s.opsOf 0 0 = [])
    ∧ (let s := (run 0).onCoreAt 0 (fun x => { x with sinceCk := 8192, forced := true, commit := true })
       (s.coreAt 0).running = true ∧ (s.coreAt 0).retry = none ∧ (s.coreAt 0).now.ckpti.toNat ≤ (s.coreAt 0).sinceCk ∧ (s.coreAt 0).forced = true) := by
  decide

/-- An outstanding operation of core 0. -/
def anOp (k : OpKind) (i : Instr) (slot : Nat) : Op := { id := 9, kind := k, instr := i, core := 0, mc := 0, bind := 0, fslot := 0, slot := slot }
def withOp (o : Op) : State := { busy id with ops := [o], conts := [(0, { state := .running })] }

/-- A pass of a share whose turn has come, a copy, a sequence command, and a RING whose time is over. -/
theorem wit_EngineSteps :
    (let o : Op := { aPass with waited := some { phase := .share, issued := 0, hold := 0, global := false } }
     let s := withOp o
     s.opAt o.id = some o ∧ o.faulted = false ∧ o.asleep = false ∧ s.onItsCore o = true ∧ (s.coreAt o.core).now.occ = 0
     ∧ ∀ p ∈ s.ops, p.kind = .waited → p.core = o.core → o.id ≤ p.id)
    ∧ (let o := anOp .copy (.cpy g0 1 2 3 0 0 none) 6
       let s := withOp o
       s.opAt o.id = some o ∧ o.kind = .copy ∧ o.asleep = false ∧ s.onItsCore o = true)
    ∧ (let o := anOp .seq (.sqrel g0 2) 7
       let s := withOp o
       s.opAt o.id = some o ∧ o.kind = .seq ∧ s.onItsCore o = true) := by decide

/-- A pass that has begun in its share and is past its occupancy; a CSEG of no bytes and a SQLEN whose turn has come, both issued before the
checkpoint. -/
theorem wit_EngineSteps_ends :
    (let w : Waited := { phase := .share, issued := 0, hold := 0, global := false, began := true, key := [0, 3, 0, 8, 64, 2, 0x55] }
     let o : Op := { aPass with waited := some w }
     let s := withOp o
     s.opAt o.id = some o ∧ w.began = true ∧ (s.coreAt o.core).now.occ = 0 ∧ (s.coreAt o.core).now.passes = [])
    ∧ (let o : Op := { anOp .copy (.cseg g0 1 2 3 1) 6 with x := [0x80, 0, 0], aux := 1 }
       let s := (withOp o).onCoreAt 0 (fun x => { x with savedOp := 10 })
       s.opAt o.id = some o ∧ o.kind = .copy ∧ o.faulted = false ∧ o.asleep = false ∧ s.onItsCore o = true ∧ s.committed o = true
       ∧ o.aux = 1 ∧ o.x.getD 2 0 = 0) := by decide +kernel

/-- A SQLEN of entry 0 of the partition's handle table at device address 0x600000: generation 1, capacity code 6, CL 77. -/
theorem wit_EngineSteps_sqlen :
    let o : Op := { anOp .seq (.sqlen g0 1 2 0) 7 with x := [0, handleOf 0 1 6 0, 0], aux := 1 }
    let s := (withOp o).onCoreAt 0 (fun x => { x with savedOp := 10 })
    let s : State := { s with parts := [(0, { active := true, privBound := 0x1000000, htN := 1, htBase := 0x600000 })],
                              mem := wrNum (wrNum (busy id).mem 0x600000 8 0x0006000401000001) 0x60000C 4 77 }
    s.opAt o.id = some o ∧ o.kind = .seq ∧ o.faulted = false ∧ s.onItsCore o = true ∧ s.committed o = true ∧ o.aux = 1 ∧ o.st = []
    ∧ s.seqClear (s.seqPartNo o) = s
    ∧ (match s.handleCheck o o.seqHandle with | .ok e => e.cl == 77 | .error _ => false) = true := by decide +kernel

/-- The receive pool at VA 0x10000 of the page that `access` maps; its RINGTO is 5. -/
theorem wit_EngineSteps_ring :
    let o := anOp .copy (.ring g0 1 2 3) 6
    let s : State := { access (.ring g0 1 2 3) [] with ops := [o], rtc := 600000 }
    let s : State := { s.onMc 0 (fun m => { m with rxpool := 0x10000 }) with mem := wrNum s.mem 0x510019 1 5 }
    s.opAt o.id = some o ∧ o.asleep = false ∧ s.onItsCore o = true ∧ s.msgOf o = none ∧ (s.ringLate o).1 = .ok true := by decide +kernel

/-- A property of what a check answers. -/
def okAnd {α β : Type} (x : Except β α) (p : α → Bool) : Bool :=
  match x with
  | .ok a => p a
  | .error _ => false

theorem wit_EngineSteps_blocks :
    (let o : Op := { anOp .seq (.sqput g0 1 2 3 none) 7 with st := [4, 1024, 0, 5, 6] }
     let s := withOp o
     o.st = 4 :: 1024 :: 0 :: 5 :: [6] ∧ (s.clusterAt (clusterOfCore o.core)).blocks.length + 1 ≤ 64
     ∧ ∀ n ∈ [6], s.blkBad (s.seqPartNo o) n = false)
    ∧ (let o : Op := { anOp .seq (.sqput g0 1 2 3 none) 7 with st := [4, 1024, 3] }
       o.st = 4 :: 1024 :: 3 :: [] ∧ (3 : Nat) ≠ 0)
    ∧ (let o : Op := { anOp .seq (.sqput g0 1 2 3 none) 7 with st := [3, 1024] }
       let s := withOp o
       (∀ p ∈ s.ops, p.kind = .seq → p.st = [3, 1024] → p = o) ∧ (s.partAt 0).blockQ ≤ (s.partAt 0).blockU
       ∧ (let t : State := { s with parts := [(0, { active := true, blockQ := 4, blockU := 3 })] }
          (t.partAt 0).active = true ∧ (t.partAt 0).blockU < (t.partAt 0).blockQ))
    ∧ (let s : State := { run 0 with parts := [(0, { active := true, privBound := 0x1000000, blockQ := 4, blockU := 3, btN := 8, btBase := 0x600000 })],
                                     clusters := [(0, { rets := [(0, 5, 1024)] })], mem := wrNum (run 0).mem 0x600059 1 1 }
       (0, 5, 1024) ∈ (s.clusterAt 0).rets ∧ (s.partAt 0).blockU < (s.partAt 0).blockQ
       ∧ okAnd ((s.partAt 0).seqAddr ((s.partAt 0).btBase.toNat + 16 * 5)) (fun a => a == 0x600050) = true
       ∧ rdNum s.mem (0x600050 + 9) 1 ≠ 3 ∧ s.stackFenced (0x600050 + 9) = false ∧ 5 < (s.partAt 0).btN.toNat
       ∧ (∀ x ∈ s.clusters, ∀ y ∈ x.2.blocks, ¬ (y.1 = 0 ∧ y.2.1 = 5)) ∧ okAnd (s.blkAt (s.partAt 0) 5) (fun b => b.state == 1) = true) := by decide

/-- A group of one member, in each state of its life, on pen 0. -/
def group (due started : Option Nat) (pinned retried : Bool) : FGroup :=
  { id := 1, key := [1], members := [{ op := 9, rows := 4, deadline := 8 }], due := due, started := started, pinned := pinned, retried := retried,
    word := 0x55, height := 4 }
def fold (g : FGroup) (cyc : Nat) : State :=
  { (withOp aPass).setCluster 0 { cyc := cyc } with pens := [(0, { mode := .fold, groups := [g] })] }

theorem wit_FoldSteps :
    (let s := fold (group (some 8) none false false) 8
     s.foldNext 0 = some (group (some 8) none false false) ∧ s.pinRoom [] = true ∧ s.pinAhead 0 8 = false)
    ∧ (let s := fold (group none none false false) 8
       s.penOfGroup 1 = some 0 ∧ (s.penAt 0).groups = [group none none false false] ∧ (group none none false false).rows ≠ 128
       ∧ (∃ m ∈ (group none none false false).members, m.deadline ≤ 8))
    ∧ (let s := fold (group (some 8) none true false) 8
       s.foldNext 0 = some (group (some 8) none true false) ∧ s.arrayBusy 0 8 = false
       ∧ s.blockedBy (group (some 8) none true false) ((s.waiting 0).map (·.2)) = false)
    ∧ (let g := group (some 8) (some 8) true false
       let s : State := { fold g 136 with endingCl := some 0 }
       s.penOfGroup 1 = some 0 ∧ (s.penAt 0).groups.find? (·.id == 1) = some g ∧ g.landAt = some 136 ∧ (s.penAt 0).groups = [g]
       ∧ g.members = [{ op := 9, rows := 4, deadline := 8 }] ∧ s.ops = [aPass] ∧ (∀ e ∈ s.cores, e.2.undo = []) ∧ s.onItsCore aPass = true
       ∧ s.waitedTrap aPass = none)
    ∧ (let s := fold (group (some 8) (some 8) true false) 20
       s.groupHolding (fun x => x.id == 1 && x.started.isSome) = some (0, group (some 8) (some 8) true false) ∧ s.arrayBusy 0 20 = true)
    ∧ (let s := fold (group (some 8) (some 8) true false) 72
       s.groupHolding (fun x => x.id == 1 && x.started.isSome) = some (0, group (some 8) (some 8) true false) ∧ s.arrayBusy 0 72 = true)
    ∧ (let s := fold (group (some 8) (some 8) true true) 75
       s.groupHolding (fun x => x.id == 1 && x.started.isSome) = some (0, group (some 8) (some 8) true true) ∧ s.arrayBusy 0 75 = true
       ∧ s.arrayBusy 0 76 = false) := by decide +kernel

/-- Two due groups, each with a later member of the other's core and accumulator: neither is free of the other. -/
theorem wit_FoldSteps_stuck :
    let m (op : Nat) : FMember := { op := op, rows := 4, deadline := 8 }
    let g (i a b : Nat) : FGroup := { group (some 8) none true false with id := i, members := [m a, m b] }
    let op (n : Nat) (z : ZReg) : Op := { aPass with id := n, instr := .mmulw g0 z 9 10 0 ⟨0, 0, 0x55⟩ }
    let s : State := { fold (g 1 1 4) 8 with ops := [op 1 0, op 2 1, op 3 0, op 4 1], pens := [(0, { mode := .fold, groups := [g 1 1 4, g 2 2 3] })] }
    s.foldStuck 0 = true ∧ s.foldNext 0 = some (g 1 1 4) ∧ s.blockedBy (g 1 1 4) ((s.waiting 0).map (·.2)) = true
    ∧ s.arrayBusy 0 8 = false := by decide +kernel

theorem wit_FoldSteps_arrival :
    let w : Waited := { phase := .coming, issued := 6, hold := 0, global := false }
    let o : Op := { aPass with waited := some w }
    let s : State := { (withOp o).setCluster 0 { cyc := 8 } with pens := [(0, { mode := .fold })] }
    s.opAt o.id = some o ∧ w.issued + 2 ≤ (s.clusterAt 0).cyc ∧ o.faulted = false ∧ o.asleep = false ∧ o.kind0 = true
    ∧ ∃ k, (s.statKey o).1 = .ok k := ⟨by decide, by decide, by decide, by decide, by decide, _, rfl⟩

/-- Tensor 0 at the start of the page that `access` maps: tiled, of one tile of 16 rows of 64 INT8 elements, and its tile table. -/
def tensor0 : SMap Byte :=
  let m := wrNum (wrNum (wrNum (busy id).mem 0x400008 8 0x510037) 0x510010 4 0x00010205) 0x510014 4 0x00400010
  let m := wrNum (wrNum (wrNum (wrNum m 0x510018 8 0x100000040) 0x510020 8 0x1000000040) 0x510028 8 0x100000001) 0x510030 8 0x100000001
  wrNum (wrNum (wrNum (wrNum m 0x510038 8 0x100000001) 0x510060 8 0x10080) 0x510070 8 0x100000001) 0x510080 8 0x52000F
def tensorPass : Op := { aPass with
  instr := .mmulwT g0 1 9 10 0 ⟨0, 0, 0x55⟩, x := [0x55, 0], waited := some { phase := .coming, issued := 6, hold := 0, global := false } }

/-- One with a tensor stationary. -/
theorem wit_FoldSteps_translation :
    let s : State := { (withOp tensorPass).onMc 0 (fun m => { m with tensors := 0x10000 }) with
      mem := tensor0, parts := [(0, { (busy id).partAt 0 with grants := 1 })] }
    tensorPass.kind0 = false ∧ tensorPass.asleep = false ∧ s.opAt tensorPass.id = some tensorPass
    ∧ (match (s.statKey tensorPass).1 with | .ok _ => true | _ => false) = true := by decide +kernel

/-! ## Witnesses: freezes, check failures, packets -/

/-- A binding that holds pen 0 for micro-context 0, and a RUNNABLE continuation of it in frame slot 1. -/
def bound : State :=
  let s := busy id
  { (s.onMc 0 (fun m => { m with cores := 1, stages := 1, npmax := 5 })).onCoreAt 0 (fun x => { x with running := false }) with
    binds := [(0, { live := true, held := true, clusters := [0], pens := [[0]], stages := 1, cores := 1 })], conts := [(1, { state := .runnable })]
    rtc := 250000 }

theorem wit_FreezesAndResumes :
    (let s := (run 0).onCoreAt 0 (fun x => { x with freeze := .halt })
     (s.coreAt 0).running = true ∧ (s.coreAt 0).cyc = (s.clusterAt (clusterOfCore 0)).cyc ∧ (s.coreAt 0).freeze ≠ .none
     ∧ (s.coreAt 0).now.finishing = false ∧ (s.coreAt 0).late = [] ∧ (s.coreAt 0).stop = none)
    ∧ (let s := (run 0).onCoreAt 0 (fun x => { x with freeze := .halt })
       let cs := (s.cores.filter (fun e => e.2.running && e.2.mc == (s.coreAt 0).mc && e.2.bind == (s.coreAt 0).bind && e.2.freeze != .none
         && !e.2.now.finishing && e.2.late.isEmpty && e.2.stop.isNone)).map (·.1)
       cs = [0] ∧ (∀ d ∈ cs, s.freezeWaits d = false ∧ s.frameOff d = false ∧ s.foldPending d = false)
       ∧ (∀ d ∈ cs, (s.onArchAt 0 (fun a => { a with stall := .gbar 3 9 true false })).freezeWaits d = true)
       ∧ (∀ d ∈ cs, (s.nap 0 0).frameOff d = true)
       ∧ ∀ d ∈ cs, ({ s with ops := [{ aPass with waited := some { phase := .coming, issued := 0, hold := 0, global := false } }],
                             conts := [(0, { state := .running })] } : State).foldPending d = true)
    ∧ (let s : State := { busy id with conts := [(1, { state := .running, settling := true, home := 0 })] }
       s.conts.filter (fun e => e.2.settling && e.2.home == 0) = [(1, { state := .running, settling := true, home := 0 })]
       ∧ (s.carriedDone 1).binds = [])
    ∧ bound.noBinding = false ∧ (bound.coreAt 0).running = false ∧ bound.idlePlace 0 = some (0, 0) ∧ bound.waitingConts 0 0 = [1]
    ∧ (firstLate [⟨3, 0, 1, 2, 3, 0, 0, [], none⟩, ⟨2, 0, 5, 2, 3, 0, 0, [], none⟩] = some ⟨2, 0, 5, 2, 3, 0, 0, [], none⟩)
    ∧ (busy id).freeSlot 0 = some 0 ∧ ({ busy id with handlers := [⟨0, 1, 2, 0x40, none⟩] } : State).handlers = [⟨0, 1, 2, 0x40, none⟩]
    ∧ (let s : State := { busy id with conts := (List.range 4).map (fun i => (i, { state := .trapped })), handlers := [⟨0, 1, 2, 0x40, none⟩] }
       s.handlers = [⟨0, 1, 2, 0x40, none⟩] ∧ s.freeSlot 0 = none) := by decide

/-- Two continuations of `framed` with their frames on mapped pages: a handler for slot 1 in slot 0; a frame that is not mapped; and a
HALTED micro-context. -/
theorem wit_FreezesAndResumes_handler :
    let s (m : SMap Byte) : State := { framed id with mem := m, handlers := [⟨0, 1, 2, 0x40, none⟩] }
    let v (s : State) : State := (s.contReach 0 0).shepReach 0 .read (s.frameVa 0 1 + 272) 2 16
    let a := s (wrNum (framed id).mem 0x400108 8 0x510037)
    let b := s (framed id).mem
    a.freeSlot 0 = some 0 ∧ (a.mcAt 0).state ≠ .halted ∧ (v a).shepDown = none ∧ b.freeSlot 0 = some 0 ∧ (v b).shepDown ≠ none
    ∧ ((a.onMc 0 (fun m => { m with state := .halted })).mcAt 0).state = .halted := by decide +kernel

theorem wit_FreezesAndResumes_carried : let s := access (.ld g0 5 1 3 0 0 0 none) [0x10038]
    let o : Op := { anOp .scalar (.ld g0 5 1 3 0 0 0 none) 2 with x := [0x10038], carried := true }
    let t : State := { s with ops := [o] }
    t.opAt o.id = some o ∧ o.carried = true ∧ o.kind = .scalar ∧ ∃ u, Becomes (.scalarAccessComplete o.id) t u := by
  refine ⟨by decide, rfl, rfl, ?_⟩
  obtain ⟨u, h, _⟩ := nextAnd_elim (o := exec (.scalarAccessComplete 9) { access (.ld g0 5 1 3 0 0 0 none) [0x10038] with
    ops := [{ anOp .scalar (.ld g0 5 1 3 0 0 0 none) 2 with x := [0x10038], carried := true }] }) (p := fun _ => true) (by decide)
  exact ⟨u, h⟩

/-- A store that a freeze has carried: it is performed although its continuation holds no core. -/
theorem wit_FreezesAndResumes_store :
    let o : Op := { anOp .scalar (.st g0 5 1 3 0 0 none) 2 with x := [0x10038, 7], carried := true }
    let s : State := { access (.st g0 5 1 3 0 0 none) [] with ops := [o] }
    s.opAt o.id = some o ∧ o.carried = true ∧ scAct o.instr = some (.store 8) ∧ o.faulted = false ∧ o.wait = none ∧ s.scalarEarlier o = false
    ∧ s.stillLive o o.after = false ∧ s.destAsleep o = false ∧ o.x.getD 0 0 % 8 = 0 ∧ 0x510038 % 64 + 8 ≤ 64
    ∧ (s.xlateDo (s.agent o) o.mc o.id (o.x.getD 0 0) .write).1 = .ok false 0x510038 ∧ s.tentative o.core none 0x510038 8 = none
    ∧ s.poisoned 0x510038 8 = false := by decide +kernel

/-- A core that re-executes, one that does not, and an operation of an engine. -/
theorem wit_CheckFailures : ((run 0).coreAt 0).running = true ∧ ((run 0).coreAt 0).retry = none ∧ (((run 0).onCoreAt 0 (fun x => { x with retry := some 5 })).coreAt 0).retry ≠ none
    ∧ rollsBack 4 = false
    ∧ (let o := anOp .copy (.cpy g0 1 2 3 0 0 none) 6
       (withOp o).opAt 9 = some o ∧ o.faulted = false)
    ∧ (SMap.get {} (run 0).banks (7 % 40) : Bank).valid = false := by decide

/-- An L1 with a line, one cached translation that a core reaches, no block pool, and a pool whose one block holds line 2^18. -/
theorem wit_CheckFailures_caches :
    ((run 0).onCoreAt 0 (fun x => { x with l1 := [⟨5, [], 0, 0⟩] })).core.l1 ≠ []
    ∧ (let e : TlbEntry := { cl := 0, core := some 0, mc := 0, vpn := 1, leaf := 2, home := 3 }
       let s : State := { run 0 with tlb := [e, { e with core := some 1 }, { e with cl := 4096 }] }
       ∀ d, d ∈ s.tlb.filter (fun d => d.op == 0 && d.cl == clusterOfCore 0 && (d.core == none || d.core == some 0)) ↔ d = e)
    ∧ (run 0).pools = []
    ∧ (let s : State := { run 0 with pools := [(0, some ⟨0, 65536, [(7, 0x1000000, 16)]⟩)] }
       (s.partAt 0).privBase.toNat + 0x1000000 ≤ 64 * 2 ^ 18 ∧ 64 * 2 ^ 18 < (s.partAt 0).privBase.toNat + 0x1000000 + 2 ^ 16)
    ∧ rollsBack 3 = true ∧ ((run 0).onCoreAt 0 (fun x => { x with retry := some 5, retrySrc := 3 })).core.retry ≠ none := by
  refine ⟨by decide, ?_, rfl, by decide, by decide, by decide⟩
  intro e s d
  have h : s.tlb.filter (fun d => d.op == 0 && d.cl == clusterOfCore 0 && (d.core == none || d.core == some 0)) = [e] := by decide
  rw [h, List.mem_singleton]

/-! ## Witnesses: the Shepherd, segments -/

/-- A READY micro-context with one request and one core, and the rest of the device idle. -/
def ready : State :=
  ({ busy id with selDue := 1 } : State).onMc 0 (fun m => { m with
    state := .ready, stages := 1, cores := 1, rqtail := 1, rqlog := 4, rqbase := 0x10000, startv := 0x10800, framepool := 0x12000 })
/-- The reservation of pen 0 of cluster 0 for it. -/
def reserve (rebind : Option Nat) : Reserve := ⟨0, rebind, [0], [[0]]⟩

theorem wit_ShepherdSteps : ready.noBinding = false ∧ ready.selDue ≠ 0 ∧ bound.selDue = 0 ∧ ready.selected = some 0 ∧ ready.nextWork 0 = some none
    ∧ ready.placeFree (ready.shapeOf 0 none) = some [(0, [0])] := by decide +kernel

/-- A new binding that launches at once: its request entry is readable. -/
theorem wit_ShepherdSteps_new : let s : State := { ready with reserves := [reserve none], mem := wrNum ready.mem 0x400008 8 0x510037 }
    s.reserves = [reserve none] ∧ s.resFreezing (reserve none) = true ∧ (s.mcAt 0).state = .ready ∧ s.nextWork 0 = some none
    ∧ s.resFree (reserve none) = true ∧ ((s.bindNew (reserve none)).bindAt s.nextBind).live = true := by decide +kernel

theorem wit_ShepherdSteps_wait :
    (let s : State := { ready with reserves := [reserve none], binds := [(5, { live := true, held := true, pre := true, pens := [[0]] })] }
     s.resFreezing (reserve none) = true ∧ s.resFree (reserve none) = false ∧ s.nextWork 0 = some none)
    ∧ (let s : State := { ready with reserves := [reserve (some 5)], binds := [(5, { live := true, launching := true })] }
       s.resFreezing (reserve (some 5)) = true ∧ s.resFree (reserve (some 5)) = true ∧ (s.bindAt 5).launching = true)
    ∧ (let s : State := { ready with reserves := [reserve (some 5)], binds := [(5, { live := true })] }
       s.resFree (reserve (some 5)) = true ∧ (s.bindAt 5).live = true ∧ (s.bindAt 5).launching = false ∧ (s.bindAt 5).held = false)
    ∧ ((bound.bindAt 0).live = true ∧ (bound.bindAt 0).held = true ∧ (bound.bindAt 0).pre = false
       ∧ (bound.bindAt 0).sliceAt + 1000 * bound.slice.toNat ≤ bound.rtc.toNat ∧ bound.wantedBy 0 = none
       ∧ (bound.bindAt 0).boundat + 10000 * (bound.mcAt 0).npmax.toNat ≤ bound.rtc.toNat)
    ∧ (let s : State := { bound with reserves := [⟨1, none, [0], [[0]]⟩] }
       s.wantedBy 0 ≠ none ∧ s.npHeld 0 = false)
    ∧ ({ bound with conts := [] } : State).bindDone 0 = true := by decide

/-- A continuation that waits keeps its slot, and a free one is another. -/
theorem wit_ShepherdSteps_waiting : let s : State := { busy id with conts := [(0, { state := .waiting })], binds := [(0, { live := true })] }
    (s.contAt 0).state = .waiting ∧ 0 / 4096 = (s.bindAt 0).mc ∧ (s.contAt 0).bind = 0 ∧ s.freeSlot 0 = some 1 := by decide

/-- A rebinding that waits for carried accesses, one that can go on, and one whose start-vector area is not mapped. -/
theorem wit_ShepherdSteps_rebinding :
    let s (u : State) : State := { u with reserves := [reserve (some 5)], binds := [(5, { live := true, stages := 1, cores := 1, startv := 0x10000 })] }
    ({ s (busy id) with conts := [(0, { bind := 5, settling := true })] } : State).settles 5 = true ∧ (s (framed id)).settles 5 = false
    ∧ ((s (framed id)).groupReach 5 (((s (framed id)).rebindCores 5 (reserve (some 5))).map (·.2))).shepDown = none
    ∧ ((s (busy id)).groupReach 5 (((s (busy id)).rebindCores 5 (reserve (some 5))).map (·.2))).shepDown ≠ none := by decide +kernel

theorem wit_SegmentSteps :
    (let s : State := { run 0 with segs := [(3, { state := 1 }), (4, { state := 1, manifest := true, pages := 2, flight := [1] }), (5, { state := 4, gen := 7 }),
                                            (6, { state := 1, manifest := true, pages := 1, again := [0], flight := [0] }),
                                            (7, { state := 1, manifest := true, pages := 2, order := [1, 0] })] }
     (s.segAt 3).state = 1 ∧ s.quiesced = false ∧ (s.segAt 3).manifest = false
     ∧ (s.segAt 4).manifest = true ∧ 1 < (s.segAt 4).pages ∧ 1 ∉ (s.segAt 4).present ∧ 1 ∉ (s.segAt 4).again ∧ 1 ∈ (s.segAt 4).flight
     ∧ 0 ∈ (s.segAt 6).again ∧ (s.segAt 5).state = 4 ∧ s.allPinned = []
     ∧ 0 ∈ (s.segAt 6).flight ∧ (s.segAt 7).nextPage = some 1 ∧ (s.segAt 7).flight = [])
    ∧ (let o : Op := { anOp .scalar (.ld g0 5 1 3 0 0 0 none) 2 with wait := some 5, st := [2, 0, 0, 0x10038] }
       let s : State := { withOp o with rtc := 100000005, segwait := 100000 }
       s.opAt o.id = some o ∧ o.wait = some 5 ∧ o.st.headD 0 = 2 ∧ o.faulted = false ∧ s.onItsCore o = true
       ∧ 5 + 1000 * s.segwait.toNat ≤ s.rtc.toNat) := by decide

/-- The smallest manifest: one page of one byte, whose hash is 0. -/
def aManifest : List Byte := toBytes 4 0x4D474553 ++ toBytes 4 1 ++ toBytes 8 1 ++ List.replicate 112 (0 : Byte) ++ List.replicate 64 (0 : Byte)
theorem wit_SegmentSteps_manifest : manifestOf aManifest = some (1, 1, 0, [0], [0]) := by decide +kernel
theorem hashes_exist (f : List Byte → BitVec 512) :
    (∃ g : Seg, f aManifest = g.hash) ∧ (∃ g : Seg, f aManifest ≠ g.hash) ∧ ∃ g : Seg, (f (g.pageData 0 [])).toNat = g.phash.getD 0 0 :=
  ⟨⟨{ hash := f aManifest }, rfl⟩, ⟨{ hash := f aManifest + 1 }, by bv_omega⟩, { phash := [(f (({} : Seg).pageData 0 [])).toNat] }, rfl⟩
/-- A segment whose hash is that of the manifest, and a page whose hash is the one wanted. -/
theorem wit_SegmentSteps_hash :
    (∃ g : Seg, sha512Num aManifest = g.hash) ∧ (∃ g : Seg, sha512Num aManifest ≠ g.hash)
    ∧ ∃ g : Seg, (sha512Num (g.pageData 0 [])).toNat = g.phash.getD 0 0 :=
  hashes_exist sha512Num

/-! ## Witnesses: the host interface, power -/

theorem wit_WindowWrites :
    (let s : State := { run 0 with binds := [(0, { live := true, held := true, clusters := [3] })], clusters := [(4, { pend := some 9 })] }
     s.clusterHeld 3 = true ∧ s.clusterHeld 4 = false ∧ (s.clusterAt 4).pend = some 9)
    ∧ (let m : Mc := { tickets := 1, npmax := 1, tileq := 1, stages := 1, cores := 1, frames := 1, rxpool := 1, rqbase := 1, framepool := 1,
                       codebase := 4, startv := 1 }
       let s : State := { run 0 with mcs := [(1, { m with func := 5 }), (2, { m with state := .halted }), (3, { m with state := .idle })],
                                     parts := [(0, { active := true, mctxQ := 1, fenceQ := 2, fenceU := 1 })],
                                     fences := [(9, { alloc := true })] }
       (s.mcAt 1).state = .free ∧ s.installable 1 = true ∧ (s.mcAt 2).state = .halted ∧ (s.mcAt 2).conts = 0
       ∧ (s.mcAt 2).rqhead = (s.mcAt 2).rqtail ∧ (s.mcAt 2).unexp = [] ∧ (s.mcAt 3).state = .idle ∧ s.bindsOf 3 = []
       ∧ (s.mcAt 16383).part.toNat = 0 ∧ (s.fenceAt 65535).alloc = false ∧ (s.partAt 0).active = true
       ∧ (s.partAt 0).fenceU < (s.partAt 0).fenceQ ∧ (s.fenceAt 9).alloc = true)
    ∧ (let s : State := { busy id with conts := [(3, { state := .trapped })] }
       (s.partAt 0).active = true ∧ (s.mcAt 0).part.toNat = 0 ∧ 3 < (s.mcAt 0).frames.toNat ∧ (s.contAt (contKey 0 3)).state = .trapped) := by decide

/-- A queue descriptor of the PF with 16 entries: PASID valid. -/
def aDescriptor : SMap Byte := wrNum (wrNum (wrNum [] 0x1000 8 0x4000) 0x1008 1 4) 0x1009 1 2
theorem wit_HostQueues :
    (let s : State := { run 0 with host := aDescriptor, funcs := [(0, { qtbase := 0x1000, qtn := 1 })] }
     0 < (s.funcAt 0).qtn.toNat ∧ s.hostBad ((s.funcAt 0).qtbase.toNat + 64 * 0) 64 = false
     ∧ (queueOf 0 (rdBytes s.host 0x1000 64)).isSome = true ∧ queueOf 0 (rdBytes s.host 0x2000 64) = none)
    ∧ (let s : State := { run 0 with funcs := [(0, { qtn := 1, queues := [(0, { en := true, log := 4, head := 0xFFFFFFFE })] })], rtc := 5000,
                                     slots := [(511, some ⟨0, 0, true, 1, 5000, 0⟩)] }
       (s.queueAt 0 0).en = true ∧ ¬ ((true : Bool) = true ∧ (s.queueAt 0 0).strict = true) ∧ ((14 : Word32) - (s.queueAt 0 0).head).toNat ≤ 2 ^ (s.queueAt 0 0).log
       ∧ s.quiesced = false ∧ s.slotAt 511 = some ⟨0, 0, true, 1, 5000, 0⟩ ∧ s.slotNp ⟨0, 0, true, 1, 5000, 0⟩ = true)
    ∧ (let s : State := { run 0 with funcs := [(0, { rings := [(2, { since := 1, first := 4000, ctime := 1 })] })], rtc := 5000 }
       (SMap.get {} (s.funcAt 0).rings 2).since ≠ 0 ∧ (SMap.get {} (s.funcAt 0).rings 2).ctime ≠ 0
       ∧ (SMap.get {} (s.funcAt 0).rings 2).first + 1000 * (SMap.get {} (s.funcAt 0).rings 2).ctime.toNat ≤ s.rtc.toNat) := by decide +kernel

/-- Whatever the order of the slots, one is due in some state, and number 512 in none. -/
theorem wit_HostQueues_slots (i : Nat) (h : i < 512) :
    ({ run 0 with rounds := [((slotPlace i).1, ((slotPlace i).2, 0))] } : State).slotDue i = true ∧ (run 0).slotDue 512 = false := by
  constructor
  · simp [State.slotDue, SMap.get, h]
  · simp [State.slotDue]

/-- A mapped slot whose queue has had four visits in a row, and a pending queue with packets; a slot without packets, and none pending. -/
theorem wit_HostQueues_visit :
    (let y : HQueue := { en := true, log := 4, bell := 2 }
     let p : PSlot := ⟨0, 0, false, 1, 0, 4⟩
     let s : State := { run 0 with funcs := [(0, { qtn := 2, queues := [(0, y), (1, { y with pend := some 3 })] })], slots := [(5, some p)] }
     s.slotAt 5 = some p ∧ s.slotNp p = false ∧ 4 ≤ p.busy ∧ (s.queueAt 0 0).avail ≠ 0 ∧ s.oldestPending = some (0, 1))
    ∧ (let s : State := { run 0 with slots := [(5, some ⟨0, 0, false, 1, 0, 0⟩)] }
       (s.queueAt 0 0).avail = 0 ∧ s.oldestPending = none)
    ∧ (({ run 0 with funcs := [(0, { resetting := true })] } : State).funcAt 0).resetting = true := by decide +kernel

theorem wit_DeviceRegisters :
    (let s : State := { State.reset with biasGo := true, biasDir := true, biasPage := 5 }
     (∀ e ∈ s.mcs, e.2.state = .free ∨ e.2.state = .halted) ∧ s.biasGo = true ∧ s.holders none (65536 * s.biasPage.toNat) 65536 = [])
    ∧ ({ State.reset with biasGo := true } : State).biasDir = false
    ∧ (let s : State := { run 0 with inbox := [.configRead 3 0x100] }
       s.phase = .ready ∧ s.inbox = .configRead 3 0x100 :: [])
    ∧ (let s : State := { run 0 with inbox := [.configWrite 3 0x100 7] }
       s.inbox = .configWrite 3 0x100 7 :: [] ∧ (3 : Nat) ≤ 63)
    ∧ ({ State.reset with poison := [1] } : State).poisoned 64 4 = true
    ∧ (let s : State := { run 0 with inbox := [.unsupported 3, .hostRead 3 0 0x40 8] }
       s.inbox = .unsupported 3 :: [.hostRead 3 0 0x40 8] ∧ s.again = false)
    ∧ (let s : State := { State.reset with funcs := [(3, { sdbusy := true })], cxlen := true }
       (s.funcAt 3).sdbusy = true ∧ (s.funcAt 3).sdNow.2.2.2 = false ∧ (s.funcAt 2).sdbusy = false ∧ s.allPinned = [] ∧ s.cxlen = true
       ∧ (stackTop - 4) + 4 ≤ stackTop ∧ s.holders none (stackTop - 4) 4 = []) := by decide

/-- The management core has this request at hand. -/
def asking (bs : List Byte) : State := { run 0 with mbBusy := true, mbreq := wrBytes [] 0 bs }

theorem wit_MailboxCommands :
    (asking (mbHead 3 7 63)).asked (mbHead 3 7 63) = true
    ∧ (asking (mbHead 5 7 1 ++ toBytes 1 1 ++ toBytes 1 2 ++ toBytes 8 3 ++ toBytes 8 0x40)).asked
        (mbHead 5 7 1 ++ toBytes 1 1 ++ toBytes 1 2 ++ toBytes 8 3 ++ toBytes 8 0x40) = true
    ∧ (asking (mbHead 5 7 1)).hostBad 0x40 64 = false
    ∧ (asking (mbHead 6 7 1 ++ toBytes 2 3)).asked (mbHead 6 7 1 ++ toBytes 2 3) = true
    ∧ (asking (mbHead 7 7 0 ++ toBytes 2 3 ++ toBytes 4 1 ++ toBytes 4 2 ++ toBytes 8 0x8001)).asked
        (mbHead 7 7 0 ++ toBytes 2 3 ++ toBytes 4 1 ++ toBytes 4 2 ++ toBytes 8 0x8001) = true := by decide

/-- A segment that the partition shares. -/
theorem wit_MailboxCommands_segment :
    let s : State := { asking [] with segs := [(3, { state := 2, refs := 2 })],
                                      parts := [(0, { active := true, privBound := 0x1000000, grants := 8 })] }
    (s.segRelease 0 3).isSome = true ∧ 0x8001 % 8 ≤ 1 ∧ (s.segAt 3).state ≠ 0 ∧ (s.segAt 3).state ≠ 4
    ∧ (s.partAt 0).grants.getLsbD 3 = true ∧ (s.partAt 0).holds (0x8001 / 8 * 8) (8 * 2) = true := by decide +kernel

/-- A tree that the partition does not share yet, and one that is installed. -/
theorem wit_MailboxCommands_seginst :
    let s (l : SMap Seg) : State := { asking [] with segs := l, parts := [(1, { active := true })], host := wrNum [] 0x40 64 9 }
    let h (l : SMap Seg) : BitVec 512 := BitVec.ofNat 512 (ofBytes (rdBytes (s l).host 0x40 64))
    ((s []).partAt 1).active = true ∧ (s []).hostBad 0x40 64 = false
    ∧ (((s []).hostAs 0 none false 0x40 64).segInstall 1 (1 + 2 * 2) (h [])).1 = some 0
    ∧ (let l : SMap Seg := [(3, { state := 2, hash := 9 })]
       (((s l).hostAs 0 none false 0x40 64).segInstall 1 0 (h l)).1 = some 3) := by decide +kernel

/-- Self-tests: of a unit that is not there, and the four ends that a reply can meet. -/
theorem wit_MailboxCommands_test :
    let s (e : Bool) (st : Nat) (now : Word) : State :=
      { asking (mbHead 4 7 0 ++ toBytes 1 1 ++ toBytes 1 2 ++ toBytes 2 47 ++ toBytes 4 0) with
        selfTest := some { mc := some 0, tag := 7, status := st, since := 5, ended := e }, rtc := now }
    (asking []).unitPresent 1 48 = false
    ∧ (∀ e st now, (s e st now).mbBusy = true ∧ (s e st now).mbReply = none ∧ (s e st now).selfTest = some ⟨some 0, 7, st, 5, e⟩
        ∧ (s e st now).binds = [])
    ∧ rdNum (s true 0 9).mbreq 0 1 = 4 ∧ (s false 0 9).rtc.toNat < 5 + 100000000 ∧ 5 + 100000000 ≤ (s false 0 100000005).rtc.toNat :=
  ⟨by decide, fun _ _ _ => ⟨rfl, rfl, rfl, rfl⟩, by decide, by decide, by decide⟩

theorem wit_MailboxCommands_queues :
    (asking (mbHead 8 7 1 ++ toBytes 1 63 ++ toBytes 2 4095 ++ toBytes 1 1 ++ toBytes 2 1000)).asked
        (mbHead 8 7 1 ++ toBytes 1 63 ++ toBytes 2 4095 ++ toBytes 1 1 ++ toBytes 2 1000) = true
    ∧ (asking []).slotOf 63 4095 = none ∧ (asking []).slotAt 0 = none
    ∧ (asking (mbHead 9 7 1 ++ toBytes 1 2 ++ toBytes 2 3)).asked (mbHead 9 7 1 ++ toBytes 1 2 ++ toBytes 2 3) = true
    ∧ ({ asking [] with slots := [(5, some ⟨2, 3, false, 1, 0, 0⟩)] } : State).slotOf 2 3 = some 5
    ∧ (asking (mbHead 10 7 0 ++ toBytes 8 0x10000 ++ toBytes 8 0x20000)).asked (mbHead 10 7 0 ++ toBytes 8 0x10000 ++ toBytes 8 0x20000) = true
    ∧ 0x10000 % 65536 = 0 ∧ ((asking []).partAt 0).holds 0x10000 0x20000 = true ∧ SMap.get none (asking []).pools 0 = none
    ∧ (asking (mbHead 4 7 0 ++ toBytes 1 1 ++ toBytes 1 2 ++ toBytes 2 47 ++ toBytes 4 0)).asked
        (mbHead 4 7 0 ++ toBytes 1 1 ++ toBytes 1 2 ++ toBytes 2 47 ++ toBytes 4 0) = true
    ∧ (asking []).unitPresent 1 47 = true ∧ (asking []).serviceMc = none ∧ (asking []).selfTest = none
    ∧ ((asking []).onMc 0 (fun m => { m with np := true, npmax := 200 })).serviceMc = some 0
    ∧ (asking (toBytes 1 11 ++ [7])).asked (toBytes 1 11 ++ [7]) = true := by decide

theorem wit_MailboxCommands_checkpoint :
    (let bs := mbHead 12 7 0 ++ toBytes 1 1 ++ toBytes 1 3 ++ toBytes 2 5 ++ toBytes 8 0x100 ++ toBytes 8 0x200 ++ toBytes 32 (BitVec.toNat (9 : BitVec 256))
     (asking bs).asked bs = true ∧ (asking bs).cxlen = false ∧ (asking bs).quiesced = false)
    ∧ (asking (toBytes 1 13 ++ [7])).asked (toBytes 1 13 ++ [7]) = true ∧ (asking []).ckpt.state ≠ .running
    ∧ (let s : State := { asking (mbHead 14 7 0) with ckpt := { state := .held } }
       s.asked (mbHead 14 7 0) = true ∧ s.ckpt.state = .held)
    ∧ (let s : State := { asking (mbHead 3 7 0) with mbReply := some [7, 0] }
       s.mbBusy = true ∧ s.mbReply = some [7, 0] ∧ rdNum s.mbreq 0 1 ≠ 4)
    ∧ (let s : State := { State.reset with ckpt := { state := .running, streams := [0, 8] } }
       s.ckpt.state = .running ∧ s.ckpt.streams = 0 :: 8 :: [] ∧ (0 : Nat) ≠ 8 ∧ (∀ e ∈ s.cores, e.2.running = false)) := by decide

/-- A checkpoint that waits for a core, one that has nothing left, and streams: one whose link is down, one that takes the lowest page, one at
work on a datagram, and one of host records. -/
theorem wit_MailboxCommands_copy :
    (let s : State := { run 0 with ckpt := { state := .running, streams := [0, 8] }, inbox := [.ckptStep 0] }
     s.ckptWaits = true ∧ s.ckpt.state = .running ∧ (0 : Nat) ∈ s.ckpt.streams ∧ s.inbox = .ckptStep 0 :: [] ∧ s.phase = .ready)
    ∧ (let s : State := { State.reset with ckpt := { state := .running, next := stackTop / 65536 } }
       s.ckptWaits = false ∧ s.ckptNext = none ∧ s.ckpt.busy = [])
    ∧ (let s : State := { State.reset with ckpt := { state := .running, streams := [0, 8], redo := [3], hbytes := 65600 }, units := ⟨1, 1, 1, 1⟩, links := 1 }
       s.ckptWaits = false ∧ s.ckptAlive 0 = true ∧ s.ckptAlive 1 = false ∧ s.ckptAlive 8 = true ∧ s.ckptNext = some 3
       ∧ (∀ e ∈ s.ckpt.busy, e.1 ≠ 0)
       ∧ (let t : State := { s with ckpt := { s.ckpt with busy := [(0, 5, 6)] } }
          t.ckptAlive 0 = true ∧ t.ckpt.busy = [(0, 5, 6)])) := by decide +kernel

theorem wit_PowerAndIdentity :
    (let s : State := { State.reset with image := some theImage }
     State.reset.phase = .boot ∧ State.reset.image = none
     ∧ s.phase = .boot ∧ theImage.badPens = 0 ∧ theImage.badClusters = 0 ∧ theImage.badHbm = 0 ∧ theImage.badEth = 0
     ∧ theImage.d2dFail = false ∧ theImage.ioFail = false ∧ theImage.hostFail = false ∧ theImage.clusters ≠ 0 ∧ theImage.hbm ≠ 0)
    ∧ { theImage with clusters := 0 }.clusters = 0
    ∧ throttles 55 = true ∧ throttles 0 = true ∧ SMap.get 0 State.reset.islands 55 < 8 ∧ SMap.get 0 State.reset.raiseAt 55 ≤ State.reset.rtc.toNat
    ∧ (let s : State := { State.reset with calmAt := [(55, 7)] }
       s.rtc.toNat < SMap.get 0 s.calmAt 55 ∧ SMap.get 0 s.calmAt 0 ≤ s.rtc.toNat)
    ∧ theImage.debug = true ∧ ({ State.reset with spdmVer := true, spdmAlg := true } : State).spdmAlg = true ∧ State.reset.spdmAlg = false
    ∧ 0 ≤ theImage.cert.length ∧ (1 : Nat) ≠ 0
    ∧ (let s : State := { run 0 with inbox := [.spdmRequest 0 0xEA] }
       s.phase = .ready ∧ s.inbox = .spdmRequest 0 0xEA :: [] ∧ 0xEA % 256 ∉ spdmCodes) := by
  refine ⟨by decide, by decide, by decide, by decide, by decide, by decide, by decide, by decide, by decide, by decide, Nat.zero_le _, by decide, by decide⟩

theorem wit_PowerAndIdentity_image : ({ State.reset with image := some theImage } : State).image = some theImage := rfl

/-! ## Witnesses: packets -/

/-- A micro-context with function number 7, a receive pool of one buffer of 256 bytes and a request ring, all on the page that `access`
maps. -/
def net : State :=
  let s := (busy id).onMc 0 (fun m => { m with func := 7, rxpool := 0x10000, rqbase := 0x10800, rqlog := 4 })
  let mem := wrNum (wrNum (wrNum s.mem 0x400008 8 0x510037) 0x510000 8 0x10100) 0x510010 4 256
  { s with mem := wrNum (wrNum (wrNum (wrNum mem 0x510014 4 1) 0x510018 1 1) 0x51003C 4 1) 0x510040 8 0x10080 }

/-- A packet without payload for it, of TYPE `typ`. -/
def packet (typ : Byte) (nonce : BitVec 96) (tag : BitVec 128) : Packet :=
  ⟨0, 1, 2, 3, 0, amiuxPort, 48, 1, typ, 0, 0, 7, 9, nonce, 0, [], tag⟩

/-- The tag of the packet of TYPE 0 with NONCE 5 under key 0. -/
def packetTag : BitVec 128 := 65472492935633992826169533182770879560

theorem wit_PacketsReceived : net.quiesced = false ∧ net.mcByFunc (packet 0 5 packetTag).func = some 0 ∧ packetParses (packet 0 5 packetTag) 0 = true
    ∧ (∀ t : Fin 7, packetParses (packet (BitVec.ofNat 8 t) 5 0) t = true) ∧ SMap.get 0 (net.mcAt 0).ringNew 0 = 0
    ∧ (net.oldestPosted 0 3 9).isNone = true ∧ (net.oldestPosted 0 3 (ringRid (packet 0 5 packetTag).rid.toNat)) = none
    ∧ SMap.get 0 (net.mcAt 0).ringNew (bitsOf (packet 0 5 packetTag).rid.toNat 32 16) = 0 := by decide

/-- The packet is taken into the buffer, and its request is appended. -/
theorem wit_PacketsReceived_request :
    let r := net.receive 0 (packet 0 5 packetTag)
    r.1.map (·.1) = some 0x10100 ∧ (r.2.append 0 0x10100 0 0 9 none).1 = .ok () := by decide +kernel

theorem wit_PacketsReceived_expiry :
    let s : State := { net.onMc 0 (fun m => { m with unexp := [⟨2, 9, 0x10100, 0, 0, none⟩] }) with rtc := 1 }
    let x := s.rxPool 0 0
    (∃ p, x.1 = .ok p ∧ 0 + 100000 * p.ringto ≤ x.2.rtc.toNat) ∧ (x.2.mcAt 0).unexp = [⟨2, 9, 0x10100, 0, 0, none⟩] :=
  ⟨⟨_, rfl, by decide⟩, by decide⟩

/-! ## Results that the spec works out -/

/-- The header of spec/00_scope.md: four empty cycles' worth of fields, three words. -/
theorem test_header : headerBad 0x00030105 0 = none ∧ headerWords 0x00030105 = 4 ∧ bitsOf 0x00030105 16 4 = 3 ∧ headerBad 0x00030105 13 = some 3
    ∧ headerBad 0x00100001 0 = some 1 ∧ headerBad 0x00000201 0 = some 2 := by decide

/-- Five ternary weights in one byte (R95). -/
theorem test_ternary : (List.range 5).map (tritOf 0x58) = [some 1, some (-1), some 0, some 0, some 1] := by decide

/-- The format words of R99 and the ones that are ill-formed (R100). -/
theorem test_format_words : wordOk false 0x0333 = true ∧ wordOk false 0x0095 = true ∧ wordOk false 0x0022 = true ∧ wordOk false 0x0400 = false
    ∧ wordOk false 0x00AA = false ∧ wordOk true 0x00AA = true := by decide

/-- The group of 64 INT8 elements of R97. -/
def aGroup : List Byte := [5, 0, 0, 0xFF] ++ List.replicate 59 0 ++ [2]
theorem test_compact : zbPack 1 16 aGroup = some [9, 0, 0, 0, 0, 0, 0, 0x80, 5, 0xFF, 2, 0, 0, 0, 0, 0] := by decide +kernel

/-- The MXFP8 block and the two saturating blocks of spec/03_numbers.md. -/
def aBlock (x0 x1 sc : Nat) : SMap Byte := wrNum (wrNum (wrNum [] (rowKey 0 0) 1 x0) (rowKey 0 1) 1 x1) (rowKey 0 32) 1 sc
theorem test_block : fpBlocks 0x0333 (aBlock 0x3C 0x40 130) (aBlock 0x44 0xA8 120) 0 0 32 32 32 1 0 0x3F800000 false = (0x3FA00000, false) := by decide +kernel
theorem test_block_saturates : fpBlocks 0x0333 (aBlock 0x7E 0 254) (aBlock 0x7E 0 254) 0 0 32 32 32 1 0 0 false = (0x7F7FFFFF, true) := by decide +kernel
theorem test_block_scale_nan : fpBlocks 0x0333 (aBlock 0x7E 0 254) (aBlock 0x7E 0 255) 0 0 32 32 32 1 0 0 false = (0x7FC00000, false) := by decide +kernel

/-- Sigmoid and hyperbolic tangent where the spec gives the value (R110). -/
theorem test_sigmoid : sigmRound .fp32 .rne false (.zero false) = (0x3F000000, 0) ∧ sigmRound .fp32 .rne false (.inf true) = (0, 0)
    ∧ tanhRound .fp32 .rne false (.zero true) = (0x80000000, 0) ∧ tanhRound .fp32 .rne false (.inf false) = (0x3F800000, 0) := by decide

/-- Elements 0 to 3 of the worked example of R111, the others masked. -/
def fourElements : State :=
  withArch (fun a => { a with v := [(2, 0xCB800000_3F800000_3F800000_4B800000)], k := [(1, 0xF)] })
/-- The v register that a syllable has put in flight, and its flags. -/
def flying (o : Host.Outcome State Fault Refusal) (p : VWord → Flags → Bool) : Bool :=
  nextAnd o (fun t => match t.arch.fly with
    | [⟨_, _, _, fl, .v _ v⟩] => p v fl
    | _ => false)
theorem test_vred : flying (exec (.vred g0 3 2 1 none) fourElements) (fun v fl => v == 0x3F800000 && fl == fNX) = true := by decide +kernel
theorem test_vscan : flying (exec (.vscan g0 3 2 1 none) fourElements)
    (fun v fl => v == 0x3F800000_4B800000_4B800000_4B800000 && fl == fNX) = true := by decide +kernel

/-- `clz.w` and `sext.b` of the example of R190, and the step that adds s2 to itself. -/
def inFlight (o : Host.Outcome State Fault Refusal) (w : RegWrite) : Bool := nextAnd o (fun t => t.arch.fly.any (fun l => l.w == w))
theorem test_clz : inFlight (exec (.clz g0 5 1 1) (withS [(1, 0x100000000)])) (.s 5 32) = true := by decide
theorem test_sext : inFlight (exec (.sext g0 5 1 0) (withS [(1, 0x180)])) (.s 5 0xFFFFFFFFFFFFFF80) = true := by decide
theorem test_step_add : nextAnd (step (withS [(2, 0xFFFFFFFFFFFFFFFF)] 0x04018410))
    (fun t => (t.coreAt 0).now.rdS 3 == 0xFFFFFFFFFFFFFFFE && (t.coreAt 0).now.pc == 8) = true := by decide

/-- Two results that land in one cycle: the higher slot remains (R60). -/
theorem test_landing : (landings 3 ({ s := [(9, 2)], fly := [⟨3, 1, 0, 0, .s 9 7⟩] } : Arch)).rdS 9 = 7
    ∧ (landings 1 ({ s := [(9, 2)], fly := [⟨1, 1, 0, 0, .s 9 7⟩, ⟨1, 3, 1, 0, .s 9 5⟩] } : Arch)).rdS 9 = 5
    ∧ (landings 2 ({ s := [(9, 2)], fly := [⟨3, 1, 0, 0, .s 9 7⟩] } : Arch)).rdS 9 = 2 := by decide

/-- `spawn s4, s6, 1` of R159 makes a stage-1 continuation; `spawn s4, s6, 2` raises BAD_SPAWN reason 2. -/
def spawner : State := framed (fun a => { a with s := [(4, 0x240), (6, 11), (7, 12)] })
theorem test_spawn : nextAnd (exec (.spawn g0 4 6 1) spawner) (fun t => (t.contAt (contKey 0 0)).spawning && (t.contAt (contKey 0 0)).stage == 1)
    = true := by decide +kernel
theorem test_spawn_stage : nextAnd (exec (.spawn g0 4 6 2) { spawner with checked := false })
    (fun t => t.verdict == .trapped && (t.contAt 0).trapinfo.extractLsb' 16 4 == 2) = true := by decide +kernel

/-- An atomic addition of 3 to 5: the old value lands, the sum is stored (R213). -/
theorem test_amo : nextAnd (exec (.scalarAccessComplete 9) (access (.amoAdd g0 5 1 2 1 0) [0x10038, 3]))
    (fun t => (t.coreAt 0).now.rdS 5 == 0x8070605040302010 && rdNum t.mem 0x510038 8 == 0x8070605040302013) = true := by decide +kernel

/-- The stride of 2,048 tickets is 512 (R138). -/
theorem test_stride : nextAnd (exec (.ticketsWrite 0 0 2048) ((run 0).onMc 0 (fun m => { m with state := .idle })))
    (fun t => (t.mcAt 0).stride == 512) = true := by decide

end Sys2Proof.Tests
end

