-- ==== Sys2Proof/Proofs/Encoding.lean ====
section
/-!
PROOFS. A word that decodes is the word of its instruction (R5, R34, R38, R40; O2). Each opcode of a slot's map names the fields that the
format of its instruction is put together from again; the reserved bits are those that the decoder checks to be zero.
-/
namespace Sys2Proof
set_option Elab.async false

/-! ## A syllable and its fields -/

/-- The words of instruction `i` are `w` with its extension, and `i` is of slot `sl`. -/
def Spells (sl : Slot) (w : Word32) (e : Option Word32) (i : Instr) : Prop :=
  encode i = w :: e.toList ∧ i.slot = some sl

section
variable {sl : Slot} {op X : Nat} {w : Word32} {e : Option Word32} {c : Bool} {i j : Instr} {l : List Word32}

theorem keep_eq_some : keep c j = some i ↔ c = true ∧ j = i := by
  cases c <;> simp [keep]

/-- A syllable is put together again from its opcode, its guard and its low 21 bits. -/
theorem syl_guardOf (hop : w.toNat / 2 ^ 26 = op) (hX : w.toNat % 2 ^ 21 = X) : syl op (guardOf w) X = w := by
  apply BitVec.eq_of_toNat_eq
  simp only [syl, guardOf, fld, BitVec.toNat_ofNat]
  omega

theorem Spells.of_some (hop : w.toNat / 2 ^ 26 = op) (h : some j = some i) (hj : encode j = syl op (guardOf w) X :: l)
    (hs : j.slot = some sl) (hX : w.toNat % 2 ^ 21 = X) (hl : l = e.toList) : Spells sl w e i := by
  obtain rfl := Option.some.inj h
  exact ⟨by rw [hj, syl_guardOf hop hX, hl], hs⟩

theorem Spells.of_keep (hop : w.toNat / 2 ^ 26 = op) (h : keep c j = some i) (hj : encode j = syl op (guardOf w) X :: l)
    (hs : j.slot = some sl) (hX : c = true → w.toNat % 2 ^ 21 = X) (hl : c = true → l = e.toList) : Spells sl w e i := by
  obtain ⟨hc, rfl⟩ := keep_eq_some.mp h
  exact .of_some hop rfl hj hs (hX hc) (hl hc)

@[simp] theorem fld_toNat (w : Word32) (lo n : Nat) : (fld w lo n).toNat = w.toNat / 2 ^ lo % 2 ^ n :=
  BitVec.toNat_ofNat ..

@[simp] theorem fz_iff (w : Word32) (lo n : Nat) : fz w lo n = true ↔ w.toNat / 2 ^ lo % 2 ^ n = 0 := beq_iff_eq

/-! ## Extension words (R40) -/

theorem efz_some (x : Word32) (lo n : Nat) : efz (some x) lo n = true ↔ x.toNat / 2 ^ lo % 2 ^ n = 0 := fz_iff x lo n

theorem encVX_vxOf : encVX (vxOf e) = e.toList := by
  cases e with
  | none => rfl
  | some e =>
    refine congrArg (fun x => [x]) (BitVec.eq_of_toNat_eq ?_)
    simp only [fld, BitVec.toNat_ofNat]
    omega

theorem encXE_xeOf : encXE (xeOf e) = e.toList := by
  cases e with
  | none => rfl
  | some e =>
    refine congrArg (fun x => [x]) (BitVec.eq_of_toNat_eq ?_)
    simp only [fld, BitVec.toNat_ofNat]
    omega

theorem encMrdX_mrdxOf (h : efz e 0 20 = true) : encMrdX (e.map mrdxOf) = e.toList := by
  cases e with
  | none => rfl
  | some e =>
    rw [efz_some] at h
    refine congrArg (fun x => [x]) (BitVec.eq_of_toNat_eq ?_)
    simp only [mrdxOf, fld, BitVec.toNat_ofNat]
    omega

theorem encMX_mxOf (h : efz e 16 13 = true) (he : [e.getD 0] = e.toList) : encMX (mxOf (e.getD 0)) = e.toList := by
  cases e with
  | none => cases he
  | some e =>
    rw [efz_some] at h
    refine congrArg (fun x => [x]) (BitVec.eq_of_toNat_eq ?_)
    simp only [mxOf, Option.getD_some, fld, BitVec.toNat_ofNat]
    omega

theorem encTallocX_tallocxOf (h : efz e 24 3 = true) (h' : efz e 8 4 = true) (he : [e.getD 0] = e.toList) :
    encTallocX (tallocxOf (e.getD 0)) = e.toList := by
  cases e with
  | none => cases he
  | some e =>
    rw [efz_some] at h h'
    refine congrArg (fun x => [x]) (BitVec.eq_of_toNat_eq ?_)
    simp only [tallocxOf, Option.getD_some, fld, BitVec.toNat_ofNat]
    omega

/-- An extension word whose high bits are zero is the number in its low bits. -/
theorem ext_low (n : Nat) (hn : n ≤ 32) (h : efz e n (32 - n) = true) :
    ((e.map (fun e => fld e 0 n)).map (fun c => BitVec.ofNat 32 c.toNat)).toList = e.toList := by
  cases e with
  | none => rfl
  | some e =>
    rw [efz_some] at h
    refine congrArg (fun x => [x]) (BitVec.eq_of_toNat_eq ?_)
    simp only [fld_toNat, BitVec.toNat_ofNat]
    have hlt : e.toNat / 2 ^ n < 2 ^ (32 - n) :=
      Nat.div_lt_of_lt_mul (by rw [← pow_add, Nat.add_sub_cancel' hn]; exact e.isLt)
    rw [Nat.mod_eq_of_lt hlt, Nat.div_eq_zero_iff_lt (by positivity)] at h
    rw [pow_zero, Nat.div_one, Nat.mod_eq_of_lt h, Nat.mod_eq_of_lt e.isLt]

end

/-! ## The opcode maps (R41 to R48)

Case `h_k` is line `k` of the slot's decoder. Lines of one format go together: the format's fields make up the low 21 bits again, and the
extension word is the one that the opcode's extension column asks for. -/

theorem decB_spells {op : Nat} {w : Word32} {e : Option Word32} {i : Instr} (hop : w.toNat / 2 ^ 26 = op)
    (hn : extKind .b op = .none → [] = e.toList) (hr : extKind .b op = .required → [e.getD 0] = e.toList)
    (h : decB op w e = some i) : Spells .b w e i := by
  simp only [decB] at h
  split at h
  case h_1 | h_4 | h_10 | h_12 | h_18 => exact .of_keep hop h rfl rfl (by simp [encBG]; omega) fun _ => hn (by decide)
  case h_2 | h_3 => exact .of_some hop h rfl rfl (by simp) (hn (by decide))
  case h_5 => exact .of_some hop h rfl rfl (by simp [encBL]; omega) (hn (by decide))
  case h_6 => exact .of_keep hop h rfl rfl (by simp [encBL]; omega) fun _ => hr (by decide)
  case h_7 => exact .of_keep hop h rfl rfl (by simp [encBL]; omega) fun _ => hn (by decide)
  case h_8 =>
    split at h
    case h_1 | h_2 | h_3 | h_4 => exact .of_keep hop h rfl rfl (by simp [encBG]; omega) fun _ => hr (by decide)
    case h_5 => cases h
  case h_9 | h_11 | h_21 => exact .of_keep hop h rfl rfl (by simp) fun _ => hn (by decide)
  case h_14 | h_17 => exact .of_keep hop h rfl rfl (by simp; omega) fun _ => hn (by decide)
  case h_13 =>
    split at h
    case h_1 | h_2 => exact .of_keep hop h rfl rfl (by simp [encBG]; omega) fun _ => hn (by decide)
    case h_3 => cases h
  case h_15 =>
    split at h
    case h_1 | h_2 | h_3 => exact .of_keep hop h rfl rfl (by simp [encBG]; omega) fun _ => rfl
    case h_4 => cases h
  case h_16 =>
    split at h
    case h_1 | h_2 => exact .of_keep hop h rfl rfl (by simp [encBG]; omega) fun _ => rfl
    case h_3 => cases h
  case h_19 =>
    exact .of_keep hop h rfl rfl (by simp [encBG]; omega) fun hc => ext_low 8 (by decide) (Bool.and_eq_true_iff.mp hc).2
  case h_20 =>
    split at h
    case h_1 | h_2 => exact .of_keep hop h rfl rfl (by simp [encBG]; omega) fun _ => hn (by decide)
    case h_3 => cases h
  case h_22 | h_23 => exact .of_keep hop h rfl rfl (by simp [encBY]; omega) fun _ => hn (by decide)
  case h_24 => cases h

theorem decS_spells {op : Nat} {w : Word32} {e : Option Word32} {i : Instr} (hop : w.toNat / 2 ^ 26 = op)
    (hn : extKind .s op = .none → [] = e.toList) (hr : extKind .s op = .required → [e.getD 0] = e.toList)
    (h : decS op w e = some i) : Spells .s w e i := by
  simp only [decS] at h
  split at h
  -- three registers and a form
  case h_1 | h_3 | h_4 | h_7 | h_8 | h_9 | h_10 | h_18 | h_20 | h_22 | h_24 | h_36 | h_43 | h_44 | h_45 | h_46 | h_47 =>
    exact .of_some hop h rfl rfl (by simp [encSR]; omega) (hn (by decide))
  -- fewer registers, or no form
  case h_5 | h_6 | h_11 | h_13 | h_15 | h_17 | h_25 | h_26 | h_27 | h_28 | h_29 | h_30 | h_31 | h_32 | h_33 | h_48 | h_49 | h_50 =>
    exact .of_keep hop h rfl rfl (by simp [encSR]; omega) fun _ => hn (by decide)
  -- an immediate, or its extension word
  case h_2 | h_12 | h_14 | h_16 => exact .of_some hop h rfl rfl (by simp [encSI]; omega) rfl
  case h_34 | h_38 => exact .of_some hop h rfl rfl (by simp; omega) rfl
  case h_35 => exact .of_keep hop h rfl rfl (by simp; omega) fun _ => hr (by decide)
  -- shifts by an immediate, comparisons, predicates, conversions
  case h_19 | h_21 | h_23 => exact .of_keep hop h rfl rfl (by simp [encSI]; omega) fun _ => hn (by decide)
  case h_37 | h_51 => exact .of_some hop h rfl rfl (by simp [encSC]; omega) (hn (by decide))
  case h_39 | h_40 | h_41 | h_42 => exact .of_keep hop h rfl rfl (by simp [encSP]; omega) fun _ => hn (by decide)
  case h_52 => exact .of_some hop h rfl rfl (by simp; omega) (hn (by decide))
  case h_53 => cases h

theorem decA_spells {op : Nat} {w : Word32} {e : Option Word32} {i : Instr} (hop : w.toNat / 2 ^ 26 = op)
    (hn : extKind .a op = .none → [] = e.toList) (hr : extKind .a op = .required → [e.getD 0] = e.toList)
    (h : decA op w e = some i) : Spells .a w e i := by
  simp only [decA] at h
  split at h
  case h_1 | h_3 | h_4 => exact .of_keep hop h rfl rfl (by simp [encAR]; omega) fun _ => hn (by decide)
  case h_2 => exact .of_some hop h rfl rfl (by simp; omega) rfl
  case h_5 =>
    split at h
    case h_1 | h_2 => exact .of_keep hop h rfl rfl (by simp [encAR]; omega) fun _ => hn (by decide)
    case h_3 => cases h
  case h_6 => exact .of_some hop h rfl rfl (by simp [encAM]; omega) rfl
  case h_7 | h_10 => exact .of_keep hop h rfl rfl (by simp [encAM]; omega) fun _ => rfl
  case h_8 | h_9 => exact .of_some hop h rfl rfl (by simp [encAQ]; omega) (hn (by decide))
  case h_11 | h_12 | h_13 | h_14 | h_15 | h_16 | h_17 | h_18 | h_19 | h_20 =>
    exact .of_keep hop h rfl rfl (by simp [encAA]; omega) fun _ => hn (by decide)
  case h_21 | h_23 | h_24 => exact .of_keep hop h rfl rfl (by simp; omega) fun _ => hn (by decide)
  case h_22 =>
    refine .of_keep hop h rfl rfl (by simp; omega) fun hc => ?_
    obtain ⟨hc, h8⟩ := Bool.and_eq_true_iff.mp hc
    exact encTallocX_tallocxOf (Bool.and_eq_true_iff.mp hc).2 h8 (hr (by decide))
  case h_25 => cases h

theorem decV_spells {op : Nat} {w : Word32} {e : Option Word32} {i : Instr} (hop : w.toNat / 2 ^ 26 = op)
    (hn : extKind .v op = .none → [] = e.toList) (hr : extKind .v op = .required → [e.getD 0] = e.toList)
    (h : decV op w e = some i) : Spells .v w e i := by
  simp only [decV] at h
  split at h
  -- the forms with a VX extension, of all their fields or of fewer
  case h_1 | h_2 | h_3 | h_4 | h_5 | h_7 | h_8 | h_9 | h_18 | h_19 | h_20 | h_21 | h_22 | h_23 | h_25 | h_32 | h_39 | h_40
      | h_41 | h_42 =>
    exact .of_some hop h rfl rfl (by simp [encSR]; omega) encVX_vxOf
  case h_6 | h_10 | h_11 | h_12 | h_13 | h_14 | h_15 | h_16 | h_17 | h_26 | h_27 | h_28 | h_29 | h_30 | h_31 | h_33 | h_34 | h_43 =>
    exact .of_keep hop h rfl rfl (by simp [encSR]; omega) fun _ => encVX_vxOf
  case h_24 => exact .of_keep hop h rfl rfl (by simp; omega) fun _ => encVX_vxOf
  case h_35 | h_36 | h_37 | h_38 => exact .of_keep hop h rfl rfl (by simp [encVT]; omega) fun _ => encVX_vxOf
  case h_44 | h_45 | h_46 | h_47 | h_48 => exact .of_keep hop h rfl rfl (by simp [encKK]; omega) fun _ => hn (by decide)
  case h_49 => cases h

theorem decM_spells {op : Nat} {w : Word32} {e : Option Word32} {i : Instr} (hop : w.toNat / 2 ^ 26 = op)
    (hn : extKind .m op = .none → [] = e.toList) (hr : extKind .m op = .required → [e.getD 0] = e.toList)
    (h : decM op w e = some i) : Spells .m w e i := by
  simp only [decM] at h
  split at h
  case h_1 | h_3 =>
    exact .of_keep hop h rfl rfl (by simp [encMA]; omega) fun hc => encMX_mxOf (Bool.and_eq_true_iff.mp hc).2 (hr (by decide))
  case h_2 =>
    split at h
    case isTrue =>
      exact .of_keep hop h rfl rfl (by simp_all [encMA]; omega) fun hc => encMX_mxOf (Bool.and_eq_true_iff.mp hc).2 (hr (by decide))
    case isFalse =>
      refine .of_keep hop h rfl rfl (by simp_all [encMA]; omega) fun hc => ?_
      exact encMX_mxOf (Bool.and_eq_true_iff.mp (Bool.and_eq_true_iff.mp hc).1).2 (hr (by decide))
  case h_4 | h_6 | h_8 => exact .of_keep hop h rfl rfl (by simp [encMZ]; omega) fun _ => hn (by decide)
  case h_5 =>
    exact .of_keep hop h rfl rfl (by simp [encMZ]; omega) fun hc => encMrdX_mrdxOf (Bool.and_eq_true_iff.mp hc).2
  case h_7 =>
    exact .of_keep hop h rfl rfl (by simp [encMZ]; omega) fun hc => ext_low 16 (by decide) (Bool.and_eq_true_iff.mp hc).2
  case h_9 => cases h

theorem decX_spells {op : Nat} {w : Word32} {e : Option Word32} {i : Instr} (hop : w.toNat / 2 ^ 26 = op)
    (hn : extKind .x op = .none → [] = e.toList) (hr : extKind .x op = .required → [e.getD 0] = e.toList)
    (h : decX op w e = some i) : Spells .x w e i := by
  simp only [decX] at h
  split at h
  case h_1 | h_2 | h_3 | h_4 | h_5 | h_8 | h_9 => exact .of_keep hop h rfl rfl (by simp [encXT]; omega) fun _ => encXE_xeOf
  case h_6 | h_7 =>
    split at h
    case isTrue | isFalse => exact .of_keep hop h rfl rfl (by simp_all [encXT]; omega) fun _ => encXE_xeOf
  case h_10 => cases h

theorem decC_spells {op : Nat} {w : Word32} {e : Option Word32} {i : Instr} (hop : w.toNat / 2 ^ 26 = op)
    (hn : extKind .c op = .none → [] = e.toList) (hr : extKind .c op = .required → [e.getD 0] = e.toList)
    (h : decC op w e = some i) : Spells .c w e i := by
  simp only [decC] at h
  split at h
  case h_1 | h_2 | h_3 => exact .of_keep hop h rfl rfl (by simp [encSR]; omega) fun _ => rfl
  case h_4 | h_5 | h_6 | h_7 => exact .of_keep hop h rfl rfl (by simp [encSR]; omega) fun _ => hn (by decide)
  case h_8 => cases h

theorem decQ_spells {op : Nat} {w : Word32} {e : Option Word32} {i : Instr} (hop : w.toNat / 2 ^ 26 = op)
    (hn : extKind .q op = .none → [] = e.toList) (hr : extKind .q op = .required → [e.getD 0] = e.toList)
    (h : decQ op w e = some i) : Spells .q w e i := by
  simp only [decQ] at h
  split at h
  case h_1 | h_5 | h_8 | h_11 | h_12 => exact .of_keep hop h rfl rfl (by simp [encSR]; omega) fun _ => hn (by decide)
  case h_2 | h_3 | h_4 | h_6 | h_7 | h_9 => exact .of_keep hop h rfl rfl (by simp [encSR]; omega) fun _ => rfl
  case h_10 => exact .of_keep hop h rfl rfl (by simp; omega) fun _ => hn (by decide)
  case h_13 => cases h

/-! ## Any slot -/

theorem decFields_spells {sl : Slot} {op : Nat} {w : Word32} {e : Option Word32} {i : Instr} (hop : w.toNat / 2 ^ 26 = op)
    (hn : extKind sl op = .none → [] = e.toList) (hr : extKind sl op = .required → [e.getD 0] = e.toList)
    (h : decFields sl op w e = some i) : Spells sl w e i := by
  cases sl with
  | b => exact decB_spells hop hn hr h
  | s => exact decS_spells hop hn hr h
  | a => exact decA_spells hop hn hr h
  | v => exact decV_spells hop hn hr h
  | m => exact decM_spells hop hn hr h
  | x => exact decX_spells hop hn hr h
  | c => exact decC_spells hop hn hr h
  | q => exact decQ_spells hop hn hr h

/-- The extension word that the checks see is the one that stands there, where it may stand. -/
theorem extSeen_eq {k : ExtKind} {e : Option Word32} (hu : k ≠ .unassigned) (hn : k = .none → e = none)
    (hr : k = .required → e.isSome) : extSeen k e = e := by
  cases k with
  | unassigned => exact absurd rfl hu
  | none => exact (hn rfl).symm
  | optional => rfl
  | required => obtain ⟨x, rfl⟩ := Option.isSome_iff_exists.mp (hr rfl); rfl

/-- A word that decodes passes all the checks: its opcode is assigned, its extension stands where one is required and nowhere where none is
taken, and its instruction is well-formed. -/
theorem decodeSyl_ok {sl : Slot} {w : Word32} {e : Option Word32} {i : Instr} (h : decodeSyl sl w e = .ok i) :
    decFields sl (w.toNat / 2 ^ 26) w e = some i ∧ (extKind sl (w.toNat / 2 ^ 26) = .none → e = none)
      ∧ (extKind sl (w.toNat / 2 ^ 26) = .required → e.isSome) ∧ i.wellFormed = true := by
  simp only [decodeSyl] at h
  generalize w.toNat / 2 ^ 26 = op at h ⊢
  split at h
  · cases h
  next hu =>
  split at h
  · cases h
  next j hd =>
  split at h
  · cases h
  next hform =>
  split at h
  · cases h
  next h3 =>
  split at h
  · cases h
  next h4 =>
  split at h
  · cases h
  next ha =>
  obtain rfl := Except.ok.inj h
  have hn : extKind sl op = .none → e = none := by simpa using h3
  have hr : extKind sl op = .required → e.isSome := by simpa [Option.isSome_iff_ne_none] using h4
  rw [extSeen_eq hu hn hr] at hd
  exact ⟨hd, hn, hr, by simpa [Instr.wellFormed] using And.intro hform ha⟩

/-- Settles O2: the checks of `decodeSyl` give the hypotheses of `decFields_spells`. -/
theorem encodeOfDecode : Obligations.EncodeOfDecode := by
  intro sl w e i h
  obtain ⟨hd, hn, hr, hw⟩ := decodeSyl_ok h
  obtain ⟨he, hs⟩ := decFields_spells rfl (fun hk => by rw [hn hk]; rfl)
    (fun hk => by obtain ⟨x, rfl⟩ := Option.isSome_iff_exists.mp (hr hk); rfl) hd
  exact ⟨he, hs, hw⟩

end Sys2Proof
end

