-- ==== Sys2Proof/Proofs/MemoryRules.lean ====
section
/-!
PROOFS. The rules for what a function of the model answers: both memories in canonical form (R4, R199, R353) in a state, in the state of
an outcome and in an optional one, through branches, folds and updates of other fields of the state.
-/
namespace Sys2Proof
open Machine
set_option Elab.async false

/-- The state that an outcome answers, if it answers one, has its memories in canonical form. -/
def MemOut (o : Host.Outcome State Fault Refusal) : Prop := ∀ t, o = .next t → MemInv t

/-- The state that is there, if one is, has its memories in canonical form. -/
def MemOpt (o : Option State) : Prop := ∀ t, o = some t → MemInv t

section
variable {α β : Type} {s t : State}

/-! ## A state taken out of a pair, an option or an outcome -/

theorem MemInv.of_eq {p : α × State} {a : α} (e : p = (a, t)) (h : MemInv p.2) : MemInv t := by
  subst e; exact h

theorem MemInv.of_fst_eq {p : State × α} {a : α} (e : p = (t, a)) (h : MemInv p.1) : MemInv t := by
  subst e; exact h

theorem MemOut.of_eq {o : Host.Outcome State Fault Refusal} (e : o = .next t) (h : MemOut o) : MemInv t := h t e

theorem MemOpt.of_eq {o : Option State} (e : o = some t) (h : MemOpt o) : MemInv t := h t e

theorem MemInv.of_map_eq {o : Option (α × State)} {a : α} (e : o = some (a, t)) (h : MemOpt (o.map (·.2))) : MemInv t :=
  h t (by rw [e]; rfl)

/-! ## Optional states and outcomes -/

theorem MemOpt.map {o : Option α} {f : α → State} (hf : ∀ x, MemInv (f x)) : MemOpt (o.map f) := by
  cases o with
  | none => exact fun _ e => nomatch e
  | some x => exact fun _ e => Option.some.inj e ▸ hf x

theorem MemOpt.map_state {o : Option State} {f : State → State} (ho : MemOpt o) (hf : ∀ t, MemInv t → MemInv (f t)) :
    MemOpt (o.map f) := by
  cases o with
  | none => exact fun _ e => nomatch e
  | some t => exact fun _ e => Option.some.inj e ▸ hf t (ho t rfl)

theorem MemOpt.bind {o : Option α} {f : α → Option State} (hf : ∀ x, MemOpt (f x)) : MemOpt (o.bind f) := by
  cases o with
  | none => exact fun _ e => nomatch e
  | some x => exact hf x

theorem MemOpt.getD {o : Option State} (ho : MemOpt o) (h : MemInv s) : MemInv (o.getD s) := by
  cases o with
  | none => exact h
  | some t => exact ho t rfl

theorem MemOut.next (h : MemInv s) : MemOut (.next s) := fun _ e => Host.Outcome.next.inj e ▸ h

theorem MemOut.fault {r : Fault} : MemOut (.fault r) := fun _ e => nomatch e

theorem MemOut.refused {r : Refusal} : MemOut (.refused r) := fun _ e => nomatch e

theorem MemOpt.none : MemOpt none := fun _ e => nomatch e

theorem MemOpt.some (h : MemInv s) : MemOpt (some s) := fun _ e => Option.some.inj e ▸ h

/-! ## Writes of a memory -/

theorem MemInv.with_mem {m : SMap Byte} (h : MemInv s) (hm : Memory.wf m = true) : MemInv { s with mem := m } := ⟨hm, h.2⟩

theorem MemInv.with_host {m : SMap Byte} (h : MemInv s) (hm : Memory.wf m = true) : MemInv { s with host := m } := ⟨h.1, hm⟩

/-! ## Branches and folds -/

theorem MemInv.ite {c : Prop} [Decidable c] (h : MemInv s) (h' : MemInv t) : MemInv (if c then s else t) := by
  split
  · exact h
  · exact h'

theorem MemInv.ite_snd {c : Prop} [Decidable c] {p q : α × State} (h : MemInv p.2) (h' : MemInv q.2) :
    MemInv (if c then p else q).2 := by
  split
  · exact h
  · exact h'

theorem MemInv.ite_fst {c : Prop} [Decidable c] {p q : State × α} (h : MemInv p.1) (h' : MemInv q.1) :
    MemInv (if c then p else q).1 := by
  split
  · exact h
  · exact h'

theorem MemOpt.ite {c : Prop} [Decidable c] {o p : Option State} (h : MemOpt o) (h' : MemOpt p) :
    MemOpt (if c then o else p) := by
  split
  · exact h
  · exact h'

theorem MemOut.ite {c : Prop} [Decidable c] {o p : Host.Outcome State Fault Refusal} (h : MemOut o) (h' : MemOut p) :
    MemOut (if c then o else p) := by
  split
  · exact h
  · exact h'

theorem MemInv.foldl {l : List α} {f : State → α → State} (hf : ∀ t x, MemInv t → MemInv (f t x)) (h : MemInv s) :
    MemInv (l.foldl f s) :=
  l.foldlRecOn f h fun t ht x _ => hf t x ht

theorem MemInv.foldl_fst {l : List α} {f : State × β → α → State × β} {p : State × β}
    (hf : ∀ t x, MemInv t.1 → MemInv (f t x).1) (h : MemInv p.1) : MemInv (l.foldl f p).1 :=
  l.foldlRecOn (motive := fun p => MemInv p.1) f h fun t ht x _ => hf t x ht

theorem MemInv.foldl_snd {l : List α} {f : β × State → α → β × State} {p : β × State}
    (hf : ∀ t x, MemInv t.2 → MemInv (f t x).2) (h : MemInv p.2) : MemInv (l.foldl f p).2 :=
  l.foldlRecOn (motive := fun p => MemInv p.2) f h fun t ht x _ => hf t x ht

end

/-! ## Updates that leave the memories alone -/

section
variable {s : State}

theorem MemInv.with_again {v} (h : MemInv s) : MemInv { s with again := v } := h
theorem MemInv.with_banks {v} (h : MemInv s) : MemInv { s with banks := v } := h
theorem MemInv.with_biasDone {v} (h : MemInv s) : MemInv { s with biasDone := v } := h
theorem MemInv.with_biasNext {v} (h : MemInv s) : MemInv { s with biasNext := v } := h
theorem MemInv.with_binds {v} (h : MemInv s) : MemInv { s with binds := v } := h
theorem MemInv.with_booterr {v} (h : MemInv s) : MemInv { s with booterr := v } := h
theorem MemInv.with_calmAt {v} (h : MemInv s) : MemInv { s with calmAt := v } := h
theorem MemInv.with_carderIn {v} (h : MemInv s) : MemInv { s with carderIn := v } := h
theorem MemInv.with_checked {v} (h : MemInv s) : MemInv { s with checked := v } := h
theorem MemInv.with_ckpt {v} (h : MemInv s) : MemInv { s with ckpt := v } := h
theorem MemInv.with_clusters {v} (h : MemInv s) : MemInv { s with clusters := v } := h
theorem MemInv.with_conts {v} (h : MemInv s) : MemInv { s with conts := v } := h
theorem MemInv.with_cores {v} (h : MemInv s) : MemInv { s with cores := v } := h
theorem MemInv.with_ending {v} (h : MemInv s) : MemInv { s with ending := v } := h
theorem MemInv.with_endingCl {v} (h : MemInv s) : MemInv { s with endingCl := v } := h
theorem MemInv.with_fences {v} (h : MemInv s) : MemInv { s with fences := v } := h
theorem MemInv.with_free {v} (h : MemInv s) : MemInv { s with free := v } := h
theorem MemInv.with_funcs {v} (h : MemInv s) : MemInv { s with funcs := v } := h
theorem MemInv.with_handlers {v} (h : MemInv s) : MemInv { s with handlers := v } := h
theorem MemInv.with_hostBias {v} (h : MemInv s) : MemInv { s with hostBias := v } := h
theorem MemInv.with_inbox {v} (h : MemInv s) : MemInv { s with inbox := v } := h
theorem MemInv.with_islands {v} (h : MemInv s) : MemInv { s with islands := v } := h
theorem MemInv.with_lines {v} (h : MemInv s) : MemInv { s with lines := v } := h
theorem MemInv.with_links {v} (h : MemInv s) : MemInv { s with links := v } := h
theorem MemInv.with_loans {v} (h : MemInv s) : MemInv { s with loans := v } := h
theorem MemInv.with_mapAtReady {v} (h : MemInv s) : MemInv { s with mapAtReady := v } := h
theorem MemInv.with_mbDone {v} (h : MemInv s) : MemInv { s with mbDone := v } := h
theorem MemInv.with_mbReply {v} (h : MemInv s) : MemInv { s with mbReply := v } := h
theorem MemInv.with_mbreq {v} (h : MemInv s) : MemInv { s with mbreq := v } := h
theorem MemInv.with_mcs {v} (h : MemInv s) : MemInv { s with mcs := v } := h
theorem MemInv.with_naps {v} (h : MemInv s) : MemInv { s with naps := v } := h
theorem MemInv.with_nextBind {v} (h : MemInv s) : MemInv { s with nextBind := v } := h
theorem MemInv.with_nextGroup {v} (h : MemInv s) : MemInv { s with nextGroup := v } := h
theorem MemInv.with_nextOp {v} (h : MemInv s) : MemInv { s with nextOp := v } := h
theorem MemInv.with_nextOrder {v} (h : MemInv s) : MemInv { s with nextOrder := v } := h
theorem MemInv.with_nextPend {v} (h : MemInv s) : MemInv { s with nextPend := v } := h
theorem MemInv.with_ops {v} (h : MemInv s) : MemInv { s with ops := v } := h
theorem MemInv.with_outbox {v} (h : MemInv s) : MemInv { s with outbox := v } := h
theorem MemInv.with_parts {v} (h : MemInv s) : MemInv { s with parts := v } := h
theorem MemInv.with_pens {v} (h : MemInv s) : MemInv { s with pens := v } := h
theorem MemInv.with_phase {v} (h : MemInv s) : MemInv { s with phase := v } := h
theorem MemInv.with_poison {v} (h : MemInv s) : MemInv { s with poison := v } := h
theorem MemInv.with_poisonL2 {v} (h : MemInv s) : MemInv { s with poisonL2 := v } := h
theorem MemInv.with_pools {v} (h : MemInv s) : MemInv { s with pools := v } := h
theorem MemInv.with_portDrops {v} (h : MemInv s) : MemInv { s with portDrops := v } := h
theorem MemInv.with_reserves {v} (h : MemInv s) : MemInv { s with reserves := v } := h
theorem MemInv.with_rounds {v} (h : MemInv s) : MemInv { s with rounds := v } := h
theorem MemInv.with_rtc {v} (h : MemInv s) : MemInv { s with rtc := v } := h
theorem MemInv.with_segNaps {v} (h : MemInv s) : MemInv { s with segNaps := v } := h
theorem MemInv.with_segs {v} (h : MemInv s) : MemInv { s with segs := v } := h
theorem MemInv.with_segwait {v} (h : MemInv s) : MemInv { s with segwait := v } := h
theorem MemInv.with_selDue {v} (h : MemInv s) : MemInv { s with selDue := v } := h
theorem MemInv.with_selfTest {v} (h : MemInv s) : MemInv { s with selfTest := v } := h
theorem MemInv.with_shepDown {v} (h : MemInv s) : MemInv { s with shepDown := v } := h
theorem MemInv.with_slice {v} (h : MemInv s) : MemInv { s with slice := v } := h
theorem MemInv.with_slots {v} (h : MemInv s) : MemInv { s with slots := v } := h
theorem MemInv.with_spdmAlg {v} (h : MemInv s) : MemInv { s with spdmAlg := v } := h
theorem MemInv.with_tlb {v} (h : MemInv s) : MemInv { s with tlb := v } := h
theorem MemInv.with_verdict {v} (h : MemInv s) : MemInv { s with verdict := v } := h
theorem MemInv.with_checked_nextOp {v1 v2} (h : MemInv s) : MemInv { s with checked := v1, nextOp := v2 } := h
theorem MemInv.with_cur_checked {v1 v2} (h : MemInv s) : MemInv { s with cur := v1, checked := v2 } := h
theorem MemInv.with_cxlen_hostBias {v1 v2} (h : MemInv s) : MemInv { s with cxlen := v1, hostBias := v2 } := h
theorem MemInv.with_handlers_ops {v1 v2} (h : MemInv s) : MemInv { s with handlers := v1, ops := v2 } := h
theorem MemInv.with_inbox_again {v1 v2} (h : MemInv s) : MemInv { s with inbox := v1, again := v2 } := h
theorem MemInv.with_islands_raiseAt {v1 v2} (h : MemInv s) : MemInv { s with islands := v1, raiseAt := v2 } := h
theorem MemInv.with_mbBusy_mbReply {v1 v2} (h : MemInv s) : MemInv { s with mbBusy := v1, mbReply := v2 } := h
theorem MemInv.with_ops_naps {v1 v2} (h : MemInv s) : MemInv { s with ops := v1, naps := v2 } := h
theorem MemInv.with_ops_nextOp {v1 v2} (h : MemInv s) : MemInv { s with ops := v1, nextOp := v2 } := h
theorem MemInv.with_ops_tlb {v1 v2} (h : MemInv s) : MemInv { s with ops := v1, tlb := v2 } := h
theorem MemInv.with_outbox_config {v1 v2} (h : MemInv s) : MemInv { s with outbox := v1, config := v2 } := h
theorem MemInv.with_phase_units {v1 v2} (h : MemInv s) : MemInv { s with phase := v1, units := v2 } := h
theorem MemInv.with_reserves_selDue {v1 v2} (h : MemInv s) : MemInv { s with reserves := v1, selDue := v2 } := h
theorem MemInv.with_reserves_selfTest {v1 v2} (h : MemInv s) : MemInv { s with reserves := v1, selfTest := v2 } := h
theorem MemInv.with_spdmVer_spdmAlg {v1 v2} (h : MemInv s) : MemInv { s with spdmVer := v1, spdmAlg := v2 } := h
theorem MemInv.with_tlb_segNaps {v1 v2} (h : MemInv s) : MemInv { s with tlb := v1, segNaps := v2 } := h
theorem MemInv.with_units_mapver {v1 v2} (h : MemInv s) : MemInv { s with units := v1, mapver := v2 } := h
theorem MemInv.with_biasGo_biasDir_biasPage {v1 v2 v3} (h : MemInv s) : MemInv { s with biasGo := v1, biasDir := v2, biasPage := v3 } := h
theorem MemInv.with_checked_ops_nextOp {v1 v2 v3} (h : MemInv s) : MemInv { s with checked := v1, ops := v2, nextOp := v3 } := h
theorem MemInv.with_conts_binds_nextBind {v1 v2 v3} (h : MemInv s) : MemInv { s with conts := v1, binds := v2, nextBind := v3 } := h
theorem MemInv.with_image_factory_units {v1 v2 v3} (h : MemInv s) : MemInv { s with image := v1, factory := v2, units := v3 } := h
theorem MemInv.with_phase_units_mapver {v1 v2 v3} (h : MemInv s) : MemInv { s with phase := v1, units := v2, mapver := v3 } := h
theorem MemInv.with_biasGo_biasDone_biasDir_biasPage_biasNext {v1 v2 v3 v4 v5} (h : MemInv s) :
    MemInv { s with biasGo := v1, biasDone := v2, biasDir := v3, biasPage := v4, biasNext := v5 } := h

end
end Sys2Proof
end

