-- ==== Sys2Proof/Proofs/MemoryBase.lean ====
section
/-!
PROOFS. The state's own operations keep the form of both memories: its accessors, stores and page walks, frames, accesses under way,
fences.
-/
namespace Sys2Proof
open Machine
set_option Elab.async false

section
variable {s : State}

/-! ## The state and its memories -/

theorem MemInv.setCoreAt {c x} (h : MemInv s) : MemInv (s.setCoreAt c x) := h.with_cores

theorem MemInv.setCore {x} (h : MemInv s) : MemInv (s.setCore x) := h.setCoreAt

theorem MemInv.setArch {x} (h : MemInv s) : MemInv (s.setArch x) := h.setCore

theorem MemInv.onArch {f} (h : MemInv s) : MemInv (s.onArch f) := h.setArch

theorem MemInv.onCoreAt {c f} (h : MemInv s) : MemInv (s.onCoreAt c f) := h.setCoreAt

theorem MemInv.onArchAt {c f} (h : MemInv s) : MemInv (s.onArchAt c f) := h.onCoreAt

theorem MemInv.setCluster {q x} (h : MemInv s) : MemInv (s.setCluster q x) := h.with_clusters

theorem MemInv.setPen {p x} (h : MemInv s) : MemInv (s.setPen p x) := h.with_pens

theorem MemInv.setMc {m x} (h : MemInv s) : MemInv (s.setMc m x) := h.with_mcs

theorem MemInv.onMc {m f} (h : MemInv s) : MemInv (s.onMc m f) := h.setMc

theorem MemInv.setPart {p x} (h : MemInv s) : MemInv (s.setPart p x) := h.with_parts

theorem MemInv.onPart {p f} (h : MemInv s) : MemInv (s.onPart p f) := h.setPart

theorem MemInv.setCont {k x} (h : MemInv s) : MemInv (s.setCont k x) := h.with_conts

theorem MemInv.onCont {k f} (h : MemInv s) : MemInv (s.onCont k f) := h.setCont

theorem MemInv.setBind {b x} (h : MemInv s) : MemInv (s.setBind b x) := h.with_binds

theorem MemInv.onBind {b f} (h : MemInv s) : MemInv (s.onBind b f) := h.setBind

theorem MemInv.setFence {n x} (h : MemInv s) : MemInv (s.setFence n x) := h.with_fences

theorem MemInv.setFunc {n x} (h : MemInv s) : MemInv (s.setFunc n x) := h.with_funcs

theorem MemInv.onFunc {n f} (h : MemInv s) : MemInv (s.onFunc n f) := h.setFunc

theorem MemInv.fresh (h : MemInv s) : MemInv s.fresh.2 := h.with_free

theorem MemInv.setOp {o} (h : MemInv s) : MemInv (s.setOp o) := h.with_ops

theorem MemInv.dropOp {id} (h : MemInv s) : MemInv (s.dropOp id) := h.with_ops_tlb

theorem MemInv.setLineTs {line x} (h : MemInv s) : MemInv (s.setLineTs line x) := h.with_lines

theorem MemInv.stampWrite {line p} (h : MemInv s) : MemInv (s.stampWrite line p).2 := h.setLineTs

theorem MemInv.stampLines {p n n1} (h : MemInv s) : MemInv (s.stampLines p n n1).2 := by
  induction n1 generalizing s p n with
  | zero => exact h
  | succ n ih =>
    unfold State.stampLines
    split
    rename_i e
    split
    rename_i e1
    exact MemInv.of_eq e1 (ih (h.stampWrite.of_eq e))

theorem MemInv.raisePts {k t} (h : MemInv s) : MemInv (s.raisePts k t) := h.onCont

theorem MemInv.viaCache {pa n write} (h : MemInv s) : MemInv (s.viaCache pa n write) := .ite h.with_outbox h

theorem MemInv.putMem {p pa bs} (h : MemInv s) : MemInv (s.putMem p pa bs).2 := by
  unfold State.putMem
  extract_lets n
  split
  rename_i e
  have ht := h.stampLines.of_eq e
  exact .ite ht ⟨wrBytes_wf _ _ ht.1, ht.2⟩

theorem MemInv.wrMem {p pa bs} (h : MemInv s) : MemInv (s.wrMem p pa bs).2 := h.viaCache.putMem

theorem MemInv.checkpoint {c} (h : MemInv s) : MemInv (s.checkpoint c) := h.onCoreAt

theorem MemInv.commitBut {c cl pa n} (h : MemInv s) : MemInv (s.commitBut c cl pa n) := .foldl (fun _ _ ht => ht.checkpoint) h

theorem MemInv.commitLines {cl pa n} (h : MemInv s) : MemInv (s.commitLines cl pa n) := h.commitBut

theorem MemInv.commitAll {l} (h : MemInv s) : MemInv (s.commitAll l) := by
  induction l generalizing s with
  | nil => exact h
  | cons x l ih => exact ih h.commitLines

theorem MemInv.hostAs {fn pasid write addr n} (h : MemInv s) : MemInv (s.hostAs fn pasid write addr n) := h.with_outbox

theorem MemInv.hostLink {m write addr n} (h : MemInv s) : MemInv (s.hostLink m write addr n) := h.hostAs

theorem MemInv.force {c} (h : MemInv s) : MemInv (s.force c) := h.onCoreAt

theorem MemInv.fillTlb {w mc key vpn leaf home} (h : MemInv s) : MemInv (s.fillTlb w mc key vpn leaf home) := h.with_tlb_segNaps

theorem MemInv.took {key k t} (h : MemInv s) : MemInv (s.took key k t) := h.with_ops.onCont

/-- A page walk sets A and D with one byte of memory, unless a fenced stack holds the entry. -/
theorem MemInv.setAD {w mc key va kind y} (h : MemInv s) : MemInv (s.setAD w mc key va kind y) := by
  unfold State.setAD
  split
  · exact h
  · extract_lets d b b'
    split
    rename_i e
    have ht := h.stampWrite.of_eq e
    extract_lets s1
    have h1 : MemInv s1 := by
      unfold s1
      split
      · exact ht.took
      · exact ht
    refine .fillTlb (h1.with_mem ?_)
    split
    · exact h1.1
    · exact wrByte_wf _ _ h1.1

theorem MemInv.walkCommit {mc va} (h : MemInv s) : MemInv (s.walkCommit mc va) := h.commitAll

theorem MemInv.xlateDo {w mc key va kind} (h : MemInv s) : MemInv (s.xlateDo w mc key va kind).2 := by
  unfold State.xlateDo
  dsimp only
  split
  · exact h.walkCommit.setAD
  · exact h.walkCommit

theorem MemInv.xlatePref {w mc key va} (h : MemInv s) : MemInv (s.xlatePref w mc key va).2 := by
  unfold State.xlatePref
  dsimp only
  split
  · exact h.walkCommit.fillTlb
  · exact h.walkCommit

theorem MemInv.sendMsi {fn v} (h : MemInv s) : MemInv (s.sendMsi fn v) := .ite h.setFunc h.with_outbox

theorem MemInv.setFerr {fn code datum} (h : MemInv s) : MemInv (s.setFerr fn code datum) := .ite h.setFunc h.setFunc.sendMsi

theorem MemInv.ringSignal {fn r} (h : MemInv s) : MemInv (s.ringSignal fn r) := .ite h.setFunc.sendMsi h

theorem MemInv.hostGet {fn pasid a n} (h : MemInv s) : MemInv (s.hostGet fn pasid a n).2 := .ite_snd h h.hostAs

theorem MemInv.hostPut {fn pasid a n l} (h : MemInv s) : MemInv (s.hostPut fn pasid a n l).2 := by
  induction n generalizing s a l with
  | zero => exact h
  | succ n ih =>
    unfold State.hostPut
    extract_lets n1 t bad t1
    have ht : MemInv t := h.hostAs
    exact .ite_snd h (ih (.ite ht.setFunc (ht.with_host (wrBytes_wf _ _ ht.2))))

theorem MemInv.postRecord {fn r compl lostAt rec} (h : MemInv s) : MemInv (s.postRecord fn r compl lostAt rec) := by
  unfold State.postRecord
  refine .ite h (.ite h.setFunc.setFerr (.ite h.setFunc (.ite h.hostAs.setFunc (.ringSignal (.setFunc ?_)))))
  exact h.hostAs.with_host (wrBytes_wf _ _ h.2)

theorem MemInv.postEvent {mc kind code slot d0 d1} (h : MemInv s) : MemInv (s.postEvent mc kind code slot d0 d1) := h.postRecord

theorem MemInv.shepFail {mc cause reason va} (h : MemInv s) : MemInv (s.shepFail mc cause reason va) := h.onMc.postEvent

theorem MemInv.askPage {sg at'} (h : MemInv s) : MemInv (s.askPage sg at') := by
  unfold State.askPage
  dsimp only
  split
  · exact .ite h h.with_segs
  · exact h

theorem MemInv.nap {mc vpn} (h : MemInv s) : MemInv (s.nap mc vpn) := .ite h h.with_naps

theorem MemInv.segNap {mc vpn sg at'} (h : MemInv s) : MemInv (s.segNap mc vpn sg at').2 := by
  unfold State.segNap
  dsimp only
  split
  · exact .ite_snd h.askPage.with_segNaps h.askPage
  · exact h.askPage.with_segNaps

theorem MemInv.shepGo {mc va n kind} (h : MemInv s) : MemInv (s.shepGo mc va n kind).2 := by
  unfold State.shepGo
  dsimp only
  split
  · exact h.with_shepDown
  · split
    · rename_i e
      have ht := h.xlateDo.of_eq e
      exact .ite_snd (.ite ht ht.shepFail.with_shepDown) (.ite ht.commitLines.viaCache ht.commitLines)
    · exact .ite h h.shepFail.with_shepDown
    · exact .ite h h.shepFail.with_shepDown
    · rename_i e
      exact (h.xlateDo.of_eq e).nap.with_shepDown
    · rename_i e
      have ht := h.xlateDo.of_eq e
      exact .ite_snd (.ite ht.segNap ht.segNap.shepFail.with_shepDown) ht.segNap.with_shepDown

theorem MemInv.shepUp (h : MemInv s) : MemInv s.shepUp := h.with_shepDown

theorem MemInv.shepWrite {mc va bs} (h : MemInv s) : MemInv (s.shepWrite mc va bs) := by
  unfold State.shepWrite
  split
  · rename_i e
    exact (h.shepGo.of_eq e).wrMem
  · rename_i e
    exact h.shepGo.of_eq e

/-! ## Operands -/

theorem MemInv.tileWr {c d r b bs} (h : MemInv s) : MemInv (s.tileWr c d r b bs) := .ite h.setCluster h.onArchAt

/-! ## Register writes -/

theorem MemInv.mcRecord {e} (h : MemInv s) : MemInv (s.mcRecord e) := by
  unfold State.mcRecord
  split
  rename_i e
  exact (h.fresh.of_eq e).with_banks

theorem MemInv.coreErrorAt {c source sev mc addr} (h : MemInv s) : MemInv (s.coreErrorAt c source sev mc addr) := by
  unfold State.coreErrorAt
  split
  rename_i e
  exact (h.fresh.of_eq e).mcRecord

theorem MemInv.coreError {c source sev mc} (h : MemInv s) : MemInv (s.coreError c source sev mc) := h.coreErrorAt

theorem MemInv.retryOver {c} (h : MemInv s) : MemInv (s.retryOver c) := .ite h.coreError.onCoreAt h

theorem MemInv.retryPassed {c} (h : MemInv s) : MemInv (s.retryPassed c) := by
  unfold State.retryPassed
  dsimp only
  split
  · exact .ite h.coreError.onCoreAt h
  · exact h

/-! ## Frames -/

theorem MemInv.shepReach {mc kind va n n1} (h : MemInv s) : MemInv (s.shepReach mc kind va n n1) := by
  induction n generalizing s mc kind va n1 with
  | zero => exact h
  | succ n ih => exact .ite h.shepGo (ih h.shepGo)

theorem MemInv.frameNap {mc fslot} (h : MemInv s) : MemInv (s.frameNap mc fslot) := .foldl (fun _ _ ht => ht.nap) h

theorem MemInv.areaWrite {mc va n l} (h : MemInv s) : MemInv (s.areaWrite mc va n l) := by
  induction n generalizing s mc va l with
  | zero => exact h
  | succ n ih => exact .ite h.shepWrite (ih h.shepWrite)

theorem MemInv.frameWrite {mc fslot off bs} (h : MemInv s) : MemInv (s.frameWrite mc fslot off bs) := h.areaWrite

/-- An image clears its part of the frame, then writes the bytes that are not 0. -/
theorem MemInv.frameImage {mc fslot off lo m n n1} (h : MemInv s) : MemInv (s.frameImage mc fslot off lo m n n1) := by
  induction n generalizing s off lo n1 with
  | zero => exact h
  | succ n ih =>
    unfold State.frameImage
    extract_lets -underBinder va room n2 s1
    have h1 : MemInv s1 := by
      unfold s1
      split
      · rename_i e
        have ht := h.shepGo.of_eq e
        refine .ite ht.stampLines.viaCache ⟨?_, ht.stampLines.viaCache.2⟩
        exact List.foldlRecOn (motive := fun m => Memory.wf m = true) _ _ (clear_wf _ _ ht.1) fun _ hm _ _ => wrByte_wf _ _ hm
      · rename_i e
        exact h.shepGo.of_eq e
    exact .ite h1 (ih h1)

theorem MemInv.setContState {k st} (h : MemInv s) : MemInv (s.setContState k st) := h.onCont.frameWrite.shepUp

theorem MemInv.passUp {mc} (h : MemInv s) : MemInv (s.passUp mc) := by
  unfold State.passUp
  dsimp only
  split
  · exact .ite h.setMc h
  · exact h

theorem MemInv.decideMc {mc host} (h : MemInv s) : MemInv (s.decideMc mc host) := .ite h (.onMc (.ite h.passUp h))

theorem MemInv.selectAt {b} (h : MemInv s) : MemInv (s.selectAt b) := h.with_selDue

theorem MemInv.makeRunnable {k} (h : MemInv s) : MemInv (s.makeRunnable k) := h.setContState.onCont.with_nextOrder.selectAt.decideMc

theorem MemInv.startvReach {mc} (h : MemInv s) : MemInv (s.startvReach mc) := .ite h.shepReach h.shepReach.shepReach

theorem MemInv.newCont {mc b fs stage resume carry0 carry1 rb} (h : MemInv s) :
    MemInv (s.newCont mc b fs stage resume carry0 carry1 rb) := by
  unfold State.newCont
  exact h.frameWrite.frameWrite.setCont.onMc

theorem MemInv.contReach {mc fs} (h : MemInv s) : MemInv (s.contReach mc fs) := .ite h.shepUp.startvReach h.shepUp.startvReach.shepReach

/-! ## Accesses under way -/

theorem MemInv.onOpArch {o f} (h : MemInv s) : MemInv (s.onOpArch o f) := h.onCoreAt

theorem MemInv.wrote {o t} (h : MemInv s) : MemInv (s.wrote o t) := h.took

theorem MemInv.finishOp {o} (h : MemInv s) : MemInv (s.finishOp o) := by
  unfold State.finishOp
  dsimp only
  split
  · exact .ite h.dropOp.onOpArch h.dropOp
  · exact h.dropOp

theorem MemInv.lateOp {o t} (h : MemInv s) : MemInv (s.lateOp o t) := .ite h.setOp.onCoreAt h.setOp.onCont

theorem MemInv.waitOn {o why} (h : MemInv s) : MemInv (s.waitOn o why) := .setOp (.ite h.askPage h)

theorem MemInv.writeDest {o w} (h : MemInv s) : MemInv (s.writeDest o w) := by
  unfold State.writeDest
  split
  · exact h.onOpArch
  · refine .shepUp ?_
    split
    · split
      · refine .frameWrite ?_
        split
        · exact h.frameWrite
        · exact h
      · split
        · refine .frameWrite ?_
          split
          · exact h.frameWrite
          · exact h
        · split
          · exact h.frameWrite
          · exact h
    · split
      · exact h.frameWrite
      · exact h

theorem MemInv.destNap {o} (h : MemInv s) : MemInv (s.destNap o) := .ite h h.frameNap

theorem MemInv.writeTag {o t v} (h : MemInv s) : MemInv (s.writeTag o t v) := .ite h.onOpArch (.ite h.frameWrite.shepUp h)

theorem MemInv.endLoan {mc sg} (h : MemInv s) : MemInv (s.endLoan mc sg) := by
  unfold State.endLoan
  dsimp only
  split
  · exact h
  · split
    · exact h
    · exact h.with_loans.onMc

theorem MemInv.beginLoan {mc sg} (h : MemInv s) : MemInv (s.beginLoan mc sg) := .ite h h.with_loans.onMc

/-! ## Fences -/

theorem MemInv.wakeFence {n force l} (h : MemInv s) : MemInv (s.wakeFence n force l) := by
  induction l generalizing s with
  | nil => exact h
  | cons x l ih =>
    refine ih ?_
    split
    · dsimp only
      split
      · exact h.onCont.makeRunnable.endLoan
      · exact h.onCont.makeRunnable
    · exact h

theorem MemInv.waitfEnd {c n t err} (h : MemInv s) : MemInv (s.waitfEnd c n t err) := by
  unfold State.waitfEnd
  dsimp only
  split
  · exact h.raisePts.onArchAt.endLoan
  · exact h.raisePts.onArchAt
  · exact h.raisePts

theorem MemInv.wakeWaitf {n force l} (h : MemInv s) : MemInv (s.wakeWaitf n force l) := by
  induction l generalizing s with
  | nil => exact h
  | cons x l ih =>
    refine ih ?_
    split
    · exact .ite h.waitfEnd h
    · exact h

theorem MemInv.wakePackets {n} (h : MemInv s) : MemInv (s.wakePackets n) := h.with_funcs

theorem MemInv.fenceUpdate {n t f} (h : MemInv s) : MemInv (s.fenceUpdate n t f) := h.setFence.wakeFence.wakeWaitf.wakePackets

theorem MemInv.fenceError {mc n t} (h : MemInv s) : MemInv (s.fenceError mc n t) := h.fenceUpdate.postEvent

theorem MemInv.freeClus {q z} (h : MemInv s) : MemInv (s.freeClus q z) := h.setCluster

theorem MemInv.noteTile {c i} (h : MemInv s) : MemInv (s.noteTile c i) := h.onCoreAt

theorem MemInv.tfree {c t} (h : MemInv s) : MemInv (s.tfree c t) := .ite h (.ite h.noteTile.freeClus h.onArchAt)

theorem MemInv.opFree {o t} (h : MemInv s) : MemInv (s.opFree o t) := .ite h (.ite h.onOpArch.freeClus h.onOpArch.onOpArch)

/-! ## Tensors -/

theorem MemInv.vread {w mc key va n n1} (h : MemInv s) : MemInv (s.vread w mc key va n n1).2 := by
  induction n generalizing s w mc key va n1 with
  | zero => exact h
  | succ n ih =>
    unfold State.vread
    split
    · exact h
    · dsimp only
      split
      · rename_i e
        have ht := h.xlateDo.of_eq e
        split
        · exact ht
        · split
          · exact ht
          · split
            · rename_i e1
              exact MemInv.of_eq e1 (ih ht.commitLines.viaCache)
            · exact ih ht.commitLines.viaCache
      · rename_i e
        exact h.xlateDo.of_eq e

theorem MemInv.tensor {w mc key n} (h : MemInv s) : MemInv (s.tensor w mc key n).2 := by
  unfold State.tensor
  split
  · rename_i e
    exact h.vread.of_eq e
  · rename_i e
    exact h.vread.of_eq e
  · rename_i e
    exact h.vread.of_eq e

theorem MemInv.tileAddr {w mc key t i kind} (h : MemInv s) : MemInv (s.tileAddr w mc key t i kind).2 := by
  unfold State.tileAddr
  dsimp only
  split
  · rename_i e
    exact h.xlateDo.of_eq e
  · rename_i e
    have ht := h.xlateDo.of_eq e
    split
    · exact ht
    · split
      · exact ht.commitLines.viaCache.fillTlb
      · exact ht.commitLines.viaCache
  · rename_i e
    exact h.xlateDo.of_eq e

/-! ## Progress records -/

theorem MemInv.lateWork {c id issued slot t image} (h : MemInv s) : MemInv (s.lateWork c id issued slot t image) := h.onCoreAt

theorem MemInv.readFault {slot i t} (h : MemInv s) : MemInv (s.readFault slot i t) := h.onCont.with_nextOp.lateWork

end

end Sys2Proof
end

