-- ==== Sys2Proof/Proofs/MemoryEngines.lean ====
section
/-!
PROOFS. The engines keep the form of both memories: tile accesses, pieces of an operand, waited passes, the Fold.
-/
namespace Sys2Proof
open Machine
set_option Elab.async false

section
variable {s : State}

/-! ## Engines -/

theorem MemInv.undoClus {c addr n} (h : MemInv s) : MemInv (s.undoClus c addr n) := h.onCoreAt

theorem MemInv.tilePut {c slot tent now' d row lo bs} (h : MemInv s) : MemInv (s.tilePut c slot tent now' d row lo bs) :=
  .ite h (.ite (.tileWr (.ite h.undoClus h)) (.ite h.tileWr h.onArchAt))

theorem MemInv.tileStore {c tent d row off k bs} (h : MemInv s) : MemInv (s.tileStore c tent d row off k bs) :=
  .ite h.tilePut (.foldl (fun _ _ ht => ht.tilePut) h)

theorem MemInv.tileScatter {c tent d x k bs} (h : MemInv s) : MemInv (s.tileScatter c tent d x k bs) := .foldl
    (fun _ _ ht => ht.tilePut) h

theorem MemInv.tileUnit {o slot fin} (h : MemInv s) (hfin : ∀ t, MemInv t → MemInv (fin t)) : MemInv (s.tileUnit o slot fin) :=
  .ite (hfin _ (.foldl (fun _ _ ht => ht.tilePut) h)) (.setOp (.foldl (fun _ _ ht => ht.tilePut) h))

theorem MemInv.tileRun {o} (h : MemInv s) : MemInv (s.tileRun o) := by
  unfold State.tileRun
  dsimp only
  split
  · exact h.lateOp
  · split
    · split
      · exact h.lateOp
      · exact h.writeDest.finishOp
    · split
      · exact h.lateOp
      · exact h.writeDest.finishOp
    · exact .tileUnit h (fun _ ht => ht.finishOp)
    · exact .tileUnit h (fun _ ht => ht.finishOp)
    · exact .tileUnit h (fun _ ht => ht.writeTag.finishOp)
    · exact h

theorem MemInv.tileWhole {id n} (h : MemInv s) : MemInv (s.tileWhole id n) := by
  induction n generalizing s id with
  | zero => exact h
  | succ n ih =>
    unfold State.tileWhole
    split
    · exact .ite h (ih h.tileRun)
    · exact h

theorem MemInv.settleClus {c id d row lo n} (h : MemInv s) : MemInv (s.settleClus c id d row lo n) :=
  .ite (.commitBut (.foldl (fun _ _ ht => ht.tileWhole) h)) h

theorem MemInv.passFault {c p t} (h : MemInv s) : MemInv (s.passFault c p t) := h.onArchAt.lateWork

theorem MemInv.passReads {c} (h : MemInv s) : MemInv (s.passReads c) := by
  unfold State.passReads
  refine .foldl (fun _ _ ht => ?_) h
  split
  · exact ht
  · dsimp only
    split
    · exact ht.settleClus.passFault
    · exact ht.settleClus.onArchAt

theorem MemInv.passLands {c} (h : MemInv s) : MemInv (s.passLands c) := by
  unfold State.passLands
  refine .foldl (fun _ _ ht => ?_) h.onArchAt
  split
  · exact ht.onArchAt.lateWork
  · split
    · exact ht.passFault
    · exact ht.onArchAt

theorem MemInv.readLands {c} (h : MemInv s) : MemInv (s.readLands c) :=
  .foldl (fun _ _ ht => .ite ht.onArchAt (.onArchAt (.foldl (fun _ _ ht => ht.tilePut) ht))) h.onArchAt

theorem MemInv.xRead {c x} (h : MemInv s) : MemInv (s.xRead c x).1 := by
  unfold State.xRead
  split
  · exact h
  · dsimp only
    exact .ite_fst (.ite h.settleClus h) (.ite_fst (.ite h.settleClus h) (.ite h.settleClus h))

theorem MemInv.xReads {c} (h : MemInv s) : MemInv (s.xReads c) := by
  unfold State.xReads
  refine .onArchAt (.foldl_fst (fun _ _ ht => ?_) h)
  split
  rename_i e
  exact ht.xRead.of_fst_eq e

theorem MemInv.xPendLand {c now' x p} (h : MemInv s) : MemInv (s.xPendLand c now' x p) := by
  unfold State.xPendLand
  split
  · exact h.lateWork
  · dsimp only
    split
    · split
      · exact .foldl (fun _ _ ht => ht.settleClus.tilePut) h
      · exact .onArchAt (.foldl (fun _ _ ht => ht.settleClus.tilePut) h)
    · exact .foldl (fun _ _ ht => ht.settleClus.tilePut) h

theorem MemInv.xLands {c} (h : MemInv s) : MemInv (s.xLands c) := by
  unfold State.xLands
  refine .foldl (fun _ _ ht => ?_) h.onArchAt
  dsimp only
  split
  · exact .foldl (fun _ _ ht => ht.xPendLand) ht
  · exact .ite (.foldl (fun _ _ ht => ht.xPendLand) ht) (.onArchAt (.foldl (fun _ _ ht => ht.xPendLand) ht))

theorem MemInv.enginesRead {c} (h : MemInv s) : MemInv (s.enginesRead c) := h.passReads.xReads

/-! ## Pieces of an operand -/

theorem MemInv.virtPieces {o kind n n1 n2} (h : MemInv s) : MemInv (s.virtPieces o kind n n1 n2).2 := by
  induction n generalizing s o kind n1 n2 with
  | zero => exact h
  | succ n ih =>
    unfold State.virtPieces
    split
    · exact h
    · dsimp only
      split
      · rename_i e
        have ht := h.xlateDo.of_eq e
        split
        · exact ht
        · split
          · exact ht
          · split
            · rename_i e1
              exact MemInv.of_eq e1 (ih ht)
            · exact ih ht
      · rename_i e
        exact h.xlateDo.of_eq e

theorem MemInv.pieces {o kind l n} (h : MemInv s) : MemInv (s.pieces o kind l n).2 := by
  unfold State.pieces
  split
  · split
    · exact h
    · split <;> exact h
  · exact h.virtPieces
  · split
    · rename_i e
      have ht := h.tileAddr.of_eq e
      exact .ite_snd ht ht
    · rename_i e
      exact h.tileAddr.of_eq e
    · rename_i e
      exact h.tileAddr.of_eq e

theorem MemInv.commitPieces {q l} (h : MemInv s) : MemInv (s.commitPieces q l) := by
  induction l generalizing s q with
  | nil => exact h
  | cons x l ih =>
    unfold State.commitPieces
    split
    · exact ih h.commitLines
    · exact ih h.commitLines
    · exact ih h

theorem MemInv.cachePieces {ps} (h : MemInv s) : MemInv (s.cachePieces ps) := .foldl (fun _ _ ht => ht.viaCache) h

theorem MemInv.writePiece {o p bs} (h : MemInv s) : MemInv (s.writePiece o p bs).2 := by
  unfold State.writePiece
  split
  · exact h.wrMem
  · exact h.with_host (wrBytes_wf _ _ h.2)
  · exact h.onOpArch
  · exact h.setCluster

theorem MemInv.writePieces {o l l1} (h : MemInv s) : MemInv (s.writePieces o l l1).2 := by
  induction l generalizing s o l1 with
  | nil => exact h
  | cons x l ih =>
    unfold State.writePieces
    split
    rename_i e
    split
    rename_i e1
    exact MemInv.of_eq e1 (ih (h.writePiece.of_eq e))

theorem MemInv.opWrite {o l bs} (h : MemInv s) : MemInv (s.opWrite o l bs).2 := by
  unfold State.opWrite
  split
  rename_i e
  exact (h.writePieces.of_eq e).wrote

theorem MemInv.netPieces {mc key kind n n1 n2} (h : MemInv s) : MemInv (s.netPieces mc key kind n n1 n2).2 := by
  induction n generalizing s mc key kind n1 n2 with
  | zero => exact h
  | succ n ih =>
    unfold State.netPieces
    split
    · exact h
    · dsimp only
      split
      · rename_i e
        exact h.xlateDo.of_eq e
      · rename_i e
        have ht := h.xlateDo.of_eq e
        split
        · rename_i e1
          exact MemInv.of_eq e1 (ih ht)
        · exact ih ht
      · rename_i e
        exact h.xlateDo.of_eq e

theorem MemInv.netRead {mc key va n} (h : MemInv s) : MemInv (s.netRead mc key va n).2 := h.vread

theorem MemInv.netWrite {mc key p va bs} (h : MemInv s) : MemInv (s.netWrite mc key p va bs).2 := by
  unfold State.netWrite
  split
  · rename_i e
    refine List.foldlRecOn (motive := fun t : ℕ × List Byte × State => MemInv t.2.2) _ _ (h.netPieces.of_eq e).commitPieces ?_
    exact fun _ ht _ _ => ht.wrMem
  · rename_i e
    exact h.netPieces.of_eq e
  · rename_i e
    exact h.netPieces.of_eq e

theorem MemInv.movePieces {o us ud l} (h : MemInv s) : MemInv (s.movePieces o us ud l).2 := by
  induction l generalizing s with
  | nil => exact h
  | cons x l ih =>
    unfold State.movePieces
    extract_lets get
    have hget : ∀ t k a n, MemInv t → MemInv (get t k a n).2 := fun t k a n ht => by
      unfold get
      split
      · exact ht.pieces
      · exact ht
    clear_value get
    split
    · rename_i e
      have h1 := MemInv.of_eq e (hget _ _ _ _ h)
      split
      · rename_i e'
        have h2 := MemInv.of_eq e' (hget _ _ _ _ h1)
        split
        · rename_i e''
          exact (ih h2).of_eq e''
        · exact ih h2
      · rename_i e'
        exact MemInv.of_eq e' (hget _ _ _ _ h1)
      · rename_i e'
        exact MemInv.of_eq e' (hget _ _ _ _ h1)
    · rename_i e
      exact MemInv.of_eq e (hget _ _ _ _ h)
    · rename_i e
      exact MemInv.of_eq e (hget _ _ _ _ h)

/-! ## Waited passes -/

theorem MemInv.statKey {o} (h : MemInv s) : MemInv (s.statKey o).2 := by
  unfold State.statKey
  dsimp only
  split
  · split
    · rename_i e
      have ht := h.tensor.of_eq e
      split
      · exact ht
      · split
        · rename_i e1
          have ht1 := ht.vread.of_eq e1
          split
          · exact ht1
          · split
            · rename_i e2
              have ht2 := ht1.tileAddr.of_eq e2
              exact .ite_snd ht2 ht2
            · rename_i e2
              exact ht1.tileAddr.of_eq e2
            · rename_i e2
              exact ht1.tileAddr.of_eq e2
        · rename_i e1
          exact ht.vread.of_eq e1
        · rename_i e1
          exact ht.vread.of_eq e1
    · rename_i e
      exact h.tensor.of_eq e
    · rename_i e
      exact h.tensor.of_eq e
    · rename_i e
      exact h.tensor.of_eq e
  · exact .ite_snd h h

theorem MemInv.waitedPut {o k stat} (h : MemInv s) : MemInv (s.waitedPut o k stat) := by
  unfold State.waitedPut
  dsimp only
  exact h.onOpArch.finishOp

theorem MemInv.statReads {k} (h : MemInv s) : MemInv (s.statReads k) := .ite h.commitPieces.cachePieces h

theorem MemInv.waitedRows {o k} (h : MemInv s) : MemInv (s.waitedRows o k) := by
  unfold State.waitedRows
  dsimp only
  split
  · exact .foldl (fun _ _ ht => ht.settleClus) h
  · exact .foldl (fun _ _ ht => ht.settleClus) (.foldl (fun _ _ ht => ht.settleClus) h)

theorem MemInv.waitedLand {o k stat} (h : MemInv s) : MemInv (s.waitedLand o k stat) := by
  unfold State.waitedLand
  split
  · exact h.lateOp
  · exact h.waitedPut

theorem MemInv.waitedBad {o} (h : MemInv s) : MemInv (s.waitedBad o) := h.onOpArch.lateOp

theorem MemInv.waitedBegin {o w} (h : MemInv s) : MemInv (s.waitedBegin o w) := by
  unfold State.waitedBegin
  dsimp only
  split
  · exact h
  · split
    · rename_i e
      exact (h.statKey.of_eq e).lateOp
    · rename_i e
      exact (h.statKey.of_eq e).waitOn
    · rename_i e
      have ht := h.statKey.of_eq e
      exact .ite ht.setOp.onCoreAt ht.setOp

theorem MemInv.waitedDone {o w} (h : MemInv s) : MemInv (s.waitedDone o w) := by
  unfold State.waitedDone
  dsimp only
  split
  · exact h.statReads.waitedRows.lateOp
  · exact .ite h.statReads.waitedRows.waitedBad h.statReads.waitedRows.waitedLand

theorem MemInv.waitedEnd {o w} (h : MemInv s) : MemInv (s.waitedEnd o w) := .ite h h.waitedDone

theorem MemInv.waitedRun {o} (h : MemInv s) : MemInv (s.waitedRun o) := by
  unfold State.waitedRun
  split
  · exact .ite h.waitedBegin (.ite h h.waitedEnd)
  · exact h

/-! ## The Fold -/

theorem MemInv.foldCount {pen off n} (h : MemInv s) : MemInv (s.foldCount pen off n) := h.setPen

theorem MemInv.onGroups {pen f} (h : MemInv s) : MemInv (s.onGroups pen f) := h.setPen

theorem MemInv.foldForce {o} (h : MemInv s) : MemInv (s.foldForce o) := by
  unfold State.foldForce
  split
  · exact .ite h.setOp (.foldl (fun _ _ ht => ht.onGroups) h)
  · exact h

theorem MemInv.foldStall {c} (h : MemInv s) : MemOpt (s.foldStall c) := .map fun _ => h.foldForce.foldCount

theorem MemInv.foldQueued {q t} (h : MemInv s) : MemInv (s.foldQueued q t) := by
  unfold State.foldQueued
  refine .foldl (fun _ _ ht => ?_) h
  split
  · exact ht.foldForce
  · exact ht.setOp

theorem MemInv.foldArrive {o t} (h : MemInv s) : MemInv (s.foldArrive o t) := by
  unfold State.foldArrive
  split
  · exact h
  · dsimp only
    split
    · exact h.setOp.onGroups
    · exact h.setOp.setPen.with_nextGroup

theorem MemInv.foldTry {o t} (h : MemInv s) : MemInv (s.foldTry o t) := by
  unfold State.foldTry
  split
  · split
    · split
      · split
        · rename_i e
          exact (h.statKey.of_eq e).foldArrive
        · rename_i e
          exact (h.statKey.of_eq e).lateOp
        · rename_i e
          exact (h.statKey.of_eq e).waitOn
      · exact .ite h.foldArrive h
    · exact h
  · exact h

theorem MemInv.foldTranslate {o t} (h : MemInv s) : MemInv (s.foldTranslate o t) := by
  unfold State.foldTranslate
  split
  · split
    · split
      · rename_i e
        exact (h.statKey.of_eq e).setOp
      · rename_i e
        exact (h.statKey.of_eq e).lateOp
      · rename_i e
        exact (h.statKey.of_eq e).waitOn
    · exact h
  · exact h

theorem MemInv.foldArrivals {q t} (h : MemInv s) : MemInv (s.foldArrivals q t) := .foldl (fun _ _ ht => ht.foldTry) h

theorem MemInv.foldDue {pen t} (h : MemInv s) : MemInv (s.foldDue pen t) := by
  unfold State.foldDue
  refine .foldl (fun _ _ ht => ?_) h
  split
  · exact ht
  · split
    · exact ht.onGroups.foldCount
    · exact ht

theorem MemInv.foldReady {q t} (h : MemInv s) : MemInv (s.foldReady q t) := by
  unfold State.foldReady
  refine .foldl (fun _ _ ht => ?_) h
  split
  · exact .ite ht ht.onGroups
  · exact ht

theorem MemInv.foldPin {pen gid} (h : MemInv s) : MemInv (s.foldPin pen gid) := by
  unfold State.foldPin
  split
  · exact .ite h.onGroups h
  · exact h

theorem MemInv.foldStart {pen t} (h : MemInv s) : MemInv (s.foldStart pen t) := by
  unfold State.foldStart
  split
  · exact h
  · split
    · exact h
    · refine .foldCount (.foldCount (.foldl (fun _ _ ht => ?_) h.onGroups))
      split
      · exact ht.setOp
      · exact ht

theorem MemInv.foldStarts {q t} (h : MemInv s) : MemInv (s.foldStarts q t) := .foldl (fun _ _ ht => ht.foldStart) h

theorem MemInv.dropGroup {pen gid} (h : MemInv s) : MemInv (s.dropGroup pen gid) := h.setPen

theorem MemInv.foldFail {pen g f} (h : MemInv s) (hf : ∀ t x0, MemInv t → MemInv (f t x0)) : MemInv (s.foldFail pen g f) :=
  .foldCount (.foldl (fun _ _ ht => hf _ _ ht) h.dropGroup)

theorem MemInv.foldLand {gs} (h : MemInv s) : MemInv (s.foldLand gs) := by
  unfold State.foldLand
  extract_lets s1 ms ts overtaken s2
  have h1 : MemInv s1 := .foldl (fun _ _ ht => .foldl (fun _ _ hu => hu.waitedRows) (.ite ht.fresh.mcRecord ht.fresh)) h
  have h2 : MemInv s2 := .foldl (fun _ _ ht => ht.dropGroup) h1
  refine .foldl (fun _ _ ht => ?_) h2
  split
  split
  · exact ht.lateOp
  · exact .foldCount (.foldCount (.ite ht.finishOp ht.waitedPut))

theorem MemInv.foldSplit {pen g} (h : MemInv s) : MemInv (s.foldSplit pen g) := h.foldLand

theorem MemInv.foldLoaded {pen t g} (h : MemInv s) : MemInv (s.foldLoaded pen t g) := by
  unfold State.foldLoaded
  split
  · exact h
  · dsimp only
    split
    · exact .foldFail h.statReads (fun _ _ ht => ht.lateOp)
    · exact .ite (.foldFail h.statReads (fun _ _ ht => ht.waitedBad)) (.ite h.statReads h.statReads.foldCount)

theorem MemInv.foldBegin {q t} (h : MemInv s) : MemInv (s.foldBegin q t) :=
  .foldReady (.foldStarts (.foldl (fun _ _ ht => ht.foldDue) h.foldQueued.foldArrivals))

theorem MemInv.foldFinish {q t} (h : MemInv s) : MemInv (s.foldFinish q t) :=
  .with_endingCl (.foldLand (.with_endingCl (.foldl (fun _ _ ht => .foldl (fun _ _ ht => ht.foldLoaded) ht) (.foldStarts (.foldl
    (fun _ _ ht => ht.foldDue) h)))))

theorem MemInv.foldWithdraw {o} (h : MemInv s) : MemInv (s.foldWithdraw o) :=
  .ite (.foldCount (.foldl (fun _ _ ht => ht.setPen) h)) (.foldl (fun _ _ ht => ht.setPen) h)

theorem MemInv.foldRehost {pen} (h : MemInv s) : MemInv (s.foldRehost pen) := by
  unfold State.foldRehost
  refine .foldl (fun _ _ ht => ?_) h
  split
  · exact .ite ht ht.dropGroup.setPen.foldCount
  · exact ht

theorem MemInv.foldRetry {pen g} (h : MemInv s) : MemOpt (s.foldRetry pen g) := by
  unfold State.foldRetry
  split
  · exact .some h
  · exact .ite (.some h) (.ite .none (.some h.onGroups))

/-! ## Packets -/

theorem MemInv.emit {key port ip mac vlan sp dp nonce hdr pt} (h : MemInv s) : MemInv (s.emit key port ip mac vlan sp dp nonce hdr pt)
    := by
  unfold State.emit
  split
  exact h.with_outbox

theorem MemInv.rxPool {mc key} (h : MemInv s) : MemInv (s.rxPool mc key).2 := by
  unfold State.rxPool
  split
  · rename_i e
    exact h.netRead.of_eq e
  · rename_i e
    exact h.netRead.of_eq e
  · rename_i e
    exact h.netRead.of_eq e

theorem MemInv.takeBuf {mc p} (h : MemInv s) : MemInv (s.takeBuf mc p).2 := by
  unfold State.takeBuf
  split
  · exact h
  · split
    · rename_i e
      have ht := h.netRead.of_eq e
      split
      · rename_i e1
        exact ht.netWrite.of_eq e1
      · rename_i e1
        exact ht.netWrite.of_eq e1
      · rename_i e1
        exact ht.netWrite.of_eq e1
    · rename_i e
      exact h.netRead.of_eq e
    · rename_i e
      exact h.netRead.of_eq e

theorem MemInv.returnBuf {mc key buf} (h : MemInv s) : MemInv (s.returnBuf mc key buf).2 := by
  unfold State.returnBuf
  split
  · rename_i e
    have ht := h.rxPool.of_eq e
    split
    · rename_i e1
      have ht1 := ht.netWrite.of_eq e1
      split
      · rename_i e2
        exact ht1.netWrite.of_eq e2
      · rename_i e2
        exact ht1.netWrite.of_eq e2
      · rename_i e2
        exact ht1.netWrite.of_eq e2
    · rename_i e1
      exact ht.netWrite.of_eq e1
    · rename_i e1
      exact ht.netWrite.of_eq e1
  · rename_i e
    exact h.rxPool.of_eq e
  · rename_i e
    exact h.rxPool.of_eq e

theorem MemInv.giveBuf {mc buf} (h : MemInv s) : MemInv (s.giveBuf mc buf) := by
  unfold State.giveBuf
  split
  · rename_i e
    exact h.returnBuf.of_eq e
  · rename_i e
    exact (h.returnBuf.of_eq e).onMc

theorem MemInv.giveOwed (h : MemInv s) : MemInv s.giveOwed := .foldl (fun _ _ ht => .foldl (fun _ _ ht => ht.giveBuf) ht.onMc) h

theorem MemInv.sendRoute {aes mc key typ route rid pt} (h : MemInv s) : MemInv (s.sendRoute aes mc key typ route rid pt).2 := by
  unfold State.sendRoute
  split
  · rename_i e
    exact h.rxPool.of_eq e
  · rename_i e
    exact h.rxPool.of_eq e
  · rename_i e
    have ht := h.rxPool.of_eq e
    split
    · exact ht
    · split
      · rename_i e1
        exact ht.netRead.of_eq e1
      · rename_i e1
        exact ht.netRead.of_eq e1
      · rename_i e1
        have ht1 := ht.netRead.of_eq e1
        dsimp only
        split
        · exact ht1
        · split
          · exact ht1
          · split
            · rename_i e2
              exact ht1.netWrite.of_eq e2
            · rename_i e2
              exact ht1.netWrite.of_eq e2
            · rename_i e2
              exact (ht1.netWrite.of_eq e2).emit

end

end Sys2Proof
end

