-- ==== Sys2Proof/Proofs/MemoryCopies.lean ====
section
/-!
PROOFS. The X unit's copies and the sequence table keep the form of both memories.
-/
namespace Sys2Proof
open Machine
set_option Elab.async false

section
variable {s : State}

/-! ## Copies -/

theorem MemInv.copyEnd {o status count} (h : MemInv s) : MemInv (s.copyEnd o status count) :=
  .finishOp (.writeDest (.ite h (.ite h.fenceUpdate h.fenceError)))

theorem MemInv.descOf {o n} (h : MemInv s) : MemInv (s.descOf o n).2 := h.vread

theorem MemInv.endDesc {o w} (h : MemInv s) : MemInv (s.endDesc o w).2 := .ite_snd h h.descOf

theorem MemInv.readDescs {o} (h : MemInv s) : MemInv (s.readDescs o).2 := by
  unfold State.readDescs
  dsimp only
  split
  · rename_i e
    have h1 := h.endDesc.of_eq e
    split
    · rename_i t e'
      have h2 := h1.endDesc.of_eq e'
      have h3 : MemInv (match o.instr with | .cpy .. => t.descOf o (endNum (o.x.getD 2 0)) | _ => (.ok [], t)).2 := by
        split
        · exact h2.descOf
        · exact h2
      split
      · rename_i e''
        exact h3.of_eq e''
      · exact h3
    · exact h1.endDesc
  · exact h.endDesc

theorem MemInv.linkPieces {o write ps} (h : MemInv s) : MemInv (s.linkPieces o write ps) := .foldl (fun _ _ ht => ht.hostLink) h

theorem MemInv.moveAll {o src dst l} (h : MemInv s) : MemInv (s.moveAll o src dst l).2 := by
  induction l generalizing s o src dst with
  | nil => exact h
  | cons x l ih =>
    unfold State.moveAll
    dsimp only
    exact ih (.ite_snd h.linkPieces.linkPieces.cachePieces.opWrite h.linkPieces.linkPieces.cachePieces)

theorem MemInv.idxPieces {o k} (h : MemInv s) : MemInv (s.idxPieces o k).2 := by
  unfold State.idxPieces
  split
  · exact h
  · split
    · exact .ite_snd h h.pieces
    · exact h

theorem MemInv.stepPieces {o us ud n n1} (h : MemInv s) : MemInv (s.stepPieces o us ud n n1).2 := by
  induction n1 generalizing s o us ud n with
  | zero => exact h
  | succ n ih =>
    unfold State.stepPieces
    dsimp only
    split
    · rename_i e
      exact ih (h.movePieces.of_eq e)
    · rename_i e
      exact h.movePieces.of_eq e
    · rename_i e
      exact h.movePieces.of_eq e

theorem MemInv.moveRows {o src dst l} (h : MemInv s) : MemInv (s.moveRows o src dst l).2 := by
  induction l generalizing s o src dst with
  | nil => exact h
  | cons x l ih =>
    unfold State.moveRows
    split
    rename_i e
    exact ih (h.moveAll.of_eq e)

theorem MemInv.moveStep {o} (h : MemInv s) : MemInv (s.moveStep o) := by
  unfold State.moveStep
  dsimp only
  split
  · rename_i e
    exact (h.stepPieces.of_eq e).waitOn
  · rename_i e
    have ht := h.stepPieces.of_eq e
    split
    · exact ht
    · split
      · exact ht.commitPieces.moveRows.setOp.lateOp
      · exact .ite ht.commitPieces.moveRows.setOp ht.commitPieces.moveRows.copyEnd

theorem MemInv.copyStep {o} (h : MemInv s) : MemInv (s.copyStep o) := by
  unfold State.copyStep
  split
  · rename_i e
    exact (h.idxPieces.of_eq e).lateOp
  · rename_i e
    exact (h.idxPieces.of_eq e).waitOn
  · rename_i e
    exact (h.idxPieces.of_eq e).moveStep
  · rename_i e
    have ht := h.idxPieces.of_eq e
    exact .ite ht ht.commitPieces.setOp.moveStep

theorem MemInv.copyStart {o} (h : MemInv s) : MemInv (s.copyStart o) := by
  unfold State.copyStart
  split
  · rename_i e
    exact (h.readDescs.of_eq e).lateOp
  · rename_i e
    exact (h.readDescs.of_eq e).waitOn
  · rename_i e
    have ht := h.readDescs.of_eq e
    dsimp only
    split
    · exact ht.lateOp
    · exact ht.setOp

theorem MemInv.replyHost {o r pt} (h : MemInv s) : MemInv (s.replyHost o r pt) := by
  unfold State.replyHost
  dsimp only
  exact h.hostPut.onBind.copyEnd

theorem MemInv.replyNet {o r pt} (h : MemInv s) : MemInv (s.replyNet o r pt) := by
  unfold State.replyNet
  dsimp only
  split
  · rename_i e
    exact (h.netRead.of_eq e).lateOp
  · rename_i e
    exact (h.netRead.of_eq e).waitOn
  · rename_i e
    have ht := h.netRead.of_eq e
    exact .ite ht.copyEnd (.ite ht.copyEnd ht.emit.onBind.copyEnd)

theorem MemInv.cpynRun {o} (h : MemInv s) : MemInv (s.cpynRun o) := by
  unfold State.cpynRun
  dsimp only
  split
  · exact h.lateOp
  · split
    · exact h
    · split
      · exact h.lateOp
      · split
        · split
          · rename_i e
            exact (h.commitPieces.sendRoute.of_eq e).lateOp
          · rename_i e
            exact (h.commitPieces.sendRoute.of_eq e).waitOn
          · rename_i e
            exact (h.commitPieces.sendRoute.of_eq e).copyEnd
          · rename_i e
            exact (h.commitPieces.sendRoute.of_eq e).copyEnd
        · split
          · exact h.commitPieces.lateOp
          · split
            · exact h.commitPieces.replyHost
            · exact h.commitPieces.replyNet

theorem MemInv.tryMatch {o} (h : MemInv s) : MemInv (s.tryMatch o) := by
  unfold State.tryMatch
  split
  · exact .ite h.onMc h
  · exact h

theorem MemInv.useMsg {o} (h : MemInv s) : MemInv (s.useMsg o) := h.onMc

theorem MemInv.unmatch {o} (h : MemInv s) : MemInv (s.unmatch o) := h.onMc

theorem MemInv.nrecvRun {o} (h : MemInv s) : MemInv (s.nrecvRun o) := by
  unfold State.nrecvRun
  dsimp only
  split
  · exact h.tryMatch
  · split
    · exact h.tryMatch.unmatch.lateOp
    · split
      · exact h.tryMatch
      · split
        · rename_i e
          exact (h.tryMatch.netRead.of_eq e).unmatch.lateOp
        · rename_i e
          exact (h.tryMatch.netRead.of_eq e).waitOn
        · rename_i e
          have ht := h.tryMatch.netRead.of_eq e
          split
          · rename_i e1
            exact (ht.returnBuf.of_eq e1).unmatch.lateOp
          · rename_i e1
            exact (ht.returnBuf.of_eq e1).waitOn
          · rename_i e1
            exact (ht.returnBuf.of_eq e1).commitPieces.opWrite.useMsg.copyEnd

theorem MemInv.dropBroken {mc id rev} (h : MemInv s) : MemInv (s.dropBroken mc id rev) := .foldl (fun _ _ ht => ht.giveBuf) h.onMc

theorem MemInv.ringBreak {o} (h : MemInv s) : MemInv (s.ringBreak o) := by
  unfold State.ringBreak
  dsimp only
  split
  · exact h.unmatch.onMc.copyEnd.opFree
  · split
    · rename_i e
      exact (h.sendRoute.of_eq e).lateOp
    · rename_i e
      exact (h.sendRoute.of_eq e).waitOn
    · rename_i e
      exact (h.sendRoute.of_eq e).unmatch.onMc.copyEnd.opFree

theorem MemInv.ringLate {o} (h : MemInv s) : MemInv (s.ringLate o).2 := by
  unfold State.ringLate
  split
  · rename_i e
    exact h.rxPool.of_eq e
  · rename_i e
    exact h.rxPool.of_eq e
  · rename_i e
    exact h.rxPool.of_eq e

theorem MemInv.ringDrop {o} (h : MemInv s) : MemInv (s.ringDrop o) := .foldl (fun _ _ ht => ht.giveBuf) h.onMc

theorem MemInv.post {o} (h : MemInv s) : MemInv (s.post o) := by
  unfold State.post
  dsimp only
  split
  · exact .ite h.setOp.ringDrop.tryMatch h.setOp
  · exact h.setOp.tryMatch

theorem MemInv.ringSend {o} (h : MemInv s) : MemInv (s.ringSend o) := by
  unfold State.ringSend
  extract_lets -underBinder w d ps newest s1
  have h1 : MemInv s1 := h.onMc
  clear_value s1
  split
  · exact h1.lateOp
  · refine .ite h1 ?_
    split
    · exact h1.lateOp
    · dsimp only
      have ht := h1.commitPieces (q := clusterOfCore o.core) (l := ps)
      split
      · rename_i e
        exact (ht.sendRoute.of_eq e).lateOp
      · rename_i e
        exact (ht.sendRoute.of_eq e).waitOn
      · rename_i e
        exact (ht.sendRoute.of_eq e).post
      · rename_i e
        exact (ht.sendRoute.of_eq e).ringBreak

theorem MemInv.ringCombine {o u} (h : MemInv s) : MemInv (s.ringCombine o u) := by
  unfold State.ringCombine
  dsimp only
  split
  · exact h.unmatch.lateOp
  · exact h.unmatch.lateOp
  · split
    · exact h
    · split
      · rename_i e
        exact (h.netRead.of_eq e).unmatch.lateOp
      · rename_i e
        exact (h.netRead.of_eq e).waitOn
      · rename_i e
        have ht := h.netRead.of_eq e
        split
        · exact ht.unmatch.lateOp
        · split
          · rename_i e1
            exact (ht.commitPieces.returnBuf.of_eq e1).unmatch.lateOp
          · rename_i e1
            exact (ht.commitPieces.returnBuf.of_eq e1).waitOn
          · rename_i e1
            exact .copyEnd (.useMsg (.foldl_snd (fun _ _ ht => ht.opWrite) (ht.commitPieces.returnBuf.of_eq e1)))

theorem MemInv.ringRun {o} (h : MemInv s) : MemInv (s.ringRun o) := by
  unfold State.ringRun
  split
  · exact h.ringCombine
  · split
    · exact h.ringBreak
    · split
      · rename_i e
        exact (h.ringLate.of_eq e).lateOp
      · rename_i e
        exact (h.ringLate.of_eq e).waitOn
      · rename_i e
        exact (h.ringLate.of_eq e).ringBreak
      · rename_i e
        have ht := h.ringLate.of_eq e
        exact .ite ht.ringSend ht.ringDrop.tryMatch

/-- The translation is taken as a variable before the loop is unfolded: the kernel would otherwise evaluate it to compare two of its calls. -/
theorem MemInv.segScan {y : SegScan} {o ap page n} (h : MemInv y.s) : MemInv (s.segScan o ap page n y).s := by
  have hx : ∀ (t : State) w mc key va k, MemInv t → MemInv (t.xlateDo w mc key va k).2 := fun _ _ _ _ _ _ ht => ht.xlateDo
  delta State.segScan State.segScan._f
  revert hx
  generalize @State.xlateDo = X
  revert X
  refine id fun X hx => ?_
  induction n generalizing page y with
  | zero => exact h
  | succ n ih =>
    show MemInv (match X y.s (y.s.agent o) o.mc o.id _ .read with
      | (.ok _ _, t) => (_ : SegScan) | (.fault _ _, t) => _ | (.mig, t) => _ | (.seg sg e, t) => _).s
    split
    · rename_i e
      exact ih (MemInv.of_eq e (hx _ _ _ _ _ _ h))
    · rename_i e
      exact MemInv.of_eq e (hx _ _ _ _ _ _ h)
    · rename_i e
      exact ih (MemInv.of_eq e (hx _ _ _ _ _ _ h))
    · rename_i e
      exact ih (MemInv.of_eq e (hx _ _ _ _ _ _ h)).askPage

theorem MemInv.csegRun {o} (h : MemInv s) : MemInv (s.csegRun o) := by
  unfold State.csegRun
  extract_lets -underBinder x nowait pages r
  have hr : MemInv r.s := h.segScan
  clear_value nowait r
  split
  · exact hr.lateOp
  · refine .ite hr.copyEnd ?_
    split
    · exact hr.waitOn
    · exact .ite hr.copyEnd (.ite hr.copyEnd (.ite hr.copyEnd hr.setOp))

theorem MemInv.tookTurn {c} (h : MemInv s) : MemInv (s.tookTurn c) := h.setCluster

theorem MemInv.copyRun {o} (h : MemInv s) : MemInv (s.copyRun o) := by
  unfold State.copyRun
  dsimp only
  split
  · exact h
  · split
    · exact .ite h (.ite h.tookTurn.copyStart h.tookTurn.post)
    · split
      · exact h.copyStart
      · split
        · exact h.cpynRun
        · exact h.nrecvRun
        · exact h.ringRun
        · exact h.csegRun
        · exact h.copyStep

theorem MemInv.tilesFirst {o} (h : MemInv s) : MemInv (s.tilesFirst o) := .foldl (fun _ _ ht => ht.tileWhole) h

theorem MemInv.copySettle {o} (h : MemInv s) : MemInv (s.copySettle o) := by
  unfold State.copySettle
  split
  · exact h
  · refine .unmatch ?_
    split
    · exact h.tilesFirst.nrecvRun
    · exact h.tilesFirst.ringRun
    · exact h.tilesFirst

/-! ## The sequence table -/

theorem MemInv.seqPut {w a bs} (h : MemInv s) : MemInv (s.seqPut w a bs) := by
  unfold State.seqPut
  dsimp only
  split
  · exact h.commitLines.wrMem.wrote
  · exact h.commitLines.wrMem

theorem MemInv.putEntry {p i w e} (h : MemInv s) : MemInv (s.putEntry p i w e) := by
  unfold State.putEntry
  split
  · exact h.seqPut
  · exact h

theorem MemInv.putBlk {p b w state refs} (h : MemInv s) : MemInv (s.putBlk p b w state refs) := by
  unfold State.putBlk
  split
  · exact h.seqPut
  · exact h

theorem MemInv.putPage {l j w b} (h : MemInv s) : MemInv (s.putPage l j w b) := h.seqPut

theorem MemInv.setMark {l i w v} (h : MemInv s) : MemInv (s.setMark l i w v) := by
  unfold State.setMark
  exact h.seqPut

theorem MemInv.seqEnd {o v} (h : MemInv s) : MemInv (s.seqEnd o v) := by
  unfold State.seqEnd
  split
  · exact h.writeDest.finishOp
  · exact h.finishOp

theorem MemInv.cacheBlk {q part b size} (h : MemInv s) : MemInv (s.cacheBlk q part b size) := .ite h.setCluster h.setCluster

theorem MemInv.takeCached {q part size} (h : MemInv s) : MemOpt ((s.takeCached q part size).map (·.2)) := by
  unfold State.takeCached
  dsimp only
  split
  · exact MemOpt.some h.setCluster
  · exact MemOpt.none

theorem MemInv.dropGot {o} (h : MemInv s) : MemInv (s.dropGot o) := .foldl (fun _ _ ht => ht.cacheBlk) h

theorem MemInv.blkEnd {o v} (h : MemInv s) : MemInv (s.blkEnd o v) := h.dropGot.seqEnd

theorem MemInv.blkFault {o t} (h : MemInv s) : MemInv (s.blkFault o t) := h.dropGot.lateOp

theorem MemInv.takeMany {o size n} (h : MemInv s) : MemInv (s.takeMany o size n).2 := by
  induction n generalizing s o with
  | zero => exact h
  | succ n ih =>
    unfold State.takeMany
    split
    · rename_i e
      exact ih (MemInv.of_map_eq e h.takeCached)
    · exact h

theorem MemInv.obtain {o size n} (h : MemInv s) : MemInv (s.obtain o size n).2 := by
  unfold State.obtain
  split
  dsimp only
  exact .ite_snd h.dropGot.takeMany.setOp h.dropGot.takeMany.setOp

theorem MemInv.seqRefused {o} (h : MemInv s) : MemInv (s.seqRefused o) := by
  unfold State.seqRefused
  dsimp only
  split
  · exact h.fresh.blkEnd
  · exact h.blkEnd

theorem MemInv.refsUp {r} (h : MemInv s) : MemInv (s.refsUp r).2 := by
  unfold State.refsUp
  split
  · exact h
  · split
    rename_i e
    exact h.fresh.of_eq e

theorem MemInv.dropRef {q part w b} (h : MemInv s) : MemInv (s.dropRef q part w b) := by
  unfold State.dropRef
  dsimp only
  split
  · exact h
  · exact .ite h.putBlk h.putBlk.cacheBlk

theorem MemInv.seqMake {o i e pages} (h : MemInv s) : MemInv (s.seqMake o i e pages) := by
  unfold State.seqMake
  dsimp only
  split
  · refine .blkEnd (.onPart (.putEntry (.foldl (fun _ _ ht => ?_) h.seqPut.putBlk)))
    split
    · exact ht.putPage.refsUp.putBlk
    · exact ht.putPage
  · exact h.blkFault

theorem MemInv.seqCreate {o e pages} (h : MemInv s) : MemInv (s.seqCreate o e pages) := by
  unfold State.seqCreate
  dsimp only
  split
  · exact h.blkEnd
  · split
    · exact h.blkFault
    · exact h.blkEnd
    · split
      · rename_i e
        exact h.obtain.of_eq e
      · rename_i e
        exact (h.obtain.of_eq e).seqMake

theorem MemInv.sqnewRun {o} (h : MemInv s) : MemInv (s.sqnewRun o) := h.seqCreate

theorem MemInv.sqforkRun {o} (h : MemInv s) : MemInv (s.sqforkRun o) := by
  unfold State.sqforkRun
  dsimp only
  split
  · exact h.blkFault
  · split
    · exact h.blkFault
    · split
      · exact h.blkFault
      · split
        · exact h.blkFault
        · exact h.seqCreate

theorem MemInv.resPage {o e l x} (h : MemInv s) : MemInv (s.resPage o e l x) := by
  unfold State.resPage
  dsimp only
  split
  · exact h
  · refine .putPage (.putBlk ?_)
    split
    · exact h.seqPut.putBlk
    · exact h

theorem MemInv.sqresRun {o} (h : MemInv s) : MemInv (s.sqresRun o) := by
  unfold State.sqresRun
  dsimp only
  split
  · exact h.blkFault
  · split
    · exact h.blkEnd
    · split
      · exact h.blkEnd
      · split
        · exact h.blkEnd
        · split
          · exact h.blkEnd
          · split
            · exact h.blkFault
            · split
              · exact h.blkFault
              · split
                · rename_i e
                  exact h.obtain.of_eq e
                · rename_i e
                  have ht := h.obtain.of_eq e
                  exact .ite ht.blkFault (.ite ht (.blkEnd (.putEntry (.foldl (fun _ _ ht => ht.resPage) ht))))

theorem MemInv.moveStart {o e} (h : MemInv s) : MemInv (s.moveStart o e) := by
  unfold State.moveStart
  dsimp only
  split
  · exact h.lateOp
  · split
    · exact h.lateOp
    · exact h.setOp

theorem MemInv.moveSlot {o} (h : MemInv s) : MemInv (s.moveSlot o) := by
  unfold State.moveSlot
  dsimp only
  split
  · exact h
  · split
    · exact h.lateOp
    · split
      · exact h.lateOp
      · split
        · exact h
        · split
          · exact h.lateOp
          · split <;> exact .ite h.commitPieces.opWrite.setOp h.commitPieces.opWrite.seqEnd

theorem MemInv.advanceCl {l w rl n n1} (h : MemInv s) : MemInv (s.advanceCl l w rl n n1).1 := by
  induction n generalizing s l w rl n1 with
  | zero => exact h
  | succ n ih => exact .ite_fst (ih h.setMark) h

theorem MemInv.sqwaitRun {o} (h : MemInv s) : MemInv (s.sqwaitRun o) := by
  unfold State.sqwaitRun
  dsimp only
  split
  · exact h.seqEnd
  · exact .ite h.fresh.seqEnd (.ite h.seqEnd (.ite h.seqEnd h))

theorem MemInv.seqWaits {part i} (h : MemInv s) : MemInv (s.seqWaits part i) := .foldl (fun _ _ ht => ht.sqwaitRun) h

theorem MemInv.sqcmtRun {o} (h : MemInv s) : MemInv (s.sqcmtRun o) := by
  unfold State.sqcmtRun
  dsimp only
  split
  · exact h.lateOp
  · split
    · exact h.lateOp
    · exact .ite h (.seqWaits (.seqEnd (.putEntry (.advanceCl (.foldl (fun _ _ ht => ht.setMark) h)))))

theorem MemInv.sqrelRun {o} (h : MemInv s) : MemInv (s.sqrelRun o) := by
  unfold State.sqrelRun
  dsimp only
  split
  · exact h
  · split
    · exact h.lateOp
    · exact .seqWaits (.seqEnd (.onPart (.putEntry (.foldl (fun _ _ ht => ht.dropRef) h))))

theorem MemInv.sqlenRun {o} (h : MemInv s) : MemInv (s.sqlenRun o) := by
  unfold State.sqlenRun
  dsimp only
  split
  · exact h.lateOp
  · exact h.seqEnd

theorem MemInv.sqinfoRun {o} (h : MemInv s) : MemInv (s.sqinfoRun o) := by
  unfold State.sqinfoRun
  dsimp only
  split
  · exact h.lateOp
  · exact h.seqEnd

theorem MemInv.attStart {o e v} (h : MemInv s) : MemInv (s.attStart o e v) := by
  unfold State.attStart
  dsimp only
  split
  · split
    · exact h.lateOp
    · split
      · exact h.lateOp
      · exact h.lateOp
      · exact h.setOp
  · split
    · exact h.lateOp
    · split
      · exact h.lateOp
      · exact h.lateOp
      · exact h.setOp

theorem MemInv.attWrite {o p} (h : MemInv s) : MemInv (s.attWrite o p).2 := h.opWrite

theorem MemInv.attSave {o} (h : MemInv s) : MemInv (s.attSave o) := by
  unfold State.attSave
  split
  · exact h
  · split
    rename_i e
    exact (h.attWrite.of_eq e).setOp

theorem MemInv.attChunk {o} (h : MemInv s) : MemInv (s.attChunk o) := by
  unfold State.attChunk
  dsimp only
  split
  · exact h.lateOp
  · exact h.lateOp
  · split
    · split
      · exact h
      · split
        · exact h.attSave.lateOp
        · split
          · exact h.commitPieces.attWrite.seqEnd
          · split
            · exact h.commitPieces.attSave.lateOp
            · exact .ite h.commitPieces.attWrite.seqEnd h.commitPieces.setOp
    · split
      · exact h
      · split
        · exact h.attSave.lateOp
        · split
          · exact h.commitPieces.attWrite.seqEnd
          · split
            · exact h.commitPieces.attSave.lateOp
            · exact .ite h.commitPieces.attWrite.seqEnd h.commitPieces.setOp

theorem MemInv.sqmrgRun {o} (h : MemInv s) : MemInv (s.sqmrgRun o) := by
  unfold State.sqmrgRun
  dsimp only
  split
  · exact h.lateOp
  · split
    · exact h
    · split
      · exact h.lateOp
      · exact .seqEnd (.foldl_snd (fun _ _ ht => ht.opWrite) h.commitPieces)

theorem MemInv.seqTookTurn {c} (h : MemInv s) : MemInv (s.seqTookTurn c) := h.setCluster

theorem MemInv.seqStart {o} (h : MemInv s) : MemInv (s.seqStart o) := by
  unfold State.seqStart
  split
  · exact h.setOp
  · exact h.setOp
  · dsimp only
    split
    · exact h.lateOp
    · exact h.lateOp
    · split
      · exact h.lateOp
      · exact h.lateOp
      · split
        · exact h.moveStart
        · exact h.moveStart
        · exact h.attStart
        · exact h.setOp.sqwaitRun
        · exact h.setOp
        · exact h.setOp

theorem MemInv.seqWork {o} (h : MemInv s) : MemInv (s.seqWork o) := by
  unfold State.seqWork
  split
  · exact h.sqnewRun
  · exact h.sqresRun
  · exact h.moveSlot
  · exact h.moveSlot
  · exact h.sqcmtRun
  · exact h.sqlenRun
  · exact h.sqwaitRun
  · exact h.sqforkRun
  · exact h.sqrelRun
  · exact h.attChunk
  · exact h.sqmrgRun
  · exact h.sqinfoRun
  · exact h

theorem MemInv.seqClear {part} (h : MemInv s) : MemInv (s.seqClear part) := h.commitAll

theorem MemInv.seqRun {o} (h : MemInv s) : MemInv (s.seqRun o) := by
  unfold State.seqRun
  split
  · exact h
  · dsimp only
    split
    · exact .ite h.seqClear.seqTookTurn.seqStart h.seqClear
    · exact .ite h.seqClear.seqRefused (.ite h.seqClear h.seqClear.seqWork)

theorem MemInv.poisonBlk {part blk} (h : MemInv s) : MemInv (s.poisonBlk part blk) := by
  unfold State.poisonBlk
  split
  · exact h
  · split
    · exact h
    · refine .foldl (fun _ _ ht => ?_) h.putBlk
      dsimp only
      exact ht.setCluster

theorem MemInv.poisonBlocks {unit} (h : MemInv s) : MemInv (s.poisonBlocks unit) :=
  .foldl (fun _ _ ht => .foldl (fun _ _ ht => ht.poisonBlk) ht) h

theorem MemInv.seqSettle {o} (h : MemInv s) : MemInv (s.seqSettle o) := by
  unfold State.seqSettle
  split
  · exact h
  · split
    · dsimp only
      split
      · exact .ite (.ite h.tilesFirst.seqStart h.tilesFirst) (.seqWork (.ite h.tilesFirst.seqStart h.tilesFirst))
      · exact .ite h.tilesFirst.seqStart h.tilesFirst
    · exact .ite h.attSave h.dropGot.setOp

end

end Sys2Proof
end

