-- ==== Sys2Proof/Proofs/MemoryFreeze.lean ====
section
/-!
PROOFS. The freeze of a core, scalar accesses and arriving packets keep the form of both memories.
-/
namespace Sys2Proof
open Machine
set_option Elab.async false

section
variable {s : State}

/-! ## The freeze -/

theorem MemInv.writeAreas {mc fs a live} (h : MemInv s) : MemInv (s.writeAreas mc fs a live) := by
  unfold State.writeAreas
  refine .foldl_fst (fun _ _ ht => ht.frameImage) (.foldl (fun _ _ ht => ht.frameWrite) (.frameWrite (.foldl (fun _ _ ht => ?_) h)))
  split
  · exact ht.frameWrite
  · exact ht.frameWrite
  · exact ht.frameImage
  · exact ht

theorem MemInv.releaseCore {c} (h : MemInv s) : MemInv (s.releaseCore c) := h.retryOver.onBind.setCoreAt

theorem MemInv.suspFrame {c resume amask smask vmask wkind wid wtarget} (h : MemInv s) :
    MemInv (s.suspFrame c resume amask smask vmask wkind wid wtarget) := h.frameWrite.writeAreas.frameWrite.frameWrite.frameWrite

theorem MemInv.passFinish {c p} (h : MemInv s) : MemInv (s.passFinish c p).1 := .foldl_fst (fun _ _ ht => ht.settleClus) h

theorem MemInv.passSettle_zeroed {t : PassSettle} {rem} (h : MemInv t.s) : MemInv (t.zeroed rem).s := h

theorem MemInv.passSettle {c} (h : MemInv s) : MemInv (s.passSettle c).s := by
  refine List.foldlRecOn (motive := fun y : PassSettle => MemInv y.s) _ _ h fun y hy p _ => ?_
  dsimp only
  split
  · exact hy
  · split
    · exact hy.onArchAt
    · have ht : MemInv ((y.zeroed (p.lat - p.age)).s.passFinish c p).1 := hy.passFinish
      split
      · exact ht
      · exact ht

theorem MemInv.passRecs {c imgs} (h : MemInv s) : MemInv (s.passRecs c imgs).1 := by
  unfold State.passRecs
  refine .foldl_fst (fun _ _ ht => ?_) h
  split
  exact ht.frameImage

theorem MemInv.readRecs {c} (h : MemInv s) : MemInv (s.readRecs c).1 := .foldl_fst (fun _ _ ht => ht.frameImage) h

theorem MemInv.xFinish {c n y} (h : MemInv s) : MemInv (s.xFinish c n y).1 := by
  induction n generalizing s c y with
  | zero => exact h
  | succ n ih =>
    unfold State.xFinish
    split
    · exact h
    · split
      rename_i e
      exact ih (h.xRead.of_fst_eq e)

theorem MemInv.xSettleLand {c x l} (h : MemInv s) : MemInv (s.xSettleLand c x l).1 := by
  induction l generalizing s c x with
  | nil => exact h
  | cons x l ih => exact .ite_fst h (ih h.xPendLand)

theorem MemInv.xSettle {c} (h : MemInv s) : MemInv (s.xSettle c).1 := by
  unfold State.xSettle
  refine .foldl_fst (fun _ _ ht => ?_) h
  split
  rename_i e
  split
  rename_i e1
  have ht1 := (ht.xFinish.of_fst_eq e).xSettleLand.of_fst_eq e1
  exact .ite_fst ht1 ht1

theorem MemInv.foldFire {o} (h : MemInv s) : MemInv (s.foldFire o) := by
  unfold State.foldFire
  split
  · exact h
  · dsimp only
    refine .onGroups ?_
    split
    · split
      · exact h.statReads.waitedRows.onOpArch
      · exact .foldCount (.foldCount (.ite h.statReads.waitedRows.finishOp h.statReads.waitedRows.waitedPut))
    · exact h.statReads.waitedRows

theorem MemInv.waitedSettle {o} (h : MemInv s) : MemInv (s.waitedSettle o).1 := by
  unfold State.waitedSettle
  dsimp only
  split
  · split
    · exact .ite_fst h.foldFire h.foldFire.dropOp
    · exact .ite_fst (.ite h.tilesFirst.waitedDone h) (.dropOp (.ite h.tilesFirst.waitedDone h))
    · exact .ite_fst h.foldWithdraw h.foldWithdraw.dropOp
  · exact .ite_fst h h.dropOp

theorem MemInv.opSettle_after {t : OpSettle} {o} (h : MemInv s) : MemInv (t.after o s).s := by
  unfold Machine.OpSettle.after
  split
  · exact h
  · split
    · exact h.onCoreAt.onCont.setOp
    · exact h.dropOp

theorem MemInv.opSettle_one {t : OpSettle} {o} (h : MemInv t.s) : MemInv (t.one o).s := by
  unfold Machine.OpSettle.one
  dsimp only
  split
  · split
    · exact h.dropOp
    · exact h.setOp
  · split
    · exact h.dropOp
    · exact h.setOp
  · split
    · exact h.dropOp
    · exact h.setOp
  · exact h
  · split
    · exact h.dropOp
    · exact h.copySettle.opSettle_after
  · split
    · exact h.dropOp
    · exact h.seqSettle.opSettle_after
  · exact h

theorem MemInv.stallSettle {c} (h : MemInv s) : MemInv (s.stallSettle c) := by
  unfold State.stallSettle
  dsimp only
  split
  · exact h.onArchAt.endLoan
  · exact .ite h.onArchAt.onCont (.ite h.onArchAt (.ite h.onArchAt.dropOp h.onArchAt.onBind))
  · exact h.onArchAt

theorem MemInv.putRecs {mc fs j l} (h : MemInv s) : MemInv (s.putRecs mc fs j l) := by
  induction l generalizing s mc fs j with
  | nil => exact h
  | cons x l ih => exact .ite (ih (.ite h.frameWrite h.frameWrite.frameWrite)) h.onCont

theorem MemInv.freezeCoreWith {c late} (h : MemInv s) : MemInv (s.freezeCoreWith c late) := by
  unfold State.freezeCoreWith
  extract_lets -underBinder x
  split
  extract_lets -underBinder k s1 fens lateRecs ws
  have h1 : MemInv s1 := h.shepUp.stallSettle
  split
  rename_i s2 wrecs e2
  have h2 : MemInv s2 := MemInv.of_fst_eq e2 (.foldl_fst (fun _ _ ht => ht.waitedSettle) h1)
  extract_lets -underBinder s3 occ
  have h3 : MemInv s3 := .ite h2.onArchAt h2
  split
  rename_i s4 xrecs e4
  have h4 : MemInv s4 := h3.xSettle.of_fst_eq e4
  extract_lets -underBinder s5 ps
  have h5 : MemInv ps.s := h4.onArchAt.passSettle
  split
  rename_i s6 precs e6
  have h6 : MemInv s6 := h5.passRecs.of_fst_eq e6
  split
  rename_i s7 rrecs e7
  have h7 : MemInv s7 := h6.readRecs.of_fst_eq e7
  extract_lets -underBinder s8 busy t s9 re recs a s10
  have h8 : MemInv s8 := h7.onArchAt
  have h9 : MemInv s9 := List.foldlRecOn (motive := fun y : OpSettle => MemInv y.s) _ _ h8 fun _ hy _ _ => hy.opSettle_one
  have h10 : MemInv s10 := h9.onCont
  split
  split
  extract_lets -underBinder zf s11 s12 s13 held es s14 s15 s16 s17 s18
  have h12 : MemInv s12 := h10.frameWrite.writeAreas
  have h13 : MemInv s13 := .foldl (fun _ _ ht => .ite ht.frameImage ht) h12
  have h14 : MemInv s14 := .putRecs (.foldl (fun _ _ ht => ht.frameWrite) h13)
  have h17 : MemInv s17 := h14.frameWrite.frameWrite.onCont
  exact h17.onCont.shepUp.releaseCore

theorem MemInv.freezeCore {c} (h : MemInv s) : MemInv (s.freezeCore c) := h.freezeCoreWith

theorem MemInv.runnableWhenDone {k} (h : MemInv s) : MemInv (s.runnableWhenDone k) := .ite h.onCont h.onCont.makeRunnable

/-! ## Operations -/

theorem MemInv.trapEvent {mc fslot info resume t} (h : MemInv s) : MemInv (s.trapEvent mc fslot info resume t) := by
  unfold State.trapEvent
  split <;> exact h.postEvent

theorem MemInv.countTrap {mc b cause} (h : MemInv s) : MemInv (s.countTrap mc b cause) := h.onMc.onBind

theorem MemInv.deliver {k resume info t} (h : MemInv s) : MemInv (s.deliver k resume info t) := .ite h.trapEvent h.with_handlers

theorem MemInv.stopAt {c st} (h : MemInv s) : MemInv (s.stopAt c st) := h.onCoreAt

theorem MemInv.trapNow {c sylslot t late} (h : MemInv s) : MemInv (s.trapNow c sylslot t late) :=
  h.countTrap.freezeCoreWith.onCont.setContState.with_verdict.deliver

theorem MemInv.takeTrapOf {c sylslot t late} (h : MemInv s) : MemInv (s.takeTrapOf c sylslot t late) :=
  .ite h.frameNap.with_verdict (.ite h.stopAt.with_verdict h.trapNow)

theorem MemInv.takeTrap {c sylslot t} (h : MemInv s) : MemInv (s.takeTrap c sylslot t) := h.takeTrapOf

theorem MemInv.carriedDone {k} (h : MemInv s) : MemInv (s.carriedDone k) := by
  unfold State.carriedDone
  dsimp only
  split
  · exact h
  · split
    · exact h.frameNap
    · split
      · split
        · refine .makeRunnable (.onCont ?_)
          split
          · exact .onCont (.foldl (fun _ _ ht => ht.dropOp) h)
          · exact .frameWrite (.putRecs (.shepUp (.onCont (.foldl (fun _ _ ht => ht.dropOp) h))))
        · refine .onCont ?_
          split
          · exact .onCont (.foldl (fun _ _ ht => ht.dropOp) h)
          · exact .frameWrite (.putRecs (.shepUp (.onCont (.foldl (fun _ _ ht => ht.dropOp) h))))
      · refine .deliver (.setContState (.onCont (.countTrap (.onCont ?_))))
        split
        · split
          · exact .onCont (.foldl (fun _ _ ht => ht.dropOp) h)
          · exact .frameWrite (.putRecs (.shepUp (.onCont (.foldl (fun _ _ ht => ht.dropOp) h))))
        · split
          · exact .onCont (.foldl (fun _ _ ht => ht.dropOp) h)
          · exact .frameWrite (.putRecs (.shepUp (.onCont (.foldl (fun _ _ ht => ht.dropOp) h))))

theorem MemInv.issue {slot g chk hold eff} (hhold : ∀ t, MemInv t → MemOpt (hold t)) (heff : ∀ t, MemInv t → MemInv (eff t))
    (h : MemInv s) :
    MemOut (issue slot g chk hold eff s) := by
  unfold Machine.issue
  split
  · exact .next h.with_verdict
  · split
    · exact .next h.takeTrap
    · split
      · rename_i e
        have ht := MemOpt.of_eq e (.ite .none (hhold _ h))
        exact .next ht.with_verdict
      · exact .next (.with_verdict (heff _ h))

theorem MemInv.issueF {slot g eff} (heff : ∀ t, MemInv t → MemInv (eff t)) (h : MemInv s) : MemOut (issueF slot g eff s) :=
  MemInv.issue (fun _ _ => .none) (fun _ ht => heff _ ht) h

theorem MemInv.result {lat slot flags w} (h : MemInv s) : MemInv (s.result lat slot flags w) := h.onArch

theorem MemInv.commitPoint (h : MemInv s) : MemInv s.commitPoint := h.setCore

theorem MemInv.pushOp {o} (h : MemInv s) : MemInv (s.pushOp o) := h.with_ops_nextOp

theorem MemInv.startOp {c o} (h : MemInv s) : MemInv (s.startOp c o) := h.onArch.pushOp

theorem MemInv.barRelease {bd b bts l} (h : MemInv s) : MemInv (s.barRelease bd b bts l) := by
  induction l generalizing s with
  | nil => exact h
  | cons x l ih =>
    refine ih ?_
    split
    · exact .ite h.onCoreAt.raisePts h
    · exact h

theorem MemInv.barWake {bd b bts l} (h : MemInv s) : MemInv (s.barWake bd b bts l) := by
  induction l generalizing s bd b bts with
  | nil => exact h
  | cons x l ih => exact ih (.ite h.raisePts.makeRunnable h)

/-! ## Scalar accesses and tiles -/

theorem MemInv.aOp {g d f} (h : MemInv s) : MemOut (aOp g d f s) := MemInv.issueF (fun _ ht => ht.result) h

theorem MemInv.execAadd {g d a b} (h : MemInv s) : MemOut (execAadd g d a b s) := h.aOp

theorem MemInv.execAaddi {g d a imm ext} (h : MemInv s) : MemOut (execAaddi g d a imm ext s) := h.aOp

theorem MemInv.execAsub {g d a b} (h : MemInv s) : MemOut (execAsub g d a b s) := h.aOp

theorem MemInv.execAmov {g d a b} (h : MemInv s) : MemOut (execAmov g d a b s) := h.aOp

theorem MemInv.execAsplitLo {g a b} (h : MemInv s) : MemOut (execAsplitLo g a b s) := MemInv.issueF (fun _ ht => ht.result) h

theorem MemInv.execAsplitHi {g a b} (h : MemInv s) : MemOut (execAsplitHi g a b s) := MemInv.issueF (fun _ ht => ht.result) h

theorem MemInv.scalarIssue {c g i ord commit x} (h : MemInv s) : MemOut (scalarIssue c g i ord commit x s) :=
  MemInv.issue (fun _ _ => .none) (fun _ ht => .ite ht.startOp.commitPoint ht.startOp) h

theorem MemInv.execLd {g x a sz sx ord off ext} (h : MemInv s) : MemOut (execLd g x a sz sx ord off ext s) := h.scalarIssue

theorem MemInv.execSt {g x a sz ord off ext} (h : MemInv s) : MemOut (execSt g x a sz ord off ext s) := h.scalarIssue

theorem MemInv.execLda {g d a ord off} (h : MemInv s) : MemOut (execLda g d a ord off s) := h.scalarIssue

theorem MemInv.execSta {g d a ord off} (h : MemInv s) : MemOut (execSta g d a ord off s) := h.scalarIssue

theorem MemInv.execPref {g a sz off ext} (h : MemInv s) : MemOut (execPref g a sz off ext s) := h.scalarIssue

theorem MemInv.amoIssue {g i a b ord} (h : MemInv s) : MemOut (amoIssue g i a b ord s) := h.scalarIssue

theorem MemInv.execAmoAdd {g d a b sz ord} (h : MemInv s) : MemOut (execAmoAdd g d a b sz ord s) := h.amoIssue

theorem MemInv.execAmoAnd {g d a b sz ord} (h : MemInv s) : MemOut (execAmoAnd g d a b sz ord s) := h.amoIssue

theorem MemInv.execAmoOr {g d a b sz ord} (h : MemInv s) : MemOut (execAmoOr g d a b sz ord s) := h.amoIssue

theorem MemInv.execAmoXor {g d a b sz ord} (h : MemInv s) : MemOut (execAmoXor g d a b sz ord s) := h.amoIssue

theorem MemInv.execAmoMin {g d a b sz ord} (h : MemInv s) : MemOut (execAmoMin g d a b sz ord s) := h.amoIssue

theorem MemInv.execAmoMax {g d a b sz ord} (h : MemInv s) : MemOut (execAmoMax g d a b sz ord s) := h.amoIssue

theorem MemInv.execAmoMinu {g d a b sz ord} (h : MemInv s) : MemOut (execAmoMinu g d a b sz ord s) := h.amoIssue

theorem MemInv.execAmoMaxu {g d a b sz ord} (h : MemInv s) : MemOut (execAmoMaxu g d a b sz ord s) := h.amoIssue

theorem MemInv.execAmoSwap {g d a b sz ord} (h : MemInv s) : MemOut (execAmoSwap g d a b sz ord s) := h.amoIssue

theorem MemInv.execCas {g d a b sz ord} (h : MemInv s) : MemOut (execCas g d a b sz ord s) := h.scalarIssue

theorem MemInv.execRed {g op a b sz ord} (h : MemInv s) : MemOut (execRed g op a b sz ord s) := h.scalarIssue

theorem MemInv.leaseLoad_miss {c k len pa n line pts} (h : MemInv s) : MemInv (State.leaseLoad.miss s c k len pa n line pts).2 :=
  h.setLineTs.viaCache.onCoreAt.raisePts

theorem MemInv.leaseLoad {c k len pa n} (h : MemInv s) : MemInv (s.leaseLoad c k len pa n).2 := by
  unfold State.leaseLoad
  dsimp only
  split
  · exact .ite_snd h.onCoreAt.raisePts h.leaseLoad_miss
  · exact h.leaseLoad_miss

theorem MemInv.l1Home {c ls} (h : MemInv s) : MemInv (s.l1Home c ls) := h.onCoreAt

theorem MemInv.scalarStore {o pa bs tentative} (h : MemInv s) : MemInv (s.scalarStore o pa bs tentative) := by
  unfold State.scalarStore
  dsimp only
  exact .wrote (.ite (.l1Home (.wrMem (.ite h.onCoreAt h))) (.wrMem (.ite h.onCoreAt h)))

theorem MemInv.scalarPerform {o act pa} (h : MemInv s) : MemInv (s.scalarPerform o act pa) := by
  unfold State.scalarPerform
  dsimp only
  split
  · exact h.leaseLoad.writeDest.finishOp
  · exact h.leaseLoad.writeDest.finishOp
  · exact h.scalarStore.finishOp
  · exact h.leaseLoad.finishOp
  · split
    · exact h.scalarStore.writeDest.finishOp
    · exact h.scalarStore.finishOp
  · exact .finishOp (.writeDest (.ite h.scalarStore h.stampWrite.wrote))

theorem MemInv.scalarHost {o act pa} (h : MemInv s) : MemInv (s.scalarHost o act pa) := by
  unfold State.scalarHost
  refine .ite h.force ?_
  extract_lets t
  have ht : MemInv t := h.hostLink
  split
  · exact ht.lateOp
  · split
    · exact ht.writeDest.finishOp
    · exact ht.writeDest.finishOp
    · exact (ht.with_host (wrNum_wf _ _ _ ht.2)).finishOp
    · exact ht.finishOp

theorem MemInv.execScalarAccessComplete {id} (h : MemInv s) : MemOut (execScalarAccessComplete id s) := by
  unfold Machine.execScalarAccessComplete
  refine .next ?_
  split
  · exact h
  · split
    · refine .ite h (.ite h.destNap ?_)
      extract_lets -underBinder ea
      refine .ite h.lateOp ?_
      split
      all_goals
        rename_i e
        have ht := MemInv.of_eq e (.ite_snd h.xlatePref h.xlateDo)
      · refine .ite ht.scalarPerform ?_
        split
        · exact ht.force
        · exact .ite ht.finishOp ht.scalarPerform
      · exact ht.finishOp
      · exact ht.scalarHost
      · refine .ite ht.scalarPerform ?_
        split
        · exact ht.force
        · exact .ite ht.lateOp ht.scalarPerform
      · exact ht.lateOp
      · exact ht.waitOn
      · exact ht.waitOn
    · exact h

theorem MemInv.makeTile {c d} (h : MemInv s) : MemInv (s.makeTile c d) := .ite h.noteTile.onCoreAt.setCluster h.onArchAt

theorem MemInv.talloc {c want} (h : MemInv s) : MemInv (s.talloc c want).2.2 := by
  unfold State.talloc
  split
  exact .ite h.onCoreAt.makeTile h.onCoreAt

theorem MemInv.execTalloc {g t x tx} (h : MemInv s) : MemOut (execTalloc g t x tx s) := by
  refine MemInv.issue (fun _ _ => .none) (fun u hu => ?_) h
  have ht := hu.talloc (c := u.cur) (want := tallocWant tx)
  exact .result (.ite ht.result ht)

theorem MemInv.execTfree {g t} (h : MemInv s) : MemOut (execTfree g t s) := MemInv.issueF (fun _ ht => .ite ht.tfree.result ht) h

theorem MemInv.execTqry {g t x} (h : MemInv s) : MemOut (execTqry g t x s) := MemInv.issueF (fun _ ht => ht.result) h

theorem MemInv.reapPriv {c} (h : MemInv s) : MemInv (s.reapPriv c) := h.onArchAt

theorem MemInv.reapClus {q} (h : MemInv s) : MemInv (s.reapClus q) := h.setCluster

/-! ## MCTX -/

theorem MemInv.countDisc {mc} (h : MemInv s) : MemInv (s.countDisc mc) := h.onMc

theorem MemInv.append {mc buf len src rid r} (h : MemInv s) : MemInv (s.append mc buf len src rid r).2 := by
  unfold State.append
  dsimp only
  split
  · rename_i e
    exact h.netWrite.of_eq e
  · rename_i e
    exact h.netWrite.of_eq e
  · rename_i e
    exact (h.netWrite.of_eq e).onMc.selectAt.decideMc

theorem MemInv.twaysApply {q} (h : MemInv s) : MemInv (s.twaysApply q) := by
  unfold State.twaysApply
  dsimp only
  split
  · exact .ite h h.setCluster
  · exact h

/-! ## Arriving packets -/

theorem MemInv.receive {mc p} (h : MemInv s) : MemInv (s.receive mc p).2 := by
  unfold State.receive
  dsimp only
  split
  · rename_i e
    have ht := h.rxPool.of_eq e
    split
    · exact ht.countDisc
    · split
      · rename_i e1
        have ht1 := ht.takeBuf.of_eq e1
        split
        · exact ht1.giveBuf.countDisc
        · split
          · rename_i e2
            exact (ht1.netWrite.of_eq e2).onMc
          · rename_i e2
            exact (ht1.netWrite.of_eq e2).giveBuf.countDisc
      · rename_i e1
        exact (ht.takeBuf.of_eq e1).countDisc
  · rename_i e
    exact (h.rxPool.of_eq e).countDisc

theorem MemInv.packetMc {p typ} (h : MemInv s) : MemInv (s.packetMc p typ).2 := by
  unfold State.packetMc
  split
  · exact h
  · split
    · exact h
    · exact .ite_snd h.countDisc h

theorem MemInv.execRequestPacketReceive {p} (h : MemInv s) : MemOut (execRequestPacketReceive p s) := by
  unfold Machine.execRequestPacketReceive
  refine .next ?_
  split
  · rename_i e
    exact h.packetMc.of_eq e
  · rename_i e
    have ht := h.packetMc.of_eq e
    split
    · rename_i e1
      exact ht.receive.of_eq e1
    · rename_i e1
      have ht1 := ht.receive.of_eq e1
      split
      · rename_i e2
        exact ht1.append.of_eq e2
      · rename_i e2
        exact (ht1.append.of_eq e2).giveBuf.countDisc

theorem MemInv.meet {mc typ rid buf len nbuf} (h : MemInv s) : MemInv (s.meet mc typ rid buf len nbuf) := by
  unfold State.meet
  split
  · exact h.onMc
  · exact .ite h.giveBuf.countDisc h.onMc

theorem MemInv.execPeerMessageReceive {p} (h : MemInv s) : MemOut (execPeerMessageReceive p s) := by
  unfold Machine.execPeerMessageReceive
  refine .next ?_
  split
  · rename_i e
    exact h.packetMc.of_eq e
  · rename_i e
    have ht := h.packetMc.of_eq e
    split
    · rename_i e1
      exact ht.receive.of_eq e1
    · rename_i e1
      exact (ht.receive.of_eq e1).meet

theorem MemInv.execRingStepReceive {p} (h : MemInv s) : MemOut (execRingStepReceive p s) := by
  unfold Machine.execRingStepReceive
  refine .next ?_
  split
  · rename_i e
    exact h.packetMc.of_eq e
  · rename_i e
    have ht := h.packetMc.of_eq e
    split
    · rename_i e1
      exact ht.receive.of_eq e1
    · rename_i e1
      have ht1 := ht.receive.of_eq e1
      exact .ite ht1.giveBuf.countDisc ht1.meet

theorem MemInv.execRingBreakReceive {p} (h : MemInv s) : MemOut (execRingBreakReceive p s) := by
  unfold Machine.execRingBreakReceive
  refine .next ?_
  split
  · rename_i e
    exact h.packetMc.of_eq e
  · rename_i e
    have ht := h.packetMc.of_eq e
    split
    · rename_i e1
      exact ht.receive.of_eq e1
    · rename_i e1
      exact (ht.receive.of_eq e1).giveBuf.onMc.dropBroken

theorem MemInv.execSegmentPageMessage {p} (h : MemInv s) : MemOut (execSegmentPageMessage p s) := by
  unfold Machine.execSegmentPageMessage
  refine .next ?_
  split
  · exact h
  · split
    · exact h
    · split
      · exact h
      · exact h.with_carderIn

theorem MemInv.execUnexpectedMessageExpiry {mc} (h : MemInv s) : MemOut (execUnexpectedMessageExpiry mc s) := by
  unfold Machine.execUnexpectedMessageExpiry
  refine .next ?_
  split
  · rename_i e
    have ht := h.rxPool.of_eq e
    exact .foldl (fun _ _ ht => ht.giveBuf) ht.onMc
  · rename_i e
    exact h.rxPool.of_eq e

/-! ## Frames of a port -/

theorem MemInv.frameArrives {port bs} (h : MemInv s) : MemInv (s.frameArrives port bs) := by
  unfold State.frameArrives
  refine .ite h ?_
  split
  · exact h.with_portDrops
  · rename_i p _
    split
    · rename_i e
      refine MemOut.of_eq e ?_
      split
      · exact h.execRequestPacketReceive
      · exact h.execPeerMessageReceive
      · exact h.execRingStepReceive
      · exact h.execRingBreakReceive
      · exact h.execSegmentPageMessage
      · exact h.execSegmentPageMessage
      · exact .next h
    · exact h

end

end Sys2Proof
end

