-- ==== Sys2Proof/Proofs/MemoryIssue.lean ====
section
/-!
PROOFS. Control, releases, vector and matrix instructions keep the form of both memories.
-/
namespace Sys2Proof
open Machine
set_option Elab.async false

section
variable {s : State}

/-! ## Control -/

theorem MemInv.codeLine {c va y} (h : MemInv s) : MemInv (s.codeLine c va y).2 := by
  unfold State.codeLine
  split
  · dsimp only
    split <;> exact h.hostLink
  · exact .ite_snd h h.commitBut.viaCache

theorem MemInv.codeAt {c va} (h : MemInv s) : MemInv (s.codeAt c va).2 := by
  unfold State.codeAt
  dsimp only
  split
  · rename_i e
    exact (h.xlateDo.of_eq e).codeLine
  · rename_i e
    exact h.xlateDo.of_eq e
  · rename_i e
    exact h.xlateDo.of_eq e
  · rename_i e
    have ht := h.xlateDo.of_eq e
    exact .ite_snd ht ht.askPage

theorem MemInv.transfer {k} (h : MemInv s) : MemInv (s.transfer k) := h.onArch

theorem MemInv.branchTo {g target eff} (heff : ∀ t, MemInv t → MemInv (eff t)) (h : MemInv s) : MemOut (branchTo g target eff s) :=
  MemInv.issue (fun _ _ => .none) (fun _ ht => heff _ ht.transfer) h

theorem MemInv.execBr {g x y} (h : MemInv s) : MemOut (execBr g x y s) := MemInv.branchTo (fun _ ht => ht) h

theorem MemInv.execBri {g off} (h : MemInv s) : MemOut (execBri g off s) := MemInv.branchTo (fun _ ht => ht) h

theorem MemInv.execCall {g off} (h : MemInv s) : MemOut (execCall g off s) := MemInv.branchTo (fun _ ht => ht.result.onArch) h

theorem MemInv.execRet {g x} (h : MemInv s) : MemOut (execRet g x s) := MemInv.branchTo (fun _ ht => ht) h

theorem MemInv.loopStart {i lc n fin} (h : MemInv s) : MemInv (s.loopStart i lc n fin) := .ite h.result.onArch.setCore h.result.onArch

theorem MemInv.execLoop {g lc x fin} (h : MemInv s) : MemOut (execLoop g lc x fin s) := MemInv.issueF (fun _ ht => ht.loopStart) h

theorem MemInv.execLoopi {g lc fin n} (h : MemInv s) : MemOut (execLoopi g lc fin n s) := MemInv.issueF (fun _ ht => ht.loopStart) h

theorem MemInv.execLbrk {g lc fin} (h : MemInv s) : MemOut (execLbrk g lc fin s) := MemInv.branchTo (fun _ ht => ht.onArch) h

theorem MemInv.execLoopEndStep {c} (h : MemInv s) : MemOut (execLoopEndStep c s) := .next (.ite h.onArchAt h)

theorem MemInv.descPart {c va n} (h : MemInv s) : MemInv (s.descPart c va n).2 := by
  unfold State.descPart
  split
  · rename_i e
    have ht := h.codeAt.of_eq e
    dsimp only
    split
    · rename_i e1
      exact MemInv.of_eq e1 (.ite_snd ht ht.codeLine)
    · rename_i e1
      exact MemInv.of_eq e1 (.ite_snd ht ht.codeLine)
  · rename_i e
    exact h.codeAt.of_eq e

theorem MemInv.descBytes {c va} (h : MemInv s) : MemInv (s.descBytes c va).2 := by
  unfold State.descBytes
  dsimp only
  split
  · exact h.descPart
  · split
    · rename_i e
      have ht := h.descPart.of_eq e
      split
      · rename_i e1
        exact ht.descPart.of_eq e1
      · rename_i e1
        exact ht.descPart.of_eq e1
    · rename_i e
      exact h.descPart.of_eq e

theorem MemInv.suspRead {c va} (h : MemInv s) : MemInv (s.suspRead c va).2 := by
  unfold State.suspRead
  split
  · rename_i e
    exact h.descBytes.of_eq e
  · rename_i e
    exact h.descBytes.of_eq e
  · rename_i e
    exact h.descBytes.of_eq e
  · rename_i e
    exact h.descBytes.of_eq e

theorem MemInv.suspIssue {g kind x y desc extra} (h : MemInv s) : MemOut (suspIssue g kind x y desc extra s) := by
  unfold Machine.suspIssue
  extract_lets va
  refine MemInv.issue (fun u hu => ?_) (fun u hu => ?_) h
  · refine .ite (.some hu) ?_
    split
    · rename_i e
      exact .some (hu.suspRead.of_eq e).onArch
    · exact .none
  · split
    rename_i e
    have ht := hu.suspRead.of_eq e
    exact .ite ht.transfer ht.transfer.commitPoint

theorem MemInv.execSusp {g desc} (h : MemInv s) : MemOut (execSusp g desc s) := h.suspIssue

theorem MemInv.execSuspFence {g x y desc} (h : MemInv s) : MemOut (execSuspFence g x y desc s) := h.suspIssue

theorem MemInv.execSuspLend {g x y desc} (h : MemInv s) : MemOut (execSuspLend g x y desc s) := h.suspIssue

theorem MemInv.execSuspBar {g x y desc} (h : MemInv s) : MemOut (execSuspBar g x y desc s) := h.suspIssue

theorem MemInv.execYield {g} (h : MemInv s) : MemOut (execYield g s) := MemInv.issueF (fun _ ht => ht.transfer) h

theorem MemInv.execRetire {g} (h : MemInv s) : MemOut (execRetire g s) :=
  MemInv.issue (fun _ _ => .none) (fun _ ht => ht.transfer.commitPoint) h

theorem MemInv.release {kind i x} (h : MemInv s) : MemInv (s.release kind i x) := h.pushOp.commitPoint

theorem MemInv.spawnWaits (h : MemInv s) : MemOpt s.spawnWaits := by
  unfold State.spawnWaits
  split
  · exact .none
  · exact .ite (.some (.ite h h.contReach.shepUp)) .none

theorem MemInv.execSpawn {g x y stage} (h : MemInv s) : MemOut (execSpawn g x y stage s) := by
  refine MemInv.issue (fun u hu => ?_) (fun u hu => ?_) h
  · exact hu.spawnWaits.map_state fun _ ht => ht.onArch
  · split
    · exact hu
    · exact hu.contReach.newCont.shepUp.onCont.release

theorem MemInv.execReqdone {g x} (h : MemInv s) : MemOut (execReqdone g x s) :=
  MemInv.issue (fun _ _ => .none) (fun _ ht => ht.onBind.release) h

theorem MemInv.barArriveWaiting {k} (h : MemInv s) : MemInv (s.barArriveWaiting k) := by
  unfold State.barArriveWaiting
  dsimp only
  split
  · exact .ite h.countTrap.onCont.setContState.trapEvent h.countTrap.onCont.setContState.with_handlers
  · exact .ite h.onBind.onCont.setContState.barRelease.barWake h.onBind.onCont.setContState

theorem MemInv.resumeTrapped {k skip} (h : MemInv s) : MemInv (s.resumeTrapped k skip) :=
  .ite (.ite h.onCont.makeRunnable h.barArriveWaiting) h.onCont.runnableWhenDone

theorem MemInv.cresIssue {skip g x} (h : MemInv s) : MemOut (cresIssue skip g x s) :=
  MemInv.issue (fun _ _ => .none) (fun _ ht => ht.resumeTrapped.commitPoint) h

theorem MemInv.execCres {g x} (h : MemInv s) : MemOut (execCres g x s) := h.cresIssue

theorem MemInv.execCresSkip {g x} (h : MemInv s) : MemOut (execCresSkip g x s) := h.cresIssue

theorem MemInv.stallAs {st} (h : MemInv s) : MemInv (s.stallAs st) := h.onArch

theorem MemInv.unstall (h : MemInv s) : MemInv s.unstall := h.stallAs

theorem MemInv.execWaitc {g nl ns nc nt nq} (h : MemInv s) : MemOut (execWaitc g nl ns nc nt nq s) :=
  MemInv.issue (fun _ ht => .ite .none (.some ht.stallAs)) (fun _ ht => ht.unstall) h

theorem MemInv.waitfStall {x y sg} (h : MemInv s) : MemInv (s.waitfStall x y sg) := by
  unfold State.waitfStall
  dsimp only
  split
  · refine .beginLoan ?_
    split
    · exact .ite h.stallAs h.stallAs.endLoan
    · exact h.stallAs
  · split
    · exact .ite h.stallAs h.stallAs.endLoan
    · exact h.stallAs

theorem MemInv.waitfIssue {lend g x y p} (h : MemInv s) : MemOut (waitfIssue lend g x y p s) := by
  refine MemInv.issue (fun u hu => ?_) (fun u hu => ?_) h
  · exact .ite .none (.some hu.waitfStall)
  · dsimp only
    split
    · exact hu.unstall.result
    · exact hu.waitfEnd.unstall.result

theorem MemInv.execWaitf {g x y p y1} (h : MemInv s) : MemOut (execWaitf g x y p y1 s) := h.waitfIssue

theorem MemInv.execWaitfLend {g x y p} (h : MemInv s) : MemOut (execWaitfLend g x y p s) := h.waitfIssue

theorem MemInv.fincIssue {set i g x y amount} (h : MemInv s) : MemOut (fincIssue set i g x y amount s) :=
  MemInv.issue (fun _ _ => .none) (fun _ ht => ht.release) h

theorem MemInv.execFinc {g x y amount} (h : MemInv s) : MemOut (execFinc g x y amount s) := h.fincIssue

theorem MemInv.execFincSet {g x y amount} (h : MemInv s) : MemOut (execFincSet g x y amount s) := h.fincIssue

theorem MemInv.execFence {g before after} (h : MemInv s) : MemOut (execFence g before after s) :=
  MemInv.issueF (fun _ ht => .ite ht ht.onArch) h

theorem MemInv.fencesDone {c} (h : MemInv s) : MemInv (s.fencesDone c) := h.onArchAt

theorem MemInv.execFenceSatisfied {c} (h : MemInv s) : MemOut (execFenceSatisfied c s) := .next h.fencesDone

theorem MemInv.execGbar {g x bar} (h : MemInv s) : MemOut (execGbar g x bar s) := by
  unfold Machine.execGbar
  refine MemInv.issue (fun _ ht => ?_) (fun _ ht => .ite ht.unstall ht) h
  split
  · exact .ite .none (.some ht)
  · exact .some ht.release.stallAs

theorem MemInv.barArrive {o} (h : MemInv s) : MemInv (s.barArrive o) := by
  unfold State.barArrive
  dsimp only
  split
  · exact h.onOpArch
  · exact .ite h.dropOp.onBind.barRelease.barWake h.dropOp.onBind

theorem MemInv.execWaitcRelease {c} (h : MemInv s) : MemOut (execWaitcRelease c s) := by
  unfold Machine.execWaitcRelease
  refine .next ?_
  split
  · exact .ite h.onArchAt h
  · exact h

theorem MemInv.execWaitfRelease {c} (h : MemInv s) : MemOut (execWaitfRelease c s) := by
  unfold Machine.execWaitfRelease
  refine .next ?_
  split
  · split
    exact .ite h.waitfEnd h
  · exact h

theorem MemInv.execEvpost {g x y code} (h : MemInv s) : MemOut (execEvpost g x y code s) := MemInv.issueF (fun _ ht => ht.release) h

theorem MemInv.trapIssue {cause g x} (h : MemInv s) : MemOut (trapIssue cause g x s) := .ite (.next h.with_verdict) (.next h.takeTrap)

theorem MemInv.execTrap {g x} (h : MemInv s) : MemOut (execTrap g x s) := h.trapIssue

theorem MemInv.execTrapSys {g x} (h : MemInv s) : MemOut (execTrapSys g x s) := h.trapIssue

theorem MemInv.execCkpt {g} (h : MemInv s) : MemOut (execCkpt g s) := MemInv.issueF (fun _ ht => ht.commitPoint) h

theorem MemInv.execSrd {g x sys} (h : MemInv s) : MemOut (execSrd g x sys s) := MemInv.issue (fun _ _ => .none) (fun _ ht => ht.result) h

theorem MemInv.execSwr {g x sys} (h : MemInv s) : MemOut (execSwr g x sys s) := MemInv.issue (fun _ _ => .none) (fun _ ht => ht.result) h

/-! ## Releases -/

theorem MemInv.sfence {mc n t status} (h : MemInv s) : MemInv (s.sfence mc n t status) :=
  .ite h.fenceUpdate (.ite h.fenceUpdate h.fenceError)

theorem MemInv.complete {fn mc r rid rbytes src status traps appst t} (h : MemInv s) :
    MemInv (s.complete fn mc r rid rbytes src status traps appst t) := by
  unfold State.complete
  split
  · exact .ite (.ite h.sfence h) (.postRecord (.ite h.sfence h))
  · exact .ite h.postRecord h

theorem MemInv.completeBind {b status appst t} (h : MemInv s) : MemInv (s.completeBind b status appst t) := by
  unfold State.completeBind
  dsimp only
  split
  · exact h.complete
  · exact h

theorem MemInv.applyRelease {o} (h : MemInv s) : MemInv (s.applyRelease o) := by
  unfold State.applyRelease
  dsimp only
  split
  · exact .ite h.fenceUpdate h
  · exact h.postEvent
  · exact h.completeBind
  · exact h.onCont.makeRunnable
  · exact h.barArrive
  · exact h

theorem MemInv.execReleaseApply {id} (h : MemInv s) : MemOut (execReleaseApply id s) := by
  unfold Machine.execReleaseApply
  refine .next ?_
  split
  · exact h
  · exact .ite h h.applyRelease.dropOp

theorem MemInv.charge {b} (h : MemInv s) : MemInv (s.charge b) := .onMc (.onBind (.foldl (fun _ _ ht => ht.onCoreAt) h))

theorem MemInv.paramRefs {mc params up} (h : MemInv s) : MemInv (s.paramRefs mc params up) := by
  unfold State.paramRefs
  split
  · exact h
  · split
    · rename_i e
      exact (h.shepGo.of_eq e).wrMem
    · rename_i e
      exact h.shepGo.of_eq e

theorem MemInv.execBindingEnd {b} (h : MemInv s) : MemOut (execBindingEnd b s) := by
  unfold Machine.execBindingEnd
  refine .next ?_
  split
  · exact h
  · refine .decideMc (.selectAt (.setBind (.foldl (fun _ _ ht => ht.foldRehost) (.paramRefs (.with_selfTest ?_)))))
    split
    · exact .onMc (.ite (.giveBuf (.ite h.charge.completeBind h.charge)) (.ite h.charge.completeBind h.charge))
    · exact .ite h.charge.completeBind h.charge

/-! ## Vectors -/

theorem MemInv.vOp {g lat d f} (h : MemInv s) : MemOut (vOp g lat d f s) := by
  unfold Machine.vOp
  refine MemInv.issueF (fun _ ht => ?_) h
  split
  exact ht.result

theorem MemInv.vElemOp {g lat dflt d a b k vx f} (h : MemInv s) : MemOut (vElemOp g lat dflt d a b k vx f s) := h.vOp

theorem MemInv.execVadd {g d a b k vx} (h : MemInv s) : MemOut (execVadd g d a b k vx s) := h.vElemOp

theorem MemInv.execVsub {g d a b k vx} (h : MemInv s) : MemOut (execVsub g d a b k vx s) := h.vElemOp

theorem MemInv.execVmul {g d a b k vx} (h : MemInv s) : MemOut (execVmul g d a b k vx s) := h.vElemOp

theorem MemInv.execVfma {g d a b k vx} (h : MemInv s) : MemOut (execVfma g d a b k vx s) := h.vElemOp

theorem MemInv.execVfms {g d a b k vx} (h : MemInv s) : MemOut (execVfms g d a b k vx s) := h.vElemOp

theorem MemInv.execVabs {g d a k vx} (h : MemInv s) : MemOut (execVabs g d a k vx s) := h.vElemOp

theorem MemInv.execVmin {g d a b k vx} (h : MemInv s) : MemOut (execVmin g d a b k vx s) := h.vElemOp

theorem MemInv.execVmax {g d a b k vx} (h : MemInv s) : MemOut (execVmax g d a b k vx s) := h.vElemOp

theorem MemInv.execVdiv {g d a b k vx} (h : MemInv s) : MemOut (execVdiv g d a b k vx s) := h.vElemOp

theorem MemInv.execVrcp {g d a k vx} (h : MemInv s) : MemOut (execVrcp g d a k vx s) := h.vElemOp

theorem MemInv.execVrsq {g d a k vx} (h : MemInv s) : MemOut (execVrsq g d a k vx s) := h.vElemOp

theorem MemInv.execVsqrt {g d a k vx} (h : MemInv s) : MemOut (execVsqrt g d a k vx s) := h.vElemOp

theorem MemInv.vFn {g lat d a k vx f} (h : MemInv s) : MemOut (vFn g lat d a k vx f s) := h.vElemOp

theorem MemInv.execVexp {g d a k vx} (h : MemInv s) : MemOut (execVexp g d a k vx s) := h.vFn

theorem MemInv.execVexp2 {g d a k vx} (h : MemInv s) : MemOut (execVexp2 g d a k vx s) := h.vFn

theorem MemInv.execVlog2 {g d a k vx} (h : MemInv s) : MemOut (execVlog2 g d a k vx s) := h.vFn

theorem MemInv.execVtanh {g d a k vx} (h : MemInv s) : MemOut (execVtanh g d a k vx s) := h.vFn

theorem MemInv.execVsigm {g d a k vx} (h : MemInv s) : MemOut (execVsigm g d a k vx s) := h.vFn

theorem MemInv.execVand {g d a b k vx} (h : MemInv s) : MemOut (execVand g d a b k vx s) := h.vElemOp

theorem MemInv.execVor {g d a b k vx} (h : MemInv s) : MemOut (execVor g d a b k vx s) := h.vElemOp

theorem MemInv.execVxor {g d a b k vx} (h : MemInv s) : MemOut (execVxor g d a b k vx s) := h.vElemOp

theorem MemInv.execVshl {g d a b k vx} (h : MemInv s) : MemOut (execVshl g d a b k vx s) := h.vElemOp

theorem MemInv.execVshr {g d a b k vx} (h : MemInv s) : MemOut (execVshr g d a b k vx s) := h.vElemOp

theorem MemInv.execVsra {g d a b k vx} (h : MemInv s) : MemOut (execVsra g d a b k vx s) := h.vElemOp

theorem MemInv.execVcmp {g kd a b cond vx} (h : MemInv s) : MemOut (execVcmp g kd a b cond vx s) := by
  unfold Machine.execVcmp
  refine MemInv.issueF (fun _ ht => ?_) h
  dsimp only
  exact ht.result

theorem MemInv.execVsel {g d a b k y} (h : MemInv s) : MemOut (execVsel g d a b k y s) := h.vOp

theorem MemInv.execVmov {g d a k vx} (h : MemInv s) : MemOut (execVmov g d a k vx s) := h.vElemOp

theorem MemInv.execVcvt {g d a k vx} (h : MemInv s) : MemOut (execVcvt g d a k vx s) := h.vOp

theorem MemInv.execVred {g d a k vx} (h : MemInv s) : MemOut (execVred g d a k vx s) := h.vOp

theorem MemInv.execVscan {g d a k vx} (h : MemInv s) : MemOut (execVscan g d a k vx s) := h.vOp

theorem MemInv.execVbcast {g d b k vx} (h : MemInv s) : MemOut (execVbcast g d b k vx s) := h.vOp

theorem MemInv.execViota {g d b k vx} (h : MemInv s) : MemOut (execViota g d b k vx s) := h.vOp

theorem MemInv.execVins {g d a b vx} (h : MemInv s) : MemOut (execVins g d a b vx s) := h.vOp

theorem MemInv.execVext {g d a b vx} (h : MemInv s) : MemOut (execVext g d a b vx s) := MemInv.issueF (fun _ ht => ht.result) h

theorem MemInv.execVperm {g d a b k vx} (h : MemInv s) : MemOut (execVperm g d a b k vx s) := h.vOp

theorem MemInv.execVdot {g d a b k vx} (h : MemInv s) : MemOut (execVdot g d a b k vx s) := h.vOp

theorem MemInv.execVso {g d a b k vx} (h : MemInv s) : MemOut (execVso g d a b k vx s) := by
  unfold Machine.execVso
  dsimp only
  exact .ite (MemInv.issueF (fun _ ht => ht.result.result) h) h.vOp

theorem MemInv.vCpxOp {g lat d a b k vx f} (h : MemInv s) : MemOut (vCpxOp g lat d a b k vx f s) := h.vOp

theorem MemInv.execVcmul {g d a b k vx} (h : MemInv s) : MemOut (execVcmul g d a b k vx s) := h.vCpxOp

theorem MemInv.execVcmac {g d a b k vx} (h : MemInv s) : MemOut (execVcmac g d a b k vx s) := h.vCpxOp

theorem MemInv.execVconj {g d a k vx} (h : MemInv s) : MemOut (execVconj g d a k vx s) := h.vCpxOp

theorem MemInv.kOp {g f} (h : MemInv s) : MemOut (kOp g f s) := MemInv.issueF (fun _ ht => ht.result) h

theorem MemInv.execKand {g kd ka kb} (h : MemInv s) : MemOut (execKand g kd ka kb s) := h.kOp

theorem MemInv.execKor {g kd ka kb x} (h : MemInv s) : MemOut (execKor g kd ka kb x s) := h.kOp

theorem MemInv.execKxor {g kd ka kb x} (h : MemInv s) : MemOut (execKxor g kd ka kb x s) := h.kOp

theorem MemInv.execKnot {g kd ka} (h : MemInv s) : MemOut (execKnot g kd ka s) := h.kOp

theorem MemInv.execKpop {g ka kb x} (h : MemInv s) : MemOut (execKpop g ka kb x s) := h.kOp

theorem MemInv.startTile {c i t x dat} (h : MemInv s) : MemInv (s.startTile c i t x dat) := h.startOp

theorem MemInv.execVld {g v t x vx} (h : MemInv s) : MemOut (execVld g v t x vx s) := by
  unfold Machine.execVld
  refine MemInv.issue (fun _ _ => .none) (fun _ ht => ?_) h
  dsimp only
  split
  · exact ht.startTile
  · split
    · exact ht.readFault
    · exact ht.result

theorem MemInv.execVst {g v t x vx} (h : MemInv s) : MemOut (execVst g v t x vx s) := by
  unfold Machine.execVst
  refine MemInv.issue (fun _ _ => .none) (fun _ ht => ?_) h
  dsimp only
  exact .ite ht.startTile ht.tileStore

theorem MemInv.execVldx {g v t x vx} (h : MemInv s) : MemOut (execVldx g v t x vx s) := by
  unfold Machine.execVldx
  refine MemInv.issue (fun _ _ => .none) (fun _ ht => ?_) h
  dsimp only
  split
  · exact ht.startTile
  · split
    · exact ht.readFault
    · exact ht.result

theorem MemInv.execVstx {g v t x vx} (h : MemInv s) : MemOut (execVstx g v t x vx s) :=
  MemInv.issue (fun _ _ => .none) (fun _ ht => .ite ht.startTile ht.tileScatter) h

theorem MemInv.tileComplete {o} (h : MemInv s) : MemInv (s.tileComplete o) := by
  unfold State.tileComplete
  split
  · exact h
  · split
    · exact h.destNap
    · split
      · exact h.force
      · exact .ite h.tileRun.carriedDone h.tileRun

theorem MemInv.execTileAccessComplete {id} (h : MemInv s) : MemOut (execTileAccessComplete id s) := by
  unfold Machine.execTileAccessComplete
  refine .next ?_
  split
  · exact h
  · exact .ite h.tileComplete h

/-! ## Matrices -/

theorem MemInv.issueZ {z g chk hold eff} (hhold : ∀ t, MemInv t → MemOpt (hold t)) (heff : ∀ t, MemInv t → MemInv (eff t))
    (h : MemInv s) :
    MemOut (issueZ z g chk hold eff s) := .ite (.next h.onArch.takeTrap) (MemInv.issue (fun _ ht => hhold _ ht) (fun _ ht => heff _ ht) h)

theorem MemInv.settleTile {c id d} (h : MemInv s) : MemInv (s.settleTile c id d) := .foldl (fun _ _ ht => ht.settleClus) h

theorem MemInv.readStationary {c id d} (h : MemInv s) : MemInv (s.readStationary c id d).1 := h.settleTile

theorem MemInv.startPass {i q tb} (h : MemInv s) : MemInv (s.startPass i q tb) := by
  unfold State.startPass
  dsimp only
  split
  · exact h.readStationary.with_nextOp.onArch.lateWork
  · exact h.readStationary.with_nextOp.onArch

theorem MemInv.offPass {ta} (h : MemInv s) : MemInv (s.offPass ta) := by
  unfold State.offPass
  split
  · exact h
  · exact h.onArch
  · exact h

theorem MemInv.passIssue {g i spec z ta tb acc mx} (h : MemInv s) : MemOut (passIssue g i spec z ta tb acc mx s) :=
  .ite (.next h.offPass.with_verdict) (MemInv.issueZ (fun _ _ => .none) (fun _ ht => ht.startPass) h)

theorem MemInv.execMmul {g z ta tb acc mx} (h : MemInv s) : MemOut (execMmul g z ta tb acc mx s) := h.passIssue

theorem MemInv.execMspec {g z ta tb acc mx} (h : MemInv s) : MemOut (execMspec g z ta tb acc mx s) := h.passIssue

theorem MemInv.settleWaited {ta tb} (h : MemInv s) : MemInv (s.settleWaited ta tb) := .foldl (fun _ _ ht => ht.settleTile) h

theorem MemInv.mmulwIssue {g i z ta tb sb acc mx} (h : MemInv s) : MemOut (mmulwIssue g i z ta tb sb acc mx s) := by
  unfold Machine.mmulwIssue
  refine MemInv.issueZ (fun _ ht => .ite ht.foldStall .none) (fun u hu => ?_) h
  exact hu.settleWaited.startOp

theorem MemInv.execMmulw {g z ta tb acc mx} (h : MemInv s) : MemOut (execMmulw g z ta tb acc mx s) := h.mmulwIssue

theorem MemInv.execMmulwT {g z ta b acc mx} (h : MemInv s) : MemOut (execMmulwT g z ta b acc mx s) := h.mmulwIssue

theorem MemInv.execWaitedPassComplete {id} (h : MemInv s) : MemOut (execWaitedPassComplete id s) := by
  unfold Machine.execWaitedPassComplete
  refine .next ?_
  split
  · exact h
  · split
    · exact .ite h h.waitedRun
    · exact h

theorem MemInv.execMzero {g z dom} (h : MemInv s) : MemOut (execMzero g z dom s) :=
  MemInv.issue (fun _ _ => .none) (fun _ ht => ht.result) h

theorem MemInv.execMrdv {g z v y} (h : MemInv s) : MemOut (execMrdv g z v y s) := by
  unfold Machine.execMrdv
  refine MemInv.issue (fun _ _ => .none) (fun _ ht => ?_) h
  dsimp only
  split
  · exact ht.readFault
  · exact ht.result

theorem MemInv.execMfmt {g i y w} (h : MemInv s) : MemOut (execMfmt g i y w s) := MemInv.issueF (fun _ ht => ht.result) h

theorem MemInv.execMstat {g d} (h : MemInv s) : MemOut (execMstat g d s) := by
  unfold Machine.execMstat
  refine MemInv.issueF (fun _ ht => ?_) h
  split
  rename_i e
  exact (ht.fresh.of_eq e).result

theorem MemInv.offMrd {z t y} (h : MemInv s) : MemInv (s.offMrd z t y) := .ite h h.onArch

theorem MemInv.startMrd {i z t y x} (h : MemInv s) : MemInv (s.startMrd i z t y x) := by
  unfold State.startMrd
  dsimp only
  split
  · split
    · refine .lateOp (.startOp ?_)
      split
      · exact h.settleClus.settleClus
      · exact h
    · refine .readFault ?_
      split
      · exact h.settleClus.settleClus
      · exact h
  · split
    · refine .startOp ?_
      split
      · exact .ite h.settleClus.settleClus.onArch h.settleClus.settleClus
      · exact .ite h.onArch h
    · refine .with_nextOp (.onArch ?_)
      split
      · exact .ite h.settleClus.settleClus.onArch h.settleClus.settleClus
      · exact .ite h.onArch h

theorem MemInv.execMrd {g z t y mx} (h : MemInv s) : MemOut (execMrd g z t y mx s) :=
  .ite (.next h.offMrd.with_verdict) (MemInv.issue (fun _ _ => .none) (fun _ ht => ht.startMrd) h)

theorem MemInv.execResultLand {c} (h : MemInv s) : MemOut (execResultLand c s) := .next (.ite h.onArchAt h)

theorem MemInv.execPassLanding {c} (h : MemInv s) : MemOut (execPassLanding c s) := .next (.ite h.passLands h)

theorem MemInv.execMrdLanding {c op} (h : MemInv s) : MemOut (execMrdLanding c op s) := by
  unfold Machine.execMrdLanding
  refine .next ?_
  split
  · exact .ite h.tileComplete h
  · exact .ite h.readLands h

theorem MemInv.execFoldArrival {id} (h : MemInv s) : MemOut (execFoldArrival id s) := by
  unfold Machine.execFoldArrival
  refine .next ?_
  split
  · exact .ite h.foldTranslate h
  · exact h

theorem MemInv.execPinGrant {pen group} (h : MemInv s) : MemOut (execPinGrant pen group s) := .next h.foldPin

theorem MemInv.execFoldDeadline {group} (h : MemInv s) : MemOut (execFoldDeadline group s) := by
  unfold Machine.execFoldDeadline
  refine .next ?_
  split
  · exact h.foldDue
  · exact h

theorem MemInv.execFoldGroupStart {pen} (h : MemInv s) : MemOut (execFoldGroupStart pen s) := .next h.foldStart

theorem MemInv.execFoldSplit {group} (h : MemInv s) : MemOut (execFoldSplit group s) := by
  unfold Machine.execFoldSplit
  refine .next ?_
  split
  · split
    · exact .ite h.foldSplit h
    · exact h
  · exact h

end

end Sys2Proof
end

