-- ==== Sys2Proof/Proofs/MemoryResume.lean ====
section
/-!
PROOFS. Suspended and resumed continuations, the Shepherd and the segments keep the form of both memories.
-/
namespace Sys2Proof
open Machine
set_option Elab.async false

section
variable {s : State}

/-! ## Suspension -/

theorem MemInv.suspState {k wkind wid wtarget} (h : MemInv s) : MemInv (s.suspState k wkind wid wtarget) := by
  unfold State.suspState
  dsimp only
  split
  · exact h.makeRunnable
  · split
    · exact h.barArriveWaiting
    · split
      · exact h.onCont.raisePts.makeRunnable
      · split
        · exact h.setContState.beginLoan.onCont
        · exact h.setContState

theorem MemInv.suspNow {c desc d} (h : MemInv s) : MemInv (s.suspNow c desc d).2 := by
  unfold State.suspNow
  split
  · exact h
  · exact .ite_snd h h.suspRead

theorem MemInv.suspDone {c d wkind wid wtarget} (h : MemInv s) : MemInv (s.suspDone c d wkind wid wtarget) :=
  h.shepUp.suspFrame.onCont.shepUp.releaseCore.suspState

theorem MemInv.execSuspFrameWrite {c} (h : MemInv s) : MemOut (execSuspFrameWrite c s) := by
  unfold Machine.execSuspFrameWrite
  refine .next ?_
  split
  · split
    · exact h
    · split
      · exact h.frameNap
      · split
        · rename_i e
          exact (h.suspNow.of_eq e).onArchAt
        · rename_i e
          exact (h.suspNow.of_eq e).takeTrap
        · rename_i e
          exact (h.suspNow.of_eq e).takeTrap
        · rename_i e
          exact (h.suspNow.of_eq e).suspDone
  · exact h

theorem MemInv.contFree {k} (h : MemInv s) : MemInv (s.contFree k) := h.setContState.onBind.setCont.onMc

theorem MemInv.execRetireComplete {c} (h : MemInv s) : MemOut (execRetireComplete c s) := by
  unfold Machine.execRetireComplete
  refine .next ?_
  split
  · exact .ite h (.reapClus (.contFree (.releaseCore (.foldl (fun _ _ ht => ht.tfree) h))))
  · exact h

theorem MemInv.yieldFreeze {c} (h : MemInv s) : MemInv (s.yieldFreeze c) := h.onArchAt.freezeCore.runnableWhenDone

theorem MemInv.yieldEnd {c} (h : MemInv s) : MemInv (s.yieldEnd c) := by
  unfold State.yieldEnd
  dsimp only
  split
  · exact .ite h (.ite h.onArchAt (.ite h.frameNap (.ite h h.yieldFreeze)))
  · exact h

theorem MemInv.execCheckpointInterval {c} (h : MemInv s) : MemOut (execCheckpointInterval c s) := .next (.ite h.checkpoint h)

theorem MemInv.execForcedCheckpoint {c} (h : MemInv s) : MemOut (execForcedCheckpoint c s) := .next (.ite h.checkpoint h)

theorem MemInv.ptsTick {c} (h : MemInv s) : MemInv (s.ptsTick c) := h.onCont

theorem MemInv.execPtsTick {c} (h : MemInv s) : MemOut (execPtsTick c s) := .next (.ite h.ptsTick h)

theorem MemInv.execLateFault {c} (h : MemInv s) : MemOut (execLateFault c s) := by
  unfold Machine.execLateFault
  refine .next ?_
  split
  · exact .ite h.takeTrapOf h
  · exact h

theorem MemInv.execEmptyBundle {sk} (h : MemInv s) : MemOut (execEmptyBundle sk s) := .next h.setCore.with_verdict

theorem MemInv.execCarriedAccessComplete {id} (h : MemInv s) : MemOut (execCarriedAccessComplete id s) := by
  unfold Machine.execCarriedAccessComplete
  split
  · split
    · exact .next h
    · split
      · split
        · rename_i e
          exact .next (h.execScalarAccessComplete.of_eq e).carriedDone
        · exact h.execScalarAccessComplete
      · exact .next h
  · exact .next h

theorem MemInv.freezeOne {c} (h : MemInv s) : MemInv (s.freezeOne c) := h.freezeCore.onCont

theorem MemInv.freezeDecided {c} (h : MemInv s) : MemInv (s.freezeDecided c) := .ite h.stopAt h.freezeOne

theorem MemInv.stopNow {c t} (h : MemInv s) : MemInv (s.stopNow c t) := by
  unfold State.stopNow
  dsimp only
  split
  · exact h
  · split
    · exact h
    · split
      · exact h.frameNap
      · split
        · exact h.onCoreAt.trapNow
        · exact h.onCoreAt.yieldFreeze
        · exact h.onCoreAt.freezeOne

theorem MemInv.serveFreeze {c} (h : MemInv s) : MemInv (s.serveFreeze c) :=
  .ite h (.ite (.foldl (fun _ _ ht => ht.frameNap) h) (.foldl (fun _ _ ht => ht.freezeDecided) h))

theorem MemInv.execFreeze {c} (h : MemInv s) : MemOut (execFreeze c s) := .next h.serveFreeze

theorem MemInv.groupFree {b} (h : MemInv s) : MemInv (s.groupFree b) :=
  .ite h (.decideMc (.selectAt (.onBind (.foldl (fun _ _ ht => ht.foldRehost) h))))

theorem MemInv.freezeEnd {c} (h : MemInv s) : MemInv (s.freezeEnd c) :=
  .foldl (fun _ _ ht => ht.groupFree) (.foldl (fun _ _ ht => ht.carriedDone) h)

theorem MemInv.execFreezeComplete {c} (h : MemInv s) : MemOut (execFreezeComplete c s) := .next h.freezeEnd

/-! ## X transforms -/

theorem MemInv.startX {x i} (h : MemInv s) : MemInv (s.startX x i) := by
  unfold State.startX
  dsimp only
  split
  · exact h.onArch.with_nextOp.lateWork
  · exact h.onArch.with_nextOp.onArch

theorem MemInv.xIssue {g i ts sx chk} (h : MemInv s) : MemOut (xIssue g i ts sx chk s) := by
  unfold Machine.xIssue
  split
  · exact .next h
  · split
    · exact .next h.onArch.with_verdict
    · refine MemInv.issue (fun _ _ => .none) (fun _ ht => ?_) h
      split
      · exact ht.startX
      · exact ht

theorem MemInv.execXmov {g d a xe} (h : MemInv s) : MemOut (execXmov g d a xe s) := h.xIssue

theorem MemInv.execXfill {g d x xe} (h : MemInv s) : MemOut (execXfill g d x xe s) := h.xIssue

theorem MemInv.execXcvt {g d a sat xe} (h : MemInv s) : MemOut (execXcvt g d a sat xe s) := h.xIssue

theorem MemInv.execXcmp {g d a uc xe} (h : MemInv s) : MemOut (execXcmp g d a uc xe s) := h.xIssue

theorem MemInv.execXexp {g d a uc xe} (h : MemInv s) : MemOut (execXexp g d a uc xe s) := h.xIssue

theorem MemInv.execXtrn {g d a uc xe} (h : MemInv s) : MemOut (execXtrn g d a uc xe s) := h.xIssue

theorem MemInv.execXdft {g d a bc xe} (h : MemInv s) : MemOut (execXdft g d a bc xe s) := h.xIssue

theorem MemInv.execXidft {g d a bc xe} (h : MemInv s) : MemOut (execXidft g d a bc xe s) := h.xIssue

theorem MemInv.execXidftAcc {g d z bc xe} (h : MemInv s) : MemOut (execXidftAcc g d z bc xe s) := h.xIssue

theorem MemInv.execXtag {g t dom y} (h : MemInv s) : MemOut (execXtag g t dom y s) :=
  MemInv.issue (fun _ _ => .none) (fun _ ht => ht.result) h

theorem MemInv.execXtagAcc {g z dom y} (h : MemInv s) : MemOut (execXtagAcc g z dom y s) :=
  MemInv.issue (fun _ _ => .none) (fun _ ht => ht.result) h

theorem MemInv.execXStepLanding {c} (h : MemInv s) : MemOut (execXStepLanding c s) := .next (.ite h.xLands h)

/-! ## Resumption -/

theorem MemInv.takeId {id} (h : MemInv s) : MemInv (s.takeId id).2 := .ite_snd h.with_nextOp h

theorem MemInv.reissue_fincAgain {old id} (h : MemInv s) : MemInv (State.reissue.fincAgain old s id) := by
  unfold State.reissue.fincAgain
  split
  · exact h.with_ops
  · exact h

theorem MemInv.reissue_reissueExec {slot j} (h : MemInv s) : MemOpt (State.reissue.reissueExec s slot j) := by
  unfold State.reissue.reissueExec
  extract_lets -underBinder r
  have hr : MemOut r := by
    unfold r
    split
    · exact h.execVld
    · exact h.execVst
    · exact h.execVldx
    · exact h.execVstx
    · exact h.execMmul
    · exact h.execMspec
    · exact h.execMrd
    · exact h.execMrdv
    · exact .next h
  clear_value r
  split
  · exact .some (hr _ rfl)
  · exact .none

theorem MemInv.reissue {id b save} (h : MemInv s) : MemInv (s.reissue id b save) := by
  unfold State.reissue
  split
  · extract_lets -underBinder slot addr i old
    clear_value slot i
    split
    rename_i e
    have ht := h.takeId.of_eq e
    extract_lets -underBinder aux add bad ordinary pass
    have hadd : ∀ u o, MemInv u → MemInv (add u o) := fun _ _ hu => hu.onArch.with_ops
    have hord : ∀ k l, MemInv (ordinary k l) := fun _ _ => by
      unfold ordinary
      dsimp only
      split
      · exact (hadd _ _ ht).lateOp
      · exact hadd _ _ ht
    have hpass : ∀ a b m, MemInv (pass a b m) := fun _ _ _ => by
      unfold pass
      dsimp only
      split
      · exact (hadd _ _ ht).lateOp
      · exact hadd _ _ ht
    clear_value add ordinary pass
    split
    · exact hord _ _
    · exact hpass _ _ _
    · exact hpass _ _ _
    · exact hord _ _
    · exact hord _ _
    · exact ht.reissue_fincAgain
    · exact ht.reissue_fincAgain
    · split
      · dsimp only
        split
        · exact (hadd _ _ ht).lateOp
        · exact hadd _ _ ht
      · dsimp only
        split
        · rename_i e'
          exact (ht.onArch.with_checked_nextOp.reissue_reissueExec.of_eq e').onArch.with_checked_ops_nextOp
        · exact ht
  · exact h

theorem MemInv.loadPass {id b} (h : MemInv s) : MemInv (s.loadPass id b) := by
  unfold State.loadPass
  dsimp only
  split
  · exact h.takeId
  · exact h.takeId.onArch

theorem MemInv.loadReadout {id b} (h : MemInv s) : MemInv (s.loadReadout id b) := by
  unfold State.loadReadout
  dsimp only
  exact h.takeId.onArch

theorem MemInv.loadStream {id b} (h : MemInv s) : MemInv (s.loadStream id b) := by
  unfold State.loadStream
  split
  rename_i e
  have ht := h.takeId.of_eq e
  split
  · exact ht
  · split
    · exact ht
    · dsimp only
      split
      · exact ht.onArch.lateWork
      · exact ht.onArch.onArch

theorem MemInv.loadRec {r} (h : MemInv s) : MemInv (s.loadRec r) := by
  unfold State.loadRec
  split
  dsimp only
  split
  · exact h.onArch
  · exact h
  · exact h.loadPass
  · exact h.loadReadout
  · exact h.loadStream
  · exact h.reissue
  · exact h

theorem MemInv.loadOff {b} (h : MemInv s) : MemInv (s.loadOff b) := by
  unfold State.loadOff
  split
  · split
    · exact h.onArch
    · exact h
  · exact h.offPass
  · exact h.offPass
  · exact h.offMrd
  · exact h

theorem MemInv.loadFence {rs} (h : MemInv s) : MemInv (s.loadFence rs) := by
  unfold State.loadFence
  split
  · exact h
  · exact h.onArch

theorem MemInv.entryTiles {c i n} (h : MemInv s) : MemInv (s.entryTiles c i n) := by
  induction n generalizing s i with
  | zero => exact h
  | succ n ih =>
    unfold State.entryTiles
    split
    have h1 : ∀ w, MemInv (s.talloc c w).2.2 := fun _ => h.talloc
    split
    · rename_i e
      exact ih (MemInv.onArchAt (e ▸ h1 _ : MemInv (_, _, _).2.2))
    · rename_i e
      exact MemInv.onArchAt (e ▸ h1 _ : MemInv (_, _, _).2.2)

theorem MemInv.startReach {k} (h : MemInv s) : MemInv (s.startReach k) := by
  unfold State.startReach
  dsimp only
  split
  · split
    · exact h.shepUp.shepReach.startvReach
    · exact .foldl (fun _ _ ht => ht.shepReach) h.shepUp.shepReach.startvReach
  · exact .ite h.shepUp.shepReach (.foldl (fun _ _ ht => ht.shepReach) h.shepUp.shepReach)

theorem MemInv.startOn {c k} (h : MemInv s) : MemInv (s.startOn c k) := by
  unfold State.startOn
  extract_lets -underBinder mc fs y s1 x a1 a2 recs faulted recs' sylslot a3 a4 old cyc s2 was kept s3 s4 s5 s6 s7 s8 s9
  have h1 : MemInv s1 := h.startReach
  have h2 : MemInv s2 := h1.setCoreAt
  have h3 : MemInv s3 := h2
  have h4 : MemInv s4 := .ite h3.onArch h3
  have h5 : MemInv s5 := .ite (.foldl (fun _ _ ht => ht.loadOff) h4) h4
  have h6 : MemInv s6 := .loadFence (.foldl (fun _ _ ht => ht.loadRec) h5)
  have h7 : MemInv s7 := by
    unfold s7
    split
    · exact .ite h6 h6.entryTiles
    · exact h6
  have h8 : MemInv s8 := h7
  have h9 : MemInv s9 := h8.onCont.setContState
  exact .ite h1.shepUp h9.shepUp.checkpoint

/-! ## The Shepherd -/

theorem MemInv.freezeBinding {b} (h : MemInv s) : MemInv (s.freezeBinding b) := .ite h (.onBind (.foldl (fun _ _ ht => ht.onCoreAt) h))

theorem MemInv.preempt {b} (h : MemInv s) : MemInv (s.preempt b) := .ite h h.freezeBinding.onMc

theorem MemInv.execShepherdSelect (h : MemInv s) : MemOut (execShepherdSelect s) := by
  unfold Machine.execShepherdSelect
  refine .next ?_
  split
  · exact h
  · dsimp only
    split
    · exact h.with_selDue
    · split
      · exact h.with_reserves_selDue
      · split
        · exact h.with_selDue
        · exact .with_reserves (.foldl (fun _ _ ht => ht.preempt) h.with_selDue)

theorem MemInv.setModes {b} (h : MemInv s) : MemInv (s.setModes b) := .foldl (fun _ _ ht => .foldl (fun _ _ ht => ht.setPen) ht) h

theorem MemInv.takeSlots {mc b buf l} (h : MemInv s) : MemInv (s.takeSlots mc b buf l) := by
  induction l generalizing s mc b buf with
  | nil => exact h
  | cons x l ih =>
    unfold State.takeSlots
    split
    · exact h
    · exact ih h.newCont.onCont

theorem MemInv.bindFails {t : State} {mc counted} (h : MemInv t) : MemInv (s.bindFails t mc counted) :=
  .ite h.with_conts_binds_nextBind.onMc.shepUp.paramRefs h.with_conts_binds_nextBind.onMc.shepUp

theorem MemInv.bindNew {r} (h : MemInv s) : MemInv (s.bindNew r) := by
  unfold State.bindNew
  dsimp only
  split
  · exact h.shepUp.shepReach.startvReach.shepUp
  · split
    · exact h.shepUp.shepReach.startvReach.with_nextBind.setBind.paramRefs.bindFails
    · split
      · exact h.shepUp.shepReach.startvReach.with_nextBind.setBind.paramRefs.takeSlots.bindFails
      · exact h.shepUp.shepReach.startvReach.with_nextBind.setBind.paramRefs.takeSlots.with_reserves.decideMc

theorem MemInv.hold {b r} (h : MemInv s) : MemInv (s.hold b r) := h.onBind.onMc.with_reserves.setModes

theorem MemInv.groupReach {b ks} (h : MemInv s) : MemInv (s.groupReach b ks) :=
  .foldl (fun _ _ ht => .ite ht ht.startReach) h.shepUp.shepReach

theorem MemInv.requestTaken {mc} (h : MemInv s) : MemInv (s.requestTaken mc) := h.onMc

theorem MemInv.launch {b r} (h : MemInv s) : MemInv (s.launch b r) := by
  unfold State.launch
  dsimp only
  split
  · exact h.groupReach.shepUp
  · exact .decideMc (.foldl (fun _ _ ht => ht.onCont.startOn) h.groupReach.hold.requestTaken)

theorem MemInv.unlaunch {b} (h : MemInv s) : MemInv (s.unlaunch b) :=
  .ite h (.foldl (fun _ _ ht => ht.onCont.makeRunnable) h.onBind.requestTaken)

theorem MemInv.unreserve {hit} (h : MemInv s) : MemInv (s.unreserve hit) := by
  unfold State.unreserve
  refine .foldl (fun _ _ ht => ?_) h.with_reserves
  refine .selectAt ?_
  split
  · exact ht.unlaunch
  · exact ht

theorem MemInv.execNewBinding (h : MemInv s) : MemOut (execNewBinding s) := by
  unfold Machine.execNewBinding
  refine .next ?_
  split
  · exact h
  · exact .ite h.with_reserves (.ite h.bindNew.launch h.bindNew)

theorem MemInv.execBindingLaunchAfterFreeze (h : MemInv s) : MemOut (execBindingLaunchAfterFreeze s) := by
  unfold Machine.execBindingLaunchAfterFreeze
  refine .next ?_
  split
  · exact h
  · exact h.launch

theorem MemInv.execRebinding (h : MemInv s) : MemOut (execRebinding s) := by
  unfold Machine.execRebinding
  refine .next ?_
  split
  · exact h
  · dsimp only
    split
    · exact h.with_reserves
    · exact .ite h.groupReach.shepUp (.decideMc (.foldl (fun _ _ ht => ht.startOn) h.groupReach.hold))

theorem MemInv.execContinuationResume {c} (h : MemInv s) : MemOut (execContinuationResume c s) := by
  unfold Machine.execContinuationResume
  refine .next ?_
  split
  · exact h
  · split
    · exact h
    · split
      · exact h
      · exact h.startOn

theorem MemInv.execHandlerCreation (h : MemInv s) : MemOut (execHandlerCreation s) := by
  unfold Machine.execHandlerCreation
  refine .next ?_
  split
  · exact h
  · dsimp only
    split
    · exact h.with_handlers.trapEvent
    · split
      · exact h.with_handlers
      · split
        · exact h.contReach.shepReach.shepUp.with_handlers
        · exact h.contReach.shepReach.with_handlers.newCont.shepUp.onCont.makeRunnable

theorem MemInv.execSliceEnd {b} (h : MemInv s) : MemOut (execSliceEnd b s) :=
  .next (.ite h (.ite h.charge.onBind.selectAt.preempt h.charge.onBind.selectAt))

theorem MemInv.execNpExpiry {b} (h : MemInv s) : MemOut (execNpExpiry b s) := by
  unfold Machine.execNpExpiry
  refine .next ?_
  split
  · exact h
  · dsimp only
    split
    · exact .ite h.onBind.preempt h.onBind
    · exact h.onBind

/-! ## Rollback and errors -/

/-- A rollback writes back the old bytes. -/
theorem MemInv.undoAll {l} (h : MemInv s) : MemInv (s.undoAll l) := by
  induction l generalizing s with
  | nil => exact h
  | cons u l ih =>
    refine ih ?_
    split
    · exact h.with_mem (wrByte_wf _ _ h.1)
    · exact h.setCluster

theorem MemInv.unlend {c st} (h : MemInv s) : MemInv (s.unlend c st) := by
  unfold State.unlend
  split
  · exact h.endLoan
  · exact h

theorem MemInv.undoTiles {c} (h : MemInv s) : MemInv (s.undoTiles c) := h.setCluster

theorem MemInv.rollBack {c} (h : MemInv s) : MemInv (s.rollBack c) :=
  .unlend (.onCoreAt (.foldl (fun _ _ ht => .dropOp (.ite ht.foldWithdraw ht)) h.undoAll.undoTiles.l1Home))

theorem MemInv.fencedCont {k bank} (h : MemInv s) : MemInv (s.fencedCont k bank) := by
  unfold State.fencedCont
  refine .deliver ?_
  split
  · exact h.countTrap.onCont.setContState.endLoan
  · exact h.countTrap.onCont.setContState

theorem MemInv.fencedTile {k bank} (h : MemInv s) : MemInv (s.fencedTile k bank) := by
  unfold State.fencedTile
  dsimp only
  split
  · exact h
  · split
    · exact h.with_nextOp.onCoreAt
    · exact .ite h.with_nextOp.onCont h.fencedCont

theorem MemInv.fenceUnit {cl i bank own} (h : MemInv s) : MemInv (s.fenceUnit cl i bank own) := by
  unfold State.fenceUnit
  dsimp only
  split
  · split
    · exact h
    · exact .foldl (fun _ _ ht => ht.fencedTile) (.foldl (fun _ _ ht => ht.freezeBinding) h.with_units_mapver.unreserve)
  · exact .ite h (.foldl (fun _ _ ht => ht.freezeBinding) h.with_units_mapver.unreserve)

theorem MemInv.containedCore {c source} (h : MemInv s) : MemInv (s.containedCore c source) :=
  h.rollBack.coreError.onCoreAt.takeTrap.fenceUnit

theorem MemInv.dropFailed {c source} (h : MemInv s) : MemInv (s.dropFailed c source) := by
  unfold State.dropFailed
  split
  rename_i e
  have ht := h.fresh.of_eq e
  split
  · exact ht.onCoreAt
  · split
    · dsimp only
      split
      · exact ht.with_tlb
      · exact ht
    · exact ht

theorem MemInv.execRollback {c source} (h : MemInv s) : MemOut (execRollback c source s) :=
  .next (.ite h.dropFailed.coreError (.ite h (.ite h.containedCore h.rollBack.onCoreAt)))

theorem MemInv.foldContained {pen g} (h : MemInv s) : MemInv (s.foldContained pen g) := by
  unfold State.foldContained
  dsimp only
  exact .fenceUnit (.foldl (fun _ _ ht => ht.lateOp) h.fresh.dropGroup.mcRecord)

theorem MemInv.fincFault {o t} (h : MemInv s) : MemInv (s.fincFault o t) := .ite h.dropOp.onCont.lateWork h.lateOp.onCont.carriedDone

theorem MemInv.opLate {o t} (h : MemInv s) : MemInv (s.opLate o t) := by
  unfold State.opLate
  split
  · exact .ite h.fincFault h
  · split
    · split
      · exact h.attSave.lateOp
      · exact h.blkFault
    · exact h.lateOp

theorem MemInv.opContained {c source o} (h : MemInv s) : MemInv (s.opContained c source o) := by
  unfold State.opContained
  dsimp only
  exact h.fresh.coreError.opLate.fenceUnit

theorem MemInv.memoryError {source unit} (h : MemInv s) : MemInv (s.memoryError source unit) := h.with_poison.poisonBlocks.mcRecord

theorem MemInv.lineError {unit} (h : MemInv s) : MemInv (s.lineError unit) := h.with_poisonL2.poisonBlocks.mcRecord

theorem MemInv.storeError {c source op} (h : MemInv s) : MemInv (s.storeError c source op) := by
  unfold State.storeError
  dsimp only
  split
  · exact .ite h.mcRecord.onArchAt h.mcRecord
  · exact .ite (.ite h.mcRecord.onArchAt h.mcRecord) h.mcRecord.setCluster

theorem MemInv.execContainedError {c source op} (h : MemInv s) : MemOut (execContainedError c source op s) := by
  unfold Machine.execContainedError
  refine .next ?_
  split
  · exact h.memoryError
  · split
    · exact h.lineError
    · split
      · exact h.storeError
      · split
        · split
          · exact .ite h h.opContained
          · exact h
        · split
          · exact h.containedCore
          · split
            · split
              · exact h.foldContained
              · exact h
            · exact h

theorem MemInv.execFatalError {bank source unit} (h : MemInv s) : MemOut (execFatalError bank source unit s) := by
  unfold Machine.execFatalError
  split
  rename_i e
  exact .next (h.fresh.of_eq e).mcRecord.with_phase

theorem MemInv.execFoldPassRetry {gid} (h : MemInv s) : MemOut (execFoldPassRetry gid s) := by
  unfold Machine.execFoldPassRetry
  refine .next ?_
  split
  · exact h
  · split
    · rename_i e
      exact h.foldRetry.of_eq e
    · exact h.foldContained

/-! ## Segments -/

theorem MemInv.setSeg {n x} (h : MemInv s) : MemInv (s.setSeg n x) := h.with_segs

theorem MemInv.segFail {n} (h : MemInv s) : MemInv (s.segFail n) := .foldl (fun _ _ ht => ht.setFerr) h.setSeg

theorem MemInv.carderAsk {n} (h : MemInv s) : MemInv (s.carderAsk n) := by
  unfold State.carderAsk
  split
  rename_i e
  have ht := h.fresh.of_eq e
  exact .ite ht ht.setSeg

theorem MemInv.execManifestRead {n bytes} (h : MemInv s) : MemOut (execManifestRead n bytes s) := by
  unfold Machine.execManifestRead
  refine .next ?_
  split
  · exact h
  · split
    · exact h.segFail
    · split
      · exact h.segFail
      · exact h.setSeg.carderAsk

theorem MemInv.newFrame {kind} (h : MemInv s) : MemInv (s.newFrame kind).2 := by
  unfold State.newFrame
  split
  rename_i e
  exact h.fresh.of_eq e

theorem MemInv.setPresent {f l} (h : MemInv s) : MemInv (s.setPresent f l) := by
  induction l generalizing s f with
  | nil => exact h
  | cons x l ih => exact ih h.wrMem

theorem MemInv.pageIn {n page d} (h : MemInv s) : MemInv (s.pageIn n page d) := by
  unfold State.pageIn
  split
  · rename_i e
    exact h.newFrame.of_eq e
  · rename_i e
    exact (h.newFrame.of_eq e).wrMem.setSeg.setPresent

theorem MemInv.execCarderPageArrival {n page data} (h : MemInv s) : MemOut (execCarderPageArrival n page data s) :=
  .next (.ite h (.ite h.commitAll.pageIn.carderAsk (.ite h.segFail h.setSeg)))

theorem MemInv.execSegWaitExpiry {id} (h : MemInv s) : MemOut (execSegWaitExpiry id s) := by
  unfold Machine.execSegWaitExpiry
  refine .next ?_
  split
  · split
    · exact .ite h.lateOp h
    · exact h
  · exact h

theorem MemInv.grant {p n on} (h : MemInv s) : MemInv (s.grant p n on) := h.onPart

theorem MemInv.segInstall {p src r} (h : MemInv s) : MemInv (s.segInstall p src r).2 := by
  unfold State.segInstall
  split
  · exact h.setSeg.grant
  · split
    · exact h.setSeg.grant
    · exact h

theorem MemInv.dropSegTlb {n mine} (h : MemInv s) : MemInv (s.dropSegTlb n mine) := h.with_tlb

theorem MemInv.zeroRegs {l} (h : MemInv s) : MemInv (s.zeroRegs l) := by
  induction l generalizing s with
  | nil => exact h
  | cons x l ih => exact ih h.commitLines.wrMem

theorem MemInv.segRelease {p n} (h : MemInv s) : MemOpt (s.segRelease p n) := .ite .none (.some h.grant.zeroRegs.setSeg.dropSegTlb)

/-- A new key writes the lines of a range again. -/
theorem MemInv.rekey {t : State} {lo n out} (h : MemInv t) : MemInv (s.rekey t lo n out) := h.with_mem (wrBytes_wf _ _ h.1)

theorem MemInv.rekeyPart {t : State} {p} (h : MemInv t) : MemInv (s.rekeyPart t p) := by
  unfold State.rekeyPart
  dsimp only
  exact .ite h h.rekey.rekey

theorem MemInv.execSegmentDrain {n} (h : MemInv s) : MemOut (execSegmentDrain n s) :=
  .next (.ite h (.ite h.dropSegTlb (.foldl (fun _ _ ht => ht.rekey) h.dropSegTlb.setSeg)))

theorem MemInv.segMap {p n base tile n1 n2} (h : MemInv s) : MemInv (s.segMap p n base tile n1 n2) := by
  induction n2 generalizing s p n base tile n1 with
  | zero => exact h
  | succ n ih => exact ih h.commitLines.wrMem.setSeg

end

end Sys2Proof
end

