-- ==== Sys2Proof/Proofs/MemoryHost.lean ====
section
/-!
PROOFS. What the host does to the device keeps the form of both memories: queues, register windows, mailbox, reset.
-/
namespace Sys2Proof
open Machine
set_option Elab.async false

section
variable {s : State}

/-! ## Host queues -/

theorem MemInv.setQueue {fn q x} (h : MemInv s) : MemInv (s.setQueue fn q x) := h.onFunc

theorem MemInv.onQueue {fn q g} (h : MemInv s) : MemInv (s.onQueue fn q g) := h.setQueue

theorem MemInv.execQueueEnable {fn q} (h : MemInv s) : MemOut (execQueueEnable fn q s) := by
  unfold Machine.execQueueEnable
  refine .next ?_
  split
  · exact h.setQueue.setFerr
  · split
    · rename_i e
      exact (h.hostGet.of_eq e).setQueue.setFerr
    · rename_i e
      have ht := h.hostGet.of_eq e
      split
      · exact ht.setQueue
      · exact ht.setQueue.setFerr

theorem MemInv.execQueueDisable {fn q} (h : MemInv s) : MemOut (execQueueDisable fn q s) := .next h.onQueue

theorem MemInv.notifyDeferred {fn q} (h : MemInv s) : MemInv (s.notifyDeferred fn q) := by
  unfold State.notifyDeferred
  exact .ite h h.postRecord

theorem MemInv.setPending {fn q} (h : MemInv s) : MemInv (s.setPending fn q) := .ite h h.with_nextPend.onQueue.notifyDeferred

theorem MemInv.execNotify {fn q tail relaxed} (h : MemInv s) : MemOut (execNotify fn q tail relaxed s) :=
  .next (.ite h (.ite h.setFerr (.ite h.setFerr (.ite h.setQueue.setFerr h.setQueue.setPending))))

theorem MemInv.dogWait {fn q mc w} (h : MemInv s) : MemInv (s.dogWait fn q mc w).2 := by
  unfold State.dogWait
  split
  · exact h.nap.onQueue
  · exact h.segNap
  · exact h

theorem MemInv.dogStop {β : Type} {fn q mc : Nat} {g : Got β} {fail : State → PacketEnd × State} (h : MemInv s)
    (hfail : ∀ t, MemInv t → MemInv (fail t).2) :
    MemInv (s.dogStop fn q mc g fail).2 := by
  unfold State.dogStop
  split
  · split
    rename_i e
    have ht := h.dogWait.of_eq e
    exact .ite_snd (hfail _ ht) ht
  · exact hfail _ h

theorem MemInv.hostAppend {fn q mc buf p r} (h : MemInv s) : MemInv (s.hostAppend fn q mc buf p r).2 := by
  unfold State.hostAppend
  dsimp only
  split
  · rename_i e
    exact (h.hostGet.of_eq e).giveBuf.complete
  · rename_i e
    have ht := h.hostGet.of_eq e
    split
    · rename_i e1
      have ht1 := ht.netWrite.of_eq e1
      split
      · rename_i e2
        exact ht1.onMc.append.of_eq e2
      · rename_i e2
        have ht2 := ht1.onMc.append.of_eq e2
        split
        · rename_i e3
          have ht3 := MemInv.of_eq e3 (.dogStop ht2 (fun _ ht => ht.giveBuf.complete))
          exact ht3.giveBuf
        · exact .dogStop ht2 (fun _ ht => ht.giveBuf.complete)
    · rename_i e1
      have ht1 := ht.netWrite.of_eq e1
      split
      · rename_i e2
        have ht2 := MemInv.of_eq e2 (.dogStop ht1 (fun _ ht => ht.giveBuf.complete))
        exact ht2.giveBuf
      · exact .dogStop ht1 (fun _ ht => ht.giveBuf.complete)

theorem MemInv.fetchPacket {fn q} (h : MemInv s) : MemInv (s.fetchPacket fn q).2 := by
  unfold State.fetchPacket
  dsimp only
  split
  · exact h
  · split
    · rename_i e
      exact (h.hostGet.of_eq e).onQueue
    · rename_i e
      exact h.hostGet.of_eq e

theorem MemInv.handlePacket {fn q p} (h : MemInv s) : MemInv (s.handlePacket fn q p).2 := by
  unfold State.handlePacket
  dsimp only
  split
  · exact h.complete
  · split
    · exact h.complete
    · split
      · exact h
      · split
        · exact h.complete
        · split
          · exact h.complete
          · split
            · rename_i e
              have ht := h.rxPool.of_eq e
              split
              · exact ht.complete
              · split
                · rename_i e1
                  exact ht.takeBuf.of_eq e1
                · rename_i e1
                  exact (ht.takeBuf.of_eq e1).hostAppend
                · rename_i e1
                  exact .dogStop (ht.takeBuf.of_eq e1) (fun _ ht => ht.complete)
            · rename_i e
              have ht := h.rxPool.of_eq e
              exact .dogStop ht (fun _ ht => ht.complete)

theorem MemInv.hostPacket {fn q} (h : MemInv s) : MemInv (s.hostPacket fn q).2 := by
  unfold State.hostPacket
  split
  · exact h
  · split
    · rename_i e
      exact h.fetchPacket.of_eq e
    · rename_i e
      exact (h.fetchPacket.of_eq e).handlePacket

theorem MemInv.headUp {fn q} (h : MemInv s) : MemInv (s.headUp fn q) := h.setQueue.hostPut

theorem MemInv.servePackets {fn q n} (h : MemInv s) : MemInv (s.servePackets fn q n) := by
  induction n generalizing s fn q with
  | zero => exact h
  | succ n ih =>
    unfold State.servePackets
    split
    · exact h
    · split
      · rename_i e
        exact ih (h.hostPacket.of_eq e).headUp
      · rename_i e
        exact (h.hostPacket.of_eq e).onQueue

theorem MemInv.serveQueue {fn q} (h : MemInv s) : MemInv (s.serveQueue fn q) := .ite h.servePackets.setQueue h.servePackets

theorem MemInv.slotDone {i} (h : MemInv s) : MemInv (s.slotDone i) := by
  unfold State.slotDone
  split
  split
  exact h.with_rounds

theorem MemInv.visit {i} (h : MemInv s) : MemInv (s.visit i) := by
  unfold State.visit
  split
  · split
    · exact h.serveQueue
    · exact h
  · dsimp only
    split <;> exact h.with_slots.serveQueue

theorem MemInv.execPollingSlotVisit {i} (h : MemInv s) : MemOut (execPollingSlotVisit i s) :=
  .next (.ite h (.ite h.slotDone h.slotDone.visit))

theorem MemInv.freePackets {n} (h : MemInv s) : MemInv (s.freePackets n) := by
  unfold State.freePackets
  refine .foldl (fun _ _ ht => ?_) h
  split
  exact ht.complete.headUp

theorem MemInv.execRingCtimeExpiry {fn r} (h : MemInv s) : MemOut (execRingCtimeExpiry fn r s) := .next (.ite h h.setFunc.sendMsi)

theorem MemInv.execCdropRead {fn} (h : MemInv s) : MemOut (execCdropRead fn s) := .next (.ite h.with_outbox h.onFunc.with_outbox)

/-! ## Register windows -/

theorem MemInv.mctxIdle {fn mc} (h : MemInv s) : MemInv (s.mctxIdle fn mc) := by
  unfold State.mctxIdle
  split
  · exact .ite h.onMc.onPart h.setFerr
  · exact h.decideMc
  · exact h

theorem MemInv.mctxHalted {mc} (h : MemInv s) : MemInv (s.mctxHalted mc) :=
  .ite h (.foldl (fun _ _ ht => ht.unlaunch.preempt) h.onMc.with_reserves)

theorem MemInv.dropRequests {mc n} (h : MemInv s) : MemInv (s.dropRequests mc n) := by
  induction n generalizing s with
  | zero => exact h
  | succ n ih =>
    unfold State.dropRequests
    refine .ite h (ih (.onMc ?_))
    split
    · rename_i e
      exact (h.netRead.of_eq e).giveBuf.complete
    · rename_i e
      exact h.netRead.of_eq e

theorem MemInv.mctxFree {mc} (h : MemInv s) : MemInv (s.mctxFree mc) :=
  .ite h (.onPart (.onMc (.foldl (fun _ _ ht => ht.giveBuf) h.dropRequests)))

theorem MemInv.mctxState {fn mc v} (h : MemInv s) : MemInv (s.mctxState fn mc v) := by
  unfold State.mctxState
  split
  · exact h.mctxFree
  · exact h.mctxIdle
  · exact h.mctxHalted
  · exact h

theorem MemInv.execMctxWriteIdle {fn mc} (h : MemInv s) : MemOut (execMctxWriteIdle fn mc s) := .next (.ite h.mctxIdle h)

theorem MemInv.execMctxWriteHalted {fn mc} (h : MemInv s) : MemOut (execMctxWriteHalted fn mc s) := .next (.ite h.mctxHalted h)

theorem MemInv.execMctxWriteFree {fn mc} (h : MemInv s) : MemOut (execMctxWriteFree fn mc s) := .next (.ite h.mctxFree h)

theorem MemInv.mctxWrite {fn mc w} (h : MemInv s) : MemInv (s.mctxWrite fn mc w) := by
  unfold State.mctxWrite
  split
  · exact h
  · dsimp only
    split
    · exact .mctxState (.onMc (.ite h.setMc (.foldl (fun _ _ ht => ht.setFerr) h)))
    · exact .onMc (.ite h.setMc (.foldl (fun _ _ ht => ht.setFerr) h))

theorem MemInv.execTicketsWrite {fn mc v} (h : MemInv s) : MemOut (execTicketsWrite fn mc v s) := .next h.mctxWrite

theorem MemInv.execParamverWrite {fn mc v} (h : MemInv s) : MemOut (execParamverWrite fn mc v s) := .next h.mctxWrite

theorem MemInv.fenceAlloc {n p} (h : MemInv s) : MemInv (s.fenceAlloc n p) := .ite h.setFerr h.setFence.onPart

theorem MemInv.fenceFree {n} (h : MemInv s) : MemInv (s.fenceFree n) :=
  .ite h.setFerr h.wakeFence.wakeWaitf.freePackets.with_conts.with_ops.setFence.onPart

theorem MemInv.execFenceAlloc {fn n part} (h : MemInv s) : MemOut (execFenceAlloc fn n part s) := .next (.ite h.fenceAlloc h)

theorem MemInv.execFenceFree {fn n} (h : MemInv s) : MemOut (execFenceFree fn n s) := .next (.ite h.fenceFree h)

theorem MemInv.fenceWrite {fn n w} (h : MemInv s) : MemInv (s.fenceWrite fn n w) := by
  unfold State.fenceWrite
  split
  · exact h
  · dsimp only
    split
    · exact .ite (.fenceAlloc (.ite h.fenceUpdate h)) (.fenceFree (.ite h.fenceUpdate h))
    · exact .ite h.fenceUpdate h

theorem MemInv.abortCont {k} (h : MemInv s) : MemInv (s.abortCont k) := by
  unfold State.abortCont
  dsimp only
  split
  · exact h.with_again
  · exact .reapClus (.contFree (.with_handlers_ops (.foldl (fun _ _ ht => ht.freeClus) h)))

theorem MemInv.contctl {fn mc slot f} (h : MemInv s) (hf : ∀ t, MemInv t → MemInv (f t)) : MemInv (s.contctl fn mc slot f) :=
  .ite h.setFerr (hf _ h)

theorem MemInv.execContctlResume {fn mc slot} (h : MemInv s) : MemOut (execContctlResume fn mc slot s) :=
  .next (.contctl h (fun _ ht => ht.resumeTrapped))

theorem MemInv.execContctlSkip {fn mc slot} (h : MemInv s) : MemOut (execContctlSkip fn mc slot s) :=
  .next (.contctl h (fun _ ht => ht.resumeTrapped))

theorem MemInv.execContctlAbort {fn mc slot} (h : MemInv s) : MemOut (execContctlAbort fn mc slot s) :=
  .next (.contctl h (fun _ ht => ht.abortCont))

theorem MemInv.contctlWrite {fn v} (h : MemInv s) : MemInv (s.contctlWrite fn v) := by
  unfold State.contctlWrite
  split
  dsimp only
  split
  · exact .contctl h (fun _ ht => ht.resumeTrapped)
  · exact .contctl h (fun _ ht => ht.resumeTrapped)
  · exact .contctl h (fun _ ht => ht.abortCont)
  · exact h

theorem MemInv.clcfg {q v} (h : MemInv s) : MemInv (s.clcfg q v) := .ite h.setCluster h.setCluster

theorem MemInv.execClcfgWrite {fn cl v} (h : MemInv s) : MemOut (execClcfgWrite fn cl v s) := .next (.ite h.clcfg h)

theorem MemInv.execTwaysPendingApply {cl} (h : MemInv s) : MemOut (execTwaysPendingApply cl s) := .next h.twaysApply

theorem MemInv.seqWrite {p w} (h : MemInv s) : MemInv (s.seqWrite p w) := .ite h.onPart h

theorem MemInv.sliceWrite {v} (h : MemInv s) : MemInv (s.sliceWrite v) := h.with_slice

theorem MemInv.segwaitWrite {v} (h : MemInv s) : MemInv (s.segwaitWrite v) := h.with_segwait

theorem MemInv.cxlenWrite {v} (h : MemInv s) : MemInv (s.cxlenWrite v) := .ite h.with_cxlen_hostBias h

theorem MemInv.execSliceWrite {v} (h : MemInv s) : MemOut (execSliceWrite v s) := .next h.sliceWrite

theorem MemInv.execSegwaitWrite {v} (h : MemInv s) : MemOut (execSegwaitWrite v s) := .next h.segwaitWrite

theorem MemInv.execCxlenWrite {v} (h : MemInv s) : MemOut (execCxlenWrite v s) := .next h.cxlenWrite

theorem MemInv.biasGoWrite {page dir} (h : MemInv s) : MemInv (s.biasGoWrite page dir) :=
  .ite h.with_biasNext h.with_biasGo_biasDir_biasPage

theorem MemInv.execBiasFlipToHost {page} (h : MemInv s) : MemOut (execBiasFlipToHost page s) := .next h.biasGoWrite

theorem MemInv.execBiasFlipToDevice {page} (h : MemInv s) : MemOut (execBiasFlipToDevice page s) := .next h.biasGoWrite

theorem MemInv.biasEnd (h : MemInv s) : MemInv s.biasEnd := by
  unfold State.biasEnd
  split
  exact h.with_biasGo_biasDone_biasDir_biasPage_biasNext

theorem MemInv.execBiasFlipDone (h : MemInv s) : MemOut (execBiasFlipDone s) :=
  .next (.ite h (.ite h.commitLines.biasEnd.with_hostBias h.biasEnd.with_hostBias))

theorem MemInv.biasWrite {v clr} (h : MemInv s) : MemInv (s.biasWrite v clr) :=
  .ite h.with_biasDone.with_biasNext h.with_biasDone.with_biasGo_biasDir_biasPage

theorem MemInv.mbctlWrite {v} (h : MemInv s) : MemInv (s.mbctlWrite v) := .ite h.with_mbDone.with_mbBusy_mbReply h.with_mbDone

/-- A write of a device register's field keeps the memories. -/
theorem MemInv.deviceFields_set {f : Machine.Field State} {v} (h : MemInv s) (hf : f ∈ deviceFields) : MemInv (f.set v s) := by
  simp only [deviceFields, List.mem_cons, List.not_mem_nil, or_false] at hf
  obtain rfl | rfl | rfl | rfl | rfl := hf
  · exact h.sliceWrite
  · exact h.segwaitWrite
  · exact h.cxlenWrite
  · exact h
  · exact h.mbctlWrite

theorem MemInv.writeFields_deviceFields {w} (h : MemInv s) : MemInv (writeFields deviceFields w s) :=
  List.foldlRecOn (motive := MemInv) _ _ h fun _ ht _ hf => .ite (ht.deviceFields_set hf) ht

theorem MemInv.deviceWrite {w} (h : MemInv s) : MemInv (s.deviceWrite w) := by
  unfold State.deviceWrite
  extract_lets -underBinder s1 s2
  have h1 : MemInv s1 := h.writeFields_deviceFields
  have h2 : MemInv s2 := .ite h1.biasWrite h1
  exact .ite (.foldl (fun _ _ ht => .ite ht.with_mbreq ht) h2) h2

theorem MemInv.unmask {fn l} (h : MemInv s) : MemInv (s.unmask fn l) := by
  induction l generalizing s fn with
  | nil => exact h
  | cons x l ih => exact ih (.ite h.setFunc.sendMsi h)

theorem MemInv.sdStart {fn wake} (h : MemInv s) : MemInv (s.sdStart fn wake) := h.onFunc

theorem MemInv.execShootdown {fn wake} (h : MemInv s) : MemOut (execShootdown fn wake s) := .next h.sdStart

theorem MemInv.sdWake {fn} (h : MemInv s) : MemInv (s.sdWake fn) := .foldl (fun _ _ ht => ht.onArchAt) h.with_ops_naps

theorem MemInv.execShootdownDone {fn} (h : MemInv s) : MemOut (execShootdownDone fn s) :=
  .next (.ite h (.ite h (.onFunc (.ite h.with_tlb.sdWake h.with_tlb))))

theorem MemInv.bar0Write {fn w} (h : MemInv s) : MemInv (s.bar0Write fn w) := by
  unfold State.bar0Write
  extract_lets -underBinder s1 v q s2 v' s' s3 s4 r s5
  have h1 : MemInv s1 := h.onFunc
  have h2 : MemInv s2 := by
    unfold s2
    refine .ite ?_ h1
    split
    · rename_i e
      exact MemOut.of_eq e (.ite h1.execQueueEnable h1.execQueueDisable)
    · exact h1
  have h3 : MemInv s3 := .ite (.ite h2.onFunc.sdStart h2.onFunc) h2
  have h4 : MemInv s4 := .ite h3.contctlWrite h3
  have h5 : MemInv s5 := .ite h4.onFunc h4
  exact .ite h5.onFunc.unmask h5

theorem MemInv.windowWrite {fn w} (h : MemInv s) : MemInv (s.windowWrite fn w) := by
  unfold State.windowWrite
  split
  · exact h.commitLines.wrMem
  · exact h

theorem MemInv.poisonRecord {pa} (h : MemInv s) : MemInv (s.poisonRecord pa) := h.mcRecord

theorem MemInv.bar4Write {fn w} (h : MemInv s) : MemInv (s.bar4Write fn w) := by
  unfold State.bar4Write
  extract_lets at' pf
  refine .ite (.ite (.rekeyPart h.onPart) h) (.ite h.mctxWrite (.ite h.fenceWrite (.ite (.ite h.seqWrite h) (.ite ?_ (.ite ?_ ?_)))))
  · exact .ite h (.ite h.clcfg (.ite h.setPen h))
  · exact .ite h.with_banks h
  · exact .ite (.ite h.deviceWrite h) (.ite h.windowWrite h)

theorem MemInv.hostRead {fn bar off n} (h : MemInv s) : MemInv (s.hostRead fn bar off n) := by
  unfold State.hostRead
  dsimp only
  split
  · exact .ite h.commitLines.viaCache.poisonRecord.with_outbox h.commitLines.viaCache.with_outbox
  · exact .ite h.with_outbox.onFunc h.with_outbox

theorem MemInv.execRegisterWrite {fn bar off len v} (h : MemInv s) : MemOut (execRegisterWrite fn bar off len v s) := by
  unfold Machine.execRegisterWrite
  dsimp only
  split
  · exact .next h
  · split
    · exact .next (.ite h.bar0Write h)
    · exact .ite (.ite h.execNotify (.next h)) (.ite (.next h.bar4Write) (.next h))

theorem MemInv.execFunctionLevelReset {fn} (h : MemInv s) : MemOut (execFunctionLevelReset fn s) :=
  .next (.ite h (.ite h.setFunc (.foldl (fun _ _ ht => ht.mctxHalted) h.setFunc)))

theorem MemInv.resetDone {fn} (h : MemInv s) : MemInv (s.resetDone fn) := .ite h h.onFunc

/-! ## The mailbox -/

theorem MemInv.answer {tag status body} (h : MemInv s) : MemInv (s.answer tag status body) := h.with_mbReply

theorem MemInv.execStatus {tag part} (h : MemInv s) : MemOut (execStatus tag part s) := .next (.ite h (.ite h.answer h.answer))

theorem MemInv.execBlkpool {tag part base bytes} (h : MemInv s) : MemOut (execBlkpool tag part base bytes s) :=
  .next (.ite h (.ite h.answer h.with_pools.answer))

theorem MemInv.execSeginst {tag part src peer flashOff haddr} (h : MemInv s) : MemOut (execSeginst tag part src peer flashOff haddr s)
    := by
  unfold Machine.execSeginst
  refine .next ?_
  split
  · exact h
  · split
    · exact h.answer
    · split
      · exact h.answer
      · split
        · rename_i e
          exact (h.hostGet.of_eq e).answer
        · rename_i e
          have ht := h.hostGet.of_eq e
          split
          · rename_i e1
            exact (ht.segInstall.of_eq e1).answer
          · rename_i e1
            exact (ht.segInstall.of_eq e1).answer

theorem MemInv.execSegrel {tag part seg} (h : MemInv s) : MemOut (execSegrel tag part seg s) := by
  unfold Machine.execSegrel
  refine .next ?_
  split
  · exact h
  · split
    · rename_i e
      exact (h.segRelease.of_eq e).answer
    · exact h.answer

theorem MemInv.execSegmap {tag part seg first n laddr} (h : MemInv s) : MemOut (execSegmap tag part seg first n laddr s) :=
  .next (.ite h (.ite h.answer (.ite h.answer h.segMap.answer)))

theorem MemInv.execMapq {tag part func queue np npqmax} (h : MemInv s) : MemOut (execMapq tag part func queue np npqmax s) := by
  unfold Machine.execMapq
  refine .next ?_
  split
  · exact h
  · split
    · exact h.answer
    · split
      rename_i e
      have ht := h.fresh.of_eq e
      exact .answer (.foldl (fun _ _ ht => ht.notifyDeferred) ht.with_slots)

theorem MemInv.execUnmapq {tag part func queue} (h : MemInv s) : MemOut (execUnmapq tag part func queue s) := by
  unfold Machine.execUnmapq
  refine .next ?_
  split
  · exact h
  · split
    · exact h.with_slots.answer
    · exact h.answer

theorem MemInv.askTest {m level unit t} (h : MemInv s) : MemOpt (s.askTest m level unit t) := by
  unfold State.askTest
  split
  · rename_i e
    exact .some (h.onMc.append.of_eq e).with_selfTest
  · exact .none

theorem MemInv.execTest {tag part ukind level uindex result} (h : MemInv s) : MemOut (execTest tag part ukind level uindex result s) := by
  unfold Machine.execTest
  refine .next (.ite h (.ite h.answer ?_))
  split
  · exact h.with_selfTest
  · exact h.askTest.getD h.with_selfTest

theorem MemInv.testFailed {ukind uindex} (h : MemInv s) : MemInv (s.testFailed ukind uindex) := by
  unfold State.testFailed
  split
  rename_i e
  split
  rename_i e1
  exact ((h.fresh.of_eq e).fresh.of_eq e1).mcRecord.fenceUnit

theorem MemInv.execUnitmap {tag} (h : MemInv s) : MemOut (execUnitmap tag s) := .next (.ite h.answer h)

theorem MemInv.ckptEnd {st} (h : MemInv s) : MemInv (s.ckptEnd st) := h.with_ckpt

theorem MemInv.execMemckpt {tag fn flags ports route0 haddr hbytes key} (h : MemInv s) :
    MemOut (execMemckpt tag fn flags ports route0 haddr hbytes key s) := by
  unfold Machine.execMemckpt
  refine .next ?_
  split
  · exact h
  · split
    · exact h.answer
    · refine .answer ?_
      split
      · split
        · exact .ckptEnd (.foldl (fun _ _ ht => ht.freezeBinding) h.with_ckpt)
        · exact .foldl (fun _ _ ht => ht.freezeBinding) h.with_ckpt
      · split
        · exact .ckptEnd (.foldl (fun _ _ ht => ht.freezeBinding) h.with_ckpt)
        · exact .foldl (fun _ _ ht => ht.freezeBinding) h.with_ckpt

theorem MemInv.execCkptstat {tag} (h : MemInv s) : MemOut (execCkptstat tag s) := .next (.ite h h.answer)

theorem MemInv.execCkptend {tag fn} (h : MemInv s) : MemOut (execCkptend tag fn s) := .next (.ite h (.ite h.answer h.with_ckpt.answer))

theorem MemInv.ckptRead {page} (h : MemInv s) : MemInv (s.ckptRead page) := .ite h.poisonRecord h

theorem MemInv.ckptDatagram {port page r d j} (h : MemInv s) : MemInv (s.ckptDatagram port page r d j) := h.emit.with_ckpt

theorem MemInv.ckptRecord {page} (h : MemInv s) : MemInv (s.ckptRecord page) := by
  unfold State.ckptRecord
  split
  rename_i e
  dsimp only
  exact (h.fresh.of_eq e).hostPut.with_ckpt

theorem MemInv.ckptTake {x p} (h : MemInv s) : MemInv (s.ckptTake x p) := h.with_ckpt.ckptRead

theorem MemInv.ckptDrop {x} (h : MemInv s) : MemInv (s.ckptDrop x) := .ite h.with_ckpt.ckptEnd h.with_ckpt

theorem MemInv.ckptMove {x} (h : MemInv s) : MemInv (s.ckptMove x) := by
  unfold State.ckptMove
  dsimp only
  split
  · exact h.ckptDrop
  · split
    · split
      · exact h.ckptTake
      · exact h
    · exact .ite h.with_ckpt.ckptRecord h.ckptDatagram.with_ckpt

theorem MemInv.ckptStep {x} (h : MemInv s) : MemInv (s.ckptStep x) := .ite h h.ckptMove

theorem MemInv.ckptRun {n} (h : MemInv s) : MemInv (s.ckptRun n) := by
  induction n generalizing s with
  | zero => exact h
  | succ n ih =>
    unfold State.ckptRun
    split
    · exact h
    · split
      · exact h.ckptEnd
      · split
        rename_i e
        exact ih (h.fresh.of_eq e).ckptMove

theorem MemInv.execCheckpointCopyEnd (h : MemInv s) : MemOut (execCheckpointCopyEnd s) := .next (.ite h h.ckptRun)

theorem MemInv.execCheckpointStreamFailure {stream} (h : MemInv s) : MemOut (execCheckpointStreamFailure stream s) :=
  .next (.ite h h.ckptDrop)

theorem MemInv.testAnswer {t} (h : MemInv s) : MemOpt (s.testAnswer t) := by
  unfold State.testAnswer
  dsimp only
  split
  · exact .some h.with_selfTest.answer
  · split
    · exact .none
    · refine .some (.answer (.with_reserves_selfTest ?_))
      split
      · exact h.onMc
      · exact h

theorem MemInv.testReply {bs} (h : MemInv s) : MemInv (s.testReply bs) :=
  .ite h (.ite (.testFailed (.foldl (fun _ _ ht => ht.onMc) h)) (.foldl (fun _ _ ht => ht.onMc) h))

theorem MemInv.execMailboxReply (h : MemInv s) : MemOut (execMailboxReply s) := by
  unfold Machine.execMailboxReply
  extract_lets out
  have hout : ∀ t bs, MemInv t → MemInv (out t bs) := fun _ _ ht => ht
  refine .next (.ite h ?_)
  split
  · exact hout _ _ h.testReply
  · refine .ite ?_ ?_
    · split
      · rename_i e
        have ht : MemInv _ := MemOpt.of_eq e (MemOpt.bind fun _ => h.testAnswer)
        split
        · exact hout _ _ ht.testReply
        · exact h
      · exact h
    · split
      · exact hout _ _ h
      · exact h

/-! ## Power, reset and links -/

/-- A reset starts with an empty memory and leaves the host's alone. -/
theorem MemInv.blank {ph} (h : MemInv s) : MemInv (s.blank ph) := ⟨rfl, h.2⟩

theorem MemInv.startBoot {img} (h : MemInv s) : MemInv (s.startBoot img) := .ite h.blank.with_booterr h.blank.with_image_factory_units

theorem MemInv.execPowerGood {img} (h : MemInv s) : MemOut (execPowerGood img s) := .next (.ite h.startBoot h)

theorem MemInv.execI3cReset {img} (h : MemInv s) : MemOut (execI3cReset img s) := .next (.ite h h.startBoot)

theorem MemInv.execPowerRemoval (h : MemInv s) : MemOut (execPowerRemoval s) := .next h.blank

theorem MemInv.bootRecord {die unit group} (h : MemInv s) : MemInv (s.bootRecord die unit group) := by
  unfold State.bootRecord
  split
  rename_i e
  split
  rename_i e1
  exact ((h.fresh.of_eq e).fresh.of_eq e1).mcRecord

theorem MemInv.bootRecords {img} (h : MemInv s) : MemInv (s.bootRecords img) :=
  .foldl (fun _ _ ht => ht.bootRecord) (.foldl (fun _ _ ht => ht.bootRecord) (.foldl (fun _ _ ht => ht.bootRecord) (.foldl
    (fun _ _ ht => ht.bootRecord) h)))

theorem MemInv.execBringupComplete (h : MemInv s) : MemOut (execBringupComplete s) := by
  unfold Machine.execBringupComplete
  refine .next ?_
  split
  · exact h
  · split
    · exact h
    · exact .ite h.bootRecords.with_phase_units h.bootRecords.with_phase_units_mapver.with_mapAtReady

theorem MemInv.calm {i} (h : MemInv s) : MemInv (s.calm i) := h.with_calmAt

theorem MemInv.execThrottleStepUp {i} (h : MemInv s) : MemOut (execThrottleStepUp i s) :=
  .next (.ite h (.ite h.calm h.calm.with_islands_raiseAt))

theorem MemInv.execThrottleStepDown {i} (h : MemInv s) : MemOut (execThrottleStepDown i s) := .next (.ite h h.calm.with_islands)

theorem MemInv.execThermalTrip {i} (h : MemInv s) : MemOut (execThermalTrip i s) := by
  unfold Machine.execThermalTrip
  split
  rename_i e
  split
  rename_i e1
  exact .next ((h.fresh.of_eq e).fresh.of_eq e1).mcRecord.with_phase

theorem MemInv.execEthernetLinkChange {port up} (h : MemInv s) : MemOut (execEthernetLinkChange port up s) := .next h.with_links

theorem MemInv.execBoundaryScan (h : MemInv s) : MemOut (execBoundaryScan s) := .next (.ite h.with_outbox h)

theorem MemInv.execCxlMemAccess {addr write len} (h : MemInv s) : MemOut (execCxlMemAccess addr write len s) := by
  unfold Machine.execCxlMemAccess
  refine .next ?_
  split
  · exact .ite h h.commitLines.putMem
  · exact .ite h (.ite h.commitLines.poisonRecord.with_outbox h.commitLines.with_outbox)

theorem MemInv.configRead {fn off} (h : MemInv s) : MemInv (s.configRead fn off) := .ite h h.with_outbox

theorem MemInv.configWrite {fn off v} (h : MemInv s) : MemInv (s.configWrite fn off v) := by
  unfold State.configWrite
  split
  · exact h
  · dsimp only
    split
    · split
      · rename_i e
        exact h.with_outbox_config.execFunctionLevelReset.of_eq e
      · exact h.with_outbox_config
    · exact h.with_outbox_config

theorem MemInv.i3cRead {bank} (h : MemInv s) : MemInv (s.i3cRead bank) := h.with_outbox

theorem MemInv.spdmAnswer {fn bytes} (h : MemInv s) : MemInv (s.spdmAnswer fn bytes) := .ite h.with_outbox h

theorem MemInv.spdmIf {fn ok bytes} (h : MemInv s) : MemInv (s.spdmIf fn ok bytes) := h.spdmAnswer

theorem MemInv.execGetVersion {fn} (h : MemInv s) : MemOut (execGetVersion fn s) := .next (.spdmAnswer (.ite h.with_spdmVer_spdmAlg h))

theorem MemInv.execGetCapabilities {fn} (h : MemInv s) : MemOut (execGetCapabilities fn s) := by
  unfold Machine.execGetCapabilities
  split
  rename_i e
  split
  rename_i e1
  exact .next ((h.fresh.of_eq e).fresh.of_eq e1).spdmIf

theorem MemInv.execNegotiateAlgorithms {fn p521 sha512} (h : MemInv s) : MemOut (execNegotiateAlgorithms fn p521 sha512 s) :=
  .next (.spdmIf (.ite h.with_spdmAlg h))

theorem MemInv.execGetDigests {fn} (h : MemInv s) : MemOut (execGetDigests fn s) := .next h.spdmIf

theorem MemInv.execGetCertificate {fn slot off len} (h : MemInv s) : MemOut (execGetCertificate fn slot off len s) := .next h.spdmIf

theorem MemInv.execChallenge {fn slot nonce} (h : MemInv s) : MemOut (execChallenge fn slot nonce s) := by
  unfold Machine.execChallenge
  split
  rename_i e
  exact .next (h.fresh.of_eq e).spdmIf

theorem MemInv.execGetMeasurements {fn index} (h : MemInv s) : MemOut (execGetMeasurements fn index s) := by
  unfold Machine.execGetMeasurements
  split
  split
  rename_i e
  exact .next (h.fresh.of_eq e).spdmIf

theorem MemInv.spdmOther {fn code} (h : MemInv s) : MemInv (s.spdmOther fn code) := .ite h h.spdmAnswer

end

end Sys2Proof
end

