-- ==== Sys2Proof/Proofs/MemoryStep.lean ====
section
/-!
PROOFS. Every instruction, every cycle and so every step keeps the form of both memories (O11).
-/
namespace Sys2Proof
open Machine
set_option Elab.async false

section
variable {s : State}

/-! ## Movement -/

theorem MemInv.copyIssue {g i x y w bad regs more paths} (h : MemInv s) : MemOut (copyIssue g i x y w bad regs more paths s) := by
  unfold Machine.copyIssue
  exact MemInv.issue (fun _ _ => .none) (fun _ ht => ht.startOp.commitPoint) h

theorem MemInv.execCpy {g x y w sat fen crc} (h : MemInv s) : MemOut (execCpy g x y w sat fen crc s) := h.copyIssue

theorem MemInv.execGath {g x y w sat fen crc} (h : MemInv s) : MemOut (execGath g x y w sat fen crc s) := h.copyIssue

theorem MemInv.execScat {g x y w sat fen crc} (h : MemInv s) : MemOut (execScat g x y w sat fen crc s) := h.copyIssue

theorem MemInv.execCpyn {g x y w fen} (h : MemInv s) : MemOut (execCpyn g x y w fen s) := h.copyIssue

theorem MemInv.execNrecv {g x y w fen} (h : MemInv s) : MemOut (execNrecv g x y w fen s) := h.copyIssue

theorem MemInv.execRing {g x y w} (h : MemInv s) : MemOut (execRing g x y w s) := h.copyIssue

theorem MemInv.execCseg {g x y w nowait} (h : MemInv s) : MemOut (execCseg g x y w nowait s) := h.copyIssue

theorem MemInv.execCCommandComplete {id} (h : MemInv s) : MemOut (execCCommandComplete id s) := by
  unfold Machine.execCCommandComplete
  refine .next ?_
  split
  · exact .ite h h.copyRun
  · exact h

theorem MemInv.execRingTimeout {id} (h : MemInv s) : MemOut (execRingTimeout id s) := by
  unfold Machine.execRingTimeout
  refine .next ?_
  split
  · split
    · exact h
    · split
      · split
        · rename_i e
          exact (h.ringLate.of_eq e).ringBreak
        · rename_i e
          exact h.ringLate.of_eq e
        · rename_i e
          exact (h.ringLate.of_eq e).lateOp
        · rename_i e
          exact (h.ringLate.of_eq e).waitOn
      · exact h
  · exact h

/-! ## Scalar instructions -/

theorem MemInv.sRes {lat d v} (h : MemInv s) : MemInv (sRes lat d v s) := h.result

theorem MemInv.sOp {lat g d f} (h : MemInv s) : MemOut (sOp lat g d f s) := MemInv.issueF (fun _ ht => ht.sRes) h

theorem MemInv.pOp {g d f} (h : MemInv s) : MemOut (pOp g d f s) := MemInv.issueF (fun _ ht => ht.result) h

theorem MemInv.addSubOp {neg g d a b f} (h : MemInv s) : MemOut (addSubOp neg g d a b f s) := by
  unfold Machine.addSubOp
  refine MemInv.issueF (fun _ ht => ?_) h
  split
  exact ht.result

theorem MemInv.execAdd {g d a b f} (h : MemInv s) : MemOut (execAdd g d a b f s) := h.addSubOp

theorem MemInv.execSub {g d a b f} (h : MemInv s) : MemOut (execSub g d a b f s) := h.addSubOp

theorem MemInv.execAddi {g d a imm ext} (h : MemInv s) : MemOut (execAddi g d a imm ext s) := h.sOp

theorem MemInv.signedOp {lat g d a b f r} (h : MemInv s) : MemOut (signedOp lat g d a b f r s) := by
  unfold Machine.signedOp
  exact h.sOp

theorem MemInv.unsignedOp {lat g d a b f r} (h : MemInv s) : MemOut (unsignedOp lat g d a b f r s) := by
  unfold Machine.unsignedOp
  exact h.sOp

theorem MemInv.execMul {g d a b f} (h : MemInv s) : MemOut (execMul g d a b f s) := h.signedOp

theorem MemInv.execMulh {g d a b} (h : MemInv s) : MemOut (execMulh g d a b s) := h.signedOp

theorem MemInv.execMulhu {g d a b} (h : MemInv s) : MemOut (execMulhu g d a b s) := h.unsignedOp

theorem MemInv.execDiv {g d a b f} (h : MemInv s) : MemOut (execDiv g d a b f s) := h.signedOp

theorem MemInv.execDivu {g d a b f} (h : MemInv s) : MemOut (execDivu g d a b f s) := h.unsignedOp

theorem MemInv.execRem {g d a b f} (h : MemInv s) : MemOut (execRem g d a b f s) := h.signedOp

theorem MemInv.execRemu {g d a b f} (h : MemInv s) : MemOut (execRemu g d a b f s) := h.unsignedOp

theorem MemInv.execAnd {g d a b} (h : MemInv s) : MemOut (execAnd g d a b s) := h.sOp

theorem MemInv.execOr {g d a b} (h : MemInv s) : MemOut (execOr g d a b s) := h.sOp

theorem MemInv.execXor {g d a b} (h : MemInv s) : MemOut (execXor g d a b s) := h.sOp

theorem MemInv.execAndn {g d a b} (h : MemInv s) : MemOut (execAndn g d a b s) := h.sOp

theorem MemInv.execAndi {g d a imm ext} (h : MemInv s) : MemOut (execAndi g d a imm ext s) := h.sOp

theorem MemInv.execOri {g d a imm ext} (h : MemInv s) : MemOut (execOri g d a imm ext s) := h.sOp

theorem MemInv.execXori {g d a imm ext} (h : MemInv s) : MemOut (execXori g d a imm ext s) := h.sOp

theorem MemInv.shiftOp {g d a w r n} (h : MemInv s) : MemOut (shiftOp g d a w r n s) := h.sOp

theorem MemInv.execSll {g d a b f} (h : MemInv s) : MemOut (execSll g d a b f s) := h.shiftOp

theorem MemInv.execSrl {g d a b f} (h : MemInv s) : MemOut (execSrl g d a b f s) := h.shiftOp

theorem MemInv.execSra {g d a b f} (h : MemInv s) : MemOut (execSra g d a b f s) := h.shiftOp

theorem MemInv.execRot {g d a b f} (h : MemInv s) : MemOut (execRot g d a b f s) := h.shiftOp

theorem MemInv.execSlli {g d a w c} (h : MemInv s) : MemOut (execSlli g d a w c s) := h.shiftOp

theorem MemInv.execSrli {g d a w c} (h : MemInv s) : MemOut (execSrli g d a w c s) := h.shiftOp

theorem MemInv.execSrai {g d a w c} (h : MemInv s) : MemOut (execSrai g d a w c s) := h.shiftOp

theorem MemInv.execMin {g d a b} (h : MemInv s) : MemOut (execMin g d a b s) := h.sOp

theorem MemInv.execMax {g d a b} (h : MemInv s) : MemOut (execMax g d a b s) := h.sOp

theorem MemInv.execMinu {g d a b} (h : MemInv s) : MemOut (execMinu g d a b s) := h.sOp

theorem MemInv.execMaxu {g d a b} (h : MemInv s) : MemOut (execMaxu g d a b s) := h.sOp

theorem MemInv.countOp {g d a f r} (h : MemInv s) : MemOut (countOp g d a f r s) := by
  unfold Machine.countOp
  exact h.sOp

theorem MemInv.execClz {g d a f} (h : MemInv s) : MemOut (execClz g d a f s) := h.countOp

theorem MemInv.execCtz {g d a f} (h : MemInv s) : MemOut (execCtz g d a f s) := h.countOp

theorem MemInv.execPopc {g d a f} (h : MemInv s) : MemOut (execPopc g d a f s) := h.countOp

theorem MemInv.execSext {g d a f} (h : MemInv s) : MemOut (execSext g d a f s) := h.sOp

theorem MemInv.execZext {g d a f} (h : MemInv s) : MemOut (execZext g d a f s) := h.sOp

theorem MemInv.execLi {g d imm ext} (h : MemInv s) : MemOut (execLi g d imm ext s) := h.sOp

theorem MemInv.execLih {g d ext} (h : MemInv s) : MemOut (execLih g d ext s) := h.sOp

theorem MemInv.execSel {g d a b q} (h : MemInv s) : MemOut (execSel g d a b q s) := h.sOp

theorem MemInv.execCmp {g pd a b cond} (h : MemInv s) : MemOut (execCmp g pd a b cond s) := h.pOp

theorem MemInv.execCmpi {g pd a cond imm ext} (h : MemInv s) : MemOut (execCmpi g pd a cond imm ext s) := h.pOp

theorem MemInv.execPand {g pd pa pb} (h : MemInv s) : MemOut (execPand g pd pa pb s) := h.pOp

theorem MemInv.execPor {g pd pa pb} (h : MemInv s) : MemOut (execPor g pd pa pb s) := h.pOp

theorem MemInv.execPxor {g pd pa pb} (h : MemInv s) : MemOut (execPxor g pd pa pb s) := h.pOp

theorem MemInv.execPandn {g pd pa pb} (h : MemInv s) : MemOut (execPandn g pd pa pb s) := h.pOp

theorem MemInv.fOp {lat g d rm f} (h : MemInv s) : MemOut (fOp lat g d rm f s) := by
  unfold Machine.fOp
  refine MemInv.issueF (fun _ ht => ?_) h
  dsimp only
  exact ht.result

theorem MemInv.execFadd {g d a b rm} (h : MemInv s) : MemOut (execFadd g d a b rm s) := h.fOp

theorem MemInv.execFsub {g d a b rm} (h : MemInv s) : MemOut (execFsub g d a b rm s) := h.fOp

theorem MemInv.execFmul {g d a b rm} (h : MemInv s) : MemOut (execFmul g d a b rm s) := h.fOp

theorem MemInv.execFfma {g d a b rm} (h : MemInv s) : MemOut (execFfma g d a b rm s) := h.fOp

theorem MemInv.execFdiv {g d a b rm} (h : MemInv s) : MemOut (execFdiv g d a b rm s) := h.fOp

theorem MemInv.execFsqrt {g d a rm} (h : MemInv s) : MemOut (execFsqrt g d a rm s) := h.fOp

theorem MemInv.fMinMax {mx g d a b} (h : MemInv s) : MemOut (fMinMax mx g d a b s) := by
  unfold Machine.fMinMax
  refine MemInv.issueF (fun _ ht => ?_) h
  split
  exact ht.result

theorem MemInv.execFmin {g d a b} (h : MemInv s) : MemOut (execFmin g d a b s) := h.fMinMax

theorem MemInv.execFmax {g d a b} (h : MemInv s) : MemOut (execFmax g d a b s) := h.fMinMax

theorem MemInv.execFcmp {g pd a b cond} (h : MemInv s) : MemOut (execFcmp g pd a b cond s) := by
  unfold Machine.execFcmp
  refine MemInv.issueF (fun _ ht => ?_) h
  split
  exact ht.result

theorem MemInv.execFcvt {g d a sat code rm} (h : MemInv s) : MemOut (execFcvt g d a sat code rm s) := by
  unfold Machine.execFcvt
  refine MemInv.issueF (fun _ ht => ?_) h
  split
  exact ht.result

/-! ## Sequence instructions -/

theorem MemInv.seqIssue {g i ws bad regs more paths dat} (h : MemInv s) : MemOut (seqIssue g i ws bad regs more paths dat s) :=
  MemInv.issue (fun _ _ => .none) (fun _ ht => ht.startOp.commitPoint) h

theorem MemInv.execSqnew {g x y} (h : MemInv s) : MemOut (execSqnew g x y s) := h.seqIssue

theorem MemInv.execSqres {g x y w ext} (h : MemInv s) : MemOut (execSqres g x y w ext s) := h.seqIssue

theorem MemInv.execSqput {g x y w ext} (h : MemInv s) : MemOut (execSqput g x y w ext s) := h.seqIssue

theorem MemInv.execSqget {g x y w ext} (h : MemInv s) : MemOut (execSqget g x y w ext s) := h.seqIssue

theorem MemInv.execSqcmt {g x y w ext} (h : MemInv s) : MemOut (execSqcmt g x y w ext s) := h.seqIssue

theorem MemInv.execSqlen {g x y rl} (h : MemInv s) : MemOut (execSqlen g x y rl s) := h.seqIssue

theorem MemInv.execSqwait {g x y w ext} (h : MemInv s) : MemOut (execSqwait g x y w ext s) := h.seqIssue

theorem MemInv.execSqfork {g x y w ext} (h : MemInv s) : MemOut (execSqfork g x y w ext s) := h.seqIssue

theorem MemInv.execSqrel {g y} (h : MemInv s) : MemOut (execSqrel g y s) := h.seqIssue

theorem MemInv.execSqinfo {g x y f} (h : MemInv s) : MemOut (execSqinfo g x y f s) := h.seqIssue

theorem MemInv.execSqatt {g x4 y w} (h : MemInv s) : MemOut (execSqatt g x4 y w s) := by
  unfold Machine.execSqatt
  exact h.seqIssue

theorem MemInv.execSqmrg {g x y w} (h : MemInv s) : MemOut (execSqmrg g x y w s) := h.seqIssue

theorem MemInv.execQCommandComplete {id} (h : MemInv s) : MemOut (execQCommandComplete id s) := by
  unfold Machine.execQCommandComplete
  refine .next ?_
  split
  · exact .ite h h.seqRun
  · exact h

theorem MemInv.grantOne {part size} (h : MemInv s) : MemOpt ((s.grantOne part size).map (·.2)) := by
  unfold State.grantOne
  extract_lets p
  split
  · exact .none
  · dsimp only
    split
    · split
      · exact .none
      · exact MemOpt.some (h.fresh.fresh.seqPut.onPart.with_pools)
    · exact .none

theorem MemInv.grantMany {part size n} (h : MemInv s) : MemInv (s.grantMany part size n).2 := by
  induction n generalizing s with
  | zero => exact h
  | succ n ih =>
    unfold State.grantMany
    refine .ite_snd h ?_
    split
    · exact h
    · rename_i e
      exact ih (MemInv.of_map_eq e h.grantOne)

theorem MemInv.execGrant {cl part size count} (h : MemInv s) : MemOut (execGrant cl part size count s) := by
  unfold Machine.execGrant
  refine .next ?_
  split
  · exact h
  · split
    · exact h
    · dsimp only
      exact h.seqClear.grantMany.setOp

theorem MemInv.execBlockGrantAnswer {id} (h : MemInv s) : MemOut (execBlockGrantAnswer id s) := by
  unfold Machine.execBlockGrantAnswer
  refine .next ?_
  split
  · exact h
  · split
    · split
      · exact h
      · split
        · exact .setOp (.foldl (fun _ _ ht => ht.cacheBlk) h)
        · exact .ite h.setOp (.setOp (.foldl (fun _ _ ht => ht.cacheBlk) h))
    · exact h

theorem MemInv.returnBlk {part b} (h : MemInv s) : MemInv (s.returnBlk part b) := by
  unfold State.returnBlk
  dsimp only
  split
  · exact h
  · split
    · exact h.onPart
    · split
      · exact h.onPart.seqPut
      · exact h.onPart.seqPut.with_pools

theorem MemInv.execReturnBlocks {cl part blocks} (h : MemInv s) : MemOut (execReturnBlocks cl part blocks s) :=
  .next (.ite h (.foldl (fun _ _ ht => ht.returnBlk) h.setCluster.seqClear))

theorem MemInv.execBlockPoison {part blk} (h : MemInv s) : MemOut (execBlockPoison part blk s) := .next h.seqClear.poisonBlk

theorem MemInv.poisonSeq {part i} (h : MemInv s) : MemInv (s.poisonSeq part i) := by
  unfold State.poisonSeq
  dsimp only
  split
  · exact h
  · split
    · exact h
    · split
      · exact h
      · exact .ite h h.putEntry.seqWaits.postEvent

theorem MemInv.execSequencePoisoning {part} (h : MemInv s) : MemOut (execSequencePoisoning part s) :=
  .next (.foldl (fun _ _ ht => ht.poisonSeq) h.seqClear)

/-! ## Every instruction -/

theorem MemInv.exec {i} (h : MemInv s) : MemOut (exec i s) := by
  cases i with
  | br => exact h.execBr
  | bri => exact h.execBri
  | call => exact h.execCall
  | ret => exact h.execRet
  | loop => exact h.execLoop
  | loopi => exact h.execLoopi
  | lbrk => exact h.execLbrk
  | susp => exact h.execSusp
  | suspFence => exact h.execSuspFence
  | suspLend => exact h.execSuspLend
  | suspBar => exact h.execSuspBar
  | yield => exact h.execYield
  | spawn => exact h.execSpawn
  | retire => exact h.execRetire
  | reqdone => exact h.execReqdone
  | cres => exact h.execCres
  | cresSkip => exact h.execCresSkip
  | waitc => exact h.execWaitc
  | waitf _ _ _ _ ext => exact h.execWaitf (y1 := ext)
  | waitfLend => exact h.execWaitfLend
  | finc => exact h.execFinc
  | fincSet => exact h.execFincSet
  | fence => exact h.execFence
  | gbar => exact h.execGbar
  | evpost => exact h.execEvpost
  | trap => exact h.execTrap
  | trapSys => exact h.execTrapSys
  | ckpt => exact h.execCkpt
  | srd => exact h.execSrd
  | swr => exact h.execSwr
  | add => exact h.execAdd
  | addi => exact h.execAddi
  | sub => exact h.execSub
  | mul => exact h.execMul
  | mulh => exact h.execMulh
  | mulhu => exact h.execMulhu
  | div => exact h.execDiv
  | divu => exact h.execDivu
  | rem => exact h.execRem
  | remu => exact h.execRemu
  | and => exact h.execAnd
  | andi => exact h.execAndi
  | or => exact h.execOr
  | ori => exact h.execOri
  | xor => exact h.execXor
  | xori => exact h.execXori
  | andn => exact h.execAndn
  | sll => exact h.execSll
  | slli => exact h.execSlli
  | srl => exact h.execSrl
  | srli => exact h.execSrli
  | sra => exact h.execSra
  | srai => exact h.execSrai
  | rot => exact h.execRot
  | min => exact h.execMin
  | max => exact h.execMax
  | minu => exact h.execMinu
  | maxu => exact h.execMaxu
  | clz => exact h.execClz
  | ctz => exact h.execCtz
  | popc => exact h.execPopc
  | sext => exact h.execSext
  | zext => exact h.execZext
  | li => exact h.execLi
  | lih => exact h.execLih
  | sel => exact h.execSel
  | cmp => exact h.execCmp
  | cmpi => exact h.execCmpi
  | pand => exact h.execPand
  | por => exact h.execPor
  | pxor => exact h.execPxor
  | pandn => exact h.execPandn
  | fadd => exact h.execFadd
  | fsub => exact h.execFsub
  | fmul => exact h.execFmul
  | ffma => exact h.execFfma
  | fdiv => exact h.execFdiv
  | fsqrt => exact h.execFsqrt
  | fmin => exact h.execFmin
  | fmax => exact h.execFmax
  | fcmp => exact h.execFcmp
  | fcvt => exact h.execFcvt
  | aadd => exact h.execAadd
  | aaddi => exact h.execAaddi
  | asub => exact h.execAsub
  | amov => exact h.execAmov
  | asplitLo => exact h.execAsplitLo
  | asplitHi => exact h.execAsplitHi
  | ld => exact h.execLd
  | st => exact h.execSt
  | lda => exact h.execLda
  | sta => exact h.execSta
  | pref => exact h.execPref
  | amoAdd => exact h.execAmoAdd
  | amoAnd => exact h.execAmoAnd
  | amoOr => exact h.execAmoOr
  | amoXor => exact h.execAmoXor
  | amoMin => exact h.execAmoMin
  | amoMax => exact h.execAmoMax
  | amoMinu => exact h.execAmoMinu
  | amoMaxu => exact h.execAmoMaxu
  | amoSwap => exact h.execAmoSwap
  | cas => exact h.execCas
  | red => exact h.execRed
  | talloc => exact h.execTalloc
  | tfree => exact h.execTfree
  | tqry => exact h.execTqry
  | vadd => exact h.execVadd
  | vsub => exact h.execVsub
  | vmul => exact h.execVmul
  | vfma => exact h.execVfma
  | vfms => exact h.execVfms
  | vabs => exact h.execVabs
  | vmin => exact h.execVmin
  | vmax => exact h.execVmax
  | vdiv => exact h.execVdiv
  | vrcp => exact h.execVrcp
  | vrsq => exact h.execVrsq
  | vsqrt => exact h.execVsqrt
  | vexp => exact h.execVexp
  | vexp2 => exact h.execVexp2
  | vlog2 => exact h.execVlog2
  | vtanh => exact h.execVtanh
  | vsigm => exact h.execVsigm
  | vand => exact h.execVand
  | vor => exact h.execVor
  | vxor => exact h.execVxor
  | vshl => exact h.execVshl
  | vshr => exact h.execVshr
  | vsra => exact h.execVsra
  | vcmp => exact h.execVcmp
  | vsel _ _ _ _ _ vx => exact h.execVsel (y := vx)
  | vcvt => exact h.execVcvt
  | vred => exact h.execVred
  | vscan => exact h.execVscan
  | vbcast => exact h.execVbcast
  | vins => exact h.execVins
  | vext => exact h.execVext
  | vperm => exact h.execVperm
  | viota => exact h.execViota
  | vmov => exact h.execVmov
  | vld => exact h.execVld
  | vst => exact h.execVst
  | vldx => exact h.execVldx
  | vstx => exact h.execVstx
  | vdot => exact h.execVdot
  | vso => exact h.execVso
  | vcmul => exact h.execVcmul
  | vcmac => exact h.execVcmac
  | vconj => exact h.execVconj
  | kand => exact h.execKand
  | kor => exact h.execKor
  | kxor => exact h.execKxor
  | knot => exact h.execKnot
  | kpop => exact h.execKpop
  | mmul => exact h.execMmul
  | mmulw => exact h.execMmulw
  | mmulwT => exact h.execMmulwT
  | mspec => exact h.execMspec
  | mzero => exact h.execMzero
  | mrd => exact h.execMrd
  | mrdv => exact h.execMrdv
  | mfmt => exact h.execMfmt
  | mstat => exact h.execMstat
  | xexp => exact h.execXexp
  | xcmp => exact h.execXcmp
  | xtrn => exact h.execXtrn
  | xcvt => exact h.execXcvt
  | xdft => exact h.execXdft
  | xidft => exact h.execXidft
  | xidftAcc => exact h.execXidftAcc
  | xtag _ _ _ xe => exact h.execXtag (y := xe)
  | xtagAcc _ _ _ xe => exact h.execXtagAcc (y := xe)
  | xmov => exact h.execXmov
  | xfill => exact h.execXfill
  | cpy => exact h.execCpy
  | gath => exact h.execGath
  | scat => exact h.execScat
  | cpyn => exact h.execCpyn
  | nrecv => exact h.execNrecv
  | ring => exact h.execRing
  | cseg => exact h.execCseg
  | sqnew => exact h.execSqnew
  | sqres => exact h.execSqres
  | sqput => exact h.execSqput
  | sqcmt => exact h.execSqcmt
  | sqlen => exact h.execSqlen
  | sqwait => exact h.execSqwait
  | sqfork => exact h.execSqfork
  | sqrel => exact h.execSqrel
  | sqget => exact h.execSqget
  | sqatt => exact h.execSqatt
  | sqmrg => exact h.execSqmrg
  | sqinfo => exact h.execSqinfo
  | resultLand => exact h.execResultLand
  | loopEndStep => exact h.execLoopEndStep
  | waitcRelease => exact h.execWaitcRelease
  | waitfRelease => exact h.execWaitfRelease
  | fenceSatisfied => exact h.execFenceSatisfied
  | suspFrameWrite => exact h.execSuspFrameWrite
  | retireComplete => exact h.execRetireComplete
  | releaseApply => exact h.execReleaseApply
  | scalarAccessComplete => exact h.execScalarAccessComplete
  | tileAccessComplete => exact h.execTileAccessComplete
  | passLanding => exact h.execPassLanding
  | waitedPassComplete => exact h.execWaitedPassComplete
  | mrdLanding => exact h.execMrdLanding
  | xStepLanding => exact h.execXStepLanding
  | cCommandComplete => exact h.execCCommandComplete
  | qCommandComplete => exact h.execQCommandComplete
  | pinGrant => exact h.execPinGrant
  | foldArrival => exact h.execFoldArrival
  | foldDeadline => exact h.execFoldDeadline
  | foldGroupStart => exact h.execFoldGroupStart
  | foldSplit => exact h.execFoldSplit
  | foldPassRetry => exact h.execFoldPassRetry
  | freeze => exact h.execFreeze
  | freezeComplete => exact h.execFreezeComplete
  | carriedAccessComplete => exact h.execCarriedAccessComplete
  | continuationResume => exact h.execContinuationResume
  | lateFault => exact h.execLateFault
  | handlerCreation => exact h.execHandlerCreation
  | checkpointInterval => exact h.execCheckpointInterval
  | forcedCheckpoint => exact h.execForcedCheckpoint
  | rollback => exact h.execRollback
  | containedError => exact h.execContainedError
  | fatalError => exact h.execFatalError
  | ptsTick => exact h.execPtsTick
  | requestPacketReceive => exact h.execRequestPacketReceive
  | peerMessageReceive => exact h.execPeerMessageReceive
  | ringStepReceive => exact h.execRingStepReceive
  | ringBreakReceive => exact h.execRingBreakReceive
  | segmentPageMessage => exact h.execSegmentPageMessage
  | ringTimeout => exact h.execRingTimeout
  | unexpectedMessageExpiry => exact h.execUnexpectedMessageExpiry
  | shepherdSelect => exact h.execShepherdSelect
  | newBinding => exact h.execNewBinding
  | bindingLaunchAfterFreeze => exact h.execBindingLaunchAfterFreeze
  | rebinding => exact h.execRebinding
  | sliceEnd => exact h.execSliceEnd
  | npExpiry => exact h.execNpExpiry
  | bindingEnd => exact h.execBindingEnd
  | carderPageArrival => exact h.execCarderPageArrival
  | segWaitExpiry => exact h.execSegWaitExpiry
  | segmentDrain => exact h.execSegmentDrain
  | blockGrantAnswer => exact h.execBlockGrantAnswer
  | blockPoison => exact h.execBlockPoison
  | sequencePoisoning => exact h.execSequencePoisoning
  | twaysPendingApply => exact h.execTwaysPendingApply
  | clcfgWrite => exact h.execClcfgWrite
  | mctxWriteIdle => exact h.execMctxWriteIdle
  | mctxWriteHalted => exact h.execMctxWriteHalted
  | mctxWriteFree => exact h.execMctxWriteFree
  | ticketsWrite => exact h.execTicketsWrite
  | paramverWrite => exact h.execParamverWrite
  | fenceAlloc => exact h.execFenceAlloc
  | fenceFree => exact h.execFenceFree
  | contctlResume => exact h.execContctlResume
  | contctlSkip => exact h.execContctlSkip
  | contctlAbort => exact h.execContctlAbort
  | queueEnable => exact h.execQueueEnable
  | queueDisable => exact h.execQueueDisable
  | notify => exact h.execNotify
  | pollingSlotVisit => exact h.execPollingSlotVisit
  | ringCtimeExpiry => exact h.execRingCtimeExpiry
  | cdropRead => exact h.execCdropRead
  | shootdown => exact h.execShootdown
  | shootdownDone => exact h.execShootdownDone
  | sliceWrite => exact h.execSliceWrite
  | segwaitWrite => exact h.execSegwaitWrite
  | cxlenWrite => exact h.execCxlenWrite
  | biasFlipToHost => exact h.execBiasFlipToHost
  | biasFlipToDevice => exact h.execBiasFlipToDevice
  | biasFlipDone => exact h.execBiasFlipDone
  | grant => exact h.execGrant
  | returnBlocks => exact h.execReturnBlocks
  | status => exact h.execStatus
  | test => exact h.execTest
  | seginst => exact h.execSeginst
  | segrel => exact h.execSegrel
  | segmap => exact h.execSegmap
  | mapq => exact h.execMapq
  | unmapq => exact h.execUnmapq
  | blkpool => exact h.execBlkpool
  | unitmap => exact h.execUnitmap
  | memckpt => exact h.execMemckpt
  | ckptstat => exact h.execCkptstat
  | ckptend => exact h.execCkptend
  | mailboxReply => exact h.execMailboxReply
  | checkpointStreamFailure => exact h.execCheckpointStreamFailure
  | checkpointCopyEnd => exact h.execCheckpointCopyEnd
  | functionLevelReset => exact h.execFunctionLevelReset
  | cxlMemAccess => exact h.execCxlMemAccess
  | registerWrite => exact h.execRegisterWrite
  | getVersion => exact h.execGetVersion
  | getCapabilities => exact h.execGetCapabilities
  | negotiateAlgorithms => exact h.execNegotiateAlgorithms
  | getDigests => exact h.execGetDigests
  | getCertificate => exact h.execGetCertificate
  | challenge => exact h.execChallenge
  | getMeasurements => exact h.execGetMeasurements
  | powerGood => exact h.execPowerGood
  | bringupComplete => exact h.execBringupComplete
  | throttleStepUp => exact h.execThrottleStepUp
  | throttleStepDown => exact h.execThrottleStepDown
  | thermalTrip => exact h.execThermalTrip
  | i3cReset => exact h.execI3cReset
  | emptyBundle => exact h.execEmptyBundle
  | manifestRead => exact h.execManifestRead
  | powerRemoval => exact h.execPowerRemoval
  | ethernetLinkChange => exact h.execEthernetLinkChange
  | boundaryScan => exact h.execBoundaryScan

/-! ## Issue and cycles -/

theorem MemInv.fetchHead {c n n1} (h : MemInv s) : MemInv (s.fetchHead c n n1).2 := by
  induction n generalizing s c n1 with
  | zero => exact h
  | succ n ih =>
    unfold State.fetchHead
    split
    · rename_i e
      exact h.codeAt.of_eq e
    · rename_i e
      have ht := h.codeAt.of_eq e
      exact .ite_snd ht (.ite_snd (ih ht) ht)

theorem MemInv.fetchAt {c fuel va} (h : MemInv s) : MemInv (s.fetchAt c fuel va).2 := by
  unfold State.fetchAt
  split
  · rename_i e
    exact h.fetchHead.of_eq e
  · rename_i e
    have ht := h.fetchHead.of_eq e
    dsimp only
    split
    · exact ht
    · split
      · exact ht
      · split <;> exact ht

theorem MemInv.fetchPast {c fuel va} (h : MemInv s) : MemInv (s.fetchPast c fuel va).2 := by
  unfold State.fetchPast
  split
  · rename_i e
    exact h.fetchHead.of_eq e
  · rename_i e
    exact (h.fetchHead.of_eq e).fetchAt

theorem MemInv.checkSyls {a l} (h : MemInv s) : MemOpt (s.checkSyls a l).1 := by
  induction l with
  | nil => exact .none
  | cons y l ih =>
    unfold State.checkSyls
    split
    · exact .some h.takeTrap
    · split
      · rename_i e
        have ht := MemOut.of_eq e h.exec
        split
        · exact .some ht
        · exact ih
      · exact ih

theorem MemInv.runAll {l} (h : MemInv s) : MemInv (s.runAll l) := by
  induction l generalizing s with
  | nil => exact h
  | cons x l ih =>
    unfold State.runAll
    split
    · rename_i e
      exact ih (h.exec.of_eq e)
    · exact ih h

theorem MemInv.hurryOp {id n} (h : MemInv s) : MemInv (s.hurryOp id n) := by
  induction n generalizing s id with
  | zero => exact h
  | succ n ih =>
    unfold State.hurryOp
    split
    · exact h
    · exact .ite h (.ite (.ite h.copyRun h.seqRun) (ih (.ite h.copyRun h.seqRun)))

theorem MemInv.hurry {cs} (h : MemInv s) : MemInv (s.hurry cs) := .ite h (.foldl (fun _ _ ht => ht.hurryOp) h)

theorem MemInv.hurryFor {c b} (h : MemInv s) : MemInv (s.hurryFor c b) := .ite h (.foldl (fun _ _ ht => ht.hurryOp) h)

theorem MemInv.cycleEnd {c step'} (h : MemInv s) : MemInv (s.cycleEnd c step') := by
  unfold State.cycleEnd
  dsimp only
  split
  · split
    · refine .checkpoint (.retryPassed (.reapPriv (.onCoreAt (.with_ending (.ptsTick (.fencesDone (.onArchAt ?_)))))))
      exact h.with_ending.onArchAt.hurry.enginesRead.readLands.xLands.passLands.onCoreAt.onArchAt
    · refine .retryPassed (.reapPriv (.onCoreAt (.with_ending (.ptsTick (.fencesDone (.onArchAt ?_))))))
      exact h.with_ending.onArchAt.hurry.enginesRead.readLands.xLands.passLands.onCoreAt.onArchAt
  · split
    · refine .checkpoint (.retryPassed (.reapPriv (.onCoreAt (.with_ending (.ptsTick (.fencesDone ?_))))))
      exact h.with_ending.hurry.enginesRead.readLands.xLands.passLands.onCoreAt.onArchAt.onArchAt
    · refine .retryPassed (.reapPriv (.onCoreAt (.with_ending (.ptsTick (.fencesDone ?_)))))
      exact h.with_ending.hurry.enginesRead.readLands.xLands.passLands.onCoreAt.onArchAt.onArchAt

theorem MemInv.takeTransfer {c} (h : MemInv s) : MemInv (s.takeTransfer c) := by
  unfold State.takeTransfer
  split
  · exact h
  · split <;> exact h.onArchAt

theorem MemInv.lateNow {c} (h : MemInv s) : MemOpt (s.lateNow c) := by
  unfold State.lateNow
  dsimp only
  split
  · exact .none
  · refine .some (.onCoreAt (.foldl (fun _ _ ht => ?_) (.foldl (fun _ _ ht => ht.xSettleLand) h)))
    split
    · exact .ite ht.setOp ht
    · exact ht

theorem MemInv.standing {c} (h : MemInv s) : MemInv (s.standing c) := .ite h.onCoreAt h

theorem MemInv.orLate {t : State} {c} (h : MemInv s) (h' : MemInv t) : MemInv (s.orLate c t) := by
  unfold State.orLate
  refine .standing ?_
  split
  · rename_i e
    split
    · rename_i e'
      exact (MemInv.execLateFault (MemOpt.of_eq e h.lateNow)).of_eq e'
    · exact h'
  · exact h'

theorem MemInv.issueBundle {c b} (h : MemInv s) : MemInv (s.issueBundle c b) := by
  unfold State.issueBundle
  refine .with_checked ?_
  split
  · split
    · rename_i e
      exact h.onCoreAt.onArchAt.with_checked.execEmptyBundle.of_eq e
    · exact h.onCoreAt.onArchAt.with_checked
  · exact h.onCoreAt.onArchAt.with_checked.runAll

theorem MemInv.advance {c b} (h : MemInv s) : MemInv (s.advance c b) := h.setCoreAt

theorem MemInv.lateLink {c b} (h : MemInv s) : MemInv (s.lateLink c b) := by
  unfold State.lateLink
  dsimp only
  split
  · exact h.onArchAt
  · exact h

theorem MemInv.issueBody {c b} (h : MemInv s) : MemInv (s.issueBody c b) := by
  unfold State.issueBody
  dsimp only
  split
  · rename_i e
    exact .orLate h.hurryFor.onCoreAt (h.hurryFor.onCoreAt.with_checked.checkSyls.of_eq e)
  · split
    · exact .orLate h.hurryFor.onCoreAt h.hurryFor.onCoreAt.takeTrap
    · split
      · exact .orLate h.hurryFor.onCoreAt h.hurryFor.onCoreAt.takeTrap
      · split
        · exact h.hurryFor.onCoreAt.with_checked.runAll.cycleEnd
        · split
          · exact h.hurryFor.onCoreAt.onArchAt.cycleEnd
          · split
            · split
              · exact h.hurryFor.onCoreAt.issueBundle.advance.takeTransfer.cycleEnd
              · exact h.hurryFor.onCoreAt.issueBundle.advance.takeTransfer
            · exact .ite h.hurryFor.onCoreAt.issueBundle.advance.cycleEnd h.hurryFor.onCoreAt.issueBundle.advance

theorem MemInv.fetchNext {c} (h : MemInv s) : MemInv (s.fetchNext c).2 := by
  unfold State.fetchNext
  dsimp only
  split
  · exact h.fetchPast
  · exact .ite_snd h.fetchPast h.fetchAt

theorem MemInv.issueCycle {c} (h : MemInv s) : MemInv (s.issueCycle c) := by
  unfold State.issueCycle
  dsimp only
  split
  · split
    · exact h.cycleEnd
    · split
      · exact .orLate h h.takeTrap
      · split
        · rename_i e
          exact (h.fetchNext.of_eq e).onArchAt.cycleEnd
        · rename_i e
          have ht := h.fetchNext.of_eq e
          exact .orLate ht.onArchAt ht.onArchAt.takeTrap
        · rename_i e
          exact (h.fetchNext.of_eq e).onArchAt.lateLink.issueBody
  · split
    · exact h.cycleEnd
    · split
      · exact .orLate h h.takeTrap
      · split
        · rename_i e
          exact (h.fetchNext.of_eq e).onArchAt.cycleEnd
        · rename_i e
          have ht := h.fetchNext.of_eq e
          exact .orLate ht.onArchAt ht.onArchAt.takeTrap
        · rename_i e
          exact (h.fetchNext.of_eq e).onArchAt.lateLink.issueBody

theorem MemInv.coreCycleGo {c} (h : MemInv s) : MemInv (s.coreCycleGo c) := by
  unfold State.coreCycleGo
  dsimp only
  split
  · exact h.with_cur_checked.yieldEnd
  · split
    · exact h.with_cur_checked.yieldEnd.standing
    · split
      · split
        · rename_i e
          exact (h.with_cur_checked.yieldEnd.execLateFault.of_eq e).standing
        · exact h.with_cur_checked.yieldEnd
      · split
        · split
          · rename_i e
            have ht := h.with_cur_checked.yieldEnd.execSuspFrameWrite.of_eq e
            exact .ite ht.cycleEnd ht
          · exact h.with_cur_checked.yieldEnd
        · split
          · rename_i e
            have ht := h.with_cur_checked.yieldEnd.execRetireComplete.of_eq e
            exact .ite ht.cycleEnd ht
          · exact h.with_cur_checked.yieldEnd
        · exact .ite h.with_cur_checked.yieldEnd.cycleEnd h.with_cur_checked.yieldEnd.stopAt.standing
        · split
          · exact h.with_cur_checked.yieldEnd.onArchAt.takeTransfer.cycleEnd.onArchAt
          · exact h.with_cur_checked.yieldEnd.issueCycle

theorem MemInv.coreCycle {c} (h : MemInv s) : MemInv (s.coreCycle c) := .ite h h.coreCycleGo.yieldEnd

theorem MemInv.clusterCycle {q} (h : MemInv s) : MemInv (s.clusterCycle q) := by
  unfold State.clusterCycle
  dsimp only
  split
  · exact h
  · exact .twaysApply (.reapClus (.foldl (fun _ _ ht => ht.serveFreeze.freezeEnd) (.foldBegin (.setCluster (.foldl
      (fun _ _ ht => ht.stopNow) h.hurry.foldFinish)))))

/-! ## The step -/

theorem MemInv.outsideMove {m} (h : MemInv s) : MemInv (s.outsideMove m) := by
  unfold State.outsideMove
  split
  · exact h.hostRead
  · exact h.configRead
  · exact h.configWrite
  · exact h.resetDone
  · exact h.frameArrives
  · exact h.ckptStep
  · exact h.spdmOther
  · exact h.with_outbox
  · exact h.i3cRead
  · exact h

theorem MemInv.move {m} (h : MemInv s) : MemOut (s.move m) := by
  unfold State.move
  refine .ite (.next h) ?_
  split
  · exact .next (h.with_rtc.giveOwed)
  · exact .next h.coreCycle
  · exact .next h.clusterCycle
  · split
    · rename_i e
      have ht := MemOut.of_eq e h.exec
      exact .next (.ite ht.with_inbox_again ht)
    · exact h.exec
  · exact .next h.outsideMove

theorem MemInv.step (h : MemInv s) : MemOut (step s) := by
  unfold Machine.step
  split
  · exact h.with_inbox.move
  · exact .ite .fault h.with_free.move

end

/-- Settles O11: every function that a step calls keeps the form of both memories, by the lemma of its name. -/
theorem stepKeepsMemories : Obligations.StepKeepsMemories := fun _ _ h e => h.step _ e

end Sys2Proof
end

