-- ==== Sys2Proof/Proofs/Packets.lean ====
section
/-!
PROOFS. What the receive pipeline does with a packet that it takes (R18, R340, R345 to R348; O53): one rule per TYPE, and one for the message
that RINGTO expires.
-/
namespace Sys2Proof
open Machine Claim
set_option Elab.async false

/-! ## Ring steps and broken revolutions -/

/-- What a ring step matches by keeps the ring id of its request id (R347). -/
theorem bitsOf_ringRid (rid : Nat) : bitsOf (ringRid rid) 32 16 = bitsOf rid 32 16 := by
  simp only [ringRid, bitsOf, Nat.shiftRight_eq_div_pow]
  omega

/-- The micro-context with the ring id and revolution `key` broken (R348). -/
def breakRevolution (key : Nat × Nat) (m : Mc) : Mc :=
  { m with broken := if m.broken.contains key then m.broken else m.broken ++ [key] }

theorem mem_breakRevolution (key : Nat × Nat) (m : Mc) : key ∈ (breakRevolution key m).broken := by
  unfold breakRevolution
  split
  case isTrue h => exact List.contains_iff_mem.mp h
  case isFalse => exact List.mem_append_right m.broken (List.mem_singleton_self key)

section
variable {s s1 s2 : State} {p : Packet} {mc buf typ : Nat} {pool : RxPool}

/-! ## The packet of a micro-context -/

theorem packetMc_eq (hq : s.quiesced = false) (hp : packetParses p typ = true) (hm : s.mcByFunc p.func = some mc) :
    s.packetMc p typ = (some mc, s) := by
  simp [State.packetMc, hq, hp, hm]

section
variable (hq : s.quiesced = false) (hm : s.mcByFunc p.func = some mc) (hr : s.receive mc p = (some (buf, pool), s1))
include hq hm hr

/-- A request whose entry is written is in the request ring (R18, R124). -/
theorem requestPacketReceive_appends (hp : packetParses p 0 = true)
    (ha : s1.append mc buf p.len.toNat p.port p.rid.toNat none = (.ok (), s2)) : Becomes (.requestPacketReceive p) s s2 := by
  change execRequestPacketReceive p s = _
  simp only [execRequestPacketReceive, packetMc_eq hq hp hm, hr, ha]

/-- A message of TYPE 2 meets its receive (R345). -/
theorem peerMessageReceive_meets (hp : packetParses p 2 = true) :
    Becomes (.peerMessageReceive p) s (s1.meet mc 2 p.rid.toNat buf p.len.toNat pool.nbuf) := by
  change execPeerMessageReceive p s = _
  simp only [execPeerMessageReceive, packetMc_eq hq hp hm, hr]

/-- A step of a ring that has seen no revolution, and for which no RING is posted, is neither old nor of another length (R347). -/
theorem ringStepReceive_meets (hp : packetParses p 3 = true) (hn : SMap.get 0 (s1.mcAt mc).ringNew (bitsOf p.rid.toNat 32 16) = 0)
    (ho : s1.oldestPosted mc 3 (ringRid p.rid.toNat) = none) :
    Becomes (.ringStepReceive p) s (s1.meet mc 3 (ringRid p.rid.toNat) buf p.len.toNat pool.nbuf) := by
  change execRingStepReceive p s = _
  simp [execRingStepReceive, packetMc_eq hq hp hm, hr, bitsOf_ringRid, hn, ho]

/-- The revolution of a TYPE 4 packet is broken in its micro-context before the messages of the revolution are dropped (R348). -/
theorem ringBreakReceive_breaks (hp : packetParses p 4 = true) :
    ∃ u : State, Becomes (.ringBreakReceive p) s (u.dropBroken mc (bitsOf p.rid.toNat 32 16) (bitsOf p.rid.toNat 16 16))
      ∧ (bitsOf p.rid.toNat 32 16, bitsOf p.rid.toNat 16 16) ∈ (u.mcAt mc).broken := by
  refine ⟨(s1.giveBuf mc buf).onMc mc (breakRevolution (bitsOf p.rid.toNat 32 16, bitsOf p.rid.toNat 16 16)), ?_, ?_⟩
  · change execRingBreakReceive p s = _
    simp only [execRingBreakReceive, packetMc_eq hq hp hm, hr]
    rfl
  · rw [State.onMc, State.mcAt_setMc, if_pos rfl]
    exact mem_breakRevolution _ _

end

/-! ## The Carder and the expiry -/

/-- A packet of TYPE 5 or 6 that the fabric key opens goes to the Carder (R340; that `carderIn` keeps it with its TYPE is log 74). -/
theorem segmentPageMessage_toCarder {img : BoardImage} {pt : List Byte} (hq : s.quiesced = false)
    (hp : packetParses p 5 = true ∨ packetParses p 6 = true) (hi : s.image = some img)
    (hg : gcmOpen img.fabric p.nonce.toNat (packetAad p) p.ct p.tag.toNat = some pt) :
    Becomes (.segmentPageMessage p) s { s with carderIn := s.carderIn ++ [(p.typ.toNat, pt)] } := by
  have hp' : (packetParses p 5 || packetParses p 6) = true := Bool.or_eq_true _ _ ▸ hp
  change execSegmentPageMessage p s = _
  simp [execSegmentPageMessage, hq, hp', hi, hg]

/-- The one message that a micro-context keeps is discarded once RINGTO has passed, and its buffer returns (R346). -/
theorem unexpectedMessageExpiry_discards {u : Unexp} (hx : s.rxPool mc 0 = (.ok pool, s1)) (hu : (s1.mcAt mc).unexp = [u])
    (hto : u.to' = none) (hat : u.at' + 100000 * pool.ringto ≤ s1.rtc.toNat) :
    Becomes (.unexpectedMessageExpiry mc) s ((s1.onMc mc (fun m => { m with unexp := [] })).giveBuf mc u.buf) := by
  change execUnexpectedMessageExpiry mc s = _
  simp [execUnexpectedMessageExpiry, hx, State.onMc, hu, hto, hat]

end

/-- Settles O53: one rule per TYPE of a packet that is taken, and the rule of expiry. -/
theorem packetsReceived : Obligations.PacketsReceived :=
  fun _ _ _ _ _ _ _ hq =>
    ⟨fun hm hr =>
        ⟨requestPacketReceive_appends hq hm hr, peerMessageReceive_meets hq hm hr, ringStepReceive_meets hq hm hr,
          ringBreakReceive_breaks hq hm hr⟩,
      fun _ _ => segmentPageMessage_toCarder hq,
      fun _ => unexpectedMessageExpiry_discards⟩

end Sys2Proof
end

