-- ==== Sys2Proof/Proofs/Decoder.lean ====
section
/-!
PROOFS. The decoder over the encoder (R34, R38, R40; O1), the reasons with which it rejects a word (R37, R50, R52; O3), and words of the
encoding tables (O4).
-/
namespace Sys2Proof
open Laws
set_option Elab.async false

/-! ## The decoder over the encoder -/

/-- The round trip of every constructor: its own lemma, or no slot. -/
theorem roundTrip (i : Instr) : RoundTrip.Statement i := by
  cases i with
  | br => apply RoundTrip.br | bri => apply RoundTrip.bri | call => apply RoundTrip.call | ret => apply RoundTrip.ret
  | loop => apply RoundTrip.loop | loopi => apply RoundTrip.loopi | lbrk => apply RoundTrip.lbrk | susp => apply RoundTrip.susp
  | suspFence => apply RoundTrip.suspFence | suspLend => apply RoundTrip.suspLend | suspBar => apply RoundTrip.suspBar
  | yield => apply RoundTrip.yield | spawn => apply RoundTrip.spawn | retire => apply RoundTrip.retire | reqdone => apply RoundTrip.reqdone
  | cres => apply RoundTrip.cres | cresSkip => apply RoundTrip.cresSkip | waitc => apply RoundTrip.waitc | waitf => apply RoundTrip.waitf
  | waitfLend => apply RoundTrip.waitfLend | finc => apply RoundTrip.finc | fincSet => apply RoundTrip.fincSet
  | fence => apply RoundTrip.fence | gbar => apply RoundTrip.gbar | evpost => apply RoundTrip.evpost | trap => apply RoundTrip.trap
  | trapSys => apply RoundTrip.trapSys | ckpt => apply RoundTrip.ckpt | srd => apply RoundTrip.srd | swr => apply RoundTrip.swr
  | add => apply RoundTrip.add | addi => apply RoundTrip.addi | sub => apply RoundTrip.sub | mul => apply RoundTrip.mul
  | mulh => apply RoundTrip.mulh | mulhu => apply RoundTrip.mulhu | div => apply RoundTrip.div | divu => apply RoundTrip.divu
  | rem => apply RoundTrip.rem | remu => apply RoundTrip.remu | and => apply RoundTrip.and | andi => apply RoundTrip.andi
  | or => apply RoundTrip.or | ori => apply RoundTrip.ori | xor => apply RoundTrip.xor | xori => apply RoundTrip.xori
  | andn => apply RoundTrip.andn | sll => apply RoundTrip.sll | slli => apply RoundTrip.slli | srl => apply RoundTrip.srl
  | srli => apply RoundTrip.srli | sra => apply RoundTrip.sra | srai => apply RoundTrip.srai | rot => apply RoundTrip.rot
  | min => apply RoundTrip.min | max => apply RoundTrip.max | minu => apply RoundTrip.minu | maxu => apply RoundTrip.maxu
  | clz => apply RoundTrip.clz | ctz => apply RoundTrip.ctz | popc => apply RoundTrip.popc | sext => apply RoundTrip.sext
  | zext => apply RoundTrip.zext | li => apply RoundTrip.li | lih => apply RoundTrip.lih | sel => apply RoundTrip.sel
  | cmp => apply RoundTrip.cmp | cmpi => apply RoundTrip.cmpi | pand => apply RoundTrip.pand | por => apply RoundTrip.por
  | pxor => apply RoundTrip.pxor | pandn => apply RoundTrip.pandn | fadd => apply RoundTrip.fadd | fsub => apply RoundTrip.fsub
  | fmul => apply RoundTrip.fmul | ffma => apply RoundTrip.ffma | fdiv => apply RoundTrip.fdiv | fsqrt => apply RoundTrip.fsqrt
  | fmin => apply RoundTrip.fmin | fmax => apply RoundTrip.fmax | fcmp => apply RoundTrip.fcmp | fcvt => apply RoundTrip.fcvt
  | aadd => apply RoundTrip.aadd | aaddi => apply RoundTrip.aaddi | asub => apply RoundTrip.asub | amov => apply RoundTrip.amov
  | asplitLo => apply RoundTrip.asplitLo | asplitHi => apply RoundTrip.asplitHi | ld => apply RoundTrip.ld | st => apply RoundTrip.st
  | lda => apply RoundTrip.lda | sta => apply RoundTrip.sta | pref => apply RoundTrip.pref | amoAdd => apply RoundTrip.amoAdd
  | amoAnd => apply RoundTrip.amoAnd | amoOr => apply RoundTrip.amoOr | amoXor => apply RoundTrip.amoXor | amoMin => apply RoundTrip.amoMin
  | amoMax => apply RoundTrip.amoMax | amoMinu => apply RoundTrip.amoMinu | amoMaxu => apply RoundTrip.amoMaxu
  | amoSwap => apply RoundTrip.amoSwap | cas => apply RoundTrip.cas | red => apply RoundTrip.red | talloc => apply RoundTrip.talloc
  | tfree => apply RoundTrip.tfree | tqry => apply RoundTrip.tqry | vadd => apply RoundTrip.vadd | vsub => apply RoundTrip.vsub
  | vmul => apply RoundTrip.vmul | vfma => apply RoundTrip.vfma | vfms => apply RoundTrip.vfms | vabs => apply RoundTrip.vabs
  | vmin => apply RoundTrip.vmin | vmax => apply RoundTrip.vmax | vdiv => apply RoundTrip.vdiv | vrcp => apply RoundTrip.vrcp
  | vrsq => apply RoundTrip.vrsq | vsqrt => apply RoundTrip.vsqrt | vexp => apply RoundTrip.vexp | vexp2 => apply RoundTrip.vexp2
  | vlog2 => apply RoundTrip.vlog2 | vtanh => apply RoundTrip.vtanh | vsigm => apply RoundTrip.vsigm | vand => apply RoundTrip.vand
  | vor => apply RoundTrip.vor | vxor => apply RoundTrip.vxor | vshl => apply RoundTrip.vshl | vshr => apply RoundTrip.vshr
  | vsra => apply RoundTrip.vsra | vcmp => apply RoundTrip.vcmp | vsel => apply RoundTrip.vsel | vcvt => apply RoundTrip.vcvt
  | vred => apply RoundTrip.vred | vscan => apply RoundTrip.vscan | vbcast => apply RoundTrip.vbcast | vins => apply RoundTrip.vins
  | vext => apply RoundTrip.vext | vperm => apply RoundTrip.vperm | viota => apply RoundTrip.viota | vmov => apply RoundTrip.vmov
  | vld => apply RoundTrip.vld | vst => apply RoundTrip.vst | vldx => apply RoundTrip.vldx | vstx => apply RoundTrip.vstx
  | vdot => apply RoundTrip.vdot | vso => apply RoundTrip.vso | vcmul => apply RoundTrip.vcmul | vcmac => apply RoundTrip.vcmac
  | vconj => apply RoundTrip.vconj | kand => apply RoundTrip.kand | kor => apply RoundTrip.kor | kxor => apply RoundTrip.kxor
  | knot => apply RoundTrip.knot | kpop => apply RoundTrip.kpop | mmul => apply RoundTrip.mmul | mmulw => apply RoundTrip.mmulw
  | mmulwT => apply RoundTrip.mmulwT | mspec => apply RoundTrip.mspec | mzero => apply RoundTrip.mzero | mrd => apply RoundTrip.mrd
  | mrdv => apply RoundTrip.mrdv | mfmt => apply RoundTrip.mfmt | mstat => apply RoundTrip.mstat | xexp => apply RoundTrip.xexp
  | xcmp => apply RoundTrip.xcmp | xtrn => apply RoundTrip.xtrn | xcvt => apply RoundTrip.xcvt | xdft => apply RoundTrip.xdft
  | xidft => apply RoundTrip.xidft | xidftAcc => apply RoundTrip.xidftAcc | xtag => apply RoundTrip.xtag
  | xtagAcc => apply RoundTrip.xtagAcc | xmov => apply RoundTrip.xmov | xfill => apply RoundTrip.xfill | cpy => apply RoundTrip.cpy
  | gath => apply RoundTrip.gath | scat => apply RoundTrip.scat | cpyn => apply RoundTrip.cpyn | nrecv => apply RoundTrip.nrecv
  | ring => apply RoundTrip.ring | cseg => apply RoundTrip.cseg | sqnew => apply RoundTrip.sqnew | sqres => apply RoundTrip.sqres
  | sqput => apply RoundTrip.sqput | sqcmt => apply RoundTrip.sqcmt | sqlen => apply RoundTrip.sqlen | sqwait => apply RoundTrip.sqwait
  | sqfork => apply RoundTrip.sqfork | sqrel => apply RoundTrip.sqrel | sqget => apply RoundTrip.sqget | sqatt => apply RoundTrip.sqatt
  | sqmrg => apply RoundTrip.sqmrg | sqinfo => apply RoundTrip.sqinfo
  | _ => exact fun _ hs => nomatch hs

/-- Settles O1: the round trip of the instruction's constructor. -/
theorem decodeOfEncode : Obligations.DecodeOfEncode := fun i => roundTrip i

/-! ## Reasons (R37, R50, R52) -/

/-- What a word that is rejected has failed: the opcode map, the fields, the absence of an extension word, its presence, or the destination. -/
theorem decodeSyl_error {sl : Slot} {w : Word32} {e : Option Word32} {n : Nat} (h : decodeSyl sl w e = .error n) :
    let op := w.toNat / 2 ^ 26
    (n = 1 ∧ extKind sl op = .unassigned)
    ∨ (extKind sl op ≠ .unassigned ∧
        (n = 2 ∨ (n = 3 ∧ extKind sl op = .none ∧ e.isSome = true) ∨ (n = 4 ∧ extKind sl op = .required ∧ e = none)
        ∨ (n = 5 ∧ ∃ i, decFields sl op w e = some i ∧ i.destA31 = true))) := by
  simp only [decodeSyl] at h
  generalize w.toNat / 2 ^ 26 = op at h ⊢
  split at h
  case isTrue hu => exact .inl ⟨(Except.error.inj h).symm, hu⟩
  case isFalse hu =>
    refine .inr ⟨hu, ?_⟩
    split at h
    case h_1 => exact .inl (Except.error.inj h).symm
    case h_2 i hi =>
      split at h
      case isTrue => exact .inl (Except.error.inj h).symm
      case isFalse =>
        split at h
        case isTrue hn => exact .inr (.inl ⟨(Except.error.inj h).symm, by simpa using hn⟩)
        case isFalse hn =>
          split at h
          case isTrue hr => exact .inr (.inr (.inl ⟨(Except.error.inj h).symm, by simpa using hr⟩))
          case isFalse hr =>
            split at h
            case isTrue ha =>
              have hn : extKind sl op = .none → e = none := by simpa using hn
              have hr : extKind sl op = .required → e.isSome := by simpa [Option.isSome_iff_ne_none] using hr
              exact .inr (.inr (.inr ⟨(Except.error.inj h).symm, i, by rwa [extSeen_eq hu hn hr] at hi, ha⟩))
            case isFalse => cases h

/-- Settles O3: each reason is that of one check. -/
theorem decodeReasons : Obligations.DecodeReasons := by
  intro sl w e n h
  have h := decodeSyl_error h
  generalize w.toNat / 2 ^ 26 = op at h ⊢
  obtain ⟨rfl, hu⟩ | ⟨hu, rfl | ⟨rfl, h3⟩ | ⟨rfl, h4⟩ | ⟨rfl, h5⟩⟩ := h
  · simp [hu]
  · simp [hu]
  · simp [h3]
  · simp [h4]
  · simp [hu, h5]

/-- Settles O4: the decoder evaluates each word. -/
theorem decodeWords : Obligations.DecodeWords := ⟨rfl, rfl, rfl, rfl, rfl, rfl⟩

end Sys2Proof
end

