-- ==== Sys2Proof/Proofs/Landings.lean ====
section
/-!
PROOFS. What a register write changes (R37, R54; O12), a result in flight (R36, R59; O13), and the ends of cycles up to its landing and
after it (R59, R60, R104; O14).
-/
namespace Sys2Proof
open Machine Claim
set_option Elab.async false

/-! ## Frames of a register write -/

theorem Claim.SameRegs.refl (a : Arch) : SameRegs a a := by simp [SameRegs]

theorem Claim.SameRegs.of_eq {a b : Arch} (h : a = b) : SameRegs a b := h ▸ .refl a

theorem Claim.SameMem.refl (s : State) : SameMem s s := fun _ => ⟨rfl, rfl⟩

section
variable (a : Arch)

theorem wr_s_frame (r : SReg) (v : Word) : { a.wr (.s r v) with s := a.s } = a := by
  rw [Arch.wr]; split <;> rfl

theorem wr_a_frame (r : AReg) (v : VAddr) : { a.wr (.a r v) with a := a.a } = a := by
  rw [Arch.wr]; split <;> rfl

theorem wr_p_frame (r : PReg) (v : Bool) : { a.wr (.p r v) with p := a.p } = a := by
  rw [Arch.wr]; split <;> rfl

theorem wr_k_frame (r : KReg) (v : Word) : { a.wr (.k r v) with k := a.k } = a := by
  rw [Arch.wr]; split <;> rfl

/-- A write of an s register is an update of the s registers. -/
theorem wr_s_eq (r : SReg) (v : Word) : a.wr (.s r v) = { a with s := (a.wr (.s r v)).s } := by
  rw [Arch.wr]; split <;> rfl

theorem rdLc_wr_lc (r q : BitVec 2) (v : Word32) : (a.wr (.lc r v)).rdLc q = if q = r then v else a.rdLc q := by
  simp only [Arch.wr, Arch.rdLc, SMap.get_set, BitVec.toNat_inj]

theorem rdFt_wr_ft (r q : BitVec 4) (v : BitVec 16) : (a.wr (.ft r v)).rdFt q = if q = r then v else a.rdFt q := by
  simp only [Arch.wr, Arch.rdFt, SMap.get_set, BitVec.toNat_inj]

/-- A write of a register that is not hard-wired. -/
theorem if_and_ne {α β : Type} [DecidableEq α] {q r z : α} {x y : β} (hr : r ≠ z) :
    (if q = r ∧ r ≠ z then x else y) = if q = r then x else y := by simp [hr]

end

/-- Settles O12: the laws of `Arch.wr` for each register file, and the frame of each write. -/
theorem registerAccess : Obligations.RegisterAccess := by
  refine ⟨fun a v x b => ⟨rfl, rfl, rfl, rfl, rfl, rfl, rfl, rfl⟩, fun a => ?_⟩
  exact ⟨fun r q v hr => (a.rdS_wr_s r q v).trans (if_and_ne hr), fun r q v hr => (a.rdA_wr_a r q v).trans (if_and_ne hr),
    fun r q v hr => (a.rdP_wr_p r q v).trans (if_and_ne hr), fun r q v hr => (a.rdK_wr_k r q v).trans (if_and_ne hr),
    a.rdV_wr_v, a.rdT_wr_t, rdLc_wr_lc a, rdFt_wr_ft a,
    fun r v => .of_eq (wr_s_frame a r v), fun r v => .of_eq (wr_a_frame a r v), fun r v => .of_eq (wr_p_frame a r v),
    fun _ _ => .refl a, fun r v => .of_eq (wr_k_frame a r v), fun _ _ => .refl a, fun _ _ => .refl a, fun _ _ => .refl a⟩

/-! ## A result in flight -/

theorem sameRegs_fly1 (a : Arch) (lat slot : Nat) (fl : Flags) (w : RegWrite) : SameRegs (a.fly1 lat slot fl w) a := .refl a

/-- Settles O13: the result stands behind those in flight, and nothing else is written. -/
theorem resultInFlight : Obligations.ResultInFlight := by
  intro s lat slot fl w
  simp only [State.arch_result]
  exact ⟨rfl, sameRegs_fly1 .., rfl, .refl s, fun c => State.coreAt_result s lat slot fl w c, rfl, rfl, rfl, rfl, rfl⟩

/-! ## Ends of cycles -/

/-- The end of a cycle in which nothing lands. -/
theorem land_none_due {a : Arch} (h : ∀ l ∈ a.fly, 1 < l.remain) :
    a.land = { a with fly := a.fly.map (fun l => { l with remain := l.remain - 1 }), landed := [], olds := [] } := by
  have hd : a.fly.filter (fun l => l.remain ≤ 1) = [] := List.filter_eq_nil_iff.mpr fun l hl => by simpa using h l hl
  have hr : a.fly.filter (fun l => 1 < l.remain) = a.fly := List.filter_eq_self.mpr fun l hl => by simpa using h l hl
  simp [Arch.land, hd, hr, sortLandings, remaining, Arch.wrAll, Arch.oldsOf, flagsOf]

/-- A landing in an s register is a write of its whole register. -/
theorem whole_of_s (a : Arch) {l : Landing} {d : SReg} {v : Word} (hw : l.w = .s d v) : a.whole l = l := by
  simp [Arch.whole, hw]

theorem remaining_cons_of_s {l : Landing} {d : SReg} {v : Word} (hw : l.w = .s d v) (r : List Landing) :
    remaining (l :: r) = l :: remaining r := by simp [remaining, hw]

theorem flagsOf_singleton (l : Landing) : flagsOf [l] = l.flags := by simp [flagsOf]

/-- The end of a cycle in which `due` lands, with no handle among it. -/
theorem land_of_due {a : Arch} {due : List Landing} (hr : ∀ l ∈ a.fly, l.remain ≤ 1)
    (hd : remaining ((sortLandings a.fly).map a.whole) = due) (ho : a.oldsOf due = []) :
    a.land = let b := { a with fly := [], landed := due, olds := [] }.wrAll due; { b with fflags := b.fflags ||| flagsOf due } := by
  have he : a.fly.filter (fun l => l.remain ≤ 1) = a.fly := List.filter_eq_self.mpr fun l hl => by simpa using hr l hl
  have hn : a.fly.filter (fun l => 1 < l.remain) = [] := List.filter_eq_nil_iff.mpr fun l hl => by simpa using hr l hl
  simp only [Arch.land, he, hn, hd, ho, List.map_nil]

/-- The end of the cycle in which the one result in flight lands in an s register. -/
theorem land_one {a : Arch} {l : Landing} {d : SReg} {v : Word} (h : a.fly = [l]) (hr : l.remain ≤ 1) (hw : l.w = .s d v) :
    a.land = { a with fly := [], landed := [l], olds := [], s := (a.wr (.s d v)).s, fflags := a.fflags ||| l.flags } := by
  rw [land_of_due (due := [l]) (by simpa [h] using hr) (by simp [h, sortLandings, insLanding, whole_of_s a hw, remaining_cons_of_s hw, remaining])
    (by simp [Arch.oldsOf, hw])]
  simp only [Arch.wrAll, hw, flagsOf_singleton, Arch.wr]
  split <;> rfl

theorem landings_add (m n : Nat) (a : Arch) : landings (m + n) a = landings n (landings m a) := by
  induction m generalizing a with
  | zero => rw [Nat.zero_add]; rfl
  | succ m ih => rw [Nat.succ_add]; exact ih a.land

/-- Ends of cycles before the landing of the one result in flight. -/
theorem landings_before {a : Arch} {l : Landing} {n : Nat} (h : a.fly = [l]) (hn : n < l.remain) :
    ∃ ld od, landings n a = { a with fly := [{ l with remain := l.remain - n }], landed := ld, olds := od } := by
  induction n generalizing a l with
  | zero => exact ⟨a.landed, a.olds, by rw [landings, Nat.sub_zero, ← h]⟩
  | succ n ih =>
    have hl : a.land = { a with fly := [{ l with remain := l.remain - 1 }], landed := [], olds := [] } := by
      rw [land_none_due (by simp [h]; omega), h]; rfl
    obtain ⟨ld, od, e⟩ := ih (a := a.land) (l := { l with remain := l.remain - 1 }) (by rw [hl]) (by simp; omega)
    refine ⟨ld, od, ?_⟩
    rw [landings, e, hl, Nat.sub_sub, Nat.add_comm 1]

/-- Ends of cycles with nothing in flight. -/
theorem landings_idle {a : Arch} {n : Nat} (h : a.fly = []) : ∃ ld od, landings n a = { a with landed := ld, olds := od } := by
  induction n generalizing a with
  | zero => exact ⟨a.landed, a.olds, rfl⟩
  | succ n ih =>
    have hl : a.land = { a with landed := [], olds := [] } := by rw [land_none_due (by simp [h])]; simp [h]
    obtain ⟨ld, od, e⟩ := ih (a := a.land) (by rw [hl, h])
    exact ⟨ld, od, by rw [landings, e, hl]⟩

theorem fly_fly1 {a : Arch} {lat slot : Nat} {fl : Flags} {w : RegWrite} (h : a.fly = []) :
    (a.fly1 lat slot fl w).fly = [⟨lat, slot, a.seq, fl, w⟩] := by rw [Arch.fly1, h]; rfl

/-- The end of the L-th cycle of a result of latency L. -/
theorem landings_at {a : Arch} {lat slot : Nat} {fl : Flags} {d : SReg} {v : Word} (h : a.fly = []) (hl : 1 ≤ lat) :
    landings lat (a.fly1 lat slot fl (.s d v)) = { a with
      s := (a.wr (.s d v)).s, fflags := a.fflags ||| fl, seq := a.seq + 1, fly := [], landed := [⟨1, slot, a.seq, fl, .s d v⟩], olds := [] } := by
  obtain ⟨k, rfl⟩ : ∃ k, lat = k + 1 := ⟨lat - 1, by omega⟩
  obtain ⟨ld, od, e⟩ := landings_before (n := k) (fly_fly1 h) (Nat.lt_succ_self k)
  simp only [Nat.succ_eq_add_one, Nat.add_sub_cancel_left] at e
  rw [landings_add, e, landings, landings, land_one rfl (Nat.le_refl 1) rfl]
  simp only [Arch.wr, Arch.fly1]
  split <;> rfl

/-- A result of latency L before, and from, the end of the L-th cycle. -/
theorem landings_fly1 {a : Arch} {lat slot n : Nat} {fl : Flags} {d : SReg} {v : Word} (h : a.fly = []) (hl : 1 ≤ lat) :
    let b := landings n (a.fly1 lat slot fl (.s d v))
    (n < lat → SameRegs b a)
    ∧ (lat ≤ n → (∀ q, b.rdS q = if q = d ∧ d ≠ 0 then v else a.rdS q) ∧ b.fflags = a.fflags ||| fl
        ∧ SameRegs { b with s := a.s, fflags := a.fflags } a) := by
  refine ⟨fun hn => ?_, fun hn => ?_⟩
  · obtain ⟨ld, od, e⟩ := landings_before (fly_fly1 h) hn
    rw [e]
    exact .refl a
  · obtain ⟨k, rfl⟩ := Nat.exists_eq_add_of_le hn
    obtain ⟨ld, od, e⟩ := landings_idle (n := k) (a := landings lat (a.fly1 lat slot fl (.s d v))) (by rw [landings_at h hl])
    rw [landings_add, e, landings_at h hl]
    exact ⟨fun q => a.rdS_wr_s d q v, rfl, .refl a⟩

/-- Two results that land in one cycle, whichever was issued first, land in the order of `Landing.before` (R60). -/
theorem sortLandings_pair {x y : Landing} (h : x.slot < y.slot ∨ (x.slot = y.slot ∧ x.seq < y.seq)) :
    sortLandings [x, y] = [x, y] ∧ sortLandings [y, x] = [x, y] := by
  have hxy : x.before y = true := by simp [Landing.before]; omega
  have hyx : y.before x = false := by simp [Landing.before]; omega
  simp [sortLandings, insLanding, hxy, hyx]

/-- Settles O14: the result of one syllable, and two that land in one register. -/
theorem landings : Obligations.Landings := by
  refine ⟨fun a lat slot n fl d v => landings_fly1, fun a x y d v w hf hx hy hv hw hd hlt => ?_⟩
  have hs : sortLandings a.fly = [x, y] := by
    obtain ⟨hxy, hyx⟩ := sortLandings_pair hlt
    obtain h | h := hf <;> rw [h]
    exacts [hxy, hyx]
  have hdue : remaining ((sortLandings a.fly).map a.whole) = [x, y] := by
    rw [hs, List.map_cons, List.map_cons, List.map_nil, whole_of_s a hv, whole_of_s a hw, remaining_cons_of_s hv, remaining_cons_of_s hw]
    rfl
  have hr : ∀ l ∈ a.fly, l.remain ≤ 1 := by
    obtain h | h := hf <;> rw [h] <;> simp [hx, hy]
  rw [land_of_due hr hdue (by simp [Arch.oldsOf, hv, hw])]
  rw [flagsOf, flagsOf_singleton]
  simp only [Arch.wrAll, hv, hw]
  refine ⟨(Arch.rdS_wr_s _ d d w).trans (if_pos ⟨rfl, hd⟩), ?_⟩
  rw [wr_s_eq _ d w, wr_s_eq _ d v, BitVec.or_assoc]

end Sys2Proof
end

