-- ==== Sys2Proof/Proofs/GuardedOff.lean ====
section
/-!
PROOFS. A syllable whose guard is false changes nothing (R35; O15): the guard stands in its first word, and its meaning is an `issue` that
looks at the guard first.
-/
namespace Sys2Proof
open Machine Claim
set_option Elab.async false

/-- An instruction that looks at its guard first: `exec` ends here when the guard `b` is false. -/
theorem off_of_ite {b : Bool} {x r : Out} (h : b = false) : (if !b then x else r) = x := by simp [h]

/-- A guarded-off MRD to CLUS holds no port. -/
theorem execMrd_off_clus {g : Guard} {z : ZReg} {t : TReg} {y : SReg} {mx : Option MrdX} {s : State} (ht : (s.arch.rdT t).clus = true)
    (h : s.arch.guardOn 4 g = false) : exec (.mrd g z t y mx) s = .next { s with verdict := .issued } := by
  change execMrd g z t y mx s = _
  simp [execMrd, h, State.offMrd, ht]

theorem mmulwIssue_off {g : Guard} {i : Instr} {z : ZReg} {ta : TReg} {tb : Option TReg} {sb : Arch → Word} {acc : BitVec 1} {mx : MX}
    {s : State} (h : s.arch.guardOn 4 g = false) : mmulwIssue g i z ta tb sb acc mx s = .next { s with verdict := .issued } := by
  simp [mmulwIssue, issueZ, h, issue_off h]

theorem execMmulw_off {g : Guard} {z : ZReg} {ta tb : TReg} {acc : BitVec 1} {mx : MX} {s : State} (h : s.arch.guardOn 4 g = false) :
    exec (.mmulw g z ta tb acc mx) s = .next { s with verdict := .issued } := by
  change execMmulw g z ta tb acc mx s = _
  unfold execMmulw
  exact mmulwIssue_off h

theorem execMmulwT_off {g : Guard} {z : ZReg} {ta : TReg} {b : SReg} {acc : BitVec 1} {mx : MX} {s : State} (h : s.arch.guardOn 4 g = false) :
    exec (.mmulwT g z ta b acc mx) s = .next { s with verdict := .issued } := by
  change execMmulwT g z ta b acc mx s = _
  unfold execMmulwT
  exact mmulwIssue_off h

/-- Both forms of VSO look at the guard first. -/
theorem execVso_off {g : Guard} {d a b : VReg} {k : KReg} {vx : Option VX} {s : State} (h : s.arch.guardOn 3 g = false) :
    execVso g d a b k vx s = .next { s with verdict := .issued } := by
  simp only [execVso, vOp, issueF, issue_off h, ite_self]

/-- Instruction `i` of slot `sl` has the guard of its first word, `g`, and is told what it does when that is false. -/
theorem issues_of_off {s : State} {i : Instr} {sl sl' : Slot} {op X : Nat} {g : Guard} {l : List Word32} (hs : i.slot = some sl)
    (hoff : s.arch.guardOn sl.num (guardOf ((encode i).headD 0)) = false) (hi : i.slot = some sl') (he : encode i = syl op g X :: l)
    (ho : op < 64) (hX : X < 2 ^ 21) (hx : s.arch.guardOn sl'.num g = false → exec i s = .next { s with verdict := .issued }) :
    exec i s = .next { s with verdict := .issued } := by
  obtain rfl := Option.some.inj (hs.symm.trans hi)
  rw [he, List.headD_cons, guardOf_syl op g X ho hX] at hoff
  exact hx hoff

/-- Settles O15: instructions of one format go together, as in the encoder. -/
theorem guardedOff : Obligations.GuardedOff := by
  intro s i sl hs hpass hmrd hx hoff
  cases i
  case br | ret | suspFence | suspLend | suspBar | spawn | reqdone | cres | cresSkip | waitf | waitfLend | finc | fincSet | gbar |
      evpost | trap | trapSys =>
    exact issues_of_off hs hoff rfl rfl (by decide) (by simp [encBG]; omega) off_of_ite
  case bri | call =>
    exact issues_of_off hs hoff rfl rfl (by decide) (by omega) off_of_ite
  case loop | loopi | lbrk =>
    exact issues_of_off hs hoff rfl rfl (by decide) (by simp [encBL]; omega) off_of_ite
  case susp | yield | retire | ckpt =>
    exact issues_of_off hs hoff rfl rfl (by decide) (by decide) off_of_ite
  case srd | swr =>
    exact issues_of_off hs hoff rfl rfl (by decide) (by simp [encBY]; omega) off_of_ite
  case waitc | fence | li | lih | cmpi | fcvt | aaddi | red | talloc | tfree | tqry | vcmp | sqatt =>
    exact issues_of_off hs hoff rfl rfl (by decide) (by omega) off_of_ite
  case add | sub | mul | mulh | mulhu | div | divu | rem | remu | and | or | xor | andn | sll | srl | sra | rot | min | max | minu |
      maxu | clz | ctz | popc | sext | zext | sel | fadd | fsub | fmul | ffma | fdiv | fsqrt | fmin | fmax | vadd | vsub | vmul | vfma |
      vfms | vabs | vmin | vmax | vdiv | vrcp | vrsq | vsqrt | vexp | vexp2 | vlog2 | vtanh | vsigm | vand | vor | vxor | vshl | vshr |
      vsra | vsel | vcvt | vred | vscan | vbcast | vins | vext | vperm | viota | vmov | vdot | vcmul | vcmac | vconj | cpy | gath | scat
      | cpyn | nrecv | ring | cseg | sqnew | sqres | sqput | sqcmt | sqlen | sqwait | sqfork | sqrel | sqget | sqmrg | sqinfo =>
    exact issues_of_off hs hoff rfl rfl (by decide) (by simp [encSR]; omega) off_of_ite
  case addi | andi | ori | xori | slli | srli | srai =>
    exact issues_of_off hs hoff rfl rfl (by decide) (by simp [encSI]; omega) off_of_ite
  case cmp | fcmp =>
    exact issues_of_off hs hoff rfl rfl (by decide) (by simp [encSC]; omega) off_of_ite
  case pand | por | pxor | pandn =>
    exact issues_of_off hs hoff rfl rfl (by decide) (by simp [encSP]; omega) off_of_ite
  case aadd | asub | amov | asplitLo | asplitHi =>
    exact issues_of_off hs hoff rfl rfl (by decide) (by simp [encAR]; omega) off_of_ite
  case ld | st | pref =>
    exact issues_of_off hs hoff rfl rfl (by decide) (by simp [encAM]; omega) off_of_ite
  case lda | sta =>
    exact issues_of_off hs hoff rfl rfl (by decide) (by simp [encAQ]; omega) off_of_ite
  case amoAdd | amoAnd | amoOr | amoXor | amoMin | amoMax | amoMinu | amoMaxu | amoSwap | cas =>
    exact issues_of_off hs hoff rfl rfl (by decide) (by simp [encAA]; omega) off_of_ite
  case vld | vst | vldx | vstx =>
    exact issues_of_off hs hoff rfl rfl (by decide) (by simp [encVT]; omega) off_of_ite
  case kand | kor | kxor | knot | kpop =>
    exact issues_of_off hs hoff rfl rfl (by decide) (by simp [encKK]; omega) off_of_ite
  case vso =>
    exact issues_of_off hs hoff rfl rfl (by decide) (by simp [encSR]; omega) execVso_off
  case mmulw =>
    exact issues_of_off hs hoff rfl rfl (by decide) (by simp [encMA]; omega) execMmulw_off
  case mmulwT =>
    exact issues_of_off hs hoff rfl rfl (by decide) (by simp [encMA]; omega) execMmulwT_off
  case mzero | mrdv | mfmt | mstat =>
    exact issues_of_off hs hoff rfl rfl (by decide) (by simp [encMZ]; omega) off_of_ite
  case xtag | xtagAcc =>
    exact issues_of_off hs hoff rfl rfl (by decide) (by simp [encXT]; omega) off_of_ite
  case mrd =>
    obtain rfl := Option.some.inj hs
    exact issues_of_off hs hoff rfl rfl (by decide) (by simp [encMZ]; omega) (execMrd_off_clus (hmrd _ _ _ _ _ rfl))
  case mmul => exact ((hpass _ _ _ _ _ _).1 rfl).elim
  case mspec => exact ((hpass _ _ _ _ _ _).2 rfl).elim
  case xexp | xcmp | xtrn | xcvt | xdft | xidft | xidftAcc | xmov | xfill =>
    obtain ⟨g, t, d, xe, z, h | h⟩ := hx (Option.some.inj hs).symm <;> cases h
  all_goals cases hs

end Sys2Proof
end

