-- ==== Sys2Proof/Proofs/Transfers.lean ====
section
/-!
PROOFS. Branches, calls, returns and loop breaks (R32, R33, R148, R149, R152; O22).
-/
namespace Sys2Proof
open Machine Claim
set_option Elab.async false

/-! ## What an update of the registers leaves of the code that is read -/

theorem coreAt_onArch_eq (s : State) (f : Arch → Arch) (c : Nat) :
    (s.onArch f).coreAt c = if c = s.cur then { s.core with now := f s.arch } else s.coreAt c :=
  State.coreAt_setCoreAt s s.cur c _

theorem core_onArch (s : State) (f : Arch → Arch) : (s.onArch f).core = { s.core with now := f s.arch } :=
  State.core_setArch s _

/-- The instruction path of a core is that of its micro-context and its continuation. -/
theorem fetcher_onArch (s : State) (f : Arch → Arch) (c : Nat) : (s.onArch f).fetcher c = s.fetcher c := by
  have h : ((s.onArch f).coreAt c).mc = (s.coreAt c).mc ∧ ((s.onArch f).coreAt c).fslot = (s.coreAt c).fslot := by
    rw [coreAt_onArch_eq]
    split
    case isTrue h => subst h; exact ⟨rfl, rfl⟩
    case isFalse => exact ⟨rfl, rfl⟩
  obtain ⟨hm, hf⟩ := h
  simp only [State.fetcher, hm, hf]
  rfl

theorem peekCode_onArch (s : State) (f : Arch → Arch) (mc key va : Nat) : (s.onArch f).peekCode mc key va = s.peekCode mc key va := by
  have h : (s.onArch f).fetcher (s.onArch f).cur = s.fetcher s.cur := fetcher_onArch s f s.cur
  unfold State.peekCode
  rw [h]
  rfl

theorem skipMarkers_onArch (s : State) (f : Arch → Arch) (mc : Nat) (n : Nat) : ∀ va,
    (s.onArch f).skipMarkers mc va n = s.skipMarkers mc va n := by
  induction n with
  | zero => intro va; rfl
  | succ n ih => intro va; simp only [State.skipMarkers, peekCode_onArch, ih]

theorem bundleAfter?_onArch (s : State) (f : Arch → Arch) (mc va : Nat) : (s.onArch f).bundleAfter? mc va = s.bundleAfter? mc va := by
  simp only [State.bundleAfter?, skipMarkers_onArch, peekCode_onArch]

theorem callLink_onArch (s : State) (f : Arch → Arch) : (s.onArch f).callLink = s.callLink := by
  simp only [State.callLink, State.bundleAfter, core_onArch, skipMarkers_onArch, bundleAfter?_onArch]
  rfl

theorem linkLater_onArch (s : State) (f : Arch → Arch) : (s.onArch f).linkLater = s.linkLater := by
  simp only [State.linkLater, core_onArch, bundleAfter?_onArch]

/-- A bundle that is no line-end marker is the one that is found. -/
theorem skipMarkers_of_ne {s : State} {mc va : Nat} (n : Nat) (h : s.peekCode mc 0 va ≠ some lineEnd) : s.skipMarkers mc va n = va := by
  cases n with
  | zero => rfl
  | succ n => rw [State.skipMarkers, if_neg h]

/-! ## Targets -/

theorem shl_two_eq_mul (x : VAddr) : x <<< 2 = x * 4 := by
  apply BitVec.eq_of_toNat_eq
  simp [BitVec.toNat_shiftLeft, Nat.shiftLeft_eq]

theorem zeroExtend_add_zeroExtend (x y : Word) : x.zeroExtend 72 + y.zeroExtend 72 = BitVec.ofNat 72 (x.toNat + y.toNat) := by
  apply BitVec.eq_of_toNat_eq
  simp

/-- A branch under a true guard goes to its target or raises ILL_TARGET. -/
theorem branchTo_goes {s : State} {g : Guard} {i : Instr} {target : State → VAddr} {eff u : State → State} {t : VAddr}
    (hg : s.arch.guardOn 0 g = true) (hi : exec i s = branchTo g target eff s) (ht : target s = t)
    (he : eff (s.transfer (.branch t)) = u (s.transfer (.branch t))) : Goes i s t u := by
  subst ht
  rw [Goes, Issues, hi, branchTo, ← he]
  constructor
  · intro h4
    exact issue_on hg (.inr ⟨by simp [targetCheck, trapIf, h4], rfl⟩)
  · intro h4 hc
    exact issue_trap hg hc (by simp [targetCheck, trapIf, h4])

/-! ## The link of a call -/

theorem codeOff_eq_sub (s : State) (mc : Nat) (v : VAddr) : s.codeOff mc v.toNat = (v - (s.mcAt mc).codebase).toNat := by
  have := (s.mcAt mc).codebase.isLt
  rw [State.codeOff, BitVec.toNat_sub]
  congr 1
  omega

/-- In a skip cycle the delay bundle of a CALL is empty, and the link is the bundle that follows it. -/
theorem callLink_of_skip {s : State} (hb : s.core.bsk > 0) (hp : s.peekCode s.core.mc 0 s.core.bnext.toNat ≠ some lineEnd) :
    s.callLink = (s.core.bnext - s.curMc.codebase).toNat ∧ s.linkLater = false := by
  constructor
  · simp only [State.callLink, if_pos hb, skipMarkers_of_ne _ hp]
    exact codeOff_eq_sub s _ _
  · have : s.core.bsk ≠ 0 := by omega
    simp [State.linkLater, this]

theorem bundleAfter?_of_ne {s : State} {mc va h : Nat} (hp : s.peekCode mc 0 va = some h) (hl : h ≠ lineEnd)
    (hr : s.peekCode mc 0 ((va + 4 * bundleWords h) % 2 ^ 72) ≠ some lineEnd) :
    s.bundleAfter? mc va = some ((va + 4 * bundleWords h) % 2 ^ 72) := by
  have hva : s.peekCode mc 0 va ≠ some lineEnd := by simpa [hp] using hl
  simp only [State.bundleAfter?, skipMarkers_of_ne _ hva, hp, Option.map_some, skipMarkers_of_ne _ hr]

/-- The link of a CALL is the bundle after the one of its delay cycle. -/
theorem callLink_of_delay {s : State} {h r : Nat} (hb : s.core.bsk = 0) (hp : s.peekCode s.core.mc 0 s.core.bnext.toNat = some h)
    (hl : h ≠ lineEnd) (hr : r = (s.core.bnext.toNat + 4 * bundleWords h) % 2 ^ 72) (hn : s.peekCode s.core.mc 0 r ≠ some lineEnd) :
    s.callLink = (r + 2 ^ 72 - s.curMc.codebase.toNat) % 2 ^ 72 ∧ s.linkLater = false := by
  subst hr
  have hva : s.peekCode s.core.mc 0 s.core.bnext.toNat ≠ some lineEnd := by simpa [hp] using hl
  have ha := bundleAfter?_of_ne hp hl hn
  constructor
  · simp only [State.callLink, hb, skipMarkers_of_ne _ hva, State.bundleAfter, ha]
    rfl
  · simp [State.linkLater, ha]

/-! ## The transfer -/

theorem transfer_frame {s t : State} {k : XKind} (h : t = s.transfer k) :
    t.arch.xfer = some ⟨k, s.arch.pc, false, false⟩ ∧ SameRegs t.arch s.arch ∧ SameMem s t := by
  subst h
  have ha : (s.transfer k).arch = { s.arch with xfer := some ⟨k, s.arch.pc, false, false⟩ } := State.arch_onArch s _
  rw [ha]
  exact ⟨rfl, .refl s.arch, .refl s⟩

theorem takeTransfer_branch {s : State} {c : Nat} {k b : VAddr} (h : (s.coreAt c).now.xfer = some ⟨.branch k, b, false, false⟩) :
    s.takeTransfer c = s.onArchAt c (fun a => { a with xfer := none, pc := k, past := false, sk := 0, delay := false }) := by
  simp only [State.takeTransfer, h]

/-! ## The five transfers as branches -/

theorem exec_br (g : Guard) (x y : SReg) (s : State) : exec (.br g x y) s =
    branchTo g (fun s => s.curMc.codebase + ((s.arch.rdS x).zeroExtend 72 + (s.arch.rdS y).zeroExtend 72)) id s := rfl

theorem exec_bri (g : Guard) (off : BitVec 21) (s : State) : exec (.bri g off) s = branchTo g (fun s => relTarget s.arch.pc off) id s := rfl

theorem exec_call (g : Guard) (off : BitVec 21) (s : State) : exec (.call g off) s =
    branchTo g (fun s => relTarget s.arch.pc off)
      (fun s => (s.result 1 0 0 (.s 63 (BitVec.ofNat 64 s.callLink))).onArch
        (fun a => { a with xfer := a.xfer.map (fun x => { x with link := s.linkLater }) })) s := rfl

theorem exec_ret (g : Guard) (x : SReg) (s : State) : exec (.ret g x) s =
    branchTo g (fun s => s.curMc.codebase + (s.arch.rdS x).zeroExtend 72) id s := rfl

theorem exec_lbrk (g : Guard) (lc : BitVec 2) (fin : BitVec 13) (s : State) : exec (.lbrk g lc fin) s =
    branchTo g (fun s => s.arch.pc + fin.zeroExtend 72 <<< 2)
      (fun s => s.onArch (fun a => a.setLoop lc.toNat { a.loopAt lc.toNat with active := false })) s := rfl

/-- Settles O22: the five transfers are branches to a target; the link of a CALL does not look at the registers that the transfer has changed. -/
theorem controlTransfers : Obligations.ControlTransfers := by
  intro s g x y off lc fin hg base rel
  refine ⟨?br, ?bri, ?call, ?ret, ?lbrk, fun _ _ h => transfer_frame h, callLink_of_skip,
    fun _ hb hp hl hn => callLink_of_delay hb hp hl rfl hn, fun _ _ _ h => takeTransfer_branch h⟩
  case br => exact branchTo_goes hg (exec_br ..) (congrArg (base + ·) (zeroExtend_add_zeroExtend _ _)) rfl
  case bri => exact branchTo_goes hg (exec_bri ..) (congrArg (s.arch.pc + ·) (shl_two_eq_mul _)) rfl
  case call =>
    refine branchTo_goes hg (exec_call ..) (congrArg (s.arch.pc + ·) (shl_two_eq_mul _)) ?_
    simp only [State.transfer, callLink_onArch, linkLater_onArch]
  case ret => exact branchTo_goes hg (exec_ret ..) rfl rfl
  case lbrk => exact branchTo_goes hg (exec_lbrk ..) (congrArg (s.arch.pc + ·) (shl_two_eq_mul _)) rfl

end Sys2Proof
end

