-- ==== Sys2Proof/Proofs/Waits.lean ====
section
/-!
PROOFS. WAITC, WAITF, FENCE and GBAR, and the ends of their waits (R63, R162, R163, R166 to R169; O27).
-/
namespace Sys2Proof
open Machine Claim
set_option Elab.async false

/-! ## Checks -/

@[simp] theorem trapIf_true (c r : Nat) (d : Word32) : trapIf true c r d = some { cause := c, reason := r, data := d } := rfl
@[simp] theorem trapIf_false (c r : Nat) (d : Word32) : trapIf false c r d = none := rfl

/-- A counter that may be used passes the checks of FENCE_ACCESS (R163). -/
theorem fenceCheck_of_ok {s : State} {n : Word} (h : FenceOk s n) : s.fenceCheck n = none := by
  obtain ⟨hn, ha, ho, hp⟩ := h
  simp [State.fenceCheck, ha, ho, hp, firstTrap, Nat.not_lt.2 hn]

theorem fenceCheck_of_gt {s : State} {n : Word} (h : n.toNat > 65535) : s.fenceCheck n = some { cause := 101, reason := 1 } := by
  simp [State.fenceCheck, h, firstTrap]

/-! ## WAITC (R63) -/

theorem waitcOk_iff (a : Arch) (nl ns nc nt nq : BitVec 4) : waitcOk a nl ns nc nt nq = true ↔
    (nl = 15 ∨ a.ldo.toNat ≤ nl.toNat) ∧ (ns = 15 ∨ a.sto.toNat ≤ ns.toNat) ∧ (nc = 15 ∨ a.cpo.toNat ≤ nc.toNat)
      ∧ (nt = 15 ∨ a.tlo.toNat ≤ nt.toNat) ∧ (nq = 15 ∨ a.sqo.toNat ≤ nq.toNat) := by
  simp [waitcOk, and_assoc]

theorem waitc_issues {s : State} {g : Guard} {nl ns nc nt nq : BitVec 4} (hg : s.arch.guardOn 0 g = true)
    (h : waitcOk s.arch nl ns nc nt nq = true) : Issues (.waitc g nl ns nc nt nq) s s.unstall := by
  change execWaitc g nl ns nc nt nq s = _
  rw [execWaitc]
  exact  issue_on hg (.inr ⟨rfl, if_pos h⟩)

theorem waitc_stalls {s : State} {g : Guard} {nl ns nc nt nq : BitVec 4} (hg : s.arch.guardOn 0 g = true)
    (h : ¬ waitcOk s.arch nl ns nc nt nq = true) (hk : s.checked = false) :
    Stalls (.waitc g nl ns nc nt nq) s (s.stallAs (.waitc nl ns nc nt nq)) := by
  change execWaitc g nl ns nc nt nq s = _
  rw [execWaitc]
  exact  issue_stall hg hk rfl (if_neg h)

/-! ## WAITF (R166) -/

theorem holds_iff (f : Fence) (t : Word32) :
    f.holds t = true ↔ f.err = true ∨ (f.value.toNat + 2 ^ 32 - t.toNat) % 2 ^ 32 < 2 ^ 31 := by
  have hm : (f.value - t).msb = false ↔ (f.value.toNat + 2 ^ 32 - t.toNat) % 2 ^ 32 < 2 ^ 31 := by
    have hsub : (f.value - t).toNat = (f.value.toNat + 2 ^ 32 - t.toNat) % 2 ^ 32 := by
      have := t.isLt
      rw [BitVec.toNat_sub]
      congr 1
      omega
    rw [← hsub, BitVec.msb_eq_false_iff_two_mul_lt]
    omega
  simp [Fence.holds, hm]

section
variable {lend : Bool} {g : Guard} {x y : SReg} {p : PReg} {s : State} (hg : s.arch.guardOn 0 g = true)
include hg

/-- A WAITF that ends in its own cycle. -/
theorem waitfIssue_holds (hd : s.arch.waitfDone (s.arch.rdS x).toNat ((s.arch.rdS y).truncate 32) = none) (ho : FenceOk s (s.arch.rdS x))
    (hh : (s.fenceAt (s.arch.rdS x).toNat).holds ((s.arch.rdS y).truncate 32) = true) :
    waitfIssue lend g x y p s = .next { ((s.waitfEnd s.cur (s.arch.rdS x).toNat ((s.arch.rdS y).truncate 32)
      (s.fenceAt (s.arch.rdS x).toNat).err).unstall.result 1 0 0 (.p p (!(s.fenceAt (s.arch.rdS x).toNat).err))) with verdict := .issued } := by
  unfold waitfIssue
  rw [issue_on hg (.inr ⟨by simp [Arch.waitPair, hd, fenceCheck_of_ok ho], by simp [Arch.waitPair, hh]⟩)]
  simp [Arch.waitPair, hd]

/-- A WAITF whose wait has ended while it stalled. -/
theorem waitfIssue_done {b : Bool} (hd : s.arch.waitfDone (s.arch.rdS x).toNat ((s.arch.rdS y).truncate 32) = some b) :
    waitfIssue lend g x y p s = .next { (s.unstall.result 1 0 0 (.p p (!b))) with verdict := .issued } := by
  unfold waitfIssue
  rw [issue_on hg (.inr ⟨by simp [Arch.waitPair, hd], by simp [Arch.waitPair, hd]⟩)]
  simp [Arch.waitPair, hd]

theorem waitfIssue_stalls (hd : s.arch.waitfDone (s.arch.rdS x).toNat ((s.arch.rdS y).truncate 32) = none) (ho : FenceOk s (s.arch.rdS x))
    (hh : ¬ (s.fenceAt (s.arch.rdS x).toNat).holds ((s.arch.rdS y).truncate 32) = true) (hk : s.checked = false) :
    waitfIssue lend g x y p s =
      .next { (s.waitfStall x y (if lend then s.lendTo s.core.mc (s.arch.rdS x).toNat else none)) with verdict := .stalled } := by
  unfold waitfIssue
  exact issue_stall hg hk (by simp [Arch.waitPair, hd, fenceCheck_of_ok ho]) (by simp [Arch.waitPair, hd, hh])

theorem waitfIssue_traps (hn : (s.arch.rdS x).toNat > 65535)
    (hd : s.arch.waitfDone (s.arch.rdS x).toNat ((s.arch.rdS y).truncate 32) = none) (hk : s.checked = false) :
    waitfIssue lend g x y p s = .next (s.takeTrap s.cur 0 { cause := 101, reason := 1 }) := by
  unfold waitfIssue
  exact issue_trap hg hk (by simp [Arch.waitPair, hd, fenceCheck_of_gt hn])

end

/-- Without a stall there is no loan to end. -/
theorem waitfEnd_of_not_stalled {s : State} {n : Nat} {t : Word32} {err : Bool} (h : s.arch.stall = .none) :
    s.waitfEnd s.cur n t err = s.raisePts s.curKey (s.fenceAt n).fts := by
  change (s.coreAt s.cur).now.stall = .none at h
  simp only [State.waitfEnd, h]
  rfl

theorem waitfStall_none {s : State} {x y : SReg} (h : s.arch.stall = .none) : s.waitfStall x y none = s.stallAs (.waitf x y none none) := by
  simp only [State.waitfStall, h]

theorem waitfStall_some {s : State} {x y : SReg} {k : Nat} (h : s.arch.stall = .none) :
    s.waitfStall x y (some k) = (s.stallAs (.waitf x y (some k) none)).beginLoan s.core.mc k := by
  simp only [State.waitfStall, h]

theorem waitfRelease_holds {s : State} {c : Nat} {u v : SReg} {l : Option Nat} (hs : (s.coreAt c).now.stall = .waitf u v l none)
    (hh : (s.fenceAt ((s.coreAt c).now.rdS u).toNat).holds (((s.coreAt c).now.rdS v).truncate 32) = true) :
    exec (.waitfRelease c) s = .next (s.waitfEnd c ((s.coreAt c).now.rdS u).toNat (((s.coreAt c).now.rdS v).truncate 32)
      (s.fenceAt ((s.coreAt c).now.rdS u).toNat).err) := by
  change execWaitfRelease c s = _
  simp only [execWaitfRelease, hs, Arch.waitPair, hh, if_true]

theorem waitcRelease_ok {s : State} {c : Nat} {k l u v w : BitVec 4} (hs : (s.coreAt c).now.stall = .waitc k l u v w)
    (hw : waitcOk (s.coreAt c).now k l u v w = true) :
    exec (.waitcRelease c) s = .next (s.onArchAt c (fun a => { a with stall := .none })) := by
  change execWaitcRelease c s = _
  simp only [execWaitcRelease, hs, hw, if_true]

/-! ## FENCE (R168) -/

theorem fence_issues {s : State} {g : Guard} {before after : BitVec 6} (hg : s.arch.guardOn 0 g = true) (hb : before ≠ 0) (ha : after ≠ 0) :
    Issues (.fence g before after) s
      (s.onArch (fun a => { a with fences := a.fences ++ [⟨before, after, s.opsOnPaths before, some (.fence g before after)⟩] })) := by
  change execFence g before after s = _
  rw [execFence, issueF_on hg, if_neg (by simpa using ⟨hb, ha⟩)]

theorem fence_of_no_path {s : State} {g : Guard} {before after : BitVec 6} (hg : s.arch.guardOn 0 g = true) (h : before = 0 ∨ after = 0) :
    Issues (.fence g before after) s s := by
  change execFence g before after s = _
  rw [execFence, issueF_on hg, if_pos (by simpa using h)]

/-- Of the pending fences remain those with an access that is outstanding, as an operation or on the core. -/
theorem fenceSatisfied_next (s : State) (c : Nat) : ∃ t, exec (.fenceSatisfied c) s = .next t ∧ (∀ d, d ≠ c → t.coreAt d = s.coreAt d)
    ∧ SameRegs (t.coreAt c).now (s.coreAt c).now
    ∧ ∀ q, q ∈ (t.coreAt c).now.fences ↔ q ∈ (s.coreAt c).now.fences ∧ ∃ i ∈ q.ops,
        (s.opAt i).isSome = true ∨ (∃ z ∈ (s.coreAt c).now.passes, z.id = i) ∨ (∃ z ∈ (s.coreAt c).now.reads, z.id = i)
        ∨ (∃ z ∈ (s.coreAt c).now.xs, z.id = i) := by
  refine ⟨s.fencesDone c, rfl, fun d hd => ?_, ?_, fun q => ?_⟩
  · simp only [State.fencesDone, State.onArchAt, State.onCoreAt, State.coreAt_setCoreAt, if_neg hd]
  · simp only [State.fencesDone, State.onArchAt, State.onCoreAt, State.coreAt_setCoreAt_self]
    exact .refl _
  · simp only [State.fencesDone, State.onArchAt, State.onCoreAt, State.coreAt_setCoreAt_self, List.mem_filter, List.any_eq_true,
      Bool.or_eq_true, beq_iff_eq, or_assoc]

/-! ## GBAR (R169) -/

theorem barTargetBad_iff (t : Word) : barTargetBad t = true ↔ t.toNat < 1 ∨ 4096 < t.toNat := by simp [barTargetBad]

theorem barTarget_ok {t : Word} (h1 : 1 ≤ t.toNat) (h2 : t.toNat ≤ 4096) : barTargetBad t = false := by simp [barTargetBad]; omega

section
variable {s : State} {g : Guard} {x : SReg} {bar : BitVec 4} (hg : s.arch.guardOn 0 g = true)
include hg

theorem gbar_stalls (hk : s.checked = false) (hs : s.arch.stall = .none) (h1 : 1 ≤ (s.arch.rdS x).toNat) (h2 : (s.arch.rdS x).toNat ≤ 4096)
    (hb : (SMap.get {} (s.bindAt s.core.bind).bars bar.toNat).count = 0
      ∨ (SMap.get {} (s.bindAt s.core.bind).bars bar.toNat).target = (s.arch.rdS x).toNat) :
    Stalls (.gbar g x bar) s
      ((s.release .arrive (.gbar g x bar) [bar.toNat, (s.arch.rdS x).toNat]).stallAs (.gbar bar.toNat s.nextOp false false)) := by
  change execGbar g x bar s = _
  unfold execGbar
  refine issue_stall hg hk ?_ (by simp only [hs])
  have hr := barTarget_ok h1 h2
  rcases hb with hb | hb <;> simp [hs, hr, hb, firstTrap]

theorem gbar_traps_of_range (hk : s.checked = false) (hs : s.arch.stall = .none)
    (hr : (s.arch.rdS x).toNat < 1 ∨ 4096 < (s.arch.rdS x).toNat) : Traps (.gbar g x bar) s 0 102 1 := by
  change execGbar g x bar s = _
  unfold execGbar
  exact issue_trap hg hk (by simp [hs, (barTargetBad_iff _).2 hr, firstTrap])

theorem gbar_traps_of_target (hk : s.checked = false) (hs : s.arch.stall = .none) (h1 : 1 ≤ (s.arch.rdS x).toNat)
    (h2 : (s.arch.rdS x).toNat ≤ 4096) (hc : 0 < (SMap.get {} (s.bindAt s.core.bind).bars bar.toNat).count)
    (ht : (SMap.get {} (s.bindAt s.core.bind).bars bar.toNat).target ≠ (s.arch.rdS x).toNat) : Traps (.gbar g x bar) s 0 102 2 := by
  change execGbar g x bar s = _
  unfold execGbar
  have hr := barTarget_ok h1 h2
  have hm := bne_iff_ne.2 ht
  exact issue_trap hg hk (by simp [hs, hr, hc, hm, firstTrap])

theorem gbar_issues {k op : Nat} (h1 : 1 ≤ (s.arch.rdS x).toNat) (h2 : (s.arch.rdS x).toNat ≤ 4096)
    (hs : s.arch.stall = .gbar k op true false) : Issues (.gbar g x bar) s s.unstall := by
  change execGbar g x bar s = _
  unfold execGbar
  have hr := barTarget_ok h1 h2
  rw [issue_on hg (.inr ⟨by simp [hs, hr, firstTrap], by simp [hs]⟩)]
  simp only [hs, if_true]

end

/-- Settles O27: the conditions of WAITC and WAITF are the model's tests (`waitcOk_iff`, `holds_iff`). -/
theorem waitsAndFences : Obligations.WaitsAndFences := by
  intro s g x y p e nl ns nc nt nq bar before after hg n f t low allLow holds
  have hw : waitcOk s.arch nl ns nc nt nq = true ↔ allLow := waitcOk_iff ..
  have hh : f.holds t = true ↔ holds := holds_iff f t
  refine ⟨fun h => waitc_issues hg (hw.2 h), fun h hk => waitc_stalls hg (hw.not.2 h) hk, fun hd ho h => ?_, waitfEnd_of_not_stalled,
    fun b hd => ⟨waitfIssue_done hg hd, waitfIssue_done hg hd⟩, fun hd ho h hk => ?_,
    fun h => ⟨waitfStall_none h, fun k => waitfStall_some h⟩, fun hn hd hk => ⟨waitfIssue_traps hg hn hd hk, waitfIssue_traps hg hn hd hk⟩,
    fence_issues hg, fence_of_no_path hg, gbar_stalls hg,
    fun hk hs => ⟨gbar_traps_of_range hg hk hs, gbar_traps_of_target hg hk hs⟩, fun k op h1 h2 hs => gbar_issues hg h1 h2 hs,
    fun c => ⟨fun _ _ _ _ _ => waitcRelease_ok, fun _ _ _ hs => waitfRelease_holds hs, fenceSatisfied_next s c⟩⟩
  · exact ⟨waitfIssue_holds hg hd ho (hh.2 h), waitfIssue_holds hg hd ho (hh.2 h)⟩
  · exact ⟨waitfIssue_stalls hg hd ho (hh.not.2 h) hk, waitfIssue_stalls (lend := true) hg hd ho (hh.not.2 h) hk⟩

end Sys2Proof
end

