-- ==== Sys2Proof/Proofs/ScalarIssue.lean ====
section
/-!
PROOFS. The issue of the scalar accesses (R61, R62, R208 to R215; O32): all of them are one shared issue.
-/
namespace Sys2Proof
open Machine Claim
set_option Elab.async false

/-! ## Effective addresses (R209) -/

theorem shiftLeft_eq_mul {n : Nat} (x : BitVec n) (k : Nat) : x <<< k = x * BitVec.ofNat n (2 ^ k) := by
  apply BitVec.eq_of_toNat_eq
  rw [BitVec.toNat_shiftLeft, Nat.shiftLeft_eq, BitVec.toNat_mul, BitVec.toNat_ofNat, Nat.mul_mod_mod]

theorem offOr_eq_offset (off : BitVec 5) (sz : BitVec 2) (e : Option Word32) : offOr off sz e = offset off sz e := by
  cases e with
  | none => exact shiftLeft_eq_mul _ _
  | some w => rfl

/-! ## Each access as the shared issue -/

section
variable (g : Guard) (x b : SReg) (d a : AReg) (sz ord : BitVec 2) (w sx : BitVec 1) (off : BitVec 5) (o9 : BitVec 9) (op : BitVec 4)
  (e : Option Word32) (s : State)

theorem exec_ld : exec (.ld g x a sz sx ord off e) s =
    scalarIssue .ldo g (.ld g x a sz sx ord off e) ord false (fun r => [(r.rdA a + offset off sz e).toNat]) s := by
  rw [← offOr_eq_offset]; rfl

theorem exec_st : exec (.st g x a sz ord off e) s =
    scalarIssue .sto g (.st g x a sz ord off e) ord false (fun r => [(r.rdA a + offset off sz e).toNat, (r.rdS x).toNat]) s := by
  rw [← offOr_eq_offset]; rfl

theorem exec_lda : exec (.lda g d a ord o9) s =
    scalarIssue .ldo g (.lda g d a ord o9) ord false (fun r => [(r.rdA a + o9.signExtend 72 * 16).toNat]) s := by
  change execLda g d a ord o9 s = _
  simp only [execLda, shiftLeft_eq_mul]
  rfl

theorem exec_sta : exec (.sta g d a ord o9) s =
    scalarIssue .sto g (.sta g d a ord o9) ord false (fun r => [(r.rdA a + o9.signExtend 72 * 16).toNat, (r.rdA d).toNat]) s := by
  change execSta g d a ord o9 s = _
  simp only [execSta, shiftLeft_eq_mul]
  rfl

theorem exec_pref : exec (.pref g a sz off e) s =
    scalarIssue .ldo g (.pref g a sz off e) 0 false (fun r => [(r.rdA a + offset off sz e).toNat]) s := by
  rw [← offOr_eq_offset]; rfl

theorem exec_cas : exec (.cas g x a b w ord) s =
    scalarIssue .ldo g (.cas g x a b w ord) ord true (fun r => [(r.rdA a).toNat, (r.rdS b).toNat, (r.rdS x).toNat]) s := rfl

theorem exec_red : exec (.red g op a b w ord) s =
    scalarIssue .sto g (.red g op a b w ord) ord true (fun r => [(r.rdA a).toNat, (r.rdS b).toNat]) s := rfl

end

/-! ## The shared issue -/

/-- The operation that a scalar access leaves: what every operation records, its operand values and its order. -/
def scalarOp (s : State) (i : Instr) (ord : BitVec 2) (x : List Nat) : Op :=
  { s.newOp .scalar 2 i with
    x := x, aux := s.arch.leaseLen.toNat, paths := 1, acq := ordAcq ord, rel := ordRel ord, after := if ordRel ord then s.liveOps else [] }

/-- The operation `o` has started, and is a commit point or is none. -/
def scalarStarted (s : State) (c : Ctr) (commit : Bool) (o : Op) : State :=
  if commit then (s.startOp c o).commitPoint else s.startOp c o

section
variable (s : State) (c : Ctr) (commit : Bool) (o : Op)

theorem core_startOp : (s.startOp c o).core = { s.core with now := s.arch.inc c } := core_onArch s (·.inc c)

theorem coreAt_startOp {d : Nat} (h : d ≠ s.cur) : (s.startOp c o).coreAt d = s.coreAt d := State.coreAt_onArch s (·.inc c) d h

theorem ops_scalarStarted : (scalarStarted s c commit o).ops = s.ops ++ [o] := by cases commit <;> rfl

theorem core_scalarStarted : (scalarStarted s c commit o).core =
    { s.core with now := s.arch.setCtr c (s.arch.ctr c + 1), commit := s.core.commit || commit } := by
  cases commit with
  | false => simp only [scalarStarted, Bool.false_eq_true, if_false, core_startOp, Bool.or_false]; rfl
  | true => simp only [scalarStarted, if_true, State.commitPoint, State.core_setCore, core_startOp, Bool.or_true]; rfl

theorem sameMem_scalarStarted : SameMem s (scalarStarted s c commit o) := by cases commit <;> exact .refl s

theorem coreAt_scalarStarted {d : Nat} (h : d ≠ s.cur) : (scalarStarted s c commit o).coreAt d = s.coreAt d := by
  cases commit with
  | false => exact coreAt_startOp s c o h
  | true =>
    change ((s.startOp c o).setCoreAt s.cur _).coreAt d = _
    rw [State.coreAt_setCoreAt, if_neg h, coreAt_startOp s c o h]

end

section
variable {c : Ctr} {g : Guard} {i : Instr} {ord : BitVec 2} {commit : Bool} {x : Arch → List Nat} {s : State}

/-- With room in its counter the access issues. -/
theorem scalarIssue_access (hg : s.arch.guardOn 2 g = true) (hi : exec i s = scalarIssue c g i ord commit x s) :
    Access i s c ord commit (x s.arch) := by
  intro hc
  have hf : s.ctrFull c = none := trapIf_none.2 (by simpa using hc)
  have hcore := core_scalarStarted s c commit (scalarOp s i ord (x s.arch))
  exact ⟨scalarStarted s c commit (scalarOp s i ord (x s.arch)), scalarOp s i ord (x s.arch),
    hi.trans (issue_on hg (.inr ⟨hf, rfl⟩)), ops_scalarStarted .., rfl, rfl, rfl, rfl, rfl, rfl, rfl, rfl, rfl, rfl,
    congrArg Core.now hcore, congrArg Core.commit hcore, sameMem_scalarStarted _ _ _ _, fun _ => coreAt_scalarStarted _ _ _ _⟩

theorem scalarIssue_full (hg : s.arch.guardOn 2 g = true) (hk : s.checked = false) (hc : s.arch.ctr c = 255)
    (hi : exec i s = scalarIssue c g i ord commit x s) : Traps i s 2 96 0 := by
  refine hi.trans (issue_trap hg hk ?_)
  simp [State.ctrFull, hc]

theorem amoIssue_access {a : AReg} {b : SReg} (hg : s.arch.guardOn 2 g = true) (hi : exec i s = amoIssue g i a b ord s) :
    Access i s .ldo ord true [(s.arch.rdA a).toNat, (s.arch.rdS b).toNat] :=
  scalarIssue_access (x := fun r => [(r.rdA a).toNat, (r.rdS b).toNat]) hg hi

end

/-- Settles O32: the atomics are the issue with the operands of an AMO, the others have their own. -/
theorem scalarAccessIssue : Obligations.ScalarAccessIssue := by
  intro s g x b d a sz ord w sx off o9 op e hg ea slot at' v
  have amo {i : Instr} (hi : exec i s = amoIssue g i a b ord s) : Access i s .ldo ord true [at', v] := amoIssue_access hg hi
  refine ⟨scalarIssue_access hg (exec_ld ..), scalarIssue_access hg (exec_st ..), scalarIssue_access hg (exec_lda ..),
    scalarIssue_access hg (exec_sta ..), scalarIssue_access hg (exec_pref ..), amo rfl, amo rfl, amo rfl, amo rfl, amo rfl, amo rfl,
    amo rfl, amo rfl, amo rfl, scalarIssue_access hg (exec_cas ..), scalarIssue_access hg (exec_red ..), fun hk hc => ?_, fun hk hc => ?_⟩
  · have full {i : Instr} {o : BitVec 2} {k : Bool} {y : Arch → List Nat} (hi : exec i s = scalarIssue .ldo g i o k y s) :
        Traps i s 2 96 0 := scalarIssue_full (c := .ldo) hg hk hc hi
    have amo {i : Instr} (hi : exec i s = amoIssue g i a b ord s) : Traps i s 2 96 0 := full hi
    exact ⟨full (exec_ld ..), full (exec_lda ..), full (exec_pref ..), amo rfl, amo rfl, amo rfl, amo rfl, amo rfl, amo rfl, amo rfl,
      amo rfl, amo rfl, full (exec_cas ..)⟩
  · have full {i : Instr} {k : Bool} {y : Arch → List Nat} (hi : exec i s = scalarIssue .sto g i ord k y s) : Traps i s 2 96 0 :=
      scalarIssue_full (c := .sto) hg hk hc hi
    exact ⟨full (exec_st ..), full (exec_sta ..), full (exec_red ..)⟩

end Sys2Proof
end

