-- ==== Sys2Proof/Proofs/Occupancy.lean ====
section
/-!
PROOFS. What an access performs ahead of a fixed-latency access (R358, R423) leaves the occupancy of every share and the core at work as
they are: an invariant of the counted accesses to tiles, down to the Shepherd's writes to frames (R203).
-/
namespace Sys2Proof
open Machine Claim
set_option Elab.async false

/-- Core `q` is at work, and the share of core `c` is occupied for `n` cycles. -/
def OccIs (q c n : Nat) (s : State) : Prop := s.cur = q ∧ (s.coreAt c).now.occ = n

section
variable {α : Type} {q c n : Nat} {s t : State}

/-! ## States out of branches, pairs and folds -/

theorem OccIs.ite {p : Prop} [Decidable p] (h : OccIs q c n s) (h' : OccIs q c n t) : OccIs q c n (if p then s else t) := by
  split
  · exact h
  · exact h'

theorem OccIs.ite_snd {p : Prop} [Decidable p] {x y : α × State} (h : OccIs q c n x.2) (h' : OccIs q c n y.2) :
    OccIs q c n (if p then x else y).2 := by
  split
  · exact h
  · exact h'

theorem OccIs.of_eq {p : α × State} {a : α} (e : p = (a, t)) (h : OccIs q c n p.2) : OccIs q c n t := by
  subst e; exact h

theorem OccIs.foldl {l : List α} {f : State → α → State} (hf : ∀ t x, OccIs q c n t → OccIs q c n (f t x)) (h : OccIs q c n s) :
    OccIs q c n (l.foldl f s) :=
  l.foldlRecOn f h fun t ht x _ => hf t x ht

/-- The state but for the core at work and the cores does not matter. -/
theorem OccIs.of_same (h : OccIs q c n s) (hq : t.cur = s.cur) (hc : t.cores = s.cores) : OccIs q c n t :=
  ⟨hq.trans h.1, by simp only [State.coreAt, hc]; exact h.2⟩

/-! ## Cores -/

theorem OccIs.onCoreAt {d : Nat} {f : Core → Core} (hf : ∀ x, (f x).now.occ = x.now.occ) (h : OccIs q c n s) :
    OccIs q c n (s.onCoreAt d f) := by
  refine ⟨h.1, ?_⟩
  rw [State.onCoreAt, State.coreAt_setCoreAt]
  split
  case isTrue e => rw [hf, ← e]; exact h.2
  case isFalse => exact h.2

theorem OccIs.checkpoint {d} (h : OccIs q c n s) : OccIs q c n (s.checkpoint d) := h.onCoreAt fun _ => rfl

theorem OccIs.commitBut {d cl pa k} (h : OccIs q c n s) : OccIs q c n (s.commitBut d cl pa k) := .foldl (fun _ _ ht => ht.checkpoint) h

theorem OccIs.commitAll {l} (h : OccIs q c n s) : OccIs q c n (s.commitAll l) := by
  induction l generalizing s with
  | nil => exact h
  | cons x l ih => exact ih h.commitBut

/-! ## Memory and translation -/

theorem OccIs.stampLines {p line k} (h : OccIs q c n s) : OccIs q c n (s.stampLines p line k).2 := by
  induction k generalizing s p line with
  | zero => exact h
  | succ k ih => exact ih (s := (s.stampWrite line p).2) h

theorem OccIs.viaCache {pa k w} (h : OccIs q c n s) : OccIs q c n (s.viaCache pa k w) := .ite h h

theorem OccIs.wrMem {p pa bs} (h : OccIs q c n s) : OccIs q c n (s.wrMem p pa bs).2 := .ite h.viaCache.stampLines h.viaCache.stampLines

theorem OccIs.setAD {w mc key va kind y} (h : OccIs q c n s) : OccIs q c n (s.setAD w mc key va kind y) := by
  unfold State.setAD
  split
  · exact h
  · dsimp only
    split <;> exact h

theorem OccIs.xlateDo {w mc key va kind} (h : OccIs q c n s) : OccIs q c n (s.xlateDo w mc key va kind).2 := by
  unfold State.xlateDo
  dsimp only
  split
  · exact h.commitAll.setAD
  · exact h.commitAll

/-! ## The Shepherd -/

theorem OccIs.sendMsi {fn v} (h : OccIs q c n s) : OccIs q c n (s.sendMsi fn v) := .ite h h

theorem OccIs.setFerr {fn code datum} (h : OccIs q c n s) : OccIs q c n (s.setFerr fn code datum) :=
  .ite h (.sendMsi (s := s.setFunc _ _) h)

theorem OccIs.ringSignal {fn r} (h : OccIs q c n s) : OccIs q c n (s.ringSignal fn r) := .ite (.sendMsi (s := s.setFunc _ _) h) h

theorem OccIs.postRecord {fn r compl lostAt rec} (h : OccIs q c n s) : OccIs q c n (s.postRecord fn r compl lostAt rec) := by
  unfold State.postRecord
  exact .ite h (.ite (.setFerr (s := s.setFunc _ _) h) (.ite h (.ite h (.ringSignal (s := State.setFunc _ _ _) h))))

theorem OccIs.shepFail {mc cause reason va} (h : OccIs q c n s) : OccIs q c n (s.shepFail mc cause reason va) :=
  .postRecord (s := s.onMc _ _) h

theorem OccIs.askPage {sg at'} (h : OccIs q c n s) : OccIs q c n (s.askPage sg at') := by
  unfold State.askPage
  dsimp only
  split
  · exact .ite h h
  · exact h

theorem OccIs.with_shepDown {x} (h : OccIs q c n s) : OccIs q c n { s with shepDown := x } := h.of_same rfl rfl

theorem OccIs.shepUp (h : OccIs q c n s) : OccIs q c n s.shepUp := h.with_shepDown

theorem OccIs.segNap {mc vpn sg at'} (h : OccIs q c n s) : OccIs q c n (s.segNap mc vpn sg at').2 := by
  unfold State.segNap
  dsimp only
  split
  · exact .ite_snd (h.askPage.of_same rfl rfl) h.askPage
  · exact h.askPage.of_same rfl rfl

theorem OccIs.nap {mc vpn} (h : OccIs q c n s) : OccIs q c n (s.nap mc vpn) := .ite h h

theorem OccIs.shepGo {mc va k kind} (h : OccIs q c n s) : OccIs q c n (s.shepGo mc va k kind).2 := by
  unfold State.shepGo
  dsimp only
  split
  · exact h.with_shepDown
  · split
    case h_1 e =>
      have ht := h.xlateDo.of_eq e
      exact .ite_snd (.ite ht ht.shepFail.with_shepDown) (.ite ht.commitBut.viaCache ht.commitBut)
    case h_2 => exact .ite h h.shepFail.with_shepDown
    case h_3 => exact .ite h h.shepFail.with_shepDown
    case h_4 e => exact (h.xlateDo.of_eq e).nap.with_shepDown
    case h_5 e =>
      have ht := h.xlateDo.of_eq e
      exact .ite_snd (.ite ht.segNap ht.segNap.shepFail.with_shepDown) ht.segNap.with_shepDown

theorem OccIs.shepWrite {mc va bs} (h : OccIs q c n s) : OccIs q c n (s.shepWrite mc va bs) := by
  unfold State.shepWrite
  split
  case h_1 e => exact (h.shepGo.of_eq e).wrMem
  case h_2 e => exact h.shepGo.of_eq e

theorem OccIs.areaWrite {mc va k l} (h : OccIs q c n s) : OccIs q c n (s.areaWrite mc va k l) := by
  induction k generalizing s mc va l with
  | zero => exact h
  | succ k ih => exact .ite h.shepWrite (ih h.shepWrite)

theorem OccIs.frameWrite {mc fs off bs} (h : OccIs q c n s) : OccIs q c n (s.frameWrite mc fs off bs) := h.areaWrite

/-! ## Registers -/

theorem occ_wrSys (a : Arch) (r : BitVec 12) (v : Word) : (a.wrSys r v).occ = a.occ := by
  simp only [Arch.wrSys, apply_ite Arch.occ, ite_self]

theorem occ_wr (a : Arch) (w : RegWrite) : (a.wr w).occ = a.occ := by
  cases w
  case sys r v => exact occ_wrSys a r v
  case v | t | lc | ft | zdom | mzero | none => rfl
  case s | a | k | p | dom =>
    rw [Arch.wr]
    split <;> rfl

theorem occ_wrCounted (a : Arch) (slot seq : Nat) (w : RegWrite) : (a.wrCounted slot seq w).occ = a.occ := by
  unfold Arch.wrCounted
  split
  · rfl
  · exact occ_wr _ _

theorem occ_setCtr (a : Arch) (k : Ctr) (x : BitVec 8) : (a.setCtr k x).occ = a.occ := by cases k <;> rfl

/-! ## Counted accesses to tiles -/

theorem OccIs.onArchAt {d : Nat} {f : Arch → Arch} (hf : ∀ a, (f a).occ = a.occ) (h : OccIs q c n s) : OccIs q c n (s.onArchAt d f) :=
  h.onCoreAt fun x => hf x.now

theorem OccIs.onOpArch {o : Op} {f : Arch → Arch} (hf : ∀ a, (f a).occ = a.occ) (h : OccIs q c n s) : OccIs q c n (s.onOpArch o f) :=
  h.onCoreAt fun x => hf x.now

theorem OccIs.finishOp {o} (h : OccIs q c n s) : OccIs q c n (s.finishOp o) := by
  unfold State.finishOp
  dsimp only
  split
  · exact .ite (.onOpArch (s := s.dropOp _) (fun a => occ_setCtr a _ _) h) h
  · exact h

theorem OccIs.lateOp {o t} (h : OccIs q c n s) : OccIs q c n (s.lateOp o t) := .ite (.onCoreAt (s := s.setOp _) (fun _ => rfl) h) h

theorem OccIs.writeDest {o w} (h : OccIs q c n s) : OccIs q c n (s.writeDest o w) := by
  unfold State.writeDest
  refine .ite (h.onOpArch fun a => occ_wrCounted a _ _ _) ?_
  extract_lets u v
  have hu : OccIs q c n u := by
    unfold u
    split
    · exact h.frameWrite
    · exact h
  refine .shepUp ?_
  unfold v
  split
  · exact .ite hu.frameWrite (.ite hu.frameWrite hu)
  · exact hu

theorem OccIs.writeTag {o t v} (h : OccIs q c n s) : OccIs q c n (s.writeTag o t v) :=
  .ite (h.onOpArch fun a => occ_wrCounted a _ _ _) (.ite h.frameWrite.shepUp h)

theorem OccIs.tileWr {d t r b bs} (h : OccIs q c n s) : OccIs q c n (s.tileWr d t r b bs) := .ite h (h.onArchAt fun _ => rfl)

theorem OccIs.tilePut {d slot tent now' t row lo bs} (h : OccIs q c n s) : OccIs q c n (s.tilePut d slot tent now' t row lo bs) :=
  .ite h (.ite (.tileWr (.ite (h.onCoreAt fun _ => rfl) h)) (.ite h.tileWr (h.onArchAt fun _ => rfl)))

theorem OccIs.tileUnit {o slot fin} (h : OccIs q c n s) (hf : ∀ t, OccIs q c n t → OccIs q c n (fin t)) : OccIs q c n (s.tileUnit o slot fin) := by
  refine .ite (hf _ (.foldl ?_ h)) (.of_same (.foldl ?_ h) rfl rfl)
  · exact fun _ _ ht => ht.tilePut
  · exact fun _ _ ht => ht.tilePut

theorem OccIs.tileRun {o} (h : OccIs q c n s) : OccIs q c n (s.tileRun o) := by
  unfold State.tileRun
  dsimp only
  split
  · exact h.lateOp
  · split
    case h_1 =>
      split
      · exact h.lateOp
      · exact h.writeDest.finishOp
    case h_2 =>
      split
      · exact h.lateOp
      · exact h.writeDest.finishOp
    case h_3 => exact h.tileUnit fun _ ht => ht.finishOp
    case h_4 => exact h.tileUnit fun _ ht => ht.finishOp
    case h_5 => exact h.tileUnit fun _ ht => ht.writeTag.finishOp
    case h_6 => exact h

theorem OccIs.tileWhole {id k} (h : OccIs q c n s) : OccIs q c n (s.tileWhole id k) := by
  induction k generalizing s id with
  | zero => exact h
  | succ k ih =>
    unfold State.tileWhole
    split
    · exact .ite h (ih h.tileRun)
    · exact h

theorem OccIs.settleClus {d id t row lo k} (h : OccIs q c n s) : OccIs q c n (s.settleClus d id t row lo k) :=
  .ite (.commitBut (.foldl (fun _ _ ht => ht.tileWhole) h)) h

theorem OccIs.settleTile {d id t} (h : OccIs q c n s) : OccIs q c n (s.settleTile d id t) := .foldl (fun _ _ ht => ht.settleClus) h

end
end Sys2Proof
end

