-- ==== Sys2Proof/Proofs/PassIssue.lean ====
section
/-!
PROOFS. The issue of MMUL and MSPEC (R35, R254 to R258, R263 to R265; O40).
-/
namespace Sys2Proof
open Machine Claim
set_option Elab.async false

/-- MMUL, or with `spec` MSPEC. -/
def passInstr (spec : Bool) (g : Guard) (z : ZReg) (ta tb : TReg) (acc : BitVec 1) (mx : MX) : Instr :=
  if spec then .mspec g z ta tb acc mx else .mmul g z ta tb acc mx

/-- What the checks of a deterministic pass look at. -/
def passReq (s : State) (spec : Bool) (z : ZReg) (ta tb : TReg) (acc : BitVec 1) (mx : MX) : PassReq :=
  ⟨spec, false, z, ta, some tb, 0, acc == 1, passWord s.arch mx⟩

section
variable {s : State} {spec : Bool} {g : Guard} {z : ZReg} {ta tb : TReg} {acc : BitVec 1} {mx : MX} {m : Nat}

theorem exec_passInstr : exec (passInstr spec g z ta tb acc mx) s =
    if !s.arch.guardOn 4 g then .next { s.offPass ta with verdict := .issued }
    else issueZ z g (fun s => (passReq s spec z ta tb acc mx).check s) (fun _ => none)
      (fun s => s.startPass (passInstr spec g z ta tb acc mx) (passReq s spec z ta tb acc mx) tb) s := by
  cases spec <;> rfl

/-! ## The checks (R264) -/

/-- A valid handle passes. -/
theorem tileInvalid_of_valid {a : Arch} (ha : (a.rdT ta).valid = true) (hb : (a.rdT tb).valid = true) : a.tileInvalid [ta, tb] = none := by
  simp [Arch.tileInvalid, ha, hb]

/-- One handle named twice, and not valid. -/
theorem tileInvalid_of_not_valid {a : Arch} (ha : (a.rdT ta).valid = false) :
    a.tileInvalid [ta, ta] = some { cause := 40, reason := 1, data := ta.zeroExtend 32 } := by
  have h : ∀ n, [ta, ta].getD (n % 2) ta = ta := fun n => by
    rcases Nat.mod_two_eq_zero_or_one n with h | h <;> rw [h] <;> rfl
  simp only [Arch.tileInvalid, ha, List.filter_cons, List.filter_nil, Bool.not_false, if_true, List.length_cons, List.length_nil, h]

/-- The checks of a pass whose handles are valid, in their order. -/
theorem check_of_valid (ha : (s.arch.rdT ta).valid = true) (hb : (s.arch.rdT tb).valid = true) :
    (passReq s spec z ta tb acc mx).check s = firstTrap [
      trapIf (s.penModeOf s.cur == .fold) 54 1, trapIf (s.divisor s.cur).isNone 54 2, s.arrayCheck,
      trapIf (!wordOk spec (passWord s.arch mx)) 48 0, (passReq s spec z ta tb acc mx).operands s.arch,
      trapIf ((acc == 1) && !(s.arch.zAhead z.toNat).1) 50 0, trapIf ((acc == 1) && (s.arch.zAhead z.toNat).2 != spec) 51 2] := by
  have h : (if (passReq s spec z ta tb acc mx).waited then s.ctrFull .tlo else none) = none := rfl
  rw [PassReq.check]
  simp only [h, firstTrap]
  rw [show s.arch.tileInvalid ((passReq s spec z ta tb acc mx).ta :: (passReq s spec z ta tb acc mx).tb.toList) = none from
    tileInvalid_of_valid ha hb]
  rfl

theorem check_of_not_valid (ha : (s.arch.rdT ta).valid = false) :
    (passReq s spec z ta ta acc mx).check s = some { cause := 40, reason := 1, data := ta.zeroExtend 32 } := by
  have h : (if (passReq s spec z ta ta acc mx).waited then s.ctrFull .tlo else none) = none := rfl
  rw [PassReq.check]
  simp only [h, firstTrap]
  rw [show s.arch.tileInvalid ((passReq s spec z ta ta acc mx).ta :: (passReq s spec z ta ta acc mx).tb.toList) = _ from
    tileInvalid_of_not_valid ha]
  rfl

theorem operands_of_ready (hr : PassReady s spec ta (some tb) 0 (passWord s.arch mx) m) :
    (passReq s spec z ta tb acc mx).operands s.arch = none := by
  obtain ⟨-, -, -, hrows, hfmt, hsp, hb, -⟩ := hr
  obtain ⟨-, hbc, hbf, hbr, hbd, hbs⟩ := hb tb rfl
  simp [PassReq.operands, passReq, firstTrap, hbc, hfmt, hbf, Nat.not_lt.2 hrows, Nat.not_lt.2 hbr, hbd, hsp, hbs]

theorem arrayCheck_of_free (ho : s.arch.occ = 0) (hw : s.waitedOps s.cur = []) : s.arrayCheck = none := by
  simp [State.arrayCheck, ho, hw, firstTrap]

theorem check_of_ready (hr : PassReady s spec ta (some tb) 0 (passWord s.arch mx) m) (hf : s.penModeOf s.cur ≠ .fold) (ho : s.arch.occ = 0)
    (hw : s.waitedOps s.cur = []) (hz : acc = 1 → s.arch.zAhead z.toNat = (true, spec)) :
    (passReq s spec z ta tb acc mx).check s = none := by
  have hop := operands_of_ready (z := z) (acc := acc) hr
  obtain ⟨hm, hword, ha, -, -, -, hb, -⟩ := hr
  rw [check_of_valid ha (hb tb rfl).1, hop, arrayCheck_of_free ho hw]
  have hmode : (s.penModeOf s.cur == PenMode.fold) = false := beq_eq_false_iff_ne.2 hf
  by_cases hacc : acc = 1
  · simp [firstTrap, hmode, hm, hword, hz hacc]
  · have hacc : (acc == 1) = false := beq_eq_false_iff_ne.2 hacc
    simp only [firstTrap, hmode, hm, hword, hacc, Bool.false_and, Bool.not_true, Option.isNone_some, trapIf_false]

/-! ## Traps -/

/-- A pass whose first cause is not BAD_FORMAT takes its trap. -/
theorem exec_pass_traps {t : Trap} (hg : s.arch.guardOn 4 g = true) (hk : s.checked = false)
    (hc : (passReq s spec z ta tb acc mx).check s = some t) (ht : t.cause ≠ 48) :
    exec (passInstr spec g z ta tb acc mx) s = .next (s.takeTrap s.cur 4 t) := by
  rw [exec_passInstr, if_neg (by simp [hg]), issueZ, if_neg (by simp [hc, ht])]
  exact issue_trap hg hk hc

/-- With BAD_FORMAT the accumulator is marked invalid before the trap is taken (R51, R100). -/
theorem exec_pass_badFormat (hg : s.arch.guardOn 4 g = true) (hk : s.checked = false)
    (hc : (passReq s spec z ta tb acc mx).check s = some { cause := 48, reason := 0 }) :
    exec (passInstr spec g z ta tb acc mx) s =
      .next ((s.onArch (fun a => a.setZflag z.toNat { a.zflag z.toNat with valid := false })).takeTrap s.cur 4 { cause := 48, reason := 0 }) := by
  rw [exec_passInstr, if_neg (by simp [hg]), issueZ, if_pos (by simp [hg, hk, hc])]

theorem zflag_setZflag_self (a : Arch) (k : Nat) (f : ZFlag) : (a.setZflag k f).zflag k = f := SMap.get_set_self ({} : ZFlag) a.zf k f

theorem exec_pass_off (hg : s.arch.guardOn 4 g = false) (hf : s.penModeOf s.cur ≠ .fold) (hm : s.divisor s.cur = some m) :
    exec (passInstr spec g z ta tb acc mx) s =
      .next { s.onArch (fun a => { a with occ := max a.occ (m * (64 + (s.arch.rdT ta).rows)) }) with verdict := .issued } := by
  have ho : s.offPass ta = s.onArch (fun a => { a with occ := max a.occ (m * (64 + (s.arch.rdT ta).rows)) }) := by
    unfold State.offPass
    rw [hm]
    split
    case h_1 h => exact absurd h hf
    case h_2 e _ => cases e; rfl
    case h_3 e _ => cases e
  rw [exec_passInstr, if_pos (by simp [hg]), ho]

theorem exec_pass_starts (hg : s.arch.guardOn 4 g = true) (hc : (passReq s spec z ta tb acc mx).check s = none) :
    Issues (passInstr spec g z ta tb acc mx) s
      (s.startPass (passInstr spec g z ta tb acc mx) (passReq s spec z ta tb acc mx) tb) := by
  rw [Issues, exec_passInstr, if_neg (by simp [hg]), issueZ, if_neg (by simp [hc])]
  exact issue_on hg (.inr ⟨hc, rfl⟩)

/-! ## The state of a pass that issues -/

/-- Nothing is outstanding in `u`, and it is `s` for core `c`, the core at work and the memories. -/
def QuietFor (c : Nat) (s u : State) : Prop :=
  u.ops = [] ∧ u.cur = s.cur ∧ u.coreAt c = s.coreAt c ∧ u.mem = s.mem ∧ u.host = s.host

theorem QuietFor.checkpoint {c d : Nat} {u : State} (hd : d ≠ c) (h : QuietFor c s u) : QuietFor c s (u.checkpoint d) := by
  obtain ⟨ho, hq, hc, hm, hh⟩ := h
  refine ⟨ho, hq, ?_, hm, hh⟩
  rw [← hc]
  exact (State.coreAt_setCoreAt u d c _).trans (if_neg hd.symm)

theorem QuietFor.commitBut {c pa n : Nat} {cl : Option Nat} {u : State} (h : QuietFor c s u) : QuietFor c s (u.commitBut c cl pa n) := by
  refine List.foldlRecOn (motive := QuietFor c s) _ _ h fun v hv d hd => hv.checkpoint ?_
  simpa using (List.mem_filter.1 hd).2

/-- Without outstanding accesses there is nothing to perform ahead; only other cores take their checkpoints. -/
theorem QuietFor.settleClus {c id row lo n : Nat} {d : TDesc} {u : State} (h : QuietFor c s u) :
    QuietFor c s (u.settleClus c id d row lo n) := by
  unfold State.settleClus
  split
  · have ht : u.tileOps (u.coreAt c).mc (u.coreAt c).fslot id d.tti.toNat = [] := by simp [State.tileOps, h.1]
    simp only [ht, List.foldl_nil]
    exact h.commitBut
  · exact h

theorem QuietFor.settleTile {c id : Nat} {d : TDesc} (h : s.ops = []) : QuietFor c s (s.settleTile c id d) :=
  List.foldlRecOn (motive := QuietFor c s) _ _ ⟨h, rfl, rfl, rfl, rfl⟩ fun _ hu _ _ => hu.settleClus

theorem OccIs.arch {q n : Nat} {t : State} (h : OccIs q q n t) : t.arch.occ = n := by
  obtain ⟨rfl, h⟩ := h
  exact h

/-- A pass occupies its share for its rows. -/
theorem OccIs.occupy {q n r : Nat} {t : State} {f : Arch → Arch} (hf : ∀ a, (f a).occ = max a.occ r) (h : OccIs q q n t) :
    OccIs q q (max n r) (t.onArch f) := by
  obtain ⟨rfl, h⟩ := h
  refine ⟨rfl, ?_⟩
  change (t.onArch f).arch.occ = _
  rw [State.arch_onArch, hf]
  exact congrArg (max · r) h

theorem occ_startPass {i : Instr} {q : PassReq} (hm : s.divisor s.cur = some m) :
    (s.startPass i q tb).arch.occ = max s.arch.occ (m * (64 + (s.arch.rdT q.ta).rows)) := by
  have hs : OccIs s.cur s.cur s.arch.occ s := ⟨rfl, rfl⟩
  have hu : OccIs s.cur s.cur s.arch.occ { s.settleTile s.cur s.nextOp (s.arch.rdT tb) with nextOp := s.nextOp + 1 } :=
    hs.settleTile.of_same rfl rfl
  apply OccIs.arch (q := s.cur)
  unfold State.startPass
  simp only [hm, Option.getD_some]
  split
  · exact (hu.occupy fun _ => rfl).onCoreAt fun _ => rfl
  · exact hu.occupy fun _ => rfl

theorem sameMem_startPass {i : Instr} {q : PassReq} (h : s.ops = []) : SameMem s (s.startPass i q tb) := by
  obtain ⟨-, -, -, hm, hh⟩ := QuietFor.settleTile (c := s.cur) (id := s.nextOp) (d := s.arch.rdT tb) h
  have hs : SameMem s (s.settleTile s.cur s.nextOp (s.arch.rdT tb)) := fun a => by rw [hm, hh]; exact ⟨rfl, rfl⟩
  unfold State.startPass
  dsimp only
  split <;> exact hs

/-- Where no late fault is detected, one pass is under way. -/
theorem startPass_passes {i : Instr} {q : PassReq} (hm : s.divisor s.cur = some m)
    (hA : s.clusOk s.cur s.core.mc s.core.bind (s.arch.rdT q.ta) = true) (hB : s.clusOk s.cur s.core.mc s.core.bind (s.arch.rdT tb) = true)
    (hbad : s.allBad s.cur (s.arch.rdT tb) = none) (ho : s.ops = []) :
    ∃ p, (s.startPass i q tb).arch.passes = s.arch.passes ++ [p] ∧ p.id = s.nextOp ∧ p.z = q.z.toNat ∧ p.mov = s.arch.rdT q.ta
      ∧ p.rows = (s.arch.rdT q.ta).rows ∧ p.cols = (s.arch.rdT tb).rows ∧ p.acc = q.acc ∧ p.word = q.word ∧ p.spec = q.spec ∧ p.age = 0
      ∧ p.lat = m * (64 + (s.arch.rdT q.ta).rows) + (if wordInt q.word then 61 else 65) ∧ SameRegs (s.startPass i q tb).arch s.arch := by
  obtain ⟨-, hq, hc, -, -⟩ := QuietFor.settleTile (c := s.cur) (id := s.nextOp) (d := s.arch.rdT tb) ho
  have ha : (s.settleTile s.cur s.nextOp (s.arch.rdT tb)).arch = s.arch := by
    rw [State.arch, State.core, hq, hc]
    rfl
  have ha' : State.arch { s.settleTile s.cur s.nextOp (s.arch.rdT tb) with nextOp := s.nextOp + 1 } = s.arch := ha
  unfold State.startPass
  simp only [hA, hB, hbad, hm, Bool.not_true, Bool.false_eq_true, if_false, Option.getD_some, State.readStationary, State.arch_onArch, ha']
  exact ⟨_, rfl, rfl, rfl, rfl, rfl, rfl, rfl, rfl, rfl, rfl, rfl, .refl _⟩

end

/-- Settles O40: the checks in their order, and the state of a pass that they let through. -/
theorem deterministicPasses : Obligations.DeterministicPasses := by
  intro s g z ta tb acc mx spec m i w A
  refine ⟨fun hg hr hf ho hw hz => ?_, exec_pass_off, fun hg hk ha hb => ?_, fun hg hk ha htt => ?_⟩
  · have hm := hr.1
    refine ⟨_, exec_pass_starts hg (check_of_ready hr hf ho hw hz), ?_, sameMem_startPass, fun hA hB => startPass_passes hm hA hB⟩
    rw [occ_startPass hm, ho, Nat.zero_max]
    rfl
  · have hc := check_of_valid (spec := spec) (z := z) (acc := acc) (mx := mx) ha hb
    have share {p : PenMode} (hf : p ≠ .fold) : (p == .fold) = false := beq_eq_false_iff_ne.2 hf
    refine ⟨fun hf => ?fold, fun hf hm => ?noShare, fun hf hm ho => ?busy, fun hf hm ho hw hword => ?format⟩
    case fold => exact exec_pass_traps hg hk (by rw [hc]; simp [hf, firstTrap]) (by decide)
    case noShare => exact exec_pass_traps hg hk (by rw [hc]; simp [share hf, hm, firstTrap]) (by decide)
    case busy => exact exec_pass_traps hg hk (by rw [hc]; simp [share hf, hm, State.arrayCheck, ho, firstTrap]) (by decide)
    case format =>
      change wordOk spec (passWord s.arch mx) = false at hword
      refine ⟨_, exec_pass_badFormat hg hk (by rw [hc, arrayCheck_of_free ho hw]; simp [share hf, hm, hword, firstTrap]), ?_, rfl⟩
      rw [State.arch_onArch, zflag_setZflag_self]
  · subst htt
    exact exec_pass_traps hg hk (check_of_not_valid ha) (by simp)

end Sys2Proof
end

