-- ==== Sys2Proof/Proofs/Fetch.lean ====
section
/-!
PROOFS. The fetch of a bundle of one syllable (R27, R28, R32 to R34, R40; O8).
-/
namespace Sys2Proof
open Machine Claim
set_option Elab.async false

/-! ## The header of a bundle of one syllable -/

/-- The low half of the header of a bundle of one syllable: the bit of its slot, and that of its extension word. -/
def slotBits (sl : Slot) (x : Bool) : Nat := 2 ^ sl.num + if x then 2 ^ (8 + sl.num) else 0

section
variable (sl : Slot) (x : Bool) {sk : Nat} (hk : sk < 16)

theorem slotBits_lt : slotBits sl x < 2 ^ 16 := by
  cases sl <;> cases x <;> decide

theorem testBit_slotBits (r : Slot) : (slotBits sl x).testBit r.num = decide (r = sl) := by
  cases sl <;> cases x <;> cases r <;> rfl

theorem testBit_extBit : (slotBits sl x).testBit (8 + sl.num) = x := by
  cases sl <;> cases x <;> rfl

/-- The bits below SK are those of the slot. -/
theorem testBit_header {i : Nat} (hi : i < 16) : (slotBits sl x + sk * 2 ^ 16).testBit i = (slotBits sl x).testBit i := by
  rw [Nat.add_comm, Nat.mul_comm, Nat.testBit_two_pow_mul_add _ (slotBits_lt sl x), if_pos hi]

theorem num_lt : sl.num < 8 := by cases sl <;> decide

theorem headerWords_header : headerWords (slotBits sl x + sk * 2 ^ 16) = if x then 3 else 2 := by
  have h1 : (slotBits sl x + sk * 2 ^ 16) % 256 = slotBits sl x % 256 := by omega
  have h2 : (slotBits sl x + sk * 2 ^ 16) / 256 % 256 = slotBits sl x / 256 % 256 := by omega
  rw [headerWords, h1, h2]
  cases sl <;> cases x <;> decide

include hk in
theorem headerBad_header {at' : Nat} (ha : at' + (if x then 3 else 2) ≤ 16) : headerBad (slotBits sl x + sk * 2 ^ 16) at' = none := by
  have hlt := slotBits_lt sl x
  have h0 : (slotBits sl x + sk * 2 ^ 16) / 2 ^ 20 = 0 := by omega
  have h1 : (slotBits sl x + sk * 2 ^ 16) % 256 = slotBits sl x % 256 := by omega
  have h2 : (slotBits sl x + sk * 2 ^ 16) / 256 % 256 = slotBits sl x / 256 % 256 := by omega
  have he : (List.range 8).any (fun i => slotBits sl x / 256 % 256 / 2 ^ i % 2 == 1 && slotBits sl x % 256 / 2 ^ i % 2 == 0) = false := by
    cases sl <;> cases x <;> decide
  simp only [headerBad, h0, h1, h2, he, headerWords_header]
  simp [Nat.not_lt.2 ha]

include hk in
theorem header_ne_lineEnd : slotBits sl x + sk * 2 ^ 16 ≠ lineEnd := by
  have := slotBits_lt sl x
  rw [lineEnd]
  omega

include hk in
theorem sk_header : bitsOf (slotBits sl x + sk * 2 ^ 16) 16 4 = sk := by
  have := slotBits_lt sl x
  rw [bitsOf, Nat.shiftRight_eq_div_pow]
  omega

end

/-! ## The syllable -/

/-- Slots that are not present have no syllable. -/
theorem fetchSyls_absent {s : State} {h pa : Nat} {l : List Slot} (hl : ∀ r ∈ l, h.testBit r.num = false) :
    s.fetchSyls false h pa l = .ok [] := by
  induction l with
  | nil => rfl
  | cons r l ih =>
    rw [State.fetchSyls, if_neg (by simp [hl r])]
    exact ih fun r hr => hl r (List.mem_cons_of_mem _ hr)

theorem fetchSyls_one {s : State} {h pa : Nat} {sl : Slot} {w : Word32} {e : Option Word32} {i : Instr} {l : List Slot}
    (hl : sl ∈ l) (hn : l.Nodup) (hb : ∀ r : Slot, h.testBit r.num = decide (r = sl)) (hx : h.testBit (8 + sl.num) = e.isSome)
    (hw : rdNum s.mem pa 4 = w.toNat) (he : ∀ x, e = some x → rdNum s.mem (pa + 4) 4 = x.toNat) (hd : decodeSyl sl w e = .ok i) :
    s.fetchSyls false h pa l = .ok [(sl.num, w.toNat, i)] := by
  induction l with
  | nil => cases hl
  | cons r l ih =>
    obtain ⟨hr, hnl⟩ := List.nodup_cons.1 hn
    by_cases hrs : r = sl
    · subst hrs
      have habs : ∀ p ∈ l, h.testBit p.num = false := fun p hp => by
        rw [hb]
        exact decide_eq_false fun e => hr (e ▸ hp)
      have hext : (if e.isSome then some (BitVec.ofNat 32 (s.codeWord false (pa + 4))) else none) = e := by
        cases e with
        | none => rfl
        | some x => simp [State.codeWord, he x rfl]
      have hcw : s.codeWord false pa = w.toNat := hw
      rw [State.fetchSyls, if_pos (by simp [hb])]
      simp only [hx, hext, hcw, BitVec.ofNat_toNat, BitVec.setWidth_eq, hd, fetchSyls_absent habs]
    · rw [State.fetchSyls, if_neg (by simp [hb, hrs])]
      exact ih ((List.mem_cons.1 hl).resolve_left (Ne.symm hrs)) hnl

/-! ## A target that is a multiple of 4 (R32) -/

theorem ofNat_bitsOf (w : Word32) (lo n : Nat) : BitVec.ofNat n (bitsOf w.toNat lo n) = fld w lo n := by
  apply BitVec.eq_of_toNat_eq
  rw [fld_toNat, bitsOf, BitVec.toNat_ofNat, Nat.mod_mod, Nat.shiftRight_eq_div_pow]

section
variable {w : Word32} {e : Option Word32} {i : Instr}

theorem decodeSyl_b_br (h : decodeSyl .b w e = .ok i) (ho : w.toNat / 2 ^ 26 = 1) : i = .br (guardOf w) (fld w 10 6) (fld w 4 6) := by
  have hd := (decodeSyl_ok h).1
  rw [ho] at hd
  exact (keep_eq_some.1 hd).2.symm

theorem decodeSyl_b_ret (h : decodeSyl .b w e = .ok i) (ho : w.toNat / 2 ^ 26 = 4) : i = .ret (guardOf w) (fld w 10 6) := by
  have hd := (decodeSyl_ok h).1
  rw [ho] at hd
  exact (keep_eq_some.1 hd).2.symm

end

section
variable {s : State} {c : Nat} {h : Head} {sl : Slot} {w : Word32} {e : Option Word32} {i : Instr}
  (hb : ∀ r : Slot, h.word.testBit r.num = decide (r = sl)) (hd : decodeSyl sl w e = .ok i)
include hb

theorem slotB_of_ne (hsl : sl ≠ .b) : s.slotB h = none := by
  have h0 : h.word.testBit 0 = false := (hb .b).trans (decide_eq_false hsl.symm)
  simp [State.slotB, h0]

theorem slotB_of_b (hsl : sl = .b) (hh : h.host = false) (ha : h.at' / 4 % 16 < 15) (hw : rdNum s.mem (h.pa + 4) 4 = w.toNat) :
    s.slotB h = some w.toNat := by
  have h0 : h.word.testBit 0 = true := (hb .b).trans (decide_eq_true hsl.symm)
  rw [State.slotB, if_pos (by simp [h0, ha]), hh]
  exact congrArg some hw

include hd

/-- A bundle of one syllable raises no ILL_TARGET when the target of its BR or RET is a multiple of 4. -/
theorem earlyTarget_of_aligned (hh : h.host = false) (ha : h.at' / 4 % 16 < 15) (hw : rdNum s.mem (h.pa + 4) 4 = w.toNat)
    (hbr : ∀ g x y, i = .br g x y → ((s.mcAt (s.coreAt c).mc).codebase.toNat + ((s.coreAt c).now.rdS x).toNat
      + ((s.coreAt c).now.rdS y).toNat) % 4 = 0)
    (hret : ∀ g x, i = .ret g x → ((s.mcAt (s.coreAt c).mc).codebase.toNat + ((s.coreAt c).now.rdS x).toNat) % 4 = 0) :
    s.earlyTarget c h = false := by
  by_cases hsl : sl = .b
  · rw [State.earlyTarget, slotB_of_b hb hsl hh ha hw]
    subst hsl
    simp only [ofNat_bitsOf]
    by_cases h1 : w.toNat / 2 ^ 26 = 1
    · have ht := hbr _ _ _ (decodeSyl_b_br hd h1)
      simp only [h1, if_true, ht, bne_self_eq_false, Bool.and_false]
    · by_cases h4 : w.toNat / 2 ^ 26 = 4
      · have ht := hret _ _ (decodeSyl_b_ret hd h4)
        simp only [h4, if_true, Nat.reduceEqDiff, if_false, ht, bne_self_eq_false, Bool.and_false]
      · simp only [h1, h4, if_false, Nat.zero_mod, bne_self_eq_false, Bool.and_false]
  · simp [State.earlyTarget, slotB_of_ne hb hsl]

end

/-- The fetch of a good header with one slot present. -/
theorem fetchAt_one {s s1 : State} {c k va pa sk : Nat} {sl : Slot} {w : Word32} {e : Option Word32} {i : Instr}
    (hva : va % 4 = 0) (hat : s.codeAt c va = (.ok (false, pa), s1)) (hk : sk < 16)
    (hh : rdNum s1.mem pa 4 = slotBits sl e.isSome + sk * 2 ^ 16) (hw : rdNum s1.mem (pa + 4) 4 = w.toNat)
    (he : ∀ x, e = some x → rdNum s1.mem (pa + 8) 4 = x.toNat) (hroom : va / 4 % 16 + (if e.isSome then 3 else 2) ≤ 16)
    (hd : decodeSyl sl w e = .ok i) (hdel : sl = .b → (s1.coreAt c).now.delay = true → delayOp w.toNat = false)
    (hearly : s1.earlyTarget c ⟨va, false, pa, slotBits sl e.isSome + sk * 2 ^ 16⟩ = false) :
    s.fetchAt c (k + 1) va = ((va, .ok ⟨va, sk, (va + 4 * (if e.isSome then 3 else 2)) % 2 ^ 72, [(sl.num, w.toNat, i)]⟩), s1) := by
  have hhead : s.fetchHead c (k + 1) va = ((va, .ok ⟨va, false, pa, slotBits sl e.isSome + sk * 2 ^ 16⟩), s1) := by
    have hcw : s1.codeWord false pa = slotBits sl e.isSome + sk * 2 ^ 16 := hh
    simp only [State.fetchHead, hat, hva, hcw, if_neg (header_ne_lineEnd sl e.isSome hk)]
    rfl
  have hb : ∀ r : Slot, (slotBits sl e.isSome + sk * 2 ^ 16).testBit r.num = decide (r = sl) := fun r => by
    rw [testBit_header _ _ (by have := num_lt r; omega), testBit_slotBits]
  have hx : (slotBits sl e.isSome + sk * 2 ^ 16).testBit (8 + sl.num) = e.isSome := by
    rw [testBit_header _ _ (by have := num_lt sl; omega), testBit_extBit]
  have hbad : s1.bundleBad c ⟨va, false, pa, slotBits sl e.isSome + sk * 2 ^ 16⟩ = none := by
    rw [State.bundleBad, headerBad_header sl e.isSome hk hroom]
    by_cases hsl : sl = .b
    · have hlt : va / 4 % 16 < 15 := by split at hroom <;> omega
      rw [slotB_of_b hb hsl rfl hlt hw]
      have := hdel hsl
      simpa using this
    · rw [slotB_of_ne hb hsl]
      simp
  have hsyls : s1.fetchSyls false (slotBits sl e.isSome + sk * 2 ^ 16) (pa + 4) slotList = .ok [(sl.num, w.toNat, i)] :=
    fetchSyls_one (by cases sl <;> decide) (by decide) hb hx hw he hd
  simp only [State.fetchAt, hhead, hearly, hbad, hsyls, sk_header sl e.isSome hk, headerWords_header]
  rfl

theorem codeAt_device {s s1 : State} {c va pa : Nat}
    (h : s.xlateDo (s.fetcher c) (s.coreAt c).mc 0 va .execute = (.ok false pa, s1)) (hp : s1.poisoned (pa / 64 * 64) 64 = false) :
    s.codeAt c va = (.ok (false, pa), (s1.commitBut c none (pa / 64 * 64) 64).viaCache (pa / 64 * 64) 64 false) := by
  simp [State.codeAt, h, State.codeLine, hp]

/-! ## A translation leaves the micro-context of a core (R423) -/

theorem mc_checkpoint (s : State) (c d : Nat) : ((s.checkpoint d).coreAt c).mc = (s.coreAt c).mc := by
  rw [State.checkpoint, State.onCoreAt, State.coreAt_setCoreAt]
  split
  case isTrue h => rw [h]
  case isFalse => rfl

theorem mc_commitBut (s : State) (c d : Nat) (cl : Option Nat) (pa n : Nat) : ((s.commitBut d cl pa n).coreAt c).mc = (s.coreAt c).mc :=
  List.foldlRecOn (motive := fun t : State => (t.coreAt c).mc = (s.coreAt c).mc) _ _ rfl fun _ ht _ _ => (mc_checkpoint _ _ _).trans ht

theorem mc_commitAll (c : Nat) (l : List (Nat × Nat)) : ∀ s : State, ((s.commitAll l).coreAt c).mc = (s.coreAt c).mc := by
  induction l with
  | nil => exact fun _ => rfl
  | cons x l ih => exact fun s => (ih _).trans (mc_commitBut ..)

theorem cores_setAD (s : State) (w : Who) (mc key va : Nat) (kind : Acc) (l : Option (Nat × Nat)) :
    (s.setAD w mc key va kind l).cores = s.cores := by
  unfold State.setAD
  split
  · rfl
  · dsimp only
    split <;> rfl

theorem mc_xlateDo (s : State) (w : Who) (mc key va : Nat) (kind : Acc) (c : Nat) :
    ((s.xlateDo w mc key va kind).2.coreAt c).mc = (s.coreAt c).mc := by
  unfold State.xlateDo
  dsimp only
  split
  · rw [State.coreAt, cores_setAD]
    exact mc_commitAll c _ s
  · exact mc_commitAll c _ s

theorem codeAt_host {s s1 : State} {c va pa : Nat}
    (h : s.xlateDo (s.fetcher c) (s.coreAt c).mc 0 va .execute = (.ok true pa, s1))
    (hp : ∀ e ∈ (s1.hostLink (s.coreAt c).mc false (pa / 64 * 64) 64).hostErr, e.1 ≠ pa / 65536) :
    s.codeAt c va = (.ok (true, pa), s1.hostLink (s.coreAt c).mc false (pa / 64 * 64) 64) := by
  have hf : (s1.hostLink (s.coreAt c).mc false (pa / 64 * 64) 64).hostErr.find? (fun e => e.1 = pa / 65536) = none :=
    List.find?_eq_none.2 fun e he => by simpa using hp e he
  have hm : (s1.coreAt c).mc = (s.coreAt c).mc := by
    have := mc_xlateDo s (s.fetcher c) (s.coreAt c).mc 0 va .execute c
    rwa [h] at this
  simp only [State.codeAt, h, State.codeLine, hm, hf]

/-- Settles O8: the header has the bits of one slot, so that one syllable is decoded. -/
theorem fetchReadsSyllable : Obligations.FetchReadsSyllable := by
  refine ⟨fun s s1 c k va pa sk sl w e i hva hat hk hh hw he hroom hd hdel hbr hret => ?_, fun s s1 c va pa => codeAt_device,
    fun s s1 c va pa => codeAt_host⟩
  have hword : rdNum s1.mem pa 4 = slotBits sl e.isSome + sk * 2 ^ 16 := hh
  refine fetchAt_one hva hat hk hword hw he hroom hd hdel (earlyTarget_of_aligned (fun r => ?_) hd rfl ?_ hw hbr hret)
  · rw [testBit_header _ _ (by have := num_lt r; omega), testBit_slotBits]
  · change va / 4 % 16 < 15
    split at hroom <;> omega

end Sys2Proof
end

