-- ==== Sys2Proof/Proofs/StepRuns.lean ====
section
/-!
PROOFS. A step of a core as the execution of the fetched syllable (R27, R32, R36, R482; O7): one lemma for each stage of the core's cycle.
-/
namespace Sys2Proof
open Machine Claim
set_option Elab.async false

/-- The sequencer of core `c` stands at bundle `b` and knows what follows it. -/
def standsAt (s : State) (c : Nat) (b : Bundle) : State :=
  s.onCoreAt c (fun x => { x with bnext := BitVec.ofNat 72 b.next, bsk := b.sk, now := { x.now with pc := BitVec.ofNat 72 b.at' } })

section
variable {s : State} {c : Nat} {b : Bundle} {n w : Nat} {i : Instr}

theorem atBundle_eq : atBundle s c b = { standsAt s c b with checked := false } := rfl

/-! ## The issue of a bundle of one syllable -/

/-- One syllable counts once. -/
theorem ctrOver_one (a : Arch) {y : Nat × Nat × Instr} (h : b.syls = [y]) : ctrOver a b = false := by
  have hl (p : Nat × Nat × Instr → Bool) : ¬ (List.filter p [y]).length ≥ 2 := by
    have := List.length_filter_le p [y]
    simp only [List.length_cons, List.length_nil] at this
    omega
  simp only [ctrOver, h, hl, decide_false, Bool.and_false, List.any_cons, List.any_nil, Bool.or_false]

/-- The checks of one syllable outside a delay bundle are its execution. -/
theorem checkSyls_one {a : Arch} {u : State} (hx : a.xfer = none) (he : exec i s = .next u) (hv : u.verdict = .issued) :
    s.checkSyls a [(n, w, i)] = (none, []) := by
  have hd : suspDelayBad a (n, w, i) = false := by simp [suspDelayBad, hx]
  simp [State.checkSyls, hd, he, hv]

theorem issueBundle_one {t : State} (hb : b.syls = [(n, w, i)]) (he : exec i (issuing s c b) = .next t) :
    (standsAt s c b).issueBundle c b = { t with checked := false } := by
  have hs : { ((standsAt s c b).onCoreAt c (fun x => { x with bnext := BitVec.ofNat 72 b.next, bsk := b.sk, loop0 := none })).onArchAt c
      (fun a => { a with pc := BitVec.ofNat 72 b.at', started := none }) with checked := true } = issuing s c b := rfl
  simp only [State.issueBundle, hb, List.isEmpty_cons, Bool.false_eq_true, if_false, List.map_cons, List.map_nil, State.runAll, hs, he]

theorem advance_running (s : State) (c : Nat) (b : Bundle) : ((s.advance c b).coreAt c).running = (s.coreAt c).running := by
  rw [State.advance, State.coreAt_setCoreAt_self]

/-- What the issue of a bundle comes to that nothing traps, stalls or holds back. -/
theorem issueBody_one {u t : State} (hb : b.syls = [(n, w, i)]) (hx : ((s.hurryFor c b).coreAt c).now.xfer = none)
    (hn : ((s.hurryFor c b).coreAt c).now.noStep = false) (hu : exec i (atBundle (s.hurryFor c b) c b) = .next u) (hv : u.verdict = .issued)
    (ht : exec i (issuing (s.hurryFor c b) c b) = .next t) (hq : (t.coreAt c).now.queued ≤ 64)
    (hh : (atBundle (s.hurryFor c b) c b).heldBack c b = false) (hr : (t.coreAt c).running = true) :
    s.issueBody c b = (({ t with checked := false } : State).advance c b).cycleEnd c true := by
  have hchk : ({ standsAt (s.hurryFor c b) c b with checked := false } : State).checkSyls ((s.hurryFor c b).coreAt c).now b.syls
      = (none, []) := by
    rw [hb]
    exact checkSyls_one hx hu hv
  have hheld : (standsAt (s.hurryFor c b) c b).heldBack c b = false := hh
  have hrun : ((({ t with checked := false } : State).advance c b).coreAt c).running = true := (advance_running _ c b).trans hr
  have hq' : ¬ (State.coreAt { t with checked := false } c).now.queued > 64 := Nat.not_lt.2 hq
  have hs : (s.hurryFor c b).onCoreAt c (fun x => { x with
      bnext := BitVec.ofNat 72 b.next, bsk := b.sk, now := { x.now with pc := BitVec.ofNat 72 b.at' } }) = standsAt (s.hurryFor c b) c b := rfl
  simp only [State.issueBody, hs, hchk, issueBundle_one hb ht, ctrOver_one _ hb, hq', hheld, hx, hn, hrun,
    Bool.false_eq_true, if_false, if_true, Option.isSome_none, List.isEmpty_nil, Bool.not_true, Bool.not_false, Bool.and_self]

/-! ## The cycle of a core at rest -/

theorem lateLink_of_none (hx : (s.coreAt c).now.xfer = none) : s.lateLink c b = s := by
  simp only [State.lateLink, hx]

theorem yieldEnd_of_none (hx : (s.coreAt c).now.xfer = none) : s.yieldEnd c = s := by
  simp only [State.yieldEnd, hx]

/-- The fetch of a core whose sequencer stands at the next bundle. -/
theorem issueCycle_fetched {s1 : State} {va : Nat} (hw : (s.coreAt c).now.fwait = .none) (ht : (s.coreAt c).now.entryTile = none)
    (hp : (s.coreAt c).now.past = false) (hq : (s.coreAt c).now.passTo = none)
    (hf : s.fetchAt c fetchFuel (s.coreAt c).now.pc.toNat = ((va, .ok b), s1)) :
    s.issueCycle c = ((s1.onArchAt c (fun a => { a.arrive false va with fwait := .none })).lateLink c b).issueBody c b := by
  have hn : s.fetchNext c = ((va, .ok b), s1) := by
    simp only [State.fetchNext, hq, hp, Bool.false_eq_true, if_false]
    exact hf
  simp only [State.issueCycle, hw, ht, hn, Bool.false_eq_true, if_false]

/-- A core at rest spends its cycle on the bundle that it fetches. -/
theorem coreCycleGo_ready {s0 : State} (h0 : s0 = { s with cur := c, checked := false }) (hr : (s0.coreAt c).running = true)
    (hst : (s0.coreAt c).stop = none) (hl : (s0.coreAt c).late = []) (hx : (s0.coreAt c).now.xfer = none) (hk : (s0.coreAt c).now.sk = 0) :
    s.coreCycleGo c = s0.issueCycle c := by
  have hy := yieldEnd_of_none hx
  subst h0
  simp only [State.coreCycleGo, hy, hr, hst, hl, hx, hk]
  rfl

theorem coreCycle_due (hr : (s.coreAt c).running = true) (hc : (s.coreAt c).cyc = (s.clusterAt (clusterOfCore c)).cyc) :
    s.coreCycle c = (s.coreCycleGo c).yieldEnd c := by
  simp [State.coreCycle, hr, hc]

theorem step_core {r : List Move} (hi : s.inbox = .core c :: r) (hp : s.phase = .ready) :
    step s = .next (State.coreCycle { s with inbox := r } c) := by
  simp only [step, hi, State.move, hp, Phase.lets, Bool.not_true, Bool.false_eq_true, if_false]

end

/-- Settles O7: the stages of the cycle put together. -/
theorem stepRunsSyllable : Obligations.StepRunsSyllable := by
  intro s s1 t u c va r b n w i hi hp hready hf hx1 hb s2 hx2 hn hu hv ht hq hh hr
  obtain ⟨hrun, hcyc, hlate, hstop, hxfer, hsk, hstall, hfw, het, hpast, hpass⟩ := hready
  have harr : ((s1.onArchAt c (fun a => { a.arrive false va with fwait := .none })).coreAt c).now.xfer = none := by
    rw [State.onArchAt, State.onCoreAt, State.coreAt_setCoreAt_self]
    exact hx1
  have hgo : State.coreCycleGo { s with inbox := r } c = (({ t with checked := false } : State).advance c b).cycleEnd c true := by
    rw [coreCycleGo_ready (s0 := { s with inbox := r, cur := c, checked := false }) rfl hrun hstop hlate hxfer hsk,
      issueCycle_fetched (s := { s with inbox := r, cur := c, checked := false }) hfw het hpast hpass hf, lateLink_of_none harr]
    exact issueBody_one hb hx2 hn hu hv ht hq hh hr
  rw [step_core hi hp, coreCycle_due (s := { s with inbox := r }) hrun hcyc, hgo]

end Sys2Proof
end

