-- ==== Sys2Proof/Proofs/TileStores.lean ====
section
/-!
PROOFS. Where the bytes of a tile stand (R217), and one step of a counted store to a CLUS tile (R250, R270).
-/
namespace Sys2Proof
open Machine Claim
set_option Elab.async false

/-! ## Addresses of tile bytes (R217) -/

theorem rb_le_rs (d : TDesc) : d.rb ≤ d.rs := by
  rw [TDesc.rs]
  omega

/-- A pair of a quotient by `n` and a rest is determined by its number. -/
theorem mul_add_inj {n p q i j : Nat} (hi : i < n) (hj : j < n) (h : p * n + i = q * n + j) : p = q ∧ i = j := by
  have hn : 0 < n := by omega
  have hp : p = q := by
    have hd := congrArg (· / n) h
    simp only [Nat.add_comm (_ * n), Nat.add_mul_div_right _ _ hn, Nat.div_eq_of_lt hi, Nat.div_eq_of_lt hj, Nat.zero_add] at hd
    exact hd
  subst hp
  exact ⟨rfl, by omega⟩

theorem privAddr_inj {d : TDesc} {r q i j : Nat} (hi : i < d.rb) (hj : j < d.rb) (h : d.privAddr r i = d.privAddr q j) : r = q ∧ i = j := by
  have hrs := rb_le_rs d
  rw [TDesc.privAddr, TDesc.privAddr] at h
  exact mul_add_inj (n := d.rs) (by omega) (by omega) (by omega)

/-- The bytes of row group `r / 16` lie below the end of the tile. -/
theorem clusOffset_lt {d : TDesc} {r i : Nat} (hr : r < d.rows) (hi : i < d.rb)
    (hb : 256 * d.base.toNat + (d.rows + 15) / 16 * d.rs ≤ 2 ^ 19) : 256 * d.base.toNat + r / 16 * d.rs + i < 2 ^ 19 := by
  have hrs := rb_le_rs d
  have hm : (r / 16 + 1) * d.rs ≤ (d.rows + 15) / 16 * d.rs := Nat.mul_le_mul_right _ (by omega)
  rw [Nat.add_mul, Nat.one_mul] at hm
  omega

theorem clusAddr_inj {d : TDesc} {r q i j : Nat} (hr : r < d.rows) (hq : q < d.rows) (hi : i < d.rb) (hj : j < d.rb)
    (hb : 256 * d.base.toNat + (d.rows + 15) / 16 * d.rs ≤ 2 ^ 19) (h : d.clusAddr r i = d.clusAddr q j) : r = q ∧ i = j := by
  have hrs := rb_le_rs d
  rw [TDesc.clusAddr, TDesc.clusAddr] at h
  obtain ⟨hs, ho⟩ := mul_add_inj (n := 2 ^ 19) (p := (d.tti.toNat + r) % 16) (q := (d.tti.toNat + q) % 16)
    (clusOffset_lt hr hi hb) (clusOffset_lt hq hj hb) (by simpa only [Nat.add_assoc] using h)
  obtain ⟨hg, hij⟩ := mul_add_inj (n := d.rs) (p := r / 16) (q := q / 16) (i := i) (j := j) (by omega) (by omega) (by omega)
  exact ⟨by omega, hij⟩

/-- The addresses of a stretch of a row are those of its bytes. -/
theorem clusAddr_mem_range {d : TDesc} {row lo n r i : Nat} (hrow : row < d.rows) (hr : r < d.rows) (hn : lo + n ≤ d.rb) (hi : i < d.rb)
    (hb : 256 * d.base.toNat + (d.rows + 15) / 16 * d.rs ≤ 2 ^ 19) :
    d.clusAddr row lo ≤ d.clusAddr r i ∧ d.clusAddr r i < d.clusAddr row lo + n ↔ row = r ∧ lo ≤ i ∧ i < lo + n := by
  constructor
  · intro ⟨h1, h2⟩
    have he : d.clusAddr r i = d.clusAddr row (lo + (d.clusAddr r i - d.clusAddr row lo)) := by
      simp only [TDesc.clusAddr] at h1 ⊢
      omega
    obtain ⟨hrr, hii⟩ := clusAddr_inj hr hrow hi (by omega) hb he
    exact ⟨hrr.symm, by omega, by omega⟩
  · rintro ⟨rfl, h1, h2⟩
    simp only [TDesc.clusAddr]
    omega

theorem clusAddr_sub {d : TDesc} {r lo i : Nat} : d.clusAddr r i - d.clusAddr r lo = i - lo := by
  simp only [TDesc.clusAddr]
  omega

theorem privAddr_mem_range {d : TDesc} {row lo n r i : Nat} (hn : lo + n ≤ d.rb) (hi : i < d.rb) :
    d.privAddr row lo ≤ d.privAddr r i ∧ d.privAddr r i < d.privAddr row lo + n ↔ row = r ∧ lo ≤ i ∧ i < lo + n := by
  constructor
  · intro ⟨h1, h2⟩
    have he : d.privAddr r i = d.privAddr row (lo + (d.privAddr r i - d.privAddr row lo)) := by
      simp only [TDesc.privAddr] at h1 ⊢
      omega
    obtain ⟨hrr, hii⟩ := privAddr_inj hi (by omega) he
    exact ⟨hrr.symm, by omega, by omega⟩
  · rintro ⟨rfl, h1, h2⟩
    simp only [TDesc.privAddr]
    omega

/-! ## Writes of a row of a CLUS tile -/

/-- `u` is `s` but for the CLUS bytes and the undo entries of the cores. -/
def TilesOnly (s u : State) : Prop :=
  u.ops = s.ops ∧ u.mem = s.mem ∧ u.host = s.host ∧ ∀ d, ∃ l, u.coreAt d = { s.coreAt d with undo := l }

/-- The byte that the last of the writes `ws` that covers byte `i` of row `r` gives, if one does. -/
def lastWrite (ws : List (Nat × Nat × List Byte)) (r i : Nat) : Option Byte :=
  (ws.reverse.find? (fun z => z.1 = r ∧ z.2.1 ≤ i ∧ i < z.2.1 + z.2.2.length)).map (fun z => z.2.2.getD (i - z.2.1) 0)

section
variable {s u v : State} {c slot row lo : Nat} {tent now' : Bool} {d : TDesc} {bs : List Byte}

theorem TilesOnly.refl (s : State) : TilesOnly s s := ⟨rfl, rfl, rfl, fun _ => ⟨_, rfl⟩⟩

theorem TilesOnly.trans (h : TilesOnly s u) (h' : TilesOnly u v) : TilesOnly s v := by
  obtain ⟨ho, hm, hh, hc⟩ := h
  obtain ⟨ho', hm', hh', hc'⟩ := h'
  refine ⟨ho'.trans ho, hm'.trans hm, hh'.trans hh, fun d => ?_⟩
  obtain ⟨l, hl⟩ := hc d
  obtain ⟨l', hl'⟩ := hc' d
  exact ⟨l', by rw [hl', hl]⟩

theorem TilesOnly.sameMem (h : TilesOnly s u) : SameMem s u := by
  obtain ⟨-, hm, hh, -⟩ := h
  intro a
  rw [hm, hh]
  exact ⟨rfl, rfl⟩

theorem TilesOnly.now (h : TilesOnly s u) (c : Nat) : (u.coreAt c).now = (s.coreAt c).now := by
  obtain ⟨l, hl⟩ := h.2.2.2 c
  rw [hl]

theorem TilesOnly.onItsCore (h : TilesOnly s u) (o : Op) : u.onItsCore o = s.onItsCore o := by
  obtain ⟨l, hl⟩ := h.2.2.2 o.core
  simp only [State.onItsCore, hl]

theorem tilesOnly_undoClus (s : State) (c a n : Nat) : TilesOnly s (s.undoClus c a n) := by
  refine ⟨rfl, rfl, rfl, fun d => ?_⟩
  simp only [State.undoClus, State.onCoreAt, State.coreAt_setCoreAt]
  split
  case isTrue h => subst h; exact ⟨_, rfl⟩
  case isFalse => exact ⟨_, rfl⟩

theorem tilesOnly_tileWr (hd : d.clus = true) : TilesOnly s (s.tileWr c d row lo bs) := by
  rw [State.tileWr, if_pos hd]
  exact ⟨rfl, rfl, rfl, fun _ => ⟨_, rfl⟩⟩

theorem tilesOnly_tilePut (hd : d.clus = true) : TilesOnly s (s.tilePut c slot tent now' d row lo bs) := by
  unfold State.tilePut
  generalize (if row < d.rows then bs.take (d.rb - lo) else []) = bs'
  dsimp only
  split
  · exact .refl s
  · split
    · exact (tilesOnly_undoClus s _ _ _).trans (tilesOnly_tileWr hd)
    · exact tilesOnly_tileWr hd

theorem clus_tileWr (hd : d.clus = true) :
    ((s.tileWr c d row lo bs).clusterAt (clusterOfCore c)).clus = wrBytes (s.clusterAt (clusterOfCore c)).clus (d.clusAddr row lo) bs := by
  rw [State.tileWr, if_pos hd, State.clusterAt_setCluster, if_pos rfl]

/-- What a write puts at a byte of the tile; bytes beyond the row are not written. -/
theorem rdByte_tilePut {r i : Nat} (hd : d.clus = true) (hr : r < d.rows) (hi : i < d.rb)
    (hb : 256 * d.base.toNat + (d.rows + 15) / 16 * d.rs ≤ 2 ^ 19) :
    rdByte ((s.tilePut c slot tent now' d row lo bs).clusterAt (clusterOfCore c)).clus (d.clusAddr r i) =
      if row = r ∧ lo ≤ i ∧ i < lo + bs.length then bs.getD (i - lo) 0
      else rdByte (s.clusterAt (clusterOfCore c)).clus (d.clusAddr r i) := by
  unfold State.tilePut
  by_cases hrow : row < d.rows
  · simp only [if_pos hrow]
    by_cases he : (bs.take (d.rb - lo)).isEmpty = true
    · rw [if_pos he, if_neg]
      rintro ⟨-, h1, h2⟩
      have := congrArg List.length (List.isEmpty_iff.1 he)
      simp only [List.length_take, List.length_nil] at this
      omega
    · have hne : (bs.take (d.rb - lo)).length ≠ 0 := fun h => he (List.isEmpty_iff.2 (List.length_eq_zero_iff.1 h))
      have hlen := List.length_take (i := d.rb - lo) (l := bs)
      have hclus (t : State) (ht : t.clusters = s.clusters) : rdByte ((t.tileWr c d row lo (bs.take (d.rb - lo))).clusterAt
          (clusterOfCore c)).clus (d.clusAddr r i) = if row = r ∧ lo ≤ i ∧ i < lo + bs.length then bs.getD (i - lo) 0
          else rdByte (s.clusterAt (clusterOfCore c)).clus (d.clusAddr r i) := by
        have hq : t.clusterAt (clusterOfCore c) = s.clusterAt (clusterOfCore c) := by rw [State.clusterAt, ht]; rfl
        rw [clus_tileWr hd, hq, rdByte_wrBytes]
        simp only [clusAddr_mem_range (lo := lo) (n := (bs.take (d.rb - lo)).length) hrow hr (by omega) hi hb]
        by_cases hin : row = r ∧ lo ≤ i ∧ i < lo + bs.length
        · obtain ⟨rfl, h1, h2⟩ := hin
          rw [if_pos ⟨rfl, h1, by omega⟩, if_pos ⟨rfl, h1, h2⟩, clusAddr_sub]
          simp only [List.getD_eq_getElem?_getD, List.getElem?_take]
          rw [if_pos (by omega)]
        · rw [if_neg hin, if_neg fun h => hin ⟨h.1, h.2.1, by omega⟩]
      rw [if_neg he, if_pos hd]
      split
      · exact hclus _ rfl
      · exact hclus _ rfl
  · simp only [if_neg hrow, List.isEmpty_nil, if_true]
    rw [if_neg (by rintro ⟨rfl, -, -⟩; exact hrow hr)]

end

section
variable {s : State} {c slot : Nat} {tent : Bool} {d : TDesc}

theorem tilesOnly_tilePuts (hd : d.clus = true) (ws : List (Nat × Nat × List Byte)) :
    TilesOnly s (ws.foldl (fun s w => s.tilePut c slot tent true d w.1 w.2.1 w.2.2) s) :=
  List.foldlRecOn (motive := TilesOnly s) _ _ (.refl s) fun _ hu _ _ => hu.trans (tilesOnly_tilePut hd)

/-- Writes one after another: the last one that covers a byte gives it. -/
theorem rdByte_tilePuts {r i : Nat} (hd : d.clus = true) (hr : r < d.rows) (hi : i < d.rb)
    (hb : 256 * d.base.toNat + (d.rows + 15) / 16 * d.rs ≤ 2 ^ 19) (ws : List (Nat × Nat × List Byte)) :
    rdByte ((ws.foldl (fun s w => s.tilePut c slot tent true d w.1 w.2.1 w.2.2) s).clusterAt (clusterOfCore c)).clus (d.clusAddr r i) =
      (lastWrite ws r i).getD (rdByte (s.clusterAt (clusterOfCore c)).clus (d.clusAddr r i)) := by
  induction ws using List.reverseRecOn with
  | nil => rfl
  | append_singleton ws w ih =>
    simp only [List.foldl_append, List.foldl_cons, List.foldl_nil]
    rw [rdByte_tilePut hd hr hi hb, ih]
    by_cases hw : w.1 = r ∧ w.2.1 ≤ i ∧ i < w.2.1 + w.2.2.length
    · simp [lastWrite, hw]
    · simp [lastWrite, hw]

end

/-! ## Operations by their numbers -/

theorem opAt_dropOp (s : State) (id : Nat) : (s.dropOp id).opAt id = none := by
  simp [State.opAt, State.dropOp]

/-- An operation that is there stands for its number once it has been set. -/
theorem opAt_setOp {s : State} {o p : Op} (h : s.opAt p.id = some o) : (s.setOp p).opAt p.id = some p := by
  simp only [State.opAt, State.setOp] at h ⊢
  generalize s.ops = ops at h ⊢
  induction ops with
  | nil => cases h
  | cons x l ih =>
    simp only [List.map_cons, List.find?_cons] at h ⊢
    by_cases hx : x.id = p.id
    · simp [hx]
    · simp only [hx, if_false, decide_false] at h ⊢
      exact ih h

/-! ## One 64-byte unit (R250) -/

theorem unitWrites_ne_nil {o : Op} (h : o.index < o.tileWrites.length) : o.unitWrites ≠ [] := by
  unfold Op.unitWrites
  split
  case h_1 e =>
    have := List.drop_eq_nil_iff.1 e
    omega
  case h_2 => exact List.cons_ne_nil _ _

theorem mem_tileWrites {o : Op} {z : Nat × Nat × List Byte} (h : z ∈ o.unitWrites) : z ∈ o.tileWrites := by
  unfold Op.unitWrites at h
  split at h
  case h_1 => cases h
  case h_2 w r e =>
    refine List.mem_of_mem_drop (i := o.index) ?_
    rw [e]
    rcases List.mem_cons.1 h with h | h
    · exact h ▸ List.mem_cons_self
    · exact List.mem_cons_of_mem _ ((List.takeWhile_sublist _).subset h)

/-- A step of a counted store performs one unit of it, when what follows the last unit only touches the operation and its core. -/
theorem storesUnit_tileUnit {s : State} {o : Op} {slot : Nat} {fin : State → State} {f : Arch → Arch} (ho : s.opAt o.id = some o)
    (hd : o.tile.clus = true) (hb : 256 * o.tile.base.toNat + (o.tile.rows + 15) / 16 * o.tile.rs ≤ 2 ^ 19)
    (hfin : ∀ u, TilesOnly s u → (fin u).opAt o.id = none ∧ ((fin u).coreAt o.core).now = f (s.coreAt o.core).now ∧ SameMem u (fin u)
      ∧ (fin u).clusters = u.clusters) :
    StoresUnit s (s.tileUnit o slot fin) o f := by
  have hframe (tent : Bool) := tilesOnly_tilePuts (s := s) (c := o.core) (slot := slot) (tent := tent) hd o.unitWrites
  have hbytes (tent : Bool) {r i : Nat} (hr : r < o.tile.rows) (hi : i < o.tile.rb) :=
    rdByte_tilePuts (s := s) (c := o.core) (slot := slot) (tent := tent) hd hr hi hb o.unitWrites
  refine ⟨unitWrites_ne_nil, fun _ => mem_tileWrites, ?_⟩
  unfold State.tileUnit
  dsimp only
  generalize (s.onItsCore o && decide ((s.coreAt o.core).savedOp ≤ o.id)) = tent
  specialize hframe tent
  have hbytes {r i : Nat} (hr : r < o.tile.rows) (hi : i < o.tile.rb) := hbytes tent hr hi
  generalize (o.unitWrites.foldl (fun s w => s.tilePut o.core slot tent true o.tile w.1 w.2.1 w.2.2) s) = u at hframe hbytes ⊢
  by_cases hlast : o.tileWrites.length ≤ o.index + o.unitWrites.length
  · obtain ⟨hgone, hnow, hmem, hcl⟩ := hfin u hframe
    rw [if_pos hlast]
    refine ⟨fun a => ⟨(hmem a).1.trans (hframe.sameMem a).1, (hmem a).2.trans (hframe.sameMem a).2⟩, fun _ => ⟨hgone, .of_eq hnow⟩,
      fun h => absurd hlast (Nat.not_le.2 h), fun r i hr hi => ?_⟩
    rw [State.clusterAt, hcl]
    exact hbytes hr hi
  · rw [if_neg hlast]
    have hu : u.opAt o.id = some o := by rw [State.opAt, hframe.1]; exact ho
    exact ⟨hframe.sameMem, fun h => absurd h hlast, fun _ => ⟨opAt_setOp (p := { o with index := _ }) hu, .of_eq (hframe.now _)⟩,
      fun r i hr hi => hbytes hr hi⟩

end Sys2Proof
end

