-- ==== Sys2Proof/Proofs/CycleEnds.lean ====
section
/-!
PROOFS. What lands at the end of a core's cycle (R30, R59, R261, R270, R297, R356; O47).
-/
namespace Sys2Proof
open Machine Claim
set_option Elab.async false

section
variable {s : State} {c : Nat}

theorem now_onArchAt (s : State) (c : Nat) (f : Arch → Arch) : ((s.onArchAt c f).coreAt c).now = f (s.coreAt c).now := by
  rw [State.onArchAt, State.onCoreAt, State.coreAt_setCoreAt_self]

/-! ## Passes (R261) -/

/-- A pass that is due lands alone. -/
theorem passLands_one {p : Pass} (hp : (s.coreAt c).now.passes = [p]) (hb : p.badNow = false)
    (ha : p.acc = true → (s.coreAt c).now.accBad p.z = none) :
    s.passLands c = (s.onArchAt c (fun a => { a with passes := [], occ := a.occ - 1 })).onArchAt c (·.passEnd p) := by
  have hacc : (if p.img.isNone && p.acc && decide (p.lat ≤ p.age + 1) then
      accTrap (((s.onArchAt c (fun a => { a with passes := [], occ := a.occ - 1 })).coreAt c).now.accBad p.z) else none) = none := by
    rw [now_onArchAt]
    cases hpa : p.acc with
    | false => simp
    | true =>
      have : Arch.accBad { (s.coreAt c).now with passes := [], occ := (s.coreAt c).now.occ - 1 } p.z = none := ha hpa
      simp [this, accTrap]
  simp only [State.passLands, hp, List.foldl_cons, List.foldl_nil, hb, Bool.false_eq_true, if_false, hacc]

theorem passEnd_due {a : Arch} {p : Pass} (hl : p.age + 1 ≥ p.lat) (hi : p.img = none) :
    a.passEnd p = a.landPass p.z p.acc p.spec p.input := by
  rw [Arch.passEnd, if_neg (Nat.not_lt.2 hl), hi]

/-- The landing of a pass looks at the accumulators alone, and leaves the rest but for their flags. -/
theorem landPass_frame (a : Arch) (n : Nat) (acc spec : Bool) (p : PassIn) (l : List Pass) (k : Nat) :
    let b := Arch.landPass { a with passes := l, occ := k } n acc spec p
    b.passes = l ∧ b.occ = k ∧ b.z = (a.landPass n acc spec p).z ∧ b.zf = (a.landPass n acc spec p).zf ∧ b.s = a.s := by
  cases acc <;> exact ⟨rfl, rfl, rfl, rfl, rfl⟩

theorem passLands_lands {p : Pass} (hp : (s.coreAt c).now.passes = [p]) (hb : p.badNow = false) (hl : p.age + 1 ≥ p.lat) (hi : p.img = none)
    (ha : p.acc = true → (s.coreAt c).now.accBad p.z = none) :
    ((s.passLands c).coreAt c).now = Arch.landPass { (s.coreAt c).now with passes := [], occ := (s.coreAt c).now.occ - 1 }
      p.z p.acc p.spec p.input ∧ SameMem s (s.passLands c) := by
  rw [passLands_one hp hb ha]
  exact ⟨by rw [now_onArchAt, now_onArchAt, passEnd_due hl hi], .refl s⟩

/-! ## PRIV at the end of a cycle (R233) -/

/-- The write of `bs` to row `row` of a tile in PRIV, if there is a byte to write. -/
def privPut (d : TDesc) (slot row lo : Nat) (bs : List Byte) : List PrivWrite := if bs.isEmpty then [] else [⟨slot, d.privAddr row lo, bs⟩]

theorem now_tilePut_priv {slot row lo : Nat} {tent : Bool} {d : TDesc} {bs : List Byte} (hd : d.clus = false) (hr : row < d.rows)
    (hl : lo + bs.length ≤ d.rb) : ((s.tilePut c slot tent false d row lo bs).coreAt c).now =
      { (s.coreAt c).now with pw := (s.coreAt c).now.pw ++ privPut d slot row lo bs }
    ∧ SameMem s (s.tilePut c slot tent false d row lo bs) := by
  have ht : bs.take (d.rb - lo) = bs := List.take_of_length_le (by omega)
  simp only [State.tilePut, if_pos hr, ht, hd, privPut, Bool.false_eq_true, if_false]
  split
  · exact ⟨by rw [List.append_nil], .refl s⟩
  · exact ⟨now_onArchAt .., .refl s⟩

/-- What a write of a row puts at an address of PRIV. -/
theorem rdByte_privPut (m : SMap Byte) (d : TDesc) (slot row lo n : Nat) (bs : List Byte) :
    rdByte ((privPut d slot row lo bs).foldl (fun m w => wrBytes m w.addr w.bytes) m) n =
      if d.privAddr row lo ≤ n ∧ n < d.privAddr row lo + bs.length then bs.getD (n - d.privAddr row lo) 0 else rdByte m n := by
  cases bs with
  | nil =>
    rw [if_neg (by simp only [List.length_nil]; omega)]
    rfl
  | cons x l => exact rdByte_wrBytes m (d.privAddr row lo) (x :: l) n

theorem slot_of_mem_privPut {d : TDesc} {slot row lo : Nat} {bs : List Byte} {w : PrivWrite} (h : w ∈ privPut d slot row lo bs) :
    w.slot = slot := by
  unfold privPut at h
  split at h
  · cases h
  · rw [List.mem_singleton.1 h]

/-! ## Readouts (R270) -/

/-- The writes of the first `k` rows of a readout to PRIV. -/
def rowPuts (d : TDesc) (data : SMap Byte) (n k : Nat) : List PrivWrite :=
  (List.range k).flatMap (fun i => privPut d 4 i 0 (rdBytes data (rowKey i 0) n))

theorem rowPuts_succ (d : TDesc) (data : SMap Byte) (n k : Nat) :
    rowPuts d data n (k + 1) = rowPuts d data n k ++ privPut d 4 k 0 (rdBytes data (rowKey k 0) n) := by
  simp only [rowPuts, List.range_succ, List.flatMap_append, List.flatMap_cons, List.flatMap_nil, List.append_nil]

theorem slot_of_mem_rowPuts {d : TDesc} {data : SMap Byte} {n k : Nat} {w : PrivWrite} (h : w ∈ rowPuts d data n k) : w.slot = 4 := by
  obtain ⟨i, -, hi⟩ := List.mem_flatMap.1 h
  exact slot_of_mem_privPut hi

theorem now_rowPuts {d : TDesc} {data : SMap Byte} {n k : Nat} (hd : d.clus = false) (hn : n ≤ d.rb) (hk : k ≤ d.rows) :
    (((List.range k).foldl (fun s i => s.tilePut c 4 true false d i 0 (rdBytes data (rowKey i 0) n)) s).coreAt c).now =
      { (s.coreAt c).now with pw := (s.coreAt c).now.pw ++ rowPuts d data n k } := by
  induction k with
  | zero =>
    simp only [rowPuts, List.range_zero, List.foldl_nil, List.flatMap_nil, List.append_nil]
  | succ k ih =>
    have hl : 0 + (rdBytes data (rowKey k 0) n).length ≤ d.rb := by rw [rdBytes_length]; omega
    rw [List.range_succ, List.foldl_append, List.foldl_cons, List.foldl_nil, (now_tilePut_priv hd (by omega) hl).1, ih (by omega), rowPuts_succ,
      List.append_assoc]

theorem getD_rdBytes {m : SMap Byte} {a n j : Nat} (h : j < n) : (rdBytes m a n).getD j 0 = rdByte m (a + j) := by
  rw [rdBytes_eq]
  induction n generalizing a j with
  | zero => omega
  | succ n ih =>
    cases j with
    | zero => rfl
    | succ j =>
      rw [rdCells, List.getD_cons_succ, ih (by omega)]
      congr 1
      omega

/-- A byte of the rows is that of the readout. -/
theorem rdByte_rowPuts {m : SMap Byte} {d : TDesc} {data : SMap Byte} {n k i j : Nat} (hn : n ≤ d.rb) (hi : i < k) (hj : j < n) :
    rdByte ((rowPuts d data n k).foldl (fun m w => wrBytes m w.addr w.bytes) m) (d.privAddr i j) = rdByte data (rowKey i j) := by
  induction k with
  | zero => omega
  | succ k ih =>
    rw [rowPuts_succ, List.foldl_append, rdByte_privPut, rdBytes_length]
    simp only [privAddr_mem_range (row := k) (lo := 0) (n := n) (by omega) (Nat.lt_of_lt_of_le hj hn)]
    by_cases hk : k = i
    · subst hk
      have hs : d.privAddr k j - d.privAddr k 0 = j := by simp only [TDesc.privAddr]; omega
      rw [if_pos ⟨rfl, Nat.zero_le j, by omega⟩, hs, getD_rdBytes hj, rowKey, rowKey, Nat.add_zero]
    · rw [if_neg fun h => hk h.1]
      exact ih (by omega)

/-- Every other byte of PRIV is left alone. -/
theorem rdByte_rowPuts_ne {m : SMap Byte} {d : TDesc} {data : SMap Byte} {n k a : Nat}
    (h : ∀ i j, ¬ (i < k ∧ j < n ∧ a = d.privAddr i j)) :
    rdByte ((rowPuts d data n k).foldl (fun m w => wrBytes m w.addr w.bytes) m) a = rdByte m a := by
  induction k with
  | zero => rfl
  | succ k ih =>
    rw [rowPuts_succ, List.foldl_append, rdByte_privPut, rdBytes_length, if_neg]
    · exact ih fun i j hij => h i j ⟨by omega, hij.2⟩
    · intro hr
      refine h k (a - d.privAddr k 0) ⟨by omega, by omega, ?_⟩
      simp only [TDesc.privAddr] at hr ⊢
      omega

/-- With writes of one engine slot alone, PRIV takes them in their order. -/
theorem landPriv_of_slot {a : Arch} {k : Nat} (hk : k = 4 ∨ k = 5) (h : ∀ w ∈ a.pw, w.slot = k) :
    a.landPriv.priv = a.pw.foldl (fun m w => wrBytes m w.addr w.bytes) a.priv := by
  have hall : a.pw.filter (fun w => w.slot == k) = a.pw := List.filter_eq_self.2 fun w hw => by simp [h w hw]
  have hnone (j : Nat) (hj : j ≠ k) : a.pw.filter (fun w => w.slot == j) = [] :=
    List.filter_eq_nil_iff.2 fun w hw => by simpa [h w hw] using hj.symm
  rcases hk with rfl | rfl
  · simp only [Arch.landPriv, hall, hnone 3 (by decide), hnone 5 (by decide), List.nil_append, List.append_nil]
  · simp only [Arch.landPriv, hall, hnone 3 (by decide), hnone 4 (by decide), List.nil_append]

/-- A readout that is due leaves: its rows join the writes of the cycle, and its DOMAIN tag is in flight. -/
theorem readLands_one {r : Readout} (hr : (s.coreAt c).now.reads = [r]) (h1 : r.remain ≤ 1) (hd : r.dst.clus = false)
    (hk : r.rows ≤ r.dst.rows) (hn : r.rbytes ≤ r.dst.rb) (hp : (s.coreAt c).now.pw = []) :
    ((s.readLands c).coreAt c).now = { (s.coreAt c).now with
      reads := [], mport := (s.coreAt c).now.mport - 1, pw := rowPuts r.dst r.data r.rbytes r.rows,
      fly := (s.coreAt c).now.fly ++ [⟨1, 4, r.seq, 0, .dom r.t r.spectral⟩] } := by
  simp only [State.readLands, hr, List.foldl_cons, List.foldl_nil, if_neg (Nat.not_lt.2 h1)]
  rw [now_onArchAt, now_rowPuts hd hn hk, now_onArchAt, hp]
  rfl

/-! ## X streams (R297) -/

theorem settleClus_priv {id row lo n : Nat} {d : TDesc} (hd : d.clus = false) : s.settleClus c id d row lo n = s := by
  rw [State.settleClus, if_neg (by simp [hd])]

/-- A step without a fault writes its row; the DOMAIN tag of the last one is in flight. -/
theorem now_xPendLand {x : XStream} {p : XPend} {row lo : Nat} {bs : List Byte} (hf : p.fault = none) (hw : p.writes = [(row, lo, bs)])
    (hd : x.dst.clus = false) (hr : row < x.dst.rows) (hl : lo + bs.length ≤ x.dst.rb) :
    (∃ l, ((s.xPendLand c false x p).coreAt c).now =
      { (s.coreAt c).now with pw := (s.coreAt c).now.pw ++ privPut x.dst 5 row lo bs, fly := l }) ∧ SameMem s (s.xPendLand c false x p) := by
  have ⟨hnow, hmem⟩ := now_tilePut_priv (s := s) (c := c) (slot := 5) (tent := true) hd hr hl
  simp only [State.xPendLand, hf, hw, List.foldl_cons, List.foldl_nil, settleClus_priv hd]
  split
  · split
    · exact ⟨⟨_, hnow⟩, hmem⟩
    · exact ⟨⟨_, by rw [now_onArchAt, hnow]; rfl⟩, hmem⟩
  · exact ⟨⟨_, hnow⟩, hmem⟩

/-- The last step of a stream that has read all ends the stream. -/
theorem xLands_last {x : XStream} {p : XPend} (hx : (s.coreAt c).now.xs = [x]) (hp : x.pend = [p]) (h1 : p.remain ≤ 1) (hf : p.fault = none)
    (ha : x.reads ≤ x.age + 1) : s.xLands c = (s.onArchAt c (fun a => { a with xs := [] })).xPendLand c false x p := by
  have hreads (k : Nat) (l : List XPend) : ({ x with age := k, pend := l } : XStream).reads = x.reads := rfl
  simp [State.xLands, hx, hp, h1, hf, ha, Nat.not_lt.2 h1, hreads]

/-! ## The time stamp of a continuation (R356) -/

theorem contAt_ptsTick (s : State) (c k : Nat) : (s.ptsTick c).contAt k = if k = s.keyOf c then
    (if (s.contAt k).tick = 15 then { s.contAt k with tick := 0, pts := (s.contAt k).pts + 1 }
      else { s.contAt k with tick := (s.contAt k).tick + 1 }) else s.contAt k := by
  rw [State.ptsTick, State.onCont, State.contAt_setCont]
  split
  case isTrue h => rw [h]
  case isFalse => rfl

/-! ## The end of a counted operation on its core (R61) -/

theorem onItsCore_onOpArch (s : State) (o : Op) (f : Arch → Arch) : (s.onOpArch o f).onItsCore o = s.onItsCore o := by
  simp only [State.onItsCore, State.onOpArch, State.onCoreAt, State.coreAt_setCoreAt_self]

theorem now_onOpArch (s : State) (o : Op) (f : Arch → Arch) : ((s.onOpArch o f).coreAt o.core).now = f (s.coreAt o.core).now := by
  simp only [State.onOpArch, State.onCoreAt, State.coreAt_setCoreAt_self]

theorem writeTag_onItsCore {o : Op} (h : s.onItsCore o = true) (t : TReg) (v : Bool) :
    s.writeTag o t v = s.onOpArch o (·.wrCounted o.slot o.seq (.dom t v)) := by
  rw [State.writeTag, if_pos h]

theorem finishOp_onItsCore {o : Op} {k : Ctr} (h : s.onItsCore o = true) (hk : o.ctr = some k) :
    s.finishOp o = (s.dropOp o.id).onOpArch o (·.dec k) := by
  have hd : (s.dropOp o.id).onItsCore o = true := h
  simp only [State.finishOp, hk, hd, if_true]

/-! ## Readouts to CLUS (R270) -/

theorem tileComplete_onItsCore {o : Op} (hf : o.faulted = false) (hb : s.tileBlocked o = false) (hp : s.pathBlocked o o.tilePcs = false)
    (ht : s.tentTile o.core o.tile = none) (ho : s.onItsCore o = true) : s.tileComplete o = s.tileRun o := by
  have hc : o.carried = false := by
    simp only [State.onItsCore, Bool.and_eq_true, Bool.not_eq_true'] at ho
    exact ho.2
  simp [State.tileComplete, State.destAsleep, hf, hb, hp, ht, ho, hc]

theorem tileRun_mrd {o : Op} {g : Guard} {z : ZReg} {t : TReg} {y : SReg} {mx : Option MrdX} (hi : o.instr = .mrd g z t y mx)
    (hc : s.clusOk o.core o.mc o.bind o.tile = true) :
    s.tileRun o = s.tileUnit o 4 (fun s => (s.writeTag o t (o.st.getD 2 0 == 1)).finishOp o) := by
  simp [State.tileRun, hi, hc]

theorem storesUnit_tileRun_mrd {o : Op} {g : Guard} {z : ZReg} {t : TReg} {y : SReg} {mx : Option MrdX} (ho : s.opAt o.id = some o)
    (hk : o.kind = .readout) (hon : s.onItsCore o = true) (hi : o.instr = .mrd g z t y mx) (hd : o.tile.clus = true)
    (hc : s.clusOk o.core o.mc o.bind o.tile = true) (hb : 256 * o.tile.base.toNat + (o.tile.rows + 15) / 16 * o.tile.rs ≤ 2 ^ 19) :
    StoresUnit s (s.tileRun o) o (fun a => (a.wrCounted o.slot o.seq (.dom t (o.st.getD 2 0 == 1))).dec .tlo) := by
  have hctr : o.ctr = some .tlo := by rw [Op.ctr, hk]
  rw [tileRun_mrd hi hc]
  refine storesUnit_tileUnit ho hd hb fun u hu => ?_
  have hon' : u.onItsCore o = true := (hu.onItsCore o).trans hon
  rw [writeTag_onItsCore hon', finishOp_onItsCore (by rw [onItsCore_onOpArch, hon']) hctr]
  refine ⟨opAt_dropOp _ _, ?_, .refl u, rfl⟩
  have hdrop (v : State) : (v.dropOp o.id).coreAt o.core = v.coreAt o.core := rfl
  rw [now_onOpArch, hdrop, now_onOpArch, hu.now]

theorem tileWrites_mrd {o : Op} {g : Guard} {z : ZReg} {t : TReg} {y : SReg} {mx : Option MrdX} {rows n sp : Nat}
    (hi : o.instr = .mrd g z t y mx) (hst : o.st = [rows, n, sp]) :
    o.tileWrites = (List.range rows).flatMap (fun i => (List.range ((n + 63) / 64)).map (fun j =>
      (i, 64 * j, cutBytes o.dat (i * n + 64 * j) (min 64 (n - 64 * j))))) := by
  rw [Op.tileWrites, hi, hst]
  rfl

/-! ## The steps -/

section
variable (he : s.ending = some c)
include he

theorem exec_resultLand : Becomes (.resultLand c) s (s.onArchAt c Arch.land) := by
  change execResultLand c s = _
  rw [execResultLand, if_pos he]

theorem exec_passLanding : Becomes (.passLanding c) s (s.passLands c) := by
  change execPassLanding c s = _
  rw [execPassLanding, if_pos he]

theorem exec_mrdLanding_priv {n : Nat} (hn : s.opAt n = none) : Becomes (.mrdLanding c n) s (s.readLands c) := by
  change execMrdLanding c n s = _
  simp only [execMrdLanding, hn, if_pos he]

theorem exec_xStepLanding : Becomes (.xStepLanding c) s (s.xLands c) := by
  change execXStepLanding c s = _
  rw [execXStepLanding, if_pos he]

theorem exec_ptsTick : Becomes (.ptsTick c) s (s.ptsTick c) := by
  change execPtsTick c s = _
  rw [execPtsTick, if_pos he]

end

theorem exec_mrdLanding_clus {o : Op} (ho : s.opAt o.id = some o) (hk : o.kind = .readout) :
    Becomes (.mrdLanding c o.id) s (s.tileComplete o) := by
  change execMrdLanding c o.id s = _
  simp [execMrdLanding, ho, hk]

/-- The rows of a readout to PRIV stand in its tile. -/
theorem readLands_priv {r : Readout} (hr : (s.coreAt c).now.reads = [r]) (h1 : r.remain ≤ 1) (hd : r.dst.clus = false)
    (hk : r.rows ≤ r.dst.rows) (hn : r.rbytes ≤ r.dst.rb) (hp : (s.coreAt c).now.pw = []) (n : Nat) :
    rdByte ((s.readLands c).coreAt c).now.landPriv.priv n =
      rdByte ((rowPuts r.dst r.data r.rbytes r.rows).foldl (fun m w => wrBytes m w.addr w.bytes) (s.coreAt c).now.priv) n := by
  rw [readLands_one hr h1 hd hk hn hp, landPriv_of_slot (.inl rfl) fun w hw => slot_of_mem_rowPuts hw]

/-- The bytes of the last step of a stream to PRIV stand in their row. -/
theorem xLands_priv {x : XStream} {p : XPend} {row lo : Nat} {bs : List Byte} (hx : (s.coreAt c).now.xs = [x]) (hp : x.pend = [p])
    (h1 : p.remain ≤ 1) (hf : p.fault = none) (ha : x.reads ≤ x.age + 1) (hd : x.dst.clus = false) (hw : p.writes = [(row, lo, bs)])
    (hr : row < x.dst.rows) (hl : lo + bs.length ≤ x.dst.rb) (hpw : (s.coreAt c).now.pw = []) :
    let b := ((s.xLands c).coreAt c).now
    b.xs = [] ∧ SameMem s (s.xLands c) ∧ ∀ n, rdByte b.landPriv.priv n =
      if x.dst.privAddr row lo ≤ n ∧ n < x.dst.privAddr row lo + bs.length then bs.getD (n - x.dst.privAddr row lo) 0
      else rdByte (s.coreAt c).now.priv n := by
  have ⟨⟨l, hnow⟩, hmem⟩ := now_xPendLand (s := s.onArchAt c (fun a => { a with xs := [] })) (c := c) hf hw hd hr hl
  rw [now_onArchAt, hpw, List.nil_append] at hnow
  rw [xLands_last hx hp h1 hf ha]
  dsimp only
  rw [hnow]
  refine ⟨rfl, hmem, fun n => ?_⟩
  rw [landPriv_of_slot (.inr rfl) fun w hw => slot_of_mem_privPut hw]
  exact rdByte_privPut ..

end

/-- Settles O47: each landing step by its own lemma above. -/
theorem endsOfCycles : Obligations.EndsOfCycles := by
  unfold Obligations.EndsOfCycles
  refine ⟨fun s c he => ⟨exec_resultLand he, exec_passLanding he, ?pass, fun n hn => ⟨exec_mrdLanding_priv he hn, ?read⟩,
    exec_xStepLanding he, ?x, s.ptsTick c, exec_ptsTick he, ?pts⟩, ?clus, ?empty⟩
  case pass =>
    intro p hp hb hl hi ha
    obtain ⟨hnow, hmem⟩ := passLands_lands hp hb hl hi ha
    obtain ⟨hps, hocc, hz, hzf, hs⟩ := landPass_frame (s.coreAt c).now p.z p.acc p.spec p.input [] ((s.coreAt c).now.occ - 1)
    rw [← hnow] at hps hocc hz hzf hs
    exact ⟨_, exec_passLanding he, hps, hocc, hz, hzf, hs, hmem⟩
  case read =>
    intro r hr h1 hd hk hb hp
    have hland := readLands_one hr h1 hd hk hb hp
    refine ⟨by rw [hland], by rw [hland], ⟨_, by rw [hland], rfl⟩, ?_, ?_⟩
    · rintro n i j ⟨hi, hj, rfl⟩
      rw [readLands_priv hr h1 hd hk hb hp, rdByte_rowPuts hb hi hj]
    · intro n h
      rw [readLands_priv hr h1 hd hk hb hp, rdByte_rowPuts_ne h]
  case x =>
    intro x p row lo bs hx hp h1 hf ha hd hw hr hl hpw
    exact ⟨_, exec_xStepLanding he, xLands_priv hx hp h1 hf ha hd hw hr hl hpw⟩
  case pts =>
    simp only [contAt_ptsTick, if_true]
    refine ⟨fun h => ?_, fun h => ?_, fun j hj => if_neg hj, rfl, .refl s⟩
    · rw [if_pos h]
      exact ⟨rfl, rfl⟩
    · rw [if_neg h]
      exact ⟨rfl, rfl⟩
  case clus =>
    intro s o c ho hk hf hb hp ht hon
    have hstep : Becomes (.mrdLanding c o.id) s (s.tileRun o) := tileComplete_onItsCore hf hb hp ht hon ▸ exec_mrdLanding_clus ho hk
    refine ⟨hstep, fun g z t y mx rows n sp hi hst hd hc hfit => ⟨⟨_, hstep, ?_⟩, tileWrites_mrd hi hst⟩⟩
    have hunit := storesUnit_tileRun_mrd ho hk hon hi hd hc hfit
    rw [hst] at hunit
    exact hunit
  case empty =>
    intro s n
    refine ⟨s.setCore { s.core with bsk := n.toNat }, rfl, ?_, ?_, .refl s⟩
    · rw [State.core_setCore]
    · rw [State.arch, State.core_setCore]
      rfl

end Sys2Proof
end

