-- ==== Sys2Proof/Proofs/Rounding.lean ====
section
/-!
PROOFS. The rounding to a floating-point format (R88 to R90, R102, R105; O21). A finite rounding is `n` quanta `2 ^ q` for the integer `n`
that `roundNat` finds; all orders of magnitude are those of the rational `num / den * 2 ^ e`.
-/
namespace Sys2Proof.Machine
set_option Elab.async false

/-! ## Fractions scaled by a power of two -/

/-- The rational `num / den * 2 ^ e`. -/
def dyadic (num den : Nat) (e : Int) : ℚ := (num : ℚ) / den * 2 ^ e

theorem scale2_eq (num den : Nat) (k : Int) : scale2 num den k = (num * 2 ^ k.toNat, den * 2 ^ (-k).toNat) := by
  unfold scale2
  split
  case isTrue h => rw [show (-k).toNat = 0 by omega, Nat.pow_zero, Nat.mul_one]
  case isFalse h => rw [show k.toNat = 0 by omega, Nat.pow_zero, Nat.mul_one]

theorem two_zpow_sub_toNat (q e : Int) : (2 : ℚ) ^ (q - e).toNat * 2 ^ e = 2 ^ (e - q).toNat * 2 ^ q := by
  rw [← zpow_natCast, ← zpow_natCast, ← zpow_add₀ two_ne_zero, ← zpow_add₀ two_ne_zero]
  congr 1
  omega

section
variable {num den : Nat} (hden : 0 < den)
include hden

/-- The two sides of a comparison of `k * 2 ^ q` with a fraction, with one positive factor. -/
theorem exists_scale2 (k : Nat) (q e : Int) : ∃ c : ℚ, 0 < c ∧ ((k * (scale2 num den (e - q)).2 : Nat) : ℚ) = c * (k * 2 ^ q)
    ∧ (((scale2 num den (e - q)).1 : Nat) : ℚ) = c * dyadic num den e := by
  have hd : (den : ℚ) ≠ 0 := by exact_mod_cast hden.ne'
  have hq : (2 : ℚ) ^ q ≠ 0 := zpow_ne_zero _ two_ne_zero
  refine ⟨den * 2 ^ (q - e).toNat / 2 ^ q, by positivity, ?_, ?_⟩
  · rw [scale2_eq, Int.neg_sub]
    push_cast
    field_simp
  · rw [scale2_eq, dyadic]
    push_cast
    rw [div_mul_eq_mul_div, eq_div_iff hq, mul_assoc, ← two_zpow_sub_toNat]
    field_simp

theorem mul_scale2_le {k : Nat} {q e : Int} : k * (scale2 num den (e - q)).2 ≤ (scale2 num den (e - q)).1 ↔
    k * 2 ^ q ≤ dyadic num den e := by
  obtain ⟨c, hc, hl, hr⟩ := exists_scale2 (num := num) hden k q e
  rw [← Nat.cast_le (α := ℚ), hl, hr, mul_le_mul_iff_right₀ hc]

theorem scale2_le_mul {k : Nat} {q e : Int} : (scale2 num den (e - q)).1 ≤ k * (scale2 num den (e - q)).2 ↔
    dyadic num den e ≤ k * 2 ^ q := by
  obtain ⟨c, hc, hl, hr⟩ := exists_scale2 (num := num) hden k q e
  rw [← Nat.cast_le (α := ℚ), hl, hr, mul_le_mul_iff_right₀ hc]

theorem scale2_den_pos (k : Int) : 0 < (scale2 num den k).2 := by
  rw [scale2_eq]
  exact Nat.mul_pos hden (Nat.two_pow_pos _)

/-- The exponent that `log2Q` finds, from below and from above. -/
theorem log2Q_bounds (hnum : 0 < num) (e : Int) :
    2 ^ (log2Q num den + e) ≤ dyadic num den e ∧ dyadic num den e < 2 ^ (log2Q num den + e + 1) := by
  suffices h : 2 ^ log2Q num den ≤ dyadic num den 0 ∧ dyadic num den 0 < 2 ^ (log2Q num den + 1) by
    have he : dyadic num den e = dyadic num den 0 * 2 ^ e := by simp [dyadic]
    have h2 : (0 : ℚ) < 2 ^ e := by positivity
    rw [he, zpow_add₀ two_ne_zero, add_right_comm, zpow_add₀ two_ne_zero]
    exact ⟨mul_le_mul_of_nonneg_right h.1 h2.le, mul_lt_mul_of_pos_right h.2 h2⟩
  have hn : (2 : ℚ) ^ Nat.log2 num ≤ num ∧ (num : ℚ) < 2 ^ (Nat.log2 num + 1) :=
    ⟨by exact_mod_cast Nat.log2_self_le hnum.ne', by exact_mod_cast Nat.lt_log2_self⟩
  have hd : (2 : ℚ) ^ Nat.log2 den ≤ den ∧ (den : ℚ) < 2 ^ (Nat.log2 den + 1) :=
    ⟨by exact_mod_cast Nat.log2_self_le hden.ne', by exact_mod_cast Nat.lt_log2_self⟩
  have hd0 : (0 : ℚ) < den := by exact_mod_cast hden
  have hv : dyadic num den 0 = num / den := by simp [dyadic]
  have hlow : (2 : ℚ) ^ ((Nat.log2 num : Int) - Nat.log2 den - 1) ≤ dyadic num den 0 := by
    rw [hv, le_div_iff₀ hd0, show (Nat.log2 num : Int) - Nat.log2 den - 1 = Nat.log2 num - (Nat.log2 den + 1 : Nat) by push_cast; ring,
      zpow_sub₀ two_ne_zero, zpow_natCast, zpow_natCast, div_mul_eq_mul_div, div_le_iff₀ (by positivity)]
    exact mul_le_mul hn.1 hd.2.le hd0.le (by positivity)
  have hhigh : dyadic num den 0 < 2 ^ ((Nat.log2 num : Int) - Nat.log2 den + 1) := by
    rw [hv, div_lt_iff₀ hd0, show (Nat.log2 num : Int) - Nat.log2 den + 1 = (Nat.log2 num + 1 : Nat) - Nat.log2 den by push_cast; ring,
      zpow_sub₀ two_ne_zero, zpow_natCast, zpow_natCast, div_mul_eq_mul_div, lt_div_iff₀ (by positivity)]
    exact mul_lt_mul hn.2 hd.1 (by positivity) (by positivity)
  have hmid := mul_scale2_le (num := num) hden (k := 1) (q := (Nat.log2 num : Int) - Nat.log2 den) (e := 0)
  rw [Int.zero_sub, Nat.one_mul, Nat.cast_one, one_mul] at hmid
  unfold log2Q
  dsimp only
  split
  case isTrue h => exact ⟨hlow, by rw [Int.sub_add_cancel]; exact lt_of_not_ge fun hc => absurd (hmid.2 hc) (Nat.not_le.2 h)⟩
  case isFalse h => exact ⟨hmid.1 (Nat.not_lt.1 h), hhigh⟩

end

/-! ## Rounding to an integer -/

section
variable {rm : Rm} {neg : Bool} {a b : Nat}

/-- The integer is the quotient, or one more than it where that is inexact. -/
theorem roundNat_cases (rm : Rm) (neg : Bool) (a b : Nat) :
    (a % b = 0 ∧ roundNat rm neg a b = (a / b, false))
    ∨ (a % b ≠ 0 ∧ roundNat rm neg a b = (a / b, true) ∧ ¬ (rm = .rup ∧ neg = false) ∧ ¬ (rm = .rdn ∧ neg = true))
    ∨ (a % b ≠ 0 ∧ roundNat rm neg a b = (a / b + 1, true) ∧ rm ≠ .rz ∧ ¬ (rm = .rdn ∧ neg = false)
      ∧ ¬ (rm = .rup ∧ neg = true)) := by
  by_cases h : a % b = 0
  · exact .inl ⟨h, by simp [roundNat, h]⟩
  · refine .inr ?_
    simp only [roundNat, h, if_false]
    cases rm with
    | rne =>
      dsimp only
      split
      · exact .inr ⟨h, rfl, by decide, by simp, by simp⟩
      · exact .inl ⟨h, rfl, by simp, by simp⟩
    | rz => exact .inl ⟨h, rfl, by simp, by simp⟩
    | rdn =>
      cases neg
      · exact .inl ⟨h, rfl, by simp, by simp⟩
      · exact .inr ⟨h, rfl, by decide, by simp, by simp⟩
    | rup =>
      cases neg
      · exact .inr ⟨h, rfl, by decide, by simp, by simp⟩
      · exact .inl ⟨h, rfl, by simp, by simp⟩

/-- An integer bound of the fraction is one of its rounding. -/
theorem le_roundNat {k : Nat} (hb : 0 < b) (h : k * b ≤ a) : k ≤ (roundNat rm neg a b).1 := by
  have hq : k ≤ a / b := (Nat.le_div_iff_mul_le hb).2 h
  rcases roundNat_cases rm neg a b with ⟨-, hr⟩ | ⟨-, hr, -⟩ | ⟨-, hr, -⟩ <;> rw [hr] <;> dsimp only <;> omega

theorem roundNat_le {k : Nat} (hb : 0 < b) (h : a < k * b) : (roundNat rm neg a b).1 ≤ k := by
  have hq : a / b < k := (Nat.div_lt_iff_lt_mul hb).2 h
  rcases roundNat_cases rm neg a b with ⟨-, hr⟩ | ⟨-, hr, -⟩ | ⟨-, hr, -⟩ <;> rw [hr] <;> dsimp only <;> omega

theorem roundNat_mul_le (h : rm = .rz ∨ (rm = .rdn ∧ neg = false) ∨ (rm = .rup ∧ neg = true)) :
    (roundNat rm neg a b).1 * b ≤ a := by
  rcases roundNat_cases rm neg a b with ⟨-, hr⟩ | ⟨-, hr, -⟩ | ⟨-, -, h1, h2, h3⟩
  · rw [hr]; exact Nat.div_mul_le_self a b
  · rw [hr]; exact Nat.div_mul_le_self a b
  · rcases h with h | h | h
    · exact absurd h h1
    · exact absurd h h2
    · exact absurd h h3

theorem le_roundNat_mul (hb : 0 < b) (h : (rm = .rdn ∧ neg = true) ∨ (rm = .rup ∧ neg = false)) :
    a ≤ (roundNat rm neg a b).1 * b := by
  rcases roundNat_cases rm neg a b with ⟨h0, hr⟩ | ⟨-, -, h1, h2⟩ | ⟨-, hr, -⟩
  · rw [hr, Nat.div_mul_cancel (Nat.dvd_of_mod_eq_zero h0)]
  · exact absurd h (not_or.2 ⟨h2, h1⟩)
  · rw [hr]; exact (Nat.lt_mul_of_div_lt (Nat.lt_succ_self _) hb).le

/-- The rounding is exact where it keeps the value, and only there. -/
theorem roundNat_exact : (roundNat rm neg a b).2 = false ↔ (roundNat rm neg a b).1 * b = a := by
  rcases roundNat_cases rm neg a b with ⟨h0, hr⟩ | ⟨h0, hr, -⟩ | ⟨h0, hr, -⟩
  · simp [hr, Nat.div_mul_cancel (Nat.dvd_of_mod_eq_zero h0)]
  all_goals
    rw [hr]
    exact iff_of_false (by simp) fun h => h0 (Nat.mod_eq_zero_of_dvd ⟨_, (Nat.mul_comm .. ▸ h).symm⟩)

end

/-! ## Codes of a format (R88 to R90) -/

/-- The formats of the elements: E4M3 is the one without infinities. -/
def FFmt.Sound (F : FFmt) : Prop := 1 ≤ F.f ∧ 2 ≤ F.eb ∧ (F.e4m3 = true → F.f = 3 ∧ F.eb = 4)

theorem sound_of_format {F : FFmt} (h : F = FFmt.fp32 ∨ F = FFmt.fp16 ∨ F = FFmt.bf16 ∨ F = FFmt.fe4m3 ∨ F = FFmt.fe5m2) :
    F.Sound := by
  rcases h with rfl | rfl | rfl | rfl | rfl <;> unfold FFmt.Sound <;> decide

/-- The sign bit of a code. -/
def FFmt.signed (F : FFmt) (neg : Bool) (y : Nat) : Nat := (if neg then F.signBit else 0) + y

section
variable {F : FFmt} {neg : Bool} {y : Nat}

theorem signed_eq : F.signed neg y = neg.toNat * 2 ^ (F.eb + F.f) + y := by cases neg <;> simp [FFmt.signed, FFmt.signBit]

theorem bitsOf_signed_sign (h : y < F.signBit) : bitsOf (F.signed neg y) (F.eb + F.f) 1 = neg.toNat := by
  have h' : y < 2 ^ (F.eb + F.f) := h
  rw [bitsOf, Nat.shiftRight_eq_div_pow, signed_eq, Nat.mul_comm, Nat.mul_add_div (Nat.two_pow_pos _), Nat.div_eq_of_lt h']
  cases neg <;> rfl

theorem bitsOf_signed_exp (h : y < F.signBit) : bitsOf (F.signed neg y) F.f F.eb = y / 2 ^ F.f := by
  have hy : y / 2 ^ F.f < 2 ^ F.eb := Nat.div_lt_of_lt_mul (by rw [← Nat.pow_add, Nat.add_comm]; exact h)
  rw [bitsOf, Nat.shiftRight_eq_div_pow, signed_eq, Nat.pow_add, ← Nat.mul_assoc, Nat.mul_comm, Nat.mul_add_div (Nat.two_pow_pos _),
    Nat.mul_comm, Nat.mul_add_mod, Nat.mod_eq_of_lt hy]

theorem bitsOf_signed_low {k : Nat} (hk : k ≤ F.eb + F.f) : bitsOf (F.signed neg y) 0 k = y % 2 ^ k := by
  rw [bitsOf, Nat.shiftRight_zero, signed_eq, ← Nat.add_sub_cancel' hk, Nat.pow_add, Nat.mul_left_comm, Nat.mul_add_mod]

/-- The value of a code, sign and rest apart. -/
theorem decode_signed (hF : F.Sound) (h : y < F.signBit) : F.decode (F.signed neg y) =
    if F.e4m3 && y == 0x7F then .nan false
    else if !F.e4m3 && y / 2 ^ F.f == 2 ^ F.eb - 1 then
      (if y % 2 ^ F.f = 0 then .inf neg else .nan (y % 2 ^ F.f < 2 ^ (F.f - 1)))
    else if y / 2 ^ F.f = 0 then (if y % 2 ^ F.f = 0 then .zero neg else .fin neg (y % 2 ^ F.f) (F.emin - F.f))
    else .fin neg (2 ^ F.f + y % 2 ^ F.f) (((y / 2 ^ F.f : Nat) : Int) - F.bias - F.f) := by
  have hneg : (neg.toNat == 1) = neg := by cases neg <;> rfl
  have h7 : (F.e4m3 && bitsOf (F.signed neg y) 0 7 == 0x7F) = (F.e4m3 && y == 0x7F) := by
    cases he : F.e4m3 with
    | false => rfl
    | true =>
      obtain ⟨-, -, hs⟩ := hF
      obtain ⟨hf, hb⟩ := hs he
      rw [FFmt.signBit, hf, hb] at h
      rw [bitsOf_signed_low (by omega), Nat.mod_eq_of_lt h]
  simp only [FFmt.decode, h7, bitsOf_signed_sign h, bitsOf_signed_exp h, bitsOf_signed_low (Nat.le_add_left F.f F.eb), hneg]

theorem maxBits_lt_signBit (hF : F.Sound) : F.maxBits < F.signBit := by
  obtain ⟨-, -, hs⟩ := hF
  unfold FFmt.maxBits FFmt.signBit
  split
  case isTrue h =>
    obtain ⟨hf, hb⟩ := hs h
    rw [hf, hb]
    decide
  case isFalse =>
    rw [FFmt.infBits, Nat.pow_add]
    have := Nat.mul_le_mul_right (2 ^ F.f) (Nat.sub_le (2 ^ F.eb) 1)
    have := Nat.two_pow_pos F.eb
    have := Nat.mul_pos this (Nat.two_pow_pos F.f)
    omega

/-- A code up to the largest finite one is none of the special codes. -/
theorem finite_of_le_maxBits (hF : F.Sound) (h : y ≤ F.maxBits) :
    (F.e4m3 && y == 0x7F) = false ∧ (!F.e4m3 && y / 2 ^ F.f == 2 ^ F.eb - 1) = false := by
  unfold FFmt.maxBits at h
  split at h
  case isTrue he => simp only [he, Bool.true_and, Bool.not_true, Bool.false_and, beq_eq_false_iff_ne, and_true]; omega
  case isFalse he =>
    have hi : 0 < F.infBits := by
      have := Nat.one_lt_two_pow (n := F.eb) (by obtain ⟨-, hb, -⟩ := hF; omega)
      exact Nat.mul_pos (by omega) (Nat.two_pow_pos _)
    have hlt : y / 2 ^ F.f < 2 ^ F.eb - 1 := Nat.div_lt_of_lt_mul (by rw [Nat.mul_comm]; unfold FFmt.infBits at h hi; omega)
    simp only [he, Bool.false_and, Bool.not_false, Bool.true_and, beq_eq_false_iff_ne, true_and]
    omega

theorem decode_zero (hF : F.Sound) : F.decode (F.signed neg 0) = .zero neg := by
  obtain ⟨h7, hi⟩ := finite_of_le_maxBits hF (Nat.zero_le _)
  rw [decode_signed hF (Nat.two_pow_pos _), h7, hi]
  simp

/-- `m` quanta of the binade `j` above the smallest one: a subnormal number in the smallest, a normal one in each. -/
theorem decode_quanta (hF : F.Sound) {j m : Nat} (hm : 0 < m) (hl : j = 0 ∨ 2 ^ F.f ≤ m) (hh : m < 2 ^ (F.f + 1))
    (h : j * 2 ^ F.f + m ≤ F.maxBits) : F.decode (F.signed neg (j * 2 ^ F.f + m)) = .fin neg m (F.emin + j - F.f) := by
  obtain ⟨h7, hi⟩ := finite_of_le_maxBits hF h
  rw [decode_signed hF (Nat.lt_of_le_of_lt h (maxBits_lt_signBit hF)), h7, hi]
  rw [Nat.pow_succ] at hh
  rcases Nat.lt_or_ge m (2 ^ F.f) with hs | hs
  · obtain rfl : j = 0 := by omega
    simp [Nat.div_eq_of_lt hs, Nat.mod_eq_of_lt hs, hm.ne']
  · have hd : (j * 2 ^ F.f + m) / 2 ^ F.f = j + 1 :=
      Nat.div_eq_of_lt_le (by rw [Nat.add_mul]; omega) (by rw [Nat.add_mul, Nat.add_mul]; omega)
    have hr : 2 ^ F.f + (j * 2 ^ F.f + m) % 2 ^ F.f = m := by
      have := Nat.div_add_mod (j * 2 ^ F.f + m) (2 ^ F.f)
      rw [hd, Nat.mul_comm, Nat.add_mul] at this
      omega
    simp only [Bool.false_eq_true, if_false, hd, Nat.succ_ne_zero, hr, FFmt.emin]
    congr 1
    push_cast
    ring

/-- Every finite code but the zeros is of that form. -/
theorem exists_quanta (F : FFmt) (hy : 0 < y) :
    ∃ j m, y = j * 2 ^ F.f + m ∧ 0 < m ∧ (j = 0 ∨ 2 ^ F.f ≤ m) ∧ m < 2 ^ (F.f + 1) := by
  have hdm := Nat.div_add_mod y (2 ^ F.f)
  have hlt := Nat.mod_lt y (Nat.two_pow_pos F.f)
  rw [Nat.mul_comm] at hdm
  cases hq : y / 2 ^ F.f with
  | zero =>
    rw [hq] at hdm
    exact ⟨0, y, by omega, hy, .inl rfl, by rw [Nat.pow_succ]; omega⟩
  | succ j =>
    rw [hq, Nat.succ_mul] at hdm
    exact ⟨j, 2 ^ F.f + y % 2 ^ F.f, by omega, by omega, .inr (by omega), by rw [Nat.pow_succ]; omega⟩

/-- `n` quanta, up to and with the carry into the next binade, have the value that they should. -/
theorem decode_sum (hF : F.Sound) {j n : Nat} (hl : j = 0 ∨ 2 ^ F.f ≤ n) (hh : n ≤ 2 ^ (F.f + 1))
    (h : j * 2 ^ F.f + n ≤ F.maxBits) :
    (n = 0 ∧ F.decode (F.signed neg (j * 2 ^ F.f + n)) = .zero neg)
    ∨ ∃ m q, F.decode (F.signed neg (j * 2 ^ F.f + n)) = .fin neg m q ∧ (m : ℚ) * 2 ^ q = n * 2 ^ (F.emin + j - F.f) := by
  rcases Nat.eq_zero_or_pos n with rfl | hn
  · obtain rfl : j = 0 := hl.resolve_right (Nat.not_le.2 (Nat.two_pow_pos _))
    exact .inl ⟨rfl, by rw [Nat.zero_mul]; exact decode_zero hF⟩
  refine .inr ?_
  rcases Nat.lt_or_eq_of_le hh with hlt | rfl
  · exact ⟨n, _, decode_quanta hF hn hl hlt h, rfl⟩
  · have hcarry : j * 2 ^ F.f + 2 ^ (F.f + 1) = (j + 1) * 2 ^ F.f + 2 ^ F.f := by ring
    rw [hcarry] at h ⊢
    refine ⟨_, _, decode_quanta hF (Nat.two_pow_pos _) (.inr le_rfl) (Nat.pow_lt_pow_right Nat.one_lt_two (Nat.lt_succ_self _)) h, ?_⟩
    push_cast
    rw [show F.emin + ((j : Int) + 1) - F.f = F.emin + j - F.f + 1 by ring, zpow_add_one₀ two_ne_zero]
    ring

end

/-! ## The rounding of a finite value (R102, R105) -/

/-- The exponent of the binade in which a value is rounded: the smallest one for tiny values. -/
def FFmt.binade (F : FFmt) (num den : Nat) (e : Int) : Int := if log2Q num den + e < F.emin then F.emin else log2Q num den + e

/-- The quanta of that binade that a value is rounded to, and whether it lies between two of them. -/
def FFmt.quanta (F : FFmt) (rm : Rm) (neg : Bool) (num den : Nat) (e : Int) : Nat × Bool :=
  let s := scale2 num den (e - (F.binade num den e - F.f))
  roundNat rm neg s.1 s.2

/-- The code of those quanta without its sign. -/
def FFmt.codeOf (F : FFmt) (rm : Rm) (neg : Bool) (num den : Nat) (e : Int) : Nat :=
  (F.binade num den e + F.bias - 1).toNat * 2 ^ F.f + (F.quanta rm neg num den e).1

/-- Tininess after rounding (R102). -/
def FFmt.tiny (F : FFmt) (rm : Rm) (neg : Bool) (num den : Nat) (e : Int) : Bool :=
  let k := log2Q num den + e
  let s := scale2 num den (e - (k - F.f))
  if k < F.emin then decide (k - F.f + (Nat.log2 (roundNat rm neg s.1 s.2).1 : Int) < F.emin) else false

/-- The largest finite code, or infinity where the format and the mode have it (R105). -/
def FFmt.overflowed (F : FFmt) (rm : Rm) (neg sat : Bool) : Nat × Flags :=
  if sat then (F.signed neg F.maxBits, fOF ||| fNX ||| fSV)
  else if F.e4m3 then (F.signed neg F.maxBits, fOF ||| fNX)
  else
    let toInf := match rm with
      | .rne => true
      | .rz => false
      | .rdn => neg
      | .rup => !neg
    (F.signed neg (if toInf then F.infBits else F.maxBits), fOF ||| fNX)

section
variable {F : FFmt} {rm : Rm} {neg sat : Bool} {num den : Nat} {e : Int}

theorem round_fin (F : FFmt) (rm : Rm) (sat neg : Bool) (num den : Nat) (e : Int) : F.round rm sat (.fin neg num den e) =
    if F.maxBits < F.codeOf rm neg num den e then F.overflowed rm neg sat
    else (F.signed neg (F.codeOf rm neg num den e), (if (F.quanta rm neg num den e).2 then fNX else 0)
      ||| (if (F.quanta rm neg num den e).2 && F.tiny rm neg num den e then fUF else 0)) := rfl

theorem overflowed_flags (F : FFmt) (rm : Rm) (neg sat : Bool) : (F.overflowed rm neg sat).2 &&& fOF ≠ 0 := by
  unfold FFmt.overflowed
  split
  · exact show (fOF ||| fNX ||| fSV) &&& fOF ≠ 0 by decide
  · split <;> exact show (fOF ||| fNX) &&& fOF ≠ 0 by decide

/-- The binade is the `j`-th one from the smallest up. -/
theorem exists_binade (F : FFmt) (num den : Nat) (e : Int) :
    ∃ j : Nat, F.binade num den e = F.emin + j ∧ (F.binade num den e + F.bias - 1).toNat = j := by
  have h : F.emin ≤ F.binade num den e := by unfold FFmt.binade; split <;> omega
  have hb : F.emin = 1 - (F.bias : Int) := rfl
  exact ⟨(F.binade num den e - F.emin).toNat, by omega, by omega⟩

/-- A value has at most the quanta of its binade, and at least those of the one below, unless its binade is the smallest. -/
theorem quanta_bounds (hnum : 0 < num) (hden : 0 < den) :
    (F.binade num den e = F.emin ∨ 2 ^ F.f ≤ (F.quanta rm neg num den e).1) ∧ (F.quanta rm neg num den e).1 ≤ 2 ^ (F.f + 1) := by
  obtain ⟨hlo, hhi⟩ := log2Q_bounds hden hnum e
  have hb := scale2_den_pos (num := num) hden (e - (F.binade num den e - F.f))
  constructor
  · unfold FFmt.binade
    split
    case isTrue => exact .inl rfl
    case isFalse h =>
      have hk : F.binade num den e = log2Q num den + e := if_neg h
      refine .inr (le_roundNat hb ((mul_scale2_le hden).2 ?_))
      rw [hk, Nat.cast_pow, Nat.cast_two, ← zpow_natCast, ← zpow_add₀ two_ne_zero, add_sub_cancel]
      exact hlo
  · refine roundNat_le hb (Nat.lt_of_not_le fun h => not_lt_of_ge ((mul_scale2_le hden).1 h) (hhi.trans_le ?_))
    have hk : log2Q num den + e ≤ F.binade num den e := by unfold FFmt.binade; split <;> omega
    rw [Nat.cast_pow, Nat.cast_two, ← zpow_natCast, ← zpow_add₀ two_ne_zero]
    exact zpow_le_zpow_right₀ one_le_two (by push_cast; omega)

/-- The value of the code that a rounding gives. -/
theorem decode_codeOf (hF : F.Sound) (hnum : 0 < num) (hden : 0 < den) (h : F.codeOf rm neg num den e ≤ F.maxBits) :
    ((F.quanta rm neg num den e).1 = 0 ∧ F.decode (F.signed neg (F.codeOf rm neg num den e)) = .zero neg)
    ∨ ∃ m q, F.decode (F.signed neg (F.codeOf rm neg num den e)) = .fin neg m q
      ∧ (m : ℚ) * 2 ^ q = (F.quanta rm neg num den e).1 * 2 ^ (F.binade num den e - F.f) := by
  obtain ⟨j, hj, hc⟩ := exists_binade F num den e
  obtain ⟨hlo, hhi⟩ := quanta_bounds (F := F) (rm := rm) (neg := neg) (e := e) hnum hden
  rw [FFmt.codeOf, hc] at h ⊢
  rw [hj] at hlo ⊢
  exact decode_sum hF (hlo.imp_left fun h => by omega) hhi h

/-! ## A value and a fraction -/

/-- The magnitude of a value is at most `num / den * 2 ^ e`, or at least so much; only a finite one that is no zero is compared. -/
def AtMost (v : FVal) (num den : Nat) (e : Int) : Prop :=
  match v with
  | .fin _ k q => k * den * 2 ^ (q - e).toNat ≤ num * 2 ^ (e - q).toNat
  | _ => True
def AtLeast (v : FVal) (num den : Nat) (e : Int) : Prop :=
  match v with
  | .fin _ k q => num * 2 ^ (e - q).toNat ≤ k * den * 2 ^ (q - e).toNat
  | _ => False

theorem atMost_fin (hden : 0 < den) {k : Nat} {q : Int} : AtMost (.fin neg k q) num den e ↔ k * 2 ^ q ≤ dyadic num den e := by
  rw [← mul_scale2_le hden, scale2_eq, Int.neg_sub, ← Nat.mul_assoc]
  rfl

theorem atLeast_fin (hden : 0 < den) {k : Nat} {q : Int} : AtLeast (.fin neg k q) num den e ↔ dyadic num den e ≤ k * 2 ^ q := by
  rw [← scale2_le_mul hden, scale2_eq, Int.neg_sub, ← Nat.mul_assoc]
  rfl

/-- The rounded value and the exact one are in the order of the integer and the fraction that `roundNat` had. -/
theorem decode_codeOf_order (hF : F.Sound) (hnum : 0 < num) (hden : 0 < den) (h : F.codeOf rm neg num den e ≤ F.maxBits) :
    let v := F.decode (F.signed neg (F.codeOf rm neg num den e))
    let s := scale2 num den (e - (F.binade num den e - F.f))
    v.isNaN = false ∧ v.neg? = neg ∧ (AtMost v num den e ↔ (F.quanta rm neg num den e).1 * s.2 ≤ s.1)
      ∧ (AtLeast v num den e ↔ s.1 ≤ (F.quanta rm neg num den e).1 * s.2) := by
  dsimp only
  rcases decode_codeOf hF hnum hden h with ⟨hn, hv⟩ | ⟨m, q, hv, hm⟩
  · have hs : 0 < (scale2 num den (e - (F.binade num den e - F.f))).1 := by
      rw [scale2_eq]
      exact Nat.mul_pos hnum (Nat.two_pow_pos _)
    rw [hv, hn, Nat.zero_mul]
    exact ⟨rfl, rfl, iff_of_true trivial (Nat.zero_le _), iff_of_false id (Nat.not_le.2 hs)⟩
  · rw [hv, atMost_fin hden, atLeast_fin hden, hm, mul_scale2_le hden, scale2_le_mul hden]
    exact ⟨rfl, rfl, .rfl, .rfl⟩

theorem inexact_flags (nx tiny : Bool) : ((if nx then fNX else 0) ||| (if nx && tiny then fUF else 0)) &&& fNX = 0 ↔ nx = false := by
  cases nx <;> cases tiny <;> decide

/-- A rounding that does not overflow is directed as its mode says, and raises NX where it changes the value. -/
theorem round_directed (hF : F.Sound) (hnum : 0 < num) (hden : 0 < den) :
    let r := F.round rm sat (.fin neg num den e)
    let v := F.decode r.1
    r.2 &&& fOF = 0 → v.isNaN = false ∧ v.neg? = neg
      ∧ (rm = .rz ∨ (rm = .rdn ∧ neg = false) ∨ (rm = .rup ∧ neg = true) → AtMost v num den e)
      ∧ ((rm = .rdn ∧ neg = true) ∨ (rm = .rup ∧ neg = false) → AtLeast v num den e)
      ∧ (r.2 &&& fNX = 0 ↔ AtMost v num den e ∧ AtLeast v num den e) := by
  dsimp only
  rw [round_fin]
  split
  case isTrue => exact fun h => (overflowed_flags F rm neg sat h).elim
  case isFalse h =>
    intro _
    have hb := scale2_den_pos (num := num) hden (e - (F.binade num den e - F.f))
    obtain ⟨hnan, hneg, hmost, hleast⟩ := decode_codeOf_order (rm := rm) (neg := neg) (e := e) hF hnum hden (Nat.not_lt.1 h)
    refine ⟨hnan, hneg, fun hm => hmost.2 (roundNat_mul_le hm), fun hm => hleast.2 (le_roundNat_mul hb hm), ?_⟩
    rw [inexact_flags, hmost, hleast, ← Nat.le_antisymm_iff]
    exact roundNat_exact

/-! ## Values of the format -/

/-- A number of the format lies in the binade of its code. -/
theorem binade_quanta {j m : Nat} (hm : 0 < m) (hl : j = 0 ∨ 2 ^ F.f ≤ m) (hh : m < 2 ^ (F.f + 1)) :
    F.binade m 1 (F.emin + j - F.f) = F.emin + j := by
  obtain ⟨hlo, hhi⟩ := log2Q_bounds (den := 1) Nat.one_pos hm 0
  rw [Int.add_zero] at hlo hhi
  have hv : dyadic m 1 0 = m := by simp [dyadic]
  rw [hv] at hlo hhi
  have hlt : log2Q m 1 < F.f + 1 := by
    have hmq : (m : ℚ) < 2 ^ ((F.f + 1 : Nat) : Int) := by exact_mod_cast hh
    exact_mod_cast (zpow_lt_zpow_iff_right₀ (one_lt_two (α := ℚ))).1 (hlo.trans_lt hmq)
  unfold FFmt.binade
  rcases Nat.lt_or_ge m (2 ^ F.f) with hs | hs
  · have hmq : (m : ℚ) < 2 ^ (F.f : Int) := by exact_mod_cast hs
    have := (zpow_lt_zpow_iff_right₀ (one_lt_two (α := ℚ))).1 (hlo.trans_lt hmq)
    rw [if_pos (by omega)]
    omega
  · have hmq : (2 : ℚ) ^ (F.f : Int) ≤ m := by exact_mod_cast hs
    have := (zpow_lt_zpow_iff_right₀ (one_lt_two (α := ℚ))).1 (hmq.trans_lt hhi)
    rw [if_neg (by omega)]
    omega

/-- Its rounding is exact. -/
theorem round_quanta {j m : Nat} (hm : 0 < m) (hl : j = 0 ∨ 2 ^ F.f ≤ m) (hh : m < 2 ^ (F.f + 1)) (h : j * 2 ^ F.f + m ≤ F.maxBits) :
    F.round rm sat (.fin neg m 1 (F.emin + j - F.f)) = (F.signed neg (j * 2 ^ F.f + m), 0) := by
  have hb := binade_quanta (F := F) hm hl hh
  have hq : F.quanta rm neg m 1 (F.emin + j - F.f) = (m, false) := by
    simp [FFmt.quanta, hb, scale2_eq, roundNat, Nat.mod_one]
  have hj : (F.emin + j + F.bias - 1).toNat = j := by
    have : F.emin = 1 - (F.bias : Int) := rfl
    omega
  have hc : F.codeOf rm neg m 1 (F.emin + j - F.f) = j * 2 ^ F.f + m := by rw [FFmt.codeOf, hb, hq, hj]
  rw [round_fin, if_neg (by omega), hc, hq]
  simp

/-- Half of the codes have the sign bit. -/
theorem two_pow_width (F : FFmt) : 2 ^ F.width = 2 * F.signBit := by
  rw [FFmt.width, FFmt.signBit, Nat.add_assoc, Nat.add_comm, Nat.pow_succ']

/-- Every code is a sign and a rest. -/
theorem exists_signed {x : Nat} (h : x < 2 ^ F.width) : ∃ neg y, y < F.signBit ∧ x = F.signed neg y := by
  rw [two_pow_width] at h
  rcases Nat.lt_or_ge x F.signBit with hs | hs
  · exact ⟨false, x, hs, (Nat.zero_add x).symm⟩
  · exact ⟨true, x - F.signBit, by omega, (Nat.add_sub_cancel' hs).symm⟩

/-- Beyond the largest finite code stand infinity and the NaNs. -/
theorem decode_above_maxBits (hF : F.Sound) {y : Nat} (hy : y < F.signBit) (h : F.maxBits < y)
    (hnan : (F.decode (F.signed neg y)).isNaN = false) : F.e4m3 = false ∧ y = F.infBits ∧ F.decode (F.signed neg y) = .inf neg := by
  have hdec := decode_signed (neg := neg) hF hy
  cases h4 : F.e4m3 with
  | true =>
    obtain ⟨-, -, hs⟩ := hF
    obtain ⟨hf, hb⟩ := hs h4
    rw [FFmt.signBit, hf, hb] at hy
    rw [FFmt.maxBits, if_pos h4] at h
    obtain rfl : y = 0x7F := by omega
    simp [hdec, h4, FVal.isNaN] at hnan
  | false =>
    rw [FFmt.maxBits, if_neg (by simp [h4])] at h
    have hE : y / 2 ^ F.f = 2 ^ F.eb - 1 := by
      have hlt : y / 2 ^ F.f < 2 ^ F.eb := Nat.div_lt_of_lt_mul (by rw [← Nat.pow_add, Nat.add_comm]; exact hy)
      have hge : 2 ^ F.eb - 1 ≤ y / 2 ^ F.f := (Nat.le_div_iff_mul_le (Nat.two_pow_pos _)).2 (by rw [FFmt.infBits] at h; omega)
      omega
    have hm : y % 2 ^ F.f = 0 := by
      by_contra hm
      simp [hdec, h4, hE, hm, FVal.isNaN] at hnan
    refine ⟨rfl, ?_, by simp [hdec, h4, hE, hm]⟩
    rw [FFmt.infBits, ← hE, Nat.div_mul_cancel (Nat.dvd_of_mod_eq_zero hm)]

/-- Rounding keeps what the format has. -/
theorem round_decode (hF : F.Sound) {x : Nat} (hx : x < 2 ^ F.width) (hnan : (F.decode x).isNaN = false) :
    F.round rm sat (F.decode x).toEx = (x, 0) := by
  obtain ⟨neg, y, hy, rfl⟩ := exists_signed hx
  rcases Nat.lt_or_ge F.maxBits y with h | h
  · obtain ⟨h4, rfl, hv⟩ := decode_above_maxBits hF hy h hnan
    rw [hv]
    exact if_neg (by rw [h4]; decide)
  rcases Nat.eq_zero_or_pos y with rfl | h0
  · rw [decode_zero hF]
    rfl
  · obtain ⟨j, m, rfl, hm, hl, hh⟩ := exists_quanta F h0
    rw [decode_quanta hF hm hl hh h]
    exact round_quanta hm hl hh h

end

end Sys2Proof.Machine

namespace Sys2Proof
open Machine

/-- Settles O21: `round_decode` and `round_directed`. -/
theorem rounding : Obligations.Rounding := by
  unfold Obligations.Rounding
  exact ⟨fun F m sat x hF hx hn => round_decode (sound_of_format hF) hx hn,
    fun F m neg num den e hF hnum hden => round_directed (sound_of_format hF) hnum hden⟩

end Sys2Proof
end

