-- ==== Sys2Proof/Proofs/VectorElements.lean ====
section
/-!
PROOFS. The elements of a vector register (R227, R228, R234): what a register collected from elements reads as, and what every element-wise
instruction puts in flight.
-/
namespace Sys2Proof
open Machine Claim
set_option Elab.async false

/-! ## Elements -/

theorem vWidth_eq : ∀ c, vWidth c = bits c
  | 0 | 1 | 2 | 3 | 4 | 5 | 6 | 7 | 8 | 9 | 10 | 11 => rfl
  | c + 12 => by simp [vWidth, unitBytes, bits]

theorem vLen_eq (c : Nat) : vLen c = count c := by rw [vLen, vWidth_eq, count]

/-- An element has 8, 16, 32 or 64 bits. -/
theorem bits_cases (c : Nat) : bits c = 8 ∨ bits c = 16 ∨ bits c = 32 ∨ bits c = 64 := by
  unfold bits
  split
  · exact .inr (.inr (.inl rfl))
  · split
    · exact .inr (.inr (.inr rfl))
    · split
      · exact .inr (.inl rfl)
      · exact .inl rfl

/-- The elements fill the register. -/
theorem count_mul_bits (c : Nat) : bits c * count c = 2048 := by
  unfold count
  rcases bits_cases c with h | h | h | h <;> rw [h]

theorem count_pos (c : Nat) : 0 < count c := Nat.pos_of_mul_pos_left (count_mul_bits c ▸ Nat.two_pow_pos 11 : 0 < bits c * count c)

theorem vElem_eq (c : Nat) (v : VWord) (e : Nat) : vElem (bits c) v e = elem c v e := rfl

theorem elem_lt (c : Nat) (v : VWord) (e : Nat) : elem c v e < 2 ^ bits c := BitVec.isLt _

theorem vActive_eq (c : Nat) (k : Word) (e : Nat) : vActive c k e = active c k e := by
  have h : bits c * e / 32 = e * unitBytes c / 4 := by
    rw [← vWidth_eq, vWidth, Nat.mul_assoc, Nat.mul_div_mul_left _ 4 (by decide : 0 < 8), Nat.mul_comm]
  rw [vActive, active, h]

/-! ## Registers collected from elements -/

theorem packList_div (w : Nat) (l : List Nat) (e : Nat) : packList w l / 2 ^ (w * e) % 2 ^ w = l.getD e 0 % 2 ^ w := by
  induction l generalizing e with
  | nil => simp [packList]
  | cons x l ih =>
    cases e with
    | zero => simp [packList]
    | succ e =>
      have hx : (x % 2 ^ w + 2 ^ w * packList w l) / 2 ^ w = packList w l := by
        rw [Nat.add_mul_div_left _ _ (Nat.two_pow_pos w), Nat.div_eq_of_lt (Nat.mod_lt _ (Nat.two_pow_pos w)), Nat.zero_add]
      rw [packList, Nat.mul_succ, Nat.add_comm (w * e) w, Nat.pow_add, ← Nat.div_div_eq_div_mul, hx, ih, List.getD_cons_succ]

theorem elem_vPackList {c e : Nat} (l : List Nat) (he : e < count c) : elem c (vPackList (bits c) l) e = l.getD e 0 % 2 ^ bits c := by
  have hw : bits c * e + bits c ≤ 2048 := count_mul_bits c ▸ Nat.mul_le_mul_left _ he
  rw [← packList_div, elem, vPackList, BitVec.extractLsb'_toNat, BitVec.toNat_ofNat, ← Nat.shiftRight_eq_div_pow]
  refine Nat.eq_of_testBit_eq fun i => ?_
  simp only [Nat.testBit_mod_two_pow, Nat.testBit_shiftRight]
  by_cases hi : i < bits c
  · simp [show bits c * e + i < 2048 by omega]
  · simp [hi]

/-- The flags of a list are those of its members. -/
theorem getLsbD_foldl_flags (l : List (Nat × Flags)) (f : Flags) (j : Nat) :
    (l.foldl (fun f x => f ||| x.2) f).getLsbD j = true ↔ f.getLsbD j = true ∨ ∃ x ∈ l, x.2.getLsbD j = true := by
  induction l generalizing f with
  | nil => simp
  | cons x l ih =>
    rw [List.foldl_cons, ih, BitVec.getLsbD_or, Bool.or_eq_true, or_assoc]
    simp

/-- The value of an element-wise instruction (R234). -/
theorem elements_vMap (c : Nat) (k : Word) (old : VWord) (f : Nat → Nat × Flags) :
    Elements c k old (vMap c k old f).1 (vMap c k old f).2 f := by
  unfold vMap vCollect
  simp only [vWidth_eq, vLen_eq, vActive_eq, vElem_eq]
  constructor
  · intro e he
    rw [elem_vPackList _ he, List.map_map, List.getD_eq_getElem _ _ (by simpa using he)]
    simp only [List.getElem_map, List.getElem_range, Function.comp_apply]
    split
    · rfl
    · exact Nat.mod_eq_of_lt (elem_lt c old e)
  · intro j _
    rw [getLsbD_foldl_flags]
    constructor
    · rintro (h | ⟨x, hx, hj⟩)
      · simp at h
      · obtain ⟨e, he, rfl⟩ := List.mem_map.1 hx
        split at hj
        case isTrue ha => exact ⟨e, List.mem_range.1 he, ha, hj⟩
        case isFalse => simp at hj
    · rintro ⟨e, he, ha, hj⟩
      exact .inr ⟨_, List.mem_map_of_mem (List.mem_range.2 he), by simpa only [ha, if_true] using hj⟩

/-! ## Fields of the extension word (R40, R229) -/

theorem vxOf_fmt (vx : Option VX) : (Machine.vxOf 0 vx).fmt.toNat = code 0 vx := by cases vx <;> rfl

theorem vCtx_eq (a : Arch) (vx : Option VX) : vCtx a 0 vx = ⟨code 0 vx, mode a vx, sats vx⟩ := by cases vx <;> rfl

/-! ## Instructions with a v result -/

section
variable {i : Instr} {s : State} {g : Guard} {lat c : Nat} {k : KReg} {d : VReg} {f : Nat → Nat × Flags} {v : Arch → VWord × Flags}

theorem lands_of_vOp (hg : s.arch.guardOn 3 g = true) (hi : exec i s = vOp g lat d v s) :
    Lands i s lat 3 (v s.arch).2 (.v d (v s.arch).1) := hi.trans (issueF_on hg)

theorem wise_of_vOp (hg : s.arch.guardOn 3 g = true) (hi : exec i s = vOp g lat d v s)
    (hv : v s.arch = vMap c (s.arch.rdK k) (s.arch.rdV d) f) : Wise i s lat c k d f :=
  ⟨_, _, lands_of_vOp hg hi, hv ▸ elements_vMap ..⟩

end

end Sys2Proof
end

