-- ==== Sys2Proof/Proofs/VectorSums.lean ====
section
/-!
PROOFS. Reductions, scans, sums of products and complex products (R109 to R111, R242 to R245; O37).
-/
namespace Sys2Proof
open Machine Claim
set_option Elab.async false

/-! ## Results fit their element -/

theorem signed_lt {F : FFmt} {y : Nat} (neg : Bool) (h : y < F.signBit) : F.signed neg y < 2 ^ F.width := by
  have hw := two_pow_width F
  cases neg <;> simp only [FFmt.signed, Bool.false_eq_true, if_true, if_false] <;> omega

theorem signBit_lt (F : FFmt) : F.signBit < 2 ^ F.width := by
  have := Nat.two_pow_pos (F.eb + F.f)
  rw [two_pow_width, FFmt.signBit]
  omega

theorem infBits_add_lt_signBit (F : FFmt) {y : Nat} (h : y < 2 ^ F.f) : F.infBits + y < F.signBit := by
  have hs : F.signBit = (2 ^ F.eb - 1) * 2 ^ F.f + 2 ^ F.f := by
    rw [FFmt.signBit, Nat.pow_add, ← Nat.succ_mul, Nat.succ_eq_add_one, Nat.sub_add_cancel (Nat.two_pow_pos _)]
  rw [hs, FFmt.infBits]
  omega

theorem infBits_lt_signBit (F : FFmt) : F.infBits < F.signBit := infBits_add_lt_signBit F (Nat.two_pow_pos _)

theorem nan_lt {F : FFmt} (hF : F.Sound) : F.nan < 2 ^ F.width := by
  refine Nat.lt_trans ?_ (signBit_lt F)
  obtain ⟨hf, -, hs⟩ := hF
  unfold FFmt.nan
  split
  case isTrue h4 =>
    obtain ⟨hf, hb⟩ := hs h4
    rw [FFmt.signBit, hf, hb]
    decide
  case isFalse => exact infBits_add_lt_signBit F (Nat.pow_lt_pow_right Nat.one_lt_two (by omega))

theorem overflowed_lt {F : FFmt} (hF : F.Sound) (rm : Rm) (neg sat : Bool) : (F.overflowed rm neg sat).1 < 2 ^ F.width := by
  have hm := signed_lt neg (maxBits_lt_signBit hF)
  have hi (b : Bool) : F.signed neg (if b then F.infBits else F.maxBits) < 2 ^ F.width := by
    cases b
    · exact hm
    · exact signed_lt neg (infBits_lt_signBit F)
  unfold FFmt.overflowed
  split
  · exact hm
  · split
    · exact hm
    · exact hi _

/-- A rounding gives a code of its format. -/
theorem round_lt {F : FFmt} (hF : F.Sound) (rm : Rm) (sat : Bool) (x : Ex) : (F.round rm sat x).1 < 2 ^ F.width := by
  cases x with
  | nan nv => exact nan_lt hF
  | inf neg dz =>
    unfold FFmt.round
    dsimp only
    split
    · exact nan_lt hF
    · exact signed_lt neg (infBits_lt_signBit F)
  | zero neg => exact signed_lt neg (Nat.two_pow_pos _)
  | fin neg num den e =>
    rw [round_fin]
    split
    · exact overflowed_lt hF rm neg sat
    · exact signed_lt neg (Nat.lt_of_le_of_lt (by omega) (maxBits_lt_signBit hF))

/-- The formats of the codes are sound, and as wide as their elements. -/
theorem ffmtOf_some {c : Nat} {F : FFmt} (h : ffmtOf c = some F) : F.Sound ∧ F.width = bits c := by
  unfold ffmtOf at h
  split at h <;> cases h <;> exact ⟨sound_of_format (by simp), rfl⟩

theorem ffmtOf_eq_none {c : Nat} (h5 : 5 ≤ c) : ffmtOf c = none := by
  unfold ffmtOf
  split
  case h_6 => rfl
  all_goals omega

theorem exists_ffmtOf {c : Nat} (h : c ≤ 4) : ∃ F, ffmtOf c = some F := by
  interval_cases c <;> exact ⟨_, rfl⟩

theorem truncInt_lt (w : Nat) (v : Int) : truncInt w v < 2 ^ w := by
  have hw : (0 : Int) < ((2 ^ w : Nat) : Int) := by exact_mod_cast Nat.two_pow_pos w
  have h0 := Int.emod_nonneg v hw.ne'
  have h1 := Int.emod_lt_of_pos v hw
  unfold truncInt
  omega

theorem int_lt (x : VCtx) (v : Int) : (x.int v).1 < 2 ^ bits x.c := by
  rw [← vWidth_eq]
  unfold VCtx.int
  dsimp only
  split <;> exact truncInt_lt _ _

theorem arith_lt (x : VCtx) (fp : FVal → FVal → Ex) (int : Int → Int → Int) (a b : Nat) :
    (x.arith fp int a b).1 < 2 ^ bits x.c := by
  unfold VCtx.arith
  split
  case h_1 F hF =>
    obtain ⟨hs, hw⟩ := ffmtOf_some hF
    exact hw ▸ round_lt hs ..
  case h_2 => exact int_lt x _

theorem minMax_lt {F : FFmt} (hF : F.Sound) (mx : Bool) (a b : Nat) : (F.minMax mx a b).1 < 2 ^ F.width := by
  have hmod (y : Nat) : y % 2 ^ F.width < 2 ^ F.width := Nat.mod_lt _ (Nat.two_pow_pos _)
  unfold FFmt.minMax
  dsimp only
  split
  · exact nan_lt hF
  · split
    · exact hmod b
    · split <;> exact hmod _

theorem vMinMax_lt {c a b : Nat} (mx : Bool) (ha : a < 2 ^ bits c) (hb : b < 2 ^ bits c) : (vMinMax mx c a b).1 < 2 ^ bits c := by
  unfold vMinMax
  split
  case h_1 F hF =>
    obtain ⟨hs, hw⟩ := ffmtOf_some hF
    exact hw ▸ minMax_lt hs ..
  case h_2 =>
    dsimp only
    split
    · exact ha
    · exact hb

theorem node_lt (x : VCtx) (op : Nat) {a b : Nat} (ha : a < 2 ^ bits x.c) (hb : b < 2 ^ bits x.c) : (x.node op a b).1 < 2 ^ bits x.c := by
  unfold VCtx.node
  split
  · exact arith_lt ..
  · exact arith_lt ..
  · exact vMinMax_lt _ ha hb
  · exact vMinMax_lt _ ha hb

theorem vEmpty_lt (c op : Nat) : vEmpty c op < 2 ^ bits c := by
  unfold vEmpty
  split
  case h_1 => exact Nat.two_pow_pos _
  case h_2 F hF =>
    obtain ⟨hs, hw⟩ := ffmtOf_some hF
    exact hw ▸ round_lt hs ..
  case h_3 => exact Nat.one_lt_two_pow (by rcases bits_cases c with h | h | h | h <;> omega)
  case h_4 F hF =>
    obtain ⟨-, hw⟩ := ffmtOf_some hF
    exact hw ▸ (infBits_lt_signBit F).trans (signBit_lt F)
  case h_5 F hF _ _ _ =>
    obtain ⟨-, hw⟩ := ffmtOf_some hF
    exact hw ▸ signed_lt true (infBits_lt_signBit F)
  all_goals
    rw [← vWidth_eq]
    exact truncInt_lt ..

theorem vEmpty_add (c : Nat) : vEmpty c 0 = 0 := by
  unfold vEmpty
  cases ffmtOf c <;> rfl

/-! ## The tree (R109, R110) -/

section
variable {x : VCtx} {op : Nat}

theorem join_present (p q : Nat) (f f' : Flags) :
    x.join op (some p, f) (some q, f') = (some (x.node op p q).1, f ||| f' ||| (x.node op p q).2) := rfl

theorem join_absent_left (f : Flags) (n : VNode) : x.join op (none, f) n = (n.1, f ||| n.2) := by
  obtain ⟨q | q, f'⟩ := n <;> rfl

theorem join_absent_right (n : VNode) (f : Flags) : x.join op n (none, f) = (n.1, n.2 ||| f) := by
  obtain ⟨q | q, f'⟩ := n <;> rfl

/-- The nodes of the last level. -/
theorem levels_getLastD (x : VCtx) (op k : Nat) (l d : List VNode) : (x.levels op k l).getLastD d = (x.level op)^[k] l := by
  induction k generalizing l d with
  | zero => rfl
  | succ k ih => rw [VCtx.levels, List.getLastD_cons, ih, Function.iterate_succ_apply]

/-- What holds of the elements and is kept by a combination holds of every node. -/
theorem mem_level {P : VNode → Prop} (hj : ∀ a b, P a → P b → P (x.join op a b)) (l : List VNode) (hl : ∀ n ∈ l, P n) :
    ∀ n ∈ x.level op l, P n := by
  induction l using VCtx.level.induct with
  | case1 a b r ih =>
    rw [VCtx.level, List.forall_mem_cons]
    rw [List.forall_mem_cons, List.forall_mem_cons] at hl
    exact ⟨hj a b hl.1 hl.2.1, ih hl.2.2⟩
  | case2 l h => rwa [VCtx.level.eq_2 x op l h]

theorem mem_iterate_level {P : VNode → Prop} (hj : ∀ a b, P a → P b → P (x.join op a b)) (k : Nat) {l : List VNode}
    (hl : ∀ n ∈ l, P n) : ∀ n ∈ (x.level op)^[k] l, P n := by
  induction k generalizing l with
  | zero => exact hl
  | succ k ih => exact ih (mem_level hj l hl)

theorem length_level (x : VCtx) (op : Nat) (l : List VNode) : (x.level op l).length = (l.length + 1) / 2 := by
  induction l using VCtx.level.induct with
  | case1 a b r ih =>
    rw [VCtx.level, List.length_cons, ih]
    simp only [List.length_cons]
    omega
  | case2 l h =>
    rw [VCtx.level.eq_2 x op l h]
    match l, h with
    | [], _ => rfl
    | [_], _ => rw [List.length_singleton]
    | a :: b :: r, h => exact absurd rfl (h a b r)

/-- A tree of `2 ^ k` elements has one root. -/
theorem length_iterate_level (x : VCtx) (op k : Nat) {l : List VNode} (h : l.length = 2 ^ k) : ((x.level op)^[k] l).length = 1 := by
  induction k generalizing l with
  | zero => exact h
  | succ k ih => exact ih (by rw [length_level, h, Nat.pow_succ]; omega)

/-- The root of the tree over the elements of a register. -/
def vRoot (x : VCtx) (op : Nat) (k : Word) (v : VWord) : VNode := ((x.level op)^[vLog x.c] (vLeaves x.c k v)).headD (none, 0)

theorem headD_of_forall {P : VNode → Prop} {l : List VNode} {d : VNode} (hd : P d) (hl : ∀ n ∈ l, P n) : P (l.headD d) := by
  cases l with
  | nil => exact hd
  | cons a r => exact hl a List.mem_cons_self

/-- The value of a node is that of an element. -/
def NodeFits (c : Nat) (n : VNode) : Prop := ∀ v, n.1 = some v → v < 2 ^ bits c

theorem nodeFits_join {a b : VNode} (ha : NodeFits x.c a) (hb : NodeFits x.c b) : NodeFits x.c (x.join op a b) := by
  obtain ⟨p | p, f⟩ := a
  · rwa [join_absent_left]
  obtain ⟨q | q, f'⟩ := b
  · rwa [join_absent_right]
  · rintro v ⟨⟩
    exact node_lt x op (ha p rfl) (hb q rfl)

theorem nodeFits_leaves (c : Nat) (k : Word) (v : VWord) : ∀ n ∈ vLeaves c k v, NodeFits c n := by
  intro n hn
  obtain ⟨e, -, rfl⟩ := List.mem_map.1 hn
  intro y hy
  split at hy
  · cases hy
    rw [vWidth_eq]
    exact elem_lt c v e
  · cases hy

theorem vRoot_lt (x : VCtx) (op : Nat) (k : Word) (v : VWord) : ((vRoot x op k v).1.getD (vEmpty x.c op)) < 2 ^ bits x.c := by
  have h : NodeFits x.c (vRoot x op k v) := headD_of_forall (by rintro v ⟨⟩)
    (mem_iterate_level (fun _ _ => nodeFits_join) _ (nodeFits_leaves x.c k v))
  cases hr : (vRoot x op k v).1 with
  | none => exact vEmpty_lt x.c op
  | some y => exact h y hr

/-! ## Sums of integers (R109, R242) -/

/-- An integer element is its code modulo its width (R94). -/
theorem intElem_modEq (c x : Nat) : intElem c x ≡ x [ZMOD (2 ^ vWidth c : Nat)] := by
  have hs (w : Nat) : toSigned w x ≡ x [ZMOD (2 ^ w : Nat)] := by
    unfold toSigned
    dsimp only
    split
    · rw [Int.natCast_mod]
      exact Int.mod_modEq ..
    · rw [Int.natCast_mod]
      exact (Int.sub_modulus_modEq_iff.2 .rfl).trans (Int.mod_modEq ..)
  unfold intElem
  split
  · rw [Int.natCast_mod]
    exact Int.mod_modEq ..
  · exact hs _

theorem node_add {a b : Nat} (hc : ffmtOf x.c = none) (ht : x.sat = false) : x.node 0 a b = ((a + b) % 2 ^ bits x.c, 0) := by
  have hm := (intElem_modEq x.c a).add (intElem_modEq x.c b)
  rw [VCtx.node, VCtx.arith, hc]
  simp only [VCtx.int, ht, Bool.false_eq_true, if_false, truncInt]
  rw [hm, ← Nat.cast_add, ← Int.natCast_mod, Int.toNat_natCast, vWidth_eq]

/-- What a node adds to a sum: nothing when it is absent. -/
def nodeVal (n : VNode) : Nat := n.1.getD 0

theorem nodeVal_join (hc : ffmtOf x.c = none) (ht : x.sat = false) (a b : VNode) :
    nodeVal (x.join 0 a b) ≡ nodeVal a + nodeVal b [MOD 2 ^ bits x.c] := by
  obtain ⟨p | p, f⟩ := a
  · rw [join_absent_left, show nodeVal (none, f) = 0 from rfl, Nat.zero_add]
    rfl
  obtain ⟨q | q, f'⟩ := b
  · rfl
  · rw [join_present, node_add hc ht]
    exact Nat.mod_modEq ..

theorem join_flags (hc : ffmtOf x.c = none) (ht : x.sat = false) (a b : VNode) (ha : a.2 = 0) (hb : b.2 = 0) : (x.join 0 a b).2 = 0 := by
  obtain ⟨p | p, f⟩ := a <;> obtain rfl : f = 0 := ha
  · rw [join_absent_left, hb, BitVec.or_self]
  obtain ⟨q | q, f'⟩ := b <;> obtain rfl : f' = 0 := hb
  · rw [join_absent_right, BitVec.or_self]
  · rw [join_present, node_add hc ht, BitVec.or_self, BitVec.or_self]

/-- A level keeps the sum of its nodes. -/
theorem sum_level (hc : ffmtOf x.c = none) (ht : x.sat = false) (l : List VNode) :
    ((x.level 0 l).map nodeVal).sum ≡ (l.map nodeVal).sum [MOD 2 ^ bits x.c] := by
  induction l using VCtx.level.induct with
  | case1 a b r ih =>
    simp only [VCtx.level, List.map_cons, List.sum_cons, ← Nat.add_assoc]
    exact (nodeVal_join hc ht a b).add ih
  | case2 l h => rw [VCtx.level.eq_2 x 0 l h]

theorem sum_iterate_level (hc : ffmtOf x.c = none) (ht : x.sat = false) (k : Nat) (l : List VNode) :
    (((x.level 0)^[k] l).map nodeVal).sum ≡ (l.map nodeVal).sum [MOD 2 ^ bits x.c] := by
  induction k generalizing l with
  | zero => rfl
  | succ k ih => exact (ih _).trans (sum_level hc ht l)

theorem length_vLeaves (c : Nat) (k : Word) (v : VWord) : (vLeaves c k v).length = 2 ^ vLog c := by
  rw [vLeaves, List.length_map, List.length_range, vLog, vLen_eq, count]
  rcases bits_cases c with h | h | h | h <;> rw [h] <;> decide

theorem map_nodeVal_leaves (c : Nat) (k : Word) (v : VWord) :
    (vLeaves c k v).map nodeVal = (List.range (count c)).map (fun e => if active c k e then elem c v e else 0) := by
  rw [vLeaves, List.map_map, vLen_eq]
  refine List.map_congr_left fun e _ => ?_
  rw [Function.comp_apply, nodeVal, vActive_eq, vWidth_eq]
  split <;> rfl

/-- The root of an integer sum: the sum of the active elements, without a flag. -/
theorem vRoot_add (hc : ffmtOf x.c = none) (ht : x.sat = false) (k : Word) (v : VWord) :
    (vRoot x 0 k v).2 = 0 ∧ (vRoot x 0 k v).1.getD (vEmpty x.c 0) =
      (((List.range (count x.c)).map (fun e => if active x.c k e then elem x.c v e else 0)).sum) % 2 ^ bits x.c := by
  have hflags : ∀ n ∈ vLeaves x.c k v, n.2 = 0 := by
    intro n hn
    obtain ⟨e, -, rfl⟩ := List.mem_map.1 hn
    rfl
  refine ⟨headD_of_forall (P := fun n => n.2 = 0) rfl (mem_iterate_level (P := fun n => n.2 = 0) (join_flags hc ht) _ hflags), ?_⟩
  have hlt := vRoot_lt x 0 k v
  have hsum := sum_iterate_level hc ht (vLog x.c) (vLeaves x.c k v)
  obtain ⟨n, hn⟩ := List.length_eq_one_iff.1 (length_iterate_level x 0 (vLog x.c) (length_vLeaves x.c k v))
  rw [map_nodeVal_leaves, hn, List.map_singleton, List.sum_singleton] at hsum
  rw [vRoot, hn, List.headD_cons, vEmpty_add] at hlt ⊢
  exact (Nat.mod_eq_of_lt hlt).symm.trans hsum

end

/-! ## VRED (R242) -/

/-- A number that fits element 0 leaves zeros in the others. -/
theorem elem_ofNat {c e n : Nat} (hn : n < 2 ^ bits c) (he : e < count c) : elem c (BitVec.ofNat 2048 n) e = if e = 0 then n else 0 := by
  have hp : (BitVec.ofNat 2048 n : VWord) = vPackList (bits c) [n] := by
    rw [vPackList, packList, packList, Nat.mul_zero, Nat.mod_eq_of_lt hn]
    rfl
  rw [hp, elem_vPackList _ he]
  cases e with
  | zero => exact Nat.mod_eq_of_lt hn
  | succ e => rfl

section
variable {s : State} {g : Guard} {d a b : VReg} {k : KReg} {vx : Option VX}

/-- VRED as its root (R242). -/
theorem exec_vred : exec (.vred g d a k vx) s = vOp g 10 d (fun r =>
    let x := vCtx r 0 vx
    let op := vxRedOp (Machine.vxOf 0 vx)
    let root := vRoot x op (r.rdK k) (r.rdV a)
    (BitVec.ofNat 2048 (root.1.getD (vEmpty x.c op)), root.2)) s := by
  change execVred g d a k vx s = _
  simp only [execVred, levels_getLastD]
  rfl

theorem lands_vred (hg : s.arch.guardOn 3 g = true) :
    let x : VCtx := ⟨code 0 vx, mode s.arch vx, sats vx⟩
    let op := vxRedOp (Machine.vxOf 0 vx)
    let root := vRoot x op (s.arch.rdK k) (s.arch.rdV a)
    Lands (.vred g d a k vx) s 10 3 root.2 (.v d (BitVec.ofNat 2048 (root.1.getD (vEmpty x.c op)))) := by
  have h := lands_of_vOp hg (exec_vred (d := d) (a := a) (k := k) (vx := vx))
  simp only [vCtx_eq] at h
  exact h

/-! ## VDOT (R243) -/

/-- The pairs of elements that lane `i` combines. -/
def dotPairs (c : Nat) (a b : VWord) (i : Nat) : List (Nat × Nat) :=
  (List.range (32 / bits c)).map (fun j => (elem c a (32 / bits c * i + j), elem c b (32 / bits c * i + j)))

theorem foldl_add_eq_sum {α : Type} (f : α → Int) (t : Int) (l : List α) : l.foldl (fun t e => t + f e) t = t + (l.map f).sum := by
  have h := List.foldl_assoc (op := (HAdd.hAdd : Int → Int → Int)) (l := l.map f) (a₁ := t) (a₂ := 0)
  rwa [add_zero, ← List.sum_eq_foldl, List.foldl_map] at h

/-- An INT32 result wraps, or is held to the range with SV (R180). -/
theorem int32_eq_intResult (m : Rm) (sat : Bool) (v : Int) : VCtx.int ⟨8, m, sat⟩ v = intResult 8 sat v := by
  have hb : bits 8 = 32 := rfl
  have hlo : (intRange 8).1 = -(2 ^ (32 - 1) : Nat) := rfl
  have hhi : (intRange 8).2 = (2 ^ (32 - 1) : Nat) - 1 := rfl
  simp only [VCtx.int, intResult, clampInt, truncInt, vWidth_eq, hb, hlo, hhi]
  generalize -((2 ^ (32 - 1) : Nat) : Int) = lo
  generalize ((2 ^ (32 - 1) : Nat) : Int) - 1 = hi
  cases sat with
  | false => simp
  | true =>
    rcases lt_or_ge v lo with h | h
    · simp [h, h.ne']
    · rcases lt_or_ge hi v with h' | h'
      · simp [h.not_gt, h', h'.ne]
      · simp [h.not_gt, h'.not_gt]

theorem toSigned_32 {x : Nat} (h : x < 2 ^ 32) : toSigned 32 x = (BitVec.ofNat 32 x).toInt := by
  rw [BitVec.toInt_eq_toNat_cond, BitVec.toNat_ofNat, Nat.mod_eq_of_lt h, toSigned, Nat.mod_eq_of_lt h]
  split <;> split <;> omega

/-- A lane rounds, or wraps, the exact sum of its products and its old value. -/
theorem dotLane_eq (x : VCtx) (a b old : VWord) (i : Nat) : x.dotLane a b old i =
    match ffmtOf x.c with
    | some F => FFmt.fp32.round x.rm false (sumEx x.rm ((dotPairs x.c a b i).any (fun e => (mulV (F.decode e.1) (F.decode e.2)).2)
          || infClash ((dotPairs x.c a b i).map (fun e => (mulV (F.decode e.1) (F.decode e.2)).1)))
        (FFmt.fp32.decode (elem 0 old i) :: (dotPairs x.c a b i).map (fun e => (mulV (F.decode e.1) (F.decode e.2)).1)))
    | none => intResult 8 x.sat ((BitVec.ofNat 32 (elem 0 old i)).toInt
        + ((dotPairs x.c a b i).map (fun e => intElem x.c e.1 * intElem x.c e.2)).sum) := by
  have hn : 4 / unitBytes x.c = 32 / bits x.c := by
    rw [← vWidth_eq, vWidth, show 32 = 8 * 4 from rfl, Nat.mul_div_mul_left _ _ (by decide : 0 < 8)]
  have he : vElem 32 old i = elem 0 old i := rfl
  have hp : (List.range (4 / unitBytes x.c)).map (fun j => (vElem (vWidth x.c) a (4 / unitBytes x.c * i + j),
      vElem (vWidth x.c) b (4 / unitBytes x.c * i + j))) = dotPairs x.c a b i := by rw [hn, vWidth_eq]; rfl
  simp only [VCtx.dotLane, hp, he]
  cases ffmtOf x.c with
  | some F => simp only [products, List.map_map, List.any_map, Function.comp_def]
  | none =>
    dsimp only
    rw [foldl_add_eq_sum, toSigned_32 (elem_lt 0 old i), int32_eq_intResult]

/-! ## VSO (R244) -/

theorem vRelu_eq (F : FFmt) (y : Nat) : vRelu F y = if (F.decode y).isNaN then F.nan else if (F.decode y).neg? then 0 else y := by
  unfold vRelu
  cases F.decode y <;> rfl

/-- The fused product and sum of element `e`, rounded. -/
def scaled (x : VCtx) (F : FFmt) (a b c : VWord) (e : Nat) : Nat × Flags :=
  F.round x.rm x.sat (fmaEx x.rm (F.decode (elem x.c a e)) (F.decode (elem x.c b e)) (F.decode (elem x.c c e)))

/-- The forms that write their destination. -/
theorem wise_vso {F : FFmt} (hg : s.arch.guardOn 3 g = true) (hF : ffmtOf (code 0 vx) = some F) (h2 : vxRedOp (Machine.vxOf 0 vx) ≠ 2) :
    Wise (.vso g d a b k vx) s 5 (code 0 vx) k d (fun e =>
      let y := scaled ⟨code 0 vx, mode s.arch vx, sats vx⟩ F (s.arch.rdV a) (s.arch.rdV b) (s.arch.rdV (b + 1)) e
      (if vxRedOp (Machine.vxOf 0 vx) = 1 then vRelu F y.1 else y.1, y.2)) := by
  have he : exec (.vso g d a b k vx) s = _ := if_neg h2
  refine wise_of_vOp hg he ?_
  simp only [vCtx_eq, hF, vWidth_eq]
  rfl

/-- The gradient form writes the scale and the offset register. -/
theorem issues_vso_grad {F : FFmt} (hg : s.arch.guardOn 3 g = true) (hF : ffmtOf (code 0 vx) = some F)
    (h2 : vxRedOp (Machine.vxOf 0 vx) = 2) :
    let x : VCtx := ⟨code 0 vx, mode s.arch vx, sats vx⟩
    let p := vMap x.c (s.arch.rdK k) (s.arch.rdV b) (scaled x F (s.arch.rdV d) (s.arch.rdV a) (s.arch.rdV b))
    let q := vMap x.c (s.arch.rdK k) (s.arch.rdV (b + 1)) (fun e =>
      F.round x.rm x.sat (addV x.rm (F.decode (elem x.c (s.arch.rdV (b + 1)) e)) (F.decode (elem x.c (s.arch.rdV d) e))))
    Issues (.vso g d a b k vx) s ((s.result 5 3 p.2 (.v b p.1)).result 5 3 q.2 (.v (b + 1) q.1)) := by
  have he : exec (.vso g d a b k vx) s = _ := if_pos h2
  have h := he.trans (issueF_on hg)
  simp only [vCtx_eq, hF, vWidth_eq] at h
  exact h

/-! ## Complex products (R245) -/

theorem wise_vCpxOp {i : Instr} {lat : Nat} {f : VCtx → Nat → Nat → Nat → Nat × Flags} (hg : s.arch.guardOn 3 g = true)
    (hi : exec i s = vCpxOp g lat d a b k vx f s) :
    let cc := cpxCode (code 0 vx)
    Wise i s lat cc k d (fun e => f ⟨cc, mode s.arch vx, sats vx⟩ (elem cc (s.arch.rdV a) e) (elem cc (s.arch.rdV b) e)
      (elem cc (s.arch.rdV d) e)) := by
  refine wise_of_vOp hg hi ?_
  simp only [vCtx_eq, vxOf_fmt, vWidth_eq]
  rfl

end

/-- Settles O37: VRED by the bounds and the sum of its root, the others as element-wise instructions. -/
theorem vectorSums : Obligations.VectorSums := by
  unfold Obligations.VectorSums
  intro s g d a b k vx hg c m t K A B B1 D form cc
  have hform : form = vxRedOp (Machine.vxOf 0 vx) := by cases vx <;> rfl
  clear_value form
  subst hform
  refine ⟨?vred, ?vscan, ?vdot, ?vso, ?vcmul, ?vcmac, ?vconj⟩
  case vred =>
    have hlt := vRoot_lt ⟨code 0 vx, mode s.arch vx, sats vx⟩ (vxRedOp (Machine.vxOf 0 vx)) (s.arch.rdK k) (s.arch.rdV a)
    refine ⟨_, _, lands_vred hg, fun e h0 he => by rw [elem_ofNat hlt he, if_neg h0.ne'], fun h5 _ hadd ht => ?_⟩
    rw [elem_ofNat hlt (count_pos _), if_pos rfl, hadd]
    exact vRoot_add (x := ⟨code 0 vx, mode s.arch vx, sats vx⟩) (ffmtOf_eq_none h5) ht (s.arch.rdK k) (s.arch.rdV a)
  case vscan =>
    exact wise_of_vOp hg (show exec (.vscan g d a k vx) s = execVscan g d a k vx s from rfl) (by rw [vCtx_eq])
  case vdot =>
    intro _ _
    refine wise_of_vOp hg (show exec (.vdot g d a b k vx) s = execVdot g d a b k vx s from rfl) ?_
    simp only [vCtx_eq, dotLane_eq]
    rfl
  case vso =>
    intro hc
    obtain ⟨F, hF⟩ := exists_ffmtOf (c := code 0 vx) (by omega)
    refine ⟨F, hF, fun h0 => ?_, fun h1 => ?_, fun h2 => ?_⟩
    · have h := wise_vso (d := d) (a := a) (b := b) (k := k) hg hF (by omega)
      simp only [h0] at h
      exact h
    · have h := wise_vso (d := d) (a := a) (b := b) (k := k) hg hF (by omega)
      simp only [h1, if_true, vRelu_eq] at h
      exact h
    · exact ⟨_, _, _, _, issues_vso_grad hg hF h2, elements_vMap .., elements_vMap ..⟩
  case vcmul => exact wise_vCpxOp hg (show exec (.vcmul g d a b k vx) s = execVcmul g d a b k vx s from rfl)
  case vcmac => exact wise_vCpxOp hg (show exec (.vcmac g d a b k vx) s = execVcmac g d a b k vx s from rfl)
  case vconj =>
    have h := wise_vCpxOp hg (show exec (.vconj g d a k vx) s = execVconj g d a k vx s from rfl)
    simp only [vWidth_eq] at h
    exact h

end Sys2Proof
end

