-- ==== Sys2Proof/Proofs/WindowWrites.lean ====
section
/-!
PROOFS. Writes of the windows of the host (R122, R123, R134, R138, R163, R164, R218, R419, R439; O56): one rule per register and, for STATE
of a control block, one per state that the write finds.
-/
namespace Sys2Proof
open Machine Claim
set_option Elab.async false

/-! ## The value of a field of which every byte is written (R8) -/

theorem ofBytes_map_range (v n : Nat) : ofBytes ((List.range n).map (fun i => BitVec.ofNat 8 (v / 256 ^ i))) = v % 256 ^ n := by
  induction n generalizing v with
  | zero => simp [ofBytes, Nat.mod_one]
  | succ n ih =>
    have htail : (List.range n).map ((fun i => BitVec.ofNat 8 (v / 256 ^ i)) ∘ Nat.succ)
        = (List.range n).map (fun i => BitVec.ofNat 8 (v / 256 / 256 ^ i)) :=
      List.map_congr_left fun i _ => by simp only [Function.comp_apply, Nat.succ_eq_add_one, Nat.pow_succ', Nat.div_div_eq_div_mul]
    rw [List.range_succ_eq_map, List.map_cons, List.map_map, htail, ofBytes, ih, Nat.pow_succ', Nat.mod_mul]
    simp only [Nat.pow_zero, Nat.div_one, BitVec.toNat_ofNat]

theorem upd_whole {o n v : Nat} (old : Nat) (h : v < 256 ^ n) : HostWrite.upd ⟨o, n, v⟩ o n old = v := by
  refine Eq.trans ?_ ((ofBytes_map_range v n).trans (Nat.mod_eq_of_lt h))
  refine congrArg ofBytes (List.map_congr_left fun i hi => ?_)
  have hi : i < n := List.mem_range.1 hi
  simp [HostWrite.covers, hi]

section
variable {s : State} {fn mc n p q slot : Nat}

/-! ## Parts of the state after an update -/

theorem mcAt_onMc (s : State) (m d : Nat) (f : Mc → Mc) : (s.onMc m f).mcAt d = if d = m then f (s.mcAt m) else s.mcAt d :=
  State.mcAt_setMc ..

theorem partAt_onPart (s : State) (p d : Nat) (f : Part → Part) : (s.onPart p f).partAt d = if d = p then f (s.partAt p) else s.partAt d :=
  State.partAt_setPart ..

/-- Another control block reads as before. -/
theorem mcAt_onMc_ne {m d : Nat} {f : Mc → Mc} (h : d ≠ m) : (s.onMc m f).mcAt d = s.mcAt d := by rw [mcAt_onMc, if_neg h]

theorem mcAt_onMc_self (s : State) (m : Nat) (f : Mc → Mc) : (s.onMc m f).mcAt m = f (s.mcAt m) := by rw [mcAt_onMc, if_pos rfl]

theorem mcAt_onPart (s : State) (p d : Nat) (f : Part → Part) : (s.onPart p f).mcAt d = s.mcAt d := rfl

theorem fenceAt_onPart (s : State) (p d : Nat) (f : Part → Part) : (s.onPart p f).fenceAt d = s.fenceAt d := rfl

/-! ## TWAYS (R218) -/

theorem clcfg_eq (v : Nat) : s.clcfg q v = s.setCluster q (if s.clusterHeld q then { s.clusterAt q with pend := some (BitVec.ofNat 4 (min 14 v)) }
    else { s.clusterAt q with tways := BitVec.ofNat 4 (min 14 v), pend := none }) := by
  unfold State.clcfg
  simp only [clampTo, Nat.zero_max]
  split <;> rfl

theorem exec_clcfgWrite (v : Word) (hq : q < 48) : Becomes (.clcfgWrite 0 q v) s (s.clcfg q (v.toNat % 16)) := by
  change execClcfgWrite 0 q v s = _
  simp [execClcfgWrite, hq]

theorem exec_twaysPendingApply {w : BitVec 4} (hp : (s.clusterAt q).pend = some w) (hf : s.clusterHeld q = false) :
    Becomes (.twaysPendingApply q) s (s.setCluster q { s.clusterAt q with tways := w, pend := none }) := by
  change execTwaysPendingApply q s = _
  simp [execTwaysPendingApply, State.twaysApply, hp, hf]

/-! ## STATE of a control block (R123) -/

section
variable (hr : s.reaches fn mc = true)
include hr

theorem exec_mctxWriteIdle : Becomes (.mctxWriteIdle fn mc) s (s.mctxIdle fn mc) := by
  change execMctxWriteIdle fn mc s = _
  rw [execMctxWriteIdle, if_pos hr]

theorem exec_mctxWriteHalted : Becomes (.mctxWriteHalted fn mc) s (s.mctxHalted mc) := by
  change execMctxWriteHalted fn mc s = _
  rw [execMctxWriteHalted, if_pos hr]

theorem exec_mctxWriteFree : Becomes (.mctxWriteFree fn mc) s (s.mctxFree mc) := by
  change execMctxWriteFree fn mc s = _
  rw [execMctxWriteFree, if_pos hr]

end

theorem reaches_of (hm : mc < 16384) (h : fn = 0 ∨ ((s.partAt fn).active = true ∧ (s.mcAt mc).part.toNat = fn)) : s.reaches fn mc = true := by
  rcases h with rfl | ⟨ha, hp⟩
  · simp [State.reaches, hm]
  · simp [State.reaches, hm, ha, hp]

/-- An install. -/
theorem mctxIdle_free (hs : (s.mcAt mc).state = .free) (hi : s.installable mc = true) :
    s.mctxIdle fn mc
      = (s.onMc mc (fun m => { m with state := .idle })).onPart (s.mcAt mc).part.toNat (fun p => { p with mctxU := p.mctxU + 1 }) := by
  simp only [State.mctxIdle, hs, if_pos hi]

theorem mctxIdle_halted (hs : (s.mcAt mc).state = .halted) : s.mctxIdle fn mc = s.decideMc mc true := by
  simp only [State.mctxIdle, hs]

/-- The host takes a micro-context out of HALTED: its state is decided. -/
theorem state_decideMc_halted (hs : (s.mcAt mc).state = .halted) : ((s.decideMc mc true).mcAt mc).state = s.decideTo mc := by
  unfold State.decideMc
  simp only [hs, Bool.not_true, Bool.and_false, Bool.or_false]
  rw [if_neg (by decide), mcAt_onMc_self]

/-- A write of HALTED to an IDLE block without a binding. -/
theorem mctxHalted_idle (hs : (s.mcAt mc).state = .idle) (hb : s.bindsOf mc = []) :
    s.mctxHalted mc = ({ s with reserves := s.reserves.filter (·.mc != mc) } : State).onMc mc (fun m => { m with state := .halted }) := by
  unfold State.mctxHalted
  simp only [hs]
  rw [if_neg (by decide)]
  change List.foldl _ _ (s.bindsOf mc) = _
  rw [hb]
  rfl

/-- A write of FREE to a HALTED block that holds nothing. -/
theorem mctxFree_empty (hs : (s.mcAt mc).state = .halted) (hc : (s.mcAt mc).conts = 0) (hq : (s.mcAt mc).rqhead = (s.mcAt mc).rqtail)
    (hu : (s.mcAt mc).unexp = []) :
    s.mctxFree mc = (s.onMc mc (fun m => { m with
        state := .free, rqhead := m.rqtail, unexp := [], hreqs := [], ringNew := [], broken := [], told := [] })).onPart (s.mcAt mc).part.toNat
      (fun p => { p with mctxU := p.mctxU - 1 }) := by
  simp [State.mctxFree, hs, hc, hq, hu, State.dropRequests]

/-! ## Fields that may be written in any state (R122) -/

/-- A write that touches neither a field that is locked nor STATE, to a block that is neither FREE nor HALTED. -/
theorem mctxWrite_open {w : HostWrite} (hr : s.reaches fn mc = true) (hs : (s.mcAt mc).state = .idle)
    (hl : ∀ f ∈ mcLocked, w.hits f.off f.n = false) (h0 : w.covers 0 = false) :
    s.mctxWrite fn mc w = s.onMc mc (writeFields mcOpen w) := by
  have hnone : (mcLocked.filter (fun f => fn == 0 || f.off != 1)).filter (fun f => w.hits f.off f.n) = [] :=
    List.filter_eq_nil_iff.2 fun f hf => by simp [hl f (List.mem_filter.1 hf).1]
  unfold State.mctxWrite
  simp only [hr, hs, h0, hnone, List.foldl_nil]
  rfl

theorem writeFields_tickets (v : Nat) (m : Mc) (h1 : 1 ≤ v) (h2 : v < 2 ^ 16) :
    writeFields mcOpen ⟨8, 2, v⟩ m = recomputeStride { m with tickets := BitVec.ofNat 16 v } := by
  have hc : clampTo 1 65535 v = v := by rw [clampTo]; omega
  have hu (old : Nat) : HostWrite.upd ⟨8, 2, v⟩ 8 2 old = v := upd_whole old h2
  simp [writeFields, mcOpen, vaField, HostWrite.hits, hu, hc]

theorem exec_ticketsWrite {v : Nat} (hr : s.reaches fn mc = true) (hs : (s.mcAt mc).state = .idle) (h1 : 1 ≤ v) (h2 : v < 2 ^ 16) :
    Becomes (.ticketsWrite fn mc v) s (s.onMc mc (fun m => recomputeStride { m with tickets := BitVec.ofNat 16 v })) := by
  change Host.Outcome.next (s.mctxWrite fn mc ⟨8, 2, v⟩) = _
  rw [mctxWrite_open hr hs (by simp [mcLocked, vaField, HostWrite.hits]) rfl, State.onMc, writeFields_tickets v _ h1 h2]
  rfl

theorem writeFields_paramver (v : VAddr) (m : Mc) : writeFields mcOpen ⟨96, 16, v.toNat⟩ m = { m with paramver := v } := by
  have hu (old : Nat) : HostWrite.upd ⟨96, 16, v.toNat⟩ 96 16 old = v.toNat := upd_whole old (Nat.lt_trans v.isLt (by decide))
  simp [writeFields, mcOpen, vaField, HostWrite.hits, hu]

theorem exec_paramverWrite (v : VAddr) (hr : s.reaches fn mc = true) (hs : (s.mcAt mc).state = .idle) :
    Becomes (.paramverWrite fn mc v) s (s.onMc mc (fun m => { m with paramver := v })) := by
  change Host.Outcome.next (s.mctxWrite fn mc ⟨96, 16, v.toNat⟩) = _
  rw [mctxWrite_open hr hs (by simp [mcLocked, vaField, HostWrite.hits]) rfl, State.onMc, writeFields_paramver]
  rfl

/-- What a write of TICKETS leaves: STRIDE goes with it, STATE stays (R138). -/
theorem recomputeStride_tickets {v : Nat} (m : Mc) (h : v < 2 ^ 16) :
    recomputeStride { m with tickets := BitVec.ofNat 16 v }
      = { m with tickets := BitVec.ofNat 16 v, stride := BitVec.ofNat 32 (2 ^ 20 / min (v + m.borrow.toNat) (2 ^ 20)) } := by
  simp only [recomputeStride, BitVec.toNat_ofNat, Nat.mod_eq_of_lt h]

/-! ## Fence counters (R163, R164) -/

theorem exec_fenceAlloc (hn : n ≤ 65535) (hp : p ≤ 63) (ha : (s.fenceAt n).alloc = false) (hact : (s.partAt p).active = true)
    (hq : (s.partAt p).fenceU < (s.partAt p).fenceQ) :
    Becomes (.fenceAlloc 0 n p) s ((s.setFence n { s.fenceAt n with
        value := 0, sv := false, signal := 0, alloc := true, owner := BitVec.ofNat 6 p, err := false, errcnt := 0 }).onPart p
      (fun x => { x with fenceU := x.fenceU + 1 })) := by
  have hc : ((s.fenceAt n).alloc || decide (63 < p) || decide (65535 < n) || !(s.partAt p).active
      || decide ((s.partAt p).fenceQ ≤ (s.partAt p).fenceU)) = false := by
    simp [ha, hact, hq, Nat.not_lt.2 hp, Nat.not_lt.2 hn]
  change Host.Outcome.next (if 0 = 0 then s.fenceAlloc n p else s) = _
  simp only [if_true, State.fenceAlloc, hc]
  rfl

/-- The end of a counter takes its allocation last. -/
theorem alloc_fenceFree (ha : (s.fenceAt n).alloc = true) : ((s.fenceFree n).fenceAt n).alloc = false := by
  unfold State.fenceFree
  simp only [ha, Bool.not_true, Bool.false_eq_true, if_false]
  change ((State.setFence _ n _).fenceAt n).alloc = false
  rw [State.fenceAt_setFence, if_pos rfl]

/-! ## CONTCTL (R419, R439) -/

/-- A write for a TRAPPED continuation of the function's partition passes the checks. -/
theorem contctl_trapped {f : State → State} (ha : (s.partAt fn).active = true) (hp : (s.mcAt mc).part.toNat = fn)
    (hs : slot < (s.mcAt mc).frames.toNat) (ht : (s.contAt (contKey mc slot)).state = .trapped) : s.contctl fn mc slot f = f s := by
  rw [State.contctl, if_neg]
  simp [ha, hp, hs, ht]

end

/-- Settles O56: each write by its own rule. -/
theorem windowWrites : Obligations.WindowWrites := by
  intro s
  refine ⟨?tways, fun q w => exec_twaysPendingApply, ?mctx, ?fence, ?contctl⟩
  case tways =>
    intro q v hq
    have h := exec_clcfgWrite (s := s) v hq
    rw [clcfg_eq] at h
    exact ⟨fun hf => by rwa [if_neg (by simp [hf])] at h, fun hf => by rwa [if_pos hf] at h⟩
  case mctx =>
    intro fn mc hmc hfn m
    have hr := reaches_of hmc hfn
    refine ⟨fun hs hi => ⟨_, exec_mctxWriteIdle hr, ?_⟩, fun hs => ⟨_, exec_mctxWriteIdle hr, ?_⟩,
      fun hs hb => ⟨_, exec_mctxWriteHalted hr, ?_⟩, fun hs hc hq hu => ⟨_, exec_mctxWriteFree hr, ?_⟩,
      fun hs v h1 h2 => ⟨_, exec_ticketsWrite hr hs h1 h2, ?_⟩, fun hs v => ⟨_, exec_paramverWrite v hr hs, ?_⟩⟩
    · rw [mctxIdle_free hs hi]
      refine ⟨?_, ?_, fun d hd => (mcAt_onPart ..).trans (mcAt_onMc_ne hd), .refl s⟩
      · rw [mcAt_onPart, mcAt_onMc_self]
      rw [partAt_onPart, if_pos rfl]
      rfl
    · rw [mctxIdle_halted hs]
      exact state_decideMc_halted hs
    · rw [mctxHalted_idle hs hb]
      exact ⟨congrArg Mc.state (mcAt_onMc_self ..), fun d hd => mcAt_onMc_ne hd, rfl, .refl s⟩
    · rw [mctxFree_empty hs hc hq hu]
      refine ⟨?_, ?_, fun d hd => (mcAt_onPart ..).trans (mcAt_onMc_ne hd), .refl s⟩
      · rw [mcAt_onPart, mcAt_onMc_self]
      rw [partAt_onPart, if_pos rfl]
      rfl
    · rw [mcAt_onMc_self, recomputeStride_tickets _ h2]
      exact ⟨rfl, rfl, hs, fun d hd => mcAt_onMc_ne hd, .refl s⟩
    · rw [mcAt_onMc_self]
      exact ⟨rfl, rfl, fun d hd => mcAt_onMc_ne hd, .refl s⟩
  case fence =>
    intro n p hn hp
    refine ⟨fun ha hact hq => ⟨_, exec_fenceAlloc hn hp ha hact hq, ?_, ?_, fun m hm => ?_, .refl s⟩,
      fun ha => ⟨s.fenceFree n, rfl, alloc_fenceFree ha⟩⟩
    · rw [fenceAt_onPart, State.fenceAt_setFence, if_pos rfl]
    · rw [partAt_onPart, if_pos rfl]
      rfl
    · rw [fenceAt_onPart, State.fenceAt_setFence, if_neg hm]
  case contctl =>
    intro fn mc slot ha hp hs k ht
    have hpass (f : State → State) : Host.Outcome.next (s.contctl fn mc slot f) = (.next (f s) : Out) :=
      congrArg _ (contctl_trapped ha hp hs ht)
    exact ⟨hpass _, hpass _, hpass _⟩

end Sys2Proof
end

