-- ==== Sys2Proof/Proofs/ShepherdSteps.lean ====
section
/-!
PROOFS. The Shepherd (R132, R133, R137, R140, R141, R142, R147, R479; O54): what a placement takes, what a continuation that waits keeps, and
one rule per step of the Shepherd.
-/
namespace Sys2Proof
open Machine Claim
set_option Elab.async false

/-! ## Free placements (R131, R132) -/

/-- A pen that a free placement may take. -/
def PenFree (s : State) (p : Nat) : Prop := s.penPresent p = true ∧ s.holderOf p = none ∧ s.penReserved p = false

section
variable {s t : State} {h : Shape} {die k : Nat} {acc pl : List (Nat × List Nat)}

/-- The stages that are still to be placed join those that are, each on free pens. -/
theorem placeOn_free (hp : s.placeOn h die k acc = some pl) (hacc : ∀ e ∈ acc, ∀ p ∈ e.2, PenFree s p) :
    pl.length = acc.length + k ∧ ∀ e ∈ pl, ∀ p ∈ e.2, PenFree s p := by
  induction k generalizing acc with
  | zero =>
    cases hp
    exact ⟨rfl, hacc⟩
  | succ k ih =>
    simp only [State.placeOn] at hp
    split at hp
    case h_2 => cases hp
    case h_1 q _ =>
      obtain ⟨hl, hpl⟩ := ih hp fun e he p hpe => by
        rcases List.mem_append.1 he with he | he
        · exact hacc e he p hpe
        · rw [List.mem_singleton.1 he] at hpe
          have := (List.mem_filter.1 (List.mem_of_mem_take hpe)).2
          simp only [Bool.and_eq_true, Option.isNone_iff_eq_none, Bool.not_eq_true'] at this
          obtain ⟨⟨⟨⟨h1, h2⟩, h3⟩, -⟩, -⟩ := this
          exact ⟨h1, h2, h3⟩
      refine ⟨?_, hpl⟩
      rw [hl, List.length_append, List.length_singleton]
      omega

theorem placeFree_free (hp : s.placeFree h = some pl) : pl.length = h.stages ∧ ∀ e ∈ pl, ∀ p ∈ e.2, PenFree s p := by
  obtain ⟨d, -, hd⟩ := List.exists_of_findSome?_eq_some hp
  have := placeOn_free hd (by simp)
  simpa using this

/-- A placement looks at nothing but its pens. -/
theorem placeOn_congr (h1 : ∀ p, s.penPresent p = t.penPresent p) (h2 : ∀ p, s.holderOf p = t.holderOf p)
    (h3 : ∀ p, s.penReserved p = t.penReserved p) : s.placeOn h die k acc = t.placeOn h die k acc := by
  induction k generalizing acc with
  | zero => rfl
  | succ k ih => simp only [State.placeOn, h1, h2, h3, ih]

theorem placeFree_congr (h1 : ∀ p, s.penPresent p = t.penPresent p) (h2 : ∀ p, s.holderOf p = t.holderOf p)
    (h3 : ∀ p, s.penReserved p = t.penReserved p) : s.placeFree h = t.placeFree h := by
  simp only [State.placeFree, placeOn_congr h1 h2 h3]

/-- What can be placed depends on the present units alone. -/
theorem placeable_units (hu : t.units = s.units) : t.placeable h = s.placeable h := by
  refine congrArg Option.isSome (placeFree_congr (fun p => ?_) (fun _ => rfl) fun _ => rfl)
  simp only [State.penPresent, hu]

theorem nextWork_of_selectable {m : Nat} (hs : s.selectable m = true) : ∃ w, s.nextWork m = some w ∧ s.placeable (s.shapeOf m w) = true := by
  simp only [State.selectable, Bool.and_eq_true, Option.any_eq_true_iff_get] at hs
  obtain ⟨⟨-, hw, hpl⟩, -⟩ := hs
  exact ⟨_, (Option.some_get hw).symm, hpl⟩

end

/-! ## Continuations that wait (R147) -/

theorem mem_of_get_ne {V : Type} {d : V} {m : SMap V} {k : Nat} (h : SMap.get d m k ≠ d) : (k, SMap.get d m k) ∈ m := by
  induction m with
  | nil => exact absurd rfl h
  | cons e r ih =>
    obtain ⟨i, v⟩ := e
    rw [SMap.get] at h ⊢
    split at h
    case isTrue hi => rw [if_pos hi, hi]; exact List.mem_cons_self
    case isFalse hi => rw [if_neg hi]; exact List.mem_cons_of_mem _ (ih h)

theorem firstIdx_holds {f : Nat → Bool} {n i j : Nat} (h : firstIdx f n i = some j) : f j = true := by
  induction n generalizing i with
  | zero => cases h
  | succ n ih =>
    rw [firstIdx] at h
    split at h
    case isTrue hf => cases h; exact hf
    case isFalse => exact ih h

section
variable {s : State} {b k : Nat}

theorem mem_conts (h : (s.contAt k).state ≠ .free) : (k, s.contAt k) ∈ s.conts :=
  mem_of_get_ne fun he => h (congrArg Cont.state he)

/-- A continuation that is not FREE keeps its binding. -/
theorem bindDone_false (hk : (s.contAt k).state ≠ .free) (hm : k / 4096 = (s.bindAt b).mc) (hb : (s.contAt k).bind = b) :
    s.bindDone b = false := by
  have : s.conts.any (fun e => e.1 / 4096 == (s.bindAt b).mc && e.2.bind == b && (e.2.state != .free || e.2.spawning)) = true :=
    List.any_eq_true.2 ⟨_, mem_conts hk, by simp [hm, hb, hk]⟩
  simp only [State.bindDone, this, Bool.not_true, Bool.and_false, Bool.false_and]

theorem freeSlot_free {mc fs : Nat} (h : s.freeSlot mc = some fs) : (s.contAt (contKey mc fs)).state = .free := by
  have := firstIdx_holds h
  simp only [Bool.and_eq_true, beq_iff_eq] at this
  exact this.1

theorem contKey_div_mod (k : Nat) : contKey (k / 4096) (k % 4096) = k := by
  rw [contKey]
  omega

theorem conts_foldl_onCoreAt (l : List (Nat × Core)) (f : Core → Core) : (l.foldl (fun t e => t.onCoreAt e.1 f) s).conts = s.conts :=
  List.foldlRecOn (motive := fun t : State => t.conts = s.conts) l _ rfl fun _ ht _ _ => ht

theorem conts_charge (s : State) (b : Nat) : (s.charge b).conts = s.conts := conts_foldl_onCoreAt _ _

theorem conts_preempt (s : State) (b : Nat) : (s.preempt b).conts = s.conts := by
  have hf : (s.freezeBinding b).conts = s.conts := by
    unfold State.freezeBinding
    split
    · rfl
    · exact conts_foldl_onCoreAt _ _
  unfold State.preempt
  dsimp only
  split
  · rfl
  · exact hf

/-! ## Slices (R138, R141, R142) -/

/-- The charge of a slice that has ended, the start of the next one, and the moment of selection. -/
def sliceEnded (s : State) (b : Nat) : State := ((s.charge b).onBind b (fun y => { y with sliceAt := s.rtc.toNat })).selectAt true

theorem exec_sliceEnd (s : State) (b : Nat) : Becomes (.sliceEnd b) s
    (if !(s.bindAt b).live || !(s.bindAt b).held || (s.bindAt b).pre || s.rtc.toNat < (s.bindAt b).sliceAt + 1000 * s.slice.toNat then s
      else if ((sliceEnded s b).wantedBy b).isSome && !(sliceEnded s b).npHeld b then (sliceEnded s b).preempt b else sliceEnded s b) := by
  change execSliceEnd b s = _
  rfl


theorem exec_sliceEnd_ended (hl : (s.bindAt b).live = true) (hh : (s.bindAt b).held = true) (hp : (s.bindAt b).pre = false)
    (ht : (s.bindAt b).sliceAt + 1000 * s.slice.toNat ≤ s.rtc.toNat) : Becomes (.sliceEnd b) s
      (if ((sliceEnded s b).wantedBy b).isSome && !(sliceEnded s b).npHeld b then (sliceEnded s b).preempt b else sliceEnded s b) := by
  have h := exec_sliceEnd s b
  rwa [if_neg (by simp [hl, hh, hp, Nat.not_lt.2 ht])] at h

/-- Whatever the end of a slice comes to, no continuation changes. -/
theorem sliceEnd_conts (s : State) (b : Nat) : ∃ t, Becomes (.sliceEnd b) s t ∧ t.conts = s.conts := by
  refine ⟨_, exec_sliceEnd s b, ?_⟩
  have he : (sliceEnded s b).conts = s.conts := conts_charge s b
  split
  · rfl
  · split
    · exact (conts_preempt _ b).trans he
    · exact he

theorem exec_npExpiry (hl : (s.bindAt b).live = true) (hh : (s.bindAt b).held = true)
    (ht : (s.bindAt b).boundat + 10000 * (s.mcAt (s.bindAt b).mc).npmax.toNat ≤ s.rtc.toNat)
    (hw : (s.onBind b (fun y => { y with npOver := true })).wantedBy b = none) :
    Becomes (.npExpiry b) s (s.onBind b (fun y => { y with npOver := true })) := by
  change execNpExpiry b s = _
  unfold execNpExpiry
  dsimp only
  rw [if_neg (by simp [hl, hh, Nat.not_lt.2 ht]), hw]

/-! ## The end of a binding (R137) -/

theorem bindAt_decideMc (s : State) (mc b : Nat) (host : Bool) : (s.decideMc mc host).bindAt b = s.bindAt b := by
  have hp : (s.passUp mc).binds = s.binds := by
    unfold State.passUp
    dsimp only
    split
    · split <;> rfl
    · rfl
  unfold State.decideMc
  dsimp only
  split
  · rfl
  · split
    · exact congrArg (SMap.get {} · b) hp
    · rfl

theorem bindAt_selectAt (s : State) (c : Bool) (b : Nat) : (s.selectAt c).bindAt b = s.bindAt b := rfl

theorem exec_bindingEnd_not (hd : s.bindDone b = false) : Becomes (.bindingEnd b) s s := by
  change execBindingEnd b s = _
  rw [execBindingEnd, if_pos (by rw [hd]; rfl)]

theorem exec_bindingEnd (hd : s.bindDone b = true) : ∃ t, Becomes (.bindingEnd b) s t ∧ t.bindAt b = {} := by
  refine ⟨_, congrArg Host.Outcome.next (if_neg (by simp [hd])), ?_⟩
  dsimp only
  rw [bindAt_decideMc, bindAt_selectAt, State.bindAt_setBind, if_pos rfl]

/-! ## Selection (R140, R141) -/

/-- How many moments of selection are left plays no part in the selection. -/
theorem selected_selDue (s : State) (n : Nat) : ({ s with selDue := n } : State).selected = s.selected := by
  have hs : ({ s with selDue := n } : State).selectable = s.selectable := by
    funext m
    unfold State.selectable
    simp only [placeable_units (s := s) (t := { s with selDue := n }) rfl]
    rfl
  unfold State.selected
  rw [hs]
  rfl

theorem exec_shepherdSelect_idle (h : s.selDue = 0) : Becomes .shepherdSelect s s := by
  change execShepherdSelect s = _
  rw [execShepherdSelect, if_pos (by simp [h])]

/-- The least pass gets the free placement that is found first. -/
theorem exec_shepherdSelect {y : Nat} {w : Option Nat} {pl : List (Nat × List Nat)} (hn : s.noBinding = false) (hd : s.selDue ≠ 0)
    (hy : s.selected = some y) (hw : s.nextWork y = some w) (hp : s.placeFree (s.shapeOf y w) = some pl) :
    Becomes .shepherdSelect s { s with selDue := s.selDue - 1, reserves := s.reserves ++ [⟨y, w, pl.map (·.1), pl.map (·.2)⟩] } := by
  have hy' : ({ s with selDue := s.selDue - 1 } : State).selected = some y := (selected_selDue s _).trans hy
  have hw' : ({ s with selDue := s.selDue - 1 } : State).nextWork y = some w := hw
  have hp' : ({ s with selDue := s.selDue - 1 } : State).placeFree (({ s with selDue := s.selDue - 1 } : State).shapeOf y w) = some pl :=
    (placeFree_congr (s := { s with selDue := s.selDue - 1 }) (t := s) (fun _ => rfl) (fun _ => rfl) fun _ => rfl).trans hp
  change execShepherdSelect s = _
  rw [execShepherdSelect, if_neg (by simp [hn, hd])]
  simp only [hy', hw', Option.getD_some, hp']

/-! ## Reservations (R133, R479) -/

section
variable {r : Reserve} {rest : List Reserve}

/-- A rebinding waits for the carried accesses of its continuations. -/
theorem exec_rebinding_settles (hr : s.reserves = [r]) (hb : r.rebind = some b) (hs : s.settles b = true) : Becomes .rebinding s s := by
  change execRebinding s = _
  unfold execRebinding
  rw [hr, List.find?_cons_of_neg (by simp [hb, hs]), List.find?_nil]

variable (hn : s.noBinding = false) (hr : s.reserves = r :: rest)
include hn hr

/-- The oldest reservation for a request gets its records, and is launched where its placement is free. -/
theorem exec_newBinding (hz : s.resFreezing r = true) (hb : r.rebind = none) (hh : (s.mcAt r.mc).state ≠ .halted)
    (hf : (s.mcAt r.mc).state ≠ .free) (hw : s.nextWork r.mc = some none) : Becomes .newBinding s
      (if s.resFree r && ((s.bindNew r).bindAt s.nextBind).live then (s.bindNew r).launch s.nextBind r else s.bindNew r) := by
  change execNewBinding s = _
  unfold execNewBinding
  rw [hr, List.find?_cons_of_pos (by simp [hn, hb, hz])]
  dsimp only
  rw [if_neg (by simp [hh, hf, hw])]

theorem exec_bindingLaunchAfterFreeze (hb : r.rebind = some b) (hl : (s.bindAt b).launching = true) (hf : s.resFree r = true)
    (hh : (s.mcAt r.mc).state ≠ .halted) : Becomes .bindingLaunchAfterFreeze s (s.launch b r) := by
  change execBindingLaunchAfterFreeze s = _
  unfold execBindingLaunchAfterFreeze
  rw [hr, List.find?_cons_of_pos (by simp [hn, hb, hl, hf, hh])]
  simp only [hb, Option.getD_some]

/-- A frozen binding whose continuations can run takes its placement, unless an access of the Shepherd fails or waits (R203, R205). -/
theorem exec_rebinding {u : State} (hb : r.rebind = some b) (hf : s.resFree r = true) (hl : (s.bindAt b).live = true)
    (hg : (s.bindAt b).launching = false) (hd : (s.bindAt b).held = false) (hs : s.settles b = false) (hh : (s.mcAt r.mc).state ≠ .halted)
    (hu : s.groupReach b ((s.rebindCores b r).map (·.2)) = u) : Becomes .rebinding s
      (if u.shepDown.isSome then u.shepUp
        else ((s.rebindCores b r).foldl (fun t e => t.startOn e.1 e.2) (u.hold b r)).decideMc r.mc false) := by
  change execRebinding s = _
  unfold execRebinding
  rw [hr, List.find?_cons_of_pos (by simp [hn, hb, hl, hg, hd, hs, hf])]
  simp only [hb, Option.getD_some, hu]
  rw [if_neg (by simp [hh])]

end

end

/-- Settles O54: the placements by `placeFree_free`, the continuations that wait by their entries, each step of the Shepherd by its rule. -/
theorem shepherdSteps : Obligations.ShepherdSteps := by
  refine ⟨fun s h => ⟨fun pl => placeFree_free, fun t => placeable_units, fun m => nextWork_of_selectable⟩, ?waits, ?steps⟩
  case waits =>
    intro s k b hk
    have hne : (s.contAt k).state ≠ .free := by rw [hk]; decide
    refine ⟨fun hm hb => exec_bindingEnd_not (bindDone_false hne hm hb), fun fs hfs he => ?_, ?_⟩
    · subst he
      have := freeSlot_free hfs
      rw [contKey_div_mod] at this
      exact hne this
    · obtain ⟨t, ht, hc⟩ := sliceEnd_conts s b
      exact ⟨t, ht, by rw [State.contAt, hc, State.contAt]⟩
  case steps =>
    intro s hn
    refine ⟨fun hd y w pl => exec_shepherdSelect hn hd, exec_shepherdSelect_idle, fun r rest hr hz => ⟨?new, ?again⟩,
      fun b => ⟨?slice, exec_npExpiry, exec_bindingEnd⟩⟩
    case new =>
      intro hb hh hf hw
      have h := exec_newBinding hn hr hz hb hh hf hw
      refine ⟨fun h1 h2 => ?_, fun h3 => ?_⟩
      · rwa [if_pos (by rw [h1, h2]; rfl)] at h
      · rwa [if_neg (by rcases h3 with h3 | h3 <;> simp [h3])] at h
    case again =>
      intro b hb hf hh
      refine ⟨fun hl => exec_bindingLaunchAfterFreeze hn hr hb hl hf hh, fun hl hg hd =>
        ⟨fun hs h0 => exec_rebinding_settles (h0 ▸ hr) hb hs, fun hs hu => ?_, fun hs hu => ?_⟩⟩
      · have h := exec_rebinding hn hr hb hf hl hg hd hs hh rfl
        rwa [if_pos (Option.isSome_iff_ne_none.2 hu)] at h
      · have h := exec_rebinding hn hr hb hf hl hg hd hs hh rfl
        rwa [if_neg (by simp [hu])] at h
    case slice =>
      intro hl hh hp ht
      have h := exec_sliceEnd_ended hl hh hp ht
      refine ⟨fun hw => ?_, fun hw hnp => ?_⟩
      · rwa [if_neg (by simp [sliceEnded, hw])] at h
      · rwa [if_pos (by simp [sliceEnded, hnp, Option.isSome_iff_ne_none.2 hw])] at h

end Sys2Proof
end

