-- ==== Sys2Proof/Proofs/FreezesAndResumes.lean ====
section
/-!
PROOFS. Freezes that have been decided, the end of a freeze, carried accesses, idle cores, late faults and handlers (R133, R145, R291, R408,
R410, R411, R417, R418; O51).
-/
namespace Sys2Proof
open Machine Claim
set_option Elab.async false

section
variable {s : State} {c : Nat}

/-! ## A freeze that has been decided (R408, R291) -/

/-- The cores that a freeze served at core `c` takes. -/
def freezeSet (s : State) (c : Nat) : List Nat :=
  (s.cores.filter (fun e => e.2.running && e.2.mc == (s.coreAt c).mc && e.2.bind == (s.coreAt c).bind && e.2.freeze != .none
    && !e.2.now.finishing && e.2.late.isEmpty && e.2.stop.isNone)).map (·.1)

/-- The pages of the frames that migrate sleep. -/
def freezeNaps (s : State) (c : Nat) : State :=
  ((freezeSet s c).filter s.frameOff).foldl (fun s d => s.frameNap (s.coreAt d).mc (s.coreAt d).fslot) s

theorem exec_freeze (hr : (s.coreAt c).running = true) (hf : (s.coreAt c).freeze ≠ .none) : Becomes (.freeze c) s
    (if (freezeSet s c).any s.freezeWaits then s else if (freezeSet s c).any s.frameOff then freezeNaps s c
      else (freezeSet s c).foldl (fun s d => s.freezeDecided d) s) := by
  have hc : (!(s.coreAt c).running || (s.coreAt c).freeze == .none) = false := by simp [hr, hf]
  change Host.Outcome.next (s.serveFreeze c) = _
  rw [State.serveFreeze]
  simp only [hc, Bool.false_or]
  rfl

theorem frameNap_naps (s : State) (mc fs : Nat) : ∃ l, s.frameNap mc fs = { s with naps := l } := by
  refine List.foldlRecOn (motive := fun t : State => ∃ l, t = { s with naps := l }) _ _ ⟨_, rfl⟩ fun t ⟨l, ht⟩ i _ => ?_
  subst ht
  unfold State.nap
  split <;> exact ⟨_, rfl⟩

theorem freezeNaps_naps (s : State) (c : Nat) : ∃ l, freezeNaps s c = { s with naps := l } := by
  refine List.foldlRecOn (motive := fun t : State => ∃ l, t = { s with naps := l }) _ _ ⟨_, rfl⟩ fun t ⟨l, ht⟩ d _ => ?_
  subst ht
  exact frameNap_naps _ _ _

/-! ## The freeze of one core (R408, R410) -/

theorem conts_releaseCore (s : State) (c : Nat) : (s.releaseCore c).conts = s.conts := by
  have hr : (s.retryOver c).conts = s.conts := by
    unfold State.retryOver
    dsimp only
    split <;> rfl
  exact hr

theorem running_releaseCore (s : State) (c : Nat) : ((s.releaseCore c).coreAt c).running = false :=
  congrArg Core.running (State.coreAt_setCoreAt_self ..)

theorem contAt_onCont (s : State) (k j : Nat) (f : Cont → Cont) : (s.onCont k f).contAt j = if j = k then f (s.contAt k) else s.contAt j :=
  State.contAt_setCont ..

/-- Core `c` is released, and the continuation of key `k` is FROZEN with it as its last core. -/
def FrozenOff (t : State) (c k : Nat) : Prop :=
  (t.coreAt c).running = false ∧ (t.contAt k).frozen = true ∧ (t.contAt k).home = c

/-- The last updates of a freeze: the marks of a frozen continuation, what the Shepherd keeps beside them, the release of the core. -/
theorem frozenOff_releaseCore {k : Nat} {f g : Cont → Cont} (hf : ∀ y, (f y).frozen = true ∧ (f y).home = c)
    (hg : ∀ y, (g y).frozen = y.frozen ∧ (g y).home = y.home) : FrozenOff (((s.onCont k f).onCont k g).shepUp.releaseCore c) c k := by
  have hc : (((s.onCont k f).onCont k g).shepUp.releaseCore c).contAt k = g (f (s.contAt k)) := by
    rw [State.contAt, conts_releaseCore]
    change ((s.onCont k f).onCont k g).contAt k = _
    rw [contAt_onCont, if_pos rfl, contAt_onCont, if_pos rfl]
  refine ⟨running_releaseCore .., ?_, ?_⟩
  · rw [hc, (hg _).1, (hf _).1]
  · rw [hc, (hg _).2, (hf _).2]

theorem frozenOff_freezeCoreWith (s : State) (c : Nat) (late : Option Late) : FrozenOff (s.freezeCoreWith c late) c (s.keyOf c) := by
  unfold State.freezeCoreWith
  extract_lets -underBinder x
  split
  rename_i mc fs e
  extract_lets -underBinder k s1 fens lateRecs ws
  have hk : s.keyOf c = k := by
    cases e
    rfl
  rw [hk]
  split
  extract_lets -underBinder s3 occ
  split
  extract_lets -underBinder s5 ps
  split
  split
  extract_lets -underBinder s8 busy t s9 re recs a s10
  split
  split
  extract_lets -underBinder zf s11 s12 s13 held es s14 s15 s16 s17 s18
  exact frozenOff_releaseCore (fun _ => ⟨rfl, rfl⟩) fun _ => ⟨rfl, rfl⟩

/-- The marks of a pre-emption: the continuation settles, and it is one that ran (R133, R410). -/
theorem FrozenOff.marked {t : State} {k : Nat} (h : FrozenOff t c k) :
    let u := t.onCont k (fun y => { y with settling := true, preempted := true })
    let y := u.contAt k
    (u.coreAt c).running = false ∧ y.frozen = true ∧ y.settling = true ∧ y.preempted = true ∧ y.home = c := by
  obtain ⟨hr, hf, hh⟩ := h
  dsimp only
  rw [contAt_onCont, if_pos rfl]
  exact ⟨hr, hf, rfl, rfl, hh⟩

theorem freezeDecided_pending (hp : s.foldPending c = true) :
    let t := s.freezeDecided c
    (t.coreAt c).stop = (s.coreAt c).stop.or (some ((s.coreAt c).cyc, .freeze)) ∧ (t.coreAt c).running = (s.coreAt c).running
      ∧ (t.coreAt c).now = (s.coreAt c).now ∧ SameMem s t := by
  have hc : (s.stopAt c .freeze).coreAt c = { s.coreAt c with stop := (s.coreAt c).stop.or (some ((s.coreAt c).cyc, .freeze)) } :=
    State.coreAt_setCoreAt_self ..
  dsimp only
  rw [State.freezeDecided, if_pos hp, hc]
  exact ⟨rfl, rfl, rfl, .refl s⟩

/-! ## The end of a freeze (R133, R410, R411) -/

theorem exec_freezeComplete {k : Nat} {y : Cont} (h : s.conts.filter (fun e => e.2.settling && e.2.home == c) = [(k, y)]) :
    Becomes (.freezeComplete c) s (((s.carriedDone k).binds.filter (fun e => e.2.pre && e.2.clusters.contains (clusterOfCore c))).foldl
      (fun u e => u.groupFree e.1) (s.carriedDone k)) := by
  change Host.Outcome.next (s.freezeEnd c) = _
  rw [State.freezeEnd, h]
  rfl

theorem groupFree_frozen {b : Nat} (hl : (s.bindAt b).live = true) (hp : (s.bindAt b).pre = true)
    (hc : ∀ e ∈ s.cores, ¬ (e.2.running = true ∧ e.2.bind = b)) :
    let t := (((s.bindAt b).pens.flatMap id).foldl (fun u p => u.foldRehost p) s).onBind b (fun z => { z with held := false, pre := false, pens := [] })
    s.groupFree b = (t.selectAt (t.frozenWork b)).decideMc (s.bindAt b).mc false := by
  have hany : s.cores.any (fun e => e.2.running && e.2.bind == b) = false :=
    List.any_eq_false.2 fun e he => by simpa using hc e he
  unfold State.groupFree
  simp only [hl, hp, hany]
  rfl

/-! ## Carried accesses (R410) -/

section
variable {o : Op}

theorem exec_carriedAccessComplete {u : State} (ho : s.opAt o.id = some o) (hc : o.carried = true) (hk : o.kind = .scalar)
    (hu : Becomes (.scalarAccessComplete o.id) s u) : Becomes (.carriedAccessComplete o.id) s (u.carriedDone (contKey o.mc o.fslot)) := by
  have hu : execScalarAccessComplete o.id s = .next u := hu
  change execCarriedAccessComplete o.id s = _
  simp [execCarriedAccessComplete, ho, hc, hk, hu]

/-- A store that no other access, page or core holds back. -/
theorem exec_scalarAccessComplete_store {s' : State} {n pa : Nat} (ho : s.opAt o.id = some o) (hk : o.kind = .scalar)
    (ha : scAct o.instr = some (.store n)) (hf : o.faulted = false) (hw : o.wait = none) (he : s.scalarEarlier o = false)
    (hr : o.rel = true → s.stillLive o o.after = false) (hd : s.destAsleep o = false) (hm : o.x.getD 0 0 % n = 0)
    (hx : s.xlateDo (s.agent o) o.mc o.id (o.x.getD 0 0) .write = (.ok false pa, s')) (ht : s.tentative o.core none pa n = none) :
    Becomes (.scalarAccessComplete o.id) s ((s'.scalarStore o pa (toBytes n (o.x.getD 1 0)) true).finishOp o) := by
  have hrel : (o.rel && s.stillLive o o.after) = false := by
    cases hrel : o.rel
    · rfl
    · rw [hr hrel]; rfl
  have hasleep : o.asleep = false := by simp [Op.asleep, hw]
  change execScalarAccessComplete o.id s = _
  simp [execScalarAccessComplete, ho, hk, ha, hf, he, hd, hrel, hasleep, hx, ht, hm, ScAct.acc, ScAct.size, State.scalarPerform,
    -List.getD_eq_getElem?_getD]

theorem opAt_finishOp (s : State) (o : Op) : (s.finishOp o).opAt o.id = none := by
  have hd : (s.dropOp o.id).opAt o.id = none := opAt_dropOp s o.id
  unfold State.finishOp
  dsimp only
  split
  · split
    · exact hd
    · exact hd
  · exact hd

/-! ## The bytes of a store -/

theorem length_toBytes (n v : Nat) : (toBytes n v).length = n := by
  induction n generalizing v with
  | zero => rfl
  | succ n ih => rw [toBytes, List.length_cons, ih]

theorem getD_toBytes {n i : Nat} (v : Nat) (h : i < n) : (toBytes n v).getD i 0 = BitVec.ofNat 8 (v / 256 ^ i) := by
  induction n generalizing v i with
  | zero => omega
  | succ n ih =>
    cases i with
    | zero => simp [toBytes]
    | succ i => rw [toBytes, List.getD_cons_succ, ih _ (by omega), Nat.div_div_eq_div_mul, Nat.pow_succ']

/-- The step leaves memory and the present units as they are: no write is discarded that was not (R199, R471). -/
def SameStore (s t : State) : Prop := t.mem = s.mem ∧ t.units = s.units

theorem stackFenced_units {t : State} (h : t.units = s.units) (pa : Nat) : t.stackFenced pa = s.stackFenced pa := by
  rw [State.stackFenced, h, State.stackFenced]

theorem sameStore_stampLines (s : State) (p l k : Nat) : SameStore s (s.stampLines p l k).2 := by
  induction k generalizing s p l with
  | zero => exact ⟨rfl, rfl⟩
  | succ k ih => exact ih _ _ _

theorem sameStore_viaCache (s : State) (pa n : Nat) (w : Bool) : SameStore s (s.viaCache pa n w) := by
  unfold State.viaCache
  split <;> exact ⟨rfl, rfl⟩

theorem mem_wrMem {p pa : Nat} {bs : List Byte} (h : s.stackFenced pa = false) : (s.wrMem p pa bs).2.mem = wrBytes s.mem pa bs := by
  obtain ⟨hm, hu⟩ := sameStore_viaCache s pa bs.length true
  obtain ⟨hm', hu'⟩ := sameStore_stampLines (s.viaCache pa bs.length true) p (pa / 64) (linesOf pa bs.length)
  unfold State.wrMem State.putMem
  dsimp only
  rw [if_neg (by rw [stackFenced_units (hu'.trans hu), h]; decide)]
  exact congrArg (wrBytes · pa bs) (hm'.trans hm)

theorem mem_wrote (s : State) (o : Op) (t : Nat) : (s.wrote o t).mem = s.mem := rfl

theorem mem_l1Home (s : State) (c : Nat) (l : List Nat) : (s.l1Home c l).mem = s.mem := rfl

theorem mem_scalarStore {pa : Nat} {bs : List Byte} {tent : Bool} (h : s.stackFenced pa = false) :
    (s.scalarStore o pa bs tent).mem = wrBytes s.mem pa bs := by
  unfold State.scalarStore
  extract_lets -underBinder k s1
  have h1 : SameStore s s1 := by
    unfold s1
    split <;> exact ⟨rfl, rfl⟩
  obtain ⟨hm, hu⟩ := h1
  rw [mem_wrote, apply_ite State.mem, mem_l1Home, ite_self, mem_wrMem (by rw [stackFenced_units hu, h]), hm]

theorem mem_finishOp (s : State) (o : Op) : (s.finishOp o).mem = s.mem := by
  unfold State.finishOp
  dsimp only
  split
  · split <;> rfl
  · rfl

theorem units_commitAll (s : State) (l : List (Nat × Nat)) : (s.commitAll l).units = s.units := by
  induction l generalizing s with
  | nil => rfl
  | cons x l ih =>
    exact (ih _).trans (List.foldlRecOn (motive := fun t : State => t.units = s.units) _ _ rfl fun _ ht _ _ => ht)

theorem units_setAD (s : State) (w : Who) (mc key va : Nat) (kind : Acc) (l : Option (Nat × Nat)) :
    (s.setAD w mc key va kind l).units = s.units := by
  unfold State.setAD
  split
  · rfl
  · extract_lets d b b'
    split
    rename_i u e
    have hu : u.units = s.units := by cases e; rfl
    extract_lets u'
    have hu' : u'.units = u.units := by
      unfold u'
      split <;> rfl
    exact hu'.trans hu

theorem units_xlateDo (s : State) (w : Who) (mc key va : Nat) (kind : Acc) : (s.xlateDo w mc key va kind).2.units = s.units := by
  have hc : (s.walkCommit mc va).units = s.units := units_commitAll _ _
  unfold State.xlateDo
  dsimp only
  split
  · exact (units_setAD ..).trans hc
  · exact hc

/-- A store leaves its bytes in memory, and the rest as the walk has left it. -/
theorem stored_scalarStore {pa n v : Nat} {tent : Bool} (h : s.stackFenced pa = false) :
    Stored s ((s.scalarStore o pa (toBytes n v) tent).finishOp o) pa n v := by
  intro a
  rw [mem_finishOp, mem_scalarStore h, rdByte_wrBytes, length_toBytes]
  split
  case isTrue ha => exact getD_toBytes v (by omega)
  case isFalse => rfl

end

/-! ## Idle cores and late faults (R145, R417) -/

theorem exec_continuationResume {b st k : Nat} {r : List Nat} (hr : (s.coreAt c).running = false) (hn : s.noBinding = false)
    (hp : s.idlePlace c = some (b, st)) (hw : s.waitingConts b st = k :: r) : Becomes (.continuationResume c) s (s.startOn c k) := by
  change execContinuationResume c s = _
  simp [execContinuationResume, hr, hn, hp, hw]

theorem exec_lateFault {l : Late} (hl : firstLate (s.coreAt c).late = some l) (hr : (s.coreAt c).running = true) :
    Becomes (.lateFault c) s (s.takeTrapOf c l.slot l.trap (some l)) := by
  change execLateFault c s = _
  simp [execLateFault, hl, hr]

/-! ## Handlers (R418) -/

/-- The handler of request `h` in frame slot `fs` of the state in which it can be made; `y` is the TRAPPED continuation. -/
def handlerMade (w : State) (h : HandlerReq) (y : Cont) (fs : Nat) : State :=
  ((w.newCont h.mc y.bind fs y.stage (w.mcAt h.mc).handler.toNat h.fslot h.info.toNat (w.frameNum h.mc h.fslot 272 16)).shepUp.onCont
    (contKey h.mc fs) (fun z => { z with pts := y.pts, handlerInfo := h.info })).makeRunnable (contKey h.mc fs)

section
variable {h : HandlerReq} {r : List HandlerReq} (hs : s.handlers = h :: r)
include hs

theorem exec_handlerCreation_full (hf : s.freeSlot h.mc = none) : Becomes .handlerCreation s
    (({ s with handlers := r } : State).trapEvent h.mc h.fslot h.info h.resume { cause := h.info.toNat % 128, reason := 0, va := h.va }) := by
  change execHandlerCreation s = _
  simp only [execHandlerCreation, hs, hf]

variable {fs : Nat} (hf : s.freeSlot h.mc = some fs)
include hf

theorem exec_handlerCreation_halted (hm : (s.mcAt h.mc).state = .halted) : Becomes .handlerCreation s { s with handlers := r ++ [h] } := by
  change execHandlerCreation s = _
  simp only [execHandlerCreation, hs, hf]
  rw [if_pos (by rw [hm]; rfl)]

/-- The handler in the lowest free slot, unless an access of the Shepherd for it fails or waits. -/
theorem exec_handlerCreation {v : State} (hm : (s.mcAt h.mc).state ≠ .halted)
    (hv : (s.contReach h.mc fs).shepReach h.mc .read (s.frameVa h.mc h.fslot + 272) 2 16 = v) :
    Becomes .handlerCreation s (if v.shepDown.isSome then { v.shepUp with handlers := r ++ [h] }
      else handlerMade { v with handlers := r } h (s.contAt (contKey h.mc h.fslot)) fs) := by
  change execHandlerCreation s = _
  simp only [execHandlerCreation, hs, hf, hv]
  rw [if_neg (by simpa using hm)]
  rfl

end
end

/-- Settles O51: the freeze of a binding, of one core and its end, carried accesses, idle cores, late faults and handlers, each by its rule. -/
theorem freezesAndResumes : Obligations.FreezesAndResumes := by
  intro s c x
  refine ⟨?freeze, fun hp => if_neg (by simp [hp]), freezeDecided_pending, (frozenOff_freezeCoreWith s c none).marked, fun k y => exec_freezeComplete,
    fun b => groupFree_frozen, ?carried, fun b st k r => exec_continuationResume, fun l => exec_lateFault, ?handler⟩
  case freeze =>
    intro hr hf cs
    have h : Becomes (.freeze c) s (if cs.any s.freezeWaits then s else if cs.any s.frameOff then freezeNaps s c
      else cs.foldl (fun s d => s.freezeDecided d) s) := exec_freeze hr hf
    refine ⟨fun hall => ?_, fun hw => ?_, fun hnw ho => ⟨freezeNaps s c, ?_, ?_⟩⟩
    · rwa [if_neg (by simpa using fun d hd => (hall d hd).1), if_neg (by simpa using fun d hd => (hall d hd).2)] at h
    · rwa [if_pos (List.any_eq_true.2 hw)] at h
    · rwa [if_neg (by simpa using hnw), if_pos (List.any_eq_true.2 ho)] at h
    · obtain ⟨l, hl⟩ := freezeNaps_naps s c
      rw [hl]
      exact ⟨rfl, rfl, .refl s⟩
  case carried =>
    intro o ho hc hk
    refine ⟨⟨_, rfl, exec_carriedAccessComplete ho hc hk rfl⟩, fun n pa s' ha hf hw he hr hd hn hm hpa hx ht hp => ?_⟩
    have hu : s'.units = s.units := by
      have := units_xlateDo s (s.agent o) o.mc o.id (o.x.getD 0 0) .write
      rwa [hx] at this
    have hfen : s'.stackFenced pa = false := by
      simp only [State.poisoned, Bool.or_eq_false_iff] at hp
      rw [stackFenced_units hu, hp.1.1]
    have hstore := exec_scalarAccessComplete_store ho hk ha hf hw he hr hd hm hx ht
    exact ⟨_, exec_carriedAccessComplete ho hc hk hstore, opAt_finishOp .., stored_scalarStore hfen⟩
  case handler =>
    intro h r hs
    refine ⟨exec_handlerCreation_full hs, fun fs => exec_handlerCreation_halted hs, fun fs hf hm => ⟨fun hd => ?_, fun hd => ?_⟩⟩
    · have := exec_handlerCreation hs hf hm rfl
      rwa [if_pos (Option.isSome_iff_ne_none.2 hd)] at this
    · have := exec_handlerCreation hs hf hm rfl
      rwa [if_neg (by simp [hd])] at this

end Sys2Proof
end

