-- ==== Sys2Proof/Proofs/HardwareLoops.lean ====
section
/-!
PROOFS. The start of a hardware loop, and the step of the loops at the end of a bundle (R150 to R152; O23).
-/
namespace Sys2Proof
open Machine Claim
set_option Elab.async false

/-! ## A loop start (R150) -/

section
variable {s : State} {i : Instr} {lc : BitVec 2} {n : Word32} {fin : BitVec 13}

theorem arch_loopStart_zero : (s.loopStart i lc 0 fin).arch =
    (s.arch.fly1 1 0 0 (.lc lc 0)).setLoop lc.toNat { s.arch.loopAt lc.toNat with active := false } := by
  simp only [State.loopStart, if_true, State.arch, State.core_setCore, core_onArch, State.result]
  rfl

theorem loop0_loopStart_zero : (s.loopStart i lc 0 fin).core.loop0 = some (s.arch.pc + fin.zeroExtend 72 * 4) := by
  simp only [State.loopStart, if_true, State.core_setCore, State.arch_result, shl_two_eq_mul]
  rfl

/-- The bundle that a loop goes back to does not depend on the count in flight. -/
theorem loopStart_of_ne (hn : n ≠ 0) : s.loopStart i lc n fin = (s.result 1 0 0 (.lc lc n)).onArch (fun a =>
    { a.setLoop lc.toNat (loopFrom s i fin) with started := some lc.toNat }) := by
  have hc : (s.result 1 0 0 (.lc lc n)).core.mc = s.core.mc ∧ (s.result 1 0 0 (.lc lc n)).core.bnext = s.core.bnext := by
    rw [State.result, core_onArch]
    exact ⟨rfl, rfl⟩
  obtain ⟨hm, hb⟩ := hc
  simp only [State.loopStart, if_neg hn, hm, hb]
  rw [State.result, skipMarkers_onArch, shl_two_eq_mul, loopFrom, State.arch_onArch]
  rfl

theorem arch_loopStart_of_ne (hn : n ≠ 0) : (s.loopStart i lc n fin).arch =
    { (s.arch.fly1 1 0 0 (.lc lc n)).setLoop lc.toNat (loopFrom s i fin) with started := some lc.toNat } := by
  rw [loopStart_of_ne hn, State.arch_onArch, State.arch_result]

theorem loopAt_setLoop (a : Arch) (k m : Nat) (l : LoopReg) : (a.setLoop k l).loopAt m = if m = k then l else a.loopAt m :=
  SMap.get_set ({} : LoopReg) a.loops k m l

theorem loopAt_loopStart_of_ne (hn : n ≠ 0) (m : Nat) :
    (s.loopStart i lc n fin).arch.loopAt m = if m = lc.toNat then loopFrom s i fin else s.arch.loopAt m := by
  rw [arch_loopStart_of_ne hn]
  exact loopAt_setLoop (s.arch.fly1 1 0 0 (.lc lc n)) lc.toNat m (loopFrom s i fin)

theorem loop0_loopStart_of_ne (hn : n ≠ 0) : (s.loopStart i lc n fin).core.loop0 = s.core.loop0 := by
  rw [loopStart_of_ne hn, core_onArch, State.result, core_onArch]

theorem sameMem_loopStart : SameMem s (s.loopStart i lc n fin) := by
  unfold State.loopStart
  dsimp only
  split <;> exact .refl s

/-- A count in flight and a loop are no registers that a syllable reads. -/
theorem sameRegs_loopStarted (a : Arch) (w : RegWrite) (k : Nat) (l : LoopReg) (o : Option Nat) :
    SameRegs ((a.fly1 1 0 0 w).setLoop k l) a ∧ SameRegs { (a.fly1 1 0 0 w).setLoop k l with started := o } a :=
  ⟨.refl a, .refl a⟩

/-- What LOOP and LOOPI leave: the count in flight, and the loop active from here or its body passed over. -/
theorem loopStart_starts (hi : exec i s = .next { s.loopStart i lc n fin with verdict := .issued }) :
    ∃ t, Issues i s t ∧ t.arch.fly = s.arch.fly ++ [⟨1, 0, s.arch.seq, 0, .lc lc n⟩] ∧ SameRegs t.arch s.arch ∧ SameMem s t
      ∧ (∀ m, m ≠ lc.toNat → t.arch.loopAt m = s.arch.loopAt m)
      ∧ (n ≠ 0 → t.arch.loopAt lc.toNat = loopFrom s i fin ∧ t.core.loop0 = s.core.loop0 ∧ t.arch.started = some lc.toNat)
      ∧ (n = 0 → (t.arch.loopAt lc.toNat).active = false ∧ t.core.loop0 = some (s.arch.pc + fin.zeroExtend 72 * 4)) := by
  refine ⟨s.loopStart i lc n fin, hi, ?_⟩
  by_cases hn : n = 0
  · subst hn
    rw [arch_loopStart_zero]
    exact ⟨rfl, (sameRegs_loopStarted s.arch _ _ _ none).1, sameMem_loopStart, fun m hm => (loopAt_setLoop ..).trans (if_neg hm), fun h => absurd rfl h,
      fun _ => ⟨by rw [loopAt_setLoop, if_pos rfl], loop0_loopStart_zero⟩⟩
  · have hl := loopAt_loopStart_of_ne (s := s) (i := i) (lc := lc) (fin := fin) hn
    refine ⟨?_, ?_, sameMem_loopStart, fun m hm => (hl m).trans (if_neg hm), fun _ => ⟨(hl _).trans (if_pos rfl), loop0_loopStart_of_ne hn, ?_⟩,
      fun h => absurd h hn⟩
    all_goals rw [arch_loopStart_of_ne hn]
    · rfl
    · exact (sameRegs_loopStarted ..).2

theorem exec_loop (g : Guard) (lc : BitVec 2) (x : SReg) (fin : BitVec 13) (s : State) : exec (.loop g lc x fin) s =
    issueF 0 g (fun s => s.loopStart (.loop g lc x fin) lc ((s.arch.rdS x).truncate 32) fin) s := rfl

theorem exec_loopi (g : Guard) (lc : BitVec 2) (fin : BitVec 13) (n : Word32) (s : State) : exec (.loopi g lc fin n) s =
    issueF 0 g (fun s => s.loopStart (.loopi g lc fin n) lc n fin) s := rfl

end

/-! ## The step of the loops at the end of a bundle (R151) -/

/-- Loop `n` is active, ends with bundle `b`, and is not the one that the bundle has started. -/
def LoopEnds (b : VAddr) (a : Arch) (n : Nat) : Prop := (a.loopAt n).active = true ∧ (a.loopAt n).lend = b ∧ a.started ≠ some n

section
variable {b : VAddr} {a : Arch} {n : Nat} {r l : List Nat}

theorem loopSteps_cons_not (h : ¬ LoopEnds b a n) : loopSteps b (n :: r) a = loopSteps b r a := by
  rw [loopSteps]
  exact if_neg (by simpa [LoopEnds] using h)

/-- A loop in its last turn is left with a count of 0. -/
theorem loopSteps_cons_last (h : LoopEnds b a n) (hc : (a.rdLc (BitVec.ofNat 2 n)).toNat ≤ 1) : loopSteps b (n :: r) a =
    loopSteps b r { (a.setLoop n { a.loopAt n with active := false }) with lc := SMap.set 0 a.lc n 0 } := by
  rw [loopSteps]
  exact (if_pos (by simpa [LoopEnds, and_assoc] using h)).trans (if_pos hc)

/-- A loop with turns left goes back. -/
theorem loopSteps_cons_back (h : LoopEnds b a n) (hc : 1 < (a.rdLc (BitVec.ofNat 2 n)).toNat) : loopSteps b (n :: r) a =
    { a with lc := SMap.set 0 a.lc n (a.rdLc (BitVec.ofNat 2 n) - 1), pc := (a.loopAt n).lstart, past := false, passTo := none } := by
  rw [loopSteps]
  exact (if_pos (by simpa [LoopEnds, and_assoc] using h)).trans (if_neg (Nat.not_le.2 hc))

/-- Loops that do not end here take no step. -/
theorem loopSteps_append_not (h : ∀ m ∈ r, ¬ LoopEnds b a m) : loopSteps b (r ++ l) a = loopSteps b l a := by
  induction r with
  | nil => rfl
  | cons m r ih =>
    rw [List.cons_append, loopSteps_cons_not (h m List.mem_cons_self), ih fun k hk => h k (List.mem_cons_of_mem m hk)]

/-- The steps of other loops leave a loop and its count. -/
theorem loopSteps_other (h : n ∉ r) : (loopSteps b r a).loopAt n = a.loopAt n ∧ SMap.get 0 (loopSteps b r a).lc n = SMap.get 0 a.lc n := by
  induction r generalizing a with
  | nil => exact ⟨rfl, rfl⟩
  | cons m r ih =>
    obtain ⟨hm, hr⟩ : n ≠ m ∧ n ∉ r := by simpa using h
    by_cases he : LoopEnds b a m
    case neg =>
      rw [loopSteps_cons_not he]
      exact ih hr
    case pos =>
      by_cases hc : (a.rdLc (BitVec.ofNat 2 m)).toNat ≤ 1
      · rw [loopSteps_cons_last he hc]
        obtain ⟨hl, hk⟩ := @ih { (a.setLoop m { a.loopAt m with active := false }) with lc := SMap.set 0 a.lc m 0 } hr
        exact ⟨hl.trans ((loopAt_setLoop a m n _).trans (if_neg hm)), hk.trans (SMap.get_set_ne 0 a.lc m n 0 hm)⟩
      · rw [loopSteps_cons_back he (Nat.not_le.1 hc)]
        exact ⟨rfl, SMap.get_set_ne _ _ _ _ _ hm⟩

theorem loopEnd_of_pending (h : a.sk ≠ 0 ∨ a.xfer.isSome = true) : a.loopEnd = a := by
  rw [Arch.loopEnd]
  refine if_neg ?_
  rcases h with h | h
  · simp [h]
  · simp [Option.isSome_iff_ne_none.1 h]

/-- At the end of a bundle the loops step from the highest down. -/
theorem loopEnd_of_ended (hs : a.sk = 0) (hx : a.xfer = none) : a.loopEnd = loopSteps a.last [3, 2, 1, 0] a := by
  rw [Arch.loopEnd]
  exact if_pos (by simp [hs, hx])

theorem loopSteps_none (h : ∀ m < 4, ¬ LoopEnds b a m) : loopSteps b [3, 2, 1, 0] a = a :=
  loopSteps_append_not (r := [3, 2, 1, 0]) (l := []) fun m hm => h m (by simp at hm; omega)

/-- The step begins with the highest loop that ends here; the lower ones come after it. -/
theorem loopSteps_highest (hn : n < 4) (h : ∀ m < 4, n < m → ¬ LoopEnds b a m) :
    ∃ r, n ∉ r ∧ loopSteps b [3, 2, 1, 0] a = loopSteps b (n :: r) a := by
  obtain ⟨l, r, hl⟩ := List.append_of_mem (show n ∈ [3, 2, 1, 0] by simp; omega)
  have hd : List.Pairwise (· > ·) (l ++ n :: r) := hl ▸ by decide
  obtain ⟨-, hr, hlr⟩ := List.pairwise_append.1 hd
  refine ⟨r, fun hm => Nat.lt_irrefl n ((List.pairwise_cons.1 hr).1 n hm), ?_⟩
  rw [hl]
  refine loopSteps_append_not fun m hm => h m ?_ (hlr m hm n List.mem_cons_self)
  have : m ∈ [3, 2, 1, 0] := hl ▸ List.mem_append_left _ hm
  simp at this
  omega

end

/-- Settles O23: a start by `loopStart_starts`; at the end of a bundle the highest loop that ends there takes its step, and the steps of the
lower ones leave it. -/
theorem hardwareLoops : Obligations.HardwareLoops := by
  refine ⟨fun s g lc x fin n hg => ⟨loopStart_starts ((exec_loop ..).trans (issueF_on hg)),
    loopStart_starts ((exec_loopi ..).trans (issueF_on hg))⟩, fun s c he => ?_,
    fun a => loopEnd_of_pending, fun a hs hx => ?_⟩
  · change execLoopEndStep c s = _
    rw [execLoopEndStep, if_pos he]
  · rw [loopEnd_of_ended hs hx]
    refine ⟨loopSteps_none, fun n hn he hh => ?_⟩
    have hi : (BitVec.ofNat 2 n).toNat = n := by simp; omega
    obtain ⟨r, hr, hsteps⟩ := loopSteps_highest hn hh
    refine ⟨fun hc => ?_, fun hc => ?_⟩
    · rw [hsteps, loopSteps_cons_back he hc]
      refine ⟨rfl, ?_, fun j hj => ?_, fun _ => rfl⟩
      · rw [Arch.rdLc, hi, SMap.get_set_self]
      · exact SMap.get_set_ne _ _ _ _ _ fun e => hj (BitVec.eq_of_toNat_eq (e.trans hi.symm))
    · rw [hsteps, loopSteps_cons_last he hc]
      obtain ⟨hl, hk⟩ := @loopSteps_other a.last { (a.setLoop n { a.loopAt n with active := false }) with lc := SMap.set 0 a.lc n 0 } n r hr
      refine ⟨?_, ?_⟩
      · rw [Arch.rdLc, hi, hk, SMap.get_set_self]
      · rw [hl]
        change ((a.setLoop n { a.loopAt n with active := false }).loopAt n).active = false
        rw [loopAt_setLoop, if_pos rfl]

end Sys2Proof
end

