-- ==== Sys2Proof/Proofs/SystemRegisters.lean ====
section
/-!
PROOFS. SRD and SWR: which numbers are listed, what is read, and how a written value is held to the range of its register (R173; O30).
-/
namespace Sys2Proof
open Machine Claim
set_option Elab.async false

variable {s : State} {g : Guard} {x : SReg} {n : BitVec 12}

/-- The listed numbers are those that SRD has a value for. -/
theorem isSome_rdSys (s : State) (n : BitVec 12) : (s.rdSys n).isSome = true ↔ n.toNat ≤ 14 ∨ (16 ≤ n.toNat ∧ n.toNat ≤ 19) := by
  unfold State.rdSys
  dsimp only
  split <;> simp_all
  omega

theorem srd_lands (hg : s.arch.guardOn 0 g = true) {v : Word} (hv : s.rdSys n = some v) : Lands (.srd g x n) s 1 0 0 (.s x v) := by
  change execSrd g x n s = _
  rw [execSrd, issue_on hg (.inr ⟨by simp [hv], rfl⟩), hv]
  rfl

theorem swr_lands (hg : s.arch.guardOn 0 g = true) (hv : (s.rdSys n).isSome = true) :
    Lands (.swr g x n) s 1 0 0 (s.swrWrite n (s.arch.rdS x)) := by
  change execSwr g x n s = _
  rw [execSwr, issue_on hg (.inr ⟨trapIf_none.2 (by simpa using hv), rfl⟩)]

theorem srd_traps (hg : s.arch.guardOn 0 g = true) (hk : s.checked = false) (hv : s.rdSys n = none) : Traps (.srd g x n) s 0 105 1 := by
  change execSrd g x n s = _
  exact issue_trap hg hk (by simp [hv])

theorem swr_traps (hg : s.arch.guardOn 0 g = true) (hk : s.checked = false) (hv : s.rdSys n = none) : Traps (.swr g x n) s 0 105 1 := by
  change execSwr g x n s = _
  exact issue_trap hg hk (by simp [hv])

/-! ## The fields of COUNTERS -/

theorem ofNat_sysCounters (a : Arch) :
    BitVec.ofNat 64 a.sysCounters = (a.sqo.zeroExtend 24 ++ a.tlo ++ a.cpo ++ a.sto ++ a.ldo).zeroExtend 64 := by
  apply BitVec.eq_of_toNat_eq
  simp only [Arch.sysCounters, BitVec.toNat_ofNat, BitVec.truncate_eq_setWidth, BitVec.toNat_setWidth, BitVec.toNat_append]
  rw [← Nat.shiftLeft_add_eq_or_of_lt a.ldo.isLt, ← Nat.shiftLeft_add_eq_or_of_lt a.sto.isLt, ← Nat.shiftLeft_add_eq_or_of_lt a.cpo.isLt,
    ← Nat.shiftLeft_add_eq_or_of_lt a.tlo.isLt]
  simp only [Nat.shiftLeft_eq]
  have := a.sqo.isLt
  congr 1
  omega

/-! ## The range of a written field -/

/-- A value held to a range of the field fits the field. -/
theorem toNat_ofNat_clampNat {w lo hi v : Nat} (hlo : lo ≤ hi) (hw : hi < 2 ^ w) (hv : w ≤ 64) :
    ((BitVec.ofNat 64 (clampNat lo hi v)).truncate w).toNat = clampNat lo hi v := by
  have hc : clampNat lo hi v ≤ hi := by
    unfold clampNat
    split
    · exact hlo
    · split <;> omega
  have hp : 2 ^ w ≤ 2 ^ 64 := Nat.pow_le_pow_right (by decide) hv
  rw [BitVec.truncate_eq_setWidth, BitVec.toNat_setWidth, BitVec.toNat_ofNat, Nat.mod_eq_of_lt (a := clampNat lo hi v) (by omega),
    Nat.mod_eq_of_lt (by omega)]

section
variable (a : Arch) (s : State) (v : Word)

theorem ckpti_wr_swrWrite : (a.wr (s.swrWrite 8 v)).ckpti.toNat = clampNat 1024 1048576 (v.truncate 32 : Word32).toNat := by
  rw [BitVec.truncate_eq_setWidth, BitVec.toNat_setWidth]
  exact toNat_ofNat_clampNat (w := 32) (by decide) (by decide) (by decide)

theorem leaseLen_wr_swrWrite : (a.wr (s.swrWrite 7 v)).leaseLen.toNat = clampNat 16 4096 (v.truncate 16 : BitVec 16).toNat := by
  rw [BitVec.truncate_eq_setWidth, BitVec.toNat_setWidth]
  exact toNat_ofNat_clampNat (w := 16) (by decide) (by decide) (by decide)

theorem clampNat_zero (hi v : Nat) : clampNat 0 hi v = min v hi := by
  unfold clampNat
  split
  · omega
  · split <;> omega

theorem hold_wr_swrWrite :
    (a.wr (s.swrWrite 5 v)).hold.toNat = min (v.truncate 12 : BitVec 12).toNat (s.effHold s.core.mc).toNat := by
  rw [BitVec.truncate_eq_setWidth, BitVec.toNat_setWidth, ← clampNat_zero]
  exact toNat_ofNat_clampNat (w := 12) (Nat.zero_le _) (s.effHold s.core.mc).isLt (by decide)

theorem scopeGlobal_wr_swrWrite :
    (s.arch.wr (s.swrWrite 6 v)).scopeGlobal = (v.getLsbD 0 && ((s.mcAt s.core.mc).global || s.arch.scopeGlobal)) := by
  have hw : s.swrWrite 6 v = .sys 6 (if v.getLsbD 0 && (s.mcAt s.core.mc).global then 1 else
      if v.getLsbD 0 then (if s.arch.scopeGlobal then 1 else 0) else 0) := rfl
  have hr (x : Word) : (s.arch.wr (.sys 6 x)).scopeGlobal = x.getLsbD 0 := rfl
  rw [hw, hr]
  cases v.getLsbD 0 <;> cases (s.mcAt s.core.mc).global <;> cases s.arch.scopeGlobal <;> rfl

end

/-- Settles O30: the listed numbers by `isSome_rdSys`; the values of the registers by the model's table, and each written field by its range. -/
theorem systemRegisters : Obligations.SystemRegisters := by
  refine ⟨fun s g x n hg => ⟨fun hn => ?listed, fun hn hk => ?other⟩, fun s v => ?values⟩
  case listed =>
    have hv := (isSome_rdSys s n).2 hn
    obtain ⟨v, hs⟩ := Option.isSome_iff_exists.1 hv
    exact ⟨⟨v, hs, srd_lands hg hs⟩, swr_lands hg hv⟩
  case other =>
    have hv : s.rdSys n = none := by simpa using (isSome_rdSys s n).not.2 hn
    exact ⟨srd_traps hg hk hv, swr_traps hg hk hv⟩
  case values =>
    refine ⟨rfl, rfl, rfl, rfl, rfl, rfl, rfl, congrArg some (ofNat_sysCounters s.arch), fun i => ?_, fun i => ?_, fun n hn => ?_, rfl, rfl,
      ckpti_wr_swrWrite s.arch s v, leaseLen_wr_swrWrite s.arch s v, hold_wr_swrWrite s.arch s v, scopeGlobal_wr_swrWrite s v⟩
    · match i with
      | 0 | 1 | 2 | 3 => rfl
    · match i with
      | 0 | 1 | 2 | 3 => rfl
    · simp only [List.mem_cons, List.not_mem_nil, or_false] at hn
      rcases hn with rfl | rfl | rfl | rfl | rfl | rfl | rfl | rfl | rfl <;> rfl

end Sys2Proof
end

