-- ==== Sys2Proof/Proofs/ShepherdFrame.lean ====
section
/-!
PROOFS. What an access of the Shepherd or of the instruction path leaves unchanged: the continuations that the cores run, the operations, and
the Shepherd's tables (R82, R125, R201, R203, R371); what STATE of a continuation becomes (R125, R145); the binding of a released core.
-/
namespace Sys2Proof
open Machine Claim
set_option Elab.async false

/-- What a core runs, apart from its last checkpoint. -/
def workOf (x : Core) : Bool × Nat × Nat × Nat × Nat × Arch := (x.running, x.mc, x.bind, x.fslot, x.stage, x.now)

/-- Core by core, `s` runs what `r` runs. -/
def SameWork (r s : State) : Prop := s.cur = r.cur ∧ ∀ d, workOf (s.coreAt d) = workOf (r.coreAt d)

/-- Operations, bindings and fence counters. -/
def tablesOf (s : State) : List Op × Nat × SMap Binding × SMap Fence := (s.ops, s.nextOp, s.binds, s.fences)

/-- `s` runs what `r` runs, with the same operations, bindings and fence counters. -/
def SameTables (r s : State) : Prop := SameWork r s ∧ tablesOf s = tablesOf r

/-- The continuations are the same too. -/
def SameBooks (r s : State) : Prop := SameTables r s ∧ s.conts = r.conts

section
variable {α : Type} {r s t u : State} {c d k : Nat}

/-! ## What is the same -/

theorem SameWork.refl (s : State) : SameWork s s := ⟨rfl, fun _ => rfl⟩
theorem SameTables.refl (s : State) : SameTables s s := ⟨.refl s, rfl⟩
theorem SameBooks.refl (s : State) : SameBooks s s := ⟨.refl s, rfl⟩

theorem SameWork.trans (h : SameWork r s) (h' : SameWork s t) : SameWork r t := ⟨h'.1.trans h.1, fun d => (h'.2 d).trans (h.2 d)⟩
theorem SameTables.trans (h : SameTables r s) (h' : SameTables s t) : SameTables r t := ⟨h.1.trans h'.1, h'.2.trans h.2⟩
theorem SameBooks.trans (h : SameBooks r s) (h' : SameBooks s t) : SameBooks r t := ⟨h.1.trans h'.1, h'.2.trans h.2⟩

theorem SameBooks.tables (h : SameBooks r s) : SameTables r s := h.1
theorem SameTables.work (h : SameTables r s) : SameWork r s := h.1
theorem SameBooks.work (h : SameBooks r s) : SameWork r s := h.1.1

theorem SameWork.cur (h : SameWork r s) : s.cur = r.cur := h.1

theorem SameWork.core (h : SameWork r s) (d : Nat) :
    (s.coreAt d).running = (r.coreAt d).running ∧ (s.coreAt d).mc = (r.coreAt d).mc ∧ (s.coreAt d).bind = (r.coreAt d).bind
      ∧ (s.coreAt d).fslot = (r.coreAt d).fslot ∧ (s.coreAt d).now = (r.coreAt d).now := by
  have := h.2 d
  simp only [workOf, Prod.mk.injEq] at this
  obtain ⟨h1, h2, h3, h4, -, h6⟩ := this
  exact ⟨h1, h2, h3, h4, h6⟩

theorem SameTables.ops (h : SameTables r s) : s.ops = r.ops := congrArg (·.1) h.2
theorem SameTables.nextOp (h : SameTables r s) : s.nextOp = r.nextOp := congrArg (·.2.1) h.2
theorem SameTables.binds (h : SameTables r s) : s.binds = r.binds := congrArg (·.2.2.1) h.2
theorem SameTables.fences (h : SameTables r s) : s.fences = r.fences := congrArg (·.2.2.2) h.2
theorem SameBooks.conts (h : SameBooks r s) : s.conts = r.conts := h.2
theorem SameBooks.contAt (h : SameBooks r s) (k : Nat) : s.contAt k = r.contAt k := by simp only [State.contAt, h.conts]
theorem SameTables.fenceAt (h : SameTables r s) (n : Nat) : s.fenceAt n = r.fenceAt n := by simp only [State.fenceAt, h.fences]
theorem SameTables.bindAt (h : SameTables r s) (b : Nat) : s.bindAt b = r.bindAt b := by simp only [State.bindAt, h.binds]

/-! ## States out of branches, pairs and folds -/

theorem SameBooks.ite {p : Prop} [Decidable p] (h : SameBooks r s) (h' : SameBooks r t) : SameBooks r (if p then s else t) := by
  split
  · exact h
  · exact h'

theorem SameBooks.ite_snd {p : Prop} [Decidable p] {x y : α × State} (h : SameBooks r x.2) (h' : SameBooks r y.2) :
    SameBooks r (if p then x else y).2 := by
  split
  · exact h
  · exact h'

theorem SameBooks.of_eq {p : α × State} {a : α} (e : p = (a, t)) (h : SameBooks r p.2) : SameBooks r t := by
  subst e; exact h

theorem SameBooks.foldl {l : List α} {f : State → α → State} (hf : ∀ t x, SameBooks r t → SameBooks r (f t x)) (h : SameBooks r s) :
    SameBooks r (l.foldl f s) :=
  l.foldlRecOn f h fun t ht x _ => hf t x ht

/-! ## Cores -/

theorem SameBooks.onCoreAt {f : Core → Core} (hf : ∀ x, workOf (f x) = workOf x) (h : SameBooks r s) : SameBooks r (s.onCoreAt d f) := by
  refine ⟨⟨⟨h.work.1, fun e => ?_⟩, h.1.2⟩, h.2⟩
  rw [State.onCoreAt, State.coreAt_setCoreAt]
  split
  case isTrue e => rw [hf, ← e]; exact h.work.2 _
  case isFalse => exact h.work.2 e

theorem SameBooks.checkpoint (h : SameBooks r s) : SameBooks r (s.checkpoint d) := h.onCoreAt fun _ => rfl

theorem SameBooks.commitBut {cl pa n} (h : SameBooks r s) : SameBooks r (s.commitBut d cl pa n) := .foldl (fun _ _ ht => ht.checkpoint) h

theorem SameBooks.commitAll {l} (h : SameBooks r s) : SameBooks r (s.commitAll l) := by
  induction l generalizing s with
  | nil => exact h
  | cons x l ih => exact ih h.commitBut

/-! ## Memory and translation -/

theorem SameBooks.stampLines {p line n} (h : SameBooks r s) : SameBooks r (s.stampLines p line n).2 := by
  induction n generalizing s p line with
  | zero => exact h
  | succ n ih => exact ih (s := (s.stampWrite line p).2) h

theorem SameBooks.viaCache {pa n w} (h : SameBooks r s) : SameBooks r (s.viaCache pa n w) := .ite h h

theorem SameBooks.wrMem {p pa bs} (h : SameBooks r s) : SameBooks r (s.wrMem p pa bs).2 := .ite h.viaCache.stampLines h.viaCache.stampLines

/-- The update of A and D for an agent that is no continuation's. -/
theorem SameBooks.setAD {w mc key va kind y} (hw : w.cont = none) (h : SameBooks r s) : SameBooks r (s.setAD w mc key va kind y) := by
  unfold State.setAD
  rw [hw]
  split <;> exact h

theorem SameBooks.xlateDo {w mc key va kind} (hw : w.cont = none) (h : SameBooks r s) : SameBooks r (s.xlateDo w mc key va kind).2 := by
  unfold State.xlateDo
  dsimp only
  split
  · exact h.commitAll.setAD hw
  · exact h.commitAll

/-! ## Events -/

theorem SameBooks.sendMsi {fn v} (h : SameBooks r s) : SameBooks r (s.sendMsi fn v) := .ite h h

theorem SameBooks.setFerr {fn code datum} (h : SameBooks r s) : SameBooks r (s.setFerr fn code datum) :=
  .ite h (.sendMsi (s := s.setFunc _ _) h)

theorem SameBooks.ringSignal {fn n} (h : SameBooks r s) : SameBooks r (s.ringSignal fn n) := .ite (.sendMsi (s := s.setFunc _ _) h) h

theorem SameBooks.postRecord {fn n compl lostAt rec} (h : SameBooks r s) : SameBooks r (s.postRecord fn n compl lostAt rec) := by
  unfold State.postRecord
  exact .ite h (.ite (.setFerr (s := s.setFunc _ _) h) (.ite h (.ite h (.ringSignal (s := State.setFunc _ _ _) h))))

theorem SameBooks.shepFail {mc cause reason va} (h : SameBooks r s) : SameBooks r (s.shepFail mc cause reason va) :=
  .postRecord (s := s.onMc _ _) h

/-! ## Accesses of the Shepherd (R203) -/

theorem SameBooks.askPage {sg at'} (h : SameBooks r s) : SameBooks r (s.askPage sg at') := by
  unfold State.askPage
  dsimp only
  split
  · exact .ite h h
  · exact h

theorem SameBooks.shepUp (h : SameBooks r s) : SameBooks r s.shepUp := h

theorem SameBooks.segNap {mc vpn sg at'} (h : SameBooks r s) : SameBooks r (s.segNap mc vpn sg at').2 := by
  unfold State.segNap
  dsimp only
  split
  · exact .ite_snd h.askPage h.askPage
  · exact h.askPage

theorem SameBooks.nap {mc vpn} (h : SameBooks r s) : SameBooks r (s.nap mc vpn) := .ite h h

theorem SameBooks.with_shepDown {x} (h : SameBooks r s) : SameBooks r { s with shepDown := x } := h

theorem SameBooks.shepGo {mc va n kind} (h : SameBooks r s) : SameBooks r (s.shepGo mc va n kind).2 := by
  have hx : SameBooks r (s.xlateDo Who.shep mc 0 va kind).2 := h.xlateDo rfl
  unfold State.shepGo
  dsimp only
  split
  · exact h.with_shepDown
  · split
    case h_1 e =>
      have ht := hx.of_eq e
      exact .ite_snd (.ite ht ht.shepFail.with_shepDown) (.ite ht.commitBut.viaCache ht.commitBut)
    case h_2 => exact .ite h h.shepFail.with_shepDown
    case h_3 => exact .ite h h.shepFail.with_shepDown
    case h_4 e => exact (hx.of_eq e).nap.with_shepDown
    case h_5 e =>
      have ht := hx.of_eq e
      exact .ite_snd (.ite ht.segNap ht.segNap.shepFail.with_shepDown) ht.segNap.with_shepDown

theorem SameBooks.shepWrite {mc va bs} (h : SameBooks r s) : SameBooks r (s.shepWrite mc va bs) := by
  unfold State.shepWrite
  split
  case h_1 e => exact (h.shepGo.of_eq e).wrMem
  case h_2 e => exact h.shepGo.of_eq e

theorem SameBooks.shepReach {mc kind va n m} (h : SameBooks r s) : SameBooks r (s.shepReach mc kind va n m) := by
  induction n generalizing s va m with
  | zero => exact h
  | succ n ih => exact .ite h.shepGo (ih h.shepGo)

theorem SameBooks.areaWrite {mc va n l} (h : SameBooks r s) : SameBooks r (s.areaWrite mc va n l) := by
  induction n generalizing s va l with
  | zero => exact h
  | succ n ih => exact .ite h.shepWrite (ih h.shepWrite)

theorem SameBooks.frameWrite {mc fs off bs} (h : SameBooks r s) : SameBooks r (s.frameWrite mc fs off bs) := h.areaWrite

theorem SameBooks.frameImage {mc fs off lo m n l} (h : SameBooks r s) : SameBooks r (s.frameImage mc fs off lo m n l) := by
  induction n generalizing s off lo l with
  | zero => exact h
  | succ n ih =>
    unfold State.frameImage
    extract_lets -underBinder va room n1 s1
    have h1 : SameBooks r s1 := by
      unfold s1
      split
      case h_1 e =>
        have ht := h.shepGo.of_eq e
        exact .ite ht.stampLines.viaCache ht.stampLines.viaCache
      case h_2 e => exact h.shepGo.of_eq e
    exact .ite h1 (ih h1)

theorem SameBooks.startvReach {mc} (h : SameBooks r s) : SameBooks r (s.startvReach mc) := .ite h.shepReach h.shepReach.shepReach

theorem SameBooks.contReach {mc fs} (h : SameBooks r s) : SameBooks r (s.contReach mc fs) :=
  .ite h.shepUp.startvReach h.shepUp.startvReach.shepReach

/-! ## STATE of a continuation (R125, R145) -/

theorem sameBooks_setContState (s : State) (k : Nat) (st : ContState) :
    SameBooks (s.onCont k (fun y => { y with state := st })) (s.setContState k st) :=
  (SameBooks.refl _).frameWrite.shepUp

theorem SameTables.onCont {f : Cont → Cont} (h : SameTables r s) : SameTables r (s.onCont k f) := h

theorem SameTables.shepUp (h : SameTables r s) : SameTables r s.shepUp := h

theorem SameTables.setCont {y} (h : SameTables r s) : SameTables r (s.setCont k y) := h

theorem SameTables.onMc {f : Mc → Mc} (h : SameTables r s) : SameTables r (s.onMc k f) := h

theorem SameTables.frameWrite {mc fs off bs} (h : SameTables r s) : SameTables r (s.frameWrite mc fs off bs) :=
  h.trans (SameBooks.refl s).frameWrite.tables

theorem contAt_onMc (s : State) (m k : Nat) (f : Mc → Mc) : (s.onMc m f).contAt k = s.contAt k := rfl

theorem contAt_shepUp (s : State) (k : Nat) : s.shepUp.contAt k = s.contAt k := rfl

theorem SameTables.setContState {st} (h : SameTables r s) : SameTables r (s.setContState k st) :=
  h.onCont.trans (sameBooks_setContState s k st).tables

theorem contAt_setContState (s : State) (k j : Nat) (st : ContState) :
    (s.setContState k st).contAt j = if j = k then { s.contAt k with state := st } else s.contAt j := by
  rw [(sameBooks_setContState s k st).contAt, contAt_onCont]

theorem SameBooks.decideMc {mc host} (h : SameBooks r s) : SameBooks r (s.decideMc mc host) := by
  have hp : SameBooks r (s.passUp mc) := by
    unfold State.passUp
    dsimp only
    split
    · exact .ite h h
    · exact h
  exact .ite h (SameBooks.ite (s := s.passUp mc) hp h)

theorem SameBooks.with_nextOrder {n} (h : SameBooks r s) : SameBooks r { s with nextOrder := n } := h

theorem SameBooks.selectAt {b} (h : SameBooks r s) : SameBooks r (s.selectAt b) := h

/-- A continuation that becomes RUNNABLE, before the state of its micro-context is decided. -/
theorem sameBooks_makeRunnable (s : State) (k : Nat) :
    SameBooks ((s.setContState k .runnable).onCont k (fun y => { y with order := (s.setContState k .runnable).nextOrder })) (s.makeRunnable k) :=
  (SameBooks.refl _).with_nextOrder.selectAt.decideMc

theorem SameTables.makeRunnable (h : SameTables r s) : SameTables r (s.makeRunnable k) :=
  h.setContState.onCont.trans (sameBooks_makeRunnable s k).tables

theorem contAt_makeRunnable (s : State) (k j : Nat) : (s.makeRunnable k).contAt j =
    if j = k then { s.contAt k with state := .runnable, order := (s.setContState k .runnable).nextOrder } else s.contAt j := by
  rw [(sameBooks_makeRunnable s k).contAt, contAt_onCont, contAt_setContState, contAt_setContState, if_pos rfl]
  split
  · rfl
  · rfl

theorem contAt_makeRunnable_ne {j : Nat} (h : j ≠ k) : (s.makeRunnable k).contAt j = s.contAt j := by rw [contAt_makeRunnable, if_neg h]

theorem contAt_raisePts (s : State) (k j n : Nat) :
    (s.raisePts k n).contAt j = if j = k then { s.contAt k with pts := max (s.contAt k).pts n } else s.contAt j := contAt_onCont ..

end

end Sys2Proof
end

