-- ==== Sys2Proof/Proofs/Resumes.lean ====
section
/-!
PROOFS. The issue of a slot B syllable as a rule; TRAP, CRES and CKPT (R161, R171, R172, R174, R410; O28).
-/
namespace Sys2Proof
open Machine Claim
set_option Elab.async false

/-! ## The issue of a slot B syllable (R35, R51, R482) -/

section
variable {i : Instr} {s : State} {g : Guard} {chk : State → Option Trap} {hold : State → Option State} {eff : State → State}
  (hi : exec i s = issue 0 g chk hold eff s) (hg : s.arch.guardOn 0 g = true)
include hi hg

/-- Without a cause and a condition to wait for, the syllable has its effect. -/
theorem issues_of_pass (hc : chk s = none) (hh : hold s = none) : Issues i s (eff s) := hi.trans (issue_on hg (.inr ⟨hc, hh⟩))

theorem traps_of_check {cause reason : Nat} (hk : s.checked = false) (hc : chk s = some { cause := cause, reason := reason }) :
    Traps i s 0 cause reason := hi.trans (issue_trap hg hk hc)

end

section
variable {s : State} {g : Guard} {x : SReg}

/-! ## TRAP and CKPT (R171, R172) -/

theorem trapIssue_on {cause : Nat} (hg : s.arch.guardOn 0 g = true) : trapIssue cause g x s =
    .next (s.takeTrap s.cur 0 { cause := cause, reason := 0, data := (s.arch.rdS x).truncate 32 }) := by
  rw [trapIssue]
  exact if_neg (by simp [hg])

theorem exec_ckpt (g : Guard) (s : State) : exec (.ckpt g) s = issueF 0 g State.commitPoint s := rfl

/-! ## CRES (R161) -/

theorem cres_issue {i : Instr} {skip : Bool} (hi : exec i s = cresIssue skip g x s) (hg : s.arch.guardOn 0 g = true)
    (hn : (s.arch.rdS x).toNat < s.curMc.frames.toNat) (ht : (s.contAt (contKey s.core.mc (s.arch.rdS x).toNat)).state = .trapped) :
    Issues i s (s.resumeTrapped (contKey s.core.mc (s.arch.rdS x).toNat) skip).commitPoint :=
  issues_of_pass hi hg (by simp [ht, Nat.not_le.2 hn, firstTrap]) rfl

theorem cres_traps_of_range {i : Instr} {skip : Bool} (hi : exec i s = cresIssue skip g x s) (hg : s.arch.guardOn 0 g = true)
    (hk : s.checked = false) (hn : (s.arch.rdS x).toNat ≥ s.curMc.frames.toNat) : Traps i s 0 100 1 :=
  traps_of_check hi hg hk (by simp [hn, firstTrap])

theorem cres_traps_of_state {i : Instr} {skip : Bool} (hi : exec i s = cresIssue skip g x s) (hg : s.arch.guardOn 0 g = true)
    (hk : s.checked = false) (hn : (s.arch.rdS x).toNat < s.curMc.frames.toNat)
    (ht : (s.contAt (contKey s.core.mc (s.arch.rdS x).toNat)).state ≠ .trapped) : Traps i s 0 100 2 :=
  traps_of_check hi hg hk (by simp [bne_iff_ne.2 ht, Nat.not_le.2 hn, firstTrap])

end

/-! ## A frozen continuation that is to run again (R410) -/

section
variable {s : State} {k : Nat}

theorem contAt_runnableWhenDone_idle (h : s.carriedLive (k / 4096) (k % 4096) = false) :
    ((s.runnableWhenDone k).contAt k).state = .runnable ∧ ((s.runnableWhenDone k).contAt k).settling = false
      ∧ ((s.runnableWhenDone k).contAt k).frozen = (s.contAt k).frozen ∧ ((s.runnableWhenDone k).contAt k).skip = (s.contAt k).skip := by
  simp [State.runnableWhenDone, h, contAt_makeRunnable, contAt_onCont]

theorem contAt_runnableWhenDone_live (h : s.carriedLive (k / 4096) (k % 4096) = true) :
    ((s.runnableWhenDone k).contAt k) = { s.contAt k with settling := true } := by
  simp [State.runnableWhenDone, h, contAt_onCont]

theorem contAt_runnableWhenDone_ne {j : Nat} (h : j ≠ k) : (s.runnableWhenDone k).contAt j = s.contAt j := by
  unfold State.runnableWhenDone
  split
  · rw [contAt_onCont, if_neg h]
  · rw [contAt_makeRunnable_ne h, contAt_onCont, if_neg h]

/-- A continuation that CRES resumes is frozen, with its mark to pass over the trapped syllable (R161, R419). -/
theorem resumeTrapped_spec (skip : Bool) (h : (s.contAt k).refused = false) :
    let t := s.resumeTrapped k skip
    (t.contAt k).frozen = true ∧ (t.contAt k).skip = skip
      ∧ (s.carriedLive (k / 4096) (k % 4096) = false → (t.contAt k).state = .runnable ∧ (t.contAt k).settling = false)
      ∧ (s.carriedLive (k / 4096) (k % 4096) = true → (t.contAt k).state = (s.contAt k).state ∧ (t.contAt k).settling = true)
      ∧ (∀ i, i ≠ k → t.contAt i = s.contAt i) := by
  dsimp only
  have hr : s.resumeTrapped k skip = (s.onCont k (fun x => { x with frozen := true, skip := skip })).runnableWhenDone k := by
    rw [State.resumeTrapped]
    exact if_neg (by simp [h])
  have hc : (s.onCont k (fun x => { x with frozen := true, skip := skip })).contAt k = { s.contAt k with frozen := true, skip := skip } := by
    rw [contAt_onCont, if_pos rfl]
  have hl : (s.onCont k (fun x => { x with frozen := true, skip := skip })).carriedLive (k / 4096) (k % 4096) =
      s.carriedLive (k / 4096) (k % 4096) := rfl
  have hne : ∀ i, i ≠ k → (s.resumeTrapped k skip).contAt i = s.contAt i := fun i hi => by
    rw [hr, contAt_runnableWhenDone_ne hi, contAt_onCont, if_neg hi]
  rw [hr] at hne ⊢
  cases hlive : s.carriedLive (k / 4096) (k % 4096) with
  | false =>
    obtain ⟨h1, h2, h3, h4⟩ := contAt_runnableWhenDone_idle (hl.trans hlive)
    exact ⟨h3.trans (by rw [hc]), h4.trans (by rw [hc]), fun _ => ⟨h1, h2⟩, nofun, hne⟩
  | true =>
    have h1 := contAt_runnableWhenDone_live (hl.trans hlive)
    rw [h1, hc]
    exact ⟨rfl, rfl, nofun, fun _ => ⟨rfl, rfl⟩, hne⟩

end

/-- Settles O28: CRES by its issue, and what it leaves of the continuation by `resumeTrapped_spec`. -/
theorem trapsAndResumes : Obligations.TrapsAndResumes := by
  intro s g x hg n k data
  exact ⟨trapIssue_on hg, trapIssue_on hg, (exec_ckpt g s).trans (issueF_on hg),
    fun hn ht => ⟨cres_issue (skip := false) rfl hg hn ht, cres_issue (skip := true) rfl hg hn ht⟩,
    fun hn hk => ⟨cres_traps_of_range (skip := false) rfl hg hk hn, cres_traps_of_range (skip := true) rfl hg hk hn⟩,
    fun hn ht hk => ⟨cres_traps_of_state (skip := false) rfl hg hk hn ht, cres_traps_of_state (skip := true) rfl hg hk hn ht⟩,
    fun j skip => resumeTrapped_spec skip⟩

end Sys2Proof
end

