-- ==== Sys2Proof/Proofs/Releases.lean ====
section
/-!
PROOFS. SPAWN, REQDONE, FINC and EVPOST as releases, and the application of a release (R159, R160, R163, R165, R170, R174, R361; O25, O26).
-/
namespace Sys2Proof
open Machine Claim
set_option Elab.async false

/-! ## A release (R361) -/

section
variable {s : State}

theorem core_release (s : State) (k : OpKind) (i : Instr) (x : List Nat) : (s.release k i x).core = { s.core with commit := true } :=
  State.core_setCore (s.pushOp _) _

/-- What an effect that is held back as a release leaves: a commit point, and one operation that waits for all that are outstanding. -/
theorem release_spec (s : State) (k : OpKind) (i : Instr) (x : List Nat) : let t := s.release k i x
    t.core.commit = true ∧ SameRegs t.arch s.arch ∧ SameMem s t ∧ t.conts = s.conts ∧ t.fences = s.fences
      ∧ ∃ o, t.ops = s.ops ++ [o] ∧ o.kind = k ∧ o.x = x ∧ o.rel = true ∧ o.after = s.liveOps := by
  dsimp only
  rw [State.arch, core_release]
  exact ⟨rfl, .refl s.arch, .refl s, rfl, rfl, _, rfl, rfl, rfl, rfl, rfl⟩

end

/-! ## FINC, EVPOST and REQDONE (R160, R165, R170) -/

section
variable {s : State} {g : Guard} {x y : SReg}

theorem finc_issues {i : Instr} {set : Bool} {n : Option Word32} (hi : exec i s = fincIssue set i g x y n s) (hg : s.arch.guardOn 0 g = true)
    (ho : FenceOk s (s.arch.rdS x)) :
    Issues i s (s.release .finc i [(s.arch.rdS x).toNat, fincAmount s.arch y n, if set then 1 else 0]) :=
  issues_of_pass hi hg (fenceCheck_of_ok ho) rfl

theorem finc_traps {i : Instr} {set : Bool} {n : Option Word32} (hi : exec i s = fincIssue set i g x y n s) (hg : s.arch.guardOn 0 g = true)
    (hn : (s.arch.rdS x).toNat > 65535) (hk : s.checked = false) : Traps i s 0 101 1 :=
  traps_of_check hi hg hk (fenceCheck_of_gt hn)

theorem exec_evpost (g : Guard) (x y : SReg) (code : Option Byte) (s : State) : exec (.evpost g x y code) s =
    issueF 0 g (fun s => s.release .evpost (.evpost g x y code) [(s.arch.rdS x).toNat, (s.arch.rdS y).toNat, (code.getD 0).toNat]) s := rfl

/-- A good resume offset. -/
theorem spawnOffset_ok (h : (s.arch.rdS x).toNat < 2 ^ 32) (h4 : (s.arch.rdS x).toNat % 4 = 0) :
    (decide ((s.arch.rdS x).toNat ≥ 2 ^ 32) || (s.arch.rdS x).toNat % 4 != 0) = false := by
  simpa [h4] using h

section
variable (hg : s.arch.guardOn 0 g = true)
include hg

theorem reqdone_issues (hr : (s.bindAt s.core.bind).req.isSome = true) (hd : (s.bindAt s.core.bind).reqdone = false) :
    Issues (.reqdone g x) s ((s.onBind s.core.bind (fun b => { b with reqdone := true })).release .reqdone (.reqdone g x)
      [(s.arch.rdS x).toNat % 65536]) := by
  change execReqdone g x s = _
  unfold execReqdone
  exact issue_on hg (.inr ⟨by simp [Option.isNone_eq_false_iff.2 hr, hd, firstTrap], rfl⟩)

theorem reqdone_traps_of_none (hr : (s.bindAt s.core.bind).req = none) (hk : s.checked = false) : Traps (.reqdone g x) s 0 99 1 := by
  change execReqdone g x s = _
  unfold execReqdone
  exact issue_trap hg hk (by simp [hr, firstTrap])

theorem reqdone_traps_of_done (hr : (s.bindAt s.core.bind).req.isSome = true) (hd : (s.bindAt s.core.bind).reqdone = true)
    (hk : s.checked = false) : Traps (.reqdone g x) s 0 99 2 := by
  change execReqdone g x s = _
  unfold execReqdone
  exact issue_trap hg hk (by simp [Option.isNone_eq_false_iff.2 hr, hd, firstTrap])


/-! ## SPAWN (R159) -/

theorem spawn_traps_of_offset {k : BitVec 4} (hk : s.checked = false)
    (h : 2 ^ 32 ≤ (s.arch.rdS x).toNat ∨ (s.arch.rdS x).toNat % 4 ≠ 0) : Traps (.spawn g x y k) s 0 98 1 := by
  change execSpawn g x y k s = _
  unfold execSpawn
  have hb : (decide ((s.arch.rdS x).toNat ≥ 2 ^ 32) || (s.arch.rdS x).toNat % 4 != 0) = true := by simpa using h
  exact issue_trap hg hk (by rw [hb]; rfl)

theorem spawn_traps_of_stage {k : BitVec 4} (hk : s.checked = false) (h : (s.arch.rdS x).toNat < 2 ^ 32)
    (h4 : (s.arch.rdS x).toNat % 4 = 0) (hs : s.curMc.stages.toNat ≤ k.toNat) : Traps (.spawn g x y k) s 0 98 2 := by
  change execSpawn g x y k s = _
  unfold execSpawn
  exact issue_trap hg hk (by rw [spawnOffset_ok h h4]; simp [hs, firstTrap])

theorem spawn_traps_of_full {k : BitVec 4} (hk : s.checked = false) (h : (s.arch.rdS x).toNat < 2 ^ 32)
    (h4 : (s.arch.rdS x).toNat % 4 = 0) (hs : k.toNat < s.curMc.stages.toNat) (hf : s.freeSlot s.core.mc = none) :
    Traps (.spawn g x y k) s 0 98 3 := by
  change execSpawn g x y k s = _
  unfold execSpawn
  exact issue_trap hg hk (by rw [spawnOffset_ok h h4]; simp [Nat.not_le.2 hs, hf, firstTrap])

end

end

/-- The Shepherd has written the record and the header of a new continuation in frame slot `fs`, whose SPAWN has not been applied. -/
def spawnMade (s : State) (fs stage resume carry0 carry1 rb : Nat) : State :=
  ((s.contReach s.core.mc fs).newCont s.core.mc s.core.bind fs stage resume carry0 carry1 rb).shepUp.onCont (contKey s.core.mc fs)
    (fun y => { y with spawning := true })

section
variable {s r : State} {mc b fs stage resume carry0 carry1 rb : Nat}

theorem sameTables_newCont (h : SameTables r s) : SameTables r (s.newCont mc b fs stage resume carry0 carry1 rb) := by
  unfold State.newCont
  extract_lets va s1 s2 s3
  exact h.frameWrite.frameWrite.setCont.onMc

theorem contAt_newCont (s : State) (mc b fs stage resume carry0 carry1 rb : Nat) :
    (s.newCont mc b fs stage resume carry0 carry1 rb).contAt (contKey mc fs) = { stage := stage, bind := b, entryTile := some 0 } := by
  unfold State.newCont
  extract_lets va s1 s2 s3
  rw [contAt_onMc]
  unfold s3
  rw [State.contAt_setCont, if_pos rfl]

theorem sameTables_spawnMade : SameTables s (spawnMade s fs stage resume carry0 carry1 rb) :=
  (sameTables_newCont (SameBooks.refl s).contReach.tables).shepUp.onCont

theorem contAt_spawnMade : (spawnMade s fs stage resume carry0 carry1 rb).contAt (contKey s.core.mc fs) =
    { stage := stage, bind := s.core.bind, entryTile := some 0, spawning := true } := by
  rw [spawnMade, contAt_onCont, if_pos rfl]
  rw [contAt_shepUp, contAt_newCont]

/-- What is outstanding on the core at work depends on its work and on the operations. -/
theorem SameTables.liveOps (h : SameTables r s) : s.liveOps = r.liveOps := by
  obtain ⟨-, hm, -, hf, hn⟩ := h.work.core r.cur
  simp only [State.liveOps, State.core, h.work.cur, h.ops, hm, hf, hn]
  rfl

theorem SameTables.arch (h : SameTables r s) : s.arch = r.arch := by
  obtain ⟨-, -, -, -, hn⟩ := h.work.core r.cur
  simp only [State.arch, State.core, h.work.cur, hn]

variable {g : Guard} {x y : SReg} {k : BitVec 4}

theorem spawn_issues (hg : s.arch.guardOn 0 g = true) (h : (s.arch.rdS x).toNat < 2 ^ 32) (h4 : (s.arch.rdS x).toNat % 4 = 0)
    (hs : k.toNat < s.curMc.stages.toNat) (hf : s.freeSlot s.core.mc = some fs) (hw : s.spawnWaits = none) :
    Issues (.spawn g x y k) s ((spawnMade s fs k.toNat (s.arch.rdS x).toNat (s.arch.rdS y).toNat (s.arch.rdS (y + 1)).toNat
      (s.arch.rdA 30).toNat).release .spawn (.spawn g x y k) [fs]) := by
  change execSpawn g x y k s = _
  unfold execSpawn
  have hp : firstTrap [trapIf false 98 1, trapIf (decide (k.toNat ≥ s.curMc.stages.toNat)) 98 2,
      trapIf (s.freeSlot s.core.mc).isNone 98 3] = none := by simp [Nat.not_le.2 hs, hf, firstTrap]
  rw [issue_on hg (.inr ⟨by rw [spawnOffset_ok h h4]; exact hp, by rw [hw]; rfl⟩), hf]
  rfl

/-- A SPAWN leaves its new continuation, and one operation that waits for all that are outstanding. -/
theorem spawnMade_release {i : Instr} {l : List Nat} (hl : l = [fs]) :
    let t := (spawnMade s fs stage resume carry0 carry1 rb).release .spawn i l
    (t.contAt (contKey s.core.mc fs)).spawning = true ∧ (t.contAt (contKey s.core.mc fs)).stage = stage
      ∧ (t.contAt (contKey s.core.mc fs)).bind = s.core.bind ∧ t.core.commit = true ∧ SameRegs t.arch s.arch
      ∧ ∃ o, t.ops = s.ops ++ [o] ∧ o.kind = .spawn ∧ o.x = [fs] ∧ o.after = s.liveOps := by
  subst hl
  have hu : SameTables s (spawnMade s fs stage resume carry0 carry1 rb) := sameTables_spawnMade
  obtain ⟨hc, hr, -, hk, -, o, ho, hkind, hx, -, hafter⟩ :=
    release_spec (spawnMade s fs stage resume carry0 carry1 rb) .spawn i [fs]
  dsimp only at *
  rw [State.contAt, hk]
  change (State.contAt _ _).spawning = _ ∧ (State.contAt _ _).stage = _ ∧ (State.contAt _ _).bind = _ ∧ _
  rw [contAt_spawnMade]
  rw [hu.arch] at hr
  rw [hu.ops] at ho
  rw [hu.liveOps] at hafter
  exact ⟨rfl, rfl, rfl, hc, hr, o, ho, hkind, hx, hafter⟩

end

/-- Settles O25: every one of them is a `State.release`, whose effect `release_spec` states once. -/
theorem releasesIssue : Obligations.ReleasesIssue := by
  refine ⟨fun s g x y n code hg => ?_, release_spec⟩
  refine ⟨fun ho => ⟨finc_issues (set := false) rfl hg ho, finc_issues (set := true) rfl hg ho⟩,
    fun hn hk => ⟨finc_traps (set := false) rfl hg hn hk, finc_traps (set := true) rfl hg hn hk⟩,
    (exec_evpost ..).trans (issueF_on hg), reqdone_issues hg, reqdone_traps_of_none hg, reqdone_traps_of_done hg,
    fun k hk => ⟨spawn_traps_of_offset hg hk, spawn_traps_of_stage hg hk, spawn_traps_of_full hg hk⟩, fun k fs h h4 hs hf hw => ?_⟩
  obtain ⟨h1, h2, h3, h5, h6, h7⟩ := spawnMade_release (s := s) (fs := fs) (stage := k.toNat) (i := .spawn g x y k) (l := [fs]) rfl
  exact ⟨_, spawn_issues hg h h4 hs hf hw, h1, h2, h3, h5, h6, h7⟩

/-! ## The application of a release (R165, R361) -/

section
variable {s : State}

theorem fences_endLoan (s : State) (mc sg : Nat) : (s.endLoan mc sg).fences = s.fences := by
  unfold State.endLoan
  dsimp only
  split
  · rfl
  · split <;> rfl

theorem fences_waitfEnd (s : State) (c n : Nat) (t : Word32) (err : Bool) : (s.waitfEnd c n t err).fences = s.fences := by
  unfold State.waitfEnd
  dsimp only
  split
  · exact fences_endLoan ..
  · rfl
  · rfl

theorem fences_makeRunnable (s : State) (k : Nat) : (s.makeRunnable k).fences = s.fences := (SameTables.makeRunnable (.refl s)).fences

/-- Waits that end leave the fence counters. -/
theorem fences_wakeFence (n : Nat) (force : Bool) (l : List (Nat × Cont)) : ∀ s : State, (s.wakeFence n force l).fences = s.fences := by
  induction l with
  | nil => exact fun _ => rfl
  | cons e r ih =>
    intro s
    obtain ⟨k, y⟩ := e
    rw [State.wakeFence, ih]
    split
    · dsimp only
      split
      · exact (fences_endLoan ..).trans (fences_makeRunnable ..)
      · exact fences_makeRunnable ..
    · rfl

theorem fences_wakeWaitf (n : Nat) (force : Bool) (l : List (Nat × Core)) : ∀ s : State, (s.wakeWaitf n force l).fences = s.fences := by
  induction l with
  | nil => exact fun _ => rfl
  | cons e r ih =>
    intro s
    obtain ⟨c, x⟩ := e
    rw [State.wakeWaitf, ih]
    split
    · dsimp only
      split
      · exact fences_waitfEnd ..
      · rfl
    · rfl

/-- An update of a counter at the fence store leaves the others. -/
theorem fenceAt_fenceUpdate (s : State) (n t m : Nat) (f : Fence → Fence) : (s.fenceUpdate n t f).fenceAt m =
    if m = n then { f (s.fenceAt n) with fts := max (s.fenceAt n).fts t + 1 } else s.fenceAt m := by
  have hf : (s.fenceUpdate n t f).fences = (s.setFence n { f (s.fenceAt n) with fts := max (s.fenceAt n).fts t + 1 }).fences :=
    (fences_wakeWaitf ..).trans (fences_wakeFence ..)
  rw [State.fenceAt, hf]
  exact State.fenceAt_setFence ..

variable {id : Nat} {o : Op}

theorem exec_releaseApply_waits (ho : s.opAt id = some o) (h : s.stillLive o o.after = true ∨ s.committed o = false) :
    exec (.releaseApply id) s = .next s := by
  change execReleaseApply id s = _
  rw [execReleaseApply, ho]
  dsimp only
  rw [if_pos (by rcases h with h | h <;> simp [h])]

theorem exec_releaseApply (ho : s.opAt id = some o) (hr : o.isRelease = true) (hl : s.stillLive o o.after = false)
    (hc : s.committed o = true) : exec (.releaseApply id) s = .next ((s.applyRelease o).dropOp id) := by
  change execReleaseApply id s = _
  rw [execReleaseApply, ho]
  dsimp only
  rw [if_neg (by simp [hr, hl, hc])]

/-- What FINC and `finc.set` make of a counter (R165). -/
def fincTo (a set : Nat) (f : Fence) : Fence :=
  if set = 1 then { f with value := BitVec.ofNat 32 a, err := false } else { f with value := f.value + BitVec.ofNat 32 a }

theorem fincTo_spec (a set : Nat) (f : Fence) : (fincTo a set f).value = (if set = 1 then BitVec.ofNat 32 a else f.value + BitVec.ofNat 32 a)
    ∧ (fincTo a set f).err = (if set = 1 then false else f.err) := by
  unfold fincTo
  split <;> exact ⟨rfl, rfl⟩

theorem applyRelease_finc {n a set : Nat} (hk : o.kind = .finc) (hx : o.x = [n, a, set]) (ha : (s.fenceAt n).alloc = true)
    (hw : (s.fenceAt n).owner.toNat = (s.mcAt o.mc).part.toNat) :
    s.applyRelease o = s.fenceUpdate n (max o.pts o.ts) (fincTo a set) := by
  simp only [State.applyRelease, hk, hx]
  exact if_pos (by simp [ha, hw])

theorem fenceAt_dropOp (s : State) (id m : Nat) : (s.dropOp id).fenceAt m = s.fenceAt m := rfl

/-- The counter of a FINC that is applied, and the other ones. -/
theorem exec_releaseApply_finc {n a set : Nat} (ho : s.opAt id = some o) (hk : o.kind = .finc) (hx : o.x = [n, a, set])
    (hl : s.stillLive o o.after = false) (hc : s.committed o = true) (ha : (s.fenceAt n).alloc = true)
    (hw : (s.fenceAt n).owner.toNat = (s.mcAt o.mc).part.toNat) :
    ∃ t, exec (.releaseApply id) s = .next t ∧ t.opAt id = none
      ∧ (t.fenceAt n).value = (if set = 1 then BitVec.ofNat 32 a else (s.fenceAt n).value + BitVec.ofNat 32 a)
      ∧ (t.fenceAt n).err = (if set = 1 then false else (s.fenceAt n).err)
      ∧ ∀ m, m ≠ n → t.fenceAt m = s.fenceAt m := by
  obtain ⟨hv, he⟩ := fincTo_spec a set (s.fenceAt n)
  refine ⟨_, exec_releaseApply ho (by simp [Op.isRelease, hk]) hl hc, opAt_dropOp .., ?_, ?_, fun m hm => ?_⟩
  all_goals rw [applyRelease_finc hk hx ha hw, fenceAt_dropOp, fenceAt_fenceUpdate]
  · rw [if_pos rfl, ← hv]
  · rw [if_pos rfl, ← he]
  · rw [if_neg hm]

end

/-- Settles O26: a release that waits by `exec_releaseApply_waits`, a FINC by the update of its counter. -/
theorem releaseApplies : Obligations.ReleaseApplies := fun _ _ _ ho =>
  ⟨fun _ => exec_releaseApply_waits ho, fun _ _ _ hk hx hl hc ha hw => exec_releaseApply_finc ho hk hx hl hc ha hw⟩

end Sys2Proof
end

