-- ==== Sys2Proof/Proofs/Checkpoints.lean ====
section
/-!
PROOFS. The completions of SUSP and RETIRE, and the checkpoints of a core (R155, R158, R421 to R423; O48).
-/
namespace Sys2Proof
open Machine Claim
set_option Elab.async false

section
variable {s : State} {c : Nat} {b : VAddr} {l : Bool}

/-! ## SUSP and RETIRE complete (R155, R158) -/

/-- A SUSP whose descriptor was read at its issue completes. -/
theorem exec_suspFrameWrite {desc wt : Word32} {wkind wid : Nat} {d : SuspDesc} (hr : (s.coreAt c).running = true)
    (hx : (s.coreAt c).now.xfer = some ⟨.susp desc wkind wid wt (some d), b, true, l⟩) (hq : (s.coreAt c).now.quiet = true)
    (hf : (s.coreAt c).now.fences = []) (ha : s.frameAsleep (s.coreAt c).mc (s.coreAt c).fslot = false) :
    Becomes (.suspFrameWrite c) s (s.suspDone c d wkind wid wt) := by
  change execSuspFrameWrite c s = _
  simp only [execSuspFrameWrite, hx]
  rw [if_neg (by simp [hr, hq, hf]), if_neg (by simp [ha])]
  rfl

/-- A RETIRE of a continuation that has nothing outstanding completes. -/
theorem exec_retireComplete (hr : (s.coreAt c).running = true) (hx : (s.coreAt c).now.xfer = some ⟨.retire, b, true, l⟩)
    (hq : (s.coreAt c).now.quiet = true) (ho : s.opsOf (s.coreAt c).mc (s.coreAt c).fslot = []) : Becomes (.retireComplete c) s
      (((((s.coreAt c).now.handles.foldl (fun t e => t.tfree c (BitVec.ofNat 8 e.1)) s).releaseCore c).contFree (s.keyOf c)).reapClus
        (clusterOfCore c)) := by
  change execRetireComplete c s = _
  simp only [execRetireComplete, hx]
  rw [if_neg (by simp [hr, hq, ho])]

/-- The slot of a continuation that has ended is free. -/
theorem contAt_contFree (s : State) (k : Nat) : (s.contFree k).contAt k = {} := by
  unfold State.contFree
  extract_lets t y u
  rw [contAt_onMc, State.contAt_setCont, if_pos rfl]

/-! ## Checkpoints (R421 to R423) -/

theorem exec_checkpointInterval (h : s.checkpointDue c = true) : Becomes (.checkpointInterval c) s (s.checkpoint c) := by
  change execCheckpointInterval c s = _
  rw [execCheckpointInterval, if_pos h]

theorem exec_forcedCheckpoint (hr : (s.coreAt c).running = true) (h : (s.coreAt c).forced = true ∨ (s.coreAt c).undo ≠ []) :
    Becomes (.forcedCheckpoint c) s (s.checkpoint c) := by
  change execForcedCheckpoint c s = _
  rw [execForcedCheckpoint, if_pos (by simpa [hr] using h)]

/-- The checkpoint of a core holds its registers, and leaves no byte tentative. -/
theorem coreAt_checkpoint_self (s : State) (c : Nat) : (s.checkpoint c).coreAt c =
    { s.coreAt c with saved := (s.coreAt c).now, undo := [], savedOp := s.nextOp, sinceCk := 0, undoPriv := [], commit := false, forced := false,
                      tiles := [], made := [], remake := [] } := State.coreAt_setCoreAt_self ..

theorem coreAt_checkpoint_ne {d : Nat} (h : d ≠ c) : (s.checkpoint c).coreAt d = s.coreAt d := by
  rw [State.checkpoint, State.onCoreAt, State.coreAt_setCoreAt, if_neg h]

end

/-- Settles O48: each completion and each checkpoint by its rule. -/
theorem suspensionsAndCheckpoints : Obligations.SuspensionsAndCheckpoints := by
  intro s c b l hr x k
  refine ⟨fun desc wkind wid wt d hx hq hf ha => exec_suspFrameWrite hr hx hq hf ha, exec_retireComplete hr,
    fun u => contAt_contFree u k, fun h => exec_checkpointInterval ?_, exec_forcedCheckpoint hr, ?_⟩
  · rw [State.checkpointDue]
    simpa [hr, or_assoc] using h
  · dsimp only
    rw [coreAt_checkpoint_self]
    exact ⟨rfl, rfl, rfl, rfl, rfl, rfl, .refl s, fun d => coreAt_checkpoint_ne⟩

end Sys2Proof
end

