-- ==== Sys2Proof/Proofs/SuspRead.lean ====
section
/-!
PROOFS. The issue of the SUSP forms: the descriptor that is read through the instruction path, the causes and the delay cycle (R155, R163,
R169, R174; O24).
-/
namespace Sys2Proof
open Machine Claim
set_option Elab.async false

/-! ## The read of a descriptor leaves the work of the cores (R32, R155, R203, R423) -/

section
variable {α : Type} {s t : State}

theorem SameWork.of_cores (hq : t.cur = s.cur) (hc : t.cores = s.cores) : SameWork s t :=
  ⟨hq, fun d => by rw [State.coreAt, hc, State.coreAt]⟩

theorem SameWork.of_eq {p : α × State} {a : α} (e : p = (a, t)) (h : SameWork s p.2) : SameWork s t := by
  subst e; exact h

theorem cur_setAD (s : State) (w : Who) (mc key va : Nat) (kind : Acc) (l : Option (Nat × Nat)) : (s.setAD w mc key va kind l).cur = s.cur := by
  unfold State.setAD
  split
  · rfl
  · dsimp only
    split <;> rfl

theorem sameWork_xlateDo (s : State) (w : Who) (mc key va : Nat) (kind : Acc) : SameWork s (s.xlateDo w mc key va kind).2 := by
  have hw : SameWork s (s.walkCommit mc va) := (SameBooks.commitAll (.refl s)).work
  unfold State.xlateDo
  dsimp only
  split
  · exact hw.trans (.of_cores (cur_setAD ..) (cores_setAD ..))
  · exact hw

theorem sameWork_askPage (s : State) (sg at' : Nat) : SameWork s (s.askPage sg at') := (SameBooks.askPage (.refl s)).work

theorem sameWork_codeLine (s : State) (c va : Nat) (p : Bool × Nat) : SameWork s (s.codeLine c va p).2 := by
  obtain ⟨h, pa⟩ := p
  cases h with
  | true =>
    have hl : SameWork s (s.hostLink (s.coreAt c).mc false (pa / 64 * 64) 64) := .of_cores rfl rfl
    unfold State.codeLine
    dsimp only
    split
    · exact hl
    · exact hl
  | false =>
    unfold State.codeLine
    dsimp only
    split
    · exact .refl s
    · exact (SameBooks.refl s).commitBut.viaCache.work

theorem sameWork_codeAt (s : State) (c va : Nat) : SameWork s (s.codeAt c va).2 := by
  have hx := sameWork_xlateDo s (s.fetcher c) (s.coreAt c).mc 0 va .execute
  unfold State.codeAt
  dsimp only
  split
  case h_1 e => exact (hx.of_eq e).trans (sameWork_codeLine ..)
  case h_2 e => exact hx.of_eq e
  case h_3 e => exact hx.of_eq e
  case h_4 e =>
    split
    · exact hx.of_eq e
    · exact (hx.of_eq e).trans (sameWork_askPage ..)

theorem sameWork_descPart (s : State) (c va n : Nat) : SameWork s (s.descPart c va n).2 := by
  have hx := sameWork_codeAt s c va
  unfold State.descPart
  split
  case h_1 h pa u e =>
    have hl : SameWork s (if (pa + n - 1) / 64 = pa / 64 then (.ok (h, pa), u) else u.codeLine c (va + n - 1) (h, pa + n - 1)).2 := by
      split
      · exact hx.of_eq e
      · exact (hx.of_eq e).trans (sameWork_codeLine ..)
    dsimp only
    split
    case h_1 e' => exact hl.of_eq e'
    case h_2 e' => exact hl.of_eq e'
  case h_2 e => exact hx.of_eq e

theorem sameWork_descBytes (s : State) (c va : Nat) : SameWork s (s.descBytes c va).2 := by
  unfold State.descBytes
  extract_lets room
  split
  · exact sameWork_descPart ..
  · split
    case h_1 e =>
      have hx := (sameWork_descPart s c va room).of_eq e
      split
      case h_1 e' => exact hx.trans ((sameWork_descPart ..).of_eq e')
      case h_2 e' => exact hx.trans ((sameWork_descPart ..).of_eq e')
    case h_2 e => exact (sameWork_descPart s c va room).of_eq e

/-- The read of a descriptor. -/
theorem sameWork_suspRead (s : State) (c va : Nat) : SameWork s (s.suspRead c va).2 := by
  have hx := sameWork_descBytes s c va
  unfold State.suspRead
  split
  case h_1 e => exact hx.of_eq e
  case h_2 e => exact hx.of_eq e
  case h_3 e => exact hx.of_eq e
  case h_4 e => exact hx.of_eq e

end

/-! ## Causes (R155) -/

section
variable {s : State} {va : Nat}

theorem suspCheck_of_ok {d : SuspDesc} (hz : s.arch.countersZero = true) (hr : (s.suspRead s.cur va).1 = .ok d) : s.suspCheck va = none := by
  simp [State.suspCheck, hz, hr]

theorem suspCheck_of_bad (hz : s.arch.countersZero = true) (ha : s.arch.descAsleep = false) (hr : (s.suspRead s.cur va).1 = .bad) :
    s.suspCheck va = some { cause := 97, reason := 2 } := by
  simp [State.suspCheck, hz, ha, hr, firstTrap]

/-- A counter that is not 0 is found unless the fetch of the descriptor faults before. -/
theorem suspCheck_of_busy (hz : s.arch.countersZero = false) (hr : ∀ f, (s.suspRead s.cur va).1 ≠ .fault f) :
    s.suspCheck va = some { cause := 97, reason := 1 } := by
  have hb : trapIf (!s.arch.countersZero) 97 1 = some { cause := 97, reason := 1 } := by rw [hz]; rfl
  simp only [State.suspCheck, hb]
  split
  · rfl
  · split
    case h_1 f hf => exact absurd hf (hr f)
    case h_2 => rfl
    case h_3 => rfl

end

/-! ## The issue of a SUSP (R155, R174) -/

section
variable {i : Instr} {s : State} {g : Guard} {kind va : Nat} {x y : SReg} {desc : Word32} {extra : State → Option Trap}
  (hi : exec i s = suspIssue g kind x y desc extra s) (hg : s.arch.guardOn 0 g = true)
  (hva : (relTarget s.arch.pc desc).toNat = va)
include hi hg hva

/-- The state in which a SUSP with descriptor `d` has issued from state `t`, in which the descriptor has been read. -/
theorem suspIssue_issues {d : SuspDesc} {t : State} (hz : s.arch.countersZero = true) (ha : s.arch.descAsleep = false)
    (hr : s.suspRead s.cur va = (.ok d, t)) (he : extra s = none) :
    let u := t.transfer (.susp (BitVec.ofNat 32 (s.codeOff s.core.mc va)) kind ((s.arch.rdS x).toNat % 65536) ((s.arch.rdS y).truncate 32)
      (some d))
    Issues i s (if kind = 1 || kind = 2 then u else u.commitPoint) := by
  subst hva
  have hr1 : (s.suspRead s.cur (relTarget s.arch.pc desc).toNat).1 = .ok d := congrArg Prod.fst hr
  dsimp only
  rw [Issues, hi, suspIssue]
  dsimp only
  rw [issue_on hg (.inr ⟨by rw [suspCheck_of_ok hz hr1, he]; rfl, by rw [ha, hr]; rfl⟩), hr]

theorem suspIssue_traps_of_check {cause reason : Nat} (hk : s.checked = false)
    (hc : s.suspCheck va = some { cause := cause, reason := reason }) : Traps i s 0 cause reason := by
  subst hva
  rw [suspIssue] at hi
  exact traps_of_check hi hg hk (by rw [hc]; rfl)

theorem suspIssue_traps_of_extra {cause reason : Nat} {d : SuspDesc} (hk : s.checked = false) (hz : s.arch.countersZero = true)
    (hr : (s.suspRead s.cur va).1 = .ok d) (he : extra s = some { cause := cause, reason := reason }) : Traps i s 0 cause reason := by
  subst hva
  rw [suspIssue] at hi
  exact traps_of_check hi hg hk (by rw [suspCheck_of_ok hz hr, he]; rfl)

end

theorem retire_issues {s : State} {g : Guard} (hg : s.arch.guardOn 0 g = true) (hz : s.arch.countersZero = true) :
    Issues (.retire g) s (s.transfer .retire).commitPoint := by
  change execRetire g s = _
  unfold execRetire
  exact issue_on hg (.inr ⟨by simp [hz], rfl⟩)

theorem retire_traps {s : State} {g : Guard} (hg : s.arch.guardOn 0 g = true) (hk : s.checked = false) (hz : s.arch.countersZero = false) :
    Traps (.retire g) s 0 97 1 := by
  change execRetire g s = _
  unfold execRetire
  exact issue_trap hg hk (by simp [hz])

/-- The causes of the wait of a `susp.bar` (R169). -/
theorem barCauses_none {n w : Word} (h1 : 1 ≤ n.toNat) (h2 : n.toNat ≤ 4096) (hw : w.toNat ≤ 15) :
    firstTrap [trapIf (barTargetBad n) 102 1, trapIf (decide (w.toNat > 15)) 102 3] = none := by
  simp [barTarget_ok h1 h2, Nat.not_lt.2 hw, firstTrap]

theorem barCauses_of_range {n w : Word} (h : n.toNat = 0 ∨ 4096 < n.toNat) :
    firstTrap [trapIf (barTargetBad n) 102 1, trapIf (decide (w.toNat > 15)) 102 3] = some { cause := 102, reason := 1 } := by
  rw [(barTargetBad_iff n).2 (by omega)]
  rfl

end Sys2Proof
end

