-- ==== Sys2Proof/Proofs/SuspEnd.lean ====
section
/-!
PROOFS. What the completion of a SUSP leaves of its continuation and of its core (R127, R155, R166, R169; O24).
-/
namespace Sys2Proof
open Machine Claim
set_option Elab.async false

/-! ## The frame of a SUSP (R127) -/

section
variable {r s : State}

theorem SameBooks.foldl_fst {α β : Type} {l : List α} {f : State × β → α → State × β} {p : State × β}
    (hf : ∀ t x, SameBooks r t.1 → SameBooks r (f t x).1) (h : SameBooks r p.1) : SameBooks r (l.foldl f p).1 :=
  l.foldlRecOn (motive := fun p => SameBooks r p.1) f h fun t ht x _ => hf t x ht

theorem SameBooks.writeAreas {mc fs a live} (h : SameBooks r s) : SameBooks r (s.writeAreas mc fs a live) := by
  unfold State.writeAreas
  refine .foldl_fst (fun _ _ ht => ht.frameImage) (.foldl (fun _ _ ht => ht.frameWrite) (.frameWrite (.foldl (fun _ _ ht => ?_) h)))
  split
  · exact ht.frameWrite
  · exact ht.frameWrite
  · exact ht.frameImage
  · exact ht

theorem SameBooks.suspFrame {c resume amask smask vmask wkind wid wtarget} (h : SameBooks r s) :
    SameBooks r (s.suspFrame c resume amask smask vmask wkind wid wtarget) := h.frameWrite.writeAreas.frameWrite.frameWrite.frameWrite

/-! ## A released core (R129, R138) -/

theorem SameBooks.retryOver {c} (h : SameBooks r s) : SameBooks r (s.retryOver c) := by
  unfold State.retryOver
  extract_lets x
  split
  · exact SameBooks.onCoreAt (s := s.coreError c x.retrySrc 1 x.mc) (fun _ => rfl) h
  · exact h

/-- A core that is released owes its cycles; the bindings' barriers, the counters and the continuations stay. -/
theorem releaseCore_frame (s : State) (c : Nat) : (∀ n, (s.releaseCore c).fenceAt n = s.fenceAt n)
    ∧ (∀ b, ((s.releaseCore c).bindAt b).bars = (s.bindAt b).bars) ∧ (∀ k, (s.releaseCore c).contAt k = s.contAt k) := by
  have h : SameBooks s (s.retryOver c) := SameBooks.retryOver (.refl s)
  refine ⟨fun n => h.tables.fenceAt n, fun b => ?_, fun k => h.contAt k⟩
  have hb : (s.releaseCore c).bindAt b = ((s.retryOver c).onBind ((s.retryOver c).coreAt c).bind
      (fun y => { y with owed := y.owed + ((s.retryOver c).coreAt c).delivered })).bindAt b := rfl
  rw [hb, ← h.tables.bindAt b, State.onBind, State.bindAt_setBind]
  split
  case isTrue e => rw [e]
  case isFalse => rfl

end

/-! ## The delay cycle of a SUSP -/

/-- The core at work has come to the end of its delay cycle. -/
theorem delayed_spec {s t u : State} {k : XKind} (hw : SameWork s t) (h : Delayed (t.transfer k) u) : let y := u.coreAt s.cur
    y.running = true ∧ y.mc = s.core.mc ∧ y.fslot = s.core.fslot ∧ y.now.xfer = some ⟨k, t.arch.pc, true, false⟩ ∧ y.now.quiet = true
      ∧ y.now.fences = [] ∧ u.frameAsleep y.mc y.fslot = false := by
  obtain ⟨hr, hm, hf, hx, hq, hfe, ha⟩ := h
  have hcur : (t.transfer k).cur = s.cur := hw.cur
  obtain ⟨-, hm', -, hf', -⟩ := hw.core s.cur
  rw [hcur] at hr hm hf hx hq hfe ha
  have hc : (t.transfer k).core = { t.core with now := { t.arch with xfer := some ⟨k, t.arch.pc, false, false⟩ } } := core_onArch t _
  rw [hc] at hm hf hx
  refine ⟨hr, hm.trans ?_, hf.trans ?_, hx, hq, hfe, ha⟩
  · rw [State.core, hw.cur]; exact hm'
  · rw [State.core, hw.cur]; exact hf'

/-! ## The state of the continuation (R155, R166) -/

/-- The continuation of a SUSP as its frame is written. -/
def suspCont (d : SuspDesc) (wkind wid : Nat) (wtarget : Word32) (y : Cont) : Cont := {
  y with
  frozen := false, statp := some d.statp, wkind := wkind, wid := wid, wtarget := wtarget, werr := false, recIds := [], more := [], ops := [],
  skip := false, handlerInfo := 0 }

theorem bindAt_shepUp (s : State) (b : Nat) : s.shepUp.bindAt b = s.bindAt b := rfl

theorem bindAt_onCont (s : State) (k b : Nat) (f : Cont → Cont) : (s.onCont k f).bindAt b = s.bindAt b := rfl

theorem fenceAt_shepUp (s : State) (n : Nat) : s.shepUp.fenceAt n = s.fenceAt n := rfl

theorem fenceAt_onCont (s : State) (k n : Nat) (f : Cont → Cont) : (s.onCont k f).fenceAt n = s.fenceAt n := rfl

/-- The frame of a SUSP is written and its core released. -/
def suspReleased (u : State) (c : Nat) (d : SuspDesc) (wkind wid : Nat) (wtarget : Word32) : State :=
  ((u.shepUp.suspFrame c d.resume d.amask d.smask d.vmask wkind wid wtarget.toNat).onCont (u.keyOf c) (suspCont d wkind wid wtarget)).shepUp.releaseCore c

section
variable {u : State} {c : Nat} {d : SuspDesc} {wkind wid : Nat} {wtarget : Word32}

theorem suspDone_eq : u.suspDone c d wkind wid wtarget = (suspReleased u c d wkind wid wtarget).suspState (u.keyOf c) wkind wid wtarget := by
  unfold State.suspDone
  extract_lets k s1 s2
  unfold suspReleased
  congr 1

theorem suspReleased_frame : let w := suspReleased u c d wkind wid wtarget
    (w.coreAt c).running = false ∧ w.contAt (u.keyOf c) = suspCont d wkind wid wtarget (u.contAt (u.keyOf c))
      ∧ (∀ n, w.fenceAt n = u.fenceAt n) ∧ ∀ b, (w.bindAt b).bars = (u.bindAt b).bars := by
  have hs : SameBooks u (u.shepUp.suspFrame c d.resume d.amask d.smask d.vmask wkind wid wtarget.toNat) := (SameBooks.refl u).shepUp.suspFrame
  dsimp only
  rw [suspReleased]
  generalize u.shepUp.suspFrame c d.resume d.amask d.smask d.vmask wkind wid wtarget.toNat = t at hs ⊢
  obtain ⟨hf, hb, hc⟩ := releaseCore_frame (t.onCont (u.keyOf c) (suspCont d wkind wid wtarget)).shepUp c
  refine ⟨running_releaseCore .., ?_, fun n => ?_, fun b => ?_⟩
  · rw [hc, contAt_shepUp, contAt_onCont, if_pos rfl, hs.contAt]
  · rw [hf, fenceAt_shepUp, fenceAt_onCont, hs.tables.fenceAt]
  · rw [hb, bindAt_shepUp, bindAt_onCont, hs.tables.bindAt]

end

section
variable {s : State} {k wkind wid c : Nat} {wtarget : Word32}

theorem SameTables.running {t : State} (h : SameTables s t) (c : Nat) : (t.coreAt c).running = (s.coreAt c).running := (h.work.core c).1

theorem suspState_none : s.suspState k 0 wid wtarget = s.makeRunnable k := by
  unfold State.suspState
  exact if_pos rfl

theorem suspState_bar : s.suspState k 3 wid wtarget = s.barArriveWaiting k := by
  unfold State.suspState
  exact (if_neg (by decide)).trans (if_pos rfl)

theorem sameTables_beginLoan (s : State) (mc sg : Nat) : SameTables s (s.beginLoan mc sg) := by
  unfold State.beginLoan
  split <;> exact .refl s

theorem conts_beginLoan (s : State) (mc sg : Nat) : (s.beginLoan mc sg).conts = s.conts := by
  unfold State.beginLoan
  split <;> rfl

/-- Continuation `k` has state `st` in `t`, and waits for what it waits for in `s`; the cores and the tables are as in `s`. -/
def WaitSet (s : State) (k : Nat) (st : ContState) (t : State) : Prop :=
  SameTables s t ∧ (t.contAt k).state = st ∧ (t.contAt k).wid = (s.contAt k).wid ∧ (t.contAt k).wtarget = (s.contAt k).wtarget
    ∧ (t.contAt k).wkind = (s.contAt k).wkind

theorem WaitSet.setContState (s : State) (k : Nat) (st : ContState) : WaitSet s k st (s.setContState k st) := by
  have hc : (s.setContState k st).contAt k = { s.contAt k with state := st } := by rw [contAt_setContState, if_pos rfl]
  exact ⟨(SameTables.refl s).setContState, by rw [hc], by rw [hc], by rw [hc], by rw [hc]⟩

/-- A loan that the wait begins changes nothing of it. -/
theorem WaitSet.lent {st : ContState} {t : State} {mc sg : Nat} (h : WaitSet s k st t) :
    WaitSet s k st ((t.beginLoan mc sg).onCont k (fun x => { x with lent := some sg })) := by
  obtain ⟨ht, hs, h1, h2, h3⟩ := h
  have hc : ((t.beginLoan mc sg).onCont k (fun x => { x with lent := some sg })).contAt k = { t.contAt k with lent := some sg } := by
    rw [contAt_onCont, if_pos rfl, State.contAt, conts_beginLoan, State.contAt]
  exact ⟨ht.trans (sameTables_beginLoan t mc sg).onCont, by rw [hc]; exact hs, by rw [hc]; exact h1, by rw [hc]; exact h2,
    by rw [hc]; exact h3⟩

theorem WaitSet.runnable (s : State) (k n : Nat) (err : Bool) :
    WaitSet s k .runnable (((s.onCont k (fun x => { x with werr := err })).raisePts k n).makeRunnable k) := by
  have hc : (((s.onCont k (fun x => { x with werr := err })).raisePts k n).makeRunnable k).contAt k = { s.contAt k with
      werr := err, pts := max (s.contAt k).pts n, state := .runnable,
      order := (((s.onCont k (fun x => { x with werr := err })).raisePts k n).setContState k .runnable).nextOrder } := by
    rw [contAt_makeRunnable, if_pos rfl, contAt_raisePts, if_pos rfl, contAt_onCont, if_pos rfl]
  exact ⟨(SameTables.refl s).onCont.onCont.makeRunnable, by rw [hc], by rw [hc], by rw [hc], by rw [hc]⟩

/-- The wait of `susp.fence` and `susp.lend`: RUNNABLE when the condition holds, else WAITING. -/
theorem suspState_fence (hk : wkind = 1 ∨ wkind = 2) :
    WaitSet s k (if (s.fenceAt wid).holds wtarget = true then .runnable else .waiting) (s.suspState k wkind wid wtarget) := by
  have h0 : wkind ≠ 0 := by omega
  have h3 : wkind ≠ 3 := by omega
  rw [State.suspState]
  simp only [if_neg h0, if_neg h3]
  split
  case isTrue => exact .runnable s k _ _
  case isFalse =>
    have hw := WaitSet.setContState s k .waiting
    split
    · exact hw.lent
    · exact hw

/-! ## The barrier of a `susp.bar` (R169) -/

/-- An arrival that agrees with the round: it is released with the last one. -/
theorem arrive_of_ok {b : Barrier} {n p : Nat} (h : b.count = 0 ∨ b.target = n) : ∃ b', b.arrive n p = some (b', decide (n ≤ b.count + 1)) := by
  have hm : (decide (b.count > 0) && b.target != n) = false := by rcases h with h | h <;> simp [h]
  rw [Barrier.arrive, hm, if_neg (by decide)]
  dsimp only
  by_cases hn : n ≤ b.count + 1
  · exact ⟨_, by rw [if_pos hn, decide_eq_true hn]⟩
  · exact ⟨_, by rw [if_neg hn, decide_eq_false hn]⟩

theorem running_onCoreAt {d : Nat} {f : Core → Core} (hf : ∀ x, (f x).running = x.running) :
    ((s.onCoreAt d f).coreAt c).running = (s.coreAt c).running := by
  rw [State.onCoreAt, State.coreAt_setCoreAt]
  split
  case isTrue e => rw [hf, e]
  case isFalse => rfl

theorem coreAt_raisePts (s : State) (k n c : Nat) : (s.raisePts k n).coreAt c = s.coreAt c := rfl

theorem running_barRelease (bd b bts : Nat) (l : List (Nat × Core)) : ∀ s : State,
    ((s.barRelease bd b bts l).coreAt c).running = (s.coreAt c).running := by
  induction l with
  | nil => exact fun _ => rfl
  | cons e r ih =>
    intro s
    obtain ⟨d, x⟩ := e
    rw [State.barRelease, ih]
    split
    · split
      · exact (congrArg Core.running (coreAt_raisePts ..)).trans (running_onCoreAt fun _ => rfl)
      · rfl
    · rfl

theorem SameTables.barWake (bd b bts : Nat) (l : List (Nat × Cont)) : ∀ s : State, SameTables s (s.barWake bd b bts l) := by
  induction l with
  | nil => exact .refl
  | cons e r ih =>
    intro s
    obtain ⟨j, y⟩ := e
    rw [State.barWake]
    refine SameTables.trans ?_ (ih _)
    split
    · exact SameTables.makeRunnable (.refl s)
    · exact .refl s

/-- A continuation that is RUNNABLE stays so while others wake. -/
theorem runnable_barWake (bd b bts : Nat) (l : List (Nat × Cont)) : ∀ s : State, (s.contAt k).state = .runnable →
    ((s.barWake bd b bts l).contAt k).state = .runnable := by
  induction l with
  | nil => exact fun _ h => h
  | cons e r ih =>
    intro s h
    obtain ⟨j, y⟩ := e
    rw [State.barWake]
    refine ih _ ?_
    split
    · rw [contAt_makeRunnable]
      split
      · rfl
      · rw [contAt_raisePts]
        split
        case isTrue e => rw [← e]; exact h
        case isFalse => exact h
    · exact h

/-- A WAITING continuation of the barrier wakes. -/
theorem wakes_barWake {bd b bts : Nat} {y : Cont} {l : List (Nat × Cont)} (hs : y.state = .waiting) (hk : y.wkind = 3)
    (hb : y.bind = bd) (hw : y.wid = b) (hr : y.refused = false) (hm : (k, y) ∈ l) :
    ∀ s : State, ((s.barWake bd b bts l).contAt k).state = .runnable := by
  induction l with
  | nil => exact absurd hm List.not_mem_nil
  | cons e r ih =>
    intro s
    rcases List.mem_cons.1 hm with he | hmem
    · subst he
      rw [State.barWake]
      refine runnable_barWake bd b bts r _ ?_
      rw [if_pos (by simp [hs, hk, hb, hw, hr]), contAt_makeRunnable, if_pos rfl]
    · obtain ⟨j, z⟩ := e
      rw [State.barWake]
      exact ih hmem _

/-- The arrival of a `susp.bar` continuation: RUNNABLE when it is the last one, else WAITING. -/
theorem barArriveWaiting_ok (hk : (s.contAt k).wkind = 3)
    (hb : (SMap.get {} (s.bindAt (s.contAt k).bind).bars (s.contAt k).wid).count = 0
      ∨ (SMap.get {} (s.bindAt (s.contAt k).bind).bars (s.contAt k).wid).target = (s.contAt k).wtarget.toNat) :
    let t := s.barArriveWaiting k
    (t.coreAt c).running = (s.coreAt c).running ∧ (t.contAt k).state =
      (if (s.contAt k).wtarget.toNat ≤ (SMap.get {} (s.bindAt (s.contAt k).bind).bars (s.contAt k).wid).count + 1 then .runnable else .waiting) := by
  obtain ⟨b', ha⟩ := arrive_of_ok (p := (s.contAt k).pts) hb
  dsimp only
  rw [State.barArriveWaiting]
  simp only [ha]
  generalize hu : ((s.onBind (s.contAt k).bind (fun x => { x with bars := SMap.set {} x.bars (s.contAt k).wid b' })).onCont k
    (fun x => { x with refused := false })).setContState k .waiting = w
  have hc : w.contAt k = { s.contAt k with refused := false, state := .waiting } := by
    rw [← hu, contAt_setContState, if_pos rfl, contAt_onCont, if_pos rfl]
    rfl
  have hr : (w.coreAt c).running = (s.coreAt c).running := by
    rw [← hu]
    exact (SameTables.setContState (.refl _)).running c
  have hs : (w.contAt k).state = .waiting := by rw [hc]
  by_cases hn : (s.contAt k).wtarget.toNat ≤ (SMap.get {} (s.bindAt (s.contAt k).bind).bars (s.contAt k).wid).count + 1
  · rw [if_pos (decide_eq_true hn), if_pos hn]
    refine ⟨((SameTables.barWake ..).running c).trans ((running_barRelease ..).trans hr), ?_⟩
    exact wakes_barWake hs (by rw [hc]; exact hk) (by rw [hc]) (by rw [hc]) (by rw [hc]) (mem_conts (by rw [hs]; decide)) _
  · rw [if_neg (by simpa using hn), if_neg hn]
    exact ⟨hr, hs⟩

end

end Sys2Proof
end

