-- ==== Sys2Proof/Proofs/Yields.lean ====
section
/-!
PROOFS. The freeze of a YIELD that suspends a continuation with nothing outstanding: it carries no access, and is RUNNABLE at once (R157, R408,
R410; O24).
-/
namespace Sys2Proof
open Machine Claim
set_option Elab.async false

/-- Core `c` holds the continuation of frame slot `fs` of micro-context `mc`, which has no operation outstanding. -/
def HoldsIdle (c mc fs : Nat) (t : State) : Prop := (t.coreAt c).mc = mc ∧ (t.coreAt c).fslot = fs ∧ t.opsOf mc fs = []

section
variable {c mc fs d k : Nat} {s t : State}

/-! ## Updates that keep it -/

theorem HoldsIdle.of_books (h : HoldsIdle c mc fs s) (hb : SameBooks s t) : HoldsIdle c mc fs t := by
  obtain ⟨hm, hf, ho⟩ := h
  obtain ⟨-, hm', -, hf', -⟩ := hb.work.core c
  exact ⟨hm'.trans hm, hf'.trans hf, by rw [State.opsOf, hb.tables.ops]; exact ho⟩

theorem HoldsIdle.onCoreAt {f : Core → Core} (hf : ∀ x, (f x).mc = x.mc ∧ (f x).fslot = x.fslot) (h : HoldsIdle c mc fs s) :
    HoldsIdle c mc fs (s.onCoreAt d f) := by
  obtain ⟨hm, hfs, ho⟩ := h
  have hc : ((s.onCoreAt d f).coreAt c).mc = (s.coreAt c).mc ∧ ((s.onCoreAt d f).coreAt c).fslot = (s.coreAt c).fslot := by
    rw [State.onCoreAt, State.coreAt_setCoreAt]
    split
    case isTrue e => rw [e]; exact hf _
    case isFalse => exact ⟨rfl, rfl⟩
  exact ⟨hc.1.trans hm, hc.2.trans hfs, ho⟩

theorem HoldsIdle.onArchAt {f : Arch → Arch} (h : HoldsIdle c mc fs s) : HoldsIdle c mc fs (s.onArchAt d f) := h.onCoreAt fun _ => ⟨rfl, rfl⟩

theorem HoldsIdle.dropOp {n : Nat} (h : HoldsIdle c mc fs s) : HoldsIdle c mc fs (s.dropOp n) := by
  obtain ⟨hm, hf, ho⟩ := h
  refine ⟨hm, hf, ?_⟩
  rw [State.opsOf, List.filter_eq_nil_iff] at ho ⊢
  exact fun o hm => ho o (List.mem_filter.1 hm).1

theorem HoldsIdle.onCont {f : Cont → Cont} (h : HoldsIdle c mc fs s) : HoldsIdle c mc fs (s.onCont k f) := h

theorem HoldsIdle.ite {p : Prop} [Decidable p] (h : HoldsIdle c mc fs s) (h' : HoldsIdle c mc fs t) :
    HoldsIdle c mc fs (if p then s else t) := by
  split
  · exact h
  · exact h'

theorem HoldsIdle.ite_fst {β : Type} {p : Prop} [Decidable p] {x y : State × β} (h : HoldsIdle c mc fs x.1) (h' : HoldsIdle c mc fs y.1) :
    HoldsIdle c mc fs (if p then x else y).1 := by
  split
  · exact h
  · exact h'

theorem HoldsIdle.foldl {α : Type} {l : List α} {f : State → α → State} (hf : ∀ t x, HoldsIdle c mc fs t → HoldsIdle c mc fs (f t x))
    (h : HoldsIdle c mc fs s) : HoldsIdle c mc fs (l.foldl f s) :=
  l.foldlRecOn f h fun t ht x _ => hf t x ht

theorem HoldsIdle.foldl_fst {α β : Type} {l : List α} {f : State × β → α → State × β} {p : State × β}
    (hf : ∀ t x, HoldsIdle c mc fs t.1 → HoldsIdle c mc fs (f t x).1) (h : HoldsIdle c mc fs p.1) : HoldsIdle c mc fs (l.foldl f p).1 :=
  l.foldlRecOn (motive := fun p => HoldsIdle c mc fs p.1) f h fun t ht x _ => hf t x ht

theorem HoldsIdle.of_fst_eq {β : Type} {p : State × β} {b : β} (e : p = (t, b)) (h : HoldsIdle c mc fs p.1) : HoldsIdle c mc fs t := by
  subst e; exact h

theorem HoldsIdle.frameWrite {m f off bs} (h : HoldsIdle c mc fs s) : HoldsIdle c mc fs (s.frameWrite m f off bs) :=
  h.of_books (SameBooks.refl s).frameWrite

theorem HoldsIdle.frameImage {m f off lo x n l} (h : HoldsIdle c mc fs s) : HoldsIdle c mc fs (s.frameImage m f off lo x n l) :=
  h.of_books (SameBooks.refl s).frameImage

/-! ## What settles at a freeze (R272, R301, R409, R412) -/

/-- Nothing of the continuation goes before an access to a tile. -/
theorem HoldsIdle.settleClus {id : Nat} {e : TDesc} {row lo n : Nat} (h : HoldsIdle c mc fs s) : HoldsIdle c mc fs (s.settleClus c id e row lo n) := by
  have ht : s.tileOps (s.coreAt c).mc (s.coreAt c).fslot id e.tti.toNat = [] := by
    obtain ⟨hm, hf, ho⟩ := h
    rw [State.opsOf, List.filter_eq_nil_iff] at ho
    rw [State.tileOps, List.filter_eq_nil_iff, hm, hf]
    intro o hmem hall
    refine ho o hmem ?_
    simp only [Bool.and_eq_true] at hall ⊢
    obtain ⟨⟨⟨⟨⟨h1, h2⟩, -⟩, -⟩, -⟩, -⟩ := hall
    exact ⟨h1, h2⟩
  unfold State.settleClus
  dsimp only
  rw [ht]
  exact .ite (h.of_books (SameBooks.refl s).commitBut) h

theorem HoldsIdle.tileWr {e : TDesc} {row lo : Nat} {bs : List Byte} (h : HoldsIdle c mc fs s) : HoldsIdle c mc fs (s.tileWr d e row lo bs) :=
  .ite h h.onArchAt

theorem HoldsIdle.tilePut {slot row lo : Nat} {tent now' : Bool} {e : TDesc} {bs : List Byte} (h : HoldsIdle c mc fs s) :
    HoldsIdle c mc fs (s.tilePut d slot tent now' e row lo bs) := by
  unfold State.tilePut
  extract_lets bs'
  exact .ite h (.ite (HoldsIdle.tileWr (.ite (h.onCoreAt fun _ => ⟨rfl, rfl⟩) h)) (.ite h.tileWr h.onArchAt))

theorem HoldsIdle.stallSettle (h : HoldsIdle c mc fs s) : HoldsIdle c mc fs (s.stallSettle d) := by
  unfold State.stallSettle
  extract_lets x u
  have hu : HoldsIdle c mc fs u := h.onArchAt
  split
  · unfold State.endLoan
    extract_lets waits
    refine .ite hu ?_
    split
    · exact hu
    · exact hu
  · exact .ite hu (.ite hu (.ite hu.dropOp hu))
  · exact hu

theorem HoldsIdle.passFinish {p : Pass} (h : HoldsIdle c mc fs s) : HoldsIdle c mc fs (s.passFinish c p).1 :=
  .foldl_fst (fun _ _ ht => ht.settleClus) h

theorem HoldsIdle.passSettle (h : HoldsIdle c mc fs s) : HoldsIdle c mc fs (s.passSettle c).s := by
  refine List.foldlRecOn (motive := fun y : PassSettle => HoldsIdle c mc fs y.s) _ _ h fun y hy p _ => ?_
  dsimp only
  split
  · exact hy
  · split
    · exact hy.onArchAt
    · have ht : HoldsIdle c mc fs ((y.zeroed (p.lat - p.age)).s.passFinish c p).1 := HoldsIdle.passFinish hy
      split
      · exact ht
      · exact ht

theorem HoldsIdle.passRecs {imgs : List (Pass × SMap Word32 × ZFlag)} (h : HoldsIdle c mc fs s) : HoldsIdle c mc fs (s.passRecs d imgs).1 := by
  unfold State.passRecs
  refine .foldl_fst (fun _ _ ht => ?_) h
  split
  exact ht.frameImage

theorem HoldsIdle.readRecs (h : HoldsIdle c mc fs s) : HoldsIdle c mc fs (s.readRecs d).1 := .foldl_fst (fun _ _ ht => ht.frameImage) h

theorem HoldsIdle.xRead {x : XStream} (h : HoldsIdle c mc fs s) : HoldsIdle c mc fs (s.xRead c x).1 := by
  unfold State.xRead
  split
  · exact h
  · extract_lets k j
    split
    rename_i row lo n e
    extract_lets u y
    have hu : HoldsIdle c mc fs u := .ite h.settleClus h
    split
    · exact hu
    · split
      · exact hu
      · exact hu

theorem HoldsIdle.xFinish {n : Nat} {x : XStream} (h : HoldsIdle c mc fs s) : HoldsIdle c mc fs (s.xFinish c n x).1 := by
  induction n generalizing s x with
  | zero => exact h
  | succ n ih =>
    unfold State.xFinish
    split
    · exact h
    · split
      rename_i e
      exact ih (h.xRead.of_fst_eq e)

theorem HoldsIdle.xPendLand {now' : Bool} {x : XStream} {p : XPend} (h : HoldsIdle c mc fs s) : HoldsIdle c mc fs (s.xPendLand c now' x p) := by
  unfold State.xPendLand
  split
  · exact h.onCoreAt fun _ => ⟨rfl, rfl⟩
  · extract_lets u
    have hu : HoldsIdle c mc fs u := .foldl (fun _ _ ht => ht.settleClus.tilePut) h
    split
    · exact .ite hu hu.onArchAt
    · exact hu

theorem HoldsIdle.xSettleLand {x : XStream} {l : List XPend} (h : HoldsIdle c mc fs s) : HoldsIdle c mc fs (s.xSettleLand c x l).1 := by
  induction l generalizing s with
  | nil => exact h
  | cons p l ih =>
    rw [State.xSettleLand]
    split
    · exact h
    · exact ih h.xPendLand

theorem HoldsIdle.xSettle (h : HoldsIdle c mc fs s) : HoldsIdle c mc fs (s.xSettle c).1 := by
  unfold State.xSettle
  refine .foldl_fst (fun _ _ ht => ?_) h
  split
  rename_i e
  split
  rename_i e1
  have ht1 := (ht.xFinish.of_fst_eq e).xSettleLand.of_fst_eq e1
  exact .ite_fst ht1 ht1

theorem HoldsIdle.putRecs {m f j : Nat} {l : List ProgRec} (h : HoldsIdle c mc fs s) : HoldsIdle c mc fs (s.putRecs m f j l) := by
  induction l generalizing s m f j with
  | nil => exact h
  | cons x l ih => exact .ite (ih (.ite h.frameWrite h.frameWrite.frameWrite)) h

/-! ## The freeze (R408) -/

/-- The last updates of a freeze: what the Shepherd keeps of the continuation, and the release of the core. -/
theorem HoldsIdle.released {f : Cont → Cont} (h : HoldsIdle c mc fs s) : ((s.onCont k f).shepUp.releaseCore d).opsOf mc fs = [] := by
  have hr : (((s.onCont k f).shepUp.releaseCore d)).ops = ((s.onCont k f).shepUp.retryOver d).ops := rfl
  have ho : ((s.onCont k f).shepUp.retryOver d).ops = s.ops := (SameBooks.retryOver (.refl _)).tables.ops
  rw [State.opsOf, hr, ho]
  exact h.2.2

/-- The freeze of a continuation with nothing outstanding leaves nothing outstanding. -/
theorem opsOf_freezeCoreWith (ho : s.opsOf (s.coreAt c).mc (s.coreAt c).fslot = []) (late : Option Late) :
    (s.freezeCoreWith c late).opsOf (s.coreAt c).mc (s.coreAt c).fslot = [] := by
  unfold State.freezeCoreWith
  extract_lets -underBinder x
  split
  rename_i mc fs e
  obtain ⟨hm, hf⟩ := Prod.mk.inj e
  rw [show (s.coreAt c).mc = mc from hm, show (s.coreAt c).fslot = fs from hf] at ho ⊢
  have h : HoldsIdle c mc fs s := ⟨hm, hf, ho⟩
  extract_lets -underBinder k s1 fens lateRecs ws
  have h1 : HoldsIdle c mc fs s1 := HoldsIdle.stallSettle (s := s.shepUp) h
  have hws : ws = [] := by
    unfold ws
    rw [h1.2.2]
    rfl
  split
  rename_i s2 wrecs e2
  have h2 : HoldsIdle c mc fs s2 := by
    rw [hws] at e2
    exact h1.of_fst_eq (b := wrecs) e2
  extract_lets -underBinder s3 occ
  have h3 : HoldsIdle c mc fs s3 := .ite h2.onArchAt h2
  split
  rename_i s4 xrecs e4
  have h4 : HoldsIdle c mc fs s4 := h3.xSettle.of_fst_eq e4
  extract_lets -underBinder s5 ps
  have h5 : HoldsIdle c mc fs ps.s := HoldsIdle.passSettle h4.onArchAt
  split
  rename_i s6 precs e6
  have h6 : HoldsIdle c mc fs s6 := h5.passRecs.of_fst_eq e6
  split
  rename_i s7 rrecs e7
  have h7 : HoldsIdle c mc fs s7 := h6.readRecs.of_fst_eq e7
  extract_lets -underBinder s8 busy t s9 re recs a s10
  have h8 : HoldsIdle c mc fs s8 := h7.onArchAt
  have h9 : HoldsIdle c mc fs s9 := by
    unfold s9 t
    rw [h8.2.2]
    exact h8
  split
  split
  extract_lets -underBinder zf s11 s12 s13 held es s14 s15 s16 s17 s18
  have h12 : HoldsIdle c mc fs s12 := (h9.onCont.frameWrite).of_books (SameBooks.refl s11).writeAreas
  have h13 : HoldsIdle c mc fs s13 := .foldl (fun _ _ ht => .ite ht.frameImage ht) h12
  have h14 : HoldsIdle c mc fs s14 := .putRecs (.foldl (fun _ _ ht => ht.frameWrite) h13)
  have h17 : HoldsIdle c mc fs s17 := h14.frameWrite.frameWrite.onCont
  exact h17.released

/-! ## The end of a YIELD (R157) -/

theorem foldPending_idle (ho : s.opsOf (s.coreAt c).mc (s.coreAt c).fslot = []) : s.foldPending c = false := by
  rw [State.opsOf, List.filter_eq_nil_iff] at ho
  refine List.any_eq_false.2 fun o hm hall => ho o hm ?_
  simp only [State.onItsCore, Bool.and_eq_true, beq_iff_eq] at hall ⊢
  obtain ⟨⟨-, hc⟩, ⟨⟨-, hmc⟩, hfs⟩, -⟩ := hall
  rw [hc] at hmc hfs
  exact ⟨hmc.symm, hfs.symm⟩

theorem carriedLive_idle (ho : s.opsOf mc fs = []) : s.carriedLive mc fs = false := by
  rw [State.opsOf, List.filter_eq_nil_iff] at ho
  refine List.any_eq_false.2 fun o hm hall => ho o hm ?_
  simp only [Bool.and_eq_true] at hall ⊢
  obtain ⟨⟨hk, -⟩, -⟩ := hall
  exact hk

/-- A YIELD that suspends a continuation with nothing outstanding: frozen, and RUNNABLE at once. -/
theorem yieldFreeze_idle (hf : (s.coreAt c).fslot < 4096) (ho : s.opsOf (s.coreAt c).mc (s.coreAt c).fslot = []) :
    ((s.yieldFreeze c).coreAt c).running = false ∧ ((s.yieldFreeze c).contAt (s.keyOf c)).state = .runnable
      ∧ ((s.yieldFreeze c).contAt (s.keyOf c)).frozen = true := by
  have hc : (s.onArchAt c Arch.yielded).coreAt c = { s.coreAt c with now := (s.coreAt c).now.yielded } := State.coreAt_setCoreAt_self ..
  have hk : (s.onArchAt c Arch.yielded).keyOf c = s.keyOf c := by rw [State.keyOf, hc, State.keyOf]
  have hidle : (s.onArchAt c Arch.yielded).opsOf ((s.onArchAt c Arch.yielded).coreAt c).mc ((s.onArchAt c Arch.yielded).coreAt c).fslot = [] := by
    rw [hc]
    exact ho
  have hz : s.keyOf c / 4096 = (s.coreAt c).mc ∧ s.keyOf c % 4096 = (s.coreAt c).fslot := by
    rw [State.keyOf, contKey]
    omega
  obtain ⟨hrun, hfro, -⟩ := frozenOff_freezeCoreWith (s.onArchAt c Arch.yielded) c none
  have hops := opsOf_freezeCoreWith hidle none
  rw [State.yieldFreeze, State.freezeCore]
  rw [hk] at hfro
  rw [hc] at hops
  generalize (s.onArchAt c Arch.yielded).freezeCoreWith c none = t at hrun hfro hops ⊢
  have hlive : t.carriedLive (s.keyOf c / 4096) (s.keyOf c % 4096) = false := by
    rw [hz.1, hz.2]
    exact carriedLive_idle hops
  obtain ⟨h1, -, h2, -⟩ := contAt_runnableWhenDone_idle hlive
  refine ⟨?_, h1, h2.trans hfro⟩
  rw [State.runnableWhenDone, hlive, if_neg (by decide), ← hrun]
  exact (SameTables.refl t).onCont.makeRunnable.running c

section
variable {b : VAddr} (hx : (s.coreAt c).now.xfer = some ⟨.yield, b, true, false⟩) (hs : (s.coreAt c).stop = none)
include hx hs

/-- Without another continuation that can run, the YIELD is over. -/
theorem yieldEnd_alone (ho : s.otherRunnable c = false) : s.yieldEnd c = s.onArchAt c Arch.yielded := by
  simp only [State.yieldEnd, hx]
  rw [if_neg (by simp [hs]), if_pos (by simp [ho])]

theorem yieldEnd_yields (hr : (s.coreAt c).running = true) (hl : (s.coreAt c).late = [])
    (ha : s.frameAsleep (s.coreAt c).mc (s.coreAt c).fslot = false) (hi : s.opsOf (s.coreAt c).mc (s.coreAt c).fslot = [])
    (ho : s.otherRunnable c = true) : s.yieldEnd c = s.yieldFreeze c := by
  simp only [State.yieldEnd, hx]
  rw [if_neg (by simp [hs]), if_neg (by simp [hr, hl, ho]), if_neg (by simp [ha]), if_neg (by simp [foldPending_idle hi])]

end

end

end Sys2Proof
end

