-- ==== Sys2Proof/Proofs/Suspends.lean ====
section
/-!
PROOFS. SUSP, YIELD and RETIRE, from their issue to the end of the delay cycle (R153, R155, R157, R158, R174; O24).
-/
namespace Sys2Proof
open Machine Claim
set_option Elab.async false

/-! ## The end of a SUSP (R155) -/

section
variable {s t u : State} {desc wtarget : Word32} {wkind wid : Nat} {d : SuspDesc} (hw : SameWork s t)
include hw

/-- After its delay cycle a SUSP writes its frame, releases its core and sets the state of its continuation. -/
theorem exec_suspEnd (hu : Delayed (t.transfer (.susp desc wkind wid wtarget (some d))) u) : u.keyOf s.cur = s.curKey
    ∧ exec (.suspFrameWrite s.cur) u = .next ((suspReleased u s.cur d wkind wid wtarget).suspState s.curKey wkind wid wtarget) := by
  obtain ⟨hr, hm, hf, hx, hq, hfe, ha⟩ := delayed_spec hw hu
  have hk : u.keyOf s.cur = s.curKey := by rw [State.keyOf, hm, hf, State.curKey]
  refine ⟨hk, ?_⟩
  rw [← hk, ← suspDone_eq]
  exact exec_suspFrameWrite hr hx hq hfe ha

/-- `susp`: RUNNABLE at once. -/
theorem suspEnd_none (hu : Delayed (t.transfer (.susp desc 0 wid wtarget (some d))) u) :
    ∃ v, exec (.suspFrameWrite s.cur) u = .next v ∧ (v.coreAt s.cur).running = false
      ∧ (v.contAt s.curKey).state = .runnable ∧ (v.contAt s.curKey).statp = some d.statp ∧ (v.contAt s.curKey).frozen = false := by
  obtain ⟨hk, he⟩ := exec_suspEnd hw hu
  obtain ⟨hr, hc, -, -⟩ := suspReleased_frame (u := u) (c := s.cur) (d := d) (wkind := 0) (wid := wid) (wtarget := wtarget)
  rw [hk] at hc
  refine ⟨_, he, ?_⟩
  rw [suspState_none, contAt_makeRunnable, if_pos rfl, hc]
  exact ⟨((SameTables.refl _).makeRunnable.running s.cur).trans hr, rfl, rfl, rfl⟩

/-- `susp.fence` and `susp.lend`: WAITING until the fence condition holds. -/
theorem suspEnd_fence (hkind : wkind = 1 ∨ wkind = 2) (hu : Delayed (t.transfer (.susp desc wkind wid wtarget (some d))) u) :
    ∃ v, exec (.suspFrameWrite s.cur) u = .next v ∧ (v.coreAt s.cur).running = false
      ∧ (v.contAt s.curKey).state = (if (u.fenceAt wid).holds wtarget = true then .runnable else .waiting)
      ∧ (v.contAt s.curKey).wid = wid ∧ (v.contAt s.curKey).wtarget = wtarget ∧ (v.contAt s.curKey).wkind = wkind := by
  obtain ⟨hk, he⟩ := exec_suspEnd hw hu
  obtain ⟨hr, hc, hf, -⟩ := suspReleased_frame (u := u) (c := s.cur) (d := d) (wkind := wkind) (wid := wid) (wtarget := wtarget)
  obtain ⟨ht, hs, h1, h2, h3⟩ := suspState_fence (s := suspReleased u s.cur d wkind wid wtarget) (k := s.curKey) (wid := wid)
    (wtarget := wtarget) hkind
  rw [hk] at hc
  rw [hc] at h1 h2 h3
  rw [hf] at hs
  exact ⟨_, he, (ht.running s.cur).trans hr, hs, h1, h2, h3⟩

/-- `susp.bar`: RUNNABLE when it is the last one to arrive. -/
theorem suspEnd_bar (hu : Delayed (t.transfer (.susp desc 3 wid wtarget (some d))) u)
    (hb : (SMap.get {} (u.bindAt (u.contAt s.curKey).bind).bars wid).count = 0
      ∨ (SMap.get {} (u.bindAt (u.contAt s.curKey).bind).bars wid).target = wtarget.toNat) :
    ∃ v, exec (.suspFrameWrite s.cur) u = .next v ∧ (v.coreAt s.cur).running = false ∧ (v.contAt s.curKey).state =
      (if wtarget.toNat ≤ (SMap.get {} (u.bindAt (u.contAt s.curKey).bind).bars wid).count + 1 then .runnable else .waiting) := by
  obtain ⟨hk, he⟩ := exec_suspEnd hw hu
  obtain ⟨hr, hc, -, hbars⟩ := suspReleased_frame (u := u) (c := s.cur) (d := d) (wkind := 3) (wid := wid) (wtarget := wtarget)
  rw [hk] at hc
  have hbar : SMap.get {} ((suspReleased u s.cur d 3 wid wtarget).bindAt ((suspReleased u s.cur d 3 wid wtarget).contAt s.curKey).bind).bars
      ((suspReleased u s.cur d 3 wid wtarget).contAt s.curKey).wid = SMap.get {} (u.bindAt (u.contAt s.curKey).bind).bars wid := by
    rw [hbars, hc]
    rfl
  have hwt : ((suspReleased u s.cur d 3 wid wtarget).contAt s.curKey).wtarget = wtarget := by
    rw [hc]
    rfl
  obtain ⟨hrun, hst⟩ := barArriveWaiting_ok (s := suspReleased u s.cur d 3 wid wtarget) (k := s.curKey) (c := s.cur)
    (by rw [hc]; rfl) (by rw [hbar, hwt]; exact hb)
  rw [hbar, hwt] at hst
  rw [suspState_bar] at he
  exact ⟨_, he, hrun.trans hr, hst⟩

end

/-! ## The end of a RETIRE (R158) -/

theorem coreAt_onMc (s : State) (m c : Nat) (f : Mc → Mc) : (s.onMc m f).coreAt c = s.coreAt c := rfl

theorem coreAt_setCont (s : State) (k c : Nat) (y : Cont) : (s.setCont k y).coreAt c = s.coreAt c := rfl

theorem coreAt_onBind (s : State) (b c : Nat) (f : Binding → Binding) : (s.onBind b f).coreAt c = s.coreAt c := rfl

theorem running_contFree (s : State) (k c : Nat) : ((s.contFree k).coreAt c).running = (s.coreAt c).running := by
  unfold State.contFree
  extract_lets t y w
  have ht : SameTables s t := (SameTables.refl s).setContState
  rw [coreAt_onMc, coreAt_setCont, coreAt_onBind]
  exact ht.running c

theorem reapClus_frame (s : State) (q c k : Nat) : (s.reapClus q).coreAt c = s.coreAt c ∧ (s.reapClus q).contAt k = s.contAt k := ⟨rfl, rfl⟩

/-- After its delay cycle a RETIRE leaves its core and its frame slot free. -/
theorem retireEnd {s u : State} (hu : Delayed (s.transfer .retire) u) (ho : u.opsOf s.core.mc s.core.fslot = []) :
    ∃ v, exec (.retireComplete s.cur) u = .next v ∧ (v.coreAt s.cur).running = false ∧ v.contAt s.curKey = {} := by
  obtain ⟨hr, hm, hf, hx, hq, -, -⟩ := delayed_spec (SameWork.refl s) hu
  have hk : u.keyOf s.cur = s.curKey := by rw [State.keyOf, hm, hf, State.curKey]
  refine ⟨_, exec_retireComplete hr hx hq (by rw [hm, hf]; exact ho), ?_⟩
  rw [(reapClus_frame _ _ s.cur 0).1, (reapClus_frame _ _ 0 s.curKey).2, hk, running_contFree, contAt_contFree]
  exact ⟨running_releaseCore .., rfl⟩

/-! ## The statement -/

theorem exec_yield (g : Guard) (s : State) : exec (.yield g) s = issueF 0 g (fun s => s.transfer .yield) s := rfl

theorem exec_susp (g : Guard) (desc : Word32) (s : State) : exec (.susp g desc) s = suspIssue g 0 0 0 desc (fun _ => none) s := rfl

theorem exec_suspFence (g : Guard) (x y : SReg) (desc : Word32) (s : State) :
    exec (.suspFence g x y desc) s = suspIssue g 1 x y desc (fun s => s.fenceCheck (s.arch.rdS x)) s := rfl

theorem exec_suspLend (g : Guard) (x y : SReg) (desc : Word32) (s : State) :
    exec (.suspLend g x y desc) s = suspIssue g 2 x y desc (fun s => s.fenceCheck (s.arch.rdS x)) s := rfl

theorem exec_suspBar (g : Guard) (x y : SReg) (desc : Word32) (s : State) :
    exec (.suspBar g x y desc) s = suspIssue g 3 x y desc (fun s => firstTrap
      [trapIf (barTargetBad (s.arch.rdS y)) 102 1, trapIf (decide ((s.arch.rdS x).toNat > 15)) 102 3]) s := rfl

/-- Settles O24: the issue of each form by its causes, and the end of its delay cycle by what it leaves of the continuation. -/
theorem suspends : Obligations.Suspends := by
  intro s g x y desc hg va off wid n target c k
  have hva : (relTarget s.arch.pc desc).toNat = va := congrArg BitVec.toNat (congrArg (s.arch.pc + ·) (shl_two_eq_mul _))
  refine ⟨?ok, (exec_yield g s).trans (issueF_on hg), ?yield, fun hz => ⟨retire_issues hg hz, fun u => retireEnd⟩,
    fun hk hz => ⟨retire_traps hg hk hz, fun hf => ?busy⟩, fun hk hz ha => ⟨fun hb => ?bad, fun d hd hn => ?fence, fun d hd hn => ?bar⟩,
    congrArg Core.commit (State.core_setCore ..)⟩
  case ok =>
    intro d t hz ha hr at'
    have hw : SameWork s t := (sameWork_suspRead s c va).of_eq hr
    refine ⟨?_, fun ho => ⟨?_, ?_⟩, fun h1 h2 h15 => ?_, fun u hu => suspEnd_none hw hu, fun u kind hkind hu => ?_, fun u h1 h2 h15 hu => ?_⟩
    · exact suspIssue_issues (exec_susp ..) hg hva hz ha hr rfl
    · have h := suspIssue_issues (exec_suspFence g x y desc s) hg hva hz ha hr (fenceCheck_of_ok ho)
      rwa [Nat.mod_eq_of_lt (Nat.lt_succ_of_le ho.1)] at h
    · have h := suspIssue_issues (exec_suspLend g x y desc s) hg hva hz ha hr (fenceCheck_of_ok ho)
      rwa [Nat.mod_eq_of_lt (Nat.lt_succ_of_le ho.1)] at h
    · have h := suspIssue_issues (exec_suspBar g x y desc s) hg hva hz ha hr (barCauses_none h1 h2 h15)
      rwa [Nat.mod_eq_of_lt (by omega)] at h
    · obtain ⟨v, hv, hrun, hst, h1⟩ := suspEnd_fence hw hkind hu
      exact ⟨v, hv, hrun, by simpa only [holds_iff] using hst, h1⟩
    · intro b hb
      have hn : target.toNat = n := by
        change ((s.arch.rdS y).truncate 32).toNat = n
        rw [BitVec.truncate_eq_setWidth, BitVec.toNat_setWidth]
        exact Nat.mod_eq_of_lt (by omega)
      have h := suspEnd_bar hw hu (by rw [hn]; exact hb)
      rwa [hn] at h
  case yield =>
    intro u z hx hr hm hf hlt hl hs ha ho
    have hk : u.keyOf c = k := by
      change contKey z.mc z.fslot = contKey s.core.mc s.core.fslot
      rw [hm, hf]
    refine ⟨fun hother => ?_, fun hother => yieldEnd_alone hx hs hother⟩
    rw [yieldEnd_yields hx hs hr hl ha ho hother, ← hk]
    exact yieldFreeze_idle hlt ho
  case busy =>
    have hc := suspCheck_of_busy hz hf
    exact ⟨suspIssue_traps_of_check (exec_susp ..) hg hva hk hc,
      suspIssue_traps_of_check (exec_suspFence ..) hg hva hk hc,
      suspIssue_traps_of_check (exec_suspLend ..) hg hva hk hc,
      suspIssue_traps_of_check (exec_suspBar ..) hg hva hk hc⟩
  case bad => exact suspIssue_traps_of_check (exec_susp ..) hg hva hk (suspCheck_of_bad hz ha hb)
  case fence => exact suspIssue_traps_of_extra (exec_suspFence ..) hg hva hk hz hd (fenceCheck_of_gt hn)
  case bar => exact suspIssue_traps_of_extra (exec_suspBar ..) hg hva hk hz hd (barCauses_of_range hn)

end Sys2Proof
end

