-- ==== Sys2Proof/Proofs/ScalarIntegers.lean ====
section
/-!
PROOFS. Integer results of slot S (R176 to R181; O16). A form takes the low `w` bits of its sources as `BitVec w`, so that one equation for
every `w` serves the 64-bit form and the `.w` form.
-/
namespace Sys2Proof
open Machine Claim
set_option Elab.async false

/-! ## Instructions with one result of slot S -/

section
variable {i : Instr} {s : State} {g : Guard} {lat : Nat} (hg : s.arch.guardOn 1 g = true)
include hg

theorem lands_of_sOp {d : SReg} {f : Arch → Word} {v : Word} (hi : exec i s = sOp lat g d f s) (hv : f s.arch = v) :
    Lands i s lat 1 0 (.s d v) := hv ▸ hi.trans (issueF_on hg)

theorem lands_of_pOp {d : PReg} {f : Arch → Bool} {v : Bool} (hi : exec i s = pOp g d f s) (hv : f s.arch = v) :
    Lands i s 1 1 0 (.p d v) := hv ▸ hi.trans (issueF_on hg)

end

theorem immOr_eq_imm {n : Nat} (w : Nat) (i : BitVec n) (e : Option Word32) : immOr w i e = imm w i e := by
  cases e <;> rfl

/-! ## Each instruction as the shared operation of its form -/

section
variable (g : Guard) (d a b : SReg) (f : BitVec 3) (i : BitVec 9) (e : Option Word32) (s : State)

theorem exec_add : exec (.add g d a b f) s = addSubOp false g d a b f s := rfl

theorem exec_sub : exec (.sub g d a b f) s = addSubOp true g d a b f s := rfl

theorem exec_addi : exec (.addi g d a i e) s = sOp 1 g d (fun r => r.rdS a + immOr 64 i e) s := rfl

theorem exec_mul : exec (.mul g d a b f) s = signedOp 3 g d a b f (fun _ x y => x * y) s := rfl

theorem exec_mulh : exec (.mulh g d a b) s = signedOp 3 g d a b 0 (fun _ x y => x * y / (2 ^ 64 : Nat)) s := rfl

theorem exec_mulhu : exec (.mulhu g d a b) s = unsignedOp 3 g d a b 0 (fun _ x y => x * y / 2 ^ 64) s := rfl

theorem exec_div : exec (.div g d a b f) s = signedOp (divLat f) g d a b f divS s := rfl

theorem exec_divu : exec (.divu g d a b f) s = unsignedOp (divLat f) g d a b f divU s := rfl

theorem exec_rem : exec (.rem g d a b f) s = signedOp (divLat f) g d a b f remS s := rfl

theorem exec_remu : exec (.remu g d a b f) s = unsignedOp (divLat f) g d a b f remU s := rfl

end

/-! ## Words of `w` bits as numbers (R94, R180) -/

section
variable {w : Nat}

theorem toSigned_eq_toInt (w x : Nat) : toSigned w x = (BitVec.ofNat w x).toInt := by
  rw [BitVec.toInt_eq_toNat_cond, BitVec.toNat_ofNat, toSigned]
  cases w with
  | zero => simp [Nat.mod_one]
  | succ w =>
    rw [Nat.add_sub_cancel, Nat.pow_succ]
    split <;> split <;> omega

/-- The low `w` bits of a register, read as signed. -/
theorem toSigned_word (w : Nat) (x : Word) : toSigned w x.toNat = (x.setWidth w).toInt := by
  rw [toSigned_eq_toInt, BitVec.ofNat_toNat]

/-- The low `w` bits of a register, read as unsigned. -/
theorem word_mod (w : Nat) (x : Word) : x.toNat % 2 ^ w = (x.setWidth w).toNat := (BitVec.toNat_setWidth ..).symm

/-- A value is truncated to a word of `w` bits, which is then extended. -/
theorem sxW_eq (w : Nat) (v : Int) : sxW w v = (BitVec.ofInt w v).signExtend 64 := by
  have h : BitVec.ofNat w (truncInt w v) = BitVec.ofInt w v := by
    apply BitVec.eq_of_toNat_eq
    rw [BitVec.toNat_ofNat, Nat.mod_eq_of_lt (truncInt_lt w v), truncInt, BitVec.toNat_ofInt]
  rw [sxW, toSigned_eq_toInt, h, BitVec.signExtend]

theorem sxW_natCast (w n : Nat) : sxW w n = (BitVec.ofNat w n).signExtend 64 := by rw [sxW_eq, BitVec.ofInt_natCast]

theorem setWidth_sub_word (x y : Word) : (x - y).setWidth 32 = x.setWidth 32 - y.setWidth 32 := by
  apply BitVec.eq_of_toNat_eq
  simp only [BitVec.toNat_setWidth, BitVec.toNat_sub]
  omega

theorem ofInt_neg_one : BitVec.ofInt w (-1) = -1 := BitVec.ofInt_neg

/-! ## Exact values as words -/

variable (X Y : BitVec w)

theorem ofInt_add_toInt : BitVec.ofInt w (X.toInt + Y.toInt) = X + Y := by
  rw [BitVec.ofInt_add, BitVec.ofInt_toInt, BitVec.ofInt_toInt]

theorem ofInt_sub_toInt : BitVec.ofInt w (X.toInt - Y.toInt) = X - Y := by
  rw [Int.sub_eq_add_neg, BitVec.ofInt_add, BitVec.ofInt_neg, BitVec.ofInt_toInt, BitVec.ofInt_toInt, BitVec.sub_eq_add_neg]

theorem ofInt_mul_toInt : BitVec.ofInt w (X.toInt * Y.toInt) = X * Y := by
  rw [BitVec.ofInt_mul, BitVec.ofInt_toInt, BitVec.ofInt_toInt]

variable {X Y}

theorem toInt_eq_zero_iff : Y.toInt = 0 ↔ Y = 0 := by rw [← BitVec.toInt_inj, BitVec.ofNat_eq_ofNat, BitVec.toInt_zero]

theorem toNat_eq_zero_iff : Y.toNat = 0 ↔ Y = 0 := by rw [← BitVec.toNat_inj]; rfl

/-- The quotient of the smallest number by -1 wraps to the smallest number. -/
theorem ofInt_divS : BitVec.ofInt w (divS w X.toInt Y.toInt) = if Y = 0 then -1 else X.sdiv Y := by
  simp only [divS, toInt_eq_zero_iff]
  split
  case isTrue => exact ofInt_neg_one
  case isFalse hY =>
    apply BitVec.eq_of_toInt_eq
    rw [BitVec.toInt_ofInt, BitVec.toInt_sdiv]
    split
    case isTrue h =>
      obtain ⟨hx, hy⟩ := h
      have hw : 0 < w := Nat.pos_of_ne_zero fun h => hY (by subst h; exact BitVec.eq_nil Y)
      have h2 : minInt w + (2 ^ w : Nat) = -minInt w := by
        rw [minInt, ← Nat.sub_add_cancel hw, Nat.pow_succ, Nat.add_sub_cancel]
        omega
      rw [hy, hx, Int.tdiv_neg, Int.tdiv_one, ← h2, Int.add_bmod_right]
    case isFalse => rfl

/-- The remainder of the smallest number by -1 is no special case. -/
theorem remS_eq_tmod {x y : Int} (h : y ≠ 0) : remS w x y = x.tmod y := by
  unfold remS
  rw [if_neg h]
  split
  case isTrue h =>
    obtain ⟨-, rfl⟩ := h
    rw [Int.tmod_neg, Int.tmod_one]
  case isFalse => exact (Int.tmod_def ..).symm

theorem ofInt_remS : BitVec.ofInt w (remS w X.toInt Y.toInt) = if Y = 0 then X else X.srem Y := by
  split
  case isTrue h => rw [remS, if_pos (toInt_eq_zero_iff.2 h), BitVec.ofInt_toInt]
  case isFalse h => rw [remS_eq_tmod (toInt_eq_zero_iff.not.2 h), ← BitVec.toInt_srem, BitVec.ofInt_toInt]

theorem ofNat_divU : BitVec.ofNat w (divU w X.toNat Y.toNat) = if Y = 0 then -1 else X / Y := by
  simp only [divU, toNat_eq_zero_iff]
  split
  · apply BitVec.eq_of_toNat_eq
    rw [show (-1 : BitVec w) = BitVec.allOnes w from BitVec.neg_one_eq_allOnes, BitVec.toNat_ofNat, BitVec.toNat_allOnes]
    exact Nat.mod_eq_of_lt (Nat.sub_lt (Nat.two_pow_pos w) Nat.one_pos)
  · rw [← BitVec.toNat_udiv, BitVec.ofNat_toNat, BitVec.setWidth_eq]

theorem ofNat_remU : BitVec.ofNat w (remU w X.toNat Y.toNat) = if Y = 0 then X else X % Y := by
  simp only [remU, toNat_eq_zero_iff]
  split
  · rw [BitVec.ofNat_toNat, BitVec.setWidth_eq]
  · rw [← BitVec.toNat_umod, BitVec.ofNat_toNat, BitVec.setWidth_eq]

/-- The high half of a product. -/
theorem extractLsb'_ofInt (v : Int) : (BitVec.ofInt 128 v).extractLsb' 64 64 = BitVec.ofInt 64 (v / (2 ^ 64 : Nat)) := by
  apply BitVec.eq_of_toNat_eq
  rw [BitVec.extractLsb'_toNat, BitVec.toNat_ofInt, BitVec.toNat_ofInt, Nat.shiftRight_eq_div_pow]
  omega

theorem ofInt_mulh (x y : Word) : BitVec.ofInt 64 (x.toInt * y.toInt / (2 ^ 64 : Nat)) =
    (x.signExtend 128 * y.signExtend 128).extractLsb' 64 64 := by
  rw [BitVec.signExtend, BitVec.signExtend, ← BitVec.ofInt_mul, extractLsb'_ofInt]

theorem ofNat_mulhu (x y : Word) : BitVec.ofNat 64 (x.toNat * y.toNat / 2 ^ 64) =
    (x.zeroExtend 128 * y.zeroExtend 128).extractLsb' 64 64 := by
  rw [BitVec.zeroExtend_eq_setWidth, BitVec.zeroExtend_eq_setWidth, ← BitVec.ofNat_toNat, ← BitVec.ofNat_toNat, ← BitVec.ofNat_mul,
    ← BitVec.ofInt_natCast 128, extractLsb'_ofInt, ← Int.natCast_ediv, BitVec.ofInt_natCast]

end

/-! ## Forms of an instruction -/

section
variable {i : Instr} {s : State} {g : Guard} {lat : Nat} {d a b : SReg} {f : BitVec 3} {v : Word} (hg : s.arch.guardOn 1 g = true)
include hg

section
variable {h : Nat → Int → Int → Int} (hi : exec i s = signedOp lat g d a b f h s)
include hi

/-- The value on the low bits of both sources, whatever the width of the form. -/
theorem lands_of_signedOp : Lands i s lat 1 0 (.s d ((BitVec.ofInt (formW f) (h (formW f)
    ((s.arch.rdS a).setWidth (formW f)).toInt ((s.arch.rdS b).setWidth (formW f)).toInt)).signExtend 64)) := by
  simp only [signedOp, toSigned_word, sxW_eq] at hi
  exact lands_of_sOp hg hi rfl

theorem lands_of_signedOp_64 (hw : formW f = 64) (hv : BitVec.ofInt 64 (h 64 (s.arch.rdS a).toInt (s.arch.rdS b).toInt) = v) :
    Lands i s lat 1 0 (.s d v) := by
  have hl := lands_of_signedOp hg hi
  rwa [hw, BitVec.setWidth_eq, BitVec.setWidth_eq, BitVec.signExtend_eq, hv] at hl

theorem lands_of_signedOp_32 (hw : formW f = 32) (hv : (BitVec.ofInt 32 (h 32 ((s.arch.rdS a).truncate 32).toInt
    ((s.arch.rdS b).truncate 32).toInt)).signExtend 64 = v) : Lands i s lat 1 0 (.s d v) := by
  have hl := lands_of_signedOp hg hi
  rwa [hw, hv] at hl

end

section
variable {h : Nat → Nat → Nat → Nat} (hi : exec i s = unsignedOp lat g d a b f h s)
include hi

theorem lands_of_unsignedOp : Lands i s lat 1 0 (.s d ((BitVec.ofNat (formW f) (h (formW f)
    ((s.arch.rdS a).setWidth (formW f)).toNat ((s.arch.rdS b).setWidth (formW f)).toNat)).signExtend 64)) := by
  simp only [unsignedOp, word_mod, sxW_natCast] at hi
  exact lands_of_sOp hg hi rfl

theorem lands_of_unsignedOp_64 (hw : formW f = 64) (hv : BitVec.ofNat 64 (h 64 (s.arch.rdS a).toNat (s.arch.rdS b).toNat) = v) :
    Lands i s lat 1 0 (.s d v) := by
  have hl := lands_of_unsignedOp hg hi
  rwa [hw, BitVec.setWidth_eq, BitVec.setWidth_eq, BitVec.signExtend_eq, hv] at hl

theorem lands_of_unsignedOp_32 (hw : formW f = 32) (hv : (BitVec.ofNat 32 (h 32 ((s.arch.rdS a).truncate 32).toNat
    ((s.arch.rdS b).truncate 32).toNat)).signExtend 64 = v) : Lands i s lat 1 0 (.s d v) := by
  have hl := lands_of_unsignedOp hg hi
  rwa [hw, hv] at hl

end

end

/-! ## Sums that are held to a range (R180) -/

theorem clampInt_eq {lo hi : Int} (h : lo ≤ hi) (v : Int) : clampInt lo hi v = max lo (min hi v) := by
  unfold clampInt
  split
  case isTrue => omega
  case isFalse => split <;> omega

theorem minInt_le_maxInt (w : Nat) : minInt w ≤ maxInt w := by
  have := Nat.two_pow_pos (w - 1)
  unfold minInt maxInt
  omega

section
variable {neg : Bool} {f : BitVec 3} (x y : Word)

theorem addSub_wraps (h : f.getLsbD 1 = false) : addSub neg f x y =
    ((if neg then x.setWidth (formW f) - y.setWidth (formW f) else x.setWidth (formW f) + y.setWidth (formW f)).signExtend 64, 0) := by
  simp only [addSub, h, Bool.false_eq_true, if_false, toSigned_word, sxW_eq]
  cases neg with
  | false => rw [if_neg Bool.false_ne_true, if_neg Bool.false_ne_true, ofInt_add_toInt]
  | true => rw [if_pos rfl, if_pos rfl, ofInt_sub_toInt]

theorem addSub_wraps_64 (hw : formW f = 64) (h : f.getLsbD 1 = false) : addSub neg f x y = (if neg then x - y else x + y, 0) := by
  rw [addSub_wraps x y h, hw, BitVec.setWidth_eq, BitVec.setWidth_eq, BitVec.signExtend_eq]

theorem addSub_wraps_32 (hw : formW f = 32) (h : f.getLsbD 1 = false) :
    addSub neg f x y = (low32 (if neg then x - y else x + y), 0) := by
  rw [addSub_wraps x y h, hw, ← setWidth_sub_word, ← BitVec.setWidth_add x y (by decide), ← apply_ite (BitVec.setWidth 32)]
  rfl

theorem addSub_saturates {w : Nat} (hw : formW f = w) (h : f.getLsbD 1 = true) : addSub neg f x y =
    saturated w (if neg then (x.setWidth w).toInt - (y.setWidth w).toInt else (x.setWidth w).toInt + (y.setWidth w).toInt) := by
  simp only [addSub, hw, h, if_true, toSigned_word, clampInt_eq (minInt_le_maxInt w)]
  rfl

theorem addSub_saturates_64 (hw : formW f = 64) (h : f.getLsbD 1 = true) :
    addSub neg f x y = saturated 64 (if neg then x.toInt - y.toInt else x.toInt + y.toInt) := by
  rw [addSub_saturates x y hw h, BitVec.setWidth_eq, BitVec.setWidth_eq]

end

theorem lands_of_addSubOp {i : Instr} {s : State} {g : Guard} {d a b : SReg} {f : BitVec 3} {neg : Bool} {r : Word × Flags}
    (hg : s.arch.guardOn 1 g = true) (hi : exec i s = addSubOp neg g d a b f s) (hr : addSub neg f (s.arch.rdS a) (s.arch.rdS b) = r) :
    Lands i s 1 1 r.2 (.s d r.1) := hr ▸ hi.trans (issueF_on hg)

/-! ## The statement -/

/-- A 32-bit value with a special case, extended. -/
theorem signExtend_eq_ite {X u v : Word32} {c : Prop} [Decidable c] (h : X = if c then u else v) :
    X.signExtend 64 = if c then u.signExtend 64 else v.signExtend 64 := h ▸ apply_ite (BitVec.signExtend 64) c u v

/-- Settles O16: every form is the operation on words of its width that the value of R180 wraps to. -/
theorem integerArithmetic : Obligations.IntegerArithmetic := by
  intro s g d a b i e hg x y x32 y32
  have wraps {i : Instr} {f : BitVec 3} {neg : Bool} {v : Word} (hi : exec i s = addSubOp neg g d a b f s)
      (hr : addSub neg f x y = (v, 0)) : Lands i s 1 1 0 (.s d v) := lands_of_addSubOp hg hi hr
  have hmul : (BitVec.ofInt 32 (x32.toInt * y32.toInt)).signExtend 64 = low32 (x * y) := by
    rw [ofInt_mul_toInt, low32, BitVec.truncate_eq_setWidth, BitVec.setWidth_mul x y (by decide)]
  exact ⟨wraps (exec_add ..) (addSub_wraps_64 x y rfl rfl), wraps (exec_add ..) (addSub_wraps_32 x y rfl rfl),
    lands_of_addSubOp hg (exec_add ..) (addSub_saturates_64 x y rfl rfl),
    lands_of_addSubOp hg (exec_add ..) (addSub_saturates x y rfl rfl),
    wraps (exec_sub ..) (addSub_wraps_64 x y rfl rfl), wraps (exec_sub ..) (addSub_wraps_32 x y rfl rfl),
    lands_of_addSubOp hg (exec_sub ..) (addSub_saturates_64 x y rfl rfl),
    lands_of_addSubOp hg (exec_sub ..) (addSub_saturates x y rfl rfl),
    lands_of_sOp hg (exec_addi ..) (congrArg (x + ·) (immOr_eq_imm ..)),
    lands_of_signedOp_64 hg (exec_mul ..) rfl (ofInt_mul_toInt x y), lands_of_signedOp_32 hg (exec_mul ..) rfl hmul,
    lands_of_signedOp_64 hg (exec_mulh ..) rfl (ofInt_mulh x y), lands_of_unsignedOp_64 hg (exec_mulhu ..) rfl (ofNat_mulhu x y),
    lands_of_signedOp_64 hg (exec_div ..) rfl ofInt_divS, lands_of_signedOp_32 hg (exec_div ..) rfl (signExtend_eq_ite ofInt_divS),
    lands_of_unsignedOp_64 hg (exec_divu ..) rfl ofNat_divU, lands_of_unsignedOp_32 hg (exec_divu ..) rfl (signExtend_eq_ite ofNat_divU),
    lands_of_signedOp_64 hg (exec_rem ..) rfl ofInt_remS, lands_of_signedOp_32 hg (exec_rem ..) rfl (signExtend_eq_ite ofInt_remS),
    lands_of_unsignedOp_64 hg (exec_remu ..) rfl ofNat_remU, lands_of_unsignedOp_32 hg (exec_remu ..) rfl (signExtend_eq_ite ofNat_remU)⟩

end Sys2Proof
end

