-- ==== Sys2Proof/Proofs/ScalarBits.lean ====
section
/-!
PROOFS. Logic, shifts and rotates of slot S (R182 to R184; O17).
-/
namespace Sys2Proof
open Machine Claim
set_option Elab.async false

/-! ## Shifts and rotates of words of `w` bits (R183) -/

section
variable {w : Nat} (X : BitVec w) (n : Nat)

theorem ofInt_shl : BitVec.ofInt w (sllI w X.toNat n) = if n < w then X <<< n else 0 := by
  rw [sllI, BitVec.ofInt_natCast, shl]
  split
  case isTrue => rw [← Nat.shiftLeft_eq, ← BitVec.toNat_shiftLeft, BitVec.ofNat_toNat, BitVec.setWidth_eq]
  case isFalse => rfl

theorem ofInt_shr : BitVec.ofInt w (srlI w X.toNat n) = if n < w then X >>> n else 0 := by
  rw [srlI, BitVec.ofInt_natCast, shr]
  split
  case isTrue => rw [← Nat.shiftRight_eq_div_pow, ← BitVec.toNat_ushiftRight, BitVec.ofNat_toNat, BitVec.setWidth_eq]
  case isFalse => rfl

theorem ofInt_shra : BitVec.ofInt w (sraI w X.toNat n) = if n < w then X.sshiftRight n else if X.msb then -1 else 0 := by
  rw [sraI, toSigned_eq_toInt, BitVec.ofNat_toNat, BitVec.setWidth_eq, shra, BitVec.msb_eq_toInt]
  simp only [decide_eq_true_eq]
  split
  case isTrue => rw [BitVec.sshiftRight_eq, Int.shiftRight_eq_div_pow]
  case isFalse =>
    split
    case isTrue => exact ofInt_neg_one
    case isFalse => rfl

variable {X n} (hw : 0 < w)
include hw

/-- The two parts of a rotation have no bit in common. -/
theorem rotR_eq : rotR w X.toNat n = (X.rotateRight (n % w)).toNat := by
  have hk : n % w ≤ w := (Nat.mod_lt n hw).le
  have hlow : X.toNat / 2 ^ (n % w) < 2 ^ (w - n % w) :=
    Nat.div_lt_of_lt_mul (by rw [← Nat.pow_add, Nat.add_sub_cancel' hk]; exact X.isLt)
  have hhigh : X.toNat * 2 ^ (w - n % w) % 2 ^ w = 2 ^ (w - n % w) * (X.toNat % 2 ^ (n % w)) := by
    rw [← Nat.mul_mod_mul_left, ← Nat.pow_add, Nat.sub_add_cancel hk, Nat.mul_comm]
  rw [BitVec.toNat_rotateRight, Nat.mod_mod, Nat.shiftRight_eq_div_pow, Nat.shiftLeft_eq, hhigh, Nat.lor_comm,
    ← Nat.two_pow_add_eq_or_of_lt hlow, rotR, Nat.add_comm, Nat.mul_comm]

/-- To the left is to the right by what is left of the width. -/
theorem rotateRight_sub_eq : X.rotateRight ((w - n % w) % w) = X.rotateLeft (n % w) := by
  apply BitVec.eq_of_toNat_eq
  rw [BitVec.toNat_rotateRight, BitVec.toNat_rotateLeft, Nat.mod_mod, Nat.mod_mod]
  rcases Nat.eq_zero_or_pos (n % w) with h | h
  · simp [h, Nat.shiftRight_eq_div_pow, Nat.shiftLeft_eq, Nat.mod_eq_of_lt X.isLt, Nat.div_eq_of_lt X.isLt]
  · have hk := Nat.mod_lt n hw
    rw [Nat.mod_eq_of_lt (by omega : w - n % w < w), Nat.sub_sub_self hk.le, Nat.lor_comm]

theorem ofInt_rotI (f : BitVec 3) : BitVec.ofInt w (rotI f w X.toNat n) =
    if f.getLsbD 1 then X.rotateLeft (n % w) else X.rotateRight (n % w) := by
  unfold rotI
  split
  · rw [BitVec.ofInt_natCast, rotR_eq hw, rotateRight_sub_eq hw, BitVec.ofNat_toNat, BitVec.setWidth_eq]
  · rw [BitVec.ofInt_natCast, rotR_eq hw, BitVec.ofNat_toNat, BitVec.setWidth_eq]

end

/-! ## Each instruction as the shared operation of its form -/

section
variable (g : Guard) (d a b : SReg) (f : BitVec 3) (i : BitVec 9) (e : Option Word32) (w : BitVec 1) (c : BitVec 6) (s : State)

theorem exec_and : exec (.and g d a b) s = sOp 1 g d (fun r => r.rdS a &&& r.rdS b) s := rfl

theorem exec_andi : exec (.andi g d a i e) s = sOp 1 g d (fun r => r.rdS a &&& immOr 64 i e) s := rfl

theorem exec_or : exec (.or g d a b) s = sOp 1 g d (fun r => r.rdS a ||| r.rdS b) s := rfl

theorem exec_ori : exec (.ori g d a i e) s = sOp 1 g d (fun r => r.rdS a ||| immOr 64 i e) s := rfl

theorem exec_xor : exec (.xor g d a b) s = sOp 1 g d (fun r => r.rdS a ^^^ r.rdS b) s := rfl

theorem exec_xori : exec (.xori g d a i e) s = sOp 1 g d (fun r => r.rdS a ^^^ immOr 64 i e) s := rfl

theorem exec_andn : exec (.andn g d a b) s = sOp 1 g d (fun r => r.rdS a &&& ~~~ r.rdS b) s := rfl

theorem exec_sll : exec (.sll g d a b f) s = shiftOp g d a (formW f) sllI (fun r => (r.rdS b).toNat) s := rfl

theorem exec_srl : exec (.srl g d a b f) s = shiftOp g d a (formW f) srlI (fun r => (r.rdS b).toNat) s := rfl

theorem exec_sra : exec (.sra g d a b f) s = shiftOp g d a (formW f) sraI (fun r => (r.rdS b).toNat) s := rfl

theorem exec_rot : exec (.rot g d a b f) s = shiftOp g d a (formW f) (rotI f) (fun r => (r.rdS b).toNat) s := rfl

theorem exec_slli : exec (.slli g d a w c) s = shiftOp g d a (if w = 1 then 32 else 64) sllI (fun _ => c.toNat) s := rfl

theorem exec_srli : exec (.srli g d a w c) s = shiftOp g d a (if w = 1 then 32 else 64) srlI (fun _ => c.toNat) s := rfl

theorem exec_srai : exec (.srai g d a w c) s = shiftOp g d a (if w = 1 then 32 else 64) sraI (fun _ => c.toNat) s := rfl

end

/-! ## Forms of a shift -/

section
variable {i : Instr} {s : State} {g : Guard} {d a : SReg} {w : Nat} {h : Nat → Nat → Nat → Int} {n : Arch → Nat} {v : Word}
  (hg : s.arch.guardOn 1 g = true) (hi : exec i s = shiftOp g d a w h n s)
include hg hi

theorem lands_of_shiftOp : Lands i s 1 1 0
    (.s d ((BitVec.ofInt w (h w ((s.arch.rdS a).setWidth w).toNat (n s.arch))).signExtend 64)) := by
  simp only [shiftOp, word_mod, sxW_eq] at hi
  exact lands_of_sOp hg hi rfl

theorem lands_of_shiftOp_64 (hw : w = 64) (hv : BitVec.ofInt 64 (h 64 (s.arch.rdS a).toNat (n s.arch)) = v) :
    Lands i s 1 1 0 (.s d v) := by
  have hl := lands_of_shiftOp hg hi
  rwa [hw, BitVec.setWidth_eq, BitVec.signExtend_eq, hv] at hl

theorem lands_of_shiftOp_32 (hw : w = 32)
    (hv : (BitVec.ofInt 32 (h 32 ((s.arch.rdS a).truncate 32).toNat (n s.arch))).signExtend 64 = v) : Lands i s 1 1 0 (.s d v) := by
  have hl := lands_of_shiftOp hg hi
  rwa [hw, hv] at hl

end

/-! ## The statement -/

/-- Settles O17: the logic on 64 bits by its equations, the shifts and rotates by those of words of their width. -/
theorem logicAndShifts : Obligations.LogicAndShifts := by
  intro s g d a b i e c hg x y n x32
  have himm : immOr 64 i e = imm 64 i e := immOr_eq_imm 64 i e
  have hc : c.toNat < 64 := c.isLt
  have wide {X u : Word32} (h : X = u) : X.signExtend 64 = u.signExtend 64 := congrArg _ h
  exact ⟨lands_of_sOp hg (exec_and ..) rfl, lands_of_sOp hg (exec_andi ..) (congrArg (x &&& ·) himm),
    lands_of_sOp hg (exec_or ..) rfl, lands_of_sOp hg (exec_ori ..) (congrArg (x ||| ·) himm),
    lands_of_sOp hg (exec_xor ..) rfl, lands_of_sOp hg (exec_xori ..) (congrArg (x ^^^ ·) himm), lands_of_sOp hg (exec_andn ..) rfl,
    lands_of_shiftOp_64 hg (exec_sll ..) rfl (ofInt_shl x n),
    lands_of_shiftOp_32 hg (exec_sll ..) rfl (signExtend_eq_ite (ofInt_shl x32 n)),
    lands_of_shiftOp_64 hg (exec_srl ..) rfl (ofInt_shr x n),
    lands_of_shiftOp_32 hg (exec_srl ..) rfl (signExtend_eq_ite (ofInt_shr x32 n)),
    lands_of_shiftOp_64 hg (exec_sra ..) rfl (ofInt_shra x n),
    lands_of_shiftOp_32 hg (exec_sra ..) rfl ((signExtend_eq_ite (ofInt_shra x32 n)).trans
      (congrArg (ite (n < 32) _) (signExtend_eq_ite rfl))),
    lands_of_shiftOp_64 hg (exec_slli ..) rfl ((ofInt_shl x c.toNat).trans (if_pos hc)),
    fun h => lands_of_shiftOp_32 hg (exec_slli ..) rfl (wide ((ofInt_shl x32 c.toNat).trans (if_pos h))),
    lands_of_shiftOp_64 hg (exec_srli ..) rfl ((ofInt_shr x c.toNat).trans (if_pos hc)),
    fun h => lands_of_shiftOp_32 hg (exec_srli ..) rfl (wide ((ofInt_shr x32 c.toNat).trans (if_pos h))),
    lands_of_shiftOp_64 hg (exec_srai ..) rfl ((ofInt_shra x c.toNat).trans (if_pos hc)),
    fun h => lands_of_shiftOp_32 hg (exec_srai ..) rfl (wide ((ofInt_shra x32 c.toNat).trans (if_pos h))),
    lands_of_shiftOp_64 hg (exec_rot ..) rfl (ofInt_rotI (by decide) 0),
    lands_of_shiftOp_32 hg (exec_rot ..) rfl (wide (ofInt_rotI (by decide) 1)),
    lands_of_shiftOp_64 hg (exec_rot ..) rfl (ofInt_rotI (by decide) 2),
    lands_of_shiftOp_32 hg (exec_rot ..) rfl (wide (ofInt_rotI (by decide) 3))⟩

end Sys2Proof
end

