-- ==== Sys2Proof/Proofs/ScalarSelections.lean ====
section
/-!
PROOFS. Counts, extensions, selections and conditions of slot S (R177, R185 to R190; O18, O19).
-/
namespace Sys2Proof
open Machine Claim
set_option Elab.async false

/-! ## Counts of bits (R185) -/

section
variable {w x : Nat}

theorem clzN_le : clzN w x ≤ w := by
  unfold clzN
  split <;> omega

theorem testBit_of_lt_clzN {j : Nat} (h : j < clzN w x) : x.testBit (w - 1 - j) = false := by
  unfold clzN at h
  split at h
  case isTrue hx => rw [hx, Nat.zero_testBit]
  case isFalse => exact Nat.testBit_lt_two_pow (Nat.lt_log2_self.trans_le (Nat.pow_le_pow_right Nat.two_pos (by omega)))

theorem testBit_clzN (hx : x < 2 ^ w) (h : clzN w x < w) : x.testBit (w - 1 - clzN w x) = true := by
  unfold clzN at h ⊢
  split at h
  case isTrue => exact absurd h (Nat.lt_irrefl w)
  case isFalse h0 =>
    have hl : Nat.log2 x < w := (Nat.log2_lt h0).2 hx
    rw [if_neg h0, Nat.sub_sub_self (by omega)]
    exact Nat.testBit_log2 h0

end

/-- The first index, or the end of the range. -/
theorem firstIdx_getD (f : Nat → Bool) (n i : Nat) : (firstIdx f n i).getD (i + n) ≤ i + n
    ∧ (∀ j, i ≤ j → j < (firstIdx f n i).getD (i + n) → f j = false)
    ∧ ((firstIdx f n i).getD (i + n) < i + n → f ((firstIdx f n i).getD (i + n)) = true) := by
  induction n generalizing i with
  | zero => exact ⟨le_rfl, fun j hi hj => absurd hi (Nat.not_le.2 hj), fun h => absurd h (Nat.lt_irrefl _)⟩
  | succ n ih =>
    rw [firstIdx]
    cases hf : f i with
    | true => exact ⟨Nat.le_add_right .., fun j hi hj => absurd hi (Nat.not_le.2 hj), fun _ => hf⟩
    | false =>
      obtain ⟨hle, hbelow, hat⟩ := ih (i + 1)
      rw [Nat.succ_add_eq_add_succ] at hle hbelow hat
      refine ⟨hle, fun j hi hj => ?_, hat⟩
      rcases Nat.eq_or_lt_of_le hi with rfl | hi
      · exact hf
      · exact hbelow j hi hj

theorem popCount_eq (n x : Nat) : popCount n x = ((List.range n).filter x.testBit).length := by
  induction n generalizing x with
  | zero => rfl
  | succ n ih =>
    have hs : x.testBit ∘ Nat.succ = (x / 2).testBit := funext fun i => Nat.testBit_succ x i
    rw [popCount, ih, List.range_succ_eq_map, List.filter_cons, List.filter_map, hs]
    rcases Nat.mod_two_eq_zero_or_one x with h | h <;> simp [Nat.testBit_zero, h, Nat.add_comm]

/-- The low `w` bits of a register. -/
theorem testBit_low {w j : Nat} (x : Word) (hj : j < w) : (x.toNat % 2 ^ w).testBit j = x.getLsbD j := by
  rw [Nat.testBit_mod_two_pow, decide_eq_true hj, Bool.true_and, BitVec.testBit_toNat]

theorem popCount_low (w : Nat) (x : Word) : popCount w (x.toNat % 2 ^ w) = Claim.ones w x := by
  rw [popCount_eq, Claim.ones]
  exact congrArg List.length (List.filter_congr fun j hj => testBit_low x (List.mem_range.1 hj))

/-! ## Each instruction as the shared operation of its form -/

section
variable (g : Guard) (d a b : SReg) (p q r : PReg) (f n : BitVec 3) (c : BitVec 5) (i : BitVec 15) (i6 : BitVec 6) (e : Option Word32)
  (h : Word32) (s : State)

theorem exec_clz : exec (.clz g d a f) s = countOp g d a f clzN s := rfl

theorem exec_ctz : exec (.ctz g d a f) s = countOp g d a f ctzN s := rfl

theorem exec_popc : exec (.popc g d a f) s = countOp g d a f popCount s := rfl

theorem exec_min : exec (.min g d a b) s = sOp 1 g d (fun r => if (r.rdS b).slt (r.rdS a) then r.rdS b else r.rdS a) s := rfl

theorem exec_max : exec (.max g d a b) s = sOp 1 g d (fun r => if (r.rdS a).slt (r.rdS b) then r.rdS b else r.rdS a) s := rfl

theorem exec_minu : exec (.minu g d a b) s = sOp 1 g d (fun r => if r.rdS b < r.rdS a then r.rdS b else r.rdS a) s := rfl

theorem exec_maxu : exec (.maxu g d a b) s = sOp 1 g d (fun r => if r.rdS a < r.rdS b then r.rdS b else r.rdS a) s := rfl

theorem exec_sext : exec (.sext g d a f) s = sOp 1 g d (fun r => sxW (extW f) ((r.rdS a).toNat : Int)) s := rfl

theorem exec_zext : exec (.zext g d a f) s = sOp 1 g d (fun r => BitVec.ofNat 64 ((r.rdS a).toNat % 2 ^ extW f)) s := rfl

theorem exec_li : exec (.li g d i e) s = sOp 1 g d (fun _ => immOr 64 i e) s := rfl

theorem exec_lih : exec (.lih g d h) s = sOp 1 g d (fun r => h ++ (r.rdS d).truncate 32) s := rfl

theorem exec_sel : exec (.sel g d a b n) s = sOp 1 g d (fun r => if r.rdP (n.zeroExtend 4) then r.rdS a else r.rdS b) s := rfl

theorem exec_cmp : exec (.cmp g p a b c) s = pOp g p (fun r => icond 64 c.toNat (r.rdS a).toNat (r.rdS b).toNat) s := rfl

theorem exec_cmpi : exec (.cmpi g p a c i6 e) s = pOp g p (fun r => icond 64 c.toNat (r.rdS a).toNat (immOr 64 i6 e).toNat) s := rfl

theorem exec_pand : exec (.pand g p q r) s = pOp g p (fun x => x.rdP q && x.rdP r) s := rfl

theorem exec_por : exec (.por g p q r) s = pOp g p (fun x => x.rdP q || x.rdP r) s := rfl

theorem exec_pxor : exec (.pxor g p q r) s = pOp g p (fun x => x.rdP q != x.rdP r) s := rfl

theorem exec_pandn : exec (.pandn g p q r) s = pOp g p (fun x => x.rdP q && !x.rdP r) s := rfl

end

/-! ## Values of the instructions -/

theorem counts_of_guard {s : State} {g : Guard} {d a : SReg} {f : BitVec 3} {w : Nat} (hg : s.arch.guardOn 1 g = true)
    (hw : formW f = w) : Counts s g d a f w := by
  have lands {i : Instr} {h : Nat → Nat → Nat} {n : Nat} (hi : exec i s = countOp g d a f h s)
      (hn : h w ((s.arch.rdS a).toNat % 2 ^ w) = n) : Lands i s 1 1 0 (.s d (BitVec.ofNat 64 n)) := by
    simp only [countOp, hw] at hi
    exact lands_of_sOp hg hi (congrArg (BitVec.ofNat 64) hn)
  have hx := Nat.mod_lt (s.arch.rdS a).toNat (Nat.two_pow_pos w)
  have hfirst := firstIdx_getD ((s.arch.rdS a).toNat % 2 ^ w).testBit w 0
  rw [Nat.zero_add] at hfirst
  obtain ⟨hle, hbelow, hat⟩ := hfirst
  refine ⟨⟨_, Nat.lt_succ_of_le clzN_le, lands (exec_clz ..) rfl, fun j hj => ?_, fun hn => ?_⟩,
    ⟨_, Nat.lt_succ_of_le hle, lands (exec_ctz ..) rfl, fun j hj => ?_, fun hn => ?_⟩, lands (exec_popc ..) (popCount_low w _)⟩
  · have := testBit_of_lt_clzN hj
    rwa [testBit_low _ (by have := hj.trans_le clzN_le; omega)] at this
  · have := testBit_clzN hx hn
    rwa [testBit_low _ (by omega)] at this
  · have := hbelow j (Nat.zero_le j) hj
    rwa [testBit_low _ (hj.trans_le hle)] at this
  · have := hat hn
    rwa [testBit_low _ hn] at this

theorem sxW_word (w : Nat) (x : Word) : sxW w x.toNat = (x.setWidth w).signExtend 64 := by rw [sxW_natCast, BitVec.ofNat_toNat]

/-- The low `k` bits, as a number and as a mask. -/
theorem ofNat_mod_eq_and {k : Nat} (hk : k ≤ 64) (x : Word) : BitVec.ofNat 64 (x.toNat % 2 ^ k) = x &&& BitVec.ofNat 64 (2 ^ k - 1) := by
  have hp : 2 ^ k ≤ 2 ^ 64 := Nat.pow_le_pow_right Nat.two_pos hk
  have h0 := Nat.two_pow_pos k
  apply BitVec.eq_of_toNat_eq
  rw [BitVec.toNat_and, BitVec.toNat_ofNat, BitVec.toNat_ofNat, Nat.mod_eq_of_lt (by omega : 2 ^ k - 1 < 2 ^ 64),
    Nat.and_two_pow_sub_one_eq_mod, Nat.mod_eq_of_lt ((Nat.mod_lt _ h0).trans_le hp)]

/-- LIH keeps the low half (R186). -/
theorem append_low_eq (h : Word32) (x : Word) : h ++ x.truncate 32 = (h.zeroExtend 64 <<< 32) ||| (x &&& 0xFFFFFFFF) := by
  have hlow : x &&& 0xFFFFFFFF = BitVec.ofNat 64 (x.toNat % 2 ^ 32) := (ofNat_mod_eq_and (k := 32) (by decide) x).symm
  have hh := h.isLt
  apply BitVec.eq_of_toNat_eq
  rw [hlow, BitVec.toNat_append, BitVec.toNat_or, BitVec.toNat_shiftLeft, BitVec.toNat_ofNat, BitVec.truncate_eq_setWidth,
    BitVec.toNat_setWidth, BitVec.zeroExtend_eq_setWidth, BitVec.toNat_setWidth, Nat.shiftLeft_eq, Nat.shiftLeft_eq]
  congr 1 <;> omega

theorem smaller_slt (x y : Word) : (if y.slt x then y else x) = if x.slt y then x else y := by
  simp only [BitVec.slt_iff_toInt_lt]
  rcases lt_trichotomy x.toInt y.toInt with h | h | h
  · rw [if_pos h, if_neg h.not_gt]
  · rw [BitVec.eq_of_toInt_eq h]
  · rw [if_pos h, if_neg h.not_gt]

theorem smaller_ult (x y : Word) : (if y < x then y else x) = if x.ult y then x else y := by
  simp only [BitVec.ult_iff_lt, BitVec.lt_def]
  rcases lt_trichotomy x.toNat y.toNat with h | h | h
  · rw [if_pos h, if_neg h.not_gt]
  · rw [BitVec.eq_of_toNat_eq h]
  · rw [if_pos h, if_neg h.not_gt]

theorem larger_ult (x y : Word) : (if x < y then y else x) = if x.ult y then y else x := by simp only [BitVec.ult_iff_lt]

/-- Settles O18: the counts by the bits that they stand at, the others by the equations of their words. -/
theorem selectionAndCounts : Obligations.SelectionAndCounts := by
  intro s g d a b i e h q hg x y
  exact ⟨lands_of_sOp hg (exec_min ..) (smaller_slt x y), lands_of_sOp hg (exec_max ..) rfl,
    lands_of_sOp hg (exec_minu ..) (smaller_ult x y), lands_of_sOp hg (exec_maxu ..) (larger_ult x y),
    counts_of_guard hg rfl, counts_of_guard hg rfl,
    lands_of_sOp hg (exec_sext ..) (sxW_word 8 x), lands_of_sOp hg (exec_sext ..) (sxW_word 16 x),
    lands_of_sOp hg (exec_sext ..) (sxW_word 32 x), lands_of_sOp hg (exec_zext ..) (ofNat_mod_eq_and (k := 8) (by decide) x),
    lands_of_sOp hg (exec_zext ..) (ofNat_mod_eq_and (k := 16) (by decide) x),
    lands_of_sOp hg (exec_zext ..) (ofNat_mod_eq_and (k := 32) (by decide) x),
    lands_of_sOp hg (exec_li ..) (immOr_eq_imm 64 i e), lands_of_sOp hg (exec_lih ..) (append_low_eq h _),
    lands_of_sOp hg (exec_sel ..) rfl⟩

/-! ## Conditions (R187) -/

theorem beq_toNat (x y : Word) : (x.toNat == y.toNat) = (x == y) := by
  rw [Bool.eq_iff_iff, beq_iff_eq, beq_iff_eq, BitVec.toNat_inj]

theorem and_toNat_beq_zero (x y : Word) : (x.toNat &&& y.toNat == 0) = (x &&& y == 0) := by
  rw [← BitVec.toNat_and, ← beq_toNat]
  rfl

theorem icond_eq_condition (c : BitVec 5) (x y : Word) : icond 64 c.toNat x.toNat y.toNat = condition c x y := by
  unfold icond condition
  simp only [toSigned_word, BitVec.setWidth_eq]
  generalize c.toNat = n
  match n with
  | 0 => exact beq_toNat x y
  | 1 => exact congrArg not (beq_toNat x y)
  | 2 => exact BitVec.slt_eq_decide.symm
  | 3 => simp only [BitVec.slt_eq_decide, ge_iff_le, ← decide_not, not_lt]
  | 4 => exact BitVec.sle_eq_decide.symm
  | 5 => simp only [BitVec.sle_eq_decide, gt_iff_lt, ← decide_not, not_le]
  | 6 => exact BitVec.ult_eq_decide.symm
  | 7 => simp only [BitVec.ult_eq_decide, ge_iff_le, ← decide_not, not_lt]
  | 8 => exact BitVec.ule_eq_decide.symm
  | 9 => simp only [BitVec.ule_eq_decide, gt_iff_lt, ← decide_not, not_le]
  | 10 => exact congrArg not (and_toNat_beq_zero x y)
  | n + 11 => exact and_toNat_beq_zero x y

/-- Settles O19: the conditions by `icond_eq_condition`, the predicate logic by its equations. -/
theorem comparesAndPredicates : Obligations.ComparesAndPredicates := by
  intro s g d p q a b c i e hg
  refine ⟨fun _ => ⟨lands_of_pOp hg (exec_cmp ..) (icond_eq_condition ..), lands_of_pOp hg (exec_cmpi ..) ?_⟩,
    lands_of_pOp hg (exec_pand ..) rfl, lands_of_pOp hg (exec_por ..) rfl, lands_of_pOp hg (exec_pxor ..) rfl,
    lands_of_pOp hg (exec_pandn ..) rfl⟩
  rw [icond_eq_condition, immOr_eq_imm]

end Sys2Proof
end

