-- ==== Sys2Proof/Proofs/ScalarFloats.lean ====
section
/-!
PROOFS. FP32 instructions of slot S (R102, R105 to R107, R187, R188, R191 to R193; O20).
-/
namespace Sys2Proof
open Machine Claim
set_option Elab.async false

/-! ## Each instruction as the shared operation of its form -/

section
variable (g : Guard) (d a b : SReg) (p : PReg) (r : BitVec 3) (c : BitVec 5) (sat : BitVec 1) (s : State)

theorem exec_fadd : exec (.fadd g d a b r) s = fOp 4 g d r (fun m x => addV m (x.f32 a) (x.f32 b)) s := rfl

theorem exec_fsub : exec (.fsub g d a b r) s = fOp 4 g d r (fun m x => addV m (x.f32 a) (x.f32 b).negate) s := rfl

theorem exec_fmul : exec (.fmul g d a b r) s = fOp 4 g d r (fun _ x => mulEx (x.f32 a) (x.f32 b)) s := rfl

theorem exec_ffma : exec (.ffma g d a b r) s = fOp 4 g d r (fun m x => fmaEx m (x.f32 a) (x.f32 b) (x.f32 d)) s := rfl

theorem exec_fdiv : exec (.fdiv g d a b r) s = fOp 12 g d r (fun _ x => divEx (x.f32 a) (x.f32 b)) s := rfl

theorem exec_fsqrt : exec (.fsqrt g d a r) s = fOp 12 g d r (fun _ x => sqrtEx (x.f32 a)) s := rfl

theorem exec_fmin : exec (.fmin g d a b) s = fMinMax false g d a b s := rfl

theorem exec_fmax : exec (.fmax g d a b) s = fMinMax true g d a b s := rfl

theorem exec_fcmp : exec (.fcmp g p a b c) s = issueF 1 g (fun s => s.result 1 1
    (if (fcondV c.toNat (s.arch.f32 a) (s.arch.f32 b)).2 then fNV else 0)
    (.p p (fcondV c.toNat (s.arch.f32 a) (s.arch.f32 b)).1)) s := rfl

theorem exec_fcvt : exec (.fcvt g d a sat c r) s = issueF 1 g (fun s => s.result 3 1
    (fcvtVal c.toNat (Rm.ofField s.arch.rmode r) (sat == 1) (s.arch.rdS a).toNat).2
    (.s d (fcvtVal c.toNat (Rm.ofField s.arch.rmode r) (sat == 1) (s.arch.rdS a).toNat).1)) s := rfl

end

section
variable {i : Instr} {s : State} {g : Guard} (hg : s.arch.guardOn 1 g = true)
include hg

/-- The exact result, rounded once. -/
theorem lands_of_fOp {lat : Nat} {d : SReg} {r : BitVec 3} {f : Rm → Arch → Ex} {v : Ex} (hi : exec i s = fOp lat g d r f s)
    (hv : f (Rm.ofField s.arch.rmode r) s.arch = v) :
    Lands i s lat 1 (FFmt.fp32.round (Rm.ofField s.arch.rmode r) false v).2
      (.s d (BitVec.ofNat 64 (FFmt.fp32.round (Rm.ofField s.arch.rmode r) false v).1)) :=
  hv ▸ hi.trans (issueF_on hg)

theorem lands_of_fMinMax {mx : Bool} {d a b : SReg} {v : Word} {fl : Flags} (hi : exec i s = fMinMax mx g d a b s)
    (hv : BitVec.ofNat 64 (FFmt.fp32.minMax mx ((s.arch.rdS a).toNat % 2 ^ 32) ((s.arch.rdS b).toNat % 2 ^ 32)).1 = v
      ∧ (FFmt.fp32.minMax mx ((s.arch.rdS a).toNat % 2 ^ 32) ((s.arch.rdS b).toNat % 2 ^ 32)).2 = fl) :
    Lands i s 1 1 fl (.s d v) := by
  obtain ⟨rfl, rfl⟩ := hv
  exact hi.trans (issueF_on hg)

end

/-! ## Selection (R192) -/

theorem ofNat_single (x : Word) : BitVec.ofNat 64 (x.toNat % 2 ^ 32 % 2 ^ FFmt.fp32.width) = x &&& 0xFFFFFFFF := by
  rw [show FFmt.fp32.width = 32 from rfl, Nat.mod_mod]
  exact ofNat_mod_eq_and (k := 32) (by decide) x

/-- The bits that FMIN or FMAX selects, and its flags. -/
theorem minMax_single (mx : Bool) (x y : Word) :
    BitVec.ofNat 64 (FFmt.fp32.minMax mx (x.toNat % 2 ^ 32) (y.toNat % 2 ^ 32)).1 =
      (if (single x).isNaN && (single y).isNaN then 0x7FC00000 else if (single x).isNaN then y &&& 0xFFFFFFFF
        else if (single y).isNaN then x &&& 0xFFFFFFFF
        else (if leMin (single x) (single y) then (if mx then y else x) else if mx then x else y) &&& 0xFFFFFFFF)
    ∧ (FFmt.fp32.minMax mx (x.toNat % 2 ^ 32) (y.toNat % 2 ^ 32)).2 =
      if (single x).isSNaN || (single y).isSNaN then fNV else 0 := by
  have hs (z : Word) : FFmt.fp32.decode (z.toNat % 2 ^ 32) = single z := rfl
  simp only [FFmt.minMax, hs]
  split
  case isTrue => exact ⟨rfl, rfl⟩
  case isFalse =>
    split
    case isTrue => exact ⟨ofNat_single y, rfl⟩
    case isFalse =>
      split
      case isTrue => exact ⟨ofNat_single x, rfl⟩
      case isFalse =>
        cases leMin (single x) (single y) <;> cases mx
        · exact ⟨ofNat_single y, rfl⟩
        · exact ⟨ofNat_single x, rfl⟩
        · exact ⟨ofNat_single x, rfl⟩
        · exact ⟨ofNat_single y, rfl⟩

/-! ## Comparison (R187, R188) -/

theorem condFp_cases {c : BitVec 5} (h : condFp c = true) : c = 0 ∨ c = 1 ∨ c = 2 ∨ c = 3 ∨ c = 4 ∨ c = 5 ∨ c = 12 ∨ c = 13 := by
  revert c
  decide

/-- The truth value of a condition of FCMP. -/
theorem fcondV_eq {c : BitVec 5} (h : condFp c = true) (x y : FVal) : fcondV c.toNat x y =
    (if c = 12 then x.isNaN || y.isNaN else if c = 13 then !(x.isNaN || y.isNaN) else if x.isNaN || y.isNaN then c = 1 else
      match c.toNat with
      | 0 => cmpV x y = 0 | 1 => cmpV x y ≠ 0 | 2 => cmpV x y < 0 | 3 => 0 ≤ cmpV x y | 4 => cmpV x y ≤ 0
      | _ => 0 < cmpV x y,
     if 2 ≤ c.toNat ∧ c.toNat ≤ 5 then x.isNaN || y.isNaN else x.isSNaN || y.isSNaN) := by
  unfold fcondV
  dsimp only
  generalize (x.isNaN || y.isNaN) = un
  generalize cmpV x y = k
  have hne : (k != 0) = decide (k ≠ 0) := by rw [decide_not]; rfl
  rcases condFp_cases h with rfl | rfl | rfl | rfl | rfl | rfl | rfl | rfl
  case inr.inl =>
    cases un with
    | false => exact Prod.ext hne rfl
    | true => rfl
  all_goals cases un <;> rfl

theorem lands_of_fcvt {s : State} {g : Guard} {d a : SReg} {sat : BitVec 1} {code : BitVec 5} {r : BitVec 3} {v : Word} {fl : Flags}
    (hg : s.arch.guardOn 1 g = true)
    (hv : fcvtVal code.toNat (Rm.ofField s.arch.rmode r) (sat == 1) (s.arch.rdS a).toNat = (v, fl)) :
    Lands (.fcvt g d a sat code r) s 3 1 fl (.s d v) := by
  have hl : Lands (.fcvt g d a sat code r) s 3 1 (fcvtVal code.toNat (Rm.ofField s.arch.rmode r) (sat == 1) (s.arch.rdS a).toNat).2
    (.s d (fcvtVal code.toNat (Rm.ofField s.arch.rmode r) (sat == 1) (s.arch.rdS a).toNat).1) := (exec_fcvt ..).trans (issueF_on hg)
  rwa [hv] at hl

theorem lands_of_fcmp {s : State} {g : Guard} {p : PReg} {a b : SReg} {c : BitVec 5} {v nv : Bool} (hg : s.arch.guardOn 1 g = true)
    (hv : fcondV c.toNat (single (s.arch.rdS a)) (single (s.arch.rdS b)) = (v, nv)) :
    Lands (.fcmp g p a b c) s 1 1 (if nv then fNV else 0) (.p p v) := by
  have hl : Lands (.fcmp g p a b c) s 1 1 (if (fcondV c.toNat (single (s.arch.rdS a)) (single (s.arch.rdS b))).2 then fNV else 0)
    (.p p (fcondV c.toNat (single (s.arch.rdS a)) (single (s.arch.rdS b))).1) := (exec_fcmp ..).trans (issueF_on hg)
  rwa [hv] at hl

/-! ## Codes in a wider register -/

theorem bitsOf_mod {x lo len k : Nat} (h : lo + len ≤ k) : bitsOf (x % 2 ^ k) lo len = bitsOf x lo len := by
  refine Nat.eq_of_testBit_eq fun i => ?_
  rw [bitsOf, bitsOf, Nat.testBit_mod_two_pow, Nat.testBit_mod_two_pow, Nat.testBit_shiftRight, Nat.testBit_shiftRight,
    Nat.testBit_mod_two_pow]
  by_cases hi : i < len
  · rw [decide_eq_true (by omega : lo + i < k), Bool.true_and]
  · rw [decide_eq_false hi, Bool.false_and, Bool.false_and]

theorem single_eq (x : Word) : single x = FFmt.fp32.decode x.toNat := by
  have hs : bitsOf (x.toNat % 2 ^ 32) 31 1 = bitsOf x.toNat 31 1 := bitsOf_mod (by decide)
  have he : bitsOf (x.toNat % 2 ^ 32) 23 8 = bitsOf x.toNat 23 8 := bitsOf_mod (by decide)
  have hm : bitsOf (x.toNat % 2 ^ 32) 0 23 = bitsOf x.toNat 0 23 := bitsOf_mod (by decide)
  simp only [single, FFmt.decode, FFmt.fp32, hs, he, hm]
  rfl

/-! ## Widening (R193) -/

theorem bitsOf_lt (x lo len : Nat) : bitsOf x lo len < 2 ^ len := Nat.mod_lt _ (Nat.two_pow_pos len)

/-- The significand and the exponent of a finite number of a format. -/
theorem decode_fin_bounds {F : FFmt} (hF : F.Sound) {x m : Nat} {n : Bool} {e : Int} (h : F.decode x = .fin n m e) :
    0 < m ∧ m < 2 ^ (F.f + 1) ∧ e ≤ (2 ^ F.eb : Nat) - (if F.e4m3 then 1 else 2) - F.bias - F.f := by
  obtain ⟨-, heb, -⟩ := hF
  have h4 : 2 ^ 2 ≤ 2 ^ F.eb := Nat.pow_le_pow_right Nat.two_pos heb
  have hE := bitsOf_lt x F.f F.eb
  have hm := bitsOf_lt x 0 F.f
  unfold FFmt.decode at h
  simp only [FFmt.emin] at h
  rw [Nat.pow_succ]
  split at h
  case isTrue => cases h
  case isFalse =>
    split at h
    case isTrue => split at h <;> cases h
    case isFalse hinf =>
      have hE' : F.e4m3 = false → bitsOf x F.f F.eb ≠ 2 ^ F.eb - 1 := by
        intro h4 he
        simp [h4, he] at hinf
      split at h
      case isTrue =>
        split at h
        case isTrue => cases h
        case isFalse h0 =>
          cases h
          refine ⟨Nat.pos_of_ne_zero h0, by omega, ?_⟩
          split <;> omega
      case isFalse =>
        cases h
        refine ⟨by omega, by omega, ?_⟩
        split
        case isTrue => omega
        case isFalse h4 =>
          have := hE' (Bool.eq_false_iff.2 h4)
          omega

/-- A value below the largest finite one does not overflow. -/
theorem codeOf_fp32_le {rm : Rm} {neg : Bool} {num den : Nat} {e : Int} (hnum : 0 < num) (hden : 0 < den)
    (h : dyadic num den e < ((2 ^ 24 - 1 : Nat) : ℚ) * 2 ^ (104 : Int)) : FFmt.fp32.codeOf rm neg num den e ≤ FFmt.fp32.maxBits := by
  have hemin : FFmt.fp32.emin = -126 := rfl
  have hbias : (FFmt.fp32.bias : Int) = 127 := rfl
  have hf : FFmt.fp32.f = 23 := rfl
  have hmax : FFmt.fp32.maxBits = 254 * 2 ^ 23 + (2 ^ 23 - 1) := rfl
  have hk : log2Q num den + e < 128 := by
    refine (zpow_lt_zpow_iff_right₀ (one_lt_two (α := ℚ))).1 ((log2Q_bounds hden hnum e).1.trans_lt (h.trans ?_))
    norm_num
  obtain ⟨-, hq⟩ := quanta_bounds (F := FFmt.fp32) (rm := rm) (neg := neg) (e := e) hnum hden
  have hB : FFmt.fp32.binade num den e ≤ 127 := by
    unfold FFmt.binade
    split <;> omega
  rw [FFmt.codeOf, hbias, hf, hmax]
  rw [hf] at hq
  rcases Int.lt_or_eq_of_le hB with hlt | heq
  · have : (FFmt.fp32.binade num den e + 127 - 1).toNat ≤ 252 := by omega
    omega
  · have hlast : (FFmt.fp32.quanta rm neg num den e).1 ≤ 2 ^ 24 - 1 := by
      refine roundNat_le (scale2_den_pos hden _) (Nat.lt_of_not_le fun hle => ?_)
      rw [heq] at hle
      exact absurd ((mul_scale2_le hden).1 hle) (not_le.2 h)
    rw [heq]
    omega

/-- What does not overflow has no use for the saturate bit. -/
theorem round_fp32_sat {rm : Rm} {neg : Bool} {num den : Nat} {e : Int} (hnum : 0 < num) (hden : 0 < den)
    (h : dyadic num den e < ((2 ^ 24 - 1 : Nat) : ℚ) * 2 ^ (104 : Int)) (sat : Bool) :
    FFmt.fp32.round rm sat (.fin neg num den e) = FFmt.fp32.round rm false (.fin neg num den e) := by
  have hc := Nat.not_lt.2 (codeOf_fp32_le (rm := rm) (neg := neg) hnum hden h)
  rw [round_fin, round_fin, if_neg hc, if_neg hc]

/-- A number of a narrow format is one of FP32. -/
theorem round_widened {F : FFmt} (hF : F = FFmt.fp16 ∨ F = FFmt.bf16 ∨ F = FFmt.fe4m3 ∨ F = FFmt.fe5m2) (rm : Rm) (sat : Bool) (x : Nat) :
    FFmt.fp32.round rm sat (F.decode x).toEx = FFmt.fp32.round rm false (F.decode x).toEx := by
  cases hx : F.decode x with
  | nan s => rfl
  | inf n => rfl
  | zero n => rfl
  | fin n m e =>
    obtain ⟨h0, hm, he⟩ := decode_fin_bounds (sound_of_format (.inr hF)) hx
    have key (k : Nat) (hm : m ≤ 255 * 2 ^ k) (he : e ≤ 120 - k) : (m : ℚ) * 2 ^ e ≤ 255 * 2 ^ (120 : Int) := calc
      (m : ℚ) * 2 ^ e ≤ (255 * 2 ^ k : Nat) * 2 ^ (120 - k : Int) :=
        mul_le_mul (by exact_mod_cast hm) (zpow_le_zpow_right₀ one_le_two he) (by positivity) (by positivity)
      _ = 255 * 2 ^ (120 : Int) := by
        rw [Nat.cast_mul, Nat.cast_pow, Nat.cast_two, mul_assoc, ← zpow_natCast, ← zpow_add₀ two_ne_zero, add_sub_cancel, Nat.cast_ofNat]
    have hle : (m : ℚ) * 2 ^ e ≤ 255 * 2 ^ (120 : Int) := by
      rcases hF with rfl | rfl | rfl | rfl
      · exact key 4 (by have : m < 2 ^ 11 := hm; omega) (he.trans (by decide))
      · exact key 0 (by have : m < 2 ^ 8 := hm; omega) (he.trans (by decide))
      · exact key 4 (by have : m < 2 ^ 4 := hm; omega) (he.trans (by decide))
      · exact key 4 (by have : m < 2 ^ 3 := hm; omega) (he.trans (by decide))
    refine round_fp32_sat h0 Nat.one_pos ?_ sat
    rw [dyadic, Nat.cast_one, div_one]
    exact hle.trans_lt (by norm_num)

/-! ## Conversions (R106, R193) -/

theorem toIntF_eq (rm : Rm) (lo hi : Int) (x : FVal) : toIntF rm lo hi x = toInteger rm lo hi x := by
  cases x with
  | nan s => rfl
  | inf n => rfl
  | zero n => rfl
  | fin n k e =>
    simp only [toIntF, toInteger, scale2_eq, Nat.one_mul]
    rfl

/-- An integer as an exact value. -/
theorem toEx_ofInt (i : Int) : (FVal.ofInt i).toEx = if i = 0 then .zero false else .fin (decide (i < 0)) i.natAbs 1 0 := by
  unfold FVal.ofInt
  split <;> rfl

/-- A code in a register, with its flags. -/
def ofCode (r : Nat × Flags) : Word × Flags := (BitVec.ofNat 64 r.1, r.2)

/-- The table "Conversion codes": the narrowing codes round the FP32 number in the register, and the widening ones are exact. -/
theorem fcvtVal_eq_conversion {code : Nat} (hc : code ≤ 12) (rm : Rm) (sat : Bool) (x : Word) :
    fcvtVal code rm sat x.toNat = conversion code rm sat x := by
  have toInt (r r' : Int × Flags) (h : r = r') : (BitVec.ofInt 64 r.1, r.2) = (BitVec.ofInt 64 r'.1, r'.2) := h ▸ rfl
  have ofInt {i j : Int} (h : i = j) : ofCode (FFmt.fp32.round rm false (FVal.ofInt i).toEx)
      = ofCode (FFmt.fp32.round rm false (if j = 0 then .zero false else .fin (decide (j < 0)) j.natAbs 1 0)) := by
    rw [h, toEx_ofInt]
  have down (F : FFmt) : ofCode (F.round rm sat (FFmt.fp32.decode x.toNat).toEx) = ofCode (F.round rm sat (single x).toEx) := by
    rw [single_eq]
  have up (F : FFmt) (hF : F = FFmt.fp16 ∨ F = FFmt.bf16 ∨ F = FFmt.fe4m3 ∨ F = FFmt.fe5m2) :
      ofCode (FFmt.fp32.round rm sat (F.decode x.toNat).toEx) = ofCode (FFmt.fp32.round rm false (F.decode x.toNat).toEx) :=
    congrArg ofCode (round_widened hF rm sat x.toNat)
  match code, hc with
  | 0, _ => exact toInt _ _ (toIntF_eq rm (minInt 32) (maxInt 32) (single x))
  | 1, _ => exact toInt _ _ (toIntF_eq rm (minInt 64) (maxInt 64) (single x))
  | 2, _ => exact ofInt (toSigned_word 32 x)
  | 3, _ => exact ofInt (by rw [toSigned_word, BitVec.setWidth_eq])
  | 4, _ => exact ofInt (by rw [word_mod, BitVec.setWidth_eq])
  | 5, _ => exact down FFmt.fp16
  | 6, _ => exact up FFmt.fp16 (by simp)
  | 7, _ => exact down FFmt.bf16
  | 8, _ => exact up FFmt.bf16 (by simp)
  | 9, _ => exact down FFmt.fe4m3
  | 10, _ => exact up FFmt.fe4m3 (by simp)
  | 11, _ => exact down FFmt.fe5m2
  | 12, _ => exact up FFmt.fe5m2 (by simp)

/-! ## The statement -/

/-- Settles O20: one rounding of the exact result, the selection by bits, the conditions and the conversions, each by its equation. -/
theorem floatingPoint : Obligations.FloatingPoint := by
  intro s g d a b p r c code sat hg hr m x y z R sn un
  exact ⟨lands_of_fOp hg (exec_fadd ..) rfl, lands_of_fOp hg (exec_fsub ..) rfl, lands_of_fOp hg (exec_fmul ..) rfl,
    lands_of_fOp hg (exec_ffma ..) rfl, lands_of_fOp hg (exec_fdiv ..) rfl, lands_of_fOp hg (exec_fsqrt ..) rfl,
    lands_of_fMinMax hg (exec_fmin ..) (minMax_single false _ _), lands_of_fMinMax hg (exec_fmax ..) (minMax_single true _ _),
    fun hc => lands_of_fcmp hg (fcondV_eq hc x y), fun hc => lands_of_fcvt hg (fcvtVal_eq_conversion hc m (sat = 1) _), lands_of_fcvt hg rfl⟩

end Sys2Proof
end

