-- ==== Sys2Proof/Proofs/CountedResults.lean ====
section
/-!
PROOFS. The result and the end of a counted operation on its core, and its late fault (R60, R61, R206, R417).
-/
namespace Sys2Proof
open Machine Claim
set_option Elab.async false

/-! ## Bytes that stay -/

section
variable {s t u : State}

theorem sameMem_of_bytes (hm : t.mem = s.mem) (hh : t.host = s.host) : SameMem s t := fun a => ⟨by rw [hm], by rw [hh]⟩

theorem Claim.SameMem.trans (h : SameMem s t) (h' : SameMem t u) : SameMem s u := fun a => by
  obtain ⟨hm, hh⟩ := h a
  obtain ⟨hm', hh'⟩ := h' a
  exact ⟨hm'.trans hm, hh'.trans hh⟩

theorem Claim.SameMem.onCoreAt {c : Nat} {f : Core → Core} (h : SameMem s t) : SameMem s (t.onCoreAt c f) := h

theorem Claim.SameMem.setCluster {q : Nat} {x : Cluster} (h : SameMem s t) : SameMem s (t.setCluster q x) := h

theorem Claim.SameMem.result {lat slot : Nat} {fl : Flags} {w : RegWrite} (h : SameMem s t) : SameMem s (t.result lat slot fl w) := h

end

/-! ## Registers after a counted result (R60) -/

section
variable (a : Arch) (slot seq : Nat)

theorem loses_target {w w' : RegWrite} (h : w.target = w'.target) : a.loses slot seq w = a.loses slot seq w' := by
  rw [Arch.loses, Arch.loses, h]

/-- The registers before a counted result is written: it has joined the landings of the last cycle. -/
def withLanding (w : RegWrite) : Arch :=
  { a with landed := a.landed ++ [(⟨0, slot, seq, 0, w⟩ : Landing)], olds := a.olds ++ a.oldsOf [(⟨0, slot, seq, 0, w⟩ : Landing)] }

/-- A counted result of a whole register is written unless it loses. -/
theorem wrCounted_of_whole {w w' : RegWrite} (hw : a.wholeLate w = w) (ht : w.target = w'.target) :
    a.wrCounted slot seq w = if a.loses slot seq w' then a else (withLanding a slot seq w).wr w := by
  rw [Arch.wrCounted, hw, loses_target a slot seq ht]
  rfl

theorem rdS_wrCounted_s (d q : SReg) (v : Word) : (a.wrCounted slot seq (.s d v)).rdS q =
    if q = d ∧ d ≠ 0 ∧ (!a.loses slot seq (.s d 0)) = true then v else a.rdS q := by
  rw [wrCounted_of_whole a slot seq (w := .s d v) (w' := .s d 0) rfl rfl]
  cases a.loses slot seq (.s d 0)
  case true => simp
  case false =>
    simp only [Bool.not_false, and_true]
    exact Arch.rdS_wr_s ..

theorem rdA_wrCounted_a (d q : AReg) (v : VAddr) : (a.wrCounted slot seq (.a d v)).rdA q =
    if q = d ∧ d ≠ 0 ∧ (!a.loses slot seq (.a d 0)) = true then v else a.rdA q := by
  rw [wrCounted_of_whole a slot seq (w := .a d v) (w' := .a d 0) rfl rfl]
  cases a.loses slot seq (.a d 0)
  case true => simp
  case false =>
    simp only [Bool.not_false, and_true]
    exact Arch.rdA_wr_a ..

theorem rdV_wrCounted_v (d : VReg) (v : VWord) : (a.wrCounted slot seq (.v d v)).rdV d =
    if a.loses slot seq (.v d 0) then a.rdV d else v := by
  rw [wrCounted_of_whole a slot seq (w := .v d v) (w' := .v d 0) rfl rfl]
  cases a.loses slot seq (.v d 0)
  case true => rfl
  case false => exact (Arch.rdV_wr_v _ d d v).trans (if_pos rfl)

end

section
variable (a : Arch) (k : Ctr)

theorem rdS_dec (r : SReg) : (a.dec k).rdS r = a.rdS r := by cases k <;> rfl

theorem rdA_dec (r : AReg) : (a.dec k).rdA r = a.rdA r := by cases k <;> rfl

theorem rdV_dec (r : VReg) : (a.dec k).rdV r = a.rdV r := by cases k <;> rfl

theorem ctr_dec : (a.dec k).ctr k = if a.ctr k = 0 then 0 else a.ctr k - 1 := by cases k <;> rfl

end

/-- A write of an s, an a or a v register. -/
def WritesFile (w : RegWrite) : Prop := (∃ d v, w = .s d v) ∨ (∃ d v, w = .a d v) ∨ ∃ d v, w = .v d v

theorem ctr_wr_of_file (a : Arch) (k : Ctr) {w : RegWrite} (h : WritesFile w) : (a.wr w).ctr k = a.ctr k := by
  obtain ⟨d, v, rfl⟩ | ⟨d, v, rfl⟩ | ⟨d, v, rfl⟩ := h
  · rw [Arch.wr]
    split <;> cases k <;> rfl
  · rw [Arch.wr]
    split <;> cases k <;> rfl
  · cases k <;> rfl

/-- A counted result leaves the counters: they fall with the end of the operation. -/
theorem ctr_wrCounted (a : Arch) (k : Ctr) (slot seq : Nat) {w : RegWrite} (h : WritesFile w) :
    (a.wrCounted slot seq w).ctr k = a.ctr k := by
  have hw : a.wholeLate w = w := by obtain ⟨d, v, rfl⟩ | ⟨d, v, rfl⟩ | ⟨d, v, rfl⟩ := h <;> rfl
  rw [wrCounted_of_whole a slot seq hw rfl]
  split
  · rfl
  · exact (ctr_wr_of_file _ k h).trans (by cases k <;> rfl)

/-! ## The end of an operation (R61) -/

/-- The end of an operation leaves memory and the clusters. -/
theorem finishOp_frame (s : State) (o : Op) : SameMem s (s.finishOp o) ∧ (s.finishOp o).clusters = s.clusters := by
  unfold State.finishOp
  dsimp only
  split
  · split <;> exact ⟨.refl s, rfl⟩
  · exact ⟨.refl s, rfl⟩

section
variable {s : State} {o : Op} (h : s.onItsCore o = true)
include h

theorem writeDest_onItsCore (w : RegWrite) : s.writeDest o w = s.onOpArch o (·.wrCounted o.slot o.seq w) := if_pos h

/-- The end of an operation on its core: its counter falls there. -/
theorem now_finishOp {k : Ctr} (hk : o.ctr = some k) : ((s.finishOp o).coreAt o.core).now = (s.coreAt o.core).now.dec k := by
  rw [finishOp_onItsCore h hk, now_onOpArch]
  rfl

/-- The result of an operation on its core lands there, and its counter falls. -/
theorem now_writeDest_finishOp {k : Ctr} (hk : o.ctr = some k) (w : RegWrite) :
    (((s.writeDest o w).finishOp o).coreAt o.core).now = ((s.coreAt o.core).now.wrCounted o.slot o.seq w).dec k := by
  rw [writeDest_onItsCore h, now_finishOp (by rw [onItsCore_onOpArch, h]) hk, now_onOpArch]

theorem mem_writeDest (w : RegWrite) : (s.writeDest o w).mem = s.mem := by
  rw [writeDest_onItsCore h]
  rfl

theorem writeDest_finishOp_frame (w : RegWrite) : SameMem s ((s.writeDest o w).finishOp o)
    ∧ ((s.writeDest o w).finishOp o).clusters = s.clusters := by
  obtain ⟨hm, hc⟩ := finishOp_frame (s.writeDest o w) o
  rw [writeDest_onItsCore h] at hm hc ⊢
  exact ⟨hm, hc⟩

/-- A late fault of an operation on its core stands behind those that the core had. -/
theorem lateOp_onItsCore (t : Trap) : SameMem s (s.lateOp o t) ∧ (s.lateOp o t).coreAt o.core = { s.coreAt o.core with
    late := (s.coreAt o.core).late ++ [⟨o.id, o.rtc, o.slot, t.cause, t.reason, t.data, t.va.getD 0, [], t.bank⟩] } := by
  have hs : (s.setOp { o with faulted := true }).onItsCore o = true := h
  unfold State.lateOp
  dsimp only
  rw [if_pos hs]
  exact ⟨.refl s, State.coreAt_setCoreAt_self ..⟩

end

end Sys2Proof
end


-- ==== Sys2Proof/Proofs/AddressArithmetic.lean ====
section
/-!
PROOFS. Address arithmetic and TQRY (R196, R216, R222; O31).
-/
namespace Sys2Proof
open Machine Claim
set_option Elab.async false

/-! ## Each instruction as the shared operation of its form -/

section
variable (g : Guard) (d a : AReg) (b : SReg) (i : BitVec 11) (e : Option Word32) (t : TReg) (s : State)

theorem exec_aadd : exec (.aadd g d a b) s = aOp g d (fun r => r.rdA a + (r.rdS b).signExtend 72) s := rfl

theorem exec_aaddi : exec (.aaddi g d a i e) s = aOp g d (fun r => r.rdA a + immOr 72 i e) s := rfl

theorem exec_asub : exec (.asub g d a b) s = aOp g d (fun r => r.rdA a - (r.rdS b).signExtend 72) s := rfl

theorem exec_amov : exec (.amov g d a b) s = aOp g d (fun r => (r.rdA a).extractLsb' 64 8 ++ r.rdS b) s := rfl

theorem exec_asplitLo : exec (.asplitLo g a b) s = issueF 2 g (fun s => s.result 1 2 0 (.s b ((s.arch.rdA a).truncate 64))) s := rfl

theorem exec_asplitHi : exec (.asplitHi g a b) s =
    issueF 2 g (fun s => s.result 1 2 0 (.s b (((s.arch.rdA a).extractLsb' 64 8).zeroExtend 64))) s := rfl

theorem exec_tqry : exec (.tqry g t b) s = issueF 2 g (fun s =>
    s.result 1 2 0 (.s b (if (s.arch.rdT t).valid then BitVec.ofNat 64 (s.arch.rdT t).bits else 0))) s := rfl

end

section
variable {i : Instr} {s : State} {g : Guard} (hg : s.arch.guardOn 2 g = true)
include hg

theorem lands_of_aOp {d : AReg} {f : Arch → VAddr} {v : VAddr} (hi : exec i s = aOp g d f s) (hv : f s.arch = v) :
    Lands i s 1 2 0 (.a d v) := hv ▸ hi.trans (issueF_on hg)

theorem lands_of_sResult {b : SReg} {f : State → Word} {v : Word} (hi : exec i s = issueF 2 g (fun s => s.result 1 2 0 (.s b (f s))) s)
    (hv : f s = v) : Lands i s 1 2 0 (.s b v) := hv ▸ hi.trans (issueF_on hg)

end

/-! ## The high byte of an address -/

theorem append_high_eq (x : VAddr) (y : Word) : x.extractLsb' 64 8 ++ y = (x >>> 64 <<< 64) ||| y.zeroExtend 72 := by
  refine BitVec.eq_of_getLsbD_eq fun i hi => ?_
  rw [BitVec.getLsbD_append, BitVec.getLsbD_or, BitVec.getLsbD_shiftLeft, BitVec.getLsbD_ushiftRight]
  by_cases h : i < 64
  · simp [h, hi]
  · simp [h, hi, show 64 + (i - 64) = i by omega, show i - 64 < 8 by omega, BitVec.getLsbD_of_ge y i (by omega)]

theorem zeroExtend_high_eq (x : VAddr) : (x.extractLsb' 64 8).zeroExtend 64 = (x >>> 64).truncate 64 := by
  ext i hi
  by_cases h : i < 8
  · simp [h]
  · simp [h, BitVec.getLsbD_of_ge x (64 + i) (by omega)]

/-! ## The descriptor as 64 bits (R216) -/

theorem extractLsb'_ofNat {w lo n : Nat} (x : Nat) (h : lo + n ≤ w) : (BitVec.ofNat w x).extractLsb' lo n = BitVec.ofNat n (x / 2 ^ lo) := by
  refine BitVec.eq_of_getLsbD_eq fun i hi => ?_
  rw [BitVec.getLsbD_extractLsb', BitVec.getLsbD_ofNat, BitVec.getLsbD_ofNat, Nat.testBit_div_two_pow, Nat.add_comm i lo]
  simp [hi, show lo + i < w by omega]

/-- The weights of the fields, of a valid handle. -/
theorem bits_of_valid {d : TDesc} (h : d.valid = true) : d.bits =
    1 + d.clus.toNat * 2 + d.spectral.toNat * 4 + d.fmt.toNat * 2 ^ 4 + d.rowsm1.toNat * 2 ^ 8 + d.rbm1.toNat * 2 ^ 16
      + d.base.toNat * 2 ^ 32 + d.tti.toNat * 2 ^ 48 := by
  cases hc : d.clus <;> cases hs : d.spectral <;> simp [TDesc.bits, h, hc, hs]

/-- What TQRY answers for a valid handle: each field of the descriptor at its place. -/
theorem fields_of_bits {d : TDesc} (h : d.valid = true) : let v : Word := BitVec.ofNat 64 d.bits
    v.getLsbD 0 = true ∧ v.getLsbD 1 = d.clus ∧ v.getLsbD 2 = d.spectral ∧ v.extractLsb' 4 4 = d.fmt ∧ v.extractLsb' 8 8 = d.rowsm1
      ∧ v.extractLsb' 16 12 = d.rbm1 ∧ v.extractLsb' 32 11 = d.base ∧ v.extractLsb' 48 12 = d.tti := by
  have hb := bits_of_valid h
  have hc := d.clus.toNat_lt
  have hs := d.spectral.toNat_lt
  have field {n lo : Nat} (f : BitVec n) (hlo : lo + n ≤ 64) (hf : d.bits / 2 ^ lo % 2 ^ n = f.toNat) :
      (BitVec.ofNat 64 d.bits).extractLsb' lo n = f := by
    rw [extractLsb'_ofNat _ hlo]
    exact BitVec.eq_of_toNat_eq (by rw [BitVec.toNat_ofNat, hf])
  have flag {lo : Nat} (f : Bool) (hlo : lo < 64) (hf : d.bits / 2 ^ lo % 2 = f.toNat) : (BitVec.ofNat 64 d.bits).getLsbD lo = f := by
    rw [BitVec.getLsbD_ofNat, Nat.testBit_eq_decide_div_mod_eq, hf]
    simp [hlo]
  have h4 := d.fmt.isLt
  have h8 := d.rowsm1.isLt
  have h16 := d.rbm1.isLt
  have h32 := d.base.isLt
  have h48 := d.tti.isLt
  exact ⟨flag true (by decide) (by simp only [Bool.toNat_true]; omega), flag _ (by decide) (by omega), flag _ (by decide) (by omega),
    field _ (by decide) (by omega), field _ (by decide) (by omega), field _ (by decide) (by omega), field _ (by decide) (by omega),
    field _ (by decide) (by omega)⟩

/-! ## The statement -/

/-- Settles O31: every form is the shared operation with its value; TQRY gives the fields of the descriptor. -/
theorem addressArithmetic : Obligations.AddressArithmetic := by
  intro s g d a b i e t hg x y td
  exact ⟨lands_of_aOp hg (exec_aadd ..) rfl, lands_of_aOp hg (exec_aaddi ..) (congrArg (x + ·) (immOr_eq_imm ..)),
    lands_of_aOp hg (exec_asub ..) rfl, lands_of_aOp hg (exec_amov ..) (append_high_eq x y), lands_of_sResult hg (exec_asplitLo ..) rfl,
    lands_of_sResult hg (exec_asplitHi ..) (zeroExtend_high_eq x),
    fun hv => lands_of_sResult hg (exec_tqry ..) (if_neg (by simpa using hv)),
    fun hv => ⟨_, lands_of_sResult hg (exec_tqry ..) (if_pos hv), fields_of_bits hv⟩⟩

end Sys2Proof
end

