-- ==== Sys2Proof/Proofs/TileHandles.lean ====
section
/-!
PROOFS. TALLOC and TFREE (R216, R217, R219 to R221, R223; O34). What an allocation finds is stated apart from what it leaves: the lowest run of
free units, the lowest free tile-table entry, and the state with the tile made.
-/
namespace Sys2Proof
open Machine Claim
set_option Elab.async false

/-! ## The lowest run of free units (R220) -/

/-- The least number of a list, none of the empty one. -/
theorem leastNat_spec (l : List Nat) : (leastNat l = none ∧ l = []) ∨ ∃ m ∈ l, leastNat l = some m ∧ ∀ x ∈ l, m ≤ x := by
  induction l with
  | nil => exact .inl ⟨rfl, rfl⟩
  | cons x r ih =>
    refine .inr ?_
    rcases ih with ⟨he, rfl⟩ | ⟨m, hm, he, hmin⟩
    · exact ⟨x, List.mem_cons_self, by simp [leastNat], by simp⟩
    · rcases Nat.le_total x m with h | h
      · refine ⟨x, List.mem_cons_self, by simp [leastNat, he, h], ?_⟩
        rintro y (_ | ⟨_, hy⟩)
        · exact Nat.le_refl _
        · exact h.trans (hmin y hy)
      · refine ⟨m, List.mem_cons_of_mem _ hm, ?_, ?_⟩
        · simp only [leastNat, he, Option.some.injEq]
          split <;> omega
        · rintro y (_ | ⟨_, hy⟩)
          · exact h
          · exact hmin y hy

theorem leastNat_eq_some {l : List Nat} {b : Nat} (hb : b ∈ l) (h : ∀ x ∈ l, b ≤ x) : leastNat l = some b := by
  rcases leastNat_spec l with ⟨-, rfl⟩ | ⟨m, hm, he, hmin⟩
  · cases hb
  · rw [he, Nat.le_antisymm (hmin b hb) (h m hm)]

section
variable {used : List (Nat × Nat)} {total units b : Nat}

theorem fits_iff : fits used total units b = true ↔ b + units ≤ total ∧ ∀ u ∈ used, b + units ≤ u.1 ∨ u.1 + u.2 ≤ b := by
  simp [fits]

theorem lowestRun_none (h : ∀ b, fits used total units b = false) : lowestRun used total units = none := by
  have hnil : (0 :: used.map (fun u => u.1 + u.2)).filter (fits used total units) = [] :=
    List.filter_eq_nil_iff.2 fun b _ => by simp [h b]
  rw [lowestRun, hnil]
  rfl

/-- The lowest run that fits starts at unit 0 or where a taken run ends: one unit lower, a taken run is in the way. -/
theorem lowest_fit_start (hb : fits used total units b = true) (hmin : ∀ b' < b, fits used total units b' = false) :
    b ∈ 0 :: used.map (fun u => u.1 + u.2) := by
  cases b with
  | zero => exact List.mem_cons_self
  | succ n =>
    obtain ⟨htot, hall⟩ := fits_iff.1 hb
    have hn : ¬ (n + units ≤ total ∧ ∀ u ∈ used, n + units ≤ u.1 ∨ u.1 + u.2 ≤ n) := by
      rw [← fits_iff, hmin n (Nat.lt_succ_self n)]
      decide
    obtain ⟨u, hu, h1, h2⟩ : ∃ u ∈ used, ¬ n + units ≤ u.1 ∧ ¬ u.1 + u.2 ≤ n := by
      by_contra hno
      refine hn ⟨by omega, fun u hu => ?_⟩
      by_contra hu'
      rw [not_or] at hu'
      exact hno ⟨u, hu, hu'⟩
    have hend : u.1 + u.2 = n + 1 := by
      have := hall u hu
      omega
    exact List.mem_cons_of_mem _ (List.mem_map.2 ⟨u, hu, hend⟩)

theorem lowestRun_some (hb : fits used total units b = true) (hmin : ∀ b' < b, fits used total units b' = false) :
    lowestRun used total units = some b := by
  refine leastNat_eq_some (List.mem_filter.2 ⟨lowest_fit_start hb hmin, hb⟩) fun x hx => ?_
  by_contra hlt
  have := hmin x (Nat.lt_of_not_le hlt)
  rw [(List.mem_filter.1 hx).2] at this
  cases this

end

/-! ## The lowest free tile-table entry (R220) -/

theorem firstIdx_none {f : Nat → Bool} {n i : Nat} (h : ∀ j, i ≤ j → j < i + n → f j = false) : firstIdx f n i = none := by
  induction n generalizing i with
  | zero => rfl
  | succ n ih =>
    rw [firstIdx, h i (Nat.le_refl i) (by omega), if_neg (by decide)]
    exact ih fun j h1 h2 => h j (by omega) (by omega)

theorem firstIdx_some {f : Nat → Bool} {n i j : Nat} (h1 : i ≤ j) (h2 : j < i + n) (hj : f j = true) (h : ∀ k, i ≤ k → k < j → f k = false) :
    firstIdx f n i = some j := by
  induction n generalizing i with
  | zero => omega
  | succ n ih =>
    rw [firstIdx]
    rcases Nat.eq_or_lt_of_le h1 with rfl | hlt
    · rw [if_pos hj]
    · rw [h i (Nat.le_refl i) hlt, if_neg (by decide)]
      exact ih hlt (by omega) fun k hk1 hk2 => h k (by omega) hk2

/-- An entry that another core may get back is a live one. -/
theorem live_of_reserved {s : State} {c : Nat} : ∀ e ∈ s.reserved c, e.2.live = true := by
  intro e he
  obtain ⟨x, -, he⟩ := List.mem_flatMap.1 he
  rcases List.mem_append.1 he with he | he
  · exact (List.mem_filter.1 he).2
  · obtain ⟨m, -, rfl⟩ := List.mem_map.1 he
    rfl

/-- Setting live entries leaves a live entry live. -/
theorem live_foldl_set {l : List (Nat × TtEntry)} (hl : ∀ e ∈ l, e.2.live = true) {m : SMap TtEntry} {i : Nat}
    (h : (SMap.get {} m i).live = true) : (SMap.get {} (l.foldl (fun m e => SMap.set {} m e.1 e.2) m) i).live = true :=
  l.foldlRecOn (motive := fun m : SMap TtEntry => (SMap.get {} m i).live = true) _ h fun m hm e he => by
    rw [SMap.get_set]
    split
    · exact hl e he
    · exact hm

theorem freeTti_none {k : Cluster} (h : ∀ i < 4096, (SMap.get {} k.tt i).live = true) : k.freeTti = none :=
  firstIdx_none fun j _ hj => by simp [h j (by omega)]

theorem freeTti_some {k : Cluster} {i : Nat} (hi : i < 4096) (hf : (SMap.get {} k.tt i).live = false)
    (h : ∀ j < i, (SMap.get {} k.tt j).live = true) : k.freeTti = some i :=
  firstIdx_some (Nat.zero_le i) (by omega) (by simp [hf]) fun j _ hj => by simp [h j hj]

/-! ## What an allocation finds (R220) -/

/-- The continuation at work holds as many handles as TILEQ. -/
def handlesFull (s : State) : Prop := (s.mcAt s.core.mc).tileq.toNat ≤ (s.arch.t.filter (fun e => e.2.valid)).length

section
variable {s : State} {want : TDesc}

theorem tallocFind_full (h : handlesFull s) : s.tallocFind s.cur want = (3, {}) := if_pos h

section
variable (hn : ¬ handlesFull s)
include hn

theorem tallocFind_noEntry (hc : want.clus = true) (h : ∀ i < 4096, (SMap.get {} (s.clusterAt (clusterOfCore s.cur)).tt i).live = true) :
    s.tallocFind s.cur want = (2, {}) := by
  have hfree := freeTti_none (k := { s.clusterAt (clusterOfCore s.cur) with
    tt := (s.reserved s.cur).foldl (fun m e => SMap.set {} m e.1 e.2) (s.clusterAt (clusterOfCore s.cur)).tt })
    fun i hi => live_foldl_set live_of_reserved (h i hi)
  exact (if_neg hn).trans ((if_pos hc).trans (by rw [hfree]))

theorem tallocFind_noRoom (hc : want.clus = false) (h : ∀ b, fits s.arch.privUsed 128 want.units b = false) :
    s.tallocFind s.cur want = (1, {}) := by
  have hrun : lowestRun (s.coreAt s.cur).now.privUsed 128 want.units = none := lowestRun_none h
  exact (if_neg hn).trans ((if_neg (Bool.eq_false_iff.1 hc)).trans (by rw [hrun]))

theorem tallocFind_priv {b : Nat} (hc : want.clus = false) (hb : fits s.arch.privUsed 128 want.units b = true)
    (hmin : ∀ b' < b, fits s.arch.privUsed 128 want.units b' = false) :
    s.tallocFind s.cur want = (0, { want with valid := true, base := BitVec.ofNat 11 b }) := by
  have hrun : lowestRun (s.coreAt s.cur).now.privUsed 128 want.units = some b := lowestRun_some hb hmin
  exact (if_neg hn).trans ((if_neg (Bool.eq_false_iff.1 hc)).trans (by rw [hrun]))

theorem tallocFind_clus {b i : Nat} (hc : want.clus = true) (hr : s.reserved s.cur = []) (hi : i < 4096)
    (hf : (SMap.get {} (s.clusterAt (clusterOfCore s.cur)).tt i).live = false)
    (hlow : ∀ j < i, (SMap.get {} (s.clusterAt (clusterOfCore s.cur)).tt j).live = true)
    (hb : fits (s.clusterAt (clusterOfCore s.cur)).clusUsed ((s.clusterAt (clusterOfCore s.cur)).tways.toNat * 128) want.units b = true)
    (hmin : ∀ b' < b,
      fits (s.clusterAt (clusterOfCore s.cur)).clusUsed ((s.clusterAt (clusterOfCore s.cur)).tways.toNat * 128) want.units b' = false) :
    s.tallocFind s.cur want = (0, { want with valid := true, base := BitVec.ofNat 11 b, tti := BitVec.ofNat 12 i }) := by
  have hfree : ({ s.clusterAt (clusterOfCore s.cur) with tt := (s.clusterAt (clusterOfCore s.cur)).tt } : Cluster).freeTti = some i :=
    freeTti_some hi hf hlow
  refine (if_neg hn).trans ((if_pos hc).trans ?_)
  simp only [hr, List.foldl_nil, List.map_nil, List.append_nil, hfree, lowestRun_some hb hmin]

end

/-! ## The outcome of an allocation -/

/-- An update of the core at work that leaves its registers alone. -/
theorem arch_onCoreAt {s : State} {c : Nat} {f : Core → Core} (hc : s.cur = c) (hf : ∀ x, (f x).now = x.now) :
    (s.onCoreAt c f).arch = s.arch := by
  subst hc
  exact (congrArg Core.now (State.coreAt_setCoreAt_self s s.cur _)).trans (hf _)

/-- The core at work keeps the outcome of an allocation for a rollback (R223). -/
def allocNoted (s : State) (want : TDesc) (st : Nat) (d : TDesc) (rest : List (TDesc × Nat × TDesc)) : State :=
  s.onCoreAt s.cur (fun y => { y with made := (want, st, d) :: y.made, remake := rest })

theorem arch_allocNoted (s : State) (want : TDesc) (st : Nat) (d : TDesc) (rest : List (TDesc × Nat × TDesc)) :
    (allocNoted s want st d rest).arch = s.arch := arch_onCoreAt rfl fun _ => rfl

/-- One that a rollback executes again has the outcome that it had. -/
theorem talloc_again {st : Nat} {d : TDesc} {rest : List (TDesc × Nat × TDesc)} (h : s.core.remake = (want, st, d) :: rest) (hst : st ≠ 0) :
    s.talloc s.cur want = (st, d, allocNoted s want st d rest) := by
  have h : (s.coreAt s.cur).remake = (want, st, d) :: rest := h
  simp only [State.talloc, h, beq_self_eq_true, if_true, if_neg hst]
  rfl

theorem talloc_first {st : Nat} {d : TDesc} (h : s.core.remake = []) (hf : s.tallocFind s.cur want = (st, d)) :
    s.talloc s.cur want = (st, d, if st = 0 then (allocNoted s want st d []).makeTile s.cur d else allocNoted s want st d []) := by
  have h : (s.coreAt s.cur).remake = [] := h
  simp only [State.talloc, h, hf]
  rfl

end

/-! ## The issue of a TALLOC -/

/-- The latency of the result (R220). -/
def tallocLat (tx : TallocX) : Nat := if tx.level = 1 then 24 else 6

section
variable {s : State} {g : Guard} {t : TReg} {x : SReg} {tx : TallocX} (hg : s.arch.guardOn 2 g = true)
include hg

theorem talloc_traps (hv : (s.arch.rdT t).valid = true) (hk : s.checked = false) :
    exec (.talloc g t x tx) s = .next (s.takeTrap s.cur 2 { cause := 41, reason := 1, data := t.zeroExtend 32 }) := by
  change execTalloc g t x tx s = _
  rw [execTalloc]
  exact issue_trap hg hk (by rw [hv]; rfl)

theorem talloc_issues {st : Nat} {d : TDesc} {u : State} (hv : (s.arch.rdT t).valid = false)
    (h : s.talloc s.cur (tallocWant tx) = (st, d, u)) : Issues (.talloc g t x tx) s
      ((if st = 0 then u.result (tallocLat tx) 2 0 (.t t d) else u).result (tallocLat tx) 2 0 (.s x (BitVec.ofNat 64 st))) := by
  change execTalloc g t x tx s = _
  rw [execTalloc, issue_on hg (.inr ⟨by rw [hv]; rfl, rfl⟩)]
  simp only [h, tallocLat, beq_iff_eq]

/-- One without a tile lands its status alone. -/
theorem talloc_fails {st : Nat} {d : TDesc} {rest : List (TDesc × Nat × TDesc)} (hv : (s.arch.rdT t).valid = false) (hst : st ≠ 0)
    (h : s.talloc s.cur (tallocWant tx) = (st, d, allocNoted s (tallocWant tx) st d rest)) : Issues (.talloc g t x tx) s
      ((allocNoted s (tallocWant tx) st d rest).result (tallocLat tx) 2 0 (.s x (BitVec.ofNat 64 st))) := by
  have := talloc_issues (x := x) hg hv h
  rwa [if_neg hst] at this

theorem talloc_finds_none {st : Nat} {d : TDesc} (hv : (s.arch.rdT t).valid = false) (hr : s.core.remake = []) (hst : st ≠ 0)
    (hf : s.tallocFind s.cur (tallocWant tx) = (st, d)) : Issues (.talloc g t x tx) s
      ((allocNoted s (tallocWant tx) st d []).result (tallocLat tx) 2 0 (.s x (BitVec.ofNat 64 st))) :=
  talloc_fails hg hv hst (by rw [talloc_first hr hf, if_neg hst])

/-- One with a tile makes it, and lands the descriptor and the status 0. -/
theorem talloc_makes {d : TDesc} (hv : (s.arch.rdT t).valid = false) (hr : s.core.remake = [])
    (hf : s.tallocFind s.cur (tallocWant tx) = (0, d)) : Issues (.talloc g t x tx) s
      ((((allocNoted s (tallocWant tx) 0 d []).makeTile s.cur d).result (tallocLat tx) 2 0 (.t t d)).result (tallocLat tx) 2 0 (.s x 0)) := by
  have := talloc_issues (x := x) hg hv (talloc_first hr hf)
  rwa [if_pos rfl, if_pos rfl] at this

end

/-! ## The state with the tile made (R219, R220) -/

section
variable {s : State} {d : TDesc} {c : Nat}

theorem arch_makeTile_priv (hc : s.cur = c) (hd : d.clus = false) : (s.makeTile c d).arch = { s.arch with
    priv := SMap.clear s.arch.priv (4096 * d.base.toNat) (4096 * d.units)
    badPriv := s.arch.badPriv.filter (fun u => !(decide (64 * d.base.toNat ≤ u) && decide (u < 64 * (d.base.toNat + d.units)))) } := by
  subst hc
  rw [State.makeTile, if_neg (by simp [hd])]
  exact now_onArchAt s s.cur _

theorem sameMem_makeTile (s : State) (c : Nat) (d : TDesc) : SameMem s (s.makeTile c d) := by
  rw [State.makeTile]
  split
  · exact (SameMem.refl s).onCoreAt.onCoreAt.setCluster
  · exact (SameMem.refl s).onCoreAt

theorem sameMem_made (s : State) (want : TDesc) (st : Nat) (d d' : TDesc) (rest : List (TDesc × Nat × TDesc)) (c : Nat) :
    SameMem s ((allocNoted s want st d rest).makeTile c d') :=
  Claim.SameMem.trans (t := allocNoted s want st d rest) (SameMem.refl s).onCoreAt (sameMem_makeTile (allocNoted s want st d rest) c d')

theorem arch_noteTile (s : State) (i : Nat) : (s.noteTile s.cur i).arch = s.arch := arch_onCoreAt rfl fun _ => rfl

theorem arch_makeTile_clus (hc : s.cur = c) (hd : d.clus = true) : (s.makeTile c d).arch = s.arch := by
  subst hc
  rw [State.makeTile, if_pos hd]
  extract_lets u k
  change u.arch = s.arch
  refine Eq.trans (b := (s.noteTile s.cur d.tti.toNat).arch) ?_ (arch_noteTile ..)
  exact arch_onCoreAt rfl fun _ => rfl

theorem live_makeTile_clus {i : Nat} (hd : d.clus = true) (hi : d.tti.toNat = i) :
    (SMap.get {} ((s.makeTile c d).clusterAt (clusterOfCore c)).tt i).live = true := by
  subst hi
  rw [State.makeTile, if_pos hd, State.clusterAt_setCluster, if_pos rfl]
  dsimp only
  rw [SMap.get_set_self]

end

/-! ## Two results in flight -/

theorem fly_fly1_fly1 (a : Arch) (lat slot : Nat) (v w : RegWrite) :
    ((a.fly1 lat slot 0 v).fly1 lat slot 0 w).fly = a.fly ++ [⟨lat, slot, a.seq, 0, v⟩, ⟨lat, slot, a.seq + 1, 0, w⟩] := by
  simp [Arch.fly1]

/-! ## TFREE (R221) -/

section
variable {s : State} {t : TReg}

theorem tfree_priv (hv : (s.arch.rdT t).valid = true) (hc : (s.arch.rdT t).clus = false) :
    s.tfree s.cur t = s.onArchAt s.cur (fun a => { a with zombies := s.freed s.cur t :: a.zombies }) := by
  have hv : ((s.coreAt s.cur).now.rdT t).valid = true := hv
  have hc : ((s.coreAt s.cur).now.rdT t).clus = false := hc
  simp [State.tfree, hv, hc]

theorem tfree_clus (hv : (s.arch.rdT t).valid = true) (hc : (s.arch.rdT t).clus = true) :
    s.tfree s.cur t = (s.noteTile s.cur (s.freed s.cur t).tti).freeClus (clusterOfCore s.cur) (s.freed s.cur t) := by
  have hv : ((s.coreAt s.cur).now.rdT t).valid = true := hv
  have hc : ((s.coreAt s.cur).now.rdT t).clus = true := hc
  simp [State.tfree, hv, hc]

theorem zombies_freeClus (q : Nat) (z : Zombie) : ((s.freeClus q z).clusterAt q).zombies = z :: (s.clusterAt q).zombies := by
  rw [State.freeClus, State.clusterAt_setCluster, if_pos rfl]

end

section
variable {s : State} {g : Guard} {t : TReg} (hg : s.arch.guardOn 2 g = true)
include hg

theorem tfree_issues (hv : (s.arch.rdT t).valid = true) : Issues (.tfree g t) s ((s.tfree s.cur t).result 1 2 0 (.t t {})) := by
  change execTfree g t s = _
  rw [execTfree, issueF_on hg, if_pos hv]

theorem tfree_of_invalid (hv : (s.arch.rdT t).valid = false) : Issues (.tfree g t) s s := by
  change execTfree g t s = _
  rw [execTfree, issueF_on hg, if_neg (by simp [hv])]

/-- The handle becomes invalid after one cycle, and its units are those of a freed tile. -/
theorem tfree_frees (hv : (s.arch.rdT t).valid = true) :
    ∃ u, Issues (.tfree g t) s u ∧ u.arch.fly = s.arch.fly ++ [⟨1, 2, s.arch.seq, 0, .t t {}⟩] ∧ SameMem s u
      ∧ ((s.arch.rdT t).clus = false → u.arch.zombies = s.freed s.cur t :: s.arch.zombies)
      ∧ ((s.arch.rdT t).clus = true → (u.clusterAt (clusterOfCore s.cur)).zombies
          = s.freed s.cur t :: (s.clusterAt (clusterOfCore s.cur)).zombies) := by
  refine ⟨_, tfree_issues hg hv, ?_⟩
  rw [State.arch_result]
  cases hc : (s.arch.rdT t).clus
  case false =>
    have ha := now_onArchAt s s.cur (fun a => { a with zombies := s.freed s.cur t :: a.zombies })
    rw [tfree_priv hv hc]
    change (s.onArchAt s.cur _).arch = _ at ha
    rw [ha]
    exact ⟨rfl, (SameMem.refl s).onCoreAt.result, fun _ => rfl, fun h => by cases h⟩
  case true =>
    have ha : ((s.noteTile s.cur (s.freed s.cur t).tti).freeClus (clusterOfCore s.cur) (s.freed s.cur t)).arch = s.arch := arch_noteTile s _
    rw [tfree_clus hv hc, ha]
    exact ⟨rfl, (SameMem.refl s).onCoreAt.setCluster.result, fun h => (by cases h),
      fun _ => zombies_freeClus (s := s.noteTile s.cur (s.freed s.cur t).tti) _ _⟩

end

/-! ## The statement -/

/-- Settles O34: the issue of TALLOC by what the allocation finds, and TFREE by the kind of the tile. -/
theorem tileHandles : Obligations.TileHandles := by
  intro s g t x tx hg lat full want fails
  refine ⟨talloc_traps hg, fun hv st d rest hst hr => talloc_fails hg hv hst (talloc_again hr hst), fun hv hr => ?_, tfree_frees hg,
    tfree_of_invalid hg⟩
  have hclus (h : tx.level = 1) : want.clus = true := by simp [want, h]
  have hpriv (h : tx.level = 0) : want.clus = false := by simp [want, h]
  refine ⟨fun hf => talloc_finds_none hg hv hr (by decide) (tallocFind_full hf),
    fun hn hl h => talloc_finds_none hg hv hr (by decide) (tallocFind_noEntry hn (hclus hl) h),
    fun hn hl h => talloc_finds_none hg hv hr (by decide) (tallocFind_noRoom hn (hpriv hl) h), fun b hn hl hb hmin => ?priv,
    fun b i hn hl hres hi hf hlow hb hmin => ?clus⟩
  case priv =>
    have hd : ({ tallocWant tx with valid := true, base := BitVec.ofNat 11 b } : TDesc).clus = false := hpriv hl
    have hlat : tallocLat tx = 6 := by simp [tallocLat, hl]
    have hbase : (BitVec.ofNat 11 b).toNat = b := by
      have := (fits_iff.1 hb).1
      rw [BitVec.toNat_ofNat, Nat.mod_eq_of_lt (by omega)]
    have hi := talloc_makes (x := x) hg hv hr (tallocFind_priv hn (hpriv hl) hb hmin)
    refine ⟨_, hi, ?_⟩
    rw [State.arch_result, State.arch_result, hlat, fly_fly1_fly1, arch_makeTile_priv (s := allocNoted ..) (c := s.cur) rfl hd,
      arch_allocNoted]
    refine ⟨rfl, fun j => ?_, (sameMem_made _ _ _ _ _ _ _).result.result⟩
    change SMap.get 0 (SMap.clear s.arch.priv (4096 * (BitVec.ofNat 11 b).toNat) (4096 * want.units)) j = _
    rw [SMap.get_clear, hbase, ← Nat.mul_add]
  case clus =>
    have hd : ({ tallocWant tx with valid := true, base := BitVec.ofNat 11 b, tti := BitVec.ofNat 12 i } : TDesc).clus = true := hclus hl
    have hlat : tallocLat tx = 24 := by simp [tallocLat, hl]
    have htti : (BitVec.ofNat 12 i).toNat = i := by rw [BitVec.toNat_ofNat, Nat.mod_eq_of_lt (by omega)]
    refine ⟨_, talloc_makes (x := x) hg hv hr (tallocFind_clus hn (hclus hl) hres hi hf hlow hb hmin), ?_⟩
    rw [State.arch_result, State.arch_result, hlat, fly_fly1_fly1, arch_makeTile_clus (s := allocNoted ..) (c := s.cur) rfl hd,
      arch_allocNoted]
    exact ⟨rfl, live_makeTile_clus (s := allocNoted ..) hd htti, (sameMem_made _ _ _ _ _ _ _).result.result⟩

end Sys2Proof
end

