-- ==== Sys2Proof/Proofs/Traps.lean ====
section
/-!
PROOFS. Taking a trap (R173, R205, R291, R418; O29): the freeze of its core, the marks of its continuation, and the delivery of its cause, which
leaves both as they are.
-/
namespace Sys2Proof
open Machine Claim
set_option Elab.async false

/-! ## The delivery of a cause (R418, R419) -/

section
variable {r s : State}

theorem SameBooks.trapEvent {mc fs info resume t} (h : SameBooks r s) : SameBooks r (s.trapEvent mc fs info resume t) := by
  unfold State.trapEvent
  split
  · exact h.postRecord
  · exact h.postRecord

theorem SameBooks.deliver {k resume info t} (h : SameBooks r s) : SameBooks r (s.deliver k resume info t) := .ite h.trapEvent h

theorem SameTables.verdict {v : Verdict} (h : SameTables r s) : SameTables r { s with verdict := v } := h

theorem SameBooks.verdict {v : Verdict} (h : SameBooks r s) : SameBooks r { s with verdict := v } := h

theorem verdict_sendMsi (s : State) (fn v : Nat) : (s.sendMsi fn v).verdict = s.verdict := by
  rw [State.sendMsi]
  split <;> rfl

theorem verdict_postRecord (s : State) (fn n : Nat) (compl : Bool) (lostAt : Nat) (rec : List Byte) :
    (s.postRecord fn n compl lostAt rec).verdict = s.verdict := by
  have hferr (u : State) (code datum : Nat) : (u.setFerr fn code datum).verdict = u.verdict := by
    unfold State.setFerr
    dsimp only
    split
    · rfl
    · exact verdict_sendMsi ..
  have hring (u : State) : (u.ringSignal fn n).verdict = u.verdict := by
    unfold State.ringSignal
    dsimp only
    split
    · exact verdict_sendMsi ..
    · rfl
  unfold State.postRecord
  simp only [apply_ite State.verdict, hferr, hring, State.setFunc_verdict, State.hostAs, ite_self]

theorem verdict_deliver (s : State) (k resume : Nat) (info : Word) (t : Trap) : (s.deliver k resume info t).verdict = s.verdict := by
  have hevent : (s.trapEvent (k / 4096) (k % 4096) info resume t).verdict = s.verdict := by
    unfold State.trapEvent
    split
    · exact verdict_postRecord ..
    · exact verdict_postRecord ..
  unfold State.deliver
  dsimp only
  split
  · exact hevent
  · rfl

end

/-! ## TRAPINFO (R173) -/

/-- The fields of TRAPINFO, from the cause up. -/
theorem fields_of_trapInfoOf {fslot slot : Nat} {t : Trap} (hs : slot < 8) (hc : t.cause < 128) (hr : t.reason < 16) :
    let i := trapInfoOf fslot slot t
    i.extractLsb' 0 7 = BitVec.ofNat 7 t.cause ∧ i.extractLsb' 7 1 = 0 ∧ i.extractLsb' 8 3 = BitVec.ofNat 3 slot
      ∧ i.extractLsb' 11 5 = 0 ∧ i.extractLsb' 16 4 = BitVec.ofNat 4 t.reason ∧ i.extractLsb' 20 12 = BitVec.ofNat 12 fslot
      ∧ i.extractLsb' 32 32 = t.data := by
  have hd := t.data.isLt
  have field {lo n v : Nat} (hlo : lo + n ≤ 64) (hv : (t.data.toNat * 2 ^ 32 + fslot % 4096 * 2 ^ 20 + t.reason % 16 * 2 ^ 16
      + slot % 8 * 2 ^ 8 + t.cause % 128) / 2 ^ lo % 2 ^ n = v % 2 ^ n) : (trapInfoOf fslot slot t).extractLsb' lo n = BitVec.ofNat n v := by
    rw [trapInfoOf, extractLsb'_ofNat _ hlo]
    exact BitVec.eq_of_toNat_eq (by rw [BitVec.toNat_ofNat, BitVec.toNat_ofNat, hv])
  have hdata : BitVec.ofNat 32 t.data.toNat = t.data := BitVec.eq_of_toNat_eq (by simp)
  refine ⟨field (by decide) ?_, field (v := 0) (by decide) ?_, field (by decide) ?_, field (v := 0) (by decide) ?_, field (by decide) ?_,
    field (by decide) ?_, (field (by decide) ?_).trans hdata⟩ <;> omega

/-! ## A trap that is taken at once (R418) -/

section
variable (s : State) (c slot : Nat) (t : Trap) (late : Option Late)

theorem coreAt_countTrap (mc b cause d : Nat) : (s.countTrap mc b cause).coreAt d = s.coreAt d := by
  rw [State.coreAt, State.countTrap, State.onBind, State.setBind_cores, State.onMc, State.setMc_cores, State.coreAt]

/-- Continuation `k` is TRAPPED with its TRAPINFO. -/
def markTrapped (k : Nat) (info : Word) : State :=
  { (s.onCont k (fun y => { y with trapinfo := info })).setContState k .trapped with verdict := .trapped }

theorem contAt_markTrapped (k : Nat) (info : Word) :
    (markTrapped s k info).contAt k = { s.contAt k with trapinfo := info, state := .trapped } := by
  have h : (s.onCont k (fun y => { y with trapinfo := info })).contAt k = { s.contAt k with trapinfo := info } :=
    (contAt_onCont ..).trans (if_pos rfl)
  have hv : SameBooks ((s.onCont k (fun y => { y with trapinfo := info })).setContState k .trapped) (markTrapped s k info) :=
    (SameBooks.refl _).verdict
  rw [hv.contAt, contAt_setContState, if_pos rfl, h]

/-- What a frozen continuation is once it is TRAPPED and its cause delivered. -/
theorem markTrapped_deliver {k : Nat} (resume : Nat) (info : Word) (h : FrozenOff s c k) :
    let u := (markTrapped s k info).deliver k resume info t
    u.verdict = .trapped ∧ (u.coreAt c).running = false ∧ (u.contAt k).state = .trapped ∧ (u.contAt k).frozen = true
      ∧ (u.contAt k).trapinfo = info := by
  obtain ⟨hrun, hfro, -⟩ := h
  have hb : SameBooks (markTrapped s k info) ((markTrapped s k info).deliver k resume info t) := (SameBooks.refl _).deliver
  have ht : SameTables s (markTrapped s k info) := (SameTables.refl s).onCont.setContState.verdict
  refine ⟨verdict_deliver .., ((hb.tables.running c).trans (ht.running c)).trans hrun, ?_⟩
  rw [hb.contAt, contAt_markTrapped]
  exact ⟨rfl, hfro, rfl⟩

/-- A trap that is taken at once: its core is released, and its continuation is TRAPPED and frozen with its TRAPINFO. -/
theorem trapNow_spec : let u := s.trapNow c slot t late
    u.verdict = .trapped ∧ (u.coreAt c).running = false ∧ (u.contAt (s.keyOf c)).state = .trapped
      ∧ (u.contAt (s.keyOf c)).frozen = true ∧ (u.contAt (s.keyOf c)).trapinfo = trapInfoOf (s.coreAt c).fslot slot t := by
  have hk : (s.countTrap (s.coreAt c).mc (s.coreAt c).bind t.cause).keyOf c = s.keyOf c := by
    rw [State.keyOf, coreAt_countTrap, State.keyOf]
  have hfro := frozenOff_freezeCoreWith (s.countTrap (s.coreAt c).mc (s.coreAt c).bind t.cause) c late
  rw [hk] at hfro
  exact markTrapped_deliver _ c t _ _ hfro

end

/-! ## The statement -/

section
variable {s : State} {c slot : Nat} {t : Trap} (ha : s.frameAsleep (s.coreAt c).mc (s.coreAt c).fslot = false)
include ha

theorem takeTrap_pending (hp : s.foldPending c = true) :
    s.takeTrap c slot t = { s.stopAt c (.trap slot t none) with verdict := .trapped } := by
  rw [State.takeTrap, State.takeTrapOf]
  dsimp only
  rw [if_neg (by simp [ha]), if_pos hp]

theorem takeTrap_now (hp : s.foldPending c = false) : s.takeTrap c slot t = s.trapNow c slot t none := by
  rw [State.takeTrap, State.takeTrapOf]
  dsimp only
  rw [if_neg (by simp [ha]), if_neg (by simp [hp])]

/-- A trap that waits for the end of its cycle is taken when the cycle ends. -/
theorem stopNow_trap {n m : Nat} (hs : (s.coreAt c).stop = some (n, .trap slot t none)) (hn : n ≤ m) :
    s.stopNow c m = (s.onCoreAt c (fun y => { y with stop := none })).trapNow c slot t none := by
  simp only [State.stopNow, hs]
  rw [if_neg (Nat.not_lt.2 hn), if_neg (by rw [State.frameOff, ha]; decide)]

end

/-- Settles O29. -/
theorem trapTaken : Obligations.TrapTaken := by
  intro s c slot t hslot hcause hreason x k u
  refine ⟨fun ha => if_pos ha, takeTrap_pending, fun n m ha hs hn => stopNow_trap ha hs hn, fun ha hp => ?_⟩
  obtain ⟨hv, hr, hst, hf, hi⟩ := trapNow_spec s c slot t none
  rw [← takeTrap_now ha hp] at hv hr hst hf hi
  have hk : s.keyOf c = k := rfl
  rw [hk] at hst hf hi
  refine ⟨hv, hr, hst, hf, ?_⟩
  rw [hi]
  exact fields_of_trapInfoOf hslot hcause hreason

end Sys2Proof
end

