-- ==== Sys2Proof/Proofs/TileAccesses.lean ====
section
/-!
PROOFS. The completion of a counted access to a CLUS tile (R219, R248 to R250; O39).
-/
namespace Sys2Proof
open Machine Claim
set_option Elab.async false

section
variable {s : State} {o : Op}

theorem exec_tileAccessComplete (ho : s.opAt o.id = some o) (hk : o.kind = .tile) :
    exec (.tileAccessComplete o.id) s = .next (s.tileComplete o) := by
  change execTileAccessComplete o.id s = _
  simp [execTileAccessComplete, ho, hk]

/-- An access whose tile-table entry does not name the binding takes its late fault. -/
theorem tileRun_gone (hc : s.clusOk o.core o.mc o.bind o.tile = false) : s.tileRun o =
    s.lateOp o { cause := 40, reason := 2, data := BitVec.ofNat 32 (o.hs.headD (0, {})).1.toNat } := by
  unfold State.tileRun
  dsimp only
  rw [if_pos (by simp [hc])]

section
variable {g : Guard} {v : VReg} {w : TReg} {x : SReg} {y : VReg} {vx : Option VX} {row off k : Nat}

/-! ## Loads -/

section
variable (hc : s.clusOk o.core o.mc o.bind o.tile = true)
include hc

theorem tileRun_vld (hi : o.instr = .vld g v w x vx) (hx : o.x = [row, off, k]) (hl : o.dat.length = 256)
    (hb : s.windowBad o.core o.tile row off k = none) :
    s.tileRun o = (s.writeDest o (.v v (vOfBytes (maskLanes k (s.tileWindow o.core o.tile row off) o.dat)))).finishOp o := by
  have ht : o.dat.take 256 = o.dat := List.take_of_length_le (by omega)
  unfold State.tileRun
  simp [hi, hx, hc, hb, ht]

theorem tileRun_vldx (hi : o.instr = .vldx g v w y vx) (hx : o.x = [row, off, k]) (hb : s.gatherBad o.core o.tile (o.dat.drop 256) k = none) :
    s.tileRun o =
      (s.writeDest o (.v v (vOfBytes (maskLanes k (s.tileGather o.core o.tile (o.dat.drop 256)) (o.dat.take 256))))).finishOp o := by
  unfold State.tileRun
  simp [hi, hx, hc, hb]

theorem tileRun_store (hi : o.instr = .vst g v w x vx ∨ o.instr = .vstx g v w y vx) : s.tileRun o = s.tileUnit o 3 (·.finishOp o) := by
  unfold State.tileRun
  rcases hi with hi | hi <;> simp [hi, hc]

end

/-- A load writes its register, unless a result of a higher slot has landed there. -/
theorem tileLoad_completes {b : VWord} (hon : s.onItsCore o = true) (hctr : o.ctr = some .ldo)
    (hr : s.tileRun o = (s.writeDest o (.v v b)).finishOp o) :
    (s.tileRun o).opAt o.id = none ∧ SameMem s (s.tileRun o) ∧ (s.tileRun o).clusters = s.clusters
      ∧ ((s.tileRun o).coreAt o.core).now.rdV v
        = if (s.coreAt o.core).now.loses o.slot o.seq (.v v 0) then (s.coreAt o.core).now.rdV v else b := by
  obtain ⟨hm, hcl⟩ := writeDest_finishOp_frame hon (.v v b)
  rw [hr]
  exact ⟨opAt_finishOp .., hm, hcl, by rw [now_writeDest_finishOp hon hctr, rdV_dec, rdV_wrCounted_v]⟩

/-! ## Stores -/

theorem storesUnit_tileRun (ho : s.opAt o.id = some o) (hk : o.kind = .tile) (hon : s.onItsCore o = true)
    (hc : s.clusOk o.core o.mc o.bind o.tile = true) (hi : o.instr = .vst g v w x vx ∨ o.instr = .vstx g v w y vx)
    (hd : o.tile.clus = true) (hb : 256 * o.tile.base.toNat + (o.tile.rows + 15) / 16 * o.tile.rs ≤ 2 ^ 19) :
    StoresUnit s (s.tileRun o) o (·.dec .sto) := by
  have hctr : o.ctr = some .sto := by rcases hi with hi | hi <;> rw [Op.ctr, hk, hi]
  rw [tileRun_store hc hi]
  refine storesUnit_tileUnit ho hd hb fun u hu => ?_
  have hon' : u.onItsCore o = true := (hu.onItsCore o).trans hon
  obtain ⟨hm, hcl⟩ := finishOp_frame u o
  exact ⟨opAt_finishOp .., by rw [now_finishOp hon' hctr, hu.now], hm, hcl⟩

theorem tileWrites_vst (hi : o.instr = .vst g v w x vx) (hx : o.x = [row, off, k]) : o.tileWrites =
    ((List.range 64).filter (fun i => k.testBit i)).map (fun i => (row, off + 4 * i, cutBytes o.dat (4 * i) 4)) := by
  rw [Op.tileWrites, hi, hx]
  rfl

theorem tileWrites_vstx (hi : o.instr = .vstx g v w y vx) (hx : o.x = [row, off, k]) : o.tileWrites =
    ((List.range 64).filter (fun i => k.testBit i)).map (fun i =>
      ((laneIndex (o.dat.drop 256) i).1, (laneIndex (o.dat.drop 256) i).2, cutBytes o.dat (4 * i) 4)) := by
  rw [Op.tileWrites, hi, hx]
  rfl

end

end

/-- Settles O39: the access runs at once (`tileComplete_onItsCore`), and each form by what it leaves. -/
theorem tileAccessCompletes : Obligations.TileAccessCompletes := by
  intro s o ho hk hf hb hp ht hon run
  have hrun : run = .next (s.tileRun o) := tileComplete_onItsCore hf hb hp ht hon ▸ exec_tileAccessComplete ho hk
  refine ⟨fun hc => ?_, fun hc g v w x vx row off k => ⟨fun hi hx hl hbad => ?_, fun y hi hx hl hbad => ?_,
    fun y hi hd hfit => ⟨_, hrun, storesUnit_tileRun ho hk hon hc hi hd hfit⟩, tileWrites_vst, fun y => tileWrites_vstx⟩⟩
  · obtain ⟨hm, hcore⟩ := lateOp_onItsCore hon { cause := 40, reason := 2, data := BitVec.ofNat 32 (o.hs.headD (0, {})).1.toNat }
    exact ⟨_, _, hrun.trans (congrArg _ (tileRun_gone hc)), hm, congrArg Core.late hcore, rfl, rfl⟩
  · exact ⟨_, hrun, tileLoad_completes hon (by rw [Op.ctr, hk, hi]) (tileRun_vld hc hi hx hl hbad)⟩
  · exact ⟨_, hrun, tileLoad_completes hon (by rw [Op.ctr, hk, hi]) (tileRun_vldx hc hi hx hbad)⟩

end Sys2Proof
end

