-- ==== Sys2Proof/Proofs/ScalarAccesses.lean ====
section
/-!
PROOFS. The completion of a scalar access: what each form leaves in memory, in its register and in its counter, and MISALIGNED (R206,
R207, R210 to R214; O33).
-/
namespace Sys2Proof
open Machine Claim
set_option Elab.async false

/-- Result `v` of operation `o` has landed in s register `d`, unless it gave way there (R60); the other s registers are as in `s`. -/
def ResultS (s t : State) (o : Op) (d : SReg) (v : Word) : Prop :=
  ∀ r, (t.coreAt o.core).now.rdS r =
    if r = d ∧ d ≠ 0 ∧ (!(s.coreAt o.core).now.loses o.slot o.seq (.s d 0)) = true then v else (s.coreAt o.core).now.rdS r

/-- The same of an a register. -/
def ResultA (s t : State) (o : Op) (d : AReg) (v : VAddr) : Prop :=
  ∀ r, (t.coreAt o.core).now.rdA r =
    if r = d ∧ d ≠ 0 ∧ (!(s.coreAt o.core).now.loses o.slot o.seq (.a d 0)) = true then v else (s.coreAt o.core).now.rdA r

/-- The s registers of the core of `o` are as in `s`. -/
def KeepsS (s t : State) (o : Op) : Prop := ∀ r, (t.coreAt o.core).now.rdS r = (s.coreAt o.core).now.rdS r

/-- The cores run the same, and no byte of memory has changed. -/
def SameBytes (s t : State) : Prop := SameWork s t ∧ t.mem = s.mem ∧ t.host = s.host

section
variable {s s' t u : State} {o : Op} {act : ScAct} {pa n : Nat}

/-! ## Steps of an access that change no register (R207, R355) -/

theorem SameWork.onItsCore (h : SameWork s t) (o : Op) : t.onItsCore o = s.onItsCore o := by
  obtain ⟨hr, hm, -, hf, -⟩ := h.core o.core
  simp only [State.onItsCore, hr, hm, hf]

theorem SameWork.now (h : SameWork s t) (c : Nat) : (t.coreAt c).now = (s.coreAt c).now := by
  obtain ⟨-, -, -, -, hn⟩ := h.core c
  exact hn

theorem sameWork_onCoreAt (s : State) (c : Nat) {f : Core → Core} (hf : ∀ x, workOf (f x) = workOf x) : SameWork s (s.onCoreAt c f) :=
  (SameBooks.onCoreAt hf (.refl s)).work

theorem SameBytes.refl (s : State) : SameBytes s s := ⟨.refl s, rfl, rfl⟩

theorem sameBytes_of_cores (hq : t.cur = s.cur) (hc : t.cores = s.cores) (hm : t.mem = s.mem) (hh : t.host = s.host) : SameBytes s t :=
  ⟨.of_cores hq hc, hm, hh⟩

theorem SameBytes.trans (h : SameBytes s t) (h' : SameBytes t u) : SameBytes s u := by
  obtain ⟨hw, hm, hh⟩ := h
  obtain ⟨hw', hm', hh'⟩ := h'
  exact ⟨hw.trans hw', hm'.trans hm, hh'.trans hh⟩

theorem SameBytes.sameMem (h : SameBytes s t) : SameMem s t := by
  obtain ⟨-, hm, hh⟩ := h
  exact sameMem_of_bytes hm hh

theorem sameBytes_viaCache (s : State) (pa n : Nat) (w : Bool) : SameBytes s (s.viaCache pa n w) := by
  unfold State.viaCache
  split <;> exact sameBytes_of_cores rfl rfl rfl rfl

theorem sameBytes_l1Put (s : State) (c k n : Nat) (l : L1Line) : SameBytes s ((s.onCoreAt c (·.l1Put l)).raisePts k n) :=
  SameBytes.trans (t := s.onCoreAt c (·.l1Put l)) ⟨sameWork_onCoreAt s c fun _ => rfl, rfl, rfl⟩ (sameBytes_of_cores rfl rfl rfl rfl)

theorem sameBytes_leaseLoad_miss (s : State) (c k len pa n line pts : Nat) :
    SameBytes s (State.leaseLoad.miss s c k len pa n line pts).2 := by
  have hv (x : LineTs) : SameBytes s ((s.setLineTs line x).viaCache (64 * line) 64 false) :=
    (sameBytes_of_cores (t := s.setLineTs line x) rfl rfl rfl rfl).trans (sameBytes_viaCache ..)
  exact (hv _).trans (sameBytes_l1Put ..)

theorem sameBytes_leaseLoad (s : State) (c k len pa n : Nat) : SameBytes s (s.leaseLoad c k len pa n).2 := by
  unfold State.leaseLoad
  dsimp only
  split
  · split
    · exact sameBytes_l1Put ..
    · exact sameBytes_leaseLoad_miss ..
  · exact sameBytes_leaseLoad_miss ..

theorem sameWork_scalarStore (s : State) (o : Op) (pa : Nat) (bs : List Byte) (tent : Bool) : SameWork s (s.scalarStore o pa bs tent) := by
  unfold State.scalarStore
  extract_lets -underBinder k s1
  have h1 : SameWork s s1 := by
    unfold s1
    split
    · exact sameWork_onCoreAt s o.core fun _ => rfl
    · exact .refl s
  have h2 : SameWork s (s1.wrMem (s1.contAt k).pts pa bs).2 := h1.trans (SameBooks.wrMem (.refl s1)).work
  split
  rename_i p u e
  have h2 : SameWork s u := .of_eq e h2
  extract_lets v
  have h3 : SameWork s v := by
    unfold v
    split
    · exact h2.trans (sameWork_onCoreAt u o.core fun _ => rfl)
    · exact h2
  exact h3.trans (.of_cores rfl rfl)

/-! ## The bytes of a load (R207) -/

theorem take_drop_rdBytes (m : SMap Byte) (a : Nat) {k i n : Nat} (h : i + n ≤ k) :
    ((rdBytes m a k).drop i).take n = rdBytes m (a + i) n := by
  refine List.ext_getElem (by simp; omega) fun j hj hj' => ?_
  have hn : j < n := by simpa using hj'
  rw [List.getElem_take, List.getElem_drop, ← List.getD_eq_getElem (d := 0), ← List.getD_eq_getElem (d := 0),
    getD_rdBytes (by omega), getD_rdBytes hn, Nat.add_assoc]

/-- A load that misses in the L1 takes the bytes of memory. -/
theorem leaseLoad_of_miss (c k len : Nat) (hl : (s.coreAt c).l1Find (pa / 64) = none) (hn : pa % 64 + n ≤ 64) :
    (s.leaseLoad c k len pa n).1 = rdBytes s.mem pa n := by
  have hpa : 64 * (pa / 64) + pa % 64 = pa := Nat.div_add_mod pa 64
  simp only [State.leaseLoad, hl, State.leaseLoad.miss, take_drop_rdBytes _ _ hn, hpa]

/-- A load that hits takes the bytes of the line. -/
theorem leaseLoad_of_hit {l : L1Line} {c k : Nat} (len : Nat) (hl : (s.coreAt c).l1Find (pa / 64) = some l) (hp : (s.contAt k).pts ≤ l.lease) :
    (s.leaseLoad c k len pa n).1 = (l.data.drop (pa % 64)).take n := by
  simp only [State.leaseLoad, hl, if_pos hp]

/-! ## Result, counter and bytes of the end (R60, R61) -/

theorem completed_end (hw : SameWork s' u) (hon : s'.onItsCore o = true) : Completed s' (u.finishOp o) o := by
  refine ⟨opAt_finishOp .., fun k hk => ?_⟩
  rw [now_finishOp ((hw.onItsCore o).trans hon) hk, ctr_dec, hw.now]

theorem completed_result (hw : SameWork s' u) (hon : s'.onItsCore o = true) {w : RegWrite} (hf : WritesFile w) :
    Completed s' ((u.writeDest o w).finishOp o) o := by
  refine ⟨opAt_finishOp .., fun k hk => ?_⟩
  rw [now_writeDest_finishOp ((hw.onItsCore o).trans hon) hk, ctr_dec, ctr_wrCounted _ _ _ _ hf, hw.now]

section
variable (hk : o.kind = .scalar)
include hk

theorem ctr_of_scalar : ∃ k, o.ctr = some k := by
  rw [Op.ctr, hk]
  exact ⟨_, rfl⟩

variable (hw : SameWork s' u) (hon : s'.onItsCore o = true)
include hw hon

theorem keepsS_end : KeepsS s' (u.finishOp o) o := by
  intro r
  obtain ⟨k, hk⟩ := ctr_of_scalar hk
  rw [now_finishOp ((hw.onItsCore o).trans hon) hk, rdS_dec, hw.now]

theorem resultS_writeDest (d : SReg) (v : Word) : ResultS s' ((u.writeDest o (.s d v)).finishOp o) o d v := by
  intro r
  obtain ⟨k, hk⟩ := ctr_of_scalar hk
  rw [now_writeDest_finishOp ((hw.onItsCore o).trans hon) hk, rdS_dec, rdS_wrCounted_s, hw.now]

theorem resultA_writeDest (d : AReg) (v : VAddr) : ResultA s' ((u.writeDest o (.a d v)).finishOp o) o d v := by
  intro r
  obtain ⟨k, hk⟩ := ctr_of_scalar hk
  rw [now_writeDest_finishOp ((hw.onItsCore o).trans hon) hk, rdA_dec, rdA_wrCounted_a, hw.now]

end

theorem mem_result (hon : u.onItsCore o = true) (w : RegWrite) : ((u.writeDest o w).finishOp o).mem = u.mem :=
  (mem_finishOp ..).trans (mem_writeDest hon w)

theorem stored_none (h : t.mem = s.mem) (v : Nat) : Stored s t pa 0 v := fun a => by rw [h, if_neg (by omega)]

theorem stored_of_mem {v : Nat} (h : t.mem = wrBytes s.mem pa (toBytes n v)) : Stored s t pa n v := by
  intro a
  rw [h, rdByte_wrBytes, length_toBytes]
  split
  case isTrue ha => exact getD_toBytes v (by omega)
  case isFalse => rfl

/-! ## The step (R206, R207, R210) -/

/-- What lets an access go on that is aligned: it is neither asleep nor behind another. -/
theorem Claim.Due.ready (h : Due s o act) : s.opAt o.id = some o ∧ o.kind = .scalar ∧ scAct o.instr = some act ∧
    (o.faulted || o.asleep || s.scalarEarlier o || (o.rel && s.stillLive o o.after) || (act.acc == .atomic && !s.committed o)) = false
      ∧ s.destAsleep o = false := by
  obtain ⟨ho, hk, ha, hf, hw, he, hr, hc, hon⟩ := h
  refine ⟨ho, hk, ha, ?_, by rw [State.destAsleep, hon]; rfl⟩
  have hrel : (o.rel && s.stillLive o o.after) = false := by
    cases hrel : o.rel
    case false => rfl
    case true => exact hr hrel
  have hat : (act.acc == .atomic && !s.committed o) = false := by
    cases hat : act.acc == .atomic
    case false => rfl
    case true => rw [hc (by simpa using hat)]; rfl
  rw [hf, Op.asleep, hw, he, hrel, hat]
  rfl

/-- A translated access is performed when it hits the L1, or when neither another core's tentative byte nor poison lies there. -/
theorem exec_scalarAccessComplete_perform (h : Reaches s s' o act pa)
    (hp : act.acc = .read ∧ s'.l1Hit o pa = true ∨ s.tentative o.core none pa act.size = none ∧ s.poisoned pa act.size = false) :
    exec (.scalarAccessComplete o.id) s = .next (s'.scalarPerform o act pa) := by
  obtain ⟨hdue, hmod, hne, hx, -⟩ := h
  obtain ⟨ho, hk, ha, hready, hdest⟩ := hdue.ready
  have hpref : (act == .pref) = false := beq_eq_false_iff_ne.2 (by rintro rfl; exact hne rfl)
  change execScalarAccessComplete o.id s = _
  unfold execScalarAccessComplete
  simp only [ho, hk, ha, hready, hdest, hmod, hpref, hx, bne_self_eq_false, Bool.and_false, Bool.false_eq_true, if_false]
  cases act with
  | pref => exact absurd rfl hne
  | _ =>
    rcases hp with ⟨hacc, hhit⟩ | ⟨ht, hpo⟩
    · simp only [hacc, hhit]
      rfl
    · simp only [ht, hpo, Bool.and_false, Bool.false_eq_true, if_false, ite_self]

/-- A PREF that goes on is over, with at most a line fetched into the L1. -/
theorem exec_scalarAccessComplete_pref {x : Xl} (h : Due s o .pref) (hx : s.xlatePref (s.agent o) o.mc o.id (o.x.getD 0 0) = (x, s'))
    (ht : ∀ pa, x = .ok false pa → s.tentative o.core none pa 1 = none) :
    ∃ u, exec (.scalarAccessComplete o.id) s = .next (u.finishOp o) ∧ SameBytes s' u := by
  obtain ⟨ho, hk, ha, hready, hdest⟩ := h.ready
  change ∃ u, execScalarAccessComplete o.id s = .next (u.finishOp o) ∧ SameBytes s' u
  have hsize : (decide (ScAct.pref.size > 0) && o.x.getD 0 0 % ScAct.pref.size != 0) = false := rfl
  simp only [execScalarAccessComplete, ho, hk, ha, hready, hdest, hsize, hx, Bool.false_eq_true, if_false, beq_self_eq_true, if_true]
  have hload (pa : Nat) : SameBytes s' (s'.leaseLoad o.core (contKey o.mc o.fslot) o.aux pa 1).2 := sameBytes_leaseLoad ..
  cases x with
  | ok h pa =>
    cases h with
    | true => exact ⟨s', rfl, .refl s'⟩
    | false =>
      simp only [ht pa rfl]
      split
      · exact ⟨_, rfl, hload pa⟩
      · split
        · exact ⟨s', rfl, .refl s'⟩
        · exact ⟨_, rfl, hload pa⟩
  | _ => exact ⟨s', rfl, .refl s'⟩

theorem exec_scalarAccessComplete_misaligned (h : Due s o act) (hne : act.size ≠ 0) (hmod : o.x.getD 0 0 % act.size ≠ 0) :
    exec (.scalarAccessComplete o.id) s = .next (s.lateOp o (xlTrap 36 (if act.size = 16 then 2 else 1) (o.x.getD 0 0))) := by
  obtain ⟨ho, hk, ha, hready, hdest⟩ := h.ready
  change execScalarAccessComplete o.id s = _
  have hbad : (decide (act.size > 0) && o.x.getD 0 0 % act.size != 0) = true := by
    rw [Bool.and_eq_true, decide_eq_true_eq, bne_iff_ne]
    exact ⟨Nat.pos_of_ne_zero hne, hmod⟩
  simp only [execScalarAccessComplete, ho, hk, ha, hready, hdest, hbad]
  rfl

theorem bytes_commitAll (s : State) (l : List (Nat × Nat)) : (s.commitAll l).mem = s.mem ∧ (s.commitAll l).host = s.host := by
  induction l generalizing s with
  | nil => exact ⟨rfl, rfl⟩
  | cons x l ih =>
    obtain ⟨hm, hh⟩ := ih (s.commitLines none x.1 x.2)
    obtain ⟨hm', hh'⟩ : (s.commitLines none x.1 x.2).mem = s.mem ∧ (s.commitLines none x.1 x.2).host = s.host :=
      List.foldlRecOn (motive := fun t : State => t.mem = s.mem ∧ t.host = s.host) _ _ ⟨rfl, rfl⟩ fun _ ht _ _ => ht
    exact ⟨hm.trans hm', hh.trans hh'⟩

/-- The translation of a PREF changes no byte. -/
theorem bytes_xlatePref (s : State) (w : Who) (mc key va : Nat) :
    (s.xlatePref w mc key va).2.mem = s.mem ∧ (s.xlatePref w mc key va).2.host = s.host := by
  unfold State.xlatePref
  dsimp only
  split <;> exact bytes_commitAll s _

/-! ## What each form leaves (R210, R211, R214) -/

/-- The step of CAS at the home slice: its new value, or an atomic that writes nothing (R355). -/
def casStore (s : State) (o : Op) (n pa : Nat) : State :=
  if rdNum s.mem pa n = o.x.getD 2 0 % 2 ^ (8 * n) then s.scalarStore o pa (toBytes n (o.x.getD 1 0)) false
  else (s.stampWrite (pa / 64) (s.contAt (contKey o.mc o.fslot)).pts).2.wrote o
    (s.stampWrite (pa / 64) (s.contAt (contKey o.mc o.fslot)).pts).1

theorem sameWork_casStore (s : State) (o : Op) (n pa : Nat) : SameWork s (casStore s o n pa) := by
  unfold casStore
  split
  · exact sameWork_scalarStore ..
  · exact .of_cores rfl rfl

theorem stackFenced_of_xlateDo {w : Who} {mc key va : Nat} {kind : Acc} {x : Xl} (hx : s.xlateDo w mc key va kind = (x, s'))
    (hp : s.poisoned pa n = false) : s'.stackFenced pa = false := by
  have hf : s.stackFenced pa = false := by
    simp only [State.poisoned, Bool.or_eq_false_iff] at hp
    obtain ⟨⟨hf, -⟩, -⟩ := hp
    exact hf
  have hu : s'.units = s.units := by rw [← units_xlateDo s w mc key va kind, hx]
  rw [stackFenced_units hu, hf]

theorem completed_scalarPerform (hon : s'.onItsCore o = true) (act : ScAct) (pa : Nat) : Completed s' (s'.scalarPerform o act pa) o := by
  cases act with
  | load n sx d =>
    obtain ⟨hw, -, -⟩ := sameBytes_leaseLoad s' o.core (contKey o.mc o.fslot) o.aux pa n
    exact completed_result hw hon (.inl ⟨d, _, rfl⟩)
  | loadA d =>
    obtain ⟨hw, -, -⟩ := sameBytes_leaseLoad s' o.core (contKey o.mc o.fslot) o.aux pa 16
    exact completed_result hw hon (.inr (.inl ⟨d, _, rfl⟩))
  | store n => exact completed_end (sameWork_scalarStore ..) hon
  | pref =>
    obtain ⟨hw, -, -⟩ := sameBytes_leaseLoad s' o.core (contKey o.mc o.fslot) o.aux pa 1
    exact completed_end hw hon
  | amo n op d =>
    cases d with
    | none => exact completed_end (sameWork_scalarStore ..) hon
    | some d => exact completed_result (sameWork_scalarStore ..) hon (.inl ⟨d, _, rfl⟩)
  | cas n d => exact completed_result (sameWork_casStore ..) hon (.inl ⟨d, _, rfl⟩)

section
variable (hk : o.kind = .scalar) (hon : s'.onItsCore o = true)
include hk hon

/-- A result lands beside the bytes that a load or a store has left. -/
theorem result_of_bytes {v : Nat} {d : SReg} {x : Word} (hw : SameWork s' u) (hs : Stored s' u pa n v) :
    Stored s' ((u.writeDest o (.s d x)).finishOp o) pa n v ∧ ResultS s' ((u.writeDest o (.s d x)).finishOp o) o d x :=
  ⟨fun a => by rw [mem_result ((hw.onItsCore o).trans hon), hs a], resultS_writeDest hk hw hon d x⟩

/-- A load leaves every byte, and its register holds the bytes that it took. -/
theorem scalarPerform_load {bs : List Byte} {sx : Bool} {d : SReg}
    (hb : (s'.leaseLoad o.core (contKey o.mc o.fslot) o.aux pa n).1 = bs) :
    Stored s' (s'.scalarPerform o (.load n sx d) pa) pa 0 0
      ∧ ResultS s' (s'.scalarPerform o (.load n sx d) pa) o d (loadVal n sx bs) := by
  obtain ⟨hw, hm, -⟩ := sameBytes_leaseLoad s' o.core (contKey o.mc o.fslot) o.aux pa n
  subst hb
  exact result_of_bytes hk hon hw (stored_none hm 0)

theorem scalarPerform_loadA {bs : List Byte} {d : AReg} (hb : (s'.leaseLoad o.core (contKey o.mc o.fslot) o.aux pa 16).1 = bs) :
    Stored s' (s'.scalarPerform o (.loadA d) pa) pa 0 0
      ∧ ResultA s' (s'.scalarPerform o (.loadA d) pa) o d (BitVec.ofNat 72 (ofBytes bs)) := by
  obtain ⟨hw, hm, -⟩ := sameBytes_leaseLoad s' o.core (contKey o.mc o.fslot) o.aux pa 16
  subst hb
  exact ⟨stored_none ((mem_result ((hw.onItsCore o).trans hon) _).trans hm) 0, resultA_writeDest hk hw hon d _⟩

variable (hf : s'.stackFenced pa = false)
include hf

theorem scalarPerform_store (n : Nat) :
    Stored s' (s'.scalarPerform o (.store n) pa) pa n (o.x.getD 1 0) ∧ KeepsS s' (s'.scalarPerform o (.store n) pa) o :=
  ⟨stored_of_mem ((mem_finishOp ..).trans (mem_scalarStore hf)), keepsS_end hk (sameWork_scalarStore ..) hon⟩

theorem scalarPerform_red (n op : Nat) :
    Stored s' (s'.scalarPerform o (.amo n op none) pa) pa n
        (atomicVal op (8 * n) (rdNum s'.mem pa n) (o.x.getD 1 0 % 2 ^ (8 * n)))
      ∧ KeepsS s' (s'.scalarPerform o (.amo n op none) pa) o :=
  ⟨stored_of_mem ((mem_finishOp ..).trans (mem_scalarStore hf)), keepsS_end hk (sameWork_scalarStore ..) hon⟩

theorem scalarPerform_amo (n op : Nat) (d : SReg) :
    Stored s' (s'.scalarPerform o (.amo n op (some d)) pa) pa n
        (atomicVal op (8 * n) (rdNum s'.mem pa n) (o.x.getD 1 0 % 2 ^ (8 * n)))
      ∧ ResultS s' (s'.scalarPerform o (.amo n op (some d)) pa) o d (BitVec.ofInt 64 (toSigned (8 * n) (rdNum s'.mem pa n))) :=
  result_of_bytes hk hon (sameWork_scalarStore ..) (stored_of_mem (mem_scalarStore hf))

theorem scalarPerform_cas (n : Nat) (d : SReg) :
    Stored s' (s'.scalarPerform o (.cas n d) pa) pa (if rdNum s'.mem pa n = o.x.getD 2 0 % 2 ^ (8 * n) then n else 0) (o.x.getD 1 0)
      ∧ ResultS s' (s'.scalarPerform o (.cas n d) pa) o d (BitVec.ofInt 64 (toSigned (8 * n) (rdNum s'.mem pa n))) := by
  refine result_of_bytes hk hon (u := casStore s' o n pa) (sameWork_casStore ..) ?_
  unfold casStore
  split
  · exact stored_of_mem (mem_scalarStore hf)
  · exact stored_none rfl _

end

end

/-- Settles O33: an access is performed as its form says (`scalarPerform_load` and the lemmas beside it), from memory or from the L1; a PREF
leaves every byte; a misaligned one takes its late fault. -/
theorem scalarAccessCompletes : Obligations.ScalarAccessCompletes := by
  refine ⟨?perform, ?hit, ?pref, ?misaligned⟩
  case perform =>
    intro s s' o act pa h hfit m v arch lands
    obtain ⟨hr, ht, hp, hl⟩ := h
    have hrun := exec_scalarAccessComplete_perform hr (.inr ⟨ht, hp⟩)
    obtain ⟨hdue, -, -, hx, hon⟩ := hr
    obtain ⟨-, hk, -⟩ := hdue.ready
    have hf : s'.stackFenced pa = false := stackFenced_of_xlateDo hx hp
    refine ⟨_, hrun, completed_scalarPerform hon act pa, ?_, ?_, ?_, ?_, ?_, ?_⟩
    · rintro n sx d rfl
      exact scalarPerform_load hk hon (leaseLoad_of_miss _ _ _ hl hfit)
    · rintro d rfl
      exact scalarPerform_loadA hk hon (leaseLoad_of_miss _ _ _ hl hfit)
    · rintro n rfl
      exact scalarPerform_store hk hon hf n
    · rintro n op d rfl
      exact scalarPerform_amo hk hon hf n op d
    · rintro n op rfl
      exact scalarPerform_red hk hon hf n op
    · rintro n d rfl
      exact scalarPerform_cas hk hon hf n d
  case hit =>
    intro s s' o act pa l hr hl hp hacc m arch lands
    have hhit : s'.l1Hit o pa = true := by
      rw [State.l1Hit, hl]
      exact decide_eq_true hp
    have hrun := exec_scalarAccessComplete_perform hr (.inl ⟨hacc, hhit⟩)
    obtain ⟨hdue, -, hne, -, hon⟩ := hr
    obtain ⟨-, hk, -⟩ := hdue.ready
    refine ⟨_, hrun, completed_scalarPerform hon act pa, ?_, ?_, ?_⟩
    · cases act with
      | load n sx d => exact (scalarPerform_load hk hon rfl).1
      | loadA d => exact (scalarPerform_loadA hk hon rfl).1
      | pref => exact absurd rfl hne
      | store => cases hacc
      | amo => cases hacc
      | cas => cases hacc
    · rintro n sx d rfl
      obtain ⟨-, hreg⟩ := scalarPerform_load (sx := sx) (d := d) hk hon (leaseLoad_of_hit (n := n) o.aux hl hp)
      exact hreg
    · rintro d rfl
      obtain ⟨-, hreg⟩ := scalarPerform_loadA (d := d) hk hon (leaseLoad_of_hit (n := 16) o.aux hl hp)
      exact hreg
  case pref =>
    intro s s' o x hdue hx hon ht
    obtain ⟨u, hrun, hu⟩ := exec_scalarAccessComplete_pref hdue hx ht
    obtain ⟨hm, hh⟩ := bytes_xlatePref s (s.agent o) o.mc o.id (o.x.getD 0 0)
    obtain ⟨-, hk, -⟩ := hdue.ready
    rw [hx] at hm hh
    obtain ⟨hend, -⟩ := finishOp_frame u o
    have hmem : SameMem s u := (sameMem_of_bytes hm hh).trans hu.sameMem
    obtain ⟨hw, -⟩ := hu
    exact ⟨_, hrun, completed_end hw hon, hmem.trans hend, keepsS_end hk hw hon⟩
  case misaligned =>
    intro s o act hdue hne hmod
    have hrun := exec_scalarAccessComplete_misaligned hdue hne hmod
    obtain ⟨-, -, -, -, -, -, -, -, hon⟩ := hdue
    obtain ⟨hm, hc⟩ := lateOp_onItsCore hon (xlTrap 36 (if act.size = 16 then 2 else 1) (o.x.getD 0 0))
    exact ⟨_, _, hrun, hm, congrArg Core.late hc, rfl, rfl, rfl, by rw [hc]⟩

end Sys2Proof
end

