-- ==== Sys2Proof/Proofs/CheckFailures.lean ====
section
/-!
PROOFS. Check failures: the record of an error, the rollback of a core, and what a contained and a fatal error leave (R424 to R432; O52).
-/
namespace Sys2Proof
open Machine Claim
set_option Elab.async false

section
variable {s : State} {c : Nat}

/-! ## The record of an error (R432) -/

/-- The bank holds a record afterwards, and where it held none, this one. -/
theorem banks_mcRecord (s : State) (e : McErr) : (SMap.get {} (s.mcRecord e).banks e.bank).valid = true
    ∧ ((SMap.get {} s.banks e.bank).valid = false → let b := SMap.get {} (s.mcRecord e).banks e.bank
        b.sev = e.sev ∧ b.source = BitVec.ofNat 8 e.source ∧ b.unit = BitVec.ofNat 16 e.unit) := by
  obtain ⟨x, hx, hval, hrec⟩ : ∃ x : Bank, (s.mcRecord e).banks = SMap.set {} s.banks e.bank x ∧ x.valid = true
      ∧ ((SMap.get {} s.banks e.bank).valid = false →
        x.sev = e.sev ∧ x.source = BitVec.ofNat 8 e.source ∧ x.unit = BitVec.ofNat 16 e.unit) := by
    refine ⟨_, rfl, ?_, fun hv => ?_⟩
    · split
      · rfl
      case isFalse h =>
        have hv : (SMap.get {} s.banks e.bank).valid = true := by
          by_contra hv
          exact h (Bool.or_eq_true_iff.2 (.inl (by simpa using hv)))
        split <;> exact hv
    · rw [if_pos (Bool.or_eq_true_iff.2 (.inl (by simpa using hv)))]
      exact ⟨rfl, rfl, rfl⟩
  rw [hx, SMap.get_set_self]
  exact ⟨hval, hrec⟩

theorem valid_mcRecord (s : State) (e : McErr) : (SMap.get {} (s.mcRecord e).banks e.bank).valid = true := by
  obtain ⟨hv, -⟩ := banks_mcRecord s e
  exact hv

theorem valid_coreError (s : State) (c source sev mc : Nat) :
    (SMap.get {} (s.coreError c source sev mc).banks (bankAt source c)).valid = true := valid_mcRecord _ _

/-! ## The rollback of a core (R422, R424) -/

theorem cores_undoAll (s : State) (l : List Undo) : (s.undoAll l).cores = s.cores := by
  induction l generalizing s with
  | nil => rfl
  | cons u l ih =>
    refine (ih _).trans ?_
    split <;> rfl

theorem cores_foldWithdraw (s : State) (o : Op) : (s.foldWithdraw o).cores = s.cores := by
  unfold State.foldWithdraw
  extract_lets u
  have hu : u.cores = s.cores := List.foldlRecOn (motive := fun t : State => t.cores = s.cores) _ _ rfl fun _ ht _ _ => ht
  split
  · exact hu
  · exact hu

theorem cores_discarded (s : State) (l : List Op) :
    (l.foldl (fun s o => (if o.kind == .waited then s.foldWithdraw o else s).dropOp o.id) s).cores = s.cores := by
  refine List.foldlRecOn (motive := fun t : State => t.cores = s.cores) _ _ rfl fun t ht o _ => ?_
  change (if o.kind == .waited then t.foldWithdraw o else t).cores = s.cores
  split
  · exact (cores_foldWithdraw t o).trans ht
  · exact ht

theorem cores_unlend (s : State) (c : Nat) (st : Stall) : (s.unlend c st).cores = s.cores := by
  unfold State.unlend
  split
  · unfold State.endLoan
    extract_lets waits
    split
    · rfl
    · split <;> rfl
  · rfl

/-- Core `x` in the state of its last checkpoint; its L1 holds the lines `l1`. -/
def rolledCore (x : Core) (l1 : List L1Line) : Core :=
  { x with
    l1 := l1, now := { x.saved with stall := x.saved.stall.rolled }, stop := none, undo := [], undoPriv := [], sinceCk := 0,
    commit := false, tiles := [], made := [], remake := x.made.reverse ++ x.remake,
    late := x.late.filter (fun l => decide (l.op < x.savedOp)) }

theorem coreAt_l1Home (s : State) (c : Nat) (ls : List Nat) : ∃ l1, (s.l1Home c ls).coreAt c = { s.coreAt c with l1 := l1 } :=
  ⟨_, State.coreAt_setCoreAt_self ..⟩

theorem coreAt_rollBack (s : State) (c : Nat) : ∃ l1, (s.rollBack c).coreAt c = rolledCore (s.coreAt c) l1 := by
  unfold State.rollBack
  extract_lets x s1 s2 s3
  have hx : ((s.undoAll x.undo).undoTiles c).coreAt c = x := by
    change SMap.get {} (s.undoAll x.undo).cores c = _
    rw [cores_undoAll]
    rfl
  obtain ⟨l1, h1⟩ : ∃ l1, s1.coreAt c = { x with l1 := l1 } := hx ▸ coreAt_l1Home ((s.undoAll x.undo).undoTiles c) c _
  have h2 : s2.coreAt c = { x with l1 := l1 } := by rw [← h1, State.coreAt, cores_discarded, State.coreAt]
  have h3 : s3.coreAt c = rolledCore x l1 := (State.coreAt_setCoreAt_self s2 c _).trans (by rw [h2]; rfl)
  exact ⟨l1, by rw [← h3, State.coreAt, cores_unlend, State.coreAt]⟩

theorem rollsBack_of_source {source : Nat} (h : source = 1 ∨ source = 2 ∨ source = 3 ∨ source = 7 ∨ source = 9) :
    rollsBack source = true := by
  rcases h with rfl | rfl | rfl | rfl | rfl <;> rfl

theorem exec_rollback_first {source : Nat} (hb : rollsBack source = true) (hr : (s.coreAt c).running = true) (ht : (s.coreAt c).retry = none) :
    Becomes (.rollback c source) s ((s.rollBack c).onCoreAt c (fun y =>
      { y with retry := some ((s.coreAt c).cyc + (s.coreAt c).sinceCk), retrySrc := source })) := by
  change execRollback c source s = _
  simp [execRollback, hb, hr, ht]

theorem exec_rollback_again {source : Nat} (hb : rollsBack source = true) (hr : (s.coreAt c).running = true) (ht : (s.coreAt c).retry ≠ none) :
    Becomes (.rollback c source) s (s.containedCore c source) := by
  change execRollback c source s = _
  simp [execRollback, hb, hr, Option.isSome_iff_ne_none.2 ht]

theorem exec_rollback_corrected {source : Nat} (hb : rollsBack source = false) :
    Becomes (.rollback c source) s ((s.dropFailed c source).coreError c source 1 (s.coreAt c).mc) := by
  change execRollback c source s = _
  simp [execRollback, hb]

/-! ## Parity failures (R207, R427) -/

theorem l1_dropFailed (s : State) (c : Nat) :
    ∃ i, ((s.dropFailed c 4).coreAt c).l1 = (s.coreAt c).l1.eraseIdx i ∧ ((s.coreAt c).l1 ≠ [] → i < (s.coreAt c).l1.length) := by
  refine ⟨Config.pick s.free % max (s.coreAt c).l1.length 1, congrArg Core.l1 (State.coreAt_setCoreAt_self ..), fun h => ?_⟩
  have hpos : 0 < (s.coreAt c).l1.length := List.length_pos_iff.2 h
  rw [Nat.max_eq_left hpos]
  exact Nat.mod_lt _ hpos

/-- The entries that a parity failure of a translation buffer at core `c` can take. -/
def failableTlb (s : State) (c : Nat) : List TlbEntry :=
  s.tlb.filter (fun d => d.op == 0 && d.cl == clusterOfCore c && (d.core == none || d.core == some c))

theorem mem_tlb_dropFailed {e : TlbEntry} (h : ∀ d, d ∈ failableTlb s c ↔ d = e) (d : TlbEntry) :
    d ∈ (s.dropFailed c 5).tlb ↔ d ∈ s.tlb ∧ d ≠ e := by
  have hpos : 0 < (failableTlb s c).length := List.length_pos_of_mem ((h e).2 rfl)
  have hlt : Config.pick s.free % max (failableTlb s c).length 1 < (failableTlb s c).length := by
    rw [Nat.max_eq_left hpos]
    exact Nat.mod_lt _ hpos
  have hget : (failableTlb s c)[Config.pick s.free % max (failableTlb s c).length 1]? = some e := by
    rw [List.getElem?_eq_getElem hlt, (h _).1 (List.getElem_mem hlt)]
  have hdrop : (s.dropFailed c 5).tlb = s.tlb.filter (· != e) := by
    unfold failableTlb at hget
    simp only [State.dropFailed, State.fresh, Nat.reduceEqDiff, if_false, if_true, hget]
  rw [hdrop]
  simp

theorem dropFailed_other {source : Nat} (h4 : source ≠ 4) (h5 : source ≠ 5) : s.dropFailed c source = s.fresh.2 := by
  unfold State.dropFailed
  simp only [if_neg h4, if_neg h5]

/-! ## The end of a re-execution (R24) -/

theorem coreAt_retryOver (s : State) (c : Nat) : (s.retryOver c).coreAt c =
    { s.coreAt c with retry := none, retrySrc := if (s.coreAt c).retry = none then (s.coreAt c).retrySrc else 0 } := by
  unfold State.retryOver
  extract_lets x
  cases hr : x.retry with
  | none =>
    change s.coreAt c = { s.coreAt c with retry := none, retrySrc := (s.coreAt c).retrySrc }
    rw [← hr]
  | some t => exact State.coreAt_setCoreAt_self ..

theorem valid_retryOver (h : (s.coreAt c).retry ≠ none) :
    (SMap.get {} (s.retryOver c).banks (bankAt (s.coreAt c).retrySrc c)).valid = true := by
  unfold State.retryOver
  extract_lets x
  rw [if_pos (Option.isSome_iff_ne_none.2 h)]
  exact valid_coreError s c x.retrySrc 1 x.mc

/-! ## Errors in memory (R397, R427, R428) -/

/-- Unit `n` among the units of `l`. -/
theorem mem_insertUnit (l : List Nat) (n m : Nat) : m ∈ (if l.contains n then l else n :: l) ↔ m = n ∨ m ∈ l := by
  split
  case isTrue h =>
    have hn : n ∈ l := by simpa using h
    exact ⟨.inr, fun hm => hm.elim (fun e => e ▸ hn) id⟩
  case isFalse => exact List.mem_cons

theorem mem_addUnit (l : List Nat) (a m : Nat) : m ∈ addUnit l a ↔ m = a / 64 ∨ m ∈ l := mem_insertUnit l (a / 64) m

/-- Unit `n` of memory is poisoned. -/
def withPoison (s : State) (n : Nat) : State := { s with poison := if s.poison.contains n then s.poison else n :: s.poison }

/-- The same in the line of an L2 slice. -/
def withPoisonL2 (s : State) (n : Nat) : State := { s with poisonL2 := if s.poisonL2.contains n then s.poisonL2 else n :: s.poisonL2 }

theorem poisonBlocks_none (h : s.pools = []) (n : Nat) : s.poisonBlocks n = s := by
  unfold State.poisonBlocks
  rw [h]
  rfl

/-- A partition's one block is poisoned when it holds the unit. -/
theorem poisonBlocks_one {part n : Nat} {pool : Pool} {b : Nat × Nat × Nat} (h : s.pools = [(part, some pool)]) (hb : pool.blocks = [b])
    (hl : (s.partAt part).privBase.toNat + b.2.1 ≤ 64 * n) (hu : 64 * n < (s.partAt part).privBase.toNat + b.2.1 + 2 ^ b.2.2) :
    s.poisonBlocks n = s.poisonBlk part b.1 := by
  unfold State.poisonBlocks
  simp [h, hb, hl, hu]

theorem mem_poison_memoryError (h : s.pools = []) (source n m : Nat) : m ∈ (s.memoryError source n).poison ↔ m = n ∨ m ∈ s.poison := by
  have hp := congrArg State.poison (poisonBlocks_none (s := withPoison s n) h n)
  change m ∈ ((withPoison s n).poisonBlocks n).poison ↔ _
  rw [hp]
  exact mem_insertUnit s.poison n m

theorem mem_poisonL2_lineError (h : s.pools = []) (n m : Nat) : m ∈ (s.lineError n).poisonL2 ↔ m = n ∨ m ∈ s.poisonL2 := by
  have hp := congrArg State.poisonL2 (poisonBlocks_none (s := withPoisonL2 s n) h n)
  change m ∈ ((withPoisonL2 s n).poisonBlocks n).poisonL2 ↔ _
  rw [hp]
  exact mem_insertUnit s.poisonL2 n m

theorem exec_containedError_memory {source n : Nat} (h : source = 15 ∨ source = 16) :
    Becomes (.containedError c source n) s (s.memoryError source n) := by
  change execContainedError c source n s = _
  rcases h with rfl | rfl <;> rfl

theorem exec_containedError_line {n : Nat} (h : 2 ^ 23 ≤ n) : Becomes (.containedError c 11 n) s (s.lineError (n - 2 ^ 23)) := by
  change execContainedError c 11 n s = _
  simp only [execContainedError, decide_eq_true h]
  rfl

/-! ## Errors in an accumulator, in PRIV and in L2 data (R428) -/

theorem exec_containedError_store {source n : Nat} (h : source = 8 ∨ source = 10 ∨ source = 11) (hn : source = 11 → n < 2 ^ 23) :
    Becomes (.containedError c source n) s (s.storeError c source n) := by
  change execContainedError c source n s = _
  rcases h with rfl | rfl | rfl
  · rfl
  · rfl
  · have hn : ¬ 2 ^ 23 ≤ n := Nat.not_le.2 (hn rfl)
    simp only [execContainedError, decide_eq_false hn]
    rfl

/-- What the record of such an error leaves, before its unit is bad. -/
theorem storeError_eq (s : State) (c source op : Nat) : ∃ u : State,
    (s.storeError c source op =
      if source = 8 then (if (s.coreAt c).running then u.onArchAt c (fun a => { a with badAcc := addUnit a.badAcc op }) else u)
      else if source = 10 then (if (s.coreAt c).running then u.onArchAt c (fun a => { a with badPriv := addUnit a.badPriv op }) else u)
      else u.setCluster (clusterOfCore c)
        { u.clusterAt (clusterOfCore c) with bad := addUnit (u.clusterAt (clusterOfCore c)).bad op })
    ∧ u.cores = s.cores ∧ u.clusters = s.clusters ∧ (SMap.get {} u.banks (bankOf source (dieOfCore c))).valid = true :=
  ⟨_, rfl, rfl, rfl, valid_mcRecord _ _⟩

theorem onArchAt_of_running (u : State) (c : Nat) (r : Bool) (f : Arch → Arch) : let v := if r then u.onArchAt c f else u
    (v.coreAt c).now = (if r then f (u.coreAt c).now else (u.coreAt c).now) ∧ v.clusters = u.clusters ∧ v.banks = u.banks := by
  cases r
  case false => exact ⟨rfl, rfl, rfl⟩
  case true => exact ⟨now_onArchAt u c f, rfl, rfl⟩

/-- The units of 64 bytes that are bad afterwards. -/
theorem storeError_units {source n : Nat} (h : source = 8 ∨ source = 10 ∨ source = 11) : let t := s.storeError c source n
    (∀ m, m ∈ (t.coreAt c).now.badAcc ↔ (source = 8 ∧ (s.coreAt c).running = true ∧ m = n / 64) ∨ m ∈ (s.coreAt c).now.badAcc)
      ∧ (∀ m, m ∈ (t.coreAt c).now.badPriv ↔ (source = 10 ∧ (s.coreAt c).running = true ∧ m = n / 64) ∨ m ∈ (s.coreAt c).now.badPriv)
      ∧ (∀ m, m ∈ (t.clusterAt (clusterOfCore c)).bad ↔ (source = 11 ∧ m = n / 64) ∨ m ∈ (s.clusterAt (clusterOfCore c)).bad)
      ∧ (SMap.get {} t.banks (bankOf source (dieOfCore c))).valid = true := by
  intro t
  obtain ⟨u, ht, hcores, hcl, hv⟩ := storeError_eq s c source n
  change t = _ at ht
  have hc : u.coreAt c = s.coreAt c := by rw [State.coreAt, hcores, State.coreAt]
  have hq : u.clusterAt (clusterOfCore c) = s.clusterAt (clusterOfCore c) := by rw [State.clusterAt, hcl, State.clusterAt]
  rw [ht]
  rcases h with rfl | rfl | rfl
  · obtain ⟨hn, hk, hb⟩ := onArchAt_of_running u c (s.coreAt c).running (fun a => { a with badAcc := addUnit a.badAcc n })
    rw [if_pos rfl, hn, hb, State.clusterAt, hk, ← State.clusterAt, hq, hc]
    cases (s.coreAt c).running
    · exact ⟨fun m => by simp, fun m => by simp, fun m => by simp, hv⟩
    · exact ⟨fun m => by simp [mem_addUnit], fun m => by simp, fun m => by simp, hv⟩
  · obtain ⟨hn, hk, hb⟩ := onArchAt_of_running u c (s.coreAt c).running (fun a => { a with badPriv := addUnit a.badPriv n })
    rw [if_neg (by decide), if_pos rfl, hn, hb, State.clusterAt, hk, ← State.clusterAt, hq, hc]
    cases (s.coreAt c).running
    · exact ⟨fun m => by simp, fun m => by simp, fun m => by simp, hv⟩
    · exact ⟨fun m => by simp, fun m => by simp [mem_addUnit], fun m => by simp, hv⟩
  · rw [if_neg (by decide), if_neg (by decide), State.clusterAt_setCluster, if_pos rfl, hq, State.setCluster_banks, hv]
    simp [mem_addUnit, State.coreAt, hcores]

theorem exec_containedError_op {source n : Nat} {o : Op} (h : source = 6 ∨ source = 12 ∨ source = 13 ∨ source = 14) (ho : s.opAt n = some o)
    (hf : o.faulted = false) : Becomes (.containedError c source n) s (s.opContained c source o) := by
  change execContainedError c source n s = _
  rcases h with rfl | rfl | rfl | rfl <;> simp [execContainedError, ho, hf]

theorem exec_containedError_again {source n : Nat} (h : source = 1 ∨ source = 2 ∨ source = 3 ∨ source = 7 ∨ source = 9)
    (hr : (s.coreAt c).running = true) (ht : (s.coreAt c).retry ≠ none) :
    Becomes (.containedError c source n) s (s.containedCore c source) := by
  have hs := Option.isSome_iff_ne_none.2 ht
  have hb := rollsBack_of_source h
  change execContainedError c source n s = _
  rcases h with rfl | rfl | rfl | rfl | rfl <;> simp [execContainedError, hb, hr, hs]

end

/-- Settles O52: the rollback and what stands in its place the second time, the parity failures, the errors in memory and in a store of the
core, an operation's engine and the fatal error, each by its lemma. -/
theorem checkFailures : Obligations.CheckFailures := by
  intro s c source n x
  refine ⟨fun hsrc hrun => ⟨fun hr => ?once, fun hr => ?again⟩, ?rolled, exec_rollback_corrected, l1_dropFailed s c,
    fun e => mem_tlb_dropFailed, fun h4 h5 => ?other, ⟨coreAt_retryOver s c, valid_retryOver⟩, fun hsrc => ?memory, ?line, fun hsrc hn => ?store,
    fun o hsrc ho hf => exec_containedError_op hsrc ho hf, fun unit bank => ?fatal⟩
  case once =>
    obtain ⟨l1, hroll⟩ := coreAt_rollBack s c
    refine ⟨_, exec_rollback_first (rollsBack_of_source hsrc) hrun hr, ?_⟩
    rw [State.onCoreAt, State.coreAt_setCoreAt_self, hroll]
    exact ⟨rfl, rfl, rfl, rfl, rfl, hrun⟩
  case again =>
    exact ⟨exec_rollback_again (rollsBack_of_source hsrc) hrun hr, exec_containedError_again hsrc hrun hr⟩
  case rolled => exact fun st => rfl
  case other =>
    rw [dropFailed_other h4 h5]
    exact ⟨rfl, rfl⟩
  case memory =>
    refine ⟨_, exec_containedError_memory hsrc, valid_mcRecord _ _, fun hpools => mem_poison_memoryError hpools source n,
      fun part pool b hpools hblk hl hu => ?_⟩
    have hmem := congrArg State.mem (poisonBlocks_one (s := withPoison s n) hpools hblk hl hu)
    exact hmem
  case line =>
    rintro rfl hn
    exact ⟨_, exec_containedError_line hn, valid_mcRecord _ _, fun hpools => mem_poisonL2_lineError hpools (n - 2 ^ 23)⟩
  case store => exact ⟨_, exec_containedError_store hsrc hn, storeError_units hsrc⟩
  case fatal =>
    obtain ⟨hv, hrec⟩ := banks_mcRecord s.fresh.2
      { bank := bank % 40, sev := 3, kind := errorKind source 3 (Config.pick s.free), unit := unit, source := source }
    exact ⟨_, rfl, rfl, hv, hrec⟩

end Sys2Proof
end
